-- ==== Sys2Proof/Word.lean ====
section
/-!
DEFINITION. Words, bytes, and the sparse tables that hold everything the GF960 numbers: registers, memory, lanes,
tiles, threads. A register is 32 bits wide (00 R7, Table SCP-4); multi-byte values are little-endian (00 R4).
-/
namespace Sys2Proof

/-- A register word (00, Registers). -/
abbrev Word := BitVec 32

/-- One byte of memory. -/
abbrev Byte := BitVec 8

/-- A sparse table: key and value pairs, keys strictly rising, no pair equal to the table's default.
The operations that keep that form are `SMap.get`, `SMap.put` and `SMap.del` of Machine/Ops.lean. -/
abbrev SMap (α : Type) := List (Nat × α)

end Sys2Proof
end

