-- ==== Sys2Proof/Syntax.lean ====
section
/-!
DEFINITION. The commands of the GF960 and the types of their operands. A command carries what comes from outside the
block (received line levels, a bus write with its master, a measured value); whatever the block holds is in its state.
-/
namespace Sys2Proof

/-- A write of one register word by a master of Table MEM-9, with its byte enables (15 R332). -/
structure BusWrite where
  master : Fin 32
  value : Word
  be : BitVec 4 := 15
  deriving DecidableEq, Repr

/-- A request that writes register words in address order: the first, then byte enables and value of each word after it (15
R332). -/
structure RegWrite where
  first : BusWrite
  more : List (BitVec 4 × Word) := []
  deriving DecidableEq, Repr

/-- A read of a register word by a master, with its byte enables, and of the words after it (15 R332, R346). -/
structure BusRead where
  master : Fin 32
  be : BitVec 4 := 15
  more : List (BitVec 4) := []
  deriving DecidableEq, Repr

/-- A master's port on a group of channels (14 R312, R313). -/
structure PortId where
  group : Fin 4
  master : Fin 32
  deriving DecidableEq, Repr

/-- A CSI-2 packet at the receiver: whether it begins its HS burst, and the bytes of the capture FIFO that have gone to memory
since the packet before (10 R229, R241). -/
structure CsiArrival where
  first : Bool
  drained : Nat
  deriving DecidableEq, Repr

/-- What the host has set in the PCIe configuration space (15 Table HST-1, R349), and what stands in its error reporting. -/
structure PciConfig where
  busMaster : Bool := false
  memSpace : Bool := false
  msixEnable : Bool := false
  fnMask : Bool := false
  /-- Base addresses of BAR0 (with BAR1) and BAR2 (with BAR3). -/
  bar0 : BitVec 64 := 0
  bar2 : BitVec 64 := 0
  /-- Power state D3hot, ASPM L1 enabled. -/
  d3hot : Bool := false
  aspmL1 : Bool := false
  /-- Max payload size: 128 bytes × 2^n, at most 512. -/
  maxPayload : BitVec 2 := 0
  /-- AER: uncorrectable and correctable error status. -/
  aerUncorr : BitVec 32 := 0
  aerCorr : BitVec 32 := 0
  deriving DecidableEq, Repr

/-- The items of Table RST-2: 0 to 35 the blocks of Table RST-3, 36 Registrar and SEC registers, 37 PCIe endpoint and
HST registers, 38 HST mailboxes, 39 RST, OPT and CLK registers. -/
abbrev ResetItem := Fin 40

/-- A hardware thread of a view engine (07, Threads and issue). -/
structure ThreadId where
  hr : Fin 12
  eng : Fin 16
  th : Fin 8
  deriving DecidableEq, Repr

/-- The fields of a Slate or Slate-T instruction word and of its extension word (07 R156, Table SLT-6). -/
structure SlateWord where
  opc : BitVec 8 := 0
  ext : Bool := false
  pn : Bool := false
  pg : BitVec 3 := 0
  ty : BitVec 3 := 0
  d : BitVec 6 := 0
  a : BitVec 6 := 0
  b : BitVec 6 := 0
  c : BitVec 6 := 0
  bsel : BitVec 2 := 0
  mod : BitVec 6 := 0
  imm16 : BitVec 16 := 0
  /-- The extension word: IMM32 and its bits 63:32, which must be 0. -/
  imm32 : BitVec 32 := 0
  immHigh : BitVec 32 := 0
  deriving DecidableEq, Repr

/-- A command: one constructor per row of the opcode table, with what the outside supplies as operands. -/
inductive Instr where
  /-- SLOT_START, R23. A row slot begins at its scheduled cycle after the flip, and the actions tied to that slot start are taken. -/
  | slotStart
  /-- FLIP, R101. The wall-time clock reaches the announced NEXT_FLIP, so the frame counter increments and a new frame begins at slot 0. -/
  | flip
  /-- HOLDOVER_FLIP, R101. No later flip has been announced when the clock reaches last flip plus FLIP_PERIOD, so the Bell-source port flips and HOLDOVER sets. -/
  | holdoverFlip
  /-- FREE_RUN_FLIP, R202. With FREE_RUN_EN set and no flip arriving within P plus one slot, the sequencer flips on its own and then every P cc. -/
  | freeRunFlip
  /-- CHUNK_LAUNCH, R130. An engine that was busy launches its waiting chunk with all 8 threads when its previous chunk ends or is cancelled. -/
  | chunkLaunch (hr : Fin 12) (engine : Fin 16)
  /-- COMPLETENESS_CHECK, R143. When the finishing cursor reaches a lenslet's first emitter, the lenslet is checked for completeness. -/
  | completenessCheck (tile : Fin 16) (u : Fin 768)
  /-- CODEWORD_RECEIVED, R60. A receive lane decodes an RS(544,528) codeword and delivers its corrected or marked blocks 42 cc later. -/
  | codewordReceived (lane : Fin 74) (levels : List (BitVec 2))
  /-- ALIGNMENT_HUNT, R64. Each codeword time the hunter tests candidates, runs a trial decode and on confirmation sets BLOCK_LOCK and CW_LOCK. -/
  | alignmentHunt (lane : Fin 74) (levels : List (BitVec 2))
  /-- LOCK_LOST, R65. A 64-block window with 16 or more invalid headers clears lock, and the lane hunts again. -/
  | lockLost (lane : Fin 74)
  /-- SIG_LOST, R66. 1 µs without signal clears lock and sets SIG_LOST, or enters QUIET after a recent QUIET_NOTICE. -/
  | sigLost (lane : Fin 74)
  /-- STATE_REQ, R70. A write of LANE_CTRL.STATE_REQ requests a lane state or returns control to the link layer. -/
  | stateReq (lane : Fin 74) (b : BusWrite)
  /-- STATE_TRANSITION, R71. A requested lane state transition begins at the next codeword boundary, sending QUIET_NOTICE blocks when entering QUIET. -/
  | stateTransition (lane : Fin 74)
  /-- LANE_STATE_COMPLETE, R79. A lane completes a state transition, acts on any held request and sets EV_LANE_STATE. -/
  | laneStateComplete (lane : Fin 74)
  /-- LANE_TXFIR_WRITE, R69. A LANE_TXFIR write over the tap limit is refused with FIR_REJECT, and otherwise pends to the next boundary. -/
  | laneTxfirWrite (lane : Fin 74) (b : BusWrite)
  /-- TX_CODEWORD_BOUNDARY, R69. At a transmit codeword boundary, pending FIR, PRECODE and PRBS generator settings take effect. -/
  | txCodewordBoundary (lane : Fin 74)
  /-- CHK_LOCK, R76. The PRBS checker locks after 64 agreeing bits and reseeds after 32 disagreements in 64 bits. -/
  | chkLock (lane : Fin 74) (levels : List (BitVec 2))
  /-- INJECT_GO, R77. A write of 1 to LANE_INJECT.GO arms one error injection and sets BUSY. -/
  | injectGo (lane : Fin 74) (b : BusWrite)
  /-- INJECTION, R78. An armed injection corrupts the stream at the next block or codeword boundary, and BUSY clears. -/
  | injection (lane : Fin 74)
  /-- LANE_CNT_CLR, R80. Sets every lane counter of the lane to 0. -/
  | laneCntClr (lane : Fin 74) (b : BusWrite)
  /-- UPSTREAM_BURST, R73. At a granted TXEN instant, the port sends a burst of preamble, delimiter and codewords filled under R105. -/
  | upstreamBurst (port : Fin 2) (grant : Fin 64)
  /-- PACKET, R82. A complete packet of head, data and tail on one lane is checked under R84 and queued for lookup. -/
  | packet (port : Fin 2) (lane : Fin 4)
  /-- FILTER_LOOKUP, R87. 6 cc after the tail, the stream filter runs Detention, reserved, context and sequence tests and delivers the packet. -/
  | filterLookup (port : Fin 2) (lane : Fin 4)
  /-- TAG_CHECK, R93. A tag unit finishes the KMAC256 check 96 cc after absorbing a packet, then runs replay and sequence tests. -/
  | tagCheck (port : Fin 2)
  /-- LOSS_DECLARED, R89. A pending sequence number unfilled for LOSS_HOLD is declared lost, reported and possibly entered for repair. -/
  | lossDeclared
  /-- REPAIR_EXPIRY, R105. A repair entry whose deadline passes, or 10 ms after its request, removes itself and counts in REPAIR_EXP. -/
  | repairExpiry
  /-- BELL_TIMEOUT, R100. With no Bell accepted for 1 ms, TIME_LOCK clears and a SYNC or RANGING port returns to LISTEN. -/
  | bellTimeout (port : Fin 2)
  /-- BELL_SWITCH, R102. After 500 µs without a Bell on the source port, the Bell source switches to a qualifying other port. -/
  | bellSwitch
  /-- JOINED_HOLD_EXPIRY, R109. A JOINED port without lane 0 lock and without a Bell for 100 ms enters LISTEN, clearing PANEL_ID and EQD. -/
  | joinedHoldExpiry (port : Fin 2)
  /-- DETENTION_EXPIRY, R99. A Detention entry whose REMAIN reaches 0 is removed. -/
  | detentionExpiry (entry : Fin 64)
  /-- ASM_LEAVE, R108. A write of 1 to ASM_CTRL.LEAVE makes the port send LEAVE and leave the segment. -/
  | asmLeave (port : Fin 2) (b : BusWrite)
  /-- REJOIN, R108. A write of 1 to REJOIN clears PANEL_ID and EQD and re-enters RANGING or SYNC. -/
  | rejoin (port : Fin 2) (b : BusWrite)
  /-- PORT_EN_WRITE, R108. A write to ASM_CTRL.EN moves the port between OFF and LISTEN. -/
  | portEnWrite (port : Fin 2) (b : BusWrite)
  /-- LOSS_HOLD_WRITE, R89. A change of LOSS_HOLD applies at once, and pending numbers already past the new value are declared lost. -/
  | lossHoldWrite (port : Fin 2) (b : BusWrite)
  /-- ASM_DNQ_POST, R97. Posts a Hall Pass buffer for downstream HOST messages. -/
  | asmDnqPost (port : Fin 2) (b : BusWrite)
  /-- ASM_UPQ_POST, R97. Posts a Hall Pass buffer to be sent upstream. -/
  | asmUpqPost (port : Fin 2) (b : BusWrite)
  /-- ASM_WALL_LO_READ, R346. A read of ASM_WALL_LO latches the wall-time high word for that master. -/
  | asmWallLoRead (b : BusRead)
  /-- ASM_CNT_CLR, R80. Sets every counter of the port to 0. -/
  | asmCntClr (port : Fin 2) (b : BusWrite)
  /-- DECODER_ASSIGN, R119. A waiting slice moves from the reassembly area to a decoder that has become free. -/
  | decoderAssign (decoder : Fin 4)
  /-- DECODER_START, R122. A decoder starts a complete slice, applies the acceptance and target tests, then checks and decodes it. -/
  | decoderStart (decoder : Fin 4)
  /-- PUBLISH, R122. 8 cc after a slice's last write completes, the target generation becomes valid with its scene frame. -/
  | publish (decoder : Fin 4)
  /-- SLICE_DEADLINE, R125. When a slice's deadline passes, concealment, lateness and expiry are evaluated. -/
  | sliceDeadline (layer : Fin 16) (col : Fin 1024) (row : Fin 1024)
  /-- SPLICE_TEST, R47. At t_A plus 102 or 114 cc, each target lenslet is tested against the cursor and the insert budget. -/
  | spliceTest
  /-- ROW_SPLICE, R269. 4 cc after the splice test, the first insert's INS_FIRST is handed to its tile lane. -/
  | rowSplice
  /-- DEC_STORE_WRITE, R116. A DEC_STORE write sets the store base within range, or changes nothing, and invalidates every generation. -/
  | decStoreWrite (b : BusWrite)
  /-- DEC_CNT_CLR, R80. Sets every decoder counter to 0. -/
  | decCntClr (b : BusWrite)
  /-- SAMPLER_REQUEST, R174. A sampler takes an SMP request from an engine queue and returns results at least 28 cycles later. -/
  | samplerRequest (hr : Fin 12) (sampler : Fin 4) (channel : Fin 16) (upsets : List (BitVec 31 × Bool))
  /-- PV_DONE, R148. By the end of slot 433, the proof-view buffer is returned and EV_PV_DONE is set. -/
  | pvDone
  /-- HR_PV_POST, R146. Posts a proof-view buffer to the queue of 4. -/
  | hrPvPost (b : BusWrite)
  /-- HR_CNT_CLR, R80. Sets the per-Homeroom counters to 0. -/
  | hrCntClr (hr : Fin 12) (b : BusWrite)
  /-- HR_SYN_CNT_CLR, R80. Sets the device-wide synthesis counters to 0. -/
  | hrSynCntClr (b : BusWrite)
  /-- NOP, R162. Slate NOP does nothing for one issue cycle. -/
  | nop (t : ThreadId) (w : SlateWord)
  /-- BR, R162. Slate BR branches when the ANY, ALL or NONE test of the guard bits holds. -/
  | br (t : ThreadId) (w : SlateWord)
  /-- JMP, R162. Slate JMP sets PC from a scalar register. -/
  | jmp (t : ThreadId) (w : SlateWord)
  /-- CALL, R162. Slate CALL pushes the return address and branches. -/
  | call (t : ThreadId) (w : SlateWord)
  /-- RET, R162. Slate RET pops PC from the call stack. -/
  | ret (t : ThreadId) (w : SlateWord)
  /-- EXIT, R182. Slate EXIT waits for the thread's stream tags and ends the thread. -/
  | exit (t : ThreadId) (w : SlateWord)
  /-- TRAP, R162. Slate TRAP raises the TRAP exception. -/
  | trap (t : ThreadId) (w : SlateWord)
  /-- SADD, R163. Scalar add. -/
  | sadd (t : ThreadId) (w : SlateWord)
  /-- SSUB, R163. Scalar subtract. -/
  | ssub (t : ThreadId) (w : SlateWord)
  /-- SMUL, R163. Scalar multiply. -/
  | smul (t : ThreadId) (w : SlateWord)
  /-- SAND, R163. Scalar bitwise AND. -/
  | sand (t : ThreadId) (w : SlateWord)
  /-- SOR, R163. Scalar bitwise OR. -/
  | sor (t : ThreadId) (w : SlateWord)
  /-- SXOR, R163. Scalar bitwise XOR. -/
  | sxor (t : ThreadId) (w : SlateWord)
  /-- SSHL, R163. Scalar shift left. -/
  | sshl (t : ThreadId) (w : SlateWord)
  /-- SSHR, R163. Scalar shift right, logical or arithmetic by type. -/
  | sshr (t : ThreadId) (w : SlateWord)
  /-- SMIN, R163. Scalar minimum. -/
  | smin (t : ThreadId) (w : SlateWord)
  /-- SMAX, R163. Scalar maximum. -/
  | smax (t : ThreadId) (w : SlateWord)
  /-- SMOV, R163. Scalar move. -/
  | smov (t : ThreadId) (w : SlateWord)
  /-- SMFSR, R163. Reads a special register into a scalar register. -/
  | smfsr (t : ThreadId) (w : SlateWord)
  /-- SCMP, R163. Scalar compare that writes all ones or all zeros to a predicate. -/
  | scmp (t : ThreadId) (w : SlateWord)
  /-- SGETL, R163. Reads one lane of a vector register into a scalar register. -/
  | sgetl (t : ThreadId) (w : SlateWord)
  /-- VADD, R164. Vector add. -/
  | vadd (t : ThreadId) (w : SlateWord)
  /-- VSUB, R164. Vector subtract. -/
  | vsub (t : ThreadId) (w : SlateWord)
  /-- VMUL, R164. Vector multiply. -/
  | vmul (t : ThreadId) (w : SlateWord)
  /-- VMAD, R164. Vector fused multiply-add. -/
  | vmad (t : ThreadId) (w : SlateWord)
  /-- VMIN, R164. Vector minimum. -/
  | vmin (t : ThreadId) (w : SlateWord)
  /-- VMAX, R164. Vector maximum. -/
  | vmax (t : ThreadId) (w : SlateWord)
  /-- VABS, R164. Vector absolute value. -/
  | vabs (t : ThreadId) (w : SlateWord)
  /-- VNEG, R164. Vector negate. -/
  | vneg (t : ThreadId) (w : SlateWord)
  /-- VAND, R164. Vector bitwise AND. -/
  | vand (t : ThreadId) (w : SlateWord)
  /-- VOR, R164. Vector bitwise OR. -/
  | vor (t : ThreadId) (w : SlateWord)
  /-- VXOR, R164. Vector bitwise XOR. -/
  | vxor (t : ThreadId) (w : SlateWord)
  /-- VSHL, R164. Vector shift left. -/
  | vshl (t : ThreadId) (w : SlateWord)
  /-- VSHR, R164. Vector shift right. -/
  | vshr (t : ThreadId) (w : SlateWord)
  /-- VMOV, R164. Vector move. -/
  | vmov (t : ThreadId) (w : SlateWord)
  /-- VSEL, R164. Vector select by predicate. -/
  | vsel (t : ThreadId) (w : SlateWord)
  /-- VSHFL, R164. Vector lane shuffle. -/
  | vshfl (t : ThreadId) (w : SlateWord)
  /-- VRCP, R165. Vector reciprocal. -/
  | vrcp (t : ThreadId) (w : SlateWord)
  /-- VSQRT, R165. Vector square root. -/
  | vsqrt (t : ThreadId) (w : SlateWord)
  /-- VRSQ, R165. Vector reciprocal square root. -/
  | vrsq (t : ThreadId) (w : SlateWord)
  /-- VFLOOR, R165. Vector floor. -/
  | vfloor (t : ThreadId) (w : SlateWord)
  /-- VSAT, R165. Vector saturate to 0.0 to 1.0. -/
  | vsat (t : ThreadId) (w : SlateWord)
  /-- VCVT, R166. Vector type conversion with a selected rounding mode. -/
  | vcvt (t : ThreadId) (w : SlateWord)
  /-- VCMP, R167. Vector compare into a predicate. -/
  | vcmp (t : ThreadId) (w : SlateWord)
  /-- PAND, R164. Predicate AND. -/
  | pand (t : ThreadId) (w : SlateWord)
  /-- POR, R164. Predicate OR. -/
  | por (t : ThreadId) (w : SlateWord)
  /-- PXOR, R164. Predicate XOR. -/
  | pxor (t : ThreadId) (w : SlateWord)
  /-- PNOT, R164. Predicate NOT. -/
  | pnot (t : ThreadId) (w : SlateWord)
  /-- PSET, R164. Sets a predicate from two scalars. -/
  | pset (t : ThreadId) (w : SlateWord)
  /-- PGET, R164. Reads half of a predicate into a scalar. -/
  | pget (t : ThreadId) (w : SlateWord)
  /-- PCNT, R164. Counts the set bits of a predicate. -/
  | pcnt (t : ThreadId) (w : SlateWord)
  /-- LDV, R168. Vector gather load from Homeroom memory. -/
  | ldv (t : ThreadId) (w : SlateWord)
  /-- STV, R168. Vector scatter store to Homeroom memory. -/
  | stv (t : ThreadId) (w : SlateWord)
  /-- LDB, R168. Vector block load from Homeroom memory. -/
  | ldb (t : ThreadId) (w : SlateWord)
  /-- STB, R168. Vector block store to Homeroom memory. -/
  | stb (t : ThreadId) (w : SlateWord)
  /-- LDS, R168. Scalar load from Homeroom memory. -/
  | lds (t : ThreadId) (w : SlateWord)
  /-- STS, R168. Scalar store to Homeroom memory. -/
  | sts (t : ThreadId) (w : SlateWord)
  /-- ATADD, R168. Atomic add on a shared-region word. -/
  | atadd (t : ThreadId) (w : SlateWord)
  /-- STRM, R170. Starts a stream copy from a memory group into Homeroom memory under a tag. -/
  | strm (t : ThreadId) (w : SlateWord)
  /-- STREAM_COMPLETE, R171. All lines of a stream tag arrive or fail, completing the tag. -/
  | streamComplete (t : ThreadId) (tag : Fin 4)
  /-- SWAIT, R171. Waits for the named stream tags and raises STREAM on an error line. -/
  | swait (t : ThreadId) (w : SlateWord)
  /-- SEAT, R172. Interpolates Seating Chart corrections for a RAYID and returns the corrected position and slopes. -/
  | seat (t : ThreadId) (w : SlateWord)
  /-- SMP, R173. Queues a bilinear sample of a stack entry at a ray's sample point. -/
  | smp (t : ThreadId) (w : SlateWord)
  /-- BLEND_PM, R175. Premultiplied front-to-back blend into the accumulator, with optional predicate output. -/
  | blendPm (t : ThreadId) (w : SlateWord)
  /-- BLEND_ST, R175. Straight-alpha front-to-back blend into the accumulator. -/
  | blendSt (t : ThreadId) (w : SlateWord)
  /-- ST_RING, R176. Stores a view's three colours into the row ring as UF20 and sets the view-mask bit. -/
  | stRing (t : ThreadId) (w : SlateWord)
  /-- BAR, R177. The thread waits at a barrier with the given identifier. -/
  | bar (t : ThreadId) (w : SlateWord)
  /-- BAR_RELEASE, R177. When the last live thread reaches a matching BAR, the waiting threads resume. -/
  | barRelease (hr : Fin 12) (engine : Fin 16)
  /-- FENCE, R178. Waits until the thread's earlier stores are visible to all engines of the Homeroom. -/
  | fence (t : ThreadId) (w : SlateWord)
  /-- MSG, R179. Posts a message to the sequencer's engine-message queue, waiting if it is full. -/
  | msg (t : ThreadId) (w : SlateWord)
  /-- SLATE_T_NOP, R187. Slate-T NOP. -/
  | slateTNop (w : SlateWord)
  /-- SET, R187. Slate-T SET writes a T register. -/
  | set (w : SlateWord)
  /-- ADD, R187. Slate-T ADD. -/
  | add (w : SlateWord)
  /-- SUB, R187. Slate-T SUB. -/
  | sub (w : SlateWord)
  /-- AND, R187. Slate-T AND. -/
  | and (w : SlateWord)
  /-- OR, R187. Slate-T OR. -/
  | or (w : SlateWord)
  /-- SHR, R187. Slate-T logical shift right. -/
  | shr (w : SlateWord)
  /-- RDSR, R188. Reads a sequencer special register. -/
  | rdsr (w : SlateWord)
  /-- SLATE_T_BR, R187. Slate-T conditional branch. -/
  | slateTBr (w : SlateWord)
  /-- WAITROW, R187. Waits until a given slot of the current frame has begun. -/
  | waitrow (w : SlateWord)
  /-- WAITBELL, R187. Waits for the next Bell accepted on the Bell-source port. -/
  | waitbell (w : SlateWord)
  /-- DISPATCH, R193. Queues row-work descriptors, one per cc, waiting when the queue is full. -/
  | dispatch (w : SlateWord)
  /-- BINDL, R195. Arms a layer-binding mask for the next slot 447. -/
  | bindl (w : SlateWord)
  /-- COMMIT, R196. Names commit groups, performed at once in the window or waiting for slot 432. -/
  | commit (w : SlateWord)
  /-- MODE, R203. Requests a rate code, which is fixed at slot 447 and switched at the next flip. -/
  | mode (w : SlateWord)
  /-- SLATE_T_FLIP, R190. Ends the run and waits for the next flip. -/
  | slateTFlip (w : SlateWord)
  /-- RCVM, R207. Takes the oldest engine message, or waits for one, or returns empty. -/
  | rcvm (w : SlateWord)
  /-- SIGNAL, R208. Writes SEQ_SIGNAL.CODE and sets EV_SEQ_SIGNAL. -/
  | signal (w : SlateWord)
  /-- SEQ_EN_WRITE, R192. A SEQ_CTRL.EN write to 1 starts runs at the next flip; a write to 0 ends the run, empties the queue and blanks. -/
  | seqEnWrite (b : BusWrite)
  /-- SEQ_RESTART, R192. A write of 1 to RESTART clears any halt and restarts the sequencer at the next flip with a blanked frame. -/
  | seqRestart (b : BusWrite)
  /-- FREE_RUN_EN_WRITE, R202. A write of 0 to FREE_RUN_EN stops local flipping at once. -/
  | freeRunEnWrite (b : BusWrite)
  /-- SEQ_FRAME_LO_READ, R200. A read of SEQ_FRAME_LO latches the frame high word and the flip time. -/
  | seqFrameLoRead (b : BusRead)
  /-- SEQ_CNT_CLR, R80. Sets the sequencer counters to 0. -/
  | seqCntClr (b : BusWrite)
  /-- GEO_MARGIN_ARM, R33. A write of 1 to SEQ_GEO_MARGIN.ARM arms the footprint shadows for the next commit. -/
  | geoMarginArm (b : BusWrite)
  /-- PLC_REBUILD, R215. Requests a REBUILD for each named tile. -/
  | plcRebuild (b : BusWrite)
  /-- PLC_LOAD, R214. Requests a mesh LOAD of a tile from a Hall Pass buffer. -/
  | plcLoad (b : BusWrite)
  /-- CHART_UPDATE_COMPLETE, R212. The last staging node of an update is written, and the update awaits exchange. -/
  | chartUpdateComplete (tile : Fin 16)
  /-- LOAD_COPY_DONE, R216. A LOAD buffer has been copied into the base copy, the buffer is returned and the rebuild follows. -/
  | loadCopyDone (tile : Fin 16)
  /-- FIT, R220. Within 40 µs of a camera frame's centroids, the tile fit is computed and accepted, skipped or rejected. -/
  | fit (tile : Fin 16)
  /-- FIT_STALE, R224. A tile whose last accepted fit exceeds STALE_MS becomes stale. -/
  | fitStale (tile : Fin 16)
  /-- CHART_WINDOW_READ, R226. A read at 8k of the chart window latches that node's high word. -/
  | chartWindowRead (node : Fin 85360) (b : BusRead)
  /-- PLC_CNT_CLR, R80. Sets the placement counters to 0. -/
  | plcCntClr (b : BusWrite)
  /-- CSI2_PACKET, R229. A CSI-2 packet header is ECC-checked, and the packet is handled by data type. -/
  | csi2Packet (header : BitVec 32) (payload : List Byte) (crc : BitVec 16) (at_ : CsiArrival) (lanes : BitVec 5)
  /-- SPOT_PUBLISH, R240. Within 2 µs of frame completion, the spot results and status are published. -/
  | spotPublish (pipe : Fin 4)
  /-- CAM_BIND, R230. A write of 1 to BIND binds the pipeline to VC_REQ, or sets BIND_CONFLICT. -/
  | camBind (pipe : Fin 4) (b : BusWrite)
  /-- CAM_UNBIND, R230. A write of 1 to UNBIND releases the pipeline's binding and aborts any open frame. -/
  | camUnbind (pipe : Fin 4) (b : BusWrite)
  /-- CAM_EN_WRITE, R235. A write of 0 to CAM_CTRL.EN ends an open frame without results. -/
  | camEnWrite (pipe : Fin 4) (b : BusWrite)
  /-- CAM_RX_EN_WRITE, R235. A write of 0 to CAM_RX_CTRL.EN holds lanes in LP and ends open frames. -/
  | camRxEnWrite (b : BusWrite)
  /-- CAM_CAP_POST, R241. Posts a capture buffer. -/
  | camCapPost (pipe : Fin 4) (b : BusWrite)
  /-- SPOT_RESULT_READ, R240. A read of a spot result word 0 latches its word 1. -/
  | spotResultRead (entry : Fin 128) (b : BusRead)
  /-- CAM_CNT_CLR, R80. Sets the pipeline counters to 0. -/
  | camCntClr (pipe : Fin 4) (b : BusWrite)
  /-- CAM_RX_CNT_CLR, R80. Sets the receiver counters to 0. -/
  | camRxCntClr (b : BusWrite)
  /-- FIN_GAIN_LOAD, R249. Requests a lenslet-gain load for a tile. -/
  | finGainLoad (b : BusWrite)
  /-- GAIN_COPY, R248. At slot 432, after row 431 clears F6, the staged gains are copied into the store and the buffer is returned. -/
  | gainCopy
  /-- NO_TEMP, R251. A tile's temperature report older than 100 ms raises NO_TEMP. -/
  | noTemp (tile : Fin 16)
  /-- FIN_ARM, R252. Arms the finishing-parameter shadows for the next commit. -/
  | finArm (b : BusWrite)
  /-- FIN_RES_BASE_WRITE, R243. A write of the residual map bases is refused if a map would lie beyond the group. -/
  | finResBaseWrite (b : BusWrite)
  /-- FIN_CNT_CLR, R80. Sets the finishing counters to 0. -/
  | finCntClr (b : BusWrite)
  /-- CMD_HANDOVER, R271. A waiting tile command is handed to lane 0 when the lane carries no row. -/
  | cmdHandover (tile : Fin 16)
  /-- CMD_RESULT, R272. A CMD_RESULT on the return lane completes its outstanding command. -/
  | cmdResult (tile : Fin 16)
  /-- CMD_TIMEOUT, R272. A command unanswered 25 µs after handover completes with TIMEOUT. -/
  | cmdTimeout (tile : Fin 16)
  /-- RET_STATUS, R275. A RET_STATUS updates the tile temperature and the error counts. -/
  | retStatus (tile : Fin 16)
  /-- FAULT, R275. A FAULT block is latched in TLK_FAULTn and sets EV_TLK_FAULT. -/
  | fault (tile : Fin 16)
  /-- IDENT, R275. An IDENT block is latched in TLK_IDENTn. -/
  | ident (tile : Fin 16)
  /-- HCMD_GO, R273. A write of 1 to TLK_HCMD.GO issues a host command to a tile. -/
  | hcmdGo (b : BusWrite)
  /-- TLK_HRES_ACK, R273. A write of the current SEQ to TLK_HRES_ACK clears VALID. -/
  | tlkHresAck (b : BusWrite)
  /-- TLK_HRES_LO_READ, R273. A read of TLK_HRES_LO latches TLK_HRES_HI. -/
  | tlkHresLoRead (b : BusRead)
  /-- TILE_EN_WRITE, R276. A write of EN[n] wakes a tile, or starts its shutdown sequence with BLANK_NOW and IREF release. -/
  | tileEnWrite (b : BusWrite)
  /-- TILE_RESET, R276. A write of 1 to RESET[n] shuts the tile down, holds TILE_EN low for 1 ms and re-enters WAKING. -/
  | tileReset (b : BusWrite)
  /-- TILE_EN_DRIVE_LOW, R276. 10 µs after shutdown starts, TILE_EN is driven low and the lanes are requested DORMANT. -/
  | tileEnDriveLow (tile : Fin 16)
  /-- TILE_RESET_HOLD_END, R276. After the 1 ms reset hold, the tile re-enters WAKING. -/
  | tileResetHoldEnd (tile : Fin 16)
  /-- TILE_DOWN, R274. A LINKED tile without return lock or status for RET_HOLD ms enters DOWN. -/
  | tileDown (tile : Fin 16)
  /-- REFERENCE_CHECK, R280. Every 1 ms the references are checked, and REF_FAULT sets or clears. -/
  | referenceCheck (refv : Nat) (refr : Nat)
  /-- TLK_ARM, R196. Arms the tile-link shadows, TLK_RANGE and TLK_BLANK, for the next commit. -/
  | tlkArm (b : BusWrite)
  /-- TLK_CNT_CLR, R80. Sets the tile-link counters to 0. -/
  | tlkCntClr (b : BusWrite)
  /-- TRIM_MEASUREMENT, R292. A 40 µs IREF mirror measurement completes and updates the trim target. -/
  | trimMeasurement (trim : BitVec 24)
  /-- CAL_ELEC, R297. Requests an electrical self-calibration. -/
  | calElec (b : BusWrite)
  /-- CAL_SWEEP, R297. Requests a sensing sweep. -/
  | calSweep (b : BusWrite)
  /-- CAL_REC, R300. Requests a write of the calibration record. -/
  | calRec (b : BusWrite)
  /-- RECORD_WRITE, R300. The calibration record is written with a new GEN into the oldest posted buffer, once one is posted. -/
  | recordWrite
  /-- CAL_REC_POST, R300. Posts a buffer to receive calibration records. -/
  | calRecPost (b : BusWrite)
  /-- CAL_REC_LOAD, R299. Posts a calibration record, which is checked by MAGIC, VERSION and DIGEST. -/
  | calRecLoad (b : BusWrite)
  /-- CAL_BASE_LOAD, R298. Requests a base-map load for a tile region. -/
  | calBaseLoad (b : BusWrite)
  /-- BASE_LOAD_DONE, R298. A base-map load finishes copying, restarts the tile's blend and sets EV_CAL_BASE_DONE. -/
  | baseLoadDone (tile : Fin 16)
  /-- CHECKPOINT, R301. Every PERIOD seconds a checkpoint generation of the stress region starts. -/
  | checkpoint
  /-- CKPT_NOW, R301. A write of 1 to NOW starts a checkpoint generation. -/
  | ckptNow (b : BusWrite)
  /-- CHECKPOINT_DONE, R301. When the last checkpoint buffer returns, EV_RPT_CKPT_DONE is set and LAST_GEN updates. -/
  | checkpointDone
  /-- RPT_CKPT_POST, R301. Posts a checkpoint buffer. -/
  | rptCkptPost (b : BusWrite)
  /-- RPT_REST_POST, R302. Posts a restore buffer, which is checked and restored in INDEX order. -/
  | rptRestPost (b : BusWrite)
  /-- RPT_CLEAR, R302. A write of 1 to CLEAR zeroes the stress region while EN is 0. -/
  | rptClear (b : BusWrite)
  /-- RPT_CNT_CLR, R80. Sets the Report Card counters to 0. -/
  | rptCntClr (b : BusWrite)
  /-- CAL_CNT_CLR, R80. Sets the calibration counters to 0. -/
  | calCntClr (b : BusWrite)
  /-- DMC_REQUEST, R314. A memory request is accepted by its channel queue after the Proctor check. -/
  | dmcRequest (master : Fin 32) (write : Bool) (addr : BitVec 37) (n : Fin 4097) (data : List Byte)
  /-- CHANNEL_COMMAND, R312. In each command slot a channel issues the highest-urgency eligible command. -/
  | channelCommand (channel : Fin 16) (upsets : List (BitVec 31 × Bool))
  /-- FORCED_DRAIN, R313. A flush from a port forces drain of every channel that holds its writes. -/
  | forcedDrain (port : PortId)
  /-- FLUSH_ACK, R322. When all of a decoder's writes are accepted, its flush is acknowledged. -/
  | flushAck (decoder : Fin 4)
  /-- REFRESH, R316. A channel refreshes one bank with per-bank refresh or refresh management. -/
  | refresh (channel : Fin 16) (bank : Fin 16) (manage : Bool)
  /-- TRAINING, R317. Channels train after power-up, failing any that do not pass. -/
  | training (channel : Fin 16) (pass : Bool)
  /-- PERIODIC_RETRAIN, R317. Every INTERVAL ms a channel retrains within its allowed window. -/
  | periodicRetrain (channel : Fin 16) (pass : Bool)
  /-- DMC_RETRAIN, R317. A write of 1 to RETRAIN makes every channel retrain at its next opportunity. -/
  | dmcRetrain (b : BusWrite)
  /-- PARITY_ALERT, R318. A parity alert makes the channel replay its retry buffer. -/
  | parityAlert (channel : Fin 16)
  /-- SCRUB_READ, R324. Every GAP fc the scrubber reads the next line of each channel and writes back corrections. -/
  | scrubRead (channel : Fin 16) (upsets : List (BitVec 31 × Bool))
  /-- SRAM_SCRUB, R325. The scrubber checks on-die array words and corrects or handles uncorrectable ones. -/
  | sramScrub (array : Fin 6) (index : Nat) (lost : Bool)
  /-- DMC_WM_WRITE, R313. A DMC_WM write that gives LOW at or above HIGH, or HIGH above 32, changes nothing. -/
  | dmcWmWrite (b : BusWrite)
  /-- DMC_ERR_ADDR_LO_READ, R310. A read of DMC_ERR_ADDR_LO latches the high word. -/
  | dmcErrAddrLoRead (b : BusRead)
  /-- PRC_VIOL_ADDR_LO_READ, R327. A read of PRC_VIOL_ADDR_LO latches the high word. -/
  | prcViolAddrLoRead (target : Fin 23) (b : BusRead)
  /-- PRC_LOCK_WRITE, R423. Setting a Proctor's LOCK freezes its entries and extends M4. -/
  | prcLockWrite (target : Fin 23) (b : BusWrite)
  /-- PRC_LOCK_CNT_CLR, R80. Sets PRC_VIOL_CNT to 0. -/
  | prcLockCntClr (target : Fin 23) (b : BusWrite)
  /-- DMC_CNT_CLR, R80. Sets the memory counters to 0. -/
  | dmcCntClr (b : BusWrite)
  /-- REGISTER_WRITE, R7. A host or master write to a register with no row of its own stores fields by access type. -/
  | registerWrite (off : BitVec 26) (b : RegWrite)
  /-- PERST, R330. PERST# resets the endpoint, configuration space, HST registers and window path. -/
  | perst
  /-- FLR, R330. Function Level Reset resets the endpoint function and keeps the link trained. -/
  | flr
  /-- WINDOW_WRITE, R339. A host BAR2 write is dropped if it touches a registered extent, and otherwise written. -/
  | windowWrite (off : BitVec 30) (bytes : List Byte)
  /-- POST_CHECK, R337. Within 2 µs of a post, the ownership word is checked and the extent is registered, or the post is refused. -/
  | postCheck
  /-- MBOX_ACK, R342. A write of the current SEQ to a mailbox's ACK clears VALID. -/
  | mboxAck (k : Fin 4) (b : BusWrite)
  /-- MBOX_READ, R342. A read of a mailbox's first word latches its remaining words. -/
  | mboxRead (k : Fin 4) (b : BusRead)
  /-- ROLL_CALL_TRIGGER, R344. A periodic or frame trigger starts a Roll Call snapshot, or is skipped. -/
  | rollCallTrigger
  /-- RC_NOW, R344. A write of 1 to RC_CTRL.NOW triggers one snapshot. -/
  | rcNow (b : BusWrite)
  /-- SNAPSHOT_DONE, R347. A snapshot's reads and writes complete, its buffer is returned or posted upstream, and HST_MBOX3 receives the result. -/
  | snapshotDone
  /-- RC_POST, R345. Posts a snapshot buffer. -/
  | rcPost (b : BusWrite)
  /-- RC_CNT_CLR, R80. Sets the Roll Call counters to 0. -/
  | rcCntClr (b : BusWrite)
  /-- EVT_STATUS_CLEAR, R348. A W1C write to EVT_STATUSg clears event status bits. -/
  | evtStatusClear (group : Fin 9) (b : BusWrite)
  /-- EVT_ENABLE_WRITE, R349. Enabling an event whose STATUS is 1 is an assertion. -/
  | evtEnableWrite (group : Fin 9) (b : BusWrite)
  /-- EVT_SOFT_SET, R351. A write of 1 to a bit of EVT_SOFT_SET is an occurrence of EV_SOFTn. -/
  | evtSoftSet (b : BusWrite)
  /-- GPIO_EDGE, R352. A filtered GPIO level change sets EV_GPIO_RISEn or EV_GPIO_FALLn. -/
  | gpioEdge (levels : BitVec 16)
  /-- MSIX_MESSAGE, R349. A pending MSI-X vector sends its message once it is unmasked and the link has credit. -/
  | msixMessage (vector : Fin 64) (cfg : PciConfig)
  /-- HP_CNT_CLR, R80. Sets HP_VIOL_CNT to 0. -/
  | hpCntClr (b : BusWrite)
  /-- SAT_JOB_GO, R360. A write of GO queues the staged Satchel job, or sets QFULL. -/
  | satJobGo (b : BusWrite)
  /-- SAT_ABORT, R363. A write of 1 to ABORT ends running register-queue jobs and empties the queue. -/
  | satAbort (b : BusWrite)
  /-- JOB_START, R361. A unit takes its next job and checks it, or refuses it with BAD_JOB. -/
  | jobStart (decompress : Bool)
  /-- JOB_END, R362. A job ends and its result goes to HST_MBOX1. -/
  | jobEnd (decompress : Bool)
  /-- SAT_CNT_CLR, R80. Sets the Satchel counters to 0. -/
  | satCntClr (b : BusWrite)
  /-- BLT_OP_GO, R370. A write of GO copies the staged fields into a blitter operation, or refuses it. -/
  | bltOpGo (b : BusWrite)
  /-- BLT_ABORT, R377. A write of 1 to ABORT ends the running blitter operation. -/
  | bltAbort (b : BusWrite)
  /-- BLIT_BURST, R372. After the previous burst and DEAD fc, one burst reads its bytes and then writes the destination. -/
  | blitBurst
  /-- BLT_COMMIT_GO, R379. Requests a region commit of a plane. -/
  | bltCommitGo (b : BusWrite)
  /-- SYNCHRONISATION, R381. A ready region-commit synchronisation starts its copy at a job boundary. -/
  | synchronisation
  /-- BLT_PLANE_ARM, R368. Arms the plane register shadows for the next commit. -/
  | bltPlaneArm (b : BusWrite)
  /-- BLT_CNT_CLR, R80. Sets the blitter counters to 0. -/
  | bltCntClr (b : BusWrite)
  /-- ROOT_LOCK_DETECT, R382. The root PLL asserts lock-detect. -/
  | rootLockDetect
  /-- ROOT_STABLE, R382. 32,768 REFCLK cycles after lock-detect the root is stable, and the domains start. -/
  | rootStable
  /-- ROOT_LOCK_LOSS, R382. A loss of root lock after stability asserts the brown-out source. -/
  | rootLockLoss
  /-- DOMAIN_STABLE, R384. A domain finishes its stability count and becomes stable. -/
  | domainStable (domain : Fin 6)
  /-- ENGINE_TARGET_CHANGE, R385. A change of THERM_DIV or FORCE_DIV starts or holds an engine divider switch. -/
  | engineTargetChange
  /-- QUIESCE_DONE, R386. The engine domain finishes draining, the clock stops, the divider switches and the clock restarts. -/
  | quiesceDone
  /-- RATIO_RAMP_STEP, R387. After 256 cycles, a ramping switch moves the divider one step. -/
  | ratioRampStep
  /-- CLK_GATE_WRITE, R388. A GATE bit write requests closure or opens a block's gate. -/
  | clkGateWrite (group : Fin 2) (b : BusWrite)
  /-- GATE_CLOSE, R388. A gate closes at the first idle fabric cycle of its block. -/
  | gateClose (block : Fin 36)
  /-- GATE_TIMEOUT, R388. After 4,096 fc without idle, accesses are errored and the gate closes with TIMEOUT. -/
  | gateTimeout (block : Fin 36)
  /-- POR_AND_BROWN_OUT, R391. A rail out of range resets everything without order. -/
  | porAndBrownOut
  /-- NRST, R391. nRST held low for 1 µs asserts the nRST source with ordered assertion. -/
  | nrst
  /-- SEC_RESET, R391. A write of SEC_CTRL.RESET with its key asserts the security reset source. -/
  | secReset (b : BusWrite)
  /-- RST_DEVICE_GO, R400. A keyed write of RST_DEVICE.GO asserts the device reset source. -/
  | rstDeviceGo (b : BusWrite)
  /-- RST_BLOCK_WRITE, R395. A write of RST_BLOCK bits asserts or releases block resets. -/
  | rstBlockWrite (group : Fin 2) (b : BusWrite)
  /-- BLOCK_RELEASE, R396. A block leaves reset once all covering sources are released and its domain is stable. -/
  | blockRelease (item : ResetItem) (copyA copyB : List Byte)
  /-- OPTION_LOADER, R397. The option loader completes its majority read of the option bytes and sets LOADED. -/
  | optionLoader
  /-- BOOT_HOLD_RELEASE, R398. A write of RELEASE by the Registrar releases the boot-held blocks. -/
  | bootHoldRelease (b : BusWrite)
  /-- AVS_STEP, R402. Every 100 µs the voltage loop moves the core target by at most 2.5 mV from the monitor slack. -/
  | avsStep (core fabric engine : BitVec 8) (readBack : Option (BitVec 16)) (accepted : Bool)
  /-- AVS_RESUME, R405. A write of 1 to RESUME clears HOLD and restarts the loop from read-back. -/
  | avsResume (b : BusWrite)
  /-- PMBUS_TELEMETRY, R405. Every 10 ms the regulator telemetry is read over PMBus. -/
  | pmbusTelemetry (good : Bool) (vin iout temp : BitVec 16)
  /-- AVS_LIMITS_WRITE, R402. An AVS_LIMITS write out of range, or with VMIN above VMAX, changes nothing. -/
  | avsLimitsWrite (b : BusWrite)
  /-- SENSOR_CONVERSION, R406. An on-die sensor is converted at 1 or 10 kHz and judged bad or valid. -/
  | sensorConversion (sensor : Fin 32) (raw : Word) (temp : Option (BitVec 16))
  /-- RATE_TEST, R408. Every 100 ms each source is tested for rise, raising or ending the rate condition. -/
  | rateTest
  /-- THM_TICK, R410. Every 100 µs THM evaluates ask, stage moves and trip. -/
  | thmTick
  /-- COMPARATOR_FIRE, R411. A hardware comparator at the die TRIP threshold forces a trip within 10 µs. -/
  | comparatorFire (sensor : Fin 32) (temp : BitVec 16)
  /-- TRIP_CLR, R411. A write of 1 to TRIP_CLR allows a latched trip to end. -/
  | tripClr (b : BusWrite)
  /-- THM_BAD_CLEAR, R407. Clearing a THM_BAD bit re-judges the source and restarts its stuck count. -/
  | thmBadClear (tiles : Bool) (b : BusWrite)
  /-- LIFECYCLE_ADVANCE, R414. A keyed ADVANCE by master 0 programs the next lifecycle bit and asserts the security reset. -/
  | lifecycleAdvance (b : BusWrite)
  /-- IMAGE_VERIFICATION, R415. A complete image is verified by format, root, key, rollback, signature and decompression. -/
  | imageVerification
  /-- SEC_IMG_POST, R420. Posts a Hall Pass buffer holding an image. -/
  | secImgPost (b : BusWrite)
  /-- FRAME_PROGRAM_APPLY, R422. A pending FRAME_PROGRAM image is written when the sequencer waits in FLIP within the window. -/
  | frameProgramApply
  /-- SEC_EXTEND_GO, R423. A write of GO extends M5 with the SEC_EXTEND_DATA words. -/
  | secExtendGo (b : BusWrite)
  /-- SEC_ATT_POST, R425. Posts a buffer for a measurement report. -/
  | secAttPost (b : BusWrite)
  /-- MEASUREMENT_REPORT, R425. A report is formed, signed with the next leaf and returned with its result. -/
  | measurementReport (treeCache : List Byte)
  /-- ASMKEY_COMMIT, R427. A write of COMMIT installs the key data words into a key slot. -/
  | asmkeyCommit (b : BusWrite)
  /-- SEC_CNT_CLR, R80. Sets the Registrar counters to 0. -/
  | secCntClr (b : BusWrite)
  /-- SIGNAL_DETECT, R67. A signal appears at a receive lane's RX pins, SIG_DET asserts, and clock recovery and first adaptation run until CDR_LOCK, or a QUIET receiver leaves QUIET. -/
  | signalDetect (lane : Fin 74)
  /-- POR_RELEASE, R401. The POR source releases 1.0 to 1.2 ms after the last rail enters its operating range, with REFCLK running and nRST high. -/
  | porRelease
  /-- NRST_RELEASE, R397. The nRST pin returns high, and the nRST source is released so that the option loader and the release sequence can run. -/
  | nrstRelease
  /-- PERST_RELEASE, R398. PERST# returns high, and the PCIe endpoint and the items under PERST# are released. -/
  | perstRelease
  /-- PCIE_LINK_TRAINING, R329. The PCIe link trains or retrains at some rate and width, and HST_LINK UP, WIDTH and SPEED change. -/
  | pcieLinkTraining (up : Bool) (width : BitVec 4) (speed : BitVec 4)
  /-- STRESS_CLEAR_DONE, R302. The CLEAR of the whole stress region finishes writing zeros, and CLEAR_BUSY clears. -/
  | stressClearDone
  /-- RESTORE_BUFFER_DONE, R302. A posted restore buffer has been checked and written into the stress region, and it is returned; after buffer 63, RESTORE_BUSY clears. -/
  | restoreBufferDone
  deriving DecidableEq, Repr

end Sys2Proof
end

