-- ==== Sys2Proof/Decode.lean ====
section
/-!
DEFINITION. The commands that a word spells. The opcode table gives none of its rows any bits, so `decodeTableWord` answers none.
The instruction words of the view engines and of the sequencer are the spec's own (07 R156, Tables SLT-6 and SLT-8 to SLT-17; 08
Table TMT-1): their fields, their words, and the command of each opcode.
-/
namespace Sys2Proof

/-- The command that an instruction word spells by the table's bits: no row has bits. -/
def decodeTableWord (_nbits _w : Nat) : Option Instr := none

/-- The fields of an instruction word and of the extension word that follows when EXT is 1 (Table SLT-6). -/
def slateFields (w x : BitVec 64) : SlateWord :=
  { opc := w.extractLsb' 56 8, ext := w.getLsbD 55, pn := w.getLsbD 54, pg := w.extractLsb' 51 3, ty := w.extractLsb' 48 3
    d := w.extractLsb' 42 6, a := w.extractLsb' 36 6, b := w.extractLsb' 30 6, c := w.extractLsb' 24 6
    bsel := w.extractLsb' 22 2, mod := w.extractLsb' 16 6, imm16 := w.extractLsb' 0 16
    imm32 := if w.getLsbD 55 then x.extractLsb' 0 32 else 0
    immHigh := if w.getLsbD 55 then x.extractLsb' 32 32 else 0 }

/-- The word of an instruction's fields (Table SLT-6). -/
def slateBits (w : SlateWord) : BitVec 64 :=
  w.opc ++ BitVec.ofBool w.ext ++ BitVec.ofBool w.pn ++ w.pg ++ w.ty ++ w.d ++ w.a ++ w.b ++ w.c ++ w.bsel ++ w.mod ++ w.imm16

/-- The extension word (R156). -/
def slateExt (w : SlateWord) : BitVec 64 := w.immHigh ++ w.imm32

/-- The command of a view engine's word in a thread (Tables SLT-9 to SLT-17); none where the opcode is reserved or Slate-T's, which
is ILLEGAL (R157). -/
def slateInstr (t : ThreadId) (w : SlateWord) : Option Instr :=
  match w.opc.toNat with
  | 0x00 => some (.nop t w)
  | 0x01 => some (.br t w)
  | 0x02 => some (.jmp t w)
  | 0x03 => some (.call t w)
  | 0x04 => some (.ret t w)
  | 0x05 => some (.exit t w)
  | 0x06 => some (.trap t w)
  | 0x10 => some (.sadd t w)
  | 0x11 => some (.ssub t w)
  | 0x12 => some (.smul t w)
  | 0x13 => some (.sand t w)
  | 0x14 => some (.sor t w)
  | 0x15 => some (.sxor t w)
  | 0x16 => some (.sshl t w)
  | 0x17 => some (.sshr t w)
  | 0x18 => some (.smin t w)
  | 0x19 => some (.smax t w)
  | 0x1A => some (.smov t w)
  | 0x1B => some (.smfsr t w)
  | 0x1C => some (.scmp t w)
  | 0x1D => some (.sgetl t w)
  | 0x20 => some (.vadd t w)
  | 0x21 => some (.vsub t w)
  | 0x22 => some (.vmul t w)
  | 0x23 => some (.vmad t w)
  | 0x24 => some (.vmin t w)
  | 0x25 => some (.vmax t w)
  | 0x26 => some (.vabs t w)
  | 0x27 => some (.vneg t w)
  | 0x28 => some (.vand t w)
  | 0x29 => some (.vor t w)
  | 0x2A => some (.vxor t w)
  | 0x2B => some (.vshl t w)
  | 0x2C => some (.vshr t w)
  | 0x2D => some (.vmov t w)
  | 0x2E => some (.vsel t w)
  | 0x2F => some (.vshfl t w)
  | 0x30 => some (.vrcp t w)
  | 0x31 => some (.vsqrt t w)
  | 0x32 => some (.vrsq t w)
  | 0x33 => some (.vfloor t w)
  | 0x34 => some (.vsat t w)
  | 0x35 => some (.vcvt t w)
  | 0x40 => some (.vcmp t w)
  | 0x41 => some (.pand t w)
  | 0x42 => some (.por t w)
  | 0x43 => some (.pxor t w)
  | 0x44 => some (.pnot t w)
  | 0x45 => some (.pset t w)
  | 0x46 => some (.pget t w)
  | 0x47 => some (.pcnt t w)
  | 0x50 => some (.ldv t w)
  | 0x51 => some (.stv t w)
  | 0x52 => some (.ldb t w)
  | 0x53 => some (.stb t w)
  | 0x54 => some (.lds t w)
  | 0x55 => some (.sts t w)
  | 0x56 => some (.atadd t w)
  | 0x60 => some (.strm t w)
  | 0x61 => some (.swait t w)
  | 0x70 => some (.seat t w)
  | 0x71 => some (.smp t w)
  | 0x72 => some (.blendPm t w)
  | 0x73 => some (.blendSt t w)
  | 0x74 => some (.stRing t w)
  | 0x80 => some (.bar t w)
  | 0x81 => some (.fence t w)
  | 0x82 => some (.msg t w)
  | _ => none

/-- The command of a Slate-T word (Table TMT-1); none where the opcode is not listed, which is ILLEGAL (08 R185). -/
def slateTInstr (w : SlateWord) : Option Instr :=
  match w.opc.toNat with
  | 0xC0 => some (.slateTNop w)
  | 0xC1 => some (.set w)
  | 0xC2 => some (.add w)
  | 0xC3 => some (.sub w)
  | 0xC4 => some (.and w)
  | 0xC5 => some (.or w)
  | 0xC6 => some (.shr w)
  | 0xC7 => some (.rdsr w)
  | 0xC8 => some (.slateTBr w)
  | 0xC9 => some (.waitrow w)
  | 0xCA => some (.waitbell w)
  | 0xCB => some (.dispatch w)
  | 0xCC => some (.bindl w)
  | 0xCD => some (.commit w)
  | 0xCE => some (.mode w)
  | 0xCF => some (.slateTFlip w)
  | 0xD0 => some (.rcvm w)
  | 0xD1 => some (.signal w)
  | _ => none

end Sys2Proof
end

