-- ==== Sys2Proof/Machine/Regs.lean ====
section
/-!
DEFINITION. The register table of BAR0: every register the chapters list, its offset, its copies, its fields with
their access types (00 R7, Table SCP-4) and reset values, from the register sections of chapters 01 and 03 to 20.
`Reg.x` is the BAR0 offset of register X (15 Table HST-2 gives the block bases); `regTable` holds the fields.
-/
namespace Sys2Proof.Machine

/-- Access types of Table SCP-4. `lck` is a LOCK bit that only a reset clears (R9); `rd` is an RO field whose value
the model derives from its typed state (`regRead`), `ro` one it stores in the register map. -/
inductive Access where
  | rw | ro | wo | w1c | w1p | rwl | lck | rd
  deriving DecidableEq, Repr

/-- One field: bits msb to lsb, access type, reset value (0 where the table of its chapter gives a value per copy;
`regResetSpecial` holds those). -/
structure RegField where
  msb : Nat
  lsb : Nat
  acc : Access
  reset : Nat
  deriving DecidableEq, Repr

/-- One register entry of a chapter: first offset, (copies, stride) per index, fields. -/
structure RegGroup where
  base : Nat
  dims : List (Nat × Nat)
  fields : List RegField
  deriving DecidableEq, Repr

/-! LANE registers (chapter 03). -/

/-- LANE_CTRL: KIND[15:12], BURST[7:7], ADAPT_FREEZE[6:6], INVERT[5:5], PRECODE[4:4], STATE_REQ[2:0]. -/
def Reg.laneCtrl (i : Nat) : Nat := 0x500000 + 0x1000 * i
/-- LANE_STATUS: REQ_HELD[13:13], INJ_IGNORED[12:12], FIR_REJECT[11:11], UNCORR[10:10], SIG_LOST[9:9], LOCK_LOST[8:8], CW_LOCK[5:5], BLOCK_LOCK[4:4], CDR_LOCK[3:3], SIG_DET[2:2], STATE[1:0]. -/
def Reg.laneStatus (i : Nat) : Nat := 0x500004 + 0x1000 * i
/-- LANE_TXFIR: C_M2[31:28], C_M1[27:22], C0[21:15], C_P1[14:9], C_P2[8:5]. -/
def Reg.laneTxfir (i : Nat) : Nat := 0x500010 + 0x1000 * i
/-- LANE_ADAPT: DFE1[12:5], CTLE[4:0]. -/
def Reg.laneAdapt (i : Nat) : Nat := 0x500014 + 0x1000 * i
/-- LANE_THRESH: TH_HIGH[23:16], TH_MID[15:8], TH_LOW[7:0]. -/
def Reg.laneThresh (i : Nat) : Nat := 0x500018 + 0x1000 * i
/-- LANE_CNT_CW: COUNT[31:0]. -/
def Reg.laneCntCw (i : Nat) : Nat := 0x500020 + 0x1000 * i
/-- LANE_CNT_CORR: COUNT[31:0]. -/
def Reg.laneCntCorr (i : Nat) : Nat := 0x500024 + 0x1000 * i
/-- LANE_CNT_SYM: COUNT[31:0]. -/
def Reg.laneCntSym (i : Nat) : Nat := 0x500028 + 0x1000 * i
/-- LANE_CNT_UNCORR: COUNT[31:0]. -/
def Reg.laneCntUncorr (i : Nat) : Nat := 0x50002C + 0x1000 * i
/-- LANE_CNT_HDR_ERR: COUNT[31:0]. -/
def Reg.laneCntHdrErr (i : Nat) : Nat := 0x500030 + 0x1000 * i
/-- LANE_PRBS_ERR: COUNT[31:0]. -/
def Reg.lanePrbsErr (i : Nat) : Nat := 0x500044 + 0x1000 * i
/-- LANE_CNT_CLR: CLR[0:0]. -/
def Reg.laneCntClr (i : Nat) : Nat := 0x50003C + 0x1000 * i
/-- LANE_PRBS: CHK_LOCK[8:8], CHK_EN[6:6], CHK_POLY[5:4], GEN_EN[2:2], GEN_POLY[1:0]. -/
def Reg.lanePrbs (i : Nat) : Nat := 0x500040 + 0x1000 * i
/-- LANE_INJECT: GO[31:31], BUSY[30:30], COUNT[13:8], TYPE[1:0]. -/
def Reg.laneInject (i : Nat) : Nat := 0x500050 + 0x1000 * i
/-- LANE_SUM_LOCK: LOCK[31:0]. -/
def Reg.laneSumLock (i : Nat) : Nat := 0x57F000 + 0x4 * i

/-! ASM registers (chapter 04). -/

/-- ASM_CTRL: LEAVE[31:31], REJOIN[30:30], BELL_PRIMARY[5:5], CONTEND_EN[4:4], REPAIR_EN[3:3], JOIN_EN[1:1], EN[0:0]. -/
def Reg.asmCtrl (i : Nat) : Nat := 0x400000 + 0x80000 * i
/-- ASM_STATUS: LANES[23:20], PANEL_ID[19:16], ALARM_PENDING[15:15], RETRY[14:11], HOLDOVER[10:10], BELL_SRC[9:9], TIME_LOCK[8:8], STATE[2:0]. -/
def Reg.asmStatus (i : Nat) : Nat := 0x400004 + 0x80000 * i
/-- ASM_EQD: EQD[23:0]. -/
def Reg.asmEqd (i : Nat) : Nat := 0x400008 + 0x80000 * i
/-- ASM_BELL_OFFSET: OFFSET[31:0]. -/
def Reg.asmBellOffset (i : Nat) : Nat := 0x40000C + 0x80000 * i
/-- ASM_SERVER_ID: ID1[31:16], ID0[15:0]. -/
def Reg.asmServerId (i : Nat) : Nat := 0x400010 + 0x80000 * i
/-- ASM_TIMING: REPAIR_MARGIN[31:16], LOSS_HOLD[7:0]. -/
def Reg.asmTiming (i : Nat) : Nat := 0x400014 + 0x80000 * i
/-- ASM_DET_TIME: TIME[15:0]. -/
def Reg.asmDetTime : Nat := 0x400018
/-- ASM_WALL_LO: WALL[31:0]. -/
def Reg.asmWallLo : Nat := 0x400020
/-- ASM_WALL_HI: WALL[31:0]. -/
def Reg.asmWallHi : Nat := 0x400024
/-- ASM_DNQ_POST: ADDR[29:6]. -/
def Reg.asmDnqPost (i : Nat) : Nat := 0x400040 + 0x80000 * i
/-- ASM_UPQ_POST: ADDR[29:6]. -/
def Reg.asmUpqPost (i : Nat) : Nat := 0x400044 + 0x80000 * i
/-- ASM_QLEVEL: UPQ[20:16], DNQ[4:0]. -/
def Reg.asmQlevel (i : Nat) : Nat := 0x400048 + 0x80000 * i
/-- ASM_CNT: COUNT[31:0]. -/
def Reg.asmCnt (i : Nat) (j : Nat) : Nat := 0x400100 + 0x80000 * i + 0x4 * j
/-- ASM_CNT_CLR: CLR[0:0]. -/
def Reg.asmCntClr (i : Nat) : Nat := 0x4000FC + 0x80000 * i
/-- ASM_DET_KEY: VALID[31:31], KIND[30:30], KEY[19:0]. -/
def Reg.asmDetKey (i : Nat) : Nat := 0x400800 + 0x8 * i
/-- ASM_DET_REMAIN: REMAIN[15:0]. -/
def Reg.asmDetRemain (i : Nat) : Nat := 0x400804 + 0x8 * i

/-! DEC registers (chapter 05). -/

/-- DEC_CTRL: CONCEAL_MAX[15:8], EN[0:0]. -/
def Reg.decCtrl : Nat := 0x1000000
/-- DEC_STORE: LOCK[31:31], BASE_GIB[6:0]. -/
def Reg.decStore : Nat := 0x1000004
/-- DEC_STATUS: PENDING[11:8], ASSIGNED[7:4], BUSY[3:0]. -/
def Reg.decStatus : Nat := 0x1000008
/-- DEC_FRAME: F_SYN[31:0]. -/
def Reg.decFrame : Nat := 0x100000C
/-- DEC_MAN_STATUS: REASON[31:28], HELD[10:8], NLAYERS[4:0]. -/
def Reg.decManStatus : Nat := 0x1000010
/-- DEC_REJ_ID: REASON[23:20], LAYER[19:16], SLICE[15:0]. -/
def Reg.decRejId : Nat := 0x1000020
/-- DEC_REJ_FRAME: AREA[18:18], DECODER[17:16], SCENE_FRAME[15:0]. -/
def Reg.decRejFrame : Nat := 0x1000024
/-- DEC_NEED: NROWS[31:25], ROW0[24:15], NCOLS[14:10], COL0[9:0]. -/
def Reg.decNeed (i : Nat) : Nat := 0x1000040 + 0x4 * i
/-- DEC_CNT: COUNT[31:0]. -/
def Reg.decCnt (i : Nat) : Nat := 0x1000100 + 0x4 * i
/-- DEC_CNT_CLR: CLR[0:0]. -/
def Reg.decCntClr : Nat := 0x10000FC

/-! HR registers (chapter 06). -/

/-- HR_STATUS: ROW[24:16], BUSY[15:0]. -/
def Reg.hrStatus (i : Nat) : Nat := 0x1100004 + 0x10000 * i
/-- HR_FAULT: VALID[31:31], ENGINE[27:24], THREAD[22:20], ROW[16:8], CAUSE[7:0]. -/
def Reg.hrFault (i : Nat) : Nat := 0x1100008 + 0x10000 * i
/-- HR_CNT: COUNT[31:0]. -/
def Reg.hrCnt (i : Nat) (j : Nat) : Nat := 0x1100100 + 0x10000 * i + 0x4 * j
/-- HR_CNT_CLR: CLR[0:0]. -/
def Reg.hrCntClr (i : Nat) : Nat := 0x11000FC + 0x10000 * i
/-- HR_SYN_CNT: COUNT[31:0]. -/
def Reg.hrSynCnt (i : Nat) : Nat := 0x1108100 + 0x4 * i
/-- HR_SYN_CNT_CLR: CLR[0:0]. -/
def Reg.hrSynCntClr : Nat := 0x11080FC
/-- HR_SYN_CTRL: RESTORE_EN[1:1], SHED_EN[0:0]. -/
def Reg.hrSynCtrl : Nat := 0x1108000
/-- HR_SYN_STATUS: SYNTH_LATE[31:31], ROW_REPEAT[30:30], LAST_LATE_ROW[8:0]. -/
def Reg.hrSynStatus : Nat := 0x1108004
/-- HR_SHED: THERMAL[31:31], PLANES[19:16], LAYERS[15:0]. -/
def Reg.hrShed : Nat := 0x1108008
/-- HR_PV_CTRL: EN[31:31], FORMAT[30:30], DIV[15:8], T[7:5], S[4:0]. -/
def Reg.hrPvCtrl : Nat := 0x1108200
/-- HR_PV_POST: ADDR[29:6]. -/
def Reg.hrPvPost : Nat := 0x1108204
/-- HR_PV_STATUS: CAPTURING[3:3], QLEVEL[2:0]. -/
def Reg.hrPvStatus : Nat := 0x1108208

/-! SEQ registers (chapter 08). -/

/-- SEQ_GEO_ORIGIN_X: OX[23:0]. -/
def Reg.seqGeoOriginX : Nat := 0x1200F00
/-- SEQ_GEO_ORIGIN_Y: OY[23:0]. -/
def Reg.seqGeoOriginY : Nat := 0x1200F04
/-- SEQ_GEO_MARGIN: PENDING[31:31], ARM[30:30], M[7:0]. -/
def Reg.seqGeoMargin : Nat := 0x1200F08
/-- SEQ_GEO_CURRENT: M[7:0]. -/
def Reg.seqGeoCurrent : Nat := 0x1200F0C
/-- SEQ_GEO_CURRENT_X: OX[23:0]. -/
def Reg.seqGeoCurrentX : Nat := 0x1200F10
/-- SEQ_GEO_CURRENT_Y: OY[23:0]. -/
def Reg.seqGeoCurrentY : Nat := 0x1200F14
/-- SEQ_CTRL: RESTART[31:31], FREE_RUN_EN[2:2], FAULT_BLANK[1:1], EN[0:0]. -/
def Reg.seqCtrl : Nat := 0x1200000
/-- SEQ_STATUS: COMMIT_LATE[31:31], OVERRUN[30:30], FAULT[29:29], SHORT_FRAME[28:28], BIND_MISS[27:27], FREE_RUN[26:26], SWITCH_PENDING[25:25], BLANKED[24:24], RATE[18:16], MODE[15:15], STATE[10:8], CAUSE[7:0]. -/
def Reg.seqStatus : Nat := 0x1200004
/-- SEQ_ENTRY: ENTRY[15:3]. -/
def Reg.seqEntry : Nat := 0x1200008
/-- SEQ_PC: PC[15:0]. -/
def Reg.seqPc : Nat := 0x120000C
/-- SEQ_FRAME_LO: VALUE[31:0]. -/
def Reg.seqFrameLo : Nat := 0x1200010
/-- SEQ_FRAME_HI: VALUE[15:0]. -/
def Reg.seqFrameHi : Nat := 0x1200014
/-- SEQ_FLIP_LO: VALUE[31:0]. -/
def Reg.seqFlipLo : Nat := 0x1200018
/-- SEQ_FLIP_HI: VALUE[31:0]. -/
def Reg.seqFlipHi : Nat := 0x120001C
/-- SEQ_SLOT: SLOT_CC[31:15], SLOT[8:0]. -/
def Reg.seqSlot : Nat := 0x1200020
/-- SEQ_WDOG: COUNT[23:16], EN[8:8], LIMIT[7:0]. -/
def Reg.seqWdog : Nat := 0x1200024
/-- SEQ_QLEVEL: MSG[22:16], DESC[10:0]. -/
def Reg.seqQlevel : Nat := 0x1200028
/-- SEQ_SIGNAL: CODE[15:0]. -/
def Reg.seqSignal : Nat := 0x120002C
/-- SEQ_HOSTARG: ARG[31:0]. -/
def Reg.seqHostarg : Nat := 0x1200030
/-- SEQ_DESC_HEAD_LO: VALUE[31:0]. -/
def Reg.seqDescHeadLo : Nat := 0x1200034
/-- SEQ_DESC_HEAD_HI: VALUE[31:0]. -/
def Reg.seqDescHeadHi : Nat := 0x1200038
/-- SEQ_T: T[31:0]. -/
def Reg.seqT (i : Nat) : Nat := 0x1200040 + 0x4 * i
/-- SEQ_CNT: COUNT[31:0]. -/
def Reg.seqCnt (i : Nat) : Nat := 0x1200100 + 0x4 * i
/-- SEQ_CNT_CLR: CLR[0:0]. -/
def Reg.seqCntClr : Nat := 0x12000FC
/-- SEQ_PROGMEM: WORD[31:0]. -/
def Reg.seqProgmem (i : Nat) : Nat := 0x1210000 + 0x4 * i

/-! PLC registers (chapter 09). -/

/-- PLC_CTRL: THERM_EN[2:2], LOOP_EN[1:1], EN[0:0]. -/
def Reg.plcCtrl : Nat := 0x1300000
/-- PLC_STEP_T: STEP_T[15:0]. -/
def Reg.plcStepT : Nat := 0x1300004
/-- PLC_STEP_RK: STEP_K[31:16], STEP_R[15:0]. -/
def Reg.plcStepRk : Nat := 0x1300008
/-- PLC_OPTICS: F[15:0]. -/
def Reg.plcOptics : Nat := 0x130000C
/-- PLC_ALPHA: ALPHA[31:0]. -/
def Reg.plcAlpha : Nat := 0x1300010
/-- PLC_FIT: STALE_MS[31:16], RESID_MAX[15:8], MIN_FID[3:0]. -/
def Reg.plcFit : Nat := 0x1300014
/-- PLC_CHART_BUSY: QUEUED[31:16], RUNNING[15:0]. -/
def Reg.plcChartBusy : Nat := 0x1300020
/-- PLC_CHART_STATUS: LOAD_ERR[31:16], SUPERSEDED[15:0]. -/
def Reg.plcChartStatus : Nat := 0x1300024
/-- PLC_LOAD: ADDR[29:6], TILE[3:0]. -/
def Reg.plcLoad : Nat := 0x1300028
/-- PLC_REBUILD: TILES[15:0]. -/
def Reg.plcRebuild : Nat := 0x130002C
/-- PLC_FID0: VALID[31:31], CAM[29:28], WEIGHT[7:0]. -/
def Reg.plcFid0 (i : Nat) : Nat := 0x1300800 + 0x10 * i
/-- PLC_FID1: FY[31:16], FX[15:0]. -/
def Reg.plcFid1 (i : Nat) : Nat := 0x1300804 + 0x10 * i
/-- PLC_FID2: CY[31:16], CX[15:0]. -/
def Reg.plcFid2 (i : Nat) : Nat := 0x1300808 + 0x10 * i
/-- PLC_FID3: GY[31:16], GX[15:0]. -/
def Reg.plcFid3 (i : Nat) : Nat := 0x130080C + 0x10 * i
/-- PLC_TGT: TERM[31:0]. -/
def Reg.plcTgt (i : Nat) (j : Nat) : Nat := 0x1301000 + 0x40 * i + 0x4 * j
/-- PLC_APP: TERM[31:0]. -/
def Reg.plcApp (i : Nat) (j : Nat) : Nat := 0x1301010 + 0x40 * i + 0x4 * j
/-- PLC_T_FIT: T[15:0]. -/
def Reg.plcTFit (i : Nat) : Nat := 0x1301020 + 0x40 * i
/-- PLC_FIT_STATUS: STALE[31:31], REJECT[30:30], NFID[27:24], CONF[23:16], RESID[15:0]. -/
def Reg.plcFitStatus (i : Nat) : Nat := 0x1301024 + 0x40 * i
/-- PLC_CNT: COUNT[31:0]. -/
def Reg.plcCnt (i : Nat) : Nat := 0x1300100 + 0x4 * i
/-- PLC_CNT_CLR: CLR[0:0]. -/
def Reg.plcCntClr : Nat := 0x13000FC

/-! CAM registers (chapter 10). -/

/-- CAM_CTRL: CS[9:8], BANK[3:3], FORMAT[2:2], CAP_EN[1:1], EN[0:0]. -/
def Reg.camCtrl (i : Nat) : Nat := 0x1500000 + 0x20000 * i
/-- CAM_BIND: BIND[31:31], UNBIND[30:30], BOUND[8:8], VC_REQ[5:4], VC[1:0]. -/
def Reg.camBind (i : Nat) : Nat := 0x1500004 + 0x20000 * i
/-- CAM_SIZE: HEIGHT[26:16], WIDTH[10:0]. -/
def Reg.camSize (i : Nat) : Nat := 0x1500008 + 0x20000 * i
/-- CAM_LEVEL: BLACK[27:16], THRESH[11:0]. -/
def Reg.camLevel (i : Nat) : Nat := 0x150000C + 0x20000 * i
/-- CAM_SPOT_CFG: MIN_MASS[31:8], HALF[3:0]. -/
def Reg.camSpotCfg (i : Nat) : Nat := 0x1500010 + 0x20000 * i
/-- CAM_STATUS: BIND_CONFLICT[31:31], DEF_ORDER[30:30], IN_FRAME[0:0]. -/
def Reg.camStatus (i : Nat) : Nat := 0x1500014 + 0x20000 * i
/-- CAM_LAST_STATUS: FRAME_SHORT[31:31], FRAME_LONG[30:30], OVERFLOW[29:29], TRUNCATED[28:28], CAPTURED[27:27], LINES[10:0]. -/
def Reg.camLastStatus (i : Nat) : Nat := 0x1500018 + 0x20000 * i
/-- CAM_LAST_NUM: NUM[15:0]. -/
def Reg.camLastNum (i : Nat) : Nat := 0x150001C + 0x20000 * i
/-- CAM_DEF_COUNT: COUNT[9:0]. -/
def Reg.camDefCount (i : Nat) (j : Nat) : Nat := 0x1500020 + 0x20000 * i + 0x4 * j
/-- CAM_CAP_POST: ADDR[29:6]. -/
def Reg.camCapPost (i : Nat) : Nat := 0x1500030 + 0x20000 * i
/-- CAM_DEF_LIST: WORD[31:0]. -/
def Reg.camDefList (i : Nat) (j : Nat) (k : Nat) : Nat := 0x1501000 + 0x20000 * i + 0x800 * j + 0x4 * k
/-- CAM_SHADE: WORD[31:0]. -/
def Reg.camShade (i : Nat) (j : Nat) (k : Nat) : Nat := 0x1504000 + 0x20000 * i + 0x4000 * j + 0x4 * k
/-- CAM_CNT: COUNT[31:0]. -/
def Reg.camCnt (i : Nat) (j : Nat) : Nat := 0x1500100 + 0x20000 * i + 0x4 * j
/-- CAM_CNT_CLR: CLR[0:0]. -/
def Reg.camCntClr (i : Nat) : Nat := 0x15000FC + 0x20000 * i
/-- CAM_RX_CTRL: THS_SETTLE[15:8], NLANES[2:1], EN[0:0]. -/
def Reg.camRxCtrl : Nat := 0x1580000
/-- CAM_RX_STATUS: CLK_HS[4:4], STOP[3:0]. -/
def Reg.camRxStatus : Nat := 0x1580004
/-- CAM_SPOT0: FOUND[31:31], SAT[30:30], BORDER[29:29], CLIPPED[28:28], X[15:0]. -/
def Reg.camSpot0 (i : Nat) : Nat := 0x1581000 + 0x8 * i
/-- CAM_SPOT1: Y[15:0]. -/
def Reg.camSpot1 (i : Nat) : Nat := 0x1581004 + 0x8 * i
/-- CAM_RX_CNT: COUNT[31:0]. -/
def Reg.camRxCnt (i : Nat) : Nat := 0x1580100 + 0x4 * i
/-- CAM_RX_CNT_CLR: CLR[0:0]. -/
def Reg.camRxCntClr : Nat := 0x15800FC

/-! FIN registers (chapter 11). -/

/-- FIN_CTRL: ARM[31:31], PENDING[30:30], DITHER_EN[0:0]. -/
def Reg.finCtrl : Nat := 0x1600000
/-- FIN_CODE_MAX: MAX_L[29:20], MAX_P[19:0]. -/
def Reg.finCodeMax : Nat := 0x1600004
/-- FIN_RES_BASE: LOCK[31:31], BASE_L[15:8], BASE_P[7:0]. -/
def Reg.finResBase : Nat := 0x1600008
/-- FIN_GAIN_LOAD: ADDR[29:6], TILE[3:0]. -/
def Reg.finGainLoad : Nat := 0x160000C
/-- FIN_GAIN_BUSY: QUEUED[31:16], PENDING[15:0]. -/
def Reg.finGainBusy : Nat := 0x1600010
/-- FIN_GAIN_STATUS: LOAD_ERR[31:16], SUPERSEDED[15:0]. -/
def Reg.finGainStatus : Nat := 0x1600014
/-- FIN_STATUS: ORDER[31:16], NO_TEMP[15:0]. -/
def Reg.finStatus : Nat := 0x1600018
/-- FIN_CURSOR: ROW[26:18], P[17:0]. -/
def Reg.finCursor (i : Nat) : Nat := 0x1600040 + 0x4 * i
/-- FIN_NPTS: NPTS[3:0]. -/
def Reg.finNpts (i : Nat) : Nat := 0x1600080 + 0x4 * i
/-- FIN_P_TEMP: TEMP[15:0]. -/
def Reg.finPTemp (i : Nat) (j : Nat) : Nat := 0x1601000 + 0x200 * i + 0x40 * j
/-- FIN_P_M: M[23:0]. -/
def Reg.finPM (i : Nat) (j : Nat) (k : Nat) : Nat := 0x1601004 + 0x200 * i + 0x40 * j + 0x4 * k
/-- FIN_MCUR_T: TEMP[15:0]. -/
def Reg.finMcurT (i : Nat) : Nat := 0x1603000 + 0x40 * i
/-- FIN_MCUR_M: M[23:0]. -/
def Reg.finMcurM (i : Nat) (j : Nat) : Nat := 0x1603004 + 0x40 * i + 0x4 * j
/-- FIN_CNT: COUNT[31:0]. -/
def Reg.finCnt (i : Nat) : Nat := 0x1600100 + 0x4 * i
/-- FIN_XDROP: COUNT[31:0]. -/
def Reg.finXdrop (i : Nat) : Nat := 0x1600140 + 0x4 * i
/-- FIN_CNT_CLR: CLR[0:0]. -/
def Reg.finCntClr : Nat := 0x16000FC

/-! TLK registers (chapter 12). -/

/-- TLK_CTRL: ARM[31:31], PENDING[30:30], RET_HOLD[15:8], RET_LOSS_BLANK[0:0]. -/
def Reg.tlkCtrl : Nat := 0x1700000
/-- TLK_TILE_EN: RESET[31:16], EN[15:0]. -/
def Reg.tlkTileEn : Nat := 0x1700004
/-- TLK_STATE: STATE[31:0]. -/
def Reg.tlkState : Nat := 0x1700008
/-- TLK_STATUS: REF_FAULT[31:31], TRIP[30:30], IDENT_BAD[15:0]. -/
def Reg.tlkStatus : Nat := 0x170000C
/-- TLK_IREF_EN: EN[15:0]. -/
def Reg.tlkIrefEn : Nat := 0x1700010
/-- TLK_RANGE: RANGE[31:0]. -/
def Reg.tlkRange : Nat := 0x1700014
/-- TLK_BLANK: MASK[15:0]. -/
def Reg.tlkBlank : Nat := 0x1700018
/-- TLK_IREF_SET: CODE[17:0]. -/
def Reg.tlkIrefSet (i : Nat) : Nat := 0x1700040 + 0x4 * i
/-- TLK_IREF_APP: CODE_APP[17:0]. -/
def Reg.tlkIrefApp (i : Nat) : Nat := 0x1700080 + 0x4 * i
/-- TLK_TEMP: VALID[31:31], AGE[23:16], TEMP[15:0]. -/
def Reg.tlkTemp (i : Nat) : Nat := 0x17000C0 + 0x4 * i
/-- TLK_FAULT: VALID[31:31], DETAIL_HI[23:8], CODE[7:0]. -/
def Reg.tlkFault (i : Nat) : Nat := 0x1700200 + 0x8 * i
/-- TLK_FAULT_DETAIL: DETAIL[31:0]. -/
def Reg.tlkFaultDetail (i : Nat) : Nat := 0x1700204 + 0x8 * i
/-- TLK_IDENT_LO: LO[31:0]. -/
def Reg.tlkIdentLo (i : Nat) : Nat := 0x1700300 + 0x8 * i
/-- TLK_IDENT_HI: HI[31:0]. -/
def Reg.tlkIdentHi (i : Nat) : Nat := 0x1700304 + 0x8 * i
/-- TLK_HCMD_LO: ARG_LO[31:0]. -/
def Reg.tlkHcmdLo : Nat := 0x1700400
/-- TLK_HCMD_HI: GO[31:31], BUSY[30:30], TILE[19:16], OP[15:8], ARG_HI[7:0]. -/
def Reg.tlkHcmdHi : Nat := 0x1700404
/-- TLK_HRES_LO: SEQ[31:16], SAMPLE[15:0]. -/
def Reg.tlkHresLo : Nat := 0x1700408
/-- TLK_HRES_HI: VALID[31:31], TIMEOUT[30:30], OOR[29:29], TILE[19:16], OP[15:8]. -/
def Reg.tlkHresHi : Nat := 0x170040C
/-- TLK_HRES_ACK: SEQ[15:0]. -/
def Reg.tlkHresAck : Nat := 0x1700410
/-- TLK_CNT: COUNT[31:0]. -/
def Reg.tlkCnt (i : Nat) : Nat := 0x1700100 + 0x4 * i
/-- TLK_ROWERR: COUNT[31:0]. -/
def Reg.tlkRowerr (i : Nat) : Nat := 0x1700140 + 0x4 * i
/-- TLK_INSDROP: COUNT[31:0]. -/
def Reg.tlkInsdrop (i : Nat) : Nat := 0x1700180 + 0x4 * i

/-! RPT registers (chapter 13). -/

/-- RPT_CTRL: CLEAR[31:31], FOLD_TILES[12:8], CKPT_EN[3:3], SENSE_EN[2:2], FOLD_EN[1:1], EN[0:0]. -/
def Reg.rptCtrl : Nat := 0x1800000
/-- RPT_STATUS: CKPT_FAIL[31:31], RESTORE_ERR[30:30], CKPT_BUSY[29:29], RESTORE_BUSY[28:28], CLEAR_BUSY[27:27], CLASS[5:0]. -/
def Reg.rptStatus : Nat := 0x1800004
/-- RPT_MODEL: TDBL[31:16], TREF[15:0]. -/
def Reg.rptModel : Nat := 0x1800008
/-- RPT_GAMMA0: GAMMA_G[31:16], GAMMA_R[15:0]. -/
def Reg.rptGamma0 : Nat := 0x180000C
/-- RPT_GAMMA1: GAMMA_B[15:0]. -/
def Reg.rptGamma1 : Nat := 0x1800010
/-- RPT_IREF_REF: IREF_REF[20:0]. -/
def Reg.rptIrefRef : Nat := 0x1800014
/-- RPT_SEED: SEED[31:0]. -/
def Reg.rptSeed : Nat := 0x1800018
/-- RPT_SENSE: KSTEP[31:24], KGAIN[23:16], PER_RECESS[15:12], LEVEL[10:0]. -/
def Reg.rptSense : Nat := 0x180001C
/-- RPT_CKPT_CTRL: NOW[31:31], PERIOD[15:0]. -/
def Reg.rptCkptCtrl : Nat := 0x1800020
/-- RPT_CKPT_POST: ADDR[29:6]. -/
def Reg.rptCkptPost : Nat := 0x1800024
/-- RPT_REST_POST: ADDR[29:6]. -/
def Reg.rptRestPost : Nat := 0x1800028
/-- RPT_LAST_GEN: GEN[31:0]. -/
def Reg.rptLastGen : Nat := 0x1800030
/-- RPT_PERM: B[13:8], A[5:1], A0[0:0]. -/
def Reg.rptPerm (i : Nat) : Nat := 0x1800040 + 0x4 * i
/-- RPT_TILE: WORD[31:0]. -/
def Reg.rptTile (i : Nat) (j : Nat) : Nat := 0x1800100 + 0x10 * i + 0x4 * j
/-- RPT_AGE: E[15:0]. -/
def Reg.rptAge (i : Nat) (j : Nat) : Nat := 0x1800400 + 0x84 * i + 0x4 * j
/-- RPT_CNT: COUNT[31:0]. -/
def Reg.rptCnt (i : Nat) : Nat := 0x1800200 + 0x4 * i
/-- RPT_CNT_CLR: CLR[0:0]. -/
def Reg.rptCntClr : Nat := 0x18000FC

/-! CAL registers (chapter 13). -/

/-- CAL_CNT: COUNT[31:0]. -/
def Reg.calCnt (i : Nat) : Nat := 0x1808200 + 0x4 * i
/-- CAL_CNT_CLR: CLR[0:0]. -/
def Reg.calCntClr : Nat := 0x18080FC
/-- CAL_CTRL: AUTO_RECAL[2:2], AGE_TRACK[1:1], TRIM_EN[0:0]. -/
def Reg.calCtrl : Nat := 0x1808000
/-- CAL_RUN: REC[2:2], SWEEP[1:1], ELEC[0:0]. -/
def Reg.calRun : Nat := 0x1808004
/-- CAL_STATUS: REC_ERR[31:31], NTP[19:16], SWEEP_HELD[3:3], ELEC_HELD[2:2], SWEEP_BUSY[1:1], ELEC_BUSY[0:0]. -/
def Reg.calStatus : Nat := 0x1808008
/-- CAL_RAMP: RAMP[31:16], RAMP_DONE[15:0]. -/
def Reg.calRamp : Nat := 0x180800C
/-- CAL_GAIN: G[23:0]. -/
def Reg.calGain (i : Nat) : Nat := 0x1808040 + 0x4 * i
/-- CAL_ADC: FS[31:16], ZERO[15:0]. -/
def Reg.calAdc (i : Nat) : Nat := 0x1808080 + 0x4 * i
/-- CAL_BASE_LOAD: ADDR[29:6], TILE[3:0]. -/
def Reg.calBaseLoad : Nat := 0x1808100
/-- CAL_BASE_BUSY: QUEUED[31:16], RUNNING[15:0]. -/
def Reg.calBaseBusy : Nat := 0x1808104
/-- CAL_BASE_STATUS: LOAD_ERR[31:16], SUPERSEDED[15:0]. -/
def Reg.calBaseStatus : Nat := 0x1808108
/-- CAL_REC_LOAD: ADDR[29:6]. -/
def Reg.calRecLoad : Nat := 0x1808110
/-- CAL_REC_POST: ADDR[29:6]. -/
def Reg.calRecPost : Nat := 0x1808114
/-- CAL_REC_GEN: GEN[31:0]. -/
def Reg.calRecGen : Nat := 0x1808118

/-! DMC registers (chapter 14). -/

/-- DMC_CTRL: RETRAIN[31:31], SCRUB_EN[0:0]. -/
def Reg.dmcCtrl : Nat := 0x1900000
/-- DMC_STATUS: FAIL[31:16], TRAIN_OK[15:0]. -/
def Reg.dmcStatus : Nat := 0x1900004
/-- DMC_WM: HIGH[13:8], LOW[5:0]. -/
def Reg.dmcWm : Nat := 0x1900008
/-- DMC_RETRAIN: INTERVAL[15:0]. -/
def Reg.dmcRetrain : Nat := 0x190000C
/-- DMC_SCRUB: GAP[15:0]. -/
def Reg.dmcScrub : Nat := 0x1900010
/-- DMC_REPLAY: MAX[7:0]. -/
def Reg.dmcReplay : Nat := 0x1900014
/-- DMC_ERR_INFO: VALID[31:31], CHANNEL[27:24], MASTER[20:16], KIND[1:0]. -/
def Reg.dmcErrInfo : Nat := 0x1900020
/-- DMC_ERR_ADDR_LO: LO[31:0]. -/
def Reg.dmcErrAddrLo : Nat := 0x1900024
/-- DMC_ERR_ADDR_HI: HI[4:0]. -/
def Reg.dmcErrAddrHi : Nat := 0x1900028
/-- DMC_LT: TARGET[15:0]. -/
def Reg.dmcLt (i : Nat) (j : Nat) : Nat := 0x1900400 + 0x80 * i + 0x4 * j
/-- DMC_CNT_SRAM: COUNT[31:0]. -/
def Reg.dmcCntSram (i : Nat) : Nat := 0x1900200 + 0x4 * i
/-- DMC_CNT_CH: COUNT[31:0]. -/
def Reg.dmcCntCh (i : Nat) (j : Nat) : Nat := 0x1901000 + 0x40 * i + 0x4 * j
/-- DMC_CH_LEVEL: DRAIN[31:31], READS[21:16], WRITES[5:0]. -/
def Reg.dmcChLevel (i : Nat) : Nat := 0x1901020 + 0x40 * i
/-- DMC_CNT_CLR: CLR[0:0]. -/
def Reg.dmcCntClr : Nat := 0x19000FC

/-! PRC registers (chapter 14). -/

/-- PRC_E0: VALID[31:31], BASE[23:0]. -/
def Reg.prcE0 (i : Nat) (j : Nat) : Nat := 0x1908000 + 0x400 * i + 0x10 * j
/-- PRC_E1: LIMIT[23:0]. -/
def Reg.prcE1 (i : Nat) (j : Nat) : Nat := 0x1908004 + 0x400 * i + 0x10 * j
/-- PRC_E2: RD[25:0]. -/
def Reg.prcE2 (i : Nat) (j : Nat) : Nat := 0x1908008 + 0x400 * i + 0x10 * j
/-- PRC_E3: WR[25:0]. -/
def Reg.prcE3 (i : Nat) (j : Nat) : Nat := 0x190800C + 0x400 * i + 0x10 * j
/-- PRC_VIOL: VALID[31:31], WRITE[30:30], MASTER[20:16]. -/
def Reg.prcViol (i : Nat) : Nat := 0x1908200 + 0x400 * i
/-- PRC_VIOL_ADDR_LO: LO[31:0]. -/
def Reg.prcViolAddrLo (i : Nat) : Nat := 0x1908204 + 0x400 * i
/-- PRC_VIOL_ADDR_HI: HI[3:0]. -/
def Reg.prcViolAddrHi (i : Nat) : Nat := 0x1908208 + 0x400 * i
/-- PRC_VIOL_CNT: COUNT[31:0]. -/
def Reg.prcViolCnt (i : Nat) : Nat := 0x190820C + 0x400 * i
/-- PRC_LOCK: CNT_CLR[31:31], LOCK[0:0]. -/
def Reg.prcLock (i : Nat) : Nat := 0x1908210 + 0x400 * i
/-- PRC_SUMMARY: VALID[22:0]. -/
def Reg.prcSummary : Nat := 0x190FF00

/-! EVT registers (chapter 15). -/

/-- EVT_STATUS: STATUS[31:0]. -/
def Reg.evtStatus (i : Nat) : Nat := 0x100000 + 0x4 * i
/-- EVT_ENABLE: ENABLE[31:0]. -/
def Reg.evtEnable (i : Nat) : Nat := 0x100040 + 0x4 * i
/-- EVT_SUMMARY: GROUPS[8:0]. -/
def Reg.evtSummary : Nat := 0x100080
/-- EVT_FAULT: PIN[31:31], FORCE[0:0]. -/
def Reg.evtFault : Nat := 0x100084
/-- EVT_SOFT_SET: SET[31:0]. -/
def Reg.evtSoftSet : Nat := 0x100088
/-- EVT_GPIO_OUT: OUT[15:0]. -/
def Reg.evtGpioOut : Nat := 0x1000C0
/-- EVT_GPIO_OE: OE[15:0]. -/
def Reg.evtGpioOe : Nat := 0x1000C4
/-- EVT_GPIO_IN: IN[15:0]. -/
def Reg.evtGpioIn : Nat := 0x1000C8
/-- EVT_ROUTE: FAULT[31:31], ALARM[30:30], MSIX[29:29], VECTOR[5:0]. -/
def Reg.evtRoute (i : Nat) : Nat := 0x101000 + 0x4 * i

/-! HST registers (chapter 15). -/

/-- HST_ID: DEVICE[31:16], REV[7:0]. -/
def Reg.hstId : Nat := 0x200000
/-- HST_LINK: UP[31:31], WIDTH[7:4], SPEED[3:0]. -/
def Reg.hstLink : Nat := 0x200004
/-- HST_BADACC: VALID[31:31], WRITE[30:30], REASON[29:28], OFFSET[25:2]. -/
def Reg.hstBadacc : Nat := 0x200008
/-- HST_MSIX_TABLE: WORD[31:0]. -/
def Reg.hstMsixTable (i : Nat) (j : Nat) : Nat := 0x210000 + 0x10 * i + 0x4 * j
/-- HST_MSIX_PBA: PENDING[31:0]. -/
def Reg.hstMsixPba (i : Nat) : Nat := 0x211000 + 0x4 * i

/-! HP registers (chapter 15). -/

/-- HP_STATUS: EXTENTS[8:0]. -/
def Reg.hpStatus : Nat := 0x220000
/-- HP_VIOL: VALID[31:31], OFFSET[29:0]. -/
def Reg.hpViol : Nat := 0x220004
/-- HP_VIOL_CNT: COUNT[31:0]. -/
def Reg.hpViolCnt : Nat := 0x220008
/-- HP_CNT_CLR: CLR[0:0]. -/
def Reg.hpCntClr : Nat := 0x22000C
/-- HP_REFUSE: VALID[31:31], ADDR[29:6], REASON[2:0]. -/
def Reg.hpRefuse : Nat := 0x220010

/-! HST registers (chapter 15). -/

/-- HST_MBOX0W: VALID[31:31], SEQ[15:0]. -/
def Reg.hstMbox0w (i : Nat) : Nat := 0x230000 + 0x20 * i
/-- HST_MBOX_DATA: DATA[31:0]. -/
def Reg.hstMboxData (i : Nat) (j : Nat) : Nat := 0x230004 + 0x20 * i + 0x4 * j
/-- HST_MBOX_ACK: SEQ[15:0]. -/
def Reg.hstMboxAck (i : Nat) : Nat := 0x23001C + 0x20 * i

/-! RC registers (chapter 15). -/

/-- RC_CTRL: NOW[31:31], MSG_TYPE[23:16], PORT[3:3], DEST[2:2], TRIG[1:1], EN[0:0]. -/
def Reg.rcCtrl : Nat := 0x240000
/-- RC_PERIOD: PERIOD[15:0]. -/
def Reg.rcPeriod : Nat := 0x240004
/-- RC_COUNT: N[8:0]. -/
def Reg.rcCount : Nat := 0x240008
/-- RC_POST: ADDR[29:6]. -/
def Reg.rcPost : Nat := 0x24000C
/-- RC_STATUS: BUSY[31:31], QLEVEL[2:0]. -/
def Reg.rcStatus : Nat := 0x240010
/-- RC_LIST: OFFSET[25:2]. -/
def Reg.rcList (i : Nat) : Nat := 0x240400 + 0x4 * i
/-- RC_CNT: COUNT[31:0]. -/
def Reg.rcCnt (i : Nat) : Nat := 0x240100 + 0x4 * i
/-- RC_CNT_CLR: CLR[0:0]. -/
def Reg.rcCntClr : Nat := 0x2400FC

/-! SAT registers (chapter 16). -/

/-- SAT_CTRL: ABORT[31:31]. -/
def Reg.satCtrl : Nat := 0x1A00000
/-- SAT_STATUS: QFULL[31:31], DEC_BUSY[5:5], COMP_BUSY[4:4], QLEVEL[3:0]. -/
def Reg.satStatus : Nat := 0x1A00004
/-- SAT_SRC_LO: LO[31:0]. -/
def Reg.satSrcLo : Nat := 0x1A00010
/-- SAT_SRC_HI: HI[4:0]. -/
def Reg.satSrcHi : Nat := 0x1A00014
/-- SAT_DST_LO: LO[31:0]. -/
def Reg.satDstLo : Nat := 0x1A00018
/-- SAT_DST_HI: HI[4:0]. -/
def Reg.satDstHi : Nat := 0x1A0001C
/-- SAT_SRC_LEN: LEN[31:0]. -/
def Reg.satSrcLen : Nat := 0x1A00020
/-- SAT_DST_LEN: LEN[31:0]. -/
def Reg.satDstLen : Nat := 0x1A00024
/-- SAT_JOB_CTRL: GO[31:31], OP[29:29], BLOCK_LOG[28:24], LEVEL[18:16], TAG[15:0]. -/
def Reg.satJobCtrl : Nat := 0x1A00028
/-- SAT_CNT: COUNT[31:0]. -/
def Reg.satCnt (i : Nat) : Nat := 0x1A00100 + 0x4 * i
/-- SAT_CNT_CLR: CLR[0:0]. -/
def Reg.satCntClr : Nat := 0x1A000FC

/-! BLT registers (chapter 17). -/

/-- BLT_OP: GO[31:31], ABORT[30:30], BUSY[29:29], TAG[23:8], SRC_PREMUL[6:6], YDIR[5:5], XDIR[4:4], FMT[3:2], OP[1:0]. -/
def Reg.bltOp : Nat := 0x1A08000
/-- BLT_SRC_LO: LO[31:0]. -/
def Reg.bltSrcLo : Nat := 0x1A08004
/-- BLT_SRC_HI: HI[4:0]. -/
def Reg.bltSrcHi : Nat := 0x1A08008
/-- BLT_DST_LO: LO[31:0]. -/
def Reg.bltDstLo : Nat := 0x1A0800C
/-- BLT_DST_HI: HI[4:0]. -/
def Reg.bltDstHi : Nat := 0x1A08010
/-- BLT_PITCH: SRC_PITCH[31:16], DST_PITCH[15:0]. -/
def Reg.bltPitch : Nat := 0x1A08014
/-- BLT_SIZE: H[27:16], W[11:0]. -/
def Reg.bltSize : Nat := 0x1A08018
/-- BLT_COLOR: COLOR[31:0]. -/
def Reg.bltColor : Nat := 0x1A0801C
/-- BLT_PACE: DEAD[9:0]. -/
def Reg.bltPace : Nat := 0x1A08020
/-- BLT_ROWS: GATE_ROW[24:16], WM_ROW[8:0]. -/
def Reg.bltRows : Nat := 0x1A08024
/-- BLT_WM_FRAME: FRAME[31:0]. -/
def Reg.bltWmFrame : Nat := 0x1A08028
/-- BLT_PLANE_ARM: ARM[31:31], PENDING[30:30], SEL[3:0]. -/
def Reg.bltPlaneArm : Nat := 0x1A08040
/-- BLT_COMMIT: GO[31:31], PLANE[1:0]. -/
def Reg.bltCommit : Nat := 0x1A08044
/-- BLT_COMMIT_X: X1[27:16], X0[11:0]. -/
def Reg.bltCommitX : Nat := 0x1A08048
/-- BLT_COMMIT_Y: Y1[26:16], Y0[10:0]. -/
def Reg.bltCommitY : Nat := 0x1A0804C
/-- BLT_COMMIT_BUSY: QUEUED[7:4], RUNNING[3:0]. -/
def Reg.bltCommitBusy : Nat := 0x1A08050
/-- BLT_COMMIT_STATUS: SYNC_ERR[11:8], RECT_ERR[7:4], SUPERSEDED[3:0]. -/
def Reg.bltCommitStatus : Nat := 0x1A08054
/-- BLT_PLANE_CTRL: EN[31:31], Z[15:8], SHEDDABLE[4:4], PREMUL[3:3], FMT[1:0]. -/
def Reg.bltPlaneCtrl (i : Nat) : Nat := 0x1A08400 + 0x20 * i
/-- BLT_PLANE_MIX: DISPARITY[31:16], LAYER_ALPHA[15:0]. -/
def Reg.bltPlaneMix (i : Nat) : Nat := 0x1A08404 + 0x20 * i
/-- BLT_PLANE_BASE_A: BASE[28:0]. -/
def Reg.bltPlaneBaseA (i : Nat) : Nat := 0x1A08408 + 0x20 * i
/-- BLT_PLANE_BASE_B: BASE[28:0]. -/
def Reg.bltPlaneBaseB (i : Nat) : Nat := 0x1A0840C + 0x20 * i
/-- BLT_CNT: COUNT[31:0]. -/
def Reg.bltCnt (i : Nat) : Nat := 0x1A08100 + 0x4 * i
/-- BLT_CNT_CLR: CLR[0:0]. -/
def Reg.bltCntClr : Nat := 0x1A080FC

/-! THM registers (chapter 19). -/

/-- THM_CTRL: TRIP_CLR[31:31], TRIP_LATCH[30:30], GRACE[15:0]. -/
def Reg.thmCtrl : Nat := 0x1B00000
/-- THM_STATUS: TRIP[31:31], ASK[30:30], RATE[29:29], STAGE[27:26], NBAD[25:20]. -/
def Reg.thmStatus : Nat := 0x1B00004
/-- THM_TIMING: ESCALATE[31:16], HOLD[15:0]. -/
def Reg.thmTiming : Nat := 0x1B00008
/-- THM_DIE_LIM: TRIP[23:16], STAGE2[15:8], ASK[7:0]. -/
def Reg.thmDieLim : Nat := 0x1B0000C
/-- THM_TILE_LIM: TRIP[23:16], STAGE2[15:8], ASK[7:0]. -/
def Reg.thmTileLim : Nat := 0x1B00010
/-- THM_RATE: RATE[15:8], HYST[7:0]. -/
def Reg.thmRate : Nat := 0x1B00014
/-- THM_BAD0: BAD[31:0]. -/
def Reg.thmBad0 : Nat := 0x1B00018
/-- THM_BAD1: BAD[15:0]. -/
def Reg.thmBad1 : Nat := 0x1B0001C
/-- THM_DIE: T[15:0]. -/
def Reg.thmDie : Nat := 0x1B00020
/-- THM_HOT: SRC[21:16], T[15:0]. -/
def Reg.thmHot : Nat := 0x1B00024
/-- THM_SENSOR: BAD[31:31], FAST[30:30], T[15:0]. -/
def Reg.thmSensor (i : Nat) : Nat := 0x1B00100 + 0x4 * i

/-! AVS registers (chapter 19). -/

/-- AVS_CTRL: RESUME[31:31], EN[0:0]. -/
def Reg.avsCtrl : Nat := 0x1B08000
/-- AVS_STATUS: HOLD[31:31], AT_MAX[30:30], SLACK[23:16], V[11:0]. -/
def Reg.avsStatus : Nat := 0x1B08004
/-- AVS_LIMITS: VMAX[27:16], VMIN[11:0]. -/
def Reg.avsLimits : Nat := 0x1B08008
/-- AVS_SLACK: EMERG[23:16], HIGH[15:8], LOW[7:0]. -/
def Reg.avsSlack : Nat := 0x1B0800C
/-- AVS_CPM_EN: ENGINE[2:2], FABRIC[1:1], CORE[0:0]. -/
def Reg.avsCpmEn : Nat := 0x1B08010
/-- AVS_VHOLD: V[11:0]. -/
def Reg.avsVhold : Nat := 0x1B08014
/-- AVS_PMB: ADDR[6:0]. -/
def Reg.avsPmb : Nat := 0x1B08018
/-- AVS_TELEM0: VIN[31:16], IOUT[15:0]. -/
def Reg.avsTelem0 : Nat := 0x1B0801C
/-- AVS_TELEM1: VALID[31:31], TEMP[15:0]. -/
def Reg.avsTelem1 : Nat := 0x1B08020

/-! CLK registers (chapter 18). -/

/-- CLK_STATUS: UNLOCKED[31:31], SWITCH_HELD[11:11], SWITCHING[10:10], ENGINE_DIV[7:5], STABLE[4:0]. -/
def Reg.clkStatus : Nat := 0x10000
/-- CLK_ENGINE: RAMP[31:31], THERM_DIV[10:8], FORCE_DIV[2:0]. -/
def Reg.clkEngine : Nat := 0x10004
/-- CLK_GATE0: GATE_29_28[29:28], GATE_21_19[21:19], GATE_1_0[1:0]. -/
def Reg.clkGate0 : Nat := 0x10010
/-- CLK_GATE1: GATE_35[3:3], GATE_32[0:0]. -/
def Reg.clkGate1 : Nat := 0x10014
/-- CLK_GATE_CLOSED0: CLOSED_29_28[29:28], CLOSED_21_19[21:19], CLOSED_1_0[1:0]. -/
def Reg.clkGateClosed0 : Nat := 0x10018
/-- CLK_GATE_CLOSED1: CLOSED_35[3:3], CLOSED_32[0:0]. -/
def Reg.clkGateClosed1 : Nat := 0x1001C
/-- CLK_GATE_TO0: TO_29_28[29:28], TO_21_19[21:19], TO_1_0[1:0]. -/
def Reg.clkGateTo0 : Nat := 0x10020
/-- CLK_GATE_TO1: TO_35[3:3], TO_32[0:0]. -/
def Reg.clkGateTo1 : Nat := 0x10024

/-! RST registers (chapter 18). -/

/-- RST_CAUSE: FLR[8:8], PERST[7:7], DEVICE[6:6], WATCHDOG[5:5], SECURITY[4:4], NRST[3:3], CLKLOSS[2:2], BROWNOUT[1:1], POR[0:0]. -/
def Reg.rstCause : Nat := 0x20000
/-- RST_DEVICE: KEY[31:16], GO[0:0]. -/
def Reg.rstDevice : Nat := 0x20004
/-- RST_BLOCK0: BLOCK[31:0]. -/
def Reg.rstBlock0 : Nat := 0x20010
/-- RST_BLOCK1: BLOCK[3:0]. -/
def Reg.rstBlock1 : Nat := 0x20014
/-- RST_PEND0: PEND[31:0]. -/
def Reg.rstPend0 : Nat := 0x20018
/-- RST_PEND1: PEND[3:0]. -/
def Reg.rstPend1 : Nat := 0x2001C
/-- RST_HELD0: HELD[31:0]. -/
def Reg.rstHeld0 : Nat := 0x20020
/-- RST_HELD1: HELD[3:0]. -/
def Reg.rstHeld1 : Nat := 0x20024
/-- RST_BOOT_HOLD: RELEASE[31:31], HOLD[0:0]. -/
def Reg.rstBootHold : Nat := 0x20030

/-! OPT registers (chapter 18). -/

/-- OPT_BYTES: BYTES[31:0]. -/
def Reg.optBytes (i : Nat) : Nat := 0x30000 + 0x4 * i
/-- OPT_STATUS: LOADED[31:31], FIXED[15:0]. -/
def Reg.optStatus : Nat := 0x30100

/-! SEC registers (chapter 20). -/

/-- SEC_STATUS: FW_RUNNING[31:31], RECOVERY[30:30], DEBUG_OPEN[29:29], BOOT_FAIL[23:16], BLOCKS_FREE[10:0]. -/
def Reg.secStatus : Nat := 0x0
/-- SEC_CTRL: KEY[31:16], RESET[0:0]. -/
def Reg.secCtrl : Nat := 0x4
/-- SEC_LIFECYCLE: KEY[31:16], ADVANCE[4:4], STATE[3:0]. -/
def Reg.secLifecycle : Nat := 0x8
/-- SEC_STAGE: LOCK[31:31], BASE[5:0]. -/
def Reg.secStage : Nat := 0xC
/-- SEC_IMG_POST: ADDR[29:6]. -/
def Reg.secImgPost : Nat := 0x10
/-- SEC_ATT_POST: ADDR[29:6]. -/
def Reg.secAttPost : Nat := 0x14
/-- SEC_ATT_NONCE: NONCE[31:0]. -/
def Reg.secAttNonce (i : Nat) : Nat := 0x20 + 0x4 * i
/-- SEC_ATT_PUB: ROOT[31:0]. -/
def Reg.secAttPub (i : Nat) : Nat := 0x40 + 0x4 * i
/-- SEC_LEAF: VALID[31:31], NEXT[19:0]. -/
def Reg.secLeaf : Nat := 0x60
/-- SEC_MEAS: WORD[31:0]. -/
def Reg.secMeas (i : Nat) (j : Nat) : Nat := 0x100 + 0x20 * i + 0x4 * j
/-- SEC_EXTEND_DATA: DATA[31:0]. -/
def Reg.secExtendData (i : Nat) : Nat := 0x200 + 0x4 * i
/-- SEC_EXTEND: GO[0:0]. -/
def Reg.secExtend : Nat := 0x220
/-- SEC_ASMKEY_DATA: KEY[31:0]. -/
def Reg.secAsmkeyData (i : Nat) : Nat := 0x300 + 0x4 * i
/-- SEC_ASMKEY_CTRL: COMMIT[31:31], VALID[9:8], TX_SLOT[4:4], SLOT[0:0]. -/
def Reg.secAsmkeyCtrl : Nat := 0x320
/-- SEC_CNT: COUNT[31:0]. -/
def Reg.secCnt (i : Nat) : Nat := 0x400 + 0x4 * i
/-- SEC_CNT_CLR: CLR[0:0]. -/
def Reg.secCntClr : Nat := 0xFC

/-- Register groups of LANE (chapter 03). -/
def regTableLane : List RegGroup := [
  ⟨0x500000, [(74, 0x1000)], [⟨15, 12, .ro, 0⟩, ⟨7, 7, .ro, 0⟩, ⟨6, 6, .rw, 0⟩, ⟨5, 5, .rw, 0⟩, ⟨4, 4, .rw, 0⟩, ⟨2, 0, .rw, 0⟩]⟩,
  ⟨0x500004, [(74, 0x1000)], [⟨13, 13, .rd, 0⟩, ⟨12, 12, .w1c, 0⟩, ⟨11, 11, .w1c, 0⟩, ⟨10, 10, .w1c, 0⟩, ⟨9, 9, .w1c, 0⟩, ⟨8, 8, .w1c, 0⟩, ⟨5, 5, .rd, 0⟩, ⟨4, 4, .rd, 0⟩, ⟨3, 3, .rd, 0⟩, ⟨2, 2, .rd, 0⟩, ⟨1, 0, .rd, 0⟩]⟩,
  ⟨0x500010, [(74, 0x1000)], [⟨31, 28, .rw, 0⟩, ⟨27, 22, .rw, 0⟩, ⟨21, 15, .rw, 0⟩, ⟨14, 9, .rw, 0⟩, ⟨8, 5, .rw, 0⟩]⟩,
  ⟨0x500014, [(74, 0x1000)], [⟨12, 5, .ro, 0⟩, ⟨4, 0, .ro, 0⟩]⟩,
  ⟨0x500018, [(74, 0x1000)], [⟨23, 16, .ro, 0⟩, ⟨15, 8, .ro, 0⟩, ⟨7, 0, .ro, 0⟩]⟩,
  ⟨0x500020, [(74, 0x1000)], [⟨31, 0, .ro, 0⟩]⟩,
  ⟨0x500024, [(74, 0x1000)], [⟨31, 0, .ro, 0⟩]⟩,
  ⟨0x500028, [(74, 0x1000)], [⟨31, 0, .ro, 0⟩]⟩,
  ⟨0x50002C, [(74, 0x1000)], [⟨31, 0, .ro, 0⟩]⟩,
  ⟨0x500030, [(74, 0x1000)], [⟨31, 0, .ro, 0⟩]⟩,
  ⟨0x500044, [(74, 0x1000)], [⟨31, 0, .ro, 0⟩]⟩,
  ⟨0x50003C, [(74, 0x1000)], [⟨0, 0, .w1p, 0⟩]⟩,
  ⟨0x500040, [(74, 0x1000)], [⟨8, 8, .rd, 0⟩, ⟨6, 6, .rw, 0⟩, ⟨5, 4, .rw, 0⟩, ⟨2, 2, .rw, 0⟩, ⟨1, 0, .rw, 0⟩]⟩,
  ⟨0x500050, [(74, 0x1000)], [⟨31, 31, .w1p, 0⟩, ⟨30, 30, .rd, 0⟩, ⟨13, 8, .rw, 0⟩, ⟨1, 0, .rw, 0⟩]⟩,
  ⟨0x57F000, [(3, 0x4)], [⟨31, 0, .rd, 0⟩]⟩]

/-- Register groups of ASM (chapter 04). -/
def regTableAsm : List RegGroup := [
  ⟨0x400000, [(2, 0x80000)], [⟨31, 31, .w1p, 0⟩, ⟨30, 30, .w1p, 0⟩, ⟨5, 5, .rw, 0⟩, ⟨4, 4, .rw, 1⟩, ⟨3, 3, .rw, 1⟩, ⟨1, 1, .rw, 0⟩, ⟨0, 0, .rw, 0⟩]⟩,
  ⟨0x400004, [(2, 0x80000)], [⟨23, 20, .rd, 0⟩, ⟨19, 16, .rd, 0⟩, ⟨15, 15, .rd, 0⟩, ⟨14, 11, .rd, 0⟩, ⟨10, 10, .rd, 0⟩, ⟨9, 9, .rd, 0⟩, ⟨8, 8, .rd, 0⟩, ⟨2, 0, .rd, 0⟩]⟩,
  ⟨0x400008, [(2, 0x80000)], [⟨23, 0, .ro, 0⟩]⟩,
  ⟨0x40000C, [(2, 0x80000)], [⟨31, 0, .rw, 0⟩]⟩,
  ⟨0x400010, [(2, 0x80000)], [⟨31, 16, .rw, 0⟩, ⟨15, 0, .rw, 0⟩]⟩,
  ⟨0x400014, [(2, 0x80000)], [⟨31, 16, .rw, 0xC8⟩, ⟨7, 0, .rw, 8⟩]⟩,
  ⟨0x400018, [], [⟨15, 0, .rw, 0x2710⟩]⟩,
  ⟨0x400020, [], [⟨31, 0, .rd, 0⟩]⟩,
  ⟨0x400024, [], [⟨31, 0, .rd, 0⟩]⟩,
  ⟨0x400040, [(2, 0x80000)], [⟨29, 6, .wo, 0⟩]⟩,
  ⟨0x400044, [(2, 0x80000)], [⟨29, 6, .wo, 0⟩]⟩,
  ⟨0x400048, [(2, 0x80000)], [⟨20, 16, .rd, 0⟩, ⟨4, 0, .rd, 0⟩]⟩,
  ⟨0x400100, [(2, 0x80000), (21, 0x4)], [⟨31, 0, .ro, 0⟩]⟩,
  ⟨0x4000FC, [(2, 0x80000)], [⟨0, 0, .w1p, 0⟩]⟩,
  ⟨0x400800, [(64, 0x8)], [⟨31, 31, .rw, 0⟩, ⟨30, 30, .rw, 0⟩, ⟨19, 0, .rw, 0⟩]⟩,
  ⟨0x400804, [(64, 0x8)], [⟨15, 0, .rw, 0⟩]⟩]

/-- Register groups of DEC (chapter 05). -/
def regTableDec : List RegGroup := [
  ⟨0x1000000, [], [⟨15, 8, .rw, 8⟩, ⟨0, 0, .rw, 1⟩]⟩,
  ⟨0x1000004, [], [⟨31, 31, .lck, 0⟩, ⟨6, 0, .rwl, 0x40⟩]⟩,
  ⟨0x1000008, [], [⟨11, 8, .rd, 0⟩, ⟨7, 4, .rd, 0⟩, ⟨3, 0, .rd, 0⟩]⟩,
  ⟨0x100000C, [], [⟨31, 0, .rd, 0⟩]⟩,
  ⟨0x1000010, [], [⟨31, 28, .ro, 0⟩, ⟨10, 8, .rd, 0⟩, ⟨4, 0, .rd, 0⟩]⟩,
  ⟨0x1000020, [], [⟨23, 20, .ro, 0⟩, ⟨19, 16, .ro, 0⟩, ⟨15, 0, .ro, 0⟩]⟩,
  ⟨0x1000024, [], [⟨18, 18, .ro, 0⟩, ⟨17, 16, .ro, 0⟩, ⟨15, 0, .ro, 0⟩]⟩,
  ⟨0x1000040, [(16, 0x4)], [⟨31, 25, .rd, 0⟩, ⟨24, 15, .rd, 0⟩, ⟨14, 10, .rd, 0⟩, ⟨9, 0, .rd, 0⟩]⟩,
  ⟨0x1000100, [(12, 0x4)], [⟨31, 0, .ro, 0⟩]⟩,
  ⟨0x10000FC, [], [⟨0, 0, .w1p, 0⟩]⟩]

/-- Register groups of HR (chapter 06). -/
def regTableHr : List RegGroup := [
  ⟨0x1100004, [(12, 0x10000)], [⟨24, 16, .ro, 0x1FF⟩, ⟨15, 0, .rd, 0⟩]⟩,
  ⟨0x1100008, [(12, 0x10000)], [⟨31, 31, .w1c, 0⟩, ⟨27, 24, .ro, 0⟩, ⟨22, 20, .ro, 0⟩, ⟨16, 8, .ro, 0⟩, ⟨7, 0, .ro, 0⟩]⟩,
  ⟨0x1100100, [(12, 0x10000), (5, 0x4)], [⟨31, 0, .ro, 0⟩]⟩,
  ⟨0x11000FC, [(12, 0x10000)], [⟨0, 0, .w1p, 0⟩]⟩,
  ⟨0x1108100, [(5, 0x4)], [⟨31, 0, .ro, 0⟩]⟩,
  ⟨0x11080FC, [], [⟨0, 0, .w1p, 0⟩]⟩,
  ⟨0x1108000, [], [⟨1, 1, .rw, 1⟩, ⟨0, 0, .rw, 1⟩]⟩,
  ⟨0x1108004, [], [⟨31, 31, .w1c, 0⟩, ⟨30, 30, .w1c, 0⟩, ⟨8, 0, .ro, 0⟩]⟩,
  ⟨0x1108008, [], [⟨31, 31, .rd, 0⟩, ⟨19, 16, .rd, 0⟩, ⟨15, 0, .rd, 0⟩]⟩,
  ⟨0x1108200, [], [⟨31, 31, .rw, 0⟩, ⟨30, 30, .rw, 0⟩, ⟨15, 8, .rw, 4⟩, ⟨7, 5, .rw, 2⟩, ⟨4, 0, .rw, 0xA⟩]⟩,
  ⟨0x1108204, [], [⟨29, 6, .wo, 0⟩]⟩,
  ⟨0x1108208, [], [⟨3, 3, .rd, 0⟩, ⟨2, 0, .rd, 0⟩]⟩]

/-- Register groups of SEQ (chapter 08). -/
def regTableSeq : List RegGroup := [
  ⟨0x1200F00, [], [⟨23, 0, .rw, 0⟩]⟩,
  ⟨0x1200F04, [], [⟨23, 0, .rw, 0⟩]⟩,
  ⟨0x1200F08, [], [⟨31, 31, .rd, 0⟩, ⟨30, 30, .w1p, 0⟩, ⟨7, 0, .rw, 0x80⟩]⟩,
  ⟨0x1200F0C, [], [⟨7, 0, .rd, 0⟩]⟩,
  ⟨0x1200F10, [], [⟨23, 0, .rd, 0⟩]⟩,
  ⟨0x1200F14, [], [⟨23, 0, .rd, 0⟩]⟩,
  ⟨0x1200000, [], [⟨31, 31, .w1p, 0⟩, ⟨2, 2, .rw, 1⟩, ⟨1, 1, .rw, 1⟩, ⟨0, 0, .rw, 0⟩]⟩,
  ⟨0x1200004, [], [⟨31, 31, .w1c, 0⟩, ⟨30, 30, .w1c, 0⟩, ⟨29, 29, .w1c, 0⟩, ⟨28, 28, .w1c, 0⟩, ⟨27, 27, .w1c, 0⟩, ⟨26, 26, .rd, 0⟩, ⟨25, 25, .rd, 0⟩, ⟨24, 24, .rd, 0⟩, ⟨18, 16, .rd, 0⟩, ⟨15, 15, .rd, 0⟩, ⟨10, 8, .rd, 0⟩, ⟨7, 0, .ro, 0⟩]⟩,
  ⟨0x1200008, [], [⟨15, 3, .rw, 0⟩]⟩,
  ⟨0x120000C, [], [⟨15, 0, .rd, 0⟩]⟩,
  ⟨0x1200010, [], [⟨31, 0, .rd, 0⟩]⟩,
  ⟨0x1200014, [], [⟨15, 0, .rd, 0⟩]⟩,
  ⟨0x1200018, [], [⟨31, 0, .rd, 0⟩]⟩,
  ⟨0x120001C, [], [⟨31, 0, .rd, 0⟩]⟩,
  ⟨0x1200020, [], [⟨31, 15, .rd, 0⟩, ⟨8, 0, .rd, 0⟩]⟩,
  ⟨0x1200024, [], [⟨23, 16, .ro, 0⟩, ⟨8, 8, .rw, 1⟩, ⟨7, 0, .rw, 8⟩]⟩,
  ⟨0x1200028, [], [⟨22, 16, .rd, 0⟩, ⟨10, 0, .rd, 0⟩]⟩,
  ⟨0x120002C, [], [⟨15, 0, .ro, 0⟩]⟩,
  ⟨0x1200030, [], [⟨31, 0, .rw, 0⟩]⟩,
  ⟨0x1200034, [], [⟨31, 0, .rd, 0⟩]⟩,
  ⟨0x1200038, [], [⟨31, 0, .rd, 0⟩]⟩,
  ⟨0x1200040, [(16, 0x4)], [⟨31, 0, .rd, 0⟩]⟩,
  ⟨0x1200100, [(7, 0x4)], [⟨31, 0, .ro, 0⟩]⟩,
  ⟨0x12000FC, [], [⟨0, 0, .w1p, 0⟩]⟩,
  ⟨0x1210000, [(16384, 0x4)], [⟨31, 0, .rd, 0⟩]⟩]

/-- Register groups of PLC (chapter 09). -/
def regTablePlc : List RegGroup := [
  ⟨0x1300000, [], [⟨2, 2, .rw, 1⟩, ⟨1, 1, .rw, 0⟩, ⟨0, 0, .rw, 0⟩]⟩,
  ⟨0x1300004, [], [⟨15, 0, .rw, 0x10⟩]⟩,
  ⟨0x1300008, [], [⟨31, 16, .rw, 0x3E8⟩, ⟨15, 0, .rw, 0x1F4⟩]⟩,
  ⟨0x130000C, [], [⟨15, 0, .rw, 0x190⟩]⟩,
  ⟨0x1300010, [], [⟨31, 0, .rw, 0⟩]⟩,
  ⟨0x1300014, [], [⟨31, 16, .rw, 0x1F4⟩, ⟨15, 8, .rw, 0x40⟩, ⟨3, 0, .rw, 4⟩]⟩,
  ⟨0x1300020, [], [⟨31, 16, .rd, 0⟩, ⟨15, 0, .rd, 0⟩]⟩,
  ⟨0x1300024, [], [⟨31, 16, .w1c, 0⟩, ⟨15, 0, .w1c, 0⟩]⟩,
  ⟨0x1300028, [], [⟨29, 6, .wo, 0⟩, ⟨3, 0, .wo, 0⟩]⟩,
  ⟨0x130002C, [], [⟨15, 0, .w1p, 0⟩]⟩,
  ⟨0x1300800, [(128, 0x10)], [⟨31, 31, .rw, 0⟩, ⟨29, 28, .rw, 0⟩, ⟨7, 0, .rw, 0⟩]⟩,
  ⟨0x1300804, [(128, 0x10)], [⟨31, 16, .rw, 0⟩, ⟨15, 0, .rw, 0⟩]⟩,
  ⟨0x1300808, [(128, 0x10)], [⟨31, 16, .rw, 0⟩, ⟨15, 0, .rw, 0⟩]⟩,
  ⟨0x130080C, [(128, 0x10)], [⟨31, 16, .rw, 0⟩, ⟨15, 0, .rw, 0⟩]⟩,
  ⟨0x1301000, [(16, 0x40), (4, 0x4)], [⟨31, 0, .rw, 0⟩]⟩,
  ⟨0x1301010, [(16, 0x40), (4, 0x4)], [⟨31, 0, .ro, 0⟩]⟩,
  ⟨0x1301020, [(16, 0x40)], [⟨15, 0, .ro, 0⟩]⟩,
  ⟨0x1301024, [(16, 0x40)], [⟨31, 31, .ro, 0⟩, ⟨30, 30, .w1c, 0⟩, ⟨27, 24, .ro, 0⟩, ⟨23, 16, .ro, 0xFF⟩, ⟨15, 0, .ro, 0⟩]⟩,
  ⟨0x1300100, [(8, 0x4)], [⟨31, 0, .ro, 0⟩]⟩,
  ⟨0x13000FC, [], [⟨0, 0, .w1p, 0⟩]⟩]

/-- Register groups of CAM (chapter 10). -/
def regTableCam : List RegGroup := [
  ⟨0x1500000, [(4, 0x20000)], [⟨9, 8, .rw, 0⟩, ⟨3, 3, .rw, 0⟩, ⟨2, 2, .rw, 0⟩, ⟨1, 1, .rw, 0⟩, ⟨0, 0, .rw, 1⟩]⟩,
  ⟨0x1500004, [(4, 0x20000)], [⟨31, 31, .w1p, 0⟩, ⟨30, 30, .w1p, 0⟩, ⟨8, 8, .rd, 0⟩, ⟨5, 4, .rw, 0⟩, ⟨1, 0, .rd, 0⟩]⟩,
  ⟨0x1500008, [(4, 0x20000)], [⟨26, 16, .rw, 0x300⟩, ⟨10, 0, .rw, 0x400⟩]⟩,
  ⟨0x150000C, [(4, 0x20000)], [⟨27, 16, .rw, 0x100⟩, ⟨11, 0, .rw, 0x200⟩]⟩,
  ⟨0x1500010, [(4, 0x20000)], [⟨31, 8, .rw, 0x100⟩, ⟨3, 0, .rw, 4⟩]⟩,
  ⟨0x1500014, [(4, 0x20000)], [⟨31, 31, .w1c, 0⟩, ⟨30, 30, .w1c, 0⟩, ⟨0, 0, .rd, 0⟩]⟩,
  ⟨0x1500018, [(4, 0x20000)], [⟨31, 31, .ro, 0⟩, ⟨30, 30, .ro, 0⟩, ⟨29, 29, .ro, 0⟩, ⟨28, 28, .ro, 0⟩, ⟨27, 27, .ro, 0⟩, ⟨10, 0, .ro, 0⟩]⟩,
  ⟨0x150001C, [(4, 0x20000)], [⟨15, 0, .ro, 0⟩]⟩,
  ⟨0x1500020, [(4, 0x20000), (2, 0x4)], [⟨9, 0, .rw, 0⟩]⟩,
  ⟨0x1500030, [(4, 0x20000)], [⟨29, 6, .wo, 0⟩]⟩,
  ⟨0x1501000, [(4, 0x20000), (2, 0x800), (512, 0x4)], [⟨31, 0, .rw, 0⟩]⟩,
  ⟨0x1504000, [(4, 0x20000), (2, 0x4000), (2113, 0x4)], [⟨31, 0, .rw, 0⟩]⟩,
  ⟨0x1500100, [(4, 0x20000), (4, 0x4)], [⟨31, 0, .ro, 0⟩]⟩,
  ⟨0x15000FC, [(4, 0x20000)], [⟨0, 0, .w1p, 0⟩]⟩,
  ⟨0x1580000, [], [⟨15, 8, .rw, 0x18⟩, ⟨2, 1, .rw, 2⟩, ⟨0, 0, .rw, 1⟩]⟩,
  ⟨0x1580004, [], [⟨4, 4, .rd, 0⟩, ⟨3, 0, .rd, 0⟩]⟩,
  ⟨0x1581000, [(128, 0x8)], [⟨31, 31, .ro, 0⟩, ⟨30, 30, .ro, 0⟩, ⟨29, 29, .ro, 0⟩, ⟨28, 28, .ro, 0⟩, ⟨15, 0, .ro, 0⟩]⟩,
  ⟨0x1581004, [(128, 0x8)], [⟨15, 0, .ro, 0⟩]⟩,
  ⟨0x1580100, [(6, 0x4)], [⟨31, 0, .ro, 0⟩]⟩,
  ⟨0x15800FC, [], [⟨0, 0, .w1p, 0⟩]⟩]

/-- Register groups of FIN (chapter 11). -/
def regTableFin : List RegGroup := [
  ⟨0x1600000, [], [⟨31, 31, .w1p, 0⟩, ⟨30, 30, .rd, 0⟩, ⟨0, 0, .rw, 1⟩]⟩,
  ⟨0x1600004, [], [⟨29, 20, .rw, 0x3FF⟩, ⟨19, 0, .rw, 0xFFFFF⟩]⟩,
  ⟨0x1600008, [], [⟨31, 31, .lck, 0⟩, ⟨15, 8, .rwl, 8⟩, ⟨7, 0, .rwl, 0⟩]⟩,
  ⟨0x160000C, [], [⟨29, 6, .wo, 0⟩, ⟨3, 0, .wo, 0⟩]⟩,
  ⟨0x1600010, [], [⟨31, 16, .rd, 0⟩, ⟨15, 0, .rd, 0⟩]⟩,
  ⟨0x1600014, [], [⟨31, 16, .w1c, 0⟩, ⟨15, 0, .w1c, 0⟩]⟩,
  ⟨0x1600018, [], [⟨31, 16, .ro, 0⟩, ⟨15, 0, .ro, 0xFFFF⟩]⟩,
  ⟨0x1600040, [(16, 0x4)], [⟨26, 18, .rd, 0⟩, ⟨17, 0, .rd, 0⟩]⟩,
  ⟨0x1600080, [(16, 0x4)], [⟨3, 0, .rw, 1⟩]⟩,
  ⟨0x1601000, [(16, 0x200), (8, 0x40)], [⟨15, 0, .rw, 0⟩]⟩,
  ⟨0x1601004, [(16, 0x200), (8, 0x40), (9, 0x4)], [⟨23, 0, .rw, 0⟩]⟩,
  ⟨0x1603000, [(16, 0x40)], [⟨15, 0, .ro, 0⟩]⟩,
  ⟨0x1603004, [(16, 0x40), (9, 0x4)], [⟨23, 0, .ro, 0⟩]⟩,
  ⟨0x1600100, [(7, 0x4)], [⟨31, 0, .ro, 0⟩]⟩,
  ⟨0x1600140, [(16, 0x4)], [⟨31, 0, .ro, 0⟩]⟩,
  ⟨0x16000FC, [], [⟨0, 0, .w1p, 0⟩]⟩]

/-- Register groups of TLK (chapter 12). -/
def regTableTlk : List RegGroup := [
  ⟨0x1700000, [], [⟨31, 31, .w1p, 0⟩, ⟨30, 30, .rd, 0⟩, ⟨15, 8, .rw, 0xA⟩, ⟨0, 0, .rw, 1⟩]⟩,
  ⟨0x1700004, [], [⟨31, 16, .w1p, 0⟩, ⟨15, 0, .rw, 0⟩]⟩,
  ⟨0x1700008, [], [⟨31, 0, .rd, 0⟩]⟩,
  ⟨0x170000C, [], [⟨31, 31, .rd, 0⟩, ⟨30, 30, .rd, 0⟩, ⟨15, 0, .w1c, 0⟩]⟩,
  ⟨0x1700010, [], [⟨15, 0, .rw, 0⟩]⟩,
  ⟨0x1700014, [], [⟨31, 0, .rw, 0⟩]⟩,
  ⟨0x1700018, [], [⟨15, 0, .rw, 0⟩]⟩,
  ⟨0x1700040, [(16, 0x4)], [⟨17, 0, .rw, 0⟩]⟩,
  ⟨0x1700080, [(16, 0x4)], [⟨17, 0, .ro, 0⟩]⟩,
  ⟨0x17000C0, [(16, 0x4)], [⟨31, 31, .ro, 0⟩, ⟨23, 16, .rd, 0⟩, ⟨15, 0, .ro, 0⟩]⟩,
  ⟨0x1700200, [(16, 0x8)], [⟨31, 31, .w1c, 0⟩, ⟨23, 8, .ro, 0⟩, ⟨7, 0, .ro, 0⟩]⟩,
  ⟨0x1700204, [(16, 0x8)], [⟨31, 0, .ro, 0⟩]⟩,
  ⟨0x1700300, [(16, 0x8)], [⟨31, 0, .ro, 0⟩]⟩,
  ⟨0x1700304, [(16, 0x8)], [⟨31, 0, .ro, 0⟩]⟩,
  ⟨0x1700400, [], [⟨31, 0, .rw, 0⟩]⟩,
  ⟨0x1700404, [], [⟨31, 31, .w1p, 0⟩, ⟨30, 30, .rd, 0⟩, ⟨19, 16, .rw, 0⟩, ⟨15, 8, .rw, 0⟩, ⟨7, 0, .rw, 0⟩]⟩,
  ⟨0x1700408, [], [⟨31, 16, .ro, 0⟩, ⟨15, 0, .ro, 0⟩]⟩,
  ⟨0x170040C, [], [⟨31, 31, .ro, 0⟩, ⟨30, 30, .ro, 0⟩, ⟨29, 29, .ro, 0⟩, ⟨19, 16, .ro, 0⟩, ⟨15, 8, .ro, 0⟩]⟩,
  ⟨0x1700410, [], [⟨15, 0, .wo, 0⟩]⟩,
  ⟨0x1700100, [(5, 0x4)], [⟨31, 0, .ro, 0⟩]⟩,
  ⟨0x1700140, [(16, 0x4)], [⟨31, 0, .ro, 0⟩]⟩,
  ⟨0x1700180, [(16, 0x4)], [⟨31, 0, .ro, 0⟩]⟩]

/-- Register groups of RPT (chapter 13). -/
def regTableRpt : List RegGroup := [
  ⟨0x1800000, [], [⟨31, 31, .w1p, 0⟩, ⟨12, 8, .rw, 8⟩, ⟨3, 3, .rw, 1⟩, ⟨2, 2, .rw, 1⟩, ⟨1, 1, .rw, 1⟩, ⟨0, 0, .rw, 0⟩]⟩,
  ⟨0x1800004, [], [⟨31, 31, .w1c, 0⟩, ⟨30, 30, .w1c, 0⟩, ⟨29, 29, .rd, 0⟩, ⟨28, 28, .rd, 0⟩, ⟨27, 27, .rd, 0⟩, ⟨5, 0, .rd, 0⟩]⟩,
  ⟨0x1800008, [], [⟨31, 16, .rw, 0xA0⟩, ⟨15, 0, .rw, 0x190⟩]⟩,
  ⟨0x180000C, [], [⟨31, 16, .rw, 0x1CCD⟩, ⟨15, 0, .rw, 0x1CCD⟩]⟩,
  ⟨0x1800010, [], [⟨15, 0, .rw, 0x1CCD⟩]⟩,
  ⟨0x1800014, [], [⟨20, 0, .rw, 0x40000⟩]⟩,
  ⟨0x1800018, [], [⟨31, 0, .rw, 1⟩]⟩,
  ⟨0x180001C, [], [⟨31, 24, .rw, 0x10⟩, ⟨23, 16, .rw, 0x40⟩, ⟨15, 12, .rw, 4⟩, ⟨10, 0, .rw, 0x400⟩]⟩,
  ⟨0x1800020, [], [⟨31, 31, .w1p, 0⟩, ⟨15, 0, .rw, 0x258⟩]⟩,
  ⟨0x1800024, [], [⟨29, 6, .wo, 0⟩]⟩,
  ⟨0x1800028, [], [⟨29, 6, .wo, 0⟩]⟩,
  ⟨0x1800030, [], [⟨31, 0, .ro, 0⟩]⟩,
  ⟨0x1800040, [(16, 0x4)], [⟨13, 8, .rw, 0⟩, ⟨5, 1, .rw, 0⟩, ⟨0, 0, .ro, 1⟩]⟩,
  ⟨0x1800100, [(16, 0x10), (4, 0x4)], [⟨31, 0, .rd, 0⟩]⟩,
  ⟨0x1800400, [(3, 0x84), (33, 0x4)], [⟨15, 0, .rw, 0x8000⟩]⟩,
  ⟨0x1800200, [(6, 0x4)], [⟨31, 0, .ro, 0⟩]⟩,
  ⟨0x18000FC, [], [⟨0, 0, .w1p, 0⟩]⟩]

/-- Register groups of CAL (chapter 13). -/
def regTableCal : List RegGroup := [
  ⟨0x1808200, [(2, 0x4)], [⟨31, 0, .ro, 0⟩]⟩,
  ⟨0x18080FC, [], [⟨0, 0, .w1p, 0⟩]⟩,
  ⟨0x1808000, [], [⟨2, 2, .rw, 1⟩, ⟨1, 1, .rw, 1⟩, ⟨0, 0, .rw, 1⟩]⟩,
  ⟨0x1808004, [], [⟨2, 2, .w1p, 0⟩, ⟨1, 1, .w1p, 0⟩, ⟨0, 0, .w1p, 0⟩]⟩,
  ⟨0x1808008, [], [⟨31, 31, .w1c, 0⟩, ⟨19, 16, .rd, 0⟩, ⟨3, 3, .rd, 0⟩, ⟨2, 2, .rd, 0⟩, ⟨1, 1, .rd, 0⟩, ⟨0, 0, .rd, 0⟩]⟩,
  ⟨0x180800C, [], [⟨31, 16, .rw, 0x800⟩, ⟨15, 0, .ro, 0⟩]⟩,
  ⟨0x1808040, [(16, 0x4)], [⟨23, 0, .ro, 0x400000⟩]⟩,
  ⟨0x1808080, [(16, 0x4)], [⟨31, 16, .ro, 0xFFFF⟩, ⟨15, 0, .ro, 0⟩]⟩,
  ⟨0x1808100, [], [⟨29, 6, .wo, 0⟩, ⟨3, 0, .wo, 0⟩]⟩,
  ⟨0x1808104, [], [⟨31, 16, .rd, 0⟩, ⟨15, 0, .rd, 0⟩]⟩,
  ⟨0x1808108, [], [⟨31, 16, .w1c, 0⟩, ⟨15, 0, .w1c, 0⟩]⟩,
  ⟨0x1808110, [], [⟨29, 6, .wo, 0⟩]⟩,
  ⟨0x1808114, [], [⟨29, 6, .wo, 0⟩]⟩,
  ⟨0x1808118, [], [⟨31, 0, .ro, 0⟩]⟩]

/-- Register groups of DMC (chapter 14). -/
def regTableDmc : List RegGroup := [
  ⟨0x1900000, [], [⟨31, 31, .w1p, 0⟩, ⟨0, 0, .rw, 1⟩]⟩,
  ⟨0x1900004, [], [⟨31, 16, .rd, 0⟩, ⟨15, 0, .rd, 0⟩]⟩,
  ⟨0x1900008, [], [⟨13, 8, .rw, 0x18⟩, ⟨5, 0, .rw, 8⟩]⟩,
  ⟨0x190000C, [], [⟨15, 0, .rw, 0x64⟩]⟩,
  ⟨0x1900010, [], [⟨15, 0, .rw, 0x1000⟩]⟩,
  ⟨0x1900014, [], [⟨7, 0, .rw, 8⟩]⟩,
  ⟨0x1900020, [], [⟨31, 31, .w1c, 0⟩, ⟨27, 24, .ro, 0⟩, ⟨20, 16, .ro, 0⟩, ⟨1, 0, .ro, 0⟩]⟩,
  ⟨0x1900024, [], [⟨31, 0, .ro, 0⟩]⟩,
  ⟨0x1900028, [], [⟨4, 0, .ro, 0⟩]⟩,
  ⟨0x1900400, [(4, 0x80), (26, 0x4)], [⟨15, 0, .rw, 0⟩]⟩,
  ⟨0x1900200, [(2, 0x4)], [⟨31, 0, .ro, 0⟩]⟩,
  ⟨0x1901000, [(16, 0x40), (6, 0x4)], [⟨31, 0, .ro, 0⟩]⟩,
  ⟨0x1901020, [(16, 0x40)], [⟨31, 31, .rd, 0⟩, ⟨21, 16, .rd, 0⟩, ⟨5, 0, .rd, 0⟩]⟩,
  ⟨0x19000FC, [], [⟨0, 0, .w1p, 0⟩]⟩]

/-- Register groups of PRC (chapter 14). -/
def regTablePrc : List RegGroup := [
  ⟨0x1908000, [(23, 0x400), (32, 0x10)], [⟨31, 31, .rwl, 0⟩, ⟨23, 0, .rwl, 0⟩]⟩,
  ⟨0x1908004, [(23, 0x400), (32, 0x10)], [⟨23, 0, .rwl, 0⟩]⟩,
  ⟨0x1908008, [(23, 0x400), (32, 0x10)], [⟨25, 0, .rwl, 0⟩]⟩,
  ⟨0x190800C, [(23, 0x400), (32, 0x10)], [⟨25, 0, .rwl, 0⟩]⟩,
  ⟨0x1908200, [(23, 0x400)], [⟨31, 31, .w1c, 0⟩, ⟨30, 30, .ro, 0⟩, ⟨20, 16, .ro, 0⟩]⟩,
  ⟨0x1908204, [(23, 0x400)], [⟨31, 0, .ro, 0⟩]⟩,
  ⟨0x1908208, [(23, 0x400)], [⟨3, 0, .ro, 0⟩]⟩,
  ⟨0x190820C, [(23, 0x400)], [⟨31, 0, .ro, 0⟩]⟩,
  ⟨0x1908210, [(23, 0x400)], [⟨31, 31, .w1p, 0⟩, ⟨0, 0, .lck, 0⟩]⟩,
  ⟨0x190FF00, [], [⟨22, 0, .rd, 0⟩]⟩]

/-- Register groups of EVT (chapter 15). -/
def regTableEvt : List RegGroup := [
  ⟨0x100000, [(9, 0x4)], [⟨31, 0, .w1c, 0⟩]⟩,
  ⟨0x100040, [(9, 0x4)], [⟨31, 0, .rw, 0⟩]⟩,
  ⟨0x100080, [], [⟨8, 0, .rd, 0⟩]⟩,
  ⟨0x100084, [], [⟨31, 31, .rd, 0⟩, ⟨0, 0, .rw, 0⟩]⟩,
  ⟨0x100088, [], [⟨31, 0, .w1p, 0⟩]⟩,
  ⟨0x1000C0, [], [⟨15, 0, .rw, 0⟩]⟩,
  ⟨0x1000C4, [], [⟨15, 0, .rw, 0⟩]⟩,
  ⟨0x1000C8, [], [⟨15, 0, .rd, 0⟩]⟩,
  ⟨0x101000, [(288, 0x4)], [⟨31, 31, .rw, 0⟩, ⟨30, 30, .rw, 0⟩, ⟨29, 29, .rw, 0⟩, ⟨5, 0, .rw, 0⟩]⟩]

/-- Register groups of HST (chapter 15). -/
def regTableHst : List RegGroup := [
  ⟨0x200000, [], [⟨31, 16, .ro, 0x960⟩, ⟨7, 0, .ro, 0⟩]⟩,
  ⟨0x200004, [], [⟨31, 31, .ro, 0⟩, ⟨7, 4, .ro, 0⟩, ⟨3, 0, .ro, 0⟩]⟩,
  ⟨0x200008, [], [⟨31, 31, .w1c, 0⟩, ⟨30, 30, .ro, 0⟩, ⟨29, 28, .ro, 0⟩, ⟨25, 2, .ro, 0⟩]⟩,
  ⟨0x210000, [(64, 0x10), (4, 0x4)], [⟨31, 0, .rw, 0⟩]⟩,
  ⟨0x211000, [(2, 0x4)], [⟨31, 0, .rd, 0⟩]⟩,
  ⟨0x230000, [(4, 0x20)], [⟨31, 31, .ro, 0⟩, ⟨15, 0, .ro, 0⟩]⟩,
  ⟨0x230004, [(4, 0x20), (6, 0x4)], [⟨31, 0, .ro, 0⟩]⟩,
  ⟨0x23001C, [(4, 0x20)], [⟨15, 0, .wo, 0⟩]⟩]

/-- Register groups of HP (chapter 15). -/
def regTableHp : List RegGroup := [
  ⟨0x220000, [], [⟨8, 0, .rd, 0⟩]⟩,
  ⟨0x220004, [], [⟨31, 31, .w1c, 0⟩, ⟨29, 0, .ro, 0⟩]⟩,
  ⟨0x220008, [], [⟨31, 0, .ro, 0⟩]⟩,
  ⟨0x22000C, [], [⟨0, 0, .w1p, 0⟩]⟩,
  ⟨0x220010, [], [⟨31, 31, .w1c, 0⟩, ⟨29, 6, .ro, 0⟩, ⟨2, 0, .ro, 0⟩]⟩]

/-- Register groups of RC (chapter 15). -/
def regTableRc : List RegGroup := [
  ⟨0x240000, [], [⟨31, 31, .w1p, 0⟩, ⟨23, 16, .rw, 0xC0⟩, ⟨3, 3, .rw, 0⟩, ⟨2, 2, .rw, 0⟩, ⟨1, 1, .rw, 0⟩, ⟨0, 0, .rw, 0⟩]⟩,
  ⟨0x240004, [], [⟨15, 0, .rw, 0x3E8⟩]⟩,
  ⟨0x240008, [], [⟨8, 0, .rw, 0⟩]⟩,
  ⟨0x24000C, [], [⟨29, 6, .wo, 0⟩]⟩,
  ⟨0x240010, [], [⟨31, 31, .rd, 0⟩, ⟨2, 0, .rd, 0⟩]⟩,
  ⟨0x240400, [(256, 0x4)], [⟨25, 2, .rw, 0⟩]⟩,
  ⟨0x240100, [(3, 0x4)], [⟨31, 0, .ro, 0⟩]⟩,
  ⟨0x2400FC, [], [⟨0, 0, .w1p, 0⟩]⟩]

/-- Register groups of SAT (chapter 16). -/
def regTableSat : List RegGroup := [
  ⟨0x1A00000, [], [⟨31, 31, .w1p, 0⟩]⟩,
  ⟨0x1A00004, [], [⟨31, 31, .w1c, 0⟩, ⟨5, 5, .rd, 0⟩, ⟨4, 4, .rd, 0⟩, ⟨3, 0, .rd, 0⟩]⟩,
  ⟨0x1A00010, [], [⟨31, 0, .rw, 0⟩]⟩,
  ⟨0x1A00014, [], [⟨4, 0, .rw, 0⟩]⟩,
  ⟨0x1A00018, [], [⟨31, 0, .rw, 0⟩]⟩,
  ⟨0x1A0001C, [], [⟨4, 0, .rw, 0⟩]⟩,
  ⟨0x1A00020, [], [⟨31, 0, .rw, 0⟩]⟩,
  ⟨0x1A00024, [], [⟨31, 0, .rw, 0⟩]⟩,
  ⟨0x1A00028, [], [⟨31, 31, .w1p, 0⟩, ⟨29, 29, .rw, 0⟩, ⟨28, 24, .rw, 0x10⟩, ⟨18, 16, .rw, 4⟩, ⟨15, 0, .rw, 0⟩]⟩,
  ⟨0x1A00100, [(5, 0x4)], [⟨31, 0, .ro, 0⟩]⟩,
  ⟨0x1A000FC, [], [⟨0, 0, .w1p, 0⟩]⟩]

/-- Register groups of BLT (chapter 17). -/
def regTableBlt : List RegGroup := [
  ⟨0x1A08000, [], [⟨31, 31, .w1p, 0⟩, ⟨30, 30, .w1p, 0⟩, ⟨29, 29, .rd, 0⟩, ⟨23, 8, .rw, 0⟩, ⟨6, 6, .rw, 1⟩, ⟨5, 5, .rw, 0⟩, ⟨4, 4, .rw, 0⟩, ⟨3, 2, .rw, 0⟩, ⟨1, 0, .rw, 0⟩]⟩,
  ⟨0x1A08004, [], [⟨31, 0, .rw, 0⟩]⟩,
  ⟨0x1A08008, [], [⟨4, 0, .rw, 0⟩]⟩,
  ⟨0x1A0800C, [], [⟨31, 0, .rw, 0⟩]⟩,
  ⟨0x1A08010, [], [⟨4, 0, .rw, 0⟩]⟩,
  ⟨0x1A08014, [], [⟨31, 16, .rw, 0x3000⟩, ⟨15, 0, .rw, 0x3000⟩]⟩,
  ⟨0x1A08018, [], [⟨27, 16, .rw, 0⟩, ⟨11, 0, .rw, 0⟩]⟩,
  ⟨0x1A0801C, [], [⟨31, 0, .rw, 0⟩]⟩,
  ⟨0x1A08020, [], [⟨9, 0, .rw, 0⟩]⟩,
  ⟨0x1A08024, [], [⟨24, 16, .rw, 0x1FF⟩, ⟨8, 0, .rw, 0x1FF⟩]⟩,
  ⟨0x1A08028, [], [⟨31, 0, .ro, 0⟩]⟩,
  ⟨0x1A08040, [], [⟨31, 31, .w1p, 0⟩, ⟨30, 30, .rd, 0⟩, ⟨3, 0, .rd, 0⟩]⟩,
  ⟨0x1A08044, [], [⟨31, 31, .w1p, 0⟩, ⟨1, 0, .rw, 0⟩]⟩,
  ⟨0x1A08048, [], [⟨27, 16, .rw, 0xBFF⟩, ⟨11, 0, .rw, 0⟩]⟩,
  ⟨0x1A0804C, [], [⟨26, 16, .rw, 0x6BF⟩, ⟨10, 0, .rw, 0⟩]⟩,
  ⟨0x1A08050, [], [⟨7, 4, .rd, 0⟩, ⟨3, 0, .rd, 0⟩]⟩,
  ⟨0x1A08054, [], [⟨11, 8, .w1c, 0⟩, ⟨7, 4, .w1c, 0⟩, ⟨3, 0, .w1c, 0⟩]⟩,
  ⟨0x1A08400, [(4, 0x20)], [⟨31, 31, .rw, 0⟩, ⟨15, 8, .rw, 0⟩, ⟨4, 4, .rw, 0⟩, ⟨3, 3, .rw, 1⟩, ⟨1, 0, .rw, 0⟩]⟩,
  ⟨0x1A08404, [(4, 0x20)], [⟨31, 16, .rw, 0⟩, ⟨15, 0, .rw, 0xFFFF⟩]⟩,
  ⟨0x1A08408, [(4, 0x20)], [⟨28, 0, .rw, 0⟩]⟩,
  ⟨0x1A0840C, [(4, 0x20)], [⟨28, 0, .rw, 0⟩]⟩,
  ⟨0x1A08100, [(4, 0x4)], [⟨31, 0, .ro, 0⟩]⟩,
  ⟨0x1A080FC, [], [⟨0, 0, .w1p, 0⟩]⟩]

/-- Register groups of THM (chapter 19). -/
def regTableThm : List RegGroup := [
  ⟨0x1B00000, [], [⟨31, 31, .w1p, 0⟩, ⟨30, 30, .rw, 0⟩, ⟨15, 0, .rw, 0x2710⟩]⟩,
  ⟨0x1B00004, [], [⟨31, 31, .ro, 0⟩, ⟨30, 30, .ro, 0⟩, ⟨29, 29, .ro, 0⟩, ⟨27, 26, .ro, 0⟩, ⟨25, 20, .ro, 0⟩]⟩,
  ⟨0x1B00008, [], [⟨31, 16, .rw, 0x1388⟩, ⟨15, 0, .rw, 0x3E8⟩]⟩,
  ⟨0x1B0000C, [], [⟨23, 16, .rw, 0x76⟩, ⟨15, 8, .rw, 0x6C⟩, ⟨7, 0, .rw, 0x64⟩]⟩,
  ⟨0x1B00010, [], [⟨23, 16, .rw, 0x50⟩, ⟨15, 8, .rw, 0x48⟩, ⟨7, 0, .rw, 0x41⟩]⟩,
  ⟨0x1B00014, [], [⟨15, 8, .rw, 0x18⟩, ⟨7, 0, .rw, 0x40⟩]⟩,
  ⟨0x1B00018, [], [⟨31, 0, .w1c, 0⟩]⟩,
  ⟨0x1B0001C, [], [⟨15, 0, .w1c, 0⟩]⟩,
  ⟨0x1B00020, [], [⟨15, 0, .ro, 0⟩]⟩,
  ⟨0x1B00024, [], [⟨21, 16, .ro, 0⟩, ⟨15, 0, .ro, 0⟩]⟩,
  ⟨0x1B00100, [(48, 0x4)], [⟨31, 31, .ro, 0⟩, ⟨30, 30, .ro, 0⟩, ⟨15, 0, .ro, 0⟩]⟩]

/-- Register groups of AVS (chapter 19). -/
def regTableAvs : List RegGroup := [
  ⟨0x1B08000, [], [⟨31, 31, .w1p, 0⟩, ⟨0, 0, .rw, 1⟩]⟩,
  ⟨0x1B08004, [], [⟨31, 31, .ro, 0⟩, ⟨30, 30, .ro, 0⟩, ⟨23, 16, .ro, 0⟩, ⟨11, 0, .ro, 0⟩]⟩,
  ⟨0x1B08008, [], [⟨27, 16, .rw, 0x668⟩, ⟨11, 0, .rw, 0x4D8⟩]⟩,
  ⟨0x1B0800C, [], [⟨23, 16, .rw, 2⟩, ⟨15, 8, .rw, 0xA⟩, ⟨7, 0, .rw, 6⟩]⟩,
  ⟨0x1B08010, [], [⟨2, 2, .rw, 1⟩, ⟨1, 1, .rw, 1⟩, ⟨0, 0, .rw, 1⟩]⟩,
  ⟨0x1B08014, [], [⟨11, 0, .ro, 0⟩]⟩,
  ⟨0x1B08018, [], [⟨6, 0, .rw, 0x40⟩]⟩,
  ⟨0x1B0801C, [], [⟨31, 16, .ro, 0⟩, ⟨15, 0, .ro, 0⟩]⟩,
  ⟨0x1B08020, [], [⟨31, 31, .ro, 0⟩, ⟨15, 0, .ro, 0⟩]⟩]

/-- Register groups of CLK (chapter 18). -/
def regTableClk : List RegGroup := [
  ⟨0x10000, [], [⟨31, 31, .ro, 0⟩, ⟨11, 11, .rd, 0⟩, ⟨10, 10, .rd, 0⟩, ⟨7, 5, .rd, 0⟩, ⟨4, 0, .rd, 0⟩]⟩,
  ⟨0x10004, [], [⟨31, 31, .rw, 0⟩, ⟨10, 8, .ro, 4⟩, ⟨2, 0, .rw, 4⟩]⟩,
  ⟨0x10010, [], [⟨29, 28, .rw, 0⟩, ⟨21, 19, .rw, 0⟩, ⟨1, 0, .rw, 0⟩]⟩,
  ⟨0x10014, [], [⟨3, 3, .rw, 0⟩, ⟨0, 0, .rw, 0⟩]⟩,
  ⟨0x10018, [], [⟨29, 28, .ro, 0⟩, ⟨21, 19, .ro, 0⟩, ⟨1, 0, .ro, 0⟩]⟩,
  ⟨0x1001C, [], [⟨3, 3, .ro, 0⟩, ⟨0, 0, .ro, 0⟩]⟩,
  ⟨0x10020, [], [⟨29, 28, .w1c, 0⟩, ⟨21, 19, .w1c, 0⟩, ⟨1, 0, .w1c, 0⟩]⟩,
  ⟨0x10024, [], [⟨3, 3, .w1c, 0⟩, ⟨0, 0, .w1c, 0⟩]⟩]

/-- Register groups of RST (chapter 18). -/
def regTableRst : List RegGroup := [
  ⟨0x20000, [], [⟨8, 8, .w1c, 0⟩, ⟨7, 7, .w1c, 0⟩, ⟨6, 6, .w1c, 0⟩, ⟨5, 5, .w1c, 0⟩, ⟨4, 4, .w1c, 0⟩, ⟨3, 3, .w1c, 0⟩, ⟨2, 2, .w1c, 0⟩, ⟨1, 1, .w1c, 0⟩, ⟨0, 0, .w1c, 1⟩]⟩,
  ⟨0x20004, [], [⟨31, 16, .wo, 0⟩, ⟨0, 0, .w1p, 0⟩]⟩,
  ⟨0x20010, [], [⟨31, 0, .rw, 0⟩]⟩,
  ⟨0x20014, [], [⟨3, 0, .rw, 0⟩]⟩,
  ⟨0x20018, [], [⟨31, 0, .rd, 0⟩]⟩,
  ⟨0x2001C, [], [⟨3, 0, .rd, 0⟩]⟩,
  ⟨0x20020, [], [⟨31, 0, .rd, 0⟩]⟩,
  ⟨0x20024, [], [⟨3, 0, .rd, 0⟩]⟩,
  ⟨0x20030, [], [⟨31, 31, .w1p, 0⟩, ⟨0, 0, .rd, 0⟩]⟩]

/-- Register groups of OPT (chapter 18). -/
def regTableOpt : List RegGroup := [
  ⟨0x30000, [(64, 0x4)], [⟨31, 0, .rd, 0⟩]⟩,
  ⟨0x30100, [], [⟨31, 31, .rd, 0⟩, ⟨15, 0, .ro, 0⟩]⟩]

/-- Register groups of SEC (chapter 20). -/
def regTableSec : List RegGroup := [
  ⟨0x0, [], [⟨31, 31, .ro, 0⟩, ⟨30, 30, .ro, 0⟩, ⟨29, 29, .ro, 0⟩, ⟨23, 16, .ro, 0⟩, ⟨10, 0, .rd, 0⟩]⟩,
  ⟨0x4, [], [⟨31, 16, .wo, 0⟩, ⟨0, 0, .w1p, 0⟩]⟩,
  ⟨0x8, [], [⟨31, 16, .wo, 0⟩, ⟨4, 4, .w1p, 0⟩, ⟨3, 0, .rd, 0⟩]⟩,
  ⟨0xC, [], [⟨31, 31, .lck, 0⟩, ⟨5, 0, .rwl, 8⟩]⟩,
  ⟨0x10, [], [⟨29, 6, .wo, 0⟩]⟩,
  ⟨0x14, [], [⟨29, 6, .wo, 0⟩]⟩,
  ⟨0x20, [(8, 0x4)], [⟨31, 0, .rw, 0⟩]⟩,
  ⟨0x40, [(8, 0x4)], [⟨31, 0, .rd, 0⟩]⟩,
  ⟨0x60, [], [⟨31, 31, .ro, 0⟩, ⟨19, 0, .ro, 0⟩]⟩,
  ⟨0x100, [(6, 0x20), (8, 0x4)], [⟨31, 0, .ro, 0⟩]⟩,
  ⟨0x200, [(8, 0x4)], [⟨31, 0, .rw, 0⟩]⟩,
  ⟨0x220, [], [⟨0, 0, .w1p, 0⟩]⟩,
  ⟨0x300, [(8, 0x4)], [⟨31, 0, .wo, 0⟩]⟩,
  ⟨0x320, [], [⟨31, 31, .w1p, 0⟩, ⟨9, 8, .ro, 0⟩, ⟨4, 4, .rw, 0⟩, ⟨0, 0, .rw, 0⟩]⟩,
  ⟨0x400, [(4, 0x4)], [⟨31, 0, .ro, 0⟩]⟩,
  ⟨0xFC, [], [⟨0, 0, .w1p, 0⟩]⟩]

/-- The register groups of the block that holds a BAR0 offset (Table HST-2). -/
def regBlockTable (off : Nat) : List RegGroup :=
  if off < 0x10000 then regTableSec
  else if off < 0x20000 then regTableClk
  else if off < 0x30000 then regTableRst
  else if off < 0x100000 then regTableOpt
  else if off < 0x200000 then regTableEvt
  else if off < 0x400000 then regTableHst ++ regTableHp ++ regTableRc
  else if off < 0x500000 then regTableAsm
  else if off < 0x800000 then regTableLane
  else if off < 0x1000000 then []
  else if off < 0x1100000 then regTableDec
  else if off < 0x1200000 then regTableHr
  else if off < 0x1300000 then regTableSeq
  else if off < 0x1400000 then regTablePlc
  else if off < 0x1500000 then []
  else if off < 0x1600000 then regTableCam
  else if off < 0x1700000 then regTableFin
  else if off < 0x1800000 then regTableTlk
  else if off < 0x1900000 then regTableRpt ++ regTableCal
  else if off < 0x1A00000 then regTableDmc ++ regTablePrc
  else if off < 0x1B00000 then regTableSat ++ regTableBlt
  else if off < 0x1C00000 then regTableThm ++ regTableAvs
  else []

/-- Does an offset, relative to a group's base, fall on one of its copies? Indices nest: each stride is at least the
span of the indices inside it. -/
def dimsHit : List (Nat × Nat) → Nat → Bool
  | [], r => r == 0
  | (c, st) :: ds, r => if r / st < c then dimsHit ds (r % st) else false

/-- The group that an offset belongs to (R10: none for a reserved offset). -/
def regFind (off : Nat) : Option RegGroup :=
  (regBlockTable off).find? fun g => if g.base ≤ off then dimsHit g.dims (off - g.base) else false

/-- The table's reset value of a register, field by field. -/
def fieldsReset (fs : List RegField) : Nat :=
  fs.foldl (fun a f => a ||| (f.reset <<< f.lsb)) 0

end Sys2Proof.Machine
end

