-- ==== Sys2Proof/Config.lean ====
section
/-!
DEFINITION. What the spec leaves to the outside or to the silicon: constants without a body, so that nothing in Lean can
see a value of them (free values). Each names the rule that leaves it open and its log entry. A `Nat` argument called
`draw` is the state's counter of values drawn.
-/
namespace Sys2Proof

/-- HST_ID.REV and the PCIe Revision ID: silicon (15 Table HST-1; DESIGN CHOICE, log entry 11). -/
opaque Config.siliconRev : BitVec 8

/-- A bit the spec leaves open, by the draw and an index within it (the users name their log entries). -/
opaque Config.freeBit : Nat → Nat → Bool

/-- A word the spec leaves open, by the draw and an index within it. -/
opaque Config.freeWord : Nat → Nat → Word

/-- An immediate operand of type UF20 under BSEL 2, which Table SLT-7 does not give (07; DESIGN CHOICE, log entry 20). -/
opaque Config.uf20Imm : BitVec 16 → Word

/-- What decoding the entropy-coded data of a codestream with acceptable headers answers (05 R120, R121), as ISO/IEC 21122-1, outside
the spec, defines it: 0, or a reason of Table DEC-8 (DESIGN CHOICE, log entry 12). -/
opaque Config.jxsBody : List Byte → BitVec 4

/-- Decoded sample 4 × (256·y + x) + component of a codestream (DESIGN CHOICE, log entry 12). -/
opaque Config.jxsSample : List Byte → Nat → BitVec 12

/-- Which of its two binary64 neighbours an inexact power takes: the upper (13 R284; DESIGN CHOICE, log entry 46). -/
opaque Config.powUp : BitVec 64 → BitVec 64 → Bool

/-- The 16-bit draw a generator state gives (13 R284; PRESUMED, log entry 47). -/
opaque Config.draw16 : BitVec 32 → BitVec 16

/-- One less than the value of SREF that stands for 1.0 (13 Table CAL-3; DESIGN CHOICE, log entry 48). -/
opaque Config.srefUnit : Nat

/-- The payload the Satchel compressor makes of a block at a LEVEL and BLOCK_LOG, after the bytes before it, newest first
(16 R358; DESIGN CHOICE, log entry 61). -/
opaque Config.satPayload : Nat → Nat → List Byte → List Byte → List Byte

/-- SECRET of the device array, byte 0 lowest (20 R413; PRESUMED, log entry 67). -/
opaque Config.secret : BitVec 256

/-- ATT_ROOT of the device array, byte 0 lowest (20 R413; PRESUMED, log entry 67). -/
opaque Config.attRoot : BitVec 256

end Sys2Proof
end

