-- ==== Sys2Proof/Machine/State.lean ====
section
/-!
DEFINITION. The state of the GF960: everything the spec gives the block, as plain data, in one structure per chapter,
and `State.reset`, the machine right after power-on reset (18 R391, R392: the POR source asserted, every block in reset).
Times are counts of core cycles (`State.now`, 00 R5: 1 cc = 0.625 ns, 1 fc = 2 cc, 1 pc = 8 cc, 1 sc = 64 cc).
-/
namespace Sys2Proof.Machine

/-- Why a step faults. No command of this block stops the machine: what the spec calls an error is a value of a register,
an event or a response (14 R305, 15 R334, 07 R180). No operation raises it. -/
inductive Fault where
  /-- Raised by no operation; safe. -/
  | none
  deriving DecidableEq, Repr

/-- Why a step refuses. -/
inductive Refusal where
  /-- The command `mnemonic` has no meaning in the model yet; raised by `exec` alone; safe. -/
  | notModelled (mnemonic : String)
  deriving DecidableEq, Repr

/-- Device memory, byte by byte; an unlisted address reads 0x00 (DESIGN CHOICE, log entry 2). -/
abbrev Memory := SMap Byte

/-! ## Serial lanes (03) -/

/-- The state requests of Table LNE-5 and the transition between them (LANE_STATUS.STATE). -/
inductive LaneSt where
  | active | quiet | dormant | transition
  deriving DecidableEq, Repr

/-- A 66-bit block as the link layer sees it (R53 to R55): control or data, 64 content bits, and the mark of an
uncorrectable (R60) or invalid (R55) block. -/
structure Block where
  ctl : Bool := false
  data : BitVec 64 := 0
  bad : Bool := false
  deriving DecidableEq, Repr

/-- An injection armed by LANE_INJECT.GO (R77). -/
structure Injection where
  kind : Nat
  count : Nat
  deriving DecidableEq, Repr

/-- One lane. -/
structure Lane where
  /-- State in force, or `transition` (R71). -/
  st : LaneSt := .dormant
  /-- State the running transition ends in. -/
  target : LaneSt := .dormant
  /-- Request that waits for the next codeword boundary (R71). -/
  req : Option LaneSt := none
  /-- Request held while a transition runs (REQ_HELD). -/
  held : Option LaneSt := none
  /-- What the link layer asks for while STATE_REQ is AUTO (R70). -/
  link : LaneSt := .dormant
  blockLock : Bool := false
  cwLock : Bool := false
  cdrLock : Bool := false
  sigDet : Bool := false
  /-- Next candidate the hunter tests (R64). -/
  hunt : Nat := 0
  /-- Candidates that passed the header test, in order (R64). -/
  passed : List Nat := []
  /-- Candidate under confirmation and its correctable codewords so far (R64). -/
  confirm : Option (Nat × Nat) := none
  /-- Blocks of the confirming codewords, delivered on lock (R64). -/
  confirmed : List Block := []
  /-- Blocks counted in the current 64-block window, and invalid headers in it (R65). -/
  winCount : Nat := 0
  winBad : Nat := 0
  /-- A window has ended with 16 or more invalid headers (R65). -/
  lossDue : Bool := false
  /-- When QUIET_NOTICE was last received (R66). -/
  noticeAt : Option Nat := none
  /-- Descrambler or scrambler state: the last 58 content bits on the line (R56). -/
  scr : BitVec 58 := 0
  /-- P_(k-1) of the precoder, sent or received (R62). -/
  pre : BitVec 2 := 0
  /-- PRECODE, FIR and PRBS generator settings in force (R62, R69); the registers hold what was written, and a lane leaves
  reset with PRECODE as it resets (`laneReset`). -/
  preOn : Bool := false
  firPend : Option Word := none
  genOn : Bool := false
  genPoly : BitVec 2 := 2
  genState : BitVec 31 := 0x7FFFFFFF
  /-- PRBS checker: last bits, bits held, agreeing run, window bits and disagreements, lock (R76). -/
  chkBits : BitVec 31 := 0
  chkSeeded : Nat := 0
  chkRun : Nat := 0
  chkWin : Nat := 0
  chkBad : Nat := 0
  chkLock : Bool := false
  /-- Injection armed (BUSY), and line-bit positions, from the start of the next codeword, that injections which have acted
  invert (R77, R78). -/
  inj : Option Injection := none
  injFlips : List Nat := []
  /-- Blocks received and not yet taken by the link layer, oldest first. -/
  rx : List Block := []
  /-- Blocks the link layer has handed over and the lane has not yet sent, oldest first. -/
  tx : List Block := []
  /-- On tile egress lanes: the INS_FIRST of the first insert of each train, then the other insert blocks (12 R269). -/
  txFirst : List Block := []
  txIns : List Block := []
  /-- On tile egress lanes: heads and what was handed over before them, which go before any insert (12 R261). -/
  txHead : List Block := []
  /-- On tile egress lanes: when the lane has taken, at its payload rate, what has been handed to it, in 1/125 cc (02 R44,
  11 R256). -/
  free : Nat := 0
  /-- The last codeword or burst sent, as line levels (R57, R62, R63), and P_(k-1) before it. -/
  line : List (BitVec 2) := []
  pre0 : BitVec 2 := 0
  /-- When the last codeword sent, the first of a burst or the last run of bits received began or ended: injections count
  blocks from here (R78). -/
  cwAt : Nat := 0
  /-- The TXEN output of a burst lane (R73). -/
  txen : Bool := false
  deriving DecidableEq, Repr

/-! ## The Assembly link (04) -/

/-- Port states of Table ASM-8. -/
inductive PortSt where
  | off | listen | sync | ranging | joined
  deriving DecidableEq, Repr

/-- A packet being received or received (R82): head, data blocks, tail, whether a block was marked, and the wall-clock
reading (units of `Asm.wall`) at which the first header bit of its head reached the RX pins. -/
structure Packet where
  lane : Nat
  head : BitVec 64
  data : List (BitVec 64) := []
  tail : BitVec 64 := 0
  bad : Bool := false
  arrive : Int := 0
  /-- Wall-clock reading at which the last symbol of its last codeword reached the pins (R104), and the cycle of that instant
  (02 R46). -/
  last : Int := 0
  lastAt : Nat := 0
  /-- Steps of the clock since then (R100). -/
  shift : Int := 0
  deriving DecidableEq, Repr

/-- A grant of the latest Bell (Table ASM-7): panel code, codewords, start in units of 64 UI. -/
structure Grant where
  panel : Nat
  ncw : Nat
  start : Nat
  /-- The port has used or skipped it. -/
  used : Bool := false
  deriving DecidableEq, Repr

/-- A burst the port has sent (R73): TXEN instant and release in wall units, codewords, and the blocks it carried. -/
structure Burst where
  start : Int
  release : Int
  ncw : Nat
  blocks : List Block
  deriving DecidableEq, Repr

structure Port where
  st : PortSt := .off
  /-- The panel ID held (R96); none is not ID 0. -/
  panel : Option Nat := none
  /-- The packet open on each port lane (R82). -/
  rxOpen : List (Option Packet) := [none, none, none, none]
  /-- Complete packets not yet checked under R84, packets queued for lookup, packets queued for the tag unit. -/
  complete : List Packet := []
  lookup : List Packet := []
  tag : List Packet := []
  timeLock : Bool := false
  /-- Consecutive accepted Bells with an error of at most 20 ns (R100). -/
  lockStreak : Nat := 0
  /-- WALL_TIME of the last accepted Bell (R94), when it was accepted, its arrival and its end on the wall clock. -/
  bellTime : Option Nat := none
  bellAt : Option Nat := none
  bellArrive : Int := 0
  bellEnd : Int := 0
  cycle : Nat := 0
  grants : List Grant := []
  /-- Ranging: retry number, ranging grants to skip, Bells accepted since the last answer (R108). -/
  rangeTry : Nat := 0
  rangeSkip : Nat := 0
  rangeBells : Option Nat := none
  /-- The ranging answer the port has decided on: its TXEN instant on the clock, codewords and DELAY (R108). -/
  rangeAns : Option (Int × Nat × Nat) := none
  /-- Contention: retry number k, slots to skip, attempt outstanding (nonce, cycle, bits sent), stopped until the next
  new alarm (R106). -/
  retry : Nat := 0
  contSkip : Nat := 0
  attempt : Option (Nat × Nat × BitVec 288) := none
  contStop : Bool := false
  /-- A LEAVE message waits for the port's next own slot (R108). -/
  leaving : Bool := false
  /-- Lane 0 of the JOINED port lost CW_LOCK at this cycle (R109). -/
  lostAt : Option Nat := none
  /-- The last burst (R73, R104). -/
  burst : Option Burst := none
  /-- Window offsets of the posted buffers (R97). -/
  dnq : List Nat := []
  upq : List Nat := []
  deriving DecidableEq, Repr

/-- A sequence number that waits to be filled (R89): stream, SEQ, port that revealed the gap, cycle of entry. -/
structure LossEntry where
  stream : Nat
  seq : Nat
  port : Nat
  at_ : Nat
  deriving DecidableEq, Repr

/-- An entry of the repair list (R90, R105). -/
structure RepairEntry where
  stream : Nat
  seq : Nat
  /-- Wall time in ns of the slice's first affected row, for a LAYER_SLICE stream. -/
  deadline : Option Nat
  requestedAt : Option Nat
  /-- The port that revealed the gap. -/
  port : Nat
  deriving DecidableEq, Repr

structure Asm where
  portA : Port := {}
  portB : Port := {}
  /-- The device wall-time clock in units of 1/16,000,000 ns (R100), and the slew in force in ppm. -/
  wall : Nat := 0
  slew : Int := 0
  /-- The context table: entry number to 64-bit entry (R85; DESIGN CHOICE, log entry 7). -/
  ctx : SMap (BitVec 64) := []
  loss : List LossEntry := []
  repair : List RepairEntry := []
  /-- The replay window: highest counter accepted, and bit j for highest - j (R94). -/
  replayTop : Option Nat := none
  replayBits : BitVec 64 := 0
  /-- MSG_COUNTER of the next upstream message (R95). -/
  msgCounter : Nat := 0
  /-- Pending alarms (R105). -/
  alarms : BitVec 288 := 0
  /-- The Bell source has switched away from the primary port; Bells of the primary port since then (R102). -/
  switched : Bool := false
  returnCount : Nat := 0
  /-- NEXT_FLIP and FLIP_PERIOD of the latest Bell of the source (R101), in ns. -/
  nextFlip : Option Nat := none
  flipPeriod : Nat := 0
  holdover : Bool := false
  deriving DecidableEq, Repr

/-! ## Scene layers and decoding (05) -/

/-- A layer entry of a manifest (Table DEC-2). -/
structure LayerEntry where
  layer : Nat
  premul : Bool
  sheddable : Bool
  z : Nat
  alpha : Nat
  /-- Q4.12. -/
  scale : Nat
  /-- Q8.8. -/
  disparity : Int
  /-- Q24.8. -/
  offX : Int
  offY : Int
  gridW : Nat
  gridH : Nat
  epoch : Nat
  deriving DecidableEq, Repr

/-- A manifest (Table DEC-1). -/
structure Manifest where
  frame : Nat
  flip : Nat
  layers : List LayerEntry
  deriving DecidableEq, Repr

/-- One part of a slice (Table DEC-4): SEQ, PART, SCENE_FRAME, BYTES, LAST, codestream bytes. -/
structure SlicePart where
  seq : Nat
  part : Nat
  frame : Nat
  bytes : Nat
  last : Bool
  body : List Byte
  deriving DecidableEq, Repr

/-- A slice in reassembly (R117): its stream, layer and index, the column and row under its governing manifest, SEQ of
PART 0, parts held in order of SEQ. -/
structure Slice where
  stream : Nat
  layer : Nat
  index : Nat
  col : Nat
  row : Nat
  seq0 : Nat
  parts : List SlicePart
  deriving DecidableEq, Repr

/-- What a decoder is doing with its slice (R119, R122). -/
inductive DecPhase where
  /-- Waiting for parts or for its start. -/
  | gather
  /-- Started; the first write is held while a row still samples the target generation. -/
  | holding (gen : Nat)
  /-- Every write issued, the flush on its way (R322). -/
  | flushing (gen : Nat)
  /-- Flush acknowledged at a cycle. -/
  | acked (gen : Nat) (at_ : Nat)
  deriving DecidableEq, Repr

structure Decoder where
  slice : Option Slice := none
  phase : DecPhase := .gather
  deriving DecidableEq, Repr

/-- One generation of a slice position (R116, R122). -/
structure Gen where
  frame : Nat := 0
  valid : Bool := false
  /-- Cycle of publication. -/
  at_ : Nat := 0
  deriving DecidableEq, Repr

/-- Directory entry of a slice position (R116, R125). -/
structure DirEntry where
  index : Nat := 0
  gen0 : Gen := {}
  gen1 : Gen := {}
  /-- A generation of this slice has been published. -/
  seen : Bool := false
  /-- Frames in a row in which the slice was concealed, and expired. -/
  runs : Nat := 0
  expired : Bool := false
  /-- EV_DEC_EXPIRED has been set for this run of concealed frames. -/
  told : Bool := false
  /-- The deadline of the frame in synthesis has been evaluated. -/
  judged : Bool := false
  deriving DecidableEq, Repr

/-- One lenslet of a direct-ray block (Table DEC-6): tile, local column and row, 1 or 100 views of R, G, B in UF20. -/
structure RayTarget where
  tile : Nat
  u : Nat
  v : Nat
  rays : List (BitVec 60)
  /-- The chart correction Δu, Δv, Δσ, Δτ of the lenslet, once the correction stage has read it (R42, 09 R211). -/
  corr : Option (Int × Int × Int × Int) := none
  deriving DecidableEq, Repr

/-- A direct-ray block on its way to the splice test (R46): t_A in cc, the frame counter of the frame it is for (R126), its
lenslets in block order. -/
structure DirectRay where
  at_ : Nat
  frame : Nat
  targets : List RayTarget
  deriving DecidableEq, Repr

structure Dec where
  /-- The manifest store of 4 (R110). -/
  held : List Manifest := []
  /-- The manifest in force for synthesis, the layers the binding in force binds, the manifest chosen (R111, R195). -/
  force : Option Manifest := none
  bind : BitVec 16 := 0
  chosen : Option Manifest := none
  /-- A mode switch found the manifest in force over the limit of the mode: it binds no layer again (R204). -/
  barred : Bool := false
  /-- Scene frame of the frame being emitted (R126). -/
  emitFrame : Option Nat := none
  decoders : List Decoder := [{}, {}, {}, {}]
  /-- The reassembly area of 8, in order of PART 0 (R119). -/
  area : List Slice := []
  /-- Slice positions (L × 72 + row mod 72) × 32 + col mod 32. -/
  dir : SMap DirEntry := []
  /-- Direct-ray blocks before the splice test, oldest first. -/
  express : List DirectRay := []
  deriving DecidableEq, Repr

/-! ## Homerooms and synthesis (06, 07) -/

/-- A graphic plane's group-1 registers as a commit copies them (17 R368). -/
structure PlaneCfg where
  en : Bool := false
  z : Nat := 0
  sheddable : Bool := false
  premul : Bool := true
  fmt : Nat := 0
  /-- Q8.8. -/
  disparity : Int := 0
  alpha : Nat := 0xFFFF
  /-- Device addresses. -/
  baseA : Nat := 0
  baseB : Nat := 0
  deriving DecidableEq, Repr

/-- A stack-table entry as the samplers latch it (Table SYN-3); `base` and `fmt` serve planes (17 R366). -/
structure StackEntry where
  id : Nat
  plane : Bool
  premul : Bool
  sheddable : Bool
  z : Nat
  alpha : Nat
  scale : Nat
  disparity : Int
  offX : Int
  offY : Int
  gridW : Nat
  gridH : Nat
  base : Nat
  fmt : Nat
  deriving DecidableEq, Repr

/-- What a row synthesis latches at its start (R42, R133, R135): row, stack, footprint, scene frame, mode, start cycle,
and the chart state. -/
structure RowLatch where
  row : Nat := 0
  stack : List StackEntry := []
  ox : Int := 0
  oy : Int := 0
  margin : Nat := 0x80
  fsyn : Option Nat := none
  latency : Bool := false
  at_ : Nat := 0
  chart : SMap (BitVec 64) := []
  /-- The directory of the decoded-layer store and its base, as the row samples them (R41). -/
  dir : SMap DirEntry := []
  base : Nat := 0
  /-- Chunks of the row that have ended (R141). -/
  ended : Nat := 0
  deriving DecidableEq, Repr

/-- A chunk that runs or waits on an engine (R129, R130): row, kernel entry, frame counter of its frame, engine cycle of
its launch. -/
structure Chunk where
  row : Nat
  entry : Nat
  frame : Nat
  launch : Nat
  deriving DecidableEq, Repr

/-- An SMP request in an engine's sampler queue (R174): thread, destination quad, stack entry, active lanes, and the four
coordinate registers of the 64 lanes. -/
structure SmpReq where
  thread : Nat
  dest : Nat
  entry : Nat
  lanes : BitVec 64
  px : List Word
  py : List Word
  sg : List Word
  ta : List Word
  deriving DecidableEq, Repr

structure Engine where
  run : Option Chunk := none
  wait : Option Chunk := none
  queue : List SmpReq := []
  deriving DecidableEq, Repr

/-- A stream under a tag (R170, R171): device address, destination, lines, then its data once every line has arrived or
failed, and the lines in error. -/
structure Stream where
  src : Nat
  dst : Nat
  lines : Nat
  done : Bool := false
  data : List Byte := []
  errs : List Nat := []
  deriving DecidableEq, Repr

/-- One hardware thread (Table SLT-1): V registers by 64 × register + lane, scalars, predicates, PC, call stack, stream
tags; the barrier it waits at; the engine cycle from which it may issue (R130). -/
structure Thread where
  alive : Bool := false
  v : SMap Word := []
  sc : SMap Word := []
  p : SMap (BitVec 64) := []
  pc : Nat := 0
  calls : List Nat := []
  tags : SMap (List Stream) := []
  bar : Option Nat := none
  startAt : Nat := 0
  deriving DecidableEq, Repr

/-- A store not yet visible to other engines (R169): Homeroom, engine, thread, byte offset, value, engine cycle of issue. -/
structure PendStore where
  hr : Nat
  eng : Nat
  th : Nat
  addr : Nat
  val : Word
  at_ : Nat
  deriving DecidableEq, Repr

/-- A line of a sampler cache (R128, R137; 17 R367): its number (device address / 64), whether it is a plane's, its bytes. -/
structure CacheLine where
  line : Nat
  plane : Bool
  bytes : List Byte
  deriving DecidableEq, Repr

/-- A proof-view capture in progress (R146, R147). -/
structure Capture where
  buf : Nat
  format : Bool
  s : Nat
  t : Nat
  frame : Nat
  flip : Nat
  scene : Nat
  shed : Nat
  repeated : Nat
  deriving DecidableEq, Repr

structure Syn where
  /-- Homeroom memory: word 786,432 × Homeroom + offset / 4. -/
  mem : SMap Word := []
  /-- Stores not yet visible to every engine, in the order in which they apply. -/
  stores : List PendStore := []
  /-- Code words (64 bits, 393,216 × Homeroom + offset / 8) whose check failed (14 Table MEM-7). -/
  bad : List Nat := []
  engines : SMap Engine := []
  threads : SMap Thread := []
  /-- The engine each sampler served last (R174), by 4 × Homeroom + sampler, and samples counted towards the next unit
  of 64 of HR_CNT_SMP, by Homeroom. -/
  rr : SMap Nat := []
  smpRest : SMap Nat := []
  /-- The sampler cache of each Homeroom, and the samplers that wait for a miss tag, bit 4 × Homeroom + sampler (R128). -/
  cache : SMap (List CacheLine) := []
  tagWait : BitVec 48 := 0
  /-- Row ring: colour (3 × tile + entry) × 230,400 + p, view mask (3 × tile + entry) × 768 + u_local; bit
  3 × tile + entry of `assigned` is 1 once the entry has been assigned to a row since it was last set (R132). -/
  ring : SMap (BitVec 20) := []
  masks : SMap (BitVec 100) := []
  assigned : BitVec 48 := 0
  /-- Lenslets checked (R143) and repeated, keyed as the masks. -/
  checked : SMap Bool := []
  /-- Lenslets of the current row that the finishing cursor has passed, by tile (R26). -/
  cursorU : SMap Nat := []
  /-- The cycle of the last of these checks, by tile. -/
  cursorAt : SMap Nat := []
  repeated : SMap Bool := []
  /-- Rows latched for stack banks 0 and 1 (R133). -/
  bank0 : RowLatch := {}
  bank1 : RowLatch := {}
  /-- The shed set in order of addition: plane or layer, number (R141, R142). -/
  shed : List (Bool × Nat) := []
  /-- A row of the frame has been late (R142); the row whose repeat has been evented (R143); lenslets repeated in the
  frame. -/
  lateSeen : Bool := false
  repeatRow : Option Nat := none
  repeatCount : Nat := 0
  /-- HR_SHED as it stood at the last slot 447 (Table SYN-6). -/
  shedAt447 : Nat := 0
  pvQueue : List Nat := []
  capture : Option Capture := none
  deriving DecidableEq, Repr

/-! ## The Timetable sequencer (08) and the footprint (01) -/

/-- What a waiting Slate-T instruction waits for (R186), FLIP apart. -/
inductive SeqWait where
  | row (slot : Nat) | bell (d : Nat) | commit (mask : Nat) | message (d : Nat)
  /-- Descriptors of a DISPATCH still to queue: kernel entry, next row, rows left, FRAME. -/
  | dispatch (entry row count frame : Nat)
  deriving DecidableEq, Repr

/-- SEQ_STATUS.STATE. -/
inductive SeqSt where
  | stopped | awaiting | running | waiting (w : SeqWait) | inFlip | halted
  deriving DecidableEq, Repr

/-- An engine message (R179, R207). -/
structure EngMsg where
  a : Word
  b : Word
  imm : BitVec 16
  hr : Nat
  eng : Nat
  th : Nat
  deriving DecidableEq, Repr

structure Seq where
  /-- Program memory by word (byte offset / 4; DESIGN CHOICE, log entry 8). -/
  prog : SMap Word := []
  /-- Program words (64 bits, offset / 8) whose check failed (14 Table MEM-7). -/
  bad : List Nat := []
  t : SMap Word := []
  /-- Byte address of the next instruction, of a waiting one, or of the one that halted. -/
  pc : Nat := 0
  desc : List (BitVec 64) := []
  msgs : List EngMsg := []
  st : SeqSt := .stopped
  restartDue : Bool := false
  /-- Binding armed by BINDL (R195); mask of the pending commit (R197). -/
  bindMask : Option (BitVec 16) := none
  commitPend : Option (BitVec 16) := none
  /-- Rate code in force, standing request, request carried to the next frame, switch fixed at slot 447 (R203). -/
  rate : Nat := 0
  req : Option Nat := none
  lateReq : Option Nat := none
  fixed : Option Nat := none
  /-- The current frame is blanked; it is the blanked frame of a mode switch (R204). -/
  blanked : Bool := false
  switchFrame : Bool := false
  /-- Frame counter (48 bits), wall time of the last flip in ns, cycle of the last flip (R199). -/
  frame : Nat := 0
  flipWall : Nat := 0
  flipAt : Option Nat := none
  slot : Nat := 447
  slotAt : Nat := 0
  /-- The actions tied to slot 447 of this frame have been taken (R201, R440). -/
  done447 : Bool := false
  freeRun : Bool := false
  /-- Cycle of the write of EN = 1 (R202). -/
  enAt : Nat := 0
  /-- Commit group 0 (01 R32, R33): armed, values copied and not yet in force, values in force. -/
  geoArmed : Bool := false
  geoCopied : Option (Nat × Nat × Nat) := none
  geoX : BitVec 24 := 0
  geoY : BitVec 24 := 0
  geoM : BitVec 8 := 0x80
  deriving DecidableEq, Repr

/-! ## The Seating Chart and placement (09) -/

/-- An update of a tile (R213): REBUILD, or LOAD from a buffer at a window offset. -/
inductive PlcUpdate where
  | rebuild
  | load (buf : Nat)
  deriving DecidableEq, Repr

/-- A tile's updates (R214): the running one and its progress, the queued one, the exchange that is due. -/
structure PlcTile where
  running : Option PlcUpdate := none
  /-- The running LOAD has copied its mesh into the base (R216). -/
  copied : Bool := false
  queued : Option PlcUpdate := none
  /-- Nodes of the update that saturated (R218), counted when it completes. -/
  sat : Nat := 0
  /-- When the update began to write staging (R213). -/
  since : Nat := 0
  /-- When staging was written whole; the exchange waits for the next row synthesis (R212). -/
  complete : Option Nat := none
  /-- Tile confidence the last step saw (R222, R224). -/
  conf : Nat := 255
  /-- When the last fit was accepted since LOOP_EN was set (R224). -/
  fitAt : Option Nat := none
  deriving DecidableEq, Repr

/-- A fiducial entry and its spot result in one camera frame (R219, R220): number, the entry's four words as sampled at the
Frame Start (10 R233), the two result words. -/
structure FitSpot where
  entry : Nat
  words : List Word
  spot0 : Word
  spot1 : Word
  deriving DecidableEq, Repr

/-- A fit that is due (R220): tile, whether the frame gives centroids, the tile's valid entries of the frame's pipeline. -/
structure PlcFit where
  tile : Nat
  ok : Bool
  spots : List FitSpot
  deriving DecidableEq, Repr

structure Plc where
  /-- Node words and CONF of the active, staging and base copies, by node index k (R209, R210). -/
  active : SMap (BitVec 64) := []
  activeConf : SMap Byte := []
  staging : SMap (BitVec 64) := []
  stagingConf : SMap Byte := []
  base : SMap (BitVec 64) := []
  baseConf : SMap Byte := []
  tiles : SMap PlcTile := []
  /-- Tiles whose update waits for or holds the rebuild datapath, in order: the first one's staging is being written (R215). -/
  writing : List Nat := []
  /-- Fits that are due, oldest first. -/
  fits : List PlcFit := []
  deriving DecidableEq, Repr
/-! ## Witness cameras (10) -/

/-- An open frame of a pipeline (R232, R233): frame number, the configuration sampled at its Frame Start, the lines taken. -/
structure CamFrame where
  num : Nat
  raw12 : Bool
  /-- log2 of the shading cell. -/
  cell : Nat
  width : Nat
  height : Nat
  black : Nat
  thresh : Nat
  half : Nat
  minMass : Nat
  /-- Listed defects (x, y) in raster order. -/
  defects : List (Nat × Nat)
  /-- Words of the selected shading table. -/
  shade : SMap Word
  /-- Valid fiducial entries of the pipeline: number and its four words (R233, R239). -/
  fids : List (Nat × List Word)
  /-- Corrected pixels by line, and z of the last line. -/
  rows : List (List Nat) := []
  zPrev : List Nat := []
  lines : Nat := 0
  long : Bool := false
  truncated : Bool := false
  overflow : Bool := false
  /-- Window offset of the capture buffer (R241). -/
  cap : Option Nat := none
  deriving DecidableEq, Repr

/-- A completed frame before its publication (R240): frame number, CAM_LAST_STATUS, entries with their spot words. -/
structure CamPub where
  num : Nat
  status : Word
  spots : List FitSpot
  deriving DecidableEq, Repr

structure CamPipe where
  bound : Option Nat
  frame : Option CamFrame := none
  done : List CamPub := []
  /-- Bytes in the capture FIFO of 32 KiB (R241). -/
  fifo : Nat := 0
  /-- Posted capture buffers, oldest first. -/
  queue : List Nat := []
  deriving DecidableEq, Repr

structure Cam where
  /-- Pipelines by number; pipeline k starts bound to virtual channel k. -/
  pipes : SMap CamPipe := []
  /-- The rest of the HS burst is discarded after a header with an uncorrectable error (R229). -/
  dead : Bool := false
  /-- Lane states as CAM_RX_STATUS shows them. -/
  rx : BitVec 5 := 0
  deriving DecidableEq, Repr

/-! ## Finishing (11) -/

/-- A gain load (R248, R249): tile, window offset of its buffer, cycle of the request. -/
structure GainLoad where
  tile : Nat
  buf : Nat
  at_ : Nat
  deriving DecidableEq, Repr

/-- A prefetched residual row of all tiles (R243 to R246): the map it comes from, the bytes its lines held when they were read, the
lines in error, the lines not yet read since their channel takes no command, those read that are still on their way, and
the lines already counted as missing. -/
structure ResidualRow where
  row : Nat
  latency : Bool
  base : Nat
  bytes : SMap Byte
  bad : List Nat
  wait : List Nat
  late : List Nat
  missed : List Nat
  deriving DecidableEq, Repr

structure Fin_ where
  /-- Gain of lenslet 331,776 × tile + 768 × v_local + u_local (R247). -/
  gains : SMap (BitVec 16) := []
  /-- Pending loads in request order, queued loads by tile, and the frame counter and slot time of the last copy. -/
  loads : List GainLoad := []
  queued : List GainLoad := []
  copiedAt : Option Nat := none
  /-- Group 2 (R252): armed; copied and waiting for slot 447; in force: the words of the group by BAR0 offset that differ
  from reset. -/
  armed : Bool := false
  copied : Option (SMap Word) := none
  force : SMap Word := []
  /-- Tiles whose matrix has been evaluated since reset (R251). -/
  evaluated : BitVec 16 := 0
  residuals : List ResidualRow := []
  deriving DecidableEq, Repr

/-! ## The tile link (12) -/

/-- Table TLK-5. -/
inductive TileSt where
  | off | waking | linked | down
  deriving DecidableEq, Repr

/-- Who issued a tile command (Commands): the host, the Report Card, the calibration engine, or a RANGE change. -/
inductive CmdSrc where
  | host | rpt | cal | range
  deriving DecidableEq, Repr

structure TileCmd where
  src : CmdSrc
  op : Nat
  arg : Nat
  deriving DecidableEq, Repr

/-- A command handed over and not yet answered (R271, R272). -/
structure OutCmd where
  cmd : TileCmd
  ctag : Nat
  at_ : Nat
  deriving DecidableEq, Repr

/-- The row a tile's lanes carry (R260, R261): row, bits of a code, words handed over, the bits that wait for a whole
word, the running CRC of each lane. -/
structure TileRow where
  row : Nat
  width : Nat
  words : Nat := 0
  carry : Nat := 0
  carryBits : Nat := 0
  crc0 : Nat := 0xFFFFFFFF
  crc1 : Nat := 0xFFFFFFFF
  crc2 : Nat := 0xFFFFFFFF
  /-- Every word and ROW_END have been handed over. -/
  ended : Bool := false
  deriving DecidableEq, Repr

structure Tile where
  st : TileSt := .off
  /-- Seen since the tile entered WAKING or DOWN (Table TLK-5). -/
  identSeen : Bool := false
  lock3Seen : Bool := false
  /-- Last RET_STATUS, and loss of return CW_LOCK (Table TLK-5). -/
  statusAt : Option Nat := none
  lockLostAt : Option Nat := none
  /-- The tile's frame is blanked (R262), or its FRAME_HEAD has not been sent. -/
  blanked : Bool := true
  row : Option TileRow := none
  tag : Nat := 0
  ctag : Nat := 0
  /-- Commands that wait, in the order they were issued, and the source served last. -/
  waiting : List TileCmd := []
  turn : Option CmdSrc := none
  out : List OutCmd := []
  /-- A shutdown runs since this cycle, and whether it is a RESET (R276); the hold of a RESET began at this cycle. -/
  shutAt : Option (Nat × Bool) := none
  holdAt : Option Nat := none
  /-- TILE_EN is driven low while TLK is out of reset (Table TLK-5); in reset the pin is released (R276). -/
  enLow : Bool := true
  /-- Inserts sent in the slot (R48). -/
  slotInserts : Nat := 0
  /-- CODE_APP has equalled CODE since the tile entered LINKED (R294). -/
  rampDone : Bool := false
  deriving DecidableEq, Repr

/-- A lenslet's insert that the splice test has accepted (R268, R269): tile, row, u_local, codes, whether it is the first of
its train, the cycle of the test, and the chart correction that the express path read for it (09 R211; DESIGN CHOICE,
log entry 89). -/
structure Insert where
  tile : Nat
  row : Nat
  u : Nat
  codes : List Nat
  first : Bool
  at_ : Nat
  corr : Int × Int × Int × Int := (0, 0, 0, 0)
  deriving DecidableEq, Repr

structure Tlk where
  tiles : SMap Tile := []
  /-- Group 3 in force (TLK_RANGE as applied by FRAME_HEADs, as commanded, TLK_BLANK), armed (R196). -/
  range : Word := 0
  rangeSent : Word := 0
  blank : BitVec 16 := 0
  armed : Bool := false
  /-- REF_FAULT and passing checks since (R280); a thermal trip in force (R279). -/
  refFault : Bool := false
  refPasses : Nat := 0
  trip : Bool := false
  /-- The tile of the host command outstanding (R273). -/
  host : Option Nat := none
  /-- Inserts accepted by the splice test that wait for the splice (R269). -/
  splice : List Insert := []
  /-- The last check of the references (R280), and the current through REFR that it measured, in nA (R277). -/
  refAt : Option Nat := none
  refr : Nat := 250000
  deriving DecidableEq, Repr

/-! ## Ageing and calibration (13) -/

/-- A group sampled in the frame (R283): index, the codes' effect done, residuals as finishing read them. -/
structure Sampled where
  group : Nat
  residuals : List Int
  deriving DecidableEq, Repr

/-- Per tile: the Report Card's generator (R284), blend counter (R287), and per colour κ in 2^-14 (R290), the tile mean in
2^-15 (R285) and the sums it is formed from (2^-29), the sums of sensing (R290). -/
structure RptTile where
  gen : BitVec 32 := 1
  blend : Option Nat := none
  kappa : List Nat := [0x4000, 0x4000, 0x4000]
  mean : List Nat := [0x8000, 0x8000, 0x8000]
  foldSum : List Int := [0, 0, 0]
  foldCnt : List Nat := [0, 0, 0]
  senseW : List Rat := [0, 0, 0]
  senseWK : List Rat := [0, 0, 0]
  /-- Groups sampled in the frame, and codes of the group in progress, oldest first. -/
  sampled : List Sampled := []
  codes : List Nat := []
  resid : List (Option Int) := []
  deriving DecidableEq, Repr

/-- A checkpoint generation being written (R301): GEN, next index. -/
structure Ckpt where
  gen : Nat
  next : Nat
  deriving DecidableEq, Repr

structure Rpt where
  tiles : SMap RptTile := []
  /-- RPT_MODEL, RPT_GAMMAn, RPT_IREF_REF, RPT_SENSE and RPT_AGE in force, by BAR0 offset. -/
  force : SMap Word := []
  ckpt : Option Ckpt := none
  ckptQueue : List Nat := []
  restQueue : List Nat := []
  /-- A restore: GEN of buffer 0 and the next index. -/
  restore : Option (Nat × Nat) := none
  clearing : Bool := false
  /-- When the checkpoint period began. -/
  ckptBase : Nat := 0
  deriving DecidableEq, Repr

/-- A trim point (R293, Table CAL-3): die temperature, then G, ZERO and FS by tile. -/
structure TrimPoint where
  temp : Int
  g : List Nat
  zero : List Nat
  fs : List Nat
  deriving DecidableEq, Repr

/-- A running procedure of Table CAL-1: the wall time, in clock units, it began. -/
structure CalProc where
  start : Nat
  deriving DecidableEq, Repr

structure Cal where
  /-- The record in force and the one accepted for the next slot 432: bytes 128 to 9,383, and GEN (R299). -/
  record : Option (List Byte) := none
  accepted : Option (List Byte × Nat) := none
  trims : List TrimPoint := []
  /-- Row scales h and stored means η̄0 (2^-15), by 3 × tile + colour (R291); drift factors by tile (R293). -/
  scale : SMap Rat := []
  eta0 : SMap Nat := []
  drift : SMap Rat := []
  /-- Procedures: the cycle of a request that waits; running ones; held requests show in CAL_STATUS (R297). -/
  elecReq : Option Nat := none
  sweepReq : Option Nat := none
  elec : Option CalProc := none
  sweep : Option CalProc := none
  /-- The frame is blanked by a procedure (Table CAL-1). -/
  dark : Bool := false
  /-- Next SENSE of the sweep by tile, and the tile's last hand-out (R296). -/
  sweepNext : SMap Nat := []
  sweepAt : SMap Nat := []
  /-- The measurement of R292 that runs: tile and start. -/
  mirror : Option (Nat × Nat) := none
  /-- Records to be written, oldest first, and whether CAL_RUN.REC asked for them (R300); posted buffers. -/
  recDue : List Bool := []
  recQueue : List Nat := []
  /-- Base-map loads: running and queued, by tile (R298). -/
  running : SMap Nat := []
  queued : SMap Nat := []
  deriving DecidableEq, Repr


/-! ## Memory (14) -/

/-- A request of at most one line that a group port holds (R312, R323). -/
structure PortReq where
  group : Nat
  master : Nat
  write : Bool
  addr : Nat
  len : Nat
  data : List Byte
  /-- Cycle of acceptance by the port, and the port's latency target at that time in fc (R312). -/
  at_ : Nat := 0
  target : Nat := 1
  /-- The scrubber's write-back of a corrected line (R324). -/
  scrub : Bool := false
  deriving DecidableEq, Repr

/-- A request in a channel queue (R312 to R314). -/
structure MemReq where
  master : Nat
  /-- Device address of the line. -/
  line : Nat
  /-- Cycle of acceptance by the group port, and the port's latency target at that time in fc (R312). -/
  at_ : Nat
  target : Nat
  /-- A write of part of a line: the line must be read for the merge before it issues (R311). -/
  merge : Bool := false
  /-- A read of a line that a later accepted write has changed: the line as it stood, none uncorrectable (R314). -/
  kept : Option (Option (List Byte)) := none
  deriving DecidableEq, Repr

/-- The kinds of command a channel issues. -/
inductive CmdKind where
  | read | write | refresh
  deriving DecidableEq, Repr

/-- A command in a retry buffer (R318): its line, or its bank, and the cycle of its issue. -/
structure RetryCmd where
  kind : CmdKind
  line : Nat
  at_ : Nat
  deriving DecidableEq, Repr

/-- One DRAM channel. -/
structure Chan where
  reads : List MemReq := []
  writes : List MemReq := []
  /-- The line of the write being issued, and when its burst ends (R314). -/
  issuing : Option (Nat × Nat) := none
  /-- Drain mode (R313). -/
  drain : Bool := false
  /-- Flushes that force drain of this channel: master, and the cycle of the flush (R313). -/
  forced : List (Nat × Nat) := []
  /-- The retry buffer: commands whose parity is not yet confirmed, oldest first (R318). -/
  retry : List RetryCmd := []
  trained : Bool := false
  failed : Bool := false
  /-- Times of the parity alerts of the last ms (R319), and the end of a running replay (R318). -/
  alerts : List Nat := []
  replayEnd : Option Nat := none
  /-- Bank under refresh and when it ends (R316). -/
  refresh : Option (Nat × Nat) := none
  /-- A RETRAIN write waits for the channel's next opportunity, and the end of the retraining that met it (R317, 00 R11). -/
  retrain : Bool := false
  retrainEnd : Nat := 0
  /-- Requests stall until then while the channel retrains (R317). -/
  stallEnd : Nat := 0
  /-- When the channel last trained (R317). -/
  trainedAt : Nat := 0
  /-- Next line the scrubber reads (R324), counted in lines of the channel, and when it last read. -/
  scrub : Nat := 0
  scrubAt : Nat := 0
  deriving DecidableEq, Repr

/-- A response of the memory: requester, read or write, line, data, error response (R310, R314). -/
structure MemAnswer where
  master : Nat
  write : Bool
  line : Nat
  data : List Byte
  err : Bool
  deriving DecidableEq, Repr

structure Dmc where
  dram : Memory := []
  /-- Lines (device address / 64) that read as uncorrectable: poison (R311), and lines whose cells have lost them. -/
  poison : List Nat := []
  /-- Lines whose cells hold errors that the code corrects at each read (R309). -/
  soft : List Nat := []
  chans : SMap Chan := []
  /-- Requests the group ports hold, and those whose masters stall at a full port, each oldest first (R323). -/
  ports : List PortReq := []
  stalled : List PortReq := []
  /-- DRAM contents retained through the running reset (Table RST-1). -/
  selfRefresh : Bool := false
  deriving DecidableEq, Repr

/-! ## Host interface, Hall Pass window, events (15) -/

/-- The queues that Hall Pass buffers are posted to (R337 and the chapters of each). -/
inductive QueueId where
  | asmDnq (port : Bool) | asmUpq (port : Bool) | hrPv | plcLoad (tile : Nat) | camCap (pipe : Nat) | finGain (tile : Nat)
  | calBase (tile : Nat) | calRecLoad | calRec | rptCkpt | rptRest | rc | secImg | secAtt
  deriving DecidableEq, Repr

/-- A registered extent: window offset of the first byte, length in bytes, queue (R337). -/
structure Extent where
  base : Nat
  len : Nat
  queue : QueueId
  deriving DecidableEq, Repr

/-- What waits at the window's monitor, in the order it arrived: a post to be checked (R337), a host write of the window held behind
a post (R338), or a host write of BAR0 behind such a write: offset, value, byte enables (R333). -/
inductive HpItem where
  | post (q : QueueId) (off : Nat)
  | write (off : Nat) (bytes : List Byte)
  | reg (off : Nat) (value : Word) (be : BitVec 4)
  deriving DecidableEq, Repr

/-- A Roll Call snapshot being read or written (R344, R345). -/
structure Snapshot where
  buf : Nat
  /-- The cycle of the first read; entry k is read 4 fc × k later. -/
  at_ : Nat
  values : List Word
  n : Nat
  errs : Nat
  snap : Nat
  frame : Nat
  wall : Nat
  deriving DecidableEq, Repr

/-- An MSI-X message that has left (R349). -/
structure MsixMessage where
  vector : Nat
  addrLo : Word
  addrHi : Word
  data : Word
  deriving DecidableEq, Repr

structure HostIf where
  /-- The configuration space, which PERST# and FLR reset (R330). -/
  cfg : PciConfig := {}
  msixPend : BitVec 64 := 0
  lastMsg : Option MsixMessage := none
  /-- Results that a mailbox's producer holds until the ACK (R343): mailbox, six data words, oldest first. -/
  mboxHeld : List (Nat × List Word) := []
  extents : List Extent := []
  fifo : List HpItem := []
  /-- The answer of the last register read row or bus access. -/
  resp : Word := 0
  respErr : Bool := false
  /-- Words of a host read still to be read, as master, offset and byte enables, and the answers of those read (R332). -/
  readRest : List (Nat × Nat × BitVec 4) := []
  respMore : List Word := []
  /-- Buffers of blocks in reset that wait for the service group to go back: the returning master and the offset (R341). -/
  returns : List (Nat × Nat) := []
  /-- Words latched by the read of a first word, for all masters but 24 and for master 24 (R346). -/
  latch : SMap Word := []
  latchRc : SMap Word := []
  rcQueue : List Nat := []
  rcBusy : Option Snapshot := none
  rcSnap : Nat := 0
  /-- Wall time, in ns, of the EN write or of the last timed trigger (R344). -/
  rcBase : Nat := 0
  /-- The frame whose flip last triggered a snapshot (R344). -/
  rcFrame : Option Nat := none
  /-- GPIO pins as driven from outside, last sample, filtered level (R352). -/
  gpioIn : BitVec 16 := 0
  gpioLast : BitVec 16 := 0
  gpioFilt : BitVec 16 := 0
  deriving DecidableEq, Repr
/-! ## Satchel (16) -/

/-- A job (R360): the fields GO copied; `internal` marks the Report Card's channel, whose TAG is the buffer's INDEX. -/
structure SatJob where
  decompress : Bool
  blockLog : Nat
  level : Nat
  tag : Nat
  src : Nat
  dst : Nat
  srcLen : Nat
  dstLen : Nat
  /-- Order of submission, and the cycle of the GO write (R363). -/
  order : Nat := 0
  goAt : Nat := 0
  internal : Bool := false
  deriving DecidableEq, Repr

structure Sat where
  /-- The register queue, oldest first, and the jobs of the two units (R360). -/
  queue : List SatJob := []
  comp : Option SatJob := none
  dec : Option SatJob := none
  /-- The compression unit served the internal channel last (R360). -/
  turn : Bool := false
  submitted : Nat := 0
  /-- Bytes consumed and written beyond the last whole KiB counted (Table SAT-4). -/
  inRest : Nat := 0
  outRest : Nat := 0
  deriving DecidableEq, Repr

/-! ## The blitter (17) -/

/-- An operation as GO copied it (R370). -/
structure BltOp where
  op : Nat
  fmt : Nat
  premul : Bool
  xdir : Bool
  ydir : Bool
  tag : Nat
  src : Nat
  dst : Nat
  srcPitch : Nat
  dstPitch : Nat
  w : Nat
  h : Nat
  color : Nat
  gateRow : Nat
  wmRow : Nat
  /-- Cycle of the GO write, gate open (R374), bursts completed. -/
  goAt : Nat := 0
  gateOpen : Bool := false
  bursts : Nat := 0
  deriving DecidableEq, Repr

/-- The rectangle of a region commit, both corners inclusive. -/
structure BltRect where
  x0 : Nat
  y0 : Nat
  x1 : Nat
  y1 : Nat
  deriving DecidableEq, Repr

/-- A running commit (R378): since when it runs; once it has flipped, the copy of its rectangle. -/
structure BltCommit where
  rect : BltRect
  since : Nat
  sync : Option BltOp := none
  deriving DecidableEq, Repr

structure Blt where
  /-- Group 1 in force, copied and waiting for slot 447, armed (R368). -/
  planes : List PlaneCfg := [{}, {}, {}, {}]
  copied : Option (List PlaneCfg) := none
  armed : Bool := false
  sel : BitVec 4 := 0
  op : Option BltOp := none
  /-- Commits by plane: running and queued (R379). -/
  running : SMap BltCommit := []
  queued : SMap BltRect := []
  /-- Planes whose synchronisation is ready or running, in order (R381). -/
  syncs : List Nat := []
  /-- The job that runs: 0 to 3 the synchronisation of a plane, 4 the register operation; none at a job boundary. -/
  job : Option Nat := none
  /-- Cycle of the last burst's acceptance (R373). -/
  lastBurst : Option Nat := none
  /-- Watermarks that wait: row and cycle of the operation's end (R376). -/
  marks : List (Nat × Nat) := []
  deriving DecidableEq, Repr

/-! ## Clocks and reset (18) -/

/-- An engine divider switch that runs (R385 to R387): its target, ramping or native, when its running phase began, and
whether the clock has restarted (step 4 of R386). -/
structure Switch where
  target : Nat
  ramp : Bool
  since : Nat
  restarted : Bool
  deriving DecidableEq, Repr

/-- A register access that waits at a block whose gate is opening: a write of a word, or a read (R389). -/
structure GateAccess where
  master : Fin 32
  off : Nat
  write : Option Word
  be : BitVec 4
  deriving DecidableEq, Repr

structure Clk where
  /-- REFCLK runs, lock-detect, since when, and the root stable (R382). -/
  rootLock : Bool := false
  lockAt : Nat := 0
  rootStable : Bool := false
  /-- When the domains started (R384), and the stable ones: 0 WCK, 1 core, 2 engine, 3 fabric, 4 peripheral, 5 slow. -/
  startAt : Nat := 0
  stable : BitVec 6 := 0
  engineDiv : Nat := 4
  /-- The engine target last acted on (R385). -/
  target : Nat := 4
  switch : Option Switch := none
  held : Option Nat := none
  /-- Gates whose closure is requested and not reached: when requested, by block number (R388). -/
  gateAt : SMap Nat := []
  /-- Blocks whose gate is opening: the cycle in which each resumes; the accesses that wait for it, oldest first (R389). -/
  resume : SMap Nat := []
  waiting : List GateAccess := []
  /-- Engine cycles counted by SR 10 (R386), in quarters of the remainder: whole cycles and root cycles left over. -/
  engineCycles : Nat := 0
  engineRem : Nat := 0
  deriving DecidableEq, Repr

structure Rst where
  /-- Sources that stay asserted until a release of their own (Table RST-1); security, watchdog and device end with their
  ordered assertion. -/
  por : Bool := true
  nrst : Bool := false
  perst : Bool := false
  /-- The POR in force came from a loss of root lock (EV_CLK_UNLOCK at its release, R382). -/
  clkLoss : Bool := false
  /-- Items in reset: 0 to 35 the blocks of Table RST-3, 36 Registrar and SEC registers, 37 PCIe endpoint and HST
  registers, 38 mailboxes, 39 RST, OPT and CLK registers. -/
  held : BitVec 40 := BitVec.allOnes 40
  /-- The CLK registers are among what item 39 resets (POR alone, Table RST-2). -/
  clkHeld : Bool := true
  /-- Blocks held by the boot hold until RELEASE (R398), and HOLD. -/
  boot : BitVec 40 := 0x9F3FFFFFF
  bootHold : Bool := true
  /-- Blocks whose RST_BLOCK bit was written 0 and whose release waits (R396). -/
  written : BitVec 36 := 0
  /-- LOADED (R397). -/
  loaded : Bool := false
  /-- The option bytes in OTP, three copies (R397), and as loaded. -/
  otp0 : SMap Byte := []
  otp1 : SMap Byte := []
  otp2 : SMap Byte := []
  opt : SMap Byte := []
  /-- The level of the nRST pin. -/
  nrstPin : Bool := true
  deriving DecidableEq, Repr
/-! ## Power and thermal management (19) -/

/-- A temperature source (R406 to R408): 0 to 31 the on-die sensors, 32 to 47 the tiles. -/
structure ThmSource where
  /-- An on-die sensor has been converted; its last raw code, conversions in a row that left it unchanged, its last reading,
  and when it was last converted. -/
  seen : Bool := false
  raw : Word := 0
  same : Nat := 0
  last : Int := 0
  at_ : Option Nat := none
  /-- Values at the last ten rise tests, newest first, and tests passed in a row. -/
  hist : List Int := []
  passes : Nat := 0
  /-- The hardware comparator of the sensor fires (R411). -/
  fires : Bool := false
  deriving DecidableEq, Repr

/-- The thresholds, times and rates in force: the words of THM_CTRL, THM_TIMING, THM_DIE_LIM, THM_TILE_LIM and THM_RATE as the
last tick took them (R412). -/
structure ThmLim where
  ctrl : Word := 0x00002710
  timing : Word := 0x138803E8
  die : Word := 0x00766C64
  tile : Word := 0x00504841
  rate : Word := 0x00001840
  deriving DecidableEq, Repr

structure Thm where
  sources : SMap ThmSource := []
  lim : ThmLim := {}
  /-- Last tick and last rise test. -/
  tickAt : Nat := 0
  rateAt : Nat := 0
  /-- Tick at which the ask in force began; when the last one ended (R409). -/
  askAt : Option Nat := none
  askEnd : Nat := 0
  /-- From when ESCALATE counts; the last move down (R410). -/
  escAt : Nat := 0
  downAt : Nat := 0
  /-- Since when every valid source has been below TRIP - HYST; TRIP_CLR written since the trip (R411). -/
  coolAt : Option Nat := none
  tripClr : Bool := false
  deriving DecidableEq, Repr

/-- The core voltage loop (R402 to R405). -/
structure Avs where
  /-- The loop has taken its read-back voltage; the value last written, in mV. -/
  started : Bool := false
  written : Option Nat := none
  /-- Last step and last telemetry read. -/
  stepAt : Nat := 0
  pmbAt : Nat := 0
  deriving DecidableEq, Repr

/-! ## The Registrar (20) -/

/-- An image in reassembly from the Assembly link (R420): stream, the part of the stage it stands in, total length, byte
ranges that have arrived (first, end), whether the LAST packet has. -/
structure AsmImage where
  stream : Nat
  slot : Nat
  total : Nat
  got : List (Nat × Nat)
  last : Bool
  deriving DecidableEq, Repr

/-- Where an image stands: a Hall Pass buffer at a window offset, or the stage (stream, slot, length). -/
inductive ImageSrc where
  | buffer (off : Nat)
  | stage (stream slot total : Nat)
  deriving DecidableEq, Repr

/-- A verified image that waits to be applied (R421): source, type, destination, its code, security version, digest. -/
structure PendImage where
  src : ImageSrc
  type : Nat
  dest : Nat
  code : List Byte
  svn : Nat
  digest : List Byte
  deriving DecidableEq, Repr

structure Sec where
  /-- Assembly-link key slots (R427). -/
  key0 : Option (BitVec 256) := none
  key1 : Option (BitVec 256) := none
  /-- Images in reassembly, then complete images in order of completion, then the verified ones that wait (R420, R421). -/
  assembling : List AsmImage := []
  complete : List ImageSrc := []
  kernel : Option PendImage := none
  program : Option PendImage := none
  /-- Buffers posted for reports, oldest first (R425). -/
  reports : List Nat := []
  /-- Leaf block reserved since reset: next leaf and the leaf past its last (R424); the tree cache has failed its check;
  a reservation has been made. -/
  leaf : Option (Nat × Nat) := none
  treeBad : Bool := false
  treeChecked : Bool := false
  /-- The ROM has halted in DEAD (R418). -/
  romHalted : Bool := false
  /-- Registrar RAM from offset 0, as the firmware that runs was loaded (R418). -/
  firmware : List Byte := []
  deriving DecidableEq, Repr


/-! ## The cycle -/

/-- What has happened since the cycle began, for the rules about two things in the same cycle (R8, R9, R33, R80, R143, R144,
R169, R326, R327 and others): commands taken with no tick between them fall in one cycle (DESIGN CHOICE, log entry 14). A tick
empties it. -/
structure Cycle where
  /-- Flag bits hardware has set this cycle, by register offset (R8). -/
  sets : SMap Nat := []
  /-- Increments of counters this cycle, by register offset (R80). -/
  incs : SMap Nat := []
  /-- Words of registers written over the bus this cycle, as they stood when it began (R9, R33, R326). -/
  before : SMap Word := []
  /-- Commit groups armed this cycle, and whether they were armed when it began (R33). -/
  arms : SMap Bool := []
  /-- Registers the host has written this cycle (R221, R291). -/
  hostWrites : List Nat := []
  /-- Tiles for which the placement engine has requested a rebuild this cycle (09 R215). -/
  plcAsks : List Nat := []
  /-- Manifests held, descriptors queued and messages queued when the cycle, or the slot or frame that it began, began (08 R186,
  R188). -/
  queues : Option (Nat × Nat × Nat) := none
  /-- Context entries written this cycle by the host or WRITE_CTX, as they stand without those writes (04 R86). -/
  ctx : SMap (BitVec 64) := []
  /-- By register with a VALID flag that latches a first occurrence: the rank of the best occurrence of this cycle (a lower one
  is latched before a higher one), the event it sets, and the words it latches (R8, R144, R327). -/
  firsts : SMap (Nat × Option Nat × List (Nat × Word)) := []
  /-- Chunks that have ended this cycle, by engine, with their row, and whether HR_CNT_CHUNK counted (06 R144). -/
  ended : List (Nat × Nat × Bool) := []
  /-- Ring stores of this cycle, newest first: key of the lenslet's mask, emitter, and the mask and colours they replaced (06
  R143). -/
  rings : List (Nat × Nat × BitVec 100 × List (BitVec 20)) := []
  /-- Responses the memory has given this cycle, oldest first (14 R314). -/
  answers : List MemAnswer := []
  /-- Events that have occurred this cycle while their STATUS was 1 (15 R349). -/
  again : List Nat := []
  /-- Gain buffers the calibration engine has posted this cycle: tile, offset (11 R249). -/
  calGains : List (Nat × Nat) := []
  /-- Words of protected arrays that their owners have written this cycle: array, first and one past the last (14 R325). -/
  sram : List (Nat × Nat × Nat) := []
  /-- Jobs of GO writes this cycle that found the register queue full, and whether QFULL was clear then (16 R363). -/
  satGos : List (SatJob × Bool) := []
  /-- The operation of a GO write of this cycle that found the blitter busy (17 R377). -/
  bltGo : Option BltOp := none
  /-- The Assembly-link keys as the cycle began, once a commit of this cycle has changed them (20 R427). -/
  keys : Option (Option (BitVec 256) × Option (BitVec 256)) := none
  deriving DecidableEq, Repr

/-! ## The machine -/

/-- The state of the block: the queue of waiting commands, time, the register map, and one part per chapter. -/
structure State where
  /-- Commands waiting, first in, first out. -/
  pending : List Instr := []
  /-- Core cycles since power-on reset (DESIGN CHOICE, log entry 3). -/
  now : Nat := 0
  /-- The model's own counter of free values drawn (DESIGN CHOICE, log entry 4). -/
  draws : Nat := 0
  /-- The register map: BAR0 offset to word, words at their reset value not listed. -/
  regs : SMap Word := []
  lanes : SMap Lane := []
  asm : Asm := {}
  dec : Dec := {}
  syn : Syn := {}
  seq : Seq := {}
  plc : Plc := {}
  blt : Blt := {}
  sec : Sec := {}
  cam : Cam := {}
  fin : Fin_ := {}
  tlk : Tlk := {}
  rpt : Rpt := {}
  cal : Cal := {}
  sat : Sat := {}
  thm : Thm := {}
  avs : Avs := {}
  dmc : Dmc := {}
  host : HostIf := {}
  clk : Clk := {}
  rst : Rst := {}
  /-- What has happened in this cycle. -/
  cyc : Cycle := {}
  deriving DecidableEq, Repr

/-- The machine right after power-on: the POR source asserted, every item of Table RST-2 in reset, memory and every
table with nothing listed, every register at its reset value. -/
def State.reset : State := {}

end Sys2Proof.Machine
end

