-- ==== Sys2Proof/Machine/Ops.lean ====
section
/-!
DEFINITION. The named operations every chapter shares: sparse tables, the register map, little-endian words, events
(15 R348 to R350), the reset and gate state of the blocks (18), the Proctors (14 R326, R327), device memory (14 R305 to
R311), the bus wrapper of every register access (15 R332, R334), Hall Pass buffers (15 R336 to R341) and mailboxes
(15 R342, R343).
-/
namespace Sys2Proof.Machine

/-- The outcome of a command. -/
abbrev Out := Host.Outcome State Fault Refusal

/-! ## Sparse tables -/

/-- The entry at a key; unlisted keys hold the default. -/
def SMap.get {α : Type} (d : Nat → α) : SMap α → Nat → α
  | [], k => d k
  | (k', v) :: m, k => if k' = k then v else SMap.get d m k

/-- Insert or replace, keeping keys rising. -/
def SMap.ins {α : Type} : SMap α → Nat → α → SMap α
  | [], k, v => [(k, v)]
  | (k', v') :: m, k, v =>
    if k < k' then (k, v) :: (k', v') :: m
    else if k = k' then (k, v) :: m
    else (k', v') :: SMap.ins m k v

/-- Remove a key. -/
def SMap.del {α : Type} (m : SMap α) (k : Nat) : SMap α := m.filter fun p => p.1 != k

/-- Remove a range of keys, `lo` to `hi - 1`. -/
def SMap.delRange {α : Type} (m : SMap α) (lo hi : Nat) : SMap α := m.filter fun p => p.1 < lo || hi ≤ p.1

/-- Write an entry; writing the default unlists the key. -/
def SMap.put {α : Type} [DecidableEq α] (d : Nat → α) (m : SMap α) (k : Nat) (v : α) : SMap α :=
  if v = d k then SMap.del m k else SMap.ins m k v

/-- Values from a key on, as listed entries; values equal to the default are left out. -/
def SMap.listed {α : Type} [DecidableEq α] (d : Nat → α) : Nat → List α → SMap α
  | _, [] => []
  | k, v :: vs => if v = d k then SMap.listed d (k + 1) vs else (k, v) :: SMap.listed d (k + 1) vs

/-- Write consecutive entries from a key on: what lies below, the values, what lies above. -/
def SMap.store {α : Type} [DecidableEq α] (d : Nat → α) (m : SMap α) (k : Nat) (vs : List α) : SMap α :=
  m.filter (fun p => p.1 < k) ++ SMap.listed d k vs ++ m.filter (fun p => k + vs.length ≤ p.1)

/-- Keys strictly rise. -/
def SMap.rising {α : Type} : SMap α → Bool
  | [] => true
  | [_] => true
  | (a, _) :: (b, v) :: m => a < b && SMap.rising ((b, v) :: m)

/-- The canonical form: keys rise, no entry equals its default. -/
def SMap.wf {α : Type} [DecidableEq α] (d : Nat → α) (m : SMap α) : Bool :=
  SMap.rising m && m.all fun p => p.2 != d p.1

/-! ## Numbers -/

/-- Bits hi to lo of a number. -/
def bits (n hi lo : Nat) : Nat := (n >>> lo) % 2 ^ (hi + 1 - lo)

/-- A number with bits hi to lo replaced. -/
def setBits (n hi lo v : Nat) : Nat :=
  n - (bits n hi lo <<< lo) + ((v % 2 ^ (hi + 1 - lo)) <<< lo)

/-- Two's complement value of the low w bits. -/
def sext (w n : Nat) : Int :=
  if (n % 2 ^ w) < 2 ^ (w - 1) then ((n % 2 ^ w : Nat) : Int) else ((n % 2 ^ w : Nat) : Int) - (2 ^ w : Nat)

/-- The low w bits of an integer in two's complement. -/
def toBits (w : Nat) (x : Int) : Nat := (x % ((2 ^ w : Nat) : Int)).toNat

def clampInt (lo hi x : Int) : Int := if x < lo then lo else if hi < x then hi else x

def bnat (b : Bool) : Nat := if b then 1 else 0

/-- Integer division rounded to nearest, ties to even; the divisor is positive. -/
def divRne (a : Int) (b : Nat) : Int :=
  let q := a / (b : Int)
  let r := (a % (b : Int)).toNat
  if 2 * r < b then q else if b < 2 * r then q + 1 else if q % 2 = 0 then q else q + 1

/-- Little-endian value of bytes (R4). -/
def leNat : List Byte → Nat
  | [] => 0
  | b :: bs => b.toNat + 256 * leNat bs

/-- n bytes of a value, little-endian (R4). -/
def leBytes : Nat → Nat → List Byte
  | 0, _ => []
  | n + 1, v => BitVec.ofNat 8 v :: leBytes n (v / 256)

/-- Big-endian value of bytes. -/
def beNat (bs : List Byte) : Nat := bs.foldl (fun a b => 256 * a + b.toNat) 0

def word (n : Nat) : Word := BitVec.ofNat 32 n

/-- n bytes from position i of a list of bytes, missing ones 0. -/
def slice (bs : List Byte) (i n : Nat) : List Byte :=
  ((bs.drop i).take n) ++ List.replicate (n - ((bs.drop i).take n).length) 0

/-- Little-endian value of n bytes at position i. -/
def leAt (bs : List Byte) (i n : Nat) : Nat := leNat ((bs.drop i).take n)

/-! ## Registers -/

/-- Reset values that a chapter's table gives per copy. -/
def regResetSpecial (off : Nat) : Nat :=
  if off / 0x1000 < 0x54A && 0x500 ≤ off / 0x1000 && off % 0x1000 = 0 then
    -- LANE_CTRL of lane L: KIND, BURST and PRECODE (03 Table LNE-1)
    let l := off / 0x1000 - 0x500
    if l < 48 then 0x10
    else if l < 50 then 0x1080
    else if l < 58 then 0x2010
    else 0x3000
  else if off / 0x1000 < 0x54A && 0x500 ≤ off / 0x1000 && off % 0x1000 = 0x10 then
    -- LANE_TXFIR: C0, on transmit lanes
    if off / 0x1000 < 0x532 then 0x200000 else 0
  else if off / 0x1000 < 0x54A && 0x500 ≤ off / 0x1000 && off % 0x1000 = 0x40 then
    -- LANE_PRBS: GEN_POLY on transmit lanes, CHK_POLY on receive lanes
    if off / 0x1000 < 0x532 then 0x2 else 0x20
  else if off = Reg.asmCtrl 0 then 0x20
  else if off = Reg.asmCtrl 1 then 0
  else if 0x1500000 ≤ off && off < 0x1580000 && off % 0x20000 = 4 then ((off - 0x1500000) / 0x20000) * 0x10
  else if 0x1601000 ≤ off && off < 0x1603000 then
    -- FIN_P_M j of a point: the identity, 0x10_0000 where row and column are equal (11)
    let w := (off % 0x40) / 4
    if w = 1 || w = 5 || w = 9 then 0x100000 else 0
  else if Reg.rptPerm 0 ≤ off && off ≤ Reg.rptPerm 15 then
    let n := (off - Reg.rptPerm 0) / 4
    ((4 * n) % 64) * 0x100 + ((2 * n + 1) / 2 % 32) * 2
  else if Reg.dmcLt 0 0 ≤ off && off < Reg.dmcLt 4 0 then
    -- Table MEM-4
    let g := (off - Reg.dmcLt 0 0) / 0x80
    let m := (off - Reg.dmcLt 0 0) % 0x80 / 4
    if 26 ≤ m then 0
    else if m = 23 then 65535
    else if g = 0 then (if m = 22 then 64 else if m = 19 then 2048 else 4096)
    else if g = 1 then (if m = 14 then 256 else if 2 ≤ m && m ≤ 13 then 128 else if m = 17 then 1024 else 4096)
    else if g = 2 then (if m = 19 then 512 else if m = 20 then 2048 else 4096)
    else (if m = 15 || m = 18 then 256 else if m = 16 then 512 else if 2 ≤ m && m ≤ 13 then 1024 else 4096)
  else if 0x1908000 ≤ off && off < 0x190DC00 && off % 0x400 < 0x10 then
    -- R328: entry 0 covers the whole target
    let t := (off - 0x1908000) / 0x400
    let last := if t = 0 then 0xFFFFFF else if t = 1 then 0xBFFFFF else if t < 4 then 0x1FFFFF
      else if t = 4 then 0x7FF else if t = 8 then 0x1FF else if t = 9 || t = 10 then 0x7F
      else if t = 11 then 0x2FF else if t = 13 then 0xBF else 0xFF
    let masters := if t < 6 then 1 else 0x10001
    if off % 0x10 = 0 then 0x80000000 else if off % 0x10 = 4 then last else masters
  else if off = Reg.evtEnable 0 then 0x1009
  else if off = Reg.evtEnable 5 then 0x800
  else if off = Reg.evtEnable 6 then 0x8
  else if off = Reg.evtRoute 0 then 0x60000000
  else if off = Reg.evtRoute 3 then 0xE0000000
  else if off = Reg.evtRoute 12 then 0xA0000000
  else if off = Reg.evtRoute 171 then 0xC0000000
  else if off = Reg.evtRoute 195 then 0xA0000000
  else if 0x210000 ≤ off && off < 0x210400 && off % 0x10 = 0xC then 1
  else if off = Reg.hstId then Config.siliconRev.toNat
  else 0

/-- The word a register holds after a reset that covers it, its option fields apart (`optionFields`). -/
def regReset (off : Nat) : Word :=
  match regFind off with
  | none => 0
  | some g => word (fieldsReset g.fields ||| regResetSpecial off)

/-- The stored word of a register. -/
def State.reg (s : State) (off : Nat) : Word := SMap.get regReset s.regs off

def State.setReg (s : State) (off : Nat) (v : Word) : State := { s with regs := SMap.put regReset s.regs off v }

/-- Field [hi:lo] of a stored register. -/
def State.fld (s : State) (off hi lo : Nat) : Nat := bits (s.reg off).toNat hi lo

def State.setFld (s : State) (off hi lo v : Nat) : State :=
  s.setReg off (word (setBits (s.reg off).toNat hi lo v))

/-- Bit b of a stored register. -/
def State.flag (s : State) (off b : Nat) : Bool := (s.reg off).getLsbD b

/-- Hardware has set the bits of a mask in a register this cycle (R8). -/
def State.noteSet (s : State) (off mask : Nat) : State :=
  { s with cyc := { s.cyc with sets := SMap.put (fun _ => 0) s.cyc.sets off (SMap.get (fun _ => 0) s.cyc.sets off ||| mask) } }

/-- Hardware sets bit b of a register. -/
def State.setFlag (s : State) (off b : Nat) : State :=
  (s.noteSet off (2 ^ b)).setReg off (s.reg off ||| BitVec.ofNat 32 (2 ^ b))

/-- Flag bits of a register that hardware has set in this cycle. -/
def State.setsNow (s : State) (off : Nat) : Nat := SMap.get (fun _ => 0) s.cyc.sets off

def State.clrFlag (s : State) (off b : Nat) : State := s.setReg off (s.reg off &&& ~~~ BitVec.ofNat 32 (2 ^ b))

/-- Increments of a counter in this cycle (R80). -/
def State.incsNow (s : State) (off : Nat) : Nat := SMap.get (fun _ => 0) s.cyc.incs off

/-- A counter counts n this cycle (R80). -/
def State.noteInc (s : State) (off n : Nat) : State :=
  { s with cyc := { s.cyc with incs := SMap.put (fun _ => 0) s.cyc.incs off (s.incsNow off + n) } }

/-- A 32-bit counter that saturates at 0xFFFF_FFFF. -/
def State.bump (s : State) (off : Nat) (n : Nat := 1) : State :=
  (s.noteInc off n).setReg off (word (min 0xFFFFFFFF ((s.reg off).toNat + n)))

/-- A count of this cycle is taken back. -/
def State.unbump (s : State) (off : Nat) : State :=
  { s with cyc := { s.cyc with incs := SMap.put (fun _ => 0) s.cyc.incs off (s.incsNow off - 1) } }.setReg off
    (word ((s.reg off).toNat - 1))

/-- Counters cleared by a CLR register: n words from off; the increments of the cycle of the clear stay (R80). -/
def State.clrRegs (s : State) (off n : Nat) : State :=
  (List.range n).foldl (fun s i => s.setReg (off + 4 * i) (word (min 0xFFFFFFFF (s.incsNow (off + 4 * i))))) s

/-! ## Reset and gates of the blocks (18) -/

/-- The item is out of reset (R392). -/
def State.up (s : State) (b : Nat) : Bool := !s.rst.held.getLsbD b

/-- The gate of block b is closed (R389). -/
def State.gated (s : State) (b : Nat) : Bool :=
  if b < 32 then s.flag Reg.clkGateClosed0 b else if b < 36 then s.flag Reg.clkGateClosed1 (b - 32) else false

/-- The gate of block b is opening: its clock does not run yet (R389). -/
def State.resuming (s : State) (b : Nat) : Bool := s.clk.resume.any fun p => p.1 == b && s.now < p.2

/-- The block runs: out of reset, gate open. -/
def State.live (s : State) (b : Nat) : Bool := s.up b && !s.gated b && !s.resuming b

/-- The item of Table RST-2 that a BAR0 offset belongs to (Table HST-2, Table RST-3). -/
def blockOf (off : Nat) : Nat :=
  if off < 0x10000 then 36
  else if off < 0x100000 then 39
  else if off < 0x200000 then 33
  else if off < 0x220000 then 37
  else if off < 0x230000 then 34
  else if off < 0x240000 then 38
  else if off < 0x400000 then 32
  else if off < 0x480000 then 0
  else if off < 0x500000 then 1
  else if off < 0x800000 then
    (if 0x530000 ≤ off && off < 0x53A000 then 4 else 3)
  else if off < 0x1000000 then 2
  else if off < 0x1100000 then 5
  else if off < 0x1200000 then 6 + (off - 0x1100000) / 0x10000
  else if off < 0x1300000 then 18
  else if off < 0x1500000 then 19
  else if off < 0x1580000 then 20
  else if off < 0x1600000 then 21
  else if off < 0x1700000 then 22
  else if off < 0x1800000 then 23
  else if off < 0x1808000 then 24
  else if off < 0x1900000 then 25
  else if off < 0x1908000 then 26
  else if off < 0x1A00000 then 27
  else if off < 0x1A08000 then 28
  else if off < 0x1B00000 then 29
  else if off < 0x1B08000 then 30
  else 31

/-- Offsets of BAR0 that lie outside every block (R331, Table HST-2). -/
def noBlock (off : Nat) : Bool := 0x1C00000 ≤ off || (0x11C0000 ≤ off && off < 0x1200000)

/-! ## Events (15 R348 to R350) -/

/-- Assertion of an event through its ROUTE bits (R349): the MSI-X pending bit, unless the endpoint is in reset (R330), and the alarm bit
of both ports. -/
def State.assertEvent (s : State) (e : Nat) : State :=
  let r := Reg.evtRoute e
  let s := if s.flag r 29 && s.up 37 then
      { s with host := { s.host with msixPend := s.host.msixPend ||| BitVec.ofNat 64 (2 ^ s.fld r 5 0) } } else s
  if s.flag r 30 && !s.asm.alarms.getLsbD e then
    -- a new alarm restarts contention (04 R106)
    { s with asm := { s.asm with
        alarms := s.asm.alarms ||| BitVec.ofNat 288 (2 ^ e)
        portA := { s.asm.portA with contStop := false }
        portB := { s.asm.portB with contStop := false } } }
  else s

/-- An occurrence of event e (R348): STATUS sets whatever ENABLE holds; a first occurrence with ENABLE 1 asserts. -/
def State.event (s : State) (e : Nat) : State :=
  if s.up 33 then
    let had := s.flag (Reg.evtStatus (e / 32)) (e % 32)
    let s := s.setFlag (Reg.evtStatus (e / 32)) (e % 32)
    if had then { s with cyc := { s.cyc with again := e :: s.cyc.again } }
    else if s.flag (Reg.evtEnable (e / 32)) (e % 32) then s.assertEvent e else s
  else s

/-- The words an occurrence latches, VALID in bit 31 of the register at `off` among them, and its event. -/
def State.latchWords (s : State) (off : Nat) (ev : Option Nat) (ws : List (Nat × Word)) : State :=
  let s := ws.foldl (fun s p => s.setReg p.1 p.2) (s.noteSet off (2 ^ 31))
  match ev with
  | some e => s.event e
  | none => s

/-- An occurrence that latches words while VALID is 0, or in the cycle in which VALID is cleared (R8): of several in a cycle the
one of the lowest rank, the first of that rank. `ev` is the event that the latching, not the occurrence, sets. -/
def State.latchFirst (s : State) (off rank : Nat) (ws : List (Nat × Word)) (ev : Option Nat := none) : State :=
  let best := match (s.cyc.firsts.find? fun p => p.1 == off) with
    | some (_, r, _) => decide (rank < r)
    | none => true
  if !best then s else
    let free := !s.flag off 31 || (s.setsNow off).testBit 31
    let s := { s with cyc := { s.cyc with firsts := SMap.ins s.cyc.firsts off (rank, ev, ws) } }
    if free then s.latchWords off ev ws else s

/-- The registers that latch a first occurrence: HP_VIOL, HP_REFUSE, HST_BADACC, DMC_ERRINFO, the PRC_VIOL, HR_FAULT and
TLK_FAULT. -/
def isLatchReg (off : Nat) : Bool :=
  [Reg.hpViol, Reg.hpRefuse, Reg.hstBadacc, Reg.dmcErrInfo].contains off
    || (0x1908000 ≤ off && off < 0x190DC00 && off % 0x400 == 0x200)
    || (0x1100000 ≤ off && off < 0x11C0000 && off % 0x10000 == 8)
    || (0x1700200 ≤ off && off < 0x1700280 && off % 8 == 0)

/-- VALID has been cleared by a write: an occurrence of the same cycle is latched (R8). -/
def State.relatch (s : State) (off : Nat) : State :=
  if s.flag off 31 || !isLatchReg off then s else
    match s.cyc.firsts.find? fun p => p.1 == off with
    | some (_, _, ev, ws) => s.latchWords off ev ws
    | none => s

/-- FAULT_N driven low (R350). -/
def State.faultPin (s : State) : Bool :=
  s.up 33 && (s.flag Reg.evtFault 0 ||
    (List.range 288).any fun e => s.flag (Reg.evtRoute e) 31 && s.flag (Reg.evtStatus (e / 32)) (e % 32)
      && s.flag (Reg.evtEnable (e / 32)) (e % 32))

/-! ## Protected arrays (14 R325) -/

/-- The owner of a protected array writes its words lo to hi - 1 (14 R325; the arrays as `State.sramLost` numbers them). -/
def State.noteSram (s : State) (array lo hi : Nat) : State :=
  { s with cyc := { s.cyc with sram := (array, lo, hi) :: s.cyc.sram } }

/-- The owner has written a word of an array in this cycle. -/
def State.sramWritten (s : State) (array i : Nat) : Bool :=
  s.cyc.sram.any fun p => p.1 == array && p.2.1 ≤ i && i < p.2.2

/-! ## Proctors (14 R326 to R328) -/

/-- Target of a BAR0 offset and the offset inside it (Table MEM-8, Table HST-2). -/
def proctorTarget (off : Nat) : Nat × Nat :=
  if off < 0x100000 then (6, off)
  else if off < 0x200000 then (7, off - 0x100000)
  else if off < 0x400000 then (8, off - 0x200000)
  else if off < 0x480000 then (9, off - 0x400000)
  else if off < 0x500000 then (10, off - 0x480000)
  else if off < 0x800000 then (11, off - 0x500000)
  else if off < 0x1000000 then (4, off - 0x800000)
  else if off < 0x1100000 then (12, off - 0x1000000)
  else if off < 0x1200000 then (13, off - 0x1100000)
  else if off < 0x1300000 then (14, off - 0x1200000)
  else if off < 0x1400000 then (15, off - 0x1300000)
  else if off < 0x1500000 then (5, off - 0x1400000)
  else if off < 0x1600000 then (16, off - 0x1500000)
  else if off < 0x1700000 then (17, off - 0x1600000)
  else if off < 0x1800000 then (18, off - 0x1700000)
  else if off < 0x1900000 then (19, off - 0x1800000)
  else if off < 0x1A00000 then (20, off - 0x1900000)
  else if off < 0x1B00000 then (21, off - 0x1A00000)
  else (22, off - 0x1B00000)

/-- The word of a register as it stood when the cycle began: bus writes of this cycle do not count. -/
def State.regBefore (s : State) (off : Nat) : Word := SMap.get s.reg s.cyc.before off

/-- Field [hi:lo] of a register as it stood when the cycle began. -/
def State.fldBefore (s : State) (off hi lo : Nat) : Nat := bits (s.regBefore off).toNat hi lo

/-- Some valid entry of Proctor t, as it stood when the cycle began, covers bytes o to o + n - 1 and grants master m the access
(R326). -/
def State.permits (s : State) (t m o n : Nat) (write : Bool) : Bool :=
  (List.range 32).any fun e =>
    (s.regBefore (Reg.prcE0 t e)).getLsbD 31
      && 4096 * s.fldBefore (Reg.prcE0 t e) 23 0 ≤ o
      && o + n ≤ 4096 * s.fldBefore (Reg.prcE1 t e) 23 0 + 4096
      && (s.regBefore (if write then Reg.prcE3 t e else Reg.prcE2 t e)).getLsbD m

/-- A refusal by Proctor t (R327). -/
def State.violation (s : State) (t m o : Nat) (write : Bool) : State :=
  ((s.bump (Reg.prcViolCnt t)).event 198).latchFirst (Reg.prcViol t) m
    [(Reg.prcViol t, word (2 ^ 31 + bnat write * 2 ^ 30 + m % 32 * 2 ^ 16)), (Reg.prcViolAddrLo t, word o),
     (Reg.prcViolAddrHi t, word (o / 2 ^ 32 % 16))]

/-! ## Device memory (14) -/

/-- Group, base, first channel, channels of a device address (Table MEM-1). -/
def memGroup (a : Nat) : Option (Nat × Nat × Nat × Nat) :=
  if a < 0x1000000000 then some (0, 0, 0, 8)
  else if a < 0x1C00000000 then some (1, 0x1000000000, 8, 6)
  else if a < 0x1E00000000 then some (2, 0x1C00000000, 14, 1)
  else if a < 0x2000000000 then some (3, 0x1E00000000, 15, 1)
  else none

/-- Channel and channel-local address (R306). -/
def memChannel (a : Nat) : Nat × Nat :=
  match memGroup a with
  | some (_, b, f, n) => (f + (a - b) / 256 % n, 256 * ((a - b) / 256 / n) + (a - b) % 256)
  | none => (0, 0)

/-- Bank and row of a channel-local address (R307). -/
def bankRow (a : Nat) : Nat × Nat := (bits a 14 11, bits a 32 15)

def State.chan (s : State) (c : Nat) : Chan := SMap.get (fun _ => {}) s.dmc.chans c

def State.setChan (s : State) (c : Nat) (v : Chan) : State :=
  { s with dmc := { s.dmc with chans := SMap.put (fun _ => {}) s.dmc.chans c v } }

/-- What an unlisted byte of DRAM reads as (DESIGN CHOICE, log entry 2). -/
def dramDefault : Nat → Byte := fun _ => 0

/-- The canonical form of device memory. -/
def Memory.wf (m : Memory) : Bool := SMap.wf dramDefault m

def State.byteAt (s : State) (a : Nat) : Byte := SMap.get dramDefault s.dmc.dram a

def State.bytesAt (s : State) (a n : Nat) : List Byte := (List.range n).map fun i => s.byteAt (a + i)

/-- Store bytes from an address on. -/
def Memory.store (m : Memory) (a : Nat) (bs : List Byte) : Memory := SMap.store dramDefault m a bs

/-- The lines (address / 64) of an access. -/
def linesOf (a n : Nat) : List Nat :=
  if n = 0 then [] else (List.range ((a + n - 1) / 64 - a / 64 + 1)).map (a / 64 + ·)

/-- Sorted insertion into a set of naturals. -/
def nsIns : List Nat → Nat → List Nat
  | [], k => [k]
  | x :: xs, k => if k < x then k :: x :: xs else if k = x then x :: xs else x :: nsIns xs k

def State.poisoned (s : State) (ln : Nat) : Bool := s.dmc.poison.contains ln

/-- A set of naturals with ln put in or taken out. -/
def nsPut (l : List Nat) (ln : Nat) (b : Bool) : List Nat := if b then nsIns l ln else l.filter (· != ln)

def State.setPoison (s : State) (ln : Nat) (b : Bool) : State :=
  { s with dmc := { s.dmc with poison := nsPut s.dmc.poison ln b } }

/-- The cells of a line hold errors that the code corrects (R309). -/
def State.setSoft (s : State) (ln : Nat) (b : Bool) : State :=
  { s with dmc := { s.dmc with soft := nsPut s.dmc.soft ln b } }

/-- Cells of channel c that have been upset outside: lines past correction (true) or with errors that the code corrects (R309). -/
def State.strike (s : State) (c : Nat) (upsets : List (BitVec 31 × Bool)) : State :=
  upsets.foldl (fun s u =>
    let ln := u.1.toNat
    if (memChannel (64 * ln)).1 ≠ c then s
    else if u.2 then s.setPoison ln true else s.setSoft ln true) s

/-- An uncorrectable line is counted, evented and latched (R310). -/
def State.uncorrectable (s : State) (ln m kind : Nat) : State :=
  let c := (memChannel (64 * ln)).1
  ((s.bump (Reg.dmcCntCh c 1)).event 193).latchFirst Reg.dmcErrInfo 0
    [(Reg.dmcErrInfo, word (2 ^ 31 + c * 2 ^ 24 + m % 32 * 2 ^ 16 + kind)), (Reg.dmcErrAddrLo, word (64 * ln)),
     (Reg.dmcErrAddrHi, word (64 * ln / 2 ^ 32))]

/-- The whole request lies in one group (R305). -/
def memInGroup (a n : Nat) : Bool :=
  match memGroup a, memGroup (a + n - 1) with
  | some (g, _), some (h, _) => g == h
  | _, _ => false

/-- The part of [a, a + n) that falls in line ln: first address and length. -/
def linePart (a n ln : Nat) : Nat × Nat :=
  let lo := max a (64 * ln)
  (lo, min (a + n) (64 * ln + 64) - lo)

/-- The line is held by a queued write of its channel, or by one still being issued (R314). -/
def State.lineHeld (s : State) (ln : Nat) : Bool :=
  let ch := s.chan (memChannel (64 * ln)).1
  ch.writes.any (fun w => w.line == 64 * ln) ||
    (match ch.issuing with | some (l, e) => l == 64 * ln && decide (s.now < e) | none => false)

/-- Line ln is read from the DRAM for master m (R309, R310; KIND of DMC_ERR_INFO): its count, and what a correction or an
uncorrectable line sets off; whether its data is good. -/
def State.readLine (s : State) (ln m kind : Nat) : State × Bool :=
  let c := (memChannel (64 * ln)).1
  let s := s.bump (Reg.dmcCntCh c 3)
  if s.poisoned ln then (s.uncorrectable ln m kind, false)
  else if s.dmc.soft.contains ln then ((s.bump (Reg.dmcCntCh c 0)).event 192, true)
  else (s, true)

/-- A read of a line: answered by the write that holds it, else from the DRAM (R314). -/
def State.fetchLine (s : State) (ln m : Nat) : State × Bool :=
  if s.lineHeld ln then
    let s := s.bump (Reg.dmcCntCh (memChannel (64 * ln)).1 5)
    if s.poisoned ln then (s.uncorrectable ln m 0, false) else (s, true)
  else s.readLine ln m 0

/-- A read by a device master, line by line: refused lines, failed channels, uncorrectable lines and any line while DMC is
in reset read as zeros and make the error flag (R305, R309, R310, R319, R327; 18 R399). -/
def State.devRead (s : State) (m a n : Nat) : State × List Byte × Bool :=
  if !memInGroup a n then (s, List.replicate n 0, false) else
  match memGroup a with
  | none => (s, List.replicate n 0, false)
  | some (g, b, _, _) =>
    (linesOf a n).foldl (fun (s, bs, ok) ln =>
      let (pa, pn) := linePart a n ln
      let c := (memChannel pa).1
      if !s.permits g m (pa - b) pn false then
        (s.violation g m (pa - b) false, bs ++ List.replicate pn 0, false)
      else if (s.chan c).failed || !s.up 26 then (s, bs ++ List.replicate pn 0, false)
      else
        let r := s.fetchLine ln m
        (r.1, bs ++ (if r.2 then s.bytesAt pa pn else List.replicate pn 0), ok && r.2)) (s, [], true)

/-- Reads already accepted of lines lo to hi - 1 keep them as they stand before a write that is accepted after them (R314). -/
def State.keepReads (s : State) (c lo hi : Nat) : State :=
  let ch := s.chan c
  let hit (r : MemReq) : Bool := r.kept.isNone && lo ≤ r.line / 64 && r.line / 64 < hi
  let keep (r : MemReq) : MemReq :=
    if hit r then { r with kept := some (if s.poisoned (r.line / 64) then none else some (s.bytesAt r.line 64)) } else r
  if ch.reads.any hit then s.setChan c { ch with reads := ch.reads.map keep } else s

/-- A write cancels the scrubber's write-back of its line that is not yet accepted (R324). -/
def State.dropScrub (s : State) (ln : Nat) : State :=
  { s with dmc := { s.dmc with
    ports := s.dmc.ports.filter fun r => !(r.scrub && r.addr / 64 == ln)
    stalled := s.dmc.stalled.filter fun r => !(r.scrub && r.addr / 64 == ln) } }

/-- The bytes of an accepted write of one line become the line's, seen by every later read (R314): a whole line clears poison, part
of a poisoned line stays poison (R311). -/
def State.putLine (s : State) (a : Nat) (bs : List Byte) : State :=
  let ln := a / 64
  let s := (s.keepReads (memChannel a).1 ln (ln + 1)).dropScrub ln
  if bs.length = 64 then
    let s := (s.setPoison ln false).setSoft ln false
    { s with dmc := { s.dmc with dram := Memory.store s.dmc.dram a bs } }
  else if s.poisoned ln then s
  else { s with dmc := { s.dmc with dram := Memory.store s.dmc.dram a bs } }

/-- The read of a merge: uncorrectable with KIND 1; the line is then written whole (R311). -/
def State.mergeLine (s : State) (ln m : Nat) : State := (s.readLine ln m 1).1.setSoft ln false

/-- A queued write of the line takes the data of a later write in its place: a whole line needs no merge (R314). -/
def State.joinWrite (s : State) (ln : Nat) (whole : Bool) : State :=
  let c := (memChannel (64 * ln)).1
  let ch := s.chan c
  let join (w : MemReq) : MemReq := if w.line == 64 * ln then { w with merge := w.merge && !whole } else w
  s.setChan c { ch with writes := ch.writes.map join }

/-- A write of one line, or of part of it, by a device master that the channel takes at once: it joins a queued write of the line,
or is merged and issued (R311, R314). -/
def State.storeLine (s : State) (m ln a : Nat) (bs : List Byte) : State :=
  let c := (memChannel a).1
  let s :=
    if (s.chan c).writes.any (fun w => w.line == 64 * ln) then s.joinWrite ln (bs.length == 64)
    else (if bs.length = 64 then s else s.mergeLine ln m).bump (Reg.dmcCntCh c 4)
  s.putLine a bs

/-- A write by a device master, line by line; false if any line ended in an error response. With `stop` the line that does is the
last. -/
def State.devWrite (s : State) (m a : Nat) (bs : List Byte) (stop : Bool := false) : State × Bool :=
  if !memInGroup a bs.length then (s, false) else
  match memGroup a with
  | none => (s, false)
  | some (g, b, _, _) =>
    (linesOf a bs.length).foldl (fun (s, ok) ln =>
      let (pa, pn) := linePart a bs.length ln
      let c := (memChannel pa).1
      if stop && !ok then (s, ok)
      else if !s.permits g m (pa - b) pn true then (s.violation g m (pa - b) true, false)
      else if (s.chan c).failed || !s.up 26 then (s, false)
      else (s.storeLine m ln pa ((bs.drop (pa - a)).take pn), ok)) (s, true)

/-- A write by a master of n bytes from an address on meets no error response. -/
def State.writeOk (s : State) (m a n : Nat) : Bool :=
  memInGroup a n && s.up 26 && (match memGroup a with
    | none => false
    | some (g, b, _, _) => (linesOf a n).all fun ln =>
      let p := linePart a n ln
      s.permits g m (p.1 - b) p.2 true && !(s.chan (memChannel p.1).1).failed)

/-- A channel takes commands: trained, in no retraining and no replay; a failed one answers with errors (R317 to R319). -/
def State.chanOpen (s : State) (c : Nat) : Bool :=
  let ch := s.chan c
  ch.failed || (ch.trained && ch.stallEnd ≤ s.now
    && (match ch.replayEnd with | some e => decide (e ≤ s.now) | none => true))

/-! ## Bus accesses (15 R332, R334; 14 R326, R327; 18 R389, R394) -/

/-- What HST_BADACC latches (R332, R334). -/
def State.badAccess (s : State) (off : Nat) (write : Bool) (reason : Nat) : State :=
  (s.event 34).latchFirst Reg.hstBadacc 0
    [(Reg.hstBadacc, word (2 ^ 31 + bnat write * 2 ^ 30 + reason * 2 ^ 28 + off / 4 % 2 ^ 24 * 4))]

/-- The path of the host to BAR0: the endpoint out of reset with a trained link. -/
def State.hostPath (s : State) : Bool := s.up 37 && s.flag Reg.hstLink 31

/-- An error response to a register access (R334). -/
def State.busError (s : State) (m off : Nat) (write : Bool) : State :=
  let s := { s with host := { s.host with resp := 0, respErr := true } }
  if m = 16 then s.badAccess off write 2 else s

/-- The block answers accesses: not in reset, gate open. CLK, RST and OPT registers answer while the slow domain is
stable (CLK_STATUS.STABLE). -/
def State.answers (s : State) (off : Nat) : Bool := s.live (blockOf off)

/-- The chart window: its Proctor ends every write with an error response (09 R226). -/
def chartWindow (off : Nat) : Bool := 0x1400000 ≤ off && off < 0x1500000

/-- A host write of the window waits at the monitor: the host's later writes follow it (R333, R338). -/
def State.hostHeld (s : State) : Bool := s.host.fifo.any fun i => match i with | .post _ _ => false | _ => true

/-- A write by a master has reached its register: no error response; the cycle remembers what the host has written. -/
def State.accepted (s : State) (off : Nat) (b : BusWrite) : State :=
  let s := if b.master.val = 16 then { s with cyc := { s.cyc with hostWrites := off :: s.cyc.hostWrites } } else s
  { s with host := { s.host with respErr := false } }

/-- A write by a master goes through to its register: `eff` is applied to the state and the word written. -/
def State.busApply (s : State) (off : Nat) (b : BusWrite) (eff : State → Word → State) : State :=
  let m := b.master.val
  if m = 16 ∧ b.be ≠ 15 then s.badAccess off true 1
  else if ¬ s.answers off then s.busError m off true
  else if ¬ s.permits (proctorTarget off).1 m (proctorTarget off).2 4 true then
    (s.violation (proctorTarget off).1 m (proctorTarget off).2 true).busError m off true
  else if chartWindow off then s.busError m off true
  else eff (s.accepted off b) b.value

/-- An access waits at the wrapper of a block whose gate is opening (18 R389). -/
def State.holdAccess (s : State) (a : GateAccess) : State := { s with clk := { s.clk with waiting := s.clk.waiting ++ [a] } }

/-- A write arrives at the wrapper of its block. -/
def State.busReach (s : State) (off : Nat) (b : BusWrite) (eff : State → Word → State) : State :=
  if s.resuming (blockOf off) then s.holdAccess ⟨b.master, off, some b.value, b.be⟩ else s.busApply off b eff

/-- A write by a master reaches its register; the host's needs a link, and follows the window writes it sent before (R333). -/
def State.busWrite (s : State) (off : Nat) (b : BusWrite) (eff : State → Word → State) : State :=
  if b.master.val = 16 ∧ ¬ s.hostPath then s
  else if b.master.val = 16 ∧ s.hostHeld = true then
    { s with host := { s.host with fifo := s.host.fifo ++ [.reg off b.value b.be] } }
  else s.busReach off b eff

/-- A write that the wrapper lets through: the condition under which `busWrite` applies the effect. -/
def State.busOk (s : State) (off : Nat) (b : BusWrite) : Bool :=
  (b.master.val ≠ 16 || (s.hostPath && !s.hostHeld && b.be == 15)) && s.answers off
    && s.permits (proctorTarget off).1 b.master.val (proctorTarget off).2 4 true && !chartWindow off

/-- The bytes of a word that a read enables (R332). -/
def enabledBytes (be : BitVec 4) (w : Word) : Word :=
  w &&& word ((List.range 4).foldl (fun a i => if be.getLsbD i then a + 0xFF * 256 ^ i else a) 0)

/-- A read by a master reaches its register: `eff` gives the state with latches and the word read, whose enabled bytes are answered. -/
def State.readApply (s : State) (off m : Nat) (be : BitVec 4) (eff : State → State × Word) : State :=
  if ¬ s.answers off then s.busError m off false
  else if ¬ s.permits (proctorTarget off).1 m (proctorTarget off).2 4 false then
    (s.violation (proctorTarget off).1 m (proctorTarget off).2 false).busError m off false
  else
    let r := eff s
    { r.1 with host := { r.1.host with resp := enabledBytes be r.2, respErr := false } }

/-- The words of a read after its first: master, offset and byte enables of each (R332). -/
def busRest (b : BusRead) (off : Nat) : List (Nat × Nat × BitVec 4) :=
  b.more.zipIdx.map fun p => (b.master.val, off + 4 * (p.2 + 1), p.1)

/-- A read by a master: its first word now, the words after it in the following cycles, in address order (R332). -/
def State.busRead (s : State) (off : Nat) (b : BusRead) (eff : State → State × Word) : State :=
  let m := b.master.val
  if m = 16 ∧ ¬ s.hostPath then s
  else
    let t := if s.resuming (blockOf off) then s.holdAccess ⟨b.master, off, none, b.be⟩ else s.readApply off m b.be eff
    if b.more.isEmpty then t else
      { t with host := { t.host with readRest := t.host.readRest ++ busRest b off, respMore := [] } }

/-- Latch a later word for the reading master: master 24 has its own (R346). -/
def State.latchWord (s : State) (m off : Nat) (v : Word) : State :=
  if m = 24 then { s with host := { s.host with latchRc := SMap.ins s.host.latchRc off v } }
  else { s with host := { s.host with latch := SMap.ins s.host.latch off v } }

/-- The word latched at an offset for a master (R346). -/
def State.latched (s : State) (m off : Nat) : Option Word :=
  ((if m = 24 then s.host.latchRc else s.host.latch).find? fun p => p.1 == off).map (·.2)

/-- What the special registers of R188 count, as it now stands: manifests held, descriptors, messages. -/
def State.queuesNow (s : State) : Nat × Nat × Nat := (s.dec.held.length, s.seq.desc.length, s.seq.msgs.length)

/-- What an RDSR of the rest of this cycle sees of them (08 R186, R188). -/
def State.noteQueues (s : State) : State := { s with cyc := { s.cyc with queues := some s.queuesNow } }

def State.queuesBefore (s : State) : Nat × Nat × Nat := s.cyc.queues.getD s.queuesNow

/-- The word latched at an offset for a master has been read (R346). -/
def State.unlatch (s : State) (m off : Nat) : State :=
  if m = 24 then { s with host := { s.host with latchRc := SMap.del s.host.latchRc off } }
  else { s with host := { s.host with latch := SMap.del s.host.latch off } }

/-! ## Writes of a register word by access type (00 R7, R9, R10) -/

/-- A bus write reaches a register: what the register held when the cycle began is kept. -/
def State.noteWrite (s : State) (off : Nat) : State :=
  { s with cyc := { s.cyc with before := SMap.ins s.cyc.before off (s.regBefore off) } }

/-- Commit group g, armed until now or not, is armed in this cycle (R33). -/
def State.noteArm (s : State) (g : Nat) (was : Bool) : State :=
  { s with cyc := { s.cyc with arms := SMap.ins s.cyc.arms g (SMap.get (fun _ => was) s.cyc.arms g) } }

/-- A commit copies group g, armed now or not: it was armed before this cycle (R33). -/
def State.armedBefore (s : State) (g : Nat) (armed : Bool) : Bool := SMap.get (fun _ => armed) s.cyc.arms g

/-- An ARM of this cycle outlives a commit of this cycle (R33). -/
def State.armedNow (s : State) (g : Nat) : Bool := s.cyc.arms.any fun p => p.1 == g

/-- LOCK of the RWL fields of a register, as it stands before the write (in the next cycle the fields are locked, R9): PRC_LOCK for a Proctor entry (14 R328), bit 31
of the register itself elsewhere. -/
def State.locked (s : State) (off : Nat) : Bool :=
  if 0x1908000 ≤ off && off < 0x190FF00 then (s.regBefore (Reg.prcLock ((off - 0x1908000) / 0x400))).getLsbD 0
  else (s.regBefore off).getLsbD 31

/-- The word a register holds after a write of v over old (Table SCP-4, R9, R10). -/
def fieldsWrite (fs : List RegField) (locked : Bool) (old v : Nat) : Nat :=
  fs.foldl (fun w f =>
    match f.acc with
    | .rw => setBits w f.msb f.lsb (bits v f.msb f.lsb)
    | .rwl => if locked then w else setBits w f.msb f.lsb (bits v f.msb f.lsb)
    | .lck => setBits w f.msb f.lsb (bits w f.msb f.lsb ||| bits v f.msb f.lsb)
    | .w1c => setBits w f.msb f.lsb (bits w f.msb f.lsb - (bits w f.msb f.lsb &&& bits v f.msb f.lsb))
    | _ => w) old

/-- The W1C bits of a register. -/
def w1cMask (fs : List RegField) : Nat :=
  fs.foldl (fun m f => if f.acc = .w1c then setBits m f.msb f.lsb (2 ^ (f.msb + 1 - f.lsb) - 1) else m) 0

/-- The W1C bits of a register that hardware has set in this cycle: no write of this cycle clears them (R8). -/
def State.keptBits (s : State) (fs : List RegField) (off : Nat) : Nat :=
  w1cMask fs &&& (s.reg off).toNat &&& s.setsNow off

/-- Store a word into a register's fields by their access types. -/
def State.store (s : State) (off : Nat) (v : Word) : State :=
  match regFind off with
  | none => s
  | some g =>
    ((s.noteWrite off).setReg off
      (word (fieldsWrite g.fields (s.locked off) (s.reg off).toNat v.toNat ||| s.keptBits g.fields off))).relatch off

/-! ## Hall Pass buffers (15) -/

/-- Device address of a window offset (R335). -/
def winAddr (x : Nat) : Nat := 0x1E00000000 + x

/-- LEN of an ownership word in bytes (Table HST-3, R336). -/
def ownerLen (w1 : Nat) : Nat := 64 * (if w1 % 2 ^ 24 = 0 then 2 ^ 24 else w1 % 2 ^ 24)

/-- Length in bytes of the registered buffer at a window offset (R337). -/
def State.bufLen (s : State) (x : Nat) : Nat :=
  match s.host.extents.find? fun e => e.base == x with
  | some e => e.len
  | none => 0

/-- CRC of R83: the IEEE 802.3 frame check sequence, reflected, initial value and final complement all ones. -/
def crcByte (c : Nat) (b : Byte) : Nat :=
  (List.range 8).foldl (fun c _ => if c % 2 = 1 then (c / 2) ^^^ 0xEDB88320 else c / 2) (c ^^^ b.toNat)

def crc32 (bs : List Byte) : Nat := (bs.foldl crcByte 0xFFFFFFFF) ^^^ 0xFFFFFFFF

/-- Write by master m into the window's group; an error response leaves memory as it is. -/
def State.winWrite (s : State) (m x : Nat) (bs : List Byte) : State := (s.devWrite m (winAddr x) bs).1

/-- Content, USED and CRC of a buffer the device has filled (R336, steps 1 and 2 of R340). -/
def State.fillBuffer (s : State) (m x : Nat) (content : List Byte) : State :=
  ((s.winWrite m (x + 64) content).winWrite m (x + 8) (leBytes 4 content.length)).winWrite m (x + 12)
    (leBytes 4 (crc32 content))

/-- Steps 3 and 4 of R340: STATUS with LEN unchanged, then OWNER and GEN + 1. -/
def State.ownerReturn (s : State) (m x status : Nat) : State :=
  let w0 := leNat (s.bytesAt (winAddr x) 4)
  let w1 := leNat (s.bytesAt (winAddr x + 4) 4)
  let s := s.winWrite m (x + 4) (leBytes 4 (w1 % 2 ^ 24 + status * 2 ^ 24))
  s.winWrite m x (leBytes 4 ((if status = 0 then 0 else 3) + bits w0 15 2 * 4 + ((bits w0 31 16 + 1) % 65536) * 2 ^ 16))

/-- The extent of a buffer leaves the monitor (R340). -/
def State.dropExtent (s : State) (x : Nat) : State :=
  { s with host := { s.host with extents := s.host.extents.filter fun e => e.base != x } }

/-- Return of a buffer (R340): status word, owner word, deregistration. -/
def State.returnBuffer (s : State) (m x status : Nat) : State := (s.ownerReturn m x status).dropExtent x

/-- Return of a buffer the device has filled with content from byte 64. -/
def State.returnFilled (s : State) (m x status : Nat) (content : List Byte) : State :=
  (s.fillBuffer m x content).returnBuffer m x status

/-- A post register write puts the post before the monitor (R337). -/
def State.post (s : State) (q : QueueId) (off : Nat) : State :=
  { s with host := { s.host with fifo := s.host.fifo ++ [.post q off] } }

/-- Posts of a queue that wait for their check. -/
def State.posting (s : State) (q : QueueId) : Nat :=
  (s.host.fifo.filter fun i => match i with | .post q' _ => q' == q | _ => false).length

/-! ## Mailboxes (15 R342, R343) -/

/-- Write a result into mailbox k: VALID, SEQ + 1, six data words, EV_MBOXk. -/
def State.mboxFill (s : State) (k : Nat) (d : List Word) : State :=
  let seq := (s.fld (Reg.hstMbox0w k) 15 0 + 1) % 65536
  let s := s.setReg (Reg.hstMbox0w k) (word (2 ^ 31 + seq))
  ((List.range 6).foldl (fun s i => s.setReg (Reg.hstMboxData k i) (d.getD i 0)) s).event (36 + k)

/-- A producer delivers a result, or holds it while VALID is 1 (R343). -/
def State.mboxResult (s : State) (k : Nat) (d : List Word) : State :=
  if s.flag (Reg.hstMbox0w k) 31 then { s with host := { s.host with mboxHeld := s.host.mboxHeld ++ [(k, d)] } }
  else s.mboxFill k d

/-- The producer of mailbox k waits for an ACK. -/
def State.mboxStalled (s : State) (k : Nat) : Bool := s.host.mboxHeld.any fun p => p.1 == k

/-! ## Free values -/

/-- Draw a free value: the counter advances (DESIGN CHOICE, log entry 4). -/
def State.drawn (s : State) : State := { s with draws := s.draws + 1 }

/-! ## Lanes -/

/-- PAM4 lanes (03 Table LNE-1). -/
def lanePam4 (l : Nat) : Bool := l < 48 || (50 ≤ l && l < 58)

/-- A lane as it leaves reset: DORMANT (03 R70), PRECODE 1 on PAM4 lanes. -/
def laneReset (l : Nat) : Lane := { preOn := lanePam4 l }

def State.lane (s : State) (l : Nat) : Lane := SMap.get laneReset s.lanes l

def State.setLane (s : State) (l : Nat) (v : Lane) : State := { s with lanes := SMap.put laneReset s.lanes l v }

/-! ## Sampler caches (06 R128, R137; 17 R367) -/

/-- Lines leave every sampler cache. -/
def State.dropCached (s : State) (p : CacheLine → Bool) : State :=
  { s with syn := { s.syn with cache := s.syn.cache.map fun c => (c.1, c.2.filter fun x => !p x) } }

end Sys2Proof.Machine
end

