-- ==== Sys2Proof/Machine/JpegXs.lean ====
section
/-!
DEFINITION. The headers of a JPEG XS codestream and their check against Table DEC-5 (05 R120, R121). The spec takes the format from
ISO/IEC 21122-1; the markers and the places of the fields below are that standard's, from general knowledge (PRESUMED, log entry
12). Decoding of the entropy-coded data is a free function.
-/
namespace Sys2Proof.Machine

/-- Big-endian 16-bit value at a position. -/
def be16 (bs : List Byte) (i : Nat) : Nat := beNat (slice bs i 2)

/-- The marker segments from the one after SOC up to the first slice header, each with its marker and its bytes from the length
field on, and how the walk ends: 0 at a slice header, else the reason of Table DEC-8. -/
def jxsSegments : Nat → List Byte → List (Nat × List Byte) × Nat
  | 0, _ => ([], 8)
  | n + 1, bs =>
    let m := be16 bs 0
    let l := be16 bs 2
    if bs.length < 4 then ([], 9)
    else if m = 0xFF20 then ([], 0)
    else if m = 0xFF11 then ([], 8)
    else if !([0xFF50, 0xFF12, 0xFF13, 0xFF14, 0xFF15].contains m) then ([], 7)
    else if l < 2 then ([], 8)
    else if bs.length < 2 + l then ([], 9)
    else
      let r := jxsSegments n (bs.drop (2 + l))
      ((m, slice bs 2 l) :: r.1, r.2)

/-- What the picture header declares outside Table DEC-5, by reason; `p` starts at its length field. -/
def jxsPicture (p : List Byte) : List Nat :=
  let at_ (i : Nat) : Nat := (p.getD i 0).toNat
  let nlx := at_ 24 / 16
  let nly := at_ 24 % 16
  (if be16 p 10 = 256 ∧ be16 p 12 = 64 then [] else [1]) ++ (if at_ 18 = 4 then [] else [2])
    ++ (if at_ 21 = 10 ∨ at_ 21 = 12 then [] else [4])
    ++ (if 1 ≤ nlx ∧ nlx ≤ 5 ∧ nly ≤ 1 ∧ nly ≤ nlx ∧ be16 p 14 = 0 then [] else [5])
    ++ (if at_ 23 % 16 ≤ 1 then [] else [6])

/-- What the component table declares outside Table DEC-5. -/
def jxsComponents (c : List Byte) : List Nat :=
  let at_ (i : Nat) : Nat := (c.getD i 0).toNat
  let n := (c.length - 2) / 2
  (if (List.range n).all fun i => at_ (3 + 2 * i) == 0x11 then [] else [3])
    ++ (if (at_ 2 = 10 ∨ at_ 2 = 12) ∧ (List.range n).all (fun i => at_ (2 + 2 * i) == at_ 2) then [] else [4])

/-- The bytes of the first segment with a marker. -/
def jxsSegment (segs : List (Nat × List Byte)) (m : Nat) : Option (List Byte) :=
  (segs.find? fun x => x.1 == m).map (·.2)

/-- Markers in the order and number, and lengths, that the standard requires: CAP, then PIH of 26 bytes, one CDT of 2 bytes per
component, one WGT. -/
def jxsOrdered (segs : List (Nat × List Byte)) (whole : Bool) : Bool :=
  let ms := segs.map (·.1)
  let once (m : Nat) : Bool := if whole then ms.count m == 1 else ms.count m ≤ 1
  let nc := match jxsSegment segs 0xFF12 with | some p => (p.getD 18 0).toNat | none => 0
  (ms.take 2 == [0xFF50, 0xFF12] || (!whole && (ms == [] || ms == [0xFF50])))
    && once 0xFF50 && once 0xFF12 && once 0xFF13 && once 0xFF14
    && segs.all fun x => if x.1 = 0xFF12 then x.2.length == 26 else if x.1 = 0xFF13 then x.2.length == 2 * nc + 2 else true

/-- The reasons of Table DEC-8 that the headers of a codestream give. -/
def jxsFaults (bs : List Byte) : List Nat :=
  if bs.length < 2 then [9]
  else if be16 bs 0 ≠ 0xFF10 then [8]
  else
    let r := jxsSegments bs.length (bs.drop 2)
    (if r.2 = 0 then [] else [r.2]) ++ (if jxsOrdered r.1 (r.2 == 0) then [] else [8])
      ++ (match jxsSegment r.1 0xFF12 with | some p => jxsPicture p | none => [])
      ++ (match jxsSegment r.1 0xFF13 with | some c => jxsComponents c | none => [])

/-- The declared bit depth Bw is 12. -/
def jxsDeep (bs : List Byte) : Bool :=
  match jxsSegment (jxsSegments bs.length (bs.drop 2)).1 0xFF12 with
  | some p => (p.getD 21 0).toNat == 12
  | none => false

/-- The reason a codestream is rejected for, 0 if none (R121): of several that its headers give, a free value says which; past
them, what decoding its entropy-coded data answers. -/
def State.jxsReason (s : State) (bs : List Byte) : State × Nat :=
  match jxsFaults bs with
  | [] => (s, (Config.jxsBody bs).toNat)
  | f :: fs => (s.drawn, (f :: fs).getD ((Config.freeWord s.draws 0).toNat % (fs.length + 1)) f)

end Sys2Proof.Machine
end

