-- ==== Sys2Proof/Machine/Timing.lean ====
section
/-!
DEFINITION. Frame timing and the footprint (01 R23, Table GEO-3, R28; 02 R40, Table ARC-3; 05 R111): what the chapters
on decoding, synthesis, finishing and sequencing all ask of the sequencer's state.
-/
namespace Sys2Proof.Machine

/-- Nominal frame period in cc of a rate code (Table GEO-3; codes 0 to 5 are 120, 100, 60, 50, 240, 200 Hz). -/
def ratePeriod (r : Nat) : Nat :=
  match r with
  | 0 => 13333333
  | 1 => 16000000
  | 2 => 26666667
  | 3 => 32000000
  | 4 => 6666667
  | _ => 8000000

/-- Rate codes 4 and 5 belong to latency mode. -/
def rateLatency (r : Nat) : Bool := 4 ≤ r

/-- The mode in force is latency mode (R38). -/
def State.latency (s : State) : Bool := rateLatency s.seq.rate

/-- Start of slot k after the flip, in cc (R23). -/
def slotStartOf (rate k : Nat) : Nat := k * ratePeriod rate / 448

def State.slotStart (s : State) (k : Nat) : Nat := slotStartOf s.seq.rate k

/-- Cycles in ns, rounded down (R5: 1 cc = 0.625 ns). -/
def ccNs (n : Nat) : Nat := 5 * n / 8

/-- The device wall-time clock in ns (R100). -/
def State.wallNs (s : State) : Nat := s.asm.wall / 16000000

/-- The flip instant T, in ns, that starts the next frame (R111): the announced one; else of a holdover flip (R101) and the
sequencer's own (R202), while it flips on its own, the first; with no FLIP_PERIOD the last flip plus P (DEDUCED, log entry 74). -/
def State.nextFlipT (s : State) : Nat :=
  match s.asm.nextFlip with
  | some t => t
  | none =>
    let own := ccNs (ratePeriod s.seq.rate)
    if s.asm.flipPeriod = 0 ∨ (s.seq.freeRun = true ∧ own < s.asm.flipPeriod) then s.seq.flipWall + own
    else s.seq.flipWall + s.asm.flipPeriod

/-- A frame runs: a flip has started it since reset. -/
def State.inFrame (s : State) : Bool := s.seq.flipAt.isSome

/-- The compensation group takes a master's requests now (14 R315); before the first flip the sequencer stands in slot 447 (08
R440). -/
def State.groupOpen (s : State) (g m : Nat) : Bool :=
  g != 0 || m == 22 || (s.inFrame && ((432 ≤ s.seq.slot && s.seq.slot < 446)
    || ((s.seq.blanked || s.cal.dark) && s.seq.slot < 428)))

/-- Requests of a master to a range are answered now: the group takes them and each channel is open (14 R315, R317, R318), or DMC is
in reset (18 R399: they end in error responses). -/
def State.memReady (s : State) (m a n : Nat) : Bool :=
  !s.up 26 || (match memGroup a with
    | some (g, _) => s.groupOpen g m && (linesOf a n).all fun ln => s.chanOpen (memChannel (64 * ln)).1
    | none => true)

/-- A buffer of a block in reset goes back with STATUS 4, now or as soon as the service group accepts writes (15 R341). -/
def State.returnLater (s : State) (m x : Nat) : State :=
  if s.up 26 && s.memReady m (winAddr x) 64 then s.returnBuffer m x 4
  else { s with host := { s.host with returns := s.host.returns ++ [(m, x)] } }

/-- The slot in progress is active (Table GEO-3). -/
def State.activeSlot (s : State) : Bool := s.inFrame && s.seq.slot < 432

/-- Rows whose synthesis of the frame in synthesis has begun: 1 in slot 447, k + 2 in slot k, at most 432 (R39, R40). -/
def State.rowsBegun (s : State) : Nat :=
  if s.seq.done447 then 1 else min 432 (s.seq.slot + 2)

/-- Origin and margin in force (R28, R32). -/
def State.ox (s : State) : Int := s.seq.geoX.toInt
def State.oy (s : State) : Int := s.seq.geoY.toInt
def State.margin (s : State) : Int := s.seq.geoM.toNat

/-- Cycles since the start of the slot in progress. -/
def State.slotCc (s : State) : Nat := s.now - s.seq.slotAt

/-- Lenslets of the current row that finishing of a tile has begun. -/
def State.lensletsBegun (s : State) (tile : Nat) : Nat := SMap.get (fun _ => 0) s.syn.cursorU tile

/-- The finishing cursor p of a tile (R26, R43, R44): 16 emitters per cc in latency mode; in precision mode it advances
through the lenslet last checked at the payload rate of the tile's lanes, 75 codes in 8 cc, and stops at its end until the
lanes accept the next (DESIGN CHOICE, log entry 90). -/
def State.cursor (s : State) (tile : Nat) : Nat :=
  if !s.activeSlot then 0
  else if s.latency then min 230400 (16 * s.slotCc)
  else
    let u := s.lensletsBegun tile
    300 * (u - 1) + (if u = 0 then 0 else min 300 (75 * (s.now - SMap.get (fun _ => 0) s.syn.cursorAt tile) / 8))

/-- The engine clock runs: a native switch stops it from the quiesce to the end of the restart (18 R386). -/
def State.engineRuns (s : State) : Bool :=
  match s.clk.switch with
  | none => true
  | some w => w.ramp

/-- A native switch drains the engine domain: samplers complete the requests they have taken (18 R386). -/
def State.quiescing (s : State) : Bool :=
  match s.clk.switch with
  | none => false
  | some w => !w.ramp && !w.restarted

end Sys2Proof.Machine
end

