-- ==== Sys2Proof/Machine/Scene.lean ====
section
/-!
DEFINITION. Scene layers and decoding (05): manifests, need windows, slice reassembly, decoders, generations,
publication, deadlines and concealment, direct-ray blocks up to the splice test.
-/
namespace Sys2Proof.Machine

/-! ## Scene frames and blocks -/

/-- a is not later than b, in 16 bits (R111). -/
def frameLe (a b : Nat) : Bool := (b + 65536 - a % 65536) % 65536 < 32768

/-- a is later than b, in 16 bits. -/
def frameLt (a b : Nat) : Bool := frameLe a b && a % 65536 != b % 65536

/-- Bits hi to lo of data block i; absent blocks read 0. -/
def blkBits (bs : List (BitVec 64)) (i hi lo : Nat) : Nat := bits (bs.getD i 0).toNat hi lo

/-- The bytes of blocks in order. -/
def blkBytes (bs : List (BitVec 64)) : List Byte := (bs.map fun b => leBytes 8 b.toNat).flatten

/-! ## Manifests (R110, R111, Tables DEC-1, DEC-2, DEC-9) -/

def layerAt (bs : List (BitVec 64)) (j : Nat) : LayerEntry :=
  let a := 2 + 3 * j
  { layer := blkBits bs a 3 0, premul := blkBits bs a 4 4 == 1, sheddable := blkBits bs a 5 5 == 1,
    z := blkBits bs a 15 8, alpha := blkBits bs a 31 16, scale := blkBits bs a 47 32,
    disparity := sext 16 (blkBits bs a 63 48), offX := sext 32 (blkBits bs (a + 1) 31 0),
    offY := sext 32 (blkBits bs (a + 1) 63 32), gridW := blkBits bs (a + 2) 10 0,
    gridH := blkBits bs (a + 2) 26 16, epoch := blkBits bs (a + 2) 39 32 }

/-- A LAYER value stands twice among entries. -/
def dupLayer : List LayerEntry → Bool
  | [] => false
  | e :: es => es.any (fun f => f.layer == e.layer) || dupLayer es

def gridOk (e : LayerEntry) : Bool :=
  1 ≤ e.gridW && e.gridW ≤ 1024 && 1 ≤ e.gridH && e.gridH ≤ 1024 && e.gridW * e.gridH ≤ 65536

/-- Why a manifest of data blocks `bs` (any tag left out) is rejected, 0 if it is accepted (Table DEC-9). -/
def State.manifestReason (s : State) (bs : List (BitVec 64)) : Nat :=
  let n := blkBits bs 0 36 32
  let covered := min n ((bs.length - 2) / 3)
  let es := (List.range covered).map (layerAt bs)
  if (if s.latency then 8 else 16) < n then 1
  else if dupLayer es then 2
  else if es.any fun e => e.scale < 0x800 || 0x8000 < e.scale then 3
  else if es.any fun e => !gridOk e then 4
  else if bs.length < 2 + 3 * n then 5
  else match s.dec.force with
    | some m => if blkBits bs 1 63 0 ≤ m.flip then 6 else 0
    | none => 0

def manifestOf (bs : List (BitVec 64)) : Manifest :=
  ⟨blkBits bs 0 31 0, blkBits bs 1 63 0, (List.range (blkBits bs 0 36 32)).map (layerAt bs)⟩

/-- The earliest FLIP_TIME held. -/
def earliestFlip : List Manifest → Nat
  | [] => 0
  | [m] => m.flip
  | m :: ms => min m.flip (earliestFlip ms)

/-- The manifest store takes an accepted manifest (R110). -/
def storeManifest (held : List Manifest) (m : Manifest) : List Manifest :=
  if held.any fun h => h.flip == m.flip then held.map fun h => if h.flip = m.flip then m else h
  else if held.length < 4 then held ++ [m]
  else held.map fun h => if h.flip = earliestFlip held then m else h

/-- A delivered SCENE_MANIFEST (R110). -/
def State.manifestPacket (s : State) (bs : List (BitVec 64)) : State :=
  let r := s.manifestReason bs
  if r = 0 then { s with dec := { s.dec with held := storeManifest s.dec.held (manifestOf bs) } }
  else (s.setFld Reg.decManStatus 31 28 r).event 97

/-- The held manifest with the greatest FLIP_TIME among those that satisfy p. -/
def newestWhere (p : Manifest → Bool) (held : List Manifest) : Option Manifest :=
  held.foldl (fun best m =>
    if p m then
      match best with
      | some b => if b.flip < m.flip then some m else best
      | none => some m
    else best) none

/-- The choice of the manifest for the next frame, at T ns (R111). -/
def State.chooseManifest (s : State) (t : Nat) : State :=
  let newer := newestWhere (fun m => m.flip ≤ t + 1000
    && (match s.dec.force with | some f => decide (f.flip < m.flip) | none => true)) s.dec.held
  match newer with
  | some m => { s with dec := { s.dec with chosen := some m } }
  | none => { s with dec := { s.dec with chosen := s.dec.force } }.bump (Reg.decCnt 9)

/-- Layer L's entry in a manifest. -/
def Manifest.find (m : Manifest) (l : Nat) : Option LayerEntry := m.layers.find? fun e => e.layer == l

/-- Layer L is bound in the frame in synthesis (R195): its entry. -/
def State.boundLayer (s : State) (l : Nat) : Option LayerEntry :=
  match s.dec.force with
  | some m => if s.dec.bind.getLsbD l then m.find l else none
  | none => none

/-- F_syn (R111). -/
def State.fSyn (s : State) : Option Nat := s.dec.force.map (·.frame)

/-! ## Need windows (R114) -/

/-- ceil(a / b) for positive b. -/
def ceilDiv (a : Int) (b : Nat) : Int := -((-a) / (b : Int))

/-- The need window of a layer entry: first column, columns, first row, rows; none when it is empty. -/
def State.needWindow (s : State) (e : LayerEntry) : Option (Nat × Nat × Nat × Nat) :=
  let c0 := max 0 (((s.ox - s.margin) * 256 - e.offX) / ((16 * e.scale : Nat) : Int))
  let c1 := min ((e.gridW : Int) - 1) (ceilDiv ((s.ox + 3072 + s.margin) * 256 - e.offX) (16 * e.scale) - 1)
  let r0 := max 0 (((s.oy - s.margin) * 256 - e.offY) / ((4 * e.scale : Nat) : Int))
  let r1 := min ((e.gridH : Int) - 1) (ceilDiv ((s.oy + 1728 + s.margin) * 256 - e.offY) (4 * e.scale) - 1)
  if c1 < c0 || r1 < r0 then none
  else some (c0.toNat, (c1 - c0 + 1).toNat, r0.toNat, (r1 - r0 + 1).toNat)

/-- Slice (col, row) lies inside the need window. -/
def State.needed (s : State) (e : LayerEntry) (col row : Nat) : Bool :=
  match s.needWindow e with
  | some (c0, nc, r0, nr) => c0 ≤ col && col < c0 + nc && r0 ≤ row && row < r0 + nr
  | none => false

/-- DEC_NEEDn (R114). -/
def State.needWord (s : State) (l : Nat) : Nat :=
  match s.boundLayer l with
  | some e =>
    match s.needWindow e with
    | some (c0, nc, r0, nr) => nr * 2 ^ 25 + r0 * 2 ^ 15 + nc * 2 ^ 10 + c0
    | none => 0
  | none => 0

/-! ## The decoded-layer store (R116) -/

/-- Directory key of a slice position. -/
def slotKey (l col row : Nat) : Nat := (l * 72 + row % 72) * 32 + col % 32

def State.storeBase (s : State) : Nat := s.fld Reg.decStore 6 0 * 2 ^ 30

/-- First byte of generation g of a slice position. -/
def State.slotAddr (s : State) (key g : Nat) : Nat := s.storeBase + (2 * key + g) * 98304

/-- Bytes of a texel in the mode in force. -/
def State.texelBytes (s : State) : Nat := if s.latency then 5 else 6

def State.dirAt (s : State) (key : Nat) : DirEntry := SMap.get (fun _ => {}) s.dec.dir key

def State.setDir (s : State) (key : Nat) (e : DirEntry) : State :=
  { s.noteSram 5 key (key + 1) with dec := { s.dec with dir := SMap.put (fun _ => {}) s.dec.dir key e } }

def DirEntry.gen (e : DirEntry) (g : Nat) : Gen := if g = 0 then e.gen0 else e.gen1

def DirEntry.setGen (e : DirEntry) (g : Nat) (v : Gen) : DirEntry :=
  if g = 0 then { e with gen0 := v } else { e with gen1 := v }

/-- Every generation becomes invalid (R116, R123). -/
def State.invalidateAll (s : State) : State :=
  { s with dec := { s.dec with dir := s.dec.dir.map fun p =>
      (p.1, { p.2 with gen0 := { p.2.gen0 with valid := false }, gen1 := { p.2.gen1 with valid := false } }) } }

/-- S(F) among the generations published before a cycle: the valid one with the greatest scene frame not later than F
(Generations and publication). -/
def DirEntry.sampled (e : DirEntry) (f before : Nat) : Option Nat :=
  let ok (g : Gen) : Bool := g.valid && frameLe g.frame f && g.at_ < before
  if ok e.gen0 && ok e.gen1 then some (if frameLe e.gen0.frame e.gen1.frame then 1 else 0)
  else if ok e.gen0 then some 0 else if ok e.gen1 then some 1 else none

/-- The generation that holds N, the held valid generation with the later scene frame. -/
def DirEntry.newest (e : DirEntry) : Option Nat :=
  if e.gen0.valid && e.gen1.valid then some (if frameLe e.gen0.frame e.gen1.frame then 1 else 0)
  else if e.gen0.valid then some 0 else if e.gen1.valid then some 1 else none

/-- The slice reads as transparent because it has expired (R125). -/
def DirEntry.dark (e : DirEntry) (fsyn : Nat) : Bool :=
  e.expired && !((e.gen0.valid && e.gen0.frame % 65536 == fsyn % 65536)
    || (e.gen1.valid && e.gen1.frame % 65536 == fsyn % 65536))

/-- A manifest comes into force with a mask of bound layers (R111, R123, R195): generations of a layer that the manifest
before it did not carry, or carried with another grid or epoch, go. -/
def State.manifestInForce (s : State) (m : Manifest) (mask : BitVec 16) : State :=
  let gone (l : Nat) : Bool :=
    match s.dec.force.bind fun o => o.find l with
    | none => true
    | some o =>
      match m.find l with
      | none => false
      | some e => o.gridW != e.gridW || o.gridH != e.gridH || o.epoch != e.epoch
  let drop (g : Gen) : Gen := if frameLt g.frame m.frame then { g with valid := false } else g
  let dir := if s.dec.force = some m then s.dec.dir else s.dec.dir.map fun p =>
    (p.1, if gone (p.1 / 2304) then { p.2 with gen0 := drop p.2.gen0, gen1 := drop p.2.gen1 } else p.2)
  { s with dec := { s.dec with force := some m, bind := mask, dir := dir } }

/-! ## Slices in reassembly (R113, R115, R117 to R119) -/

/-- The layer entry and manifest candidates that judge a slice of layer L and scene frame g (R115). -/
def State.governing (s : State) (l frame : Nat) : Option LayerEntry :=
  let newest := newestWhere (fun _ => true) s.dec.held
  match newest.bind fun m => if frameLe m.frame frame then m.find l else none with
  | some e => some e
  | none => s.boundLayer l

/-- Parts stand at seq0 up to a LAST part without a gap. -/
def Slice.complete (sl : Slice) : Bool :=
  match sl.parts.find? (·.last) with
  | some p => (List.range (p.part + 1)).all fun k => sl.parts.any fun q => q.part == k
  | none => false

def insertPart (ps : List SlicePart) (p : SlicePart) : List SlicePart :=
  match ps with
  | [] => [p]
  | q :: qs => if p.part < q.part then p :: q :: qs else q :: insertPart qs p

/-- SEQ distance of a part from PART 0. -/
def seqAfter (a b : Nat) : Nat := (b + 65536 - a % 65536) % 65536

/-- The codestream of a complete slice: its parts' bytes, cut to BYTES. -/
def Slice.stream_ (sl : Slice) : List Byte :=
  ((sl.parts.map (·.body)).flatten).take ((sl.parts.map (·.bytes)).headD 0)

def Slice.frame (sl : Slice) : Nat := (sl.parts.map (·.frame)).headD 0

/-- Parts of a slice that break R117: unequal headers, PART out of step with SEQ, a LAST before the end, or a total
length other than BYTES to BYTES + 7 once complete. -/
def Slice.broken (sl : Slice) : Bool :=
  sl.parts.any (fun p => p.frame != sl.frame || p.bytes != (sl.parts.map (·.bytes)).headD 0
    || seqAfter sl.seq0 p.seq != p.part || (p.last && sl.parts.any fun q => p.part < q.part))
  || (sl.complete &&
      (let n := ((sl.parts.map (·.body)).flatten).length
       let b := (sl.parts.map (·.bytes)).headD 0
       n < b || b + 8 ≤ n))

def State.decoder (s : State) (d : Nat) : Decoder := s.dec.decoders.getD d {}

def State.setDecoder (s : State) (d : Nat) (v : Decoder) : State :=
  { s with dec := { s.dec with decoders := s.dec.decoders.set d v } }

/-- Decoders in order with no slice assigned. -/
def State.freeDecoder (s : State) : Option Nat := (List.range 4).find? fun d => (s.decoder d).slice.isNone

/-- The oldest waiting slice moves to decoder d if it is free (R119). -/
def State.decRefill (s : State) (d : Nat) : State :=
  if (s.decoder d).slice.isSome then s else
  match s.dec.area with
  | [] => s
  | sl :: rest => { s.setDecoder d { slice := some sl } with dec :=
      { (s.setDecoder d { slice := some sl }).dec with area := rest } }

/-- A slice leaves the decoders and the area. -/
def State.dropSlice (s : State) (sl : Slice) : State :=
  let area := s.dec.area.filter (· != sl)
  let decoders := s.dec.decoders.map fun d => if d.slice == some sl then {} else d
  { s with dec := { s.dec with area := area, decoders := decoders } }

/-- A slice takes another content where it stands. -/
def State.swapSlice (s : State) (sl sl' : Slice) : State :=
  let area := s.dec.area.map fun x => if x = sl then sl' else x
  let decoders := s.dec.decoders.map fun d => if d.slice == some sl then { d with slice := some sl' } else d
  { s with dec := { s.dec with area := area, decoders := decoders } }

/-- Slices that still gather parts. -/
def State.gathering (s : State) : List Slice :=
  (s.dec.area ++ (s.dec.decoders.filter fun d => d.phase == .gather).filterMap (·.slice)).filter fun sl => !sl.complete

/-- A rejected slice (R117, R121): count, identity, event; it leaves its place. -/
def State.rejectSlice (s : State) (sl : Slice) (reason : Nat) : State :=
  let at_ := (List.range 4).find? fun d => (s.decoder d).slice == some sl
  let s := s.bump (Reg.decCnt 4)
  let s := s.setReg Reg.decRejId (word (reason * 2 ^ 20 + sl.layer * 2 ^ 16 + sl.index))
  let s := s.setReg Reg.decRejFrame (word (bnat at_.isNone * 2 ^ 18 + at_.getD 0 * 2 ^ 16 + sl.frame))
  (s.event 96).dropSlice sl

/-- A slice that lacks parts is abandoned (R118). -/
def State.abandonSlice (s : State) (sl : Slice) : State := (s.bump (Reg.decCnt 2)).dropSlice sl

/-- The gathering slice that a later part of a SEQ would belong to (R117, R118): of those of its stream whose PART 0 stands 1 to
15 values before it and that hold no part of that SEQ, the one whose PART 0 is nearest. -/
def State.sliceOf (s : State) (stream seq : Nat) : Option Slice :=
  (s.gathering.filter fun sl => sl.stream == stream && 1 ≤ seqAfter sl.seq0 seq && seqAfter sl.seq0 seq ≤ 15
      && !(sl.parts.any fun q => q.seq == seq % 65536)).foldl (fun best sl =>
    match best with
    | some b => if seqAfter sl.seq0 seq < seqAfter b.seq0 seq then some sl else best
    | none => some sl) none

/-- A loss on a stream that no repair will fill, or the expiry of its repair (R118). -/
def State.sliceLoss (s : State) (stream seq : Nat) : State :=
  match s.sliceOf stream seq with
  | some sl =>
    let past := match sl.parts.find? (·.last) with | some p => decide (p.part < seqAfter sl.seq0 seq) | none => false
    if past then s else s.abandonSlice sl
  | none => s

/-- PART 0 of a slice (R113, R115, R118, R119). -/
def State.slicePart0 (s : State) (stream dest : Nat) (p : SlicePart) : State :=
  let s := (s.gathering.filter fun sl => sl.stream == stream && frameLt sl.seq0 p.seq).foldl State.abandonSlice s
  let l := bits dest 19 16
  let idx := bits dest 15 0
  let outside := s.bump (Reg.decCnt 1)
  if !s.flag Reg.decCtrl 0 then outside else
  match s.governing l p.frame with
  | none => outside
  | some e =>
    if e.gridW * e.gridH ≤ idx || !s.needed e (idx % e.gridW) (idx / e.gridW) then outside
    else
      let sl : Slice := { stream := stream, layer := l, index := idx, col := idx % e.gridW, row := idx / e.gridW,
                          seq0 := p.seq, parts := [p] }
      let s := (List.range 4).foldl State.decRefill s
      let placed : Option State :=
        match s.freeDecoder with
        | some d => some (s.setDecoder d { slice := some sl })
        | none =>
          if s.dec.area.length < 8 then some { s with dec := { s.dec with area := s.dec.area ++ [sl] } } else none
      match placed with
      | some s => if sl.broken then s.rejectSlice sl 12 else s
      | none => (s.bump (Reg.decCnt 3)).event 98

/-- A later part (R117): it joins the slice of its stream whose PART 0 stands at most 15 values before it, the nearest. -/
def State.slicePartK (s : State) (stream : Nat) (p : SlicePart) : State :=
  match s.sliceOf stream p.seq with
  | some sl =>
    let sl' := { sl with parts := insertPart sl.parts p }
    if sl'.broken then s.rejectSlice sl 12 else s.swapSlice sl sl'
  | none => s

/-- A delivered LAYER_SLICE part: data blocks without any tag (Table DEC-4, R113 to R119). -/
def State.slicePacket (s : State) (stream dest seq : Nat) (last : Bool) (bs : List (BitVec 64)) : State :=
  if !s.live 5 then s else
  let n := blkBits bs 0 36 20
  let p : SlicePart := { seq := seq % 65536, part := blkBits bs 0 19 16, frame := blkBits bs 0 15 0,
                         bytes := if n = 0 then 131072 else n, last := last, body := blkBytes (bs.drop 1) }
  if p.part = 0 then s.slicePart0 stream dest p else s.slicePartK stream p

/-! ## Decoding (R120 to R122) -/

/-- Stored texel depth: a decoded sample of 10 or 12 bits in the mode in force (R120). -/
def storedSample (latency deep : Bool) (v : Nat) : Nat :=
  if latency then (if deep then min ((v + 2) / 4) 1023 else v)
  else (if deep then v else v * 4 ||| v / 256)

/-- The bytes of one texel (Table DEC-3). -/
def texelBytesOf (latency : Bool) (r g b a : Nat) : List Byte :=
  if latency then leBytes 5 (r + g * 2 ^ 10 + b * 2 ^ 20 + a * 2 ^ 30)
  else leBytes 6 (r + g * 2 ^ 12 + b * 2 ^ 24 + a * 2 ^ 36)

/-- A sample as the codestream defines it, clamped to its depth (R120; DESIGN CHOICE, log entry 12). -/
def jxsValue (cs : List Byte) (x y c : Nat) : Nat :=
  let v := (Config.jxsSample cs (4 * (256 * y + x) + c)).toNat
  if jxsDeep cs then v else min v 1023

/-- The 16,384 texels of a slice as stored, rows of 256 (R116, R120). -/
def sliceBytes (latency : Bool) (cs : List Byte) : List Byte :=
  ((List.range 16384).map fun i =>
    let v := fun c => storedSample latency (jxsDeep cs) (jxsValue cs (i % 256) (i / 256) c)
    texelBytesOf latency (v 0) (v 1) (v 2) (v 3)).flatten

/-- Row syntheses in progress (R122): the latches of banks whose row still has a chunk that runs or waits. -/
def State.rowsInProgress (s : State) : List RowLatch :=
  [s.syn.bank0, s.syn.bank1].filter fun b => s.syn.engines.any fun p =>
    (match p.2.run with | some c => c.row == b.row | none => false)
    || (match p.2.wait with | some c => c.row == b.row | none => false)

/-- A row synthesis in progress samples generation g of a position (R122). -/
def State.sampling (s : State) (key g : Nat) : Bool :=
  s.rowsInProgress.any fun b =>
    match b.fsyn with
    | some f => (SMap.get (fun _ => ({} : DirEntry)) b.dir key).sampled f b.at_ == some g
    | none => false

/-- The writes of a slice: the target becomes invalid at the first, every texel goes to the store, the flush follows
(R122, R322). A codestream found CORRUPT after writing has begun leaves the target invalid (R121). -/
def State.decodeWrite (s : State) (d : Nat) (sl : Slice) (g : Nat) : State :=
  let key := slotKey sl.layer sl.col sl.row
  let e := s.dirAt key
  let e := if e.index = sl.index then e else { index := sl.index }
  let s := s.setDir key (e.setGen g { (e.gen g) with valid := false })
  let s := (s.devWrite 14 (s.slotAddr key g) (sliceBytes s.latency sl.stream_)).1
  if jxsFaults sl.stream_ = [] ∧ (Config.jxsBody sl.stream_).toNat = 10 then s.rejectSlice sl 10
  else s.setDecoder d { slice := some sl, phase := .flushing g }

/-- DECODER_START (R119 to R122): tests, check, and the writes, held while a row still samples the target. A decoder whose
first write is held starts it once no row samples the target. With no manifest in force F_syn is the 0 that DEC_FRAME
reads (DEDUCED, log entry 78). -/
def execDecoderStart (decoder : Fin 4) (s : State) : Out :=
  let d := decoder.val
  let dc := s.decoder d
  let f := s.fSyn.getD 0
  match dc.slice, dc.phase with
  | some sl, .holding g =>
    if s.live 5 && s.engineRuns && !s.sampling (slotKey sl.layer sl.col sl.row) g then .next (s.decodeWrite d sl g) else .next s
  | some sl, .gather =>
    if !s.live 5 || !s.engineRuns || !sl.complete then .next s else
    let key := slotKey sl.layer sl.col sl.row
    let e := s.dirAt key
    let e := if e.index = sl.index then e else { index := sl.index }
    let early := !frameLe sl.frame ((f + 1) % 65536)
    let same := (e.gen0.valid && e.gen0.frame == sl.frame) || (e.gen1.valid && e.gen1.frame == sl.frame)
    let older := e.gen0.valid && e.gen1.valid &&
      (let o := if frameLe e.gen0.frame e.gen1.frame then e.gen0.frame else e.gen1.frame
       !frameLt o sl.frame)
    let target := match e.newest with | some n => 1 - n | none => 0
    let live := e.sampled f (s.now + 1) == some target
    if early then .next ((s.bump (Reg.decCnt 6)).dropSlice sl)
    else if same || older || live then .next ((s.bump (Reg.decCnt 5)).dropSlice sl)
    else
      let r := s.jxsReason sl.stream_
      if r.2 ≠ 0 ∧ r.2 ≠ 10 then .next (r.1.rejectSlice sl r.2)
      else if s.sampling key target then .next (s.setDecoder d { dc with phase := .holding target })
      else .next (s.decodeWrite d sl target)
  | _, _ => .next s

/-- DECODER_ASSIGN (R119). -/
def execDecoderAssign (decoder : Fin 4) (s : State) : Out :=
  if s.live 5 then .next (s.decRefill decoder.val) else .next s

/-- FLUSH_ACK (R322): the writes of a decoder have completed; none waits at the decoders' port (14 R313). -/
def execFlushAck (decoder : Fin 4) (s : State) : Out :=
  let dc := s.decoder decoder.val
  match dc.phase with
  | .flushing g => if s.live 26 && !(s.dmc.ports ++ s.dmc.stalled).any (fun r => r.write && r.master == 14) then .next (s.setDecoder decoder.val { dc with phase := .acked g s.now }) else .next s
  | _ => .next s

/-! ## Deadlines (R124, R125) -/

/-- The first affected row r of slice row j of a layer (R124). -/
def State.firstRow (s : State) (e : LayerEntry) (j : Nat) : Nat :=
  let y0 := e.offY + ((4 * e.scale * j : Nat) : Int)
  let y1 := e.offY + ((4 * e.scale * (j + 1) : Nat) : Int)
  let ext := ceilDiv ((e.disparity.natAbs * 2126 : Nat) : Int) 2560000 + 1
  let a := max 0 ((y0 - s.oy * 256) / 256 - ext)
  let b := min 1727 (ceilDiv (y1 - s.oy * 256) 256 - 1 + ext)
  if b < a then 431
  else if a / 432 != b / 432 then 0
  else (a % 432).toNat

/-- The slice's deadline in the frame in synthesis has passed (R124, R125). -/
def State.deadlinePassed (s : State) (e : LayerEntry) (j : Nat) : Bool :=
  s.inFrame && s.firstRow e j < s.rowsBegun

/-- The wall time, in ns, of the start of synthesis of row r of a frame (R124, step 5), from the flips, in ns, that start the
frame and the one before it: slot r - 1 of the frame, slot 447 of the one before for row 0. -/
def rowDeadline (rate prev flip r : Nat) : Nat :=
  if r = 0 then prev + ccNs (slotStartOf rate 447) else flip + ccNs (slotStartOf rate (r - 1))

/-- The wall time, in ns, of the deadline that counts for repair (R124), by the manifest and the footprint in force: in the
frame in synthesis for F_syn, in the next frame for F_syn + 1, already passed for an earlier frame. -/
def State.repairDeadline (s : State) (l idx frame : Nat) : Option Nat :=
  match s.dec.force.bind fun m => m.find l, s.fSyn with
  | some e, some f =>
    let r := s.firstRow e (idx / (max e.gridW 1))
    let rate := s.seq.fixed.getD s.seq.rate
    let next := s.nextFlipT
    if frame % 65536 = f % 65536 then
      if s.seq.done447 then some (rowDeadline rate s.seq.flipWall next r)
      else if r = 0 then some 0
      else some (rowDeadline s.seq.rate 0 s.seq.flipWall r)
    else if frame % 65536 = (f + 1) % 65536 then
      if s.seq.done447 then some (rowDeadline rate next (next + ccNs (ratePeriod rate)) r)
      else some (rowDeadline s.seq.rate s.seq.flipWall next r)
    else if frameLe frame f then some 0
    else none
  | _, _ => none

/-- PUBLISH (R122, R125): 8 cc after the acknowledgement the generation becomes valid. Where another decoder has given the
position another slice index meanwhile, the generation holds a different index than the directory's and counts as not held
(R116). Frames in which the slice was concealed stay counted. -/
def execPublish (decoder : Fin 4) (s : State) : Out :=
  let d := decoder.val
  let dc := s.decoder d
  match dc.slice, dc.phase with
  | some sl, .acked g t =>
    if s.live 5 && s.engineRuns && t + 8 ≤ s.now then
      let key := slotKey sl.layer sl.col sl.row
      let e := s.dirAt key
      let cur := match s.fSyn with | some f => f % 65536 == sl.frame | none => false
      let past := match s.fSyn with | some f => frameLt sl.frame f | none => false
      let late := past || (cur && match s.boundLayer sl.layer with
        | some le => s.deadlinePassed le sl.row
        | none => false)
      let e := if e.index = sl.index then
          { e.setGen g { frame := sl.frame, valid := true, at_ := s.now } with seen := true, expired := e.expired && !cur }
        else e
      let s := ((s.setDir key e).setDecoder d {}).bump (Reg.decCnt 0)
      let lo := s.slotAddr key g / 64
      let s := s.dropCached fun x => lo ≤ x.line && x.line < lo + 1536
      .next (if late then s.bump (Reg.decCnt 7) else s)
    else .next s
  | _, _ => .next s

/-- SLICE_DEADLINE (R125): concealment and expiry, once per frame and slice position. -/
def execSliceDeadline (layer : Fin 16) (col : Fin 1024) (row : Fin 1024) (s : State) : Out :=
  match s.boundLayer layer.val, s.fSyn with
  | some le, some f =>
    let key := slotKey layer.val col.val row.val
    let e := s.dirAt key
    if s.live 5 && s.needed le col.val row.val && e.index == row.val * le.gridW + col.val && e.seen
        && s.deadlinePassed le row.val && !e.judged then
      let mine := match e.sampled f s.now with
        | some g => (e.gen g).frame % 65536 == f % 65536
        | none => false
      if mine then .next (s.setDir key { e with judged := true, runs := 0, expired := false, told := false })
      else
        let cmax := s.fld Reg.decCtrl 15 8
        let expire := decide (cmax ≠ 0 ∧ cmax < e.runs + 1)
        let s := s.setDir key { e with judged := true, runs := e.runs + 1, expired := e.expired || expire,
                                       told := e.told || expire }
        let s := (s.bump (Reg.decCnt 8)).event 99
        .next (if expire && !e.told then s.event 100 else s)
    else .next s
  | _, _ => .next s

/-- A new frame comes into synthesis: its deadlines are open again. -/
def State.openDeadlines (s : State) : State :=
  { s with dec := { s.dec with dir := s.dec.dir.map fun p => (p.1, { p.2 with judged := false }) } }

/-- Slices being decoded or written at the flip of a mode switch are abandoned (R122). -/
def State.abandonDecoding (s : State) : State :=
  (List.range 4).foldl (fun s d =>
    match (s.decoder d).slice, (s.decoder d).phase with
    | some _, .gather => s
    | some _, _ => (s.setDecoder d {}).bump (Reg.decCnt 2)
    | none, _ => s) s

/-! ## Direct-ray blocks (R126) -/

/-- The lenslets of one run: values from position i of the blocks. -/
def runTargets (bs : List (BitVec 64)) (u v n fmt : Nat) (i : Nat) : List RayTarget :=
  (List.range n).map fun k =>
    let vals := if fmt = 0 then (List.range 100).map fun j => (bs.getD (i + 100 * k + j) 0).truncate 60
      else [(bs.getD (i + k) 0).truncate 60]
    { tile := 4 * (v / 432) + u / 768, u := u % 768 + k, v := v % 432, rays := vals }

/-- The runs from block i on: their lenslets, or none where a run breaks R126 or does not end at the last block. -/
def parseRuns (bs : List (BitVec 64)) : Nat → Nat → Option (List RayTarget)
  | 0, i => if i = bs.length then some [] else none
  | n + 1, i =>
    let u := blkBits bs i 11 0
    let v := blkBits bs i 26 16
    let cnt := blkBits bs i 39 32
    let fmt := blkBits bs i 41 40
    let size := if fmt = 0 then 100 * cnt else cnt
    if cnt = 0 || 64 < cnt || 2 ≤ fmt || 3071 < u || 768 < u % 768 + cnt || 1727 < v || bs.length < i + 1 + size then none
    else
      match parseRuns bs n (i + 1 + size) with
      | some rest => some (runTargets bs u v cnt fmt (i + 1) ++ rest)
      | none => none

/-- A lenslet named twice takes its last values: earlier mentions go. -/
def dedupTargets : List RayTarget → List RayTarget
  | [] => []
  | t :: ts =>
    let rest := dedupTargets ts
    if rest.any fun r => r.tile == t.tile && r.u == t.u && r.v == t.v then rest else t :: rest

/-- A delivered DIRECT_RAY block (R126); t_A is in cc (R46). -/
def State.directRayPacket (s : State) (bs : List (BitVec 64)) (tA : Nat) : State :=
  let n := blkBits bs 0 23 16
  if n = 0 || 64 < n then s.bump (Reg.decCnt 10) else
  match parseRuns bs n 1 with
  | none => s.bump (Reg.decCnt 10)
  | some ts =>
    let same := match s.dec.emitFrame with | some f => f % 65536 == blkBits bs 0 15 0 | none => false
    if !same then s.bump (Reg.decCnt 11)
    else { s with dec := { s.dec with express := s.dec.express ++ [⟨tA, s.seq.frame, dedupTargets ts⟩] } }

/-! ## Registers -/

/-- DEC_STORE_WRITE (R116): a base outside 64 to 105 changes nothing; a new base invalidates every generation. -/
def State.decStoreWrite (s : State) (v : Word) : State :=
  let base := bits v.toNat 6 0
  if base < 64 || 105 < base then s
  else
    let old := s.fld Reg.decStore 6 0
    let s := s.store Reg.decStore v
    if s.fld Reg.decStore 6 0 = old then s else s.invalidateAll

/-- DEC_STORE_WRITE (R116). -/
def execDecStoreWrite (b : BusWrite) (s : State) : Out :=
  .next (s.busWrite Reg.decStore b State.decStoreWrite)

/-- DEC_CNT_CLR (R80). -/
def State.decCntClr (s : State) (v : Word) : State :=
  if v.getLsbD 0 then s.clrRegs (Reg.decCnt 0) 12 else s

/-- DEC_CNT_CLR (R80). -/
def execDecCntClr (b : BusWrite) (s : State) : Out :=
  .next (s.busWrite Reg.decCntClr b State.decCntClr)

end Sys2Proof.Machine
end

