-- ==== Sys2Proof/Machine/Floats.lean ====
section
/-!
DEFINITION. The number formats of 07: IEEE 754 binary32 and binary16 with subnormals, the unsigned float UF20 (R154,
R155), and exact arithmetic with one rounding (R138, R139, R152). A float is taken apart into an exact value, computed
with exactly, and rounded once.
-/
namespace Sys2Proof.Machine

/-- The rounding modes of VCVT (R166); nearest-even everywhere else. -/
inductive Rounding where
  | nearest | zero | down | up
  deriving DecidableEq, Repr

/-- A binary format: precision p (bits of significand), least exponent of the last place, exponent field width; unsigned
formats have neither sign nor infinity nor NaN. -/
structure FloatFmt where
  p : Nat
  qmin : Int
  ebits : Nat
  signed : Bool

def binary32 : FloatFmt := ⟨24, -149, 8, true⟩
def binary16 : FloatFmt := ⟨11, -24, 5, true⟩
def uf20 : FloatFmt := ⟨15, -61, 6, false⟩

/-- The value of a float: NaN, an infinity, or (-1)^neg × m × 2^e. -/
inductive FVal where
  | nan
  | inf (neg : Bool)
  | fin (neg : Bool) (m : Nat) (e : Int)
  deriving DecidableEq, Repr

/-- Width of a format without its sign. -/
def FloatFmt.width (f : FloatFmt) : Nat := f.ebits + f.p - 1

/-- Take a word apart. -/
def unpackF (f : FloatFmt) (n : Nat) : FVal :=
  let frac := n % 2 ^ (f.p - 1)
  let ex := n / 2 ^ (f.p - 1) % 2 ^ f.ebits
  let neg := f.signed && (n / 2 ^ f.width) % 2 == 1
  if f.signed && ex == 2 ^ f.ebits - 1 then (if frac = 0 then .inf neg else .nan)
  else if ex = 0 then .fin neg frac f.qmin
  else .fin neg (frac + 2 ^ (f.p - 1)) (f.qmin + (ex : Int) - 1)

def nanF (f : FloatFmt) : Nat := if f.signed then (2 ^ f.ebits - 1) * 2 ^ (f.p - 1) + 2 ^ (f.p - 2) else 0

def signF (f : FloatFmt) (neg : Bool) : Nat := if neg && f.signed then 2 ^ f.width else 0

def infF (f : FloatFmt) (neg : Bool) : Nat :=
  if f.signed then signF f neg + (2 ^ f.ebits - 1) * 2 ^ (f.p - 1) else 2 ^ f.width - 1

/-- Largest finite word of a format. -/
def maxF (f : FloatFmt) (neg : Bool) : Nat := if f.signed then infF f neg - 1 else 2 ^ f.width - 1

/-- Integer part q of n / d rounded by a mode; `neg` is the sign of the whole value. -/
def roundQuot (r : Rounding) (neg : Bool) (n d : Nat) : Nat :=
  let q := n / d
  let rem := n % d
  if rem = 0 then q
  else match r with
    | .nearest => if 2 * rem < d then q else if d < 2 * rem then q + 1 else if q % 2 = 0 then q else q + 1
    | .zero => q
    | .down => if neg then q + 1 else q
    | .up => if neg then q else q + 1

/-- n / d × 2^e as a pair of naturals. -/
def scaleRat (n d : Nat) (e : Int) : Nat × Nat :=
  if 0 ≤ e then (n * 2 ^ e.toNat, d) else (n, d * 2 ^ (-e).toNat)

/-- The exponent l with 2^l ≤ n / d < 2^(l + 1), for n, d > 0. -/
def ilog2Rat (n d : Nat) : Int :=
  let l : Int := (Nat.log2 n : Int) - (Nat.log2 d : Int)
  let s := scaleRat n d (-l)
  if s.1 < s.2 then l - 1 else l

/-- Round (-1)^neg × n / d × 2^e into a format, once. -/
def roundF (f : FloatFmt) (r : Rounding) (neg : Bool) (n d : Nat) (e : Int) : Nat :=
  if n = 0 then signF f neg
  else
    let l := ilog2Rat n d + e
    let q := max (l - (f.p - 1 : Nat)) f.qmin
    let s := scaleRat n d (e - q)
    let m := roundQuot r neg s.1 s.2
    let q' := if m = 2 ^ f.p then q + 1 else q
    let m' := if m = 2 ^ f.p then 2 ^ (f.p - 1) else m
    let w := m' + (q' - f.qmin).toNat * 2 ^ (f.p - 1)
    let top := if f.signed then (2 ^ f.ebits - 1) * 2 ^ (f.p - 1) else 2 ^ f.width
    if top ≤ w then
      (match r, neg with
        | .nearest, _ => infF f neg
        | .zero, _ => maxF f neg
        | .down, true => infF f neg
        | .down, false => maxF f neg
        | .up, true => maxF f neg
        | .up, false => infF f neg)
    else signF f neg + w

/-- Round an exact value into a format. -/
def packF (f : FloatFmt) (r : Rounding) : FVal → Nat
  | .nan => nanF f
  | .inf neg => infF f neg
  | .fin neg m e => roundF f r neg m 1 e

def FVal.isNan : FVal → Bool
  | .nan => true
  | _ => false

def FVal.isNeg : FVal → Bool
  | .nan => false
  | .inf n => n
  | .fin n _ _ => n

def FVal.isZero : FVal → Bool
  | .fin _ m _ => m == 0
  | _ => false

def FVal.neg : FVal → FVal
  | .nan => .nan
  | .inf n => .inf (!n)
  | .fin n m e => .fin (!n) m e

def FVal.abs : FVal → FVal
  | .nan => .nan
  | .inf _ => .inf false
  | .fin _ m e => .fin false m e

/-- Signed significand. -/
def sgnd (neg : Bool) (m : Nat) : Int := if neg then -(m : Int) else (m : Int)

/-- Exact sum; a zero sum of opposite signs is +0 (round to nearest). -/
def FVal.add : FVal → FVal → FVal
  | .nan, _ => .nan
  | _, .nan => .nan
  | .inf a, .inf b => if a = b then .inf a else .nan
  | .inf a, .fin _ _ _ => .inf a
  | .fin _ _ _, .inf b => .inf b
  | .fin na ma ea, .fin nb mb eb =>
    let e := min ea eb
    let s := sgnd na (ma * 2 ^ (ea - e).toNat) + sgnd nb (mb * 2 ^ (eb - e).toNat)
    if s = 0 then .fin (na && nb) 0 e else .fin (decide (s < 0)) s.natAbs e

/-- Exact product. -/
def FVal.mul : FVal → FVal → FVal
  | .nan, _ => .nan
  | _, .nan => .nan
  | .inf a, .inf b => .inf (a != b)
  | .inf a, .fin nb mb _ => if mb = 0 then .nan else .inf (a != nb)
  | .fin na ma _, .inf b => if ma = 0 then .nan else .inf (na != b)
  | .fin na ma ea, .fin nb mb eb => .fin (na != nb) (ma * mb) (ea + eb)

/-- Order of two values that are not NaN: less than. -/
def FVal.lt : FVal → FVal → Bool
  | .nan, _ => false
  | _, .nan => false
  | .inf a, .inf b => a && !b
  | .inf a, .fin _ _ _ => a
  | .fin _ _ _, .inf b => !b
  | .fin na ma ea, .fin nb mb eb =>
    let e := min ea eb
    decide (sgnd na (ma * 2 ^ (ea - e).toNat) < sgnd nb (mb * 2 ^ (eb - e).toNat))

def FVal.eq : FVal → FVal → Bool
  | .nan, _ => false
  | _, .nan => false
  | .inf a, .inf b => a == b
  | .inf _, .fin _ _ _ => false
  | .fin _ _ _, .inf _ => false
  | .fin na ma ea, .fin nb mb eb =>
    let e := min ea eb
    decide (sgnd na (ma * 2 ^ (ea - e).toNat) = sgnd nb (mb * 2 ^ (eb - e).toNat))

def fAdd (f : FloatFmt) (a b : Nat) : Nat := packF f .nearest ((unpackF f a).add (unpackF f b))
def fSub (f : FloatFmt) (a b : Nat) : Nat := packF f .nearest ((unpackF f a).add (unpackF f b).neg)
def fMul (f : FloatFmt) (a b : Nat) : Nat := packF f .nearest ((unpackF f a).mul (unpackF f b))
/-- Fused a × b + c, one rounding (R152). -/
def fFma (f : FloatFmt) (a b c : Nat) : Nat :=
  packF f .nearest (((unpackF f a).mul (unpackF f b)).add (unpackF f c))

/-- The operand that is not NaN, else the least or greatest; between zeros of unlike sign the spec gives no order, and a
free value `tie` chooses (DEDUCED, log entry 10). -/
def fMinMax (f : FloatFmt) (isMin tie : Bool) (a b : Nat) : Nat :=
  let x := unpackF f a
  let y := unpackF f b
  if x.isNan then (if y.isNan then nanF f else b)
  else if y.isNan then a
  else if x.isZero && y.isZero && a != b then (if tie then a else b)
  else if x.lt y == isMin then a else b

/-- Negation and absolute value act on the sign; a NaN becomes the canonical NaN (R164). -/
def fNeg (f : FloatFmt) (a : Nat) : Nat := packF f .nearest (unpackF f a).neg
def fAbs (f : FloatFmt) (a : Nat) : Nat := packF f .nearest (unpackF f a).abs

/-- Integer square root, bit by bit from bit k - 1 down. -/
def isqrtBits (n : Nat) : Nat → Nat → Nat
  | 0, r => r
  | k + 1, r =>
    let r' := r + 2 ^ k
    isqrtBits n k (if r' * r' ≤ n then r' else r)

/-- Floor of the square root. -/
def isqrt (n : Nat) : Nat := isqrtBits n (Nat.log2 n / 2 + 1) 0

/-- RN(1 / A) (R165). -/
def fRcp (f : FloatFmt) (a : Nat) : Nat :=
  match unpackF f a with
  | .nan => nanF f
  | .inf n => signF f n
  | .fin n m e => if m = 0 then infF f n else roundF f .nearest n 1 m (-e)

/-- RN(√A) (R165): the root to 64 places with a sticky bit, then one rounding. -/
def fSqrt (f : FloatFmt) (a : Nat) : Nat :=
  match unpackF f a with
  | .nan => nanF f
  | .inf n => if n then nanF f else infF f false
  | .fin n m e =>
    if m = 0 then signF f n
    else if n then nanF f
    else
      let e' := if e % 2 = 0 then e else e - 1
      let m' := (if e % 2 = 0 then m else 2 * m) * 2 ^ 128
      let r := isqrt m'
      roundF f .nearest false (2 * r + (if r * r = m' then 0 else 1)) 1 (e' / 2 - 65)

/-- RN(1 / √A) (R165). -/
def fRsq (f : FloatFmt) (a : Nat) : Nat :=
  match unpackF f a with
  | .nan => nanF f
  | .inf n => if n then nanF f else 0
  | .fin n m e =>
    if m = 0 then infF f n
    else if n then nanF f
    else
      let e' := if e % 2 = 0 then e else e - 1
      let m' := if e % 2 = 0 then m else 2 * m
      let x := 2 ^ 256 / m'
      let r := isqrt x
      roundF f .nearest false (2 * r + (if r * r * m' = 2 ^ 256 then 0 else 1)) 1 (-(e' / 2) - 129)

/-- Round a value to an integer. -/
def FVal.toInt (r : Rounding) : FVal → Int
  | .nan => 0
  | .inf _ => 0
  | .fin n m e =>
    let s := scaleRat m 1 e
    sgnd n (roundQuot r n s.1 s.2)

/-- Largest integer value not above A (R165). -/
def fFloor (f : FloatFmt) (a : Nat) : Nat :=
  match unpackF f a with
  | .nan => nanF f
  | .inf n => infF f n
  | .fin n m e =>
    if 0 ≤ e || m = 0 then a % 2 ^ (f.width + 1)
    else
      let v := FVal.toInt .down (.fin n m e)
      roundF f .nearest (n && v != 0) v.natAbs 1 0

/-- Clamp to 0.0 to 1.0, NaN to 0.0 (R165). -/
def fSat (f : FloatFmt) (a : Nat) : Nat :=
  let x := unpackF f a
  if x.isNan || x.isNeg || x.isZero then 0
  else if (FVal.fin false 1 0).lt x then roundF f .nearest false 1 1 0 else a

/-- Convert a value to an integer of a range, saturating; NaN gives 0 (R166). -/
def FVal.toIntSat (r : Rounding) (lo hi : Int) (scale : Int) : FVal → Int
  | .nan => 0
  | .inf n => if n then lo else hi
  | .fin n m e =>
    let v := FVal.toInt r (.fin n m (e + scale))
    if v < lo then lo else if hi < v then hi else v

/-- F32 word to UF20 (R155): NaN, zeros and negatives give 0, the rest round; too large gives 0xF_FFFF. -/
def toUf20 (r : Rounding) (v : FVal) : Nat :=
  match v with
  | .nan => 0
  | .inf n => if n then 0 else 2 ^ 20 - 1
  | .fin n m e => if n || m = 0 then 0 else roundF uf20 r false m 1 e

end Sys2Proof.Machine
end

