-- ==== Sys2Proof/Machine/Chart.lean ====
section
/-!
DEFINITION. Ray arithmetic (06 R133 to R139; 09 R211): chart interpolation, the ray-to-layer mapping, taps, sample values
and the stack of a row.
-/
namespace Sys2Proof.Machine

/-! ## Nominal slopes and the chart -/

/-- S[10] to S[19] (Table SYN-4). -/
def slopesS : List Int := [859, 2595, 4390, 6289, 8348, 10640, 13268, 16384, 20233, 25229]

def slopeS (i : Nat) : Int := if 10 ≤ i then slopesS.getD (i - 10) 0 else -(slopesS.getD (9 - i) 0)

/-- T[0] to T[4]. -/
def slopeT (i : Nat) : Int := [-3483, -1722, 0, 1722, 3483].getD i 0

/-- The signed 16-bit field at bit lo of a node word (Table PLC-1). -/
def nodeField (n : BitVec 64) (lo : Nat) : Int := sext 16 (n.toNat >>> lo)

/-- Node index (R209). -/
def nodeIndex (tile i j : Nat) : Nat := 5335 * tile + 97 * j + i

/-- One interpolated correction of a lenslet (R211). -/
def chartField (m : SMap (BitVec 64)) (tile u v lo : Nat) : Int :=
  let i := u / 8
  let a := u % 8
  let j := v / 8
  let b := v % 8
  let f (i j : Nat) : Int := nodeField (SMap.get (fun _ => 0) m (nodeIndex tile i j)) lo
  (((8 - a) * (8 - b) : Nat) * f i j + (a * (8 - b) : Nat) * f (i + 1) j
    + ((8 - a) * b : Nat) * f i (j + 1) + (a * b : Nat) * f (i + 1) (j + 1) + 32) / 64

/-- Δu, Δv, Δσ, Δτ of a tile's lenslet. -/
def chartAt (m : SMap (BitVec 64)) (tile u v : Nat) : Int × Int × Int × Int :=
  (chartField m tile u v 0, chartField m tile u v 16, chartField m tile u v 32, chartField m tile u v 48)

/-- The correction stage reads the chart this many cycles after t_A: the receive and unpack stages of 02 Table ARC-4. -/
def corrDelay : Nat := 56

/-- A target whose correction has not been read takes R211's interpolation of the active copy (02 R42, R212). -/
def State.correctTarget (s : State) (t : RayTarget) : RayTarget :=
  if t.corr.isSome then t else { t with corr := some (chartAt s.plc.active t.tile t.u t.v) }

/-- Direct-ray blocks whose correction stage has read by now take their corrections from the copy that is active. What the
corrections do to finished ray values the spec does not give: 11 R257 finishes the values as the block carries them, and so
does the model (DESIGN CHOICE, log entry 89). -/
def State.correctExpress (s : State) : State :=
  { s with dec := { s.dec with express := s.dec.express.map fun x =>
      if x.at_ + corrDelay ≤ s.now then { x with targets := x.targets.map s.correctTarget } else x } }

/-! ## The stack (R133, Table SYN-3) -/

def layerStack (e : LayerEntry) : StackEntry :=
  { id := e.layer, plane := false, premul := e.premul, sheddable := e.sheddable, z := e.z, alpha := e.alpha,
    scale := e.scale, disparity := e.disparity, offX := e.offX, offY := e.offY, gridW := e.gridW, gridH := e.gridH,
    base := 0, fmt := 0 }

/-- The stack entry of plane p with its front surface (R366). -/
def planeStack (p : Nat) (c : PlaneCfg) (sel : Bool) (ox oy : Int) : StackEntry :=
  { id := p, plane := true, premul := c.premul, sheddable := c.sheddable, z := c.z, alpha := c.alpha, scale := 0x1000,
    disparity := c.disparity, offX := 256 * ox, offY := 256 * oy, gridW := 12, gridH := 27,
    base := if sel then c.baseB else c.baseA, fmt := c.fmt }

/-- e stands before f (05, the manifest): smaller Z, layers before planes, lower number. -/
def stackBefore (e f : StackEntry) : Bool :=
  if e.z != f.z then e.z < f.z
  else if e.plane != f.plane then f.plane
  else e.id < f.id

def stackInsert (e : StackEntry) : List StackEntry → List StackEntry
  | [] => [e]
  | f :: fs => if stackBefore e f then e :: f :: fs else f :: stackInsert e fs

/-- The bound layers and enabled planes, front to back, shed or not. -/
def State.fullStack (s : State) : List StackEntry :=
  let ls := ((List.range 16).filterMap s.boundLayer).map layerStack
  let ps := (List.range 4).filterMap fun p =>
    let c := s.blt.planes.getD p {}
    if c.en && c.fmt != 3 then some (planeStack p c (s.blt.sel.getLsbD p) s.ox s.oy) else none
  (ls ++ ps).foldl (fun st e => stackInsert e st) []

/-- Thermal stage 2 (19). -/
def State.thmStage (s : State) : Nat := s.fld Reg.thmStatus 27 26

/-- An entry is shed: by R141, or by thermal stage 2 (R142). -/
def State.isShed (s : State) (e : StackEntry) : Bool :=
  s.syn.shed.contains (e.plane, e.id) || (e.sheddable && s.thmStage == 2)

/-- The stack of a row that starts now. -/
def State.rowStack (s : State) : List StackEntry := s.fullStack.filter fun e => !s.isShed e

/-- HR_SHED (Late rows, shedding and repeats). -/
def State.shedWord (s : State) : Nat :=
  s.fullStack.foldl (fun w e => if s.isShed e then w ||| 2 ^ ((if e.plane then 16 else 0) + e.id) else w)
    (bnat (s.thmStage == 2) * 2 ^ 31)
  ||| (s.syn.shed.foldl (fun w p => w ||| 2 ^ ((if p.1 then 16 else 0) + p.2)) 0)

/-- The eight words of a stack-table entry. -/
def stackWords (e : StackEntry) : List Word :=
  [word (e.id + bnat e.plane * 16 + bnat e.premul * 32 + bnat e.sheddable * 64 + e.z * 256 + e.alpha * 2 ^ 16),
   word (e.scale % 65536 + toBits 16 e.disparity * 2 ^ 16), word (toBits 32 e.offX), word (toBits 32 e.offY),
   word (e.gridW + e.gridH * 2 ^ 16), 0, 0, 0]

/-! ## Taps and samples (R135, R136, R138) -/

/-- The sample point of R135: i0, fx, j0, fy. -/
def samplePoint (e : StackEntry) (px py sg ta : Int) : Int × Nat × Int × Nat :=
  let xw := px + (e.disparity * sg + 512) / 1024
  let yw := py + (e.disparity * ta + 512) / 1024
  let x := 256 * (xw - 16 * e.offX) / (e.scale : Int) - 128
  let y := 256 * (yw - 16 * e.offY) / (e.scale : Int) - 128
  (x / 256, (x % 256).toNat, y / 256, (y % 256).toNat)

/-- Centre of texel i on an axis, in 1/8192 wall texel. -/
def centre8192 (off : Int) (scale : Nat) (i : Int) : Int := 32 * off + (scale : Int) * (2 * i + 1)

/-- The tap's centre lies in the footprint and the wall range (R29, R136). -/
def inFootprint (b : RowLatch) (e : StackEntry) (i j : Int) : Bool :=
  let x := centre8192 e.offX e.scale i
  let y := centre8192 e.offY e.scale j
  let m : Int := b.margin
  let lim : Int := 8388608 * 8192
  (b.ox - m) * 8192 ≤ x && x < (b.ox + 3072 + m) * 8192 && (b.oy - m) * 8192 ≤ y && y < (b.oy + 1728 + m) * 8192
    && -lim ≤ x && x < lim && -lim ≤ y && y < lim

/-- Device address and bytes of a tap's texel, or none for a transparent tap (R136, R366); slices stand as they stood when the
row's synthesis began (R41). -/
def tapAddr (b : RowLatch) (e : StackEntry) (i j : Int) : Option (Nat × Nat) :=
  if i < 0 || j < 0 || 256 * (e.gridW : Int) ≤ i || 64 * (e.gridH : Int) ≤ j then none
  else if e.plane then
    let n := if e.fmt = 0 then 4 else if e.fmt = 1 then 3 else 2
    some (e.base + (3072 * j.toNat + i.toNat) * n, n)
  else if !inFootprint b e i j then none
  else
    let col := i.toNat / 256
    let row := j.toNat / 64
    let key := slotKey e.id col row
    let d : DirEntry := SMap.get (fun _ => {}) b.dir key
    match b.fsyn with
    | none => none
    | some f =>
      if d.index != row * e.gridW + col || d.dark f then none else
      match d.sampled f b.at_ with
      | none => none
      | some g =>
        let n := if b.latency then 5 else 6
        some (b.base + (2 * key + g) * 98304 + (j.toNat % 64 * 256 + i.toNat % 256) * n, n)

/-- Components R, G, B, A of a texel's bytes, in the format of its source (Tables DEC-3, BLT-1). -/
def texelParts (b : RowLatch) (e : StackEntry) (v : Nat) : List Nat :=
  let cut (w : Nat) : List Nat := (List.range 4).map fun k => v / 2 ^ (w * k) % 2 ^ w
  if e.plane then
    if e.fmt = 0 then cut 8
    else if e.fmt = 1 then (cut 8).take 3 ++ [255]
    else cut 4
  else cut (if b.latency then 10 else 12)

/-- m of R138. -/
def texelMax (b : RowLatch) (e : StackEntry) : Nat :=
  if e.plane then (if e.fmt = 2 then 15 else 255) else if b.latency then 1023 else 4095

/-- A line as a Homeroom's sampler cache holds it. -/
def State.cached (s : State) (hr ln : Nat) : Option (List Byte) :=
  ((SMap.get (fun _ => []) s.syn.cache hr).find? fun x => x.line == ln).map (·.bytes)

/-- A line enters a Homeroom's cache of 16,384 lines; from a full cache a line that a free value names leaves (DESIGN CHOICE, log
entry 100). -/
def State.cacheFill (s : State) (hr : Nat) (x : CacheLine) : State :=
  let c := SMap.get (fun _ => []) s.syn.cache hr
  let k := (Config.freeWord s.draws 0).toNat % 16384
  let s := if c.length < 16384 then s else s.drawn
  let c := (if c.length < 16384 then c else c.eraseIdx k) ++ [x]
  { s with syn := { s.syn with cache := SMap.put (fun _ => []) s.syn.cache hr c } }

/-- A sampler reads a line: from its cache, else from the scene group, which counts a miss (R128). A read that ends in an error
response gives none and stays out of the cache (R310, R319, R327). -/
def State.sampleLine (s : State) (hr : Nat) (plane : Bool) (ln : Nat) : State × Option (List Byte) :=
  match s.cached hr ln with
  | some bs => (s, some bs)
  | none =>
    let r := (s.bump (Reg.hrCnt hr 3)).devRead (2 + hr) (64 * ln) 64
    if r.2.2 then (r.1.cacheFill hr ⟨ln, plane, r.2.1⟩, some r.2.1) else (r.1, none)

/-- Read one tap: its components; a read that fails reads as zero. -/
def State.tap (s : State) (hr : Nat) (b : RowLatch) (e : StackEntry) (i j : Int) : State × List Nat :=
  match tapAddr b e i j with
  | none => (s, [0, 0, 0, 0])
  | some (a, n) =>
    let x := s.sampleLine hr e.plane (a / 64)
    let y := if a / 64 = (a + n - 1) / 64 then (x.1, some []) else x.1.sampleLine hr e.plane (a / 64 + 1)
    match x.2, y.2 with
    | some l, some h => (y.1, texelParts b e (leAt (l ++ h) (a % 64) n))
    | _, _ => (y.1, [0, 0, 0, 0])

/-- R, G, B, A of a sample as binary32 words (R138): one rounding each. -/
def sampleOf (premul : Bool) (m la : Nat) (ws : List Nat) (taps : List (List Nat)) : List Word :=
  let sum (f : List Nat → Nat) : Nat := (List.zipWith (fun w t => w * f t) ws taps).foldl (· + ·) 0
  let rn (n d : Nat) : Word := word (roundF binary32 .nearest false n d 0)
  let alpha (t : List Nat) : Nat := t.getD 3 0
  let c (k : Nat) : Word :=
    if premul then rn (sum (fun t => min (t.getD k 0) (alpha t)) * la) (65536 * m * 65535)
    else rn (sum (fun t => t.getD k 0)) (65536 * m)
  [c 0, c 1, c 2, rn (sum alpha * la) (65536 * m * 65535)]

/-- The texels that a ray's four taps read. -/
def rayTaps (b : RowLatch) (e : StackEntry) (px py sg ta : Word) : List (Nat × Nat) :=
  let pt := samplePoint e (px.toInt + 4096 * b.ox) (py.toInt + 4096 * b.oy) sg.toInt ta.toInt
  [(0, 0), (1, 0), (0, 1), (1, 1)].filterMap fun d => tapAddr b e (pt.1 + d.1) (pt.2.2.1 + d.2)

/-- SMP in one lane (R173): coordinates relative to the footprint origin. -/
def State.sampleRay (s : State) (hr : Nat) (b : RowLatch) (e : StackEntry) (px py sg ta : Word) : State × List Word :=
  let pt := samplePoint e (px.toInt + 4096 * b.ox) (py.toInt + 4096 * b.oy) sg.toInt ta.toInt
  let i := pt.1
  let fx := pt.2.1
  let j := pt.2.2.1
  let fy := pt.2.2.2
  let t0 := s.tap hr b e i j
  let t1 := t0.1.tap hr b e (i + 1) j
  let t2 := t1.1.tap hr b e i (j + 1)
  let t3 := t2.1.tap hr b e (i + 1) (j + 1)
  (t3.1, sampleOf e.premul (texelMax b e) e.alpha
    [(256 - fx) * (256 - fy), fx * (256 - fy), (256 - fx) * fy, fx * fy] [t0.2, t1.2, t2.2, t3.2])

/-- Θ (Composition). -/
def theta : Nat := 0x3F7FBE77

/-- The blend of R139: accumulators Ca (three) and Aa, sample C (three) and A. -/
def blendLane (straight : Bool) (acc smp : List Nat) : List Nat :=
  let aa := acc.getD 3 0
  if !((unpackF binary32 aa).lt (unpackF binary32 theta)) && !(unpackF binary32 aa).isNan then acc
  else
    let k := fSub binary32 0x3F800000 aa
    let as := smp.getD 3 0
    let col (i : Nat) : Nat :=
      let cs := if straight then fMul binary32 (smp.getD i 0) as else smp.getD i 0
      fFma binary32 k cs (acc.getD i 0)
    [col 0, col 1, col 2, fFma binary32 k as aa]

end Sys2Proof.Machine
end

