-- ==== Sys2Proof/Machine/Sequencer.lean ====
section
/-!
DEFINITION. The Timetable sequencer (08): its instructions, what completes a waiting one, faults, the dispatch and message
queues, and the registers with a row of their own. COMMIT, RDSR and what a flip or slot 447 does to the sequencer need the
chapters on the blitter, finishing and the tile link and stand in Frame.lean.
-/
namespace Sys2Proof.Machine

/-! ## Registers and faults -/

def State.tReg (s : State) (i : Nat) : Nat := (SMap.get (fun _ => 0) s.seq.t i).toNat

def State.setT (s : State) (i v : Nat) : State :=
  { s with seq := { s.seq with t := SMap.put (fun _ => 0) s.seq.t i (word v) } }

/-- The sequencer halts on a fault (R189): the program counter stays, the cause is latched. -/
def State.seqFault (s : State) (cause : Nat) : State :=
  let s := ((s.setFld Reg.seqStatus 7 0 cause).setFlag Reg.seqStatus 29).event 109
  { s with seq := { s.seq with st := .halted } }

/-- The fields of Table TMT-1 that an instruction uses: its opcode, D, A, B, C, the BSEL values it allows, its MOD bits, IMM16. -/
structure TShape where
  opc : BitVec 8
  d : Bool := false
  a : Bool := false
  b : Bool := false
  c : Bool := false
  bsels : List Nat := [0]
  mod : Nat := 0
  imm : Bool := false
  deriving DecidableEq, Repr

/-- A register field: a T register where used, else 0 (R185). -/
def tField (used : Bool) (f : BitVec 6) : Bool := if used then f.toNat ≤ 15 else f == 0

/-- The instruction word meets R185 for its shape. -/
def TShape.ok (p : TShape) (w : SlateWord) : Bool :=
  p.opc == w.opc && w.ty == 0 && w.pg == 0 && !w.pn && tField p.d w.d && tField p.a w.a && tField p.c w.c
    && p.bsels.contains w.bsel.toNat && w.bsel != 1
    && tField (p.b && w.bsel == 0) w.b
    && w.ext == (w.bsel == 3) && (!w.ext || w.immHigh == 0)
    && (w.mod.toNat &&& (63 - p.mod)) == 0
    && (p.imm || (p.b && w.bsel == 2) || w.imm16 == 0)

/-- The value BSEL selects (R185). -/
def State.tB (s : State) (w : SlateWord) : Nat :=
  if w.bsel = 0 then s.tReg w.b.toNat else if w.bsel = 2 then w.imm16.toNat else w.imm32.toNat

/-- The sequencer can issue: out of reset, EN, running. -/
def State.seqRunning (s : State) : Bool := s.live 18 && s.flag Reg.seqCtrl 0 && s.seq.st == .running

/-- The address after an instruction. -/
def State.seqNext (s : State) (w : SlateWord) : Nat := s.seq.pc + (if w.ext then 16 else 8)

def State.seqPc (s : State) (pc : Nat) : State := { s with seq := { s.seq with pc := pc } }

def State.seqSt (s : State) (st : SeqSt) : State := { s with seq := { s.seq with st := st } }

/-- The opcodes of Table TMT-1. -/
def slateTOpcode (c : Nat) : Bool := 0xC0 ≤ c && c ≤ 0xD1

/-- What the check of its form sees of an instruction: an extension word past program memory is not fetched. -/
def State.seqSeen (s : State) (w : SlateWord) : SlateWord := if 65536 < s.seqNext w then { w with immHigh := 0 } else w

/-- Issue of an instruction (R185, R186, R189, 14 Table MEM-7): a fetch past program memory is BRANCH, an opcode, a shape or an
operand the tables do not allow is ILLEGAL; else its effect `f` runs with the program counter at the next instruction. A word with
the opcode of another instruction is not this one's event. -/
def State.seqIssue (s : State) (p : TShape) (w : SlateWord) (bad : Bool) (f : State → State) : Out :=
  if s.seqRunning then
    if 65536 < s.seq.pc + 8 then .next (s.seqFault 4)
    else if w.opc != p.opc && slateTOpcode w.opc.toNat then .next s
    else if !p.ok (s.seqSeen w) || bad || (s.seq.bad.any fun x => s.seq.pc / 8 ≤ x && x < s.seqNext w / 8) then
      .next (s.seqFault 1)
    else if 65536 < s.seqNext w then .next (s.seqFault 4)
    else .next (f (s.seqPc (s.seqNext w)))
  else .next s

/-- A waiting instruction begins to wait; the program counter stays at it. -/
def State.seqWait (s : State) (at_ : Nat) (x : SeqWait) : State := (s.seqPc at_).seqSt (.waiting x)

/-- A waiting instruction has completed (R186); none of them has an extension word. -/
def State.seqDone (s : State) : State := (s.seqPc (s.seq.pc + 8)).seqSt .running

/-! ## Arithmetic, branches, waits (R187) -/

def execSlateTNop (w : SlateWord) (s : State) : Out := s.seqIssue { opc := 0xC0 } w false id

def shapeAlu (opc : BitVec 8) : TShape := { opc := opc, d := true, a := true, b := true, bsels := [0, 2, 3] }

def State.tAlu (s : State) (w : SlateWord) (opc : BitVec 8) (f : Nat → Nat → Nat) : Out :=
  s.seqIssue (shapeAlu opc) w false fun s => s.setT w.d.toNat (f (s.tReg w.a.toNat) (s.tB w))

def execSet (w : SlateWord) (s : State) : Out :=
  s.seqIssue { opc := 0xC1, d := true, b := true, bsels := [0, 2, 3] } w false fun s => s.setT w.d.toNat (s.tB w)

def execAdd (w : SlateWord) (s : State) : Out := s.tAlu w 0xC2 fun a b => a + b
def execSub (w : SlateWord) (s : State) : Out := s.tAlu w 0xC3 fun a b => a + 2 ^ 32 - b
def execAnd (w : SlateWord) (s : State) : Out := s.tAlu w 0xC4 fun a b => a &&& b
def execOr (w : SlateWord) (s : State) : Out := s.tAlu w 0xC5 fun a b => a ||| b
def execShr (w : SlateWord) (s : State) : Out := s.tAlu w 0xC6 fun a b => a >>> (b % 32)

/-- Condition codes of Table SLT-13 on unsigned or signed words: EQ, NE, LT, LE, GT, GE, and ALWAYS. -/
def tCond (c : Nat) (signed : Bool) (a b : Nat) : Bool :=
  let x : Int := if signed then sext 32 a else a
  let y : Int := if signed then sext 32 b else b
  match c with
  | 0 => x == y
  | 1 => x != y
  | 2 => x < y
  | 3 => x ≤ y
  | 4 => y < x
  | 5 => y ≤ x
  | _ => true

/-- BR (R187): the target counts from the branch's own word; a target outside program memory is BRANCH. -/
def execSlateTBr (w : SlateWord) (s : State) : Out :=
  let c := w.mod.toNat % 8
  let always := c == 6
  s.seqIssue { opc := 0xC8, a := !always, b := !always, bsels := [0, 3], mod := 15, imm := true } w (c == 7) fun s =>
    let at_ : Int := (s.seq.pc : Int) - (if w.ext then 16 else 8)
    if tCond c (w.mod.toNat / 8 == 1) (s.tReg w.a.toNat) (s.tB w) then
      let t := at_ + 8 * w.imm16.toInt
      if t < 0 || 65536 ≤ t then (s.seqPc at_.toNat).seqFault 4 else s.seqPc t.toNat
    else s

/-- Slot k of the current frame has begun. -/
def State.slotBegun (s : State) (k : Nat) : Bool := k ≤ s.seq.slot

/-- WAITROW (R186, R187). -/
def execWaitrow (w : SlateWord) (s : State) : Out :=
  let k := s.tB w
  s.seqIssue { opc := 0xC9, b := true, bsels := [0, 2] } w (447 < k) fun s =>
    if s.slotBegun k then s else s.seqWait (s.seq.pc - 8) (.row k)

/-- WAITBELL (R187). -/
def execWaitbell (w : SlateWord) (s : State) : Out :=
  s.seqIssue { opc := 0xCA, d := true } w false fun s => s.seqWait (s.seq.pc - 8) (.bell w.d.toNat)

/-- A waiting WAITROW completes in the cycle its slot begins (R186). -/
def State.seqSlotBegins (s : State) (k : Nat) : State :=
  match s.seq.st with
  | .waiting (.row r) => if r ≤ k then s.seqDone else s
  | _ => s

/-- A Bell is accepted on the Bell-source port (R187). -/
def State.seqBell (s : State) (wallTime : Nat) : State :=
  match s.seq.st with
  | .waiting (.bell d) => (s.setT d (wallTime % 2 ^ 32)).seqDone
  | _ => s

/-! ## Row work (R193, R194) -/

/-- A row-work descriptor (Table TMT-3). -/
def descOf (entry row frame : Nat) : BitVec 64 :=
  BitVec.ofNat 64 (row + entry / 8 % 65536 * 2 ^ 16 + frame % 65536 * 2 ^ 32)

/-- Queue descriptors for n rows from row r while there is room. -/
def pushDescs (entry frame : Nat) : Nat → Nat → List (BitVec 64) → List (BitVec 64) × Nat
  | 0, _, q => (q, 0)
  | n + 1, r, q => if q.length < 1024 then pushDescs entry frame n (r + 1) (q ++ [descOf entry r frame]) else (q, n + 1)

/-- A DISPATCH queues what fits and waits with the rest (R193). -/
def State.dispatchRows (s : State) (at_ entry row count frame : Nat) : State :=
  let r := pushDescs entry frame count row s.seq.desc
  let s := { s with seq := { s.seq with desc := r.1 } }
  if r.2 = 0 then (s.seqPc (at_ + 8)).seqSt .running
  else s.seqWait at_ (.dispatch entry (row + (count - r.2)) r.2 frame)

/-- DISPATCH (R193). -/
def execDispatch (w : SlateWord) (s : State) : Out :=
  let entry := s.tReg w.a.toNat
  let row := s.tReg w.b.toNat
  let count := s.tReg w.c.toNat
  s.seqIssue { opc := 0xCB, a := true, b := true, c := true, mod := 1 } w
    (entry % 8 != 0 || 0x80000 ≤ entry || 432 < row + count) fun s =>
      s.dispatchRows (s.seq.pc - 8) entry row count (s.seq.frame + w.mod.toNat % 2)

/-- Room in the queue lets a waiting DISPATCH go on (R193). -/
def State.dispatchOn (s : State) : State :=
  match s.seq.st with
  | .waiting (.dispatch entry row count frame) => s.dispatchRows s.seq.pc entry row count frame
  | _ => s

def descRow (d : BitVec 64) : Nat := d.toNat % 512
def descEntry (d : BitVec 64) : Nat := 8 * bits d.toNat 31 16
def descFrame (d : BitVec 64) : Nat := bits d.toNat 47 32

/-- (F, r) of a descriptor is earlier than (f, r). -/
def descEarlier (d : BitVec 64) (f r : Nat) : Bool :=
  if descFrame d = f % 65536 then descRow d < r else !(((descFrame d + 65536 - f % 65536) % 65536) < 32768)

/-- Descriptors earlier than (f, r) at the head: those of another frame and those of frame f, and the rest. -/
def dropStale (f r : Nat) : List (BitVec 64) → Nat × Nat × List (BitVec 64)
  | [] => (0, 0, [])
  | d :: ds =>
    if descEarlier d f r then
      let x := dropStale f r ds
      if descFrame d = f % 65536 then (x.1, x.2.1 + 1, x.2.2) else (x.1 + 1, x.2)
    else (0, 0, d :: ds)

/-- Once what is stale has gone, the descriptor at the head of the queue is that of (f, r) (R194). -/
def State.descReady (s : State) (f r : Nat) : Bool :=
  match (dropStale f r s.seq.desc).2.2 with
  | d :: _ => descFrame d == f % 65536 && descRow d == r
  | [] => false

/-- The dispatcher at the synthesis start of row r of frame f (R194): the kernel entry it launches, if any. Descriptors of a
blanked frame are removed without launch and go uncounted. -/
def State.dispatchRow (s : State) (f r : Nat) (blank : Bool) : State × Option Nat :=
  let st := dropStale f r s.seq.desc
  let ready := s.descReady f r
  let s := { s with seq := { s.seq with desc := if ready then st.2.2.drop 1 else st.2.2 } }.bump (Reg.seqCnt 0)
    (st.1 + if blank then 0 else st.2.1)
  if ready then (s.dispatchOn, if blank then none else st.2.2.head?.map descEntry)
  else ((s.bump (Reg.seqCnt 1)).dispatchOn, none)

/-! ## Bindings, modes, messages, signals -/

/-- BINDL (R195). -/
def execBindl (w : SlateWord) (s : State) : Out :=
  s.seqIssue { opc := 0xCC, a := true } w false fun s =>
    { s with seq := { s.seq with bindMask := some (BitVec.ofNat 16 (s.tReg w.a.toNat)) } }

/-- A late commit, or a mode request that is handled as one (R197, R203). -/
def State.commitLate (s : State) : State := ((s.setFlag Reg.seqStatus 31).bump (Reg.seqCnt 3)).event 107

/-- Slot 447 of the frame has begun or its actions have been taken. -/
def State.window447 (s : State) : Bool := s.seq.slot == 447

/-- MODE (R203): a request of this frame, or a late one carried into the next. -/
def execMode (w : SlateWord) (s : State) : Out :=
  let code := s.tReg w.a.toNat % 8
  s.seqIssue { opc := 0xCE, a := true } w (6 ≤ code) fun s =>
    if s.window447 then { s.commitLate with seq := { s.commitLate.seq with lateReq := some code } }
    else { s with seq := { s.seq with req := some code } }

/-- What RCVM writes for a message (R207). -/
def State.takeMsg (s : State) (d : Nat) (m : EngMsg) : State :=
  ((s.setT d m.a.toNat).setT (d + 1) m.b.toNat).setT (d + 2)
    (m.imm.toNat + m.th * 2 ^ 16 + m.eng * 2 ^ 20 + m.hr * 2 ^ 24)

/-- RCVM (R207). -/
def execRcvm (w : SlateWord) (s : State) : Out :=
  let d := w.d.toNat
  s.seqIssue { opc := 0xD0, d := true, mod := 1 } w (13 < d) fun s =>
    match s.seq.msgs with
    | m :: ms => { s with seq := { s.seq with msgs := ms } }.takeMsg d m
    | [] => if w.mod.toNat % 2 = 1 then s.setT (d + 2) 0x80000000 else s.seqWait (s.seq.pc - 8) (.message d)

/-- Messages are discarded: EN = 0 or halted (R207). -/
def State.msgDiscarded (s : State) : Bool := !s.flag Reg.seqCtrl 0 || s.seq.st == .halted

/-- A message enters the queue, or the RCVM that waits takes it (R207). -/
def State.seqMessage (s : State) (m : EngMsg) : State :=
  if s.msgDiscarded then s else
  match s.seq.st with
  | .waiting (.message d) => (s.takeMsg d m).seqDone
  | _ => { s with seq := { s.seq with msgs := s.seq.msgs ++ [m] } }

/-- SIGNAL (R208). -/
def execSignal (w : SlateWord) (s : State) : Out :=
  s.seqIssue { opc := 0xD1, imm := true } w false fun s => (s.setFld Reg.seqSignal 15 0 w.imm16.toNat).event 113

/-! ## SEQ_CTRL and the other registers -/

/-- A write of SEQ_CTRL (R192, R202). -/
def State.seqCtrlWrite (s : State) (v : Word) : State :=
  let was := s.flag Reg.seqCtrl 0
  let s := s.store Reg.seqCtrl v
  let en := s.flag Reg.seqCtrl 0
  let s := if s.seq.freeRun && !s.flag Reg.seqCtrl 2 then { s with seq := { s.seq with freeRun := false } } else s
  if !was && en then { s with seq := { s.seq with st := .awaiting, enAt := s.now, restartDue := false } }
  else if was && !en then { s with seq := { s.seq with st := .stopped, desc := [], restartDue := false } }
  else if was && en && v.getLsbD 31 && !s.seq.restartDue then
    let st := if s.seq.st = .halted then SeqSt.awaiting else s.seq.st
    { s with seq := { s.seq with restartDue := true, st := st } }
  else s

/-- SEQ_EN_WRITE (R192). -/
def execSeqEnWrite (b : BusWrite) (s : State) : Out := .next (s.busWrite Reg.seqCtrl b State.seqCtrlWrite)

/-- SEQ_RESTART (R192, R11). -/
def execSeqRestart (b : BusWrite) (s : State) : Out := .next (s.busWrite Reg.seqCtrl b State.seqCtrlWrite)

/-- FREE_RUN_EN_WRITE (R202). -/
def execFreeRunEnWrite (b : BusWrite) (s : State) : Out := .next (s.busWrite Reg.seqCtrl b State.seqCtrlWrite)

/-- A read of SEQ_FRAME_LO latches the other three words of the flip (R200). -/
def State.frameLoRead (s : State) (m : Nat) : State × Word :=
  (((s.latchWord m Reg.seqFrameHi (word (s.seq.frame / 2 ^ 32))).latchWord m Reg.seqFlipLo (word s.seq.flipWall)).latchWord
    m Reg.seqFlipHi (word (s.seq.flipWall / 2 ^ 32)), word s.seq.frame)

/-- SEQ_FRAME_LO_READ (R200, R346). -/
def execSeqFrameLoRead (b : BusRead) (s : State) : Out :=
  .next (s.busRead Reg.seqFrameLo b fun s => s.frameLoRead b.master.val)

/-- SEQ_CNT_CLR (R80). -/
def State.seqCntClr (s : State) (v : Word) : State :=
  if v.getLsbD 0 then s.clrRegs (Reg.seqCnt 0) 7 else s

/-- SEQ_CNT_CLR (R80). -/
def execSeqCntClr (b : BusWrite) (s : State) : Out :=
  .next (s.busWrite Reg.seqCntClr b State.seqCntClr)

/-- A write of SEQ_GEO_MARGIN: the shadow, and the arm (R33). -/
def State.geoMarginWrite (s : State) (v : Word) : State :=
  let s := s.store Reg.seqGeoMargin v
  if v.getLsbD 30 then { s.noteArm 0 s.seq.geoArmed with seq := { s.seq with geoArmed := true } } else s

/-- GEO_MARGIN_ARM (R33). -/
def execGeoMarginArm (b : BusWrite) (s : State) : Out := .next (s.busWrite Reg.seqGeoMargin b State.geoMarginWrite)

/-- Group 0 of a commit (R32, R33): shadows armed before this cycle are copied as they stood when it began. -/
def State.commitGeo (s : State) : State :=
  if s.armedBefore 0 s.seq.geoArmed then
    let v := (s.fldBefore Reg.seqGeoOriginX 23 0, s.fldBefore Reg.seqGeoOriginY 23 0, s.fldBefore Reg.seqGeoMargin 7 0)
    { s with seq := { s.seq with geoArmed := s.armedNow 0, geoCopied := some v } }
  else s

/-- Copied footprint values come into force at slot 447 (R32). -/
def State.geoInForce (s : State) : State :=
  match s.seq.geoCopied with
  | some (x, y, m) => { s with seq := { s.seq with geoCopied := none, geoX := BitVec.ofNat 24 x,
                                                   geoY := BitVec.ofNat 24 y, geoM := BitVec.ofNat 8 m } }
  | none => s

end Sys2Proof.Machine
end

