-- ==== Sys2Proof/Machine/SlateCore.lean ====
section
/-!
DEFINITION. What all Slate instructions share (06 R127 to R132, R144; 07 R149 to R162, R168 to R171, R180 to R182): threads
and engines, chunks, exceptions, instruction shapes, issue, operand forms, Homeroom memory and streams. Latencies are not
modelled: an instruction issues whole, and what comes later (sampler results, streams, barriers) has a row of its own.
-/
namespace Sys2Proof.Machine

/-! ## Threads, engines, memory -/

def engineKey (hr eng : Nat) : Nat := 16 * hr + eng

def threadKey (t : ThreadId) : Nat := 8 * engineKey t.hr.val t.eng.val + t.th.val

def State.thread (s : State) (k : Nat) : Thread := SMap.get (fun _ => {}) s.syn.threads k

def State.setThread (s : State) (k : Nat) (v : Thread) : State :=
  { s with syn := { s.syn with threads := SMap.put (fun _ => {}) s.syn.threads k v } }

def State.engine (s : State) (k : Nat) : Engine := SMap.get (fun _ => {}) s.syn.engines k

def State.setEngine (s : State) (k : Nat) (v : Engine) : State :=
  { s with syn := { s.syn with engines := SMap.put (fun _ => {}) s.syn.engines k v } }

def Thread.vreg (t : Thread) (r l : Nat) : Word := SMap.get (fun _ => 0) t.v (64 * r + l)

def Thread.setV (t : Thread) (r l : Nat) (x : Word) : Thread := { t with v := SMap.put (fun _ => 0) t.v (64 * r + l) x }

def Thread.sreg (t : Thread) (r : Nat) : Word := SMap.get (fun _ => 0) t.sc r

def Thread.setS (t : Thread) (r : Nat) (x : Word) : Thread := { t with sc := SMap.put (fun _ => 0) t.sc r x }

/-- Predicates other than P0 start as all ones (Table SLT-2). -/
def predDefault : Nat → BitVec 64 := fun _ => BitVec.allOnes 64

/-- P0 reads as all ones (R150). -/
def Thread.preg (t : Thread) (r : Nat) : BitVec 64 := if r = 0 then BitVec.allOnes 64 else SMap.get predDefault t.p r

/-- A write to P0 is discarded (R150). -/
def Thread.setP (t : Thread) (r : Nat) (x : BitVec 64) : Thread :=
  if r = 0 then t else { t with p := SMap.put predDefault t.p r x }

/-- Words of Homeroom memory: 786,432 in each (Table SYN-2). -/
def homeKey (hr off : Nat) : Nat := 786432 * hr + off / 4

def State.homeWord (s : State) (hr off : Nat) : Word := SMap.get (fun _ => 0) s.syn.mem (homeKey hr off)

/-- Write consecutive words of Homeroom memory from a byte offset. -/
def State.homeWrite (s : State) (hr off : Nat) (ws : List Word) : State :=
  { s.noteSram 3 (homeKey hr off / 2) ((homeKey hr off + ws.length + 1) / 2) with
    syn := { s.syn with mem := SMap.store (fun _ => 0) s.syn.mem (homeKey hr off) ws } }

/-- A load by an engine (R169): the newest of its own stores that wait, else memory; a newer store of another engine that no
FENCE has yet made visible may be seen or not, which a free value decides (DESIGN CHOICE, log entry 22). -/
def State.homeLoad (s : State) (hr eng off idx : Nat) : Word :=
  let step (a : Word × List Word) (p : PendStore) : Word × List Word :=
    if p.hr == hr && p.addr == off then (if p.eng == eng then (p.val, []) else (a.1, a.2 ++ [p.val])) else a
  let r := s.syn.stores.foldl step (s.homeWord hr off, [])
  if r.2.isEmpty then r.1 else (r.1 :: r.2).getD ((Config.freeWord s.draws idx).toNat % (r.2.length + 1)) r.1

/-- A store takes its place: after all earlier ones, and in its cycle before those of higher-numbered engines to the same word (R169). -/
def insStore (x : PendStore) : List PendStore → List PendStore
  | [] => [x]
  | y :: ys => if y.hr == x.hr && y.addr == x.addr && y.at_ == x.at_ && x.eng < y.eng then x :: y :: ys else y :: insStore x ys

/-- A store by a thread: visible to its own engine at once (R169). -/
def State.homeStore (s : State) (hr eng th off : Nat) (v : Word) : State :=
  { s with syn := { s.syn with stores := insStore ⟨hr, eng, th, off, v, s.clk.engineCycles⟩ s.syn.stores } }

/-- Stores become visible to all engines: memory takes them in order, and older stores to the same words are over. -/
def commitStores (p : PendStore → Bool) : List PendStore → SMap Word → List PendStore × SMap Word
  | [], m => ([], m)
  | x :: xs, m =>
    if p x then commitStores p xs (SMap.put (fun _ => 0) m (homeKey x.hr x.addr) x.val)
    else if xs.any fun y => p y && y.hr == x.hr && y.addr == x.addr then commitStores p xs m
    else
      let r := commitStores p xs m
      (x :: r.1, r.2)

def State.homeFlush (s : State) (p : PendStore → Bool) : State :=
  let r := commitStores p s.syn.stores s.syn.mem
  let words := (s.syn.stores.filter p).map fun x => (3, homeKey x.hr x.addr / 2, homeKey x.hr x.addr / 2 + 1)
  { s with syn := { s.syn with stores := r.1, mem := r.2 }, cyc := { s.cyc with sram := words ++ s.cyc.sram } }

/-! ## Streams (R170, R171, R182) -/

/-- The bytes of a stream's lines, and which lines ended in an error response. -/
def State.streamRead (s : State) (master src : Nat) : Nat → State × List Byte × List Nat
  | 0 => (s, [], [])
  | n + 1 =>
    let r := s.streamRead master src n
    let l := r.1.devRead master (src + 64 * n) 64
    (l.1, r.2.1 ++ l.2.1, if l.2.2 then r.2.2 else r.2.2 ++ [n])

/-- A stream's data comes to hand. -/
def State.streamDone (s : State) (hr : Nat) (x : Stream) : State × Stream :=
  let r := s.streamRead (2 + hr) x.src x.lines
  (r.1, { x with done := true, data := r.2.1, errs := r.2.2 })

/-- The lines of a completed stream stand in Homeroom memory; a line in error keeps its undefined bytes (R171). -/
def State.streamLand (s : State) (hr eng : Nat) (x : Stream) : State :=
  let s := { s with syn := { s.syn with stores := s.syn.stores.filter fun p =>
    !(p.hr == hr && p.eng == eng && x.dst ≤ p.addr && p.addr < x.dst + 64 * x.lines) } }
  (List.range x.lines).foldl (fun s i =>
    if x.errs.contains i then s
    else s.homeWrite hr (x.dst + 64 * i) ((List.range 16).map fun k => word (leAt x.data (64 * i + 4 * k) 4))) s

/-- The streams of a thread that no SWAIT has covered. -/
def Thread.streams (t : Thread) : List Stream := t.tags.flatMap (·.2)

/-! ## Chunks (R129, R130, R144, R151) -/

/-- The registers of thread j at entry (Table SLT-2). -/
def entryThread (hr eng j : Nat) (c : Chunk) (start : Nat) : Thread :=
  let u := 768 * (eng % 4) + 64 * hr
  let v := 432 * (eng / 4) + c.row
  let t : Thread := { alive := true, pc := c.entry, startAt := start }
  let t := [c.row, eng, hr, j, 0x2FF000 + 0x800 * (c.row % 2), c.frame % 2 ^ 32, c.frame / 2 ^ 32,
            0x80000 + eng * 0x20000].zipIdx.foldl (fun t p => t.setS p.2 (word p.1)) t
  (List.range 64).foldl (fun t i => (t.setV 0 i (word i)).setV 1 i (word (u + i + v * 2 ^ 12))) t

/-- An engine launches a chunk with all 8 threads; they fetch 12 cycles later (R130, R181). -/
def State.launchChunk (s : State) (hr eng : Nat) (c : Chunk) : State :=
  let c := { c with launch := s.clk.engineCycles }
  let k := engineKey hr eng
  let s := (List.range 8).foldl
    (fun s j => s.setThread (8 * k + j) (entryThread hr eng j c (s.clk.engineCycles + 12))) s
  let s := s.setEngine k { (s.engine k) with run := some c, wait := none, queue := [] }
  s.setFld (Reg.hrStatus hr) 24 16 c.row

/-- A chunk is cancelled (R144, R182): its threads stop, its SMP requests go, its streams complete without reporting. -/
def State.cancelChunk (s : State) (hr eng : Nat) : State :=
  let k := engineKey hr eng
  if (s.engine k).run.isNone then s else
  let s := (List.range 8).foldl (fun s j =>
    let s := ((s.thread (8 * k + j)).streams).foldl (fun s x =>
      let r := if x.done then (s, x) else s.streamDone hr x
      r.1.streamLand hr eng r.2) s
    s.setThread (8 * k + j) {}) s
  (s.setEngine k { (s.engine k) with run := none, queue := [] }).bump (Reg.hrCnt hr 1)

/-- A thread ends (R182); with the eighth, its chunk. -/
def State.endThread (s : State) (t : ThreadId) : State :=
  let k := engineKey t.hr.val t.eng.val
  let s := s.setThread (threadKey t) {}
  let e := s.engine k
  let e := { e with queue := e.queue.filter fun q => q.thread != t.th.val }
  if (List.range 8).any fun j => (s.thread (8 * k + j)).alive then s.setEngine k e
  else
    let row := match e.run with | some c => c.row | none => 512
    let count (b : RowLatch) : RowLatch := if b.row = row then { b with ended := b.ended + 1 } else b
    let s := { s with syn := { s.syn with bank0 := count s.syn.bank0, bank1 := count s.syn.bank1 } }
    let counts := s.reg (Reg.hrCnt t.hr.val 0) != 0xFFFFFFFF
    let s := { s with cyc := { s.cyc with ended := (k, row, counts) :: s.cyc.ended } }
    (s.setEngine k { e with run := none }).bump (Reg.hrCnt t.hr.val 0)

/-- An exception (R180, R144): the chunk is cancelled; the first fault, of several in a cycle that of the lowest engine and
thread, is latched with its event. -/
def State.slateFault (s : State) (t : ThreadId) (cause : Nat) : State :=
  let row := match (s.engine (engineKey t.hr.val t.eng.val)).run with | some c => c.row | none => 0
  let s := s.latchFirst (Reg.hrFault t.hr.val) (8 * t.eng.val + t.th.val)
    [(Reg.hrFault t.hr.val, word (2 ^ 31 + t.eng.val * 2 ^ 24 + t.th.val * 2 ^ 20 + row * 2 ^ 8 + cause))] (some 103)
  s.cancelChunk t.hr.val t.eng.val

/-- CHUNK_LAUNCH (R130): an idle engine launches the chunk that waits for it. -/
def execChunkLaunch (hr : Fin 12) (engine : Fin 16) (s : State) : Out :=
  let e := s.engine (engineKey hr.val engine.val)
  match e.run, e.wait with
  | none, some c => if s.live (6 + hr.val) then .next (s.launchChunk hr.val engine.val c) else .next s
  | _, _ => .next s

/-! ## Shapes and issue (R156 to R158) -/

/-- What a register field names: nothing, a vector register, a scalar, a predicate, a quad or triple of vector registers, or
what the instruction reads from it itself. -/
inductive RegKind where
  | unused | v | s | p | quad | triple | own
  deriving DecidableEq, Repr

/-- The field value is one the kind allows (R157). -/
def RegKind.ok (k : RegKind) (f : Nat) : Bool :=
  match k with
  | .unused => f == 0
  | .v => true
  | .s => f < 32
  | .p => f < 8
  | .quad => f ≤ 60
  | .triple => f ≤ 61
  | .own => true

/-- The vector registers a field names. -/
def RegKind.vregs (k : RegKind) (f : Nat) : List Nat :=
  match k with
  | .v => [f]
  | .quad => [f, f + 1, f + 2, f + 3]
  | .triple => [f, f + 1, f + 2]
  | _ => []

/-- The opcodes of a view engine (Table SLT-8): the rest are reserved, or Slate-T's. -/
def slateOpcode (c : Nat) : Bool :=
  c ≤ 0x06 || (0x10 ≤ c && c ≤ 0x1D) || (0x20 ≤ c && c ≤ 0x35) || (0x40 ≤ c && c ≤ 0x47) || (0x50 ≤ c && c ≤ 0x56)
    || c == 0x60 || c == 0x61 || (0x70 ≤ c && c ≤ 0x74) || (0x80 ≤ c && c ≤ 0x82)

/-- The form of an instruction: opcode, types, register fields, BSEL values, MOD bits, use of IMM16, EXT without BSEL 3, and whether
the values in its own fields are among those its table allows. -/
structure Shape where
  opc : BitVec 8
  tys : List Nat := [0]
  d : RegKind := .unused
  a : RegKind := .unused
  b : RegKind := .unused
  c : RegKind := .unused
  bsels : List Nat := [0]
  mod : Nat := 0
  imm : Bool := false
  ext : Bool := false
  legal : Bool := true
  deriving DecidableEq, Repr

/-- The word meets R157 for its shape; IMM16 and MOD bits that the instruction does not use are 0 (DEDUCED, log entry 23). -/
def Shape.ok (p : Shape) (w : SlateWord) : Bool :=
  p.opc == w.opc && p.legal && p.tys.contains w.ty.toNat && p.d.ok w.d.toNat && p.a.ok w.a.toNat && p.c.ok w.c.toNat
    && p.bsels.contains w.bsel.toNat
    && (if w.bsel = 0 then p.b.ok w.b.toNat else if w.bsel = 1 then w.b.toNat < 32 else w.b == 0)
    && (if p.ext then true else w.ext == (w.bsel == 3)) && (!w.ext || w.immHigh == 0)
    && (w.mod.toNat &&& (63 - p.mod)) == 0
    && (p.imm || w.bsel == 2 || w.imm16 == 0)

/-- The vector registers an instruction names. -/
def Shape.vregs (p : Shape) (w : SlateWord) : List Nat :=
  p.d.vregs w.d.toNat ++ p.a.vregs w.a.toNat ++ p.c.vregs w.c.toNat
    ++ (if w.bsel = 0 then p.b.vregs w.b.toNat else [])

/-- The guard bits of an instruction (R158). -/
def Thread.guard (t : Thread) (w : SlateWord) : BitVec 64 :=
  if w.pn then ~~~ t.preg w.pg.toNat else t.preg w.pg.toNat

/-- Bytes of an instruction with its extension word. -/
def slateSize (w : SlateWord) : Nat := if w.ext then 16 else 8

/-- What an instruction's effect comes to: it is done and the thread goes on at the next instruction or at a target, it
cannot issue yet, it raises an exception, or the thread has ended. -/
inductive Issue where
  | go (s : State)
  | jump (s : State) (pc : Nat)
  | stall
  | trap (s : State) (cause : Nat)
  | ended (s : State)

/-- The thread can issue (R149, R159): alive, past its start, at no barrier, its Homeroom and the engine clock running. -/
def State.threadReady (s : State) (t : ThreadId) : Bool :=
  let th := s.thread (threadKey t)
  s.live (6 + t.hr.val) && s.engineRuns && th.alive && th.bar.isNone && th.startAt ≤ s.clk.engineCycles
    && (s.engine (engineKey t.hr.val t.eng.val)).run.isSome

/-- Vector registers that an SMP of the thread has yet to write (R159). -/
def State.pendingRegs (s : State) (t : ThreadId) : List Nat :=
  ((s.engine (engineKey t.hr.val t.eng.val)).queue.filter fun q => q.thread == t.th.val).flatMap fun q =>
    [q.dest, q.dest + 1, q.dest + 2, q.dest + 3]

/-- A fetched word has failed its check (14 Table MEM-7). -/
def State.badFetch (s : State) (t : ThreadId) (pc size : Nat) : Bool :=
  s.syn.bad.any fun w => 393216 * t.hr.val + pc / 8 ≤ w && w < 393216 * t.hr.val + (pc + size) / 8

/-- What the check of its form sees of an instruction: an extension word beyond the code region is not fetched. -/
def Thread.seen (t : Thread) (w : SlateWord) : SlateWord := if 0x80000 < t.pc + slateSize w then { w with immHigh := 0 } else w

/-- Issue of one instruction: fetch range, opcode, shape, hazards, guard, effect (R157 to R159, R162, R180). A word with the
opcode of another instruction is not this one's event. The lowest cause that the word meets is raised: its shape is ILLEGAL
before the fetch of an extension word beyond the code region is BRANCH. `always` marks instructions that run whatever the guard
holds: the lane-guarded ones, and BR. -/
def State.issue (s : State) (t : ThreadId) (p : Shape) (w : SlateWord) (always : Bool)
    (eff : State → Thread → Issue) : Out :=
  let th := s.thread (threadKey t)
  if !s.threadReady t then .next s
  else if 0x80000 < th.pc + 8 then .next (s.slateFault t 4)
  else if w.opc != p.opc && slateOpcode w.opc.toNat then .next s
  else if !p.ok (th.seen w) || s.badFetch t th.pc (slateSize w) then .next (s.slateFault t 1)
  else if 0x80000 < th.pc + slateSize w then .next (s.slateFault t 4)
  else if (p.vregs w).any fun r => (s.pendingRegs t).contains r then .next s
  else
    let on (s : State) (pc : Nat) : Out :=
      .next (s.setThread (threadKey t) { (s.thread (threadKey t)) with pc := pc })
    if !always && th.guard w == 0 then on s ((th.pc + slateSize w))
    else match eff s th with
      | .go s' => on s' ((th.pc + slateSize w))
      | .jump s' pc => on s' pc
      | .stall => .next s
      | .trap s' c => .next (s'.slateFault t c)
      | .ended s' => .next s'

/-! ## Operand forms (Table SLT-7) -/

/-- IMM16 as an operand of a type. -/
def imm16Of (ty : Nat) (i : BitVec 16) : Word :=
  match ty with
  | 0 => i.signExtend 32
  | 1 => i.zeroExtend 32
  | 2 => i.zeroExtend 32 <<< 16
  | 3 => word (i.toNat * 65537)
  | 4 => i.signExtend 32
  | _ => Config.uf20Imm i

/-- Operand B of a scalar instruction. -/
def Thread.opS (t : Thread) (w : SlateWord) : Word :=
  match w.bsel.toNat with
  | 2 => imm16Of w.ty.toNat w.imm16
  | 3 => w.imm32
  | _ => t.sreg w.b.toNat

/-- Operand B of a vector instruction in a lane. -/
def Thread.opV (t : Thread) (w : SlateWord) (lane : Nat) : Word :=
  match w.bsel.toNat with
  | 0 => t.vreg w.b.toNat lane
  | 1 => t.sreg w.b.toNat
  | 2 => imm16Of w.ty.toNat w.imm16
  | _ => w.imm32

/-- The active lanes. -/
def lanesOf (g : BitVec 64) : List Nat := (List.range 64).filter fun i => g.getLsbD i

/-- Write one register in the active lanes, every value computed from the registers before. -/
def Thread.mapV (t : Thread) (g : BitVec 64) (r : Nat) (f : Nat → Word) : Thread :=
  (lanesOf g).foldl (fun t' l => t'.setV r l (f l)) t

/-- Predicate d takes the bits of x in the active lanes. -/
def Thread.mapP (t : Thread) (g : BitVec 64) (d : Nat) (x : BitVec 64) : Thread :=
  t.setP d ((t.preg d &&& ~~~ g) ||| (x &&& g))

/-- A predicate word from a test of each lane. -/
def lanesWhere (f : Nat → Bool) : BitVec 64 :=
  BitVec.ofNat 64 ((List.range 64).foldl (fun a i => if f i then a + 2 ^ i else a) 0)

/-- An effect on the thread's registers alone. -/
def State.regsOnly (t : ThreadId) (f : Thread → Thread) (s : State) (th : Thread) : Issue :=
  .go (s.setThread (threadKey t) (f th))

/-! ## Values by type (R152, R153) -/

def satQ (x : Int) : Word := word (toBits 32 (clampInt (-2147483648) 2147483647 x))

/-- An operation on both binary16 elements. -/
def both16 (f : Nat → Nat → Nat → Nat) (a b c : Word) : Word :=
  word (f (a.toNat % 65536) (b.toNat % 65536) (c.toNat % 65536)
    + 65536 * f (a.toNat / 65536) (b.toNat / 65536) (c.toNat / 65536))

def addT (ty : Nat) (a b : Word) : Word :=
  match ty with
  | 2 => word (fAdd binary32 a.toNat b.toNat)
  | 3 => both16 (fun x y _ => fAdd binary16 x y) a b 0
  | 4 => satQ (a.toInt + b.toInt)
  | _ => a + b

def subT (ty : Nat) (a b : Word) : Word :=
  match ty with
  | 2 => word (fSub binary32 a.toNat b.toNat)
  | 3 => both16 (fun x y _ => fSub binary16 x y) a b 0
  | 4 => satQ (a.toInt - b.toInt)
  | _ => a - b

def mulT (ty : Nat) (a b : Word) : Word :=
  match ty with
  | 2 => word (fMul binary32 a.toNat b.toNat)
  | 3 => both16 (fun x y _ => fMul binary16 x y) a b 0
  | 4 => satQ ((a.toInt * b.toInt + 32768) / 65536)
  | _ => a * b

def madT (ty : Nat) (a b c : Word) : Word :=
  match ty with
  | 2 => word (fFma binary32 a.toNat b.toNat c.toNat)
  | 3 => both16 (fun x y z => fFma binary16 x y z) a b c
  | 4 => satQ ((a.toInt * b.toInt + 65536 * c.toInt + 32768) / 65536)
  | _ => a * b + c

/-- Minimum or maximum; `tie` chooses between zeros of unlike sign (DEDUCED, log entry 10). -/
def minMaxT (ty : Nat) (isMin : Bool) (tie : Bool) (a b : Word) : Word :=
  match ty with
  | 1 => if (a.toNat < b.toNat) == isMin then a else b
  | 2 => word (fMinMax binary32 isMin tie a.toNat b.toNat)
  | 3 => both16 (fun x y _ => fMinMax binary16 isMin tie x y) a b 0
  | _ => if (a.toInt < b.toInt) == isMin then a else b

def absT (ty : Nat) (a : Word) : Word :=
  match ty with
  | 2 => word (fAbs binary32 a.toNat)
  | 3 => both16 (fun x _ _ => fAbs binary16 x) a 0 0
  | 4 => satQ (if a.toInt < 0 then -a.toInt else a.toInt)
  | _ => if a.toInt < 0 then 0 - a else a

def negT (ty : Nat) (a : Word) : Word :=
  match ty with
  | 2 => word (fNeg binary32 a.toNat)
  | 3 => both16 (fun x _ _ => fNeg binary16 x) a 0 0
  | 4 => satQ (-a.toInt)
  | _ => 0 - a

def shlT (a b : Word) : Word := a <<< (b.toNat % 32)

def shrT (ty : Nat) (a b : Word) : Word := if ty = 0 then a.sshiftRight (b.toNat % 32) else a >>> (b.toNat % 32)

/-- The conditions of Table SLT-13; codes 6 and 7 are ILLEGAL and do not come here. -/
def condT (ty c : Nat) (a b : Word) : Bool :=
  let lt : Bool := match ty with
    | 1 => a.toNat < b.toNat
    | 2 => (unpackF binary32 a.toNat).lt (unpackF binary32 b.toNat)
    | _ => a.toInt < b.toInt
  let gt : Bool := match ty with
    | 1 => b.toNat < a.toNat
    | 2 => (unpackF binary32 b.toNat).lt (unpackF binary32 a.toNat)
    | _ => b.toInt < a.toInt
  let eq : Bool := match ty with
    | 2 => (unpackF binary32 a.toNat).eq (unpackF binary32 b.toNat)
    | _ => a == b
  match c with
  | 0 => eq
  | 1 => !eq
  | 2 => lt
  | 3 => lt || eq
  | 4 => gt
  | _ => gt || eq

end Sys2Proof.Machine
end

