-- ==== Sys2Proof/Machine/SlateMem.lean ====
section
/-!
DEFINITION. Slate's memory, stream, ray and sync instructions (07 R168 to R179), the row ring (06 R131, R132) and the
samplers (R174).
-/
namespace Sys2Proof.Machine

/-! ## Homeroom memory (R168, Table SYN-2) -/

/-- Kinds of access. -/
inductive MemAccess where
  | load | store | atomic
  deriving DecidableEq, Repr

def inShared (a : Nat) : Bool := 0x280000 ≤ a && a < 0x2FF000

def inScratch (eng a : Nat) : Bool := 0x80000 + eng * 0x20000 ≤ a && a < 0x80000 + eng * 0x20000 + 0x20000

/-- PROTECT (R168). -/
def protects (k : MemAccess) (eng a : Nat) : Bool :=
  0x300000 ≤ a ||
  match k with
  | .load => false
  | .store => !inShared a && !inScratch eng a
  | .atomic => !inShared a

/-- The fault of a set of addresses, the lowest cause first (R168, R180). -/
def accessFault (k : MemAccess) (eng : Nat) (as : List Nat) : Option Nat :=
  if as.any (protects k eng) then some 2
  else if as.any fun a => a % 4 != 0 then some 3
  else none

/-- Base + sext(IMM16) + extra. -/
def slateAddr (base : Word) (w : SlateWord) (extra : Nat) : Nat :=
  (base + w.imm16.signExtend 32 + word extra).toNat

/-- Vector load: addresses by lane. -/
def State.loadLanes (s : State) (t : ThreadId) (th : Thread) (w : SlateWord) (addr : Nat → Nat) : Issue :=
  let ls := lanesOf (th.guard w)
  match accessFault .load t.eng.val (ls.map addr) with
  | some c => .trap s c
  | none =>
    let th' := th.mapV (th.guard w) w.d.toNat fun l => s.homeLoad t.hr.val t.eng.val (addr l) l
    .go (s.drawn.setThread (threadKey t) th')

/-- Vector store: lanes in order; where two lanes name one word, a free value says which stands (DESIGN CHOICE, log entry 24). -/
def State.storeLanes (s : State) (t : ThreadId) (th : Thread) (w : SlateWord) (addr : Nat → Nat) : Issue :=
  let ls := lanesOf (th.guard w)
  match accessFault .store t.eng.val (ls.map addr) with
  | some c => .trap s c
  | none =>
    let keep := ls.foldl (fun (acc : List (Nat × Nat)) l =>
      if acc.any fun p => p.1 == addr l then
        (if Config.freeBit s.draws l then acc.filter (fun p => p.1 != addr l) ++ [(addr l, l)] else acc)
      else acc ++ [(addr l, l)]) []
    .go (keep.foldl (fun s p => s.homeStore t.hr.val t.eng.val t.th.val p.1 (th.vreg w.c.toNat p.2)) s.drawn)

def execLdv (t : ThreadId) (w : SlateWord) (s : State) : Out :=
  s.issue t { opc := 0x50, tys := [1], d := .v, a := .v, imm := true } w true fun s th =>
    s.loadLanes t th w fun l => slateAddr (th.vreg w.a.toNat l) w 0

def execStv (t : ThreadId) (w : SlateWord) (s : State) : Out :=
  s.issue t { opc := 0x51, tys := [1], a := .v, c := .v, imm := true } w true fun s th =>
    s.storeLanes t th w fun l => slateAddr (th.vreg w.a.toNat l) w 0

def execLdb (t : ThreadId) (w : SlateWord) (s : State) : Out :=
  s.issue t { opc := 0x52, tys := [1], d := .v, a := .s, imm := true } w true fun s th =>
    s.loadLanes t th w fun l => slateAddr (th.sreg w.a.toNat) w (4 * l)

def execStb (t : ThreadId) (w : SlateWord) (s : State) : Out :=
  s.issue t { opc := 0x53, tys := [1], a := .s, c := .v, imm := true } w true fun s th =>
    s.storeLanes t th w fun l => slateAddr (th.sreg w.a.toNat) w (4 * l)

def execLds (t : ThreadId) (w : SlateWord) (s : State) : Out :=
  s.issue t { opc := 0x54, tys := [1], d := .s, a := .s, imm := true } w false fun s th =>
    let a := slateAddr (th.sreg w.a.toNat) w 0
    match accessFault .load t.eng.val [a] with
    | some c => .trap s c
    | none => .go (s.drawn.setThread (threadKey t) (th.setS w.d.toNat (s.homeLoad t.hr.val t.eng.val a 0)))

def execSts (t : ThreadId) (w : SlateWord) (s : State) : Out :=
  s.issue t { opc := 0x55, tys := [1], a := .s, c := .s, imm := true } w false fun s th =>
    let a := slateAddr (th.sreg w.a.toNat) w 0
    match accessFault .store t.eng.val [a] with
    | some c => .trap s c
    | none => .go (s.homeStore t.hr.val t.eng.val t.th.val a (th.sreg w.c.toNat))

/-- ATADD (R168, R169): atomic on memory; its own engine's stores to the word come first, and a free value says whether
other engines' stores that no FENCE has covered do (DESIGN CHOICE, log entry 22). -/
def execAtadd (t : ThreadId) (w : SlateWord) (s : State) : Out :=
  s.issue t { opc := 0x56, tys := [1], d := .s, a := .s, b := .s, bsels := [0, 3], imm := true } w false fun s th =>
    let a := slateAddr (th.sreg w.a.toNat) w 0
    match accessFault .atomic t.eng.val [a] with
    | some c => .trap s c
    | none =>
      let all := Config.freeBit s.draws 0
      let s := s.drawn.homeFlush fun p => p.hr == t.hr.val && p.addr == a && (all || p.eng == t.eng.val)
      let old := s.homeWord t.hr.val a
      .go ((s.homeWrite t.hr.val a [old + th.opS w]).setThread (threadKey t) (th.setS w.d.toNat old))

/-! ## Streams (R170, R171) -/

def Thread.tag (t : Thread) (k : Nat) : List Stream := SMap.get (fun _ => []) t.tags k

def Thread.setTag (t : Thread) (k : Nat) (x : List Stream) : Thread :=
  { t with tags := SMap.put (fun _ => []) t.tags k x }

/-- STRM: the destination's bytes are undefined from here to the SWAIT (DESIGN CHOICE, log entry 25); a stream of the tag that is
still outstanding makes it wait. -/
def execStrm (t : ThreadId) (w : SlateWord) (s : State) : Out :=
  s.issue t { opc := 0x60, tys := [1], a := .s, b := .s, mod := 3, imm := true, legal := w.imm16.toNat < 1024 } w false fun s th =>
    let n := if w.imm16.toNat % 1024 = 0 then 1024 else w.imm16.toNat % 1024
    let dst := (th.sreg w.b.toNat).toNat
    let whole (p : Nat → Bool) : Bool := p dst && p (dst + 64 * n - 1)
    let k := w.mod.toNat % 4
    if dst % 64 != 0 || !(whole inShared || whole (inScratch t.eng.val)) then .trap s 2
    else if (th.tag k).any fun x => !x.done then .stall
    else
      let x : Stream := { src := 64 * (th.sreg w.a.toNat).toNat, dst := dst, lines := n }
      let s := s.homeFlush fun p => p.hr == t.hr.val && p.eng == t.eng.val && dst ≤ p.addr && p.addr < dst + 64 * n
      let s := s.drawn.homeWrite t.hr.val dst ((List.range (16 * n)).map (Config.freeWord s.draws))
      .go (s.setThread (threadKey t) (th.setTag k (th.tag k ++ [x])))

/-- STREAM_COMPLETE (R171): every line of a tag has arrived or ended in an error response. -/
def execStreamComplete (t : ThreadId) (tag : Fin 4) (s : State) : Out :=
  let th := s.thread (threadKey t)
  match (th.tag tag.val).find? fun x => !x.done with
  | some x =>
    if s.memReady (2 + t.hr.val) x.src (64 * x.lines) then
      let r := s.streamDone t.hr.val x
      .next (r.1.setThread (threadKey t) (th.setTag tag.val ((th.tag tag.val).filter (·.done) ++ [r.2])))
    else .next s
  | none => .next s

/-- SWAIT: waits for its tags; then their bytes stand, and a line in error raises STREAM. -/
def execSwait (t : ThreadId) (w : SlateWord) (s : State) : Out :=
  s.issue t { opc := 0x61, tys := [1], mod := 15 } w false fun s th =>
    let named := (List.range 4).filter fun k => w.mod.getLsbD k
    let xs := named.flatMap th.tag
    if xs.any fun x => !x.done then .stall
    else
      let s := xs.foldl (fun s x => s.streamLand t.hr.val t.eng.val x) s
      let th' := named.foldl (fun th k => th.setTag k []) th
      let s := s.setThread (threadKey t) th'
      if xs.any fun x => !x.errs.isEmpty then .trap s 8 else .go s

/-! ## The row ring (R131, R132) -/

def ringKey (tile entry p : Nat) : Nat := (3 * tile + entry) * 230400 + p

def maskKey (tile entry u : Nat) : Nat := (3 * tile + entry) * 768 + u

/-- An unlisted mask: clear in an entry that has been assigned to a row, else set (R132). -/
def State.maskDefault (s : State) : Nat → BitVec 100 :=
  fun k => if s.syn.assigned.getLsbD (k / 768) then 0 else BitVec.allOnes 100

def State.ringMask (s : State) (tile entry u : Nat) : BitVec 100 :=
  SMap.get s.maskDefault s.syn.masks (maskKey tile entry u)

def State.setRingMask (s : State) (tile entry u : Nat) (m : BitVec 100) : State :=
  { s with syn := { s.syn with masks := SMap.put s.maskDefault s.syn.masks (maskKey tile entry u) m } }

def State.ringAt (s : State) (tile entry p : Nat) : BitVec 20 := SMap.get (fun _ => 0) s.syn.ring (ringKey tile entry p)

/-- Write consecutive emitters of a ring entry. -/
def State.ringWrite (s : State) (tile entry p : Nat) (vs : List (BitVec 20)) : State :=
  { s with syn := { s.syn with ring := SMap.store (fun _ => 0) s.syn.ring (ringKey tile entry p) vs } }

/-- A colour as ST.RING stores it (R131). -/
def ringColour (a : Word) : BitVec 20 := BitVec.ofNat 20 (toUf20 .nearest (unpackF binary32 (fSat binary32 a.toNat)))

/-- The fields of a RAYID: u, v, s, t, and whether it is in range (Table SLT-6, R172). -/
def rayFields (r : Word) : Nat × Nat × Nat × Nat := (bits r.toNat 11 0, bits r.toNat 22 12, bits r.toNat 27 23, bits r.toNat 30 28)

def rayInRange (r : Word) : Bool :=
  let f := rayFields r
  f.1 ≤ 3071 && f.2.1 ≤ 1727 && f.2.2.1 ≤ 19 && f.2.2.2 ≤ 4 && !r.getLsbD 31

/-- The lenslet of a RAYID belongs to the chunk (R176). -/
def rayInChunk (hr eng row : Nat) (r : Word) : Bool :=
  let f := rayFields r
  4 * (f.2.1 / 432) + f.1 / 768 == eng && f.2.1 % 432 == row && f.1 % 768 / 64 == hr

/-- Store one lane's view; a lenslet already checked discards it (R143). -/
def State.ringStore (s : State) (tile row : Nat) (ray r g b : Word) : State :=
  let f := rayFields ray
  let u := f.1 % 768
  let e := row % 3
  if SMap.get (fun _ => false) s.syn.checked (maskKey tile e u) then s
  else
    let view := f.2.2.2 * 20 + f.2.2.1
    let p := 300 * u + 3 * view
    let old := (maskKey tile e u, p, s.ringMask tile e u, [s.ringAt tile e p, s.ringAt tile e (p + 1), s.ringAt tile e (p + 2)])
    let s := { s with cyc := { s.cyc with rings := old :: s.cyc.rings } }
    let s := s.ringWrite tile e p [ringColour r, ringColour g, ringColour b]
    s.setRingMask tile e u (s.ringMask tile e u ||| BitVec.ofNat 100 (2 ^ view))

/-- Ring stores of this cycle to a lenslet are taken back, the newest first: its check does not see them (R143). -/
def State.ringUndo (s : State) (tile entry u : Nat) : State :=
  s.cyc.rings.foldl (fun s x =>
    if x.1 == maskKey tile entry u then (s.ringWrite tile entry x.2.1 x.2.2.2).setRingMask tile entry u x.2.2.1 else s) s

/-- ST.RING (R176): two lanes that name one ray leave it free which stands (DESIGN CHOICE, log entry 24). -/
def execStRing (t : ThreadId) (w : SlateWord) (s : State) : Out :=
  s.issue t { opc := 0x74, tys := [2], a := .v, b := .triple } w true fun s th =>
    let ls := lanesOf (th.guard w)
    let ray (l : Nat) : Word := th.vreg w.a.toNat l
    match (s.engine (engineKey t.hr.val t.eng.val)).run with
    | none => .go s
    | some c =>
      if ls.any fun l => !rayInRange (ray l) || !rayInChunk t.hr.val t.eng.val c.row (ray l) then .trap s 7
      else
        let keep := ls.foldl (fun (acc : List Nat) l =>
          if acc.any fun k => ray k == ray l then
            (if Config.freeBit s.draws l then acc.filter (fun k => ray k != ray l) ++ [l] else acc)
          else acc ++ [l]) []
        let b := w.b.toNat
        .go (keep.foldl (fun s l =>
          s.ringStore t.eng.val c.row (ray l) (th.vreg b l) (th.vreg (b + 1) l) (th.vreg (b + 2) l)) s.drawn)

/-! ## SEAT, SMP, BLEND (R172 to R175) -/

/-- The bank latched for a row (R133). -/
def State.bank (s : State) (row : Nat) : RowLatch := if row % 2 = 0 then s.syn.bank0 else s.syn.bank1

/-- The row of the chunk a thread belongs to. -/
def State.chunkRow (s : State) (t : ThreadId) : Nat :=
  match (s.engine (engineKey t.hr.val t.eng.val)).run with
  | some c => c.row
  | none => 0

/-- The four words SEAT writes for a ray (R172). -/
def seatWords (chart : SMap (BitVec 64)) (r : Word) : List Word :=
  let f := rayFields r
  let c := chartAt chart (4 * (f.2.1 / 432) + f.1 / 768) (f.1 % 768) (f.2.1 % 432)
  [word (toBits 32 (4096 * (f.1 : Int) + 2048 + c.1)), word (toBits 32 (4096 * (f.2.1 : Int) + 2048 + c.2.1)),
   word (toBits 32 (slopeS f.2.2.1 + c.2.2.1)), word (toBits 32 (slopeT f.2.2.2 + c.2.2.2))]

def execSeat (t : ThreadId) (w : SlateWord) (s : State) : Out :=
  s.issue t { opc := 0x70, tys := [0], d := .quad, a := .v } w true fun s th =>
    let g := th.guard w
    if (lanesOf g).any fun l => !rayInRange (th.vreg w.a.toNat l) then .trap s 6
    else
      let chart := (s.bank (s.chunkRow t)).chart
      State.regsOnly t (fun th => (List.range 4).foldl (fun th' k =>
        th'.mapV g (w.d.toNat + k) fun l => (seatWords chart (th.vreg w.a.toNat l)).getD k 0) th) s th

/-- SMP (R173, R174; an immediate index is IMM16 itself, DEDUCED, log entry 79): past the stack it writes 0.0; else the request enters the engine's sampler queue of 4. -/
def execSmp (t : ThreadId) (w : SlateWord) (s : State) : Out :=
  s.issue t { opc := 0x71, tys := [2], d := .quad, a := .quad, b := .s, bsels := [1, 2] } w true fun s th =>
    let g := th.guard w
    let k := engineKey t.hr.val t.eng.val
    let i := if w.bsel = 1 then (th.sreg w.b.toNat).toNat else w.imm16.toNat
    if g == 0 then .go s
    else if (s.bank (s.chunkRow t)).stack.length ≤ i then
      State.regsOnly t (fun th => (List.range 4).foldl (fun th k => th.mapV g (w.d.toNat + k) fun _ => 0) th) s th
    else if 4 ≤ (s.engine k).queue.length then .stall
    else
      let col (j : Nat) : List Word := (List.range 64).map fun l => th.vreg (w.a.toNat + j) l
      let q : SmpReq := { thread := t.th.val, dest := w.d.toNat, entry := i, lanes := g, px := col 0, py := col 1,
                          sg := col 2, ta := col 3 }
      .go (s.setEngine k { (s.engine k) with queue := (s.engine k).queue ++ [q] })

/-- The results of a request, lane by lane, in the registers of its thread. -/
def State.sampleLanes (s : State) (hr eng : Nat) (b : RowLatch) (e : StackEntry) (q : SmpReq) : State :=
  let k := 8 * engineKey hr eng + q.thread
  (lanesOf q.lanes).foldl (fun s l =>
    let r := s.sampleRay hr b e (q.px.getD l 0) (q.py.getD l 0) (q.sg.getD l 0) (q.ta.getD l 0)
    let th := (List.range 4).foldl (fun th j => th.setV (q.dest + j) l (r.2.getD j 0)) (r.1.thread k)
    r.1.setThread k th) s

/-- The next engine of a sampler with a request, in round-robin order after the one served last (R174). -/
def State.nextEngine (s : State) (hr smp : Nat) : Option Nat :=
  let last := SMap.get (fun _ => 3) s.syn.rr (4 * hr + smp)
  ((List.range 4).map fun i => 4 * smp + (last + 1 + i) % 4).find? fun e => !(s.engine (engineKey hr e)).queue.isEmpty

/-- Scene-group reads of a Homeroom that are outstanding: the miss tags in use (R128, 14 Table MEM-6). -/
def State.missTags (s : State) (hr : Nat) : Nat :=
  (List.range 8).foldl (fun n c => n + ((s.chan c).reads.filter fun r => r.master == 2 + hr).length) 0

/-- A request reads a line that its Homeroom's cache does not hold. -/
def State.requestMisses (s : State) (hr : Nat) (b : RowLatch) (e : StackEntry) (q : SmpReq) : Bool :=
  (lanesOf q.lanes).any fun l =>
    (rayTaps b e (q.px.getD l 0) (q.py.getD l 0) (q.sg.getD l 0) (q.ta.getD l 0)).any fun a =>
      (linesOf a.1 a.2).any fun ln => (s.cached hr ln).isNone

/-- SAMPLER_REQUEST (R128, R174): a sampler serves one request of the next engine in turn; one that misses the cache while every
miss tag is in use waits, and the sampler with it. Lines of a channel whose cells have been upset since the last command read so
from here (14 R309). -/
def execSamplerRequest (hr : Fin 12) (sampler : Fin 4) (channel : Fin 16) (upsets : List (BitVec 31 × Bool)) (s : State) : Out :=
  let s := s.strike channel.val upsets
  match s.nextEngine hr.val sampler.val with
  | none => .next s
  | some e =>
    let k := engineKey hr.val e
    match (s.engine k).queue, (s.engine k).run with
    | q :: rest, some c =>
      if s.live (6 + hr.val) && (s.engineRuns || s.quiescing) then
        let b := s.bank c.row
        let bit := BitVec.ofNat 48 (2 ^ (4 * hr.val + sampler.val))
        if 256 ≤ s.missTags hr.val && (b.stack[q.entry]?).any fun st => s.requestMisses hr.val b st q then
          .next { s with syn := { s.syn with tagWait := s.syn.tagWait ||| bit } }
        else
        let rr := SMap.put (fun _ => 3) s.syn.rr (4 * hr.val + sampler.val) (e % 4)
        let s := { s with syn := { s.syn with rr := rr, tagWait := s.syn.tagWait &&& ~~~ bit } }
        let s := s.setEngine k { (s.engine k) with queue := rest }
        let s := match b.stack[q.entry]? with
          | some st => s.sampleLanes hr.val e b st q
          | none => s
        let n := SMap.get (fun _ => 0) s.syn.smpRest hr.val + (lanesOf q.lanes).length
        let rest := SMap.put (fun _ => 0) s.syn.smpRest hr.val (n % 64)
        .next ({ s with syn := { s.syn with smpRest := rest } }.bump (Reg.hrCnt hr.val 2) (n / 64))
      else .next s
    | _, _ => .next s

/-- BLEND.PM and BLEND.ST (R139, R175). -/
def State.blendOp (s : State) (t : ThreadId) (w : SlateWord) (opc : BitVec 8) (straight : Bool) : Out :=
  let c := w.c.toNat
  s.issue t { opc := opc, tys := [2], d := .quad, a := .quad, c := .own,
              legal := bits c 4 3 == 0 && (w.c.getLsbD 5 || c == 0) } w true fun s th =>
    let g := th.guard w
    let quad (r l : Nat) : List Nat := (List.range 4).map fun j => (th.vreg (r + j) l).toNat
    let res (l : Nat) : List Nat := blendLane straight (quad w.d.toNat l) (quad w.a.toNat l)
    State.regsOnly t (fun th =>
      let th' := (List.range 4).foldl (fun th' j => th'.mapV g (w.d.toNat + j) fun l => word ((res l).getD j 0)) th
      if w.c.getLsbD 5 then
        th'.mapP g (c % 8) (lanesWhere fun l =>
          (unpackF binary32 ((res l).getD 3 0)).lt (unpackF binary32 theta))
      else th') s th

def execBlendPm (t : ThreadId) (w : SlateWord) (s : State) : Out := s.blendOp t w 0x72 false
def execBlendSt (t : ThreadId) (w : SlateWord) (s : State) : Out := s.blendOp t w 0x73 true

/-! ## Sync and message (R177 to R179) -/

/-- BAR: the thread waits at the barrier IMM16[1:0]. -/
def execBar (t : ThreadId) (w : SlateWord) (s : State) : Out :=
  s.issue t { opc := 0x80, tys := [1], imm := true } w false
    (State.regsOnly t fun th => { th with bar := some (w.imm16.toNat % 4) })

/-- BAR_RELEASE (R177): every thread of the chunk that has not exited is at a BAR with one identifier. -/
def execBarRelease (hr : Fin 12) (engine : Fin 16) (s : State) : Out :=
  let k := engineKey hr.val engine.val
  let alive := (List.range 8).filter fun j => (s.thread (8 * k + j)).alive
  let bars := alive.map fun j => (s.thread (8 * k + j)).bar
  match bars with
  | some x :: rest =>
    if s.live (6 + hr.val) && rest.all (· == some x) then
      .next (alive.foldl (fun s j => s.setThread (8 * k + j) { (s.thread (8 * k + j)) with bar := none }) s)
    else .next s
  | _ => .next s

/-- FENCE (R178): the thread's earlier stores are visible to every engine of the Homeroom. -/
def execFence (t : ThreadId) (w : SlateWord) (s : State) : Out :=
  s.issue t { opc := 0x81, tys := [1] } w false fun s _ =>
    .go (s.homeFlush fun p => p.hr == t.hr.val && p.eng == t.eng.val && p.th == t.th.val)

/-- MSG (R179, R207): waits while the queue of 64 is full, unless the message is discarded. -/
def execMsg (t : ThreadId) (w : SlateWord) (s : State) : Out :=
  s.issue t { opc := 0x82, tys := [1], a := .s, b := .s, imm := true } w false fun s th =>
    if !s.msgDiscarded && 64 ≤ s.seq.msgs.length then .stall
    else .go (s.seqMessage ⟨th.sreg w.a.toNat, th.sreg w.b.toNat, w.imm16, t.hr.val, t.eng.val, t.th.val⟩)

end Sys2Proof.Machine
end

