-- ==== Sys2Proof/Machine/Synthesis.lean ====
section
/-!
DEFINITION. What rows do in the Homerooms (06): row starts with their stack table and chunks, late rows and the shed set,
the completeness check, and the proof view.
-/
namespace Sys2Proof.Machine

/-! ## Ring entries (R39, R132) -/

/-- The entry of a row is assigned to it in every tile: masks clear, nothing is checked or repeated. -/
def State.ringAssign (s : State) (row : Nat) : State :=
  (List.range 16).foldl (fun s n =>
    let lo := maskKey n (row % 3) 0
    let hi := lo + 768
    let masks := SMap.delRange s.syn.masks lo hi
    let checked := SMap.delRange s.syn.checked lo hi
    let repeated := SMap.delRange s.syn.repeated lo hi
    let assigned := s.syn.assigned ||| BitVec.ofNat 48 (2 ^ (3 * n + row % 3))
    { s with syn := { s.syn with masks := masks, checked := checked, repeated := repeated, assigned := assigned } }) s

/-- Every ring entry is set: colours 0.0, masks full (R132, R204). -/
def State.ringSet (s : State) : State :=
  { s with syn := { s.syn with ring := [], masks := [], checked := [], repeated := [], assigned := 0 } }

/-! ## Row starts (R130, R133) -/

/-- The stack table of a row in one Homeroom: NSTACK and the entries. -/
def State.stackTable (s : State) (hr row : Nat) (st : List StackEntry) : State :=
  let base := 0x2FF000 + 0x800 * (row % 2)
  let s := s.homeWrite hr base [word st.length]
  (List.zip (List.range st.length) st).foldl (fun s p => s.homeWrite hr (base + 32 + 32 * p.1) (stackWords p.2)) s

/-- The latch of a row that starts now. -/
def State.latchRow (s : State) (row : Nat) : RowLatch :=
  { row := row, stack := s.rowStack, ox := s.ox, oy := s.oy, margin := s.seq.geoM.toNat, fsyn := s.fSyn,
    latency := s.latency, at_ := s.now, chart := s.plc.active, dir := s.dec.dir, base := s.storeBase, ended := 0 }

/-- A chunk reaches an engine: launched when it is idle, else it waits (R130). -/
def State.giveChunk (s : State) (hr eng : Nat) (c : Chunk) : State :=
  let k := engineKey hr eng
  if !s.up (6 + hr) then s
  else if (s.engine k).run.isNone && (s.engine k).wait.isNone then s.launchChunk hr eng c
  else s.setEngine k { (s.engine k) with wait := some c }

/-- Synthesis of row r of the frame with counter f starts: ring entry, stack bank, chunks from the kernel entry of its
descriptor, if it has one; the sampler caches drop their plane lines (17 R367). -/
def State.rowStart (s : State) (r f : Nat) (entry : Option Nat) : State :=
  let s := (s.dropCached (·.plane)).ringAssign r
  let b := s.latchRow r
  let s := if r % 2 = 0 then { s with syn := { s.syn with bank0 := b } } else { s with syn := { s.syn with bank1 := b } }
  let s := (List.range 12).foldl (fun s hr => if s.up (6 + hr) then s.stackTable hr r b.stack else s) s
  match entry with
  | some e =>
    (List.range 192).foldl (fun s i => s.giveChunk (i / 16) (i % 16) ⟨r, e, f, 0⟩) s
  | none => s

/-- The descriptor of row r of a blanked frame has been removed without launch (08 R194): the row has no chunk left to end. -/
def State.rowWithheld (s : State) (r : Nat) : State :=
  if r % 2 = 0 then { s with syn := { s.syn with bank0 := { s.syn.bank0 with ended := 192 } } }
  else { s with syn := { s.syn with bank1 := { s.syn.bank1 with ended := 192 } } }

/-- Chunks of a row that still run are cancelled, and what waits behind them launches (R130, R144). -/
def State.cancelRow (s : State) (row : Nat) : State :=
  (List.range 192).foldl (fun s i =>
    let hr := i / 16
    let eng := i % 16
    let k := engineKey hr eng
    let mine (c : Option Chunk) : Bool := match c with | some c => c.row == row | none => false
    let s := if mine (s.engine k).wait then
        (s.setEngine k { (s.engine k) with wait := none }).bump (Reg.hrCnt hr 1)
      else s
    if mine (s.engine k).run then
      let s := s.cancelChunk hr eng
      match (s.engine k).wait with
      | some c => s.launchChunk hr eng c
      | none => s
    else s) s

/-! ## Late rows and the shed set (R141, R142) -/

/-- The entry that a late row sheds: the last sheddable one not yet shed. -/
def State.shedNext (s : State) : Option (Bool × Nat) :=
  ((s.fullStack.filter fun e => e.sheddable && !s.isShed e).getLast?).map fun e => (e.plane, e.id)

/-- The late test of row r at the start of slot r (R141). -/
def State.lateTest (s : State) (r : Nat) : State :=
  if 192 ≤ (s.bank r).ended && (s.bank r).row = r then s
  else
    let s := ((s.setFlag Reg.hrSynStatus 31).event 101).bump (Reg.hrSynCnt 0)
    let s := s.setFld Reg.hrSynStatus 8 0 r
    let s := { s with syn := { s.syn with lateSeen := true } }
    if s.flag Reg.hrSynCtrl 0 then
      match s.shedNext with
      | some x => { s with syn := { s.syn with shed := s.syn.shed ++ [x] } }.bump (Reg.hrSynCnt 2)
      | none => s
    else s

/-- An entry of the shed set still qualifies (R142). -/
def State.shedStays (s : State) (x : Bool × Nat) : Bool :=
  s.fullStack.any fun e => e.plane == x.1 && e.id == x.2 && e.sheddable

/-- The update of the shed set at slot 447 (R142): every entry it removes counts in HR_CNT_RESTORE (Table SYN-7). -/
def State.shedUpdate (s : State) : State :=
  let restore := s.flag Reg.hrSynCtrl 1 && !s.syn.lateSeen && !s.syn.shed.isEmpty
  let kept := if restore then s.syn.shed.dropLast else s.syn.shed
  let shed := kept.filter s.shedStays
  let s := s.bump (Reg.hrSynCnt 3) (s.syn.shed.length - shed.length)
  let s := { s with syn := { s.syn with shed := shed, lateSeen := false } }
  { s with syn := { s.syn with shedAt447 := s.shedWord } }

/-! ## The proof view (R145 to R148) -/

/-- The least divider of a rate (R145). -/
def leastDiv (rate : Nat) : Nat := if rate ≤ 1 then 4 else if rate ≤ 3 then 2 else if rate = 4 then 8 else 7

def pvBytes (format : Bool) : Nat := if format then 3 else 4

def pvImage (format : Bool) : Nat := 3072 * 1728 * pvBytes format

/-- A UF20 colour as a field of full scale k, ties up (R147). -/
def pvLevel (k : Nat) (c : BitVec 20) : Nat :=
  match unpackF uf20 c.toNat with
  | .fin _ m e =>
    if 0 ≤ e then (if m = 0 then 0 else k)
    else min k ((2 * m * k + 2 ^ (-e).toNat) / (2 * 2 ^ (-e).toNat))
  | _ => 0

/-- The pixel of a lenslet (R147). -/
def pvPixel (format rep : Bool) (r g b : BitVec 20) : List Byte :=
  if format then leBytes 3 (pvLevel 255 r + pvLevel 255 g * 2 ^ 8 + pvLevel 255 b * 2 ^ 16)
  else leBytes 4 (pvLevel 1023 r + pvLevel 1023 g * 2 ^ 10 + pvLevel 1023 b * 2 ^ 20 + bnat rep * 2 ^ 30)

/-- The capture at slot 0 of a frame (R145, R146). -/
def State.pvFlip (s : State) : State :=
  let dv := max (max 1 (s.fld Reg.hrPvCtrl 15 8)) (leastDiv s.seq.rate)
  if !s.flag Reg.hrPvCtrl 31 || s.seq.frame % dv != 0 then s
  else
    match s.syn.pvQueue with
    | [] => (s.bump (Reg.hrSynCnt 4)).event 105
    | x :: rest =>
      let s := { s with syn := { s.syn with pvQueue := rest } }
      let fmt := s.flag Reg.hrPvCtrl 30
      if s.bufLen x < 128 + pvImage fmt || s.seq.switchFrame then
        ((s.returnBuffer 22 x 3).bump (Reg.hrSynCnt 4)).event 105
      else
        let cap : Capture :=
          { buf := x, format := fmt, s := min 19 (s.fld Reg.hrPvCtrl 4 0), t := min 4 (s.fld Reg.hrPvCtrl 7 5),
            frame := s.seq.frame, flip := s.seq.flipWall, scene := s.dec.emitFrame.getD 0, shed := s.syn.shedAt447,
            repeated := 0 }
        { s with syn := { s.syn with capture := some cap } }

/-- The pixel of a lenslet as finishing reads it (R148). -/
def State.pvLenslet (s : State) (tile u row : Nat) : State :=
  match s.syn.capture with
  | none => s
  | some c =>
    let p := 300 * u + 3 * (c.t * 20 + c.s)
    let at_ (k : Nat) : BitVec 20 := s.ringAt tile (row % 3) (p + k)
    let rep := SMap.get (fun _ => false) s.syn.repeated (maskKey tile (row % 3) u)
    let x := c.buf + 128 + (3072 * (432 * (tile / 4) + row) + 768 * (tile % 4) + u) * pvBytes c.format
    let s := s.winWrite 22 x (pvPixel c.format rep (at_ 0) (at_ 1) (at_ 2))
    { s with syn := { s.syn with capture := some { c with repeated := c.repeated + bnat rep } } }

/-- The capture header (Table SYN-6). -/
def pvHeader (c : Capture) : List Byte :=
  leBytes 8 (c.frame % 2 ^ 48) ++ leBytes 8 c.flip ++ leBytes 2 c.scene ++ leBytes 1 c.s
    ++ leBytes 1 (c.t + bnat c.format * 128) ++ leBytes 4 c.repeated ++ leBytes 4 c.shed ++ List.replicate 36 0

/-- PV_DONE (R148, R340): after the last active slot of the captured frame the buffer is completed and returned. -/
def execPvDone (s : State) : Out :=
  match s.syn.capture with
  | some c =>
    if s.live 22 && (432 ≤ s.seq.slot || c.frame != s.seq.frame) then
      let used := 64 + pvImage c.format
      let s := s.winWrite 22 (c.buf + 64) (pvHeader c)
      let crc := crc32 (s.bytesAt (winAddr (c.buf + 64)) used)
      let s := (s.winWrite 22 (c.buf + 8) (leBytes 4 used)).winWrite 22 (c.buf + 12) (leBytes 4 crc)
      let s := (s.returnBuffer 22 c.buf 0).event 104
      .next { s with syn := { s.syn with capture := none } }
    else .next s
  | none => .next s

/-- A write of HR_PV_POST: a post to a full queue is ignored (06 HR_PV_POST; R337). -/
def State.pvPostWrite (s : State) (v : Word) : State :=
  if 4 ≤ s.syn.pvQueue.length + s.posting .hrPv then s.event 106 else s.post .hrPv (v.toNat &&& 0x3FFFFFC0)

/-- HR_PV_POST (R146, R337). -/
def execHrPvPost (b : BusWrite) (s : State) : Out := .next (s.busWrite Reg.hrPvPost b State.pvPostWrite)

/-! ## The completeness check (R143, R144) -/

/-- A lenslet that is not complete takes the values of the repeat source. -/
def State.repeatLenslet (s : State) (tile u row : Nat) : State :=
  let e := row % 3
  let src := (row + 2) % 3
  let s := s.ringWrite tile e (300 * u) ((List.range 300).map fun k => s.ringAt tile src (300 * u + k))
  let s := s.setRingMask tile e u (BitVec.allOnes 100)
  let first := s.syn.repeatRow != some row
  let repeated := SMap.put (fun _ => false) s.syn.repeated (maskKey tile e u) true
  let s := { s with syn := { s.syn with repeated := repeated, repeatRow := some row,
                                        repeatCount := s.syn.repeatCount + 1 } }
  let s := (s.bump (Reg.hrSynCnt 1)).setFlag Reg.hrSynStatus 30
  if first then s.event 102 else s

/-- The chunk whose last lenslet is checked is cancelled if it still runs; one whose last thread has exited in this very cycle
counts as cancelled too (R144). -/
def State.lateChunk (s : State) (hr tile row : Nat) : State :=
  let k := engineKey hr tile
  let s := match s.cyc.ended.find? fun x => x.1 == k && x.2.1 == row with
    | some x =>
      let s := { s with cyc := { s.cyc with ended := s.cyc.ended.filter (· != x) } }
      (if x.2.2 then s.unbump (Reg.hrCnt hr 0) else s).bump (Reg.hrCnt hr 1)
    | none => s
  match (s.engine k).run with
  | some c => if c.row = row then s.cancelChunk hr tile else s
  | none => s

/-- The check of lenslet (u, row) of a tile, which sees no store of its own cycle: repeat, mark, proof view, and the cancellation
of a chunk whose last lenslet it is. -/
def State.lensletCheck (s : State) (tile u row : Nat) : State :=
  let e := row % 3
  let s := s.ringUndo tile e u
  let s := if s.ringMask tile e u = BitVec.allOnes 100 then s else s.repeatLenslet tile u row
  let checked := SMap.put (fun _ => false) s.syn.checked (maskKey tile e u) true
  let s := { s with syn := { s.syn with checked := checked } }
  let s := s.pvLenslet tile u row
  if u % 64 = 63 then s.lateChunk (u / 64) tile row else s

/-! ## Counters -/

/-- HR_CNT_CLR (R80). -/
def State.hrCntClr (s : State) (h : Nat) (v : Word) : State :=
  if v.getLsbD 0 then s.clrRegs (Reg.hrCnt h 0) 5 else s

/-- HR_CNT_CLR (R80). -/
def execHrCntClr (hr : Fin 12) (b : BusWrite) (s : State) : Out :=
  .next (s.busWrite (Reg.hrCntClr hr.val) b fun s v => s.hrCntClr hr.val v)

/-- HR_SYN_CNT_CLR (R80). -/
def State.hrSynCntClr (s : State) (v : Word) : State :=
  if v.getLsbD 0 then s.clrRegs (Reg.hrSynCnt 0) 5 else s

/-- HR_SYN_CNT_CLR (R80). -/
def execHrSynCntClr (b : BusWrite) (s : State) : Out :=
  .next (s.busWrite Reg.hrSynCntClr b State.hrSynCntClr)

end Sys2Proof.Machine
end

