-- ==== Sys2Proof/Machine/Lanes.lean ====
section
/-!
DEFINITION. Serial lanes (03): the lane inventory, Gray mapping and precoder, scrambler, the RS(544,528) codec, alignment,
lane states, PRBS and injection. A received codeword comes as line levels (0 to 3 on PAM4 lanes, 0 or 1 on NRZ lanes); a
sent one is left in `Lane.line`. The rows whose effects reach a link layer (CODEWORD_RECEIVED, ALIGNMENT_HUNT, LOCK_LOST,
SIG_LOST) have their lane part here and their meaning in Receive.lean.
-/
namespace Sys2Proof.Machine

/-! ## The lanes (Table LNE-1) -/

def laneTx (l : Nat) : Bool := l < 50
def laneBurst (l : Nat) : Bool := l == 48 || l == 49
/-- Block of Table RST-3 that a lane belongs to. -/
def laneBlock (l : Nat) : Nat := if 48 ≤ l && l < 58 then 4 else 3

/-! ## RS(544,528) over GF(2^10) (R57, R58, R60) -/

/-- Product in GF(2^10) with x^10 + x^3 + 1. -/
def gfMul (a b : Nat) : Nat :=
  let p := (List.range 10).foldl (fun acc i => if b.testBit i then acc ^^^ (a <<< i) else acc) 0
  (List.range 9).foldl (fun acc i => if acc.testBit (18 - i) then acc ^^^ (0x409 <<< (8 - i)) else acc) p

def gfPow (a : Nat) : Nat → Nat
  | 0 => 1
  | n + 1 => gfMul a (gfPow a n)

/-- Inverse of a nonzero element. -/
def gfInv (a : Nat) : Nat := gfPow a 1022

/-- The first n powers of a, from a^0. -/
def gfPowers (a : Nat) : Nat → Nat → List Nat
  | 0, _ => []
  | n + 1, x => x :: gfPowers a n (gfMul x a)

/-- Value of a polynomial, lowest coefficient first. -/
def gfEval (p : List Nat) (x : Nat) : Nat := p.foldr (fun c acc => c ^^^ gfMul acc x) 0

def gfPolyAdd : List Nat → List Nat → List Nat
  | [], q => q
  | p, [] => p
  | a :: p, b :: q => (a ^^^ b) :: gfPolyAdd p q

def gfPolyScale (c : Nat) (p : List Nat) : List Nat := p.map (gfMul c)

def gfPolyMul : List Nat → List Nat → List Nat
  | [], _ => []
  | a :: p, q => gfPolyAdd (gfPolyScale a q) (0 :: gfPolyMul p q)

/-- Generator polynomial (x - α^0) … (x - α^15), lowest coefficient first. -/
def rsGen : List Nat := (gfPowers 2 16 1).foldl (fun g r => gfPolyMul g [r, 1]) [1]

/-- The 16 parity symbols of 528 message symbols, coefficient of x^15 first (R57, R58). -/
def rsParity (msg : List Nat) : List Nat :=
  let g := (rsGen.take 16).reverse
  msg.foldl (fun rem m =>
    let f := m ^^^ rem.headD 0
    List.zipWith (fun r c => r ^^^ gfMul f c) (rem.drop 1 ++ [0]) g) (List.replicate 16 0)

def rsSyndromes (r : List Nat) : List Nat :=
  (gfPowers 2 16 1).map fun x => r.foldl (fun acc c => c ^^^ gfMul acc x) 0

/-- State of the key-equation iteration: locator, last locator, length, gap, last discrepancy. -/
structure KeyEq where
  loc : List Nat
  old : List Nat
  len : Nat
  gap : Nat
  disc : Nat

def keyStep (syn : List Nat) (k : KeyEq) (n : Nat) : KeyEq :=
  let d := (List.range (k.len + 1)).foldl
    (fun acc i => acc ^^^ gfMul (k.loc.getD i 0) (syn.getD (n - i) 0)) 0
  if d = 0 then { k with gap := k.gap + 1 }
  else
    let next := gfPolyAdd k.loc (List.replicate k.gap 0 ++ gfPolyScale (gfMul d (gfInv k.disc)) k.old)
    if 2 * k.len ≤ n then ⟨next, k.loc, n + 1 - k.len, 1, d⟩
    else { k with loc := next, gap := k.gap + 1 }

/-- Positions (powers of x) of the roots of a locator among the 544 symbols. -/
def rsRoots (loc : List Nat) : List Nat :=
  ((List.zip (List.range 544) (gfPowers (gfInv 2) 544 1)).filter fun p => gfEval loc p.2 == 0).map (·.1)

/-- Formal derivative in characteristic 2. -/
def gfDeriv (p : List Nat) : List Nat :=
  ((List.zip (List.range p.length) p).drop 1).map fun q => if q.1 % 2 = 1 then q.2 else 0

/-- Decode 544 received symbols, first symbol the coefficient of x^543: the corrected symbols and how many were wrong,
or none when there are more errors than the code can locate (R60). -/
def rsDecode (r : List Nat) : Option (List Nat × Nat) :=
  let syn := rsSyndromes r
  if syn.all (· == 0) then some (r, 0)
  else
    let k := (List.range 16).foldl (keyStep syn) ⟨[1], [1], 0, 1, 1⟩
    let roots := rsRoots k.loc
    if k.len ≤ 8 && roots.length == k.len then
      let omega := (gfPolyMul syn k.loc).take 16
      let der := gfDeriv k.loc
      let fixed := roots.foldl (fun (r : List Nat) p =>
        let xi := gfPow (gfInv 2) p
        let e := gfMul (gfPow 2 p) (gfMul (gfEval omega xi) (gfInv (gfEval der xi)))
        r.set (543 - p) (r.getD (543 - p) 0 ^^^ e)) r
      if (rsSyndromes fixed).all (· == 0) then some (fixed, k.len) else none
    else none

/-! ## Bits and blocks (R53 to R56, R58, R59) -/

/-- Value of bits, first bit lowest. -/
def packBits : List Bool → Nat
  | [] => 0
  | b :: bs => bnat b + 2 * packBits bs

def unpackBits : Nat → Nat → List Bool
  | 0, _ => []
  | n + 1, v => (v % 2 == 1) :: unpackBits n (v / 2)

/-- Cut a list into pieces of k. -/
def chunks {α : Type} (k : Nat) : Nat → List α → List (List α)
  | 0, _ => []
  | n + 1, xs => xs.take k :: chunks k n (xs.drop k)

/-- One scrambled bit: hist bit i is the line bit i + 1 places earlier (R56). -/
def scrTap (hist : Nat) : Bool := (hist.testBit 38) != (hist.testBit 57)

def scrPush (hist : Nat) (b : Bool) : Nat := (2 * hist + bnat b) % 2 ^ 58

/-- Descramble content bits; the state follows the line bits. -/
def descramble : Nat → List Bool → List Bool × Nat
  | h, [] => ([], h)
  | h, b :: bs =>
    let r := descramble (scrPush h b) bs
    ((b != scrTap h) :: r.1, r.2)

def scramble : Nat → List Bool → List Bool × Nat
  | h, [] => ([], h)
  | h, b :: bs =>
    let o := b != scrTap h
    let r := scramble (scrPush h o) bs
    (o :: r.1, r.2)

/-- Header of block i of a codeword as two line bits, restored for the marker (R59). -/
def restoreHeader (i : Nat) (h : Bool × Bool) : Bool × Bool := if i = 0 then (!h.1, !h.2) else h

/-- Block i from its 66 line bits: (block, descrambler state). Header 01 is data, 10 control, else invalid (R55); an invalid
block stands as a data block to the link layer (DESIGN CHOICE, log entry 91). -/
def readBlock (i h : Nat) (bs : List Bool) (mark : Bool) : Block × Nat :=
  let hd := restoreHeader i (bs.headD false, (bs.drop 1).headD false)
  let d := descramble h (bs.drop 2)
  (⟨hd.1 && !hd.2, BitVec.ofNat 64 (packBits d.1), mark || hd.1 == hd.2⟩, d.2)

def readBlocks : Nat → Nat → List (List Bool) → Bool → List Block × Nat
  | _, h, [], _ => ([], h)
  | i, h, b :: bs, mark =>
    let r := readBlock i h b mark
    let rest := readBlocks (i + 1) r.2 bs mark
    (r.1 :: rest.1, rest.2)

/-- 66 line bits of a block in position i. -/
def sendBlock (i h : Nat) (b : Block) : List Bool × Nat :=
  let hd := restoreHeader i (b.ctl, !b.ctl)
  let d := scramble h (unpackBits 64 b.data.toNat)
  (hd.1 :: hd.2 :: d.1, d.2)

def sendBlocks : Nat → Nat → List Block → List Bool × Nat
  | _, h, [] => ([], h)
  | i, h, b :: bs =>
    let r := sendBlock i h b
    let rest := sendBlocks (i + 1) r.2 bs
    (r.1 ++ rest.1, rest.2)

/-- The 5,440 line bits of a codeword of 80 blocks (R57, R58). -/
def sendCodeword (h : Nat) (bs : List Block) : List Bool × Nat :=
  let m := sendBlocks 0 h bs
  let syms := (chunks 10 528 m.1).map packBits
  (m.1 ++ ((rsParity syms).map (unpackBits 10)).flatten, m.2)

/-! ## Line levels (R62, R63, Table LNE-4) -/

def grayOf (a b : Bool) : Nat := match a, b with
  | false, false => 0
  | false, true => 1
  | true, true => 2
  | true, false => 3

def grayBits (g : Nat) : List Bool := match g % 4 with
  | 0 => [false, false]
  | 1 => [false, true]
  | 2 => [true, true]
  | _ => [true, false]

/-- Received levels to line bits, with P_(k-1) carried (R62, R63). -/
def levelsToBits (pam inv pre : Bool) : Nat → List (BitVec 2) → List Bool × Nat
  | p, [] => ([], p)
  | p, x :: xs =>
    if pam then
      let v := if inv then 3 - x.toNat else x.toNat
      let g := if pre then (v + p) % 4 else v
      let r := levelsToBits pam inv pre v xs
      (grayBits g ++ r.1, r.2)
    else
      let r := levelsToBits pam inv pre p xs
      ((x.getLsbD 0 != inv) :: r.1, r.2)

/-- Line bits to levels sent. -/
def bitsToLevels (pam inv pre : Bool) : Nat → List Bool → List (BitVec 2) × Nat
  | p, [] => ([], p)
  | p, [a] => ([BitVec.ofNat 2 (bnat (a != inv))], p)
  | p, a :: b :: bs =>
    if pam then
      let g := grayOf a b
      let v := if pre then (g + 4 - p) % 4 else g
      let r := bitsToLevels pam inv pre v bs
      (BitVec.ofNat 2 (if inv then 3 - v else v) :: r.1, r.2)
    else
      let r := bitsToLevels pam inv pre p bs
      (BitVec.ofNat 2 (bnat (a != inv)) :: BitVec.ofNat 2 (bnat (b != inv)) :: r.1, r.2)

/-- Invert the line bits at the injected positions (R77). -/
def flipBits (fl : List Nat) (bs : List Bool) : List Bool :=
  (List.zip (List.range bs.length) bs).map fun p => if fl.contains p.1 then !p.2 else p.2

/-! ## Control blocks of the lane (Table LNE-2) -/

def idleBlock : Block := ⟨true, 0x1E, false⟩

def quietNotice (k : Nat) : Block := ⟨true, BitVec.ofNat 64 (0x55 + k * 256), false⟩

def Block.type (b : Block) : Nat := b.data.toNat % 256

/-- The lane itself consumes unmarked IDLE and QUIET_NOTICE (R54). -/
def laneOwned (b : Block) : Bool := b.ctl && !b.bad && (b.type == 0x1E || b.type == 0x55)

/-- A received block is an unmarked QUIET_NOTICE (R66). -/
def isNotice (b : Block) : Bool := b.ctl && !b.bad && b.type == 0x55

/-! ## Reception (R55, R60, R64, R65) -/

/-- Count one header of the 64-block window; the flag says the window just ended with 16 or more invalid (R65). -/
def windowStep (n bad : Nat) (invalid : Bool) : Nat × Nat × Bool :=
  if n + 1 = 64 then (0, 0, decide (16 ≤ bad + bnat invalid)) else (n + 1, bad + bnat invalid, false)

/-- Headers of a codeword as received, through the windows: (count, bad, invalid headers, blocks before the loss). -/
def windowRun : Nat → Nat → List Bool → Nat → Nat × Nat × Nat × Option Nat
  | n, bad, [], _ => (n, bad, 0, none)
  | n, bad, inv :: rest, i =>
    let w := windowStep n bad inv
    if w.2.2 then (0, 0, bnat inv, some (i + 1))
    else
      let r := windowRun w.1 w.2.1 rest (i + 1)
      (r.1, r.2.1, r.2.2.1 + bnat inv, r.2.2.2)

/-- Is the header of block i, as received, invalid? -/
def headerInvalid (bs : List Bool) : Bool := bs.headD false == (bs.drop 1).headD false

/-- Positions of injected bits that fall in the next n line bits, and those that stay for the bits after. -/
def flipsNow (n : Nat) (fl : List Nat) : List Nat := fl.filter (· < n)

def flipsLater (n : Nat) (fl : List Nat) : List Nat := (fl.filter (n ≤ ·)).map (· - n)

/-- The line bits of received levels on lane l, with its injections applied, and P_(k-1) after them. -/
def State.laneBits (s : State) (l : Nat) (levels : List (BitVec 2)) : List Bool × Nat :=
  let ln := s.lane l
  let r := levelsToBits (lanePam4 l) (s.flag (Reg.laneCtrl l) 5) ln.preOn ln.pre.toNat levels
  (flipBits ln.injFlips r.1, r.2)

/-- The lane after n received line bits: injections in them have been spent, and a change of PRECODE takes effect (R62). -/
def State.laneTook (s : State) (l n : Nat) (pre : Nat) (ln : Lane) : Lane :=
  { ln with pre := BitVec.ofNat 2 pre, preOn := s.flag (Reg.laneCtrl l) 4 && lanePam4 l
            injFlips := flipsLater n ln.injFlips, cwAt := s.now }

/-- The lane receives codewords now. -/
def State.laneReceiving (s : State) (l : Nat) : Bool :=
  !laneTx l && s.live (laneBlock l) && (s.lane l).st == .active && !s.flag (Reg.lanePrbs l) 6

/-- A block handed to the link layer: the line bits from its first header bit to the end of its codeword, or of the
last codeword delivered with it, and the block (R61, R100). -/
abbrev Delivered := Nat × Block

/-- Blocks of one codeword with the line bits that follow from their first header bit; those the lane consumes are left
out (R54). -/
def delivered (extra : Nat) (bs : List Block) : List Delivered :=
  ((List.zip (List.range bs.length) bs).filter fun p => !laneOwned p.2).map fun p => (extra + 5440 - 66 * p.1, p.2)

/-- A codeword on a locked receive lane: correction or marks, counters, windows, descrambling, lane-owned blocks; the
blocks for the link layer are handed on (R55, R60, R61, R65). -/
def State.laneCodeword (s : State) (l : Nat) (levels : List (BitVec 2)) : State × List Delivered :=
  let ln := s.lane l
  let bp := s.laneBits l levels
  let syms := (chunks 10 544 bp.1).map packBits
  let raw := chunks 66 80 bp.1
  let w := windowRun ln.winCount ln.winBad (raw.map headerInvalid) 0
  let dec := rsDecode syms
  let good := (dec.map fun d => (d.1.map (unpackBits 10)).flatten).getD bp.1
  let rd := readBlocks 0 ln.scr.toNat (chunks 66 80 good) dec.isNone
  let passed := match w.2.2.2 with | some k => k | none => 80
  let invalidAfter := (((chunks 66 80 good).take passed).filter headerInvalid).length
  let blocks := rd.1.take passed
  let ln' := { s.laneTook l 5440 bp.2 ln with
    scr := BitVec.ofNat 58 rd.2
    winCount := w.1
    winBad := w.2.1
    lossDue := ln.lossDue || w.2.2.2.isSome
    noticeAt := if blocks.any isNotice then some s.now else ln.noticeAt }
  let s := ((s.setLane l ln').bump (Reg.laneCntCw l)).bump (Reg.laneCntHdrErr l) (w.2.2.1 + invalidAfter)
  let s := match dec with
    | some (_, 0) => s
    | some (_, n) => (s.bump (Reg.laneCntCorr l)).bump (Reg.laneCntSym l) n
    | none => ((s.bump (Reg.laneCntUncorr l)).setFlag (Reg.laneStatus l) 10).event 65
  (s, delivered 0 blocks)

/-! ## Alignment (R64, R67) -/

/-- Candidates of a lane, in the order the hunter takes them. -/
def candidateAt (l i : Nat) : Nat := if lanePam4 l then 2 * (i % 2720) else i % 5440

/-- Header test of a candidate: headers of positions 1 to 64 all valid (R64). -/
def candidatePasses (bs : List Bool) (c : Nat) : Bool :=
  ((chunks 66 65 (bs.drop c)).drop 1).all fun b => !headerInvalid b

def codewordAt (bs : List Bool) (c : Nat) : List Nat := (chunks 10 544 (bs.drop c)).map packBits

/-- One codeword time of the hunter on two codewords of line bits: 64 candidates tested, one trial decode or one
confirmation; lock after two confirming codewords, whose blocks are delivered. -/
def huntStep (l : Nat) (ln : Lane) (bs : List Bool) : Lane × List Block :=
  let tested := (List.range 64).map fun i => candidateAt l (ln.hunt + i)
  let passed := ln.passed ++ tested.filter (candidatePasses bs)
  let ln := { ln with hunt := ln.hunt + 64, passed := passed }
  match ln.confirm with
  | some (c, k) =>
    match rsDecode (codewordAt bs c) with
    | some d =>
      let rd := readBlocks 0 ln.scr.toNat (chunks 66 80 ((d.1.map (unpackBits 10)).flatten)) false
      let got := ln.confirmed ++ rd.1
      if k = 1 then
        ({ ln with confirm := none, confirmed := [], passed := [], hunt := 0, scr := BitVec.ofNat 58 rd.2,
                   blockLock := true, cwLock := true, winCount := 0, winBad := 0, lossDue := false }, got)
      else ({ ln with confirm := some (c, k + 1), confirmed := got, scr := BitVec.ofNat 58 rd.2 }, [])
    | none => ({ ln with confirm := none, confirmed := [] }, [])
  | none =>
    match ln.passed with
    | [] => (ln, [])
    | c :: rest =>
      match rsDecode (codewordAt bs c) with
      | some _ => ({ ln with passed := rest, confirm := some (c, 0), confirmed := [] }, [])
      | none => ({ ln with passed := rest }, [])

/-- Line bits of the window that the hunter leaves behind: one codeword time, and on lock all before the next codeword. -/
def huntTook (ln : Lane) (locked : Bool) : Nat :=
  match ln.confirm with
  | some (c, _) => if locked then c + 5440 else 5440
  | none => 5440

/-- The hunting part of ALIGNMENT_HUNT (R64): `levels` are two codeword times of the line, of which the next hunt shows the
second again; on lock the confirming codewords' blocks are handed on, their invalid blocks counted (R55) and their
QUIET_NOTICE blocks noted (R66). -/
def State.laneHunt (s : State) (l : Nat) (levels : List (BitVec 2)) : State × List Delivered :=
  if s.laneReceiving l && (s.lane l).cdrLock && !(s.lane l).cwLock then
    let r := huntStep l (s.lane l) (s.laneBits l levels).1
    let n := huntTook (s.lane l) r.1.cwLock
    let ln := s.laneTook l n (s.laneBits l (levels.take (if lanePam4 l then n / 2 else n))).2 r.1
    let ln := if r.2.any isNotice then { ln with noticeAt := some s.now } else ln
    ((s.setLane l ln).bump (Reg.laneCntHdrErr l) (r.2.filter (·.bad)).length,
      delivered 5440 (r.2.take 80) ++ delivered 0 (r.2.drop 80))
  else (s, [])

/-- Both lock bits clear and the hunt starts over (R65, R66). -/
def Lane.unlock (ln : Lane) : Lane :=
  { ln with blockLock := false, cwLock := false, hunt := 0, passed := [], confirm := none, confirmed := [],
            winCount := 0, winBad := 0, lossDue := false }

/-- Loss of lock on invalid headers (R65, R79). -/
def State.laneLockLost (s : State) (l : Nat) : State :=
  ((s.setLane l (s.lane l).unlock).setFlag (Reg.laneStatus l) 8).event 64

/-! ## States (R70 to R72) -/

/-- The state that governs the lane: STATE_REQ, or the link layer's request under AUTO (R70). -/
def State.laneWant (s : State) (l : Nat) : LaneSt :=
  match s.fld (Reg.laneCtrl l) 2 0 with
  | 1 => .active
  | 2 => .quiet
  | 3 => .dormant
  | _ => (s.lane l).link

/-- A request (R71): held while a transition runs, without effect for the state in force, else waiting for the next
codeword boundary. -/
def Lane.ask (ln : Lane) (w : LaneSt) : Lane :=
  if ln.st = .transition then { ln with held := some w }
  else if ln.st = w then ln
  else { ln with req := some w }

/-- STATE_REQ as the rule reads it: 1 to 3 override, all other values are AUTO (R70). -/
def reqCode (v : Nat) : Nat := if 1 ≤ v % 8 ∧ v % 8 ≤ 3 then v % 8 else 0

/-- The link layer requests a state for lane l; while its lane is in reset or STATE_REQ overrides it, the request stands for
later (R70). -/
def State.laneLink (s : State) (l : Nat) (w : LaneSt) : State :=
  let s := s.setLane l { s.lane l with link := w }
  if s.live (laneBlock l) && reqCode (s.fld (Reg.laneCtrl l) 2 0) == 0 then s.setLane l ((s.lane l).ask w) else s

/-! ## What adaptation shows (R68) -/

/-- LANE_ADAPT or LANE_THRESH of a lane. -/
def adaptReg (off : Nat) : Bool := 0x500000 ≤ off && off < 0x54A000 && (off % 0x1000 == 0x14 || off % 0x1000 == 0x18)

/-- The receiver adapts now: ACTIVE with its clock recovered, ADAPT_FREEZE 0. -/
def State.adapting (s : State) (l : Nat) : Bool :=
  !laneTx l && (s.lane l).st == .active && (s.lane l).cdrLock && !s.flag (Reg.laneCtrl l) 6

/-- LANE_ADAPT or LANE_THRESH as it stands: what the analog part settles on is free while it adapts (DESIGN CHOICE, log entry 73). -/
def State.adaptWord (s : State) (off : Nat) : Word :=
  let l := (off - 0x500000) / 0x1000
  if s.adapting l then
    Config.freeWord s.draws off &&& (if off % 0x1000 = 0x14 then 0x1FFF else if lanePam4 l then 0xFFFFFF else 0xFF00)
  else s.reg off

/-- Adaptation stops: the values hold (R68, Table LNE-5). -/
def State.holdAdapt (s : State) (l : Nat) : State :=
  if s.adapting l then
    (((s.setReg (Reg.laneAdapt l) (s.adaptWord (Reg.laneAdapt l)))).setReg (Reg.laneThresh l)
      (s.adaptWord (Reg.laneThresh l))).drawn
  else s

/-- LANE_CTRL as a write leaves it: fields that do not apply to the lane's kind are reserved. -/
def laneCtrlMask (l : Nat) (v : Word) : Word :=
  v &&& (if laneTx l then 0xFFFFFFBF else 0xFFFFFFFF) &&& (if lanePam4 l then 0xFFFFFFFF else 0xFFFFFFEF)

/-- STATE_REQ (R70): a write of LANE_CTRL stores its fields; a change of STATE_REQ makes the request it names, or gives the
lane back to its link layer's. -/
def State.laneCtrlWrite (s : State) (l : Nat) (v : Word) : State :=
  let was := reqCode (s.fld (Reg.laneCtrl l) 2 0)
  let s := (if v.getLsbD 6 then s.holdAdapt l else s).store (Reg.laneCtrl l) (laneCtrlMask l v)
  if reqCode (s.fld (Reg.laneCtrl l) 2 0) = was then s else s.setLane l ((s.lane l).ask (s.laneWant l))

/-- STATE_REQ (R70). -/
def execStateReq (lane : Fin 74) (b : BusWrite) (s : State) : Out :=
  .next (s.busWrite (Reg.laneCtrl lane.val) b fun s v => s.laneCtrlWrite lane.val v)

/-- Blocks a transmit codeword carries: 80 from the link layer, IDLE where it has none (Table LNE-2). -/
def fillBlocks (n : Nat) (tx : List Block) : List Block :=
  tx.take n ++ List.replicate (n - (tx.take n).length) idleBlock

/-- The next n blocks a lane sends, and the lane without them: on a tile lane heads (12 R261), the first inserts of trains, then
in precision mode insert blocks before row words, in latency mode row words first (12 R269). -/
def Lane.nextBlocks (ln : Lane) (latency : Bool) (n : Nat) : List Block × Lane :=
  let a := (ln.txHead ++ ln.txFirst).take n
  let mid := if latency then ln.tx else ln.txIns
  let b := mid.take (n - a.length)
  let late := if latency then ln.txIns else ln.tx
  let c := late.take (n - a.length - b.length)
  let ln' := { ln with
    txHead := ln.txHead.drop n
    txFirst := ln.txFirst.drop (n - ln.txHead.length)
    tx := ln.tx.drop (if latency then b.length else c.length)
    txIns := ln.txIns.drop (if latency then c.length else b.length) }
  (a ++ b ++ c, ln')

/-- A codeword's line bits leave a transmit lane: the levels stand in `line` (R62, R63, R77). -/
def State.sendBits (s : State) (l : Nat) (bs : List Bool) : State :=
  let ln := s.lane l
  let lv := bitsToLevels (lanePam4 l) (s.flag (Reg.laneCtrl l) 5) ln.preOn ln.pre.toNat (flipBits ln.injFlips bs)
  s.setLane l { ln with pre := BitVec.ofNat 2 lv.2, pre0 := ln.pre, line := lv.1, cwAt := s.now
                        injFlips := flipsLater 5440 ln.injFlips }

/-- Send one codeword of blocks on a transmit lane (R56 to R59). -/
def State.laneSend (s : State) (l : Nat) (bs : List Block) : State :=
  let cw := sendCodeword (s.lane l).scr.toNat bs
  (s.setLane l { s.lane l with scr := BitVec.ofNat 58 cw.2 }).sendBits l cw.1

/-- Next bit of a PRBS from its last 31 bits, the newest lowest (Table LNE-7). -/
def prbsNext (code h : Nat) : Bool :=
  if code = 0 then h.testBit 6 != h.testBit 5
  else if code = 1 then ((h.testBit 12 != h.testBit 11) != h.testBit 1) != h.testBit 0
  else h.testBit 30 != h.testBit 27

def prbsRun (code : Nat) : Nat → Nat → List Bool × Nat
  | 0, h => ([], h)
  | n + 1, h =>
    let b := prbsNext code h
    let r := prbsRun code n ((2 * h + bnat b) % 2 ^ 31)
    (b :: r.1, r.2)

/-- A codeword time of PRBS bits. -/
def State.prbsSend (s : State) (l : Nat) : State :=
  let ln := s.lane l
  let g := prbsRun ln.genPoly.toNat 5440 ln.genState.toNat
  (s.setLane l { ln with genState := BitVec.ofNat 31 g.2 }).sendBits l g.1

/-- A codeword boundary of a lane: pending FIR, PRECODE and PRBS generator settings take effect (R62, R69). -/
def State.laneBoundary (s : State) (l : Nat) : State :=
  let s := match (s.lane l).firPend with | some w => s.setReg (Reg.laneTxfir l) w | none => s
  let on := laneTx l && s.flag (Reg.lanePrbs l) 2
  s.setLane l { s.lane l with
    firPend := none
    preOn := s.flag (Reg.laneCtrl l) 4 && lanePam4 l
    genOn := on
    genPoly := BitVec.ofNat 2 (s.fld (Reg.lanePrbs l) 1 0)
    txen := on && laneBurst l && (s.lane l).st == .active }

/-- STATE_TRANSITION (R71, R72): the waiting request begins at a codeword boundary; a transmitter that enters QUIET has sent
eight QUIET_NOTICE blocks in the last block positions before it. A lane whose PRBS generator is on sends no blocks, a burst
lane none outside bursts (DESIGN CHOICE, log entry 92). -/
def execStateTransition (lane : Fin 74) (s : State) : Out :=
  let l := lane.val
  match (s.lane l).req with
  | some w =>
    if s.live (laneBlock l) && (s.lane l).st != .transition then
      let s := s.laneBoundary l
      let s := if laneTx l && (s.lane l).st == .active && w == .quiet && !laneBurst l then
          if (s.lane l).genOn then s.prbsSend l else
          let nx := (s.lane l).nextBlocks s.latency 72
          (s.setLane l nx.2).laneSend l (fillBlocks 72 nx.1 ++ (List.range 8).map fun k => quietNotice (7 - k))
        else s
      let s := s.holdAdapt l
      .next (s.setLane l { s.lane l with st := .transition, target := w, req := none, txen := false })
    else .next s
  | none => .next s

/-- What a lane holds once it has entered a state: outside ACTIVE a receiver has no lock, a transmitter sends nothing. -/
def Lane.enter (ln : Lane) (w : LaneSt) : Lane :=
  let ln := { ln with st := w, target := w }
  if w = .active then { ln with pre := 0 }
  else { ln.unlock with cdrLock := false, line := [], txen := false, sigDet := if w = .dormant then false else ln.sigDet }

/-- A transition ends in state w: the settings of the boundary are in force, and a held request is acted on (R71). -/
def State.laneArrive (s : State) (l : Nat) (w : LaneSt) : State :=
  let s := s.laneBoundary l
  let ln := (s.lane l).enter w
  s.setLane l (match ln.held with
    | some w => { ln with held := none }.ask w
    | none => ln)

/-- STATE_REQ is AUTO (R70). -/
def State.laneQuietDue (s : State) (l : Nat) : Bool := reqCode (s.fld (Reg.laneCtrl l) 2 0) == 0

/-- What the signal's loss takes from a receiver stands: it is ACTIVE, or a transition has not yet taken it (R66). -/
def State.signalMatters (s : State) (l : Nat) : Bool :=
  let ln := s.lane l
  ln.st == .active || (ln.st == .transition && (ln.cdrLock || ln.blockLock || ln.cwLock))

/-- SIG_LOST's lane part (R66): within 2 µs of a QUIET_NOTICE and under AUTO the receiver enters QUIET and sets no flag;
otherwise lock and CDR_LOCK clear and SIG_LOST sets. -/
def State.laneSigLost (s : State) (l : Nat) : State :=
  let s := s.holdAdapt l
  let ln := s.lane l
  let recent := match ln.noticeAt with | some t => decide (s.now ≤ t + 3200) | none => false
  if recent && s.laneQuietDue l then
    ((s.setLane l { ln with sigDet := false }).laneArrive l .quiet).event 66
  else
    ((s.setLane l { ln.unlock with cdrLock := false, sigDet := false }).setFlag (Reg.laneStatus l) 9).event 64

/-- SIGNAL_DETECT (R67, R68): SIG_DET asserts; an ACTIVE receiver recovers its clock and adapts; a QUIET receiver under AUTO
leaves QUIET for ACTIVE, which Table LNE-5 leaves to "signal detect armed" (DESIGN CHOICE, log entry 93). -/
def execSignalDetect (lane : Fin 74) (s : State) : Out :=
  let l := lane.val
  if laneTx l || !s.live (laneBlock l) then .next s
  else match (s.lane l).st with
  | .active => .next (s.setLane l { s.lane l with sigDet := true, cdrLock := true })
  | .quiet =>
    let ln := { s.lane l with sigDet := true }
    .next (s.setLane l (if s.laneQuietDue l then { ln with st := .transition, target := .active } else ln))
  | _ => .next s

/-! ## Transmit settings (R62, R69, PRBS) -/

/-- Sum of the tap magnitudes of a LANE_TXFIR word (R69). -/
def firSum (v : Nat) : Nat :=
  (sext 4 (bits v 31 28)).natAbs + (sext 6 (bits v 27 22)).natAbs + bits v 21 15
    + (sext 6 (bits v 14 9)).natAbs + (sext 4 (bits v 8 5)).natAbs

/-- LANE_TXFIR_WRITE (R69): over the limit the write changes nothing and sets FIR_REJECT; else it pends to the boundary. -/
def State.laneFirWrite (s : State) (l : Nat) (v : Word) : State :=
  if laneTx l then
    if 64 < firSum v.toNat then s.setFlag (Reg.laneStatus l) 11
    else s.setLane l { s.lane l with firPend := some (v &&& 0xFFFFFFE0) }
  else s

/-- LANE_TXFIR_WRITE (R69). -/
def execLaneTxfirWrite (lane : Fin 74) (b : BusWrite) (s : State) : Out :=
  .next (s.busWrite (Reg.laneTxfir lane.val) b fun s v => s.laneFirWrite lane.val v)

/-- TX_CODEWORD_BOUNDARY (R62, R69): pending FIR, PRECODE and PRBS generator settings take effect, and an ACTIVE lane
sends the next codeword: PRBS bits while the generator is on, else the link layer's blocks. -/
def execTxCodewordBoundary (lane : Fin 74) (s : State) : Out :=
  let l := lane.val
  if laneTx l && s.live (laneBlock l) then
    let s := s.laneBoundary l
    if (s.lane l).st != .active then .next s
    else if (s.lane l).genOn then .next (s.prbsSend l)
    else if laneBurst l then .next s
    else
      let nx := (s.lane l).nextBlocks s.latency 80
      .next ((s.setLane l nx.2).laneSend l (fillBlocks 80 nx.1))
  else .next s

/-! ## Test (R76 to R78) -/

def prbsLen (code : Nat) : Nat := if code = 0 then 7 else if code = 1 then 13 else 31

/-- One received bit at the checker: (lane, error counted) (R76). "32 disagreements in 64 bits" counts in consecutive windows
of 64 bits from the lock (DESIGN CHOICE, log entry 94). -/
def chkBit (code : Nat) (ln : Lane) (b : Bool) : Lane × Nat :=
  let h := ln.chkBits.toNat
  let ln' := { ln with chkBits := BitVec.ofNat 31 (2 * h + bnat b) }
  if ln.chkSeeded < prbsLen code then ({ ln' with chkSeeded := ln.chkSeeded + 1 }, 0)
  else
    let p := prbsNext code h
    let ok := p == b
    if ln.chkLock then
      let ln' := { ln' with chkBits := BitVec.ofNat 31 (2 * h + bnat p) }
      let bad := ln.chkBad + bnat (!ok)
      if bad = 32 then
        ({ ln' with chkLock := false, chkSeeded := 0, chkRun := 0, chkWin := 0, chkBad := 0 }, bnat (!ok))
      else if ln.chkWin + 1 = 64 then ({ ln' with chkWin := 0, chkBad := 0 }, bnat (!ok))
      else ({ ln' with chkWin := ln.chkWin + 1, chkBad := bad }, bnat (!ok))
    else if ok then
      (if ln.chkRun + 1 = 64 then { ln' with chkRun := 0, chkWin := 0, chkBad := 0, chkLock := true }
       else { ln' with chkRun := ln.chkRun + 1 }, 0)
    else ({ ln' with chkRun := 0, chkSeeded := 0 }, 0)

def chkRun (code : Nat) (ln : Lane) (bs : List Bool) : Lane × Nat :=
  bs.foldl (fun (p : Lane × Nat) b => let r := chkBit code p.1 b; (r.1, p.2 + r.2)) (ln, 0)

/-- INJECT_GO (R77, R78): the fields are stored; GO arms one injection unless one is armed (R11). -/
def State.laneInjectWrite (s : State) (l : Nat) (v : Word) : State :=
  let s := s.store (Reg.laneInject l) v
  if v.getLsbD 31 && (s.lane l).inj.isNone then
    s.setLane l { s.lane l with inj := some ⟨bits v.toNat 1 0, bits v.toNat 13 8⟩ }
  else s

/-- INJECT_GO (R77, R78). -/
def execInjectGo (lane : Fin 74) (b : BusWrite) (s : State) : Out :=
  .next (s.busWrite (Reg.laneInject lane.val) b fun s v => s.laneInjectWrite lane.val v)

/-- Line-bit positions that an injection inverts, from the block or codeword boundary at which it acts (Table LNE-8). -/
def injFlipsOf (i : Injection) (at_ : Nat) : List Nat :=
  match i.kind with
  | 0 => [at_ + 2]
  | 1 => (List.range (i.count + 1)).map (at_ + 2 + ·)
  | 2 => [at_]
  | _ => (List.range (10 * (min i.count 15 + 1))).map (at_ + ·)

/-- Line bits of a lane in n core cycles (R5, Table LNE-3: a PAM4 codeword of 5,440 bits takes 81.92 cc). -/
def lineBits (l n : Nat) : Nat := n * 2125 / (if lanePam4 l then 32 else 128)

/-- The first start of a block at or after a bit of the codeword stream, or of a codeword. -/
def boundaryFrom (codeword : Bool) (b : Nat) : Nat :=
  let c := b / 5440 * 5440
  let r := b % 5440
  if codeword then (if r = 0 then b else c + 5440)
  else if r ≤ 66 * 79 then c + (r + 65) / 66 * 66 else c + 5440

/-- The boundary at which an injection acts if it falls in this cycle: its bit in the stream since `cwAt` (R78). -/
def State.injectAt (s : State) (l : Nat) (i : Injection) : Option Nat :=
  let ln := s.lane l
  if s.now < ln.cwAt then none
  else
    let e := s.now - ln.cwAt
    let b := boundaryFrom (i.kind == 3) (if e = 0 then 0 else lineBits l (e - 1) + 1)
    if b ≤ lineBits l e then some b else none

/-- Invert bits of what a transmit lane is sending: positions from the first codeword bit of `line` (R77). -/
def State.patchLine (s : State) (l : Nat) (fl : List Nat) : State :=
  let ln := s.lane l
  let inv := s.flag (Reg.laneCtrl l) 5
  let head := if laneBurst l && !ln.genOn then 2112 else 0
  let bs := (levelsToBits (lanePam4 l) inv ln.preOn ln.pre0.toNat ln.line).1
  let lv := bitsToLevels (lanePam4 l) inv ln.preOn ln.pre0.toNat (flipBits (fl.map (head + ·)) bs)
  s.setLane l { ln with line := lv.1, pre := BitVec.ofNat 2 lv.2 }

/-- Line bits of codewords that a transmit lane is sending. -/
def Lane.lineLength (ln : Lane) (l : Nat) : Nat :=
  (if lanePam4 l then 2 * ln.line.length else ln.line.length) - (if laneBurst l && !ln.genOn then 2112 else 0)

/-- An injection acts at a boundary: on what a transmit lane is sending, or on bits still to come (R77, R78). -/
def State.inject (s : State) (l : Nat) (i : Injection) (at_ : Nat) : State :=
  let ln := { s.lane l with inj := none }
  if laneTx l && at_ < ln.lineLength l then (s.setLane l ln).patchLine l (injFlipsOf i at_)
  else s.setLane l { ln with injFlips := ln.injFlips ++ injFlipsOf i (at_ % 5440) }

/-- INJECTION (R78): at the first block boundary, of the codeword for type 3, the armed injection acts, or is ignored under
PRBS, and BUSY clears. A burst lane has boundaries in its bursts alone. -/
def execInjection (lane : Fin 74) (s : State) : Out :=
  let l := lane.val
  match (s.lane l).inj with
  | some i =>
    if s.live (laneBlock l) then
      match s.injectAt l i with
      | none => .next s
      | some b =>
        let prbs := if laneTx l then (s.lane l).genOn else s.flag (Reg.lanePrbs l) 6
        if laneBurst l && (s.lane l).lineLength l ≤ b then .next s
        else if prbs && 2 ≤ i.kind then
          .next ((s.setLane l { s.lane l with inj := none }).setFlag (Reg.laneStatus l) 12)
        else .next (s.inject l i b)
    else .next s
  | none => .next s

/-- LANE_CNT_CLR (R80, Table LNE-9). -/
def State.laneCntClr (s : State) (l : Nat) (v : Word) : State :=
  if v.getLsbD 0 then (s.clrRegs (Reg.laneCntCw l) 5).clrRegs (Reg.lanePrbsErr l) 1 else s

/-- LANE_CNT_CLR (R80, Table LNE-9). -/
def execLaneCntClr (lane : Fin 74) (b : BusWrite) (s : State) : Out :=
  .next (s.busWrite (Reg.laneCntClr lane.val) b fun s v => s.laneCntClr lane.val v)

/-- A write of LANE_PRBS: an enabled checker starts by seeding itself and holds both lock bits clear (R76). -/
def State.lanePrbsWrite (s : State) (l : Nat) (v : Word) : State :=
  let was := s.flag (Reg.lanePrbs l) 6
  let s := s.store (Reg.lanePrbs l) (v &&& (if laneTx l then 0xFFFFFFFF &&& 0x7 else 0x70))
  if s.flag (Reg.lanePrbs l) 6 && !was then
    s.setLane l { (s.lane l).unlock with chkSeeded := 0, chkRun := 0, chkWin := 0, chkBad := 0, chkLock := false }
  else if !s.flag (Reg.lanePrbs l) 6 then s.setLane l { s.lane l with chkLock := false }
  else s

/-- LANE_STATUS's state bits (03, LANE_STATUS). -/
def Lane.statusBits (ln : Lane) : Nat :=
  bnat ln.held.isSome * 2 ^ 13 + bnat ln.cwLock * 2 ^ 5 + bnat ln.blockLock * 2 ^ 4 + bnat ln.cdrLock * 2 ^ 3
    + bnat ln.sigDet * 2 ^ 2
    + (match ln.st with | .active => 0 | .quiet => 1 | .dormant => 2 | .transition => 3)

end Sys2Proof.Machine
end

