-- ==== Sys2Proof/Machine/TileLink.lean ====
section
/-!
DEFINITION. The tile link (12): the blocks of frames, rows and inserts, tile commands, the return lane, tile states and
TILE_EN, the reference current and the references.
-/
namespace Sys2Proof.Machine

def State.tile (s : State) (n : Nat) : Tile := SMap.get (fun _ => {}) s.tlk.tiles n

def State.setTile (s : State) (n : Nat) (t : Tile) : State :=
  { s with tlk := { s.tlk with tiles := SMap.put (fun _ => {}) s.tlk.tiles n t } }

/-- Apply f to the 16 tiles in order. -/
def State.eachTile (s : State) (f : State → Nat → State) : State := (List.range 16).foldl f s

/-! ## Blocks (Table TLK-2) -/

def ctlBlock (v : Nat) : Block := ⟨true, BitVec.ofNat 64 v, false⟩

def frameHead (frame : Nat) (blanked latency : Bool) (rate : Nat) (short : Bool) (lane : Nat) : Block :=
  ctlBlock (0x1B + frame % 2 ^ 48 * 2 ^ 8 + bnat blanked * 2 ^ 56 + bnat latency * 2 ^ 57 + rate % 8 * 2 ^ 58
    + bnat short * 2 ^ 61 + lane % 4 * 2 ^ 62)

def rowHead (row : Nat) (latency : Bool) (lane frame : Nat) : Block :=
  ctlBlock (0x2D + row % 512 * 2 ^ 8 + bnat latency * 2 ^ 17 + lane % 4 * 2 ^ 18 + frame % 256 * 2 ^ 24
    + (if latency then 12000 else 24000) * 2 ^ 32)

def rowEnd (row : Nat) (cut : Bool) (lane crc : Nat) : Block :=
  ctlBlock (0x3C + row % 512 * 2 ^ 8 + bnat cut * 2 ^ 17 + lane % 4 * 2 ^ 18 + crc % 2 ^ 32 * 2 ^ 32)

def blankNow (reason : Nat) : Block := ctlBlock (0x2E + reason % 256 * 2 ^ 8)

def insFirst (tag row u frame bits24 : Nat) : Block :=
  ctlBlock (0x5B + tag % 256 * 2 ^ 8 + row % 512 * 2 ^ 16 + u % 1024 * 2 ^ 25 + frame % 32 * 2 ^ 35 + bits24 % 2 ^ 24 * 2 ^ 40)

def insData (tag bits48 : Nat) : Block := ctlBlock (0x5A + tag % 256 * 2 ^ 8 + bits48 % 2 ^ 48 * 2 ^ 16)

def insEnd (tag crc : Nat) : Block := ctlBlock (0x5C + tag % 256 * 2 ^ 8 + crc % 2 ^ 32 * 2 ^ 16)

def cmdBlock (op ctag arg : Nat) : Block :=
  ctlBlock (0x66 + op % 256 * 2 ^ 8 + ctag % 256 * 2 ^ 16 + arg % 2 ^ 40 * 2 ^ 24)

/-- Bits of a code (R260). -/
def codeWidth (latency : Bool) : Nat := if latency then 10 else 20

/-- Codes as a number: code k from bit W × k. -/
def packCodes (w : Nat) : List Nat → Nat
  | [] => 0
  | c :: cs => c % 2 ^ w + 2 ^ w * packCodes w cs

/-- The blocks of an insert, INS_FIRST first (R268). -/
def insertBlocks (tag row u frame w : Nat) (codes : List Nat) : List Block :=
  let v := packCodes w codes
  let n := if w = 20 then 125 else 62
  let first := insFirst tag row u frame v
  let data := (List.range n).map fun m => insData tag (v / 2 ^ (24 + 48 * m))
  let part (b : Block) (lo k : Nat) : List Byte := leBytes k (b.data.toNat / 2 ^ (8 * lo))
  let crc := crc32 (part first 5 3 ++ (data.map fun b => part b 2 6).flatten)
  first :: (data ++ [insEnd tag crc])

/-! ## Handing over (R256, R261) -/

/-- n blocks are handed to a lane at a cycle: it takes one in 1.024 cc, 128 of 1/125 cc (02 R44). -/
def Lane.load (ln : Lane) (now n : Nat) : Lane := { ln with free := max ln.free (125 * now) + 128 * n }

/-- A block goes to a lane; one that is not ACTIVE takes it at its payload rate and discards it (R256). -/
def State.hand (s : State) (l : Nat) (b : Block) : State :=
  let ln := (s.lane l).load s.now 1
  s.setLane l (if ln.st = .active then { ln with tx := ln.tx ++ [b] } else ln)

/-- A head, or what stands for one, goes to a lane, with all that was handed over before it, ahead of inserts (R261). -/
def State.handHead (s : State) (l : Nat) (b : Block) : State :=
  let ln := (s.lane l).load s.now 1
  s.setLane l (if ln.st = .active then { ln with txHead := ln.txHead ++ ln.tx ++ [b], tx := [] } else ln)

/-- A head for each egress lane of a tile, in one cycle (R261). -/
def State.handAll (s : State) (n : Nat) (f : Nat → Block) : State :=
  (List.range 3).foldl (fun s j => s.handHead (3 * n + j) (f j)) s

/-- The lanes of a tile can accept codes (02 R44): each has taken all but the last block handed to it. -/
def State.lanesAccept (s : State) (n : Nat) : Bool :=
  (List.range 3).all fun j => decide ((s.lane (3 * n + j)).free ≤ 125 * s.now + 128)

/-- What still waits of inserts is not sent (R269). -/
def State.dropInserts (s : State) (n : Nat) : State :=
  (List.range 3).foldl (fun s j =>
    s.setLane (3 * n + j) { s.lane (3 * n + j) with txFirst := [], txIns := [] }) s

/-- The frame is blanked for the panel: by the sequencer (R189, R192, R204) or by a procedure (Table CAL-1). -/
def State.panelBlank (s : State) : Bool := s.seq.blanked || s.cal.dark

/-- The frame is blanked for tile n (R262, Table TLK-5). -/
def State.tileBlank (s : State) (n : Nat) : Bool :=
  s.panelBlank || s.tlk.blank.getLsbD n || s.tlk.trip || s.tlk.refFault
    || (match (s.tile n).st with
        | .linked => false
        | .down => s.flag Reg.tlkCtrl 0
        | _ => true)

/-- FRAME_HEAD for a tile at a flip (R261, R262). -/
def State.frameHeads (s : State) (short : Bool) (n : Nat) : State :=
  let s := s.dropInserts n
  let blanked := s.tileBlank n
  let s := s.setTile n { s.tile n with blanked := blanked, row := none, slotInserts := 0 }
  if (s.tile n).st = .off then s
  else s.handAll n fun j => frameHead s.seq.frame blanked s.latency s.seq.rate short j

/-- ROW_END with CUT of a row that stops, whole or not (R263). -/
def State.cutRow (s : State) (n : Nat) : State :=
  match (s.tile n).row with
  | some r =>
    let crc (j : Nat) : Nat := (if j = 0 then r.crc0 else if j = 1 then r.crc1 else r.crc2) ^^^ 0xFFFFFFFF
    (s.handAll n fun j => rowEnd r.row true j (crc j)).setTile n { s.tile n with row := none }
  | none => s

/-- ROW_HEAD of row k for a lit tile at the start of slot k (R261). -/
def State.rowHeads (s : State) (k n : Nat) : State :=
  let s := s.setTile n { s.tile n with slotInserts := 0 }
  if (s.tile n).blanked then s
  else
    (s.handAll n fun j => rowHead k s.latency j s.seq.frame).setTile n
      { s.tile n with row := some { row := k, width := codeWidth s.latency } }

/-- Hand over the words of v, n of them, from word w on, with the CRC of each lane and ROW_END after its last (R260,
R261). -/
def State.handWords (s : State) (n v : Nat) : Nat → Nat → State
  | 0, _ => s
  | k + 1, i =>
    match (s.tile n).row with
    | none => s
    | some r =>
      if r.ended then s else
      let word := v / 2 ^ (64 * i) % 2 ^ 64
      let j := r.words % 3
      let total := 230400 * r.width / 64
      let old := if j = 0 then r.crc0 else if j = 1 then r.crc1 else r.crc2
      let crc := (leBytes 8 word).foldl crcByte old
      let r' := { r with words := r.words + 1
                         crc0 := if j = 0 then crc else r.crc0
                         crc1 := if j = 1 then crc else r.crc1
                         crc2 := if j = 2 then crc else r.crc2 }
      let s := s.hand (3 * n + j) ⟨false, BitVec.ofNat 64 word, false⟩
      let s := if total ≤ r.words + 3 then s.hand (3 * n + j) (rowEnd r.row false j (crc ^^^ 0xFFFFFFFF)) else s
      let s := if total ≤ r.words + 1 then
          (s.setTile n { s.tile n with row := some { r' with ended := true } }).bump (Reg.tlkCnt 0)
        else s.setTile n { s.tile n with row := some r' }
      State.handWords s n v k (i + 1)

/-- Codes that finishing has produced join the row stream; whole words go out (R260). -/
def State.rowCodes (s : State) (n : Nat) (codes : List Nat) : State :=
  match (s.tile n).row with
  | none => s
  | some r =>
    let nb := r.carryBits + r.width * codes.length
    let v := r.carry + 2 ^ r.carryBits * packCodes r.width codes
    let k := nb / 64
    let s := s.setTile n { s.tile n with row := some { r with carry := v / 2 ^ (64 * k), carryBits := nb % 64 } }
    s.handWords n v k 0

/-! ## The row splice (R269) -/

/-- Inserts open on a tile's lanes: begun and not ended. -/
def State.openInserts (s : State) (n : Nat) : Nat :=
  (List.range 3).foldl (fun a j =>
    let q := (s.lane (3 * n + j)).txIns
    a + ((q.filter fun b => b.type == 0x5C).length - (q.filter fun b => b.type == 0x5B).length)) 0

/-- One accepted insert is spliced: it takes the tile's next TAG (R268, R269). -/
def State.spliceInsert (s : State) (x : Insert) : State :=
  let n := x.tile
  let t := s.tile n
  if t.blanked then s else
  let bs := insertBlocks t.tag x.row x.u s.seq.frame (codeWidth s.latency) x.codes
  let l := 3 * n + t.tag % 3
  let room := decide (s.openInserts n < 128)
  let s := s.setTile n { t with tag := (t.tag + 1) % 256 }
  let s := s.bump (Reg.finCnt 0)
  let ln := (s.lane l).load s.now bs.length
  s.setLane l (if ln.st != .active then ln
    else if x.first && room then { ln with txFirst := ln.txFirst ++ bs.take 1, txIns := ln.txIns ++ bs.drop 1 }
    else { ln with txIns := ln.txIns ++ bs })

/-- ROW_SPLICE (R269): what the splice test accepted 4 cc ago or earlier goes to the lanes. -/
def execRowSplice (s : State) : Out :=
  if !s.live 22 then .next s else
  let due (x : Insert) : Bool := x.at_ + 4 ≤ s.now
  let ready := s.tlk.splice.filter due
  let s := { s with tlk := { s.tlk with splice := s.tlk.splice.filter fun x => !due x } }
  .next (ready.foldl State.spliceInsert s)

/-! ## Commands (R271, R272) -/

/-- A source issues a command for a tile. -/
def State.tileCommand (s : State) (n : Nat) (src : CmdSrc) (op arg : Nat) : State :=
  let t := s.tile n
  s.setTile n { t with waiting := t.waiting ++ [⟨src, op, arg⟩] }

/-- The order in which sources take turns. -/
def CmdSrc.next : CmdSrc → CmdSrc
  | .rpt => .cal
  | .cal => .host
  | .host => .range
  | .range => .rpt

/-- The first source from `c` on, in turn, with a command waiting. -/
def nextSource (w : List TileCmd) : Nat → CmdSrc → Option CmdSrc
  | 0, _ => none
  | k + 1, c => if w.any fun x => x.src == c then some c else nextSource w k c.next

/-- The oldest command of a source, and the others. -/
def takeCmd (src : CmdSrc) : List TileCmd → Option (TileCmd × List TileCmd)
  | [] => none
  | c :: cs =>
    if c.src = src then some (c, cs)
    else match takeCmd src cs with
      | some (d, ds) => some (d, c :: ds)
      | none => none

/-- R271: lane 0 of the tile carries no row, and the nominal start of slot 0 is at least 25 µs away. -/
def State.cmdAllowed (s : State) (n : Nat) : Bool :=
  let t := s.tile n
  let free := !s.activeSlot || t.blanked || t.st == .waking || t.st == .down
  let near (x : Nat) : Bool := s.now < x + 40000 && x < s.now + 40000
  let flip := match s.seq.flipAt with
    | some f => near f || near (f + ratePeriod s.seq.rate)
    | none => false
  free && !flip && decide (t.out.length < 8)

/-- A waiting command is handed to the tile's lane 0 (R271). -/
def State.cmdHandover (s : State) (n : Nat) : State :=
  let t := s.tile n
  let start := match t.turn with | some c => c.next | none => .rpt
  match nextSource t.waiting 4 start with
  | none => s
  | some src =>
    match takeCmd src t.waiting with
    | none => s
    | some (c, rest) =>
      let s := s.setTile n { t with waiting := rest, turn := some src, ctag := (t.ctag + 1) % 256,
                                    out := t.out ++ [⟨c, t.ctag, s.now⟩] }
      (s.hand (3 * n) (cmdBlock c.op t.ctag c.arg)).bump (Reg.tlkCnt 1)

/-- The host's command is answered (R273): the result register takes its values together. -/
def State.hostResult (s : State) (n op sample : Nat) (oor timeout : Bool) : State :=
  let seq := (s.fld Reg.tlkHresLo 31 16 + 1) % 65536
  let s := s.setReg Reg.tlkHresLo (word (seq * 2 ^ 16 + sample % 65536))
  let s := s.setReg Reg.tlkHresHi (word (2 ^ 31 + bnat timeout * 2 ^ 30 + bnat oor * 2 ^ 29 + n % 16 * 2 ^ 16 + op % 256 * 2 ^ 8))
  ({ s with tlk := { s.tlk with host := none } }).event 172

/-- A write of TLK_HCMD_HI (R273, R11): GO issues the command unless one is outstanding. -/
def State.hcmdHiWrite (s : State) (v : Word) : State :=
  let s := s.store Reg.tlkHcmdHi v
  if v.getLsbD 31 && s.tlk.host.isNone then
    let n := s.fld Reg.tlkHcmdHi 19 16
    let arg := (s.reg Reg.tlkHcmdLo).toNat + s.fld Reg.tlkHcmdHi 7 0 * 2 ^ 32
    let s := (s.tileCommand n .host (s.fld Reg.tlkHcmdHi 15 8) arg).clrFlag Reg.tlkHresHi 31
    { s with tlk := { s.tlk with host := some n } }
  else s

/-- HCMD_GO (R273). -/
def execHcmdGo (b : BusWrite) (s : State) : Out := .next (s.busWrite Reg.tlkHcmdHi b State.hcmdHiWrite)

/-- A write of TLK_HRES_ACK: the current SEQ clears VALID (R273). -/
def State.hresAckWrite (s : State) (v : Word) : State :=
  if bits v.toNat 15 0 = s.fld Reg.tlkHresLo 31 16 then s.clrFlag Reg.tlkHresHi 31 else s

/-- TLK_HRES_ACK (R273). -/
def execTlkHresAck (b : BusWrite) (s : State) : Out := .next (s.busWrite Reg.tlkHresAck b State.hresAckWrite)

/-- A read of TLK_HRES_LO latches TLK_HRES_HI. -/
def State.hresLoRead (s : State) (m : Nat) : State × Word :=
  (s.latchWord m Reg.tlkHresHi (s.reg Reg.tlkHresHi), s.reg Reg.tlkHresLo)

/-- TLK_HRES_LO_READ (R273, R346). -/
def execTlkHresLoRead (b : BusRead) (s : State) : Out :=
  .next (s.busRead Reg.tlkHresLo b fun s => s.hresLoRead b.master.val)

/-! ## The return lane (R274, R275) -/

/-- The block at the head of a return lane, if it is of a type, and the state without it. -/
def State.takeReturn (s : State) (n type : Nat) : Option (Nat × State) :=
  let l := 58 + n
  match (s.lane l).rx with
  | b :: bs => if b.ctl && !b.bad && b.type == type then some (b.data.toNat, s.setLane l { s.lane l with rx := bs }) else none
  | [] => none

/-- Blocks that a return lane delivers: the four types of Table TLK-4 wait, every other block is discarded and counted. -/
def State.returnBlocks (s : State) (n : Nat) (bs : List Block) : State :=
  bs.foldl (fun s b =>
    if b.ctl && !b.bad && (b.type == 0x71 || b.type == 0x72 || b.type == 0x73 || b.type == 0x75) then
      s.setLane (58 + n) { s.lane (58 + n) with rx := (s.lane (58 + n)).rx ++ [b] }
    else if laneOwned b then s
    else s.bump (Reg.tlkCnt 3)) s

/-- FAULT (R275): latched if the register is empty; the event in any case. -/
def execFault (tile : Fin 16) (s : State) : Out :=
  let n := tile.val
  match if s.live 23 then s.takeReturn n 0x73 else none with
  | none => .next s
  | some (w, s) =>
    .next ((s.latchFirst (Reg.tlkFault n) 0
      [(Reg.tlkFault n, word (2 ^ 31 + bits w 63 48 * 2 ^ 8 + bits w 15 8)),
       (Reg.tlkFaultDetail n, word (bits w 47 16))]).event 169)

/-- IDENT (R275, Table TLK-5): latched; another VERSION than 1 sets IDENT_BAD and keeps the tile WAKING. -/
def execIdent (tile : Fin 16) (s : State) : Out :=
  let n := tile.val
  match if s.live 23 then s.takeReturn n 0x75 else none with
  | none => .next s
  | some (w, s) =>
    let s := (s.setReg (Reg.tlkIdentLo n) (word w)).setReg (Reg.tlkIdentHi n) (word (w / 2 ^ 32))
    let good := bits w 15 8 = 1
    let s := s.setTile n { s.tile n with identSeen := decide good }
    .next (if good then s else s.setFlag Reg.tlkStatus n)

/-! ## Reference current (R277 to R279, 13 R294) -/

def State.codeApp (s : State) (n : Nat) : Nat := s.fld (Reg.tlkIrefApp n) 17 0

/-- CODE_APP is forced to 0, and RAMP_DONE clears (R278, R294). -/
def State.zeroApp (s : State) (n : Nat) : State :=
  ((s.setReg (Reg.tlkIrefApp n) 0).setTile n { s.tile n with rampDone := false }).clrFlag Reg.calRamp n

/-- IREF[n] is driven (R279; a self-calibration places it at high impedance, 13 R295). -/
def State.irefDriven (s : State) (n : Nat) : Bool :=
  s.live 23 && s.flag Reg.tlkIrefEn n && (s.tile n).st != .off && s.cal.elec.isNone

/-- CODE_APP of a tile at a flip (R278, R294): the state without change, or the step. -/
def State.codeAppStep (s : State) (n : Nat) : State :=
  let t := s.tile n
  let on := (t.st == .linked || t.st == .down) && !s.tlk.trip && !s.tlk.refFault && s.cal.elec.isNone
  if !on then s.zeroApp n
  else
    let cur := s.codeApp n
    let code := s.fld (Reg.tlkIrefSet n) 17 0
    let ramp := let r := s.fld Reg.calRamp 31 16; if r = 0 then 1 else r
    let step := if t.rampDone then max 1 (cur / 10000) else ramp
    let v := if cur < code then min code (cur + step) else max code (cur - step)
    let s := s.setReg (Reg.tlkIrefApp n) (word v)
    if v = code then (s.setTile n { t with rampDone := true }).setFlag Reg.calRamp n else s

/-- A tile goes dark at once: BLANK_NOW on its lanes, no row until the next flip (R262, R279, R280). -/
def State.blankTile (s : State) (reason n : Nat) : State :=
  ((s.dropInserts n).handAll n fun _ => blankNow reason).setTile n { s.tile n with blanked := true, row := none }

/-- A thermal trip (R279): every CODE_APP is 0 at once, BLANK_NOW with REASON 1 to every tile. -/
def State.tlkTrip (s : State) : State :=
  let s := { s with tlk := { s.tlk with trip := true } }
  s.eachTile fun s n => (s.zeroApp n).blankTile 1 n

/-- The references are checked every 1 ms (R280). -/
def State.refDue (s : State) : Bool := match s.tlk.refAt with | some t => decide (t + 1600000 ≤ s.now) | none => true

/-- REFERENCE_CHECK (R280): the references measured, V_REFV in µV and the REFR current in nA. A fault that clears requests
the electrical self-calibration when AUTO_RECAL is 1 (13 R295). -/
def execReferenceCheck (refv refr : Nat) (s : State) : Out :=
  if !s.live 23 || !s.refDue then .next s else
  let s := { s with tlk := { s.tlk with refAt := some s.now, refr := refr } }
  let pass := decide (2450000 ≤ refv ∧ refv ≤ 2550000 ∧ 237500 ≤ refr ∧ refr ≤ 262500)
  if !pass then
    let s := { s with tlk := { s.tlk with refFault := true, refPasses := 0 } }.event 171
    .next (s.eachTile fun s n =>
      let s := s.zeroApp n
      if (s.tile n).st = .linked then s.blankTile 3 n
      else (s.dropInserts n).setTile n { s.tile n with blanked := true, row := none })
  else if s.tlk.refFault then
    if 99 ≤ s.tlk.refPasses then
      let s := { s with tlk := { s.tlk with refFault := false, refPasses := 0 } }
      let again := s.live 25 && s.flag Reg.calCtrl 2 && s.cal.elec.isNone && s.cal.elecReq.isNone
      .next (if again then { s with cal := { s.cal with elecReq := some s.now } } else s)
    else .next { s with tlk := { s.tlk with refPasses := s.tlk.refPasses + 1 } }
  else .next s

/-! ## Tile states and TILE_EN (Table TLK-5, R276) -/

/-- The requests of a tile's lanes. -/
def State.tileLanes (s : State) (n : Nat) (w : LaneSt) : State :=
  (List.range 3).foldl (fun s j => s.laneLink (3 * n + j) w) (s.laneLink (58 + n) w)

/-- A tile enters WAKING: TILE_EN released, its lanes ACTIVE. -/
def State.wakeTile (s : State) (n : Nat) : State :=
  (s.setTile n { s.tile n with st := .waking, identSeen := false, lock3Seen := false, enLow := false,
                               shutAt := none, holdAt := none, blanked := true, row := none }).tileLanes n .active

/-- The shutdown of a tile begins (R276): BLANK_NOW with REASON 2, IREF at high impedance; the tile is OFF. -/
def State.shutTile (s : State) (n : Nat) (reset : Bool) : State :=
  let s := (s.blankTile 2 n).zeroApp n
  s.setTile n { s.tile n with st := .off, shutAt := some (s.now, reset) }

/-- A write of TLK_TILE_EN (R276): EN and RESET of each tile. EN written 1 ends a shutdown that runs (Table TLK-5, DEDUCED,
log entry 49). -/
def State.tileEnWrite (s : State) (v : Word) : State :=
  let old := s.reg Reg.tlkTileEn
  let s := s.store Reg.tlkTileEn v
  s.eachTile fun s n =>
    if v.getLsbD n && !old.getLsbD n then s.wakeTile n
    else if !v.getLsbD n && old.getLsbD n then
      let t := s.tile n
      (if t.st = .off then s.setTile n { t with shutAt := t.shutAt.map fun x => (x.1, false), holdAt := none }
       else s.shutTile n false)
    else if v.getLsbD n && v.getLsbD (16 + n) && (s.tile n).st != .off then s.shutTile n true
    else s

/-- TILE_EN_WRITE (R276). -/
def execTileEnWrite (b : BusWrite) (s : State) : Out := .next (s.busWrite Reg.tlkTileEn b State.tileEnWrite)

/-- TILE_RESET (R276). -/
def execTileReset (b : BusWrite) (s : State) : Out := .next (s.busWrite Reg.tlkTileEn b State.tileEnWrite)

/-- The pin TILE_EN[n] is driven low; while TLK is in reset it is released (R276). -/
def State.tileEnPinLow (s : State) (n : Nat) : Bool := s.up 23 && (s.tile n).enLow

/-- TILE_EN_DRIVE_LOW (R276): 10 µs after the shutdown began. -/
def execTileEnDriveLow (tile : Fin 16) (s : State) : Out :=
  let n := tile.val
  match (s.tile n).shutAt with
  | some (t, reset) =>
    if s.live 23 && t + 16000 ≤ s.now then
      .next ((s.setTile n { s.tile n with shutAt := none, enLow := true,
                                          holdAt := if reset then some s.now else none }).tileLanes n .dormant)
    else .next s
  | none => .next s

/-- TILE_RESET_HOLD_END (R276): after 1 ms a tile still enabled wakes again. -/
def execTileResetHoldEnd (tile : Fin 16) (s : State) : Out :=
  let n := tile.val
  match (s.tile n).holdAt with
  | some t =>
    if s.live 23 && t + 1600000 ≤ s.now then
      let s := s.setTile n { s.tile n with holdAt := none }
      .next (if s.flag Reg.tlkTileEn n then s.wakeTile n else s)
    else .next s
  | none => .next s

/-- A LINKED tile has been silent for RET_HOLD ms (Table TLK-5). -/
def State.tileSilent (s : State) (n : Nat) : Bool :=
  let t := s.tile n
  let hold := 1600000 * max 1 (s.fld Reg.tlkCtrl 15 8)
  let noStatus := match t.statusAt with | some x => decide (x + hold ≤ s.now) | none => true
  let noLock := !(s.lane (58 + n)).cwLock &&
    (match t.lockLostAt with | some x => decide (x + hold ≤ s.now) | none => false)
  noStatus || noLock

/-- TILE_DOWN (Table TLK-5). -/
def execTileDown (tile : Fin 16) (s : State) : Out :=
  let n := tile.val
  if s.live 23 && (s.tile n).st == .linked && s.tileSilent n then
    let s := s.setTile n { s.tile n with st := .down, identSeen := false, lock3Seen := false }
    .next ((s.bump (Reg.tlkCnt 4)).event 168)
  else .next s

/-- A tile's return lane loses CW_LOCK, or has it again. -/
def State.tileLock (s : State) (n : Nat) (locked : Bool) : State :=
  s.setTile n { s.tile n with lockLostAt := if locked then none else some s.now }

/-- A flip: a tile that has seen what Table TLK-5 asks becomes LINKED, its CODE_APP starting from 0; the steps of R294 of
that flip come before (DEDUCED, log entry 49). -/
def State.tileLinks (s : State) (n : Nat) : State :=
  let t := s.tile n
  if (t.st == .waking || t.st == .down) && t.identSeen && t.lock3Seen then
    let s := ((s.setTile n { t with st := .linked }).zeroApp n).event 167
    if s.fld (Reg.tlkIrefSet n) 17 0 = 0 then (s.setTile n { s.tile n with rampDone := true }).setFlag Reg.calRamp n else s
  else s

/-! ## Group 3 (Table TMT-5) -/

/-- A write of TLK_CTRL: its fields, and ARM. -/
def State.tlkCtrlWrite (s : State) (v : Word) : State :=
  let s := s.store Reg.tlkCtrl v
  if v.getLsbD 31 then { s.noteArm 3 s.tlk.armed with tlk := { s.tlk with armed := true } } else s

/-- TLK_ARM (R196). -/
def execTlkArm (b : BusWrite) (s : State) : Out := .next (s.busWrite Reg.tlkCtrl b State.tlkCtrlWrite)

/-- Group 3 of a commit: TLK_BLANK for the next FRAME_HEAD, each RANGE that changes as a command in this Recess. -/
def State.commitTlk (s : State) : State :=
  if s.armedBefore 3 s.tlk.armed then
    let new := s.regBefore Reg.tlkRange
    let mask := BitVec.ofNat 16 (s.fldBefore Reg.tlkBlank 15 0)
    let old := s.tlk.rangeSent
    let s := { s with tlk := { s.tlk with armed := s.armedNow 3, blank := mask, rangeSent := new } }
    s.eachTile fun s n =>
      let v := bits new.toNat (2 * n + 1) (2 * n)
      if v = bits old.toNat (2 * n + 1) (2 * n) then s else s.tileCommand n .range 3 v
  else s

/-- The RANGE multiplier of a tile in force (Table TLK-3). -/
def State.rangeOf (s : State) (n : Nat) : Nat := 2 ^ bits s.tlk.range.toNat (2 * n + 1) (2 * n)

/-- TLK_CNT_CLR: the same word, at 0x0FC, as TLK_TEMP15, whose fields are RO (DEDUCED, log entry 51). -/
def Reg.tlkCntClr : Nat := Reg.tlkTemp 15

/-- TLK_CNT_CLR (R80). -/
def State.tlkCntClr (s : State) (v : Word) : State :=
  if v.getLsbD 0 then ((s.clrRegs (Reg.tlkCnt 0) 5).clrRegs (Reg.tlkRowerr 0) 16).clrRegs (Reg.tlkInsdrop 0) 16 else s

/-- TLK_CNT_CLR (R80). -/
def execTlkCntClr (b : BusWrite) (s : State) : Out :=
  .next (s.busWrite Reg.tlkCntClr b State.tlkCntClr)

end Sys2Proof.Machine
end

