-- ==== Sys2Proof/Machine/Finishing.lean ====
section
/-!
DEFINITION. Finishing (11): group 2, colour matrices, residual prefetch, lenslet gains, the arithmetic from rays to codes,
and the express path's splice test (02 R47, R48; 11 R257, R258).
-/
namespace Sys2Proof.Machine

/-! ## Group 2 (R252) -/

/-- The word of a group-2 register in force. -/
def State.finWord (s : State) (off : Nat) : Nat := (SMap.get regReset s.fin.force off).toNat

/-- Group 2 of Table TMT-5: FIN_CTRL, FIN_CODE_MAX, FIN_NPTSn, the matrix table. -/
def finGroup (off : Nat) : Bool :=
  off == Reg.finCtrl || off == Reg.finCodeMax || (Reg.finNpts 0 ≤ off && off ≤ Reg.finNpts 15)
    || (Reg.finPTemp 0 0 ≤ off && off < Reg.finPTemp 16 0)

/-- A write of 1 to FIN_CTRL.ARM. -/
def State.finArm (s : State) : State := { s.noteArm 2 s.fin.armed with fin := { s.fin with armed := true } }

/-- A write of FIN_CTRL: DITHER_EN, and ARM. -/
def State.finCtrlWrite (s : State) (v : Word) : State :=
  let s := s.store Reg.finCtrl v
  if v.getLsbD 31 then s.finArm else s

/-- FIN_ARM (R252). -/
def execFinArm (b : BusWrite) (s : State) : Out := .next (s.busWrite Reg.finCtrl b State.finCtrlWrite)

/-- The shadows of group 2 as they stood when the cycle began, those at their reset value not listed (R33). -/
def State.finShadows (s : State) : SMap Word :=
  (s.cyc.before.filter fun p => finGroup p.1).foldl (fun m p => SMap.put regReset m p.1 p.2)
    (s.regs.filter fun p => finGroup p.1)

/-- Group 2 of a commit (R252): shadows armed before this cycle are copied. -/
def State.commitFin (s : State) : State :=
  if s.armedBefore 2 s.fin.armed then
    { s with fin := { s.fin with armed := s.armedNow 2, copied := some s.finShadows } }
  else s

/-! ## Colour matrices (R250, R251) -/

/-- TEMP and M[c][j] of point k of a tile, in force. -/
def State.finTemp (s : State) (n k : Nat) : Int := sext 16 (s.finWord (Reg.finPTemp n k))
def State.finM (s : State) (n k i : Nat) : Int := sext 24 (s.finWord (Reg.finPM n k i))

/-- NPTS as it acts. -/
def nptsOf (w : Nat) : Nat := max 1 (min 8 (w % 16))

/-- The longest prefix of n points whose temperatures strictly increase, at least 1. -/
def risingPrefix (temp : Nat → Int) : Nat → Nat → Nat
  | 0, k => k
  | n + 1, k => if temp (k - 1) < temp k then risingPrefix temp n (k + 1) else k

/-- The last k below n - 1 with temp k at most t. -/
def pointBelow (temp : Nat → Int) (t : Int) : Nat → Nat
  | 0 => 0
  | k + 1 => if temp (k + 1) ≤ t then k + 1 else pointBelow temp t k

/-- Interpolation over points 0 to n - 1 as R250 makes it, of a value val k per point. -/
def interpolate (temp val : Nat → Int) (n : Nat) (t : Int) : Int :=
  if n = 1 || t ≤ temp 0 then val 0
  else if temp (n - 1) ≤ t then val (n - 1)
  else
    let k := pointBelow temp t (n - 2)
    let w := 65536 * (t - temp k) / (temp (k + 1) - temp k)
    val k + ((val (k + 1) - val k) * w + 32768) / 65536

/-- The temperature R250 uses: the latest report, while NO_TEMP the one used before, else TEMP[0]. -/
def State.matrixTemp (s : State) (n : Nat) : Int :=
  if !s.flag Reg.finStatus n then sext 16 (s.fld (Reg.tlkTemp n) 15 0)
  else if s.fin.evaluated.getLsbD n then sext 16 (s.fld (Reg.finMcurT n) 15 0)
  else s.finTemp n 0

/-- The matrix of a tile for the next frame (R250). -/
def State.evalMatrix (s : State) (n : Nat) : State :=
  let npts := nptsOf (s.finWord (Reg.finNpts n))
  let cnt := risingPrefix (s.finTemp n) (npts - 1) 1
  let s := if cnt < npts then s.setFlag Reg.finStatus (16 + n) else s.clrFlag Reg.finStatus (16 + n)
  let t := s.matrixTemp n
  let m (i : Nat) : Int := interpolate (s.finTemp n) (fun k => s.finM n k i) cnt t
  let r := (List.range 9).foldl (fun r i => r.setReg (Reg.finMcurM n i) (word (toBits 24 (m i))))
    (s.setReg (Reg.finMcurT n) (word (toBits 16 t)))
  { r with fin := { r.fin with evaluated := r.fin.evaluated ||| BitVec.ofNat 16 (2 ^ n) } }

/-- Slot 447 of finishing (R250, R252): copied values come into force, the matrices are formed. -/
def State.finSlot447 (s : State) : State :=
  if !s.live 22 then s else
  let s := match s.fin.copied with
    | some f => { s with fin := { s.fin with copied := none, force := f } }
    | none => s
  s.eachTile State.evalMatrix

/-- NO_TEMP (R251): the latest report of a tile is more than 100 ms old. -/
def execNoTemp (tile : Fin 16) (s : State) : Out :=
  let n := tile.val
  let old := match (s.tile n).statusAt with | some t => decide (t + 160000000 < s.now) | none => true
  if s.live 22 && old && !s.flag Reg.finStatus n then .next ((s.setFlag Reg.finStatus n).event 163) else .next s

/-! ## Residual maps (R243 to R246) -/

/-- First address of a row of the residual map of a mode, and its bytes (R243, R244). -/
def State.residualRow (s : State) (latency : Bool) (row : Nat) : Nat × Nat :=
  if latency then (s.fld Reg.finResBase 15 8 * 2 ^ 28 + row * 1843200, 1843200)
  else (s.fld Reg.finResBase 7 0 * 2 ^ 28 + row * 3686400, 3686400)

/-- One line of a prefetch by master 22 (R244): it waits while its channel takes no command; an error response makes it bad; `late`:
it is on its way. -/
def State.prefetchLine (late : Bool) (p : State × ResidualRow) (ln : Nat) : State × ResidualRow :=
  let (s, r) := p
  if !s.memReady 22 (64 * ln) 64 then (s, { r with wait := r.wait ++ [ln] })
  else
    let x := s.devRead 22 (64 * ln) 64
    (x.1, if !x.2.2 then { r with bad := r.bad ++ [ln] }
      else { r with bytes := SMap.store dramDefault r.bytes (64 * ln) x.2.1, late := if late then r.late ++ [ln] else r.late })

/-- The prefetch of a row (R244); the newest three rows stay in the buffer (R45). -/
def State.prefetch (s : State) (row : Nat) (late : Bool) : State :=
  let (a, n) := s.residualRow s.latency row
  let x : ResidualRow := { row := row, latency := s.latency, base := a, bytes := [], bad := [], wait := [], late := [], missed := [] }
  let r := (linesOf a n).foldl (State.prefetchLine late) (s, x)
  let old := r.1.fin.residuals
  { r.1 with fin := { r.1.fin with residuals := (old ++ [r.2]).drop (old.length - 2) } }

/-- The prefetch of slot k (R45); a blanked frame has those of slots 430 and 431 alone (R204, R256). -/
def State.prefetchSlot (s : State) (k : Nat) : State :=
  if !s.live 22 then s
  else if k = 430 then s.prefetch 0 false
  else if k = 431 then s.prefetch 1 false
  else if k < 430 && !s.panelBlank then s.prefetch (k + 2) false
  else s

/-- A row whose prefetch is in progress: its lines may still be on their way (R321: a prefetch ends before its slot does). -/
def ResidualRow.running (r : ResidualRow) (n : Nat) : ResidualRow :=
  { r with late := (linesOf r.base n).filter fun ln => !r.bad.contains ln && !r.wait.contains ln }

/-- A flip at the end of slot k (R246): what has not been issued of rows 0 and 1 is issued now; their lines may come late, as those of
a prefetch that began in slot k. -/
def State.prefetchFlip (s : State) (k : Nat) : State :=
  let keep := s.fin.residuals.filter fun r => r.latency == s.latency && ((r.row == 0 && 430 ≤ k) || (r.row == 1 && 431 ≤ k))
  let keep := keep.map fun r => if r.row + 430 = k then r.running (s.residualRow s.latency r.row).2 else r
  let s := { s with fin := { s.fin with residuals := keep } }
  if !s.live 22 || s.panelBlank then s else
  (List.range 2).foldl (fun s row => if s.fin.residuals.any (fun r => r.row == row) then s else s.prefetch row true) s

/-- The buffered row of a residual row, an empty one where none was fetched: every line of it is missing (R245). -/
def State.residualBuf (s : State) (row : Nat) : ResidualRow :=
  match s.fin.residuals.find? fun r => r.row == row && r.latency == s.latency with
  | some r => r
  | none =>
    let (a, n) := s.residualRow s.latency row
    { row := row, latency := s.latency, base := a, bytes := [], bad := linesOf a n, wait := [], late := [], missed := [] }

/-- Address of the residual at row position p of tile n (R243). -/
def ResidualRow.addr (r : ResidualRow) (n p : Nat) : Nat :=
  if r.latency then r.base + n * 115200 + p / 2 else r.base + n * 230400 + p

/-- The stored ρ at a position. -/
def ResidualRow.rho (r : ResidualRow) (n p : Nat) : Int :=
  let b := (SMap.get dramDefault r.bytes (r.addr n p)).toNat
  if r.latency then sext 4 (if p % 2 = 0 then b else b / 16) else sext 8 b

/-- A line of the row is missing when it is used (R245). -/
def ResidualRow.missing (r : ResidualRow) (ln : Nat) : Bool := r.bad.contains ln || r.wait.contains ln || r.late.contains ln

/-- Before finishing reads lines of a row: whether one still on its way has arrived is free; those that waited for their channel are
read now (R245). -/
def State.residualArrive (s : State) (r : ResidualRow) (lines : List Nat) : State × ResidualRow :=
  let d := s.draws
  let r := { r with late := r.late.filter fun ln => !(lines.contains ln && Config.freeBit d ln) }
  r.wait.foldl (State.prefetchLine true) (s.drawn, { r with wait := [] })

/-- The row stands in the buffer as given. -/
def State.setResidual (s : State) (r : ResidualRow) : State :=
  let old := s.fin.residuals
  let new := if old.any (fun x => x.row == r.row) then old.map (fun x => if x.row = r.row then r else x) else old ++ [r]
  { s with fin := { s.fin with residuals := new } }

/-- The residuals that finishing reads for 300 emitters from position p, none where missing; each missing line is counted
once (R245). -/
def State.readResiduals (s : State) (n row p : Nat) : State × List (Option Int) :=
  let b := s.residualBuf row
  let lines := linesOf (b.addr n p) (b.addr n (p + 299) - b.addr n p + 1)
  let a := s.residualArrive b lines
  let r := a.2
  let new := lines.filter fun ln => r.missing ln && !r.missed.contains ln
  let s := a.1.setResidual { r with missed := r.missed ++ new }
  let s := if new.isEmpty then s else (s.bump (Reg.finCnt 2) new.length).event 161
  (s, (List.range 300).map fun i =>
    if r.missing (r.addr n (p + i) / 64) then none else some (r.rho n (p + i)))

/-- A write of FIN_RES_BASE: a base out of its range changes neither field; LOCK may set. -/
def State.finResBaseWrite (s : State) (v : Word) : State :=
  if bits v.toNat 15 8 ≤ 252 && bits v.toNat 7 0 ≤ 250 then s.store Reg.finResBase v
  else s.store Reg.finResBase (word (v.toNat / 2 ^ 31 * 2 ^ 31 + s.fld Reg.finResBase 15 0))

/-- FIN_RES_BASE_WRITE (R243, R9). -/
def execFinResBaseWrite (b : BusWrite) (s : State) : Out := .next (s.busWrite Reg.finResBase b State.finResBaseWrite)

/-! ## Lenslet gains (R247 to R249) -/

def State.gain (s : State) (n u v : Nat) : Nat :=
  (SMap.get (fun _ => (0x4000 : BitVec 16)) s.fin.gains (331776 * n + 768 * v + u)).toNat

/-- A load among the pending ones, in request order (R249). -/
def insLoad (l : GainLoad) : List GainLoad → List GainLoad
  | [] => [l]
  | x :: xs => if l.at_ < x.at_ then l :: x :: xs else x :: insLoad l xs

/-- A request for a gain load (R249). -/
def State.gainRequest (s : State) (n x : Nat) : State :=
  let l : GainLoad := ⟨n, x, s.now⟩
  if !s.fin.loads.any fun l => l.tile == n then
    { s with fin := { s.fin with loads := s.fin.loads ++ [l] } }
  else
    let old := s.fin.queued.find? fun q => q.tile == n
    let s := { s with fin := { s.fin with queued := (s.fin.queued.filter fun q => q.tile != n) ++ [l] } }
    match old with
    | some q => (((s.setFlag Reg.finGainStatus n).bump (Reg.finCnt 6)).event 166).returnBuffer 22 q.buf 2
    | none => s

/-- A refused gain load (R248). -/
def State.gainError (s : State) (n : Nat) : State := (s.setFlag Reg.finGainStatus (16 + n)).event 165

/-- A registered gain buffer becomes a request, or is returned as too short (R248, Table PLC-3). -/
def State.gainAccept (s : State) (n x : Nat) : State :=
  if s.bufLen x < 663616 then (s.returnBuffer 22 x 1).gainError n else s.gainRequest n x

/-- An item goes ahead of the first one in the list that p marks. -/
def insBefore {α : Type} (x : α) (p : α → Bool) : List α → List α
  | [] => [x]
  | y :: ys => if p y then x :: y :: ys else y :: insBefore x p ys

/-- FIN_GAIN_LOAD (R249, R337): each write is one request, checked as a post first; the host's goes ahead of the calibration engine's
of the same cycle. -/
def State.gainLoadWrite (s : State) (m : Nat) (v : Word) : State :=
  let n := bits v.toNat 3 0
  let x := v.toNat &&& 0x3FFFFFC0
  if m = 20 then { s.post (.finGain n) x with cyc := { s.cyc with calGains := (n, x) :: s.cyc.calGains } }
  else if m = 16 then
    let late (i : HpItem) : Bool := match i with
      | .post (.finGain k) y => s.cyc.calGains.contains (k, y)
      | _ => false
    { s with host := { s.host with fifo := insBefore (.post (.finGain n) x) late s.host.fifo } }
  else s.post (.finGain n) x

/-- FIN_GAIN_LOAD (R249, R337). -/
def execFinGainLoad (b : BusWrite) (s : State) : Out :=
  .next (s.busWrite Reg.finGainLoad b fun s v => s.gainLoadWrite b.master.val v)

/-- GAIN_COPY (R248, R249): in the Recess that follows its request the oldest load is copied; one load passes through the
staging area in a frame. -/
def execGainCopy (s : State) : Out :=
  match s.fin.loads with
  | [] => .next s
  | l :: ls =>
    let at432 := match s.seq.flipAt with | some f => f + s.slotStart 432 | none => 0
    if s.live 22 && s.inFrame && 432 ≤ s.seq.slot && s.seq.slot < 447 && l.at_ < at432
        && s.fin.copiedAt != some s.seq.frame && s.memReady 22 (winAddr l.buf) 663616 then
      let r := s.devRead 22 (winAddr l.buf + 64) 663552
      let vals := (List.range 331776).map fun i => BitVec.ofNat 16 (leAt (r.2.1.drop (2 * i)) 0 2)
      let next := r.1.fin.queued.find? fun q => q.tile == l.tile
      let ls := match next with | some q => insLoad q ls | none => ls
      let s := { r.1.noteSram 2 (82944 * l.tile) (82944 * l.tile + 82944) with fin := { r.1.fin with
        gains := SMap.store (fun _ => 0x4000) r.1.fin.gains (331776 * l.tile) vals
        loads := ls, queued := r.1.fin.queued.filter (fun q => q.tile != l.tile), copiedAt := some r.1.seq.frame } }
      .next (((s.returnBuffer 22 l.buf 0).bump (Reg.finCnt 5)).event 164)
    else .next s

/-! ## The arithmetic (R253, R254) -/

/-- A UF20 value in units of 2^-24, halves up. -/
def uf20Fix (x : Nat) : Int :=
  match unpackF uf20 x with
  | .fin _ m e => if 0 ≤ e + 24 then (m * 2 ^ (e + 24).toNat : Nat) else ((2 * m + 2 ^ (-(e + 24)).toNat) / 2 ^ ((-(e + 24)).toNat + 1) : Nat)
  | _ => 0

/-- W of R253, in 2^-69, from the row of the matrix, the three colours, the gain and RS. -/
def finishW (m0 m1 m2 : Int) (x0 x1 x2 : Nat) (gain : Nat) (rs : Int) : Int :=
  (m0 * uf20Fix x0 + m1 * uf20Fix x1 + m2 * uf20Fix x2) * gain * (2048 + rs)

/-- floor(d × k + 1/2) limited to k, 0 for d ≤ 0. -/
def quantise (w : Int) (k : Nat) : Nat :=
  if w ≤ 0 then 0 else min k ((2 * w * k + 2 ^ 69) / 2 ^ 70).toNat

/-- The code of R254, and whether the emitter counts as clamped: q or e before F6 lowered, or d above 1. -/
def driveCode (latency dither : Bool) (maxP maxL f p v : Nat) (w : Int) : Nat × Bool :=
  if latency then
    let q := quantise w 4092
    let i := (f + p % 4 + 2 * (v % 2)) % 4
    let theta := if i = 0 then 0 else if i = 1 then 2 else if i = 2 then 1 else 3
    let e := if dither then q / 4 + bnat (decide (theta < q % 4)) else (q + 2) / 4
    (min e maxL, decide (2 ^ 69 < w) || decide (maxL < e))
  else
    let q := quantise w 1048575
    (min q maxP, decide (2 ^ 69 < w) || decide (maxP < q))

/-- The 300 codes of a lenslet from its rays and residuals, and how many emitters were clamped (R253, R254). -/
def State.finishLenslet (s : State) (n u v : Nat) (x : Nat → Nat) (rho : Nat → Int) : List Nat × Nat :=
  let g := s.gain n u v
  let m (i : Nat) : Int := sext 24 (s.fld (Reg.finMcurM n i) 23 0)
  let dither := (s.finWord Reg.finCtrl).testBit 0
  let cm := s.finWord Reg.finCodeMax
  let codes := (List.range 300).map fun q =>
    let c := q % 3
    let b := 3 * (q / 3)
    let rs := if s.latency then 16 * rho q else rho q
    driveCode s.latency dither (bits cm 19 0) (bits cm 29 20) (s.seq.frame % 4) (300 * u + q) v
      (finishW (m (3 * c)) (m (3 * c + 1)) (m (3 * c + 2)) (x b) (x (b + 1)) (x (b + 2)) g rs)
  (codes.map Prod.fst, (codes.filter Prod.snd).length)

/-- The inserts a slot may send per tile (Table ARC-6). -/
def insertBudget (rate : Nat) : Nat :=
  match rate with
  | 0 => 96
  | 1 => 224
  | 2 => 512
  | 3 => 512
  | _ => 64

/-! ## The splice test (02 R47, R48; R257, R258) -/

/-- A UF20 value clamped to 1.0 (R257). -/
def uf20Clamp (x : Nat) : Nat := if (unpackF uf20 x).lt (.fin false 1 0) then x else packF uf20 .nearest (.fin false 1 0)

/-- A target is not sent: counted, evented (R258). -/
def State.expressDrop (s : State) (n : Nat) : State := (s.bump (Reg.finXdrop n)).event 160

/-- One target lenslet of a block for a frame at the splice test: a state, and the tiles for which an insert of the train has
been accepted. The chart correction read for it is kept with the insert; the values are finished as R257 says, without it
(DESIGN CHOICE, log entry 89). -/
def State.spliceTarget (frame : Nat) (p : State × List Nat) (t : RayTarget) : State × List Nat :=
  let s := p.1
  let n := t.tile
  let k := s.seq.slot
  let ahead := s.seq.frame == frame && s.activeSlot && (k < t.v || (t.v == k && s.cursor n ≤ 300 * t.u))
  if !ahead then (s.expressDrop n, p.2)
  else if (s.tile n).blanked then p
  else if insertBudget s.seq.rate ≤ (s.tile n).slotInserts then (s.expressDrop n, p.2)
  else
    let near := t.v ≤ k + 1
    let r := if near then s.readResiduals n t.v (300 * t.u) else (s.bump (Reg.finCnt 1), [])
    let s := r.1
    let ray (q : Nat) : Nat :=
      let w := (if t.rays.length = 100 then t.rays.getD (q / 3) 0 else t.rays.getD 0 0).toNat
      uf20Clamp (bits w (20 * (q % 3) + 19) (20 * (q % 3)))
    let f := s.finishLenslet n t.u t.v ray fun q => (r.2.getD q none).getD 0
    let s := s.setTile n { s.tile n with slotInserts := (s.tile n).slotInserts + 1 }
    let x : Insert := { tile := n, row := t.v, u := t.u, codes := f.1, first := !p.2.contains n, at_ := s.now
                        corr := (s.correctTarget t).corr.getD (0, 0, 0, 0) }
    let s := { s with tlk := { s.tlk with splice := s.tlk.splice ++ [x] } }
    (s.bump (Reg.finCnt 4) f.2, n :: p.2)

/-- SPLICE_TEST (R46, R47): the oldest direct-ray block, 102 or 114 cc after its t_A. -/
def execSpliceTest (s : State) : Out :=
  match s.dec.express with
  | [] => .next s
  | x :: xs =>
    if s.live 22 && x.at_ + (if s.latency then 102 else 114) ≤ s.now then
      let s := { s with dec := { s.dec with express := xs } }
      .next (x.targets.foldl (State.spliceTarget x.frame) (s, [])).1
    else .next s

/-- FIN_CNT_CLR (R80). -/
def State.finCntClr (s : State) (v : Word) : State :=
  if v.getLsbD 0 then (s.clrRegs (Reg.finCnt 0) 7).clrRegs (Reg.finXdrop 0) 16 else s

/-- FIN_CNT_CLR (R80). -/
def execFinCntClr (b : BusWrite) (s : State) : Out :=
  .next (s.busWrite Reg.finCntClr b State.finCntClr)

end Sys2Proof.Machine
end

