-- ==== Sys2Proof/Machine/Keccak.lean ====
section
/-!
DEFINITION. KMAC256 and SHAKE256 over Keccak-f[1600], as the tag unit and the Registrar compute them (04 R93; 20 R423,
R425). Lane (x, y) of the permutation is element x + 5·y of a list of 25 numbers below 2^64; bytes are taken low byte
first.
-/
namespace Sys2Proof.Machine

def kLane (a : List Nat) (x y : Nat) : Nat := a.getD (x % 5 + 5 * (y % 5)) 0

def kMake (f : Nat → Nat → Nat) : List Nat := (List.range 25).map fun i => f (i % 5) (i / 5)

def rotl64 (v n : Nat) : Nat := ((v <<< n) ||| (v >>> (64 - n))) % 2 ^ 64

/-- Rotation offsets by lane x + 5·y. -/
def kRot : List Nat :=
  [0, 1, 62, 28, 27, 36, 44, 6, 55, 20, 3, 10, 43, 25, 39, 41, 45, 15, 21, 8, 18, 2, 61, 56, 14]

def kRound (a : List Nat) (rc : Nat) : List Nat :=
  let c := (List.range 5).map fun x =>
    ((kLane a x 0 ^^^ kLane a x 1) ^^^ (kLane a x 2 ^^^ kLane a x 3)) ^^^ kLane a x 4
  let d := (List.range 5).map fun x => c.getD ((x + 4) % 5) 0 ^^^ rotl64 (c.getD ((x + 1) % 5) 0) 1
  let a := kMake fun x y => kLane a x y ^^^ d.getD x 0
  let b := kMake fun x y =>
    -- lane (x, y) comes from lane (x + 3·y, x), rotated
    let sx := (x + 3 * y) % 5
    rotl64 (kLane a sx x) (kRot.getD (sx + 5 * x) 0)
  let a := kMake fun x y =>
    kLane b x y ^^^ (((2 ^ 64 - 1) ^^^ kLane b (x + 1) y) &&& kLane b (x + 2) y)
  match a with
  | [] => []
  | l :: ls => (l ^^^ rc) :: ls

def kConsts : List Nat :=
  [0x0000000000000001, 0x0000000000008082, 0x800000000000808A, 0x8000000080008000, 0x000000000000808B,
   0x0000000080000001, 0x8000000080008081, 0x8000000000008009, 0x000000000000008A, 0x0000000000000088,
   0x0000000080008009, 0x000000008000000A] ++
  [0x000000008000808B, 0x800000000000008B, 0x8000000000008089, 0x8000000000008003, 0x8000000000008002,
   0x8000000000000080, 0x000000000000800A, 0x800000008000000A, 0x8000000080008081, 0x8000000000008080,
   0x0000000080000001, 0x8000000080008008]

def keccakF (a : List Nat) : List Nat := kConsts.foldl kRound a

/-- The lanes of a block of bytes, rate 136. -/
def kAbsorb (a : List Nat) (blk : List Byte) : List Nat :=
  keccakF (kMake fun x y => kLane a x y ^^^ leAt blk (8 * (x + 5 * y)) 8)

def cutBytes : Nat → List Byte → List (List Byte)
  | 0, _ => []
  | n + 1, bs => bs.take 136 :: cutBytes n (bs.drop 136)

/-- Padding with a domain byte: domain, zeros, the last bit of the block. -/
def kPad (dom : Nat) (bs : List Byte) : List Byte :=
  let z := 135 - bs.length % 136
  if z = 0 then bs ++ [BitVec.ofNat 8 (dom + 0x80)]
  else bs ++ [BitVec.ofNat 8 dom] ++ List.replicate (z - 1) 0 ++ [0x80]

def kSqueeze : Nat → List Nat → List Byte
  | 0, _ => []
  | n + 1, a => (((List.range 17).map fun i => leBytes 8 (a.getD i 0)).flatten) ++ kSqueeze n (keccakF a)

/-- The sponge at rate 136: n bytes out. -/
def sponge (dom : Nat) (bs : List Byte) (n : Nat) : List Byte :=
  let p := kPad dom bs
  let a := (cutBytes (p.length / 136) p).foldl kAbsorb (List.replicate 25 0)
  (kSqueeze ((n + 135) / 136) a).take n

def shake256 (bs : List Byte) (n : Nat) : List Byte := sponge 0x1F bs n

/-- Bytes of a length, fewest, high byte first. -/
def beMin (v : Nat) : List Byte :=
  let k := if v < 2 ^ 8 then 1 else if v < 2 ^ 16 then 2 else if v < 2 ^ 24 then 3 else 4
  (leBytes k v).reverse

def leftEncode (v : Nat) : List Byte := BitVec.ofNat 8 (beMin v).length :: beMin v

def rightEncode (v : Nat) : List Byte := beMin v ++ [BitVec.ofNat 8 (beMin v).length]

def encodeString (bs : List Byte) : List Byte := leftEncode (8 * bs.length) ++ bs

def bytepad (bs : List Byte) : List Byte :=
  let w := leftEncode 136 ++ bs
  w ++ List.replicate ((136 - w.length % 136) % 136) 0

/-- KMAC256(key, message, out bits, customisation). -/
def kmac256 (key msg : List Byte) (outBytes : Nat) (custom : List Byte) : List Byte :=
  sponge 0x04 (bytepad (encodeString [0x4B, 0x4D, 0x41, 0x43] ++ encodeString custom) ++ bytepad (encodeString key)
    ++ msg ++ rightEncode (8 * outBytes)) outBytes

end Sys2Proof.Machine
end

