-- ==== Sys2Proof/Machine/Ageing.lean ====
section
/-!
DEFINITION. The Report Card's history, folding and sensing, and the calibration engine (13). Checkpoints and restores, which
need the Satchel codec, stand in Satchel.lean.
-/
namespace Sys2Proof.Machine

def State.rptTile (s : State) (n : Nat) : RptTile := SMap.get (fun _ => {}) s.rpt.tiles n

def State.setRptTile (s : State) (n : Nat) (t : RptTile) : State :=
  { s with rpt := { s.rpt with tiles := SMap.put (fun _ => {}) s.rpt.tiles n t } }

/-- The word of a Report Card parameter in force (R284 to R290). -/
def State.rptWord (s : State) (off : Nat) : Nat := (SMap.get regReset s.rpt.force off).toNat

/-- A register write of an on-die master, through the block's reset, gate and Proctor (14 R326); a host write of the same
cycle stands (R291). -/
def State.masterStore (s : State) (m off : Nat) (v : Word) : State :=
  if !s.answers off then s
  else if !s.permits (proctorTarget off).1 m (proctorTarget off).2 4 true then
    s.violation (proctorTarget off).1 m (proctorTarget off).2 true
  else if s.cyc.hostWrites.contains off then s
  else s.store off v

/-! ## Addresses (R281) -/

def stressAddr (n i : Nat) : Nat := 0x1C00000000 + 2 * (99532800 * n + i)
def baseResAddr (n i : Nat) : Nat := 0x1CBDD80000 + 99532800 * n + i

/-- First emitter index of group g of row v. -/
def groupIndex (v g : Nat) : Nat := 230400 * v + 9600 * g

/-! ## Classes and sampling (R282, R283) -/

/-- The class of group index G of a tile. -/
def State.classOf (s : State) (n g : Nat) : Nat :=
  ((s.fld (Reg.rptPerm n) 5 0 ||| 1) * (g % 64) + s.fld (Reg.rptPerm n) 13 8) % 64

/-- The group of row v of the class of the frame; a row holds at most one. -/
def State.rowGroup (s : State) (n v : Nat) : Option Nat :=
  (List.range 24).find? fun g => s.classOf n (24 * v + g) == s.seq.frame % 64

def State.rptOn (s : State) : Bool := s.live 24 && s.flag Reg.rptCtrl 0

/-- Codes and residuals of one lenslet as finishing makes them join the row's group (R283). -/
def State.rptTake (s : State) (n u v : Nat) (codes : List Nat) (res : List (Option Int)) : State :=
  if s.rptOn && s.rowGroup n v == some (u / 32) then
    let t := s.rptTile n
    let t := if u % 32 = 0 then { t with codes := [], resid := [] } else t
    s.setRptTile n { t with codes := t.codes ++ codes, resid := t.resid ++ res }
  else s

/-- A row's group is not sampled (R283). -/
def State.rptSkip (s : State) (n v : Nat) : State :=
  let s := s.setRptTile n { s.rptTile n with codes := [], resid := [] }
  if s.rptOn && (s.rowGroup n v).isSome then s.bump (Reg.rptCnt 1) else s

/-! ## Stress (R284) -/

/-- The next state of a tile's generator: 16 steps of the Galois register (PRESUMED, log entry 47). -/
def lfsrStep (g : Nat) : Nat := if g % 2 = 1 then (g / 2) ^^^ 0x80200003 else g / 2

def lfsrDraw (g : BitVec 32) : BitVec 32 :=
  BitVec.ofNat 32 ((List.range 16).foldl (fun g _ => lfsrStep g) g.toNat)

/-- binary64 (R284, R286). -/
def binary64 : FloatFmt := ⟨53, -1074, 11, true⟩

def b64 (n : Nat) : Nat := roundF binary64 .nearest false n 1 0

def b64Int (n : Int) : Nat := roundF binary64 .nearest (n < 0) n.natAbs 1 0

/-- a / b. -/
def fDiv (f : FloatFmt) (a b : Nat) : Nat :=
  match unpackF f a, unpackF f b with
  | .nan, _ => nanF f
  | _, .nan => nanF f
  | .inf _, .inf _ => nanF f
  | .inf n, .fin m _ _ => infF f (n != m)
  | .fin n _ _, .inf m => signF f (n != m)
  | .fin n x e, .fin m y e' =>
    if y = 0 then (if x = 0 then nanF f else infF f (n != m)) else roundF f .nearest (n != m) x y (e - e')

/-! Powers: bounds on x^y in numbers m × 2^e of 256 significant bits, rounded down or up at each step. -/

def bitLen (n : Nat) : Nat := if n = 0 then 0 else Nat.log2 n + 1

/-- m × 2^e cut to 256 bits. -/
def cut256 (up : Bool) (m : Nat) (e : Int) : Nat × Int :=
  let b := bitLen m
  if b ≤ 256 then (m * 2 ^ (256 - b), e - ((256 - b : Nat) : Int))
  else
    let d := 2 ^ (b - 256)
    (m / d + bnat (up && m % d != 0), e + ((b - 256 : Nat) : Int))

def mul256 (up : Bool) (a b : Nat × Int) : Nat × Int := cut256 up (a.1 * b.1) (a.2 + b.2)

def sqrt256 (up : Bool) (a : Nat × Int) : Nat × Int :=
  let s : Nat := if (a.2 - 256) % 2 = 0 then 256 else 257
  let n := a.1 * 2 ^ s
  let r := isqrt n
  cut256 up (r + bnat (up && r * r != n)) ((a.2 - (s : Int)) / 2)

/-- x^q by the bits of q, the highest first. -/
def powNat256 (up : Bool) (x : Nat × Int) (q : Nat) : Nat × Int :=
  (List.range (bitLen q)).foldl (fun r i =>
    let r := mul256 up r r
    if q.testBit (bitLen q - 1 - i) then mul256 up r x else r) (cut256 up 1 0)

/-- x^(f / 2^k), f below 2^k: the product of the roots of x that f names. -/
def powFrac256 (up : Bool) (x : Nat × Int) (f k : Nat) : Nat × Int :=
  ((List.range k).foldl (fun (p : (Nat × Int) × (Nat × Int)) i =>
    let root := sqrt256 up p.2
    (if f.testBit (k - 1 - i) then mul256 up p.1 root else p.1, root)) (cut256 up 1 0, x)).1

/-- A bound on x^(p / 2^k). -/
def powBound (up : Bool) (x : Nat × Int) (p k : Nat) : Nat × Int :=
  mul256 up (powNat256 up x (p / 2 ^ k)) (powFrac256 up x (p % 2 ^ k) k)

def inv256 (up : Bool) (a : Nat × Int) : Nat × Int :=
  cut256 up (2 ^ 512 / a.1 + bnat (up && 2 ^ 512 % a.1 != 0)) (-512 - a.2)

/-- p / 2^k in lowest terms. -/
def oddPart : Nat → Nat → Nat × Nat
  | p, 0 => (p, 0)
  | p, k + 1 => if p % 2 = 0 then oddPart (p / 2) k else (p, k + 1)

/-- m × 2^e rounded to binary64, down or up. -/
def round53 (up : Bool) (a : Nat × Int) : Nat :=
  let d := 2 ^ (bitLen a.1 - 53)
  roundF binary64 .nearest false (a.1 / d + bnat (up && a.1 % d != 0)) 1 (a.2 + ((bitLen a.1 - 53 : Nat) : Int))

/-- pow of binary64 values, the base not negative (R284): exact where the power is a binary64 value, else one of the two binary64 values
next to it (DESIGN CHOICE, log entry 46). -/
def pow64 (a b : Nat) : Nat :=
  match unpackF binary64 a, unpackF binary64 b with
  | .fin _ x ex, .fin neg y ey =>
    if y = 0 then b64 1
    else if x = 0 then (if neg then infF binary64 false else b64 0)
    else
      let (p, k) := if 0 ≤ ey then (y * 2 ^ ey.toNat, 0) else oddPart y (-ey).toNat
      let bound (up : Bool) : Nat × Int :=
        if neg then inv256 up (powBound (!up) (cut256 (!up) x ex) p k) else powBound up (cut256 up x ex) p k
      if Config.powUp (BitVec.ofNat 64 a) (BitVec.ofNat 64 b) then round53 true (bound true) else round53 false (bound false)
  | _, _ => nanF binary64

/-- S(C). -/
def stressOf (c : Nat) : Nat := fSub binary64 (pow64 (b64 2) (fDiv binary64 (b64 c) (b64 2048))) (b64 1)

/-- The largest counter from c on, within n steps, whose stress is at most t. -/
def counterUp (t : Nat) : Nat → Nat → Nat
  | 0, c => c
  | n + 1, c => if (unpackF binary64 t).lt (unpackF binary64 (stressOf (c + 1))) then c else counterUp t n (c + 1)

/-- The counter after an increment dS, with a draw u (R284). -/
def counterStep (c ds u : Nat) : Nat :=
  if 65535 ≤ c then 65535 else
  let t := fAdd binary64 (stressOf c) ds
  let c1 := counterUp t (65535 - c) c
  if 65535 ≤ c1 then 65535 else
  let frac := fDiv binary64 (fSub binary64 t (stressOf c1)) (fSub binary64 (stressOf (c1 + 1)) (stressOf c1))
  if (unpackF binary64 (fDiv binary64 (b64 u) (b64 65536))).lt (unpackF binary64 frac) then c1 + 1 else c1

/-- The tile temperature in force for the frame (R250). -/
def State.frameTemp (s : State) (n : Nat) : Int := sext 16 (s.fld (Reg.finMcurT n) 15 0)

/-- GAMMA of a colour, Q4.12. -/
def State.gamma (s : State) (c : Nat) : Nat :=
  if c = 0 then bits (s.rptWord Reg.rptGamma0) 15 0
  else if c = 1 then bits (s.rptWord Reg.rptGamma0) 31 16
  else bits (s.rptWord Reg.rptGamma1) 15 0

/-- dS of an emitter (R284). -/
def State.stressInc (s : State) (n c code : Nat) : Nat :=
  let mul := fMul binary64
  let div := fDiv binary64
  let g := div (b64 (s.fld (Reg.calGain n) 23 0)) (b64 (2 ^ 22))
  let ref := max 1 (bits (s.rptWord Reg.rptIrefRef) 20 0)
  let cur := mul (mul (b64 (s.codeApp n)) (b64 (s.rangeOf n))) g
  let x := div (mul (div (b64 code) (b64 (if s.latency then 1023 else 1048575))) cur) (b64 ref)
  let tdbl := max 1 (bits (s.rptWord Reg.rptModel) 31 16)
  let tref := sext 16 (s.rptWord Reg.rptModel)
  let heat := pow64 (b64 2) (div (b64Int (s.frameTemp n - tref)) (b64 tdbl))
  let time := mul (b64 64) (div (b64 (ratePeriod s.seq.rate)) (b64 1600000000))
  mul (mul time (pow64 x (div (b64 (s.gamma c)) (b64 4096)))) heat

/-- The counters of a group after its codes: new counters, generator, saturated ones. -/
def State.stressRun (s : State) (n : Nat) : List Nat → List Nat → BitVec 32 → Nat → List Nat × BitVec 32 × Nat
  | c :: cs, code :: codes, g, i =>
    if c = 65535 then
      let r := State.stressRun s n cs codes g (i + 1)
      (c :: r.1, r.2.1, r.2.2 + 1)
    else
      let g' := lfsrDraw g
      let c' := counterStep c (s.stressInc n (i % 3) code) (Config.draw16 g').toNat
      let r := State.stressRun s n cs codes g' (i + 1)
      (c' :: r.1, r.2.1, r.2.2)
  | _, _, g, _ => ([], g, 0)

/-- The 16-bit words of a list of bytes. -/
def words16 (n : Nat) (bs : List Byte) : List Nat := (List.range n).map fun i => leAt (bs.drop (2 * i)) 0 2

/-- A row of a tile has been finished whole: its group is sampled unless a residual line was missing (R283, R284). -/
def State.rptRowDone (s : State) (n v : Nat) : State :=
  match s.rowGroup n v with
  | none => s
  | some g =>
    if !s.rptOn then s else
    let t := s.rptTile n
    if (s.tile n).blanked || t.codes.length != 9600 || t.resid.any Option.isNone then s.rptSkip n v
    else
      let a := stressAddr n (groupIndex v g)
      -- a line in error reads as zero (14 R310)
      let r := s.devRead 19 a 19200
      let x := r.1.stressRun n (words16 9600 r.2.1) t.codes t.gen 0
      let w := r.1.devWrite 19 a ((x.1.map (leBytes 2)).flatten)
      let s := (w.1.bump (Reg.rptCnt 0)).bump (Reg.rptCnt 2) x.2.2
      s.setRptTile n { t with gen := x.2.1, codes := [], resid := [],
                              sampled := t.sampled ++ [⟨24 * v + g, t.resid.map fun o => o.getD 0⟩] }

/-! ## The ageing model (R285) -/

/-- η_c(C), Q1.15. -/
def State.efficiency (s : State) (c cnt : Nat) : Int :=
  let a := min (cnt / 2048) 31
  let e (k : Nat) : Int := bits (s.rptWord (Reg.rptAge c k)) 15 0
  e a + ((e (a + 1) - e a) * ((cnt : Int) - 2048 * a) + 1024) / 2048

/-- η_e in 2^-29. -/
def etaEmitter (kappa : Nat) (eta : Int) : Int := 2 ^ 29 - kappa * (2 ^ 15 - eta)

/-- A value in 2^-k as binary64. -/
def b64Scaled (v : Int) (k : Nat) : Nat := roundF binary64 .nearest (v < 0) v.natAbs 1 (-(k : Int))

/-- num / den rounded, ties away from zero. -/
def roundAway (num : Int) (den : Nat) : Int :=
  let q : Int := ((2 * num.natAbs + den) / (2 * den) : Nat)
  if num < 0 then -q else q

/-- round(v), ties away; infinities beyond any clamp, NaN free. -/
def FVal.roundAway (free : Int) : FVal → Int
  | .nan => free
  | .inf n => if n then -1000 else 1000
  | .fin n m e => if 0 ≤ e then sgnd n (m * 2 ^ e.toNat) else Machine.roundAway (sgnd n m) (2 ^ (-e).toNat)

/-- The targets of an emitter, and whether either was clamped (R286). -/
def foldTarget (b : Int) (mean : Nat) (eta free : Int) : Int × Int × Bool :=
  let num := fMul binary64 (b64Scaled (2048 + b) 11) (b64Scaled mean 15)
  let x := fMul binary64 (b64 2048) (fSub binary64 (fDiv binary64 num (b64Scaled eta 29)) (b64 1))
  let raw := (unpackF binary64 x).roundAway free
  let p := clampInt (-128) 127 raw
  let l := clampInt (-8) 7 ((p + 8) / 16)
  (p, l, raw != p || (p + 8) / 16 != l)

/-! ## Folding (R287, R288) -/

/-- FOLD_TILES as it acts. -/
def State.foldTiles (s : State) : Nat :=
  let v := s.fld Reg.rptCtrl 12 8
  if v ≤ 1 then 1 else if v < 4 then 2 else if v < 8 then 4 else if v < 16 then 8 else 16

/-- F(t) as a fraction. -/
def blendFraction (tf : Nat) : Option Nat → Nat × Nat
  | none => (1, 1)
  | some t => if 256 ≤ t then (1, 1) else if t < tf then (t, 256) else (tf, 256 + tf - t)

/-- Add to entry c of three sums. -/
def addAt {α : Type} [Add α] (l : List α) (c : Nat) (v : α) : List α :=
  (l.zip (List.range l.length)).map fun p => if p.2 = c then p.1 + v else p.1

/-- Two 4-bit residuals a byte. -/
def nibbles : List Int → List Byte
  | a :: b :: xs => BitVec.ofNat 8 (toBits 4 a + 16 * toBits 4 b) :: nibbles xs
  | [a] => [BitVec.ofNat 8 (toBits 4 a)]
  | [] => []

/-- The fold of one group (R286 to R288). -/
def State.foldGroup (s : State) (n : Nat) (x : Sampled) : State :=
  let v := x.group / 24
  let g := x.group % 24
  let i := groupIndex v g
  let r := s.devRead 19 (baseResAddr n i) 9600
  let s := r.1
  let t := s.rptTile n
  let ok := s.memReady 19 (s.residualRow false v).1 3686400 && s.memReady 19 (s.residualRow true v).1 1843200
    && (s.foldTiles != 16 || s.seq.rate != 4 || Config.freeBit s.draws x.group)
  if !ok then s.drawn.bump (Reg.rptCnt 1)
  else
    let free : Int := sext 8 (Config.freeWord s.draws x.group).toNat
    let frac := blendFraction (1024 / s.foldTiles) t.blend
    let cnts := words16 9600 (s.bytesAt (stressAddr n i) 19200)
    let em := (List.range 9600).map fun k =>
      let eta := etaEmitter (t.kappa.getD (k % 3) 0) (s.efficiency (k % 3) (cnts.getD k 0))
      (eta, foldTarget (sext 8 (r.2.1.getD k 0).toNat) (t.mean.getD (k % 3) 0) eta free)
    let move (cur tgt : Int) : Int := cur + roundAway ((tgt - cur) * frac.1) frac.2
    let cur (k : Nat) : Int := x.residuals.getD k 0
    let pm := (em.zip (List.range 9600)).map fun p => if s.latency then p.1.2.1 else move (cur p.2) p.1.2.1
    let lm := (em.zip (List.range 9600)).map fun p => if s.latency then move (cur p.2) p.1.2.2.1 else p.1.2.2.1
    let s := (s.devWrite 19 ((s.residualRow false v).1 + n * 230400 + 9600 * g) (pm.map fun a => BitVec.ofNat 8 (toBits 8 a))).1
    let s := (s.devWrite 19 ((s.residualRow true v).1 + n * 115200 + 4800 * g) (nibbles lm)).1
    let sums := (em.zip (List.range 9600)).foldl (fun (a : List Int) p => addAt a (p.2 % 3) p.1.1) t.foldSum
    let s := s.setRptTile n { t with foldSum := sums, foldCnt := t.foldCnt.map (· + 3200) }
    s.drawn.bump (Reg.rptCnt 3) ((em.filter fun p => p.2.2.2).length)

/-- The folds of a frame, from the start of slot 432 (R288). -/
def State.foldFrame (s : State) : State :=
  if !s.rptOn || !s.flag Reg.rptCtrl 1 then s else
  let ft := s.foldTiles
  (List.range ft).foldl (fun s j =>
    let n := (ft * (s.seq.frame / 64) + j) % 16
    if s.cal.running.any fun p => p.1 == n then s
    else (s.rptTile n).sampled.foldl (fun s x => s.foldGroup n x) s) s

/-! ## Sensing (R289, R290) -/

/-- ARG of a SENSE command. -/
def senseArg (i kind level : Nat) : Nat := i % 2 ^ 27 + kind % 4 * 2 ^ 27 + level % 2 ^ 11 * 2 ^ 29

/-- The SENSE commands of a Recess (R289). -/
def State.sense (s : State) : State :=
  if !s.rptOn || !s.flag Reg.rptCtrl 2 then s else
  let per := min 8 (bits (s.rptWord Reg.rptSense) 15 12)
  let level := bits (s.rptWord Reg.rptSense) 10 0
  s.eachTile fun s n =>
    if (s.tile n).st != .linked then s else
    (List.range per).foldl (fun s j =>
      let t := s.rptTile n
      match t.sampled[(Config.freeWord s.draws j).toNat % (max 1 t.sampled.length)]? with
      | none => s
      | some x =>
        let g := lfsrDraw t.gen
        let i := groupIndex (x.group / 24) (x.group % 24) + (Config.draw16 g).toNat % 9600
        ((s.setRptTile n { t with gen := g }).tileCommand n .rpt 1 (senseArg i 1 level)).drawn) s

/-- The record in force, a little-endian field of it at a byte of Table CAL-3. -/
def State.recField (s : State) (k n : Nat) : Nat := leAt (s.cal.record.getD []) (k - 128) n

/-- The record's points of a tile: their number, temperatures, byte position. -/
def State.recNpts (s : State) (n : Nat) : Nat := nptsOf (min 15 (s.recField (128 + 512 * n) 1))
def recPoint (n k : Nat) : Nat := 128 + 512 * n + 8 + 52 * k
def State.recTemp (s : State) (n k : Nat) : Int := sext 16 (s.recField (recPoint n k) 2)
def State.recM (s : State) (n k i : Nat) : Int := sext 32 (s.recField (recPoint n k + 4 + 4 * i) 4)
def State.recSref (s : State) (n k c : Nat) : Nat := s.recField (recPoint n k + 40 + 4 * c) 4

/-- κ_obs and its weight from a good sample of an emitter (R289): none where the sample gives no value, as without a record
(DEDUCED, log entry 53). -/
def State.senseValue (s : State) (n i sample cnt : Nat) (b : Int) : Option (Nat × Rat × Rat) :=
  let low := s.fld (Reg.calAdc n) 15 0
  let fs := s.fld (Reg.calAdc n) 31 16
  let c := i % 3
  let npts := risingPrefix (s.recTemp n) (s.recNpts n - 1) 1
  let sref := interpolate (s.recTemp n) (fun k => s.recSref n k c) npts (s.frameTemp n)
  let loss : Int := 2 ^ 15 - s.efficiency c cnt
  if s.cal.record.isNone || low = fs || sref ≤ 0 || loss < 33 then none
  else
    let num : Int := ((sample : Int) - low) * (2048 + b)
    let den : Int := ((fs : Int) - low) * 2048
    let obs : Rat := (num : Rat) / den * (Config.srefUnit + 1 : Nat) / sref
    let v := i / 230400
    let u := i % 230400 / 300
    let node := (v + 4) / 8 * 97 + (u + 4) / 8
    let conf := (SMap.get (fun _ => (0 : Byte)) s.plc.activeConf (5335 * n + node)).toNat
    let l : Rat := (loss : Rat) / 2 ^ 15
    some (c, (conf : Rat) * l, (1 - obs) / l)

/-- A sense sample of emitter i comes back (R289). -/
def State.senseSample (s : State) (n i sample : Nat) (good : Bool) : State :=
  if !good then s.bump (Reg.rptCnt 5) else
  let a := s.devRead 19 (stressAddr n i) 2
  let b := a.1.devRead 19 (baseResAddr n i) 1
  let s := b.1.bump (Reg.rptCnt 4)
  match s.senseValue n i sample (leNat a.2.1) (sext 8 (leNat b.2.1)) with
  | none => s
  | some (c, w, k) =>
    let t := s.rptTile n
    s.setRptTile n { t with senseW := addAt t.senseW c w, senseWK := addAt t.senseWK c (w * k) }

/-- Round to nearest; the direction of a tie is free. -/
def ratRound (x : Rat) (free : Bool) : Int :=
  let f := (x + 1 / 2).floor
  if (f : Rat) = x + 1 / 2 && free then f - 1 else f

/-- κ in 2^-14, held within 0.25 to 3.99994. -/
def kappaHold (k : Int) : Nat := (clampInt 0x1000 0xFFFF k).toNat

/-- κ of a tile-colour at the end of a cycle (R290). -/
def kappaStep (old : Nat) (w wk : Rat) (gain step : Nat) (free : Bool) : Nat :=
  if w < 16 then old
  else
    let k : Rat := old / 2 ^ 14
    let d := (gain : Rat) / 256 * (wk / w - k)
    let lim : Rat := step / 2 ^ 14
    let d := if d < -lim then -lim else if lim < d then lim else d
    kappaHold (ratRound ((k + d) * 2 ^ 14) free)

/-- The end of a 64-frame cycle (R285, R290). While a sweep runs its samples stay for it (R296). -/
def State.cycleEnd (s : State) : State :=
  if !s.live 24 then s else
  let gain := bits (s.rptWord Reg.rptSense) 23 16
  let step := bits (s.rptWord Reg.rptSense) 31 24
  let sweep := s.cal.sweep.isSome
  (s.eachTile fun s n =>
    let t := s.rptTile n
    let free (c : Nat) : Bool := Config.freeBit s.draws (8 * n + c)
    let kappa := if sweep then t.kappa else (List.range 3).map fun c =>
      kappaStep (t.kappa.getD c 0) (t.senseW.getD c 0) (t.senseWK.getD c 0) gain step (free c)
    let mean := (List.range 3).map fun c =>
      let cnt := t.foldCnt.getD c 0
      let sum := (t.foldSum.getD c 0)
      if cnt = 0 then t.mean.getD c 0
      else (clampInt 0 0xFFFF (let q := sum / ((cnt * 2 ^ 14 : Nat) : Int)
        if sum % ((cnt * 2 ^ 14 : Nat) : Int) = 0 then q else q + bnat (free (4 + c)))).toNat
    s.setRptTile n { t with kappa := kappa, mean := mean, foldSum := [0, 0, 0], foldCnt := [0, 0, 0]
                            senseW := if sweep then t.senseW else [0, 0, 0]
                            senseWK := if sweep then t.senseWK else [0, 0, 0] }).drawn

/-! ## Register writes of the Report Card -/

/-- A write of RPT_CTRL (R284, R285, R302): EN rising seeds the generators and begins with η̄ = 1.0 and no blend; it is
ignored during a restore or a CLEAR; CLEAR acts while EN is 0. -/
def State.rptCtrlWrite (s : State) (v : Word) : State :=
  let busy := s.rpt.restore.isSome || !s.rpt.restQueue.isEmpty || s.rpt.clearing
  let was := s.flag Reg.rptCtrl 0
  let v := if busy && !was then v &&& 0xFFFFFFFE else v
  let s := s.store Reg.rptCtrl v
  let now := s.flag Reg.rptCtrl 0
  if !was && now then
    s.eachTile fun s n =>
      let seed := s.reg Reg.rptSeed ^^^ word n
      s.setRptTile n { s.rptTile n with gen := if seed = 0 then 1 else seed, mean := [0x8000, 0x8000, 0x8000], blend := none,
                                        foldSum := [0, 0, 0], foldCnt := [0, 0, 0], codes := [], resid := [], sampled := [] }
  else if v.getLsbD 31 && !now then { s with rpt := { s.rpt with clearing := true } }
  else s

/-- RPT_CLEAR. -/
def execRptClear (b : BusWrite) (s : State) : Out := .next (s.busWrite Reg.rptCtrl b State.rptCtrlWrite)

/-- Zeros over a range of memory as one write: what it lists goes, its poison clears (R281; 14 R311). -/
def State.zeroRange (s : State) (a n : Nat) : State :=
  { s with dmc := { s.dmc with dram := SMap.delRange s.dmc.dram a (a + n)
                               poison := s.dmc.poison.filter fun ln => 64 * ln < a || a + n ≤ 64 * ln
                               soft := s.dmc.soft.filter fun ln => 64 * ln < a || a + n ≤ 64 * ln } }

/-- STRESS_CLEAR_DONE: the whole stress region reads 0. -/
def execStressClearDone (s : State) : Out :=
  if s.live 24 && s.rpt.clearing then
    let s := { s with rpt := { s.rpt with clearing := false } }
    if s.permits 2 19 0 3185049600 true then .next (s.zeroRange 0x1C00000000 3185049600)
    else .next (s.violation 2 19 0 true)
  else .next s

/-- RPT_CNT_CLR (R80). -/
def State.rptCntClr (s : State) (v : Word) : State :=
  if v.getLsbD 0 then s.clrRegs (Reg.rptCnt 0) 6 else s

/-- RPT_CNT_CLR (R80). -/
def execRptCntClr (b : BusWrite) (s : State) : Out :=
  .next (s.busWrite Reg.rptCntClr b State.rptCntClr)

/-! ## Trims (R292, R293) -/

/-- I_UNIT in nA: four times the REFR current, V_REFV / R_REFR, as last measured (12 R277). -/
def State.iUnit (s : State) : Nat := 4 * s.tlk.refr

/-- I_n in nA, what IREF[n] sources: I_UNIT × CODE_APP / 262,144 × g_n; none at high impedance (12 R277, R279). -/
def State.irefCurrent (s : State) (n : Nat) : Option Rat :=
  if s.irefDriven n then some ((s.iUnit * s.codeApp n * s.fld (Reg.calGain n) 23 0 : Nat) / (262144 * 2 ^ 22 : Rat)) else none

def State.dieTemp (s : State) : Int := sext 16 (s.fld Reg.thmDie 15 0)

/-- The trim of tile n interpolated at the present die temperature, Q2.22. -/
def State.trimPoint (s : State) (n : Nat) : Int :=
  let ts := s.cal.trims
  let temp (k : Nat) : Int := match ts[k]? with | some p => p.temp | none => 0
  let val (k : Nat) : Int := match ts[k]? with | some p => p.g.getD n 0x400000 | none => 0x400000
  if ts.isEmpty then 0x400000 else interpolate temp val (risingPrefix temp (ts.length - 1) 1) s.dieTemp

def State.driftOf (s : State) (n : Nat) : Rat := SMap.get (fun _ => 1) s.cal.drift n

/-- The trim g_n moves toward its new value at a flip by at most 1/10,000 of its value (R293). -/
def State.gainStep (s : State) (n : Nat) : State :=
  if !s.live 25 then s else
  let cur := s.fld (Reg.calGain n) 23 0
  let x := s.trimPoint n * s.driftOf n
  let tgt := x.floor + bnat ((x.floor : Rat) != x && Config.freeBit s.draws n)
  let tgt := (clampInt 0 0xFFFFFF tgt).toNat
  let v := if cur < tgt then min tgt (cur + cur / 10000) else max tgt (cur - cur / 10000)
  s.setReg (Reg.calGain n) (word v)

/-- The mirror measurement of a Recess begins (R292). -/
def State.trimStart (s : State) : State :=
  let n := s.seq.frame % 16
  if s.live 25 && s.flag Reg.calCtrl 0 && (s.tile n).st == .linked && 4096 ≤ s.codeApp n then
    { s with cal := { s.cal with mirror := some (n, s.now) } }
  else s

/-- REF_SENSE with inputs 0 and 1 to a tile (R292). -/
def State.refSense (s : State) (n : Nat) : State := (s.tileCommand n .cal 2 0).tileCommand n .cal 2 1

/-- TRIM_MEASUREMENT (R292): 40 µs after its start the measurement gives a trim, in Q2.22. -/
def execTrimMeasurement (trim : BitVec 24) (s : State) : Out :=
  match s.cal.mirror with
  | some (n, t) =>
    if s.live 25 && t + 64000 ≤ s.now then
      let s := { s with cal := { s.cal with mirror := none } }
      let v : Int := trim.toNat
      let s := if 100 * (v - 0x400000).natAbs > 2 * 0x400000 then s.event 174
        else
          let p := s.trimPoint n
          let d : Rat := if p = 0 then 1 else v / p
          { s with cal := { s.cal with drift := SMap.put (fun _ => 1) s.cal.drift n d } }.bump (Reg.calCnt 0)
      .next (s.refSense n)
    else .next s
  | none => .next s

/-! ## Tracking the tile mean (R291) -/

/-- A row scale moves toward its target by at most 1/10,000 of its value. -/
def scaleStep (h tgt : Rat) : Rat :=
  let d := h / 10000
  if h + d < tgt then h + d else if tgt < h - d then h - d else tgt

/-- Slot 432: the engine writes the scaled points and arms them. Without a record there is nothing to scale. -/
def State.ageTrack (s : State) : State :=
  if !s.live 25 || !s.flag Reg.calCtrl 1 || s.cal.record.isNone then s else
  let s := s.eachTile fun s n =>
    let s := (List.range 3).foldl (fun s c =>
      let k := 3 * n + c
      let h := SMap.get (fun _ => (1 : Rat)) s.cal.scale k
      let m := (s.rptTile n).mean.getD c 0
      let e0 := SMap.get (fun _ => (0x8000 : Nat)) s.cal.eta0 k
      let h' := if m = 0 then h else scaleStep h ((e0 : Rat) / m)
      { s with cal := { s.cal with scale := SMap.put (fun _ => 1) s.cal.scale k h' } }) s
    (List.range (s.recNpts n)).foldl (fun s k =>
      (List.range 9).foldl (fun s i =>
        let h := SMap.get (fun _ => (1 : Rat)) s.cal.scale (3 * n + i / 3)
        let x := s.recM n k i * h
        let v := roundAway x.num x.den
        s.masterStore 20 (Reg.finPM n k i) (word (toBits 24 v))) s) s
  if s.answers Reg.finCtrl && s.permits 17 20 0 4 true then s.finArm else s

/-! ## The calibration record (R299, R300) -/

/-- An accepted record is installed at slot 432. -/
def State.installRecord (s : State) : State :=
  match s.cal.accepted with
  | none => s
  | some (bs, _) =>
    if !s.live 25 then s else
    let s := { s with cal := { s.cal with accepted := none, record := some bs } }
    let s := s.eachTile fun s n =>
      let s := s.masterStore 20 (Reg.finNpts n) (word (s.recField (128 + 512 * n) 1))
      let s := (List.range (s.recNpts n)).foldl (fun s k =>
        (List.range 9).foldl (fun s i => s.masterStore 20 (Reg.finPM n k i) (word (toBits 24 (s.recM n k i))))
          (s.masterStore 20 (Reg.finPTemp n k) (word (toBits 16 (s.recTemp n k))))) s
      let f (j c : Nat) : Nat := s.recField (128 + 512 * n + 424 + 6 * j + 2 * c) 2
      let s := s.setRptTile n { s.rptTile n with kappa := [f 0 0, f 0 1, f 0 2], mean := [f 2 0, f 2 1, f 2 2] }
      { s with cal := { s.cal with eta0 := (List.range 3).foldl (fun m c =>
          SMap.put (fun _ => 0x8000) m (3 * n + c) (f 1 c)) s.cal.eta0 } }
    let tp (k : Nat) : TrimPoint :=
      let a := 8328 + 132 * k
      { temp := sext 16 (s.recField a 2), g := (List.range 16).map fun n => s.recField (a + 4 + 4 * n) 4,
        zero := (List.range 16).map fun n => s.recField (a + 68 + 2 * n) 2,
        fs := (List.range 16).map fun n => s.recField (a + 100 + 2 * n) 2 }
    let s := { s with cal := { s.cal with trims := (List.range (min 8 (s.recField 8320 1))).map tp } }
    if s.answers Reg.finCtrl && s.permits 17 20 0 4 true then s.finArm else s

/-- A registered record buffer (R299): accepted for the next slot 432, or rejected with REC_ERR. -/
def State.recAccept (s : State) (x : Nat) : State :=
  let reject (s : State) : State := (s.returnBuffer 20 x 1).setFlag Reg.calStatus 31
  if s.bufLen x < 9384 then reject s else
  let r := s.devRead 20 (winAddr x + 64) 9320
  let h := r.2.1.take 64
  let body := r.2.1.drop 64
  if leAt h 0 4 = 0x52434647 ∧ leAt h 4 4 = 1 ∧ shake256 body 32 = slice h 32 32 ∧ r.2.2 = true then
    let gen := leAt h 8 4
    let s := { r.1 with cal := { r.1.cal with accepted := some (body, gen) } }
    (s.setReg Reg.calRecGen (word gen)).returnBuffer 20 x 0
  else reject r.1

/-- CAL_REC_LOAD (R299, R337). -/
def State.recLoadWrite (s : State) (v : Word) : State :=
  s.post .calRecLoad (v.toNat &&& 0x3FFFFFC0)

/-- CAL_REC_LOAD (R299, R337). -/
def execCalRecLoad (b : BusWrite) (s : State) : Out :=
  .next (s.busWrite Reg.calRecLoad b State.recLoadWrite)

/-- CAL_REC_POST (R300, R337): a queue of 4, a post to a full one ignored (DESIGN CHOICE, log entry 54). -/
def State.recPostWrite (s : State) (v : Word) : State :=
  if 4 ≤ s.cal.recQueue.length + s.posting .calRec then s else s.post .calRec (v.toNat &&& 0x3FFFFFC0)

def execCalRecPost (b : BusWrite) (s : State) : Out := .next (s.busWrite Reg.calRecPost b State.recPostWrite)

/-- Bytes 128 to 9,383 of the record as the engine writes it: the record in force with κ, η̄0, η̄ and the trim points held. -/
def State.recordBody (s : State) : List Byte :=
  let old := slice (s.cal.record.getD []) 0 9256
  let tiles := ((List.range 16).map fun n =>
    let t := s.rptTile n
    let e0 (c : Nat) : Nat := SMap.get (fun _ => 0x8000) s.cal.eta0 (3 * n + c)
    slice old (512 * n) 424 ++ (t.kappa.map (leBytes 2)).flatten ++ ((List.range 3).map fun c => leBytes 2 (e0 c)).flatten
      ++ (t.mean.map (leBytes 2)).flatten ++ List.replicate 70 0).flatten
  let pts := (s.cal.trims.map fun p =>
    leBytes 2 (toBits 16 p.temp) ++ [0, 0] ++ (p.g.map (leBytes 4)).flatten ++ (p.zero.map (leBytes 2)).flatten
      ++ (p.fs.map (leBytes 2)).flatten).flatten
  slice (tiles ++ leBytes 8 s.cal.trims.length ++ pts) 0 9256

/-- RECORD_WRITE (R300): a due record goes into the oldest posted buffer with the next GEN. -/
def execRecordWrite (s : State) : Out :=
  match s.cal.recQueue with
  | [] => .next s
  | x :: xs =>
    if s.live 25 && !s.cal.recDue.isEmpty && s.memReady 20 (winAddr x) 9384 then
      let gen := (s.reg Reg.calRecGen + 1).toNat
      let body := s.recordBody
      let content := leBytes 4 0x52434647 ++ leBytes 4 1 ++ leBytes 4 gen ++ List.replicate 20 0 ++ shake256 body 32 ++ body
      let s := { s with cal := { s.cal with recQueue := xs, recDue := s.cal.recDue.drop 1 } }
      .next (((s.setReg Reg.calRecGen (word gen)).returnFilled 20 x 0 content).event 177)
    else .next s

/-- A record is due (R300), asked for by CAL_RUN.REC or not. -/
def State.recordDue (s : State) (asked : Bool := false) : State :=
  { s with cal := { s.cal with recDue := s.cal.recDue ++ [asked] } }

/-! ## The base map (R298) -/

/-- NROWS and ROW0 of a base-map buffer. -/
def State.baseHeader (s : State) (x : Nat) : State × Nat × Nat :=
  let r := s.devRead 20 (winAddr x + 64) 64
  (r.1, leAt r.2.1 2 2, leAt r.2.1 4 2)

/-- A registered base-map buffer becomes a request, or is refused. -/
def State.baseAccept (s : State) (n x : Nat) : State :=
  let refuse (s : State) : State := (s.returnBuffer 20 x 1).setFlag Reg.calBaseStatus (16 + n)
  if s.bufLen x < 128 then refuse s else
  let (s, row0, rows) := s.baseHeader x
  if 432 < row0 + rows || rows = 0 || s.bufLen x < 128 + rows * 230400 then refuse s
  else if !s.cal.running.any fun p => p.1 == n then
    { s with cal := { s.cal with running := SMap.ins s.cal.running n x } }
  else
    let old := s.cal.queued.find? fun p => p.1 == n
    let s := { s with cal := { s.cal with queued := SMap.ins s.cal.queued n x } }
    match old with
    | some (_, y) => ((s.setFlag Reg.calBaseStatus n).event 175).returnBuffer 20 y 2
    | none => s

/-- CAL_BASE_LOAD (R298, R337): each write is one request, checked as a post first. -/
def State.baseLoadWrite (s : State) (v : Word) : State :=
  s.post (.calBase (bits v.toNat 3 0)) (v.toNat &&& 0x3FFFFFC0)

/-- CAL_BASE_LOAD (R298, R337). -/
def execCalBaseLoad (b : BusWrite) (s : State) : Out :=
  .next (s.busWrite Reg.calBaseLoad b State.baseLoadWrite)

/-- A tile's blend restarts (R287). -/
def State.blendStart (s : State) (n : Nat) : State := s.setRptTile n { s.rptTile n with blend := some 0 }

/-- BASE_LOAD_DONE (R298): the rows are in the base map, the buffer goes back, the blend restarts. -/
def execBaseLoadDone (tile : Fin 16) (s : State) : Out :=
  let n := tile.val
  match s.cal.running.find? fun p => p.1 == n with
  | none => .next s
  | some (_, x) =>
    if !s.live 25 || !s.memReady 20 (winAddr x) (s.bufLen x) || !s.memReady 20 0x1C00000000 64 then .next s else
    let (s, row0, rows) := s.baseHeader x
    let r := s.devRead 20 (winAddr x + 128) (rows * 230400)
    let s := (r.1.devWrite 20 (baseResAddr n (230400 * row0)) r.2.1).1
    let next := s.cal.queued.find? fun p => p.1 == n
    let running := match next with
      | some (_, y) => SMap.ins s.cal.running n y
      | none => SMap.del s.cal.running n
    let s := { s with cal := { s.cal with running := running, queued := SMap.del s.cal.queued n } }
    .next ((((s.returnBuffer 20 x 0).bump (Reg.calCnt 1)).blendStart n).event 176)

/-! ## Procedures (R295 to R297) -/

/-- A write of CAL_RUN (R297, R300): a request already waiting or running is not repeated (R11). -/
def State.calRunWrite (s : State) (v : Word) : State :=
  let c := s.cal
  let s := if v.getLsbD 0 && c.elec.isNone && c.elecReq.isNone then { s with cal := { s.cal with elecReq := some s.now } } else s
  let s := if v.getLsbD 1 && c.sweep.isNone && c.sweepReq.isNone then { s with cal := { s.cal with sweepReq := some s.now } } else s
  if v.getLsbD 2 && !c.recDue.contains true then s.recordDue true else s

/-- The procedure that begins at a flip (R297): the one requested first, of one cycle the electrical self-calibration. -/
def Cal.next (c : Cal) : Option Bool :=
  match c.elecReq, c.sweepReq with
  | some e, some w => some (decide (e ≤ w))
  | some _, none => some true
  | none, some _ => some false
  | none, none => none

/-- CAL_ELEC (R297). -/
def execCalElec (b : BusWrite) (s : State) : Out := .next (s.busWrite Reg.calRun b State.calRunWrite)

/-- CAL_SWEEP (R297). -/
def execCalSweep (b : BusWrite) (s : State) : Out := .next (s.busWrite Reg.calRun b State.calRunWrite)

/-- CAL_REC (R300). -/
def execCalRec (b : BusWrite) (s : State) : Out := .next (s.busWrite Reg.calRun b State.calRunWrite)

/-- Milliseconds in units of the wall clock. -/
def wallMs (n : Nat) : Nat := n * 1000000 * 16000000

/-- Put a trim point in order of temperature. -/
def insertTrim (p : TrimPoint) : List TrimPoint → List TrimPoint
  | [] => [p]
  | q :: qs => if p.temp ≤ q.temp then p :: q :: qs else q :: insertTrim p qs

/-- The held point nearest a temperature. -/
def nearestTrim (t : Int) (ps : List TrimPoint) : Option TrimPoint :=
  ps.foldl (fun b p => match b with
    | some q => if (p.temp - t).natAbs < (q.temp - t).natAbs then some p else b
    | none => some p) none

/-- The results of an electrical self-calibration are stored (R295): the measured trims are free values, the sense
converters' results stand in CAL_ADCn. -/
def State.elecStore (s : State) : State :=
  let t := s.dieTemp
  let p : TrimPoint := { temp := t, g := (List.range 16).map fun n => (Config.freeWord s.draws n).toNat % 2 ^ 24,
                         zero := (List.range 16).map fun n => s.fld (Reg.calAdc n) 15 0,
                         fs := (List.range 16).map fun n => s.fld (Reg.calAdc n) 31 16 }
  let ps := s.cal.trims
  let ps' := match nearestTrim t ps with
    | some q => if (q.temp - t).natAbs ≤ 32 || 8 ≤ ps.length then insertTrim p (ps.erase q) else insertTrim p ps
    | none => [p]
  ({ s with cal := { s.cal with trims := ps' } }).drawn

/-- The end of a sweep (R296): each κ takes its estimate, every blend restarts. -/
def State.sweepEnd (s : State) : State :=
  (s.eachTile fun s n =>
    let t := s.rptTile n
    let kappa := (List.range 3).map fun c =>
      let w := t.senseW.getD c 0
      if (s.tile n).st != .linked || w ≤ 0 then t.kappa.getD c 0
      else kappaHold (ratRound (t.senseWK.getD c 0 / w * 2 ^ 14) (Config.freeBit s.draws (4 * n + c)))
    s.setRptTile n { t with kappa := kappa, blend := some 0, senseW := [0, 0, 0], senseWK := [0, 0, 0] }).drawn

/-- Procedures at a flip (R295 to R297): one that has run its time ends; else, if none ran, a requested one begins. -/
def State.proceduresFlip (s : State) : State :=
  if !s.live 25 then s else
  let isDone (p : CalProc) (ms : Nat) : Bool := decide (p.start + wallMs ms ≤ s.asm.wall)
  match s.cal.elec, s.cal.sweep with
  | some p, _ =>
    if isDone p 42 then
      let s := s.elecStore.recordDue
      { s with cal := { s.cal with elec := none, dark := false } }
    else s
  | none, some p =>
    if isDone p 1800 then
      let s := s.sweepEnd.recordDue
      { s with cal := { s.cal with sweep := none, dark := false } }
    else s
  | none, none =>
    match s.cal.next with
    | some true =>
      let s := { s with cal := { s.cal with elecReq := none, elec := some ⟨s.asm.wall⟩, dark := true } }
      s.eachTile fun s n =>
        let s := s.zeroApp n
        if (s.tile n).st = .linked then s.refSense n else s
    | some false =>
      let s := { s with cal := { s.cal with sweepReq := none, sweep := some ⟨s.asm.wall⟩, dark := true
                                            sweepNext := [], sweepAt := [] } }
      s.eachTile fun s n => s.setRptTile n { s.rptTile n with senseW := [0, 0, 0], senseWK := [0, 0, 0] }
    | none => s

/-- Step j of a tile's sweep (R296): 15,552 SENSE commands, REF_SENSE with inputs 0 and 1 before every 256th: OP and
ARG. -/
def sweepStep (j level : Nat) : Nat × Nat :=
  let b := j / 258
  let r := j % 258
  if r = 255 then (2, 0) else if r = 256 then (2, 1)
  else
    let k := 256 * b + (if r = 257 then 255 else r)
    let l := k / 3
    let i := 230400 * (8 * (l / 96) + 4) + 300 * (8 * (l % 96) + 4) + 150 + k % 3
    (1, senseArg i 1 level)

/-- The sweep's next command for a tile joins those that wait, 25 µs after the one before (R296). -/
def State.sweepIssue (s : State) (n : Nat) : State :=
  match s.cal.sweep with
  | none => s
  | some p =>
    let j := SMap.get (fun _ => 0) s.cal.sweepNext n
    let last := s.cal.sweepAt.find? fun q => q.1 == n
    let due := match last with | some (_, t) => decide (t + 40000 ≤ s.now) | none => true
    if s.live 25 && (s.tile n).st == .linked && decide (p.start + wallMs 1200 ≤ s.asm.wall) && j < 15672 && due then
      let c := sweepStep j (bits (s.rptWord Reg.rptSense) 10 0)
      let s := { s with cal := { s.cal with sweepNext := SMap.put (fun _ => 0) s.cal.sweepNext n (j + 1)
                                            sweepAt := SMap.ins s.cal.sweepAt n s.now } }
      s.tileCommand n .cal c.1 c.2
    else s

/-- CAL_CNT_CLR (R80). -/
def State.calCntClr (s : State) (v : Word) : State :=
  if v.getLsbD 0 then s.clrRegs (Reg.calCnt 0) 2 else s

/-- CAL_CNT_CLR (R80). -/
def execCalCntClr (b : BusWrite) (s : State) : Out :=
  .next (s.busWrite Reg.calCntClr b State.calCntClr)

/-! ## Commands and their answers (12 R271 to R273) -/

/-- CMD_HANDOVER (R271): what a sweep issues now joins the waiting commands; one of them is handed over. -/
def execCmdHandover (tile : Fin 16) (s : State) : Out :=
  let n := tile.val
  if !s.live 23 then .next s else
  let s := s.sweepIssue n
  .next (if s.cmdAllowed n then s.cmdHandover n else s)

/-- A command is complete (R272, R273, R289, R292, R296). -/
def State.cmdComplete (s : State) (n : Nat) (c : TileCmd) (valid oor : Bool) (sample : Nat) (timeout : Bool) : State :=
  let good := valid && !oor
  match c.src with
  | .host => s.hostResult n c.op sample oor timeout
  | .rpt => s.senseSample n (c.arg % 2 ^ 27) sample good
  | .cal =>
    if c.op = 2 then
      (if !good then s
       else if c.arg = 0 then s.setFld (Reg.calAdc n) 15 0 sample
       else s.setFld (Reg.calAdc n) 31 16 sample)
    else s.senseSample n (c.arg % 2 ^ 27) sample good
  | .range => s

/-- CMD_RESULT (R272, R275). -/
def execCmdResult (tile : Fin 16) (s : State) : Out :=
  let n := tile.val
  match if s.live 23 then s.takeReturn n 0x72 else none with
  | none => .next s
  | some (w, s) =>
    let t := s.tile n
    match t.out.find? fun o => o.ctag == bits w 15 8 with
    | none => .next (s.bump (Reg.tlkCnt 3))
    | some o =>
      let s := s.setTile n { t with out := t.out.erase o }
      .next (s.cmdComplete n o.cmd (w.testBit 24) (w.testBit 25) (bits w 47 32) false)

/-- CMD_TIMEOUT (R272): the oldest command of a tile unanswered for 25 µs; what it gives the host as SAMPLE and OOR is free
(DESIGN CHOICE, log entry 50). -/
def execCmdTimeout (tile : Fin 16) (s : State) : Out :=
  let n := tile.val
  match (s.tile n).out with
  | [] => .next s
  | o :: rest =>
    if s.live 23 && o.at_ + 40000 ≤ s.now then
      let d := s.draws
      let s := (s.setTile n { s.tile n with out := rest }).drawn
      let s := (s.bump (Reg.tlkCnt 2)).event 170
      .next (s.cmdComplete n o.cmd false (Config.freeBit d 0) ((Config.freeWord d 0).toNat % 65536) true)
    else .next s

/-! ## Flips and Recess -/

/-- Slot 432: fold, sensing, measurement, record, row scales (R288, R289, R291, R292, R299). -/
def State.ageSlot432 (s : State) : State := s.foldFrame.sense.trimStart.installRecord.ageTrack

/-- Registers whose writes count from slot 0 of the next frame. -/
def rptGroup (off : Nat) : Bool :=
  (Reg.rptModel ≤ off && off ≤ Reg.rptIrefRef) || off == Reg.rptSense || (Reg.rptAge 0 0 ≤ off && off < Reg.rptAge 3 0)

/-- A flip, for the Report Card and the procedures: a new class, blends count, cycles end (R282, R287, R290, R295 to R297). -/
def State.ageFlip (s : State) : State :=
  let s := s.proceduresFlip
  let s := s.eachTile fun s n =>
    let t := s.rptTile n
    s.setRptTile n { t with sampled := [], codes := [], resid := [], blend := t.blend.map fun x => min 256 (x + 1) }
  let s := if s.seq.frame % 64 = 0 then s.cycleEnd else s
  { s with rpt := { s.rpt with force := s.regs.filter fun p => rptGroup p.1 } }

/-- A flip, for one tile: CODE_APP, trim, state, FRAME_HEAD (R261, R278, R293, R294). -/
def State.tileFlip (s : State) (short : Bool) (n : Nat) : State :=
  let old := s.codeApp n
  let done := (s.tile n).rampDone
  let s := s.codeAppStep n
  let s := if done && s.codeApp n = old then s.gainStep n else s
  (s.tileLinks n).frameHeads short n

/-- A flip, for the tile link. -/
def State.tlkFlip (s : State) (short : Bool) : State :=
  if !s.live 23 then s else
  let s := { s with tlk := { s.tlk with splice := [], range := s.tlk.rangeSent } }
  (s.eachTile fun s n => s.tileFlip short n).drawn

end Sys2Proof.Machine
end

