-- ==== Sys2Proof/Machine/Stage.lean ====
section
/-!
DEFINITION. What other chapters ask of the Registrar (20): the option bytes and the serial (R397, R413), the stage and the
images the Assembly link brings into it (R416, R420), results (R426), the Assembly-link keys (R427).
-/
namespace Sys2Proof.Machine

/-! ## Option bytes (18 R397; 20 R413) -/

/-- A loaded option byte. -/
def State.optByte (s : State) (k : Nat) : Nat := (SMap.get (fun _ => 0) s.rst.opt k).toNat

/-- The word at an offset of the PCIe configuration space: identity and base addresses (15 Table HST-1; 18 option bytes 2 to 5; the
places of the standard type 0 header PRESUMED, log entry 88). -/
def State.cfgWord (s : State) (off : Nat) : Word :=
  let c := s.host.cfg
  let bar (b : BitVec 64) (size flags : Nat) (high : Bool) : Word :=
    let a := b.toNat / size * size
    if high then word (a / 2 ^ 32) else word (a % 2 ^ 32 + flags)
  match off with
  | 0x00 => 0x09601F66
  | 0x04 => word (bnat c.memSpace * 2 + bnat c.busMaster * 4 + 2 ^ 20)
  | 0x08 => word (0x048000 * 256 + Config.siliconRev.toNat)
  | 0x10 => bar c.bar0 (2 ^ 26) 4 false
  | 0x14 => bar c.bar0 (2 ^ 26) 4 true
  | 0x18 => bar c.bar2 (2 ^ 30) 12 false
  | 0x1C => bar c.bar2 (2 ^ 30) 12 true
  | 0x2C => word (s.optByte 2 + 256 * s.optByte 3 + 2 ^ 16 * (s.optByte 4 + 256 * s.optByte 5))
  | _ => 0

/-- The device serial (Table SEC-1). -/
def State.serial (s : State) : Nat := (List.range 8).foldl (fun a i => a + s.optByte (98 + i) * 256 ^ i) 0

/-- Bits of LEAF_RES that are clear (SEC_STATUS.BLOCKS_FREE). -/
def State.blocksFree (s : State) : Nat :=
  ((List.range 1024).filter fun k => !(s.optByte (128 + k / 8)).testBit (k % 8)).length

/-! ## Keys (R427) -/

/-- The key of a slot; what begins in the cycle of a commit uses the old one. -/
def State.asmKey (s : State) (slot : Nat) : Option (List Byte) :=
  let keys := s.cyc.keys.getD (s.sec.key0, s.sec.key1)
  (if slot = 0 then keys.1 else keys.2).map fun k => leBytes 32 k.toNat

/-! ## Results (R426, Table SEC-6) -/

/-- A result to HST_MBOX0: status, kind, type, DATA1, DATA2, the first 12 bytes of the digest. -/
def State.secResult (s : State) (status kind type d1 d2 : Nat) (digest : List Byte) : State :=
  s.mboxResult 0 [word (status * 2 ^ 24 + kind * 2 ^ 20 + type * 2 ^ 16), word d1, word d2,
    word (leAt digest 0 4), word (leAt digest 4 4), word (leAt digest 8 4)]

/-- First device address of part `slot` of the stage, 24 MiB each; decompressed payloads use part 4 (R416; DESIGN CHOICE, log entry 31). -/
def State.stageAddr (s : State) (slot : Nat) : Nat :=
  0x1E00000000 + s.fld Reg.secStage 5 0 * 2 ^ 27 + slot * 0x1800000

/-! ## Reassembly (R420) -/

/-- How far bytes have arrived without a gap from position p. -/
def reach (got : List (Nat × Nat)) : Nat → Nat → Nat
  | 0, p => p
  | n + 1, p => reach got n (got.foldl (fun p r => if r.1 ≤ p then max p r.2 else p) p)

/-- Every byte of the image has arrived, its LAST packet too. -/
def AsmImage.whole (i : AsmImage) : Bool := i.last && decide (i.total ≤ reach i.got i.got.length 0)

/-- An image in reassembly is abandoned with a status: its result, count and event. What of its header and digest has no
value yet is free (DEDUCED, log entry 32). -/
def State.abandonImage (s : State) (stream status : Nat) : State :=
  let s := { s with sec := { s.sec with assembling := s.sec.assembling.filter fun i => i.stream != stream } }
  let f (i : Nat) : Nat := (Config.freeWord s.draws i).toNat
  let s := s.drawn.bump (Reg.secCnt 1)
  (s.secResult status 1 (f 0 % 16) stream (f 1 % 65536)
    (leBytes 4 (f 2) ++ leBytes 4 (f 3) ++ leBytes 4 (f 4))).event 12

/-- The Registrar runs its firmware. -/
def State.registrarRuns (s : State) : Bool := s.up 36 && s.flag Reg.secStatus 31

/-- Parts of the stage that hold an image in reassembly or complete. -/
def State.stageUsed (s : State) (slot : Nat) : Bool :=
  let of (x : ImageSrc) : Bool := match x with | .stage _ n _ => n == slot | .buffer _ => false
  s.sec.assembling.any (fun i => i.slot == slot) || s.sec.complete.any of

/-- Bytes of an image arrive for reassembly: stored in the stage by master 0, and the image completes with them. -/
def State.imageBytes (s : State) (i : AsmImage) (off : Nat) (payload : List Byte) (last : Bool) : State :=
  let payload := payload.take (i.total - off)
  let s := if payload.isEmpty then s else (s.devWrite 0 (s.stageAddr i.slot + off) payload).1
  let i := { i with got := i.got ++ [(off, off + payload.length)], last := i.last || last }
  let others := s.sec.assembling.filter fun j => j.stream != i.stream
  if i.whole then
    { s with sec := { s.sec with assembling := others
                                 complete := s.sec.complete ++ [.stage i.stream i.slot i.total] } }
  else { s with sec := { s.sec with assembling := others ++ [i] } }

/-- A delivered PROGRAM_IMAGE packet: data blocks without any tag (R420). -/
def State.imagePacket (s : State) (stream : Nat) (last : Bool) (bs : List (BitVec 64)) : State :=
  if !s.registrarRuns then s else
  let off := bits (bs.getD 0 0).toNat 31 0
  let total := bits (bs.getD 0 0).toNat 63 32
  let payload := ((bs.drop 1).map fun b => leBytes 8 b.toNat).flatten
  let s := match s.sec.assembling.find? fun i => i.stream == stream with
    | some i => if i.total = total then s else s.abandonImage stream 7
    | none => s
  match s.sec.assembling.find? fun i => i.stream == stream with
  | some i => s.imageBytes i off payload last
  | none =>
    match if s.sec.assembling.length < 4 then (List.range 4).find? fun k => !s.stageUsed k else none with
    | none => s.bump (Reg.secCnt 2)
    | some k =>
      if 16 * 2 ^ 20 + 2948 < total then s.abandonImage stream 1
      else s.imageBytes ⟨stream, k, total, [], false⟩ off payload last

/-- A declared loss on an image's stream that no repair will fill, or whose repair has expired (R420). -/
def State.imageLoss (s : State) (stream : Nat) : State :=
  if s.registrarRuns && s.sec.assembling.any (fun i => i.stream == stream) then s.abandonImage stream 7 else s

end Sys2Proof.Machine
end

