-- ==== Sys2Proof/Machine/Assembly.lean ====
section
/-!
DEFINITION. The Assembly link, receiving side (04): packets, the stream filter and the context table, sequence, loss and
repair, tags, messages, Detention, the Bell and the wall clock, port states.
-/
namespace Sys2Proof.Machine

/-! ## Ports -/

def State.port (s : State) (p : Nat) : Port := if p = 0 then s.asm.portA else s.asm.portB

def State.setPort (s : State) (p : Nat) (v : Port) : State :=
  { s with asm := if p = 0 then { s.asm with portA := v } else { s.asm with portB := v } }

/-- Counter j of Table ASM-9 in port p. -/
def State.asmCount (s : State) (p j : Nat) : State := s.bump (Reg.asmCnt p j)

/-- The primary port (R102): the one with BELL_PRIMARY = 1, or A if both or neither have it. -/
def State.primary (s : State) : Nat := if s.flag (Reg.asmCtrl 1) 5 && !s.flag (Reg.asmCtrl 0) 5 then 1 else 0

/-- The Bell-source port (R102). -/
def State.bellSource (s : State) : Nat := if s.asm.switched then 1 - s.primary else s.primary

/-- One unit interval of the link in clock units, over 425: 1 UI is 256,000,000 / 425 (R73; 37.647 ps). -/
def uiUnits (n : Nat) : Nat := n * 256000000 / 425

/-- First lane of a port, and its upstream lane. -/
def portLane (p : Nat) : Nat := 50 + 4 * p
def upLane (p : Nat) : Nat := 48 + p

/-- A port enters a state and asks its lanes for the states of Table ASM-8. -/
def State.portState (s : State) (p : Nat) (st : PortSt) : State :=
  let s := s.setPort p { s.port p with st := st }
  let down : LaneSt := if st = .off then .dormant else .active
  let up : LaneSt := if st = .ranging || st = .joined then .active else .dormant
  let s := (List.range 4).foldl (fun s i => s.laneLink (portLane p + i) down) s
  s.laneLink (upLane p) up

/-- Enter RANGING if JOIN_EN = 1, SYNC otherwise (R108). -/
def State.rangeOrSync (s : State) (p : Nat) : State :=
  if s.flag (Reg.asmCtrl p) 1 then
    (s.setPort p { s.port p with rangeTry := 0, rangeSkip := 0, rangeBells := none, rangeAns := none }).portState p .ranging
  else s.portState p .sync

/-- PANEL_ID and EQD are cleared (R108, R109). -/
def State.clearPanel (s : State) (p : Nat) : State :=
  (s.setPort p { s.port p with panel := none, leaving := false, lostAt := none }).setReg (Reg.asmEqd p) 0

/-! ## Packets (R82 to R84) -/

def pktStream (h : BitVec 64) : Nat := bits h.toNat 27 8
def pktType (h : BitVec 64) : Nat := bits h.toNat 31 28
def pktSeq (h : BitVec 64) : Nat := bits h.toNat 47 32
def pktLen (h : BitVec 64) : Nat := bits h.toNat 59 48
def pktAuth (h : BitVec 64) : Bool := h.getLsbD 60
def pktLast (h : BitVec 64) : Bool := h.getLsbD 61
def pktRetx (h : BitVec 64) : Bool := h.getLsbD 62
def pktKey (h : BitVec 64) : Nat := bits h.toNat 63 63

/-- Bytes 1 to 7 of the head and the bytes of data blocks (R83, R92). -/
def pktBytes (h : BitVec 64) (bs : List (BitVec 64)) : List Byte := (leBytes 8 h.toNat).drop 1 ++ blkBytes bs

def pktCrc (h : BitVec 64) (bs : List (BitVec 64)) : Nat := crc32 (pktBytes h bs)

/-- Data blocks without the tag (Table ASM-1). -/
def Packet.body (k : Packet) : List (BitVec 64) := if pktAuth k.head then k.data.take (k.data.length - 2) else k.data

def setOpen (p : Port) (ln : Nat) (k : Option Packet) : Port := { p with rxOpen := p.rxOpen.set ln k }

/-- When a block reached the pins (R61, R100, R104): the clock readings of its first header bit and of the last symbol of its
codeword, and the cycle of the latter. -/
structure Arrival where
  first : Int
  last : Int
  at_ : Nat

/-- One block reaches port lane ln (R82, R84). A block marked invalid stands as a data block here: it counts toward LEN inside
a packet, which it spoils, and is stray outside one (DESIGN CHOICE, log entry 91). -/
def State.asmBlock (s : State) (p ln : Nat) (b : Block) (t : Arrival) : State :=
  let po := s.port p
  let cur := (po.rxOpen.getD ln none)
  if b.ctl && b.type == 0x78 then
    let s := if cur.isSome then s.asmCount p 3 else s
    s.setPort p (setOpen (s.port p) ln (some { lane := ln, head := b.data, bad := b.bad, arrive := t.first, last := t.last, lastAt := t.at_ }))
  else match cur with
  | none => if b.ctl && (b.type == 0x1E || b.type == 0x55) then s else s.asmCount p 14
  | some k =>
    if b.ctl && (b.type == 0x1E || b.type == 0x55) then s.setPort p (setOpen po ln (some { k with bad := k.bad || b.bad }))
    else if b.ctl && b.type == 0x4B then
      let s := s.setPort p (setOpen po ln none)
      if k.data.length < pktLen k.head then s.asmCount p 3
      else s.setPort p { s.port p with
        complete := (s.port p).complete ++ [{ k with tail := b.data, bad := k.bad || b.bad, last := t.last, lastAt := t.at_ }] }
    else if b.ctl then (s.setPort p (setOpen po ln none)).asmCount p 3
    else if pktLen k.head ≤ k.data.length then (s.setPort p (setOpen po ln none)).asmCount p 3
    else s.setPort p (setOpen po ln (some { k with data := k.data ++ [b.data], bad := k.bad || b.bad }))

/-- n line bits of a downstream lane in clock units: 106.25 Gbit/s (Table LNE-1). -/
def downUnits (n : Nat) : Nat := n * 64000000 / 425

/-- Arrival of a block delivered now, 42 cc after the last symbol of its codeword, or, of the first of two codewords delivered
together, one codeword time earlier (R61, R64). -/
def State.arrival (s : State) (d : Delivered) : Arrival :=
  let edge : Int := (s.asm.wall : Int) - 420000000
  let cw := (d.1 - 1) / 5440
  ⟨edge - (downUnits d.1 : Nat), edge - (downUnits (5440 * cw) : Nat), s.now - 42 - cw * 2048 / 25⟩

/-- Blocks delivered by lane ln of a port (R61, R100). -/
def State.asmReceive (s : State) (p ln : Nat) (bs : List Delivered) : State :=
  bs.foldl (fun s d => s.asmBlock p ln d.2 (s.arrival d)) s

/-- Take the first packet of a lane from a list. -/
def takeLane (ln : Nat) : List Packet → Option (Packet × List Packet)
  | [] => none
  | k :: ks => if k.lane = ln then some (k, ks) else (takeLane ln ks).map fun r => (r.1, k :: r.2)

/-- PACKET (R82, R84): the checks of a complete packet; a good one is queued for its lookup. -/
def execPacket (port : Fin 2) (lane : Fin 4) (s : State) : Out :=
  let p := port.val
  if !s.live p then .next s else
  match takeLane lane.val (s.port p).complete with
  | none => .next s
  | some (k, rest) =>
    let s := s.setPort p { s.port p with complete := rest }
    let ty := pktType k.head
    if pktLen k.head < 4 || ty == 0 || 8 ≤ ty || ((ty == 6 || ty == 7) && !pktAuth k.head) then .next (s.asmCount p 3)
    else if k.bad then .next (s.asmCount p 5)
    else if bits k.tail.toNat 39 8 ≠ pktCrc k.head k.data then .next (s.asmCount p 4)
    else .next (s.setPort p { s.port p with lookup := (s.port p).lookup ++ [k] })

/-! ## The context table (R85, R86, Table ASM-3) -/

/-- The entry of a stream; what no write has reached reads 0 (DESIGN CHOICE, log entry 7). -/
def State.ctxEntry (s : State) (e : Nat) : Nat := (SMap.get (fun _ => 0) s.asm.ctx e).toNat

def State.setCtx (s : State) (e v : Nat) : State :=
  { s.noteSram 0 e (e + 1) with asm := { s.asm with ctx := SMap.put (fun _ => 0) s.asm.ctx e (BitVec.ofNat 64 v) } }

/-- An entry as a lookup of this cycle sees it: writes of the cycle do not count (R86). -/
def State.ctxSeen (s : State) (e : Nat) : Nat :=
  (SMap.get (fun e => BitVec.ofNat 64 (s.ctxEntry e)) s.cyc.ctx e).toNat

/-- An update of sequence state: a write to the entry in the same cycle is applied after it and stands (R86). -/
def State.seqCtx (s : State) (e v : Nat) : State :=
  if s.cyc.ctx.any fun p => p.1 == e then
    { s with cyc := { s.cyc with ctx := SMap.ins s.cyc.ctx e (BitVec.ofNat 64 v) } }
  else s.setCtx e v

/-- A write by the host or WRITE_CTX reaches an entry (R86). -/
def State.noteCtx (s : State) (e : Nat) : State :=
  { s with cyc := { s.cyc with ctx := SMap.ins s.cyc.ctx e (BitVec.ofNat 64 (s.ctxSeen e)) } }

/-- A write of the high word: the low word becomes 0 (R85). Bits 55:52 are reserved. Entries of reserved streams ignore
writes. -/
def State.ctxWriteHigh (s : State) (e v : Nat) : State :=
  if 0xFFF00 ≤ e then s else (s.noteCtx e).setCtx e ((v &&& 0xFF0FFFFF) * 2 ^ 32)

def State.ctxWriteLow (s : State) (e v : Nat) : State :=
  if 0xFFF00 ≤ e then s else (s.noteCtx e).setCtx e (setBits (s.ctxEntry e) 31 0 v)

/-- A register write into the CTX block at offset o. -/
def State.ctxWrite (s : State) (o v : Nat) : State :=
  if o / 4 % 2 = 0 then s.ctxWriteLow (o / 8) v else s.ctxWriteHigh (o / 8) v

def State.ctxRead (s : State) (o : Nat) : Nat :=
  if 0xFFF00 ≤ o / 8 then 0 else bits (s.ctxEntry (o / 8)) (if o / 4 % 2 = 0 then 31 else 63) (if o / 4 % 2 = 0 then 0 else 32)

/-! ## Detention (R98, R99) -/

/-- A Detention entry of this kind and key holds. -/
def State.detained (s : State) (kind key : Nat) : Bool :=
  (List.range 64).any fun n => s.flag (Reg.asmDetKey n) 31 && s.fld (Reg.asmDetKey n) 30 30 == kind
    && s.fld (Reg.asmDetKey n) 19 0 == key

/-- A register has been written over the bus in this cycle. -/
def State.busWritten (s : State) (off : Nat) : Bool := s.cyc.before.any fun p => p.1 == off

/-- The entry a hardware placement takes, of the list as the cycle found it: the sender's own, else a free one, else the one
with the smallest REMAIN. -/
def State.detSlot (s : State) (key : Nat) : Nat × Bool :=
  let f (n hi lo : Nat) : Nat := s.fldBefore (Reg.asmDetKey n) hi lo
  match (List.range 64).find? fun n => f n 31 31 == 1 && f n 30 30 == 0 && f n 19 0 == key with
  | some n => (n, false)
  | none =>
    match (List.range 64).find? fun n => f n 31 31 == 0 with
    | some n => (n, false)
    | none =>
      ((List.range 64).foldl (fun m n =>
        if s.fldBefore (Reg.asmDetRemain n) 15 0 < s.fldBefore (Reg.asmDetRemain m) 15 0 then n else m) 0, true)

/-- Hardware places a sender on the Detention list (R98, R99); a host write to the entry in the same cycle stands. -/
def State.detain (s : State) (sender : Nat) : State :=
  let n := s.detSlot sender
  let s :=
    if s.busWritten (Reg.asmDetKey n.1) || s.busWritten (Reg.asmDetRemain n.1) then s
    else (s.setReg (Reg.asmDetKey n.1) (word (2 ^ 31 + sender))).setReg (Reg.asmDetRemain n.1)
      (word (max 1 (s.fld Reg.asmDetTime 15 0)))
  let s := s.event 68
  if n.2 then s.event 69 else s

/-- A host write of ASM_DET_KEY: an entry it leaves in use is a placement (R99). -/
def State.detKeyWrite (s : State) (n : Nat) (v : Word) : State :=
  let s := s.store (Reg.asmDetKey n) v
  if v.getLsbD 31 then s.event 68 else s

/-- SENDER_ID of a message. -/
def msgSender (k : Packet) : Nat := blkBits k.data 0 31 16

/-- A tag check has failed (R98): CONTROL and BELL senders that claim no server ID are detained. -/
def State.authFail (s : State) (p : Nat) (k : Packet) : State :=
  let s := s.asmCount p 10
  let id := msgSender k
  let server := (List.range 2).any fun q =>
    s.fld (Reg.asmServerId q) 15 0 == id || s.fld (Reg.asmServerId q) 31 16 == id
  if (pktType k.head == 6 || pktType k.head == 7) && !server then s.detain id else s

/-- DETENTION_EXPIRY (R99): a valid entry whose REMAIN has reached 0 is removed. -/
def execDetentionExpiry (entry : Fin 64) (s : State) : Out :=
  let n := entry.val
  if s.live 0 && s.flag (Reg.asmDetKey n) 31 && s.fld (Reg.asmDetRemain n) 15 0 == 0 then
    .next (s.clrFlag (Reg.asmDetKey n) 31)
  else .next s

/-! ## Loss and repair (R89, R90, R105) -/

/-- LOSS_HOLD in cc (ASM_TIMING of port A; 0 acts as 1). -/
def State.lossHold (s : State) : Nat := 800 * max 1 (s.fld (Reg.asmTiming 0) 7 0)

/-- The stream's owner learns of a loss that no repair will fill (R89, 05 R118, 20 R420). -/
def State.lossToOwner (s : State) (stream seq : Nat) : State :=
  match bits (s.ctxEntry stream) 59 56 with
  | 1 => s.sliceLoss stream seq
  | 4 => s.imageLoss stream
  | _ => s

/-- The deadline the decoders supply for a lost part (05 R124): of the slice the part belongs to where one gathers, else of
the stream's slice in F_syn or F_syn + 1, which the spec leaves open (DESIGN CHOICE, log entry 33). -/
def State.lossDeadline (s : State) (stream seq : Nat) : Option Nat :=
  let dest := bits (s.ctxEntry stream) 51 32
  let f := match s.gathering.find? fun sl => sl.stream == stream && seqAfter sl.seq0 seq ≤ 15 with
    | some sl => sl.frame
    | none => (s.fSyn.getD 0 + bnat (Config.freeBit s.draws 0)) % 65536
  s.repairDeadline (bits dest 19 16) (bits dest 15 0) f

/-- A loss enters the repair list if R90 allows; else its owner learns of it. A refused entry counts in the port that revealed
the gap (DESIGN CHOICE, log entry 98). -/
def State.lossRepair (s : State) (e : LossEntry) : State :=
  let c := s.ctxEntry e.stream
  let ty := bits c 59 56
  if c.testBit 61 && s.flag (Reg.asmCtrl s.bellSource) 3 && (ty == 3 || ty == 4 || ty == 5 || (ty == 1 && !s.latency)) then
    if 64 ≤ s.asm.repair.length then (s.asmCount e.port 19).lossToOwner e.stream e.seq
    else
      let dl := if ty == 1 then s.lossDeadline e.stream e.seq else none
      match dl with
      | some t =>
        if t ≤ s.wallNs then ((s.drawn).asmCount e.port 19).lossToOwner e.stream e.seq
        else { s.drawn with asm := { s.asm with repair := s.asm.repair ++ [⟨e.stream, e.seq, dl, none, e.port⟩] } }
      | none => { s.drawn with asm := { s.asm with repair := s.asm.repair ++ [⟨e.stream, e.seq, none, none, e.port⟩] } }
  else s.lossToOwner e.stream e.seq

/-- A pending number is declared lost (R89). -/
def State.declareLoss (s : State) (e : LossEntry) : State :=
  let s := { s with asm := { s.asm with loss := s.asm.loss.filter (· != e) } }
  let c := s.ctxSeen e.stream
  let s := (s.seqCtx e.stream (setBits c 30 24 (min 127 (bits c 30 24 + 1)))).asmCount e.port 8
  let s := if c.testBit 60 then s.event 67 else s
  s.lossRepair e

/-- A skipped number enters the loss-pending list; a full list declares its oldest entry lost at once (R89). -/
def State.pendLoss (s : State) (stream seq p : Nat) : State :=
  let s := match s.asm.loss with
    | o :: rest => if 64 ≤ (o :: rest).length then s.declareLoss o else s
    | [] => s
  { s with asm := { s.asm with loss := s.asm.loss ++ [⟨stream, seq % 65536, p, s.now⟩] } }

/-- LOSS_DECLARED (R89): the oldest number pending for LOSS_HOLD is declared lost. ASMA keeps the device-wide lists: while it is
in reset or gated nothing is declared and nothing expires (DESIGN CHOICE, log entry 97). -/
def execLossDeclared (s : State) : Out :=
  if !s.live 0 then .next s else
  match s.asm.loss.find? fun e => e.at_ + s.lossHold ≤ s.now with
  | some e => .next (s.declareLoss e)
  | none => .next s

/-- REPAIR_EXPIRY (R105): an entry whose deadline has passed, or one without a deadline 10 ms after its request; it counts in
the port that revealed the gap (DESIGN CHOICE, log entries 97 and 98). -/
def execRepairExpiry (s : State) : Out :=
  let due (r : RepairEntry) : Bool :=
    match r.deadline with
    | some t => decide (t ≤ s.wallNs)
    | none => match r.requestedAt with | some t => decide (t + 16000000 ≤ s.now) | none => false
  if !s.live 0 then .next s else
  match s.asm.repair.find? due with
  | some r =>
    let s := { s with asm := { s.asm with repair := s.asm.repair.filter (· != r) } }
    .next ((s.asmCount r.port 19).lossToOwner r.stream r.seq)
  | none => .next s

/-! ## The sequence test (R88, R91) -/

inductive SeqResult where
  | accept | duplicate | stale
  deriving DecidableEq, Repr

/-- (SEQ − NEXT_SEQ) read as signed. -/
def seqDist (seq next : Nat) : Int := sext 16 (seq + 65536 - next % 65536)

/-- The sequence test of a packet without RETX (R88). -/
def State.seqTest (s : State) (p stream seq : Nat) : State × SeqResult :=
  let c := s.ctxSeen stream
  let next := bits c 23 8
  let win := bits c 7 0
  let d := seqDist seq next
  let put (valid loss nx w : Nat) : State :=
    s.seqCtx stream (setBits (setBits (setBits (setBits c 31 31 valid) 30 24 loss) 23 8 nx) 7 0 w)
  let loss := bits c 30 24
  if !c.testBit 31 then (put 1 loss (seq + 1) 1, .accept)
  else if d = 0 then (put 1 loss (seq + 1) (2 * win + 1), .accept)
  else if 1 ≤ d ∧ d ≤ 16 then
    let k := d.toNat
    let s := put 1 loss (seq + 1) (win * 2 ^ (k + 1) + 1)
    ((List.range k).foldl (fun s j => s.pendLoss stream (next + j) p) s, .accept)
  else if 17 ≤ d then ((put 1 (min 127 (loss + d.toNat)) (seq + 1) 1).asmCount p 9, .accept)
  else
    match s.asm.loss.find? fun e => e.stream == stream && e.seq == seq with
    | some e => ({ s with asm := { s.asm with loss := s.asm.loss.filter (· != e) } }, .accept)
    | none =>
      let back := (-d).toNat
      (s, if back ≤ 8 ∧ win.testBit (back - 1) then .duplicate else .stale)

/-- The test of a RETX packet (R91). -/
def State.retxTest (s : State) (stream seq : Nat) : State × SeqResult :=
  match s.asm.repair.find? fun r => r.stream == stream && r.seq == seq with
  | some r => ({ s with asm := { s.asm with repair := s.asm.repair.filter (· != r) } }, .accept)
  | none => (s, .duplicate)

/-- An accepted packet goes to its owner (Table ASM-2). A TABLE packet's owner is not described: it is counted alone. -/
def State.deliver (s : State) (k : Packet) (dest : Nat) : State :=
  let st := pktStream k.head
  match pktType k.head with
  | 1 => s.slicePacket st dest (pktSeq k.head) (pktLast k.head) k.body
  | 2 => if s.live 5 then s.directRayPacket k.body k.lastAt else s
  | 3 => if s.live 5 then s.manifestPacket k.body else s
  | 4 => s.imagePacket st (pktLast k.head) k.body
  | _ => s

/-- Sequence test and delivery (R87 to R91). -/
def State.sequenced (s : State) (p : Nat) (k : Packet) : State :=
  let st := pktStream k.head
  let dest := bits (s.ctxSeen st) 51 32
  let r := if pktRetx k.head then s.retxTest st (pktSeq k.head) else s.seqTest p st (pktSeq k.head)
  match r.2 with
  | .accept => (r.1.asmCount p 0).deliver k dest
  | .duplicate => r.1.asmCount p 6
  | .stale => r.1.asmCount p 7

/-! ## The stream filter (R87, R96, R441) -/

/-- Bytes a packet takes in the tag unit's buffer: head and data (R93; DESIGN CHOICE, log entry 99). -/
def Packet.bytes (k : Packet) : Nat := 8 * k.data.length + 8

/-- A packet joins the tag unit's queue: a BELL goes ahead of every packet but the one in progress and earlier BELLs; a full
buffer discards it (R93). The front of the queue is the packet in absorption, and a packet leaves the buffer at its TAG_CHECK
(DESIGN CHOICE, log entry 99). -/
def State.tagQueue (s : State) (p : Nat) (k : Packet) : State :=
  let q := (s.port p).tag
  if 65536 < (q.map Packet.bytes).sum + k.bytes then s.asmCount p 11
  else
    let q := if pktType k.head == 7 then
        q.take 1 ++ (q.drop 1).filter (fun x => pktType x.head == 7) ++ [k] ++
          (q.drop 1).filter (fun x => pktType x.head != 7)
      else q ++ [k]
    s.setPort p { s.port p with tag := q }

/-- A packet on a reserved stream (Table ASM-4, R96). -/
def State.reservedStream (s : State) (p : Nat) (k : Packet) : State :=
  let id := pktStream k.head
  let ty := pktType k.head
  if id = 0xFFFFF ∧ ty = 7 then
    if k.lane = 0 then s.tagQueue p k else s
  else if id = 0xFFFFE ∧ ty = 6 then s.tagQueue p k
  else if 0xFFFE0 ≤ id ∧ id < 0xFFFF0 ∧ ty = 6 then
    if (s.port p).panel = some (id - 0xFFFE0) then s.tagQueue p k else s
  else if id = 0xFFFDF ∧ ty = 6 then
    if (k.data.getD 1 0).toNat = s.serial then s.tagQueue p k else s
  else s.asmCount p 1

/-- A tag is required of a packet on an ordinary stream (Table ASM-2). -/
def tagRequired (ty entry : Nat) : Bool := (ty == 3 || ty == 4 || ty == 5) && entry.testBit 62

/-- FILTER_LOOKUP (R87): Detention, reserved streams, context, sequence. -/
def execFilterLookup (port : Fin 2) (lane : Fin 4) (s : State) : Out :=
  let p := port.val
  if !s.live p then .next s else
  match takeLane lane.val (s.port p).lookup with
  | none => .next s
  | some (k, rest) =>
    let s := s.setPort p { s.port p with lookup := rest }
    let st := pktStream k.head
    let ty := pktType k.head
    if s.detained 1 st || ((ty == 6 || ty == 7) && s.detained 0 (msgSender k)) then .next (s.asmCount p 13)
    else if 0xFFF00 ≤ st then .next (s.reservedStream p k)
    else if ty == 6 || ty == 7 then .next (s.asmCount p 3)
    else
      let e := s.ctxSeen st
      if !e.testBit 63 then .next (s.asmCount p 1)
      else if bits e 59 56 ≠ ty then .next (s.asmCount p 2)
      else if tagRequired ty e then
        if pktAuth k.head then .next (s.tagQueue p k) else .next (s.asmCount p 3)
      else .next (s.sequenced p k)

/-! ## Tags (R92) -/

/-- "GIFIOST ASSEMBLY". -/
def asmCustom : List Byte := [0x47, 0x49, 0x46, 0x49, 0x4F, 0x53, 0x54, 0x20, 0x41, 0x53, 0x53, 0x45, 0x4D, 0x42, 0x4C, 0x59]

/-- The tag of a packet with head h and data blocks `bs` before the tag. -/
def asmTag (key : List Byte) (h : BitVec 64) (bs : List (BitVec 64)) : List Byte := kmac256 key (pktBytes h bs) 16 asmCustom

/-- The two tag blocks in order: the second carries T's first 8 bytes. -/
def tagBlocks (t : List Byte) : List (BitVec 64) :=
  [BitVec.ofNat 64 (leAt t 8 8), BitVec.ofNat 64 (leAt t 0 8)]

def State.tagOk (s : State) (k : Packet) : Bool :=
  match s.asmKey (pktKey k.head) with
  | none => false
  | some key => tagBlocks (asmTag key k.head k.body) == k.data.drop (k.data.length - 2)

/-! ## Messages (Table ASM-6, R94) -/

/-- The replay test of a CONTROL message (R94): the state with its counter accepted, or none for a replay. -/
def State.replay (s : State) (c : Nat) : Option State :=
  match s.asm.replayTop with
  | none => some { s with asm := { s.asm with replayTop := some c, replayBits := 1 } }
  | some t =>
    let d := (c + 2 ^ 32 - t) % 2 ^ 32
    if 1 ≤ d ∧ d ≤ 2147483647 then
      some { s with asm := { s.asm with replayTop := some c
                                        replayBits := (s.asm.replayBits <<< min d 64) ||| 1 } }
    else
      let back := (2 ^ 32 - d) % 2 ^ 32
      if back < 64 ∧ s.asm.replayBits.getLsbD back = false then
        some { s with asm := { s.asm with replayBits := s.asm.replayBits ||| BitVec.ofNat 64 (2 ^ back) } }
      else none

/-- WRITE_CTX (R86, Table ASM-6): high words of entries, as master 15 under the context table's Proctor. -/
def State.writeCtxMessage (s : State) (bs : List (BitVec 64)) : State :=
  bs.foldl (fun s b =>
    let e := bits b.toNat 19 0
    if 0xFFF00 ≤ e || !s.live 2 then s
    else if s.permits 4 15 (8 * e + 4) 4 true then s.ctxWriteHigh e (bits b.toNat 63 32)
    else s.violation 4 15 (8 * e + 4) true) s

/-- A downstream HOST message (R97): into the oldest posted buffer, cut to what it holds (DESIGN CHOICE, log entry 34). -/
def State.hostMessage (s : State) (p : Nat) (bs : List (BitVec 64)) : State :=
  match (s.port p).dnq with
  | [] => s.asmCount p 20
  | x :: rest =>
    let s := s.setPort p { s.port p with dnq := rest }
    (s.returnFilled 15 x 0 ((blkBytes bs).take (s.bufLen x - 64))).asmCount p 0

/-- RANGE_RESULT (R108): it joins a port in RANGING, and gives a JOINED port its values anew. -/
def State.rangeResult (s : State) (p : Nat) (bs : List (BitVec 64)) : State :=
  let st := (s.port p).st
  if (bs.getD 0 0).toNat = s.serial ∧ (st = .ranging ∨ st = .joined) then
    let s := (s.setReg (Reg.asmEqd p) (word (blkBits bs 1 31 8))).setReg (Reg.asmBellOffset p) (word (blkBits bs 2 31 0))
    (s.setPort p { s.port p with panel := some (blkBits bs 1 3 0), rangeBells := none, rangeAns := none }).portState p .joined
  else s

/-- DEREGISTER (R108), addressed to the panel ID or the serial. -/
def State.deregister (s : State) (p : Nat) (stream : Nat) : State :=
  let st := (s.port p).st
  if stream ≠ 0xFFFFE ∧ (st = .sync ∨ st = .ranging ∨ st = .joined) then (s.clearPanel p).rangeOrSync p else s

/-- A CONTROL message whose tag has passed (R94, Table ASM-6). -/
def State.controlMessage (s : State) (p : Nat) (k : Packet) : State :=
  match s.replay (blkBits k.data 0 63 32) with
  | none => s.asmCount p 12
  | some s =>
    let ty := blkBits k.data 0 7 0
    let st := pktStream k.head
    let own := k.body.drop 1
    let past := if st = 0xFFFDF then own.drop 1 else own
    if ty = 0x02 then (s.asmCount p 0).rangeResult p own
    else if ty = 0x03 then (s.asmCount p 0).deregister p st
    else if ty = 0x10 then (s.asmCount p 0).writeCtxMessage past
    else if 0x80 ≤ ty then s.hostMessage p k.body
    else s.asmCount p 3

/-! ## The Bell (R94, R100 to R102, R106, R108) -/

/-- Uniform draw below n (R106, R108; DESIGN CHOICE, log entry 4). -/
def State.uniform (s : State) (i n : Nat) : Nat := (Config.freeWord s.draws i).toNat % n

/-- The clock steps by e units: every instant held on it moves along (R100), but what it read when a packet arrived. -/
def State.wallStep (s : State) (e : Int) : State :=
  let step (ks : List Packet) : List Packet := ks.map fun k => { k with shift := k.shift + e }
  let move (q : Port) : Port := { q with
    rxOpen := q.rxOpen.map fun o => o.map fun k => { k with shift := k.shift + e }
    complete := step q.complete
    lookup := step q.lookup
    tag := step q.tag
    bellArrive := q.bellArrive + e
    bellEnd := q.bellEnd + e
    rangeAns := q.rangeAns.map fun r => (r.1 + e, r.2)
    burst := q.burst.map fun b => { b with start := b.start + e, release := b.release + e } }
  ({ s with asm := { s.asm with
      wall := ((s.asm.wall : Int) + e).toNat
      slew := 0
      portA := move s.asm.portA
      portB := move s.asm.portB } }).event 70

/-- Discipline of the clock by a Bell of the source port with error e (R100): a step above 1 µs, else a slew of at most
200 ppm whose value the loop fixes (DESIGN CHOICE, log entry 5). -/
def State.discipline (s : State) (e : Int) : State :=
  if 16000000000 < e.natAbs then s.wallStep e
  else
    let s := { s with asm := { s.asm with slew := (s.uniform 0 401 : Int) - 200 } }
    s.drawn

/-- TIME_LOCK of a port after a Bell with error e (R100). -/
def Port.lockStep (q : Port) (e : Int) : Port :=
  let streak := if e.natAbs ≤ 320000000 then q.lockStreak + 1 else 0
  { q with
    lockStreak := streak
    timeLock := if 3200000000 < e.natAbs then false else if 8 ≤ streak then true else q.timeLock }

/-- Contention feedback of a Bell (R106). -/
def State.echoes (s : State) (p : Nat) (cycle : Nat) (echo : List Nat) : State :=
  let q := s.port p
  match q.attempt with
  | none => s
  | some (nonce, c, sent) =>
    if cycle = c then s
    else if cycle = (c + 1) % 65536 ∧ echo.contains (s.serial % 2 ^ 48 + nonce * 2 ^ 48) then
      let s := s.setPort p { q with attempt := none, retry := 0, contSkip := 0 }
      { s with asm := { s.asm with alarms := s.asm.alarms &&& ~~~ sent } }
    else
      let s := s.asmCount p 17
      if 8 ≤ q.retry then
        (s.setPort p { s.port p with attempt := none, retry := 0, contSkip := 0, contStop := true }).event 72
      else
        let k := q.retry + 1
        (s.setPort p { s.port p with attempt := none, retry := k, contSkip := s.uniform 0 (2 ^ k) }).drawn

/-- One more Bell without the awaited RANGE_RESULT (R108). -/
def State.rangeBell (s : State) (p : Nat) : State :=
  let q := s.port p
  match q.rangeBells with
  | none => s
  | some n =>
    if n + 1 < 4 then s.setPort p { q with rangeBells := some (n + 1) }
    else
      let k := q.rangeTry + 1
      (s.setPort p { q with rangeBells := none, rangeTry := k, rangeSkip := s.uniform 0 (2 ^ min k 8) }).drawn

/-- The primary port's Bells after a switch (R102): the source returns at the eighth within 500 µs of each other. -/
def State.sourceReturn (s : State) (p : Nat) (before : Option Nat) : State :=
  if s.asm.switched && p == s.primary then
    let near := match before with | some t => decide (s.now ≤ t + 800000) | none => false
    let n := if s.asm.returnCount = 0 || near then s.asm.returnCount + 1 else 1
    if 8 ≤ n then { s with asm := { s.asm with switched := false, returnCount := 0 } }
    else { s with asm := { s.asm with returnCount := n } }
  else s

/-- The state a port takes with an accepted Bell (Table ASM-8, R109). -/
def State.bellState (s : State) (p : Nat) : State :=
  let q := s.port p
  let join := s.flag (Reg.asmCtrl p) 1
  match q.st with
  | .joined => s.setPort p { q with lostAt := none }
  | .ranging => if join then s else s.portState p .sync
  | .listen => s.rangeOrSync p
  | .sync => if join && q.panel.isNone then s.rangeOrSync p else s
  | .off => s

/-- A BELL whose tag has passed (Table ASM-7). One without its first four blocks is malformed; grants and echoes that no
block carries do not exist (DEDUCED, log entry 35). -/
def State.bellMessage (s : State) (p : Nat) (k : Packet) : State :=
  let bs := k.body
  let q := s.port p
  let wallTime := blkBits bs 1 63 0
  if blkBits bs 0 7 0 ≠ 1 ∨ bs.length < 4 then s.asmCount p 3
  else if (match q.bellTime with | some t => decide (wallTime ≤ t) | none => false) then s.asmCount p 12
  else
    let s := s.asmCount p 0
    let nf := blkBits bs 2 63 0
    let ng := blkBits bs 3 39 32
    let ne := blkBits bs 3 47 40
    let cycle := blkBits bs 3 63 48
    let target : Int := (wallTime : Int) * 16000000 + sext 32 (s.reg (Reg.asmBellOffset p)).toNat * 1000000
    let e := target - k.arrive
    let grants := ((bs.drop 4).take ng).map fun b => (⟨bits b.toNat 7 0, bits b.toNat 15 8, bits b.toNat 39 16, false⟩ : Grant)
    let echo := (((bs.drop (4 + ng)).take ne).map BitVec.toNat)
    let src := s.bellSource == p
    let q' := { q.lockStep e with
      bellTime := some wallTime, bellAt := some s.now, bellArrive := k.arrive + k.shift, bellEnd := k.last + k.shift,
      cycle := cycle, grants := grants }
    let s := s.setPort p q'
    let s := if src then s.discipline e else s
    let s := ((s.echoes p cycle echo).rangeBell p).bellState p
    let s := if src then
        let s := { s with asm := { s.asm with
          flipPeriod := blkBits bs 3 31 0
          nextFlip := if s.wallNs < nf then some nf else s.asm.nextFlip } }
        s.seqBell wallTime
      else s
    s.sourceReturn p q.bellAt

/-- TAG_CHECK (R92, R93): the tag unit of a port finishes its next packet. -/
def execTagCheck (port : Fin 2) (s : State) : Out :=
  let p := port.val
  if !s.live p then .next s else
  match (s.port p).tag with
  | [] => .next s
  | k :: rest =>
    let s := s.setPort p { s.port p with tag := rest }
    if !s.tagOk k then .next (s.authFail p k)
    else match pktType k.head with
      | 7 => .next (s.bellMessage p k)
      | 6 => .next (s.controlMessage p k)
      | _ => .next (s.sequenced p k)

/-- BELL_TIMEOUT (R100, Table ASM-8): no Bell accepted for 1 ms. -/
def execBellTimeout (port : Fin 2) (s : State) : Out :=
  let p := port.val
  let q := s.port p
  if s.live p && (match q.bellAt with | some t => decide (t + 1600000 ≤ s.now) | none => true) then
    let s := s.setPort p { q with timeLock := false, lockStreak := 0 }
    .next (if q.st = .sync || q.st = .ranging then s.portState p .listen else s)
  else .next s

/-- BELL_SWITCH (R102). -/
def execBellSwitch (s : State) : Out :=
  let src := s.port s.bellSource
  let oth := s.port (1 - s.bellSource)
  let quiet := match src.bellAt with | some t => decide (t + 800000 ≤ s.now) | none => true
  let fresh := match oth.bellAt with | some t => decide (s.now ≤ t + 800000) | none => false
  if quiet && oth.timeLock && fresh && s.live (1 - s.bellSource) then
    .next ({ s with asm := { s.asm with switched := !s.asm.switched, returnCount := 0 } }.event 71)
  else .next s

/-- JOINED_HOLD_EXPIRY (R109). -/
def execJoinedHoldExpiry (port : Fin 2) (s : State) : Out :=
  let p := port.val
  match (s.port p).lostAt with
  | some t =>
    if s.live p && (s.port p).st == .joined && t + 160000000 ≤ s.now then .next ((s.clearPanel p).portState p .listen)
    else .next s
  | none => .next s

/-- Lane 0 of a JOINED port loses CW_LOCK (R109; the first loss of the hold counts), and a burst on its way is cut after the
codeword in progress (R75); in its preamble or delimiter no codeword is in progress, and the burst ends at once
(DESIGN CHOICE, log entry 96). -/
def State.portLockLost (s : State) (p : Nat) : State :=
  let q := s.port p
  let q := if q.st = .joined && q.lostAt.isNone then { q with lostAt := some s.now } else q
  let s := s.setPort p q
  match q.burst with
  | some b =>
    let at_ : Int := s.asm.wall
    -- the codewords begin 3,712 UI after TXEN, each 5,440 UI long
    let first := b.start + ((uiUnits 3712 : Nat) : Int)
    let kept := if at_ < first then 0 else ((at_ - first) / ((uiUnits 5440 : Nat) : Int)).toNat + 1
    if at_ < b.release ∧ kept < b.ncw then
      let done : Int := if kept = 0 then at_ else first + ((uiUnits (5440 * kept) : Nat) : Int)
      -- of the preamble and delimiter, what has left since 1,600 UI after TXEN
      let sent := if kept = 0 then ((at_ - b.start) * 425 / 256000000 - 1600).toNat else 2112 + 5440 * kept
      let ln := s.lane (upLane p)
      ((s.setLane (upLane p) { ln with line := ln.line.take sent }).setPort p { q with burst := some { b with
        ncw := kept, blocks := b.blocks.take (80 * kept), release := done + ((uiUnits 512 : Nat) : Int) } }).asmCount p 16
    else s
  | none => s

end Sys2Proof.Machine
end

