-- ==== Sys2Proof/Machine/Blitter.lean ====
section
/-!
DEFINITION. The blitter and graphic planes (17): operations burst by burst, gates and watermarks, region commits, the
plane registers.
-/
namespace Sys2Proof.Machine

/-- The block of the blitter (Table RST-3). -/
def bltBlock : Nat := blockOf Reg.bltOp

/-! ## Formats (Table BLT-1) -/

def fmtBytes (f : Nat) : Nat := if f = 0 then 4 else if f = 1 then 3 else 2
def fmtDepth (f : Nat) : Nat := if f = 2 then 4 else 8
def fmtBurst (f : Nat) : Nat := if f = 0 then 64 else if f = 1 then 85 else 128
def fmtAlpha (f : Nat) : Bool := f != 1

/-- r(x) of R369. -/
def bltRound (m x : Nat) : Nat := (2 * x + m) / (2 * m)

/-- Component k of a texel. -/
def texComp (fmt t k : Nat) : Nat := t / 2 ^ (fmtDepth fmt * k) % 2 ^ fmtDepth fmt

/-- One destination texel of a BLEND (Table BLT-2). -/
def blendTexel (fmt : Nat) (premul : Bool) (src dst : Nat) : Nat :=
  let m := 2 ^ fmtDepth fmt - 1
  let sa := if fmtAlpha fmt then texComp fmt src 3 else m
  let da := if fmtAlpha fmt then texComp fmt dst 3 else m
  let col (k : Nat) : Nat :=
    if premul then min m (texComp fmt src k + bltRound m (texComp fmt dst k * (m - sa)))
    else bltRound m (texComp fmt src k * sa + texComp fmt dst k * (m - sa))
  let a := min m (sa + bltRound m (da * (m - sa)))
  let put (k v : Nat) : Nat := v * 2 ^ (fmtDepth fmt * k)
  put 0 (col 0) + put 1 (col 1) + put 2 (col 2) + (if fmtAlpha fmt then put 3 a else 0)

/-! ## Bursts (R371, R372) -/

def burstsPerRow (o : BltOp) : Nat := (o.w + fmtBurst o.fmt - 1) / fmtBurst o.fmt

def burstsTotal (o : BltOp) : Nat := burstsPerRow o * o.h

/-- Row, first texel and texels of burst k (R371). -/
def burstAt (o : BltOp) (k : Nat) : Nat × Nat × Nat :=
  let n := fmtBurst o.fmt
  let i := k / burstsPerRow o
  let j := k % burstsPerRow o
  let row := if o.ydir then o.h - 1 - i else i
  if o.xdir then
    let right := o.w - j * n
    (row, right - n, min n right)
  else (row, j * n, min n (o.w - j * n))

/-- The bytes a burst writes, from the source and destination bytes it has read. -/
def burstBytes (o : BltOp) (len : Nat) (src dst : List Byte) : List Byte :=
  let b := fmtBytes o.fmt
  if o.op = 0 then (List.range len).flatMap fun _ => leBytes b o.color
  else if o.op = 1 then src
  else (List.range len).flatMap fun i =>
    leBytes b (blendTexel o.fmt o.premul (leAt src (b * i) b) (leAt dst (b * i) b))

/-- Carry out burst k of an operation: every byte read, then every byte written; false on an error response (R372). -/
def State.runBurst (s : State) (o : BltOp) (k : Nat) : State × Bool :=
  let p := burstAt o k
  let b := fmtBytes o.fmt
  let len := p.2.2
  let sa := o.src + p.1 * o.srcPitch + p.2.1 * b
  let da := o.dst + p.1 * o.dstPitch + p.2.1 * b
  let r1 := if o.op = 0 then (s, [], true) else s.devRead 17 sa (len * b)
  let r2 := if o.op = 2 then r1.1.devRead 17 da (len * b) else (r1.1, [], true)
  if r1.2.2 && r2.2.2 then
    let w := r2.1.devWrite 17 da (burstBytes o len r1.2.1 r2.2.1)
    if w.2 then ({ w.1 with blt := { w.1.blt with lastBurst := some w.1.now } }.bump (Reg.bltCnt 1), true)
    else (w.1, false)
  else (r2.1, false)

/-- The memory answers the accesses of burst k now (14 R317). -/
def State.burstReady (s : State) (o : BltOp) (k : Nat) : Bool :=
  let p := burstAt o k
  let b := fmtBytes o.fmt
  s.memReady 17 (o.dst + p.1 * o.dstPitch + p.2.1 * b) (p.2.2 * b)
    && (o.op = 0 || s.memReady 17 (o.src + p.1 * o.srcPitch + p.2.1 * b) (p.2.2 * b))

/-! ## Operations -/

/-- The staged operation (R370). -/
def State.bltStaged (s : State) : BltOp :=
  let f := s.fld Reg.bltOp
  { op := f 1 0, fmt := f 3 2, premul := s.flag Reg.bltOp 6, xdir := s.flag Reg.bltOp 4, ydir := s.flag Reg.bltOp 5,
    tag := f 23 8, src := (s.reg Reg.bltSrcLo).toNat + s.fld Reg.bltSrcHi 4 0 * 2 ^ 32,
    dst := (s.reg Reg.bltDstLo).toNat + s.fld Reg.bltDstHi 4 0 * 2 ^ 32, srcPitch := s.fld Reg.bltPitch 31 16,
    dstPitch := s.fld Reg.bltPitch 15 0, w := s.fld Reg.bltSize 11 0, h := s.fld Reg.bltSize 27 16,
    color := (s.reg Reg.bltColor).toNat, gateRow := s.fld Reg.bltRows 24 16, wmRow := s.fld Reg.bltRows 8 0,
    goAt := s.now, gateOpen := 432 ≤ s.fld Reg.bltRows 24 16 }

/-- The refusals of R370. -/
def BltOp.bad (o : BltOp) : Bool :=
  o.op == 3 || o.fmt == 3 || o.w == 0 || o.h == 0 || o.dstPitch < o.w * fmtBytes o.fmt
    || (o.op != 0 && o.srcPitch < o.w * fmtBytes o.fmt)

/-- The end of an operation (R375, R376, Table BLT-3). -/
def State.bltOpEnd (s : State) (o : BltOp) (status : Nat) : State :=
  let job := if s.blt.job = some 4 then none else s.blt.job
  let marks := if status = 0 ∧ o.wmRow ≤ 431 then s.blt.marks ++ [(o.wmRow, s.now)] else s.blt.marks
  let s := { s with blt := { s.blt with op := none, job := job, marks := marks } }
  ((s.mboxResult 2 [word (status * 2 ^ 24 + o.op * 2 ^ 16 + o.tag), word o.bursts, word s.seq.frame]).event 43).bump
    (Reg.bltCnt 0)

/-- The mailbox holds a result not yet acknowledged: no operation starts (R375). -/
def State.bltWaits (s : State) : Bool := s.flag (Reg.hstMbox0w 2) 31 || s.mboxStalled 2

/-- A copied operation starts: it is refused, or waits for its gate (R370). -/
def State.bltStart (s : State) (o : BltOp) : State :=
  -- a refused operation too waits for the ACK of the result before it (R343, R375)
  if o.bad && !s.bltWaits then s.bltOpEnd o 8 else { s with blt := { s.blt with op := some o } }

/-- ABORT (R377): the operation in progress ends, unless its GO fell in this cycle; a GO of this cycle that was ignored starts
after it. -/
def State.bltAbort (s : State) : State :=
  match s.blt.op with
  | some o =>
    if o.goAt = s.now then s else
    let t := s.bltOpEnd o 7
    match s.cyc.bltGo with
    | some g => { t with cyc := { t.cyc with bltGo := none } }.bltStart g
    | none => t
  | none => s

/-- A write of BLT_OP (R370, R377): ABORT first, then GO. -/
def State.bltOpWrite (s : State) (v : Word) : State :=
  let s := s.store Reg.bltOp v
  let s := if v.getLsbD 30 then s.bltAbort else s
  if !v.getLsbD 31 then s
  else if s.blt.op.isNone then s.bltStart s.bltStaged
  else { s with cyc := { s.cyc with bltGo := some (s.cyc.bltGo.getD s.bltStaged) } }

/-- BLT_OP_GO (R370). -/
def execBltOpGo (b : BusWrite) (s : State) : Out := .next (s.busWrite Reg.bltOp b State.bltOpWrite)

/-- BLT_ABORT (R377). -/
def execBltAbort (b : BusWrite) (s : State) : Out := .next (s.busWrite Reg.bltOp b State.bltOpWrite)

/-! ## Region commits (R378 to R381) -/

def State.bltCommit (s : State) (p : Nat) : Option BltCommit := (s.blt.running.find? fun q => q.1 == p).map (·.2)

def State.bltQueued (s : State) (p : Nat) : Option BltRect := (s.blt.queued.find? fun q => q.1 == p).map (·.2)

/-- The end of a commit (R378, R379): a queued one becomes running. -/
def State.bltCommitEnd (s : State) (p : Nat) (err : Bool) : State :=
  let running := match s.bltQueued p with
    | some r => SMap.ins s.blt.running p ⟨r, s.now, none⟩
    | none => SMap.del s.blt.running p
  let queued := SMap.del s.blt.queued p
  let syncs := s.blt.syncs.filter (· != p)
  let job := if s.blt.job = some p then none else s.blt.job
  let s := { s with blt := { s.blt with running := running, queued := queued, syncs := syncs, job := job } }
  let s := if err then s.setFlag Reg.bltCommitStatus (8 + p) else s
  (s.event 43).bump (Reg.bltCnt 2)

/-- A write of BLT_COMMIT (R379). -/
def State.bltCommitWrite (s : State) (v : Word) : State :=
  let s := s.store Reg.bltCommit v
  if !v.getLsbD 31 then s else
  let p := bits v.toNat 1 0
  let r : BltRect := ⟨s.fld Reg.bltCommitX 11 0, s.fld Reg.bltCommitY 10 0, s.fld Reg.bltCommitX 27 16,
    s.fld Reg.bltCommitY 26 16⟩
  if r.x1 < r.x0 || 3071 < r.x1 || r.y1 < r.y0 || 1727 < r.y1 then s.setFlag Reg.bltCommitStatus (4 + p)
  else if (s.bltCommit p).isNone then
    { s with blt := { s.blt with running := SMap.ins s.blt.running p ⟨r, s.now, none⟩ } }
  else
    let had := (s.bltQueued p).isSome
    let s := { s with blt := { s.blt with queued := SMap.ins s.blt.queued p r } }
    if had then ((s.setFlag Reg.bltCommitStatus p).bump (Reg.bltCnt 3)).event 45 else s

/-- BLT_COMMIT_GO (R379). -/
def execBltCommitGo (b : BusWrite) (s : State) : Out := .next (s.busWrite Reg.bltCommit b State.bltCommitWrite)

/-- The copy of a commit's rectangle from the new front to the new back surface (R378). -/
def syncOp (c : PlaneCfg) (sel : Bool) (r : BltRect) : BltOp :=
  let b := fmtBytes c.fmt
  let front := if sel then c.baseB else c.baseA
  let back := if sel then c.baseA else c.baseB
  let off := (3072 * r.y0 + r.x0) * b
  { op := 1, fmt := c.fmt, premul := true, xdir := false, ydir := false, tag := 0, src := front + off, dst := back + off,
    srcPitch := 3072 * b, dstPitch := 3072 * b, w := r.x1 - r.x0 + 1, h := r.y1 - r.y0 + 1, color := 0,
    gateRow := 0x1FF, wmRow := 0x1FF, gateOpen := true }

/-- One plane at the start of slot 447 (R378, step 1). -/
def State.bltFlip (s : State) (p : Nat) : State :=
  match s.bltCommit p with
  | some c =>
    if c.sync.isNone && c.since < s.now then
      let sel := s.blt.sel ^^^ BitVec.ofNat 4 (2 ^ p)
      let o := syncOp (s.blt.planes.getD p {}) (sel.getLsbD p) c.rect
      let running := SMap.ins s.blt.running p { c with sync := some o }
      { s with blt := { s.blt with sel := sel, running := running, syncs := s.blt.syncs ++ [p] } }
    else s
  | none => s

/-- Group 1 and SEL at the start of slot 447 (R368, R378). -/
def State.bltSlot447 (s : State) : State :=
  let s := match s.blt.copied with
    | some ps => { s with blt := { s.blt with planes := ps, copied := none } }
    | none => s
  if s.live bltBlock then (List.range 4).foldl State.bltFlip s else s

/-- A burst of the synchronisation of plane p (R378); FMT 3 has no texels and ends it (DEDUCED, log entry 21). -/
def State.syncBurst (s : State) (p : Nat) : State :=
  match s.bltCommit p with
  | some c =>
    match c.sync with
    | some o =>
      if o.fmt = 3 then s.bltCommitEnd p false else
      let r := s.runBurst o o.bursts
      if !r.2 then r.1.bltCommitEnd p true
      else if burstsTotal o ≤ o.bursts + 1 then r.1.bltCommitEnd p false
      else
        let running := SMap.ins r.1.blt.running p { c with sync := some { o with bursts := o.bursts + 1 } }
        { r.1 with blt := { r.1.blt with running := running } }
    | none => s
  | none => s

/-- A burst of the register operation (R372, R375). -/
def State.opBurst (s : State) (o : BltOp) : State :=
  let s := { s with blt := { s.blt with job := some 4 } }
  let r := s.runBurst o o.bursts
  if !r.2 then r.1.bltOpEnd o 6
  else
    let o := { o with bursts := o.bursts + 1 }
    if burstsTotal o ≤ o.bursts then r.1.bltOpEnd o 0 else { r.1 with blt := { r.1.blt with op := some o } }

/-- BLIT_BURST (R372, R373, R381): the running job's next burst, or a register operation's first at a job boundary with no
synchronisation ready, its gate open and its mailbox acknowledged. -/
def execBlitBurst (s : State) : Out :=
  let paced := match s.blt.lastBurst with
    | some t => t + 2 * s.fld Reg.bltPace 9 0 ≤ s.now
    | none => true
  if s.live bltBlock && paced then
    match s.blt.job, s.blt.op with
    | some 4, some o => if s.burstReady o o.bursts then .next (s.opBurst o) else .next s
    | some p, _ =>
      match (s.bltCommit p).bind (·.sync) with
      | some o => if s.burstReady o o.bursts then .next (s.syncBurst p) else .next s
      | none => .next s
    | none, some o =>
      if s.bltWaits then .next s
      else if o.bad then .next (s.bltOpEnd o 8)
      else if s.blt.syncs.isEmpty && o.gateOpen && s.burstReady o o.bursts then .next (s.opBurst o)
      else .next s
    | none, none => .next s
  else .next s

/-- SYNCHRONISATION (R381): at a job boundary the first ready synchronisation becomes the job. -/
def execSynchronisation (s : State) : Out :=
  match s.blt.job, s.blt.syncs with
  | none, p :: _ => if s.live bltBlock then .next { s with blt := { s.blt with job := some p } } else .next s
  | _, _ => .next s

/-! ## Row starts (R374, R376) -/

/-- A row synthesis of row r of the frame with counter f starts. -/
def State.bltRowStart (s : State) (r f : Nat) : State :=
  let op := s.blt.op.map fun o => if o.gateRow = r ∧ o.goAt < s.now then { o with gateOpen := true } else o
  let due := s.blt.marks.filter fun m => m.1 == r && m.2 < s.now
  let marks := s.blt.marks.filter fun m => !(m.1 == r && m.2 < s.now)
  let s := { s with blt := { s.blt with op := op, marks := marks } }
  if due.isEmpty then s else (s.setReg Reg.bltWmFrame (word f)).event 44

/-! ## Planes (R368) -/

/-- The shadows of plane p as they stood when the cycle began (R33). -/
def State.planeShadow (s : State) (p : Nat) : PlaneCfg :=
  { en := (s.regBefore (Reg.bltPlaneCtrl p)).getLsbD 31, z := s.fldBefore (Reg.bltPlaneCtrl p) 15 8,
    sheddable := (s.regBefore (Reg.bltPlaneCtrl p)).getLsbD 4, premul := (s.regBefore (Reg.bltPlaneCtrl p)).getLsbD 3,
    fmt := s.fldBefore (Reg.bltPlaneCtrl p) 1 0, disparity := sext 16 (s.fldBefore (Reg.bltPlaneMix p) 31 16),
    alpha := s.fldBefore (Reg.bltPlaneMix p) 15 0, baseA := 256 * s.fldBefore (Reg.bltPlaneBaseA p) 28 0,
    baseB := 256 * s.fldBefore (Reg.bltPlaneBaseB p) 28 0 }

/-- Group 1 of a commit. -/
def State.commitPlanes (s : State) : State :=
  if s.armedBefore 1 s.blt.armed then
    let ps := (List.range 4).map s.planeShadow
    { s with blt := { s.blt with armed := s.armedNow 1, copied := some ps } }
  else s

def State.bltArmWrite (s : State) (v : Word) : State :=
  if v.getLsbD 31 then { s.noteArm 1 s.blt.armed with blt := { s.blt with armed := true } } else s

/-- BLT_PLANE_ARM (R368). -/
def execBltPlaneArm (b : BusWrite) (s : State) : Out := .next (s.busWrite Reg.bltPlaneArm b State.bltArmWrite)

/-- BLT_CNT_CLR (R80). -/
def State.bltCntClr (s : State) (v : Word) : State :=
  if v.getLsbD 0 then s.clrRegs (Reg.bltCnt 0) 4 else s

/-- BLT_CNT_CLR (R80). -/
def execBltCntClr (b : BusWrite) (s : State) : Out :=
  .next (s.busWrite Reg.bltCntClr b State.bltCntClr)

end Sys2Proof.Machine
end

