-- ==== Sys2Proof/Machine/Camera.lean ====
section
/-!
DEFINITION. The witness cameras (10): CSI-2 packets, frames and lines, pixel corrections, spots, capture, and the rows of
the camera registers. The header code and the payload CRC are those of CSI-2, which the spec names and does not repeat
(PRESUMED, log entry 41).
-/
namespace Sys2Proof.Machine

def pipeDefault : Nat → CamPipe := fun k => { bound := some k }

def State.pipe (s : State) (k : Nat) : CamPipe := SMap.get pipeDefault s.cam.pipes k

def State.setPipe (s : State) (k : Nat) (v : CamPipe) : State :=
  { s with cam := { s.cam with pipes := SMap.put pipeDefault s.cam.pipes k v } }

/-! ## The link (R229) -/

/-- Header bits that each ECC bit covers. -/
def csiMasks : List Nat := [0xF12CB7, 0xF2555B, 0x749A6D, 0xB8E38E, 0xDF03F0, 0xEFFC00]

def csiEcc (h : Nat) : Nat :=
  (List.range 6).foldl (fun e i =>
    e + (((List.range 24).filter fun b => h.testBit b && (csiMasks.getD i 0).testBit b).length % 2) * 2 ^ i) 0

/-- The 24 header bits after correction and whether a bit was corrected, or none. -/
def csiHeader (h : Nat) : Option (Nat × Bool) :=
  let d := h % 2 ^ 24
  let syn := csiEcc d ^^^ (h / 2 ^ 24 % 64)
  if syn = 0 then some (d, false)
  else match (List.range 24).find? fun b => csiEcc (2 ^ b) == syn with
    | some b => some (d ^^^ 2 ^ b, true)
    | none => if (List.range 6).any fun i => syn == 2 ^ i then some (d, true) else none

def crc16Byte (c : Nat) (b : Byte) : Nat :=
  (List.range 8).foldl (fun c _ => if c % 2 = 1 then (c / 2) ^^^ 0x8408 else c / 2) (c ^^^ b.toNat)

def crc16 (bs : List Byte) : Nat := bs.foldl crc16Byte 0xFFFF

/-! ## Pixels (R234, R236 to R238) -/

/-- Pixels of groups of 4 in 5 bytes (RAW10). -/
def raw10 : List Byte → List Nat
  | a :: b :: c :: d :: e :: rest =>
    let px (x : Byte) (i : Nat) : Nat := 4 * x.toNat + bits e.toNat (2 * i + 1) (2 * i)
    px a 0 :: px b 1 :: px c 2 :: px d 3 :: raw10 rest
  | _ => []

/-- Pixels of groups of 2 in 3 bytes (RAW12). -/
def raw12 : List Byte → List Nat
  | a :: b :: c :: rest => (16 * a.toNat + c.toNat % 16) :: (16 * b.toNat + c.toNat / 16) :: raw12 rest
  | _ => []

/-- The pixels of a line; low bits that a cut group does not carry are free (DEDUCED, log entry 42). -/
def State.linePixels (s : State) (is12 : Bool) (bs : List Byte) : List Nat :=
  let n := if is12 then 2 * bs.length / 3 else 4 * bs.length / 5
  let pad := bs ++ (List.range 4).map fun i => BitVec.ofNat 8 (Config.freeWord s.draws i).toNat
  (if is12 then raw12 pad else raw10 pad).take n

def listedAt (ds : List (Nat × Nat)) (x y : Nat) : Bool := ds.any fun d => d.1 == x && d.2 == y

/-- z of a line with its listed pixels replaced (R236, R237). -/
def correctLine (f : CamFrame) (y : Nat) (raw : List Nat) : List Nat :=
  let z := raw.map fun v => (if f.raw12 then v else 4 * v) - f.black
  (List.range z.length).map fun x =>
    if !listedAt f.defects x y then z.getD x 0
    else
      let l := decide (0 < x) && !listedAt f.defects (x - 1) y
      let r := decide (x + 1 < f.width) && !listedAt f.defects (x + 1) y
      if l && r then (z.getD (x - 1) 0 + z.getD (x + 1) 0 + 1) / 2
      else if l then z.getD (x - 1) 0
      else if r then z.getD (x + 1) 0
      else if y = 0 then 0 else f.zPrev.getD x 0

/-- Gain G(a, b) of a shading table. -/
def shadeGain (m : SMap Word) (a b : Nat) : Nat :=
  let i := 65 * b + a
  bits (SMap.get (fun _ => 0) m (i / 2)).toNat (16 * (i % 2) + 15) (16 * (i % 2))

/-- out of pixel (x, y) from z (R238). -/
def shadePixel (f : CamFrame) (x y z : Nat) : Nat :=
  let w := 2 ^ f.cell
  let a := x / w
  let b := y / w
  let fx := x % w
  let fy := y % w
  let g := ((w - fx) * (w - fy) * shadeGain f.shade a b + fx * (w - fy) * shadeGain f.shade (a + 1) b
    + (w - fx) * fy * shadeGain f.shade a (b + 1) + fx * fy * shadeGain f.shade (a + 1) (b + 1) + w * w / 2) / (w * w)
  min 4095 ((z * g + 8192) / 16384)

/-! ## Spots (R239) -/

/-- out of a pixel of the frame's lines; a pixel that did not arrive has none. -/
def CamFrame.at_ (f : CamFrame) (x y : Nat) : Option Nat := (f.rows[y]?).bind fun r => r[x]?

/-- The two result words of an entry whose window is centred on (xc, yc); X and Y without mass are free (DEDUCED, log entry 42). -/
def CamFrame.spot (f : CamFrame) (xc yc freeX freeY : Nat) : Word × Word :=
  let h := f.half
  let n := 2 * h + 1
  let inside (i j : Nat) : Bool :=
    h ≤ xc + i && xc + i - h < f.width && h ≤ yc + j && yc + j - h < f.height
  let cells := ((List.range n).map fun j => (List.range n).map fun i => (i, j)).flatten
  let px (c : Nat × Nat) : Nat :=
    if inside c.1 c.2 then (f.at_ (xc + c.1 - h) (yc + c.2 - h)).getD 0 else 0
  let w (c : Nat × Nat) : Nat := px c - f.thresh
  let mass := (cells.map w).sum
  let sx := (cells.map fun c => w c * (64 * (xc + c.1 - h) + 32)).sum
  let sy := (cells.map fun c => w c * (64 * (yc + c.2 - h) + 32)).sum
  let clipped := cells.any fun c => !inside c.1 c.2
  let border := cells.any fun c => (c.1 == 0 || c.2 == 0 || c.1 == n - 1 || c.2 == n - 1) && decide (0 < w c)
  let sat := cells.any fun c => px c == 4095
  let found := !clipped && !border && decide (f.minMass ≤ mass ∧ 0 < mass)
  let x := if mass = 0 then freeX else (sx + mass / 2) / mass
  let y := if mass = 0 then freeY else (sy + mass / 2) / mass
  (word (bnat found * 2 ^ 31 + bnat sat * 2 ^ 30 + bnat border * 2 ^ 29 + bnat clipped * 2 ^ 28 + x % 65536),
   word (y % 65536))

/-! ## Frames (R230 to R235, R241) -/

/-- CAM_LAST_STATUS of a frame that ends now. -/
def CamFrame.status (f : CamFrame) (captured : Bool) : Nat :=
  bnat (f.lines < f.height) * 2 ^ 31 + bnat f.long * 2 ^ 30 + bnat f.overflow * 2 ^ 29 + bnat f.truncated * 2 ^ 28
    + bnat captured * 2 ^ 27 + min f.lines f.height

/-- Bytes 64 to 127 of a capture buffer (R241). -/
def CamFrame.header (f : CamFrame) (count status : Nat) : List Byte :=
  leBytes 2 f.num ++ leBytes 2 0 ++ leBytes 4 count ++ leBytes 4 status ++ leBytes 2 f.width ++ leBytes 2 f.height
    ++ List.replicate 48 0

/-- The open frame ends without completing (R235): a capture buffer goes back with CAPTURED clear. -/
def State.camAbort (s : State) (k : Nat) : State :=
  match (s.pipe k).frame with
  | none => s
  | some f =>
    let s := (s.setPipe k { s.pipe k with frame := none }).bump (Reg.camCnt k 2)
    match f.cap with
    | some x =>
      (s.winWrite 18 (x + 64) (f.header (s.reg (Reg.camCnt k 0)).toNat (f.status false))).returnBuffer 18 x 4
    | none => s

/-- The open frame completes (R232, R234, R241). -/
def State.camComplete (s : State) (k : Nat) : State :=
  match (s.pipe k).frame with
  | none => s
  | some f =>
    let s := (s.setPipe k { s.pipe k with frame := none }).bump (Reg.camCnt k 0)
    let st := f.status f.cap.isSome
    let s := if 2 ^ 28 ≤ st - bnat f.cap.isSome * 2 ^ 27 then (s.bump (Reg.camCnt k 1)).event 133 else s
    let free (i : Nat) : Nat := (Config.freeWord s.draws i).toNat
    let pub : CamPub := { num := f.num, status := word st, spots := f.fids.map fun e =>
      let c := (e.2.getD 2 0).toNat
      let w := f.spot (c % 65536 / 64) (c / 65536 / 64) (free (2 * e.1)) (free (2 * e.1 + 1))
      ⟨e.1, e.2, w.1, w.2⟩ }
    let s := (s.setPipe k { s.pipe k with done := (s.pipe k).done ++ [pub], fifo := 0 }).drawn
    match f.cap with
    | some x =>
      let n := 64 + 2 * f.width * f.height
      let s := s.winWrite 18 (x + 64) (f.header (s.reg (Reg.camCnt k 0)).toNat st)
      let s := s.winWrite 18 (x + 8) (leBytes 4 n)
      let s := s.winWrite 18 (x + 12) (leBytes 4 (crc32 (s.bytesAt (winAddr x + 64) n)))
      (s.returnBuffer 18 x 0).event 135
    | none => s

/-- Entries of a defect list up to the first that does not rise in raster order (R237), and whether one did not. -/
def defectPrefix : Option (Nat × Nat) → List (Nat × Nat) → List (Nat × Nat) × Bool
  | _, [] => ([], false)
  | last, d :: ds =>
    let above := match last with | some l => decide (l.2 < d.2 ∨ (l.2 = d.2 ∧ l.1 < d.1)) | none => true
    if above then let r := defectPrefix (some d) ds; (d :: r.1, r.2) else ([], true)

/-- A Frame Start on pipeline k (R232, R233, R241): everything it samples counts as it stood when the cycle began. -/
def State.camFrameStart (s : State) (k num : Nat) : State :=
  let s := s.camComplete k
  if !(s.flag (Reg.camCtrl k) 0 && (s.regBefore (Reg.camCtrl k)).getLsbD 0) then s else
  let ctrl := (s.regBefore (Reg.camCtrl k)).toNat
  let bank := bits ctrl 3 3
  let listed := (List.range (min 512 (s.fldBefore (Reg.camDefCount k bank) 9 0))).map fun i =>
    (s.fldBefore (Reg.camDefList k bank i) 9 0, s.fldBefore (Reg.camDefList k bank i) 25 16)
  let ds := defectPrefix none listed
  let shade := SMap.listed (fun _ => 0) 0 ((List.range 2113).map fun i => s.regBefore (Reg.camShade k bank i))
  let fids := (List.range 128).filterMap fun f =>
    if s.fldBefore (Reg.plcFid0 f) 31 31 == 1 && s.fldBefore (Reg.plcFid0 f) 29 28 == k then
      some (f, [s.regBefore (Reg.plcFid0 f), s.regBefore (Reg.plcFid1 f), s.regBefore (Reg.plcFid2 f),
        s.regBefore (Reg.plcFid3 f)]) else none
  let width := max 64 (min 1024 (s.fldBefore (Reg.camSize k) 10 0 / 4 * 4))
  let height := max 16 (min 1024 (s.fldBefore (Reg.camSize k) 26 16))
  let f : CamFrame := {
    num := num, raw12 := ctrl.testBit 2, cell := 4 + min 2 (bits ctrl 9 8), width := width,
    height := height, black := s.fldBefore (Reg.camLevel k) 27 16, thresh := s.fldBefore (Reg.camLevel k) 11 0,
    half := max 1 (s.fldBefore (Reg.camSpotCfg k) 3 0), minMass := s.fldBefore (Reg.camSpotCfg k) 31 8, defects := ds.1,
    shade := shade, fids := fids }
  let s := if ds.2 then s.setFlag (Reg.camStatus k) 30 else s
  let skip (s : State) : State := (s.bump (Reg.camCnt k 3)).event 136
  if ctrl.testBit 1 then
    match (s.pipe k).queue with
    | [] => skip (s.setPipe k { s.pipe k with frame := some f })
    | x :: rest =>
      let short := s.bufLen x < 128 + 2 * width * height
      let s := s.setPipe k { s.pipe k with queue := rest, frame := some { f with cap := if short then none else some x } }
      if short then (skip s).returnBuffer 18 x 3 else s
  else s.setPipe k { s.pipe k with frame := some f }

/-- One accepted line (R234, R236 to R238, R241): `drained` bytes of the capture FIFO have gone to memory since the last one. The
first pixel that finds 32 KiB in the FIFO ends spot sums and capture of the frame; length faults count on. -/
def State.camLine (s : State) (k : Nat) (bs : List Byte) (drained : Nat) : State :=
  match (s.pipe k).frame with
  | none => s.bump (Reg.camRxCnt 5)
  | some f =>
    if f.height ≤ f.lines then s.setPipe k { s.pipe k with frame := some { f with long := true } }
    else
      let raw := s.linePixels f.raw12 bs
      let s := s.drawn
      let bad := f.truncated || raw.length != f.width
      if f.overflow then s.setPipe k { s.pipe k with frame := some { f with lines := f.lines + 1, truncated := bad } }
      else
        let z := correctLine f f.lines (raw.take f.width)
        let out := (List.zip (List.range z.length) z).map fun p => shadePixel f p.1 f.lines p.2
        let out := out ++ List.replicate (f.width - out.length) 0
        let held := (s.pipe k).fifo - drained
        let room := if f.cap.isSome then (32768 - held) / 2 else f.width
        let kept := out.take room
        let s := s.setPipe k { s.pipe k with
          fifo := if f.cap.isSome then held + 2 * kept.length else 0
          frame := some { f with rows := f.rows ++ [kept], zPrev := z, lines := f.lines + 1, truncated := bad
                                 overflow := decide (room < f.width) } }
        match f.cap with
        | some x => s.winWrite 18 (x + 128 + 2 * f.width * f.lines) (kept.map (leBytes 2)).flatten
        | none => s

/-- The pipeline bound to a virtual channel. -/
def State.pipeOf (s : State) (vc : Nat) : Option Nat := (List.range 4).find? fun k => (s.pipe k).bound == some vc

/-- CSI2_PACKET (R229 to R234): a packet whose header word is `header`, its payload and received CRC for a long packet, and
the state of the lanes. -/
def execCsi2Packet (header : BitVec 32) (payload : List Byte) (crc : BitVec 16) (at_ : CsiArrival) (lanes : BitVec 5) (s : State) : Out :=
  if !s.live 21 || !s.live 20 || !s.flag Reg.camRxCtrl 0 then .next s else
  let dead := s.cam.dead && !at_.first
  let s := { s with cam := { s.cam with rx := lanes, dead := dead } }
  if dead then .next s else
  match csiHeader header.toNat with
  | none => .next (({ s with cam := { s.cam with dead := true } }.bump (Reg.camRxCnt 1)).event 134)
  | some (h, fixed) =>
    let s := if fixed then s.bump (Reg.camRxCnt 0) else s
    let dt := h % 64
    let wc := h / 256
    let pipe := s.pipeOf (h / 64 % 4)
    if 0x10 ≤ dt ∧ (payload.length ≠ wc ∨ crc16 payload ≠ crc.toNat) then .next ((s.bump (Reg.camRxCnt 2)).event 134)
    else if dt = 0x02 ∨ dt = 0x03 ∨ (0x08 ≤ dt ∧ dt ≤ 0x0F) ∨ dt = 0x12 then .next s
    else match pipe with
    | none =>
      if dt = 0 then .next (s.bump (Reg.camRxCnt 4))
      else if dt = 1 ∨ dt = 0x2B ∨ dt = 0x2C then .next s
      else .next (s.bump (Reg.camRxCnt 3))
    | some k =>
      if dt = 0 then .next (s.camFrameStart k wc)
      else if dt = 1 then
        if (s.pipe k).frame.isSome then .next (s.camComplete k) else .next (s.bump (Reg.camRxCnt 5))
      else
        let is12 := match (s.pipe k).frame with | some f => f.raw12 | none => s.flag (Reg.camCtrl k) 2
        if dt = (if is12 then 0x2C else 0x2B) then .next (s.camLine k payload at_.drained)
        else .next (s.bump (Reg.camRxCnt 3))

/-- SPOT_PUBLISH (R240, R220): results and status of the oldest completed frame, and the fits that are due. -/
def execSpotPublish (pipe : Fin 4) (s : State) : Out :=
  let k := pipe.val
  if !s.live 20 then .next s else
  match (s.pipe k).done with
  | [] => .next s
  | d :: rest =>
    let s := s.setPipe k { s.pipe k with done := rest }
    let s := (s.setReg (Reg.camLastStatus k) d.status).setReg (Reg.camLastNum k) (word d.num)
    let s := d.spots.foldl (fun s e => (s.setReg (Reg.camSpot0 e.entry) e.spot0).setReg (Reg.camSpot1 e.entry) e.spot1) s
    let ok := d.status.toNat / 2 ^ 28 == 0
    if s.live 19 && s.flag Reg.plcCtrl 1 then
      let due := (List.range 16).filterMap fun n =>
        let own := d.spots.filter fun e => e.entry / 8 == n
        if own.isEmpty then none else some (PlcFit.mk n ok own)
      .next { s with plc := { s.plc with fits := s.plc.fits ++ due } }
    else .next s

/-! ## Registers -/

/-- A write of CAM_BIND (R230): BIND is judged on the bindings as they stand, then UNBIND releases. -/
def State.camBindWrite (s : State) (k : Nat) (v : Word) : State :=
  let s := s.store (Reg.camBind k) v
  let vc := s.fld (Reg.camBind k) 5 4
  let s := if v.getLsbD 31 then
      if (s.pipe k).bound.isSome || (s.pipeOf vc).isSome then s.setFlag (Reg.camStatus k) 31
      else s.setPipe k { s.pipe k with bound := some vc }
    else s
  if v.getLsbD 30 then
    let s := s.camAbort k
    s.setPipe k { s.pipe k with bound := none }
  else s

/-- CAM_BIND (R230). -/
def execCamBind (pipe : Fin 4) (b : BusWrite) (s : State) : Out :=
  .next (s.busWrite (Reg.camBind pipe.val) b fun s v => s.camBindWrite pipe.val v)

/-- CAM_UNBIND (R230, R235). -/
def execCamUnbind (pipe : Fin 4) (b : BusWrite) (s : State) : Out :=
  .next (s.busWrite (Reg.camBind pipe.val) b fun s v => s.camBindWrite pipe.val v)

/-- CAM_EN_WRITE (R235): a write of CAM_CTRL; EN = 0 ends an open frame. -/
def State.camEnWrite (s : State) (k : Nat) (v : Word) : State :=
  let s := s.store (Reg.camCtrl k) v
  if v.getLsbD 0 then s else s.camAbort k

/-- CAM_EN_WRITE (R235). -/
def execCamEnWrite (pipe : Fin 4) (b : BusWrite) (s : State) : Out :=
  .next (s.busWrite (Reg.camCtrl pipe.val) b fun s v => s.camEnWrite pipe.val v)

/-- CAM_RX_EN_WRITE (R235): EN = 0 holds the lanes in LP state and ends open frames. -/
def State.camRxEnWrite (s : State) (v : Word) : State :=
  let s := s.store Reg.camRxCtrl v
  if v.getLsbD 0 then s else (List.range 4).foldl State.camAbort s

/-- CAM_RX_EN_WRITE (R235). -/
def execCamRxEnWrite (b : BusWrite) (s : State) : Out :=
  .next (s.busWrite Reg.camRxCtrl b State.camRxEnWrite)

/-- CAM_CAP_POST (R241, R337): a queue of 4; a post to a full queue is ignored. -/
def State.camCapWrite (s : State) (k : Nat) (v : Word) : State :=
  if 4 ≤ (s.pipe k).queue.length + s.posting (.camCap k) then s
  else s.post (.camCap k) (v.toNat &&& 0x3FFFFFC0)

/-- CAM_CAP_POST (R241, R337). -/
def execCamCapPost (pipe : Fin 4) (b : BusWrite) (s : State) : Out :=
  .next (s.busWrite (Reg.camCapPost pipe.val) b fun s v => s.camCapWrite pipe.val v)

/-- A read of a spot's word 0 latches its word 1 (R240, R346). -/
def State.spotRead (s : State) (m f : Nat) : State × Word :=
  (s.latchWord m (Reg.camSpot1 f) (s.reg (Reg.camSpot1 f)), s.reg (Reg.camSpot0 f))

/-- SPOT_RESULT_READ (R240). -/
def execSpotResultRead (entry : Fin 128) (b : BusRead) (s : State) : Out :=
  .next (s.busRead (Reg.camSpot0 entry.val) b fun s => s.spotRead b.master.val entry.val)

/-- CAM_CNT_CLR (R80, Table CAM-2). -/
def State.camCntClr (s : State) (k : Nat) (v : Word) : State :=
  if v.getLsbD 0 then s.clrRegs (Reg.camCnt k 0) 4 else s

/-- CAM_CNT_CLR (R80, Table CAM-2). -/
def execCamCntClr (pipe : Fin 4) (b : BusWrite) (s : State) : Out :=
  .next (s.busWrite (Reg.camCntClr pipe.val) b fun s v => s.camCntClr pipe.val v)

/-- CAM_RX_CNT_CLR (R80, Table CAM-2). -/
def State.camRxCntClr (s : State) (v : Word) : State :=
  if v.getLsbD 0 then s.clrRegs (Reg.camRxCnt 0) 6 else s

/-- CAM_RX_CNT_CLR (R80, Table CAM-2). -/
def execCamRxCntClr (b : BusWrite) (s : State) : Out :=
  .next (s.busWrite Reg.camRxCntClr b State.camRxCntClr)

end Sys2Proof.Machine
end

