-- ==== Sys2Proof/Machine/Emission.lean ====
section
/-!
DEFINITION. Rows as they leave (06 R143, R144; 11 R255, R256; 12 R261 to R263; 13 R283): the completeness check with the
finishing of its lenslet, and what a slot start and a flip do to the row in progress.
-/
namespace Sys2Proof.Machine

/-- COMPLETENESS_CHECK (R143, R255): the cursor of a tile reaches lenslet u of the current row: the check, then the lenslet's
codes, which leave on the tile's lanes if the tile is lit. In precision mode the cursor waits while the tile's lanes cannot
accept codes (02 R38, R44; R256). -/
def execCompletenessCheck (tile : Fin 16) (u : Fin 768) (s : State) : Out :=
  let n := tile.val
  let u := u.val
  let v := s.seq.slot
  if s.live 22 && s.activeSlot && !s.panelBlank && s.lensletsBegun n == u && 300 * u ≤ 16 * s.slotCc
      && (s.latency || s.lanesAccept n) then
    let s := s.lensletCheck n u v
    let s := { s with syn := { s.syn with cursorU := SMap.put (fun _ => 0) s.syn.cursorU n (u + 1)
                                          cursorAt := SMap.put (fun _ => 0) s.syn.cursorAt n s.now } }
    let r := s.readResiduals n v (300 * u)
    let s := r.1
    let ray (q : Nat) : Nat := (s.ringAt n (v % 3) (300 * u + q)).toNat
    let f := s.finishLenslet n u v ray fun q => (r.2.getD q none).getD 0
    let s := (s.bump (Reg.finCnt 4) f.2).rptTake n u v f.1 r.2
    let s := s.rowCodes n f.1
    .next (if u = 767 then s.rptRowDone n v else s)
  else .next s

/-- The row of slot k - 1 stops where it is unfinished when slot k begins (R256, R263, R283). -/
def State.rowStop (s : State) (k n : Nat) : State :=
  if s.lensletsBegun n < 768 then
    (((s.bump (Reg.finCnt 3)).event 162).cutRow n).rptSkip n (k - 1)
  else s

/-- Slot k begins, for finishing and the tile link (R255, R256, R261). -/
def State.emitSlot (s : State) (k : Nat) : State :=
  let lit := s.live 22 && !s.panelBlank
  let s := if lit && 1 ≤ k && k ≤ 432 then s.eachTile fun s n => s.rowStop k n else s
  let s := { s with syn := { s.syn with cursorU := [] } }
  let s := if k < 432 && !lit then s.eachTile fun s n => s.rptSkip n k else s
  if lit && s.live 23 && k < 432 then s.eachTile fun s n => s.rowHeads k n else s

/-- A flip ends the frame during an active slot: the row of each lit tile is cut (R201, R263). -/
def State.emitShort (s : State) : State :=
  let s := s.eachTile State.cutRow
  { s with syn := { s.syn with cursorU := [] } }

end Sys2Proof.Machine
end

