-- ==== Sys2Proof/Machine/Placement.lean ====
section
/-!
DEFINITION. Ray placement (09): chart updates, the model and its steps, fits from the cameras, staleness, the chart window.
-/
namespace Sys2Proof.Machine

def State.plcTile (s : State) (n : Nat) : PlcTile := SMap.get (fun _ => {}) s.plc.tiles n

def State.setPlcTile (s : State) (n : Nat) (v : PlcTile) : State :=
  { s with plc := { s.plc with tiles := SMap.put (fun _ => {}) s.plc.tiles n v } }

/-- A register as a two's complement word. -/
def State.regInt (s : State) (off : Nat) : Int := (s.reg off).toInt

/-! ## The model (R217, R218) -/

/-- rnd(num / den) for positive den. -/
def rndHalfUp (num : Int) (den : Nat) : Int := (2 * num + den) / ((2 * den : Nat) : Int)

/-- Displacement of node (i, j) in units of 1 / (64 × 10^7) µm (R217). -/
def nodeShift (tx ty rot sc : Int) (i j : Nat) : Int × Int :=
  let x : Int := 96 * i - 4602
  let y : Int := 96 * j - 2586
  (tx * 10 ^ 7 + 64 * (sc * x - rot * y), ty * 10 ^ 7 + 64 * (sc * y + rot * x))

/-- One rebuilt node word and whether a field saturated (R218); f is the focal distance in µm. -/
def rebuildNode (base : BitVec 64) (d : Int × Int) (f : Nat) : BitVec 64 × Bool :=
  let den := 64 * 10 ^ 7
  let field (lo : Nat) (t : Int) : Int := sext 16 (base.toNat >>> lo) + t
  let du := field 0 (rndHalfUp (d.1 * 4096) (den * 1200))
  let dv := field 16 (rndHalfUp (d.2 * 4096) (den * 1200))
  let ds := field 32 (rndHalfUp (d.1 * 16384) (den * f))
  let dt := field 48 (rndHalfUp (d.2 * 16384) (den * f))
  let sat (v : Int) : Int := clampInt (-32768) 32767 v
  let w := toBits 16 (sat du) + toBits 16 (sat dv) * 2 ^ 16 + toBits 16 (sat ds) * 2 ^ 32 + toBits 16 (sat dt) * 2 ^ 48
  (BitVec.ofNat 64 w, sat du != du || sat dv != dv || sat ds != ds || sat dt != dt)

/-- Tile confidence (R224). -/
def State.tileConf (s : State) (n : Nat) : Nat :=
  if s.flag Reg.plcCtrl 1 && s.flag (Reg.plcFitStatus n) 31 then 128 else 255

/-- A tile's staging copy is written: base combined with the applied model as it stands now (R213, R218). -/
def State.writeStaging (s : State) (n : Nat) : State :=
  let tx := s.regInt (Reg.plcApp n 0)
  let ty := s.regInt (Reg.plcApp n 1)
  let rot := s.regInt (Reg.plcApp n 2)
  let sc := s.regInt (Reg.plcApp n 3)
  let f := max 1 (s.fld Reg.plcOptics 15 0)
  let conf := s.tileConf n
  let nodes := (List.range 5335).map fun m =>
    rebuildNode (SMap.get (fun _ => 0) s.plc.base (5335 * n + m)) (nodeShift tx ty rot sc (m % 97) (m / 97)) f
  let confs := (List.range 5335).map fun m =>
    BitVec.ofNat 8 (min (SMap.get (fun _ => (0 : Byte)) s.plc.baseConf (5335 * n + m)).toNat conf)
  let s := { s.noteSram 1 (85360 + 5335 * n) (85360 + 5335 * n + 5335) with plc := { s.plc with
    staging := SMap.store (fun _ => 0) s.plc.staging (5335 * n) (nodes.map Prod.fst)
    stagingConf := SMap.store (fun _ => 0) s.plc.stagingConf (5335 * n) confs } }
  s.setPlcTile n { s.plcTile n with sat := (nodes.filter Prod.snd).length, since := s.now }

/-- A tile's update is ready to write staging: rebuilds run one tile at a time, in order (R215). -/
def State.readyToWrite (s : State) (n : Nat) : State :=
  let first := s.plc.writing.isEmpty
  let s := { s with plc := { s.plc with writing := s.plc.writing ++ [n] } }
  if first then s.writeStaging n else s

/-- A tile leaves the rebuild datapath, to the next one that waits. -/
def State.writeNext (s : State) (n : Nat) : State :=
  let held := s.plc.writing.head? == some n
  let s := { s with plc := { s.plc with writing := s.plc.writing.filter (· != n) } }
  match s.plc.writing with
  | m :: _ => if held then s.writeStaging m else s
  | [] => s

/-! ## Updates (R212 to R216) -/

/-- An update of an idle tile starts: a REBUILD writes staging, a LOAD first copies its mesh. -/
def State.startUpdate (s : State) (n : Nat) (u : PlcUpdate) : State :=
  let s := s.setPlcTile n { s.plcTile n with running := some u, since := s.now, copied := false, complete := none }
  match u with
  | .rebuild => s.readyToWrite n
  | .load _ => s

/-- A request for an update (R214). -/
def State.plcRequest (s : State) (n : Nat) (u : PlcUpdate) : State :=
  let t := s.plcTile n
  match t.running, t.queued with
  | none, _ => s.startUpdate n u
  | some _, none => s.setPlcTile n { t with queued := some u }
  | some _, some old =>
    let s := ((s.setPlcTile n { t with queued := some u }).setFlag Reg.plcChartStatus n).bump (Reg.plcCnt 5)
    let s := s.event 130
    match old with
    | .load x => s.returnBuffer 25 x 2
    | .rebuild => s

/-- A request by the host (R215): one by the placement engine in the same cycle is dropped for it. -/
def State.plcHostRequest (s : State) (n : Nat) (u : PlcUpdate) : State :=
  if s.cyc.plcAsks.contains n then
    let s := { s with cyc := { s.cyc with plcAsks := s.cyc.plcAsks.filter (· != n) } }
    match u with
    | .rebuild => s
    | .load _ => ((s.setPlcTile n { s.plcTile n with running := none, queued := none }).writeNext n).plcRequest n u
  else s.plcRequest n u

/-- PLC_REBUILD (R214, R215): one request per named tile. -/
def State.plcRebuildWrite (s : State) (v : Word) : State :=
  (List.range 16).foldl (fun s n => if v.getLsbD n then s.plcHostRequest n .rebuild else s) s

/-- PLC_REBUILD (R214, R215). -/
def execPlcRebuild (b : BusWrite) (s : State) : Out :=
  .next (s.busWrite Reg.plcRebuild b State.plcRebuildWrite)

/-- PLC_LOAD (R214, R337): each write is one request, checked as a post first. -/
def State.plcLoadWrite (s : State) (v : Word) : State :=
  s.post (.plcLoad (bits v.toNat 3 0)) (v.toNat &&& 0x3FFFFFC0)

/-- PLC_LOAD (R214, R337). -/
def execPlcLoad (b : BusWrite) (s : State) : Out :=
  .next (s.busWrite Reg.plcLoad b State.plcLoadWrite)

/-- A LOAD that is refused (R216): the error flag and event. -/
def State.plcLoadError (s : State) (n : Nat) : State := (s.setFlag Reg.plcChartStatus (16 + n)).event 132

/-- A registered LOAD buffer becomes a request, or is returned as too short (R216, Table PLC-3). -/
def State.plcLoadAccept (s : State) (n x : Nat) : State :=
  if s.bufLen x < 48079 then (s.returnBuffer 25 x 1).plcLoadError n else s.plcHostRequest n (.load x)

/-- LOAD_COPY_DONE (R216): the mesh is in the base copy, its buffer goes back, the rebuild follows. -/
def execLoadCopyDone (tile : Fin 16) (s : State) : Out :=
  let n := tile.val
  let t := s.plcTile n
  match t.running with
  | some (.load x) =>
    if t.copied || !s.live 19 || !s.memReady 25 (winAddr x) 48079 then .next s
    else
      let r := s.devRead 25 (winAddr x + 64) 48015
      let nodes := (List.range 5335).map fun m => BitVec.ofNat 64 (leAt (r.2.1.drop (8 * m)) 0 8)
      let confs := (r.2.1.drop 42680).take 5335
      let s := { r.1.noteSram 1 (170720 + 5335 * n) (170720 + 5335 * n + 5335) with plc := { r.1.plc with
        base := SMap.store (fun _ => 0) r.1.plc.base (5335 * n) nodes
        baseConf := SMap.store (fun _ => 0) r.1.plc.baseConf (5335 * n) confs } }
      let s := ((s.returnBuffer 25 x 0).bump (Reg.plcCnt 4)).event 131
      .next ((s.setPlcTile n { t with copied := true }).readyToWrite n)
  | _ => .next s

/-- CHART_UPDATE_COMPLETE (R212): the last staging node is written, 5,367 fc after the first at the earliest; the datapath goes on
with the next tile (R215). -/
def execChartUpdateComplete (tile : Fin 16) (s : State) : Out :=
  let n := tile.val
  let t := s.plcTile n
  if s.live 19 && s.plc.writing.head? == some n && t.since + 10734 ≤ s.now then
    .next (((s.setPlcTile n { t with complete := some s.now }).bump (Reg.plcCnt 7) t.sat).writeNext n)
  else .next s

/-- Staging and active exchange roles over one tile's nodes. -/
def swapRange {α : Type} (a b : SMap α) (lo hi : Nat) : SMap α :=
  a.filter (fun p => p.1 < lo) ++ b.filter (fun p => lo ≤ p.1 && p.1 < hi) ++ a.filter (fun p => hi ≤ p.1)

/-- The exchanges of a row-synthesis start (R212): a tile whose update completed before now. What the express path has read
by now it has read of the copies before the exchange. -/
def State.chartExchange (s : State) : State :=
  let s := s.correctExpress
  (List.range 16).foldl (fun s n =>
    let t := s.plcTile n
    match t.complete with
    | some c =>
      if c < s.now then
        let lo := 5335 * n
        let hi := lo + 5335
        let p := s.plc
        let s := { (s.noteSram 1 lo hi).noteSram 1 (85360 + lo) (85360 + hi) with plc := { p with
          active := swapRange p.active p.staging lo hi
          activeConf := swapRange p.activeConf p.stagingConf lo hi
          staging := swapRange p.staging p.active lo hi
          stagingConf := swapRange p.stagingConf p.activeConf lo hi } }
        let s := (s.setPlcTile n { t with running := none, complete := none, copied := false, queued := none }).bump
          (Reg.plcCnt 3)
        match t.queued with
        | some u => s.startUpdate n u
        | none => s
      else s
    | none => s) s

/-! ## Stepping (R222 to R224) -/

/-- Move a term toward its target by at most a step: the new value and whether it was clamped. -/
def stepTerm (cur tgt : Int) (step : Nat) : Int × Bool :=
  if (tgt - cur).natAbs ≤ step then (tgt, false)
  else if cur < tgt then (cur + step, true) else (cur - step, true)

/-- A register as a two's complement word, as it stood when the cycle began. -/
def State.regIntBefore (s : State) (off : Nat) : Int := (s.regBefore off).toInt

/-- The placement step of one tile at the start of slot 432 (R222): targets as they stood when the cycle began. -/
def State.plcStepTile (s : State) (n : Nat) : State :=
  let tnow := sext 16 (s.fld (Reg.tlkTemp n) 15 0)
  let tfit := sext 16 (s.fldBefore (Reg.plcTFit n) 15 0)
  let sc := s.regIntBefore (Reg.plcTgt n 3)
    + (if s.flag Reg.plcCtrl 2 then s.regInt Reg.plcAlpha * (tnow - tfit) / 16 else 0)
  let stT := s.fld Reg.plcStepT 15 0
  let stR := s.fld Reg.plcStepRk 15 0
  let stK := s.fld Reg.plcStepRk 31 16
  let app (j : Nat) : Int := s.regInt (Reg.plcApp n j)
  let a := stepTerm (app 0) (s.regIntBefore (Reg.plcTgt n 0)) stT
  let b := stepTerm (app 1) (s.regIntBefore (Reg.plcTgt n 1)) stT
  let c := stepTerm (app 2) (s.regIntBefore (Reg.plcTgt n 2)) stR
  let d := stepTerm (app 3) sc stK
  let conf := s.tileConf n
  let t := s.plcTile n
  let changed := a.1 != app 0 || b.1 != app 1 || c.1 != app 2 || d.1 != app 3 || conf != t.conf
  let set (s : State) (j : Nat) (v : Int) : State := s.setReg (Reg.plcApp n j) (word (toBits 32 v))
  let s := set (set (set (set s 0 a.1) 1 b.1) 2 c.1) 3 d.1
  let s := if a.2 || b.2 || c.2 || d.2 then s.bump (Reg.plcCnt 6) else s
  let s := s.setPlcTile n { s.plcTile n with conf := conf }
  if changed && t.running.isNone && t.queued.isNone then
    { s with cyc := { s.cyc with plcAsks := n :: s.cyc.plcAsks } }.plcRequest n .rebuild
  else s

/-- PLACEMENT_STEP at the start of slot 432 (R222). -/
def State.placementStep (s : State) : State :=
  if s.live 19 && s.flag Reg.plcCtrl 0 then (List.range 16).foldl State.plcStepTile s else s

/-! ## Fits (R219 to R221) -/

/-- One usable centroid: entry, weight, position in 0.1 mm, displacement in 1/262,144 µm. -/
structure FitPoint where
  entry : Nat
  w : Int
  x : Int
  y : Int
  dx : Int
  dy : Int

/-- Sums of the least-squares problem and its exact solution over common denominators: translation over W × Den, slope
terms over Den. Points that all coincide leave the slope terms open; then the solution is the one without them. -/
structure FitSolution where
  w : Int
  den : Int
  sc : Int
  rot : Int
  tx : Int
  ty : Int
  openSlopes : Bool

def fitSolve (ps : List FitPoint) : FitSolution :=
  let sum (f : FitPoint → Int) : Int := (ps.map fun p => p.w * f p).sum
  let w := sum fun _ => 1
  let sx := sum (·.x)
  let sy := sum (·.y)
  let sdx := sum (·.dx)
  let sdy := sum (·.dy)
  let sxx := sum fun p => p.x * p.x + p.y * p.y
  let sa := sum fun p => p.x * p.dx + p.y * p.dy
  let sb := sum fun p => p.x * p.dy - p.y * p.dx
  let den := w * sxx - sx * sx - sy * sy
  let sc := w * sa - sx * sdx - sy * sdy
  let rot := w * sb - sx * sdy + sy * sdx
  if den = 0 then ⟨w, 1, 0, 0, sdx, sdy, true⟩
  else ⟨w, den, sc, rot, sdx * den - sc * sx + rot * sy, sdy * den - sc * sy - rot * sx, false⟩

/-- Squared residual of a point, over (W × Den)². -/
def fitResidual (f : FitSolution) (p : FitPoint) : Int :=
  let ex := p.dx * (f.w * f.den) - (f.tx + f.w * (f.sc * p.x - f.rot * p.y))
  let ey := p.dy * (f.w * f.den) - (f.ty + f.w * (f.sc * p.y + f.rot * p.x))
  ex * ex + ey * ey

/-- Weighted mean squared residual as a fraction, in (1/64 µm)². -/
def fitMean (f : FitSolution) (ps : List FitPoint) : Int × Int :=
  ((ps.map fun p => p.w * fitResidual f p).sum, f.w * (f.w * f.den) * (f.w * f.den) * 4096 * 4096)

/-- The fit's residual exceeds RESID_MAX. -/
def fitTooFar (f : FitSolution) (ps : List FitPoint) (maxR : Nat) : Bool :=
  let m := fitMean f ps
  decide (m.2 * (maxR * maxR : Nat) < m.1)

/-- Without the point of the largest residual, the first of equals. -/
def fitDrop (f : FitSolution) (ps : List FitPoint) : List FitPoint :=
  match ps.foldl (fun (b : Option FitPoint) p =>
      match b with
      | none => some p
      | some q => if fitResidual f q < fitResidual f p then some p else some q) none with
  | some q => ps.filter fun p => p.entry != q.entry
  | none => ps

/-- An integer within one unit of num / den, which one is free (R220; DEDUCED, log entry 43). -/
def nearFree (num : Int) (den : Int) (k : Nat) : Int :=
  let n := if den < 0 then -num else num
  let d := den.natAbs
  if n % (d : Int) = 0 then n / (d : Int) + ((k % 3 : Nat) : Int) - 1
  else n / (d : Int) + ((k % 2 : Nat) : Int)

/-- The usable centroids of a frame's entries of a tile (R219, R220): weighted, spot found. -/
def PlcFit.points (d : PlcFit) : List FitPoint :=
  if !d.ok then [] else
  d.spots.filterMap fun e =>
    let w (i : Nat) : Nat := (e.words.getD i 0).toNat
    if 0 < bits (w 0) 7 0 && e.spot0.getLsbD 31 then
      some { entry := e.entry, w := bits (w 0) 7 0, x := sext 16 (bits (w 1) 15 0), y := sext 16 (bits (w 1) 31 16)
             dx := sext 16 (bits (w 3) 15 0) * ((bits e.spot0.toNat 15 0 : Int) - bits (w 2) 15 0)
             dy := sext 16 (bits (w 3) 31 16) * ((bits e.spot1.toNat 15 0 : Int) - bits (w 2) 31 16) }
    else none

/-- MIN_FID as it acts: 0 to 2 as 3, above 8 as 8. -/
def State.minFid (s : State) : Nat := max 3 (min 8 (s.fld Reg.plcFit 3 0))

/-- A fit is accepted (R221): the targets, the temperature, the status. A target that the host has written in this cycle stands;
the placement step of this cycle still sees what was there before (R222). What the points leave open is free. -/
def State.acceptFit (s : State) (n : Nat) (ps : List FitPoint) : State :=
  let f := fitSolve ps
  let k (i : Nat) : Nat := (Config.freeWord s.draws i).toNat
  let put (s : State) (j : Nat) (v : Int) : State :=
    if s.cyc.hostWrites.contains (Reg.plcTgt n j) then s
    else (s.noteWrite (Reg.plcTgt n j)).setReg (Reg.plcTgt n j) (word (if f.openSlopes then k j else toBits 32 v))
  let wd := f.w * f.den
  let m := fitMean f ps
  let r := isqrt (m.1 / m.2).toNat + bnat (Config.freeBit s.draws 4)
  let s := put s 0 (nearFree f.tx (wd * 4096) (k 0))
  let s := put s 1 (nearFree f.ty (wd * 4096) (k 1))
  let s := put s 2 (nearFree (f.rot * 10 ^ 7) (f.den * 262144) (k 2))
  let s := put s 3 (nearFree (f.sc * 10 ^ 7) (f.den * 262144) (k 3))
  let s := (s.noteWrite (Reg.plcTFit n)).setReg (Reg.plcTFit n) (word (s.fld (Reg.tlkTemp n) 15 0))
  let rej := s.fld (Reg.plcFitStatus n) 30 30
  let s := s.setReg (Reg.plcFitStatus n) (word (rej * 2 ^ 30 + ps.length * 2 ^ 24 + 255 * 2 ^ 16 + min 65535 r))
  let s := s.setPlcTile n { s.plcTile n with fitAt := some s.now }
  s.drawn.bump (Reg.plcCnt 0)

/-- A fit is rejected (R221). -/
def State.rejectFit (s : State) (n : Nat) : State :=
  ((s.setFlag (Reg.plcFitStatus n) 30).bump (Reg.plcCnt 2)).event 128

/-- FIT (R220, R221): the oldest fit that is due for a tile. -/
def execFit (tile : Fin 16) (s : State) : Out :=
  let n := tile.val
  match s.plc.fits.find? fun f => f.tile == n with
  | none => .next s
  | some f =>
    if !s.live 19 then .next s else
    let s := { s with plc := { s.plc with fits := s.plc.fits.erase f } }
    if !s.flag Reg.plcCtrl 1 then .next s else
    let ps := f.points
    let maxR := s.fld Reg.plcFit 15 8
    if ps.length < s.minFid then .next (s.bump (Reg.plcCnt 1))
    else if !fitTooFar (fitSolve ps) ps maxR then .next (s.acceptFit n ps)
    else
      let qs := fitDrop (fitSolve ps) ps
      if qs.length < s.minFid || fitTooFar (fitSolve qs) qs maxR then .next (s.rejectFit n) else .next (s.acceptFit n qs)

/-- FIT_STALE (R224): a tile without an accepted fit for STALE_MS, or since LOOP_EN was set, becomes stale. -/
def execFitStale (tile : Fin 16) (s : State) : Out :=
  let n := tile.val
  let old := match (s.plcTile n).fitAt with
    | some t => decide (t + 1600000 * s.fld Reg.plcFit 31 16 < s.now)
    | none => true
  if s.live 19 && s.flag Reg.plcCtrl 1 && old && !s.flag (Reg.plcFitStatus n) 31 then
    .next (((s.setFlag (Reg.plcFitStatus n) 31).setFld (Reg.plcFitStatus n) 23 16 128).event 129)
  else .next s

/-- A write of PLC_CTRL (R224): setting LOOP_EN starts without an accepted fit; clearing it ends staleness. -/
def State.plcCtrlWrite (s : State) (v : Word) : State :=
  let was := s.flag Reg.plcCtrl 1
  let s := s.store Reg.plcCtrl v
  let now := s.flag Reg.plcCtrl 1
  if was == now then s
  else (List.range 16).foldl (fun s n =>
    let s := s.setPlcTile n { s.plcTile n with fitAt := none }
    if now then s else (s.clrFlag (Reg.plcFitStatus n) 31).setFld (Reg.plcFitStatus n) 23 16 255) s

/-! ## The chart window (R226) -/

/-- The word at an offset of the chart window. -/
def State.chartWord (s : State) (m o : Nat) : Word :=
  if o < 0xA6B80 then
    if o / 4 % 2 = 0 then (SMap.get (fun _ => 0) s.plc.active (o / 8)).truncate 32
    else (s.latched m (0x1400000 + o)).getD (word ((SMap.get (fun _ => 0) s.plc.active (o / 8)).toNat / 2 ^ 32))
  else if 0xC0000 ≤ o && o < 0xD4D70 then
    word ((List.range 4).foldl (fun a i =>
      a + (SMap.get (fun _ => (0 : Byte)) s.plc.activeConf (o - 0xC0000 + i)).toNat * 256 ^ i) 0)
  else 0

/-- A read at 8k: the low word, with the high word latched for the master (R226, R346). -/
def State.chartRead (s : State) (m k : Nat) : State × Word :=
  let w := SMap.get (fun _ => 0) s.plc.active k
  (s.latchWord m (0x1400000 + 8 * k + 4) (word (w.toNat / 2 ^ 32)), w.truncate 32)

/-- CHART_WINDOW_READ (R226). -/
def execChartWindowRead (node : Fin 85360) (b : BusRead) (s : State) : Out :=
  .next (s.busRead (0x1400000 + 8 * node.val) b fun s => s.chartRead b.master.val node.val)

/-- PLC_CNT_CLR (R80, Table PLC-2). -/
def State.plcCntClr (s : State) (v : Word) : State :=
  if v.getLsbD 0 then s.clrRegs (Reg.plcCnt 0) 8 else s

/-- PLC_CNT_CLR (R80, Table PLC-2). -/
def execPlcCntClr (b : BusWrite) (s : State) : Out :=
  .next (s.busWrite Reg.plcCntClr b State.plcCntClr)

end Sys2Proof.Machine
end

