-- ==== Sys2Proof/Machine/HostWindow.lean ====
section
/-!
DEFINITION. The host's side (15): events and GPIO, MSI-X, mailboxes, the Hall Pass window, the link. What a post leads to
stands in PostCheck.lean, Roll Call in RollCall.lean, PERST# and FLR in Reset.lean.
-/
namespace Sys2Proof.Machine

/-! ## Events (R348 to R352) -/

/-- A write of EVT_STATUSg: ones clear; an occurrence of the same cycle wins over the clear and is an assertion (R348, R349; 00 R8). -/
def State.evtStatusWrite (s : State) (g : Nat) (v : Word) : State :=
  let s := s.store (Reg.evtStatus g) v
  let won := (List.range 32).filter fun b => v.getLsbD b && s.cyc.again.contains (32 * g + b) && s.flag (Reg.evtEnable g) b
  let s := { s with cyc := { s.cyc with again := s.cyc.again.filter fun e => !won.contains (e - 32 * g) || e < 32 * g } }
  won.foldl (fun s b => s.assertEvent (32 * g + b)) s

/-- EVT_STATUS_CLEAR (R348). -/
def execEvtStatusClear (group : Fin 9) (b : BusWrite) (s : State) : Out :=
  .next (s.busWrite (Reg.evtStatus group.val) b fun s v => s.evtStatusWrite group.val v)

/-- A write of EVT_ENABLEg: enabling an event whose STATUS is 1 is an assertion (R349). -/
def State.evtEnableWrite (s : State) (g : Nat) (v : Word) : State :=
  let old := s.reg (Reg.evtEnable g)
  let st := s.reg (Reg.evtStatus g)
  let s := s.store (Reg.evtEnable g) v
  (List.range 32).foldl (fun s b =>
    if v.getLsbD b && !old.getLsbD b && st.getLsbD b then s.assertEvent (32 * g + b) else s) s

/-- EVT_ENABLE_WRITE (R349). -/
def execEvtEnableWrite (group : Fin 9) (b : BusWrite) (s : State) : Out :=
  .next (s.busWrite (Reg.evtEnable group.val) b fun s v => s.evtEnableWrite group.val v)

/-- A write of EVT_SOFT_SET by master 0 or 16 (R351). -/
def State.softSet (s : State) (m : Nat) (v : Word) : State :=
  if m = 0 || m = 16 then
    (List.range 32).foldl (fun s n => if v.getLsbD n then s.event (256 + n) else s) s
  else s

/-- EVT_SOFT_SET (R351). -/
def execEvtSoftSet (b : BusWrite) (s : State) : Out :=
  .next (s.busWrite Reg.evtSoftSet b fun s v => s.softSet b.master.val v)

/-- GPIO_EDGE (R352): one sample of the pins, driven from outside to `levels` where they are inputs. A level seen in two
samples in a row that differs from the filtered one is an occurrence. -/
def execGpioEdge (levels : BitVec 16) (s : State) : Out :=
  if !s.live 33 then .next s else
  let oe := BitVec.ofNat 16 (s.fld Reg.evtGpioOe 15 0)
  let sample := (levels &&& ~~~ oe) ||| (BitVec.ofNat 16 (s.fld Reg.evtGpioOut 15 0) &&& oe)
  let last := s.host.gpioLast
  let filt := s.host.gpioFilt
  let s := { s with host := { s.host with gpioIn := levels, gpioLast := sample } }
  .next ((List.range 16).foldl (fun s n =>
    let x := sample.getLsbD n
    if x == last.getLsbD n && x != filt.getLsbD n then
      { s with host := { s.host with gpioFilt := s.host.gpioFilt ^^^ BitVec.ofNat 16 (2 ^ n) } }.event
        (if x then 224 + n else 240 + n)
    else s) s)

/-- MSIX_MESSAGE (R349): with the bits of configuration space as the host has them, a pending vector's message leaves. -/
def execMsixMessage (vector : Fin 64) (cfg : PciConfig) (s : State) : Out :=
  let v := vector.val
  if !s.hostPath then .next s else
  let s := { s with host := { s.host with cfg := cfg } }
  if s.host.msixPend.getLsbD v && cfg.msixEnable && !cfg.fnMask && cfg.busMaster && !s.flag (Reg.hstMsixTable v 3) 0 then
    .next { s with host := { s.host with
      msixPend := s.host.msixPend &&& ~~~ BitVec.ofNat 64 (2 ^ v)
      lastMsg := some ⟨v, s.reg (Reg.hstMsixTable v 0), s.reg (Reg.hstMsixTable v 1), s.reg (Reg.hstMsixTable v 2)⟩ } }
  else .next s

/-- PCIE_LINK_TRAINING (R329): the link trains, at a width of 1, 2 or 4 lanes and a generation of 1 to 5, or is down. -/
def execPcieLinkTraining (up : Bool) (width : BitVec 4) (speed : BitVec 4) (s : State) : Out :=
  if !s.up 37 then .next s
  else if !up then .next (s.setReg Reg.hstLink 0)
  else if (width == 1 || width == 2 || width == 4) && 1 ≤ speed.toNat && speed.toNat ≤ 5 then
    .next (s.setReg Reg.hstLink (word (2 ^ 31 + width.toNat * 16 + speed.toNat)))
  else .next s

/-! ## Mailboxes (R342, R343) -/

/-- A write of a mailbox's ACK: the current SEQ clears VALID, and what its producer holds follows. -/
def State.mboxAckWrite (s : State) (k : Nat) (v : Word) : State :=
  if bits v.toNat 15 0 = s.fld (Reg.hstMbox0w k) 15 0 then
    let s := s.clrFlag (Reg.hstMbox0w k) 31
    match s.host.mboxHeld.find? fun p => p.1 == k with
    | some p => { s with host := { s.host with mboxHeld := s.host.mboxHeld.erase p } }.mboxFill k p.2
    | none => s
  else s

/-- MBOX_ACK (R342). -/
def execMboxAck (k : Fin 4) (b : BusWrite) (s : State) : Out :=
  .next (s.busWrite (Reg.hstMboxAck k.val) b fun s v => s.mboxAckWrite k.val v)

/-- A read of a mailbox's first word latches the six data words. -/
def State.mboxRead (s : State) (m k : Nat) : State × Word :=
  ((List.range 6).foldl (fun s i => s.latchWord m (Reg.hstMboxData k i) (s.reg (Reg.hstMboxData k i))) s,
    s.reg (Reg.hstMbox0w k))

/-- MBOX_READ (R342, R346). -/
def execMboxRead (k : Fin 4) (b : BusRead) (s : State) : Out :=
  .next (s.busRead (Reg.hstMbox0w k.val) b fun s => s.mboxRead b.master.val k.val)

/-! ## The window (R335, R338, R339) -/

/-- Bytes x to x + n - 1 of the window touch a registered extent. -/
def State.inExtent (s : State) (x n : Nat) : Bool := s.host.extents.any fun e => x < e.base + e.len && e.base < x + n

/-- A host write reaches the monitor (R339). -/
def State.monitorWrite (s : State) (x : Nat) (bs : List Byte) : State :=
  if s.inExtent x bs.length then
    ((s.bump Reg.hpViolCnt).event 32).latchFirst Reg.hpViol 0 [(Reg.hpViol, word (2 ^ 31 + x))]
  else (s.devWrite 16 (winAddr x) bs).1

/-- A host write of the window, held behind the posts that wait for their check (R338). -/
def State.windowWrite (s : State) (x : Nat) (bytes : List Byte) : State :=
  if s.host.fifo.isEmpty then s.monitorWrite x bytes
  else { s with host := { s.host with fifo := s.host.fifo ++ [.write x bytes] } }

/-- WINDOW_WRITE (R335, R338, R339): a host write of BAR2. -/
def execWindowWrite (off : BitVec 30) (bytes : List Byte) (s : State) : Out :=
  let x := off.toNat
  if !s.hostPath || !s.live 34 || bytes.isEmpty || 2 ^ 30 < x + bytes.length then .next s
  else .next (s.windowWrite x bytes)

/-- HP_CNT_CLR (R80). -/
def State.hpCntClr (s : State) (v : Word) : State :=
  if v.getLsbD 0 then s.clrRegs Reg.hpViolCnt 1 else s

/-- HP_CNT_CLR (R80). -/
def execHpCntClr (b : BusWrite) (s : State) : Out :=
  .next (s.busWrite Reg.hpCntClr b State.hpCntClr)

/-! ## Roll Call's queue and counters (R344, R345) -/

/-- RC_POST (R345, R337): a queue of 4, a post to a full one ignored. -/
def State.rcPostWrite (s : State) (v : Word) : State :=
  if 4 ≤ s.host.rcQueue.length + s.posting .rc then s else s.post .rc (v.toNat &&& 0x3FFFFFC0)

def execRcPost (b : BusWrite) (s : State) : Out := .next (s.busWrite Reg.rcPost b State.rcPostWrite)

/-- RC_CNT_CLR (R80). -/
def State.rcCntClr (s : State) (v : Word) : State :=
  if v.getLsbD 0 then s.clrRegs (Reg.rcCnt 0) 3 else s

/-- RC_CNT_CLR (R80). -/
def execRcCntClr (b : BusWrite) (s : State) : Out :=
  .next (s.busWrite Reg.rcCntClr b State.rcCntClr)

end Sys2Proof.Machine
end

