-- ==== Sys2Proof/Machine/Upstream.lean ====
section
/-!
DEFINITION. The Assembly link, sending side and registers (04): grants, bursts and what fills them, ranging, contention,
the control register, posts, and the rows of the ASM registers.
-/
namespace Sys2Proof.Machine

/-! ## Upstream packets (R92, R95, Table ASM-6) -/

/-- An upstream message of header bits 15:0, and blocks after the header: counter, sender, tag and CRC are the port's. SEQ
and LAST have no stated value (DEDUCED, log entry 36). None while the slot for upstream tags holds no key (R427). -/
def State.upMessage (s : State) (stream low : Nat) (own : List (BitVec 64)) : Option (State × List Block) :=
  match s.asmKey (s.fld Reg.secAsmkeyCtrl 4 4) with
  | none => none
  | some key =>
    let hdr := BitVec.ofNat 64 (low % 65536 + (s.serial % 65536) * 2 ^ 16 + s.asm.msgCounter * 2 ^ 32)
    let bs := hdr :: own
    let open_ := (Config.freeWord s.draws 0).toNat
    let head := BitVec.ofNat 64 (0x78 + stream * 2 ^ 8 + 6 * 2 ^ 28 + open_ % 65536 * 2 ^ 32
      + (bs.length + 2) % 4096 * 2 ^ 48 + 2 ^ 60 + (open_ / 65536 % 2) * 2 ^ 61 + s.fld Reg.secAsmkeyCtrl 4 4 * 2 ^ 63)
    let all := bs ++ tagBlocks (asmTag key head bs)
    let tail := BitVec.ofNat 64 (0x4B + pktCrc head all * 2 ^ 8)
    let s := { s with asm := { s.asm with msgCounter := (s.asm.msgCounter + 1) % 2 ^ 32 } }
    some (s.drawn, ⟨true, head, false⟩ :: all.map (fun d => ⟨false, d, false⟩) ++ [⟨true, tail, false⟩])

/-- What a burst has taken so far: the state, its blocks, the room left in blocks. -/
abbrev Filling := State × List Block × Nat

/-- Add a message if it fits; packets are never split (R104). The flag says that it went. -/
def addMessage (f : Filling) (stream low : Nat) (own : List (BitVec 64)) : Filling × Bool :=
  if f.2.2 < own.length + 5 then (f, false)
  else match f.1.upMessage stream low own with
    | some (s, bs) => ((s, f.2.1 ++ bs, f.2.2 - bs.length), true)
    | none => (f, false)

/-- The 320 bits of an ALARM's bitmap in five blocks (Table ASM-6). -/
def alarmBlocks (nonce source : Nat) (a : BitVec 288) : List (BitVec 64) :=
  BitVec.ofNat 64 (nonce % 65536 + source % 2 ^ 48 * 2 ^ 16)
    :: (List.range 5).map fun i => BitVec.ofNat 64 (a.toNat / 2 ^ (64 * i))

/-- A pending alarm in the port's own slot: it clears the bits it carried (R105). -/
def addAlarm (f : Filling) (p stream : Nat) : Filling :=
  let s := f.1
  if s.asm.alarms == 0 then f
  else
    let r := addMessage f stream 0x43 (alarmBlocks (s.uniform 1 65536) s.serial s.asm.alarms)
    if r.2 then
      let s := { r.1.1 with asm := { r.1.1.asm with alarms := 0 } }
      -- an attempt on its way keeps its retry count until the next Bell (R106)
      (if (s.port p).attempt.isSome then s else s.setPort p { s.port p with retry := 0, contSkip := 0 }, r.1.2)
    else r.1

/-- A repair entry's request may go in a burst whose TXEN asserts at a clock reading, in units (R105). -/
def State.requestable (s : State) (p : Nat) (start : Int) (r : RepairEntry) : Bool :=
  r.requestedAt.isNone && (match r.deadline with
    | some t => decide (start + ((1000 * s.fld (Reg.asmTiming p) 31 16 * 16000000 : Nat) : Int) ≤ ((t * 16000000 : Nat) : Int))
    | none => true)

/-- REPAIR_NACK messages of up to 16 entries each, as many as fit, for entries not yet requested (R105). -/
def addNacks (p stream : Nat) (start : Int) : Nat → Filling → Filling
  | 0, f => f
  | n + 1, f =>
    let es := ((f.1.asm.repair.filter (f.1.requestable p start)).take (min 16 (f.2.2 - 5)))
    if es.isEmpty then f
    else
      let r := addMessage f stream 0x42 (es.map fun e => BitVec.ofNat 64 (e.stream + e.seq * 2 ^ 32))
      if r.2 then
        let s := { r.1.1 with asm := { r.1.1.asm with
          repair := r.1.1.asm.repair.map fun e => if es.contains e then { e with requestedAt := some r.1.1.now } else e } }
        addNacks p stream start n (s, r.1.2)
      else r.1

/-- Posted upstream buffers in order (R97): a buffer whose MSG_TYPE is below 0xC0 returns unsent with its CRC field all
ones; the others go while they fit, and return with STATUS 0. -/
def addBuffers (p stream : Nat) : List Nat → Filling → Filling
  | [], f => f
  | x :: xs, f =>
    let s := f.1
    let hd := s.devRead 15 (winAddr x + 8) 4
    let used := min (leNat hd.2.1) (s.bufLen x - 64)
    let rd := hd.1.devRead 15 (winAddr x + 64) (max 8 (8 * ((used + 7) / 8)))
    let bytes := (rd.2.1.take (max 8 used)) ++ List.replicate ((8 - used % 8) % 8) 0
    let n := max 1 ((used + 7) / 8)
    let blocks := (List.range n).map fun i => BitVec.ofNat 64 (leAt bytes (8 * i) 8)
    let pop (s : State) : State := s.setPort p { s.port p with upq := (s.port p).upq.drop 1 }
    if leAt bytes 0 1 < 0xC0 then
      addBuffers p stream xs (((pop rd.1).winWrite 15 (x + 12) (leBytes 4 0xFFFFFFFF)).returnBuffer 15 x 0, f.2)
    else
      let r := addMessage (rd.1, f.2) stream (leAt bytes 0 2) (blocks.drop 1)
      if r.2 then addBuffers p stream xs ((pop r.1.1).returnBuffer 15 x 0, r.1.2) else f

/-! ## Bursts (R73, R74, Table LNE-6) -/

/-- Line bits of n codewords that carry blocks, IDLE where they end. -/
def burstCodewords : Nat → Nat → List Block → List Bool
  | 0, _, _ => []
  | n + 1, h, bs =>
    let cw := sendCodeword h (fillBlocks 80 bs)
    cw.1 ++ burstCodewords n cw.2 (bs.drop 80)

/-- Preamble and delimiter (R73). -/
def burstHead : List Bool :=
  (List.range 2048).map (fun i => i % 2 == 0) ++ unpackBits 64 0x5D3AE1C68B270F94

/-- Codewords of a burst (R73): a grant of more than 64 sends 64 (DESIGN CHOICE, log entry 95). -/
def burstLength (ncw : Nat) : Nat := min 64 ncw

/-- Core cycles in n UI (R73: 37.647 ps). -/
def uiCc (n : Nat) : Nat := n * 128 / 2125

/-- A port sends a burst whose TXEN asserts now, at a clock reading (R73, R74). -/
def State.sendBurst (s : State) (p : Nat) (start : Int) (ncw : Nat) (bs : List Block) : State :=
  let l := upLane p
  let cws := burstCodewords ncw (2 ^ 58 - 1) bs
  let lv := bitsToLevels false (s.flag (Reg.laneCtrl l) 5) false 0 (burstHead ++ flipBits (s.lane l).injFlips cws)
  let s := s.setLane l { s.lane l with line := lv.1, cwAt := s.now + uiCc 3712, injFlips := [] }
  let rel := start + ((uiUnits (3712 + 5440 * ncw + 512) : Nat) : Int)
  (s.setPort p { s.port p with burst := some ⟨start, rel, ncw, bs⟩ }).asmCount p 15

/-- R104: the burst would start less than 2 µs after the Bell's end, or before the previous burst has released TXEN. -/
def State.grantTooSoon (s : State) (p : Nat) (start : Int) : Bool :=
  let q := s.port p
  decide (start < q.bellEnd + 32000000000)
    || (match q.burst with | some b => decide (start < b.release) | none => false)

/-- The upstream stream ID of a port (Table ASM-4). -/
def State.upStream (s : State) (p : Nat) : Nat :=
  match (s.port p).panel with
  | some k => 0xFFFC0 + k
  | none => 0xFFFBF

/-- A grant of the port has been dealt with. -/
def State.useGrant (s : State) (p g : Nat) : State :=
  let q := s.port p
  s.setPort p { q with grants := (List.zip (List.range q.grants.length) q.grants).map fun x =>
    if x.1 = g then { x.2 with used := true } else x.2 }

/-- The port's own granted slot (R105, R108): LEAVE, alarm, repair requests, buffers, then IDLE. -/
def State.ownSlot (s : State) (p : Nat) (start : Int) (ncw : Nat) : State :=
  let st := s.upStream p
  let f : Filling := (s, [], 80 * ncw)
  let lv := if (s.port p).leaving then addMessage f st 0x44 [] else (f, false)
  let f := addAlarm lv.1 p st
  let nacker := s.bellSource == p || (s.port s.bellSource).st != .joined
  let f := if nacker then addNacks p st start 5 f else f
  let f := addBuffers p st (f.1.port p).upq f
  let s := f.1.sendBurst p start ncw f.2.1
  if lv.2 then (s.clearPanel p).rangeOrSync p else s

/-- A contention slot (R106): an attempt with a new NONCE, unless slots are still to be skipped. -/
def State.contentionSlot (s : State) (p : Nat) (start : Int) : State :=
  let q := s.port p
  if !s.flag (Reg.asmCtrl p) 4 || s.asm.alarms == 0 || q.contStop || q.attempt.isSome then s
  else if 0 < q.contSkip then s.setPort p { q with contSkip := q.contSkip - 1 }
  else if s.grantTooSoon p start then s.asmCount p 18
  else
    let nonce := s.uniform 1 65536
    let bits_ := s.asm.alarms
    let r := addMessage (s, [], 80) (s.upStream p) 0x43 (alarmBlocks nonce s.serial bits_)
    if r.2 then
      let s := r.1.1
      (s.setPort p { s.port p with attempt := some (nonce, q.cycle, bits_) }).sendBurst p start 1 r.1.2.1
    else s

/-- The ranging answer the port has decided on goes at its TXEN instant: RANGE_RESP with its DELAY (R108). -/
def State.rangingBurst (s : State) (p : Nat) : State :=
  match (s.port p).rangeAns with
  | some (start, n, d) =>
    if (s.asm.wall : Int) < start then s
    else
      let s := s.setPort p { s.port p with rangeAns := none }
      let r := addMessage (s, [], 80 * n) 0xFFFBF 0x41
        [BitVec.ofNat 64 s.serial, BitVec.ofNat 64 (s.uniform 1 65536 + d * 2 ^ 16)]
      if r.2 then
        let s := r.1.1
        (s.setPort p { s.port p with rangeBells := some 0 }).sendBurst p start n r.1.2.1
      else s
  | none => s

/-- A ranging grant (R108): skipped, or answered after the DELAY the port draws for it. -/
def State.rangingSlot (s : State) (p : Nat) (g : Grant) : State :=
  let q := s.port p
  if q.rangeBells.isSome || q.rangeAns.isSome then s
  else if 0 < q.rangeSkip then s.setPort p { q with rangeSkip := q.rangeSkip - 1 }
  else
    let d := s.uniform 2 16
    let start := q.bellArrive + ((uiUnits (64 * (g.start + 4096 * d)) : Nat) : Int)
    if s.grantTooSoon p start then s.drawn.asmCount p 18
    else ((s.setPort p { q with rangeAns := some (start, burstLength g.ncw, d) }).drawn).rangingBurst p

/-- UPSTREAM_BURST (R73, R104 to R108): a grant of the latest Bell reaches its TXEN instant while lane 0 holds CW_LOCK (R75,
R107) and the upstream lane's PRBS generator is off; a ranging grant first reaches the instant of DELAY 0. A grant of no
codeword sends nothing (DESIGN CHOICE, log entry 95). -/
def execUpstreamBurst (port : Fin 2) (grant : Fin 64) (s : State) : Out :=
  let p := port.val
  let q := s.port p
  if !s.live p || !s.live (laneBlock (upLane p)) || !(s.lane (portLane p)).cwLock
      || (s.lane (upLane p)).st != .active || (s.lane (upLane p)).genOn then .next s
  else if q.st == .ranging && q.rangeAns.isSome then .next (s.rangingBurst p)
  else match q.grants[grant.val]? with
  | none => .next s
  | some g =>
    let ranging := q.st = .ranging ∧ g.panel = 0xFE
    let eqd := if ranging then 0 else (s.reg (Reg.asmEqd p)).toNat
    let start := q.bellArrive + ((uiUnits (eqd + 64 * g.start) : Nat) : Int)
    if g.used || g.ncw == 0 || (s.asm.wall : Int) < start then .next s
    else if ranging then .next ((s.useGrant p grant.val).rangingSlot p g)
    else if q.st = .joined ∧ g.panel = 0xFF ∧ g.ncw = 1 then .next ((s.useGrant p grant.val).contentionSlot p start)
    else if q.st = .joined ∧ q.panel = some g.panel then
      let s := s.useGrant p grant.val
      if s.grantTooSoon p start then .next (s.asmCount p 18) else .next (s.ownSlot p start (burstLength g.ncw))
    else .next s

/-! ## Registers -/

/-- Buffers a port holds go back with STATUS 4 (R341). -/
def State.returnPortBuffers (s : State) (p : Nat) : State :=
  let q := s.port p
  let s := (q.dnq ++ q.upq).foldl (fun s x => s.returnLater 15 x) s
  s.setPort p { s.port p with dnq := [], upq := [] }

/-- A write of ASM_CTRL: EN moves the port between OFF and LISTEN (Table ASM-8), REJOIN and LEAVE act (R108). -/
def State.asmCtrlWrite (s : State) (p : Nat) (v : Word) : State :=
  let s := s.store (Reg.asmCtrl p) v
  let q := s.port p
  if !v.getLsbD 0 then
    if q.st = .off then s
    else
      let s := (s.returnPortBuffers p).clearPanel p
      (s.setPort p { s.port p with timeLock := false, lockStreak := 0, grants := [], rangeBells := none, rangeAns := none,
                                   attempt := none,
                                   retry := 0, contSkip := 0, rxOpen := [none, none, none, none],
                                   complete := [], lookup := [], tag := [] }).portState p .off
  else
    let s := if q.st = .off then s.portState p .listen else s
    let s := if v.getLsbD 30 && (q.st == .sync || q.st == .ranging || q.st == .joined) then
        (s.clearPanel p).rangeOrSync p else s
    if v.getLsbD 31 && (s.port p).st == .joined then s.setPort p { s.port p with leaving := true } else s

/-- ASM_LEAVE (R108). -/
def execAsmLeave (port : Fin 2) (b : BusWrite) (s : State) : Out :=
  .next (s.busWrite (Reg.asmCtrl port.val) b fun s v => s.asmCtrlWrite port.val v)

/-- REJOIN (R108). -/
def execRejoin (port : Fin 2) (b : BusWrite) (s : State) : Out :=
  .next (s.busWrite (Reg.asmCtrl port.val) b fun s v => s.asmCtrlWrite port.val v)

/-- PORT_EN_WRITE (R108, Table ASM-8). -/
def execPortEnWrite (port : Fin 2) (b : BusWrite) (s : State) : Out :=
  .next (s.busWrite (Reg.asmCtrl port.val) b fun s v => s.asmCtrlWrite port.val v)

/-- LOSS_HOLD_WRITE (R89): the new hold is in force from the next LOSS_DECLARED on. -/
def execLossHoldWrite (port : Fin 2) (b : BusWrite) (s : State) : Out :=
  .next (s.busWrite (Reg.asmTiming port.val) b fun s v => s.store (Reg.asmTiming port.val) v)

/-- A post to a queue of 16 (ASM_DNQ_POST, ASM_UPQ_POST): a full queue ignores it and sets EV_ASM_POST_FULL. -/
def State.asmPost (s : State) (p : Nat) (up : Bool) (x : Nat) : State :=
  let q := if up then QueueId.asmUpq (p == 1) else QueueId.asmDnq (p == 1)
  let n := if up then (s.port p).upq.length else (s.port p).dnq.length
  if 16 ≤ n + s.posting q then s.event 73 else s.post q (x &&& 0x3FFFFFC0)

/-- ASM_DNQ_POST (R97, R337). -/
def execAsmDnqPost (port : Fin 2) (b : BusWrite) (s : State) : Out :=
  .next (s.busWrite (Reg.asmDnqPost port.val) b fun s v => s.asmPost port.val false v.toNat)

/-- ASM_UPQ_POST (R97, R337). -/
def execAsmUpqPost (port : Fin 2) (b : BusWrite) (s : State) : Out :=
  .next (s.busWrite (Reg.asmUpqPost port.val) b fun s v => s.asmPost port.val true v.toNat)

/-- A read of ASM_WALL_LO latches the high word for the master that reads (R346). -/
def State.wallLoRead (s : State) (m : Nat) : State × Word :=
  (s.latchWord m Reg.asmWallHi (word (s.wallNs / 2 ^ 32)), word s.wallNs)

/-- ASM_WALL_LO_READ. -/
def execAsmWallLoRead (b : BusRead) (s : State) : Out :=
  .next (s.busRead Reg.asmWallLo b fun s => s.wallLoRead b.master.val)

/-- ASM_CNT_CLR (R80, Table ASM-9). -/
def State.asmCntClr (s : State) (p : Nat) (v : Word) : State :=
  if v.getLsbD 0 then s.clrRegs (Reg.asmCnt p 0) 21 else s

/-- ASM_CNT_CLR (R80, Table ASM-9). -/
def execAsmCntClr (port : Fin 2) (b : BusWrite) (s : State) : Out :=
  .next (s.busWrite (Reg.asmCntClr port.val) b fun s v => s.asmCntClr port.val v)

/-- The TXEN output of a burst lane (R73): asserted while a burst of its port runs, or under the PRBS generator. -/
def State.txenPin (s : State) (p : Nat) : Bool :=
  (s.lane (upLane p)).txen || (match (s.port p).burst with
    | some b => decide (b.start ≤ (s.asm.wall : Int) ∧ (s.asm.wall : Int) < b.release)
    | none => false)

/-- ASM_STATUS of a port. -/
def State.asmStatus (s : State) (p : Nat) : Nat :=
  let q := s.port p
  (List.range 4).foldl (fun a i => a + bnat (s.lane (portLane p + i)).cwLock * 2 ^ (20 + i)) 0
    + (q.panel.getD 0) * 2 ^ 16 + bnat (s.asm.alarms != 0) * 2 ^ 15 + q.retry * 2 ^ 11 + bnat s.asm.holdover * 2 ^ 10
    + bnat (s.bellSource == p) * 2 ^ 9 + bnat q.timeLock * 2 ^ 8
    + (match q.st with | .off => 0 | .listen => 1 | .sync => 2 | .ranging => 3 | .joined => 4)

end Sys2Proof.Machine
end

