-- ==== Sys2Proof/Machine/Receive.lean ====
section
/-!
DEFINITION. Reception (03 R60 to R66, R76): codewords and what they deliver to a port's lane (04) or a tile's return lane
(12), the hunt, and what follows when a lane loses or gains CW_LOCK (R75, R107, R109, Table TLK-5).
-/
namespace Sys2Proof.Machine

/-- What the link layer of lane l makes of a change of CW_LOCK from `was` to what it is now. -/
def State.lockFollow (s : State) (l : Nat) (was : Bool) : State :=
  let is := (s.lane l).cwLock
  if was == is then s
  else if 58 ≤ l then s.tileLock (l - 58) is
  else if (l == 50 || l == 54) && !is then s.portLockLost ((l - 50) / 4)
  else s

/-- Delivered blocks go to the link layer of lane l, if it is out of reset (R61). -/
def State.takeBlocks (s : State) (l : Nat) (ds : List Delivered) : State :=
  if 58 ≤ l then (if s.live 23 then s.returnBlocks (l - 58) (ds.map Prod.snd) else s)
  else if s.live ((l - 50) / 4) then s.asmReceive ((l - 50) / 4) ((l - 50) % 4) ds
  else s

/-- Symbols of a codeword on the line. -/
def codewordLevels (l : Nat) : Nat := if lanePam4 l then 2720 else 5440

/-- CODEWORD_RECEIVED (R60, R61, R65): a codeword of a locked lane; nothing is delivered past the end of a window that loses
lock. -/
def execCodewordReceived (lane : Fin 74) (levels : List (BitVec 2)) (s : State) : Out :=
  let l := lane.val
  if s.laneReceiving l && (s.lane l).cwLock && !(s.lane l).lossDue && levels.length == codewordLevels l then
    let r := s.laneCodeword l levels
    .next (r.1.takeBlocks l r.2)
  else .next s

/-- ALIGNMENT_HUNT (R64): one codeword time of the hunter, shown two codeword times of the line. -/
def execAlignmentHunt (lane : Fin 74) (levels : List (BitVec 2)) (s : State) : Out :=
  let l := lane.val
  if s.laneReceiving l && (s.lane l).cdrLock && !(s.lane l).cwLock && levels.length == 2 * codewordLevels l then
    let r := s.laneHunt l levels
    .next ((r.1.lockFollow l false).takeBlocks l r.2)
  else .next s

/-- LOCK_LOST (R65, R79): a window has ended with 16 or more invalid headers. -/
def execLockLost (lane : Fin 74) (s : State) : Out :=
  let l := lane.val
  if s.live (laneBlock l) && (s.lane l).cwLock && (s.lane l).lossDue then .next ((s.laneLockLost l).lockFollow l true)
  else .next s

/-- SIG_LOST (R66, R79): no signal for 1 µs on a receiver that has something to lose. -/
def execSigLost (lane : Fin 74) (s : State) : Out :=
  let l := lane.val
  if !laneTx l && s.live (laneBlock l) && s.signalMatters l then
    .next ((s.laneSigLost l).lockFollow l (s.lane l).cwLock)
  else .next s

/-- LANE_STATE_COMPLETE (R71, R79): the transition ends, a held request is acted on, EV_LANE_STATE. -/
def execLaneStateComplete (lane : Fin 74) (s : State) : Out :=
  let l := lane.val
  if s.live (laneBlock l) && (s.lane l).st == .transition then
    .next (((s.laneArrive l (s.lane l).target).event 66).lockFollow l (s.lane l).cwLock)
  else .next s

/-- CHK_LOCK (R76): received line levels pass through the enabled PRBS checker. -/
def execChkLock (lane : Fin 74) (levels : List (BitVec 2)) (s : State) : Out :=
  let l := lane.val
  if !laneTx l && s.live (laneBlock l) && (s.lane l).st == .active && s.flag (Reg.lanePrbs l) 6 then
    let bp := s.laneBits l levels
    let r := chkRun (s.fld (Reg.lanePrbs l) 5 4) (s.lane l) bp.1
    .next (((s.setLane l (s.laneTook l bp.1.length bp.2 r.1.unlock)).bump (Reg.lanePrbsErr l) r.2).lockFollow l
      (s.lane l).cwLock)
  else .next s

end Sys2Proof.Machine
end

