-- ==== Sys2Proof/Machine/SatCodec.lean ====
section
/-!
DEFINITION. The Satchel format (16): block headers, the decoding of R356 and R357 with its errors, and the compressor's
framing and verification of R358 and R359. Which matches the compressor chooses is its own (DESIGN CHOICE, log entry 61).
-/
namespace Sys2Proof.Machine

/-- A decoder in the middle of a block: payload left, bytes of it taken, output of the stream newest first, history length,
bytes the block has produced, destination bytes left. -/
structure SatSt where
  rest : List Byte
  pos : Nat
  out : List Byte
  hist : Nat
  made : Nat
  room : Nat

/-- The state, and the error that stopped it: code of Table SAT-3 and payload offset for DATA5. -/
abbrev SatRes := SatSt × Option (Nat × Nat)

/-- emit() (R356), at an item that begins at payload offset `at_`; a byte that would pass the destination is not written. -/
def satEmit (st : SatSt) (limit at_ : Nat) (b : Byte) : SatRes :=
  if st.room = 0 then (st, some (5, at_))
  else
    let st := { st with out := b :: st.out, hist := st.hist + 1, made := st.made + 1, room := st.room - 1 }
    if limit < st.made then (st, some (3, at_)) else (st, none)

/-- Copy m bytes from distance d, one at a time. -/
def satCopy (d limit at_ : Nat) : Nat → SatSt → SatRes
  | 0, st => (st, none)
  | m + 1, st =>
    match satEmit st limit at_ (st.out.getD (d - 1) 0) with
    | (st, none) => satCopy d limit at_ m st
    | r => r

/-- take() of n bytes, low byte first; none where the payload ends, with what was taken before. -/
def satTake : Nat → SatSt → SatSt × Option Nat
  | 0, st => (st, some 0)
  | n + 1, st =>
    match st.rest with
    | [] => (st, none)
    | b :: bs =>
      match satTake n { st with rest := bs, pos := st.pos + 1 } with
      | (st, some v) => (st, some (b.toNat + 256 * v))
      | r => r

/-- A match item (Table SAT-5). -/
def satMatch (limit : Nat) (st : SatSt) : SatRes :=
  let at_ := st.pos
  match satTake 1 st with
  | (st, none) => (st, some (3, at_))
  | (st, some h) =>
    let (n1, n2) := if h ≤ 0xDF then (0, 1) else if h ≤ 0xFE then (0, 2) else (2, 2)
    match satTake n1 st with
    | (st, none) => (st, some (3, at_))
    | (st, some x) =>
      match satTake n2 st with
      | (st, none) => (st, some (3, at_))
      | (st, some y) =>
        let m := if h ≤ 0xDF then h / 32 + 3 else if h ≤ 0xFE then h % 32 + 3 else 34 + x
        let d := (if h ≤ 0xDF then h % 32 * 256 + y else y) + 1
        if min st.hist 65536 < d then (st, some (2, at_)) else satCopy d limit at_ m st

/-- The items of a group, k flag bits left, f the flags not yet used, `flag` the offset of the flag byte. -/
def satItems (limit flag : Nat) : Nat → Nat → SatSt → SatRes
  | 0, _, st => (st, none)
  | k + 1, f, st =>
    if limit ≤ st.made then (if f = 0 then (st, none) else (st, some (1, flag)))
    else
      let r : SatRes :=
        if f % 2 = 0 then
          match st.rest with
          | [] => (st, some (3, st.pos))
          | b :: bs => satEmit { st with rest := bs, pos := st.pos + 1 } limit st.pos b
        else satMatch limit st
      match r with
      | (st, none) => satItems limit flag k (f / 2) st
      | e => e

/-- The groups of a compressed block; `last` is the offset of the latest flag byte. -/
def satGroups (limit : Nat) : Nat → Nat → SatSt → SatRes
  | 0, last, st => (st, some (1, last))
  | n + 1, last, st =>
    if limit ≤ st.made then (if st.rest.isEmpty then (st, none) else (st, some (1, last)))
    else
      match st.rest with
      | [] => (st, some (3, st.pos))
      | f :: bs =>
        match satItems limit st.pos 8 f.toNat { st with rest := bs, pos := st.pos + 1 } with
        | (st', none) => satGroups limit n st.pos st'
        | e => e

/-- The bytes of a raw block. -/
def satRaw (limit : Nat) : List Byte → SatSt → SatRes
  | [], st => (st, none)
  | b :: bs, st =>
    match satEmit { st with rest := bs, pos := st.pos + 1 } limit st.pos b with
    | (st, none) => satRaw limit bs st
    | e => e

/-- A block's payload (R355, R356). -/
def satBlock (raw : Bool) (rlen : Nat) (st : SatSt) : SatRes :=
  if raw then satRaw (rlen + 1) st.rest st else satGroups (rlen + 1) (st.rest.length + 2) 0 st

/-- The fields of a header: RAW, LAST, RESET, RLEN, CLEN, and whether R357 refuses it. -/
structure SatHeader where
  raw : Bool
  last : Bool
  reset : Bool
  rlen : Nat
  clen : Nat
  bad : Bool

def satHeader (bs : List Byte) : SatHeader :=
  let f := leAt bs 0 2
  let rlen := leAt bs 2 2
  let clen := leAt bs 4 4
  let raw := f.testBit 0
  ⟨raw, f.testBit 1, f.testBit 2, rlen, clen, f / 8 != 0 || (raw && clen != rlen + 1) || (!raw && clen == 0)⟩

/-- What a decode comes to: output in order, source bytes consumed, blocks completed, and the error: its code, the offset of
its block's header, DATA5. -/
structure SatEnd where
  out : List Byte
  used : Nat
  blocks : Nat
  err : Option (Nat × Nat × Nat)

/-- Decode blocks from source offset o on; every block takes at least 8 bytes, so the source's length is fuel enough. -/
def satBlocks : Nat → List Byte → Nat → Nat → SatSt → SatEnd
  | 0, _, o, k, st => ⟨st.out.reverse, o, k, some (3, o, 0xFFFFFFFF)⟩
  | n + 1, src, o, k, st =>
    let stop (code off used : Nat) : SatEnd := ⟨st.out.reverse, used, k, some (code, o, off)⟩
    if src.length < 8 then stop 3 0xFFFFFFFF (o + src.length)
    else
      let h := satHeader src
      let body := src.drop 8
      if h.bad then stop 1 0xFFFFFFFF (o + 8)
      else if body.length < h.clen then stop 3 0xFFFFFFFF (o + 8)
      else
        let st := { st with rest := body.take h.clen, pos := 0, made := 0, hist := if h.reset then 0 else st.hist }
        match satBlock h.raw h.rlen st with
        | (st, some (code, at_)) => ⟨st.out.reverse, o + 8 + st.pos, k, some (code, o, if code = 5 then 0 else at_)⟩
        | (st, none) =>
          if h.last then ⟨st.out.reverse, o + 8 + h.clen, k + 1, none⟩
          else satBlocks n (body.drop h.clen) (o + 8 + h.clen) (k + 1) st

/-- Decode a stream into at most `room` bytes. -/
def satDecode (src : List Byte) (room : Nat) : SatEnd := satBlocks (src.length + 1) src 0 0 ⟨[], 0, [], 0, 0, room⟩

/-- A header's bytes. -/
def satHeaderBytes (raw last reset failed : Bool) (rlen clen : Nat) : List Byte :=
  leBytes 2 (bnat raw + 2 * bnat last + 4 * bnat reset + 32768 * bnat failed) ++ leBytes 2 rlen ++ leBytes 4 clen

/-- Compression of what is left of an input, `before` (newest first) being compressed already: blocks as bytes, how many,
whether one failed verification (R358, R359). -/
def satCompressFrom (level blog : Nat) : Nat → List Byte → List Byte → List Byte × Nat × Bool
  | 0, _, _ => ([], 0, false)
  | n + 1, before, input =>
    let blk := input.take (2 ^ blog)
    let rest := input.drop (2 ^ blog)
    let last := rest.isEmpty
    let reset := before.isEmpty
    let pay := Config.satPayload level blog before blk
    let comp := level != 0 && pay.length != 0 && pay.length < blk.length
    if comp then
      let good := match satBlock false (blk.length - 1) ⟨pay, 0, before, before.length, 0, blk.length⟩ with
        | (st, none) => st.out == blk.reverse ++ before
        | _ => false
      let bs := satHeaderBytes false last reset (!good) (blk.length - 1) pay.length ++ pay
      if !good then (bs, 0, true)
      else if last then (bs, 1, false)
      else
        let r := satCompressFrom level blog n (blk.reverse ++ before) rest
        (bs ++ r.1, r.2.1 + 1, r.2.2)
    else
      let bs := satHeaderBytes true last reset false (blk.length - 1) blk.length ++ blk
      if last then (bs, 1, false)
      else
        let r := satCompressFrom level blog n (blk.reverse ++ before) rest
        (bs ++ r.1, r.2.1 + 1, r.2.2)

/-- Compress an input of at least one byte. -/
def satCompress (level blog : Nat) (input : List Byte) : List Byte × Nat × Bool :=
  satCompressFrom level blog (input.length + 1) [] input

end Sys2Proof.Machine
end

