-- ==== Sys2Proof/Machine/Satchel.lean ====
section
/-!
DEFINITION. Satchel's jobs (16 R360 to R363) and what the Report Card does with them: checkpoint generations and restores of
the stress region (13 R301, R302).
-/
namespace Sys2Proof.Machine

/-! ## Submission (R360, R363) -/

/-- The staged job (R360). -/
def State.satStaged (s : State) : SatJob :=
  { decompress := s.flag Reg.satJobCtrl 29
    blockLog := s.fld Reg.satJobCtrl 28 24
    level := s.fld Reg.satJobCtrl 18 16
    tag := s.fld Reg.satJobCtrl 15 0
    src := (s.reg Reg.satSrcLo).toNat + 2 ^ 32 * s.fld Reg.satSrcHi 4 0
    dst := (s.reg Reg.satDstLo).toNat + 2 ^ 32 * s.fld Reg.satDstHi 4 0
    srcLen := (s.reg Reg.satSrcLen).toNat
    dstLen := (s.reg Reg.satDstLen).toNat
    goAt := s.now }

/-- Submit a job, `clear` telling whether QFULL is clear (R360). -/
def State.satSubmit (s : State) (j : SatJob) (clear : Bool) : State :=
  if 8 ≤ s.sat.queue.length then
    let s := s.setFlag Reg.satStatus 31
    { s with cyc := { s.cyc with satGos := s.cyc.satGos ++ [(j, clear)] } }
  else
    let j := { j with order := s.sat.submitted }
    { s with sat := { s.sat with queue := s.sat.queue ++ [j], submitted := s.sat.submitted + 1 } }

/-- A write of SAT_JOB_CTRL (R360). -/
def State.satJobWrite (s : State) (v : Word) : State :=
  let s := s.store Reg.satJobCtrl v
  if !v.getLsbD 31 then s else s.satSubmit s.satStaged (!s.flag Reg.satStatus 31)

/-- SAT_JOB_GO (R360). -/
def execSatJobGo (b : BusWrite) (s : State) : Out := .next (s.busWrite Reg.satJobCtrl b State.satJobWrite)

/-- How a job ended: status of Table SAT-3, source bytes consumed, destination bytes written, blocks, DATA4, DATA5. -/
structure SatResult where
  status : Nat
  used : Nat
  written : Nat
  blocks : Nat
  data4 : Nat := 0
  data5 : Nat := 0

/-- Count KiB: whole ones now, the rest kept. -/
def kibStep (rest n : Nat) : Nat × Nat := ((rest + n) / 1024, (rest + n) % 1024)

/-- The counters of an ended job (Table SAT-4). -/
def State.satCount (s : State) (r : SatResult) : State :=
  let i := kibStep s.sat.inRest r.used
  let o := kibStep s.sat.outRest r.written
  let s := { s with sat := { s.sat with inRest := i.2, outRest := o.2 } }
  let s := (((s.bump (Reg.satCnt 0)).bump (Reg.satCnt 1) (bnat (r.status != 0 && r.status != 4))).bump
    (Reg.satCnt 3) i.1).bump (Reg.satCnt 4) o.1
  if r.status = 4 then (s.bump (Reg.satCnt 2)).event 42 else s

/-- A register-queue job delivers its result (R362, Table SAT-2). -/
def State.satReport (s : State) (j : SatJob) (r : SatResult) : State :=
  let s := s.mboxResult 1 [word (2 ^ 24 * r.status + 2 ^ 16 * bnat j.decompress + j.tag), word r.used, word r.written,
    word r.blocks, word r.data4, word r.data5]
  let s := s.event 40
  if r.status != 0 && r.status != 4 then s.event 41 else s

/-! ## Reading, working, writing (R354 to R361) -/

/-- Read as master 21 line by line, up to the first error response: bytes read, none in error. -/
def State.satRead (s : State) (a n : Nat) : State × List Byte × Bool :=
  (linesOf a n).foldl (fun (r : State × List Byte × Bool) ln =>
    if !r.2.2 then r else
    let p := linePart a n ln
    let x := r.1.devRead 21 p.1 p.2
    if x.2.2 then (x.1, r.2.1 ++ x.2.1, true) else (x.1, r.2.1, false)) (s, [], true)

/-- Write as master 21 line by line, up to the first error response: bytes written, none in error. -/
def State.satWrite (s : State) (a : Nat) (bs : List Byte) : State × Nat × Bool :=
  (linesOf a bs.length).foldl (fun (r : State × Nat × Bool) ln =>
    if !r.2.2 then r else
    let p := linePart a bs.length ln
    let x := r.1.devWrite 21 p.1 ((bs.drop (p.1 - a)).take p.2)
    if x.2 then (x.1, r.2.1 + p.2, true) else (x.1, r.2.1, false)) (s, 0, true)

/-- Whole blocks of a stream within a number of bytes. -/
def satWhole : Nat → List Byte → Nat → Nat
  | 0, _, _ => 0
  | n + 1, bs, room =>
    let len := 8 + (satHeader bs).clen
    if bs.isEmpty || room < len then 0 else 1 + satWhole n (bs.drop len) (room - len)

/-- What a job makes of source bytes: its output, at most DST_LEN bytes, and how it ends (R356 to R359, R361). The output of a
compression is written up to DST_LEN when it would pass it, the block that would pass having been read (DEDUCED, log entry 63). -/
def satWork (j : SatJob) (src : List Byte) : List Byte × SatResult :=
  if j.decompress then
    let e := satDecode src j.dstLen
    let (st, a, d) := e.err.getD (0, 0, 0)
    (e.out, { status := st, used := e.used, written := e.out.length, blocks := e.blocks
              data4 := if st = 5 then 0 else a, data5 := if st = 5 then 0 else d })
  else
    let c := satCompress j.level j.blockLog src
    let tooLong := j.dstLen < c.1.length
    let blocks := if tooLong then satWhole (c.2.1 + 1) c.1 j.dstLen else c.2.1
    let used := if tooLong || c.2.2 then min src.length ((blocks + 1) * 2 ^ j.blockLog) else src.length
    (c.1.take j.dstLen, { status := if tooLong then 5 else if c.2.2 then 4 else 0
                          used := used, written := min j.dstLen c.1.length, blocks := blocks })

/-- A number at most n that nothing constrains. -/
def State.freeUpTo (s : State) (k n : Nat) : Nat := (Config.freeWord s.draws k).toNat % (n + 1)

/-- Run a job to its end. When a read or a write ends in an error response, how far the unit had come is free, but for the
bytes written where the write failed (DEDUCED, log entry 63). -/
def State.satRun (s : State) (j : SatJob) : State × List Byte × SatResult :=
  let full := s.bytesAt j.src j.srcLen
  let w := satWork j full
  let rd := s.satRead j.src (if j.decompress then w.2.used else j.srcLen)
  let s := rd.1
  let (out, res) : List Byte × SatResult :=
    if rd.2.2 then w
    else
      let p := satWork j rd.2.1
      let k := s.freeUpTo 0 p.1.length
      (p.1.take k, { status := 6, used := s.freeUpTo 1 rd.2.1.length, written := k, blocks := s.freeUpTo 2 p.2.blocks })
  let wr := s.satWrite j.dst out
  let res := if wr.2.2 then res
    else { status := 6, used := s.freeUpTo 3 res.used, written := wr.2.1, blocks := s.freeUpTo 4 res.blocks }
  (wr.1.drawn, out, res)

/-! ## Starting and ending (R360 to R362) -/

/-- A unit's job. -/
def State.satUnit (s : State) (dec : Bool) : Option SatJob := if dec then s.sat.dec else s.sat.comp

def State.setSatUnit (s : State) (dec : Bool) (j : Option SatJob) : State :=
  { s with sat := if dec then { s.sat with dec := j } else { s.sat with comp := j } }

/-- The unit's result waits for its ACK (R362). -/
def State.satStalled (s : State) (dec : Bool) : Bool :=
  s.host.mboxHeld.any fun p => p.1 == 1 && (p.2.getD 0 0).getLsbD 16 == dec

/-- Length of the raw bytes of checkpoint buffer j (R301). -/
def ckptRawLen (j : Nat) : Nat := if j = 63 then 14155776 else 50331648

/-- The checkpoint job that waits in the internal channel: the next buffer's, once one is posted (R301). -/
def State.ckptJob (s : State) : Option SatJob :=
  match s.rpt.ckpt, s.rpt.ckptQueue with
  | some c, x :: _ =>
    if s.live 24 && c.next < 64 then
      some { decompress := false, blockLog := 16, level := 4, tag := c.next, src := 0x1C00000000 + 50331648 * c.next
             dst := winAddr x + 192, srcLen := ckptRawLen c.next, dstLen := s.bufLen x - 192, internal := true }
    else none
  | _, _ => none

/-- R361. -/
def SatJob.bad (j : SatJob) : Bool :=
  j.srcLen == 0 || j.dstLen == 0 || (j.src < j.dst + j.dstLen && j.dst < j.src + j.srcLen)
    || (!j.decompress && (j.blockLog < 10 || 16 < j.blockLog))

/-- JOB_START (R360, R361): the unit takes its next job, the two kinds in turn; a bad job ends with BAD_JOB at once. -/
def execJobStart (decompress : Bool) (s : State) : Out :=
  if !s.live 28 || (s.satUnit decompress).isSome || s.satStalled decompress then .next s else
  let reg := s.sat.queue.find? fun j => j.decompress == decompress
  let int := if decompress then none else s.ckptJob
  let pick := match reg, int with
    | some r, some i => some (if s.sat.turn then r else i)
    | some r, none => some r
    | none, o => o
  match pick with
  | none => .next s
  | some j =>
    let s := if j.internal then s else { s with sat := { s.sat with queue := s.sat.queue.erase j } }
    let s := if decompress then s else { s with sat := { s.sat with turn := j.internal } }
    if j.bad then
      let r : SatResult := { status := 8, used := 0, written := 0, blocks := 0 }
      .next ((s.satCount r).satReport j r)
    else .next (s.setSatUnit decompress (some j))

/-- n free bytes. -/
def State.freeBytes (s : State) (k n : Nat) : List Byte :=
  (List.range n).map fun i => (Config.freeWord s.draws (k + i)).truncate 8

/-- Bytes 64 to 191 of checkpoint buffer j (R301); those the rule does not name are free (DEDUCED, log entry 62). -/
def State.ckptHeader (s : State) (gen j compLen : Nat) (payload : List Byte) : List Byte :=
  leBytes 4 0x43534647 ++ leBytes 4 gen ++ leBytes 2 j ++ leBytes 1 (bnat (j == 63)) ++ s.freeBytes 0 1
    ++ leBytes 4 compLen ++ leBytes 8 (50331648 * j) ++ leBytes 4 (ckptRawLen j) ++ s.freeBytes 1 4
    ++ shake256 payload 32 ++ s.freeBytes 5 64

/-- A checkpoint job has ended (R301): the buffer is filled and returned, the last one's return being CHECKPOINT_DONE; a
failure abandons the generation. -/
def State.ckptJobEnd (s : State) (j : SatJob) (out : List Byte) (r : SatResult) : State :=
  match s.rpt.ckpt, s.rpt.ckptQueue with
  | some c, x :: xs =>
    if j.tag != c.next || j.dst != winAddr x + 192 then s
    else if r.status != 0 then ({ s with rpt := { s.rpt with ckpt := none } }).setFlag Reg.rptStatus 31
    else
      let head := s.ckptHeader c.gen c.next r.written out
      let s := (((s.winWrite 19 (x + 64) head).winWrite 19 (x + 8) (leBytes 4 (128 + r.written))).winWrite 19 (x + 12)
        (leBytes 4 (crc32 (head ++ out)))).drawn
      let s := { s with rpt := { s.rpt with ckpt := some { c with next := c.next + 1 } } }
      if c.next = 63 then s
      else ({ s with rpt := { s.rpt with ckptQueue := xs } }).returnBuffer 19 x 0
  | _, _ => s

/-- JOB_END (R362). -/
def execJobEnd (decompress : Bool) (s : State) : Out :=
  match s.satUnit decompress with
  | none => .next s
  | some j =>
    if !s.live 28 || !s.memReady 21 j.src j.srcLen || !s.memReady 21 j.dst j.dstLen then .next s else
    let x := (s.setSatUnit decompress none).satRun j
    let s := x.1.satCount x.2.2
    .next (if j.internal then s.ckptJobEnd j x.2.1 x.2.2 else s.satReport j x.2.2)

/-- A running job ends with ABORTED after a free number of output bytes, unless its GO fell in this cycle (R363). -/
def State.satAbortRun (s : State) (dec : Bool) : State × List (SatJob × SatResult) :=
  match s.satUnit dec with
  | none => (s, [])
  | some j =>
    if j.internal || j.goAt == s.now then (s, []) else
    let w := satWork j (s.bytesAt j.src j.srcLen)
    let k := s.freeUpTo 0 w.1.length
    let wr := s.satWrite j.dst (w.1.take k)
    ((wr.1.setSatUnit dec none).drawn, [(j, { status := 7, used := s.freeUpTo 1 w.2.used, written := wr.2.1
                                              blocks := s.freeUpTo 2 w.2.blocks })])

/-- The GO writes of this cycle that found the queue full are queued after the abort (R363). -/
def State.satGosAfter (s : State) : State :=
  let gos := s.cyc.satGos
  let s := if gos.any (·.2) then s.clrFlag Reg.satStatus 31 else s
  gos.foldl (fun s g => s.satSubmit g.1 g.2) { s with cyc := { s.cyc with satGos := [] } }

/-- A write of SAT_CTRL (R363): results in order of submission; jobs whose GO fell in this cycle stay. -/
def State.satCtrlWrite (s : State) (v : Word) : State :=
  if !v.getLsbD 31 then s else
  let a := s.satAbortRun false
  let b := a.1.satAbortRun true
  let run := match a.2, b.2 with
    | [x], [y] => if x.1.order ≤ y.1.order then [x, y] else [y, x]
    | xs, ys => xs ++ ys
  let old := b.1.sat.queue.filter (·.goAt != s.now)
  let kept := b.1.sat.queue.filter (·.goAt == s.now)
  let ended := run ++ old.map fun j => (j, { status := 7, used := 0, written := 0, blocks := 0 })
  let report (s : State) (p : SatJob × SatResult) : State := (s.satCount p.2).satReport p.1 p.2
  (ended.foldl report { b.1 with sat := { b.1.sat with queue := kept } }).satGosAfter

/-- SAT_ABORT (R363). -/
def execSatAbort (b : BusWrite) (s : State) : Out := .next (s.busWrite Reg.satCtrl b State.satCtrlWrite)

/-- A write of SAT_CNT_CLR (R80). -/
def State.satCntClrWrite (s : State) (v : Word) : State :=
  if v.getLsbD 0 then
    { s with sat := { s.sat with inRest := 0, outRest := 0 } }.clrRegs (Reg.satCnt 0) 5
  else s

/-- SAT_CNT_CLR (R80). -/
def execSatCntClr (b : BusWrite) (s : State) : Out := .next (s.busWrite Reg.satCntClr b State.satCntClrWrite)

/-! ## Checkpoint generations (13 R301) -/

/-- A generation begins; one in progress goes on (DEDUCED, log entry 62). -/
def State.ckptStart (s : State) : State :=
  if s.rpt.ckpt.isSome then s
  else { s with rpt := { s.rpt with ckpt := some ⟨(s.reg Reg.rptLastGen + 1).toNat, 0⟩ } }

/-- CHECKPOINT (R301): PERIOD seconds have passed. -/
def execCheckpoint (s : State) : Out :=
  let period := 1600000000 * max 1 (s.fld Reg.rptCkptCtrl 15 0)
  if s.live 24 && s.flag Reg.rptCtrl 3 && s.rpt.ckptBase + period ≤ s.now then
    .next { s with rpt := { s.rpt with ckptBase := s.rpt.ckptBase + period } }.ckptStart
  else .next s

/-- A write of RPT_CKPT_CTRL. -/
def State.ckptCtrlWrite (s : State) (v : Word) : State :=
  let s := s.store Reg.rptCkptCtrl v
  if v.getLsbD 31 then s.ckptStart else s

/-- CKPT_NOW (R301). -/
def execCkptNow (b : BusWrite) (s : State) : Out := .next (s.busWrite Reg.rptCkptCtrl b State.ckptCtrlWrite)

/-- CHECKPOINT_DONE (R301): the last buffer returns; a calibration record is due (R300). -/
def execCheckpointDone (s : State) : Out :=
  match s.rpt.ckpt, s.rpt.ckptQueue with
  | some c, x :: xs =>
    if s.live 24 && c.next = 64 then
      let s := { s with rpt := { s.rpt with ckpt := none, ckptQueue := xs } }
      .next ((((s.returnBuffer 19 x 0).setReg Reg.rptLastGen (word c.gen)).event 173).recordDue)
    else .next s
  | _, _ => .next s

/-- A write of RPT_CKPT_POST: a queue of 4, a post to a full one ignored. -/
def State.ckptPostWrite (s : State) (v : Word) : State :=
  if 4 ≤ s.rpt.ckptQueue.length + s.posting .rptCkpt then s else s.post .rptCkpt (v.toNat &&& 0x3FFFFFC0)

/-- RPT_CKPT_POST (R301, R337). -/
def execRptCkptPost (b : BusWrite) (s : State) : Out := .next (s.busWrite Reg.rptCkptPost b State.ckptPostWrite)

/-- A registered checkpoint buffer; one below 64 MiB is returned at once. -/
def State.ckptAccept (s : State) (x : Nat) : State :=
  if s.bufLen x < 67108864 then s.returnBuffer 19 x 1
  else { s with rpt := { s.rpt with ckptQueue := s.rpt.ckptQueue ++ [x] } }

/-! ## Restores (13 R302) -/

/-- A write of RPT_REST_POST: it restores only while EN is 0. -/
def State.restPostWrite (s : State) (v : Word) : State :=
  if s.flag Reg.rptCtrl 0 || 4 ≤ s.rpt.restQueue.length + s.posting .rptRest then s
  else s.post .rptRest (v.toNat &&& 0x3FFFFFC0)

/-- RPT_REST_POST (R302, R337). -/
def execRptRestPost (b : BusWrite) (s : State) : Out := .next (s.busWrite Reg.rptRestPost b State.restPostWrite)

/-- A registered restore buffer. -/
def State.restAccept (s : State) (x : Nat) : State :=
  { s with rpt := { s.rpt with restQueue := s.rpt.restQueue ++ [x] } }

/-- The raw bytes of restore buffer x and its GEN, as the buffer at INDEX of a restore whose GEN is `gen`, if it passes. -/
def State.restCheck (s : State) (x index : Nat) (gen : Option Nat) : State × Option (List Byte × Nat) :=
  let h := s.devRead 19 (winAddr x + 64) 128
  let g := leAt h.2.1 4 4
  let clen := leAt h.2.1 12 4
  if s.bufLen x < 192 + clen || !h.2.2 then (h.1, none) else
  let p := h.1.devRead 19 (winAddr x + 192) clen
  let e := satDecode p.2.1 (ckptRawLen index)
  if p.2.2 && leAt h.2.1 0 4 == 0x43534647 && leAt h.2.1 8 2 == index && gen.getD g == g
      && slice h.2.1 32 32 == shake256 p.2.1 32 && e.err.isNone && e.out.length == ckptRawLen index then
    (p.1, some (e.out, g))
  else (p.1, none)

/-- The whole stress region holds free bytes (R302). -/
def State.stressFree (s : State) : State :=
  { s with dmc := { s.dmc with dram := Memory.store s.dmc.dram 0x1C00000000 (s.freeBytes 0 3185049600) } }.drawn

/-- RESTORE_BUFFER_DONE (R302). -/
def execRestoreBufferDone (s : State) : Out :=
  match s.rpt.restQueue with
  | [] => .next s
  | x :: xs =>
    if !s.live 24 || s.flag Reg.rptCtrl 0 || !s.memReady 19 (winAddr x) 64 || !s.memReady 19 0x1C00000000 64 then .next s else
    let s := { s with rpt := { s.rpt with restQueue := xs } }
    let index := (s.rpt.restore.map Prod.snd).getD 0
    let c := s.restCheck x index (s.rpt.restore.map Prod.fst)
    let s := c.1
    match c.2 with
    | some (raw, g) =>
      let s := (s.devWrite 19 (0x1C00000000 + 50331648 * index) raw).1
      let s := { s with rpt := { s.rpt with restore := if index = 63 then none else some (g, index + 1) } }
      .next (s.returnBuffer 19 x 0)
    | none =>
      let s := { s with rpt := { s.rpt with restore := none } }
      .next ((s.setFlag Reg.rptStatus 30).stressFree.returnBuffer 19 x 1)

end Sys2Proof.Machine
end

