-- ==== Sys2Proof/Machine/Xmss.lean ====
section
/-!
DEFINITION. XMSS-SHAKE256_20_256 as the Registrar uses it (20): n = 32, w = 16, 67 chains, height 20. The functions are those
of NIST SP 800-208 and RFC 8391, outside the spec (PRESUMED, log entry 67).
-/
namespace Sys2Proof.Machine

/-- n bytes of a value, high byte first. -/
def beBytes (n v : Nat) : List Byte := (leBytes n v).reverse

/-- The keyed hashes: a 32-byte number, the key, the message. -/
def xHash (n : Nat) (key msg : List Byte) : List Byte := shake256 (beBytes 32 n ++ key ++ msg) 32

/-- A hash address: its last five words, the layer and tree addresses being 0. -/
structure XAddr where
  type : Nat
  a : Nat
  b : Nat
  c : Nat
  mask : Nat := 0

def XAddr.bytes (x : XAddr) : List Byte :=
  List.replicate 12 0 ++ beBytes 4 x.type ++ beBytes 4 x.a ++ beBytes 4 x.b ++ beBytes 4 x.c ++ beBytes 4 x.mask

def xPrf (seed : List Byte) (x : XAddr) (mask : Nat) : List Byte := xHash 3 seed { x with mask := mask }.bytes

def xorBytes (a b : List Byte) : List Byte := (a.zip b).map fun p => p.1 ^^^ p.2

/-- One step of a chain at its hash address. -/
def xStep (seed : List Byte) (leaf chain at_ : Nat) (v : List Byte) : List Byte :=
  let x : XAddr := ⟨0, leaf, chain, at_, 0⟩
  xHash 0 (xPrf seed x 0) (xorBytes v (xPrf seed x 1))

/-- n steps of a chain from a hash address on. -/
def xChain (seed : List Byte) (leaf chain : Nat) : Nat → Nat → List Byte → List Byte
  | 0, _, v => v
  | n + 1, at_, v => xChain seed leaf chain n (at_ + 1) (xStep seed leaf chain at_ v)

/-- The 67 digits of a 32-byte digest: 64 of the message, high first, 3 of the checksum. -/
def xDigits (m : List Byte) : List Nat :=
  let d := (m.map fun b => [b.toNat / 16, b.toNat % 16]).flatten
  let c := d.foldl (fun a x => a + (15 - x)) 0
  d ++ [c / 256 % 16, c / 16 % 16, c % 16]

/-- Two nodes hashed into one. -/
def xNode (seed : List Byte) (x : XAddr) (l r : List Byte) : List Byte :=
  xHash 1 (xPrf seed x 0) (xorBytes l (xPrf seed x 1) ++ xorBytes r (xPrf seed x 2))

/-- One level of pairs. -/
def xPairs (seed : List Byte) (mk : Nat → XAddr) : Nat → List (List Byte) → List (List Byte)
  | i, l :: r :: xs => xNode seed (mk i) l r :: xPairs seed mk (i + 1) xs
  | _, xs => xs

/-- The L-tree of a leaf's 67 chain ends. -/
def xLtree (seed : List Byte) (leaf : Nat) : Nat → Nat → List (List Byte) → List Byte
  | 0, _, xs => xs.headD []
  | n + 1, h, xs => if xs.length ≤ 1 then xs.headD [] else xLtree seed leaf n (h + 1) (xPairs seed (fun i => ⟨1, leaf, h, i, 0⟩) 0 xs)

/-- The leaf of a one-time key whose chain ends are given. -/
def xLeaf (seed : List Byte) (leaf : Nat) (ends : List (List Byte)) : List Byte := xLtree seed leaf 8 0 ends

/-- Up an authentication path from height k. -/
def xClimb (seed : List Byte) : Nat → Nat → List Byte → List (List Byte) → List Byte
  | _, _, node, [] => node
  | i, k, node, a :: as =>
    let x : XAddr := ⟨2, 0, k, i / 2, 0⟩
    xClimb seed (i / 2) (k + 1) (if i % 2 = 0 then xNode seed x node a else xNode seed x a node) as

/-- n pieces of 32 bytes. -/
def xSplit : Nat → List Byte → List (List Byte)
  | 0, _ => []
  | n + 1, bs => slice bs 0 32 :: xSplit n (bs.drop 32)

/-- The message digest that is signed. -/
def xMsg (r root : List Byte) (idx : Nat) (m : List Byte) : List Byte := xHash 2 (r ++ root ++ beBytes 32 idx) m

/-- A 2,820-byte signature verifies over a message under a public key: root, then PUB_SEED. -/
def xmssVerify (key msg sig : List Byte) : Bool :=
  let root := key.take 32
  let seed := slice key 32 32
  let idx := beNat (sig.take 4)
  let d := xDigits (xMsg (slice sig 4 32) root idx msg)
  let ends := ((xSplit 67 (sig.drop 36)).zip (d.zip (List.range 67))).map fun p =>
    xChain seed idx p.2.2 (15 - p.2.1) p.2.1 p.1
  sig.length == 2820 && xClimb seed idx 0 (xLeaf seed idx ends) (xSplit 20 (sig.drop 2180)) == root

/-- The levels above a row of nodes, up to n of them: each level's nodes, lowest first. -/
def xLevels (seed : List Byte) : Nat → Nat → List (List Byte) → Nat → List (List (List Byte))
  | 0, _, xs, _ => [xs]
  | n + 1, k, xs, first => xs :: xLevels seed n (k + 1) (xPairs seed (fun i => ⟨2, 0, k, first / 2 + i, 0⟩) 0 xs) (first / 2)

/-- Start of chain i of a leaf. -/
def xSecret (sk seed : List Byte) (leaf i : Nat) : List Byte := xHash 4 sk (seed ++ (XAddr.bytes ⟨0, leaf, i, 0, 0⟩))

/-- The leaf a secret key gives. -/
def xSecretLeaf (sk seed : List Byte) (leaf : Nat) : List Byte :=
  xLeaf seed leaf ((List.range 67).map fun i => xChain seed leaf i 15 0 (xSecret sk seed leaf i))

/-- The authentication path in levels of nodes whose first nodes have index `first` at each level. -/
def xPath : List (List (List Byte)) → Nat → Nat → List (List Byte)
  | [], _, _ => []
  | l :: ls, first, i => (l.getD ((i ^^^ 1) - first) []) :: xPath ls (first / 2) (i / 2)

/-- The root over the 1,024 nodes of level 10. -/
def xCacheRoot (seed : List Byte) (nodes : List (List Byte)) : List Byte :=
  ((xLevels seed 10 10 nodes 0).getD 10 []).headD []

/-- The signature of a message with leaf idx, its block's subtree computed and level 10 given. -/
def xmssSign (sk prf seed root : List Byte) (cache : List (List Byte)) (idx : Nat) (msg : List Byte) : List Byte :=
  let r := xHash 3 prf (beBytes 32 idx)
  let d := xDigits (xMsg r root idx msg)
  let chains := (d.zip (List.range 67)).map fun p => xChain seed idx p.2 p.1 0 (xSecret sk seed idx p.2)
  let first := idx / 1024 * 1024
  let low := xLevels seed 9 0 ((List.range 1024).map fun i => xSecretLeaf sk seed (first + i)) first
  let high := xLevels seed 9 10 cache 0
  beBytes 4 idx ++ r ++ chains.flatten ++ (xPath low first idx).flatten ++ (xPath high 0 (idx / 1024)).flatten

end Sys2Proof.Machine
end

