-- ==== Sys2Proof/Machine/Security.lean ====
section
/-!
DEFINITION. The Registrar (20): OTP programming, images and their verification, the ROM's boot, applying images, measurements,
attestation, the Assembly-link keys. LIFECYCLE_ADVANCE and the security reset stand in Reset.lean.
-/
namespace Sys2Proof.Machine

/-! ## OTP and lifecycle (R413, R414) -/

/-- Program one OTP bit: copies 1, 2, 3, then the loaded value. -/
def State.otpProgram (s : State) (byte bit : Nat) : State :=
  let set (m : SMap Byte) : SMap Byte :=
    SMap.put (fun _ => 0) m byte (SMap.get (fun _ => 0) m byte ||| BitVec.ofNat 8 (2 ^ bit))
  { s with rst := { s.rst with otp0 := set s.rst.otp0, otp1 := set s.rst.otp1, otp2 := set s.rst.otp2, opt := set s.rst.opt } }

def State.lifecycle (s : State) : Nat := s.optByte 96 % 16

def State.isDevelop (s : State) : Bool := s.lifecycle == 0
def State.isReturn (s : State) : Bool := s.lifecycle / 2 == 1
def State.isDead (s : State) : Bool := 4 ≤ s.lifecycle

/-- JTAG instructions (Table SEC-2). -/
inductive Jtag where
  | boundaryScan
  | idcode
  | bypass
  deriving DecidableEq, Repr

/-- The JTAG instructions a lifecycle state accepts; with none, TDO is released (Table SEC-2; 21 Table PIN-5). -/
def State.jtag (s : State) : List Jtag :=
  if s.isDead then [] else if s.isDevelop || s.isReturn then [.boundaryScan, .idcode, .bypass] else [.idcode, .bypass]

/-- Registrar and engine debug is open (Table SEC-2, R417). -/
def State.debugOpen (s : State) : Bool := s.flag Reg.secStatus 29

/-! ## Measurements (R423) -/

/-- Register Mm. -/
def State.meas (s : State) (m : Nat) : List Byte :=
  ((List.range 8).map fun w => leBytes 4 (s.reg (Reg.secMeas m w)).toNat).flatten

/-- Extend Mm by x. -/
def State.extend (s : State) (m : Nat) (x : List Byte) : State :=
  let h := shake256 (s.meas m ++ x) 32
  (List.range 8).foldl (fun s w => s.setReg (Reg.secMeas m w) (word (leAt h (4 * w) 4))) s

/-! ## Images (Table SEC-3, R415) -/

structure ImageHead where
  type : Nat
  root : Nat
  comp : Bool
  bound : Bool
  len : Nat
  rawLen : Nat
  dest : Nat
  serial : Nat
  svn : Nat

def imageHead (bs : List Byte) : ImageHead :=
  ⟨leAt bs 5 1, leAt bs 6 1, (leAt bs 7 1).testBit 0, (leAt bs 7 1).testBit 1, leAt bs 8 4, leAt bs 12 4, leAt bs 16 8,
    leAt bs 24 8, leAt bs 32 2⟩

/-- First byte and end of the stage (R416). -/
def State.stageRange (s : State) : Nat × Nat := (s.stageAddr 0, s.stageAddr 0 + 2 ^ 27)

/-- The limits of Table SEC-4; types 1 to 4 but for the ROM, which takes type 0 alone (R418, R419). -/
def State.imageLimits (s : State) (h : ImageHead) (rom : Bool) : Bool :=
  if rom then h.type == 0 && h.rawLen ≤ 262144 && h.dest == 0
  else match h.type with
    | 1 => h.dest % 8 == 0 && h.dest + h.rawLen ≤ 0x80000
    | 2 => h.dest % 8 == 0 && h.dest + h.rawLen ≤ 0x10000
    | 3 =>
      let g := match memGroup h.dest, memGroup (h.dest + max 1 h.rawLen - 1) with
        | some (a, _), some (b, _) => a == b && (a == 1 || a == 3)
        | _, _ => false
      g && h.rawLen ≤ 2 ^ 24 && (h.dest + h.rawLen ≤ s.stageRange.1 || s.stageRange.2 ≤ h.dest)
    | 4 => h.len == 0 && h.rawLen == 0 && h.bound && h.root == 0
    | _ => false

/-- Check 1 of R415. -/
def State.imageFormat (s : State) (bs : List Byte) (rom : Bool) : Bool :=
  let h := imageHead bs
  leAt bs 0 4 == 0x474D4953 && leAt bs 4 1 == 1 && ((bs.drop 34).take 30).all (· == 0) && h.svn ≤ 64
    && (h.comp || h.rawLen == h.len) && s.imageLimits h rom

/-- MIN_SVN: the lowest clear bit of SVN_MIN (Table SEC-1). -/
def State.minSvn (s : State) : Nat :=
  ((List.range 64).find? fun k => !(s.optByte (106 + k / 8)).testBit (k % 8)).getD 64

/-- ROOT names a usable root (check 3 of R415). -/
def State.rootUsable (s : State) (h : ImageHead) : Bool :=
  if h.root = 0 then !(s.optByte 97).testBit 1 || h.type == 0 || h.type == 4
  else h.root == 1 && (s.optByte 97).testBit 0

/-- The digest d of an image (R415). -/
def imageDigest (bs : List Byte) : List Byte := shake256 (bs.take (128 + (imageHead bs).len)) 32

/-- Verify a whole image (R415): status of Table SEC-6, and its payload as it takes effect. -/
def State.imageCheck (s : State) (bs : List Byte) (rom : Bool) : Nat × List Byte :=
  let h := imageHead bs
  let key := slice bs 64 64
  let body := (bs.drop 128).take h.len
  if !s.imageFormat bs rom then (1, [])
  else if h.bound && h.serial != s.serial then (1, [])
  else if !s.rootUsable h then (2, [])
  else if shake256 key 32 != (List.range 32).map (fun i => BitVec.ofNat 8 (s.optByte ((if h.root = 0 then 32 else 64) + i)))
    then (3, [])
  else if h.svn < s.minSvn then (4, [])
  else if !xmssVerify key (bs.take (128 + h.len)) (slice bs (128 + h.len) 2820) then (5, [])
  else if h.comp then
    let e := satDecode body h.rawLen
    if e.err.isNone && e.out.length == h.rawLen then (0, e.out) else (6, [])
  else (0, body)

/-! ## Boot (R418, R419) -/

/-- The firmware of an image that passed starts (R418 step 5). -/
def State.firmwareStart (s : State) (bs payload : List Byte) : State :=
  let s := (s.extend 0 (imageDigest bs)).bump (Reg.secCnt 0)
  { s with sec := { s.sec with firmware := payload } }.setFlag Reg.secStatus 31

/-- A QSPI copy that fails latches its status. -/
def State.bootFail (s : State) (status : Nat) : State := (s.setFld Reg.secStatus 23 16 status).bump (Reg.secCnt 1)

/-- The ROM's steps at the Registrar's release (R418, R419), with what the flash holds at 0x00_0000 and at 0x40_0000. -/
def State.romBoot (s : State) (copyA copyB : List Byte) : State :=
  let s := s.extend 4 ((List.range 128).map fun k => BitVec.ofNat 8 (s.optByte k))
  let s := if s.isDevelop then s.setFlag Reg.secStatus 29 else s
  if s.isDead then { s with sec := { s.sec with romHalted := true } }
  else
    let a := s.imageCheck copyA true
    if a.1 = 0 then s.firmwareStart copyA a.2
    else
      let s := s.bootFail a.1
      let b := s.imageCheck copyB true
      if b.1 = 0 then s.firmwareStart copyB b.2
      else ((s.bootFail b.1).setFlag Reg.secStatus 30).event 12

/-! ## Results (R426) -/

/-- KIND and DATA1 of an image's source. -/
def ImageSrc.kind : ImageSrc → Nat × Nat
  | .buffer off => (0, off)
  | .stage stream _ _ => (1, stream)

/-- An image ends with a status: its buffer goes back, its result is delivered. -/
def State.imageEnd (s : State) (src : ImageSrc) (type svn status : Nat) (digest : List Byte) : State :=
  let s := match src with
    | .buffer off => s.returnBuffer 0 off (if status = 0 then 0 else 1)
    | .stage _ _ _ => s
  let s := if status = 0 || status = 8 then s else (s.bump (Reg.secCnt 1)).event 12
  s.secResult status src.kind.1 (type % 16) src.kind.2 svn digest

/-- An image has taken effect: measurement, event, result (R422, R423). -/
def State.imageLoaded (s : State) (src : ImageSrc) (type svn : Nat) (digest : List Byte) : State :=
  ((s.extend (if type = 1 then 1 else if type = 2 then 2 else 3) digest).event 13).imageEnd src type svn 0 digest

/-! ## Verification (R415 to R417, R420, R421) -/

/-- Where an image's bytes stand and how many there can be. -/
def State.imagePlace (s : State) : ImageSrc → Nat × Nat
  | .buffer off => (winAddr off + 64, s.bufLen off - 64)
  | .stage _ slot total => (s.stageAddr slot, total)

/-- The Registrar's own Satchel job (R416): counted, its output in the stage, its result delivered and acknowledged at once.
Its TAG is free among those of R416. -/
def State.registrarDecode (s : State) (bs : List Byte) : State :=
  let h := imageHead bs
  let e := satDecode ((bs.drop 128).take h.len) h.rawLen
  let st := (e.err.map Prod.fst).getD 0
  let wr := s.satWrite (s.stageAddr 4) e.out
  let err := e.err.getD (0, 0, 0)
  let r : SatResult := { status := st, used := e.used, written := e.out.length, blocks := e.blocks
                         data4 := if st = 5 then 0 else err.2.1, data5 := if st = 5 then 0 else err.2.2 }
  let j : SatJob := { decompress := true, blockLog := 16, level := 4, tag := 0xFF00 + (Config.freeWord s.draws 0).toNat % 256
                      src := 0, dst := 0, srcLen := 0, dstLen := 0 }
  ((wr.1.satCount r).satReport j r).drawn.clrFlag (Reg.hstMbox0w 1) 31

/-- A verified image: a pending one of its type, or its effect at once (R417, R421). -/
def State.imageVerified (s : State) (src : ImageSrc) (bs payload : List Byte) : State :=
  let h := imageHead bs
  let d := imageDigest bs
  let p : PendImage := ⟨src, h.type, h.dest, payload, h.svn, d⟩
  let replace (s : State) (o : Option PendImage) : State := match o with
    | some q => s.imageEnd q.src q.type q.svn 8 q.digest
    | none => s
  let s := s.bump (Reg.secCnt 0)
  if h.type = 1 then
    let s := replace s s.sec.kernel
    { s with sec := { s.sec with kernel := some p } }
  else if h.type = 2 then
    let s := replace s s.sec.program
    { s with sec := { s.sec with program := some p } }
  else if h.type = 3 then
    let w := s.devWrite 0 h.dest payload
    if w.2 then w.1.imageLoaded src 3 h.svn d else w.1.imageEnd src 3 h.svn 9 d
  else if s.isReturn then (s.setFlag Reg.secStatus 29).imageLoaded src 4 h.svn d
  else s.imageEnd src 4 h.svn 1 d

/-- IMAGE_VERIFICATION (the Registrar stalls while it holds a result, 15 R343; R415 to R417, R419 to R421): the oldest complete image; its decompression waits while HST_MBOX1 holds
a result of another (R362, R416). Where the image is too short to have a field, its part of the result is free. -/
def execImageVerification (s : State) : Out :=
  let rom := s.flag Reg.secStatus 30 && !s.flag Reg.secStatus 31
  match s.sec.complete with
  | [] => .next s
  | src :: rest =>
    let (a, room) := s.imagePlace src
    if !(s.registrarRuns || (s.up 36 && rom)) || s.mboxStalled 0 || !s.memReady 0 a room then .next s else
    let head := s.devRead 0 a (min 128 room)
    let h := imageHead head.2.1
    let size := 2948 + h.len
    let free (i : Nat) : Nat := (Config.freeWord s.draws i).toNat
    let freeDigest : List Byte := leBytes 4 (free 2) ++ leBytes 4 (free 3) ++ leBytes 4 (free 4)
    let done (s : State) : State := { s with sec := { s.sec with complete := rest } }
    if !head.2.2 then .next ((done head.1).drawn.imageEnd src (free 0) (free 1 % 65536) 9 freeDigest)
    else if room < size then
      .next ((done head.1).drawn.imageEnd src (if room < 128 then free 0 else h.type)
        (if room < 128 then free 1 % 65536 else h.svn) 1 freeDigest)
    else
      let all := head.1.devRead 0 a size
      let bs := all.2.1
      let c := all.1.imageCheck bs rom
      if !all.2.2 then .next ((done all.1).drawn.imageEnd src h.type h.svn 9 freeDigest)
      else
        let decodes := h.comp && (c.1 = 0 || c.1 = 6)
        if decodes && (!s.live 28 || s.flag (Reg.hstMbox0w 1) 31) then .next s else
        let s := done all.1
        let s := if decodes then s.registrarDecode bs else s
        if c.1 != 0 then .next (s.imageEnd src h.type h.svn c.1 (imageDigest bs))
        else if rom then .next ((s.firmwareStart bs c.2).imageEnd src 0 h.svn 0 (imageDigest bs))
        else .next (s.imageVerified src bs c.2)

/-- SEC_IMG_POST: a queue of 4 (R420). -/
def State.imgPostWrite (s : State) (v : Word) : State :=
  let n := (s.sec.complete.filter fun x => match x with | .buffer _ => true | _ => false).length
  if 4 ≤ n + s.posting .secImg then s else s.post .secImg (v.toNat &&& 0x3FFFFFC0)

def execSecImgPost (b : BusWrite) (s : State) : Out := .next (s.busWrite Reg.secImgPost b State.imgPostWrite)

/-- A registered image buffer is a complete image. -/
def State.imgAccept (s : State) (x : Nat) : State :=
  { s with sec := { s.sec with complete := s.sec.complete ++ [.buffer x] } }

/-! ## Applying (R422) -/

/-- The words that bytes from a byte offset on (a multiple of 4) leave in a word memory whose first word has key `base`. -/
def storeCode (m : SMap Word) (base off : Nat) (bs : List Byte) : SMap Word :=
  let n := (bs.length + 3) / 4
  SMap.store (fun _ => 0) m (base + off / 4) ((List.range n).map fun i =>
    let part := (bs.drop (4 * i)).take 4
    let old := leBytes 4 (SMap.get (fun _ => (0 : Word)) m (base + off / 4 + i)).toNat
    word (leNat (part ++ old.drop part.length)))

/-- A pending KERNEL image goes into the twelve code regions, those in reset apart, unless the Registrar stalls (15 R343). -/
def State.kernelApply (s : State) : State :=
  match s.sec.kernel with
  | none => s
  | some p =>
    if !s.registrarRuns || s.mboxStalled 0 then s else
    let s := { s with sec := { s.sec with kernel := none } }
    let s := (List.range 12).foldl (fun s h =>
      if !s.up (6 + h) then s else
      { s.noteSram 3 (393216 * h + p.dest / 8) (393216 * h + (p.dest + p.code.length + 7) / 8) with syn := { s.syn with
          mem := storeCode s.syn.mem (786432 * h) p.dest p.code
          bad := s.syn.bad.filter fun w => w < 393216 * h + p.dest / 8 || 393216 * h + (p.dest + p.code.length + 7) / 8 ≤ w } }) s
    s.imageLoaded p.src 1 p.svn p.digest

/-- FRAME_PROGRAM_APPLY (R422): in slots 432 to 445, once no KERNEL image is pending, while the sequencer waits in FLIP, is
stopped or is halted. -/
def execFrameProgramApply (s : State) : Out :=
  match s.sec.program with
  | none => .next s
  | some p =>
    let window := s.inFrame && 432 ≤ s.seq.slot && s.seq.slot < 446
    let idle := s.seq.st == .inFlip || s.seq.st == .stopped || s.seq.st == .halted
    if !s.registrarRuns || s.mboxStalled 0 || !s.up 18 || s.sec.kernel.isSome || !window || !idle then .next s else
    let s := { s with sec := { s.sec with program := none } }
    let s := { s.noteSram 4 (p.dest / 8) ((p.dest + p.code.length + 7) / 8) with seq := { s.seq with
      prog := storeCode s.seq.prog 0 p.dest p.code
      bad := s.seq.bad.filter fun w => w < p.dest / 8 || (p.dest + p.code.length + 7) / 8 ≤ w } }
    .next (s.imageLoaded p.src 2 p.svn p.digest)

/-! ## Extends (R423) -/

/-- A write of SEC_EXTEND. -/
def State.extendWrite (s : State) (v : Word) : State :=
  if v.getLsbD 0 then s.extend 5 (((List.range 8).map fun i => leBytes 4 (s.reg (Reg.secExtendData i)).toNat).flatten) else s

/-- SEC_EXTEND_GO (R423). -/
def execSecExtendGo (b : BusWrite) (s : State) : Out := .next (s.busWrite Reg.secExtend b State.extendWrite)

/-- The 32 entries of a Proctor as bytes. -/
def State.proctorBytes (s : State) (t : Nat) : List Byte :=
  ((List.range 32).map fun e =>
    leBytes 4 (s.reg (Reg.prcE0 t e)).toNat ++ leBytes 4 (s.reg (Reg.prcE1 t e)).toNat
      ++ leBytes 4 (s.reg (Reg.prcE2 t e)).toNat ++ leBytes 4 (s.reg (Reg.prcE3 t e)).toNat).flatten

/-- A write of PRC_LOCK of a target (14 R328; R423; R80). -/
def State.prcLockWrite (s : State) (t : Nat) (v : Word) : State :=
  let s := s.store (Reg.prcLock t) v
  let s := if v.getLsbD 31 then s.clrRegs (Reg.prcViolCnt t) 1 else s
  if v.getLsbD 0 && s.up 36 then s.extend 4 (shake256 (s.proctorBytes t) 32) else s

/-- PRC_LOCK_WRITE (R423, 14 R328). -/
def execPrcLockWrite (target : Fin 23) (b : BusWrite) (s : State) : Out :=
  .next (s.busWrite (Reg.prcLock target.val) b fun s v => s.prcLockWrite target.val v)

/-- PRC_LOCK_CNT_CLR (R80). -/
def execPrcLockCntClr (target : Fin 23) (b : BusWrite) (s : State) : Out :=
  .next (s.busWrite (Reg.prcLock target.val) b fun s v => s.prcLockWrite target.val v)

/-! ## Attestation (R424, R425) -/

/-- The attestation key's parts: SK_SEED, SK_PRF, PUB_SEED (R413). -/
def attPart (c : Nat) : List Byte := shake256 (leBytes 32 Config.secret.toNat ++ leBytes 1 c) 32

def attRoot : List Byte := leBytes 32 Config.attRoot.toNat

/-- A leaf to sign with: none with the status that ends the report. -/
def State.takeLeaf (s : State) (cache : List (List Byte)) : State × Option Nat × Nat :=
  let next := match s.sec.leaf with
    | some (n, e) => if n < e then some (n, e) else none
    | none => none
  match next with
  | some (n, e) => ({ s with sec := { s.sec with leaf := some (n + 1, e) } }.setReg Reg.secLeaf
      (word (2 ^ 31 + (n + 1) % 2 ^ 20)), some n, 0)
  | none =>
    if s.sec.treeBad then (s, none, 12) else
    match (List.range 1024).find? fun k => !(s.optByte (128 + k / 8)).testBit (k % 8) with
    | none => (s, none, 11)
    | some k =>
      if !s.sec.treeChecked && xCacheRoot (attPart 0x55) cache != attRoot then
        ({ s with sec := { s.sec with treeBad := true } }, none, 12)
      else
        let s := (s.otpProgram (128 + k / 8) (k % 8))
        let s := { s with sec := { s.sec with treeChecked := true, leaf := some (1024 * k + 1, 1024 * k + 1024) } }
        let s := if s.blocksFree ≤ 16 then s.event 14 else s
        (s.setReg Reg.secLeaf (word (2 ^ 31 + (1024 * k + 1) % 2 ^ 20)), some (1024 * k), 0)

/-- Bytes 64 to 327 of a report with a leaf (Table SEC-5). -/
def State.reportMessage (s : State) (leaf : Nat) : List Byte :=
  leBytes 4 0x54524153 ++ leBytes 1 1 ++ leBytes 1 s.lifecycle ++ [0, 0] ++ leBytes 8 s.serial
    ++ leBytes 8 (s.seq.frame % 2 ^ 48) ++ leBytes 8 s.wallNs
    ++ ((List.range 8).map fun i => leBytes 4 (s.reg (Reg.secAttNonce i)).toNat).flatten
    ++ ((List.range 6).map s.meas).flatten ++ leBytes 4 leaf ++ [0, 0, 0, 0]

/-- A report that ends without a signature. -/
def State.reportFail (s : State) (x status : Nat) : State :=
  let f (i : Nat) : Nat := (Config.freeWord s.draws i).toNat
  let s := s.drawn.returnBuffer 0 x 1
  let s := if status = 10 then s else s.event 12
  s.secResult status 2 0 x (f 0) (leBytes 4 (f 1) ++ leBytes 4 (f 2) ++ leBytes 4 (f 3))

/-- MEASUREMENT_REPORT (R424, R425; the Registrar stalls while it holds a result, 15 R343): the oldest posted report, with the tree cache the flash holds. -/
def execMeasurementReport (treeCache : List Byte) (s : State) : Out :=
  match s.sec.reports with
  | [] => .next s
  | x :: xs =>
    if !s.registrarRuns || s.mboxStalled 0 || !s.memReady 0 (winAddr x) 3200 then .next s else
    let s := { s with sec := { s.sec with reports := xs } }
    if s.isReturn || s.isDead || s.bufLen x < 3148 then .next (s.reportFail x 10) else
    let cache := xSplit 1024 treeCache
    match s.takeLeaf cache with
    | (s, none, status) => .next (s.reportFail x status)
    | (s, some leaf, _) =>
      let msg := s.reportMessage leaf
      let sig := xmssSign (attPart 0x53) (attPart 0x50) (attPart 0x55) attRoot cache leaf msg
      let s := ((s.returnFilled 0 x 0 (msg ++ sig)).bump (Reg.secCnt 3)).event 15
      .next (s.secResult 0 2 0 x leaf (shake256 msg 32))

/-- SEC_ATT_POST: a queue of 4 (R425). -/
def State.attPostWrite (s : State) (v : Word) : State :=
  if 4 ≤ s.sec.reports.length + s.posting .secAtt then s else s.post .secAtt (v.toNat &&& 0x3FFFFFC0)

def execSecAttPost (b : BusWrite) (s : State) : Out := .next (s.busWrite Reg.secAttPost b State.attPostWrite)

/-- A registered report buffer. -/
def State.attAccept (s : State) (x : Nat) : State := { s with sec := { s.sec with reports := s.sec.reports ++ [x] } }

/-! ## Keys and counters (R427, R80) -/

/-- A write of SEC_ASMKEY_DATAn, by master 0 or 16. -/
def State.asmkeyDataWrite (s : State) (m n : Nat) (v : Word) : State :=
  if m = 0 || m = 16 then s.setReg (Reg.secAsmkeyData n) v else s

/-- A write of SEC_ASMKEY_CTRL, by master 0 or 16 (R427). -/
def State.asmkeyWrite (s : State) (m : Nat) (v : Word) : State :=
  if m != 0 && m != 16 then s else
  let s := s.store Reg.secAsmkeyCtrl v
  if !v.getLsbD 31 then s else
  let key : BitVec 256 := BitVec.ofNat 256 (leNat (((List.range 8).map fun i =>
    leBytes 4 (s.reg (Reg.secAsmkeyData i)).toNat).flatten))
  let slot := s.fld Reg.secAsmkeyCtrl 0 0
  let s := { s with cyc := { s.cyc with keys := some (s.cyc.keys.getD (s.sec.key0, s.sec.key1)) } }
  let s := if slot = 0 then { s with sec := { s.sec with key0 := some key } } else { s with sec := { s.sec with key1 := some key } }
  (s.setFlag Reg.secAsmkeyCtrl (8 + slot)).clrRegs (Reg.secAsmkeyData 0) 8

/-- ASMKEY_COMMIT (R427). -/
def execAsmkeyCommit (b : BusWrite) (s : State) : Out :=
  .next (s.busWrite Reg.secAsmkeyCtrl b fun s v => s.asmkeyWrite b.master.val v)

/-- A write of SEC_CNT_CLR. -/
def State.secCntClrWrite (s : State) (v : Word) : State := if v.getLsbD 0 then s.clrRegs (Reg.secCnt 0) 4 else s

/-- SEC_CNT_CLR (R80). -/
def execSecCntClr (b : BusWrite) (s : State) : Out := .next (s.busWrite Reg.secCntClr b State.secCntClrWrite)

end Sys2Proof.Machine
end

