-- ==== Sys2Proof/Machine/Thermal.lean ====
section
/-!
DEFINITION. Power and thermal management (19): the temperature sources, the ask, the enforcement stages and the trip, and the
core voltage loop. Times are in cc: 1 µs = 1,600 cc.
-/
namespace Sys2Proof.Machine

/-- Cycles of n µs. -/
def usCc (n : Nat) : Nat := 1600 * n
/-- Cycles of n ms. -/
def msCc (n : Nat) : Nat := 1600000 * n

/-! ## Sources (R406 to R408) -/

def State.source (s : State) (k : Nat) : ThmSource := SMap.get (fun _ => {}) s.thm.sources k

def State.setSource (s : State) (k : Nat) (v : ThmSource) : State :=
  { s with thm := { s.thm with sources := SMap.put (fun _ => {}) s.thm.sources k v } }

/-- The thresholds, times and rates a tick takes: what the registers held when its cycle began (R412). -/
def State.thmLatch (s : State) : State :=
  { s with thm := { s.thm with lim :=
    { ctrl := s.regBefore Reg.thmCtrl, timing := s.regBefore Reg.thmTiming, die := s.regBefore Reg.thmDieLim
      tile := s.regBefore Reg.thmTileLim, rate := s.regBefore Reg.thmRate } } }

/-- Threshold in force of a source's kind at a byte of its limit register, in 1/16 °C. -/
def State.thmLimit (s : State) (k lsb : Nat) : Int :=
  16 * (bits (if k < 32 then s.thm.lim.die else s.thm.lim.tile).toNat (lsb + 7) lsb : Int)

def State.sourceBad (s : State) (k : Nat) : Bool :=
  if k < 32 then s.flag Reg.thmBad0 k else s.flag Reg.thmBad1 (k - 32)

/-- A source reports: a sensor that has been converted or is bad; a tile that is LINKED (R407). -/
def State.sourceIn (s : State) (k : Nat) : Bool :=
  if k < 32 then (s.source k).seen || s.sourceBad k else (s.tile (k - 32)).st == .linked

/-- Last reading of a source. -/
def State.sourceT (s : State) (k : Nat) : Int :=
  if k < 32 then (s.source k).last else sext 16 (s.fld (Reg.tlkTemp (k - 32)) 15 0)

/-- Its value: a bad source reads as its TRIP threshold (R407). -/
def State.sourceValue (s : State) (k : Nat) : Int := if s.sourceBad k then s.thmLimit k 16 else s.sourceT k

def State.sourceValid (s : State) (k : Nat) : Bool := s.sourceIn k && !s.sourceBad k

def allSources : List Nat := List.range 48

/-- Bad sources that take part. -/
def State.badSources (s : State) : List Nat := allSources.filter fun k => s.sourceIn k && s.sourceBad k

/-- A sensor is converted at 10 kHz (R406). -/
def State.sensorFast (s : State) (k : Nat) : Bool := k < 32 && (s.source k).seen && s.thmLimit k 0 - 128 ≤ s.sourceT k

/-- An outcome out of range (R407). -/
def outOfRange (t : Int) : Bool := t < -640 || 2400 < t

/-- Set a source's bad bit. -/
def State.markBad (s : State) (k : Nat) : State :=
  if s.sourceBad k then s
  else (if k < 32 then s.setFlag Reg.thmBad0 k else s.setFlag Reg.thmBad1 (k - 32)).event 5

/-- THM_DIE, THM_HOT and THM_SENSORn as they read (R406, R407); the rounding of the mean, a mean of no sensor and the choice
among equally hot sources are free (DEDUCED, log entry 65). -/
def State.thmRefresh (s : State) : State :=
  let dies := (List.range 32).filter s.sourceValid
  let sum := dies.foldl (fun (a : Int) k => a + s.sourceT k) 0
  let mean : Int :=
    if dies.isEmpty then (Config.freeWord s.draws 0).toNat
    else if sum % (dies.length : Int) = 0 then sum / dies.length
    else sum / dies.length + bnat (Config.freeBit s.draws 1)
  let ins := allSources.filter s.sourceIn
  let top := ins.foldl (fun (a : Int) k => max a (s.sourceValue k)) (-32768)
  let hot := ins.filter fun k => s.sourceValue k == top
  let pick := hot.getD ((Config.freeWord s.draws 2).toNat % max 1 hot.length) 0
  let s := if dies.isEmpty && !(List.range 32).any s.sourceIn then s else s.setReg Reg.thmDie (word (toBits 16 mean))
  let s := if hot.isEmpty then s else s.setReg Reg.thmHot (word (pick * 2 ^ 16 + toBits 16 top))
  let s := allSources.foldl (fun s k =>
    s.setReg (Reg.thmSensor k) (word (bnat (s.sourceBad k) * 2 ^ 31 + bnat (s.sensorFast k) * 2 ^ 30
      + toBits 16 (s.sourceValue k)))) s
  (s.setReg Reg.thmStatus (word (setBits (s.reg Reg.thmStatus).toNat 25 20
    (allSources.filter s.sourceBad).length))).drawn

/-- RET_STATUS (12 R275): the temperature, which THM takes and judges as it arrives (R406, R407), and the error counts. -/
def execRetStatus (tile : Fin 16) (s : State) : Out :=
  let n := tile.val
  match if s.live 23 then s.takeReturn n 0x71 else none with
  | none => .next s
  | some (w, s) =>
    let s := s.setReg (Reg.tlkTemp n) (word (2 ^ 31 + bits w 23 8))
    let t := s.tile n
    let s := s.setTile n { t with statusAt := some s.now, lock3Seen := t.lock3Seen || w.testBit 33 }
    let s := s.clrFlag Reg.finStatus n
    let s := (s.bump (Reg.tlkRowerr n) (bits w 55 48)).bump (Reg.tlkInsdrop n) (bits w 63 56)
    if !s.live 30 || t.st != .linked then .next s
    else .next (if outOfRange (s.sourceT (32 + n)) then s.markBad (32 + n) else s).thmRefresh

/-- SENSOR_CONVERSION (R406, R407): sensor k's raw code and reading, none if the conversion does not complete. -/
def execSensorConversion (sensor : Fin 32) (raw : Word) (temp : Option (BitVec 16)) (s : State) : Out :=
  let k := sensor.val
  let c := s.source k
  let due := match c.at_ with
    | none => true
    | some t => decide (t + (if s.sensorFast k then usCc 100 else msCc 1) ≤ s.now)
  if !s.live 30 || !due then .next s else
  match temp with
  | none => .next (((s.setSource k { c with at_ := some s.now }).markBad k).thmRefresh)
  | some t =>
    let same := if c.seen && c.raw == raw then c.same + 1 else 0
    let s := s.setSource k { c with seen := true, raw := raw, same := same, last := t.toInt, at_ := some s.now }
    .next ((if outOfRange t.toInt || 1024 ≤ same then s.markBad k else s).thmRefresh)

/-- A write of THM_BAD0 or THM_BAD1: a source whose bit clears is judged afresh (R407). -/
def State.thmBadWrite (s : State) (tiles : Bool) (v : Word) : State :=
  let off := if tiles then Reg.thmBad1 else Reg.thmBad0
  let was := s.reg off
  let s := s.store off v
  let s := (List.range 32).foldl (fun s b =>
    if was.getLsbD b && !s.flag off b && !tiles then s.setSource b { s.source b with same := 0 }
    else s) s
  s.thmRefresh

/-- THM_BAD_CLEAR (R407). -/
def execThmBadClear (tiles : Bool) (b : BusWrite) (s : State) : Out :=
  .next (s.busWrite (if tiles then Reg.thmBad1 else Reg.thmBad0) b fun s v => s.thmBadWrite tiles v)

/-- The rate condition stands (R408). -/
def State.rateStands (s : State) : Bool := allSources.any fun k => s.sourceIn k && 20 ≤ (s.source k).passes

/-- RATE_TEST (R408): every 100 ms. -/
def execRateTest (s : State) : Out :=
  if !s.live 30 || s.now < s.thm.rateAt + msCc 100 then .next s else
  let s := { s with thm := { s.thm with rateAt := s.now } }
  let rate : Int := bits s.thm.lim.rate.toNat 15 8
  let s := allSources.foldl (fun s k =>
    let c := s.source k
    if !s.sourceValid k then s.setSource k { c with hist := [], passes := 0 }
    else
      let t := s.sourceT k
      let pass : Bool := match c.hist[9]? with | some old => decide (old + rate ≤ t) | none => false
      s.setSource k { c with hist := (t :: c.hist).take 10, passes := cond pass (c.passes + 1) 0 }) s
  .next (s.setFld Reg.thmStatus 29 29 (bnat s.rateStands))

/-! ## The ask, the stages and the trip (R409 to R411) -/

/-- Some source that takes part is at the threshold at a byte of its limits. -/
def State.anyAt (s : State) (lsb : Nat) : Bool :=
  allSources.any fun k => s.sourceIn k && s.thmLimit k lsb ≤ s.sourceValue k

/-- The stage in force, with THERM_DIV (R410). -/
def State.setStage (s : State) (n : Nat) : State :=
  (s.setFld Reg.thmStatus 27 26 n).setFld Reg.clkEngine 10 8 (4 + n)

def State.thmHyst (s : State) : Int := bits s.thm.lim.rate.toNat 7 0

/-- The ask at a tick (R409). -/
def State.askTick (s : State) : State :=
  let cause := s.anyAt 0 || s.rateStands || !s.badSources.isEmpty
  let ends := !s.rateStands && s.badSources.isEmpty
    && allSources.all fun k => !s.sourceIn k || s.sourceValue k < s.thmLimit k 0 - s.thmHyst
  match s.thm.askAt with
  | none =>
    if cause then
      ({ s with thm := { s.thm with askAt := some s.now, escAt := s.now } }.setFlag Reg.thmStatus 30).event 0
    else s
  | some _ =>
    if ends then { s with thm := { s.thm with askAt := none, askEnd := s.now } }.clrFlag Reg.thmStatus 30 else s

/-- One move of the stage at a tick (R410; R405 holds it at 1 or above while AVS_STATUS.HOLD is 1). -/
def State.stageTick (s : State) : State :=
  let st := s.thmStage
  let hold := s.flag Reg.avsStatus 31
  let stood (t ms : Nat) : Bool := t + msCc ms ≤ s.now
  let quiet := s.thm.askAt.isNone && stood (max s.thm.askEnd s.thm.downAt) (max 1 (bits s.thm.lim.timing.toNat 15 0))
  let down (s : State) : State := { s with thm := { s.thm with downAt := s.now } }
  if st = 0 then
    let grace := match s.thm.askAt with | some t => stood t (bits s.thm.lim.ctrl.toNat 15 0) | none => false
    if grace || 2 ≤ s.badSources.length || hold then
      ({ s with thm := { s.thm with escAt := s.now } }.setStage 1).event 1
    else s
  else if st = 1 then
    if s.anyAt 8 || (s.thm.askAt.isSome && stood s.thm.escAt (bits s.thm.lim.timing.toNat 31 16)) then (s.setStage 2).event 2
    else if quiet && !hold then ((down s).setStage 0).event 4
    else s
  else if quiet && !s.tlk.trip then ((down s).setStage 1).event 1
  else s

def State.compFires (s : State) : Bool := (List.range 32).any fun k => (s.source k).fires

/-- More than 8 on-die sensors are bad. -/
def State.dieBad (s : State) : Bool := 8 < ((List.range 32).filter s.sourceBad).length

/-- A trip begins (R411): its effects on the tiles (R279), the flag, the event and the stage. -/
def State.tripNow (s : State) : State :=
  let s := { s with thm := { s.thm with coolAt := none, tripClr := false } }
  (((s.tlkTrip).setFlag Reg.thmStatus 31).event 3).setStage 2

/-- The trip at a tick (R411). -/
def State.tripTick (s : State) : State :=
  let cause := s.dieBad || s.compFires || allSources.any fun k => s.sourceValid k && s.thmLimit k 16 ≤ s.sourceT k
  if cause && !s.flag Reg.thmStatus 31 then s.tripNow
  else if !s.tlk.trip then s
  else
    let cool := allSources.all fun k => !s.sourceValid k || s.sourceT k < s.thmLimit k 16 - s.thmHyst
    let coolAt := if cool then some (s.thm.coolAt.getD s.now) else none
    let s := { s with thm := { s.thm with coolAt := coolAt } }
    let long := match coolAt with | some t => decide (t + msCc 1000 ≤ s.now) | none => false
    if long && !s.compFires && !s.dieBad && (!s.flag Reg.thmCtrl 30 || s.thm.tripClr) then
      ({ s with tlk := { s.tlk with trip := false } }).clrFlag Reg.thmStatus 31
    else s

/-- THM_TICK (R407, R409 to R411): every 100 µs. -/
def execThmTick (s : State) : Out :=
  if !s.live 30 || s.now < s.thm.tickAt + usCc 100 then .next s else
  let s := { s.thmLatch with thm := { s.thmLatch.thm with tickAt := s.now } }
  let s := s.eachTile fun s n =>
    let t := s.tile n
    let old := match t.statusAt with | some x => decide (x + msCc 100 < s.now) | none => true
    if t.st == .linked && (old || outOfRange (s.sourceT (32 + n))) then s.markBad (32 + n) else s
  .next (s.thmRefresh.askTick.stageTick.tripTick)

/-- COMPARATOR_FIRE (R411): a sensor's comparator against the die TRIP threshold, its reset value while THM is in reset. -/
def execComparatorFire (sensor : Fin 32) (temp : BitVec 16) (s : State) : Out :=
  let k := sensor.val
  let limit : Int := if s.up 30 then s.thmLimit 0 16 else 16 * 118
  let fires := decide (limit ≤ temp.toInt)
  let s := s.setSource k { s.source k with fires := fires }
  if !fires then .next s
  else if s.up 30 then .next (if s.flag Reg.thmStatus 31 then s else s.tripNow)
  else .next (if s.tlk.trip then s else s.tlkTrip)

/-- A write of THM_CTRL (R411). -/
def State.thmCtrlWrite (s : State) (v : Word) : State :=
  let s := s.store Reg.thmCtrl v
  if v.getLsbD 31 && s.tlk.trip then { s with thm := { s.thm with tripClr := true } } else s

/-- TRIP_CLR (R411). -/
def execTripClr (b : BusWrite) (s : State) : Out := .next (s.busWrite Reg.thmCtrl b State.thmCtrlWrite)

/-! ## The core voltage loop (R402 to R405) -/

/-- A transaction failed on its last attempt (R405). -/
def State.avsFail (s : State) : State :=
  ({ s with avs := { s.avs with started := false } }.setFlag Reg.avsStatus 31).event 7

/-- S: the least slack of the domains enabled; free where none is (DEDUCED, log entry 66). -/
def State.leastSlack (s : State) (core fabric engine : BitVec 8) : Nat :=
  let l := (if s.flag Reg.avsCpmEn 0 then [core.toNat] else []) ++ (if s.flag Reg.avsCpmEn 1 then [fabric.toNat] else [])
    ++ (if s.flag Reg.avsCpmEn 2 then [engine.toNat] else [])
  match l with
  | [] => (Config.freeWord s.draws 0).toNat % 256
  | x :: xs => xs.foldl min x

/-- One step of the loop from target v, in 0.5 mV. -/
def State.avsStepFrom (s : State) (v sl : Nat) (accepted : Bool) : State :=
  let low := s.fld Reg.avsSlack 7 0
  let high := s.fld Reg.avsSlack 15 8
  let vmax := s.fld Reg.avsLimits 27 16
  let vmin := s.fld Reg.avsLimits 11 0
  let hold := s.clk.switch.isSome
  let vh := s.fld Reg.avsVhold 11 0
  let v' := if hold then v
    else if sl < low && v < vmax then v + 5
    else if high < sl && vmin < v && (s.clk.engineDiv = 4 || vh + 5 ≤ v) then v - 5
    else v
  let s := if sl < s.fld Reg.avsSlack 23 16 then s.event 8 else s
  let top := decide (sl < low ∧ vmax ≤ v)
  let s := if top then s.event 6 else s
  let s := s.setFld Reg.avsStatus 30 30 (bnat top)
  let s := s.setFld Reg.avsStatus 23 16 sl
  let mv := v' / 2
  if s.avs.written != some mv && !accepted then s.avsFail
  else
    let s := { s with avs := { s.avs with started := true, written := some mv } }
    let s := s.setFld Reg.avsStatus 11 0 v'
    if s.clk.engineDiv = 4 then s.setFld Reg.avsVhold 11 0 v' else s

/-- AVS_STEP (R402 to R405): the least slack of each domain's monitors, the regulator's read-back voltage in mV where the loop
takes it (none if every attempt failed), and whether an attempt to write succeeded. -/
def execAvsStep (core fabric engine : BitVec 8) (readBack : Option (BitVec 16)) (accepted : Bool) (s : State) : Out :=
  if !s.live 31 || !s.clk.rootStable || !s.flag Reg.avsCtrl 0 || s.flag Reg.avsStatus 31
      || s.now < s.avs.stepAt + usCc 100 then .next s
  else
    let s := { s with avs := { s.avs with stepAt := s.now } }
    let sl := s.leastSlack core fabric engine
    if s.avs.started then .next (s.avsStepFrom (s.fld Reg.avsStatus 11 0) sl accepted).drawn
    else
      match readBack with
      | none => .next s.avsFail
      | some mv => .next (s.avsStepFrom (2 * mv.toNat / 5 * 5) sl accepted).drawn

/-- A write of AVS_CTRL: RESUME clears HOLD, and the loop restarts from the read-back voltage (R405); so it does when EN is
set again. -/
def State.avsCtrlWrite (s : State) (v : Word) : State :=
  let s := s.store Reg.avsCtrl v
  let s := if !v.getLsbD 0 || v.getLsbD 31 then { s with avs := { s.avs with started := false } } else s
  if v.getLsbD 31 then s.clrFlag Reg.avsStatus 31 else s

/-- AVS_RESUME (R405). -/
def execAvsResume (b : BusWrite) (s : State) : Out := .next (s.busWrite Reg.avsCtrl b State.avsCtrlWrite)

/-- PMBUS_TELEMETRY (R405): every 10 ms the regulator's telemetry, as LINEAR11 words; a failed read marks it invalid. -/
def execPmbusTelemetry (good : Bool) (vin iout temp : BitVec 16) (s : State) : Out :=
  if !s.live 31 || s.now < s.avs.pmbAt + msCc 10 then .next s else
  let s := { s with avs := { s.avs with pmbAt := s.now } }
  if good then
    .next ((s.setReg Reg.avsTelem0 (word (vin.toNat * 2 ^ 16 + iout.toNat))).setReg Reg.avsTelem1
      (word (2 ^ 31 + temp.toNat)))
  else .next (s.clrFlag Reg.avsTelem1 31)

/-- A write of AVS_LIMITS: out of 1,240 to 1,640, or with VMIN above VMAX, it changes neither field. -/
def State.avsLimitsWrite (s : State) (v : Word) : State :=
  let vmax := bits v.toNat 27 16
  let vmin := bits v.toNat 11 0
  if 1240 ≤ vmin ∧ vmin ≤ vmax ∧ vmax ≤ 1640 then s.store Reg.avsLimits v else s

/-- AVS_LIMITS_WRITE (R402). -/
def execAvsLimitsWrite (b : BusWrite) (s : State) : Out := .next (s.busWrite Reg.avsLimits b State.avsLimitsWrite)

end Sys2Proof.Machine
end

