-- ==== Sys2Proof/Machine/Reset.lean ====
section
/-!
DEFINITION. Clocks and reset (18): the root and its domains, engine switches, clock gates, the reset sources and what they
cover, the release sequences and the option loader; PERST# and FLR (15 R330), the security reset and the lifecycle (20 R414).
-/
namespace Sys2Proof.Machine

/-! ## The root and its domains (R382 to R384) -/

/-- ROOT_LOCK_DETECT (R382): REFCLK runs and the root PLL locks. -/
def execRootLockDetect (s : State) : Out :=
  if s.rst.por || s.clk.rootLock then .next s
  else .next { s with clk := { s.clk with rootLock := true, lockAt := s.now } }

/-- ROOT_STABLE (R382, R384): 327.68 µs after lock-detect; the domains start. -/
def execRootStable (s : State) : Out :=
  if s.clk.rootLock && !s.clk.rootStable && s.clk.lockAt + 524288 ≤ s.now then
    .next { s with clk := { s.clk with rootStable := true, startAt := s.now } }
  else .next s

/-- Root cycles of one cycle of a domain (Table CLK-1): 0 WCK, 1 core, 2 engine, 3 fabric, 4 peripheral, 5 slow. -/
def State.domainDiv (s : State) (d : Nat) : Nat :=
  match d with
  | 0 => 1
  | 1 => 4
  | 2 => s.clk.engineDiv
  | 3 => 8
  | 4 => 32
  | _ => 256

/-- Domain of an item (Table RST-3). -/
def itemDomain (i : Nat) : Nat :=
  if i < 5 || i = 18 || i = 22 || i = 23 then 1
  else if i < 18 then 2
  else if i = 30 || i = 31 || i = 35 then 4
  else if i < 38 then 3
  else 5

/-! ## The engine divider (R385 to R387) -/

/-- The target divider: FORCE_DIV below 4 acts as 4, 7 as 6. -/
def State.engineTarget (s : State) : Nat := max (s.fld Reg.clkEngine 10 8) (max 4 (min 6 (s.fld Reg.clkEngine 2 0)))

def State.startSwitch (s : State) (t : Nat) : State :=
  { s with clk := { s.clk with target := t, switch := some ⟨t, s.flag Reg.clkEngine 31, s.now, false⟩ } }

/-- The running switch ends: a held target is acted on (R385). -/
def State.endSwitch (s : State) : State :=
  let h := s.clk.held
  let s := { s with clk := { s.clk with switch := none, held := none } }
  match h with
  | none => s
  | some t => if t = s.clk.engineDiv then { s with clk := { s.clk with target := t } } else s.startSwitch t

/-- ENGINE_TARGET_CHANGE (R385). -/
def execEngineTargetChange (s : State) : Out :=
  let t := s.engineTarget
  if !s.clk.rootStable || t = s.clk.held.getD s.clk.target then .next s
  else if s.clk.switch.isSome then .next { s with clk := { s.clk with held := some t } }
  else .next (s.startSwitch t)

/-- QUIESCE_DONE (R386, steps 1 to 4): the drain is complete; the clock restarts at the target divider. -/
def execQuiesceDone (s : State) : Out :=
  match s.clk.switch with
  | some w =>
    if !w.ramp && !w.restarted then
      .next { s with clk := { s.clk with engineDiv := w.target, stable := s.clk.stable &&& 0x3B
                                         switch := some { w with restarted := true, since := s.now } } }
    else .next s
  | none => .next s

/-- RATIO_RAMP_STEP (R387): 256 cycles of the divider in force have passed. -/
def execRatioRampStep (s : State) : Out :=
  match s.clk.switch with
  | some w =>
    if w.ramp && w.since + 64 * s.clk.engineDiv ≤ s.now then
      let d := if s.clk.engineDiv < w.target then s.clk.engineDiv + 1 else s.clk.engineDiv - 1
      let s := { s with clk := { s.clk with engineDiv := d, switch := some { w with since := s.now } } }
      .next (if d = w.target then s.endSwitch else s)
    else .next s
  | none => .next s

/-- DOMAIN_STABLE (R384): a domain has run its 256 cycles since it started; the engine domain 64 after a native switch, which
resumes it (R386 steps 4 and 5). -/
def execDomainStable (domain : Fin 6) (s : State) : Out :=
  let d := domain.val
  if !s.clk.rootStable || s.clk.stable.getLsbD d then .next s else
  let set (s : State) : State := { s with clk := { s.clk with stable := s.clk.stable ||| BitVec.ofNat 6 (2 ^ d) } }
  let restart := match s.clk.switch with
    | some w => if d = 2 && w.restarted then some w.since else none
    | none => none
  match restart with
  | some t => if t + 16 * s.clk.engineDiv ≤ s.now then .next (set s).endSwitch else .next s
  | none => if s.clk.startAt + 64 * s.domainDiv d ≤ s.now then .next (set s) else .next s

/-! ## Gates (R388 to R390) -/

/-- Blocks that have a gate (Table RST-3). -/
def gateable (b : Nat) : Bool := [0, 1, 19, 20, 21, 28, 29, 32, 35].contains b

/-- A register of a pair and the bit of block b in it. -/
def State.setBlockFlag (s : State) (r0 r1 b : Nat) : State := if b < 32 then s.setFlag r0 b else s.setFlag r1 (b - 32)
def State.clrBlockFlag (s : State) (r0 r1 b : Nat) : State := if b < 32 then s.clrFlag r0 b else s.clrFlag r1 (b - 32)
def State.blockFlag (s : State) (r0 r1 b : Nat) : Bool := if b < 32 then s.flag r0 b else s.flag r1 (b - 32)

/-- The closure of a block's gate is requested. -/
def State.gateDue (s : State) (b : Nat) : Option Nat := (s.clk.gateAt.find? fun p => p.1 == b).map Prod.snd

/-- A block's gate is open, its closure cancelled (R389, R390). -/
def State.gateOpen (s : State) (b : Nat) : State :=
  let s := (s.clrBlockFlag Reg.clkGate0 Reg.clkGate1 b).clrBlockFlag Reg.clkGateClosed0 Reg.clkGateClosed1 b
  { s with clk := { s.clk with gateAt := SMap.del s.clk.gateAt b, resume := SMap.del s.clk.resume b } }

/-- A write of 0 to GATE (R389): a closed gate opens, the block resuming after 16 cycles of its domain; a pending closure is
cancelled. -/
def State.gateFree (s : State) (b : Nat) : State :=
  if s.gated b then
    let t := s.gateOpen b
    { t with clk := { t.clk with resume := SMap.ins t.clk.resume b (s.now + 4 * s.domainDiv (itemDomain b)) } }
  else if s.resuming b then s
  else s.gateOpen b

/-- A write of CLK_GATE0 or CLK_GATE1 (R388 to R390). -/
def State.gateWrite (s : State) (g : Nat) (v : Word) : State :=
  (List.range 32).foldl (fun s i =>
    let b := 32 * g + i
    if !gateable b then s
    else if !v.getLsbD i then s.gateFree b
    else if !s.up b || s.blockFlag Reg.clkGate0 Reg.clkGate1 b then s
    else
      let s := s.setBlockFlag Reg.clkGate0 Reg.clkGate1 b
      { s with clk := { s.clk with gateAt := SMap.ins s.clk.gateAt b s.now } }) s

/-- CLK_GATE_WRITE (R388, R389). -/
def execClkGateWrite (group : Fin 2) (b : BusWrite) (s : State) : Out :=
  .next (s.busWrite (if group.val = 0 then Reg.clkGate0 else Reg.clkGate1) b fun s v => s.gateWrite group.val v)

def State.gateShut (s : State) (b : Nat) : State :=
  let s := { s with clk := { s.clk with gateAt := SMap.del s.clk.gateAt b } }
  s.setBlockFlag Reg.clkGateClosed0 Reg.clkGateClosed1 b

/-- An access of block b waits (R388, R389). -/
def State.accessWaits (s : State) (b : Nat) : Bool := s.clk.waiting.any fun a => blockOf a.off == b

/-- GATE_CLOSE (R388): a fabric cycle without an access of the block, in progress or waiting. -/
def execGateClose (block : Fin 36) (s : State) : Out :=
  if (s.gateDue block.val).isSome && !s.accessWaits block.val then .next (s.gateShut block.val) else .next s

/-- GATE_TIMEOUT (R388): 4,096 fc without such a cycle. -/
def execGateTimeout (block : Fin 36) (s : State) : Out :=
  let b := block.val
  match s.gateDue b with
  | some t =>
    if t + 8192 ≤ s.now then
      let left := s.clk.waiting.filter fun a => blockOf a.off != b
      let fail (s : State) (a : GateAccess) : State := s.busError a.master.val a.off a.write.isSome
      let s := (s.clk.waiting.filter fun a => blockOf a.off == b).foldl fail { s with clk := { s.clk with waiting := left } }
      .next (((s.gateShut b).setBlockFlag Reg.clkGateTo0 Reg.clkGateTo1 b).event 10)
    else .next s
  | none => .next s

/-! ## What a reset takes from an item (R341, R392) -/

/-- Registers of an item go to their reset values, and so do the words latched from them. -/
def State.eraseRegs (s : State) (p : Nat → Bool) : State :=
  { s with regs := s.regs.filter fun r => !p r.1
           host := { s.host with latch := s.host.latch.filter fun r => !p r.1
                                 latchRc := s.host.latchRc.filter fun r => !p r.1 } }

/-- The block whose queue a post enters. -/
def QueueId.block : QueueId → Nat
  | .asmDnq p => bnat p
  | .asmUpq p => bnat p
  | .hrPv => 6
  | .plcLoad _ => 19
  | .camCap _ => 20
  | .finGain _ => 22
  | .calBase _ => 25
  | .calRecLoad => 25
  | .calRec => 25
  | .rptCkpt => 24
  | .rptRest => 24
  | .rc => 32
  | .secImg => 36
  | .secAtt => 36

/-- The buffers an item holds, and the master that returns them. -/
def State.heldBuffers (s : State) (i : Nat) : Nat × List Nat :=
  let img (x : ImageSrc) : List Nat := match x with | .buffer o => [o] | .stage _ _ _ => []
  let load (u : Option PlcUpdate) : List Nat := match u with | some (.load x) => [x] | _ => []
  match i with
  | 0 => (15, s.asm.portA.dnq ++ s.asm.portA.upq)
  | 1 => (15, s.asm.portB.dnq ++ s.asm.portB.upq)
  | 6 => (22, (s.syn.capture.map Capture.buf).toList ++ s.syn.pvQueue)
  | 19 => (25, (s.plc.tiles.map fun p => load p.2.running ++ load p.2.queued).flatten)
  | 20 => (18, (s.cam.pipes.map fun p => (p.2.frame.bind CamFrame.cap).toList ++ p.2.queue).flatten)
  | 22 => (22, (s.fin.loads ++ s.fin.queued).map GainLoad.buf)
  | 24 => (19, s.rpt.ckptQueue ++ s.rpt.restQueue)
  | 25 => (20, s.cal.running.map Prod.snd ++ s.cal.queued.map Prod.snd ++ s.cal.recQueue)
  | 32 => (24, (s.host.rcBusy.map Snapshot.buf).toList ++ s.host.rcQueue)
  | 36 => (0, (s.sec.complete.map img).flatten ++ (s.sec.kernel.map fun p => img p.src).getD []
      ++ (s.sec.program.map fun p => img p.src).getD [] ++ s.sec.reports)
  | _ => (0, [])

/-- An item's buffers go back with STATUS 4, its posts not yet checked are withdrawn (R341, R394). -/
def State.returnHeld (s : State) (i : Nat) : State :=
  let h := s.heldBuffers i
  let s := h.2.foldl (fun s x => s.returnLater h.1 x) s
  { s with host := { s.host with fifo := s.host.fifo.filter fun x => match x with
      | .post q _ => q.block != i
      | _ => true } }

/-- The master whose requests an item issues (Table MEM-9). -/
def itemMaster (i : Nat) : Option Nat :=
  if 6 ≤ i && i < 18 then some (i - 4) else
  match i with
  | 5 => some 14
  | 18 => some 1
  | 19 => some 25
  | 20 => some 18
  | 22 => some 22
  | 24 => some 19
  | 25 => some 20
  | 28 => some 21
  | 29 => some 17
  | 32 => some 24
  | 36 => some 0
  | 37 => some 16
  | _ => none

/-- Requests of an item that no channel has accepted are withdrawn (R394). -/
def State.withdraw (s : State) (i : Nat) : State :=
  let own (r : PortReq) : Bool := itemMaster i == some r.master
  { s with dmc := { s.dmc with ports := s.dmc.ports.filter fun r => !own r, stalled := s.dmc.stalled.filter fun r => !own r } }

/-- A lane under a reset of its block, or of TLK for an egress lane: DORMANT (R70, R393); the request of its link layer
stands. -/
def State.idleLanes (s : State) (p : Nat → Bool) : State :=
  let locked := (s.lanes.filter fun r => p r.1 && r.2.cwLock).map Prod.fst
  let idle (r : Nat × Lane) : Option (Nat × Lane) :=
    if !p r.1 then some r
    else if r.2.link == .dormant then none
    else some (r.1, { laneReset r.1 with link := r.2.link })
  locked.foldl (fun s l => s.lockFollow l true) { s with lanes := s.lanes.filterMap idle }

/-- A link layer under reset asks its lanes for DORMANT (04 Table ASM-8, 12 Table TLK-5). -/
def State.linkOff (s : State) (ls : List Nat) : State := ls.foldl (fun s l => s.laneLink l .dormant) s

/-- Lanes out of reset meet the requests of their link layers (R70). -/
def State.wakeLanes (s : State) (ls : List Nat) : State := ls.foldl (fun s l => s.laneLink l (s.lane l).link) s

/-- Results a producer holds for mailbox k go with it (16 R363, 17 R377). -/
def State.dropResults (s : State) (k : Nat) : State :=
  { s with host := { s.host with mboxHeld := s.host.mboxHeld.filter fun p => p.1 != k } }

/-- The part of a Homeroom (06 R127); the state all Homerooms share goes with HR0, where its registers stand. -/
def State.eraseHome (s : State) (h : Nat) : State :=
  let own (s : State) : State := { s with syn := { s.syn with
    mem := SMap.delRange s.syn.mem (786432 * h) (786432 * h + 786432)
    stores := s.syn.stores.filter fun p => p.hr != h
    bad := s.syn.bad.filter fun w => w / 393216 != h
    engines := SMap.delRange s.syn.engines (16 * h) (16 * h + 16)
    threads := SMap.delRange s.syn.threads (128 * h) (128 * h + 128)
    rr := SMap.delRange s.syn.rr (4 * h) (4 * h + 4)
    smpRest := SMap.del s.syn.smpRest h
    cache := SMap.del s.syn.cache h
    tagWait := s.syn.tagWait &&& ~~~ BitVec.ofNat 48 (15 * 2 ^ (4 * h)) } }
  let s := own s
  if h = 0 then
    { s with syn := { mem := s.syn.mem, stores := s.syn.stores, bad := s.syn.bad, engines := s.syn.engines
                      threads := s.syn.threads, rr := s.syn.rr, smpRest := s.syn.smpRest, cache := s.syn.cache
                      tagWait := s.syn.tagWait } }
  else s

/-- The typed state of an item at its reset values; `keep`: the frame counter and flip time stand (Table RST-2). -/
def State.eraseTyped (s : State) (i : Nat) (keep : Bool) : State :=
  if 6 ≤ i && i < 18 then s.eraseHome (i - 6) else
  match i with
  | 0 =>
    { s with asm := { portB := s.asm.portB, ctx := s.asm.ctx, loss := s.asm.loss, repair := s.asm.repair
                      msgCounter := s.asm.msgCounter } }.linkOff [50, 51, 52, 53, 48]
  | 1 => { s with asm := { s.asm with portB := {} } }.linkOff [54, 55, 56, 57, 49]
  | 2 => { s with asm := { s.asm with ctx := [], loss := [], repair := [] } }
  | 3 => s.idleLanes fun l => l < 48 || 58 ≤ l
  | 4 => s.idleLanes fun l => 48 ≤ l && l < 58
  | 5 => { s with dec := {} }
  | 18 =>
    { s with seq := if keep then { frame := s.seq.frame, flipWall := s.seq.flipWall, slotAt := s.now } else { slotAt := s.now } }
  | 19 => { s with plc := {} }
  | 20 => { s with cam := { rx := s.cam.rx } }
  | 21 => { s with cam := { s.cam with rx := 0 } }
  | 22 => { s with fin := {} }
  | 23 =>
    -- no temperature has been reported since (11 R251)
    let s := s.eachTile fun s n =>
      if s.up 22 && !s.flag Reg.finStatus n then (s.setFlag Reg.finStatus n).event 163 else s
    { ((s.linkOff ((List.range 16).map (58 + ·))).linkOff (List.range 48)).idleLanes (fun l => l < 48) with
        tlk := { trip := s.tlk.trip } }
  | 24 => { s with rpt := { ckptBase := s.now } }
  | 25 => { s with cal := {} }
  | 26 => { s with dmc := { dram := s.dmc.dram, poison := s.dmc.poison, soft := s.dmc.soft, selfRefresh := s.dmc.selfRefresh } }
  | 28 => { s with sat := {} }.dropResults 1
  | 29 => { s with blt := {} }.dropResults 2
  | 30 =>
    let fires := (s.thm.sources.filter fun p => p.2.fires).map fun p => (p.1, ({ fires := true } : ThmSource))
    -- the stage is 0, and so THERM_DIV is 4 (19 R410)
    { s.setFld Reg.clkEngine 10 8 4 with
        thm := { sources := fires, tickAt := s.now, rateAt := s.now, askEnd := s.now, downAt := s.now }
        tlk := { s.tlk with trip := s.tlk.trip && !fires.isEmpty } }
  | 31 => { s with avs := { stepAt := s.now, pmbAt := s.now } }
  | 32 => { s with host := { s.host with rcQueue := [], rcBusy := none, rcSnap := 0, rcBase := 0, rcFrame := none } }.dropResults 3
  | 33 => { s with host := { s.host with gpioLast := 0, gpioFilt := 0 } }
  | 34 => { s with host := { s.host with extents := [], fifo := [] } }
  | 36 => { s with sec := {} }.dropResults 0
  | 37 => { s with host := { s.host with cfg := {}, msixPend := 0, lastMsg := none } }
  | 38 => { s with host := { s.host with mboxHeld := [] } }
  | _ => s

/-- Registers of an item: RST_CAUSE keeps its record, the CLK registers go with POR alone (Table RST-2). -/
def itemReg (i off : Nat) : Bool := blockOf off == i && !(i == 39 && (off < 0x20000 || off == Reg.rstCause))

def State.eraseItem (s : State) (i : Nat) (keep : Bool) : State := (s.eraseRegs (itemReg i)).eraseTyped i keep

/-- The items of a mask, rising. -/
def maskItems (m : BitVec 40) : List Nat := (List.range 40).filter fun i => m.getLsbD i

/-- An ordered assertion over a set of items (R393): buffers go back, DRAM enters self-refresh unless the source is security,
gates open (R390), the items enter reset. -/
def State.assertReset (s : State) (m : BitVec 40) (security keep : Bool) : State :=
  let items := maskItems m
  let s := items.foldl (fun s i => if s.up i then (s.returnHeld i).withdraw i else s) s
  let s := if m.getLsbD 26 && s.up 26 then
      (if security then { s with dmc := { s.dmc with dram := [], poison := [], soft := [] } }
       else { s with dmc := { s.dmc with selfRefresh := true } })
    else s
  let s := items.foldl (fun s i => if gateable i then s.gateOpen i else s) s
  let s := items.foldl (fun s i => s.eraseItem i keep) s
  { s with rst := { s.rst with held := s.rst.held ||| m } }

/-! ## Sources (R391, R392) -/

/-- Items released ahead of the boot hold (R398), in the order their releases are made. -/
def earlyItems : List Nat := [39, 27, 33, 34, 38, 37, 36, 26]

/-- Items that nRST and security cover: all but the root and the CLK registers; items that watchdog and device cover. -/
def wideMask : BitVec 40 := BitVec.allOnes 40
def deviceMask : BitVec 40 := 0x19FFFFFFFF

/-- The boot hold over the blocks of a mask (R398). -/
def State.bootOver (s : State) (m : BitVec 40) : State :=
  { s with rst := { s.rst with boot := s.rst.boot ||| (m &&& 0x9F3FFFFFF), bootHold := true } }

/-- Set a bit of RST_CAUSE. -/
def State.cause (s : State) (b : Nat) : State := s.setFlag Reg.rstCause b

/-- The wide sources nRST and security: option bytes are loaded again (Table RST-1). -/
def State.wideReset (s : State) (security : Bool) (b : Nat) : State :=
  let s := ((s.assertReset wideMask security false).bootOver wideMask).cause b
  { s with rst := { s.rst with loaded := false, opt := [], written := 0 } }

/-- The watchdog and device sources. -/
def State.narrowReset (s : State) (b : Nat) : State := ((s.assertReset deviceMask false true).bootOver deviceMask).cause b

/-- A POR-class reset (R391, R393): nothing is ordered, no state survives but what lies outside the block and its OTP. A POR
that finds one in force leaves its cause. -/
def State.porReset (s : State) (bit : Nat) (clkLoss : Bool) : State :=
  let r : State := { pending := s.pending, now := s.now, draws := s.draws
                     host := { gpioIn := s.host.gpioIn }
                     rst := { otp0 := s.rst.otp0, otp1 := s.rst.otp1, otp2 := s.rst.otp2, nrstPin := s.rst.nrstPin
                              perst := s.rst.perst, clkLoss := clkLoss } }
  let r := if s.rst.por then r.setReg Reg.rstCause (s.reg Reg.rstCause) else r.setReg Reg.rstCause (word (2 ^ bit))
  if clkLoss then r.setFlag Reg.clkStatus 31 else r

/-- POR_AND_BROWN_OUT (R391, 21 R429): a rail out of range. -/
def execPorAndBrownOut (s : State) : Out := .next (s.porReset 1 false)

/-- ROOT_LOCK_LOSS (R382): once the root is stable it is a brown-out recorded as CLKLOSS; before, the count starts again. -/
def execRootLockLoss (s : State) : Out :=
  if s.clk.rootStable then .next (s.porReset 2 true)
  else .next { s with clk := { s.clk with rootLock := false } }

/-- POR_RELEASE (R401): 1.0 to 1.2 ms after the last rail is in range, with REFCLK running and nRST high. -/
def execPorRelease (s : State) : Out :=
  if s.rst.por && s.rst.nrstPin then .next { s with rst := { s.rst with por := false } } else .next s

/-- NRST (R391): the pin low for at least 1 µs. -/
def execNrst (s : State) : Out :=
  let s := { s with rst := { s.rst with nrstPin := false } }
  if s.rst.por || s.rst.nrst then .next s
  else
    let s := s.wideReset false 3
    .next { s with rst := { s.rst with nrst := true } }

/-- NRST_RELEASE (R397): the pin high again. -/
def execNrstRelease (s : State) : Out := .next { s with rst := { s.rst with nrst := false, nrstPin := true } }

/-- The endpoint's reset (15 R330): what waits in the window's request path is discarded. -/
def State.endpointReset (s : State) : State :=
  let s := (s.eraseItem 37 true).withdraw 37
  { s with host := { s.host with fifo := s.host.fifo.filter fun x => match x with | .post _ _ => true | _ => false
                                 readRest := [] }
           rst := { s.rst with held := s.rst.held ||| BitVec.ofNat 40 (2 ^ 37) } }

/-- PERST (15 R330). -/
def execPerst (s : State) : Out :=
  if s.rst.perst then .next s
  else
    let s := { s with rst := { s.rst with perst := true } }
    if s.rst.por then .next s
    else .next ((s.endpointReset.cause 7).event 35)

/-- FLR (15 R330): the link stays trained. -/
def execFlr (s : State) : Out :=
  if !s.hostPath then .next s
  else
    let link := s.reg Reg.hstLink
    .next ((s.endpointReset.cause 8).setReg Reg.hstLink link)

/-! ## Pins between reset and use (21 R434, Table PIN-5) -/

/-- The QSPI pins are driven, by the ROM, from the Registrar's release; the AVSBus pins from the release of AVS. -/
def State.qspiDriven (s : State) : Bool := s.up 36
def State.avsDriven (s : State) : Bool := s.up 31

/-- GPIO n is an output; in reset it is at high impedance. -/
def State.gpioDriven (s : State) (n : Nat) : Bool := s.up 33 && s.flag Reg.evtGpioOe n

/-! ## Release (R395 to R398) -/

/-- Block b is held by its own RST_BLOCK bit. -/
def State.ownReset (s : State) (b : Nat) : Bool := b < 36 && s.blockFlag Reg.rstBlock0 Reg.rstBlock1 b

/-- A source covers the item. -/
def State.covered (s : State) (i : Nat) : Bool := s.rst.por || s.rst.nrst || (i = 37 && s.rst.perst)

/-- The item can be released now. -/
def State.canRelease (s : State) (i : Nat) : Bool :=
  !s.up i && !s.covered i && !s.ownReset i && !s.rst.boot.getLsbD i && s.clk.stable.getLsbD (itemDomain i)
    && s.rst.loaded

/-- What takes its value from the option bytes, and what a release begins (R397; 04, 08, 13, 20 R418). -/
def State.onRelease (s : State) (i : Nat) (copyA copyB : List Byte) : State :=
  match i with
  | 0 => s.asmCtrlWrite 0 (s.reg (Reg.asmCtrl 0) ||| word (s.optByte 1 % 4))
  | 1 => s.asmCtrlWrite 1 (s.reg (Reg.asmCtrl 1) ||| word (s.optByte 1 / 4 % 4))
  | 3 => s.wakeLanes (List.range 48 ++ (List.range 16).map (58 + ·))
  | 4 => s.wakeLanes ((List.range 10).map (48 + ·))
  | 18 =>
    let r := s.optByte 0 % 8
    { s with seq := { s.seq with rate := if 6 ≤ r then 0 else r, slotAt := s.now } }
  | 24 => { s with rpt := { s.rpt with ckptBase := s.now } }
  | 33 => if s.rst.clkLoss then { s with rst := { s.rst with clkLoss := false } }.event 9 else s
  | 36 => s.romBoot copyA copyB
  | 39 =>
    if s.rst.clkHeld then
      { s with rst := { s.rst with clkHeld := false } }.setFld Reg.clkEngine 31 31 (s.optByte 6 % 2)
    else s
  | _ => s

/-- An item leaves reset; the release of a block-bit reset is evented (R396). -/
def State.releaseItem (s : State) (i : Nat) (copyA copyB : List Byte) : State :=
  let own := i < 36 && s.rst.written.getLsbD i
  let s := { s with rst := { s.rst with held := s.rst.held &&& ~~~ BitVec.ofNat 40 (2 ^ i)
                                        written := s.rst.written &&& ~~~ BitVec.ofNat 36 (2 ^ i) } }
  let s := s.onRelease i copyA copyB
  if own then s.event 11 else s

/-- BLOCK_RELEASE (R395 to R398): the item leaves reset, with those the release sequence releases in the same instant; at the
Registrar's release the flash holds copies A and B (20 R418). -/
def execBlockRelease (item : ResetItem) (copyA copyB : List Byte) (s : State) : Out :=
  let i := item.val
  if !s.canRelease i then .next s
  else if earlyItems.contains i then
    .next (earlyItems.foldl (fun s j => if s.canRelease j then s.releaseItem j copyA copyB else s) s)
  else .next (s.releaseItem i copyA copyB)

/-- PERST_RELEASE (15 R330, R398): PERST# high; the endpoint leaves reset if nothing else holds it. -/
def execPerstRelease (s : State) : Out :=
  let s := { s with rst := { s.rst with perst := false } }
  if s.canRelease 37 then .next (s.releaseItem 37 [] []) else .next s

/-- A write of RST_BOOT_HOLD (R398, R400): the boot-held blocks leave reset together. -/
def State.bootHoldWrite (s : State) (m : Nat) (v : Word) : State :=
  if m = 0 && v.getLsbD 31 && s.rst.bootHold then
    let s := { s with rst := { s.rst with boot := 0, bootHold := false } }
    ((List.range 36).foldl (fun s b => if s.canRelease b then s.releaseItem b [] [] else s) s).event 11
  else s

/-- BOOT_HOLD_RELEASE (R398). -/
def execBootHoldRelease (b : BusWrite) (s : State) : Out :=
  .next (s.busWrite Reg.rstBootHold b fun s v => s.bootHoldWrite b.master.val v)

/-- A write of RST_BLOCK0 or RST_BLOCK1 (R391, R395, R396, R400): bits that rise reset their blocks, bits that fall release
them, now or when BLOCK_RELEASE can. -/
def State.rstBlockWrite (s : State) (g m : Nat) (v : Word) : State :=
  let off := if g = 0 then Reg.rstBlock0 else Reg.rstBlock1
  let fixed : Word := if g = 0 && m != 0 then 0x0C000000 else 0
  let old := s.reg off
  let s := s.store off ((v &&& ~~~ fixed) ||| (old &&& fixed))
  let new := s.reg off
  let rise := (new &&& ~~~ old).toNat * 2 ^ (32 * g)
  let fall := (old &&& ~~~ new).toNat * 2 ^ (32 * g)
  let written := (s.rst.written &&& ~~~ BitVec.ofNat 36 rise) ||| BitVec.ofNat 36 fall
  let s := { s with rst := { s.rst with written := written } }
  -- the blocks of one write are one assertion; those already in reset stay in it
  let fresh := BitVec.ofNat 40 rise &&& ~~~ s.rst.held
  let s := if fresh = 0 then s else s.assertReset fresh false true
  (List.range 32).foldl (fun s i =>
    let b := 32 * g + i
    if fall.testBit b && s.canRelease b then s.releaseItem b [] [] else s) s

/-- RST_BLOCK_WRITE. -/
def execRstBlockWrite (group : Fin 2) (b : BusWrite) (s : State) : Out :=
  .next (s.busWrite (if group.val = 0 then Reg.rstBlock0 else Reg.rstBlock1) b fun s v =>
    s.rstBlockWrite group.val b.master.val v)

/-- A release of block b waits (RST_PEND, R395, R396). -/
def State.releasePends (s : State) (b : Nat) : Bool :=
  !s.up b && !s.ownReset b && (s.rst.written.getLsbD b ||
    (!s.covered b && !s.rst.boot.getLsbD b && s.rst.loaded && !s.clk.stable.getLsbD (itemDomain b)))

/-- A write of RST_DEVICE by master 0 or 16 (R400). -/
def State.rstDeviceWrite (s : State) (m : Nat) (v : Word) : State :=
  if (m = 0 || m = 16) && v.getLsbD 0 && bits v.toNat 31 16 = 0x5253 then s.narrowReset 6 else s

/-- RST_DEVICE_GO (R400). -/
def execRstDeviceGo (b : BusWrite) (s : State) : Out :=
  .next (s.busWrite Reg.rstDevice b fun s v => s.rstDeviceWrite b.master.val v)

/-- A write of SEC_CTRL: master 0 with the key asserts the security source (R391). -/
def State.secCtrlWrite (s : State) (m : Nat) (v : Word) : State :=
  if m = 0 && v.getLsbD 0 && bits v.toNat 31 16 = 0x5352 then s.wideReset true 4 else s

/-- SEC_RESET. -/
def execSecReset (b : BusWrite) (s : State) : Out :=
  .next (s.busWrite Reg.secCtrl b fun s v => s.secCtrlWrite b.master.val v)

/-- A write of SEC_LIFECYCLE (20 R414): the next bit of LIFECYCLE is programmed and the security source asserted. -/
def State.lifecycleWrite (s : State) (m : Nat) (v : Word) : State :=
  if m = 0 && v.getLsbD 4 && bits v.toNat 31 16 = 0x4C43 && !s.isDead then
    let l := s.lifecycle
    (s.otpProgram 96 (if 2 ≤ l then 2 else if 1 ≤ l then 1 else 0)).wideReset true 4
  else s

/-- LIFECYCLE_ADVANCE (20 R414). -/
def execLifecycleAdvance (b : BusWrite) (s : State) : Out :=
  .next (s.busWrite Reg.secLifecycle b fun s v => s.lifecycleWrite b.master.val v)

/-- Majority of three bytes, bit by bit, and the bits on which they disagree. -/
def vote (a b c : Byte) : Byte := (a &&& b) ||| (a &&& c) ||| (b &&& c)

def disagree (a b c : Byte) : Nat :=
  ((List.range 8).filter fun i => a.getLsbD i != b.getLsbD i || a.getLsbD i != c.getLsbD i).length

/-- OPTION_LOADER (R397): once the slow domain is stable, after POR, nRST or security. -/
def execOptionLoader (s : State) : Out :=
  if s.rst.por || s.rst.nrst || s.rst.loaded || !s.clk.stable.getLsbD 5 then .next s else
  let at_ (m : SMap Byte) (k : Nat) : Byte := SMap.get (fun _ => 0) m k
  let r := s.rst
  let opt := SMap.listed (fun _ => (0 : Byte)) 0 ((List.range 256).map fun k => vote (at_ r.otp0 k) (at_ r.otp1 k) (at_ r.otp2 k))
  let fixed := (List.range 256).foldl (fun a k => a + disagree (at_ r.otp0 k) (at_ r.otp1 k) (at_ r.otp2 k)) 0
  .next ({ s with rst := { r with loaded := true, opt := opt } }.setReg Reg.optStatus (word (min 0xFFFF fixed)))

end Sys2Proof.Machine
end

