-- ==== Sys2Proof/Machine/Frame.lean ====
section
/-!
DEFINITION. The frame (01 R23, R24; 02 R39, R40; 04 R101; 08 R190 to R206, R440): slot starts, the actions of slots 432 and
447, flips, and the instructions of the sequencer that need them.
-/
namespace Sys2Proof.Machine

/-! ## When a flip is due -/

/-- The announced flip's instant has come (R101). -/
def State.bellFlipDue (s : State) : Bool :=
  match s.asm.nextFlip with
  | some t => t ≤ s.wallNs
  | none => false

/-- The clock has reached last flip + FLIP_PERIOD with no later flip announced (R101). -/
def State.holdoverDue (s : State) : Bool :=
  s.asm.nextFlip.isNone && s.asm.flipPeriod != 0 && s.inFrame && s.seq.flipWall + s.asm.flipPeriod ≤ s.wallNs

/-- The sequencer flips on its own (R202): P + floor(P / 448) cc after the last flip, or after the write of EN = 1 while
none has occurred; every P cc once it does. -/
def State.freeRunDue (s : State) : Bool :=
  let p := ratePeriod s.seq.rate
  s.flag Reg.seqCtrl 2 &&
    match s.seq.flipAt with
    | some f => f + (if s.seq.freeRun then p else p + p / 448) ≤ s.now
    | none => s.flag Reg.seqCtrl 0 && s.seq.enAt + p + p / 448 ≤ s.now

def State.flipDue (s : State) : Bool := s.bellFlipDue || s.holdoverDue || s.freeRunDue

/-! ## Commits (R196, R197) -/

/-- A performed commit copies the armed sets of the groups of its mask. -/
def State.commitGroups (s : State) (mask : BitVec 16) : State :=
  let s := if mask.getLsbD 0 then s.commitGeo else s
  let s := if mask.getLsbD 1 then s.commitPlanes else s
  let s := if mask.getLsbD 2 then s.commitFin else s
  if mask.getLsbD 3 then s.commitTlk else s

/-- A late commit: its mask joins the pending one. -/
def State.lateCommit (s : State) (mask : BitVec 16) : State :=
  let s := s.commitLate
  { s with seq := { s.seq with commitPend := some (s.seq.commitPend.getD 0 ||| mask) } }

/-- COMMIT (R196, R197). -/
def execCommit (w : SlateWord) (s : State) : Out :=
  let mask := BitVec.ofNat 16 (s.tB w)
  s.seqIssue { opc := 0xCD, b := true, bsels := [0, 2] } w false fun s =>
    if s.seq.slot < 432 then s.seqWait (s.seq.pc - 8) (.commit mask.toNat)
    else if s.seq.slot < 447 then s.commitGroups mask
    else s.lateCommit mask

/-- The first cycle of slot 432: the pending commit and a waiting COMMIT. -/
def State.commitSlot432 (s : State) : State :=
  let s := match s.seq.commitPend with
    | some m => { s with seq := { s.seq with commitPend := none } }.commitGroups m
    | none => s
  match s.seq.st with
  | .waiting (.commit m) => (s.commitGroups (BitVec.ofNat 16 m)).seqDone
  | _ => s

/-! ## RDSR, FLIP (R188, R190) -/

/-- Special register n (Table TMT-2): a value that changes in this cycle counts as before the change, but for what a slot start or
a flip changes (R186). -/
def State.specialT (s : State) (n : Nat) : Nat :=
  match n with
  | 0 => s.seq.slot
  | 1 => s.slotCc
  | 2 => s.seq.frame
  | 3 => s.seq.frame / 2 ^ 32 % 65536
  | 4 => bnat s.latency
  | 5 => s.seq.rate
  | 6 => s.fSyn.getD 0
  | 7 => s.queuesBefore.1
  | 8 => (s.regBefore Reg.seqHostarg).toNat
  | 9 => s.queuesBefore.2.1
  | 10 => s.queuesBefore.2.2
  | 11 => s.wallNs
  | _ => s.shedWord

/-- RDSR (R188): a number Table TMT-2 does not list is ILLEGAL. -/
def execRdsr (w : SlateWord) (s : State) : Out :=
  let n := w.imm16.toNat
  s.seqIssue { opc := 0xC7, d := true, imm := true } w (12 < n) fun s => s.setT w.d.toNat (s.specialT n)

/-- FLIP (R190): the run has ended. -/
def execSlateTFlip (w : SlateWord) (s : State) : Out :=
  s.seqIssue { opc := 0xCF } w false fun s => (s.seqPc (s.seq.pc - 8)).seqSt .inFlip

/-! ## Row starts and slot 447 -/

/-- The next flip starts a frame that is blanked for the panel by the sequencer (R189, R192, R203). -/
def State.blankNext (s : State) : Bool :=
  s.seq.fixed.isSome || !s.flag Reg.seqCtrl 0 || s.seq.restartDue || s.seq.st == .awaiting
    || (s.seq.st == .halted && s.flag Reg.seqCtrl 1)

/-- Synthesis of row r of the frame with counter f begins (R42, R130, R194, R374). -/
def State.synthStart (s : State) (f r : Nat) (blank : Bool) : State :=
  let s := s.chartExchange
  let withheld := blank && s.descReady f r
  let p := s.dispatchRow f r blank
  let s := p.1.rowStart r f p.2
  (if withheld then s.rowWithheld r else s).bltRowStart r f

/-- The manifest choice at T and the binding (R111, R195). A manifest that a mode switch found over the limit of the mode binds
no layer until a later one comes into force (R204). -/
def State.bindStep (s : State) (t : Nat) : State :=
  let s := s.chooseManifest t
  match s.seq.bindMask with
  | none => (s.setFlag Reg.seqStatus 27).bump (Reg.seqCnt 6)
  | some mask =>
    let s := { s with seq := { s.seq with bindMask := none } }
    match s.dec.chosen with
    | some m =>
      let same := decide (s.dec.force = some m)
      let s := s.manifestInForce m (if same && s.dec.barred then 0 else mask)
      if same then s else { s with dec := { s.dec with barred := false } }
    | none => s

/-- The standing mode request is fixed (R203). -/
def State.modeFix (s : State) : State :=
  let fixed := match s.seq.req with
    | some r => if r = s.seq.rate then none else some r
    | none => none
  { s with seq := { s.seq with fixed := fixed, req := none } }

/-- The actions tied to the start of slot 447, at T (R32, R40, R201, R203, R368, R378). -/
def State.slot447 (s : State) (t : Nat) : State :=
  let s := ((s.geoInForce.bindStep t).modeFix.bltSlot447.shedUpdate.openDeadlines).finSlot447
  let s := { s with seq := { s.seq with done447 := true } }
  s.synthStart ((s.seq.frame + 1) % 2 ^ 48) 0 s.blankNext

/-! ## Slot starts -/

/-- The rows at the start of slot k: what still runs of row k - 1 ends, row k is tested, row k + 1 begins (R130, R141,
R144). -/
def State.rowsAt (s : State) (k : Nat) : State :=
  let s := if 1 ≤ k && k ≤ 432 then s.cancelRow (k - 1) else s
  let s := if k < 432 then s.lateTest k else s
  if k < 431 then s.synthStart s.seq.frame (k + 1) s.seq.blanked else s

/-- The start of slot k, from 1 on. -/
def State.slotBegin (s : State) (k : Nat) : State :=
  let at_ := match s.seq.flipAt with | some f => f + s.slotStart k | none => s.now
  let s := { s with seq := { s.seq with slot := k, slotAt := at_ } }
  let s := if k = 432 then s.commitSlot432 else s
  let s := (((s.seqSlotBegins k).rowsAt k).emitSlot k).prefetchSlot k
  (if k = 432 then s.placementStep.kernelApply.ageSlot432
  else if k = 447 then s.slot447 s.nextFlipT
  else s).noteQueues

/-- SLOT_START (R23, R24): the next slot of the frame begins, unless a flip takes its place. -/
def execSlotStart (s : State) : Out :=
  match s.seq.flipAt with
  | some f =>
    if s.live 18 && s.seq.slot < 447 && f + s.slotStart (s.seq.slot + 1) ≤ s.now && !s.flipDue then
      .next (s.slotBegin (s.seq.slot + 1))
    else .next s
  | none => .next s

/-! ## Flips -/

/-- The frame that the flip ends is short: the flip falls in an active slot, or where one would begin (R201). -/
def State.shortFrame (s : State) : Bool :=
  match s.seq.flipAt with
  | some f => s.seq.slot < 431 || (s.seq.slot == 431 && s.now < f + s.slotStart 432)
  | none => false

/-- The next slot would begin in this cycle (R24, R201). -/
def State.nextSlotDue (s : State) : Bool :=
  match s.seq.flipAt with
  | some f => decide (f + s.slotStart (s.seq.slot + 1) ≤ s.now)
  | none => false

/-- Row k of each tile ends as at the start of slot k + 1 (R144, R256). -/
def State.endRow (s : State) (k : Nat) : State :=
  let s := s.cancelRow k
  if s.live 22 && !s.panelBlank then s.eachTile fun s n => s.rowStop (k + 1) n else s

/-- The end of a short frame (R144, R201, R263): the row of the active slot is cut; where the flip takes the place of an active
slot, the row before it ends as at that slot's start. -/
def State.endShort (s : State) : State :=
  let k := s.seq.slot
  let s := if s.nextSlotDue then (s.endRow k).cancelRow (k + 1) else ((s.cancelRow k).cancelRow (k + 1)).emitShort
  let s := { s with syn := { s.syn with cursorU := [] } }
  ((s.setFlag Reg.seqStatus 28).bump (Reg.seqCnt 5)).event 111

/-- What a mode switch resets at the flip that starts its blanked frame (R204). -/
def State.modeSwitch (s : State) : State :=
  let s := (s.ringSet.invalidateAll).abandonDecoding
  let limit := if s.latency then 8 else 16
  let tooBig (m : Manifest) : Bool := limit < m.layers.length
  let gone := s.dec.held.any tooBig
  let s := { s with syn := { s.syn with shed := [] }
                    dec := { s.dec with held := s.dec.held.filter fun m => !tooBig m
                                        bind := if s.dec.force.any tooBig then 0 else s.dec.bind
                                        barred := s.dec.barred || s.dec.force.any tooBig } }
  if gone then (s.setFld Reg.decManStatus 31 28 1).event 97 else s

/-- The sequencer at a flip (R190 to R192, R197): a run starts, a late one continues, a waiting COMMIT is late. -/
def State.seqFlip (s : State) : State :=
  let entry := 8 * s.fld Reg.seqEntry 15 3
  let starts := s.seq.restartDue || s.seq.st == .awaiting || s.seq.st == .inFlip
  if !s.flag Reg.seqCtrl 0 then s
  else if starts then { s with seq := { s.seq with restartDue := false, st := .running, pc := entry } }
  else if s.seq.st == .halted then s
  else
    let s := match s.seq.st with
      | .waiting (.commit m) => (s.lateCommit (BitVec.ofNat 16 m)).seqDone
      | _ => s
    ((s.setFlag Reg.seqStatus 30).bump (Reg.seqCnt 2)).event 108

/-- The watchdog's count at a flip, and whether it has reached its limit (R206). -/
def State.watchdog (s : State) : State × Bool :=
  if !s.flag Reg.seqWdog 8 || !s.flag Reg.seqCtrl 0 then (s, false)
  else if s.seq.restartDue || s.seq.st == .awaiting || s.seq.st == .inFlip then (s.setFld Reg.seqWdog 23 16 0, false)
  else
    let n := min 255 (s.fld Reg.seqWdog 23 16 + 1)
    (s.setFld Reg.seqWdog 23 16 n, decide (max 1 (s.fld Reg.seqWdog 7 0) ≤ n))

/-- The new frame in the sequencer's registers (R199, R203, R204). -/
def State.newFrame (s : State) (wall : Nat) : State :=
  let blank := s.blankNext
  { s with seq := { s.seq with
      frame := (s.seq.frame + 1) % 2 ^ 48, flipWall := wall, flipAt := some s.now, slot := 0, slotAt := s.now
      done447 := false, rate := s.seq.fixed.getD s.seq.rate, switchFrame := s.seq.fixed.isSome, fixed := none
      req := s.seq.lateReq, lateReq := none, blanked := blank }
           syn := { s.syn with repeatRow := none, repeatCount := 0 }
           dec := { s.dec with emitFrame := s.fSyn } }

/-- A flip (R24, R199, R201, R204, R440), with its wall time in ns. -/
def State.flip (s : State) (wall : Nat) : State :=
  let short := s.shortFrame
  let ended := s.seq.slot
  let s := if short then s.endShort else if s.inFrame && ended == 431 then s.endRow 431 else s
  let s := if s.seq.done447 then s else s.slot447 wall
  let wasSwitch := s.seq.switchFrame
  let dog := s.watchdog
  let s := dog.1.newFrame wall
  let s := if s.seq.switchFrame then s.modeSwitch else s
  let s := if wasSwitch then s.event 112 else s
  let s := s.seqFlip
  let s := s.rowsAt 0
  let s := ((s.pvFlip.ageFlip).tlkFlip short).prefetchFlip ended
  let s := (s.emitSlot 0).prefetchSlot 0
  (if dog.2 then s.narrowReset 5 else s).noteQueues

/-- A flip that the Assembly port hands over: it ends free running (R101, R202). -/
def State.portFlip (s : State) (wall : Nat) (hold : Bool) : State :=
  let s := { s with asm := { s.asm with nextFlip := none, holdover := hold }
                    seq := { s.seq with freeRun := false } }
  if s.live 18 then s.flip wall else s

/-- FLIP (R101): the clock reaches the announced NEXT_FLIP. -/
def execFlip (s : State) : Out :=
  match s.asm.nextFlip with
  | some t => if t ≤ s.wallNs then .next (s.portFlip t false) else .next s
  | none => .next s

/-- HOLDOVER_FLIP (R101, R199): HOLDOVER sets. -/
def execHoldoverFlip (s : State) : Out :=
  if s.holdoverDue then .next (s.portFlip s.wallNs true) else .next s

/-- FREE_RUN_FLIP (R202). -/
def execFreeRunFlip (s : State) : Out :=
  if s.live 18 && s.freeRunDue then
    let first := !s.seq.freeRun
    let s := ({ s with seq := { s.seq with freeRun := true } }.bump (Reg.seqCnt 4))
    let s := if first then s.event 110 else s
    .next (s.flip s.wallNs)
  else .next s

end Sys2Proof.Machine
end

