-- ==== Sys2Proof/Machine/MemCtl.lean ====
section
/-!
DEFINITION. The memory channels (14): requests and commands, drain mode, refresh, training, replay and failure, the
scrubber, the Proctors' own registers.
-/
namespace Sys2Proof.Machine

/-! ## Requests at the group ports (R312, R314, R315, R323) -/

/-- TARGET of a master's port on a group, as it acts. -/
def State.portTarget (s : State) (g m : Nat) : Nat := max 1 (s.fld (Reg.dmcLt g m) 15 0)

/-- A response of the memory (R314). -/
def State.answer (s : State) (x : MemAnswer) : State := { s with cyc := { s.cyc with answers := s.cyc.answers ++ [x] } }

/-- An error response: a read gives zeros, a write changes nothing (R305). -/
def State.memError (s : State) (write : Bool) (m a n : Nat) : State :=
  s.answer ⟨m, write, a / 64, if write then [] else List.replicate n 0, true⟩

def PortReq.chan (r : PortReq) : Nat := (memChannel r.addr).1

def PortReq.line (r : PortReq) : Nat := r.addr / 64

/-- Requests of one port. -/
def PortReq.samePort (r q : PortReq) : Bool := r.group == q.group && r.master == q.master

/-- The port has room for a request: 16 requests of a master; of the finishing unit also 48 reads outstanding per channel (R320,
R323). -/
def State.portRoom (s : State) (r : PortReq) : Bool :=
  (s.dmc.ports.filter r.samePort).length < 16
    && (r.master != 22 || r.write
      || (s.dmc.ports.filter fun q => q.samePort r && q.chan == r.chan).length
          + ((s.chan r.chan).reads.filter fun q => q.master == 22).length < 48)

/-- A request enters its port, from where its age counts; a change of TARGET applies to later ones (R312). -/
def State.portEnter (s : State) (r : PortReq) : State :=
  { s with dmc := { s.dmc with
    ports := s.dmc.ports ++ [{ r with at_ := s.now, target := s.portTarget r.group r.master }] } }

/-- A request reaches its port, or its master stalls with it (R323). -/
def State.portTake (s : State) (r : PortReq) : State :=
  if s.portRoom r && !(s.dmc.stalled.any r.samePort) then s.portEnter r
  else { s with dmc := { s.dmc with stalled := s.dmc.stalled ++ [r] } }

/-- Requests that stalled enter the ports that have room again, in their order. -/
def State.portFill (s : State) : State :=
  let q := s.dmc.stalled
  q.foldl (fun s r => s.portTake r) { s with dmc := { s.dmc with stalled := [] } }

/-! ## Acceptance by the channel queues (R311, R313 to R315) -/

/-- HIGH and LOW of DMC_WM put a channel into drain mode and out of it (R313). -/
def State.drainLevel (s : State) (c : Nat) : State :=
  let ch := s.chan c
  if s.fld Reg.dmcWm 13 8 ≤ ch.writes.length then s.setChan c { ch with drain := true }
  else if ch.writes.length ≤ s.fld Reg.dmcWm 5 0 then s.setChan c { ch with drain := false }
  else s

/-- A write accepted by a channel queue: visible at once, in its place if the line is queued already; part of a line is to be merged
(R311, R314). The scrubber's write-back brings the line's own data (R324). -/
def State.acceptWrite (s : State) (r : PortReq) : State :=
  let c := r.chan
  let ln := r.line
  let ch := s.chan c
  let whole := r.data.length == 64
  let s := if ch.writes.any fun w => w.line == 64 * ln then s.joinWrite ln whole
    else s.setChan c { ch with writes := ch.writes ++ [{ master := r.master, line := 64 * ln, at_ := r.at_, target := r.target
                                                         merge := !whole }] }
  let s := if r.scrub then s.setSoft ln false else s.putLine r.addr r.data
  (s.drainLevel c).answer ⟨r.master, true, ln, [], false⟩

/-- The request leaves its port now: its channel has failed and answers with an error; else the channel is trained, the group takes the
master, the queue has room or holds the line, and no earlier read of the line by the same master waits for its data (R314, R315,
R319, R323). -/
def State.grantOk (s : State) (r : PortReq) : Bool :=
  let ch := s.chan r.chan
  let held := ch.writes.any fun w => w.line == 64 * r.line
  ch.failed || (ch.trained && s.groupOpen r.group r.master
    && (if r.write then (ch.writes.length < 32 || held)
          && !(ch.reads.any fun q => q.master == r.master && q.line == 64 * r.line)
        else ch.reads.length < 48 || s.lineHeld r.line))

/-- A request leaves its port: accepted, answered by a write that holds its line, or ended with an error. -/
def State.grant (s : State) (r : PortReq) : State :=
  let c := r.chan
  let s := { s with dmc := { s.dmc with ports := s.dmc.ports.erase r } }
  let ch := s.chan c
  if ch.failed then s.memError r.write r.master r.addr r.len
  else if r.write then s.acceptWrite r
  else if s.lineHeld r.line then
    let f := s.fetchLine r.line r.master
    f.1.answer ⟨r.master, false, r.line, if f.2 then f.1.bytesAt r.addr r.len else List.replicate r.len 0, !f.2⟩
  else s.setChan c { ch with reads := ch.reads ++ [{ master := r.master, line := 64 * r.line, at_ := r.at_, target := r.target }] }

/-- The requests of a master that can leave its ports do, in order; one that waits holds back the later ones of its port to the same
channel. -/
def State.grantMaster (s : State) (m : Nat) : State :=
  ((s.dmc.ports.filter fun r => r.master == m).foldl (fun (p : State × List Nat) r =>
    if !p.1.dmc.ports.contains r then p
    else if !p.2.contains r.chan && p.1.grantOk r then (p.1.grant r, p.2) else (p.1, r.chan :: p.2)) (s, [])).1

/-- A flush ends when every write that its port held for the channel has been accepted (R313). -/
def State.forcedEnd (s : State) (c : Nat) : State :=
  let ch := s.chan c
  if ch.forced.isEmpty then s else
    let waits (f : Nat × Nat) : Bool := s.dmc.ports.any fun r => r.write && r.chan == c && r.master == f.1 && r.at_ ≤ f.2
    s.setChan c { ch with forced := ch.forced.filter waits }

/-- One cycle of the group ports: requests are accepted in increasing master ID (R314), flushes end, stalled masters go on. -/
def State.portStep (s : State) : State :=
  if s.dmc.ports.isEmpty && s.dmc.stalled.isEmpty then s else
    ((List.range 16).foldl State.forcedEnd ((List.range 26).foldl State.grantMaster s)).portFill

/-- The part of a request that falls in line ln: through the Proctor to its port (R326, R327), or as a host write of the window to
its monitor (15 R339). -/
def State.requestPart (s : State) (g b m : Nat) (write : Bool) (a n : Nat) (data : List Byte) (ln : Nat)
    (scrub : Bool := false) : State :=
  let (pa, pn) := linePart a n ln
  if !s.permits g m (pa - b) pn write then (s.violation g m (pa - b) write).memError write m pa pn
  else s.portTake { group := g, master := m, write := write, addr := pa, len := pn, data := (data.drop (pa - a)).take pn,
                      scrub := scrub }

/-- DMC_REQUEST (R305, R323, R326, R327): a request of master m for n bytes, or for a write its bytes, is checked line by line and
reaches its group port. The host (master 16) reaches the window alone (15 R335); its writes go through the monitor. -/
def execDmcRequest (master : Fin 32) (write : Bool) (addr : BitVec 37) (n : Fin 4097) (data : List Byte) (s : State) : Out :=
  let m := master.val
  let a := addr.toNat
  let n := if write then data.length else n.val
  if n = 0 then .next s
  else if m = 16 && (!s.hostPath || !s.live 34 || a < winAddr 0 || winAddr 0 + 2 ^ 30 < a + n) then .next s
  else if m = 16 && write then .next (s.windowWrite (a - winAddr 0) data)
  else match memGroup a with
  | none => .next (s.memError write m a n)
  | some (g, b, _, _) =>
    if !memInGroup a n || !s.up 26 then .next (s.memError write m a n)
    else .next ((linesOf a n).foldl (fun s ln => s.requestPart g b m write a n data ln) s)

/-! ## Commands (R312, R313, R316, R318) -/

/-- Urgency (R312); now and acceptance in cc, 2 to the fc. -/
def MemReq.urgency (r : MemReq) (now : Nat) : Nat := min 7 (8 * ((now - r.at_) / 2) / r.target)

/-- Request q goes before request r: urgency, age, master. -/
def reqBefore (now : Nat) (q r : MemReq) : Bool :=
  if q.urgency now != r.urgency now then r.urgency now < q.urgency now
  else if q.at_ != r.at_ then q.at_ < r.at_
  else q.master < r.master

/-- A channel may issue a command for the request: its bank is not under refresh (R316), and the group takes its master (R315). -/
def State.issueOk (s : State) (c : Nat) (r : MemReq) : Bool :=
  let free := match (s.chan c).refresh with
    | some (b, e) => decide (e ≤ s.now) || (bankRow (memChannel r.line).2).1 != b
    | none => true
  free && s.groupOpen (if c < 8 then 0 else 1) r.master

/-- The read that R312 chooses: of the queued reads, none ahead of an older one of its master to its line (R314), and of the reads for
merges, at their writes' urgency (R311). -/
def State.nextRead (s : State) (c : Nat) : Option MemReq :=
  let ch := s.chan c
  let first (r : MemReq) : Bool :=
    (ch.reads.find? fun q => q.master == r.master && q.line == r.line) == some r
  ((ch.reads.filter first ++ ch.writes.filter fun w => w.merge).filter (s.issueOk c)).foldl (fun best r => match best with
    | some q => if reqBefore s.now r q then some r else some q
    | none => some r) none

/-- Commands whose parity is not yet confirmed, 32 fc after their issue (R318). -/
def Chan.unconfirmed (ch : Chan) (now : Nat) : List RetryCmd := ch.retry.filter fun x => now < x.at_ + 64

/-- The channel can issue a command (R317 to R319). -/
def State.chanReady (s : State) (c : Nat) : Bool :=
  let ch := s.chan c
  s.up 26 && !ch.failed && s.chanOpen c && decide ((ch.unconfirmed s.now).length < 16)

/-- A command joins the retry buffer; confirmed ones have left it (R318). -/
def State.retryPush (s : State) (c : Nat) (kind : CmdKind) (line : Nat) : State :=
  let ch := s.chan c
  s.setChan c { ch with retry := ch.unconfirmed s.now ++ [⟨kind, line, s.now⟩] }

/-- A queued write issues (R313), its burst 1.5 fc long (R308); one of part of a line not yet merged has its line read first (R311). -/
def State.issueWrite (s : State) (c : Nat) (w : MemReq) : State :=
  let ch := s.chan c
  if w.merge then
    let merged (x : MemReq) : MemReq := if x = w then { x with merge := false } else x
    let s := s.setChan c { ch with writes := ch.writes.map merged }
    (s.mergeLine (w.line / 64) w.master).retryPush c .read w.line
  else
    let s := s.setChan c { ch with writes := ch.writes.erase w, issuing := some (w.line, s.now + 3) }
    ((s.bump (Reg.dmcCntCh c 4)).drainLevel c).retryPush c .write w.line

/-- A queued read issues (R309, R310); one that a later write has overtaken gives the line as it stood (R314). -/
def State.issueRead (s : State) (c : Nat) (r : MemReq) : State :=
  let ch := s.chan c
  let ln := r.line / 64
  let s := (s.setChan c { ch with reads := ch.reads.erase r }).retryPush c .read r.line
  let f : State × List Byte × Bool := match r.kept with
    | some (some bs) => (s.bump (Reg.dmcCntCh c 3), bs, true)
    | some none => ((s.bump (Reg.dmcCntCh c 3)).uncorrectable ln r.master 0, [], false)
    | none =>
      let x := s.readLine ln r.master 0
      (x.1, x.1.bytesAt r.line 64, x.2)
  f.1.answer ⟨r.master, false, ln, if f.2.2 then f.2.1 else List.replicate 64 0, !f.2.2⟩

/-- CHANNEL_COMMAND (R312, R313): a command slot of a channel, with the lines whose cells have been upset since the last. -/
def execChannelCommand (channel : Fin 16) (upsets : List (BitVec 31 × Bool)) (s : State) : Out :=
  let c := channel.val
  let s := s.strike c upsets
  if !s.chanReady c then .next s
  else
    let ch := s.chan c
    let write := ch.writes.find? (s.issueOk c)
    let urgent := ch.writes.any fun w => w.urgency s.now == 7
    match if ch.drain || !ch.forced.isEmpty || urgent then write else none, s.nextRead c, write with
    | some w, _, _ => .next (s.issueWrite c w)
    | none, some r, _ => .next (if r.merge then s.issueWrite c r else s.issueRead c r)
    | none, none, some w => .next (s.issueWrite c w)
    | none, none, none => .next s

/-- FORCED_DRAIN (R313): a flush from a master's port of a group forces drain of every channel that holds one of the port's writes. -/
def execForcedDrain (port : PortId) (s : State) : Out :=
  if !s.up 26 then .next s else
  .next ((List.range 16).foldl (fun s c =>
    let held := s.dmc.ports.any fun r => r.write && r.group == port.group.val && r.master == port.master.val && r.chan == c
    if held then s.setChan c { s.chan c with forced := (s.chan c).forced ++ [(port.master.val, s.now)] } else s) s)

/-- REFRESH (R316): per-bank refresh, 120 fc, or refresh management, 96 fc (Table MEM-2); one bank at a time. -/
def execRefresh (channel : Fin 16) (bank : Fin 16) (manage : Bool) (s : State) : Out :=
  let c := channel.val
  let ch := s.chan c
  let idle := match ch.refresh with | some (_, e) => decide (e ≤ s.now) | none => true
  if s.chanReady c && idle then
    let s := s.retryPush c .refresh bank.val
    .next (s.setChan c { s.chan c with refresh := some (bank.val, s.now + (if manage then 192 else 240)) })
  else .next s

/-! ## Training, replay, failure (R317 to R319) -/

/-- A channel fails (R319): its queued reads end in error responses; requests at the ports follow as they reach it. -/
def State.chanFail (s : State) (c : Nat) : State :=
  let ch := s.chan c
  let s := ch.reads.foldl (fun s r => s.memError false r.master r.line 64) s
  (s.setChan c { ch with failed := true, trained := false, reads := [], writes := [], retry := [], forced := [],
                         drain := false, issuing := none, retrain := false }).event 195

/-- TRAINING (R317): after the fabric domain is stable a channel trains, which takes it out of self-refresh
(18 R398), or fails. -/
def execTraining (channel : Fin 16) (pass : Bool) (s : State) : Out :=
  let c := channel.val
  let ch := s.chan c
  if s.up 26 && s.clk.stable.getLsbD 3 && !ch.trained && !ch.failed then
    let s := { s with dmc := { s.dmc with selfRefresh := false } }
    .next (if pass then s.setChan c { ch with trained := true, trainedAt := s.now } else s.chanFail c)
  else .next s

/-- A channel's turn to retrain (R317): asked for, or INTERVAL ms old. -/
def State.retrainDue (s : State) (c : Nat) : Bool :=
  let ch := s.chan c
  let iv := s.fld Reg.dmcRetrain 15 0
  ch.trained && !ch.failed && (ch.retrain || (iv != 0 && ch.trainedAt + 1600000 * iv ≤ s.now))

/-- The window in which a channel may retrain (R317). -/
def State.retrainWindow (s : State) (c : Nat) : Bool :=
  if c < 8 then
    s.inFrame && s.seq.slot == 447 && s.slotCc == 0 &&
      (match s.asm.nextFlip with | some t => decide (s.wallNs + 4000 ≤ t) | none => false)
  else if c < 14 then
    s.inFrame && 432 ≤ s.seq.slot && s.seq.slot < 446
      && (List.range 6).all fun i => (s.chan (8 + i)).stallEnd ≤ s.now
  else true

/-- One channel retrains: 1,600 fc of stall. -/
def State.retrainOne (s : State) (pass : Bool) (c : Nat) : State :=
  let ch := s.chan c
  let e := s.now + 3200
  if pass then s.setChan c { ch with retrain := false, trainedAt := s.now, stallEnd := e,
                                     retrainEnd := if ch.retrain then e else ch.retrainEnd }
  else s.chanFail c

/-- PERIODIC_RETRAIN (R317): channels 0 to 7 retrain together. -/
def execPeriodicRetrain (channel : Fin 16) (pass : Bool) (s : State) : Out :=
  let c := channel.val
  if s.up 26 && s.retrainDue c && s.retrainWindow c then
    if c < 8 then
      .next ((List.range 8).foldl (fun s k =>
        if (s.chan k).trained && !(s.chan k).failed then s.retrainOne (pass || k != c) k else s) s)
    else .next (s.retrainOne pass c)
  else .next s

/-- A retraining that RETRAIN asked for still waits or runs on some channel (00 R11). -/
def State.retrainRuns (s : State) : Bool := (List.range 16).any fun c => (s.chan c).retrain || s.now < (s.chan c).retrainEnd

/-- A write of DMC_CTRL: SCRUB_EN, and RETRAIN for every channel in service (R317), unless one still waits or runs (00 R11). -/
def State.dmcCtrlWrite (s : State) (v : Word) : State :=
  let s := s.store Reg.dmcCtrl v
  if v.getLsbD 31 && !s.retrainRuns then
    (List.range 16).foldl (fun s c =>
      if (s.chan c).trained && !(s.chan c).failed then s.setChan c { s.chan c with retrain := true } else s) s
  else s

/-- DMC_RETRAIN (R317). -/
def execDmcRetrain (b : BusWrite) (s : State) : Out := .next (s.busWrite Reg.dmcCtrl b State.dmcCtrlWrite)

/-- PARITY_ALERT (R318, R319): a replay, which issues the buffered commands again in their order, or the failure of the channel. -/
def execParityAlert (channel : Fin 16) (s : State) : Out :=
  let c := channel.val
  let ch := s.chan c
  if !s.up 26 || !ch.trained || ch.failed then .next s else
  let during := match ch.replayEnd with | some e => decide (s.now < e) | none => false
  let alerts := (ch.alerts.filter fun t => s.now < t + 1600000) ++ [s.now]
  if during || max 1 (s.fld Reg.dmcReplay 7 0) < alerts.length then .next (s.chanFail c)
  else
    let e := s.now + 448
    let again := (ch.unconfirmed s.now).map fun x => { x with at_ := e }
    let s := s.setChan c { ch with alerts := alerts, replayEnd := some e, retry := again }
    .next ((s.bump (Reg.dmcCntCh c 2)).event 194)

/-! ## Scrubbing (R324, R325) -/

/-- Device address of a line of a channel (R306). -/
def chanLine (c k : Nat) : Nat :=
  let (base, first, n) := if c < 8 then (0, 0, 8) else if c < 14 then (0x1000000000, 8, 6)
    else if c = 14 then (0x1C00000000, 14, 1) else (0x1E00000000, 15, 1)
  base + 256 * (k / 4 * n + (c - first)) + 64 * (k % 4)

def chanGroup (c : Nat) : Nat := if c < 8 then 0 else if c < 14 then 1 else if c = 14 then 2 else 3

/-- The scrubber's read of a line: one with correctable errors is written back through its group's port; an uncorrectable one stays as
it is, KIND 2 (R324). -/
def State.scrubLine (s : State) (g b ln : Nat) : State :=
  let r := if s.lineHeld ln then s.fetchLine ln 23 else s.readLine ln 23 2
  if r.2 && s.dmc.soft.contains ln && !s.lineHeld ln then
    r.1.requestPart g b 23 true (64 * ln) 64 (r.1.bytesAt (64 * ln) 64) ln true
  else r.1

/-- SCRUB_READ (R324): the channel's next line, with the lines whose cells have been upset since the last command; a pass is 2^27
lines (8 GiB). -/
def execScrubRead (channel : Fin 16) (upsets : List (BitVec 31 × Bool)) (s : State) : Out :=
  let c := channel.val
  let s := s.strike c upsets
  let ch := s.chan c
  let g := chanGroup c
  let gap := 2 * max 1 (s.fld Reg.dmcScrub 15 0)
  let a := chanLine c ch.scrub
  let ln := a / 64
  let b := match memGroup a with | some (_, b, _, _) => b | none => 0
  if s.chanReady c && s.issueOk c { master := 23, line := a, at_ := s.now, target := 1 } && s.flag Reg.dmcCtrl 0
      && ch.scrubAt + gap ≤ s.now then
    let k := (ch.scrub + 1) % 2 ^ 27
    let s := (s.setChan c { ch with scrub := k, scrubAt := s.now })
    let s := if !s.permits g 23 (a - b) 64 false then s.violation g 23 (a - b) false
      else (s.scrubLine g b ln).retryPush c .read a
    .next (if c = 15 && k = 0 then s.event 196 else s)
  else .next s

/-- What becomes of an uncorrectable word of an on-die array (Table MEM-7) that its owner does not write in the same cycle: 0 context table, 1 Seating Chart (active,
staging, base by node), 2 gain store, 3 Homeroom memory, 4 Timetable program memory, 5 layer directory. -/
def State.sramLost (s : State) (array i : Nat) : State :=
  if s.sramWritten array i then s else
  match array with
  | 0 => { s with asm := { s.asm with ctx := SMap.put (fun _ => 0) s.asm.ctx i 0 } }
  | 1 =>
    let k := i % 85360
    let p := s.plc
    let z {α : Type} (m : SMap α) : SMap α := SMap.del m k
    { s with plc := if i < 85360 then { p with active := z p.active, activeConf := z p.activeConf }
        else if i < 170720 then { p with staging := z p.staging, stagingConf := z p.stagingConf }
        else { p with base := z p.base, baseConf := z p.baseConf } }
  | 2 => { s with fin := { s.fin with gains := SMap.delRange s.fin.gains (4 * i) (4 * i + 4) } }
  | 3 =>
    let mem := SMap.delRange s.syn.mem (2 * i) (2 * i + 2)
    let bad := if i % 393216 < 65536 then nsIns s.syn.bad i else s.syn.bad
    { s with syn := { s.syn with mem := mem, bad := bad } }
  | 4 => { s with seq := { s.seq with prog := SMap.delRange s.seq.prog (2 * i) (2 * i + 2), bad := nsIns s.seq.bad i } }
  | _ =>
    let e := s.dirAt i
    let e' := { e with gen0 := { e.gen0 with valid := false }, gen1 := { e.gen1 with valid := false } }
    { s with dec := { s.dec with dir := SMap.put (fun _ => {}) s.dec.dir i e' } }

/-- Words of each array. -/
def sramSize (array : Nat) : Nat :=
  match array with
  | 0 => 1048576
  | 1 => 3 * 85360
  | 2 => 1327104
  | 3 => 12 * 393216
  | 4 => 8192
  | _ => 36864

/-- The block that holds an array. -/
def sramBlock (array i : Nat) : Nat :=
  match array with
  | 0 => 2
  | 1 => 19
  | 2 => 22
  | 3 => 6 + i / 393216
  | 4 => 18
  | _ => 5

/-- SRAM_SCRUB (R325): a word of an array checks as corrected or as uncorrectable. -/
def execSramScrub (array : Fin 6) (index : Nat) (lost : Bool) (s : State) : Out :=
  if s.up 26 && s.flag Reg.dmcCtrl 0 && index < sramSize array.val && s.up (sramBlock array.val index) then
    if lost then .next (((s.bump (Reg.dmcCntSram 1)).event 197).sramLost array.val index)
    else .next (s.bump (Reg.dmcCntSram 0))
  else .next s

/-! ## Registers -/

/-- A write of DMC_WM: values that break LOW < HIGH ≤ 32 change nothing; the levels act on the queues at once (R313). -/
def State.dmcWmWrite (s : State) (v : Word) : State :=
  let high := bits v.toNat 13 8
  let low := bits v.toNat 5 0
  if high ≤ low || 32 < high then s else (List.range 16).foldl State.drainLevel (s.store Reg.dmcWm v)

/-- DMC_WM_WRITE (R313). -/
def execDmcWmWrite (b : BusWrite) (s : State) : Out := .next (s.busWrite Reg.dmcWm b State.dmcWmWrite)

def State.errAddrRead (s : State) (m : Nat) : State × Word :=
  (s.latchWord m Reg.dmcErrAddrHi (s.reg Reg.dmcErrAddrHi), s.reg Reg.dmcErrAddrLo)

/-- DMC_ERR_ADDR_LO_READ (R310). -/
def execDmcErrAddrLoRead (b : BusRead) (s : State) : Out :=
  .next (s.busRead Reg.dmcErrAddrLo b fun s => s.errAddrRead b.master.val)

def State.violAddrRead (s : State) (t m : Nat) : State × Word :=
  (s.latchWord m (Reg.prcViolAddrHi t) (s.reg (Reg.prcViolAddrHi t)), s.reg (Reg.prcViolAddrLo t))

/-- PRC_VIOL_ADDR_LO_READ (R327). -/
def execPrcViolAddrLoRead (target : Fin 23) (b : BusRead) (s : State) : Out :=
  .next (s.busRead (Reg.prcViolAddrLo target.val) b fun s => s.violAddrRead target.val b.master.val)

/-- DMC_CNT_CLR (R80). -/
def State.dmcCntClr (s : State) (v : Word) : State :=
  if v.getLsbD 0 then
    (List.range 16).foldl (fun s c => s.clrRegs (Reg.dmcCntCh c 0) 6) (s.clrRegs (Reg.dmcCntSram 0) 2)
  else s

/-- DMC_CNT_CLR (R80). -/
def execDmcCntClr (b : BusWrite) (s : State) : Out :=
  .next (s.busWrite Reg.dmcCntClr b State.dmcCntClr)

end Sys2Proof.Machine
end

