-- ==== Sys2Proof/Machine/RegRead.lean ====
section
/-!
DEFINITION. What a read of any register word answers (00 R7, R10; 15 R346): fields kept in the register map, fields formed from
the state, words latched by the read of another.
-/
namespace Sys2Proof.Machine

/-- A word with bit n set where p n holds. -/
def bitWord (n : Nat) (p : Nat → Bool) : Nat := (List.range n).foldl (fun a i => a + bnat (p i) * 2 ^ i) 0

/-- The fields of a stored word that a read shows (Table SCP-4). -/
def readable (fs : List RegField) (w : Nat) : Nat :=
  fs.foldl (fun a f => match f.acc with
    | .wo => a
    | .w1p => a
    | .rd => a
    | _ => a ||| (bits w f.msb f.lsb <<< f.lsb)) 0

def laneStCode : LaneSt → Nat
  | .active => 0
  | .quiet => 1
  | .dormant => 2
  | .transition => 3

/-- LANE_STATUS of a lane, its W1C bits apart. -/
def State.laneStatusBits (s : State) (l : Nat) : Nat :=
  let x := s.lane l
  laneStCode x.st + bnat x.sigDet * 4 + bnat x.cdrLock * 8 + bnat x.blockLock * 16 + bnat x.cwLock * 32
    + bnat x.held.isSome * 2 ^ 13

/-- Fields of the lanes' registers (03). -/
def State.laneWordBits (s : State) (off : Nat) : Nat :=
  let o := off - 0x500000
  if 0x7F000 ≤ o then bitWord 32 fun b => 32 * ((o - 0x7F000) / 4) + b < 74 && (s.lane (32 * ((o - 0x7F000) / 4) + b)).cwLock
  else
    let l := o / 0x1000
    match o % 0x1000 with
    | 0x4 => s.laneStatusBits l
    | 0x40 => bnat (s.lane l).chkLock * 2 ^ 8
    | 0x50 => bnat (s.lane l).inj.isSome * 2 ^ 30
    | _ => 0

/-- Fields of a port's registers (04). -/
def State.asmBits (s : State) (off : Nat) : Nat :=
  let p := (off - 0x400000) / 0x80000
  match off % 0x80000 with
  | 0x4 => s.asmStatus p
  | 0x20 => if p = 0 then s.wallNs % 2 ^ 32 else 0
  | 0x48 => (s.port p).upq.length * 2 ^ 16 + (s.port p).dnq.length
  | _ => 0

/-- Fields of the decoders' registers (05). -/
def State.decBits (s : State) (off : Nat) : Nat :=
  if off = Reg.decStatus then
    let busy (k : Nat) : Bool := match (s.decoder k).phase with | .gather => false | _ => (s.decoder k).slice.isSome
    s.dec.area.length * 2 ^ 8 + bitWord 4 (fun k => (s.decoder k).slice.isSome) * 2 ^ 4 + bitWord 4 busy
  else if off = Reg.decFrame then s.fSyn.getD 0
  else if off = Reg.decManStatus then s.dec.held.length * 2 ^ 8 + ((List.range 16).filter fun l => (s.boundLayer l).isSome).length
  else if Reg.decNeed 0 ≤ off && off ≤ Reg.decNeed 15 then s.needWord ((off - Reg.decNeed 0) / 4)
  else 0

/-- Fields of the Homerooms' registers (06). -/
def State.hrBits (s : State) (off : Nat) : Nat :=
  if off = Reg.hrShed then s.shedWord
  else if off = Reg.hrPvStatus then bnat s.syn.capture.isSome * 8 + s.syn.pvQueue.length
  else if off % 0x10000 = 4 then bitWord 16 fun e => (s.engine (engineKey ((off - 0x1100000) / 0x10000) e)).run.isSome
  else 0

def seqStCode : SeqSt → Nat
  | .stopped => 0
  | .awaiting => 1
  | .running => 2
  | .waiting _ => 3
  | .inFlip => 4
  | .halted => 5

/-- SEQ_STATUS, its W1C bits and CAUSE apart (R203: SWITCH_PENDING while the standing request names another code). -/
def State.seqStatusBits (s : State) : Nat :=
  let pend := match s.seq.fixed, s.seq.req with
    | some _, _ => true
    | none, some r => r != s.seq.rate
    | none, none => false
  bnat s.seq.freeRun * 2 ^ 26 + bnat pend * 2 ^ 25 + bnat s.seq.blanked * 2 ^ 24 + s.seq.rate % 8 * 2 ^ 16
    + bnat s.latency * 2 ^ 15 + seqStCode s.seq.st * 2 ^ 8

/-- Fields of the sequencer's registers (01, 08). -/
def State.seqBits (s : State) (off : Nat) : Nat :=
  if 0x1210000 ≤ off then (SMap.get (fun _ => (0 : Word)) s.seq.prog ((off - 0x1210000) / 4)).toNat
  else match off - 0x1200000 with
    | 0x4 => s.seqStatusBits
    | 0xC => s.seq.pc % 65536
    | 0x10 => s.seq.frame % 2 ^ 32
    | 0x20 => min 0x1FFFF s.slotCc * 2 ^ 15 + s.seq.slot
    | 0x28 => s.seq.msgs.length * 2 ^ 16 + s.seq.desc.length
    | 0x34 => (s.seq.desc.headD 0).toNat % 2 ^ 32
    | 0x38 => (s.seq.desc.headD 0).toNat / 2 ^ 32
    | 0xF08 => bnat s.seq.geoArmed * 2 ^ 31
    | 0xF0C => s.seq.geoM.toNat
    | 0xF10 => s.seq.geoX.toNat
    | 0xF14 => s.seq.geoY.toNat
    | o => if 0x40 ≤ o && o < 0x80 then s.tReg ((o - 0x40) / 4) else 0

/-- Fields of the camera registers (10). -/
def State.camBits (s : State) (off : Nat) : Nat :=
  if off = Reg.camRxStatus then s.cam.rx.toNat
  else
    let k := (off - 0x1500000) / 0x20000
    match off % 0x20000 with
    | 0x4 => bnat (s.pipe k).bound.isSome * 2 ^ 8 + (s.pipe k).bound.getD 0
    | 0x14 => bnat (s.pipe k).frame.isSome
    | _ => 0

/-- Fields of finishing and the tile link (11, 12). -/
def State.finBits (s : State) (off : Nat) : Nat :=
  if off = Reg.finCtrl then bnat s.fin.armed * 2 ^ 30
  else if off = Reg.finGainBusy then
    bitWord 16 (fun n => s.fin.queued.any fun q => q.tile == n) * 2 ^ 16 + bitWord 16 fun n => s.fin.loads.any fun l => l.tile == n
  else if Reg.finCursor 0 ≤ off && off ≤ Reg.finCursor 15 && s.activeSlot then
    s.seq.slot * 2 ^ 18 + s.cursor ((off - Reg.finCursor 0) / 4)
  else 0

def tileStCode : TileSt → Nat
  | .off => 0
  | .waking => 1
  | .linked => 2
  | .down => 3

def State.tlkBits (s : State) (off : Nat) : Nat :=
  if off = Reg.tlkCtrl then bnat s.tlk.armed * 2 ^ 30
  else if off = Reg.tlkState then (List.range 16).foldl (fun a n => a + tileStCode (s.tile n).st * 4 ^ n) 0
  else if off = Reg.tlkStatus then bnat s.tlk.refFault * 2 ^ 31 + bnat s.tlk.trip * 2 ^ 30
  else if Reg.tlkTemp 0 ≤ off && off ≤ Reg.tlkTemp 15 then
    match (s.tile ((off - Reg.tlkTemp 0) / 4)).statusAt with
    | some t => min 255 ((s.now - t) / 1600000) * 2 ^ 16
    | none => 0
  else if off = Reg.tlkHcmdHi then bnat s.tlk.host.isSome * 2 ^ 30
  else 0

/-- A word of RPT_TILEn (13). -/
def State.rptTileWord (s : State) (n j : Nat) : Nat :=
  let t := s.rptTile n
  match j with
  | 0 => t.kappa.getD 1 0 * 2 ^ 16 + t.kappa.getD 0 0
  | 1 => t.kappa.getD 2 0
  | 2 => t.mean.getD 1 0 * 2 ^ 16 + t.mean.getD 0 0
  | _ => min 256 (t.blend.getD 0) * 2 ^ 16 + t.mean.getD 2 0

/-- Fields of the Report Card and calibration (13). -/
def State.rptBits (s : State) (off : Nat) : Nat :=
  if off = Reg.rptStatus then
    bnat s.rpt.ckpt.isSome * 2 ^ 29 + bnat (s.rpt.restore.isSome || !s.rpt.restQueue.isEmpty) * 2 ^ 28
      + bnat s.rpt.clearing * 2 ^ 27 + s.seq.frame % 64
  else if Reg.rptTile 0 0 ≤ off && off ≤ Reg.rptTile 15 3 then
    s.rptTileWord ((off - Reg.rptTile 0 0) / 16) ((off - Reg.rptTile 0 0) / 4 % 4)
  else if off = Reg.calStatus then
    s.cal.trims.length % 16 * 2 ^ 16 + bnat (s.cal.sweepReq.isSome && s.cal.elec.isSome) * 8
      + bnat (s.cal.elecReq.isSome && s.cal.sweep.isSome) * 4 + bnat s.cal.sweep.isSome * 2 + bnat s.cal.elec.isSome
  else if off = Reg.calBaseBusy then
    bitWord 16 (fun n => s.cal.queued.any fun p => p.1 == n) * 2 ^ 16 + bitWord 16 fun n => s.cal.running.any fun p => p.1 == n
  else 0

/-- Fields of the memory controller and the Proctors (14). -/
def State.memBits (s : State) (off : Nat) : Nat :=
  if off = Reg.dmcStatus then bitWord 16 (fun c => (s.chan c).failed) * 2 ^ 16 + bitWord 16 fun c => (s.chan c).trained
  else if off = Reg.prcSummary then bitWord 23 fun t => s.flag (Reg.prcViol t) 31
  else if 0x1901000 ≤ off && off < 0x1901400 && off % 0x40 = 0x20 then
    let c := s.chan ((off - 0x1901000) / 0x40)
    bnat c.drain * 2 ^ 31 + c.reads.length * 2 ^ 16 + c.writes.length
  else 0

/-- Fields of the host's registers (15). -/
def State.hostBits (s : State) (off : Nat) : Nat :=
  if off = Reg.evtSummary then bitWord 9 fun g => s.reg (Reg.evtStatus g) &&& s.reg (Reg.evtEnable g) != 0
  else if off = Reg.evtFault then bnat s.faultPin * 2 ^ 31
  else if off = Reg.evtGpioIn then s.host.gpioFilt.toNat
  else if off = Reg.hstMsixPba 0 then s.host.msixPend.toNat % 2 ^ 32
  else if off = Reg.hstMsixPba 1 then s.host.msixPend.toNat / 2 ^ 32
  else if off = Reg.hpStatus then s.host.extents.length
  else if off = Reg.rcStatus then bnat s.host.rcBusy.isSome * 2 ^ 31 + s.host.rcQueue.length
  else 0

/-- Fields of Satchel and the blitter (16, 17). -/
def State.satBits (s : State) (off : Nat) : Nat :=
  if off = Reg.satStatus then bnat s.sat.dec.isSome * 32 + bnat s.sat.comp.isSome * 16 + s.sat.queue.length
  else if off = Reg.bltOp then bnat s.blt.op.isSome * 2 ^ 29
  else if off = Reg.bltPlaneArm then bnat s.blt.armed * 2 ^ 30 + s.blt.sel.toNat
  else if off = Reg.bltCommitBusy then
    bitWord 4 (fun p => (s.bltQueued p).isSome) * 16 + bitWord 4 fun p => (s.bltCommit p).isSome
  else 0

/-- Fields of the SEC, OPT, RST, CLK block (18, 20). -/
def State.coreBits (s : State) (off : Nat) : Nat :=
  if off = Reg.clkStatus then
    bnat s.clk.held.isSome * 2 ^ 11 + bnat s.clk.switch.isSome * 2 ^ 10 + s.clk.engineDiv % 8 * 2 ^ 5 + s.clk.stable.toNat % 32
  else if off = Reg.rstPend0 then bitWord 32 s.releasePends
  else if off = Reg.rstPend1 then bitWord 4 fun b => s.releasePends (32 + b)
  else if off = Reg.rstHeld0 then bitWord 32 fun b => !s.up b
  else if off = Reg.rstHeld1 then bitWord 4 fun b => !s.up (32 + b)
  else if off = Reg.rstBootHold then bnat s.rst.bootHold
  else if off = Reg.optStatus then bnat s.rst.loaded * 2 ^ 31
  else if 0x30000 ≤ off && off < 0x30100 then (List.range 4).foldl (fun a i => a + s.optByte (off - 0x30000 + i) * 256 ^ i) 0
  else if off = Reg.secStatus then s.blocksFree
  else if off = Reg.secLifecycle then s.lifecycle
  else if Reg.secAttPub 0 ≤ off && off ≤ Reg.secAttPub 7 then leAt attRoot (off - Reg.secAttPub 0) 4
  else 0

/-- The fields of a register that the state gives. -/
def State.derived (s : State) (off : Nat) : Nat :=
  if off < 0x100000 then s.coreBits off
  else if off < 0x400000 then s.hostBits off
  else if off < 0x500000 then s.asmBits off
  else if off < 0x800000 then s.laneWordBits off
  else if off < 0x1000000 then 0
  else if off < 0x1100000 then s.decBits off
  else if off < 0x1200000 then s.hrBits off
  else if off < 0x1300000 then s.seqBits off
  else if off < 0x1500000 then
    (if off = Reg.plcChartBusy then
      bitWord 16 (fun n => (s.plcTile n).queued.isSome) * 2 ^ 16 + bitWord 16 fun n => (s.plcTile n).running.isSome
    else 0)
  else if off < 0x1600000 then s.camBits off
  else if off < 0x1700000 then s.finBits off
  else if off < 0x1800000 then s.tlkBits off
  else if off < 0x1900000 then s.rptBits off
  else if off < 0x1A00000 then s.memBits off
  else s.satBits off

/-- Words that a read answers from the latch of another word's read (R346). -/
def latchedReg (off : Nat) : Bool :=
  off == Reg.asmWallHi || off == Reg.seqFrameHi || off == Reg.seqFlipLo || off == Reg.seqFlipHi || off == Reg.tlkHresHi
    || off == Reg.dmcErrAddrHi
    || (0x1908000 ≤ off && off < 0x190DC00 && off % 0x400 == 0x208)
    || (0x1581000 ≤ off && off < 0x1581400 && off % 8 == 4)
    || (0x230000 ≤ off && off < 0x230080 && 4 ≤ off % 0x20 && off % 0x20 ≤ 0x18)

/-- What a word that is read through a latch reads while nothing is latched for it. -/
def State.latchedLive (s : State) (off : Nat) : Word :=
  if off = Reg.seqFrameHi then word (s.seq.frame / 2 ^ 32)
  else if off = Reg.seqFlipLo then word s.seq.flipWall
  else if off = Reg.seqFlipHi then word (s.seq.flipWall / 2 ^ 32)
  else s.reg off

/-- A latched word serves one read; ASM_WALL_HI (04) and the words of a mailbox (R342) every read until the next latch. -/
def latchStays (off : Nat) : Bool := off == Reg.asmWallHi || (0x230000 ≤ off && off < 0x230080)

/-- The word at an offset as master m reads it: a latched one as latched; else as it stands. -/
def State.regRead (s : State) (m off : Nat) : Word :=
  if 0x800000 ≤ off && off < 0x1000000 then word (s.ctxRead (off - 0x800000))
  else if 0x1400000 ≤ off && off < 0x1500000 then s.chartWord m (off - 0x1400000)
  else if latchedReg off then (s.latched m off).getD (s.latchedLive off)
  else if adaptReg off then s.adaptWord off
  else match regFind off with
    | none => 0
    | some g => word (readable g.fields (s.reg off).toNat ||| s.derived off)

/-- A read of the word at an offset by master m, with the latches it sets. -/
def State.readWord (s : State) (m off : Nat) : State × Word :=
  if off = Reg.asmWallLo then s.wallLoRead m
  else if off = Reg.seqFrameLo then s.frameLoRead m
  else if off = Reg.tlkHresLo then s.hresLoRead m
  else if off = Reg.dmcErrAddrLo then s.errAddrRead m
  else if 0x1908000 ≤ off && off < 0x190DC00 && off % 0x400 = 0x204 then s.violAddrRead ((off - 0x1908000) / 0x400) m
  else if 0x1581000 ≤ off && off < 0x1581400 && off % 8 = 0 then s.spotRead m ((off - 0x1581000) / 8)
  else if 0x1400000 ≤ off && off < 0x14A6B80 && off % 8 = 0 then s.chartRead m ((off - 0x1400000) / 8)
  else if 0x230000 ≤ off && off < 0x230080 && off % 0x20 = 0 then s.mboxRead m ((off - 0x230000) / 0x20)
  else if adaptReg off then (s.drawn, s.regRead m off)
  else if (latchedReg off && !latchStays off) || (0x1400000 ≤ off && off < 0x14A6B80) then
    (s.unlatch m off, s.regRead m off)
  else (s, s.regRead m off)

end Sys2Proof.Machine
end

