-- ==== Sys2Proof/Machine/RollCall.lean ====
section
/-!
DEFINITION. Roll Call (15 R344 to R347), master 24: triggers, the reads of its list, the snapshot buffer and the result.
-/
namespace Sys2Proof.Machine

/-- N in force: values above 256 act as 256. -/
def State.rcN (s : State) : Nat := min 256 (s.fld Reg.rcCount 8 0)

/-- Roll Call's read of the word at a BAR0 offset: the value, and whether the read was answered (R344). -/
def State.rcRead (s : State) (off : Nat) : State × Word × Bool :=
  let t := proctorTarget off
  if noBlock off then (s, 0, true)
  else if !s.answers off then (s, 0, false)
  else if !s.permits t.1 24 t.2 4 false then (s.violation t.1 24 t.2 false, 0, false)
  else
    let r := s.readWord 24 off
    (r.1, r.2, true)

/-- The next list entry is read. -/
def State.rcReadNext (s : State) : State :=
  match s.host.rcBusy with
  | none => s
  | some x =>
    let r := s.rcRead (4 * s.fld (Reg.rcList x.values.length) 25 2)
    let s := if r.2.2 then r.1 else r.1.bump (Reg.rcCnt 2)
    { s with host := { s.host with
      rcBusy := some { x with values := x.values ++ [r.2.1], errs := x.errs + bnat (!r.2.2) } } }

/-- An entry is due: one every 4 fc. -/
def State.rcDue (s : State) : Bool :=
  match s.host.rcBusy with
  | none => false
  | some x => x.values.length < x.n && x.at_ + 8 * x.values.length ≤ s.now

/-- The read that falls in this cycle. -/
def State.rcTick (s : State) : State := if s.live 32 && s.rcDue then s.rcReadNext else s

/-- The result in HST_MBOX3 and EV_RC_DONE (R347). -/
def State.rcResult (s : State) (status snap buf frame n errs : Nat) : State :=
  (s.mboxResult 3 [word (status * 2 ^ 24 + s.fld Reg.rcCtrl 2 2 * 2 ^ 16 + snap % 65536), word buf, word frame, word n,
    word errs, 0]).event 46

/-- The triggers that are skipped (R344): no buffer, a snapshot that runs, a result that awaits its ACK. -/
def State.rcBlocked (s : State) : Bool :=
  s.host.rcQueue.isEmpty || s.host.rcBusy.isSome || s.flag (Reg.hstMbox0w 3) 31 || s.mboxStalled 3

/-- A trigger (R344, R345). -/
def State.rcTrigger (s : State) : State :=
  if s.rcBlocked then s.bump (Reg.rcCnt 1) else
  match s.host.rcQueue with
  | [] => s
  | x :: xs =>
    let n := s.rcN
    let s := { s with host := { s.host with rcQueue := xs } }
    if s.bufLen x < 128 + 4 * n then
      ((s.returnBuffer 24 x 3).bump (Reg.rcCnt 1)).rcResult 3 s.host.rcSnap x s.seq.frame n 0
    else
      let s := { (s.bump (Reg.rcCnt 0)) with host := { s.host with
        rcSnap := (s.host.rcSnap + 1) % 2 ^ 32
        rcBusy := some { buf := x, at_ := s.now, values := [], n := n, errs := 0, snap := s.host.rcSnap
                         frame := s.seq.frame, wall := s.wallNs } } }
      s.rcTick

/-- PERIOD: 0 acts as 1. -/
def State.rcPeriod (s : State) : Nat := max 1 (s.fld Reg.rcPeriod 15 0)

/-- ROLL_CALL_TRIGGER (R344): the next period of the wall clock has ended, or a flip to a frame that PERIOD divides. -/
def execRollCallTrigger (s : State) : Out :=
  if !s.live 32 || !s.flag Reg.rcCtrl 0 then .next s
  else if s.flag Reg.rcCtrl 1 then
    if s.seq.flipAt.isSome && s.seq.frame % s.rcPeriod = 0 && s.host.rcFrame != some s.seq.frame then
      .next { s with host := { s.host with rcFrame := some s.seq.frame } }.rcTrigger
    else .next s
  else
    let due := s.host.rcBase + s.rcPeriod * 1000000
    if due ≤ s.wallNs then .next { s with host := { s.host with rcBase := due } }.rcTrigger else .next s

/-- A write of RC_CTRL: EN set starts the rhythm; periods that ended while TRIG was 1 are not made up; NOW is a trigger, skipped and
counted while a snapshot runs (R344). -/
def State.rcCtrlWrite (s : State) (v : Word) : State :=
  let was := s.flag Reg.rcCtrl 0
  let flips := s.flag Reg.rcCtrl 1
  let s := s.store Reg.rcCtrl v
  let ms := s.rcPeriod * 1000000
  let s := if flips && !v.getLsbD 1 && s.host.rcBase ≤ s.wallNs then
      { s with host := { s.host with rcBase := s.host.rcBase + (s.wallNs - s.host.rcBase) / ms * ms } } else s
  let s := if v.getLsbD 0 && !was then
      { s with host := { s.host with rcBase := s.wallNs, rcFrame := some s.seq.frame } } else s
  if v.getLsbD 31 then s.rcTrigger else s

/-- RC_NOW (R344). -/
def execRcNow (b : BusWrite) (s : State) : Out := .next (s.busWrite Reg.rcCtrl b State.rcCtrlWrite)

/-- The content of a snapshot buffer from byte 64 (Table HST-8). -/
def Snapshot.content (x : Snapshot) (typ : Nat) : List Byte :=
  leBytes 8 typ ++ leBytes 4 0x4C4C4352 ++ leBytes 4 x.snap ++ leBytes 8 (x.frame % 2 ^ 48) ++ leBytes 8 x.wall
    ++ leBytes 2 x.n ++ leBytes 2 x.errs ++ List.replicate 28 0 ++ (x.values.map fun v => leBytes 4 v.toNat).flatten

/-- MSG_TYPE as sent: values below 0xC0 act as 0xC0; 0 where the buffer goes to the host (Table HST-8). -/
def State.rcType (s : State) : Nat := if s.flag Reg.rcCtrl 2 then max 0xC0 (s.fld Reg.rcCtrl 23 16) else 0

/-- The writes of a snapshot before its return: content, USED and CRC; false at the first error response, which is the last write
(R347). -/
def State.rcWrites (s : State) (x : Nat) (content : List Byte) : State × Bool :=
  let a := s.devWrite 24 (winAddr (x + 64)) content true
  if !a.2 then a else
  let b := a.1.devWrite 24 (winAddr (x + 8)) (leBytes 4 content.length)
  if !b.2 then b else b.1.devWrite 24 (winAddr (x + 12)) (leBytes 4 (crc32 content))

/-- A snapshot's buffer goes back to the host with a status, which is 6 where these writes meet an error (R347). -/
def State.rcReturn (s : State) (x : Snapshot) (status : Nat) : State :=
  let st := if s.writeOk 24 (winAddr x.buf) 8 then status else 6
  let s := s.returnBuffer 24 x.buf st
  (if st = 3 then s.bump (Reg.rcCnt 1) else s).rcResult st x.snap x.buf x.frame x.n x.errs

/-- SNAPSHOT_DONE (R345, R347): with every entry read, the buffer is written and goes to the host or to a port. -/
def execSnapshotDone (s : State) : Out :=
  match s.host.rcBusy with
  | none => .next s
  | some x =>
    if !s.live 32 || x.values.length < x.n || !s.memReady 24 (winAddr x.buf) (s.bufLen x.buf) then .next s
    else
      let p := s.fld Reg.rcCtrl 3 3
      let q := QueueId.asmUpq (p == 1)
      let r := { s with host := { s.host with rcBusy := none } }.rcWrites x.buf (x.content s.rcType)
      let s := r.1
      if !r.2 then .next (s.rcReturn x 6)
      else if !s.flag Reg.rcCtrl 2 then .next (s.rcReturn x 0)
      else if !s.live p then .next (s.rcReturn x 6)
      else if 16 ≤ (s.port p).upq.length + s.posting q then .next (s.rcReturn x 3)
      else
        let w := leNat (s.bytesAt (winAddr x.buf) 4)
        let o := s.devWrite 24 (winAddr x.buf) (leBytes 4 (w - w % 4 + 2))
        if !o.2 then .next (o.1.rcReturn x 6)
        else .next (((o.1.dropExtent x.buf).post q x.buf).rcResult 0 x.snap x.buf x.frame x.n x.errs)

end Sys2Proof.Machine
end

