-- ==== Sys2Proof/Machine/RegisterWrite.lean ====
section
/-!
DEFINITION. A write of any register word of BAR0 (00 R7 to R12; 15 R332, R334): fields take values by their access types,
and a register with an action of its own acts as its chapter says.
-/
namespace Sys2Proof.Machine

/-- SEC, OPT, RST and CLK. -/
def State.writeCore (s : State) (m off : Nat) (v : Word) : State :=
  if off = Reg.secCtrl then s.secCtrlWrite m v
  else if off = Reg.secLifecycle then s.lifecycleWrite m v
  else if off = Reg.secImgPost then s.imgPostWrite v
  else if off = Reg.secAttPost then s.attPostWrite v
  else if off = Reg.secExtend then s.extendWrite v
  else if off = Reg.secAsmkeyCtrl then s.asmkeyWrite m v
  else if Reg.secAsmkeyData 0 ≤ off && off ≤ Reg.secAsmkeyData 7 then s.asmkeyDataWrite m ((off - Reg.secAsmkeyData 0) / 4) v
  else if off = Reg.secCntClr then s.secCntClrWrite v
  else if off = Reg.clkGate0 then s.gateWrite 0 v
  else if off = Reg.clkGate1 then s.gateWrite 1 v
  else if off = Reg.rstBlock0 then s.rstBlockWrite 0 m v
  else if off = Reg.rstBlock1 then s.rstBlockWrite 1 m v
  else if off = Reg.rstDevice then s.rstDeviceWrite m v
  else if off = Reg.rstBootHold then s.bootHoldWrite m v
  else s.store off v

/-- EVT, HST, HP, the mailboxes and RC. -/
def State.writeHost (s : State) (m off : Nat) (v : Word) : State :=
  if Reg.evtStatus 0 ≤ off && off ≤ Reg.evtStatus 8 then s.evtStatusWrite ((off - Reg.evtStatus 0) / 4) v
  else if Reg.evtEnable 0 ≤ off && off ≤ Reg.evtEnable 8 then s.evtEnableWrite ((off - Reg.evtEnable 0) / 4) v
  else if off = Reg.evtSoftSet then s.softSet m v
  else if off = Reg.hpCntClr then s.hpCntClr v
  else if 0x230000 ≤ off && off < 0x230080 && off % 0x20 = 0x1C then s.mboxAckWrite ((off - 0x230000) / 0x20) v
  else if off = Reg.rcCtrl then s.rcCtrlWrite v
  else if off = Reg.rcPost then s.rcPostWrite v
  else if off = Reg.rcCntClr then s.rcCntClr v
  else s.store off v

/-- A port of ASM. -/
def State.writeAsm (s : State) (off : Nat) (v : Word) : State :=
  let p := (off - 0x400000) / 0x80000
  if off = Reg.asmCtrl p then s.asmCtrlWrite p v
  else if off = Reg.asmDnqPost p then s.asmPost p false v.toNat
  else if off = Reg.asmUpqPost p then s.asmPost p true v.toNat
  else if off = Reg.asmCntClr p then s.asmCntClr p v
  else if Reg.asmDetKey 0 ≤ off && off < Reg.asmDetKey 64 && off % 8 = 0 then s.detKeyWrite ((off - Reg.asmDetKey 0) / 8) v
  else s.store off v

/-- A lane; an enabled PRBS checker takes its lock away (R76). -/
def State.writeLane (s : State) (off : Nat) (v : Word) : State :=
  let l := (off - 0x500000) / 0x1000
  if 74 ≤ l then s.store off v
  else if off = Reg.laneCtrl l then s.laneCtrlWrite l v
  else if off = Reg.laneTxfir l then s.laneFirWrite l v
  else if off = Reg.laneCntClr l then s.laneCntClr l v
  else if off = Reg.lanePrbs l then (s.lanePrbsWrite l v).lockFollow l (s.lane l).cwLock
  else if off = Reg.laneInject l then s.laneInjectWrite l v
  else s.store off v

/-- DEC, HR, SEQ and PLC. -/
def State.writeScene (s : State) (off : Nat) (v : Word) : State :=
  if off = Reg.decStore then s.decStoreWrite v
  else if off = Reg.decCntClr then s.decCntClr v
  else if off = Reg.hrSynCntClr then s.hrSynCntClr v
  else if off = Reg.hrPvPost then s.pvPostWrite v
  else if 0x1100000 ≤ off && off < 0x11C0000 && off % 0x10000 = 0xFC then s.hrCntClr ((off - 0x1100000) / 0x10000) v
  else if off = Reg.seqCtrl then s.seqCtrlWrite v
  else if off = Reg.seqCntClr then s.seqCntClr v
  else if off = Reg.seqGeoMargin then s.geoMarginWrite v
  else if off = Reg.plcCtrl then s.plcCtrlWrite v
  else if off = Reg.plcRebuild then s.plcRebuildWrite v
  else if off = Reg.plcLoad then s.plcLoadWrite v
  else if off = Reg.plcCntClr then s.plcCntClr v
  else s.store off v

/-- CAM. -/
def State.writeCam (s : State) (off : Nat) (v : Word) : State :=
  let k := (off - 0x1500000) / 0x20000
  if off = Reg.camRxCtrl then s.camRxEnWrite v
  else if off = Reg.camRxCntClr then s.camRxCntClr v
  else if off < 0x1580000 && off = Reg.camCtrl k then s.camEnWrite k v
  else if off < 0x1580000 && off = Reg.camBind k then s.camBindWrite k v
  else if off < 0x1580000 && off = Reg.camCapPost k then s.camCapWrite k v
  else if off < 0x1580000 && off = Reg.camCntClr k then s.camCntClr k v
  else s.store off v

/-- FIN and TLK. -/
def State.writeTile (s : State) (m off : Nat) (v : Word) : State :=
  if off = Reg.finCtrl then s.finCtrlWrite v
  else if off = Reg.finResBase then s.finResBaseWrite v
  else if off = Reg.finGainLoad then s.gainLoadWrite m v
  else if off = Reg.finCntClr then s.finCntClr v
  else if off = Reg.tlkCtrl then s.tlkCtrlWrite v
  else if off = Reg.tlkTileEn then s.tileEnWrite v
  else if off = Reg.tlkCntClr then s.tlkCntClr v
  else if off = Reg.tlkHcmdHi then s.hcmdHiWrite v
  else if off = Reg.tlkHresAck then s.hresAckWrite v
  else s.store off v

/-- RPT and CAL. -/
def State.writeAge (s : State) (off : Nat) (v : Word) : State :=
  if off = Reg.rptCtrl then s.rptCtrlWrite v
  else if off = Reg.rptCkptCtrl then s.ckptCtrlWrite v
  else if off = Reg.rptCkptPost then s.ckptPostWrite v
  else if off = Reg.rptRestPost then s.restPostWrite v
  else if off = Reg.rptCntClr then s.rptCntClr v
  else if off = Reg.calRun then s.calRunWrite v
  else if off = Reg.calCntClr then s.calCntClr v
  else if off = Reg.calBaseLoad then s.baseLoadWrite v
  else if off = Reg.calRecLoad then s.recLoadWrite v
  else if off = Reg.calRecPost then s.recPostWrite v
  else s.store off v

/-- DMC and PRC. -/
def State.writeMem (s : State) (off : Nat) (v : Word) : State :=
  if off = Reg.dmcCtrl then s.dmcCtrlWrite v
  else if off = Reg.dmcWm then s.dmcWmWrite v
  else if off = Reg.dmcCntClr then s.dmcCntClr v
  else if 0x1908000 ≤ off && off < 0x190DC00 && off % 0x400 = 0x210 then s.prcLockWrite ((off - 0x1908000) / 0x400) v
  else s.store off v

/-- SAT, BLT, THM and AVS. -/
def State.writeRest (s : State) (off : Nat) (v : Word) : State :=
  if off = Reg.satCtrl then s.satCtrlWrite v
  else if off = Reg.satJobCtrl then s.satJobWrite v
  else if off = Reg.satCntClr then s.satCntClrWrite v
  else if off = Reg.bltOp then s.bltOpWrite v
  else if off = Reg.bltPlaneArm then s.bltArmWrite v
  else if off = Reg.bltCommit then s.bltCommitWrite v
  else if off = Reg.bltCntClr then s.bltCntClr v
  else if off = Reg.thmCtrl then s.thmCtrlWrite v
  else if off = Reg.thmBad0 then s.thmBadWrite false v
  else if off = Reg.thmBad1 then s.thmBadWrite true v
  else if off = Reg.avsCtrl then s.avsCtrlWrite v
  else if off = Reg.avsLimits then s.avsLimitsWrite v
  else s.store off v

/-- The effect of a write of v by master m at a BAR0 offset; the chart's windows and the program memory are read-only (R183,
R226), words of the context table go as pairs (R86). -/
def State.regEffect (s : State) (m off : Nat) (v : Word) : State :=
  if off < 0x100000 then s.writeCore m off v
  else if off < 0x400000 then s.writeHost m off v
  else if off < 0x500000 then s.writeAsm off v
  else if off < 0x800000 then s.writeLane off v
  else if off < 0x1000000 then s.ctxWrite (off - 0x800000) v.toNat
  else if off < 0x1400000 then s.writeScene off v
  else if off < 0x1500000 then s
  else if off < 0x1600000 then s.writeCam off v
  else if off < 0x1800000 then s.writeTile m off v
  else if off < 0x1900000 then s.writeAge off v
  else if off < 0x1A00000 then s.writeMem off v
  else s.writeRest off v

/-- A write of the word at an offset of BAR0. By the host, one that is not aligned or does not enable all four bytes is a bad access
(R332). Offsets outside every block ignore writes (R331). -/
def State.regWrite (s : State) (o : Nat) (b : BusWrite) : State :=
  let host := b.master.val = 16 ∧ s.hostPath = true
  if o % 4 ≠ 0 then (if host then s.badAccess o true 1 else s)
  else if noBlock o then (if host ∧ b.be ≠ 15 then s.badAccess o true 1 else s)
  else s.busWrite o b fun s v => s.regEffect b.master.val o v

/-- REGISTER_WRITE (R7 to R12, R332, R334): a request of one word, or of several, split into one access per word in increasing address
order (R332). -/
def execRegisterWrite (off : BitVec 26) (b : RegWrite) (s : State) : Out :=
  .next (b.more.zipIdx.foldl
    (fun s p => s.regWrite (off.toNat + 4 * (p.2 + 1)) { b.first with be := p.1.1, value := p.1.2 }) (s.regWrite off.toNat b.first))

/-! ## What waits behind posts (R333, R338) -/

/-- Held host writes at the head of what waits at the monitor are made, in order, up to the next post. -/
def drainHeld : List HpItem → State → State
  | .write x bs :: r, s => drainHeld r (s.monitorWrite x bs)
  | .reg off v be :: r, s =>
    let s := s.busReach off ⟨16, v, be⟩ fun s v => s.regEffect 16 off v
    if s.host.fifo.isEmpty then drainHeld r s else { s with host := { s.host with fifo := s.host.fifo ++ r } }
  | r, s => { s with host := { s.host with fifo := r } }

def State.drainFifo (s : State) : State := drainHeld s.host.fifo { s with host := { s.host with fifo := [] } }

/-! ## What waits for a gate to open (18 R389) -/

/-- An access that has waited is made, or ends with an error response where its block is in reset by now. -/
def State.accessNow (s : State) (a : GateAccess) : State :=
  match a.write with
  | some v => s.busApply a.off ⟨a.master, v, a.be⟩ fun s v => s.regEffect a.master.val a.off v
  | none => s.readApply a.off a.master.val a.be fun s => s.readWord a.master.val a.off

/-- Gates that have opened: the accesses that waited are made, oldest first. -/
def State.gateStep (s : State) : State :=
  if s.clk.resume.isEmpty then s else
  let due := s.clk.waiting.filter fun a => !s.resuming (blockOf a.off)
  let rest := s.clk.waiting.filter fun a => s.resuming (blockOf a.off)
  let left := s.clk.resume.filter fun p => s.now < p.2
  due.foldl State.accessNow { s with clk := { s.clk with resume := left, waiting := rest } }

end Sys2Proof.Machine
end

