-- ==== Sys2Proof/Machine/PostCheck.lean ====
section
/-!
DEFINITION. The check of a post (15 R337, R338): refusal, or registration in the monitor and entry into its queue.
-/
namespace Sys2Proof.Machine

/-- OWNER that a queue asks for (R337 reason 1). -/
def QueueId.owner : QueueId → Nat
  | .asmDnq _ => 2
  | .asmUpq _ => 2
  | _ => 1

/-- Bytes of the window. -/
def winSize : Nat := 0x40000000

/-- Bytes 0 to 7 of a buffer as the master of its queue reads them: OWNER, and the length in bytes (R336, R337). -/
def State.ownerRead (s : State) (m x : Nat) : State × Nat × Nat :=
  let r := s.devRead m (winAddr x) 8
  (r.1, leAt r.2.1 0 4 % 4, ownerLen (leAt r.2.1 4 4))

/-- The reason a post of a buffer is refused, 0 for none (R337). -/
def State.postReason (s : State) (q : QueueId) (owner x len : Nat) : Nat :=
  if owner ≠ q.owner then 1
  else if winSize < x + len then 2
  else if s.inExtent x len then 3
  else if 256 ≤ s.host.extents.length then 4
  else 0

/-- What the chapter of a queue does about a refused post (R216, R248, R298, R299). -/
def State.postRefused (s : State) : QueueId → State
  | .plcLoad n => s.plcLoadError n
  | .finGain n => s.gainError n
  | .calBase n => s.setFlag Reg.calBaseStatus (16 + n)
  | .calRecLoad => s.setFlag Reg.calStatus 31
  | _ => s

/-- A registered buffer enters its queue. -/
def State.postAccepted (s : State) (x : Nat) : QueueId → State
  | .asmDnq p => s.setPort (bnat p) { s.port (bnat p) with dnq := (s.port (bnat p)).dnq ++ [x] }
  | .asmUpq p => s.setPort (bnat p) { s.port (bnat p) with upq := (s.port (bnat p)).upq ++ [x] }
  | .hrPv => { s with syn := { s.syn with pvQueue := s.syn.pvQueue ++ [x] } }
  | .plcLoad n => s.plcLoadAccept n x
  | .camCap k => s.setPipe k { s.pipe k with queue := (s.pipe k).queue ++ [x] }
  | .finGain n => s.gainAccept n x
  | .calBase n => s.baseAccept n x
  | .calRecLoad => s.recAccept x
  | .calRec => { s with cal := { s.cal with recQueue := s.cal.recQueue ++ [x] } }
  | .rptCkpt => s.ckptAccept x
  | .rptRest => s.restAccept x
  | .rc => { s with host := { s.host with rcQueue := s.host.rcQueue ++ [x] } }
  | .secImg => s.imgAccept x
  | .secAtt => s.attAccept x

/-- The master that writes into a buffer of a queue (14 Table MEM-9). -/
def QueueId.master : QueueId → Nat
  | .asmDnq _ => 15
  | .asmUpq _ => 15
  | .hrPv => 22
  | .plcLoad _ => 25
  | .camCap _ => 18
  | .finGain _ => 22
  | .calBase _ => 20
  | .calRecLoad => 20
  | .calRec => 20
  | .rptCkpt => 19
  | .rptRest => 19
  | .rc => 24
  | .secImg => 0
  | .secAtt => 0

/-- The BAR0 address a buffer is posted to for a queue. -/
def QueueId.reg : QueueId → Nat
  | .asmDnq p => Reg.asmDnqPost (bnat p)
  | .asmUpq p => Reg.asmUpqPost (bnat p)
  | .hrPv => Reg.hrPvPost
  | .plcLoad _ => Reg.plcLoad
  | .camCap k => Reg.camCapPost k
  | .finGain _ => Reg.finGainLoad
  | .calBase _ => Reg.calBaseLoad
  | .calRecLoad => Reg.calRecLoad
  | .calRec => Reg.calRecPost
  | .rptCkpt => Reg.rptCkptPost
  | .rptRest => Reg.rptRestPost
  | .rc => Reg.rcPost
  | .secImg => Reg.secImgPost
  | .secAtt => Reg.secAttPost

/-- A refused post (R337; of several in a cycle the one posted to the lower BAR0 address is latched): latched, evented, and the buffer retired unless a registered extent holds its ownership word. -/
def State.refusePost (s : State) (q : QueueId) (x reason : Nat) : State :=
  let s := s.latchFirst Reg.hpRefuse q.reg [(Reg.hpRefuse, word (2 ^ 31 + x / 64 * 64 + reason))]
  let s := if s.inExtent x 64 then s else s.ownerReturn q.master x 1
  (s.event 33).postRefused q

/-- A post that passes: the extent is registered, then the queue takes it. -/
def State.acceptPost (s : State) (q : QueueId) (x len : Nat) : State :=
  ({ s with host := { s.host with extents := s.host.extents ++ [Extent.mk x len q] } }).postAccepted x q

/-- A post is checked (R337). -/
def State.postCheck (s : State) (q : QueueId) (x : Nat) : State :=
  let r := s.ownerRead q.master x
  let k := r.1.postReason q r.2.1 x r.2.2
  if k = 0 then r.1.acceptPost q x r.2.2 else r.1.refusePost q x k

/-- POST_CHECK (R337, R338): the oldest post at the monitor is refused or registered, then the host writes held behind it
are made. -/
def execPostCheck (s : State) : Out :=
  match s.host.fifo with
  | .post q x :: r =>
    if s.live 34 && s.memReady q.master (winAddr x) 64 then
      let s := { s with host := { s.host with fifo := [] } }.postCheck q x
      .next { s with host := { s.host with fifo := s.host.fifo ++ r } }.drainFifo
    else .next s
  | _ => .next s

end Sys2Proof.Machine
end

