-- ==== Sys2Proof/Machine/SlateAlu.lean ====
section
/-!
DEFINITION. Slate's control, scalar, vector and predicate instructions (07 R162 to R167; Tables SLT-9 to SLT-14).
-/
namespace Sys2Proof.Machine

/-! ## Control (R162) -/

/-- A target is a multiple of 8 in the code region. -/
def targetOk (x : Int) : Bool := x % 8 == 0 && 0 ≤ x && x < 0x80000

/-- The target of BR and CALL: relative, or IMM32 with an extension word. -/
def branchTarget (w : SlateWord) (pc : Nat) : Int :=
  if w.ext then (w.imm32.toNat : Int) else (pc : Int) + 8 * w.imm16.toInt

def execNop (t : ThreadId) (w : SlateWord) (s : State) : Out := s.issue t { opc := 0x00 } w false fun s _ => .go s

/-- BR: the test of MOD[1:0] on the guard bits; 3 is ILLEGAL. It overrides the guard rule. -/
def execBr (t : ThreadId) (w : SlateWord) (s : State) : Out :=
  let m := w.mod.toNat % 4
  s.issue t { opc := 0x01, mod := 3, imm := true, ext := true, legal := m != 3 } w true fun s th =>
    let g := th.guard w
    let hold : Bool := if m = 0 then g != 0 else if m = 1 then g == BitVec.allOnes 64 else g == 0
    if !hold then .go s
    else if targetOk (branchTarget w th.pc) then .jump s (branchTarget w th.pc).toNat
    else .trap s 4

def execJmp (t : ThreadId) (w : SlateWord) (s : State) : Out :=
  s.issue t { opc := 0x02, a := .s } w false fun s th =>
    let x := (th.sreg w.a.toNat).toNat
    if targetOk x then .jump s x else .trap s 4

/-- CALL: push the address after the instruction, then branch; a bad target before a full stack (R180). -/
def execCall (t : ThreadId) (w : SlateWord) (s : State) : Out :=
  s.issue t { opc := 0x03, imm := true, ext := true } w false fun s th =>
    if !targetOk (branchTarget w th.pc) then .trap s 4
    else if 16 ≤ th.calls.length then .trap s 5
    else .jump (s.setThread (threadKey t) { th with calls := (th.pc + slateSize w) :: th.calls })
      (branchTarget w th.pc).toNat

def execRet (t : ThreadId) (w : SlateWord) (s : State) : Out :=
  s.issue t { opc := 0x04 } w false fun s th =>
    match th.calls with
    | [] => .trap s 5
    | x :: xs => .jump (s.setThread (threadKey t) { th with calls := xs }) x

/-- EXIT (R171, R182): outstanding tags complete first, their errors raise STREAM; then the thread ends. -/
def execExit (t : ThreadId) (w : SlateWord) (s : State) : Out :=
  s.issue t { opc := 0x05 } w false fun s th =>
    if th.streams.any fun x => !x.done then .stall
    else
      let s := th.streams.foldl (fun s x => s.streamLand t.hr.val t.eng.val x) s
      if th.streams.any fun x => !x.errs.isEmpty then
        .trap (s.setThread (threadKey t) { (s.thread (threadKey t)) with tags := [] }) 8
      else .ended (s.endThread t)

def execTrap (t : ThreadId) (w : SlateWord) (s : State) : Out :=
  s.issue t { opc := 0x06, imm := true } w false fun s _ => .trap s 9

/-! ## Scalar ALU (R163) -/

/-- A scalar instruction with sources A and B. -/
def State.scalarOp (s : State) (t : ThreadId) (w : SlateWord) (opc : BitVec 8) (tys : List Nat) (f : Word → Word → Word) : Out :=
  s.issue t { opc := opc, tys := tys, d := .s, a := .s, b := .s, bsels := [0, 2, 3] } w false
    (State.regsOnly t fun th => th.setS w.d.toNat (f (th.sreg w.a.toNat) (th.opS w)))

def execSadd (t : ThreadId) (w : SlateWord) (s : State) : Out := s.scalarOp t w 0x10 [0, 1, 2] (addT w.ty.toNat)
def execSsub (t : ThreadId) (w : SlateWord) (s : State) : Out := s.scalarOp t w 0x11 [0, 1, 2] (subT w.ty.toNat)
def execSmul (t : ThreadId) (w : SlateWord) (s : State) : Out := s.scalarOp t w 0x12 [0, 1, 2] (mulT w.ty.toNat)
def execSand (t : ThreadId) (w : SlateWord) (s : State) : Out := s.scalarOp t w 0x13 [0, 1] (· &&& ·)
def execSor (t : ThreadId) (w : SlateWord) (s : State) : Out := s.scalarOp t w 0x14 [0, 1] (· ||| ·)
def execSxor (t : ThreadId) (w : SlateWord) (s : State) : Out := s.scalarOp t w 0x15 [0, 1] (· ^^^ ·)
def execSshl (t : ThreadId) (w : SlateWord) (s : State) : Out := s.scalarOp t w 0x16 [0, 1] shlT
def execSshr (t : ThreadId) (w : SlateWord) (s : State) : Out := s.scalarOp t w 0x17 [0, 1] (shrT w.ty.toNat)

/-- SMIN and SMAX: a draw decides between zeros of unlike sign. -/
def State.scalarMinMax (s : State) (t : ThreadId) (w : SlateWord) (opc : BitVec 8) (isMin : Bool) : Out :=
  s.issue t { opc := opc, tys := [0, 1, 2], d := .s, a := .s, b := .s, bsels := [0, 2, 3] } w false fun s th =>
    let r := minMaxT w.ty.toNat isMin (Config.freeBit s.draws 0) (th.sreg w.a.toNat) (th.opS w)
    .go (s.drawn.setThread (threadKey t) (th.setS w.d.toNat r))

def execSmin (t : ThreadId) (w : SlateWord) (s : State) : Out := s.scalarMinMax t w 0x18 true
def execSmax (t : ThreadId) (w : SlateWord) (s : State) : Out := s.scalarMinMax t w 0x19 false

def execSmov (t : ThreadId) (w : SlateWord) (s : State) : Out :=
  s.issue t { opc := 0x1A, tys := [0, 1, 2], d := .s, b := .s, bsels := [0, 2, 3] } w false
    (State.regsOnly t fun th => th.setS w.d.toNat (th.opS w))

/-- A word written with a type: UF20 keeps bits 19:0 (Table SLT-4). -/
def typed (ty : Nat) (a : Word) : Word := if ty = 5 then a &&& 0xFFFFF else a

/-- A special register of a thread (Table SLT-3), none for a number it does not list. -/
def State.specialReg (s : State) (t : ThreadId) (n : Nat) : Option Word :=
  let e := s.engine (engineKey t.hr.val t.eng.val)
  let c := e.run.getD ⟨0, 0, 0, 0⟩
  let bank := if c.row % 2 = 0 then s.syn.bank0 else s.syn.bank1
  match n with
  | 0 => some (word c.row)
  | 1 => some (word t.eng.val)
  | 2 => some (word t.hr.val)
  | 3 => some (word t.th.val)
  | 4 => some (word (0x2FF000 + 0x800 * (c.row % 2)))
  | 5 => some (word c.frame)
  | 6 => some (word (c.frame / 2 ^ 32))
  | 7 => some (word (0x80000 + t.eng.val * 0x20000))
  | 8 => some (word t.eng.val)
  | 9 => some (word (bnat s.latency))
  | 10 => some (word (min 0xFFFFFFFF (s.clk.engineCycles - c.launch)))
  | 11 => some (word s.seq.slot)
  | 12 => some (word s.slotCc)
  | 13 => some (word (s.cursor t.eng.val))
  | 14 => some (word bank.stack.length)
  | _ => none

def execSmfsr (t : ThreadId) (w : SlateWord) (s : State) : Out :=
  s.issue t { opc := 0x1B, tys := [1], d := .s, imm := true, legal := w.imm16.toNat ≤ 14 } w false fun s th =>
    match s.specialReg t w.imm16.toNat with
    | some x => .go (s.setThread (threadKey t) (th.setS w.d.toNat x))
    | none => .trap s 1

/-- SCMP: all ones or all zeros into a predicate; conditions 6 and 7 are ILLEGAL. -/
def execScmp (t : ThreadId) (w : SlateWord) (s : State) : Out :=
  s.issue t { opc := 0x1C, tys := [0, 1, 2], d := .p, a := .s, b := .s, bsels := [0, 2, 3], mod := 7,
              legal := w.mod.toNat % 8 < 6 } w false fun s th =>
    let r := condT w.ty.toNat (w.mod.toNat % 8) (th.sreg w.a.toNat) (th.opS w)
    .go (s.setThread (threadKey t) (th.setP w.d.toNat (if r then BitVec.allOnes 64 else 0)))

def execSgetl (t : ThreadId) (w : SlateWord) (s : State) : Out :=
  s.issue t { opc := 0x1D, tys := [1], d := .s, a := .v, b := .s, bsels := [0, 2, 3] } w false
    (State.regsOnly t fun th => th.setS w.d.toNat (th.vreg w.a.toNat ((th.opS w).toNat % 64)))

/-! ## Vector ALU (R164) -/

/-- A vector instruction with sources A and B and, where `c` names one, C. -/
def State.vectorOp (s : State) (t : ThreadId) (w : SlateWord) (opc : BitVec 8) (tys : List Nat) (c : RegKind)
    (f : Word → Word → Word → Word) : Out :=
  s.issue t { opc := opc, tys := tys, d := .v, a := .v, b := .v, c := c, bsels := [0, 1, 2, 3] } w true
    (State.regsOnly t fun th => th.mapV (th.guard w) w.d.toNat fun l =>
      f (th.vreg w.a.toNat l) (th.opV w l) (th.vreg w.c.toNat l))

/-- A vector instruction with source A alone. -/
def State.vectorUnary (s : State) (t : ThreadId) (w : SlateWord) (opc : BitVec 8) (tys : List Nat) (f : Word → Word) : Out :=
  s.issue t { opc := opc, tys := tys, d := .v, a := .v } w true
    (State.regsOnly t fun th => th.mapV (th.guard w) w.d.toNat fun l => f (th.vreg w.a.toNat l))

def execVadd (t : ThreadId) (w : SlateWord) (s : State) : Out :=
  s.vectorOp t w 0x20 [0, 1, 2, 3, 4] .unused fun a b _ => addT w.ty.toNat a b
def execVsub (t : ThreadId) (w : SlateWord) (s : State) : Out :=
  s.vectorOp t w 0x21 [0, 1, 2, 3, 4] .unused fun a b _ => subT w.ty.toNat a b
def execVmul (t : ThreadId) (w : SlateWord) (s : State) : Out :=
  s.vectorOp t w 0x22 [0, 1, 2, 3, 4] .unused fun a b _ => mulT w.ty.toNat a b
def execVmad (t : ThreadId) (w : SlateWord) (s : State) : Out :=
  s.vectorOp t w 0x23 [0, 1, 2, 3, 4] .v fun a b c => madT w.ty.toNat a b c

/-- VMIN and VMAX: draws decide between zeros of unlike sign, lane by lane. -/
def State.vectorMinMax (s : State) (t : ThreadId) (w : SlateWord) (opc : BitVec 8) (isMin : Bool) : Out :=
  s.issue t { opc := opc, tys := [0, 1, 2, 3, 4], d := .v, a := .v, b := .v, bsels := [0, 1, 2, 3] } w true fun s th =>
    let th' := th.mapV (th.guard w) w.d.toNat fun l =>
      minMaxT w.ty.toNat isMin (Config.freeBit s.draws l) (th.vreg w.a.toNat l) (th.opV w l)
    .go (s.drawn.setThread (threadKey t) th')

def execVmin (t : ThreadId) (w : SlateWord) (s : State) : Out := s.vectorMinMax t w 0x24 true
def execVmax (t : ThreadId) (w : SlateWord) (s : State) : Out := s.vectorMinMax t w 0x25 false

def execVabs (t : ThreadId) (w : SlateWord) (s : State) : Out := s.vectorUnary t w 0x26 [0, 2, 3, 4] (absT w.ty.toNat)
def execVneg (t : ThreadId) (w : SlateWord) (s : State) : Out := s.vectorUnary t w 0x27 [0, 2, 3, 4] (negT w.ty.toNat)
def execVand (t : ThreadId) (w : SlateWord) (s : State) : Out :=
  s.vectorOp t w 0x28 [0, 1] .unused fun a b _ => a &&& b
def execVor (t : ThreadId) (w : SlateWord) (s : State) : Out :=
  s.vectorOp t w 0x29 [0, 1] .unused fun a b _ => a ||| b
def execVxor (t : ThreadId) (w : SlateWord) (s : State) : Out :=
  s.vectorOp t w 0x2A [0, 1] .unused fun a b _ => a ^^^ b
def execVshl (t : ThreadId) (w : SlateWord) (s : State) : Out :=
  s.vectorOp t w 0x2B [0, 1] .unused fun a b _ => shlT a b
def execVshr (t : ThreadId) (w : SlateWord) (s : State) : Out :=
  s.vectorOp t w 0x2C [0, 1] .unused fun a b _ => shrT w.ty.toNat a b

def execVmov (t : ThreadId) (w : SlateWord) (s : State) : Out :=
  s.issue t { opc := 0x2D, tys := [0, 1, 2, 3, 4, 5], d := .v, b := .v, bsels := [0, 1, 2, 3] } w true
    (State.regsOnly t fun th => th.mapV (th.guard w) w.d.toNat fun l => typed w.ty.toNat (th.opV w l))

/-- VSEL: C names the predicate. -/
def execVsel (t : ThreadId) (w : SlateWord) (s : State) : Out :=
  s.issue t { opc := 0x2E, tys := [1], d := .v, a := .v, b := .v, c := .p, bsels := [0, 1, 2, 3] } w true
    (State.regsOnly t fun th => th.mapV (th.guard w) w.d.toNat fun l =>
      if (th.preg w.c.toNat).getLsbD l then th.vreg w.a.toNat l else th.opV w l)

def execVshfl (t : ThreadId) (w : SlateWord) (s : State) : Out :=
  s.issue t { opc := 0x2F, tys := [1], d := .v, a := .v, b := .v, bsels := [0, 1, 2, 3] } w true
    (State.regsOnly t fun th => th.mapV (th.guard w) w.d.toNat fun l =>
      th.vreg w.a.toNat ((th.opV w l).toNat % 64))

/-! ## Float functions and conversion (R165, R166) -/

def execVrcp (t : ThreadId) (w : SlateWord) (s : State) : Out :=
  s.vectorUnary t w 0x30 [2] fun a => word (fRcp binary32 a.toNat)
def execVsqrt (t : ThreadId) (w : SlateWord) (s : State) : Out :=
  s.vectorUnary t w 0x31 [2] fun a => word (fSqrt binary32 a.toNat)
def execVrsq (t : ThreadId) (w : SlateWord) (s : State) : Out :=
  s.vectorUnary t w 0x32 [2] fun a => word (fRsq binary32 a.toNat)
def execVfloor (t : ThreadId) (w : SlateWord) (s : State) : Out :=
  s.vectorUnary t w 0x33 [2] fun a => word (fFloor binary32 a.toNat)
/-- VSAT: whether -0.0 counts as within 0.0 to 1.0 and keeps its sign, a free value says (DEDUCED, log entry 10). -/
def execVsat (t : ThreadId) (w : SlateWord) (s : State) : Out :=
  s.issue t { opc := 0x34, tys := [2], d := .v, a := .v } w true fun s th =>
    let th' := th.mapV (th.guard w) w.d.toNat fun l =>
      let a := th.vreg w.a.toNat l
      if a == 0x80000000 && Config.freeBit s.draws l then a else word (fSat binary32 a.toNat)
    .go (s.drawn.setThread (threadKey t) th')

def roundingOf (m : Nat) : Rounding := if m = 0 then .nearest else if m = 1 then .zero else if m = 2 then .down else .up

/-- The value of a word of a source type; `hi` picks the F16x2 element. -/
def valueOf (ty : Nat) (hi : Bool) (a : Word) : FVal :=
  match ty with
  | 0 => .fin (decide (a.toInt < 0)) a.toInt.natAbs 0
  | 1 => .fin false a.toNat 0
  | 2 => unpackF binary32 a.toNat
  | 3 => unpackF binary16 (if hi then a.toNat / 65536 else a.toNat % 65536)
  | 4 => .fin (decide (a.toInt < 0)) a.toInt.natAbs (-16)
  | _ => unpackF uf20 (a.toNat % 2 ^ 20)

/-- A value as a word of a destination type other than F16x2 (R155, R166). -/
def wordOf (ty : Nat) (r : Rounding) (x : FVal) : Word :=
  match ty with
  | 0 => word (toBits 32 (FVal.toIntSat r (-2147483648) 2147483647 0 x))
  | 1 => word (toBits 32 (FVal.toIntSat r 0 4294967295 0 x))
  | 2 => word (packF binary32 r x)
  | 4 => word (toBits 32 (FVal.toIntSat r (-2147483648) 2147483647 16 x))
  | _ => word (toUf20 r x)

/-- One lane of VCVT. -/
def convert (src dst : Nat) (r : Rounding) (hi : Bool) (a b : Word) : Word :=
  if src = dst then (if dst = 5 then a &&& 0xFFFFF else a)
  else if dst = 3 then
    word (packF binary16 r (unpackF binary32 a.toNat) + 65536 * packF binary16 r (unpackF binary32 b.toNat))
  else wordOf dst r (valueOf src hi a)

/-- VCVT (R166): MOD[2:0] is the source type, MOD[4:3] the rounding, MOD[5] the element of an F16x2 source; B is read only
for an F16x2 destination. -/
def execVcvt (t : ThreadId) (w : SlateWord) (s : State) : Out :=
  let src := w.mod.toNat % 8
  let dst := w.ty.toNat
  let pack := dst == 3 && src != 3
  s.issue t { opc := 0x35, tys := [0, 1, 2, 3, 4, 5], d := .v, a := .v, b := if pack then .v else .unused,
              bsels := if pack then [0, 1, 2, 3] else [0], mod := 63,
              legal := src < 6 && !(dst == 3 && src != 2 && src != 3) && !(src == 3 && dst != 2 && dst != 3)
                && !(src != 3 && w.mod.getLsbD 5) } w true fun s th =>
    State.regsOnly t (fun th => th.mapV (th.guard w) w.d.toNat fun l =>
      convert src dst (roundingOf (w.mod.toNat / 8 % 4)) (w.mod.getLsbD 5) (th.vreg w.a.toNat l) (th.opV w l)) s th

/-! ## Compare and predicate (R164, R167) -/

/-- VCMP (R167). -/
def execVcmp (t : ThreadId) (w : SlateWord) (s : State) : Out :=
  s.issue t { opc := 0x40, tys := [0, 1, 2, 4], d := .p, a := .v, b := .v, bsels := [0, 1, 2, 3], mod := 7,
              legal := w.mod.toNat % 8 < 6 } w true fun s th =>
    let x := lanesWhere fun l => condT w.ty.toNat (w.mod.toNat % 8) (th.vreg w.a.toNat l) (th.opV w l)
    .go (s.setThread (threadKey t) (th.mapP (th.guard w) w.d.toNat x))

/-- A predicate instruction on the active lanes. -/
def State.predOp (s : State) (t : ThreadId) (w : SlateWord) (opc : BitVec 8) (b : RegKind)
    (f : BitVec 64 → BitVec 64 → BitVec 64) : Out :=
  s.issue t { opc := opc, d := .p, a := .p, b := b } w true
    (State.regsOnly t fun th => th.mapP (th.guard w) w.d.toNat (f (th.preg w.a.toNat) (th.preg w.b.toNat)))

def execPand (t : ThreadId) (w : SlateWord) (s : State) : Out := s.predOp t w 0x41 .p (· &&& ·)
def execPor (t : ThreadId) (w : SlateWord) (s : State) : Out := s.predOp t w 0x42 .p (· ||| ·)
def execPxor (t : ThreadId) (w : SlateWord) (s : State) : Out := s.predOp t w 0x43 .p (· ^^^ ·)
def execPnot (t : ThreadId) (w : SlateWord) (s : State) : Out := s.predOp t w 0x44 .unused fun a _ => ~~~ a

/-- PSET: a predicate from two scalars, not lane-guarded. -/
def execPset (t : ThreadId) (w : SlateWord) (s : State) : Out :=
  s.issue t { opc := 0x45, d := .p, a := .s, b := .s } w false
    (State.regsOnly t fun th => th.setP w.d.toNat
      (BitVec.ofNat 64 ((th.sreg w.a.toNat).toNat + 2 ^ 32 * (th.sreg w.b.toNat).toNat)))

/-- PGET: half MOD[0] of a predicate. -/
def execPget (t : ThreadId) (w : SlateWord) (s : State) : Out :=
  s.issue t { opc := 0x46, d := .s, a := .p, mod := 1 } w false
    (State.regsOnly t fun th => th.setS w.d.toNat (word ((th.preg w.a.toNat).toNat / 2 ^ (32 * (w.mod.toNat % 2)))))

def execPcnt (t : ThreadId) (w : SlateWord) (s : State) : Out :=
  s.issue t { opc := 0x47, d := .s, a := .p } w false
    (State.regsOnly t fun th => th.setS w.d.toNat (word (lanesOf (th.preg w.a.toNat)).length))

end Sys2Proof.Machine
end

