-- ==== Sys2Proof/Machine/Dispatch.lean ====
section
/-!
DEFINITION. What each command does to everything but the queue: one arm per constructor of `Instr`.
-/
namespace Sys2Proof.Machine

def exec (i : Instr) (s : State) : Host.Outcome State Fault Refusal :=
  match i with
  | .slotStart => Sys2Proof.Machine.execSlotStart s
  | .flip => Sys2Proof.Machine.execFlip s
  | .holdoverFlip => Sys2Proof.Machine.execHoldoverFlip s
  | .freeRunFlip => Sys2Proof.Machine.execFreeRunFlip s
  | .chunkLaunch hr engine => Sys2Proof.Machine.execChunkLaunch hr engine s
  | .completenessCheck tile u => Sys2Proof.Machine.execCompletenessCheck tile u s
  | .codewordReceived lane levels => Sys2Proof.Machine.execCodewordReceived lane levels s
  | .alignmentHunt lane levels => Sys2Proof.Machine.execAlignmentHunt lane levels s
  | .lockLost lane => Sys2Proof.Machine.execLockLost lane s
  | .sigLost lane => Sys2Proof.Machine.execSigLost lane s
  | .stateReq lane b => Sys2Proof.Machine.execStateReq lane b s
  | .stateTransition lane => Sys2Proof.Machine.execStateTransition lane s
  | .laneStateComplete lane => Sys2Proof.Machine.execLaneStateComplete lane s
  | .laneTxfirWrite lane b => Sys2Proof.Machine.execLaneTxfirWrite lane b s
  | .txCodewordBoundary lane => Sys2Proof.Machine.execTxCodewordBoundary lane s
  | .chkLock lane levels => Sys2Proof.Machine.execChkLock lane levels s
  | .injectGo lane b => Sys2Proof.Machine.execInjectGo lane b s
  | .injection lane => Sys2Proof.Machine.execInjection lane s
  | .laneCntClr lane b => Sys2Proof.Machine.execLaneCntClr lane b s
  | .upstreamBurst port grant => Sys2Proof.Machine.execUpstreamBurst port grant s
  | .packet port lane => Sys2Proof.Machine.execPacket port lane s
  | .filterLookup port lane => Sys2Proof.Machine.execFilterLookup port lane s
  | .tagCheck port => Sys2Proof.Machine.execTagCheck port s
  | .lossDeclared => Sys2Proof.Machine.execLossDeclared s
  | .repairExpiry => Sys2Proof.Machine.execRepairExpiry s
  | .bellTimeout port => Sys2Proof.Machine.execBellTimeout port s
  | .bellSwitch => Sys2Proof.Machine.execBellSwitch s
  | .joinedHoldExpiry port => Sys2Proof.Machine.execJoinedHoldExpiry port s
  | .detentionExpiry entry => Sys2Proof.Machine.execDetentionExpiry entry s
  | .asmLeave port b => Sys2Proof.Machine.execAsmLeave port b s
  | .rejoin port b => Sys2Proof.Machine.execRejoin port b s
  | .portEnWrite port b => Sys2Proof.Machine.execPortEnWrite port b s
  | .lossHoldWrite port b => Sys2Proof.Machine.execLossHoldWrite port b s
  | .asmDnqPost port b => Sys2Proof.Machine.execAsmDnqPost port b s
  | .asmUpqPost port b => Sys2Proof.Machine.execAsmUpqPost port b s
  | .asmWallLoRead b => Sys2Proof.Machine.execAsmWallLoRead b s
  | .asmCntClr port b => Sys2Proof.Machine.execAsmCntClr port b s
  | .decoderAssign decoder => Sys2Proof.Machine.execDecoderAssign decoder s
  | .decoderStart decoder => Sys2Proof.Machine.execDecoderStart decoder s
  | .publish decoder => Sys2Proof.Machine.execPublish decoder s
  | .sliceDeadline layer col row => Sys2Proof.Machine.execSliceDeadline layer col row s
  | .spliceTest => Sys2Proof.Machine.execSpliceTest s
  | .rowSplice => Sys2Proof.Machine.execRowSplice s
  | .decStoreWrite b => Sys2Proof.Machine.execDecStoreWrite b s
  | .decCntClr b => Sys2Proof.Machine.execDecCntClr b s
  | .samplerRequest hr sampler channel upsets => Sys2Proof.Machine.execSamplerRequest hr sampler channel upsets s
  | .pvDone => Sys2Proof.Machine.execPvDone s
  | .hrPvPost b => Sys2Proof.Machine.execHrPvPost b s
  | .hrCntClr hr b => Sys2Proof.Machine.execHrCntClr hr b s
  | .hrSynCntClr b => Sys2Proof.Machine.execHrSynCntClr b s
  | .nop t w => Sys2Proof.Machine.execNop t w s
  | .br t w => Sys2Proof.Machine.execBr t w s
  | .jmp t w => Sys2Proof.Machine.execJmp t w s
  | .call t w => Sys2Proof.Machine.execCall t w s
  | .ret t w => Sys2Proof.Machine.execRet t w s
  | .exit t w => Sys2Proof.Machine.execExit t w s
  | .trap t w => Sys2Proof.Machine.execTrap t w s
  | .sadd t w => Sys2Proof.Machine.execSadd t w s
  | .ssub t w => Sys2Proof.Machine.execSsub t w s
  | .smul t w => Sys2Proof.Machine.execSmul t w s
  | .sand t w => Sys2Proof.Machine.execSand t w s
  | .sor t w => Sys2Proof.Machine.execSor t w s
  | .sxor t w => Sys2Proof.Machine.execSxor t w s
  | .sshl t w => Sys2Proof.Machine.execSshl t w s
  | .sshr t w => Sys2Proof.Machine.execSshr t w s
  | .smin t w => Sys2Proof.Machine.execSmin t w s
  | .smax t w => Sys2Proof.Machine.execSmax t w s
  | .smov t w => Sys2Proof.Machine.execSmov t w s
  | .smfsr t w => Sys2Proof.Machine.execSmfsr t w s
  | .scmp t w => Sys2Proof.Machine.execScmp t w s
  | .sgetl t w => Sys2Proof.Machine.execSgetl t w s
  | .vadd t w => Sys2Proof.Machine.execVadd t w s
  | .vsub t w => Sys2Proof.Machine.execVsub t w s
  | .vmul t w => Sys2Proof.Machine.execVmul t w s
  | .vmad t w => Sys2Proof.Machine.execVmad t w s
  | .vmin t w => Sys2Proof.Machine.execVmin t w s
  | .vmax t w => Sys2Proof.Machine.execVmax t w s
  | .vabs t w => Sys2Proof.Machine.execVabs t w s
  | .vneg t w => Sys2Proof.Machine.execVneg t w s
  | .vand t w => Sys2Proof.Machine.execVand t w s
  | .vor t w => Sys2Proof.Machine.execVor t w s
  | .vxor t w => Sys2Proof.Machine.execVxor t w s
  | .vshl t w => Sys2Proof.Machine.execVshl t w s
  | .vshr t w => Sys2Proof.Machine.execVshr t w s
  | .vmov t w => Sys2Proof.Machine.execVmov t w s
  | .vsel t w => Sys2Proof.Machine.execVsel t w s
  | .vshfl t w => Sys2Proof.Machine.execVshfl t w s
  | .vrcp t w => Sys2Proof.Machine.execVrcp t w s
  | .vsqrt t w => Sys2Proof.Machine.execVsqrt t w s
  | .vrsq t w => Sys2Proof.Machine.execVrsq t w s
  | .vfloor t w => Sys2Proof.Machine.execVfloor t w s
  | .vsat t w => Sys2Proof.Machine.execVsat t w s
  | .vcvt t w => Sys2Proof.Machine.execVcvt t w s
  | .vcmp t w => Sys2Proof.Machine.execVcmp t w s
  | .pand t w => Sys2Proof.Machine.execPand t w s
  | .por t w => Sys2Proof.Machine.execPor t w s
  | .pxor t w => Sys2Proof.Machine.execPxor t w s
  | .pnot t w => Sys2Proof.Machine.execPnot t w s
  | .pset t w => Sys2Proof.Machine.execPset t w s
  | .pget t w => Sys2Proof.Machine.execPget t w s
  | .pcnt t w => Sys2Proof.Machine.execPcnt t w s
  | .ldv t w => Sys2Proof.Machine.execLdv t w s
  | .stv t w => Sys2Proof.Machine.execStv t w s
  | .ldb t w => Sys2Proof.Machine.execLdb t w s
  | .stb t w => Sys2Proof.Machine.execStb t w s
  | .lds t w => Sys2Proof.Machine.execLds t w s
  | .sts t w => Sys2Proof.Machine.execSts t w s
  | .atadd t w => Sys2Proof.Machine.execAtadd t w s
  | .strm t w => Sys2Proof.Machine.execStrm t w s
  | .streamComplete t tag => Sys2Proof.Machine.execStreamComplete t tag s
  | .swait t w => Sys2Proof.Machine.execSwait t w s
  | .seat t w => Sys2Proof.Machine.execSeat t w s
  | .smp t w => Sys2Proof.Machine.execSmp t w s
  | .blendPm t w => Sys2Proof.Machine.execBlendPm t w s
  | .blendSt t w => Sys2Proof.Machine.execBlendSt t w s
  | .stRing t w => Sys2Proof.Machine.execStRing t w s
  | .bar t w => Sys2Proof.Machine.execBar t w s
  | .barRelease hr engine => Sys2Proof.Machine.execBarRelease hr engine s
  | .fence t w => Sys2Proof.Machine.execFence t w s
  | .msg t w => Sys2Proof.Machine.execMsg t w s
  | .slateTNop w => Sys2Proof.Machine.execSlateTNop w s
  | .set w => Sys2Proof.Machine.execSet w s
  | .add w => Sys2Proof.Machine.execAdd w s
  | .sub w => Sys2Proof.Machine.execSub w s
  | .and w => Sys2Proof.Machine.execAnd w s
  | .or w => Sys2Proof.Machine.execOr w s
  | .shr w => Sys2Proof.Machine.execShr w s
  | .rdsr w => Sys2Proof.Machine.execRdsr w s
  | .slateTBr w => Sys2Proof.Machine.execSlateTBr w s
  | .waitrow w => Sys2Proof.Machine.execWaitrow w s
  | .waitbell w => Sys2Proof.Machine.execWaitbell w s
  | .dispatch w => Sys2Proof.Machine.execDispatch w s
  | .bindl w => Sys2Proof.Machine.execBindl w s
  | .commit w => Sys2Proof.Machine.execCommit w s
  | .mode w => Sys2Proof.Machine.execMode w s
  | .slateTFlip w => Sys2Proof.Machine.execSlateTFlip w s
  | .rcvm w => Sys2Proof.Machine.execRcvm w s
  | .signal w => Sys2Proof.Machine.execSignal w s
  | .seqEnWrite b => Sys2Proof.Machine.execSeqEnWrite b s
  | .seqRestart b => Sys2Proof.Machine.execSeqRestart b s
  | .freeRunEnWrite b => Sys2Proof.Machine.execFreeRunEnWrite b s
  | .seqFrameLoRead b => Sys2Proof.Machine.execSeqFrameLoRead b s
  | .seqCntClr b => Sys2Proof.Machine.execSeqCntClr b s
  | .geoMarginArm b => Sys2Proof.Machine.execGeoMarginArm b s
  | .plcRebuild b => Sys2Proof.Machine.execPlcRebuild b s
  | .plcLoad b => Sys2Proof.Machine.execPlcLoad b s
  | .chartUpdateComplete tile => Sys2Proof.Machine.execChartUpdateComplete tile s
  | .loadCopyDone tile => Sys2Proof.Machine.execLoadCopyDone tile s
  | .fit tile => Sys2Proof.Machine.execFit tile s
  | .fitStale tile => Sys2Proof.Machine.execFitStale tile s
  | .chartWindowRead node b => Sys2Proof.Machine.execChartWindowRead node b s
  | .plcCntClr b => Sys2Proof.Machine.execPlcCntClr b s
  | .csi2Packet header payload crc at_ lanes => Sys2Proof.Machine.execCsi2Packet header payload crc at_ lanes s
  | .spotPublish pipe => Sys2Proof.Machine.execSpotPublish pipe s
  | .camBind pipe b => Sys2Proof.Machine.execCamBind pipe b s
  | .camUnbind pipe b => Sys2Proof.Machine.execCamUnbind pipe b s
  | .camEnWrite pipe b => Sys2Proof.Machine.execCamEnWrite pipe b s
  | .camRxEnWrite b => Sys2Proof.Machine.execCamRxEnWrite b s
  | .camCapPost pipe b => Sys2Proof.Machine.execCamCapPost pipe b s
  | .spotResultRead entry b => Sys2Proof.Machine.execSpotResultRead entry b s
  | .camCntClr pipe b => Sys2Proof.Machine.execCamCntClr pipe b s
  | .camRxCntClr b => Sys2Proof.Machine.execCamRxCntClr b s
  | .finGainLoad b => Sys2Proof.Machine.execFinGainLoad b s
  | .gainCopy => Sys2Proof.Machine.execGainCopy s
  | .noTemp tile => Sys2Proof.Machine.execNoTemp tile s
  | .finArm b => Sys2Proof.Machine.execFinArm b s
  | .finResBaseWrite b => Sys2Proof.Machine.execFinResBaseWrite b s
  | .finCntClr b => Sys2Proof.Machine.execFinCntClr b s
  | .cmdHandover tile => Sys2Proof.Machine.execCmdHandover tile s
  | .cmdResult tile => Sys2Proof.Machine.execCmdResult tile s
  | .cmdTimeout tile => Sys2Proof.Machine.execCmdTimeout tile s
  | .retStatus tile => Sys2Proof.Machine.execRetStatus tile s
  | .fault tile => Sys2Proof.Machine.execFault tile s
  | .ident tile => Sys2Proof.Machine.execIdent tile s
  | .hcmdGo b => Sys2Proof.Machine.execHcmdGo b s
  | .tlkHresAck b => Sys2Proof.Machine.execTlkHresAck b s
  | .tlkHresLoRead b => Sys2Proof.Machine.execTlkHresLoRead b s
  | .tileEnWrite b => Sys2Proof.Machine.execTileEnWrite b s
  | .tileReset b => Sys2Proof.Machine.execTileReset b s
  | .tileEnDriveLow tile => Sys2Proof.Machine.execTileEnDriveLow tile s
  | .tileResetHoldEnd tile => Sys2Proof.Machine.execTileResetHoldEnd tile s
  | .tileDown tile => Sys2Proof.Machine.execTileDown tile s
  | .referenceCheck refv refr => Sys2Proof.Machine.execReferenceCheck refv refr s
  | .tlkArm b => Sys2Proof.Machine.execTlkArm b s
  | .tlkCntClr b => Sys2Proof.Machine.execTlkCntClr b s
  | .trimMeasurement trim => Sys2Proof.Machine.execTrimMeasurement trim s
  | .calElec b => Sys2Proof.Machine.execCalElec b s
  | .calSweep b => Sys2Proof.Machine.execCalSweep b s
  | .calRec b => Sys2Proof.Machine.execCalRec b s
  | .recordWrite => Sys2Proof.Machine.execRecordWrite s
  | .calRecPost b => Sys2Proof.Machine.execCalRecPost b s
  | .calRecLoad b => Sys2Proof.Machine.execCalRecLoad b s
  | .calBaseLoad b => Sys2Proof.Machine.execCalBaseLoad b s
  | .baseLoadDone tile => Sys2Proof.Machine.execBaseLoadDone tile s
  | .checkpoint => Sys2Proof.Machine.execCheckpoint s
  | .ckptNow b => Sys2Proof.Machine.execCkptNow b s
  | .checkpointDone => Sys2Proof.Machine.execCheckpointDone s
  | .rptCkptPost b => Sys2Proof.Machine.execRptCkptPost b s
  | .rptRestPost b => Sys2Proof.Machine.execRptRestPost b s
  | .rptClear b => Sys2Proof.Machine.execRptClear b s
  | .rptCntClr b => Sys2Proof.Machine.execRptCntClr b s
  | .calCntClr b => Sys2Proof.Machine.execCalCntClr b s
  | .dmcRequest master write addr n data => Sys2Proof.Machine.execDmcRequest master write addr n data s
  | .channelCommand channel upsets => Sys2Proof.Machine.execChannelCommand channel upsets s
  | .forcedDrain port => Sys2Proof.Machine.execForcedDrain port s
  | .flushAck decoder => Sys2Proof.Machine.execFlushAck decoder s
  | .refresh channel bank manage => Sys2Proof.Machine.execRefresh channel bank manage s
  | .training channel pass => Sys2Proof.Machine.execTraining channel pass s
  | .periodicRetrain channel pass => Sys2Proof.Machine.execPeriodicRetrain channel pass s
  | .dmcRetrain b => Sys2Proof.Machine.execDmcRetrain b s
  | .parityAlert channel => Sys2Proof.Machine.execParityAlert channel s
  | .scrubRead channel upsets => Sys2Proof.Machine.execScrubRead channel upsets s
  | .sramScrub array index lost => Sys2Proof.Machine.execSramScrub array index lost s
  | .dmcWmWrite b => Sys2Proof.Machine.execDmcWmWrite b s
  | .dmcErrAddrLoRead b => Sys2Proof.Machine.execDmcErrAddrLoRead b s
  | .prcViolAddrLoRead target b => Sys2Proof.Machine.execPrcViolAddrLoRead target b s
  | .prcLockWrite target b => Sys2Proof.Machine.execPrcLockWrite target b s
  | .prcLockCntClr target b => Sys2Proof.Machine.execPrcLockCntClr target b s
  | .dmcCntClr b => Sys2Proof.Machine.execDmcCntClr b s
  | .registerWrite off b => Sys2Proof.Machine.execRegisterWrite off b s
  | .perst => Sys2Proof.Machine.execPerst s
  | .flr => Sys2Proof.Machine.execFlr s
  | .windowWrite off bytes => Sys2Proof.Machine.execWindowWrite off bytes s
  | .postCheck => Sys2Proof.Machine.execPostCheck s
  | .mboxAck k b => Sys2Proof.Machine.execMboxAck k b s
  | .mboxRead k b => Sys2Proof.Machine.execMboxRead k b s
  | .rollCallTrigger => Sys2Proof.Machine.execRollCallTrigger s
  | .rcNow b => Sys2Proof.Machine.execRcNow b s
  | .snapshotDone => Sys2Proof.Machine.execSnapshotDone s
  | .rcPost b => Sys2Proof.Machine.execRcPost b s
  | .rcCntClr b => Sys2Proof.Machine.execRcCntClr b s
  | .evtStatusClear group b => Sys2Proof.Machine.execEvtStatusClear group b s
  | .evtEnableWrite group b => Sys2Proof.Machine.execEvtEnableWrite group b s
  | .evtSoftSet b => Sys2Proof.Machine.execEvtSoftSet b s
  | .gpioEdge levels => Sys2Proof.Machine.execGpioEdge levels s
  | .msixMessage vector cfg => Sys2Proof.Machine.execMsixMessage vector cfg s
  | .hpCntClr b => Sys2Proof.Machine.execHpCntClr b s
  | .satJobGo b => Sys2Proof.Machine.execSatJobGo b s
  | .satAbort b => Sys2Proof.Machine.execSatAbort b s
  | .jobStart decompress => Sys2Proof.Machine.execJobStart decompress s
  | .jobEnd decompress => Sys2Proof.Machine.execJobEnd decompress s
  | .satCntClr b => Sys2Proof.Machine.execSatCntClr b s
  | .bltOpGo b => Sys2Proof.Machine.execBltOpGo b s
  | .bltAbort b => Sys2Proof.Machine.execBltAbort b s
  | .blitBurst => Sys2Proof.Machine.execBlitBurst s
  | .bltCommitGo b => Sys2Proof.Machine.execBltCommitGo b s
  | .synchronisation => Sys2Proof.Machine.execSynchronisation s
  | .bltPlaneArm b => Sys2Proof.Machine.execBltPlaneArm b s
  | .bltCntClr b => Sys2Proof.Machine.execBltCntClr b s
  | .rootLockDetect => Sys2Proof.Machine.execRootLockDetect s
  | .rootStable => Sys2Proof.Machine.execRootStable s
  | .rootLockLoss => Sys2Proof.Machine.execRootLockLoss s
  | .domainStable domain => Sys2Proof.Machine.execDomainStable domain s
  | .engineTargetChange => Sys2Proof.Machine.execEngineTargetChange s
  | .quiesceDone => Sys2Proof.Machine.execQuiesceDone s
  | .ratioRampStep => Sys2Proof.Machine.execRatioRampStep s
  | .clkGateWrite group b => Sys2Proof.Machine.execClkGateWrite group b s
  | .gateClose block => Sys2Proof.Machine.execGateClose block s
  | .gateTimeout block => Sys2Proof.Machine.execGateTimeout block s
  | .porAndBrownOut => Sys2Proof.Machine.execPorAndBrownOut s
  | .nrst => Sys2Proof.Machine.execNrst s
  | .secReset b => Sys2Proof.Machine.execSecReset b s
  | .rstDeviceGo b => Sys2Proof.Machine.execRstDeviceGo b s
  | .rstBlockWrite group b => Sys2Proof.Machine.execRstBlockWrite group b s
  | .blockRelease item copyA copyB => Sys2Proof.Machine.execBlockRelease item copyA copyB s
  | .optionLoader => Sys2Proof.Machine.execOptionLoader s
  | .bootHoldRelease b => Sys2Proof.Machine.execBootHoldRelease b s
  | .avsStep core fabric engine readBack accepted => Sys2Proof.Machine.execAvsStep core fabric engine readBack accepted s
  | .avsResume b => Sys2Proof.Machine.execAvsResume b s
  | .pmbusTelemetry good vin iout temp => Sys2Proof.Machine.execPmbusTelemetry good vin iout temp s
  | .avsLimitsWrite b => Sys2Proof.Machine.execAvsLimitsWrite b s
  | .sensorConversion sensor raw temp => Sys2Proof.Machine.execSensorConversion sensor raw temp s
  | .rateTest => Sys2Proof.Machine.execRateTest s
  | .thmTick => Sys2Proof.Machine.execThmTick s
  | .comparatorFire sensor temp => Sys2Proof.Machine.execComparatorFire sensor temp s
  | .tripClr b => Sys2Proof.Machine.execTripClr b s
  | .thmBadClear tiles b => Sys2Proof.Machine.execThmBadClear tiles b s
  | .lifecycleAdvance b => Sys2Proof.Machine.execLifecycleAdvance b s
  | .imageVerification => Sys2Proof.Machine.execImageVerification s
  | .secImgPost b => Sys2Proof.Machine.execSecImgPost b s
  | .frameProgramApply => Sys2Proof.Machine.execFrameProgramApply s
  | .secExtendGo b => Sys2Proof.Machine.execSecExtendGo b s
  | .secAttPost b => Sys2Proof.Machine.execSecAttPost b s
  | .measurementReport treeCache => Sys2Proof.Machine.execMeasurementReport treeCache s
  | .asmkeyCommit b => Sys2Proof.Machine.execAsmkeyCommit b s
  | .secCntClr b => Sys2Proof.Machine.execSecCntClr b s
  | .signalDetect lane => Sys2Proof.Machine.execSignalDetect lane s
  | .porRelease => Sys2Proof.Machine.execPorRelease s
  | .nrstRelease => Sys2Proof.Machine.execNrstRelease s
  | .perstRelease => Sys2Proof.Machine.execPerstRelease s
  | .pcieLinkTraining up width speed => Sys2Proof.Machine.execPcieLinkTraining up width speed s
  | .stressClearDone => Sys2Proof.Machine.execStressClearDone s
  | .restoreBufferDone => Sys2Proof.Machine.execRestoreBufferDone s

end Sys2Proof.Machine
end

