-- ==== Sys2Proof/Machine/Tick.lean ====
section
/-!
DEFINITION. What the clock does while no command waits (DESIGN CHOICE, log entry 14): one core cycle (00 R5) of the counters that run by
themselves. Everything that happens at an instant is a command.
-/
namespace Sys2Proof.Machine

/-- Units of 1/16,000,000 ns in one core cycle of 0.625 ns, with the slew in force (04 R100): the wall clock's step. -/
def tickUnits (slew : Int) : Nat := (10000000 + 10 * slew).toNat

/-- Engine cycles after a root cycle (18 R385, R386; SR 10): the engine divider counts quarters of the core clock. -/
def Clk.engineTick (c : Clk) : Clk :=
  let q := c.engineRem + 4
  if c.engineDiv ≤ q then { c with engineCycles := c.engineCycles + 1, engineRem := q - c.engineDiv }
  else { c with engineRem := q }

/-- REMAIN of every valid Detention entry counts down once a millisecond (04 R99). -/
def State.detentionTick (s : State) : State :=
  if s.now % 1600000 = 0 then
    (List.range 64).foldl (fun s n =>
      if s.flag (Reg.asmDetKey n) 31 then
        s.setFld (Reg.asmDetRemain n) 15 0 (s.fld (Reg.asmDetRemain n) 15 0 - 1)
      else s) s
  else s

/-- A Homeroom with a sampler that waits for a miss tag counts an engine cycle in HR_CNT_TAGSTALL (06 R128, Table SYN-7). -/
def State.tagStalls (s : State) : State :=
  (List.range 12).foldl (fun s h =>
    let waits (k : Nat) : Bool := s.syn.tagWait.getLsbD (4 * h + k) && (s.nextEngine h k).isSome
    if s.live (6 + h) && (waits 0 || waits 1 || waits 2 || waits 3) && 256 ≤ s.missTags h then s.bump (Reg.hrCnt h 4)
    else s) s

/-- The next word of a host read of several words (15 R332). -/
def State.readStep (s : State) : State :=
  match s.host.readRest with
  | [] => s
  | (m, off, be) :: r =>
    if s.resuming (blockOf off) then s else
    let s := { s with host := { s.host with readRest := r } }
    let t := if noBlock off then { s with host := { s.host with resp := 0, respErr := false } }
      else s.readApply off m be fun s => s.readWord m off
    { t with host := { t.host with respMore := t.host.respMore ++ [t.host.resp] } }

/-- What waits at the window's side: buffers of blocks in reset go back once they can (15 R341), host writes no longer held behind a
post are made (R338). -/
def State.windowStep (s : State) : State :=
  let s := if s.host.returns.isEmpty then s else
    s.host.returns.foldl (fun s p => s.returnLater p.1 p.2) { s with host := { s.host with returns := [] } }
  match s.host.fifo with
  | [] => s
  | .post _ _ :: _ => s
  | _ => if s.live 34 then s.drainFifo else s

/-- One core cycle. -/
def State.tick (s : State) : State :=
  let cycles := s.clk.engineCycles
  let s := { s with
    now := s.now + 1
    cyc := {}
    asm := if s.up 0 then { s.asm with wall := s.asm.wall + tickUnits s.asm.slew } else s.asm
    clk := if s.engineRuns then s.clk.engineTick else s.clk }
  let s := if s.clk.engineCycles = cycles then s else s.tagStalls
  let s := if s.up 26 then s.portStep else s
  (if s.live 0 then s.detentionTick else s).rcTick.gateStep.readStep.windowStep.noteQueues

end Sys2Proof.Machine
end

