-- ==== Sys2Proof/Safety.lean ====
section
/-!
DEFINITION. What counts as a safe run, in the terms the statements use: no step faults or refuses, the tables that every
step keeps in canonical form, the extents of the Hall Pass monitor, OTP that only gains bits; and the words in which the
statements say when a command has its effect and what it leaves alone.
-/
namespace Sys2Proof.Safety

open Sys2Proof.Machine

/-- A step goes on. -/
def Goes (s : State) : Prop := ∃ t, step s = .next t

/-- Device memory is in its canonical form. -/
def MemOk (s : State) : Prop := Memory.wf s.dmc.dram = true

/-- The register map is in its canonical form: offsets rise, no word listed equals its reset value. -/
def RegsOk (s : State) : Prop := SMap.wf regReset s.regs = true

/-- Two extents of the window share no byte. -/
def Apart (e f : Extent) : Prop := e.base + e.len ≤ f.base ∨ f.base + f.len ≤ e.base

/-- The extents the monitor holds (15 R337): at most 256, each at least one ownership word inside the window, no two sharing
a byte. -/
def ExtentsOk (es : List Extent) : Prop :=
  es.length ≤ 256 ∧ (∀ e ∈ es, 64 ≤ e.len ∧ e.base + e.len ≤ winSize) ∧ es.Pairwise Apart

/-- Bit i of byte k of one OTP copy. -/
def otpBit (m : SMap Byte) (k i : Nat) : Bool := (SMap.get (fun _ => (0 : Byte)) m k).getLsbD i

/-- Every bit programmed in one OTP copy is programmed in another. -/
def OtpKept (m m' : SMap Byte) : Prop := ∀ k i, otpBit m k i = true → otpBit m' k i = true

/-- Between two states at most registers have changed and events have been asserted: pending MSI-X vectors, alarm bits and
the contention that a new alarm restarts (15 R348, R349; 04 R106), with what the cycle notes of them. -/
def RegsAndEvents (s t : State) : Prop :=
  t = { s with
    regs := t.regs
    host := { s.host with msixPend := t.host.msixPend }
    asm := { s.asm with
      alarms := t.asm.alarms
      portA := { s.asm.portA with contStop := t.asm.portA.contStop }
      portB := { s.asm.portB with contStop := t.asm.portB.contStop } }
    cyc := t.cyc }

/-- From s to t just the events that P holds of are asserted (15 R349): a vector is pending if it was or, with the endpoint out
of reset, the route of one has MSIX and names it, an alarm if it was or its event is one whose route has ALARM. -/
def Asserts (P : Nat → Prop) (s t : State) : Prop :=
  (∀ v, v < 64 → (t.host.msixPend.getLsbD v = true ↔ s.host.msixPend.getLsbD v = true ∨
      ∃ e, P e ∧ (s.flag (Reg.evtRoute e) 29 && s.up 37) = true ∧ s.fld (Reg.evtRoute e) 5 0 = v))
    ∧ ∀ e, e < 288 → (t.asm.alarms.getLsbD e = true ↔
      s.asm.alarms.getLsbD e = true ∨ P e ∧ s.flag (Reg.evtRoute e) 30 = true)

/-- The VALID flag of a register that latches a first occurrence is as it was when the cycle began: no occurrence of this
cycle stands for it (00 R8). -/
abbrev Calm (s : State) (off : Nat) : Prop :=
  (∀ p ∈ s.cyc.firsts, p.1 ≠ off) ∧ (s.setsNow off).testBit 31 = false

/-- A register read reaches its register (15 R332, R334; 14 R327; 18 R389, R394): the host reads through a link that is up, the
block answers, and its Proctor permits the master to read there. -/
def ReadOk (s : State) (off : Nat) (b : BusRead) : Prop :=
  (b.master.val = 16 → s.hostPath = true) ∧ s.answers off = true
    ∧ s.permits (proctorTarget off).1 b.master.val (proctorTarget off).2 4 false = true

/-- A state with the response to a register read: the bytes enabled of its first word; its further words are read in the
cycles that follow (15 R332). -/
def answered (b : BusRead) (off : Nat) (t : State) (v : Word) : State :=
  let t : State := { t with host := { t.host with resp := enabledBytes b.be v, respErr := false } }
  if b.more.isEmpty then t
  else { t with host := { t.host with readRest := t.host.readRest ++ busRest b off, respMore := [] } }

/-! ## Slate (07) -/

/-- The registers and state of a thread. -/
def thr (s : State) (t : ThreadId) : Thread := s.thread (threadKey t)

/-- An instruction of a form issues (07 R156, R157, R159, R180): the thread is ready, the instruction lies in the code region
and has passed its check, its fields are of the form, and no register it names awaits a sample. -/
abbrev Issues (s : State) (t : ThreadId) (p : Shape) (w : SlateWord) : Prop :=
  s.threadReady t = true ∧ (thr s t).pc + slateSize w ≤ 0x80000 ∧ p.ok w = true
    ∧ s.badFetch t (thr s t).pc (slateSize w) = false ∧ ∀ r ∈ p.vregs w, r ∉ s.pendingRegs t

/-- The guard is open: some bit of the guard predicate is 1 (07 R158). -/
abbrev Open (s : State) (t : ThreadId) (w : SlateWord) : Prop := (thr s t).guard w ≠ 0

/-- The thread has these registers and goes on at the next instruction; nothing else of the machine has changed. -/
def went (s : State) (t : ThreadId) (w : SlateWord) (u : Thread) : State :=
  s.setThread (threadKey t) { u with pc := (thr s t).pc + slateSize w }

/-- Thread registers u' are u with vector register r written in the active lanes of g, lane l with f l (07 R158). -/
def LaneWrite (u u' : Thread) (g : BitVec 64) (r : Nat) (f : Nat → Word) : Prop :=
  u' = { u with v := u'.v }
    ∧ ∀ i l, l < 64 → u'.vreg i l = if i = r ∧ g.getLsbD l = true then f l else u.vreg i l

/-- Thread registers u' are u with predicate d written with x; P0 is never written (07 R150). -/
def PredWrite (u u' : Thread) (d : Nat) (x : BitVec 64) : Prop :=
  u' = { u with p := u'.p } ∧ ∀ i, u'.preg i = if i = d ∧ d ≠ 0 then x else u.preg i

/-- Bit by bit in the active lanes of g: x has f, the other lanes those of y. -/
def InLanes (g x y : BitVec 64) (f : Nat → Bool) : Prop :=
  ∀ l, l < 64 → x.getLsbD l = if g.getLsbD l = true then f l else y.getLsbD l

/-! ## The Timetable sequencer (08) -/

/-- A Slate-T instruction of a form issues (08 R185, R189): the sequencer runs, the word lies in program memory, has passed
its check and is of the form. -/
abbrev SeqIssues (s : State) (p : TShape) (w : SlateWord) : Prop :=
  s.seqRunning = true ∧ s.seqNext w ≤ 65536 ∧ p.ok w = true
    ∧ (s.seq.bad.any fun x => s.seq.pc / 8 ≤ x && x < s.seqNext w / 8) = false

end Sys2Proof.Safety
end

