-- ==== Sys2Proof/Certificates/Slice0/Obligations.lean ====
section
/-!
DEFINITION. The statements for the provers, in the terms of Safety.lean.
-/
open Sys2Proof Sys2Proof.Machine Sys2Proof.Safety

/-- First in, first out (log entry 14 for a step with nothing waiting, the model's choice). -/
def Obligations.StepRunsTheFrontCommand : Prop :=
  (∀ (c : Instr) (rest : List Instr) (s : State),
    step { s with pending := c :: rest } = exec c { s with pending := rest })
    ∧ ∀ s : State, s.pending = [] → step s = .next s.tick

/-- No command ends a run: every error the spec describes is a next state (a latched cause, an event, an error response). -/
def Obligations.EveryCommandGoesOn : Prop :=
  (∀ (i : Instr) (s : State), ∃ t, exec i s = .next t) ∧ ∀ s : State, Goes s

/-- The state right after power-on reset (08 R440, 18 R390; log entries 2 and 3 for what the model chose). -/
def Obligations.ResetState : Prop :=
  let s := State.reset
  s.pending = [] ∧ s.now = 0 ∧ (∀ off, s.reg off = regReset off) ∧ s.reg Reg.seqCtrl = 6 ∧ s.reg Reg.seqWdog = 0x108
    ∧ (∀ a, s.byteAt a = 0) ∧ s.host.msixPend = 0 ∧ s.host.extents = [] ∧ (∀ i, i < 40 → s.rst.held.getLsbD i = true)
    ∧ (∀ k, s.thread k = {}) ∧ (∀ k, s.engine k = {}) ∧ s.seq.slot = 447 ∧ MemOk s ∧ RegsOk s ∧ ExtentsOk s.host.extents

/-- An invariant of every step (15 R337 for the extents), not of runs from reset alone. -/
def Obligations.TablesStayCanonical : Prop :=
  ∀ s t : State, step s = .next t → MemOk s → RegsOk s → ExtentsOk s.host.extents →
    MemOk t ∧ RegsOk t ∧ ExtentsOk t.host.extents

/-- R413: "A bit once programmed never clears", over every step. -/
def Obligations.OtpBitsNeverClear : Prop :=
  ∀ s t : State, step s = .next t → ∀ k i,
    (otpBit s.rst.otp0 k i = true → otpBit t.rst.otp0 k i = true) ∧ (otpBit s.rst.otp1 k i = true → otpBit t.rst.otp1 k i = true)
      ∧ (otpBit s.rst.otp2 k i = true → otpBit t.rst.otp2 k i = true)

/-- What belongs to the step alone (log entries 3, 4 and 14, the model's own fields). -/
def Obligations.CommandsLeaveQueueAndClock : Prop :=
  (∀ (i : Instr) (s t : State), exec i s = .next t → t.pending = s.pending ∧ t.now = s.now ∧ s.draws ≤ t.draws)
    ∧ ∀ s t : State, step s = .next t → t.pending = s.pending.tail ∧ t.now = if s.pending = [] then s.now + 1 else s.now

/-- Refused register accesses (15 R332 to R334; 14 R327; 18 R389, R394; 09 R226). -/
def Obligations.RefusedAccessesChangeNothing : Prop :=
  ∀ (s : State) (off : BitVec 26) (b : BusWrite), off.toNat % 4 = 0 → noBlock off.toNat = false →
    let o := off.toNat
    let m := b.master.val
    let tgt := (proctorTarget o).1
    let quiet (t : State) : Prop :=
      RegsAndEvents { s with host := { s.host with resp := t.host.resp, respErr := t.host.respErr } } t
        ∧ ∀ x, x ≠ Reg.hstBadacc → x ≠ Reg.prcViol tgt → x ≠ Reg.prcViolAddrLo tgt → x ≠ Reg.prcViolAddrHi tgt →
          x ≠ Reg.prcViolCnt tgt → x ≠ Reg.evtStatus 1 → x ≠ Reg.evtStatus 6 → t.reg x = s.reg x
    let badacc (t : State) (reason : Nat) : Prop := t.reg Reg.hstBadacc = if s.flag Reg.hstBadacc 31 then s.reg Reg.hstBadacc
      else word (2 ^ 31 + 2 ^ 30 + reason * 2 ^ 28 + o / 4 % 2 ^ 24 * 4)
    let onPath := (m = 16 → s.hostPath = true ∧ s.hostHeld = false) ∧ s.resuming (blockOf o) = false
    let pathOk := onPath ∧ (m = 16 → b.be = 15 ∧ Calm s Reg.hstBadacc)
    let refused (t : State) : Prop := exec (.registerWrite off ⟨b, []⟩) s = .next t ∧ quiet t ∧ t.host.respErr = true
      ∧ t.host.resp = 0 ∧ (m = 16 → badacc t 2)
    (m = 16 → s.hostPath = false → exec (.registerWrite off ⟨b, []⟩) s = .next s)
      ∧ (m = 16 → s.hostPath = true → s.hostHeld = true → exec (.registerWrite off ⟨b, []⟩) s = .next { s with
        host := { s.host with fifo := s.host.fifo ++ [.reg o b.value b.be] } })
      ∧ ((m = 16 → s.hostPath = true ∧ s.hostHeld = false) → s.resuming (blockOf o) = true →
        exec (.registerWrite off ⟨b, []⟩) s = .next { s with
          clk := { s.clk with waiting := s.clk.waiting ++ [⟨b.master, o, some b.value, b.be⟩] } })
      ∧ (onPath → m = 16 → b.be ≠ 15 → Calm s Reg.hstBadacc → ∃ t, exec (.registerWrite off ⟨b, []⟩) s = .next t ∧ quiet t
        ∧ badacc t 1 ∧ t.host.resp = s.host.resp ∧ (s.up 33 = true → t.flag (Reg.evtStatus 1) 2 = true))
      ∧ (pathOk → s.answers o = false → ∃ t, refused t ∧ ∀ x, x ≠ Reg.hstBadacc → x ≠ Reg.evtStatus 1 → t.reg x = s.reg x)
      ∧ (pathOk → s.answers o = true → s.permits tgt m (proctorTarget o).2 4 true = false → Calm s (Reg.prcViol tgt) →
        ∃ t, refused t
        ∧ t.reg (Reg.prcViolCnt tgt) = word (min 0xFFFFFFFF ((s.reg (Reg.prcViolCnt tgt)).toNat + 1))
        ∧ (s.up 33 = true → t.flag (Reg.evtStatus 6) 6 = true)
        ∧ t.reg (Reg.prcViol tgt) = (if s.flag (Reg.prcViol tgt) 31 then s.reg (Reg.prcViol tgt)
            else word (2 ^ 31 + 2 ^ 30 + m * 2 ^ 16))
        ∧ t.reg (Reg.prcViolAddrLo tgt) = (if s.flag (Reg.prcViol tgt) 31 then s.reg (Reg.prcViolAddrLo tgt)
            else word (proctorTarget o).2))
      ∧ (pathOk → s.answers o = true → s.permits tgt m (proctorTarget o).2 4 true = true → chartWindow o = true →
        ∃ t, refused t ∧ ∀ x, x ≠ Reg.hstBadacc → x ≠ Reg.evtStatus 1 → t.reg x = s.reg x)
      ∧ (∀ r : BusRead, r.master.val ≠ 16 → r.more = [] → s.answers Reg.asmWallLo = false →
        s.resuming (blockOf Reg.asmWallLo) = false →
        exec (.asmWallLoRead r) s = .next { s with host := { s.host with resp := 0, respErr := true } })

/-- Writes by access type (00 R8 to R10, Table SCP-4), field by field; fields of one register do not overlap; REGISTER_WRITE
(15 R332, R334). -/
def Obligations.RegisterWriteByAccessType : Prop :=
  (∀ (s : State) (off : Nat) (v : Word) (g : RegGroup), regFind off = some g →
    (isLatchReg off = true → ∀ p ∈ s.cyc.firsts, p.1 ≠ off) →
    let t := s.store off v
    t = { s with regs := t.regs, cyc := t.cyc } ∧ (∀ o, o ≠ off → t.reg o = s.reg o)
      ∧ (∀ f i, f ∈ g.fields → f.lsb ≤ i → i ≤ f.msb → f.msb < 32 →
          (∀ f' ∈ g.fields, f' ≠ f → f'.lsb ≤ f'.msb ∧ (i < f'.lsb ∨ f'.msb < i)) → t.flag off i = match f.acc with
            | .rw => v.getLsbD i
            | .rwl => if s.locked off then s.flag off i else v.getLsbD i
            | .lck => s.flag off i || v.getLsbD i
            | .w1c => s.flag off i && (!v.getLsbD i || (s.setsNow off).testBit i)
            | _ => s.flag off i)
      ∧ ∀ i, (∀ f ∈ g.fields, f.lsb ≤ f.msb ∧ (i < f.lsb ∨ f.msb < i)) → t.flag off i = s.flag off i)
  ∧ (∀ (s : State) (off : BitVec 26) (b : BusWrite), off.toNat % 4 = 0 → noBlock off.toNat = false →
      s.busOk off.toNat b = true → s.resuming (blockOf off.toNat) = false → exec (.registerWrite off ⟨b, []⟩) s =
        .next ((s.accepted off.toNat b).regEffect b.master.val off.toNat b.value))
  ∧ (∀ (s : State) (off : BitVec 26) (b : BusWrite),
      off.toNat ∈ [Reg.seqEntry, Reg.seqWdog, Reg.seqHostarg, Reg.evtRoute 0, Reg.evtRoute 255, Reg.hstBadacc] →
      s.busOk off.toNat b = true → exec (.registerWrite off ⟨b, []⟩) s = .next ((s.accepted off.toNat b).store off.toNat b.value))
  ∧ (∀ (s : State) (off : BitVec 26) (b : BusWrite), off.toNat % 4 = 0 → noBlock off.toNat = true → b.master.val ≠ 16 →
      exec (.registerWrite off ⟨b, []⟩) s = .next s)
  ∧ ∀ (s : State) (off : BitVec 26) (b : BusWrite) (e : BitVec 4 × Word) (more : List (BitVec 4 × Word)),
      off.toNat + 4 < 2 ^ 26 → ∃ u, exec (.registerWrite off ⟨b, []⟩) s = .next u
        ∧ exec (.registerWrite off ⟨b, e :: more⟩) s = exec (.registerWrite (off + 4) ⟨{ b with be := e.1, value := e.2 }, more⟩) u

/-- Counter clears (03 R80; 00 R8): a counter cleared holds the increments of the cycle. -/
def Obligations.CounterClears : Prop :=
  ∀ (s : State) (b : BusWrite),
    let run (off n : Nat) : List Nat := (List.range n).map (off + 4 * ·)
    let clears (i : Instr) (clr : Nat) (cnts : List Nat) : Prop := s.busOk clr b = true → ∃ t, exec i s = .next t
      ∧ t = { s with regs := t.regs, sat := t.sat, cyc := t.cyc, host := { s.host with respErr := false } }
      ∧ (t.sat = s.sat ∨ (clr = Reg.satCntClr ∧ t.sat = { s.sat with inRest := 0, outRest := 0 }))
      ∧ ∀ o, t.reg o = if b.value.getLsbD 0 = true ∧ o ∈ cnts then word (min 0xFFFFFFFF (s.incsNow o)) else s.reg o
    (∀ lane : Fin 74, clears (.laneCntClr lane b) (Reg.laneCntClr lane.val) (Reg.lanePrbsErr lane.val :: run (Reg.laneCntCw lane.val) 5))
      ∧ (∀ port : Fin 2, clears (.asmCntClr port b) (Reg.asmCntClr port.val) (run (Reg.asmCnt port.val 0) 21))
      ∧ clears (.decCntClr b) Reg.decCntClr (run (Reg.decCnt 0) 12)
      ∧ (∀ hr : Fin 12, clears (.hrCntClr hr b) (Reg.hrCntClr hr.val) (run (Reg.hrCnt hr.val 0) 5))
      ∧ clears (.hrSynCntClr b) Reg.hrSynCntClr (run (Reg.hrSynCnt 0) 5)
      ∧ clears (.seqCntClr b) Reg.seqCntClr (run (Reg.seqCnt 0) 7)
      ∧ clears (.plcCntClr b) Reg.plcCntClr (run (Reg.plcCnt 0) 8)
      ∧ (∀ pipe : Fin 4, clears (.camCntClr pipe b) (Reg.camCntClr pipe.val) (run (Reg.camCnt pipe.val 0) 4))
      ∧ clears (.camRxCntClr b) Reg.camRxCntClr (run (Reg.camRxCnt 0) 6)
      ∧ clears (.finCntClr b) Reg.finCntClr (run (Reg.finCnt 0) 7 ++ run (Reg.finXdrop 0) 16)
      ∧ clears (.tlkCntClr b) Reg.tlkCntClr (run (Reg.tlkCnt 0) 5 ++ run (Reg.tlkRowerr 0) 16 ++ run (Reg.tlkInsdrop 0) 16)
      ∧ clears (.rptCntClr b) Reg.rptCntClr (run (Reg.rptCnt 0) 6)
      ∧ clears (.calCntClr b) Reg.calCntClr (run (Reg.calCnt 0) 2)
      ∧ clears (.dmcCntClr b) Reg.dmcCntClr (run (Reg.dmcCntSram 0) 2 ++ (List.range 16).flatMap fun c => run (Reg.dmcCntCh c 0) 6)
      ∧ clears (.hpCntClr b) Reg.hpCntClr [Reg.hpViolCnt]
      ∧ clears (.rcCntClr b) Reg.rcCntClr (run (Reg.rcCnt 0) 3)
      ∧ clears (.satCntClr b) Reg.satCntClr (run (Reg.satCnt 0) 5)
      ∧ clears (.bltCntClr b) Reg.bltCntClr (run (Reg.bltCnt 0) 4)
      ∧ clears (.secCntClr b) Reg.secCntClr (run (Reg.secCnt 0) 4)
      ∧ ∀ target : Fin 23, s.busOk (Reg.prcLock target.val) b = true → b.value.getLsbD 0 = false → ∃ t, exec (.prcLockCntClr target b) s = .next t
        ∧ t = { s with regs := t.regs, cyc := t.cyc, host := { s.host with respErr := false } }
        ∧ (b.value.getLsbD 31 = true → t.reg (Reg.prcViolCnt target.val) = word (min 0xFFFFFFFF (s.incsNow (Reg.prcViolCnt target.val))))
        ∧ (b.value.getLsbD 31 = false → t.reg (Reg.prcViolCnt target.val) = s.reg (Reg.prcViolCnt target.val))
        ∧ ∀ o, o ≠ Reg.prcViolCnt target.val → o ≠ Reg.prcLock target.val → t.reg o = s.reg o

/-- Scalar ALU (07 R163, Table SLT-10), with the frame: one S register and the program counter of one thread. -/
def Obligations.ScalarAluResults : Prop :=
  ∀ (s : State) (t : ThreadId) (w : SlateWord), Open s t w →
    let u := thr s t
    let a := u.sreg w.a.toNat
    let b := u.opS w
    let out (x : Word) : Host.Outcome State Fault Refusal := .next (went s t w (u.setS w.d.toNat x))
    let form (o : BitVec 8) (tys : List Nat) : Shape := { opc := o, tys := tys, d := .s, a := .s, b := .s, bsels := [0, 2, 3] }
    let sum (o : BitVec 8) (i : Instr) (x y : Word) : Prop := Issues s t (form o [0, 1, 2]) w →
      (w.ty.toNat < 2 → exec i s = out x) ∧ (w.ty.toNat = 2 → exec i s = out y)
    let logic (o : BitVec 8) (i : Instr) (x : Word) : Prop := Issues s t (form o [0, 1]) w → exec i s = out x
    (sum 0x10 (.sadd t w) (a + b) (word (fAdd binary32 a.toNat b.toNat)) ∧ sum 0x11 (.ssub t w) (a - b) (word (fSub binary32 a.toNat b.toNat))
        ∧ sum 0x12 (.smul t w) (a * b) (word (fMul binary32 a.toNat b.toNat)))
      ∧ (logic 0x13 (.sand t w) (a &&& b) ∧ logic 0x14 (.sor t w) (a ||| b) ∧ logic 0x15 (.sxor t w) (a ^^^ b)
        ∧ logic 0x16 (.sshl t w) (a <<< (b.toNat % 32))
        ∧ logic 0x17 (.sshr t w) (if w.ty.toNat = 0 then a.sshiftRight (b.toNat % 32) else a >>> (b.toNat % 32)))
      ∧ (Issues s t { opc := 0x1A, tys := [0, 1, 2], d := .s, b := .s, bsels := [0, 2, 3] } w → exec (.smov t w) s = out b)
      ∧ (Issues s t { opc := 0x1D, tys := [1], d := .s, a := .v, b := .s, bsels := [0, 2, 3] } w →
        exec (.sgetl t w) s = out (u.vreg w.a.toNat (b.toNat % 64)))

/-- Vector ALU (07 R164, Table SLT-11), lane by lane, with the frame. -/
def Obligations.VectorAluResults : Prop :=
  ∀ (s : State) (t : ThreadId) (w : SlateWord),
    let u := thr s t
    let a (l : Nat) : Word := u.vreg w.a.toNat l
    let b (l : Nat) : Word := u.opV w l
    let c (l : Nat) : Word := u.vreg w.c.toNat l
    let ty := w.ty.toNat
    let lanes (p : Shape) (i : Instr) (f : Nat → Word) : Prop := Issues s t p w →
      ∃ u', exec i s = .next (went s t w u') ∧ LaneWrite u u' (u.guard w) w.d.toNat f
    let two (o : BitVec 8) (tys : List Nat) : Shape := { opc := o, tys := tys, d := .v, a := .v, b := .v, bsels := [0, 1, 2, 3] }
    let one (o : BitVec 8) : Shape := { opc := o, tys := [0, 2, 3, 4], d := .v, a := .v }
    (lanes (two 0x20 [0, 1, 2, 3, 4]) (.vadd t w) (fun l => addT ty (a l) (b l))
        ∧ lanes (two 0x21 [0, 1, 2, 3, 4]) (.vsub t w) (fun l => subT ty (a l) (b l))
        ∧ lanes (two 0x22 [0, 1, 2, 3, 4]) (.vmul t w) (fun l => mulT ty (a l) (b l)))
      ∧ lanes { two 0x23 [0, 1, 2, 3, 4] with c := .v } (.vmad t w) (fun l => madT ty (a l) (b l) (c l))
      ∧ lanes (one 0x26) (.vabs t w) (fun l => absT ty (a l)) ∧ lanes (one 0x27) (.vneg t w) (fun l => negT ty (a l))
      ∧ (lanes (two 0x28 [0, 1]) (.vand t w) (fun l => a l &&& b l) ∧ lanes (two 0x29 [0, 1]) (.vor t w) (fun l => a l ||| b l)
        ∧ lanes (two 0x2A [0, 1]) (.vxor t w) (fun l => a l ^^^ b l)
        ∧ lanes (two 0x2B [0, 1]) (.vshl t w) (fun l => a l <<< ((b l).toNat % 32))
        ∧ lanes (two 0x2C [0, 1]) (.vshr t w) (fun l =>
            if ty = 0 then (a l).sshiftRight ((b l).toNat % 32) else a l >>> ((b l).toNat % 32)))
      ∧ lanes { opc := 0x2D, tys := [0, 1, 2, 3, 4, 5], d := .v, b := .v, bsels := [0, 1, 2, 3] } (.vmov t w)
          (fun l => if ty = 5 then b l &&& 0xFFFFF else b l)
      ∧ lanes { two 0x2E [1] with c := .p } (.vsel t w) (fun l => if (u.preg w.c.toNat).getLsbD l then a l else b l)
      ∧ lanes (two 0x2F [1]) (.vshfl t w) (fun l => a ((b l).toNat % 64))

/-- Float functions, saturation, conversion, minimum and maximum (07 R165, R166; log entry 10 for zeros of unlike sign). -/
def Obligations.FloatAndConversionResults : Prop :=
  ∀ (s : State) (t : ThreadId) (w : SlateWord),
    let u := thr s t
    let a (l : Nat) : Word := u.vreg w.a.toNat l
    let lanes (p : Shape) (i : Instr) (f : Nat → Word) : Prop := Issues s t p w →
      ∃ u', exec i s = .next (went s t w u') ∧ LaneWrite u u' (u.guard w) w.d.toNat f
    let drawn (p : Shape) (i : Instr) (f : (Nat → Bool) → Nat → Word) : Prop := Issues s t p w →
      ∃ u' open_, exec i s = .next (went s.drawn t w u') ∧ LaneWrite u u' (u.guard w) w.d.toNat (f open_)
    let f32 (o : BitVec 8) : Shape := { opc := o, tys := [2], d := .v, a := .v }
    let two (o : BitVec 8) : Shape := { opc := o, tys := [0, 1, 2, 3, 4], d := .v, a := .v, b := .v, bsels := [0, 1, 2, 3] }
    let src := w.mod.toNat % 8
    let pack := w.ty.toNat = 3 ∧ src ≠ 3
    (lanes (f32 0x30) (.vrcp t w) (fun l => word (fRcp binary32 (a l).toNat))
        ∧ lanes (f32 0x31) (.vsqrt t w) (fun l => word (fSqrt binary32 (a l).toNat))
        ∧ lanes (f32 0x32) (.vrsq t w) (fun l => word (fRsq binary32 (a l).toNat))
        ∧ lanes (f32 0x33) (.vfloor t w) (fun l => word (fFloor binary32 (a l).toNat))
        ∧ drawn (f32 0x34) (.vsat t w) (fun z l => if a l = 0x80000000 ∧ z l = true then a l else word (fSat binary32 (a l).toNat)))
      ∧ (drawn (two 0x24) (.vmin t w) (fun z l => minMaxT w.ty.toNat true (z l) (a l) (u.opV w l))
          ∧ drawn (two 0x25) (.vmax t w) (fun z l => minMaxT w.ty.toNat false (z l) (a l) (u.opV w l)))
      ∧ (src < 6 → (w.ty.toNat = 3 → src = 2 ∨ src = 3) → (src = 3 → w.ty.toNat = 2 ∨ w.ty.toNat = 3) →
        (src ≠ 3 → w.mod.getLsbD 5 = false) →
        lanes { opc := 0x35, tys := [0, 1, 2, 3, 4, 5], d := .v, a := .v, b := if pack then .v else .unused,
                bsels := if pack then [0, 1, 2, 3] else [0], mod := 63 } (.vcvt t w)
          (fun l => convert src w.ty.toNat (roundingOf (w.mod.toNat / 8 % 4)) (w.mod.getLsbD 5) (a l) (u.opV w l)))

/-- Integer and fixed-point arithmetic (07 R153). -/
def Obligations.FixedPointSaturatesIntegersWrap : Prop :=
  ∀ (s : State) (t : ThreadId) (w : SlateWord),
    let u := thr s t
    let a (l : Nat) : Word := u.vreg w.a.toNat l
    let b (l : Nat) : Word := u.opV w l
    let c (l : Nat) : Word := u.vreg w.c.toNat l
    let active (l : Nat) : Prop := l < 64 ∧ (u.guard w).getLsbD l = true
    let nats (p : Shape) (i : Instr) (f : Nat → Nat) : Prop := Issues s t p w →
      ∃ u', exec i s = .next (went s t w u') ∧ ∀ l, active l → (u'.vreg w.d.toNat l).toNat = f l % 2 ^ 32
    let ints (p : Shape) (i : Instr) (f : Nat → Int) : Prop := Issues s t p w →
      ∃ u', exec i s = .next (went s t w u')
        ∧ ∀ l, active l → (u'.vreg w.d.toNat l).toInt = max (-2147483648) (min 2147483647 (f l))
    let two (o : BitVec 8) : Shape := { opc := o, tys := [0, 1, 2, 3, 4], d := .v, a := .v, b := .v, bsels := [0, 1, 2, 3] }
    let mad : Shape := { two 0x23 with c := .v }
    let one (o : BitVec 8) : Shape := { opc := o, tys := [0, 2, 3, 4], d := .v, a := .v }
    (w.ty.toNat < 2 → nats (two 0x20) (.vadd t w) (fun l => (a l).toNat + (b l).toNat)
          ∧ nats (two 0x21) (.vsub t w) (fun l => 2 ^ 32 + (a l).toNat - (b l).toNat)
          ∧ nats (two 0x22) (.vmul t w) (fun l => (a l).toNat * (b l).toNat)
          ∧ nats mad (.vmad t w) (fun l => (a l).toNat * (b l).toNat + (c l).toNat))
      ∧ (w.ty.toNat = 0 → nats (one 0x27) (.vneg t w) (fun l => 2 ^ 32 - (a l).toNat)
          ∧ nats (one 0x26) (.vabs t w) (fun l => if (a l).toInt < 0 then 2 ^ 32 - (a l).toNat else (a l).toNat))
      ∧ (w.ty.toNat = 4 → ints (two 0x20) (.vadd t w) (fun l => (a l).toInt + (b l).toInt)
          ∧ ints (two 0x21) (.vsub t w) (fun l => (a l).toInt - (b l).toInt)
          ∧ ints (two 0x22) (.vmul t w) (fun l => ((a l).toInt * (b l).toInt + 32768) / 65536)
          ∧ ints mad (.vmad t w) (fun l => ((a l).toInt * (b l).toInt + 65536 * (c l).toInt + 32768) / 65536)
          ∧ ints (one 0x27) (.vneg t w) (fun l => -(a l).toInt) ∧ ints (one 0x26) (.vabs t w) (fun l => |(a l).toInt|))

/-- SMIN, SMAX, SMFSR, SCMP (07 R163, Tables SLT-3 and SLT-10). -/
def Obligations.ScalarSelectResults : Prop :=
  ∀ (s : State) (t : ThreadId) (w : SlateWord), Open s t w →
    let u := thr s t
    let a := u.sreg w.a.toNat
    let b := u.opS w
    let ab (o : BitVec 8) : Shape := { opc := o, tys := [0, 1, 2], d := .s, a := .s, b := .s, bsels := [0, 2, 3] }
    let drew (o : BitVec 8) (i : Instr) (ok : Word → Prop) : Prop := Issues s t (ab o) w →
      ∃ x, exec i s = .next (went s.drawn t w (u.setS w.d.toNat x)) ∧ ok x
    let c := (s.engine (engineKey t.hr.val t.eng.val)).run.getD ⟨0, 0, 0, 0⟩
    let cond (x y : Int) : Bool := [x == y, x != y, decide (x < y), decide (x ≤ y), decide (y < x), decide (y ≤ x)].getD (w.mod.toNat % 8) false
    let said (r : Bool) : Prop :=
      ∃ u', exec (.scmp t w) s = .next (went s t w u') ∧ PredWrite u u' w.d.toNat (if r then BitVec.allOnes 64 else 0)
    (w.ty.toNat = 0 → drew 0x18 (.smin t w) (fun x => x.toInt = min a.toInt b.toInt)
          ∧ drew 0x19 (.smax t w) (fun x => x.toInt = max a.toInt b.toInt))
      ∧ (w.ty.toNat = 1 → drew 0x18 (.smin t w) (fun x => x.toNat = min a.toNat b.toNat)
          ∧ drew 0x19 (.smax t w) (fun x => x.toNat = max a.toNat b.toNat))
      ∧ (w.ty.toNat = 2 → drew 0x18 (.smin t w) (fun x => ∃ z, x = word (fMinMax binary32 true z a.toNat b.toNat))
          ∧ drew 0x19 (.smax t w) (fun x => ∃ z, x = word (fMinMax binary32 false z a.toNat b.toNat)))
      ∧ (w.imm16.toNat ≤ 14 → Issues s t { opc := 0x1B, tys := [1], d := .s, imm := true } w →
        exec (.smfsr t w) s = .next (went s t w (u.setS w.d.toNat (word ([c.row, t.eng.val, t.hr.val, t.th.val,
          0x2FF000 + 0x800 * (c.row % 2), c.frame, c.frame / 2 ^ 32, 0x80000 + t.eng.val * 0x20000, t.eng.val,
          bnat s.latency, min 0xFFFFFFFF (s.clk.engineCycles - c.launch), s.seq.slot, s.slotCc, s.cursor t.eng.val,
          (if c.row % 2 = 0 then s.syn.bank0 else s.syn.bank1).stack.length].getD w.imm16.toNat 0)))))
      ∧ (w.mod.toNat % 8 < 6 → Issues s t { opc := 0x1C, tys := [0, 1, 2], d := .p, a := .s, b := .s, bsels := [0, 2, 3], mod := 7 } w →
        (w.ty.toNat = 0 → said (cond a.toInt b.toInt)) ∧ (w.ty.toNat = 1 → said (cond a.toNat b.toNat))
          ∧ (w.ty.toNat = 2 → said (condT 2 (w.mod.toNat % 8) a b)))

/-- Predicate instructions (07 R164, R167, Table SLT-14). -/
def Obligations.PredicateResults : Prop :=
  ∀ (s : State) (t : ThreadId) (w : SlateWord),
    let u := thr s t
    let bit (r : BitVec 6) (l : Nat) : Bool := (u.preg r.toNat).getLsbD l
    let lanes (p : Shape) (i : Instr) (f : Nat → Bool) : Prop := Issues s t p w →
      ∃ u' x, exec i s = .next (went s t w u') ∧ PredWrite u u' w.d.toNat x
        ∧ InLanes (u.guard w) x (u.preg w.d.toNat) f
    let two (o : BitVec 8) : Shape := { opc := o, d := .p, a := .p, b := .p }
    (lanes (two 0x41) (.pand t w) (fun l => bit w.a l && bit w.b l) ∧ lanes (two 0x42) (.por t w) (fun l => bit w.a l || bit w.b l)
        ∧ lanes (two 0x43) (.pxor t w) (fun l => bit w.a l != bit w.b l))
      ∧ lanes { opc := 0x44, d := .p, a := .p } (.pnot t w) (fun l => !bit w.a l)
      ∧ (w.mod.toNat % 8 < 6 → lanes { opc := 0x40, tys := [0, 1, 2, 4], d := .p, a := .v, b := .v, bsels := [0, 1, 2, 3], mod := 7 }
        (.vcmp t w) (fun l => condT w.ty.toNat (w.mod.toNat % 8) (u.vreg w.a.toNat l) (u.opV w l)))
      ∧ (Open s t w → Issues s t { opc := 0x45, d := .p, a := .s, b := .s } w →
        ∃ u', exec (.pset t w) s = .next (went s t w u')
          ∧ PredWrite u u' w.d.toNat (u.sreg w.b.toNat ++ u.sreg w.a.toNat))
      ∧ (Open s t w → Issues s t { opc := 0x46, d := .s, a := .p, mod := 1 } w →
        exec (.pget t w) s = .next (went s t w (u.setS w.d.toNat
          ((u.preg w.a.toNat).extractLsb' (if w.mod.toNat % 2 = 1 then 32 else 0) 32))))
      ∧ (Open s t w → Issues s t { opc := 0x47, d := .s, a := .p } w →
        exec (.pcnt t w) s = .next (went s t w (u.setS w.d.toNat
          (word ((List.range 64).countP fun i => bit w.a i)))))

/-- P0 (07 R150). -/
def Obligations.PredicateZero : Prop :=
  (∀ u : Thread, u.preg 0 = BitVec.allOnes 64)
    ∧ ∀ (s : State) (t : ThreadId) (w : SlateWord), w.d = 0 →
      let same (p : Shape) (i : Instr) : Prop := Issues s t p w → exec i s = .next (went s t w (thr s t))
      let two (o : BitVec 8) : Shape := { opc := o, d := .p, a := .p, b := .p }
      (same (two 0x41) (.pand t w) ∧ same (two 0x42) (.por t w) ∧ same (two 0x43) (.pxor t w))
        ∧ same { opc := 0x44, d := .p, a := .p } (.pnot t w)
        ∧ (w.mod.toNat % 8 < 6 →
          same { opc := 0x40, tys := [0, 1, 2, 4], d := .p, a := .v, b := .v, bsels := [0, 1, 2, 3], mod := 7 } (.vcmp t w))
        ∧ (Open s t w → same { opc := 0x45, d := .p, a := .s, b := .s } (.pset t w))
        ∧ (Open s t w → w.mod.toNat % 8 < 6 →
          same { opc := 0x1C, tys := [0, 1, 2], d := .p, a := .s, b := .s, bsels := [0, 2, 3], mod := 7 } (.scmp t w))

/-- Control (07 R162, Table SLT-9). -/
def Obligations.ControlResults : Prop :=
  ∀ (s : State) (t : ThreadId) (w : SlateWord),
    let u := thr s t
    let g := u.guard w
    let target : Int := if w.ext then (w.imm32.toNat : Int) else (u.pc : Int) + 8 * w.imm16.toInt
    let good (x : Int) : Prop := x % 8 = 0 ∧ 0 ≤ x ∧ x < 0x80000
    let holds : Prop := (w.mod.toNat % 4 = 0 ∧ g ≠ 0) ∨ (w.mod.toNat % 4 = 1 ∧ g = BitVec.allOnes 64) ∨ (w.mod.toNat % 4 = 2 ∧ g = 0)
    let at_ (v : Thread) (pc : Int) : State := s.setThread (threadKey t) { v with pc := pc.toNat }
    let k := engineKey t.hr.val t.eng.val
    let last : Prop := ∀ j, j < 8 → 8 * k + j ≠ threadKey t → (s.thread (8 * k + j)).alive = false
    (Open s t w → Issues s t { opc := 0x00 } w → exec (.nop t w) s = .next (went s t w u))
      ∧ (w.mod.toNat % 4 ≠ 3 → Issues s t { opc := 0x01, mod := 3, imm := true, ext := true } w →
        (¬ holds → exec (.br t w) s = .next (went s t w u))
          ∧ (holds → good target → exec (.br t w) s = .next (at_ u target))
          ∧ (holds → ¬ good target → exec (.br t w) s = .next (s.slateFault t 4)))
      ∧ (Open s t w → Issues s t { opc := 0x02, a := .s } w →
        let x : Int := (u.sreg w.a.toNat).toNat
        (good x → exec (.jmp t w) s = .next (at_ u x)) ∧ (¬ good x → exec (.jmp t w) s = .next (s.slateFault t 4)))
      ∧ (Open s t w → Issues s t { opc := 0x03, imm := true, ext := true } w →
        (good target → u.calls.length < 16 →
            exec (.call t w) s = .next (at_ { u with calls := (u.pc + slateSize w) :: u.calls } target))
          ∧ (¬ good target → exec (.call t w) s = .next (s.slateFault t 4))
          ∧ (good target → 16 ≤ u.calls.length → exec (.call t w) s = .next (s.slateFault t 5)))
      ∧ (Open s t w → Issues s t { opc := 0x04 } w →
        (∀ x xs, u.calls = x :: xs → exec (.ret t w) s = .next (at_ { u with calls := xs } x))
          ∧ (u.calls = [] → exec (.ret t w) s = .next (s.slateFault t 5)))
      ∧ (Open s t w → Issues s t { opc := 0x05 } w →
        ((∀ x ∈ u.streams, x.done = true ∧ x.errs = []) → ∃ r, exec (.exit t w) s = .next r ∧ thr r t = {}
            ∧ (∀ i, i ≠ threadKey t → r.thread i = s.thread i)
            ∧ (last → (r.engine k).run = none ∧ r.reg (Reg.hrCnt t.hr.val 0)
                = word (min 0xFFFFFFFF ((s.reg (Reg.hrCnt t.hr.val 0)).toNat + 1)))
            ∧ (¬ last → (r.engine k).run = (s.engine k).run ∧ ∀ o, r.reg o = s.reg o))
          ∧ ((∃ x ∈ u.streams, x.done = false) → exec (.exit t w) s = .next s))
      ∧ (Open s t w → Issues s t { opc := 0x06, imm := true } w → (s.engine k).run ≠ none → ∃ r, exec (.trap t w) s = .next r
          ∧ r = s.slateFault t 9 ∧ (r.engine k).run = none ∧ ∀ j, j < 8 → r.thread (8 * k + j) = {})

/-- The guard of instructions that are not lane-guarded (07 R158). -/
def Obligations.GuardClosedIsNoOperation : Prop :=
  ∀ (s : State) (t : ThreadId) (w : SlateWord), (thr s t).guard w = 0 →
    let same (p : Shape) (i : Instr) : Prop := Issues s t p w → exec i s = .next (went s t w (thr s t))
    (same { opc := 0x00 } (.nop t w) ∧ same { opc := 0x04 } (.ret t w) ∧ same { opc := 0x05 } (.exit t w))
      ∧ same { opc := 0x02, a := .s } (.jmp t w) ∧ same { opc := 0x03, imm := true, ext := true } (.call t w)
      ∧ same { opc := 0x06, imm := true } (.trap t w)
      ∧ same { opc := 0x1A, tys := [0, 1, 2], d := .s, b := .s, bsels := [0, 2, 3] } (.smov t w)
      ∧ same { opc := 0x54, tys := [1], d := .s, a := .s, imm := true } (.lds t w)
      ∧ same { opc := 0x55, tys := [1], a := .s, c := .s, imm := true } (.sts t w)
      ∧ same { opc := 0x80, tys := [1], imm := true } (.bar t w) ∧ same { opc := 0x81, tys := [1] } (.fence t w)
      ∧ same { opc := 0x82, tys := [1], a := .s, b := .s, imm := true } (.msg t w)

/-- Exceptions and EXIT (07 R180, R182; 06 R144). -/
def Obligations.SlateExceptionCancelsChunk : Prop :=
  ∀ (s : State) (t : ThreadId) (w : SlateWord),
    let k := engineKey t.hr.val t.eng.val
    let illegal (p : Shape) (i : Instr) : Prop :=
      (w.opc = p.opc ∨ slateOpcode w.opc.toNat = false) → p.ok ((thr s t).seen w) = false → exec i s = .next (s.slateFault t 1)
    let row := (s.engine k).run.map (·.row)
    (Open s t w → Issues s t { opc := 0x06, imm := true } w → exec (.trap t w) s = .next (s.slateFault t 9))
      ∧ (s.threadReady t = true → (thr s t).pc + 8 ≤ 0x80000 →
        illegal { opc := 0x10, tys := [0, 1, 2], d := .s, a := .s, b := .s, bsels := [0, 2, 3] } (.sadd t w)
        ∧ illegal { opc := 0x20, tys := [0, 1, 2, 3, 4], d := .v, a := .v, b := .v, bsels := [0, 1, 2, 3] } (.vadd t w))
      ∧ (∀ c, (s.engine k).run ≠ none → ((s.slateFault t c).engine k).run = none ∧ ((s.slateFault t c).engine k).queue = []
        ∧ ∀ j, j < 8 → (s.slateFault t c).thread (8 * k + j) = {})
      ∧ (∀ c r, c < 256 → row = some r → r < 432 → s.flag (Reg.hrFault t.hr.val) 31 = false → Calm s (Reg.hrFault t.hr.val) →
        (∀ j, j < 8 → (s.thread (8 * k + j)).streams = []) →
        (s.slateFault t c).reg (Reg.hrFault t.hr.val) = word (2 ^ 31 + t.eng.val * 2 ^ 24 + t.th.val * 2 ^ 20 + r * 2 ^ 8 + c))
      ∧ (Open s t w → Issues s t { opc := 0x05 } w → (∀ x ∈ (thr s t).streams, x.done = true ∧ x.errs = []) →
        ∃ r, exec (.exit t w) s = .next r ∧ thr r t = {})

/-- Homeroom memory (07 R168; log entries 22 and 24 for what another engine's stores and two lanes of one address leave open). -/
def Obligations.HomeroomLoadsAndStores : Prop :=
  ∀ (s : State) (t : ThreadId) (w : SlateWord),
    let u := thr s t
    let g := u.guard w
    let active (l : Nat) : Prop := l < 64 ∧ g.getLsbD l = true
    let off : Word := w.imm16.signExtend 32
    let scalar := (u.sreg w.a.toNat + off).toNat
    let block (l : Nat) : Nat := (u.sreg w.a.toNat + off + word (4 * l)).toNat
    let gather (l : Nat) : Nat := (u.vreg w.a.toNat l + off).toNat
    let sees (a i : Nat) : Word := s.homeLoad t.hr.val t.eng.val a i
    let closed (store : Bool) (a : Nat) : Prop := 0x300000 ≤ a ∨
      (store = true ∧ ¬ (0x280000 ≤ a ∧ a < 0x2FF000) ∧ ¬ (0x80000 + t.eng.val * 0x20000 ≤ a ∧ a < 0x80000 + t.eng.val * 0x20000 + 0x20000))
    let fits (store : Bool) (a : Nat) : Prop := ¬ closed store a ∧ a % 4 = 0
    let loads (i : Instr) (addr : Nat → Nat) : Prop :=
      ((∀ l, active l → fits false (addr l)) →
          ∃ u', exec i s = .next (went s.drawn t w u') ∧ LaneWrite u u' g w.d.toNat fun l => sees (addr l) l)
        ∧ ((∃ l, active l ∧ closed false (addr l)) → exec i s = .next (s.slateFault t 2))
        ∧ ((∀ l, active l → ¬ closed false (addr l)) → (∃ l, active l ∧ addr l % 4 ≠ 0) → exec i s = .next (s.slateFault t 3))
    let stores (i : Instr) (addr : Nat → Nat) : Prop :=
      ((∀ l, active l → fits true (addr l)) → ∃ new : List PendStore, exec i s = .next (went
            { s.drawn with syn := { s.syn with stores := new.foldl (fun l p => insStore p l) s.syn.stores } } t w u)
          ∧ (∀ p ∈ new, ∃ l, active l ∧ p = ⟨t.hr.val, t.eng.val, t.th.val, addr l, u.vreg w.c.toNat l, s.clk.engineCycles⟩)
          ∧ (∀ l, active l → ∃ p ∈ new, p.addr = addr l) ∧ new.Pairwise fun p q => p.addr ≠ q.addr)
        ∧ ((∃ l, active l ∧ closed true (addr l)) → exec i s = .next (s.slateFault t 2))
        ∧ ((∀ l, active l → ¬ closed true (addr l)) → (∃ l, active l ∧ addr l % 4 ≠ 0) → exec i s = .next (s.slateFault t 3))
    (Issues s t { opc := 0x50, tys := [1], d := .v, a := .v, imm := true } w → loads (.ldv t w) gather)
      ∧ (Issues s t { opc := 0x52, tys := [1], d := .v, a := .s, imm := true } w → loads (.ldb t w) block)
      ∧ (Issues s t { opc := 0x51, tys := [1], a := .v, c := .v, imm := true } w → stores (.stv t w) gather)
      ∧ (Issues s t { opc := 0x53, tys := [1], a := .s, c := .v, imm := true } w → stores (.stb t w) block)
      ∧ (Open s t w → Issues s t { opc := 0x54, tys := [1], d := .s, a := .s, imm := true } w →
        (fits false scalar → exec (.lds t w) s = .next (went s.drawn t w (u.setS w.d.toNat (sees scalar 0))))
          ∧ (closed false scalar → exec (.lds t w) s = .next (s.slateFault t 2))
          ∧ (¬ closed false scalar → scalar % 4 ≠ 0 → exec (.lds t w) s = .next (s.slateFault t 3)))
      ∧ (Open s t w → Issues s t { opc := 0x55, tys := [1], a := .s, c := .s, imm := true } w →
        (fits true scalar → exec (.sts t w) s =
            .next (went (s.homeStore t.hr.val t.eng.val t.th.val scalar (u.sreg w.c.toNat)) t w u))
          ∧ (closed true scalar → exec (.sts t w) s = .next (s.slateFault t 2))
          ∧ (¬ closed true scalar → scalar % 4 ≠ 0 → exec (.sts t w) s = .next (s.slateFault t 3)))

/-- Visibility of stores, FENCE and ATADD (07 R168, R169, R178). -/
def Obligations.StoresBecomeVisible : Prop :=
  ∀ (s : State) (t : ThreadId) (w : SlateWord),
    let u := thr s t
    let hr := t.hr.val
    let mine (p : PendStore) : Prop := p.hr = hr ∧ p.eng = t.eng.val ∧ p.th = t.th.val
    (∀ a v i, (∀ p ∈ s.syn.stores, p.hr = hr → p.addr = a → p.eng = t.eng.val) →
        (s.homeStore hr t.eng.val t.th.val a v).homeLoad hr t.eng.val a i = v
          ∧ (s.homeStore hr t.eng.val t.th.val a v).homeWord hr a = s.homeWord hr a)
      ∧ (Open s t w → Issues s t { opc := 0x81, tys := [1] } w → ∃ stores mem words,
        exec (.fence t w) s = .next (went
            { s with syn := { s.syn with stores := stores, mem := mem }, cyc := { s.cyc with sram := words } } t w u)
          ∧ (∀ p ∈ stores, ¬ mine p)
          ∧ (∀ x, mine x → x.addr < 0x300000 → x.addr % 4 = 0 → (∀ p ∈ s.syn.stores, p.addr < 0x300000 ∧ p.addr % 4 = 0) →
            (s.syn.stores.filter fun p => p.hr == hr && p.addr == x.addr) = [x] →
            SMap.get (fun _ => (0 : Word)) mem (homeKey hr x.addr) = x.val)
          ∧ (∀ k, (∀ p ∈ s.syn.stores, mine p → homeKey p.hr p.addr ≠ k) →
            SMap.get (fun _ => (0 : Word)) mem k = SMap.get (fun _ => 0) s.syn.mem k))
      ∧ (Open s t w → Issues s t { opc := 0x56, tys := [1], d := .s, a := .s, b := .s, bsels := [0, 3], imm := true } w →
        let a := (u.sreg w.a.toNat + w.imm16.signExtend 32).toNat
        (0x280000 ≤ a → a < 0x2FF000 → a % 4 = 0 → (∀ p ∈ s.syn.stores, ¬ (p.hr = hr ∧ p.addr = a)) → ∃ mem words,
            exec (.atadd t w) s = .next (went
              { s.drawn with syn := { s.syn with mem := mem }, cyc := { s.cyc with sram := words } } t w
              (u.setS w.d.toNat (s.homeWord hr a)))
            ∧ ∀ k, SMap.get (fun _ => (0 : Word)) mem k =
              if k = homeKey hr a then s.homeWord hr a + u.opS w else SMap.get (fun _ => 0) s.syn.mem k)
          ∧ (a < 0x280000 ∨ 0x2FF000 ≤ a → exec (.atadd t w) s = .next (s.slateFault t 2))
          ∧ (0x280000 ≤ a → a < 0x2FF000 → a % 4 ≠ 0 → exec (.atadd t w) s = .next (s.slateFault t 3)))

/-- Streams into Homeroom memory (07 R170, R171; log entry 25: the destination's bytes are free until the SWAIT). -/
def Obligations.StreamsRun : Prop :=
  ∀ (s : State) (t : ThreadId) (w : SlateWord),
    let u := thr s t
    let hr := t.hr.val
    let inMem (m : SMap Word) (k : Nat) : Word := SMap.get (fun _ => 0) m k
    (Open s t w → Issues s t { opc := 0x60, tys := [1], a := .s, b := .s, mod := 3, imm := true, legal := w.imm16.toNat < 1024 } w →
        let n := if w.imm16.toNat = 0 then 1024 else w.imm16.toNat
        let dst := (u.sreg w.b.toNat).toNat
        let within (lo hi : Nat) : Prop := lo ≤ dst ∧ dst + 64 * n ≤ hi
        let legal : Prop := dst % 64 = 0 ∧ (within 0x280000 0x2FF000
          ∨ within (0x80000 + t.eng.val * 0x20000) (0x80000 + t.eng.val * 0x20000 + 0x20000))
        let k := w.mod.toNat % 4
        (¬ legal → exec (.strm t w) s = .next (s.slateFault t 2))
          ∧ (legal → (∃ x ∈ u.tag k, x.done = false) → exec (.strm t w) s = .next s)
          ∧ (legal → (∀ x ∈ u.tag k, x.done = true) → ∃ stores mem words,
            exec (.strm t w) s = .next (went
                { s.drawn with syn := { s.syn with stores := stores, mem := mem }, cyc := { s.cyc with sram := words } } t w
              (u.setTag k (u.tag k ++ [{ src := 64 * (u.sreg w.a.toNat).toNat, dst := dst, lines := n }])))
            ∧ (∀ p ∈ stores, p ∈ s.syn.stores ∧ ¬ (p.hr = hr ∧ p.eng = t.eng.val ∧ dst ≤ p.addr ∧ p.addr < dst + 64 * n))
            ∧ (∀ p ∈ s.syn.stores, ¬ (p.hr = hr ∧ dst ≤ p.addr ∧ p.addr < dst + 64 * n) → p ∈ stores)
            ∧ ∀ i, i < homeKey hr dst ∨ homeKey hr dst + 16 * n ≤ i → inMem mem i = inMem s.syn.mem i))
      ∧ (∀ (tag : Fin 4) x, (u.tag tag.val).find? (fun x => !x.done) = some x → s.memReady (2 + hr) x.src (64 * x.lines) = true →
        let r := s.streamRead (2 + hr) x.src x.lines
        exec (.streamComplete t tag) s = .next (r.1.setThread (threadKey t)
            (u.setTag tag.val ((u.tag tag.val).filter (·.done) ++ [{ x with done := true, data := r.2.1, errs := r.2.2 }])))
          ∧ RegsAndEvents s r.1)
      ∧ (Open s t w → Issues s t { opc := 0x61, tys := [1], mod := 15 } w →
        let named (x : Stream) : Prop := ∃ k, k < 4 ∧ w.mod.getLsbD k = true ∧ x ∈ u.tag k
        let covers (x : Stream) (i : Nat) : Prop :=
          homeKey hr x.dst ≤ i ∧ i < homeKey hr x.dst + 16 * x.lines ∧ (i - homeKey hr x.dst) / 16 ∉ x.errs
        ((∃ x, named x ∧ x.done = false) → exec (.swait t w) s = .next s)
          ∧ ((∀ x, named x → x.done = true) → ∃ stores mem words u',
            (u' = { u with tags := u'.tags } ∧ ∀ k, k < 4 → u'.tag k = if w.mod.getLsbD k = true then [] else u.tag k)
            ∧ (∀ i, (∀ x, named x → ¬ covers x i) → inMem mem i = inMem s.syn.mem i)
            ∧ (∀ i x, named x → covers x i → (∀ y, named y → covers y i → y = x) →
              inMem mem i = word (leAt x.data (4 * (i - homeKey hr x.dst)) 4))
            ∧ ((∀ x, named x → x.errs = []) → exec (.swait t w) s =
              .next (went { s with syn := { s.syn with stores := stores, mem := mem }, cyc := { s.cyc with sram := words } } t w u'))
            ∧ ((∃ x, named x ∧ x.errs ≠ []) → exec (.swait t w) s =
              .next ((State.setThread
                { s with syn := { s.syn with stores := stores, mem := mem }, cyc := { s.cyc with sram := words } }
                (threadKey t) u').slateFault t 8))))

/-- Ray instructions (07 R172 to R176; log entry 79 for an immediate index, 24 for two lanes that store one view). -/
def Obligations.RayResults : Prop :=
  ∀ (s : State) (t : ThreadId) (w : SlateWord),
    let u := thr s t
    let g := u.guard w
    let active (l : Nat) : Prop := l < 64 ∧ g.getLsbD l = true
    let a (j l : Nat) : Word := u.vreg (w.a.toNat + j) l
    let d := w.d.toNat
    let quad (u' : Thread) (f : Nat → Nat → Word) : Prop := ∀ r l, l < 64 →
      u'.vreg r l = if d ≤ r ∧ r < d + 4 ∧ g.getLsbD l = true then f (r - d) l else u.vreg r l
    let bank := s.bank (s.chunkRow t)
    let key := engineKey t.hr.val t.eng.val
    (Issues s t { opc := 0x70, tys := [0], d := .quad, a := .v } w →
        ((∃ l, active l ∧ rayInRange (a 0 l) = false) → exec (.seat t w) s = .next (s.slateFault t 6))
          ∧ ((∀ l, active l → rayInRange (a 0 l) = true) → ∃ u', exec (.seat t w) s = .next (went s t w u')
            ∧ u' = { u with v := u'.v } ∧ quad u' fun j l => (seatWords bank.chart (a 0 l)).getD j 0))
      ∧ (Issues s t { opc := 0x71, tys := [2], d := .quad, a := .quad, b := .s, bsels := [1, 2] } w →
        let i := if w.bsel = 1 then (u.sreg w.b.toNat).toNat else w.imm16.toNat
        let col (j : Nat) : List Word := (List.range 64).map (a j)
        (g = 0 → exec (.smp t w) s = .next (went s t w u))
          ∧ (g ≠ 0 → bank.stack.length ≤ i → ∃ u', exec (.smp t w) s = .next (went s t w u')
            ∧ u' = { u with v := u'.v } ∧ quad u' fun _ _ => 0)
          ∧ (g ≠ 0 → i < bank.stack.length → 4 ≤ (s.engine key).queue.length → exec (.smp t w) s = .next s)
          ∧ (g ≠ 0 → i < bank.stack.length → (s.engine key).queue.length < 4 →
            let q : SmpReq := ⟨t.th.val, d, i, g, col 0, col 1, col 2, col 3⟩
            exec (.smp t w) s = .next (went
              (s.setEngine key { (s.engine key) with queue := (s.engine key).queue ++ [q] }) t w u)))
      ∧ (∀ c : BitVec 6, w.c = c → c &&& 0x18 = 0 → (c.getLsbD 5 = true ∨ c = 0) →
        ∀ st : Bool, Issues s t { opc := if st then 0x73 else 0x72, tys := [2], d := .quad, a := .quad, c := .own } w →
          let res (l : Nat) : List Nat := blendLane st ((List.range 4).map fun j => (u.vreg (d + j) l).toNat)
              ((List.range 4).map fun j => (a j l).toNat)
          ∃ u', exec (if st then .blendSt t w else .blendPm t w) s = .next (went s t w u')
            ∧ u' = { u with v := u'.v, p := u'.p } ∧ quad u' (fun j l => word ((res l).getD j 0))
            ∧ (∀ i, i ≠ c.toNat % 8 ∨ i = 0 ∨ c = 0 → u'.preg i = u.preg i)
            ∧ (c ≠ 0 → c.toNat % 8 ≠ 0 → InLanes g (u'.preg (c.toNat % 8)) (u.preg (c.toNat % 8)) fun l =>
              (unpackF binary32 ((res l).getD 3 0)).lt (unpackF binary32 theta)))
      ∧ (∀ ch, (s.engine key).run = some ch → Issues s t { opc := 0x74, tys := [2], a := .v, b := .triple } w →
        let mine (r : Word) : Prop := rayInRange r = true ∧ rayInChunk t.hr.val t.eng.val ch.row r = true
        let lens (l : Nat) : Nat := (rayFields (a 0 l)).1 % 768
        let view (l : Nat) : Nat := (rayFields (a 0 l)).2.2.2 * 20 + (rayFields (a 0 l)).2.2.1
        let place (l : Nat) : Nat := 300 * lens l + 3 * view l
        let e := ch.row % 3
        ((∃ l, active l ∧ ¬ mine (a 0 l)) → exec (.stRing t w) s = .next (s.slateFault t 7))
          ∧ ((∀ l, active l → mine (a 0 l)) → ∃ ring masks rings,
            let s' : State :=
              { s.drawn with syn := { s.syn with ring := ring, masks := masks }, cyc := { s.cyc with rings := rings } }
            exec (.stRing t w) s = .next (went s' t w u)
            ∧ (∀ l, active l → SMap.get (fun _ => false) s.syn.checked (maskKey t.eng.val e (lens l)) = false →
              (∀ l', active l' → l' ≠ l → place l' ≠ place l) →
              (∀ j, j < 3 → s'.ringAt t.eng.val e (place l + j) = ringColour (u.vreg (w.b.toNat + j) l))
                ∧ (s'.ringMask t.eng.val e (lens l)).getLsbD (view l) = true)
            ∧ (∀ k, (∀ l j, active l → j < 3 → k ≠ ringKey t.eng.val e (place l + j)) →
              SMap.get (fun _ => (0 : BitVec 20)) ring k = SMap.get (fun _ => 0) s.syn.ring k)))

/-- Launch, barriers, messages, samplers (07 R151, R174, R177, R179, R181; 06 R130; log entry 26: a request is served whole). -/
def Obligations.ThreadsMeetAndReport : Prop :=
  ∀ (s : State),
    (∀ (hr : Fin 12) (eng : Fin 16) c, s.live (6 + hr.val) = true → (s.engine (engineKey hr.val eng.val)).run = none →
        (s.engine (engineKey hr.val eng.val)).wait = some c → ∃ t, exec (.chunkLaunch hr eng) s = .next t
          ∧ t.engine (engineKey hr.val eng.val) = { run := some { c with launch := s.clk.engineCycles } }
          ∧ (∀ k, k ≠ engineKey hr.val eng.val → t.engine k = s.engine k)
          ∧ (∀ k, k / 8 ≠ engineKey hr.val eng.val → t.thread k = s.thread k)
          ∧ (∀ off, off ≠ Reg.hrStatus hr.val → t.reg off = s.reg off)
          ∧ t = { s with regs := t.regs, syn := { s.syn with engines := t.syn.engines, threads := t.syn.threads } }
          ∧ ∀ j, j < 8 → let u := t.thread (8 * engineKey hr.val eng.val + j)
            u.alive = true ∧ u.pc = c.entry ∧ u.startAt = s.clk.engineCycles + 12 ∧ u.calls = [] ∧ u.tags = [] ∧ u.bar = none
              ∧ (∀ r, u.sreg r = word ([c.row, eng.val, hr.val, j, 0x2FF000 + 0x800 * (c.row % 2), c.frame % 2 ^ 32,
                  c.frame / 2 ^ 32, 0x80000 + eng.val * 0x20000].getD r 0))
              ∧ (∀ r, u.preg r = BitVec.allOnes 64)
              ∧ ∀ r l, l < 64 → u.vreg r l = if r = 0 then word l else if r = 1 then
                  word (768 * (eng.val % 4) + 64 * hr.val + l + (432 * (eng.val / 4) + c.row) * 2 ^ 12) else 0)
      ∧ (∀ t w, Open s t w → Issues s t { opc := 0x80, tys := [1], imm := true } w →
        exec (.bar t w) s = .next (went s t w { thr s t with bar := some (w.imm16.toNat % 4) }))
      ∧ (∀ (hr : Fin 12) (eng : Fin 16), let key := 8 * engineKey hr.val eng.val
        (∀ x j₀, s.live (6 + hr.val) = true → j₀ < 8 → (s.thread (key + j₀)).alive = true →
            (∀ j, j < 8 → (s.thread (key + j)).alive = true → (s.thread (key + j)).bar = some x) →
          ∃ t, exec (.barRelease hr eng) s = .next t ∧ t = { s with syn := { s.syn with threads := t.syn.threads } }
            ∧ ∀ k, t.thread k = if k / 8 = engineKey hr.val eng.val ∧ (s.thread k).alive = true
                then { s.thread k with bar := none } else s.thread k)
          ∧ (∀ i j, i < 8 → j < 8 → (s.thread (key + i)).alive = true → (s.thread (key + j)).alive = true →
            (s.thread (key + i)).bar ≠ (s.thread (key + j)).bar ∨ (s.thread (key + i)).bar = none →
            exec (.barRelease hr eng) s = .next s))
      ∧ (∀ t w, Open s t w → Issues s t { opc := 0x82, tys := [1], a := .s, b := .s, imm := true } w →
        let u := thr s t
        let m : EngMsg := ⟨u.sreg w.a.toNat, u.sreg w.b.toNat, w.imm16, t.hr.val, t.eng.val, t.th.val⟩
        let off : Prop := s.flag Reg.seqCtrl 0 = false ∨ s.seq.st = .halted
        (off → exec (.msg t w) s = .next (went s t w u))
          ∧ (¬ off → 64 ≤ s.seq.msgs.length → exec (.msg t w) s = .next s)
          ∧ (¬ off → s.seq.msgs.length < 64 → (∀ d, s.seq.st ≠ .waiting (.message d)) →
            exec (.msg t w) s = .next (went { s with seq := { s.seq with msgs := s.seq.msgs ++ [m] } } t w u))
          ∧ (∀ d, s.flag Reg.seqCtrl 0 = true → s.seq.msgs.length < 64 → s.seq.st = .waiting (.message d) →
            exec (.msg t w) s = .next (went ((s.takeMsg d m).seqDone) t w u)))
      ∧ (∀ (hr : Fin 12) (smp : Fin 4) (ch : Fin 16) e q rest c, s.nextEngine hr.val smp.val = some e →
        (s.engine (engineKey hr.val e)).queue = q :: rest → (s.engine (engineKey hr.val e)).run = some c →
        s.live (6 + hr.val) = true → (s.engineRuns || s.quiescing) = true →
        let b := s.bank c.row
        let asker := 8 * engineKey hr.val e + q.thread
        let misses : Bool := (b.stack[q.entry]?).any fun ent => s.requestMisses hr.val b ent q
        let bit := BitVec.ofNat 48 (2 ^ (4 * hr.val + smp.val))
        let lines (z : State) : List CacheLine := SMap.get (fun _ => []) z.syn.cache hr.val
        (256 ≤ s.missTags hr.val → misses = true → exec (.samplerRequest hr smp ch []) s =
            .next { s with syn := { s.syn with tagWait := s.syn.tagWait ||| bit } })
          ∧ (s.missTags hr.val < 256 ∨ misses = false →
        ∃ t, exec (.samplerRequest hr smp ch []) s = .next t ∧ RegsAndEvents { s with draws := t.draws, syn := t.syn } t
          ∧ (∀ k, t.engine k = if k = engineKey hr.val e then { s.engine k with queue := rest } else s.engine k)
          ∧ (∀ k, SMap.get (fun _ => 3) t.syn.rr k = if k = 4 * hr.val + smp.val then e % 4 else SMap.get (fun _ => 3) s.syn.rr k)
          ∧ t.syn.tagWait = s.syn.tagWait &&& ~~~ bit
          ∧ (∀ k, k ≠ asker → t.thread k = s.thread k)
          ∧ t.thread asker = { s.thread asker with v := (t.thread asker).v }
          ∧ (∀ r l, l < 64 → ¬ (q.dest ≤ r ∧ r < q.dest + 4 ∧ q.lanes.getLsbD l = true) →
            (t.thread asker).vreg r l = (s.thread asker).vreg r l)
          ∧ ∀ ent, b.stack[q.entry]? = some ent →
            let sample (z : State) (l j : Nat) : Word :=
              (z.sampleRay hr.val b ent (q.px.getD l 0) (q.py.getD l 0) (q.sg.getD l 0) (q.ta.getD l 0)).2.getD j 0
            let dest (l j : Nat) : Word := (t.thread asker).vreg (q.dest + j) l
            (∀ l, l < 64 → q.lanes.getLsbD l = true → ∃ z : State, RegsAndEvents { s with draws := z.draws, syn := z.syn } z
              ∧ (∀ x ∈ lines z, x ∈ lines s ∨ x.bytes = s.bytesAt (64 * x.line) 64) ∧ ∀ j, j < 4 → dest l j = sample z l j)
            ∧ (misses = false → (∀ l j, l < 64 → j < 4 → q.lanes.getLsbD l = true → dest l j = sample s l j)
              ∧ ∃ n, t = ({ s with syn := t.syn } : State).bump (Reg.hrCnt hr.val 2) n)))
      ∧ ∀ (hr : Fin 12) (smp : Fin 4) (ch : Fin 16) ups,
        exec (.samplerRequest hr smp ch ups) s = exec (.samplerRequest hr smp ch []) (s.strike ch.val ups)

/-- Slate-T arithmetic, branches and waits (08 R187, R188), each as the whole next state. -/
def Obligations.TimetableComputes : Prop :=
  ∀ (s : State) (w : SlateWord),
    let a := s.tReg w.a.toNat
    let b := s.tB w
    let next := s.seqPc (s.seqNext w)
    let alu (o : BitVec 8) : TShape := { opc := o, d := true, a := true, b := true, bsels := [0, 2, 3] }
    let cc := w.mod.toNat % 8
    let br : TShape := { opc := 0xC8, a := cc ≠ 6, b := cc ≠ 6, bsels := [0, 3], mod := 15, imm := true }
    (SeqIssues s { opc := 0xC0 } w → exec (.slateTNop w) s = .next next)
      ∧ (SeqIssues s { opc := 0xC1, d := true, b := true, bsels := [0, 2, 3] } w → exec (.set w) s = .next (next.setT w.d.toNat b))
      ∧ ((SeqIssues s (alu 0xC2) w → exec (.add w) s = .next (next.setT w.d.toNat (a + b)))
        ∧ (SeqIssues s (alu 0xC3) w → exec (.sub w) s = .next (next.setT w.d.toNat (a + 2 ^ 32 - b)))
        ∧ (SeqIssues s (alu 0xC4) w → exec (.and w) s = .next (next.setT w.d.toNat (a &&& b)))
        ∧ (SeqIssues s (alu 0xC5) w → exec (.or w) s = .next (next.setT w.d.toNat (a ||| b)))
        ∧ (SeqIssues s (alu 0xC6) w → exec (.shr w) s = .next (next.setT w.d.toNat (a >>> (b % 32)))))
      ∧ (SeqIssues s { opc := 0xC7, d := true, imm := true } w →
        (w.imm16.toNat ≤ 12 → exec (.rdsr w) s = .next (next.setT w.d.toNat (s.specialT w.imm16.toNat)))
          ∧ (12 < w.imm16.toNat → exec (.rdsr w) s = .next (s.seqFault 1)))
      ∧ (SeqIssues s br w →
        let x : Int := if w.mod.getLsbD 3 then sext 32 a else a
        let y : Int := if w.mod.getLsbD 3 then sext 32 b else b
        let holds : Prop := (cc = 0 ∧ x = y) ∨ (cc = 1 ∧ x ≠ y) ∨ (cc = 2 ∧ x < y) ∨ (cc = 3 ∧ x ≤ y) ∨ (cc = 4 ∧ y < x)
          ∨ (cc = 5 ∧ y ≤ x) ∨ cc = 6
        let target : Int := s.seq.pc + 8 * w.imm16.toInt
        (holds → 0 ≤ target → target < 65536 → exec (.slateTBr w) s = .next (s.seqPc target.toNat))
          ∧ (holds → target < 0 ∨ 65536 ≤ target → exec (.slateTBr w) s = .next (s.seqFault 4))
          ∧ (¬ holds → cc ≠ 7 → exec (.slateTBr w) s = .next next)
          ∧ (cc = 7 → exec (.slateTBr w) s = .next (s.seqFault 1)))
      ∧ (SeqIssues s { opc := 0xC9, b := true, bsels := [0, 2] } w →
        (b ≤ s.seq.slot → b ≤ 447 → exec (.waitrow w) s = .next next)
          ∧ (s.seq.slot < b → b ≤ 447 → exec (.waitrow w) s = .next (s.seqSt (.waiting (.row b))))
          ∧ (447 < b → exec (.waitrow w) s = .next (s.seqFault 1)))
      ∧ (SeqIssues s { opc := 0xCA, d := true } w → exec (.waitbell w) s = .next (s.seqSt (.waiting (.bell w.d.toNat))))

/-- Slate-T instructions that act on the machine (08 R190 to R208), each as the whole next state. -/
def Obligations.TimetableActs : Prop :=
  ∀ (s : State) (w : SlateWord),
    let next := s.seqPc (s.seqNext w)
    let a := s.tReg w.a.toNat
    let d := w.d.toNat
    (SeqIssues s { opc := 0xCB, a := true, b := true, c := true, mod := 1 } w →
        let row := s.tReg w.b.toNat
        let count := s.tReg w.c.toNat
        let frame := s.seq.frame + w.mod.toNat % 2
        let n := min count (1024 - s.seq.desc.length)
        let queued := s.seq.desc ++ (List.range n).map fun i => descOf a (row + i) frame
        let legal : Prop := a % 8 = 0 ∧ a < 0x80000 ∧ row + count ≤ 432
        (legal → n = count → exec (.dispatch w) s = .next { next with seq := { next.seq with desc := queued, st := .running } })
          ∧ (legal → n < count → exec (.dispatch w) s = .next { s with seq := { s.seq with
              desc := queued, st := .waiting (.dispatch a (row + n) (count - n) frame) } })
          ∧ (¬ legal → exec (.dispatch w) s = .next (s.seqFault 1)))
      ∧ (SeqIssues s { opc := 0xCC, a := true } w →
        exec (.bindl w) s = .next { next with seq := { next.seq with bindMask := some (BitVec.ofNat 16 a) } })
      ∧ (SeqIssues s { opc := 0xCE, a := true } w →
        (a % 8 < 6 → s.seq.slot ≠ 447 → exec (.mode w) s = .next { next with seq := { next.seq with req := some (a % 8) } })
          ∧ (a % 8 < 6 → s.seq.slot = 447 →
            let late := ((next.setFlag Reg.seqStatus 31).bump (Reg.seqCnt 3)).event 107
            exec (.mode w) s = .next { late with seq := { late.seq with lateReq := some (a % 8) } })
          ∧ (6 ≤ a % 8 → exec (.mode w) s = .next (s.seqFault 1)))
      ∧ (SeqIssues s { opc := 0xCD, b := true, bsels := [0, 2] } w →
        let mask := BitVec.ofNat 16 (s.tB w)
        (s.seq.slot < 432 → exec (.commit w) s = .next (s.seqSt (.waiting (.commit mask.toNat))))
          ∧ (432 ≤ s.seq.slot → s.seq.slot < 447 → exec (.commit w) s = .next (next.commitGroups mask))
          ∧ (447 ≤ s.seq.slot →
            let late := ((next.setFlag Reg.seqStatus 31).bump (Reg.seqCnt 3)).event 107
            exec (.commit w) s = .next { late with seq := { late.seq with
              commitPend := some (s.seq.commitPend.getD 0 ||| mask) } }))
      ∧ (SeqIssues s { opc := 0xCF } w → exec (.slateTFlip w) s = .next (s.seqSt .inFlip))
      ∧ (SeqIssues s { opc := 0xD0, d := true, mod := 1 } w →
        (∀ m ms, d ≤ 13 → s.seq.msgs = m :: ms → exec (.rcvm w) s = .next (((State.setT { next with seq := { next.seq with
            msgs := ms } } d m.a.toNat).setT (d + 1) m.b.toNat).setT (d + 2)
              (m.imm.toNat + m.th * 2 ^ 16 + m.eng * 2 ^ 20 + m.hr * 2 ^ 24)))
          ∧ (d ≤ 13 → s.seq.msgs = [] → w.mod = 1 → exec (.rcvm w) s = .next (next.setT (d + 2) 0x80000000))
          ∧ (d ≤ 13 → s.seq.msgs = [] → w.mod = 0 → exec (.rcvm w) s = .next (s.seqSt (.waiting (.message d))))
          ∧ (13 < d → exec (.rcvm w) s = .next (s.seqFault 1)))
      ∧ (SeqIssues s { opc := 0xD1, imm := true } w →
        exec (.signal w) s = .next ((next.setFld Reg.seqSignal 15 0 w.imm16.toNat).event 113))

/-- Faults of the sequencer (08 R185, R189), for all 18 instructions and their forms. -/
def Obligations.TimetableFaults : Prop :=
  ∀ (s : State) (w : SlateWord), s.seqRunning = true →
    let alu (o : BitVec 8) : TShape := { opc := o, d := true, a := true, b := true, bsels := [0, 2, 3] }
    let always := w.mod.toNat % 8 = 6
    let br : TShape := { opc := 0xC8, a := ¬ always, b := ¬ always, bsels := [0, 3], mod := 15, imm := true }
    let forms : List (Instr × TShape) := [(.slateTNop w, { opc := 0xC0 }), (.set w, { opc := 0xC1, d := true, b := true, bsels := [0, 2, 3] }), (.add w, alu 0xC2),
      (.sub w, alu 0xC3), (.and w, alu 0xC4), (.or w, alu 0xC5), (.shr w, alu 0xC6), (.rdsr w, { opc := 0xC7, d := true, imm := true }), (.slateTBr w, br),
      (.waitrow w, { opc := 0xC9, b := true, bsels := [0, 2] }), (.waitbell w, { opc := 0xCA, d := true }),
      (.dispatch w, { opc := 0xCB, a := true, b := true, c := true, mod := 1 }), (.bindl w, { opc := 0xCC, a := true }),
      (.commit w, { opc := 0xCD, b := true, bsels := [0, 2] }), (.mode w, { opc := 0xCE, a := true }), (.slateTFlip w, { opc := 0xCF }), (.rcvm w, { opc := 0xD0, d := true, mod := 1 }),
      (.signal w, { opc := 0xD1, imm := true })]
    ∀ i p, (i, p) ∈ forms →
      ∀ cause, (65536 < s.seq.pc + 8 ∧ cause = 4)
          ∨ (s.seq.pc + 8 ≤ 65536 ∧ (w.opc = p.opc ∨ slateTOpcode w.opc.toNat = false) ∧ p.ok (s.seqSeen w) = false ∧ cause = 1)
          ∨ (s.seq.pc + 8 ≤ 65536 ∧ 65536 < s.seqNext w ∧ p.ok (s.seqSeen w) = true ∧ w.mod.toNat % 8 ≠ 7
            ∧ (s.seq.bad.any fun x => s.seq.pc / 8 ≤ x && x < s.seqNext w / 8) = false ∧ cause = 4) →
        ∃ t, exec i s = .next t ∧ t.seq = { s.seq with st := .halted } ∧ t.fld Reg.seqStatus 7 0 = cause
          ∧ t.flag Reg.seqStatus 29 = true ∧ (s.up 33 = true → t.flag (Reg.evtStatus (109 / 32)) (109 % 32) = true)
          ∧ RegsAndEvents { s with seq := t.seq } t ∧ exec i s = .next (s.seqFault cause)

/-- Slot starts and flips (01 R23, R24; 04 R101; 08 R199, R202); conditions not met: log entry 13, the model's choice. -/
def Obligations.SlotsAndFlips : Prop :=
  let flipped (s : State) (o : Out) (wall : Nat) (next : Option Nat) (hold free : Bool) : Prop := ∃ t u : State, o = .next t
    ∧ (t = { u with cyc := t.cyc } ∨ t = { u.narrowReset 5 with cyc := t.cyc })
    ∧ u.seq.frame = (s.seq.frame + 1) % 2 ^ 48 ∧ u.seq.flipWall = wall ∧ u.seq.flipAt = some s.now ∧ u.seq.slot = 0
    ∧ u.seq.slotAt = s.now ∧ u.asm.nextFlip = next ∧ u.asm.holdover = hold ∧ u.seq.freeRun = free ∧ u.now = s.now
  (∀ (s : State) f, s.seq.flipAt = some f → s.live 18 = true → s.seq.slot < 447 → s.flipDue = false →
      let begins := f + (s.seq.slot + 1) * ratePeriod s.seq.rate / 448
      (begins ≤ s.now → ∃ t, exec .slotStart s = .next t ∧ t.seq.slot = s.seq.slot + 1 ∧ t.seq.slotAt = begins
        ∧ t.seq.frame = s.seq.frame ∧ t.seq.flipAt = some f ∧ t.seq.flipWall = s.seq.flipWall ∧ t.seq.rate = s.seq.rate
        ∧ t.seq.blanked = s.seq.blanked ∧ t.asm.nextFlip = s.asm.nextFlip ∧ t.asm.holdover = s.asm.holdover ∧ t.now = s.now)
      ∧ (s.now < begins → exec .slotStart s = .next s))
    ∧ (∀ (s : State) w, s.asm.nextFlip = some w →
      (w ≤ s.wallNs → s.live 18 = true → flipped s (exec .flip s) w none false false)
        ∧ (w ≤ s.wallNs → s.live 18 = false → exec .flip s = .next { s with
          asm := { s.asm with nextFlip := none, holdover := false }, seq := { s.seq with freeRun := false } })
        ∧ (s.wallNs < w → exec .flip s = .next s))
    ∧ (∀ s : State, s.asm.nextFlip = none → s.asm.flipPeriod ≠ 0 → s.seq.flipAt ≠ none →
      s.seq.flipWall + s.asm.flipPeriod ≤ s.wallNs → s.live 18 = true →
      flipped s (exec .holdoverFlip s) s.wallNs none true false)
    ∧ ∀ s : State, s.live 18 = true → s.flag Reg.seqCtrl 2 = true →
      let p := ratePeriod s.seq.rate
      let since := match s.seq.flipAt with
        | some f => f
        | none => s.seq.enAt
      let due := if s.seq.flipAt ≠ none ∧ s.seq.freeRun = true then since + p else since + p + p / 448
      let s₁ : State := { s with seq := { s.seq with freeRun := true } }
      let s₂ := s₁.bump (Reg.seqCnt 4)
      let s₃ := if s.seq.freeRun then s₂ else s₂.event 110
      (due ≤ s.now → (s.seq.flipAt = none → s.flag Reg.seqCtrl 0 = true) → exec .freeRunFlip s = .next (s₃.flip s.wallNs)
        ∧ flipped s (exec .freeRunFlip s) s.wallNs s.asm.nextFlip s.asm.holdover true)
        ∧ (s.now < due → exec .freeRunFlip s = .next s)

/-- SEQ_CTRL, SEQ_FRAME_LO and SEQ_GEO_MARGIN (08 R192, R200, R202; 01 R33). -/
def Obligations.SequencerControl : Prop :=
  (∀ (s : State) (b : BusWrite) (c : BusWrite → Instr), c ∈ [Instr.seqEnWrite, Instr.seqRestart, Instr.freeRunEnWrite] →
      s.busOk Reg.seqCtrl b = true →
      let z : State := (s.accepted Reg.seqCtrl b).store Reg.seqCtrl b.value
      let z₁ : State := { z with seq := { z.seq with freeRun := s.seq.freeRun && b.value.getLsbD 2 } }
      let was := s.flag Reg.seqCtrl 0
      let en := b.value.getLsbD 0
      (was = false → en = true → exec (c b) s =
          .next { z₁ with seq := { z₁.seq with st := .awaiting, enAt := s.now, restartDue := false } })
        ∧ (was = true → en = false → exec (c b) s =
          .next { z₁ with seq := { z₁.seq with st := .stopped, desc := [], restartDue := false } })
        ∧ (was = true → en = true → b.value.getLsbD 31 = true → s.seq.restartDue = false → exec (c b) s = .next { z₁ with seq := { z₁.seq with
            restartDue := true, st := if s.seq.st = .halted then .awaiting else s.seq.st } })
        ∧ (was = en → en = false ∨ b.value.getLsbD 31 = false ∨ s.seq.restartDue = true → exec (c b) s = .next z₁))
    ∧ (∀ (s : State) (b : BusRead), ReadOk s Reg.seqFrameLo b →
        let m := b.master.val
        let s₁ := ((s.latchWord m Reg.seqFrameHi (word (s.seq.frame / 2 ^ 32))).latchWord m Reg.seqFlipLo
          (word s.seq.flipWall)).latchWord m Reg.seqFlipHi (word (s.seq.flipWall / 2 ^ 32))
        exec (.seqFrameLoRead b) s = .next (answered b Reg.seqFrameLo s₁ (word s.seq.frame)))
    ∧ ∀ (s : State) (b : BusWrite), s.busOk Reg.seqGeoMargin b = true →
        let z₀ := (s.accepted Reg.seqGeoMargin b).store Reg.seqGeoMargin b.value
        let z := if b.value.getLsbD 30 then z₀.noteArm 0 s.seq.geoArmed else z₀
        exec (.geoMarginArm b) s = .next { z with seq := { z.seq with geoArmed := b.value.getLsbD 30 || s.seq.geoArmed } }

/-- Posts before their check (15 R337, R338; log entry 54 for the depth of CAL_REC_POST, the model's choice). -/
def Obligations.PostsWaitForTheMonitor : Prop :=
  ∀ (s : State) (b : BusWrite),
    let x := 64 * (b.value.toNat / 64 % 2 ^ 24)
    let posts (i : Instr) (off depth held : Nat) (q : QueueId) (full : State → State) : Prop := s.busOk off b = true →
        let z := s.accepted off b
      (held + s.posting q < depth → exec i s = .next { z with host := { z.host with fifo := s.host.fifo ++ [.post q x] } })
        ∧ (depth ≤ held + s.posting q → exec i s = .next (full z))
    (∀ p : Fin 2, posts (.asmDnqPost p b) (Reg.asmDnqPost p.val) 16 (s.port p.val).dnq.length (.asmDnq (p.val == 1)) (State.event · 73)
        ∧ posts (.asmUpqPost p b) (Reg.asmUpqPost p.val) 16 (s.port p.val).upq.length (.asmUpq (p.val == 1)) (State.event · 73))
      ∧ posts (.hrPvPost b) Reg.hrPvPost 4 s.syn.pvQueue.length .hrPv (State.event · 106)
      ∧ (∀ k : Fin 4, posts (.camCapPost k b) (Reg.camCapPost k.val) 4 (s.pipe k.val).queue.length (.camCap k.val) id)
      ∧ posts (.calRecPost b) Reg.calRecPost 4 s.cal.recQueue.length .calRec id
      ∧ posts (.rptCkptPost b) Reg.rptCkptPost 4 s.rpt.ckptQueue.length .rptCkpt id
      ∧ (s.flag Reg.rptCtrl 0 = false → posts (.rptRestPost b) Reg.rptRestPost 4 s.rpt.restQueue.length .rptRest id)
      ∧ (s.flag Reg.rptCtrl 0 = true → s.busOk Reg.rptRestPost b = true → exec (.rptRestPost b) s = .next (s.accepted Reg.rptRestPost b))
      ∧ posts (.rcPost b) Reg.rcPost 4 s.host.rcQueue.length .rc id
      ∧ posts (.secImgPost b) Reg.secImgPost 4
          (s.sec.complete.filter fun y => match y with | .buffer _ => true | _ => false).length .secImg id
      ∧ posts (.secAttPost b) Reg.secAttPost 4 s.sec.reports.length .secAtt id

/-- The Hall Pass monitor (15 R337 to R339). -/
def Obligations.MonitorChecksPosts : Prop :=
  (∀ (s : State) q x r, s.host.fifo = .post q x :: r → x % 64 = 0 → s.live 34 = true →
      s.memReady q.master (winAddr x) 64 = true →
      let s₀ : State := { s with host := { s.host with fifo := [] } }
      let read := s₀.ownerRead q.master x
      let s₁ := read.1
      let owner := read.2.1
      let len := read.2.2
      let touches (n : Nat) : Prop := ∃ e ∈ s.host.extents, x < e.base + e.len ∧ e.base < x + n
      let wanted := match q with | .asmDnq _ => 2 | .asmUpq _ => 2 | _ => 1
      let after (t : State) : Out := .next (State.drainFifo { t with host := { t.host with fifo := t.host.fifo ++ r } })
      let latched (reason : Nat) : State :=
        s₁.latchFirst Reg.hpRefuse q.reg [(Reg.hpRefuse, word (2 ^ 31 + x / 64 * 64 + reason))]
      let refused (reason : Nat) : State :=
        let s₂ := if s.inExtent x 64 then latched reason else (latched reason).ownerReturn q.master x 1
        (s₂.event 33).postRefused q
      (RegsAndEvents s₀ s₁ ∧ if (s₀.devRead q.master (winAddr x) 8).2.2 then
          owner = leNat (s.bytesAt (winAddr x) 4) % 4 ∧ len = ownerLen (leNat (s.bytesAt (winAddr x + 4) 4)) else owner = 0)
        ∧ (owner ≠ wanted → exec .postCheck s = after (refused 1))
        ∧ (owner = wanted → 2 ^ 30 < x + len → exec .postCheck s = after (refused 2))
        ∧ (owner = wanted → x + len ≤ 2 ^ 30 → touches len → exec .postCheck s = after (refused 3))
        ∧ (owner = wanted → x + len ≤ 2 ^ 30 → ¬ touches len → 256 ≤ s.host.extents.length →
          exec .postCheck s = after (refused 4))
        ∧ (∀ k, k < 8 → Calm s₁ Reg.hpRefuse → (latched k).reg Reg.hpRefuse =
          if s₁.flag Reg.hpRefuse 31 then s₁.reg Reg.hpRefuse else word (2 ^ 31 + x / 64 * 64 + k))
        ∧ (owner = wanted → x + len ≤ 2 ^ 30 → ¬ touches len → s.host.extents.length < 256 →
          let s₂ : State := { s₁ with host := { s₁.host with extents := s.host.extents ++ [⟨x, len, q⟩] } }
          exec .postCheck s = after (s₂.postAccepted x q)
            ∧ (q = .rc → r = [] → exec .postCheck s = .next { s₂ with host := { s₂.host with rcQueue := s.host.rcQueue ++ [x] } })
            ∧ (q = .hrPv → r = [] → exec .postCheck s = .next { s₂ with syn := { s.syn with pvQueue := s.syn.pvQueue ++ [x] } })
            ∧ (q = .calRec → r = [] →
              exec .postCheck s = .next { s₂ with cal := { s.cal with recQueue := s.cal.recQueue ++ [x] } })))
    ∧ (∀ s : State, s.host.fifo = [] → exec .postCheck s = .next s)
    ∧ (∀ (s : State) q x r, s.host.fifo = .post q x :: r → (s.live 34 && s.memReady q.master (winAddr x) 64) = false →
      exec .postCheck s = .next s)
    ∧ ∀ (s : State) (off : BitVec 30) bs, s.hostPath = true → s.live 34 = true → bs ≠ [] → off.toNat + bs.length ≤ 2 ^ 30 →
        let x := off.toNat
        let touches : Prop := ∃ e ∈ s.host.extents, x < e.base + e.len ∧ e.base < x + bs.length
        (s.host.fifo ≠ [] → exec (.windowWrite off bs) s =
            .next { s with host := { s.host with fifo := s.host.fifo ++ [.write x bs] } })
          ∧ (s.host.fifo = [] → ¬ touches → exec (.windowWrite off bs) s = .next (s.devWrite 16 (0x1E00000000 + x) bs).1)
          ∧ (s.host.fifo = [] → touches →
            let s₁ := (s.bump Reg.hpViolCnt).event 32
            let s₂ := s₁.latchFirst Reg.hpViol 0 [(Reg.hpViol, word (2 ^ 31 + x))]
            exec (.windowWrite off bs) s = .next s₂ ∧ (Calm s Reg.hpViol → s₂.reg Reg.hpViol =
              if s.flag Reg.hpViol 31 then s.reg Reg.hpViol else word (2 ^ 31 + x)))

/-- Mailboxes (15 R342, R343, R346). -/
def Obligations.MailboxesHoldTheirResult : Prop :=
  (∀ (s : State) (k : Fin 4) (b : BusWrite), s.busOk (Reg.hstMboxAck k.val) b = true →
      let z := s.accepted (Reg.hstMboxAck k.val) b
      let seq := s.fld (Reg.hstMbox0w k.val) 15 0
      (b.value.toNat % 65536 ≠ seq → exec (.mboxAck k b) s = .next z)
        ∧ (b.value.toNat % 65536 = seq → (∀ p ∈ s.host.mboxHeld, p.1 ≠ k.val) →
          exec (.mboxAck k b) s = .next (z.clrFlag (Reg.hstMbox0w k.val) 31))
        ∧ ∀ d before rest, b.value.toNat % 65536 = seq → s.host.mboxHeld = before ++ (k.val, d) :: rest →
          (∀ p ∈ before, p.1 ≠ k.val) → ∃ t, exec (.mboxAck k b) s = .next t ∧ t.host.mboxHeld = before ++ rest
            ∧ t.reg (Reg.hstMbox0w k.val) = word (2 ^ 31 + (seq + 1) % 65536)
            ∧ (∀ i, i < 6 → t.reg (Reg.hstMboxData k.val i) = d.getD i 0)
            ∧ (s.up 33 = true → t.flag (Reg.evtStatus 1) (4 + k.val) = true)
            ∧ (∀ o, o ≠ Reg.hstMbox0w k.val → (∀ i, i < 6 → o ≠ Reg.hstMboxData k.val i) → o ≠ Reg.evtStatus 1 → t.reg o = s.reg o)
            ∧ RegsAndEvents { z with host := { z.host with mboxHeld := before ++ rest } } t)
    ∧ (∀ (s : State) (k : Fin 4) (b : BusRead), ReadOk s (Reg.hstMbox0w k.val) b → ∃ t : State,
        exec (.mboxRead k b) s = .next (answered b (Reg.hstMbox0w k.val) t (s.reg (Reg.hstMbox0w k.val)))
          ∧ (∀ i, i < 6 → t.latched b.master.val (Reg.hstMboxData k.val i) = some (s.reg (Reg.hstMboxData k.val i)))
          ∧ t = { s with host := { s.host with latch := t.host.latch, latchRc := t.host.latchRc } }
          ∧ (b.master.val = 24 → t.host.latch = s.host.latch) ∧ (b.master.val ≠ 24 → t.host.latchRc = s.host.latchRc))
    ∧ ∀ (s : State) (k : Fin 4) d,
        (s.flag (Reg.hstMbox0w k.val) 31 = true →
          s.mboxResult k.val d = { s with host := { s.host with mboxHeld := s.host.mboxHeld ++ [(k.val, d)] } })
        ∧ (s.flag (Reg.hstMbox0w k.val) 31 = false → (s.mboxResult k.val d).reg (Reg.hstMbox0w k.val) =
            word (2 ^ 31 + (s.fld (Reg.hstMbox0w k.val) 15 0 + 1) % 65536))

/-- Events (15 R348 to R352). -/
def Obligations.EventsReachTheirRoutes : Prop :=
  let fresh (s : State) (e : Nat) : Prop := s.flag (Reg.evtStatus (e / 32)) (e % 32) = false ∧ s.flag (Reg.evtEnable (e / 32)) (e % 32) = true
  (∀ (s : State) (g : Fin 9) (b : BusWrite), s.busOk (Reg.evtStatus g.val) b = true → ∃ t, exec (.evtStatusClear g b) s = .next t
      ∧ RegsAndEvents { s with host := { s.host with respErr := false } } t
      ∧ (∀ n, n < 32 → t.flag (Reg.evtStatus g.val) n =
          (s.flag (Reg.evtStatus g.val) n && (!b.value.getLsbD n || (s.setsNow (Reg.evtStatus g.val)).testBit n)))
      ∧ (∀ o, o ≠ Reg.evtStatus g.val → t.reg o = s.reg o)
      ∧ Asserts (fun e => e / 32 = g.val ∧ b.value.getLsbD (e % 32) = true ∧ e ∈ s.cyc.again
          ∧ s.flag (Reg.evtEnable g.val) (e % 32) = true) s t)
    ∧ (∀ (s : State) (g : Fin 9) (b : BusWrite), s.busOk (Reg.evtEnable g.val) b = true → ∃ t, exec (.evtEnableWrite g b) s = .next t
      ∧ RegsAndEvents { s with host := { s.host with respErr := false } } t
      ∧ t.reg (Reg.evtEnable g.val) = b.value ∧ (∀ o, o ≠ Reg.evtEnable g.val → t.reg o = s.reg o)
      ∧ Asserts (fun e => e / 32 = g.val ∧ b.value.getLsbD (e % 32) = true ∧ s.flag (Reg.evtEnable g.val) (e % 32) = false
          ∧ s.flag (Reg.evtStatus g.val) (e % 32) = true) s t)
    ∧ (∀ (s : State) (b : BusWrite), s.busOk Reg.evtSoftSet b = true → s.up 33 = true →
      ((b.master.val = 0 ∨ b.master.val = 16) → ∃ t, exec (.evtSoftSet b) s = .next t
        ∧ RegsAndEvents { s with host := { s.host with respErr := false } } t
        ∧ t.reg (Reg.evtStatus 8) = s.reg (Reg.evtStatus 8) ||| b.value ∧ (∀ o, o ≠ Reg.evtStatus 8 → t.reg o = s.reg o)
        ∧ Asserts (fun e => 256 ≤ e ∧ e < 288 ∧ b.value.getLsbD (e - 256) = true ∧ fresh s e) s t)
      ∧ (b.master.val ≠ 0 → b.master.val ≠ 16 → exec (.evtSoftSet b) s = .next (s.accepted Reg.evtSoftSet b)))
    ∧ ∀ (s : State) (levels : BitVec 16), s.live 33 = true →
      let sample (n : Nat) : Bool := if s.flag Reg.evtGpioOe n then s.flag Reg.evtGpioOut n else levels.getLsbD n
      let edge (n : Nat) : Prop := sample n = s.host.gpioLast.getLsbD n ∧ sample n ≠ s.host.gpioFilt.getLsbD n
      let occurs (e : Nat) : Prop := ∃ n, n < 16 ∧ edge n ∧ e = if sample n then 224 + n else 240 + n
      ∃ t, exec (.gpioEdge levels) s = .next t
        ∧ RegsAndEvents { s with host := { s.host with gpioIn := levels, gpioLast := t.host.gpioLast, gpioFilt := t.host.gpioFilt } } t
        ∧ (∀ n, n < 16 → t.host.gpioLast.getLsbD n = sample n)
        ∧ (∀ n, n < 16 → (edge n → t.host.gpioFilt.getLsbD n = sample n) ∧ (¬ edge n → t.host.gpioFilt.getLsbD n = s.host.gpioFilt.getLsbD n))
        ∧ (∀ e, e < 288 → (t.flag (Reg.evtStatus (e / 32)) (e % 32) = true ↔ s.flag (Reg.evtStatus (e / 32)) (e % 32) = true ∨ occurs e))
        ∧ (∀ o, o ≠ Reg.evtStatus 7 → t.reg o = s.reg o)
        ∧ Asserts (fun e => occurs e ∧ fresh s e) s t

/-- MSI-X messages (15 R349) and link training (15 R329); the unmet conditions are log entry 13, the model's choice. -/
def Obligations.MessagesAndTheLink : Prop :=
  (∀ (s : State) (v : Fin 64) (cfg : PciConfig),
      let s₁ : State := { s with host := { s.host with cfg := cfg } }
      let may : Prop := s.host.msixPend.getLsbD v.val = true ∧ cfg.msixEnable = true ∧ cfg.fnMask = false ∧ cfg.busMaster = true
        ∧ s.flag (Reg.hstMsixTable v.val 3) 0 = false
      (s.hostPath = false → exec (.msixMessage v cfg) s = .next s)
        ∧ (s.hostPath = true → ¬ may → exec (.msixMessage v cfg) s = .next s₁)
        ∧ (s.hostPath = true → may → exec (.msixMessage v cfg) s = .next { s₁ with host := { s₁.host with
            msixPend := s.host.msixPend &&& ~~~ BitVec.ofNat 64 (2 ^ v.val)
            lastMsg := some ⟨v.val, s.reg (Reg.hstMsixTable v.val 0), s.reg (Reg.hstMsixTable v.val 1),
              s.reg (Reg.hstMsixTable v.val 2)⟩ } }))
    ∧ ∀ (s : State) (up : Bool) (w g : BitVec 4),
        (s.up 37 = false → exec (.pcieLinkTraining up w g) s = .next s)
          ∧ (s.up 37 = true → up = false → exec (.pcieLinkTraining up w g) s = .next (s.setReg Reg.hstLink 0))
          ∧ (s.up 37 = true → up = true → (w = 1 ∨ w = 2 ∨ w = 4) → 1 ≤ g.toNat → g.toNat ≤ 5 →
            exec (.pcieLinkTraining up w g) s = .next (s.setReg Reg.hstLink (word (2 ^ 31 + 16 * w.toNat + g.toNat))))

/-- Roll Call (15 R344, R345, R347); a trigger or an end whose condition is not met changes nothing (log entry 13, the model's choice). -/
def Obligations.RollCallSnapshots : Prop :=
  let period (s : State) : Nat := max 1 (s.fld Reg.rcPeriod 15 0)
  let trigger (s t : State) : Prop :=
    let n := min 256 (s.fld Reg.rcCount 8 0)
    let waits : Prop := s.host.rcQueue = [] ∨ s.host.rcBusy ≠ none ∨ s.flag (Reg.hstMbox0w 3) 31 = true ∨ ∃ d, (3, d) ∈ s.host.mboxHeld
    (waits → t = s.bump (Reg.rcCnt 1))
      ∧ ∀ x xs, ¬ waits → s.host.rcQueue = x :: xs →
        let s₁ : State := { s with host := { s.host with rcQueue := xs } }
        (s.bufLen x < 128 + 4 * n →
          t = ((s₁.returnBuffer 24 x 3).bump (Reg.rcCnt 1)).rcResult 3 s.host.rcSnap x s.seq.frame n 0)
          ∧ (128 + 4 * n ≤ s.bufLen x → t = ({ s₁.bump (Reg.rcCnt 0) with host := { s₁.host with
              rcSnap := (s.host.rcSnap + 1) % 2 ^ 32
              rcBusy := some ⟨x, s.now, [], n, 0, s.host.rcSnap, s.seq.frame, s.wallNs⟩ } } : State).rcTick)
  (∀ s : State, s.live 32 = true → s.flag Reg.rcCtrl 0 = true →
      let due := s.host.rcBase + period s * 1000000
      let flips : Prop := s.seq.flipAt ≠ none ∧ s.seq.frame % period s = 0 ∧ s.host.rcFrame ≠ some s.seq.frame
      (s.flag Reg.rcCtrl 1 = false → due ≤ s.wallNs → ∃ t, exec .rollCallTrigger s = .next t
        ∧ trigger { s with host := { s.host with rcBase := due } } t)
        ∧ (s.flag Reg.rcCtrl 1 = false → s.wallNs < due → exec .rollCallTrigger s = .next s)
        ∧ (s.flag Reg.rcCtrl 1 = true → flips → ∃ t, exec .rollCallTrigger s = .next t
          ∧ trigger { s with host := { s.host with rcFrame := some s.seq.frame } } t)
        ∧ (s.flag Reg.rcCtrl 1 = true → ¬ flips → exec .rollCallTrigger s = .next s))
    ∧ (∀ (s : State) (b : BusWrite), s.busOk Reg.rcCtrl b = true →
        let ms := period s * 1000000
        let s₁ : State := (s.accepted Reg.rcCtrl b).store Reg.rcCtrl b.value
        let s₂ : State := if s.flag Reg.rcCtrl 1 = true ∧ b.value.getLsbD 1 = false ∧ s.host.rcBase ≤ s.wallNs then
            { s₁ with host := { s₁.host with rcBase := s.host.rcBase + (s.wallNs - s.host.rcBase) / ms * ms } } else s₁
        let s₃ : State := if b.value.getLsbD 0 = true ∧ s.flag Reg.rcCtrl 0 = false then
            { s₂ with host := { s₂.host with rcBase := s.wallNs, rcFrame := some s.seq.frame } } else s₂
        (b.value.getLsbD 31 = true → ∃ t, exec (.rcNow b) s = .next t ∧ trigger s₃ t)
          ∧ (b.value.getLsbD 31 = false → exec (.rcNow b) s = .next s₃))
    ∧ ∀ (s : State) x, s.host.rcBusy = some x → s.live 32 = true → x.n ≤ x.values.length →
        s.memReady 24 (winAddr x.buf) (s.bufLen x.buf) = true →
        let port := s.fld Reg.rcCtrl 3 3
        let content := leBytes 8 (if s.flag Reg.rcCtrl 2 then max 0xC0 (s.fld Reg.rcCtrl 23 16) else 0) ++ leBytes 4 0x4C4C4352 ++ leBytes 4 x.snap
          ++ leBytes 8 (x.frame % 2 ^ 48) ++ leBytes 8 x.wall ++ leBytes 2 x.n ++ leBytes 2 x.errs ++ List.replicate 28 0
          ++ (x.values.map fun v => leBytes 4 v.toNat).flatten
        let w₁ := State.devWrite { s with host := { s.host with rcBusy := none } } 24 (winAddr (x.buf + 64)) content true
        let w₂ := w₁.1.devWrite 24 (winAddr (x.buf + 8)) (leBytes 4 content.length)
        let w₃ := w₂.1.devWrite 24 (winAddr (x.buf + 12)) (leBytes 4 (crc32 content))
        let r := if w₁.2 = false then w₁ else if w₂.2 = false then w₂ else w₃
        let dest := r.1.flag Reg.rcCtrl 2
        let full : Prop := 16 ≤ (r.1.port port).upq.length + r.1.posting (.asmUpq (port == 1))
        let back (s' : State) (status : Nat) : Prop :=
          let st := if s'.writeOk 24 (winAddr x.buf) 8 = true then status else 6
          let s₁ := s'.returnBuffer 24 x.buf st
          exec .snapshotDone s = .next (State.rcResult (if st = 3 then s₁.bump (Reg.rcCnt 1) else s₁) st x.snap x.buf x.frame x.n x.errs)
        let word0 := leNat (r.1.bytesAt (winAddr x.buf) 4)
        let own := r.1.devWrite 24 (winAddr x.buf) (leBytes 4 (word0 - word0 % 4 + 2))
        (r.2 = false → back r.1 6)
          ∧ (r.2 = true → dest = false → back r.1 0)
          ∧ (r.2 = true → dest = true → r.1.live port = false → back r.1 6)
          ∧ (r.2 = true → dest = true → r.1.live port = true → full → back r.1 3)
          ∧ (r.2 = true → dest = true → r.1.live port = true → ¬ full → own.2 = false → back own.1 6)
          ∧ (r.2 = true → dest = true → r.1.live port = true → ¬ full → own.2 = true → exec .snapshotDone s =
            .next (((own.1.dropExtent x.buf).post (.asmUpq (port == 1)) x.buf).rcResult 0 x.snap x.buf x.frame x.n x.errs))

/-- Lane states (03 R62, R65 to R72, R79, R80); conditions not met: log entry 13, the model's choice. -/
def Obligations.LaneStatesFollowRequests : Prop :=
  ∀ (s : State) (l : Fin 74),
    let k := l.val
    let ln := s.lane k
    let live := s.live (laneBlock k) = true
    let code (v : Nat) : Nat := if 1 ≤ v % 8 ∧ v % 8 ≤ 3 then v % 8 else 0
    let auto := code (s.fld (Reg.laneCtrl k) 2 0) = 0
    let c := s.laneBoundary k
    let arrives (z : State) (w : LaneSt) : State :=
      let y := z.laneBoundary k
      let n := (y.lane k).enter w
      y.setLane k (match n.held with
        | none => n
        | some w => { n with held := none }.ask w)
    (c.lane k = { ln with
          firPend := none, preOn := s.flag (Reg.laneCtrl k) 4 && lanePam4 k, genOn := laneTx k && s.flag (Reg.lanePrbs k) 2
          genPoly := BitVec.ofNat 2 (s.fld (Reg.lanePrbs k) 1 0)
          txen := laneTx k && s.flag (Reg.lanePrbs k) 2 && laneBurst k && ln.st == .active }
        ∧ ∀ w, ln.firPend = some w → c.reg (Reg.laneTxfir k) = w)
      ∧ (∀ b : BusWrite, s.busOk (Reg.laneCtrl k) b = true →
        let z := s.accepted (Reg.laneCtrl k) b
        let z₁ := (if b.value.getLsbD 6 then z.holdAdapt k else z).store (Reg.laneCtrl k) (laneCtrlMask k b.value)
        let w : LaneSt := match b.value.toNat % 8 with
          | 1 => .active
          | 2 => .quiet
          | 3 => .dormant
          | _ => ln.link
        let same := code b.value.toNat = code (s.fld (Reg.laneCtrl k) 2 0)
        (same → exec (.stateReq l b) s = .next z₁)
          ∧ (¬ same → ln.st = .transition → exec (.stateReq l b) s = .next (z₁.setLane k { ln with held := some w }))
          ∧ (¬ same → ln.st ≠ .transition → ln.st = w → exec (.stateReq l b) s = .next (z₁.setLane k ln))
          ∧ (¬ same → ln.st ≠ .transition → ln.st ≠ w → exec (.stateReq l b) s = .next (z₁.setLane k { ln with req := some w })))
      ∧ (∀ w, ln.req = some w → live → ln.st ≠ .transition →
        let begins (z : State) : State := (z.holdAdapt k).setLane k { z.lane k with st := .transition, target := w, req := none, txen := false }
        let goodbye := laneTx k = true ∧ laneBurst k = false ∧ ln.st = .active ∧ w = .quiet
        (¬ goodbye → exec (.stateTransition l) s = .next (begins c))
          ∧ (goodbye → (c.lane k).genOn = true → exec (.stateTransition l) s = .next (begins (c.prbsSend k)))
          ∧ (goodbye → (c.lane k).genOn = false →
            let nx := (c.lane k).nextBlocks c.latency 72
            exec (.stateTransition l) s = .next (begins ((c.setLane k nx.2).laneSend k
              (fillBlocks 72 nx.1 ++ (List.range 8).map fun i => quietNotice (7 - i))))))
      ∧ ((ln.req = none ∨ ¬ live ∨ ln.st = .transition) → exec (.stateTransition l) s = .next s)
      ∧ (live → ln.st = .transition →
        exec (.laneStateComplete l) s = .next (((arrives s ln.target).event 66).lockFollow k ln.cwLock))
      ∧ (laneTx k = false → live →
        (ln.st = .active → exec (.signalDetect l) s = .next (s.setLane k { ln with sigDet := true, cdrLock := true }))
          ∧ (ln.st = .quiet → auto → exec (.signalDetect l) s =
            .next (s.setLane k { ln with sigDet := true, st := .transition, target := .active }))
          ∧ (ln.st = .quiet → ¬ auto → exec (.signalDetect l) s = .next (s.setLane k { ln with sigDet := true }))
          ∧ let matters := ln.st = .active ∨ ln.st = .transition ∧ (ln.cdrLock || ln.blockLock || ln.cwLock) = true
            (¬ matters → exec (.sigLost l) s = .next s)
            ∧ (matters →
              let h := s.holdAdapt k
              let said := ∃ t, ln.noticeAt = some t ∧ s.now ≤ t + 3200
              (said → auto → exec (.sigLost l) s =
                  .next (((arrives (h.setLane k { ln with sigDet := false }) .quiet).event 66).lockFollow k ln.cwLock))
                ∧ (¬ (said ∧ auto) → exec (.sigLost l) s = .next ((((h.setLane k
                  { ln.unlock with cdrLock := false, sigDet := false }).setFlag (Reg.laneStatus k) 9).event 64).lockFollow k ln.cwLock))))
      ∧ (live → ln.cwLock = true → ln.lossDue = true → exec (.lockLost l) s =
          .next ((((s.setLane k ln.unlock).setFlag (Reg.laneStatus k) 8).event 64).lockFollow k true))
      ∧ ((ln.cwLock = false ∨ ln.lossDue = false) → exec (.lockLost l) s = .next s)

/-- Codewords, hunting and line tests (03 R54 to R65, R69, R76 to R78); unmet conditions: log entry 13, the model's choice. -/
def Obligations.CodewordsAndLineTests : Prop :=
  ∀ (s : State) (l : Fin 74),
    let k := l.val
    let ln := s.lane k
    let n := if lanePam4 k then 2720 else 5440
    let took (m pre : Nat) (x : Lane) : Lane :=
      { x with
        pre := BitVec.ofNat 2 pre, preOn := s.flag (Reg.laneCtrl k) 4 && lanePam4 k, injFlips := flipsLater m x.injFlips, cwAt := s.now }
    (∀ levels : List (BitVec 2), s.laneReceiving k = true → ln.cwLock = true → ln.lossDue = false → levels.length = n →
        let line := s.laneBits k levels
        let w := windowRun ln.winCount ln.winBad ((chunks 66 80 line.1).map headerInvalid) 0
        let dec := rsDecode ((chunks 10 544 line.1).map packBits)
        let good := match dec with
          | some d => (d.1.map (unpackBits 10)).flatten
          | none => line.1
        let rd := readBlocks 0 ln.scr.toNat (chunks 66 80 good) dec.isNone
        let blocks := rd.1.take (w.2.2.2.getD 80)
        let s₁ := ((s.setLane k { took 5440 line.2 ln with
            scr := BitVec.ofNat 58 rd.2
            winCount := w.1, winBad := w.2.1, lossDue := w.2.2.2.isSome
            noticeAt := if blocks.any isNotice then some s.now else ln.noticeAt }).bump (Reg.laneCntCw k)).bump
              (Reg.laneCntHdrErr k) (w.2.2.1 + (((chunks 66 80 good).take (w.2.2.2.getD 80)).filter headerInvalid).length)
        let s₂ := match dec with
          | some (_, 0) => s₁
          | some (_, wrong) => (s₁.bump (Reg.laneCntCorr k)).bump (Reg.laneCntSym k) wrong
          | none => ((s₁.bump (Reg.laneCntUncorr k)).setFlag (Reg.laneStatus k) 10).event 65
        exec (.codewordReceived l levels) s = .next (s₂.takeBlocks k (delivered 0 blocks)))
      ∧ (∀ levels : List (BitVec 2), s.laneReceiving k = true → ln.cdrLock = true → ln.cwLock = false → levels.length = 2 * n →
        let r := huntStep k ln (s.laneBits k levels).1
        let m := match ln.confirm with
          | some (c, _) => if r.1.cwLock then c + 5440 else 5440
          | none => 5440
        let x := took m (s.laneBits k (levels.take (if lanePam4 k then m / 2 else m))).2 r.1
        let s₁ := (s.setLane k (if r.2.any isNotice then { x with noticeAt := some s.now } else x)).bump
          (Reg.laneCntHdrErr k) (r.2.filter (·.bad)).length
        exec (.alignmentHunt l levels) s = .next ((s₁.lockFollow k false).takeBlocks k
          (delivered 5440 (r.2.take 80) ++ delivered 0 (r.2.drop 80))))
      ∧ (∀ b : BusWrite, s.busOk (Reg.laneTxfir k) b = true →
        let z := s.accepted (Reg.laneTxfir k) b
        (laneTx k = true → firSum b.value.toNat ≤ 64 →
            exec (.laneTxfirWrite l b) s = .next (z.setLane k { ln with firPend := some (b.value &&& 0xFFFFFFE0) }))
          ∧ (laneTx k = true → 64 < firSum b.value.toNat → exec (.laneTxfirWrite l b) s = .next (z.setFlag (Reg.laneStatus k) 11))
          ∧ (laneTx k = false → exec (.laneTxfirWrite l b) s = .next z))
      ∧ (laneTx k = true → s.live (laneBlock k) = true →
        let c := s.laneBoundary k
        let x := c.lane k
        let g := prbsRun x.genPoly.toNat 5440 x.genState.toNat
        let sends (z : State) (bits : List Bool) : State :=
          let y := z.lane k
          let lv := bitsToLevels (lanePam4 k) (z.flag (Reg.laneCtrl k) 5) y.preOn y.pre.toNat (flipBits y.injFlips bits)
          z.setLane k { y with
            pre := BitVec.ofNat 2 lv.2, pre0 := y.pre, line := lv.1, cwAt := z.now, injFlips := flipsLater 5440 y.injFlips }
        (x.st ≠ .active → exec (.txCodewordBoundary l) s = .next c)
          ∧ (x.st = .active → x.genOn = true → exec (.txCodewordBoundary l) s =
            .next (sends (c.setLane k { x with genState := BitVec.ofNat 31 g.2 }) g.1))
          ∧ (x.st = .active → x.genOn = false → laneBurst k = true → exec (.txCodewordBoundary l) s = .next c)
          ∧ (x.st = .active → x.genOn = false → laneBurst k = false →
            let z := c.setLane k (x.nextBlocks c.latency 80).2
            let cw := sendCodeword (z.lane k).scr.toNat (fillBlocks 80 (x.nextBlocks c.latency 80).1)
            exec (.txCodewordBoundary l) s = .next (sends (z.setLane k { z.lane k with scr := BitVec.ofNat 58 cw.2 }) cw.1)))
      ∧ (∀ levels : List (BitVec 2), laneTx k = false → s.live (laneBlock k) = true → ln.st = .active → s.flag (Reg.lanePrbs k) 6 = true →
        let line := s.laneBits k levels
        let r := chkRun (s.fld (Reg.lanePrbs k) 5 4) ln line.1
        exec (.chkLock l levels) s = .next (((s.setLane k (took line.1.length line.2 r.1.unlock)).bump
          (Reg.lanePrbsErr k) r.2).lockFollow k ln.cwLock))
      ∧ (∀ b : BusWrite, s.busOk (Reg.laneInject k) b = true →
        let z := (s.accepted (Reg.laneInject k) b).store (Reg.laneInject k) b.value
        (b.value.getLsbD 31 = true → ln.inj = none → exec (.injectGo l b) s = .next (z.setLane k
            { ln with inj := some ⟨b.value.toNat % 4, b.value.toNat / 256 % 64⟩ }))
          ∧ ((b.value.getLsbD 31 = false ∨ ln.inj ≠ none) → exec (.injectGo l b) s = .next z))
      ∧ (∀ i, ln.inj = some i → s.live (laneBlock k) = true →
        let prbs := if laneTx k then ln.genOn else s.flag (Reg.lanePrbs k) 6
        let flips (a : Nat) : List Nat := match i.kind with
          | 0 => [a + 2]
          | 1 => (List.range (i.count + 1)).map (a + 2 + ·)
          | 2 => [a]
          | _ => (List.range (10 * (min i.count 15 + 1))).map (a + ·)
        (s.injectAt k i = none → exec (.injection l) s = .next s)
          ∧ ∀ a, s.injectAt k i = some a →
            let out := laneBurst k = true ∧ ln.lineLength k ≤ a
            let ignored := prbs = true ∧ 2 ≤ i.kind
            let sending := laneTx k = true ∧ a < ln.lineLength k
            (out → exec (.injection l) s = .next s)
              ∧ (¬ out → ignored → exec (.injection l) s = .next ((s.setLane k { ln with inj := none }).setFlag (Reg.laneStatus k) 12))
              ∧ (¬ out → ¬ ignored → sending → exec (.injection l) s =
                .next ((s.setLane k { ln with inj := none }).patchLine k (flips a)))
              ∧ (¬ out → ¬ ignored → ¬ sending → exec (.injection l) s =
                .next (s.setLane k { ln with inj := none, injFlips := ln.injFlips ++ flips (a % 5440) })))
      ∧ (ln.inj = none → exec (.injection l) s = .next s)

/-- PACKET and FILTER_LOOKUP (04 R84, R87, R88, R91); nothing waiting: log entry 13, the model's choice. -/
def Obligations.PacketsAndTheFilter : Prop :=
  ∀ (s : State) (p : Fin 2) (lane : Fin 4), s.live p.val = true →
    (∀ k rest, takeLane lane.val (s.port p.val).complete = some (k, rest) →
        let s₁ := s.setPort p.val { s.port p.val with complete := rest }
        let ty := pktType k.head
        let malformed := pktLen k.head < 4 ∨ ty = 0 ∨ 8 ≤ ty ∨ ((ty = 6 ∨ ty = 7) ∧ pktAuth k.head = false)
        let crcOk := k.tail.toNat / 256 % 2 ^ 32 = pktCrc k.head k.data
        (malformed → exec (.packet p lane) s = .next (s₁.asmCount p.val 3))
          ∧ (¬ malformed → k.bad = true → exec (.packet p lane) s = .next (s₁.asmCount p.val 5))
          ∧ (¬ malformed → k.bad = false → ¬ crcOk → exec (.packet p lane) s = .next (s₁.asmCount p.val 4))
          ∧ (¬ malformed → k.bad = false → crcOk → exec (.packet p lane) s =
            .next (s₁.setPort p.val { s₁.port p.val with lookup := (s₁.port p.val).lookup ++ [k] })))
      ∧ (takeLane lane.val (s.port p.val).complete = none → exec (.packet p lane) s = .next s)
      ∧ (∀ k rest, takeLane lane.val (s.port p.val).lookup = some (k, rest) →
        let s₁ := s.setPort p.val { s.port p.val with lookup := rest }
        let st := pktStream k.head
        let ty := pktType k.head
        let held := s₁.detained 1 st = true ∨ (ty = 6 ∨ ty = 7) ∧ s₁.detained 0 (msgSender k) = true
        let e := s₁.ctxSeen st
        let tagged := (ty = 3 ∨ ty = 4 ∨ ty = 5) ∧ e.testBit 62 = true
        let ordinary := ¬ held ∧ st < 0xFFF00 ∧ ty ≠ 6 ∧ ty ≠ 7
        let test := if pktRetx k.head then s₁.retxTest st (pktSeq k.head) else s₁.seqTest p.val st (pktSeq k.head)
        (held → exec (.filterLookup p lane) s = .next (s₁.asmCount p.val 13))
          ∧ (¬ held → 0xFFF00 ≤ st → exec (.filterLookup p lane) s = .next (s₁.reservedStream p.val k))
          ∧ (¬ held → st < 0xFFF00 → (ty = 6 ∨ ty = 7) → exec (.filterLookup p lane) s = .next (s₁.asmCount p.val 3))
          ∧ (ordinary → e.testBit 63 = false → exec (.filterLookup p lane) s = .next (s₁.asmCount p.val 1))
          ∧ (ordinary → e.testBit 63 = true → bits e 59 56 ≠ ty → exec (.filterLookup p lane) s = .next (s₁.asmCount p.val 2))
          ∧ (ordinary → e.testBit 63 = true → bits e 59 56 = ty → tagged →
            (pktAuth k.head = true → exec (.filterLookup p lane) s = .next (s₁.tagQueue p.val k))
              ∧ (pktAuth k.head = false → exec (.filterLookup p lane) s = .next (s₁.asmCount p.val 3)))
          ∧ (ordinary → e.testBit 63 = true → bits e 59 56 = ty → ¬ tagged →
            (test.2 = .accept → exec (.filterLookup p lane) s = .next ((test.1.asmCount p.val 0).deliver k (bits e 51 32)))
              ∧ (test.2 = .duplicate → exec (.filterLookup p lane) s = .next (test.1.asmCount p.val 6))
              ∧ (test.2 = .stale → exec (.filterLookup p lane) s = .next (test.1.asmCount p.val 7))))
      ∧ (takeLane lane.val (s.port p.val).lookup = none → exec (.filterLookup p lane) s = .next s)

/-- The tag unit and the timers of the assembly ports (04 R89, R90, R93, R98, R99, R100, R102, R109); a timer that is not
due: log entry 13, the model's choice. -/
def Obligations.TagsLossesAndBells : Prop :=
  ∀ (s : State) (p : Fin 2), (s.live p.val = true →
      (∀ k rest, (s.port p.val).tag = k :: rest →
        let s₁ := s.setPort p.val { s.port p.val with tag := rest }
        let s₂ := s₁.asmCount p.val 10
        let server := ∃ q < 2, s₂.fld (Reg.asmServerId q) 15 0 = msgSender k ∨ s₂.fld (Reg.asmServerId q) 31 16 = msgSender k
        (s₁.tagOk k = false → (pktType k.head = 6 ∨ pktType k.head = 7) → ¬ server →
            exec (.tagCheck p) s = .next (s₂.detain (msgSender k)))
          ∧ (s₁.tagOk k = false → ((pktType k.head ≠ 6 ∧ pktType k.head ≠ 7) ∨ server) → exec (.tagCheck p) s = .next s₂)
          ∧ (s₁.tagOk k = true → pktType k.head = 7 → exec (.tagCheck p) s = .next (s₁.bellMessage p.val k))
          ∧ (s₁.tagOk k = true → pktType k.head = 6 → exec (.tagCheck p) s = .next (s₁.controlMessage p.val k))
          ∧ (s₁.tagOk k = true → pktType k.head ≠ 6 → pktType k.head ≠ 7 →
            exec (.tagCheck p) s = .next (s₁.sequenced p.val k)))
      ∧ ((s.port p.val).tag = [] → exec (.tagCheck p) s = .next s)
      ∧ (∀ t, (s.port p.val).bellAt = some t →
        let s₁ := s.setPort p.val { s.port p.val with timeLock := false, lockStreak := 0 }
        (t + 1600000 ≤ s.now → ((s.port p.val).st = .sync ∨ (s.port p.val).st = .ranging) →
            exec (.bellTimeout p) s = .next (s₁.portState p.val .listen))
          ∧ (t + 1600000 ≤ s.now → (s.port p.val).st ≠ .sync → (s.port p.val).st ≠ .ranging → exec (.bellTimeout p) s = .next s₁)
          ∧ (s.now < t + 1600000 → exec (.bellTimeout p) s = .next s))
      ∧ (∀ t, (s.port p.val).lostAt = some t →
        ((s.port p.val).st = .joined → t + 160000000 ≤ s.now →
            exec (.joinedHoldExpiry p) s = .next ((s.clearPanel p.val).portState p.val .listen))
          ∧ (((s.port p.val).st ≠ .joined ∨ s.now < t + 160000000) → exec (.joinedHoldExpiry p) s = .next s))
      ∧ ((s.port p.val).lostAt = none → exec (.joinedHoldExpiry p) s = .next s))
    ∧ (s.live 0 = true →
      (∀ e, s.asm.loss.find? (fun e => e.at_ + s.lossHold ≤ s.now) = some e →
        let c := s.ctxSeen e.stream
        let s₁ := { s with asm := { s.asm with loss := s.asm.loss.filter (· ≠ e) } }
        let s₂ := (s₁.seqCtx e.stream (setBits c 30 24 (min 127 (bits c 30 24 + 1)))).asmCount e.port 8
        (c.testBit 60 = true → exec .lossDeclared s = .next ((s₂.event 67).lossRepair e))
          ∧ (c.testBit 60 = false → exec .lossDeclared s = .next (s₂.lossRepair e)))
      ∧ ((∀ e ∈ s.asm.loss, s.now < e.at_ + s.lossHold) → exec .lossDeclared s = .next s)
      ∧ (∀ r rest, s.asm.repair = r :: rest → ((∃ t, r.deadline = some t ∧ t ≤ s.wallNs)
            ∨ (r.deadline = none ∧ ∃ t, r.requestedAt = some t ∧ t + 16000000 ≤ s.now)) →
        exec .repairExpiry s = .next (({ s with asm := { s.asm with repair := s.asm.repair.filter (· ≠ r) } }.asmCount r.port 19).lossToOwner
          r.stream r.seq))
      ∧ (s.asm.repair = [] → exec .repairExpiry s = .next s)
      ∧ ∀ n : Fin 64, exec (.detentionExpiry n) s = .next (if s.flag (Reg.asmDetKey n.val) 31 = true
          ∧ s.fld (Reg.asmDetRemain n.val) 15 0 = 0 then s.clrFlag (Reg.asmDetKey n.val) 31 else s))
    ∧ (∀ b u, (s.port s.bellSource).bellAt = some b → (s.port (1 - s.bellSource)).bellAt = some u →
        (b + 800000 ≤ s.now → (s.port (1 - s.bellSource)).timeLock = true → s.now ≤ u + 800000 → s.live (1 - s.bellSource) = true →
            exec .bellSwitch s = .next ({ s with asm := { s.asm with switched := !s.asm.switched, returnCount := 0 } }.event 71))
          ∧ ((s.now < b + 800000 ∨ (s.port (1 - s.bellSource)).timeLock = false) → exec .bellSwitch s = .next s))

/-- Control of the assembly ports and their grants (04 R104, R106, R108, Table ASM-8; 15 R346); a grant that is not taken:
log entry 13, the model's choice. -/
def Obligations.AssemblyPortControl : Prop :=
  (∀ (s : State) (p : Fin 2) (b : BusWrite), s.busOk (Reg.asmCtrl p.val) b = true → ∀ c,
      c = Instr.asmLeave p b ∨ c = Instr.rejoin p b ∨ c = Instr.portEnWrite p b →
      let s₁ := (s.accepted (Reg.asmCtrl p.val) b).store (Reg.asmCtrl p.val) b.value
      let st := (s.port p.val).st
      let s₂ := (s₁.returnPortBuffers p.val).clearPanel p.val
      (b.value.getLsbD 0 = false → st = .off → exec c s = .next s₁)
        ∧ (b.value.getLsbD 0 = false → st ≠ .off → exec c s = .next ((s₂.setPort p.val { s₂.port p.val with
            timeLock := false, lockStreak := 0, grants := [], rangeBells := none, rangeAns := none, attempt := none, retry := 0, contSkip := 0,
            rxOpen := [none, none, none, none], complete := [], lookup := [], tag := [] }).portState p.val .off))
        ∧ (b.value.getLsbD 0 = true → st = .off → exec c s = .next (s₁.portState p.val .listen))
        ∧ (b.value.getLsbD 0 = true → b.value.getLsbD 30 = true → (st = .sync ∨ st = .ranging ∨ st = .joined) →
          exec c s = .next ((s₁.clearPanel p.val).rangeOrSync p.val))
        ∧ (b.value.getLsbD 0 = true → b.value.getLsbD 30 = false → b.value.getLsbD 31 = true → st = .joined →
          exec c s = .next (s₁.setPort p.val { s₁.port p.val with leaving := true }))
        ∧ (b.value.getLsbD 0 = true → b.value.getLsbD 30 = false → b.value.getLsbD 31 = true → st ≠ .off → st ≠ .joined →
          exec c s = .next s₁)
        ∧ (b.value.getLsbD 0 = true → (b.value.getLsbD 30 = false ∨ st = .listen) → b.value.getLsbD 31 = false → st ≠ .off →
          exec c s = .next s₁))
    ∧ (∀ (s : State) (p : Fin 2) (b : BusWrite), s.busOk (Reg.asmTiming p.val) b = true → exec (.lossHoldWrite p b) s =
        .next ((s.accepted (Reg.asmTiming p.val) b).store (Reg.asmTiming p.val) b.value))
    ∧ (∀ (s : State) (b : BusRead), ReadOk s Reg.asmWallLo b → exec (.asmWallLoRead b) s =
        .next (answered b Reg.asmWallLo (s.latchWord b.master.val Reg.asmWallHi (word (s.wallNs / 2 ^ 32))) (word s.wallNs)))
    ∧ ∀ (s : State) (p : Fin 2) (n : Fin 64), s.live p.val = true → s.live (laneBlock (upLane p.val)) = true →
      (s.lane (portLane p.val)).cwLock = true → (s.lane (upLane p.val)).st = .active → (s.lane (upLane p.val)).genOn = false →
      let q := s.port p.val
      let answers := q.st = .ranging ∧ q.rangeAns.isSome = true
      (answers → exec (.upstreamBurst p n) s = .next (s.rangingBurst p.val))
        ∧ ∀ g, ¬ answers → q.grants[n.val]? = some g →
          let ranging := q.st = .ranging ∧ g.panel = 0xFE
          let start := q.bellArrive + ((uiUnits ((if ranging then 0 else (s.reg (Reg.asmEqd p.val)).toNat) + 64 * g.start) : Nat) : Int)
          let open_ := g.used = false ∧ g.ncw ≠ 0 ∧ start ≤ (s.asm.wall : Int)
          let s₁ := s.useGrant p.val n.val
          (¬ open_ → exec (.upstreamBurst p n) s = .next s)
            ∧ (open_ → ranging → exec (.upstreamBurst p n) s = .next (s₁.rangingSlot p.val g))
            ∧ (open_ → q.st = .joined → g.panel = 0xFF → g.ncw = 1 → exec (.upstreamBurst p n) s = .next (s₁.contentionSlot p.val start))
            ∧ (open_ → q.st = .joined → g.panel ≠ 0xFF → q.panel = some g.panel →
              (s₁.grantTooSoon p.val start = true → exec (.upstreamBurst p n) s = .next (s₁.asmCount p.val 18))
                ∧ (s₁.grantTooSoon p.val start = false →
                  exec (.upstreamBurst p n) s = .next (s₁.ownSlot p.val start (burstLength g.ncw))))
            ∧ (q.st ≠ .ranging → q.st ≠ .joined → exec (.upstreamBurst p n) s = .next s)

/-- The slices of a layer (05 R119 to R125, DEC_STORE); unmet conditions: log entry 13, the model's choice. -/
def Obligations.SlicesAreDecodedAndPublished : Prop :=
  ∀ (s : State) (d : Fin 4), (s.live 5 = true →
      (∀ sl rest, (s.decoder d.val).slice = none → s.dec.area = sl :: rest →
        let t := s.setDecoder d.val { slice := some sl, phase := .gather }
        exec (.decoderAssign d) s = .next { t with dec := { t.dec with area := rest } })
      ∧ ((s.decoder d.val).slice ≠ none ∨ s.dec.area = [] → exec (.decoderAssign d) s = .next s)
      ∧ (∀ sl, s.engineRuns = true → (s.decoder d.val).slice = some sl → (s.decoder d.val).phase = .gather → sl.complete = true →
        let key := slotKey sl.layer sl.col sl.row
        let e : DirEntry := if (s.dirAt key).index = sl.index then s.dirAt key else { index := sl.index }
        let f := s.fSyn.getD 0
        let held (g : Gen) : Prop := g.valid = true ∧ g.frame = sl.frame
        let older := if frameLe e.gen0.frame e.gen1.frame then e.gen0.frame else e.gen1.frame
        let target := match e.newest with | some n => 1 - n | none => 0
        let stale := held e.gen0 ∨ held e.gen1 ∨ ((e.gen0.valid = true ∧ e.gen1.valid = true) ∧ frameLt older sl.frame = false)
          ∨ e.sampled f (s.now + 1) = some target
        let r := s.jxsReason sl.stream_
        (frameLe sl.frame ((f + 1) % 65536) = false → exec (.decoderStart d) s = .next ((s.bump (Reg.decCnt 6)).dropSlice sl))
          ∧ (frameLe sl.frame ((f + 1) % 65536) = true → stale →
            exec (.decoderStart d) s = .next ((s.bump (Reg.decCnt 5)).dropSlice sl))
          ∧ (frameLe sl.frame ((f + 1) % 65536) = true → ¬ stale → exec (.decoderStart d) s = .next (
            if r.2 ≠ 0 ∧ r.2 ≠ 10 then r.1.rejectSlice sl r.2
            else if s.sampling key target = true then s.setDecoder d.val { slice := some sl, phase := .holding target }
            else s.decodeWrite d.val sl target)))
      ∧ (∀ sl g, s.engineRuns = true → (s.decoder d.val).slice = some sl → (s.decoder d.val).phase = .holding g →
        exec (.decoderStart d) s = .next (if s.sampling (slotKey sl.layer sl.col sl.row) g = true then s else s.decodeWrite d.val sl g))
      ∧ (∀ sl g at_, s.engineRuns = true → (s.decoder d.val).slice = some sl → (s.decoder d.val).phase = .acked g at_ →
        (s.now < at_ + 8 → exec (.publish d) s = .next s)
          ∧ (at_ + 8 ≤ s.now →
            let key := slotKey sl.layer sl.col sl.row
            let cur := s.fSyn.any (fun f => f % 65536 == sl.frame) = true
            let late := s.fSyn.any (fun f => frameLt sl.frame f) = true
              ∨ (cur ∧ (s.boundLayer sl.layer).any (fun le => s.deadlinePassed le sl.row) = true)
            let e := s.dirAt key
            let e' : DirEntry := if e.index = sl.index then
                { e.setGen g { frame := sl.frame, valid := true, at_ := s.now } with seen := true, expired := e.expired && !decide cur }
              else e
            let u := ((s.setDir key e').setDecoder d.val {}).bump (Reg.decCnt 0)
            let lo := u.slotAddr key g / 64
            let t := u.dropCached fun x => lo ≤ x.line && x.line < lo + 1536
            (late → exec (.publish d) s = .next (t.bump (Reg.decCnt 7))) ∧ (¬ late → exec (.publish d) s = .next t)))
      ∧ (∀ l (col row : Fin 1024) le f, s.boundLayer (l : Fin 16).val = some le → s.fSyn = some f →
        let key := slotKey l.val col.val row.val
        let e := s.dirAt key
        let due := (s.needed le col.val row.val = true ∧ e.index = row.val * le.gridW + col.val ∧ e.seen = true)
          ∧ s.deadlinePassed le row.val = true ∧ e.judged = false
        let mine := (e.sampled f s.now).any (fun g => (e.gen g).frame % 65536 == f % 65536) = true
        let expires := s.fld Reg.decCtrl 15 8 ≠ 0 ∧ s.fld Reg.decCtrl 15 8 < e.runs + 1
        (due → mine → exec (.sliceDeadline l col row) s = .next (s.setDir key { e with judged := true, runs := 0, expired := false, told := false }))
          ∧ (due → ¬ mine → ∀ t : State, t = ((s.setDir key { e with
              judged := true, runs := e.runs + 1, expired := e.expired || decide expires, told := e.told || decide expires }).bump (Reg.decCnt 8)).event 99 →
            (expires → e.told = false → exec (.sliceDeadline l col row) s = .next (t.event 100))
              ∧ ((¬ expires ∨ e.told = true) → exec (.sliceDeadline l col row) s = .next t))
          ∧ (¬ due → exec (.sliceDeadline l col row) s = .next s)))
    ∧ (s.live 26 = true → ∀ g, (s.decoder d.val).phase = .flushing g →
      let waits := (s.dmc.ports ++ s.dmc.stalled).any fun r => r.write && r.master == 14
      (waits = false → exec (.flushAck d) s = .next (s.setDecoder d.val { s.decoder d.val with phase := .acked g s.now }))
        ∧ (waits = true → exec (.flushAck d) s = .next s))
    ∧ ∀ b : BusWrite, s.busOk Reg.decStore b = true →
      let z := s.accepted Reg.decStore b
      let base := b.value.toNat % 128
      ((base < 64 ∨ 105 < base) → exec (.decStoreWrite b) s = .next z)
        ∧ (64 ≤ base → base ≤ 105 → (z.store Reg.decStore b.value).fld Reg.decStore 6 0 = s.fld Reg.decStore 6 0 →
          exec (.decStoreWrite b) s = .next (z.store Reg.decStore b.value))
        ∧ (64 ≤ base → base ≤ 105 → (z.store Reg.decStore b.value).fld Reg.decStore 6 0 ≠ s.fld Reg.decStore 6 0 →
          exec (.decStoreWrite b) s = .next (z.store Reg.decStore b.value).invalidateAll)

/-- Express inserts and the lenslet pipe (11 R253 to R258; 06 R143, R148); unmet conditions: log entry 13, the model's
choice. -/
def Obligations.SplicesAndLenslets : Prop :=
  ∀ s : State, (s.live 22 = true →
      (∀ x rest, s.dec.express = x :: rest →
        let z := { s with dec := { s.dec with express := rest } }
        (x.at_ + (if s.latency = true then 102 else 114) ≤ s.now →
            exec .spliceTest s = .next (x.targets.foldl (State.spliceTarget x.frame) (z, [])).1)
          ∧ (s.now < x.at_ + (if s.latency = true then 102 else 114) → exec .spliceTest s = .next s))
      ∧ (let due (x : Insert) : Bool := x.at_ + 4 ≤ s.now
        exec .rowSplice s = .next ((s.tlk.splice.filter due).foldl State.spliceInsert
          { s with tlk := { s.tlk with splice := s.tlk.splice.filter fun x => !due x } }))
      ∧ (∀ (n : Fin 16) (u : Fin 768),
        let ready := (s.activeSlot = true ∧ s.panelBlank = false) ∧ SMap.get (fun _ => 0) s.syn.cursorU n.val = u.val
          ∧ 300 * u.val ≤ 16 * s.slotCc ∧ (s.latency = true ∨ ∀ j ∈ List.range 3, (s.lane (3 * n.val + j)).free ≤ 125 * s.now + 128)
        let v := s.seq.slot
        let s₁ := s.lensletCheck n.val u.val v
        let s₂ := { s₁ with syn := { s₁.syn with
          cursorU := SMap.put (fun _ => 0) s₁.syn.cursorU n.val (u.val + 1), cursorAt := SMap.put (fun _ => 0) s₁.syn.cursorAt n.val s₁.now } }
        let r := s₂.readResiduals n.val v (300 * u.val)
        let f := r.1.finishLenslet n.val u.val v (fun q => (r.1.ringAt n.val (v % 3) (300 * u.val + q)).toNat)
          fun q => (r.2.getD q none).getD 0
        let t := ((r.1.bump (Reg.finCnt 4) f.2).rptTake n.val u.val v f.1 r.2).rowCodes n.val f.1
        (ready → u.val ≠ 767 → exec (.completenessCheck n u) s = .next t)
          ∧ (ready → u.val = 767 → exec (.completenessCheck n u) s = .next (t.rptRowDone n.val v))
          ∧ (¬ ready → exec (.completenessCheck n u) s = .next s))
      ∧ ∀ c, s.syn.capture = some c →
        let used := 64 + 3072 * 1728 * pvBytes c.format
        let s₁ := s.winWrite 22 (c.buf + 64) (pvHeader c)
        let crc := crc32 (s₁.bytesAt (winAddr (c.buf + 64)) used)
        let t := (((s₁.winWrite 22 (c.buf + 8) (leBytes 4 used)).winWrite 22 (c.buf + 12) (leBytes 4 crc)).returnBuffer 22 c.buf 0).event 104
        ((432 ≤ s.seq.slot ∨ c.frame ≠ s.seq.frame) → exec .pvDone s = .next { t with syn := { t.syn with capture := none } })
          ∧ (s.seq.slot < 432 → c.frame = s.seq.frame → exec .pvDone s = .next s))
    ∧ (s.dec.express = [] → exec .spliceTest s = .next s) ∧ (s.syn.capture = none → exec .pvDone s = .next s)
    ∧ ∀ (frame : Nat) (seen : List Nat) (x : RayTarget),
      let passed := s.seq.frame ≠ frame ∨ s.activeSlot = false ∨ x.v < s.seq.slot ∨ (x.v = s.seq.slot ∧ 300 * x.u < s.cursor x.tile)
      let full := insertBudget s.seq.rate ≤ (s.tile x.tile).slotInserts
      (passed → State.spliceTarget frame (s, seen) x = (s.expressDrop x.tile, seen))
        ∧ (¬ passed → (s.tile x.tile).blanked = true → State.spliceTarget frame (s, seen) x = (s, seen))
        ∧ (¬ passed → (s.tile x.tile).blanked = false → full → State.spliceTarget frame (s, seen) x = (s.expressDrop x.tile, seen))
        ∧ (¬ passed → (s.tile x.tile).blanked = false → ¬ full →
          let r := if x.v ≤ s.seq.slot + 1 then s.readResiduals x.tile x.v (300 * x.u) else (s.bump (Reg.finCnt 1), [])
          let ray (q : Nat) : Nat :=
            let w := (if x.rays.length = 100 then x.rays.getD (q / 3) 0 else x.rays.getD 0 0).toNat
            uf20Clamp (bits w (20 * (q % 3) + 19) (20 * (q % 3)))
          let f := r.1.finishLenslet x.tile x.u x.v ray fun q => (r.2.getD q none).getD 0
          let z := r.1.setTile x.tile { r.1.tile x.tile with slotInserts := (r.1.tile x.tile).slotInserts + 1 }
          State.spliceTarget frame (s, seen) x = (State.bump { z with tlk := { z.tlk with splice := z.tlk.splice ++
            [{ tile := x.tile, row := x.v, u := x.u, codes := f.1, first := !seen.contains x.tile, at_ := z.now
               corr := (z.correctTarget x).corr.getD (0, 0, 0, 0) }] } } (Reg.finCnt 4) f.2, x.tile :: seen))

/-- Gains, NO_TEMP and the finishing registers (11 R248, R249, R251, R252); unmet conditions: log entry 13, the queue of loads:
log entry 54, the model's choices. -/
def Obligations.GainsAndFinishingRegisters : Prop :=
  (∀ (s : State) (b : BusWrite), s.busOk Reg.finGainLoad b = true →
      let n := b.value.toNat % 16
      let x := b.value.toNat &&& 0x3FFFFFC0
      let z := s.accepted Reg.finGainLoad b
      let posted := z.post (.finGain n) x
      let calibration (i : HpItem) : Bool := match i with
        | .post (.finGain k) y => z.cyc.calGains.contains (k, y)
        | _ => false
      (b.master.val ≠ 16 → b.master.val ≠ 20 → exec (.finGainLoad b) s = .next posted)
        ∧ (b.master.val = 20 → exec (.finGainLoad b) s = .next { posted with cyc := { posted.cyc with calGains := (n, x) :: posted.cyc.calGains } })
        ∧ (b.master.val = 16 → exec (.finGainLoad b) s =
          .next { z with host := { z.host with fifo := insBefore (.post (.finGain n) x) calibration z.host.fifo } }))
    ∧ (∀ (s : State) (l : GainLoad) rest f, s.live 22 = true → s.fin.loads = l :: rest → s.seq.flipAt = some f →
      let ok := 432 ≤ s.seq.slot ∧ s.seq.slot < 447 ∧ l.at_ < f + slotStartOf s.seq.rate 432
        ∧ s.fin.copiedAt ≠ some s.seq.frame ∧ s.memReady 22 (winAddr l.buf) 663616 = true
      let r := s.devRead 22 (winAddr l.buf + 64) 663552
      let gains := (List.range 331776).map fun i => BitVec.ofNat 16 (leAt (r.2.1.drop (2 * i)) 0 2)
      let z (loads : List GainLoad) := (((({ r.1.noteSram 2 (82944 * l.tile) (82944 * l.tile + 82944) with fin := { r.1.fin with
        gains := SMap.store (fun _ => 0x4000) r.1.fin.gains (331776 * l.tile) gains
        loads := loads, queued := r.1.fin.queued.filter (fun q => q.tile != l.tile)
        copiedAt := some r.1.seq.frame } } : State).returnBuffer 22 l.buf 0).bump (Reg.finCnt 5)).event 164)
      (ok → r.1.fin.queued.find? (fun q => q.tile == l.tile) = none → exec .gainCopy s = .next (z rest))
        ∧ (∀ q, ok → r.1.fin.queued.find? (fun q => q.tile == l.tile) = some q → exec .gainCopy s = .next (z (insLoad q rest)))
        ∧ (¬ ok → exec .gainCopy s = .next s))
    ∧ (∀ (s : State) (n : Fin 16), s.live 22 = true →
      let old := (s.tile n.val).statusAt = none ∨ ∃ t, (s.tile n.val).statusAt = some t ∧ t + 160000000 < s.now
      (old → s.flag Reg.finStatus n.val = false → exec (.noTemp n) s = .next ((s.setFlag Reg.finStatus n.val).event 163))
        ∧ ((¬ old ∨ s.flag Reg.finStatus n.val = true) → exec (.noTemp n) s = .next s))
    ∧ (∀ (s : State) (b : BusWrite), s.busOk Reg.finCtrl b = true →
      let t := (s.accepted Reg.finCtrl b).store Reg.finCtrl b.value
      (b.value.getLsbD 31 = true → exec (.finArm b) s = .next { t.noteArm 2 t.fin.armed with fin := { t.fin with armed := true } })
        ∧ (b.value.getLsbD 31 = false → exec (.finArm b) s = .next t))
    ∧ ∀ (s : State) (b : BusWrite), s.busOk Reg.finResBase b = true →
      let z := s.accepted Reg.finResBase b
      exec (.finResBaseWrite b) s = .next (if b.value.toNat / 256 % 256 ≤ 252 ∧ b.value.toNat % 256 ≤ 250 then z.store Reg.finResBase b.value
        else z.store Reg.finResBase (word (b.value.toNat / 2 ^ 31 * 2 ^ 31 + s.fld Reg.finResBase 15 0)))

/-- The chart and the fits (09 R212 to R216, R220, R221, R224, R226); unmet conditions: log entry 13, the queue of loads:
log entry 54, the model's choices. -/
def Obligations.ChartUpdatesAndFits : Prop :=
  (∀ (s : State) (b : BusWrite), s.busOk Reg.plcRebuild b = true → exec (.plcRebuild b) s = .next ((List.range 16).foldl
      (fun z n => if b.value.getLsbD n = true then (if z.cyc.plcAsks.contains n = true then
          { z with cyc := { z.cyc with plcAsks := z.cyc.plcAsks.filter (· != n) } }
        else z.plcRequest n .rebuild) else z) (s.accepted Reg.plcRebuild b)))
    ∧ (∀ (s : State) (n : Nat) (u : PlcUpdate), ((s.plcTile n).running = none → s.plcRequest n u = s.startUpdate n u)
      ∧ (∀ r, (s.plcTile n).running = some r → (s.plcTile n).queued = none →
        s.plcRequest n u = s.setPlcTile n { s.plcTile n with queued := some u })
      ∧ ∀ r q, (s.plcTile n).running = some r → (s.plcTile n).queued = some q →
        let t := (((s.setPlcTile n { s.plcTile n with queued := some u }).setFlag Reg.plcChartStatus n).bump (Reg.plcCnt 5)).event 130
        (q = .rebuild → s.plcRequest n u = t) ∧ ∀ x, q = .load x → s.plcRequest n u = t.returnBuffer 25 x 2)
    ∧ (∀ (s : State) (b : BusWrite), s.busOk Reg.plcLoad b = true → exec (.plcLoad b) s =
      .next ((s.accepted Reg.plcLoad b).post (.plcLoad (b.value.toNat % 16)) (b.value.toNat &&& 0x3FFFFFC0)))
    ∧ (∀ (s : State) (b : BusRead) (k : Fin 85360), ReadOk s (0x1400000 + 8 * k.val) b →
      let w := SMap.get (fun _ => 0) s.plc.active k.val
      exec (.chartWindowRead k b) s =
        .next (answered b (0x1400000 + 8 * k.val) (s.latchWord b.master.val (0x1400000 + 8 * k.val + 4) (word (w.toNat / 2 ^ 32))) (w.truncate 32)))
    ∧ ∀ (s : State) (n : Fin 16), s.live 19 = true →
      let t := s.plcTile n.val
      let written := s.plc.writing.head? = some n.val ∧ t.since + 10734 ≤ s.now
      (written → exec (.chartUpdateComplete n) s =
          .next (((s.setPlcTile n.val { t with complete := some s.now }).bump (Reg.plcCnt 7) t.sat).writeNext n.val))
        ∧ (¬ written → exec (.chartUpdateComplete n) s = .next s)
        ∧ (∀ x, t.running = some (.load x) → ((t.copied = true ∨ s.memReady 25 (winAddr x) 48079 = false) → exec (.loadCopyDone n) s = .next s)
          ∧ (t.copied = false → s.memReady 25 (winAddr x) 48079 = true →
            let r := s.devRead 25 (winAddr x + 64) 48015
            let nodes := (List.range 5335).map fun m => BitVec.ofNat 64 (leAt (r.2.1.drop (8 * m)) 0 8)
            let u := { r.1.noteSram 1 (170720 + 5335 * n.val) (170720 + 5335 * n.val + 5335) with plc := { r.1.plc with
              base := SMap.store (fun _ => 0) r.1.plc.base (5335 * n.val) nodes
              baseConf := SMap.store (fun _ => 0) r.1.plc.baseConf (5335 * n.val) ((r.2.1.drop 42680).take 5335) } }
            let w := ((u.returnBuffer 25 x 0).bump (Reg.plcCnt 4)).event 131
            exec (.loadCopyDone n) s = .next ((w.setPlcTile n.val { t with copied := true }).readyToWrite n.val)))
        ∧ ((∀ x, t.running ≠ some (.load x)) → exec (.loadCopyDone n) s = .next s)
        ∧ ((∀ f ∈ s.plc.fits, f.tile ≠ n.val) → exec (.fit n) s = .next s)
        ∧ (∀ f, s.plc.fits.find? (fun f => f.tile == n.val) = some f →
          let z := { s with plc := { s.plc with fits := s.plc.fits.erase f } }
          let ps := f.points
          let qs := fitDrop (fitSolve ps) ps
          let far (ps : List FitPoint) := fitTooFar (fitSolve ps) ps (s.fld Reg.plcFit 15 8) = true
          (s.flag Reg.plcCtrl 1 = false → exec (.fit n) s = .next z)
            ∧ (s.flag Reg.plcCtrl 1 = true → ps.length < s.minFid → exec (.fit n) s = .next (z.bump (Reg.plcCnt 1)))
            ∧ (s.flag Reg.plcCtrl 1 = true → s.minFid ≤ ps.length → ¬ far ps → exec (.fit n) s = .next (z.acceptFit n.val ps))
            ∧ (s.flag Reg.plcCtrl 1 = true → s.minFid ≤ ps.length → far ps →
              ((qs.length < s.minFid ∨ far qs) → exec (.fit n) s = .next (z.rejectFit n.val))
                ∧ (s.minFid ≤ qs.length → ¬ far qs → exec (.fit n) s = .next (z.acceptFit n.val qs))))
        ∧ (let old := t.fitAt = none ∨ ∃ a, t.fitAt = some a ∧ a + 1600000 * s.fld Reg.plcFit 31 16 < s.now
          (s.flag Reg.plcCtrl 1 = true → old → s.flag (Reg.plcFitStatus n.val) 31 = false → exec (.fitStale n) s =
              .next (((s.setFlag (Reg.plcFitStatus n.val) 31).setFld (Reg.plcFitStatus n.val) 23 16 128).event 129))
            ∧ ((s.flag Reg.plcCtrl 1 = false ∨ ¬ old ∨ s.flag (Reg.plcFitStatus n.val) 31 = true) → exec (.fitStale n) s = .next s))

/-- The witness cameras (10 R229 to R235, R240); unmet conditions: log entry 13, the model's choice. -/
def Obligations.CameraPacketsAndResults : Prop :=
  (∀ (s : State) (hd : BitVec 32) (bs : List Byte) (crc : BitVec 16) (first : Bool) (drained : Nat) (lanes : BitVec 5),
      ((s.live 21 = false ∨ s.live 20 = false ∨ s.flag Reg.camRxCtrl 0 = false) → exec (.csi2Packet hd bs crc ⟨first, drained⟩ lanes) s = .next s)
      ∧ (s.live 21 = true → s.live 20 = true → s.flag Reg.camRxCtrl 0 = true →
        let dead := s.cam.dead = true ∧ first = false
        (dead → exec (.csi2Packet hd bs crc ⟨first, drained⟩ lanes) s = .next { s with cam := { s.cam with rx := lanes, dead := true } })
        ∧ (¬ dead → csiHeader hd.toNat = none → exec (.csi2Packet hd bs crc ⟨first, drained⟩ lanes) s =
          .next ((State.bump { s with cam := { s.cam with rx := lanes, dead := true } } (Reg.camRxCnt 1)).event 134))
        ∧ ∀ h fixed, ¬ dead → csiHeader hd.toNat = some (h, fixed) →
          let z : State := { s with cam := { s.cam with rx := lanes, dead := false } }
          let z := if fixed = true then z.bump (Reg.camRxCnt 0) else z
          let dt := h % 64
          let bad := 0x10 ≤ dt ∧ (bs.length ≠ h / 256 ∨ crc16 bs ≠ crc.toNat)
          let unused := dt = 2 ∨ dt = 3 ∨ (8 ≤ dt ∧ dt ≤ 15) ∨ dt = 0x12
          (bad → exec (.csi2Packet hd bs crc ⟨first, drained⟩ lanes) s = .next ((z.bump (Reg.camRxCnt 2)).event 134))
            ∧ (¬ bad → unused → exec (.csi2Packet hd bs crc ⟨first, drained⟩ lanes) s = .next z)
            ∧ (¬ bad → ¬ unused → z.pipeOf (h / 64 % 4) = none → exec (.csi2Packet hd bs crc ⟨first, drained⟩ lanes) s = .next (
              if dt = 0 then z.bump (Reg.camRxCnt 4) else if dt = 1 ∨ dt = 0x2B ∨ dt = 0x2C then z else z.bump (Reg.camRxCnt 3)))
            ∧ ∀ k, ¬ bad → ¬ unused → z.pipeOf (h / 64 % 4) = some k →
              (dt = 0 → exec (.csi2Packet hd bs crc ⟨first, drained⟩ lanes) s = .next (z.camFrameStart k (h / 256)))
                ∧ (dt = 1 → exec (.csi2Packet hd bs crc ⟨first, drained⟩ lanes) s = .next (
                  if (z.pipe k).frame.isSome = true then z.camComplete k else z.bump (Reg.camRxCnt 5)))
                ∧ (∀ f, (z.pipe k).frame = some f → dt ≠ 0 → dt ≠ 1 → exec (.csi2Packet hd bs crc ⟨first, drained⟩ lanes) s = .next (
                  if dt = (if f.raw12 = true then 0x2C else 0x2B) then z.camLine k bs drained else z.bump (Reg.camRxCnt 3)))
                ∧ ((z.pipe k).frame = none → dt ≠ 0 → dt ≠ 1 → exec (.csi2Packet hd bs crc ⟨first, drained⟩ lanes) s = .next (
                  if dt = (if z.flag (Reg.camCtrl k) 2 = true then 0x2C else 0x2B) then z.camLine k bs drained else z.bump (Reg.camRxCnt 3)))))
    ∧ (∀ (s : State) (k : Fin 4), s.live 20 = true →
      (∀ d rest, (s.pipe k.val).done = d :: rest →
        let u := d.spots.foldl (fun s e => (s.setReg (Reg.camSpot0 e.entry) e.spot0).setReg (Reg.camSpot1 e.entry) e.spot1)
          (((s.setPipe k.val { s.pipe k.val with done := rest }).setReg (Reg.camLastStatus k.val) d.status).setReg
            (Reg.camLastNum k.val) (word d.num))
        let own (n : Nat) := d.spots.filter fun e => e.entry / 8 == n
        let due := (List.range 16).filterMap fun n =>
          if (own n).isEmpty then none else some (PlcFit.mk n (d.status.toNat / 2 ^ 28 == 0) (own n))
        ((u.live 19 = true ∧ u.flag Reg.plcCtrl 1 = true) → exec (.spotPublish k) s =
            .next { u with plc := { u.plc with fits := u.plc.fits ++ due } })
          ∧ ((u.live 19 = false ∨ u.flag Reg.plcCtrl 1 = false) → exec (.spotPublish k) s = .next u))
      ∧ ((s.pipe k.val).done = [] → exec (.spotPublish k) s = .next s))
    ∧ (∀ (s : State) (k : Fin 4) (b : BusWrite), s.busOk (Reg.camBind k.val) b = true → ∀ c,
      c = Instr.camBind k b ∨ c = Instr.camUnbind k b →
      let z := (s.accepted (Reg.camBind k.val) b).store (Reg.camBind k.val) b.value
      let vc := z.fld (Reg.camBind k.val) 5 4
      let u := if b.value.getLsbD 31 = false then z else if (z.pipe k.val).bound = none ∧ z.pipeOf vc = none then
        z.setPipe k.val { z.pipe k.val with bound := some vc } else z.setFlag (Reg.camStatus k.val) 31
      exec c s = .next (if b.value.getLsbD 30 = true then
        (u.camAbort k.val).setPipe k.val { (u.camAbort k.val).pipe k.val with bound := none } else u))
    ∧ (∀ (s : State) (k : Fin 4) (b : BusWrite), s.busOk (Reg.camCtrl k.val) b = true →
      let z := (s.accepted (Reg.camCtrl k.val) b).store (Reg.camCtrl k.val) b.value
      exec (.camEnWrite k b) s = .next (if b.value.getLsbD 0 = true then z else z.camAbort k.val))
    ∧ (∀ (s : State) (b : BusWrite), s.busOk Reg.camRxCtrl b = true →
      let z := (s.accepted Reg.camRxCtrl b).store Reg.camRxCtrl b.value
      exec (.camRxEnWrite b) s = .next (if b.value.getLsbD 0 = true then z else
        (((z.camAbort 0).camAbort 1).camAbort 2).camAbort 3))
    ∧ ∀ (s : State) (e : Fin 128) (b : BusRead), ReadOk s (Reg.camSpot0 e.val) b → exec (.spotResultRead e b) s =
      .next (answered b (Reg.camSpot0 e.val) (s.latchWord b.master.val (Reg.camSpot1 e.val) (s.reg (Reg.camSpot1 e.val))) (s.reg (Reg.camSpot0 e.val)))

/-- Tile commands and return blocks (12 R271 to R275); unmet conditions: log entry 13, the model's choice. -/
def Obligations.TileCommandsAndReturns : Prop :=
  (∀ (s : State) (n : Fin 16), s.live 23 = true →
      (let z := s.sweepIssue n.val;
        let allowed := ((z.activeSlot = false ∨ (z.tile n.val).blanked = true ∨ (z.tile n.val).st = .waking ∨ (z.tile n.val).st = .down)
            ∧ (∀ f, z.seq.flipAt = some f → ∀ y, (y = f ∨ y = f + ratePeriod z.seq.rate) → y + 40000 ≤ z.now ∨ z.now + 40000 ≤ y))
            ∧ (z.tile n.val).out.length < 8
        (allowed → exec (.cmdHandover n) s = .next (z.cmdHandover n.val)) ∧ (¬ allowed → exec (.cmdHandover n) s = .next z))
      ∧ (∀ b bs, (s.lane (58 + n.val)).rx = b :: bs → b.ctl = true → b.bad = false →
        let z := s.setLane (58 + n.val) { s.lane (58 + n.val) with rx := bs }
        let w := b.data.toNat
        (b.type = 0x72 → ((z.tile n.val).out.find? (fun o => o.ctag == bits w 15 8) = none → exec (.cmdResult n) s = .next (z.bump (Reg.tlkCnt 3)))
            ∧ ∀ o, (z.tile n.val).out.find? (fun o => o.ctag == bits w 15 8) = some o → exec (.cmdResult n) s =
              .next ((z.setTile n.val { z.tile n.val with out := (z.tile n.val).out.erase o }).cmdComplete n.val o.cmd (w.testBit 24) (w.testBit 25)
                (bits w 47 32) false))
          ∧ (b.type = 0x71 →
            let u := z.setReg (Reg.tlkTemp n.val) (word (2 ^ 31 + bits w 23 8))
            let v := (((u.setTile n.val { u.tile n.val with
              statusAt := some u.now, lock3Seen := (u.tile n.val).lock3Seen || w.testBit 33 }).clrFlag Reg.finStatus n.val).bump
                (Reg.tlkRowerr n.val) (bits w 55 48)).bump (Reg.tlkInsdrop n.val) (bits w 63 56)
            let heard := v.live 30 = true ∧ (u.tile n.val).st = .linked
            (¬ heard → exec (.retStatus n) s = .next v)
              ∧ (heard → outOfRange (v.sourceT (32 + n.val)) = true → exec (.retStatus n) s = .next (v.markBad (32 + n.val)).thmRefresh)
              ∧ (heard → outOfRange (v.sourceT (32 + n.val)) = false → exec (.retStatus n) s = .next v.thmRefresh))
          ∧ (b.type = 0x73 →
            let first := word (2 ^ 31 + bits w 63 48 * 2 ^ 8 + bits w 15 8)
            let detail := word (bits w 47 16)
            let v := z.latchFirst (Reg.tlkFault n.val) 0 [(Reg.tlkFault n.val, first), (Reg.tlkFaultDetail n.val, detail)]
            exec (.fault n) s = .next (v.event 169)
              ∧ (Calm z (Reg.tlkFault n.val) →
                v.reg (Reg.tlkFault n.val) = (if z.flag (Reg.tlkFault n.val) 31 = true then z.reg (Reg.tlkFault n.val) else first)
                ∧ v.reg (Reg.tlkFaultDetail n.val) =
                  if z.flag (Reg.tlkFault n.val) 31 = true then z.reg (Reg.tlkFaultDetail n.val) else detail))
          ∧ (b.type = 0x75 →
            let u := (z.setReg (Reg.tlkIdentLo n.val) (word w)).setReg (Reg.tlkIdentHi n.val) (word (w / 2 ^ 32))
            (bits w 15 8 = 1 → exec (.ident n) s = .next (u.setTile n.val { u.tile n.val with identSeen := true }))
              ∧ (bits w 15 8 ≠ 1 → exec (.ident n) s =
                .next ((u.setTile n.val { u.tile n.val with identSeen := false }).setFlag Reg.tlkStatus n.val))))
      ∧ ((s.lane (58 + n.val)).rx = [] → exec (.cmdResult n) s = .next s ∧ exec (.retStatus n) s = .next s ∧ exec (.fault n) s = .next s
        ∧ exec (.ident n) s = .next s)
      ∧ (∀ o rest, (s.tile n.val).out = o :: rest →
        let z := (((s.setTile n.val { s.tile n.val with out := rest }).drawn).bump (Reg.tlkCnt 2)).event 170
        (o.at_ + 40000 ≤ s.now → exec (.cmdTimeout n) s = .next (z.cmdComplete n.val o.cmd false (Config.freeBit s.draws 0)
            ((Config.freeWord s.draws 0).toNat % 65536) true))
          ∧ (s.now < o.at_ + 40000 → exec (.cmdTimeout n) s = .next s))
      ∧ ((s.tile n.val).out = [] → exec (.cmdTimeout n) s = .next s))
    ∧ (∀ (s : State) (b : BusWrite), s.busOk Reg.tlkHcmdHi b = true →
      let z := (s.accepted Reg.tlkHcmdHi b).store Reg.tlkHcmdHi b.value
      let n := z.fld Reg.tlkHcmdHi 19 16
      let u := (z.tileCommand n .host (z.fld Reg.tlkHcmdHi 15 8)
        ((z.reg Reg.tlkHcmdLo).toNat + z.fld Reg.tlkHcmdHi 7 0 * 2 ^ 32)).clrFlag Reg.tlkHresHi 31
      (b.value.getLsbD 31 = true → z.tlk.host = none → exec (.hcmdGo b) s = .next { u with tlk := { u.tlk with host := some n } })
        ∧ ((b.value.getLsbD 31 = false ∨ z.tlk.host ≠ none) → exec (.hcmdGo b) s = .next z))
    ∧ (∀ (s : State) (b : BusWrite), s.busOk Reg.tlkHresAck b = true →
      let z := s.accepted Reg.tlkHresAck b
      exec (.tlkHresAck b) s = .next (if b.value.toNat % 65536 = s.fld Reg.tlkHresLo 31 16 then z.clrFlag Reg.tlkHresHi 31 else z))
    ∧ ∀ (s : State) (b : BusRead), ReadOk s Reg.tlkHresLo b → exec (.tlkHresLoRead b) s =
      .next (answered b Reg.tlkHresLo (s.latchWord b.master.val Reg.tlkHresHi (s.reg Reg.tlkHresHi)) (s.reg Reg.tlkHresLo))

/-- Tile power and the references (12 R276, R278, R280, Table TLK-5); unmet conditions: log entry 13, the model's choice. -/
def Obligations.TilesWakeShutAndGoDown : Prop :=
  (∀ (s : State) (b : BusWrite), s.busOk Reg.tlkTileEn b = true → ∀ c, c = Instr.tileEnWrite b ∨ c = Instr.tileReset b →
      let old := s.reg Reg.tlkTileEn
      let z := (s.accepted Reg.tlkTileEn b).store Reg.tlkTileEn b.value
      let one (s : State) (n : Nat) : State :=
        if b.value.getLsbD n = true ∧ old.getLsbD n = false then s.wakeTile n
        else if b.value.getLsbD n = false ∧ old.getLsbD n = true then
          if (s.tile n).st = .off then s.setTile n { s.tile n with shutAt := (s.tile n).shutAt.map fun x => (x.1, false), holdAt := none }
          else s.shutTile n false
        else if (b.value.getLsbD n = true ∧ b.value.getLsbD (16 + n) = true) ∧ (s.tile n).st ≠ .off then s.shutTile n true else s
      exec c s = .next ((List.range 16).foldl one z))
    ∧ (∀ (s : State) (n : Fin 16), s.live 23 = true →
      (∀ t reset, (s.tile n.val).shutAt = some (t, reset) →
        (t + 16000 ≤ s.now → exec (.tileEnDriveLow n) s = .next ((s.setTile n.val { s.tile n.val with
            shutAt := none, enLow := true, holdAt := if reset = true then some s.now else none }).tileLanes n.val .dormant))
          ∧ (s.now < t + 16000 → exec (.tileEnDriveLow n) s = .next s))
      ∧ ((s.tile n.val).shutAt = none → exec (.tileEnDriveLow n) s = .next s)
      ∧ (∀ t, (s.tile n.val).holdAt = some t →
        let z := s.setTile n.val { s.tile n.val with holdAt := none }
        (t + 1600000 ≤ s.now → s.flag Reg.tlkTileEn n.val = true → exec (.tileResetHoldEnd n) s = .next (z.wakeTile n.val))
          ∧ (t + 1600000 ≤ s.now → s.flag Reg.tlkTileEn n.val = false → exec (.tileResetHoldEnd n) s = .next z)
          ∧ (s.now < t + 1600000 → exec (.tileResetHoldEnd n) s = .next s))
      ∧ ((s.tile n.val).holdAt = none → exec (.tileResetHoldEnd n) s = .next s)
      ∧ (let hold := 1600000 * max 1 (s.fld Reg.tlkCtrl 15 8)
        let silent := ((s.tile n.val).statusAt = none ∨ ∃ x, (s.tile n.val).statusAt = some x ∧ x + hold ≤ s.now)
          ∨ ((s.lane (58 + n.val)).cwLock = false ∧ ∃ x, (s.tile n.val).lockLostAt = some x ∧ x + hold ≤ s.now)
        ((s.tile n.val).st = .linked → silent → exec (.tileDown n) s = .next (((s.setTile n.val { s.tile n.val with
            st := .down, identSeen := false, lock3Seen := false }).bump (Reg.tlkCnt 4)).event 168))
          ∧ (((s.tile n.val).st ≠ .linked ∨ ¬ silent) → exec (.tileDown n) s = .next s)))
    ∧ (∀ (s : State) (v r : Nat), s.live 23 = true →
      let pass := (2450000 ≤ v ∧ v ≤ 2550000) ∧ 237500 ≤ r ∧ r ≤ 262500
      let due := s.tlk.refAt = none ∨ ∃ t, s.tlk.refAt = some t ∧ t + 1600000 ≤ s.now
      let dark (s : State) (n : Nat) : State := if (s.tile n).st = .linked then (s.zeroApp n).blankTile 3 n
        else ((s.zeroApp n).dropInserts n).setTile n { (s.zeroApp n).tile n with blanked := true, row := none }
      let y : State := { s with tlk := { s.tlk with refAt := some s.now, refr := r } }
      (¬ due → exec (.referenceCheck v r) s = .next s)
        ∧ (due → ¬ pass → exec (.referenceCheck v r) s = .next ((List.range 16).foldl dark
          (State.event { y with tlk := { y.tlk with refFault := true, refPasses := 0 } } 171)))
        ∧ (due → pass → s.tlk.refFault = false → exec (.referenceCheck v r) s = .next y)
        ∧ (due → pass → s.tlk.refFault = true → s.tlk.refPasses < 99 → exec (.referenceCheck v r) s =
          .next { y with tlk := { y.tlk with refPasses := s.tlk.refPasses + 1 } })
        ∧ (due → pass → s.tlk.refFault = true → 99 ≤ s.tlk.refPasses →
          let z := { y with tlk := { y.tlk with refFault := false, refPasses := 0 } }
          let asks := ((s.live 25 = true ∧ s.flag Reg.calCtrl 2 = true) ∧ s.cal.elec = none) ∧ s.cal.elecReq = none
          (asks → exec (.referenceCheck v r) s = .next { z with cal := { z.cal with elecReq := some s.now } })
            ∧ (¬ asks → exec (.referenceCheck v r) s = .next z)))
    ∧ ∀ (s : State) (b : BusWrite), s.busOk Reg.tlkCtrl b = true →
      let z := (s.accepted Reg.tlkCtrl b).store Reg.tlkCtrl b.value
      (b.value.getLsbD 31 = true → exec (.tlkArm b) s = .next { z.noteArm 3 z.tlk.armed with tlk := { z.tlk with armed := true } })
        ∧ (b.value.getLsbD 31 = false → exec (.tlkArm b) s = .next z)

/-- The calibration engine (13 R292, R293, R297 to R300); unmet conditions: log entry 13, the record queue and the base loads:
log entry 54, the model's choices. -/
def Obligations.CalibrationEngine : Prop :=
  (∀ s : State, s.live 25 = true →
      (∀ (trim : BitVec 24) n t, s.cal.mirror = some (n, t) →
        let z : State := { s with cal := { s.cal with mirror := none } }
        let v : Int := trim.toNat
        let p : Rat := z.trimPoint n
        let d : Rat := if p = 0 then 1 else v / p
        (t + 64000 ≤ s.now → 2 * 0x400000 < 100 * (v - 0x400000).natAbs → exec (.trimMeasurement trim) s = .next ((z.event 174).refSense n))
          ∧ (t + 64000 ≤ s.now → 100 * (v - 0x400000).natAbs ≤ 2 * 0x400000 → exec (.trimMeasurement trim) s = .next ((State.bump { z with
              cal := { z.cal with drift := SMap.put (fun _ => 1) z.cal.drift n d } } (Reg.calCnt 0)).refSense n))
          ∧ (s.now < t + 64000 → exec (.trimMeasurement trim) s = .next s))
      ∧ (∀ trim, s.cal.mirror = none → exec (.trimMeasurement trim) s = .next s)
      ∧ (∀ x xs, s.cal.recQueue = x :: xs →
        ∀ kind due, s.cal.recDue = kind :: due → s.memReady 20 (winAddr x) 9384 = true →
        let gen := (s.reg Reg.calRecGen + 1).toNat
        let content := leBytes 4 0x52434647 ++ leBytes 4 1 ++ leBytes 4 gen ++ List.replicate 20 0 ++ shake256 s.recordBody 32 ++ s.recordBody
        let z := { s with cal := { s.cal with recQueue := xs, recDue := due } }
        exec .recordWrite s = .next (((z.setReg Reg.calRecGen (word gen)).returnFilled 20 x 0 content).event 177))
      ∧ ((s.cal.recQueue = [] ∨ s.cal.recDue = []) → exec .recordWrite s = .next s)
      ∧ (∀ (n : Fin 16) k x, s.cal.running.find? (fun p => p.1 == n.val) = some (k, x) →
        s.memReady 20 (winAddr x) (s.bufLen x) = true → s.memReady 20 0x1C00000000 64 = true →
        let z := (s.baseHeader x).1
        let row := (s.baseHeader x).2.1
        let r := z.devRead 20 (winAddr x + 128) ((s.baseHeader x).2.2 * 230400)
        let w := (r.1.devWrite 20 (baseResAddr n.val (230400 * row)) r.2.1).1
        let done (running : SMap Nat) := ((((State.returnBuffer { w with cal := { w.cal with
          running := running, queued := SMap.del w.cal.queued n.val } } 20 x 0).bump (Reg.calCnt 1)).blendStart n.val).event 176)
        (w.cal.queued.find? (fun p => p.1 == n.val) = none → exec (.baseLoadDone n) s = .next (done (SMap.del w.cal.running n.val)))
          ∧ ∀ y, w.cal.queued.find? (fun p => p.1 == n.val) = some (n.val, y) →
            exec (.baseLoadDone n) s = .next (done (SMap.ins w.cal.running n.val y)))
      ∧ ∀ n : Fin 16, s.cal.running.find? (fun p => p.1 == n.val) = none → exec (.baseLoadDone n) s = .next s)
    ∧ (∀ (s : State) (b : BusWrite), s.busOk Reg.calRun b = true → ∀ c, c = Instr.calElec b ∨ c = Instr.calSweep b ∨ c = Instr.calRec b →
      let z := s.accepted Reg.calRun b
      exec c s = .next { z with cal := { z.cal with
        elecReq := if b.value.getLsbD 0 = true ∧ z.cal.elec = none ∧ z.cal.elecReq = none then some z.now else z.cal.elecReq
        sweepReq := if b.value.getLsbD 1 = true ∧ z.cal.sweep = none ∧ z.cal.sweepReq = none then some z.now else z.cal.sweepReq
        recDue := if b.value.getLsbD 2 = true ∧ true ∉ z.cal.recDue then z.cal.recDue ++ [true] else z.cal.recDue } })
    ∧ (∀ (s : State) (b : BusWrite), s.busOk Reg.calRecLoad b = true → exec (.calRecLoad b) s =
      .next ((s.accepted Reg.calRecLoad b).post .calRecLoad (b.value.toNat &&& 0x3FFFFFC0)))
    ∧ ∀ (s : State) (b : BusWrite), s.busOk Reg.calBaseLoad b = true → exec (.calBaseLoad b) s =
      .next ((s.accepted Reg.calBaseLoad b).post (.calBase (b.value.toNat % 16)) (b.value.toNat &&& 0x3FFFFFC0))

/-- Checkpoints, restores and clearing (13 R301, R302, RPT_CTRL); unmet conditions: log entry 13, the model's choice. -/
def Obligations.ReportCardCheckpoints : Prop :=
  (∀ s : State, s.live 24 = true →
      (let period := 1600000000 * max 1 (s.fld Reg.rptCkptCtrl 15 0);
        (s.flag Reg.rptCtrl 3 = true → s.rpt.ckptBase + period ≤ s.now →
            exec .checkpoint s = .next (State.ckptStart { s with rpt := { s.rpt with ckptBase := s.rpt.ckptBase + period } }))
          ∧ ((s.flag Reg.rptCtrl 3 = false ∨ s.now < s.rpt.ckptBase + period) → exec .checkpoint s = .next s))
      ∧ (∀ c x xs, s.rpt.ckpt = some c → s.rpt.ckptQueue = x :: xs →
        (c.next = 64 → exec .checkpointDone s = .next (State.recordDue (((State.returnBuffer
            { s with rpt := { s.rpt with ckpt := none, ckptQueue := xs } } 19 x 0).setReg Reg.rptLastGen (word c.gen)).event 173)))
          ∧ (c.next ≠ 64 → exec .checkpointDone s = .next s))
      ∧ ((s.rpt.ckpt = none ∨ s.rpt.ckptQueue = []) → exec .checkpointDone s = .next s)
      ∧ (let z := { s with rpt := { s.rpt with clearing := false } }
        (s.rpt.clearing = true → z.permits 2 19 0 3185049600 true = true →
            exec .stressClearDone s = .next (z.zeroRange 0x1C00000000 3185049600))
          ∧ (s.rpt.clearing = true → z.permits 2 19 0 3185049600 true = false → exec .stressClearDone s = .next (z.violation 2 19 0 true))
          ∧ (s.rpt.clearing = false → exec .stressClearDone s = .next s))
      ∧ (∀ x xs, s.rpt.restQueue = x :: xs → s.flag Reg.rptCtrl 0 = false → s.memReady 19 (winAddr x) 64 = true →
          s.memReady 19 0x1C00000000 64 = true →
        let z := { s with rpt := { s.rpt with restQueue := xs } }
        let index := (s.rpt.restore.map Prod.snd).getD 0
        let c := z.restCheck x index (s.rpt.restore.map Prod.fst)
        let failed := ((State.setFlag { c.1 with rpt := { c.1.rpt with restore := none } } Reg.rptStatus 30).stressFree).returnBuffer 19 x 1
        let passed (p : List Byte × Nat) : State :=
          let u := (c.1.devWrite 19 (0x1C00000000 + 50331648 * index) p.1).1
          State.returnBuffer { u with rpt := { u.rpt with restore := if index = 63 then none else some (p.2, index + 1) } } 19 x 0
        exec .restoreBufferDone s = .next (c.2.elim failed passed))
      ∧ ((s.rpt.restQueue = [] ∨ s.flag Reg.rptCtrl 0 = true) → exec .restoreBufferDone s = .next s))
    ∧ (∀ s : State, s.ckptStart = if s.rpt.ckpt = none then { s with rpt := { s.rpt with
        ckpt := some ⟨(s.reg Reg.rptLastGen + 1).toNat, 0⟩ } } else s)
    ∧ (∀ (s : State) (b : BusWrite), s.busOk Reg.rptCkptCtrl b = true →
      let z := (s.accepted Reg.rptCkptCtrl b).store Reg.rptCkptCtrl b.value
      exec (.ckptNow b) s = .next (if b.value.getLsbD 31 = true then z.ckptStart else z))
    ∧ ∀ (s : State) (b : BusWrite), s.busOk Reg.rptCtrl b = true →
      let busy := (s.rpt.restore ≠ none ∨ s.rpt.restQueue ≠ []) ∨ s.rpt.clearing = true
      let was := s.flag Reg.rptCtrl 0
      let z (v : Word) := (s.accepted Reg.rptCtrl b).store Reg.rptCtrl v
      let fresh (s : State) (n : Nat) : State :=
        let seed := s.reg Reg.rptSeed ^^^ word n
        s.setRptTile n { s.rptTile n with
          gen := if seed = 0 then 1 else seed, mean := [0x8000, 0x8000, 0x8000], blend := none,
          foldSum := [0, 0, 0], foldCnt := [0, 0, 0], codes := [], resid := [], sampled := [] }
      let eff (v : Word) (t : State) : State :=
        if was = false ∧ t.flag Reg.rptCtrl 0 = true then (List.range 16).foldl fresh t
        else if v.getLsbD 31 = true ∧ t.flag Reg.rptCtrl 0 = false then { t with rpt := { t.rpt with clearing := true } } else t
      ((busy ∧ was = false) → exec (.rptClear b) s = .next (eff (b.value &&& 0xFFFFFFFE) (z (b.value &&& 0xFFFFFFFE))))
        ∧ ((¬ busy ∨ was = true) → exec (.rptClear b) s = .next (eff b.value (z b.value)))

/-- DMC_REQUEST and what a port grants (14 R305, R311, R313, R314, R319, R323, R326, R327); host requests without
their path: log entry 13, the model's choice. -/
def Obligations.MemoryHoldsWhatIsWritten : Prop :=
  (∀ (s : State) (m : Fin 32) (w : Bool) (addr : BitVec 37) (k : Fin 4097) (data : List Byte),
    let a := addr.toNat
    let n := if w = true then data.length else k.val
    let c := Instr.dmcRequest m w addr k data
    let err (z : State) (a n : Nat) : State := z.answer ⟨m.val, w, a / 64, if w = true then [] else List.replicate n 0, true⟩
    let reach := (s.hostPath = true ∧ s.live 34 = true) ∧ winAddr 0 ≤ a ∧ a + n ≤ winAddr 0 + 2 ^ 30
    (n = 0 → exec c s = .next s)
    ∧ (0 < n → m.val = 16 → ¬ reach → exec c s = .next s)
    ∧ (0 < n → m.val = 16 → reach → w = true → exec c s = .next (s.windowWrite (a - winAddr 0) data))
    ∧ (0 < n → (m.val ≠ 16 ∨ (reach ∧ w = false)) →
      (memGroup a = none → exec c s = .next (err s a n))
      ∧ ∀ g base first count, memGroup a = some (g, base, first, count) →
        ((memInGroup a n = false ∨ s.up 26 = false) → exec c s = .next (err s a n))
        ∧ (memInGroup a n = true → s.up 26 = true →
          let part (z : State) (ln : Nat) : State :=
            let lo := max a (64 * ln)
            let len := min (a + n) (64 * ln + 64) - lo
            if z.permits g m.val (lo - base) len w = true then
              z.portTake { group := g, master := m.val, write := w, addr := lo, len := len, data := (data.drop (lo - a)).take len }
            else err (z.violation g m.val (lo - base) w) lo len
          exec c s = .next ((linesOf a n).foldl part s))))
  ∧ (∀ (s : State) (r : PortReq),
    let room := s.portRoom r = true ∧ s.dmc.stalled.any r.samePort = false
    (room → s.portTake r = { s with dmc := { s.dmc with ports := s.dmc.ports ++
      [{ r with at_ := s.now, target := max 1 (s.fld (Reg.dmcLt r.group r.master) 15 0) }] } })
    ∧ (¬ room → s.portTake r = { s with dmc := { s.dmc with stalled := s.dmc.stalled ++ [r] } }))
  ∧ ∀ (s : State) (r : PortReq),
    let c := r.chan
    let ln := r.line
    let ch := s.chan c
    let y : State := { s with dmc := { s.dmc with ports := s.dmc.ports.erase r } }
    let req : MemReq := { master := r.master, line := 64 * ln, at_ := r.at_, target := r.target }
    (ch.failed = true → s.grant r = y.answer ⟨r.master, r.write, ln, if r.write = true then [] else List.replicate r.len 0, true⟩)
    ∧ (ch.failed = false → r.write = false →
      (s.lineHeld ln = true → s.poisoned ln = false →
        s.grant r = (y.bump (Reg.dmcCntCh (memChannel (64 * ln)).1 5)).answer ⟨r.master, false, ln, s.bytesAt r.addr r.len, false⟩)
      ∧ (s.lineHeld ln = false → s.grant r = y.setChan c { ch with reads := ch.reads ++ [req] }))
    ∧ (ch.failed = false → r.write = true → r.scrub = false → ∃ (t : State) (W : List MemReq), s.grant r = t
      ∧ (ch.writes.any (fun w => w.line == 64 * ln) = true →
          W = ch.writes.map fun w => if w.line = 64 * ln then { w with merge := w.merge && decide (r.data.length ≠ 64) } else w)
      ∧ (ch.writes.any (fun w => w.line == 64 * ln) = false → W = ch.writes ++ [{ req with merge := decide (r.data.length ≠ 64) }])
      ∧ t.chan c = { ch with
          writes := W
          reads := ch.reads.map fun q => if q.kept = none ∧ q.line / 64 = ln then
            { q with kept := some (if s.poisoned ln = true then none else some (s.bytesAt q.line 64)) } else q
          drain := if s.fld Reg.dmcWm 13 8 ≤ W.length then true else if W.length ≤ s.fld Reg.dmcWm 5 0 then false else ch.drain }
      ∧ (∀ d, d ≠ c → t.chan d = s.chan d)
      ∧ (∀ x, t.byteAt x = if (r.data.length = 64 ∨ s.poisoned ln = false) ∧ r.addr ≤ x ∧ x < r.addr + r.data.length
          then r.data.getD (x - r.addr) 0 else s.byteAt x)
      ∧ (∀ l, t.poisoned l = true ↔ s.poisoned l = true ∧ ¬ (r.data.length = 64 ∧ l = ln))
      ∧ t = { s with dmc := t.dmc, cyc := { s.cyc with answers := s.cyc.answers ++ [⟨r.master, true, ln, [], false⟩] } })

/-- Channel commands, refresh, training, replay and failure (14 R312, R313, R316 to R319); unmet conditions: log entry 13, the
model's choice. -/
def Obligations.ChannelsIssueTrainAndFail : Prop :=
  (∀ (s : State) (c : Fin 16),
      let ch := s.chan c.val
      (∀ upsets, let z := s.strike c.val upsets
        let first := (z.chan c.val).writes.find? (z.issueOk c.val)
        let forced := ((z.chan c.val).drain = true ∨ (z.chan c.val).forced ≠ []) ∨ ∃ w ∈ (z.chan c.val).writes, w.urgency z.now = 7
        (z.chanReady c.val = false → exec (.channelCommand c upsets) s = .next z)
        ∧ (∀ w, z.chanReady c.val = true → forced → first = some w → exec (.channelCommand c upsets) s = .next (z.issueWrite c.val w))
        ∧ (∀ r, z.chanReady c.val = true → (¬ forced ∨ first = none) → z.nextRead c.val = some r →
          exec (.channelCommand c upsets) s = .next (if r.merge = true then z.issueWrite c.val r else z.issueRead c.val r))
        ∧ (∀ w, z.chanReady c.val = true → z.nextRead c.val = none → first = some w →
          exec (.channelCommand c upsets) s = .next (z.issueWrite c.val w))
        ∧ (z.chanReady c.val = true → z.nextRead c.val = none → first = none → exec (.channelCommand c upsets) s = .next z))
      ∧ (s.chanReady c.val = true →
        (∀ (bank : Fin 16) manage, (ch.refresh = none ∨ ∃ b e, ch.refresh = some (b, e) ∧ e ≤ s.now) →
            ∃ t : State, exec (.refresh c bank manage) s = .next t ∧ t = { s with dmc := { s.dmc with chans := t.dmc.chans } }
              ∧ t.chan c.val = { ch with
                retry := ch.unconfirmed s.now ++ [⟨.refresh, bank.val, s.now⟩]
                refresh := some (bank.val, s.now + if manage = true then 192 else 240) } ∧ ∀ d, d ≠ c.val → t.chan d = s.chan d)
          ∧ (∀ (bank : Fin 16) manage b e, ch.refresh = some (b, e) → s.now < e → exec (.refresh c bank manage) s = .next s))
      ∧ (s.up 26 = true → ch.trained = true → ch.failed = false →
        let alerts := (ch.alerts.filter fun t => s.now < t + 1600000) ++ [s.now]
        let fails := (∃ e, ch.replayEnd = some e ∧ s.now < e) ∨ max 1 (s.fld Reg.dmcReplay 7 0) < alerts.length
        (fails → exec (.parityAlert c) s = .next (s.chanFail c.val))
          ∧ (¬ fails → exec (.parityAlert c) s = .next (((s.setChan c.val { ch with
            alerts := alerts, replayEnd := some (s.now + 448)
            retry := (ch.unconfirmed s.now).map fun x => { x with at_ := s.now + 448 } }).bump (Reg.dmcCntCh c.val 2)).event 194)))
      ∧ (s.up 26 = true → s.clk.stable.getLsbD 3 = true → ch.trained = false → ch.failed = false →
        let z := { s with dmc := { s.dmc with selfRefresh := false } }
        exec (.training c true) s = .next (z.setChan c.val { ch with trained := true, trainedAt := s.now })
          ∧ exec (.training c false) s = .next (z.chanFail c.val))
      ∧ (s.up 26 = true → s.retrainDue c.val = true → s.retrainWindow c.val = true → ∀ pass,
        (8 ≤ c.val → exec (.periodicRetrain c pass) s = .next (s.retrainOne pass c.val))
          ∧ (c.val < 8 → exec (.periodicRetrain c pass) s = .next ((List.range 8).foldl (fun s k =>
            if (s.chan k).trained = true ∧ (s.chan k).failed = false then s.retrainOne (pass || k != c.val) k else s) s)))
      ∧ (∀ pass, (s.up 26 = false ∨ s.retrainDue c.val = false ∨ s.retrainWindow c.val = false) →
        exec (.periodicRetrain c pass) s = .next s))
    ∧ (∀ (s : State) (g : Fin 4) (m : Fin 32), s.up 26 = true → ∃ t : State, exec (.forcedDrain ⟨g, m⟩) s = .next t
      ∧ t = { s with dmc := { s.dmc with chans := t.dmc.chans } }
      ∧ ∀ c, t.chan c = if c < 16 ∧ (∃ r ∈ s.dmc.ports, ((r.write = true ∧ r.group = g.val) ∧ r.master = m.val) ∧ r.chan = c) then
        { s.chan c with forced := (s.chan c).forced ++ [(m.val, s.now)] } else s.chan c)
    ∧ (∀ (s : State) (c : Nat), s.chanFail c = (State.setChan { s with cyc := { s.cyc with
        answers := s.cyc.answers ++ (s.chan c).reads.map fun r => ⟨r.master, false, r.line / 64, List.replicate 64 0, true⟩ } } c
      { s.chan c with
        failed := true, trained := false, reads := [], writes := [], retry := [], forced := []
        drain := false, issuing := none, retrain := false }).event 195)
    ∧ ∀ (s : State) (b : BusWrite), s.busOk Reg.dmcCtrl b = true →
      let z := (s.accepted Reg.dmcCtrl b).store Reg.dmcCtrl b.value
      exec (.dmcRetrain b) s = .next (if b.value.getLsbD 31 = true ∧ z.retrainRuns = false then
        (List.range 16).foldl (fun s c => if (s.chan c).trained = true ∧ (s.chan c).failed = false then
          s.setChan c { s.chan c with retrain := true } else s) z else z)

/-- Scrubbing, locks and error addresses (14 R310, R324, R325, R326, R327, DMC_WM; 15 R346); unmet conditions: log entry 13,
the model's choice. -/
def Obligations.ScrubbingLocksAndErrorReads : Prop :=
  (∀ (s0 : State) (c : Fin 16) (ups : List (BitVec 31 × Bool)),
      let s := s0.strike c.val ups
      let ch := s.chan c.val
      let g := chanGroup c.val
      let a := chanLine c.val ch.scrub
      let ready := ((s.chanReady c.val = true ∧ s.issueOk c.val { master := 23, line := a, at_ := s.now, target := 1 } = true)
        ∧ s.flag Reg.dmcCtrl 0 = true) ∧ ch.scrubAt + 2 * max 1 (s.fld Reg.dmcScrub 15 0) ≤ s.now
      (¬ ready → exec (.scrubRead c ups) s0 = .next s)
      ∧ (ready → ∀ base f n, memGroup a = some (g, base, f, n) →
        let o := a - base
        let k := (ch.scrub + 1) % 2 ^ 27
        let z := s.setChan c.val { ch with scrub := k, scrubAt := s.now }
        let done (t : State) : State := if c.val = 15 ∧ k = 0 then t.event 196 else t
        (z.permits g 23 o 64 false = false → exec (.scrubRead c ups) s0 = .next (done (z.violation g 23 o false)))
        ∧ (z.permits g 23 o 64 false = true → exec (.scrubRead c ups) s0 = .next (done ((z.scrubLine g base (a / 64)).retryPush c.val .read a)))))
    ∧ (∀ (s : State) (g base ln : Nat),
      let c := (memChannel (64 * ln)).1
      let u := s.bump (Reg.dmcCntCh c 3)
      let w := (u.bump (Reg.dmcCntCh c 0)).event 192
      (s.lineHeld ln = true → s.scrubLine g base ln = (s.fetchLine ln 23).1)
      ∧ (s.lineHeld ln = false → s.poisoned ln = true → s.scrubLine g base ln = u.uncorrectable ln 23 2)
      ∧ (s.lineHeld ln = false → s.poisoned ln = false → s.dmc.soft.contains ln = false → s.scrubLine g base ln = u)
      ∧ (s.lineHeld ln = false → s.poisoned ln = false → s.dmc.soft.contains ln = true →
        s.scrubLine g base ln = w.requestPart g base 23 true (64 * ln) 64 (w.bytesAt (64 * ln) 64) ln true))
    ∧ (∀ (s : State) (array : Fin 6) (i : Nat),
      let ready := (s.up 26 = true ∧ s.flag Reg.dmcCtrl 0 = true) ∧ i < sramSize array.val ∧ s.up (sramBlock array.val i) = true
      (ready → exec (.sramScrub array i false) s = .next (s.bump (Reg.dmcCntSram 0))
        ∧ exec (.sramScrub array i true) s = .next (((s.bump (Reg.dmcCntSram 1)).event 197).sramLost array.val i))
      ∧ ∀ lost, ¬ ready → exec (.sramScrub array i lost) s = .next s)
    ∧ (∀ (s : State) (b : BusWrite), s.busOk Reg.dmcWm b = true →
      let z := s.accepted Reg.dmcWm b
      let high := b.value.toNat / 256 % 64
      let low := b.value.toNat % 64
      exec (.dmcWmWrite b) s = .next (if low < high ∧ high ≤ 32 then (List.range 16).foldl State.drainLevel (z.store Reg.dmcWm b.value) else z))
    ∧ (∀ (s : State) (t : Fin 23) (b : BusWrite), s.busOk (Reg.prcLock t.val) b = true →
      let z := (s.accepted (Reg.prcLock t.val) b).store (Reg.prcLock t.val) b.value
      let u := if b.value.getLsbD 31 = true then z.setReg (Reg.prcViolCnt t.val) (word (min 0xFFFFFFFF (z.incsNow (Reg.prcViolCnt t.val)))) else z
      exec (.prcLockWrite t b) s = .next (if b.value.getLsbD 0 = true ∧ u.up 36 = true then u.extend 4 (shake256 (u.proctorBytes t.val) 32) else u))
    ∧ (∀ (s : State) (b : BusRead), ReadOk s Reg.dmcErrAddrLo b → exec (.dmcErrAddrLoRead b) s =
      .next (answered b Reg.dmcErrAddrLo (s.latchWord b.master.val Reg.dmcErrAddrHi (s.reg Reg.dmcErrAddrHi)) (s.reg Reg.dmcErrAddrLo)))
    ∧ ∀ (s : State) (t : Fin 23) (b : BusRead), ReadOk s (Reg.prcViolAddrLo t.val) b → exec (.prcViolAddrLoRead t b) s =
      .next (answered b (Reg.prcViolAddrLo t.val) (s.latchWord b.master.val (Reg.prcViolAddrHi t.val) (s.reg (Reg.prcViolAddrHi t.val))) (s.reg (Reg.prcViolAddrLo t.val)))

/-- Satchel's jobs (16 R360 to R363); unmet conditions: log entry 13, the model's choice. -/
def Obligations.SatchelJobsQueueAndEnd : Prop :=
  (∀ (s : State) (b : BusWrite), s.busOk Reg.satJobCtrl b = true →
      let z := (s.accepted Reg.satJobCtrl b).store Reg.satJobCtrl b.value
      let job : SatJob := {
        decompress := z.flag Reg.satJobCtrl 29, blockLog := z.fld Reg.satJobCtrl 28 24, level := z.fld Reg.satJobCtrl 18 16,
        tag := z.fld Reg.satJobCtrl 15 0, src := (z.reg Reg.satSrcLo).toNat + 2 ^ 32 * z.fld Reg.satSrcHi 4 0,
        dst := (z.reg Reg.satDstLo).toNat + 2 ^ 32 * z.fld Reg.satDstHi 4 0, srcLen := (z.reg Reg.satSrcLen).toNat,
        dstLen := (z.reg Reg.satDstLen).toNat, goAt := z.now }
      let full := z.setFlag Reg.satStatus 31
      (b.value.getLsbD 31 = false → exec (.satJobGo b) s = .next z)
        ∧ (b.value.getLsbD 31 = true → 8 ≤ z.sat.queue.length → exec (.satJobGo b) s = .next { full with
          cyc := { full.cyc with satGos := full.cyc.satGos ++ [(job, !z.flag Reg.satStatus 31)] } })
        ∧ (b.value.getLsbD 31 = true → z.sat.queue.length < 8 → exec (.satJobGo b) s = .next { z with sat := { z.sat with
          queue := z.sat.queue ++ [{ job with order := z.sat.submitted }]
          submitted := z.sat.submitted + 1 } }))
    ∧ (∀ (s : State) (dec : Bool), s.live 28 = true →
      let reg := s.sat.queue.find? fun j => j.decompress == dec
      let int := if dec = true then none else s.ckptJob
      let pick := if int.isSome = true ∧ (reg = none ∨ s.sat.turn = false) then int else reg
      ((s.satUnit dec ≠ none ∨ s.satStalled dec = true ∨ pick = none) → exec (.jobStart dec) s = .next s)
        ∧ ∀ j, s.satUnit dec = none → s.satStalled dec = false → pick = some j →
          let z := if j.internal = true then s else { s with sat := { s.sat with queue := s.sat.queue.erase j } }
          let u := if dec = true then z else { z with sat := { z.sat with turn := j.internal } }
          let refused : SatResult := { status := 8, used := 0, written := 0, blocks := 0 }
          (j.bad = true → exec (.jobStart dec) s = .next ((u.satCount refused).satReport j refused))
            ∧ (j.bad = false → exec (.jobStart dec) s = .next (u.setSatUnit dec (some j))))
    ∧ (∀ (s : State) (dec : Bool), (s.satUnit dec = none → exec (.jobEnd dec) s = .next s)
      ∧ ∀ j, s.live 28 = true → s.satUnit dec = some j → s.memReady 21 j.src j.srcLen = true → s.memReady 21 j.dst j.dstLen = true →
        let x := (s.setSatUnit dec none).satRun j
        (j.internal = false → exec (.jobEnd dec) s = .next ((x.1.satCount x.2.2).satReport j x.2.2))
          ∧ (j.internal = true → exec (.jobEnd dec) s = .next ((x.1.satCount x.2.2).ckptJobEnd j x.2.1 x.2.2)))
    ∧ ∀ (s : State) (b : BusWrite), s.busOk Reg.satCtrl b = true →
      let z := s.accepted Reg.satCtrl b
      let x := z.satAbortRun false
      let y := x.1.satAbortRun true
      let order (l : List (SatJob × SatResult)) : Nat := (l.map fun p => p.1.order).headD 0
      let run := if x.2.isEmpty = false ∧ y.2.isEmpty = false ∧ order y.2 < order x.2 then y.2 ++ x.2 else x.2 ++ y.2
      let old := (y.1.sat.queue.filter fun j => j.goAt != z.now).map fun j =>
        (j, ({ status := 7, used := 0, written := 0, blocks := 0 } : SatResult))
      let kept := y.1.sat.queue.filter fun j => j.goAt == z.now
      (b.value.getLsbD 31 = false → exec (.satAbort b) s = .next z)
        ∧ (b.value.getLsbD 31 = true → exec (.satAbort b) s = .next (State.satGosAfter ((run ++ old).foldl
          (fun s p => (s.satCount p.2).satReport p.1 p.2) { y.1 with sat := { y.1.sat with queue := kept } })))

/-- The blitter (17 R368, R370 to R381); unmet conditions: log entry 13, a commit with FMT 3:
log entry 21, the model's choices. -/
def Obligations.BlitterOperationsAndCommits : Prop :=
  (∀ (s : State) (b : BusWrite), s.busOk Reg.bltOp b = true → ∀ c, c = Instr.bltOpGo b ∨ c = Instr.bltAbort b →
      let z := (s.accepted Reg.bltOp b).store Reg.bltOp b.value
      let u := if b.value.getLsbD 30 = true then z.bltAbort else z
      (b.value.getLsbD 31 = false → exec c s = .next u)
        ∧ (b.value.getLsbD 31 = true → u.blt.op = none → exec c s = .next (u.bltStart u.bltStaged))
        ∧ (b.value.getLsbD 31 = true → u.blt.op ≠ none → exec c s = .next { u with
          cyc := { u.cyc with bltGo := some (u.cyc.bltGo.getD u.bltStaged) } }))
    ∧ (∀ (z : State) (o : BltOp),
      let free := z.flag (Reg.hstMbox0w 2) 31 = false ∧ z.mboxStalled 2 = false
      ((o.bad = true ∧ free) → z.bltStart o = z.bltOpEnd o 8)
        ∧ (¬ (o.bad = true ∧ free) → z.bltStart o = { z with blt := { z.blt with op := some o } })
        ∧ (z.blt.op = none → z.bltAbort = z)
        ∧ (z.blt.op = some o → o.goAt = z.now → z.bltAbort = z)
        ∧ (z.blt.op = some o → o.goAt ≠ z.now →
          let t := z.bltOpEnd o 7
          (z.cyc.bltGo = none → z.bltAbort = t)
            ∧ ∀ g, z.cyc.bltGo = some g → z.bltAbort = State.bltStart { t with cyc := { t.cyc with bltGo := none } } g))
    ∧ (∀ s : State, s.live 29 = true →
      let paced := ∀ t, s.blt.lastBurst = some t → t + 2 * s.fld Reg.bltPace 9 0 ≤ s.now
      (¬ paced → exec .blitBurst s = .next s)
        ∧ (paced →
          (∀ o, s.blt.job = some 4 → s.blt.op = some o →
            exec .blitBurst s = .next (if s.burstReady o o.bursts = true then s.opBurst o else s))
          ∧ (∀ p c o, s.blt.job = some p → p ≠ 4 → s.bltCommit p = some c → c.sync = some o →
            exec .blitBurst s = .next (if s.burstReady o o.bursts = true then s.syncBurst p else s))
          ∧ (∀ o, s.blt.job = none → s.blt.op = some o →
            let wait := s.flag (Reg.hstMbox0w 2) 31 = true ∨ s.mboxStalled 2 = true
            let free := (s.blt.syncs = [] ∧ o.gateOpen = true) ∧ s.burstReady o o.bursts = true
            (wait → exec .blitBurst s = .next s)
            ∧ (¬ wait → o.bad = true → exec .blitBurst s = .next (s.bltOpEnd o 8))
            ∧ (¬ wait → o.bad = false → free → exec .blitBurst s = .next (s.opBurst o))
            ∧ (¬ wait → o.bad = false → ¬ free → exec .blitBurst s = .next s))
          ∧ (s.blt.job = none → s.blt.op = none → exec .blitBurst s = .next s))
        ∧ (∀ p rest, s.blt.job = none → s.blt.syncs = p :: rest →
          exec .synchronisation s = .next { s with blt := { s.blt with job := some p } })
        ∧ ((s.blt.job ≠ none ∨ s.blt.syncs = []) → exec .synchronisation s = .next s))
    ∧ (∀ (s : State) (o : BltOp),
      let r := State.runBurst { s with blt := { s.blt with job := some 4 } } o o.bursts
      let o' := { o with bursts := o.bursts + 1 }
      (r.2 = false → s.opBurst o = r.1.bltOpEnd o 6)
        ∧ (r.2 = true → burstsTotal o ≤ o.bursts + 1 → s.opBurst o = r.1.bltOpEnd o' 0)
        ∧ (r.2 = true → o.bursts + 1 < burstsTotal o → s.opBurst o = { r.1 with blt := { r.1.blt with op := some o' } }))
    ∧ (∀ (s : State) (p : Nat) (c : BltCommit) (o : BltOp), s.bltCommit p = some c → c.sync = some o → o.fmt ≠ 3 →
      let r := s.runBurst o o.bursts
      (r.2 = false → s.syncBurst p = r.1.bltCommitEnd p true)
        ∧ (r.2 = true → burstsTotal o ≤ o.bursts + 1 → s.syncBurst p = r.1.bltCommitEnd p false)
        ∧ (r.2 = true → o.bursts + 1 < burstsTotal o → s.syncBurst p = { r.1 with blt := { r.1.blt with
          running := SMap.ins r.1.blt.running p { c with sync := some { o with bursts := o.bursts + 1 } } } }))
    ∧ (∀ (s : State) (b : BusWrite), s.busOk Reg.bltCommit b = true →
      let z := (s.accepted Reg.bltCommit b).store Reg.bltCommit b.value
      let p := b.value.toNat % 4
      let r : BltRect := ⟨z.fld Reg.bltCommitX 11 0, z.fld Reg.bltCommitY 10 0, z.fld Reg.bltCommitX 27 16, z.fld Reg.bltCommitY 26 16⟩
      let ok := (r.x0 ≤ r.x1 ∧ r.x1 ≤ 3071) ∧ r.y0 ≤ r.y1 ∧ r.y1 ≤ 1727
      let q := { z with blt := { z.blt with queued := SMap.ins z.blt.queued p r } }
      (b.value.getLsbD 31 = false → exec (.bltCommitGo b) s = .next z)
        ∧ (b.value.getLsbD 31 = true → ¬ ok → exec (.bltCommitGo b) s = .next (z.setFlag Reg.bltCommitStatus (4 + p)))
        ∧ (b.value.getLsbD 31 = true → ok → z.bltCommit p = none → exec (.bltCommitGo b) s =
          .next { z with blt := { z.blt with running := SMap.ins z.blt.running p ⟨r, z.now, none⟩ } })
        ∧ (b.value.getLsbD 31 = true → ok → z.bltCommit p ≠ none → z.bltQueued p = none → exec (.bltCommitGo b) s = .next q)
        ∧ (b.value.getLsbD 31 = true → ok → z.bltCommit p ≠ none → z.bltQueued p ≠ none → exec (.bltCommitGo b) s =
          .next (((q.setFlag Reg.bltCommitStatus p).bump (Reg.bltCnt 3)).event 45)))
    ∧ ∀ (s : State) (b : BusWrite), s.busOk Reg.bltPlaneArm b = true →
      let z := s.accepted Reg.bltPlaneArm b
      exec (.bltPlaneArm b) s = .next (if b.value.getLsbD 31 = true then
        { z.noteArm 1 z.blt.armed with blt := { z.blt with armed := true } } else z)

/-- Clocks (18 R382 to R390); unmet conditions: log entry 13, the model's choice. -/
def Obligations.ClocksSettleSwitchAndGate : Prop :=
  (∀ s : State,
      ((s.rst.por = false ∧ s.clk.rootLock = false) →
          exec .rootLockDetect s = .next { s with clk := { s.clk with rootLock := true, lockAt := s.now } })
      ∧ ((s.rst.por = true ∨ s.clk.rootLock = true) → exec .rootLockDetect s = .next s)
      ∧ (let settled := (s.clk.rootLock = true ∧ s.clk.rootStable = false) ∧ s.clk.lockAt + 524288 ≤ s.now
        (settled → exec .rootStable s = .next { s with clk := { s.clk with rootStable := true, startAt := s.now } })
          ∧ (¬ settled → exec .rootStable s = .next s))
      ∧ (s.clk.rootStable = false → exec .rootLockLoss s = .next { s with clk := { s.clk with rootLock := false } })
      ∧ (∀ d : Fin 6,
        let z : State := { s with clk := { s.clk with stable := s.clk.stable ||| BitVec.ofNat 6 (2 ^ d.val) } }
        let restarted := ∃ w, s.clk.switch = some w ∧ d.val = 2 ∧ w.restarted = true
        ((s.clk.rootStable = false ∨ s.clk.stable.getLsbD d.val = true) → exec (.domainStable d) s = .next s)
          ∧ (s.clk.rootStable = true → s.clk.stable.getLsbD d.val = false →
            (∀ w, s.clk.switch = some w → d.val = 2 → w.restarted = true →
              exec (.domainStable d) s = .next (if w.since + 16 * s.clk.engineDiv ≤ s.now then z.endSwitch else s))
            ∧ (¬ restarted → exec (.domainStable d) s = .next (if s.clk.startAt + 64 * s.domainDiv d.val ≤ s.now then z else s)))))
    ∧ (∀ s : State,
      let z : State := { s with clk := { s.clk with switch := none, held := none } }
      (s.clk.held = none → s.endSwitch = z)
        ∧ ∀ t, s.clk.held = some t →
          s.endSwitch = if t = s.clk.engineDiv then { z with clk := { z.clk with target := t } } else z.startSwitch t)
    ∧ (∀ s : State,
      let t := max (s.fld Reg.clkEngine 10 8) (max 4 (min 6 (s.fld Reg.clkEngine 2 0)))
      let last := s.clk.held.getD s.clk.target
      ((s.clk.rootStable = false ∨ t = last) → exec .engineTargetChange s = .next s)
        ∧ (s.clk.rootStable = true → t ≠ last → s.clk.switch ≠ none →
          exec .engineTargetChange s = .next { s with clk := { s.clk with held := some t } })
        ∧ (s.clk.rootStable = true → t ≠ last → s.clk.switch = none →
          exec .engineTargetChange s = .next { s with clk := { s.clk with
            target := t, switch := some ⟨t, s.flag Reg.clkEngine 31, s.now, false⟩ } })
        ∧ (s.clk.switch = none → exec .quiesceDone s = .next s ∧ exec .ratioRampStep s = .next s)
        ∧ (∀ w, s.clk.switch = some w →
          ((w.ramp = false ∧ w.restarted = false) → exec .quiesceDone s = .next { s with clk := { s.clk with
              engineDiv := w.target, stable := s.clk.stable &&& 0x3B, switch := some { w with restarted := true, since := s.now } } })
          ∧ ((w.ramp = true ∨ w.restarted = true) → exec .quiesceDone s = .next s)
          ∧ ((w.ramp = false ∨ s.now < w.since + 64 * s.clk.engineDiv) → exec .ratioRampStep s = .next s)
          ∧ (let d := if s.clk.engineDiv < w.target then s.clk.engineDiv + 1 else s.clk.engineDiv - 1
            let z : State := { s with clk := { s.clk with engineDiv := d, switch := some { w with since := s.now } } }
            w.ramp = true → w.since + 64 * s.clk.engineDiv ≤ s.now →
              exec .ratioRampStep s = .next (if d = w.target then z.endSwitch else z))))
    ∧ (∀ (s : State) (g : Fin 2) (b : BusWrite), s.busOk (if g = 0 then Reg.clkGate0 else Reg.clkGate1) b = true →
      exec (.clkGateWrite g b) s = .next ((List.range 32).foldl (fun s i =>
        let k := 32 * g.val + i
        if gateable k = false then s
        else if b.value.getLsbD i = false then s.gateFree k
        else if s.up k = false ∨ s.blockFlag Reg.clkGate0 Reg.clkGate1 k = true then s
        else
          let z := s.setBlockFlag Reg.clkGate0 Reg.clkGate1 k
          { z with clk := { z.clk with gateAt := SMap.ins z.clk.gateAt k z.now } })
        (s.accepted (if g = 0 then Reg.clkGate0 else Reg.clkGate1) b)))
    ∧ (∀ (s : State) (k : Nat),
      let z := (s.clrBlockFlag Reg.clkGate0 Reg.clkGate1 k).clrBlockFlag Reg.clkGateClosed0 Reg.clkGateClosed1 k
      (s.gated k = true → s.gateFree k = { z with clk := { z.clk with
          gateAt := SMap.del z.clk.gateAt k, resume := SMap.ins (SMap.del z.clk.resume k) k (s.now + 4 * s.domainDiv (itemDomain k)) } })
        ∧ (s.gated k = false → s.resuming k = true → s.gateFree k = s)
        ∧ (s.gated k = false → s.resuming k = false → s.gateFree k = { z with clk := { z.clk with
          gateAt := SMap.del z.clk.gateAt k, resume := SMap.del z.clk.resume k } }))
    ∧ ∀ (s : State) (k : Fin 36),
      let shut (s : State) : State := State.setBlockFlag { s with clk := { s.clk with gateAt := SMap.del s.clk.gateAt k.val } }
        Reg.clkGateClosed0 Reg.clkGateClosed1 k.val
      let mine := s.clk.waiting.filter fun a => blockOf a.off == k.val
      let others := s.clk.waiting.filter fun a => blockOf a.off != k.val
      let z := mine.foldl (fun (s : State) a => s.busError a.master.val a.off a.write.isSome)
        { s with clk := { s.clk with waiting := others } }
      (s.gateDue k.val = none → exec (.gateClose k) s = .next s ∧ exec (.gateTimeout k) s = .next s)
        ∧ ∀ t, s.gateDue k.val = some t →
          (s.accessWaits k.val = false → exec (.gateClose k) s = .next (shut s))
          ∧ (s.accessWaits k.val = true → exec (.gateClose k) s = .next s)
          ∧ (t + 8192 ≤ s.now → exec (.gateTimeout k) s = .next (((shut z).setBlockFlag Reg.clkGateTo0 Reg.clkGateTo1 k.val).event 10))
          ∧ (s.now < t + 8192 → exec (.gateTimeout k) s = .next s)

/-- Reset sources and releases (18 R391 to R401, 15 R330, 20 R414); unmet conditions: log entry 13, the model's choice. -/
def Obligations.ResetSourcesAndReleases : Prop :=
  (∀ s : State,
      exec .porAndBrownOut s = .next (s.porReset 1 false)
      ∧ (s.clk.rootStable = true → exec .rootLockLoss s = .next (s.porReset 2 true))
      ∧ ((s.rst.por = true ∧ s.rst.nrstPin = true) → exec .porRelease s = .next { s with rst := { s.rst with por := false } })
      ∧ ((s.rst.por = false ∨ s.rst.nrstPin = false) → exec .porRelease s = .next s)
      ∧ (let low : State := { s with rst := { s.rst with nrstPin := false } }
        let t := low.wideReset false 3
        ((s.rst.por = true ∨ s.rst.nrst = true) → exec .nrst s = .next low)
          ∧ ((s.rst.por = false ∧ s.rst.nrst = false) → exec .nrst s = .next { t with rst := { t.rst with nrst := true } }))
      ∧ exec .nrstRelease s = .next { s with rst := { s.rst with nrst := false, nrstPin := true } }
      ∧ (let low : State := { s with rst := { s.rst with perst := true } }
        (s.rst.perst = true → exec .perst s = .next s)
          ∧ ((s.rst.perst = false ∧ s.rst.por = true) → exec .perst s = .next low)
          ∧ ((s.rst.perst = false ∧ s.rst.por = false) → exec .perst s = .next ((low.endpointReset.cause 7).event 35)))
      ∧ (let high : State := { s with rst := { s.rst with perst := false } }
        exec .perstRelease s = .next (if high.canRelease 37 = true then high.releaseItem 37 [] [] else high))
      ∧ exec .flr s = .next (if s.hostPath = true then (s.endpointReset.cause 8).setReg Reg.hstLink (s.reg Reg.hstLink) else s)
      ∧ (let at_ (m : SMap Byte) (k : Nat) : Byte := SMap.get (fun _ => 0) m k
        let opt (k : Nat) : Byte := let a := at_ s.rst.otp0 k; let b := at_ s.rst.otp1 k; let c := at_ s.rst.otp2 k;
          (a &&& b) ||| (a &&& c) ||| (b &&& c)
        let apart (k : Nat) : Nat := let a := at_ s.rst.otp0 k; let b := at_ s.rst.otp1 k; let c := at_ s.rst.otp2 k;
          ((List.range 8).filter fun i => a.getLsbD i != b.getLsbD i || a.getLsbD i != c.getLsbD i).length
        let due := (s.rst.por = false ∧ s.rst.nrst = false) ∧ s.rst.loaded = false ∧ s.clk.stable.getLsbD 5 = true
        (due → exec .optionLoader s = .next (State.setReg { s with rst := { s.rst with
            loaded := true, opt := SMap.listed (fun _ => (0 : Byte)) 0 ((List.range 256).map opt) } } Reg.optStatus
            (word (min 0xFFFF ((List.range 256).foldl (fun n k => n + apart k) 0)))))
          ∧ (¬ due → exec .optionLoader s = .next s))
      ∧ ∀ (i : Fin 40) (copyA copyB : List Byte),
        let first := [39, 27, 33, 34, 38, 37, 36, 26]
        (s.canRelease i.val = false → exec (.blockRelease i copyA copyB) s = .next s)
          ∧ (s.canRelease i.val = true → i.val ∉ first → exec (.blockRelease i copyA copyB) s = .next (s.releaseItem i.val copyA copyB))
          ∧ (s.canRelease i.val = true → i.val ∈ first → exec (.blockRelease i copyA copyB) s =
            .next (first.foldl (fun s j => if s.canRelease j then s.releaseItem j copyA copyB else s) s)))
    ∧ (∀ (s : State) (b : BusWrite),
      let key := bits b.value.toNat 31 16
      (s.busOk Reg.secCtrl b = true → exec (.secReset b) s =
        .next (if (b.master.val = 0 ∧ b.value.getLsbD 0 = true) ∧ key = 0x5352 then (s.accepted Reg.secCtrl b).wideReset true 4
          else s.accepted Reg.secCtrl b))
      ∧ (s.busOk Reg.rstDevice b = true → exec (.rstDeviceGo b) s =
        .next (if ((b.master.val = 0 ∨ b.master.val = 16) ∧ b.value.getLsbD 0 = true) ∧ key = 0x5253 then (s.accepted Reg.rstDevice b).narrowReset 6
          else s.accepted Reg.rstDevice b))
      ∧ (s.busOk Reg.secLifecycle b = true →
        let z := s.accepted Reg.secLifecycle b
        let l := s.lifecycle
        let bit := if 2 ≤ l then 2 else if 1 ≤ l then 1 else 0
        exec (.lifecycleAdvance b) s = .next (if ((b.master.val = 0 ∧ b.value.getLsbD 4 = true) ∧ key = 0x4C43) ∧ l < 4 then
          (z.otpProgram 96 bit).wideReset true 4 else z))
      ∧ (s.busOk Reg.rstBootHold b = true →
        let z := s.accepted Reg.rstBootHold b
        let open_ : State := { z with rst := { z.rst with boot := 0, bootHold := false } }
        exec (.bootHoldRelease b) s = .next (if (b.master.val = 0 ∧ b.value.getLsbD 31 = true) ∧ s.rst.bootHold = true then
          ((List.range 36).foldl (fun s k => if s.canRelease k then s.releaseItem k [] [] else s) open_).event 11 else z)))
    ∧ ∀ (s : State) (g : Fin 2) (b : BusWrite),
      let off := if g = 0 then Reg.rstBlock0 else Reg.rstBlock1
      let fixed : Word := if g = 0 ∧ b.master.val ≠ 0 then 0x0C000000 else 0
      let z := s.accepted off b
      let old := z.reg off
      let w := z.store off ((b.value &&& ~~~ fixed) ||| (old &&& fixed))
      let new := w.reg off
      let rise := (new &&& ~~~ old).toNat * 2 ^ (32 * g.val)
      let fall := (old &&& ~~~ new).toNat * 2 ^ (32 * g.val)
      let u : State := { w with rst := { w.rst with
        written := (w.rst.written &&& ~~~ BitVec.ofNat 36 rise) ||| BitVec.ofNat 36 fall } }
      let fresh := BitVec.ofNat 40 rise &&& ~~~ u.rst.held
      s.busOk off b = true → exec (.rstBlockWrite g b) s = .next ((List.range 32).foldl (fun s i =>
        let k := 32 * g.val + i
        if fall.testBit k = true ∧ s.canRelease k = true then s.releaseItem k [] [] else s)
        (if fresh = 0 then u else u.assertReset fresh false true))

/-- What resets leave (18 R391, R392, R398, Tables RST-1 and RST-2). -/
def Obligations.ResetsEraseWhatTheyCover : Prop :=
  (∀ (s : State) (m : BitVec 40) (security keep : Bool),
      let t := s.assertReset m security keep
      (∀ i, m.getLsbD i = true → t.up i = false)
      ∧ (∀ i off, m.getLsbD i = true → itemReg i off = true → t.reg off = regReset off)
      ∧ (m.getLsbD 5 = true → t.dec = {}) ∧ (m.getLsbD 19 = true → t.plc = {}) ∧ (m.getLsbD 22 = true → t.fin = {})
      ∧ (m.getLsbD 25 = true → t.cal = {}) ∧ (m.getLsbD 28 = true → t.sat = {}) ∧ (m.getLsbD 29 = true → t.blt = {})
      ∧ (m.getLsbD 36 = true → t.sec = {}) ∧ (m.getLsbD 38 = true → t.host.mboxHeld = [])
      ∧ (m.getLsbD 34 = true → t.host.extents = []) ∧ (m.getLsbD 37 = true → t.host.cfg = {} ∧ t.host.msixPend = 0)
      ∧ (m.getLsbD 26 = true → t.dmc = { dram := t.dmc.dram, poison := t.dmc.poison, soft := t.dmc.soft, selfRefresh := t.dmc.selfRefresh })
      ∧ (m.getLsbD 18 = true → t.seq =
          if keep = true then { frame := t.seq.frame, flipWall := t.seq.flipWall, slotAt := s.now } else { slotAt := s.now }))
    ∧ (∀ (s : State) (security : Bool) (c : Nat), c < 32 →
      let t := s.wideReset security c
      (∀ i, i < 40 → t.up i = false) ∧ t.flag Reg.rstCause c = true
        ∧ (∀ off, itemReg (blockOf off) off = true → t.reg off = regReset off)
        ∧ t.seq = { slotAt := s.now } ∧ t.rst.loaded = false ∧ t.rst.opt = [] ∧ t.rst.bootHold = true
        ∧ ∀ i, (0x9F3FFFFFF : BitVec 40).getLsbD i = true → t.rst.boot.getLsbD i = true)
    ∧ (∀ (s : State) (c : Nat), c < 32 →
      let t := s.narrowReset c
      (∀ i, (i ≤ 32 ∨ i = 36) → t.up i = false) ∧ t.flag Reg.rstCause c = true
        ∧ (∀ off, (blockOf off ≤ 32 ∨ blockOf off = 36) → t.reg off = regReset off)
        ∧ t.rst.bootHold = true ∧ ∀ i, i ≤ 32 → i ≠ 26 → i ≠ 27 → t.rst.boot.getLsbD i = true)
    ∧ ∀ (s : State) (c : Nat) (lost : Bool), c < 32 →
      let t := s.porReset c lost
      ((t.pending = s.pending ∧ t.now = s.now) ∧ (∀ i, i < 40 → t.up i = false) ∧ t.rst.por = true ∧ t.rst.loaded = false)
        ∧ ((t.rst.otp0 = s.rst.otp0 ∧ t.rst.otp1 = s.rst.otp1 ∧ t.rst.otp2 = s.rst.otp2)
          ∧ t.rst.nrstPin = s.rst.nrstPin ∧ t.rst.perst = s.rst.perst ∧ t.host.gpioIn = s.host.gpioIn)
        ∧ ((t.dmc = {} ∧ t.clk = {} ∧ t.lanes = [] ∧ t.syn = {}) ∧ t.seq = {} ∧ t.sec = {} ∧ t.tlk = {} ∧ t.rpt = {})
        ∧ (∀ off, off ≠ Reg.rstCause → off ≠ Reg.clkStatus → t.reg off = regReset off)
        ∧ t.reg Reg.rstCause = (if s.rst.por = true then s.reg Reg.rstCause else word (2 ^ c))
        ∧ t.flag Reg.clkStatus 31 = lost

/-- Temperatures, the ask, the stages and the trip (19 R406 to R411); unmet conditions: log entry 13, the mean, the hottest source and the move from stage 2:
log entry 65, the model's choices. -/
def Obligations.ThermalSourcesStagesAndTrips : Prop :=
  (∀ s : State,
      (∀ (k : Fin 32) (raw : Word) (temp : Option (BitVec 16)),
        let c := s.source k.val
        let gap := if s.sensorFast k.val = true then 160000 else 1600000
        let due := s.live 30 = true ∧ ∀ t, c.at_ = some t → t + gap ≤ s.now
        (¬ due → exec (.sensorConversion k raw temp) s = .next s)
          ∧ (due → exec (.sensorConversion k raw none) s = .next (((s.setSource k.val { c with at_ := some s.now }).markBad k.val).thmRefresh))
          ∧ (due → ∀ t, exec (.sensorConversion k raw (some t)) s = .next (State.thmRefresh
            (let same := if c.seen = true ∧ c.raw = raw then c.same + 1 else 0
            let z := s.setSource k.val { c with seen := true, raw := raw, same := same, last := t.toInt, at_ := some s.now }
            if (t.toInt < -640 ∨ 2400 < t.toInt) ∨ 1024 ≤ same then z.markBad k.val else z))))
      ∧ (let rate : Int := bits s.thm.lim.rate.toNat 15 8
        let test (s : State) (k : Nat) : State :=
          let c := s.source k
          if s.sourceValid k = false then s.setSource k { c with hist := [], passes := 0 }
          else
            let pass := c.hist[9]?.any fun old => decide (old + rate ≤ s.sourceT k)
            s.setSource k { c with hist := (s.sourceT k :: c.hist).take 10, passes := if pass = true then c.passes + 1 else 0 }
        let z := (List.range 48).foldl test { s with thm := { s.thm with rateAt := s.now } }
        let stands := (List.range 48).any fun k => z.sourceIn k && decide (20 ≤ (z.source k).passes)
        ((s.live 30 = true ∧ s.thm.rateAt + 160000000 ≤ s.now) → exec .rateTest s = .next (z.setFld Reg.thmStatus 29 29 (bnat stands)))
          ∧ ((s.live 30 = false ∨ s.now < s.thm.rateAt + 160000000) → exec .rateTest s = .next s))
      ∧ (let stale (s : State) (n : Nat) : State :=
          let t := s.tile n
          let old := t.statusAt.all fun x => decide (x + 160000000 < s.now)
          if t.st = .linked ∧ (old = true ∨ s.sourceT (32 + n) < -640 ∨ 2400 < s.sourceT (32 + n)) then s.markBad (32 + n) else s
        let lim : ThmLim := { ctrl := s.regBefore Reg.thmCtrl, timing := s.regBefore Reg.thmTiming, die := s.regBefore Reg.thmDieLim
                              tile := s.regBefore Reg.thmTileLim, rate := s.regBefore Reg.thmRate }
        let z := (List.range 16).foldl stale { s with thm := { s.thm with lim := lim, tickAt := s.now } }
        ((s.live 30 = true ∧ s.thm.tickAt + 160000 ≤ s.now) → exec .thmTick s = .next (z.thmRefresh.askTick.stageTick.tripTick))
          ∧ ((s.live 30 = false ∨ s.now < s.thm.tickAt + 160000) → exec .thmTick s = .next s))
      ∧ (∀ (k : Fin 32) (temp : BitVec 16),
        let limit : Int := if s.up 30 = true then s.thmLimit 0 16 else 1888
        let z := s.setSource k.val { s.source k.val with fires := decide (limit ≤ temp.toInt) }
        exec (.comparatorFire k temp) s = .next (if temp.toInt < limit then z
          else if s.up 30 = true then (if s.flag Reg.thmStatus 31 = true then z else z.tripNow)
          else if s.tlk.trip = true then z else z.tlkTrip)))
    ∧ (∀ s : State,
      let cause := (s.anyAt 0 = true ∨ s.rateStands = true) ∨ s.badSources ≠ []
      let quiet := (s.rateStands = false ∧ s.badSources = [])
        ∧ ((List.range 48).all fun k => !s.sourceIn k || decide (s.sourceValue k < s.thmLimit k 0 - s.thmHyst)) = true
      (s.thm.askAt = none → s.askTick = if cause then
          (State.setFlag { s with thm := { s.thm with askAt := some s.now, escAt := s.now } } Reg.thmStatus 30).event 0 else s)
        ∧ (s.thm.askAt ≠ none → s.askTick = if quiet then
          State.clrFlag { s with thm := { s.thm with askAt := none, askEnd := s.now } } Reg.thmStatus 30 else s))
    ∧ (∀ s : State,
      let hold := s.flag Reg.avsStatus 31 = true
      let quiet := s.thm.askAt = none ∧ max s.thm.askEnd s.thm.downAt + 1600000 * max 1 (bits s.thm.lim.timing.toNat 15 0) ≤ s.now
      let grace := s.thm.askAt.any fun t => decide (t + 1600000 * bits s.thm.lim.ctrl.toNat 15 0 ≤ s.now)
      let long := s.thm.askAt ≠ none ∧ s.thm.escAt + 1600000 * bits s.thm.lim.timing.toNat 31 16 ≤ s.now
      let down : State := { s with thm := { s.thm with downAt := s.now } }
      let move (s : State) (n : Nat) : State := (s.setFld Reg.thmStatus 27 26 n).setFld Reg.clkEngine 10 8 (4 + n)
      (s.thmStage = 0 → s.stageTick = if (grace = true ∨ 2 ≤ s.badSources.length) ∨ hold then
          (move { s with thm := { s.thm with escAt := s.now } } 1).event 1 else s)
        ∧ (s.thmStage = 1 → s.stageTick = if s.anyAt 8 = true ∨ long then (move s 2).event 2
          else if quiet ∧ ¬ hold then (move down 0).event 4 else s)
        ∧ (2 ≤ s.thmStage → s.stageTick = if quiet ∧ s.tlk.trip = false then (move down 1).event 1 else s))
    ∧ (∀ s : State,
      let hot := (s.dieBad = true ∨ s.compFires = true)
        ∨ ((List.range 48).any fun k => s.sourceValid k && decide (s.thmLimit k 16 ≤ s.sourceT k)) = true
      let cool := (allSources.all fun k => !s.sourceValid k || decide (s.sourceT k < s.thmLimit k 16 - s.thmHyst)) = true
      let since := s.thm.coolAt.getD s.now
      let ends := ((cool ∧ since + 1600000000 ≤ s.now) ∧ s.compFires = false ∧ s.dieBad = false)
        ∧ (s.flag Reg.thmCtrl 30 = false ∨ s.thm.tripClr = true)
      let z : State := { s with thm := { s.thm with coolAt := if cool then some since else none } }
      let starts := hot ∧ s.flag Reg.thmStatus 31 = false
      (starts → s.tripTick = s.tripNow)
        ∧ (¬ starts → s.tlk.trip = false → s.tripTick = s)
        ∧ (¬ starts → s.tlk.trip = true → s.tripTick = if ends then
          State.clrFlag { z with tlk := { z.tlk with trip := false } } Reg.thmStatus 31 else z)
        ∧ s.tripNow = ((((State.tlkTrip { s with thm := { s.thm with coolAt := none, tripClr := false } }).setFlag Reg.thmStatus 31).event 3).setFld
          Reg.thmStatus 27 26 2).setFld Reg.clkEngine 10 8 6)
    ∧ (∀ (s : State) (b : BusWrite), s.busOk Reg.thmCtrl b = true →
      let z := (s.accepted Reg.thmCtrl b).store Reg.thmCtrl b.value
      exec (.tripClr b) s = .next (if b.value.getLsbD 31 = true ∧ z.tlk.trip = true then { z with thm := { z.thm with tripClr := true } } else z))
    ∧ ∀ (s : State) (tiles : Bool) (b : BusWrite),
      let off := if tiles = true then Reg.thmBad1 else Reg.thmBad0
      let z := s.accepted off b
      s.busOk off b = true → exec (.thmBadClear tiles b) s = .next (State.thmRefresh ((List.range 32).foldl (fun u k =>
        if ((z.reg off).getLsbD k = true ∧ u.flag off k = false) ∧ tiles = false then
          u.setSource k { u.source k with same := 0 } else u) (z.store off b.value)))

/-- The core voltage loop (19 R402 to R405); unmet conditions: log entry 13, the slack of no domain, AT_MAX and a failed write:
log entry 66, the model's choices. -/
def Obligations.CoreVoltageLoop : Prop :=
  (∀ (s : State) (c f e : BitVec 8) (acc : Bool),
      let due := ((s.live 31 = true ∧ s.clk.rootStable = true) ∧ s.flag Reg.avsCtrl 0 = true ∧ s.flag Reg.avsStatus 31 = false)
        ∧ s.avs.stepAt + 160000 ≤ s.now
      let z : State := { s with avs := { s.avs with stepAt := s.now } }
      let sl := z.leastSlack c f e
      (¬ due → ∀ back, exec (.avsStep c f e back acc) s = .next s)
        ∧ (due → s.avs.started = true → ∀ back,
          exec (.avsStep c f e back acc) s = .next (z.avsStepFrom (s.fld Reg.avsStatus 11 0) sl acc).drawn)
        ∧ (due → s.avs.started = false → exec (.avsStep c f e none acc) s = .next z.avsFail)
        ∧ (due → s.avs.started = false → ∀ mv,
          exec (.avsStep c f e (some mv) acc) s = .next (z.avsStepFrom (2 * mv.toNat / 5 * 5) sl acc).drawn)
        ∧ (s.flag Reg.avsCpmEn 0 = true → sl ≤ c.toNat) ∧ (s.flag Reg.avsCpmEn 1 = true → sl ≤ f.toNat)
        ∧ (s.flag Reg.avsCpmEn 2 = true → sl ≤ e.toNat)
        ∧ (s.flag Reg.avsCpmEn 0 = true ∨ s.flag Reg.avsCpmEn 1 = true ∨ s.flag Reg.avsCpmEn 2 = true →
          (s.flag Reg.avsCpmEn 0 = true ∧ sl = c.toNat) ∨ (s.flag Reg.avsCpmEn 1 = true ∧ sl = f.toNat)
            ∨ (s.flag Reg.avsCpmEn 2 = true ∧ sl = e.toNat)))
    ∧ (∀ (s : State) (v sl : Nat) (acc : Bool),
      let low := s.fld Reg.avsSlack 7 0
      let vmax := s.fld Reg.avsLimits 27 16
      let rises := sl < low ∧ v < vmax
      let falls := (s.fld Reg.avsSlack 15 8 < sl ∧ s.fld Reg.avsLimits 11 0 < v)
        ∧ (s.clk.engineDiv = 4 ∨ s.fld Reg.avsVhold 11 0 + 5 ≤ v)
      let v' := if s.clk.switch ≠ none then v else if rises then v + 5 else if falls then v - 5 else v
      let top := sl < low ∧ vmax ≤ v
      let a := if sl < s.fld Reg.avsSlack 23 16 then s.event 8 else s
      let b := (State.setFld (if top then a.event 6 else a) Reg.avsStatus 30 30 (if top then 1 else 0)).setFld Reg.avsStatus 23 16 sl
      let on := State.setFld { b with avs := { b.avs with started := true, written := some (v' / 2) } } Reg.avsStatus 11 0 v'
      s.avsStepFrom v sl acc = if b.avs.written ≠ some (v' / 2) ∧ acc = false then b.avsFail
        else if on.clk.engineDiv = 4 then on.setFld Reg.avsVhold 11 0 v' else on)
    ∧ (∀ s : State, s.avsFail = (State.setFlag { s with avs := { s.avs with started := false } } Reg.avsStatus 31).event 7)
    ∧ (∀ s : State, ∀ vin iout temp,
      let z : State := { s with avs := { s.avs with pmbAt := s.now } }
      ((s.live 31 = true ∧ s.avs.pmbAt + 16000000 ≤ s.now) →
          exec (.pmbusTelemetry true vin iout temp) s = .next ((z.setReg Reg.avsTelem0 (word (vin.toNat * 65536 + iout.toNat))).setReg
            Reg.avsTelem1 (word (2147483648 + temp.toNat)))
          ∧ exec (.pmbusTelemetry false vin iout temp) s = .next (z.clrFlag Reg.avsTelem1 31))
        ∧ ((s.live 31 = false ∨ s.now < s.avs.pmbAt + 16000000) → ∀ good, exec (.pmbusTelemetry good vin iout temp) s = .next s))
    ∧ ∀ (s : State) (b : BusWrite),
      let vmax := bits b.value.toNat 27 16
      let vmin := bits b.value.toNat 11 0
      (s.busOk Reg.avsCtrl b = true →
        let w := (s.accepted Reg.avsCtrl b).store Reg.avsCtrl b.value
        let u : State := if b.value.getLsbD 0 = false ∨ b.value.getLsbD 31 = true then { w with avs := { w.avs with started := false } } else w
        exec (.avsResume b) s = .next (if b.value.getLsbD 31 = true then u.clrFlag Reg.avsStatus 31 else u))
      ∧ (s.busOk Reg.avsLimits b = true → exec (.avsLimitsWrite b) s =
        .next (if 1240 ≤ vmin ∧ vmin ≤ vmax ∧ vmax ≤ 1640 then (s.accepted Reg.avsLimits b).store Reg.avsLimits b.value
          else s.accepted Reg.avsLimits b))

/-- The Registrar (20 R415 to R427); unmet conditions: log entry 13, the model's choice. -/
def Obligations.ImagesReportsAndKeys : Prop :=
  (∀ s : State, (s.sec.complete = [] → exec .imageVerification s = .next s) ∧ ∀ src rest, s.sec.complete = src :: rest →
      let rom := s.flag Reg.secStatus 30 = true ∧ s.flag Reg.secStatus 31 = false
      let a := (s.imagePlace src).1
      let room := (s.imagePlace src).2
      let ready := ((s.registrarRuns = true ∨ (s.up 36 = true ∧ rom)) ∧ s.mboxStalled 0 = false) ∧ s.memReady 0 a room = true
      let head := s.devRead 0 a (min 128 room)
      let h := imageHead head.2.1
      let free (i : Nat) : Nat := (Config.freeWord s.draws i).toNat
      let open_ : List Byte := leBytes 4 (free 2) ++ leBytes 4 (free 3) ++ leBytes 4 (free 4)
      let done (s : State) : State := { s with sec := { s.sec with complete := rest } }
      let all := head.1.devRead 0 a (2948 + h.len)
      let c := all.1.imageCheck all.2.1 (if rom then true else false)
      let decodes := h.comp = true ∧ (c.1 = 0 ∨ c.1 = 6)
      let z := if decodes then (done all.1).registrarDecode all.2.1 else done all.1
      let busy := decodes ∧ (s.live 28 = false ∨ s.flag (Reg.hstMbox0w 1) 31 = true)
      (¬ ready → exec .imageVerification s = .next s)
        ∧ (ready → head.2.2 = false → exec .imageVerification s = .next ((done head.1).drawn.imageEnd src (free 0) (free 1 % 65536) 9 open_))
        ∧ (ready → head.2.2 = true → room < 2948 + h.len → exec .imageVerification s = .next ((done head.1).drawn.imageEnd src
          (if room < 128 then free 0 else h.type) (if room < 128 then free 1 % 65536 else h.svn) 1 open_))
        ∧ (ready → head.2.2 = true → 2948 + h.len ≤ room →
          (all.2.2 = false → exec .imageVerification s = .next ((done all.1).drawn.imageEnd src h.type h.svn 9 open_))
          ∧ (all.2.2 = true → busy → exec .imageVerification s = .next s)
          ∧ (all.2.2 = true → ¬ busy → exec .imageVerification s = .next (
            if c.1 ≠ 0 then z.imageEnd src h.type h.svn c.1 (imageDigest all.2.1)
            else if rom then (z.firmwareStart all.2.1 c.2).imageEnd src 0 h.svn 0 (imageDigest all.2.1)
            else z.imageVerified src all.2.1 c.2))))
    ∧ (∀ (s : State) (bs : List Byte) (rom : Bool),
      let h := imageHead bs
      let key := slice bs 64 64
      let c := s.imageCheck bs rom
      let format := s.imageFormat bs rom = true ∧ (h.bound = true → h.serial = s.serial)
      let root := (List.range 32).map (fun i => BitVec.ofNat 8 (s.optByte ((if h.root = 0 then 32 else 64) + i)))
      (¬ format → c.1 = 1) ∧ (format → s.rootUsable h = false → c.1 = 2)
        ∧ (format → s.rootUsable h = true → shake256 key 32 ≠ root → c.1 = 3)
        ∧ (format → s.rootUsable h = true → shake256 key 32 = root → h.svn < s.minSvn → c.1 = 4)
        ∧ (format → s.rootUsable h = true → shake256 key 32 = root → s.minSvn ≤ h.svn →
          xmssVerify key (bs.take (128 + h.len)) (slice bs (128 + h.len) 2820) = false → c.1 = 5)
        ∧ (c.1 = 0 ∧ h.comp = false → c.2 = (bs.drop 128).take h.len)
        ∧ (c.1 = 0 ∧ h.comp = true → c.2 = (satDecode ((bs.drop 128).take h.len) h.rawLen).out ∧ c.2.length = h.rawLen))
    ∧ (∀ (s : State) (src : ImageSrc) (bs payload : List Byte),
      let h := imageHead bs
      let d := imageDigest bs
      let n := s.bump (Reg.secCnt 0)
      let ended (o : Option PendImage) : State := o.elim n fun q => n.imageEnd q.src q.type q.svn 8 q.digest
      (h.type = 1 → s.imageVerified src bs payload = { ended n.sec.kernel with sec := { (ended n.sec.kernel).sec with
          kernel := some ⟨src, 1, h.dest, payload, h.svn, d⟩ } })
        ∧ (h.type = 2 → s.imageVerified src bs payload = { ended n.sec.program with sec := { (ended n.sec.program).sec with
          program := some ⟨src, 2, h.dest, payload, h.svn, d⟩ } })
        ∧ (h.type = 3 → s.imageVerified src bs payload = if (n.devWrite 0 h.dest payload).2 = true then
          (n.devWrite 0 h.dest payload).1.imageLoaded src 3 h.svn d else (n.devWrite 0 h.dest payload).1.imageEnd src 3 h.svn 9 d)
        ∧ (h.type = 4 → s.imageVerified src bs payload = if s.isReturn = true then
          (n.setFlag Reg.secStatus 29).imageLoaded src 4 h.svn d else n.imageEnd src 4 h.svn 1 d))
    ∧ (∀ s : State, (s.sec.program = none → exec .frameProgramApply s = .next s) ∧ ∀ p, s.sec.program = some p →
      let due := (((s.registrarRuns = true ∧ s.mboxStalled 0 = false) ∧ s.up 18 = true) ∧ s.sec.kernel = none) ∧ (s.inFrame = true ∧ 432 ≤ s.seq.slot ∧ s.seq.slot < 446)
        ∧ (s.seq.st = .inFlip ∨ s.seq.st = .stopped ∨ s.seq.st = .halted)
      let z : State := { s.noteSram 4 (p.dest / 8) ((p.dest + p.code.length + 7) / 8) with sec := { s.sec with program := none }, seq := { s.seq with
        prog := storeCode s.seq.prog 0 p.dest p.code
        bad := s.seq.bad.filter fun w => w < p.dest / 8 || (p.dest + p.code.length + 7) / 8 ≤ w } }
      (due → exec .frameProgramApply s = .next (z.imageLoaded p.src 2 p.svn p.digest)) ∧ (¬ due → exec .frameProgramApply s = .next s))
    ∧ (∀ (s : State) (m : Nat) (x : List Byte), s.extend m x =
      (List.range 8).foldl (fun t w => t.setReg (Reg.secMeas m w) (word (leAt (shake256 (s.meas m ++ x) 32) (4 * w) 4))) s)
    ∧ (∀ (s : State) (cache : List Byte), (s.sec.reports = [] → exec (.measurementReport cache) s = .next s)
      ∧ ∀ x xs, s.sec.reports = x :: xs →
        let ready := (s.registrarRuns = true ∧ s.mboxStalled 0 = false) ∧ s.memReady 0 (winAddr x) 3200 = true
        let z : State := { s with sec := { s.sec with reports := xs } }
        let refused := (z.isReturn = true ∨ z.isDead = true) ∨ z.bufLen x < 3148
        let t := z.takeLeaf (xSplit 1024 cache)
        let signed (leaf : Nat) : State :=
          let msg := t.1.reportMessage leaf
          let sig := xmssSign (attPart 0x53) (attPart 0x50) (attPart 0x55) attRoot (xSplit 1024 cache) leaf msg
          State.secResult (((t.1.returnFilled 0 x 0 (msg ++ sig)).bump (Reg.secCnt 3)).event 15) 0 2 0 x leaf (shake256 msg 32)
        (¬ ready → exec (.measurementReport cache) s = .next s)
          ∧ (ready → refused → exec (.measurementReport cache) s = .next (z.reportFail x 10))
          ∧ (ready → ¬ refused → exec (.measurementReport cache) s = .next (t.2.1.elim (t.1.reportFail x t.2.2) signed)))
    ∧ (∀ (s : State) (cache : List (List Byte)) (n e : Nat), s.sec.leaf = some (n, e) → n < e →
      s.takeLeaf cache = (State.setReg { s with sec := { s.sec with leaf := some (n + 1, e) } } Reg.secLeaf
        (word (2 ^ 31 + (n + 1) % 2 ^ 20)), some n, 0))
    ∧ (∀ (s : State) (cache : List (List Byte)), (∀ n e, s.sec.leaf = some (n, e) → e ≤ n) →
      let found := (List.range 1024).find? fun k => !(s.optByte (128 + k / 8)).testBit (k % 8)
      let good := s.sec.treeChecked = true ∨ xCacheRoot (attPart 0x55) cache = attRoot
      (s.sec.treeBad = true → s.takeLeaf cache = (s, none, 12))
        ∧ (s.sec.treeBad = false → found = none → s.takeLeaf cache = (s, none, 11))
        ∧ ∀ k, s.sec.treeBad = false → found = some k →
          let z := s.otpProgram (128 + k / 8) (k % 8)
          let w : State := { z with sec := { z.sec with treeChecked := true, leaf := some (1024 * k + 1, 1024 * k + 1024) } }
          s.takeLeaf cache = if good then (State.setReg (if w.blocksFree ≤ 16 then w.event 14 else w) Reg.secLeaf
              (word (2 ^ 31 + (1024 * k + 1) % 2 ^ 20)), some (1024 * k), 0)
            else ({ s with sec := { s.sec with treeBad := true } }, none, 12))
    ∧ ∀ (s : State) (b : BusWrite),
      let words (s : State) (r : Nat → Nat) : List Byte := ((List.range 8).map fun i => leBytes 4 (s.reg (r i)).toNat).flatten
      (s.busOk Reg.secExtend b = true → exec (.secExtendGo b) s = .next (if b.value.getLsbD 0 = true then
          (s.accepted Reg.secExtend b).extend 5 (words (s.accepted Reg.secExtend b) Reg.secExtendData) else s.accepted Reg.secExtend b))
        ∧ (s.busOk Reg.secAsmkeyCtrl b = true →
          let z := s.accepted Reg.secAsmkeyCtrl b
          let w := z.store Reg.secAsmkeyCtrl b.value
          let key : BitVec 256 := BitVec.ofNat 256 (leNat (words w Reg.secAsmkeyData))
          let slot := w.fld Reg.secAsmkeyCtrl 0 0
          let u : State := { w with cyc := { w.cyc with keys := some (w.cyc.keys.getD (w.sec.key0, w.sec.key1)) } }
          let k : State := if slot = 0 then { u with sec := { u.sec with key0 := some key } } else { u with sec := { u.sec with key1 := some key } }
          exec (.asmkeyCommit b) s = .next (if b.master.val ≠ 0 ∧ b.master.val ≠ 16 then z
            else if b.value.getLsbD 31 = false then w else (k.setFlag Reg.secAsmkeyCtrl (8 + slot)).clrRegs (Reg.secAsmkeyData 0) 8))
end

