-- ==== Sys2Proof/Laws/Maps.lean ====
section
/-!
SUPPORT. Sparse tables: a read after a write, and the canonical form that every operation keeps.
-/
namespace Sys2Proof.Machine

variable {α : Type}

/-! ## Reads after writes -/

@[simp] theorem SMap.get_ins_self (d : Nat → α) (m : SMap α) (k : Nat) (v : α) : SMap.get d (SMap.ins m k v) k = v := by
  induction m with
  | nil => simp [SMap.ins, SMap.get]
  | cons p m ih =>
    unfold SMap.ins
    split
    · simp [SMap.get]
    · split
      · simp [SMap.get]
      · rename_i h
        simp only [SMap.get, ih]
        rw [if_neg fun e => h e.symm]

theorem SMap.get_ins_of_ne (d : Nat → α) (m : SMap α) {k j : Nat} (v : α) (h : j ≠ k) :
    SMap.get d (SMap.ins m k v) j = SMap.get d m j := by
  induction m with
  | nil => simp [SMap.ins, SMap.get, h.symm]
  | cons p m ih =>
    unfold SMap.ins
    split
    · simp [SMap.get, h.symm]
    · split
      · rename_i e
        subst e
        simp [SMap.get, h.symm]
      · simp only [SMap.get, ih]

@[simp] theorem SMap.get_del_self (d : Nat → α) (m : SMap α) (k : Nat) : SMap.get d (SMap.del m k) k = d k := by
  induction m with
  | nil => rfl
  | cons p m ih =>
    simp only [SMap.del, List.filter] at ih ⊢
    split
    · rename_i h
      simp only [SMap.get, ih]
      rw [if_neg (by simpa using h)]
    · exact ih

theorem SMap.get_filter (d : Nat → α) (m : SMap α) (p : Nat → Bool) (j : Nat) :
    SMap.get d (m.filter fun q => p q.1) j = if p j then SMap.get d m j else d j := by
  induction m with
  | nil => simp [SMap.get]
  | cons q m ih =>
    simp only [List.filter]
    by_cases hq : p q.1 = true
    · simp only [hq, SMap.get]
      by_cases e : q.1 = j
      · subst e; simp [hq]
      · simp only [e, if_false, ih]
    · simp only [Bool.not_eq_true] at hq
      simp only [hq, SMap.get]
      by_cases e : q.1 = j
      · subst e; simp [ih, hq]
      · simp only [e, if_false, ih]

theorem SMap.get_del_of_ne (d : Nat → α) (m : SMap α) {k j : Nat} (h : j ≠ k) :
    SMap.get d (SMap.del m k) j = SMap.get d m j := by
  have := SMap.get_filter d m (fun q => q != k) j
  simpa [SMap.del, h] using this

theorem SMap.get_put [DecidableEq α] (d : Nat → α) (m : SMap α) (k j : Nat) (v : α) :
    SMap.get d (SMap.put d m k v) j = if j = k then v else SMap.get d m j := by
  unfold SMap.put
  by_cases h : j = k
  · subst h
    by_cases e : v = d j <;> simp [e]
  · by_cases e : v = d k
    · simp [e, h, SMap.get_del_of_ne d m h]
    · simp [e, h, SMap.get_ins_of_ne d m v h]

@[simp] theorem SMap.get_put_self [DecidableEq α] (d : Nat → α) (m : SMap α) (k : Nat) (v : α) :
    SMap.get d (SMap.put d m k v) k = v := by simp [SMap.get_put]

theorem SMap.get_append (d : Nat → α) (m m' : SMap α) (j : Nat) :
    SMap.get d (m ++ m') j = if m.any (fun p => p.1 == j) then SMap.get d m j else SMap.get d m' j := by
  induction m with
  | nil => simp
  | cons p m ih =>
    by_cases e : p.1 = j
    · simp [SMap.get, e]
    · have e' : (p.1 == j) = false := by simpa using e
      simp only [List.cons_append, SMap.get, if_neg e, ih, List.any_cons, e', Bool.false_or]

theorem SMap.get_listed [DecidableEq α] (d : Nat → α) (vs : List α) (k j : Nat) :
    SMap.get d (SMap.listed d k vs) j = if h : k ≤ j ∧ j < k + vs.length then vs[j - k]'(by omega) else d j := by
  induction vs generalizing k with
  | nil => simp [SMap.listed, SMap.get]
  | cons v vs ih =>
    unfold SMap.listed
    by_cases hk : j = k
    · subst hk
      by_cases e : v = d j
      · rw [if_pos e, ih]; simp [e]
      · rw [if_neg e]; simp [SMap.get]
    · have key : SMap.get d (SMap.listed d (k + 1) vs) j
          = if h : k ≤ j ∧ j < k + (v :: vs).length then (v :: vs)[j - k]'(by omega) else d j := by
        rw [ih]
        by_cases h : k + 1 ≤ j ∧ j < k + 1 + vs.length
        · have h' : k ≤ j ∧ j < k + (v :: vs).length := by simp; omega
          rw [dif_pos h, dif_pos h']
          have : j - k = (j - (k + 1)) + 1 := by omega
          simp [this]
        · have h' : ¬ (k ≤ j ∧ j < k + (v :: vs).length) := by simp; omega
          rw [dif_neg h, dif_neg h']
      by_cases e : v = d k
      · rw [if_pos e]; exact key
      · rw [if_neg e]
        have hk' : ¬ k = j := fun e => hk e.symm
        simp only [SMap.get, if_neg hk']; exact key

/-- A read after a store of consecutive entries. -/
theorem SMap.get_store [DecidableEq α] (d : Nat → α) (m : SMap α) (k : Nat) (vs : List α) (j : Nat) :
    SMap.get d (SMap.store d m k vs) j
      = if h : k ≤ j ∧ j < k + vs.length then vs[j - k]'(by omega) else SMap.get d m j := by
  have hf : ∀ m' : SMap α, SMap.get d (m'.filter fun p => p.1 < k) j = if j < k then SMap.get d m' j else d j := by
    intro m'; simpa using SMap.get_filter d m' (fun q => decide (q < k)) j
  have hg : SMap.get d (m.filter fun p => k + vs.length ≤ p.1) j
      = if k + vs.length ≤ j then SMap.get d m j else d j := by
    simpa using SMap.get_filter d m (fun q => decide (k + vs.length ≤ q)) j
  have absent : ∀ (m' : SMap α), m'.any (fun p => p.1 == j) = false → SMap.get d m' j = d j := by
    intro m'
    induction m' with
    | nil => intro; rfl
    | cons p m' ih =>
      intro h
      simp only [List.any_cons, Bool.or_eq_false_iff, beq_eq_false_iff_ne] at h
      simp only [SMap.get, if_neg h.1]; exact ih h.2
  unfold SMap.store
  rw [List.append_assoc, SMap.get_append, SMap.get_append, hf, hg, SMap.get_listed]
  by_cases h1 : j < k
  · have h2 : ¬ (k ≤ j ∧ j < k + vs.length) := by omega
    rw [dif_neg h2, dif_neg h2, if_pos h1]
    split
    · rfl
    · rename_i hn
      have hm := absent _ (Bool.eq_false_iff.2 hn)
      rw [hf, if_pos h1] at hm
      have h3 : ¬ k + vs.length ≤ j := by omega
      simp [h3, hm]
  · have hno : (m.filter fun p => p.1 < k).any (fun p => p.1 == j) = false := by
      simp only [List.any_filter, List.any_eq_false]
      intro p _
      simp; omega
    rw [hno, if_neg (by simp)]
    by_cases h2 : k ≤ j ∧ j < k + vs.length
    · rw [dif_pos h2]
      split
      · rfl
      · rename_i hn
        have hm := absent _ (Bool.eq_false_iff.2 hn)
        rw [SMap.get_listed, dif_pos h2] at hm
        have h3 : ¬ k + vs.length ≤ j := by omega
        simp [h3, hm]
    · rw [dif_neg h2, dif_neg h2]
      have hl : (SMap.listed d k vs).any (fun p => p.1 == j) = false := by
        have : ∀ (vs : List α) (k : Nat), ¬ (k ≤ j ∧ j < k + vs.length) →
            (SMap.listed d k vs).any (fun p => p.1 == j) = false := by
          intro vs
          induction vs with
          | nil => intros; rfl
          | cons v vs ih =>
            intro k h
            have h' : ¬ (k + 1 ≤ j ∧ j < k + 1 + vs.length) := by simp at h; omega
            have hk : k ≠ j := by rintro rfl; simp at h
            unfold SMap.listed
            split
            · exact ih _ h'
            · simp [hk, ih _ h']
        exact this vs k h2
      rw [hl, if_neg (by simp), if_pos (by omega)]

/-! ## The canonical form -/

/-- Keys rise: the first is below every other. -/
theorem SMap.rising_iff (m : SMap α) : SMap.rising m = true ↔ m.Pairwise fun p q => p.1 < q.1 := by
  induction m with
  | nil => simp [SMap.rising]
  | cons p m ih =>
    cases m with
    | nil => simp [SMap.rising]
    | cons q m =>
      obtain ⟨a, x⟩ := p
      obtain ⟨b, y⟩ := q
      simp only [SMap.rising, Bool.and_eq_true, decide_eq_true_eq, ih]
      rw [List.pairwise_cons (a := (a, x))]
      constructor
      · rintro ⟨h, hp⟩
        refine ⟨?_, hp⟩
        intro r hr
        rcases List.mem_cons.1 hr with rfl | hr
        · exact h
        · exact Nat.lt_trans h ((List.pairwise_cons.1 hp).1 r hr)
      · rintro ⟨h, hp⟩
        exact ⟨h _ (List.mem_cons_self ..), hp⟩

theorem SMap.wf_iff [DecidableEq α] (d : Nat → α) (m : SMap α) :
    SMap.wf d m = true ↔ (m.Pairwise fun p q => p.1 < q.1) ∧ ∀ p ∈ m, p.2 ≠ d p.1 := by
  simp only [SMap.wf, Bool.and_eq_true, SMap.rising_iff, List.all_eq_true, bne_iff_ne]

theorem SMap.wf_nil [DecidableEq α] (d : Nat → α) : SMap.wf d [] = true := by simp [SMap.wf_iff]

theorem SMap.wf_filter [DecidableEq α] (d : Nat → α) {m : SMap α} (p : Nat × α → Bool) (h : SMap.wf d m = true) :
    SMap.wf d (m.filter p) = true := by
  rw [SMap.wf_iff] at h ⊢
  exact ⟨h.1.filter p, fun q hq => h.2 q (List.mem_of_mem_filter hq)⟩

theorem SMap.mem_ins {m : SMap α} {k : Nat} {v : α} {q : Nat × α} (h : q ∈ SMap.ins m k v) : q = (k, v) ∨ q ∈ m := by
  induction m with
  | nil => simp [SMap.ins] at h; exact .inl h
  | cons p m ih =>
    unfold SMap.ins at h
    split at h
    · simpa using h
    · split at h
      · rcases List.mem_cons.1 h with h | h
        · exact .inl h
        · exact .inr (List.mem_cons_of_mem _ h)
      · rcases List.mem_cons.1 h with h | h
        · exact .inr (h ▸ List.mem_cons_self ..)
        · rcases ih h with h | h
          · exact .inl h
          · exact .inr (List.mem_cons_of_mem _ h)

theorem SMap.wf_ins [DecidableEq α] (d : Nat → α) {m : SMap α} {k : Nat} {v : α} (hv : v ≠ d k)
    (h : SMap.wf d m = true) : SMap.wf d (SMap.ins m k v) = true := by
  rw [SMap.wf_iff] at h ⊢
  refine ⟨?_, fun q hq => ?_⟩
  · have hp := h.1
    clear h
    induction m with
    | nil => simp [SMap.ins]
    | cons p m ih =>
      rw [List.pairwise_cons] at hp
      unfold SMap.ins
      split
      · rename_i hk
        refine List.pairwise_cons.2 ⟨fun q hq => ?_, List.pairwise_cons.2 hp⟩
        rcases List.mem_cons.1 hq with rfl | hq
        · exact hk
        · exact Nat.lt_trans hk (hp.1 q hq)
      · split
        · rename_i e
          refine List.pairwise_cons.2 ⟨fun q hq => ?_, hp.2⟩
          have := hp.1 q hq
          simpa [e] using this
        · rename_i h1 h2
          refine List.pairwise_cons.2 ⟨fun q hq => ?_, ih hp.2⟩
          rcases SMap.mem_ins hq with rfl | hq
          · simp only; omega
          · exact hp.1 q hq
  · rcases SMap.mem_ins hq with rfl | hq
    · exact hv
    · exact h.2 q hq

theorem SMap.wf_put [DecidableEq α] (d : Nat → α) {m : SMap α} (k : Nat) (v : α) (h : SMap.wf d m = true) :
    SMap.wf d (SMap.put d m k v) = true := by
  unfold SMap.put
  split
  · exact SMap.wf_filter d _ h
  · exact SMap.wf_ins d ‹_› h

theorem SMap.mem_listed [DecidableEq α] (d : Nat → α) {vs : List α} {k : Nat} {q : Nat × α}
    (h : q ∈ SMap.listed d k vs) : k ≤ q.1 ∧ q.1 < k + vs.length ∧ q.2 ≠ d q.1 := by
  induction vs generalizing k with
  | nil => simp [SMap.listed] at h
  | cons v vs ih =>
    unfold SMap.listed at h
    split at h
    · have := ih h
      simp only [List.length_cons]; refine ⟨?_, ?_, this.2.2⟩ <;> omega
    · rcases List.mem_cons.1 h with rfl | h
      · rename_i hv
        simp only [List.length_cons]; refine ⟨?_, ?_, hv⟩ <;> simp
      · have := ih h
        simp only [List.length_cons]; refine ⟨?_, ?_, this.2.2⟩ <;> omega

theorem SMap.wf_store [DecidableEq α] (d : Nat → α) {m : SMap α} (k : Nat) (vs : List α) (h : SMap.wf d m = true) :
    SMap.wf d (SMap.store d m k vs) = true := by
  have hl : ∀ (vs : List α) (k : Nat), (SMap.listed d k vs).Pairwise fun p q => p.1 < q.1 := by
    intro vs
    induction vs with
    | nil => intro; simp [SMap.listed]
    | cons v vs ih =>
      intro k
      unfold SMap.listed
      split
      · exact ih _
      · refine List.pairwise_cons.2 ⟨fun q hq => ?_, ih _⟩
        have := (SMap.mem_listed d hq).1
        simp only; omega
  rw [SMap.wf_iff] at h ⊢
  unfold SMap.store
  refine ⟨?_, fun q hq => ?_⟩
  · rw [List.pairwise_append, List.pairwise_append]
    refine ⟨⟨h.1.filter _, hl vs k, ?_⟩, h.1.filter _, ?_⟩
    · intro p hp q hq
      have h1 := (List.mem_filter.1 hp).2
      have h2 := (SMap.mem_listed d hq).1
      simp at h1; omega
    · intro p hp q hq
      have h2 := (List.mem_filter.1 hq).2
      simp at h2
      rcases List.mem_append.1 hp with hp | hp
      · have h1 := (List.mem_filter.1 hp).2
        simp at h1; omega
      · have h1 := (SMap.mem_listed d hp).2.1
        omega
  · rcases List.mem_append.1 hq with hq | hq
    · rcases List.mem_append.1 hq with hq | hq
      · exact h.2 q (List.mem_of_mem_filter hq)
      · exact (SMap.mem_listed d hq).2.2
    · exact h.2 q (List.mem_of_mem_filter hq)

/-- Every write of device memory keeps its canonical form. -/
theorem Memory.wf_store {m : Memory} (a : Nat) (bs : List Byte) (h : Memory.wf m = true) :
    Memory.wf (Memory.store m a bs) = true := SMap.wf_store _ _ _ h

end Sys2Proof.Machine
end

