-- ==== Sys2Proof/Laws/State.lean ====
section
/-!
SUPPORT. What each update of State leaves alone, field by field and read by read, and what a read gives after the update.
-/
namespace Sys2Proof.Machine

/-! ## setReg -/

@[simp] theorem State.setReg_pending (s : State) (off : Nat) (v : Word) : (s.setReg off v).pending = s.pending := rfl
@[simp] theorem State.setReg_now (s : State) (off : Nat) (v : Word) : (s.setReg off v).now = s.now := rfl
@[simp] theorem State.setReg_draws (s : State) (off : Nat) (v : Word) : (s.setReg off v).draws = s.draws := rfl
@[simp] theorem State.setReg_lanes (s : State) (off : Nat) (v : Word) : (s.setReg off v).lanes = s.lanes := rfl
@[simp] theorem State.setReg_asm (s : State) (off : Nat) (v : Word) : (s.setReg off v).asm = s.asm := rfl
@[simp] theorem State.setReg_dec (s : State) (off : Nat) (v : Word) : (s.setReg off v).dec = s.dec := rfl
@[simp] theorem State.setReg_syn (s : State) (off : Nat) (v : Word) : (s.setReg off v).syn = s.syn := rfl
@[simp] theorem State.setReg_seq (s : State) (off : Nat) (v : Word) : (s.setReg off v).seq = s.seq := rfl
@[simp] theorem State.setReg_plc (s : State) (off : Nat) (v : Word) : (s.setReg off v).plc = s.plc := rfl
@[simp] theorem State.setReg_blt (s : State) (off : Nat) (v : Word) : (s.setReg off v).blt = s.blt := rfl
@[simp] theorem State.setReg_sec (s : State) (off : Nat) (v : Word) : (s.setReg off v).sec = s.sec := rfl
@[simp] theorem State.setReg_cam (s : State) (off : Nat) (v : Word) : (s.setReg off v).cam = s.cam := rfl
@[simp] theorem State.setReg_fin (s : State) (off : Nat) (v : Word) : (s.setReg off v).fin = s.fin := rfl
@[simp] theorem State.setReg_tlk (s : State) (off : Nat) (v : Word) : (s.setReg off v).tlk = s.tlk := rfl
@[simp] theorem State.setReg_rpt (s : State) (off : Nat) (v : Word) : (s.setReg off v).rpt = s.rpt := rfl
@[simp] theorem State.setReg_cal (s : State) (off : Nat) (v : Word) : (s.setReg off v).cal = s.cal := rfl
@[simp] theorem State.setReg_sat (s : State) (off : Nat) (v : Word) : (s.setReg off v).sat = s.sat := rfl
@[simp] theorem State.setReg_thm (s : State) (off : Nat) (v : Word) : (s.setReg off v).thm = s.thm := rfl
@[simp] theorem State.setReg_avs (s : State) (off : Nat) (v : Word) : (s.setReg off v).avs = s.avs := rfl
@[simp] theorem State.setReg_dmc (s : State) (off : Nat) (v : Word) : (s.setReg off v).dmc = s.dmc := rfl
@[simp] theorem State.setReg_host (s : State) (off : Nat) (v : Word) : (s.setReg off v).host = s.host := rfl
@[simp] theorem State.setReg_clk (s : State) (off : Nat) (v : Word) : (s.setReg off v).clk = s.clk := rfl
@[simp] theorem State.setReg_rst (s : State) (off : Nat) (v : Word) : (s.setReg off v).rst = s.rst := rfl
@[simp] theorem State.setReg_cyc (s : State) (off : Nat) (v : Word) : (s.setReg off v).cyc = s.cyc := rfl
@[simp] theorem State.setReg_up (s : State) (off : Nat) (v : Word) (b : Nat) : (s.setReg off v).up b = s.up b := rfl

/-! ## setFld -/

@[simp] theorem State.setFld_pending (s : State) (off hi lo v : Nat) : (s.setFld off hi lo v).pending = s.pending := rfl
@[simp] theorem State.setFld_now (s : State) (off hi lo v : Nat) : (s.setFld off hi lo v).now = s.now := rfl
@[simp] theorem State.setFld_draws (s : State) (off hi lo v : Nat) : (s.setFld off hi lo v).draws = s.draws := rfl
@[simp] theorem State.setFld_lanes (s : State) (off hi lo v : Nat) : (s.setFld off hi lo v).lanes = s.lanes := rfl
@[simp] theorem State.setFld_asm (s : State) (off hi lo v : Nat) : (s.setFld off hi lo v).asm = s.asm := rfl
@[simp] theorem State.setFld_dec (s : State) (off hi lo v : Nat) : (s.setFld off hi lo v).dec = s.dec := rfl
@[simp] theorem State.setFld_syn (s : State) (off hi lo v : Nat) : (s.setFld off hi lo v).syn = s.syn := rfl
@[simp] theorem State.setFld_seq (s : State) (off hi lo v : Nat) : (s.setFld off hi lo v).seq = s.seq := rfl
@[simp] theorem State.setFld_plc (s : State) (off hi lo v : Nat) : (s.setFld off hi lo v).plc = s.plc := rfl
@[simp] theorem State.setFld_blt (s : State) (off hi lo v : Nat) : (s.setFld off hi lo v).blt = s.blt := rfl
@[simp] theorem State.setFld_sec (s : State) (off hi lo v : Nat) : (s.setFld off hi lo v).sec = s.sec := rfl
@[simp] theorem State.setFld_cam (s : State) (off hi lo v : Nat) : (s.setFld off hi lo v).cam = s.cam := rfl
@[simp] theorem State.setFld_fin (s : State) (off hi lo v : Nat) : (s.setFld off hi lo v).fin = s.fin := rfl
@[simp] theorem State.setFld_tlk (s : State) (off hi lo v : Nat) : (s.setFld off hi lo v).tlk = s.tlk := rfl
@[simp] theorem State.setFld_rpt (s : State) (off hi lo v : Nat) : (s.setFld off hi lo v).rpt = s.rpt := rfl
@[simp] theorem State.setFld_cal (s : State) (off hi lo v : Nat) : (s.setFld off hi lo v).cal = s.cal := rfl
@[simp] theorem State.setFld_sat (s : State) (off hi lo v : Nat) : (s.setFld off hi lo v).sat = s.sat := rfl
@[simp] theorem State.setFld_thm (s : State) (off hi lo v : Nat) : (s.setFld off hi lo v).thm = s.thm := rfl
@[simp] theorem State.setFld_avs (s : State) (off hi lo v : Nat) : (s.setFld off hi lo v).avs = s.avs := rfl
@[simp] theorem State.setFld_dmc (s : State) (off hi lo v : Nat) : (s.setFld off hi lo v).dmc = s.dmc := rfl
@[simp] theorem State.setFld_host (s : State) (off hi lo v : Nat) : (s.setFld off hi lo v).host = s.host := rfl
@[simp] theorem State.setFld_clk (s : State) (off hi lo v : Nat) : (s.setFld off hi lo v).clk = s.clk := rfl
@[simp] theorem State.setFld_rst (s : State) (off hi lo v : Nat) : (s.setFld off hi lo v).rst = s.rst := rfl
@[simp] theorem State.setFld_cyc (s : State) (off hi lo v : Nat) : (s.setFld off hi lo v).cyc = s.cyc := rfl
@[simp] theorem State.setFld_up (s : State) (off hi lo v : Nat) (b : Nat) : (s.setFld off hi lo v).up b = s.up b := rfl

/-! ## setFlag -/

@[simp] theorem State.setFlag_pending (s : State) (off b : Nat) : (s.setFlag off b).pending = s.pending := rfl
@[simp] theorem State.setFlag_now (s : State) (off b : Nat) : (s.setFlag off b).now = s.now := rfl
@[simp] theorem State.setFlag_draws (s : State) (off b : Nat) : (s.setFlag off b).draws = s.draws := rfl
@[simp] theorem State.setFlag_lanes (s : State) (off b : Nat) : (s.setFlag off b).lanes = s.lanes := rfl
@[simp] theorem State.setFlag_asm (s : State) (off b : Nat) : (s.setFlag off b).asm = s.asm := rfl
@[simp] theorem State.setFlag_dec (s : State) (off b : Nat) : (s.setFlag off b).dec = s.dec := rfl
@[simp] theorem State.setFlag_syn (s : State) (off b : Nat) : (s.setFlag off b).syn = s.syn := rfl
@[simp] theorem State.setFlag_seq (s : State) (off b : Nat) : (s.setFlag off b).seq = s.seq := rfl
@[simp] theorem State.setFlag_plc (s : State) (off b : Nat) : (s.setFlag off b).plc = s.plc := rfl
@[simp] theorem State.setFlag_blt (s : State) (off b : Nat) : (s.setFlag off b).blt = s.blt := rfl
@[simp] theorem State.setFlag_sec (s : State) (off b : Nat) : (s.setFlag off b).sec = s.sec := rfl
@[simp] theorem State.setFlag_cam (s : State) (off b : Nat) : (s.setFlag off b).cam = s.cam := rfl
@[simp] theorem State.setFlag_fin (s : State) (off b : Nat) : (s.setFlag off b).fin = s.fin := rfl
@[simp] theorem State.setFlag_tlk (s : State) (off b : Nat) : (s.setFlag off b).tlk = s.tlk := rfl
@[simp] theorem State.setFlag_rpt (s : State) (off b : Nat) : (s.setFlag off b).rpt = s.rpt := rfl
@[simp] theorem State.setFlag_cal (s : State) (off b : Nat) : (s.setFlag off b).cal = s.cal := rfl
@[simp] theorem State.setFlag_sat (s : State) (off b : Nat) : (s.setFlag off b).sat = s.sat := rfl
@[simp] theorem State.setFlag_thm (s : State) (off b : Nat) : (s.setFlag off b).thm = s.thm := rfl
@[simp] theorem State.setFlag_avs (s : State) (off b : Nat) : (s.setFlag off b).avs = s.avs := rfl
@[simp] theorem State.setFlag_dmc (s : State) (off b : Nat) : (s.setFlag off b).dmc = s.dmc := rfl
@[simp] theorem State.setFlag_host (s : State) (off b : Nat) : (s.setFlag off b).host = s.host := rfl
@[simp] theorem State.setFlag_clk (s : State) (off b : Nat) : (s.setFlag off b).clk = s.clk := rfl
@[simp] theorem State.setFlag_rst (s : State) (off b : Nat) : (s.setFlag off b).rst = s.rst := rfl
@[simp] theorem State.setFlag_up (s : State) (off b : Nat) (b : Nat) : (s.setFlag off b).up b = s.up b := rfl

/-! ## clrFlag -/

@[simp] theorem State.clrFlag_pending (s : State) (off b : Nat) : (s.clrFlag off b).pending = s.pending := rfl
@[simp] theorem State.clrFlag_now (s : State) (off b : Nat) : (s.clrFlag off b).now = s.now := rfl
@[simp] theorem State.clrFlag_draws (s : State) (off b : Nat) : (s.clrFlag off b).draws = s.draws := rfl
@[simp] theorem State.clrFlag_lanes (s : State) (off b : Nat) : (s.clrFlag off b).lanes = s.lanes := rfl
@[simp] theorem State.clrFlag_asm (s : State) (off b : Nat) : (s.clrFlag off b).asm = s.asm := rfl
@[simp] theorem State.clrFlag_dec (s : State) (off b : Nat) : (s.clrFlag off b).dec = s.dec := rfl
@[simp] theorem State.clrFlag_syn (s : State) (off b : Nat) : (s.clrFlag off b).syn = s.syn := rfl
@[simp] theorem State.clrFlag_seq (s : State) (off b : Nat) : (s.clrFlag off b).seq = s.seq := rfl
@[simp] theorem State.clrFlag_plc (s : State) (off b : Nat) : (s.clrFlag off b).plc = s.plc := rfl
@[simp] theorem State.clrFlag_blt (s : State) (off b : Nat) : (s.clrFlag off b).blt = s.blt := rfl
@[simp] theorem State.clrFlag_sec (s : State) (off b : Nat) : (s.clrFlag off b).sec = s.sec := rfl
@[simp] theorem State.clrFlag_cam (s : State) (off b : Nat) : (s.clrFlag off b).cam = s.cam := rfl
@[simp] theorem State.clrFlag_fin (s : State) (off b : Nat) : (s.clrFlag off b).fin = s.fin := rfl
@[simp] theorem State.clrFlag_tlk (s : State) (off b : Nat) : (s.clrFlag off b).tlk = s.tlk := rfl
@[simp] theorem State.clrFlag_rpt (s : State) (off b : Nat) : (s.clrFlag off b).rpt = s.rpt := rfl
@[simp] theorem State.clrFlag_cal (s : State) (off b : Nat) : (s.clrFlag off b).cal = s.cal := rfl
@[simp] theorem State.clrFlag_sat (s : State) (off b : Nat) : (s.clrFlag off b).sat = s.sat := rfl
@[simp] theorem State.clrFlag_thm (s : State) (off b : Nat) : (s.clrFlag off b).thm = s.thm := rfl
@[simp] theorem State.clrFlag_avs (s : State) (off b : Nat) : (s.clrFlag off b).avs = s.avs := rfl
@[simp] theorem State.clrFlag_dmc (s : State) (off b : Nat) : (s.clrFlag off b).dmc = s.dmc := rfl
@[simp] theorem State.clrFlag_host (s : State) (off b : Nat) : (s.clrFlag off b).host = s.host := rfl
@[simp] theorem State.clrFlag_clk (s : State) (off b : Nat) : (s.clrFlag off b).clk = s.clk := rfl
@[simp] theorem State.clrFlag_rst (s : State) (off b : Nat) : (s.clrFlag off b).rst = s.rst := rfl
@[simp] theorem State.clrFlag_cyc (s : State) (off b : Nat) : (s.clrFlag off b).cyc = s.cyc := rfl
@[simp] theorem State.clrFlag_up (s : State) (off b : Nat) (b : Nat) : (s.clrFlag off b).up b = s.up b := rfl

/-! ## bump -/

@[simp] theorem State.bump_pending (s : State) (off n : Nat) : (s.bump off n).pending = s.pending := rfl
@[simp] theorem State.bump_now (s : State) (off n : Nat) : (s.bump off n).now = s.now := rfl
@[simp] theorem State.bump_draws (s : State) (off n : Nat) : (s.bump off n).draws = s.draws := rfl
@[simp] theorem State.bump_lanes (s : State) (off n : Nat) : (s.bump off n).lanes = s.lanes := rfl
@[simp] theorem State.bump_asm (s : State) (off n : Nat) : (s.bump off n).asm = s.asm := rfl
@[simp] theorem State.bump_dec (s : State) (off n : Nat) : (s.bump off n).dec = s.dec := rfl
@[simp] theorem State.bump_syn (s : State) (off n : Nat) : (s.bump off n).syn = s.syn := rfl
@[simp] theorem State.bump_seq (s : State) (off n : Nat) : (s.bump off n).seq = s.seq := rfl
@[simp] theorem State.bump_plc (s : State) (off n : Nat) : (s.bump off n).plc = s.plc := rfl
@[simp] theorem State.bump_blt (s : State) (off n : Nat) : (s.bump off n).blt = s.blt := rfl
@[simp] theorem State.bump_sec (s : State) (off n : Nat) : (s.bump off n).sec = s.sec := rfl
@[simp] theorem State.bump_cam (s : State) (off n : Nat) : (s.bump off n).cam = s.cam := rfl
@[simp] theorem State.bump_fin (s : State) (off n : Nat) : (s.bump off n).fin = s.fin := rfl
@[simp] theorem State.bump_tlk (s : State) (off n : Nat) : (s.bump off n).tlk = s.tlk := rfl
@[simp] theorem State.bump_rpt (s : State) (off n : Nat) : (s.bump off n).rpt = s.rpt := rfl
@[simp] theorem State.bump_cal (s : State) (off n : Nat) : (s.bump off n).cal = s.cal := rfl
@[simp] theorem State.bump_sat (s : State) (off n : Nat) : (s.bump off n).sat = s.sat := rfl
@[simp] theorem State.bump_thm (s : State) (off n : Nat) : (s.bump off n).thm = s.thm := rfl
@[simp] theorem State.bump_avs (s : State) (off n : Nat) : (s.bump off n).avs = s.avs := rfl
@[simp] theorem State.bump_dmc (s : State) (off n : Nat) : (s.bump off n).dmc = s.dmc := rfl
@[simp] theorem State.bump_host (s : State) (off n : Nat) : (s.bump off n).host = s.host := rfl
@[simp] theorem State.bump_clk (s : State) (off n : Nat) : (s.bump off n).clk = s.clk := rfl
@[simp] theorem State.bump_rst (s : State) (off n : Nat) : (s.bump off n).rst = s.rst := rfl
@[simp] theorem State.bump_up (s : State) (off n : Nat) (b : Nat) : (s.bump off n).up b = s.up b := rfl

/-! ## drawn -/

@[simp] theorem State.drawn_pending (s : State) : (s.drawn).pending = s.pending := rfl
@[simp] theorem State.drawn_now (s : State) : (s.drawn).now = s.now := rfl
@[simp] theorem State.drawn_regs (s : State) : (s.drawn).regs = s.regs := rfl
@[simp] theorem State.drawn_lanes (s : State) : (s.drawn).lanes = s.lanes := rfl
@[simp] theorem State.drawn_asm (s : State) : (s.drawn).asm = s.asm := rfl
@[simp] theorem State.drawn_dec (s : State) : (s.drawn).dec = s.dec := rfl
@[simp] theorem State.drawn_syn (s : State) : (s.drawn).syn = s.syn := rfl
@[simp] theorem State.drawn_seq (s : State) : (s.drawn).seq = s.seq := rfl
@[simp] theorem State.drawn_plc (s : State) : (s.drawn).plc = s.plc := rfl
@[simp] theorem State.drawn_blt (s : State) : (s.drawn).blt = s.blt := rfl
@[simp] theorem State.drawn_sec (s : State) : (s.drawn).sec = s.sec := rfl
@[simp] theorem State.drawn_cam (s : State) : (s.drawn).cam = s.cam := rfl
@[simp] theorem State.drawn_fin (s : State) : (s.drawn).fin = s.fin := rfl
@[simp] theorem State.drawn_tlk (s : State) : (s.drawn).tlk = s.tlk := rfl
@[simp] theorem State.drawn_rpt (s : State) : (s.drawn).rpt = s.rpt := rfl
@[simp] theorem State.drawn_cal (s : State) : (s.drawn).cal = s.cal := rfl
@[simp] theorem State.drawn_sat (s : State) : (s.drawn).sat = s.sat := rfl
@[simp] theorem State.drawn_thm (s : State) : (s.drawn).thm = s.thm := rfl
@[simp] theorem State.drawn_avs (s : State) : (s.drawn).avs = s.avs := rfl
@[simp] theorem State.drawn_dmc (s : State) : (s.drawn).dmc = s.dmc := rfl
@[simp] theorem State.drawn_host (s : State) : (s.drawn).host = s.host := rfl
@[simp] theorem State.drawn_clk (s : State) : (s.drawn).clk = s.clk := rfl
@[simp] theorem State.drawn_rst (s : State) : (s.drawn).rst = s.rst := rfl
@[simp] theorem State.drawn_cyc (s : State) : (s.drawn).cyc = s.cyc := rfl
@[simp] theorem State.drawn_reg (s : State) (o : Nat) : (s.drawn).reg o = s.reg o := rfl
@[simp] theorem State.drawn_flag (s : State) (o b : Nat) : (s.drawn).flag o b = s.flag o b := rfl
@[simp] theorem State.drawn_fld (s : State) (o hi lo : Nat) : (s.drawn).fld o hi lo = s.fld o hi lo := rfl
@[simp] theorem State.drawn_up (s : State) (b : Nat) : (s.drawn).up b = s.up b := rfl
@[simp] theorem State.drawn_live (s : State) (b : Nat) : (s.drawn).live b = s.live b := rfl

/-! ## setLane -/

@[simp] theorem State.setLane_pending (s : State) (l : Nat) (v : Lane) : (s.setLane l v).pending = s.pending := rfl
@[simp] theorem State.setLane_now (s : State) (l : Nat) (v : Lane) : (s.setLane l v).now = s.now := rfl
@[simp] theorem State.setLane_draws (s : State) (l : Nat) (v : Lane) : (s.setLane l v).draws = s.draws := rfl
@[simp] theorem State.setLane_regs (s : State) (l : Nat) (v : Lane) : (s.setLane l v).regs = s.regs := rfl
@[simp] theorem State.setLane_asm (s : State) (l : Nat) (v : Lane) : (s.setLane l v).asm = s.asm := rfl
@[simp] theorem State.setLane_dec (s : State) (l : Nat) (v : Lane) : (s.setLane l v).dec = s.dec := rfl
@[simp] theorem State.setLane_syn (s : State) (l : Nat) (v : Lane) : (s.setLane l v).syn = s.syn := rfl
@[simp] theorem State.setLane_seq (s : State) (l : Nat) (v : Lane) : (s.setLane l v).seq = s.seq := rfl
@[simp] theorem State.setLane_plc (s : State) (l : Nat) (v : Lane) : (s.setLane l v).plc = s.plc := rfl
@[simp] theorem State.setLane_blt (s : State) (l : Nat) (v : Lane) : (s.setLane l v).blt = s.blt := rfl
@[simp] theorem State.setLane_sec (s : State) (l : Nat) (v : Lane) : (s.setLane l v).sec = s.sec := rfl
@[simp] theorem State.setLane_cam (s : State) (l : Nat) (v : Lane) : (s.setLane l v).cam = s.cam := rfl
@[simp] theorem State.setLane_fin (s : State) (l : Nat) (v : Lane) : (s.setLane l v).fin = s.fin := rfl
@[simp] theorem State.setLane_tlk (s : State) (l : Nat) (v : Lane) : (s.setLane l v).tlk = s.tlk := rfl
@[simp] theorem State.setLane_rpt (s : State) (l : Nat) (v : Lane) : (s.setLane l v).rpt = s.rpt := rfl
@[simp] theorem State.setLane_cal (s : State) (l : Nat) (v : Lane) : (s.setLane l v).cal = s.cal := rfl
@[simp] theorem State.setLane_sat (s : State) (l : Nat) (v : Lane) : (s.setLane l v).sat = s.sat := rfl
@[simp] theorem State.setLane_thm (s : State) (l : Nat) (v : Lane) : (s.setLane l v).thm = s.thm := rfl
@[simp] theorem State.setLane_avs (s : State) (l : Nat) (v : Lane) : (s.setLane l v).avs = s.avs := rfl
@[simp] theorem State.setLane_dmc (s : State) (l : Nat) (v : Lane) : (s.setLane l v).dmc = s.dmc := rfl
@[simp] theorem State.setLane_host (s : State) (l : Nat) (v : Lane) : (s.setLane l v).host = s.host := rfl
@[simp] theorem State.setLane_clk (s : State) (l : Nat) (v : Lane) : (s.setLane l v).clk = s.clk := rfl
@[simp] theorem State.setLane_rst (s : State) (l : Nat) (v : Lane) : (s.setLane l v).rst = s.rst := rfl
@[simp] theorem State.setLane_cyc (s : State) (l : Nat) (v : Lane) : (s.setLane l v).cyc = s.cyc := rfl
@[simp] theorem State.setLane_reg (s : State) (l : Nat) (v : Lane) (o : Nat) : (s.setLane l v).reg o = s.reg o := rfl
@[simp] theorem State.setLane_flag (s : State) (l : Nat) (v : Lane) (o b : Nat) : (s.setLane l v).flag o b = s.flag o b := rfl
@[simp] theorem State.setLane_fld (s : State) (l : Nat) (v : Lane) (o hi lo : Nat) : (s.setLane l v).fld o hi lo = s.fld o hi lo := rfl
@[simp] theorem State.setLane_up (s : State) (l : Nat) (v : Lane) (b : Nat) : (s.setLane l v).up b = s.up b := rfl
@[simp] theorem State.setLane_live (s : State) (l : Nat) (v : Lane) (b : Nat) : (s.setLane l v).live b = s.live b := rfl

/-! ## setPort -/

@[simp] theorem State.setPort_pending (s : State) (p : Nat) (v : Port) : (s.setPort p v).pending = s.pending := rfl
@[simp] theorem State.setPort_now (s : State) (p : Nat) (v : Port) : (s.setPort p v).now = s.now := rfl
@[simp] theorem State.setPort_draws (s : State) (p : Nat) (v : Port) : (s.setPort p v).draws = s.draws := rfl
@[simp] theorem State.setPort_regs (s : State) (p : Nat) (v : Port) : (s.setPort p v).regs = s.regs := rfl
@[simp] theorem State.setPort_lanes (s : State) (p : Nat) (v : Port) : (s.setPort p v).lanes = s.lanes := rfl
@[simp] theorem State.setPort_dec (s : State) (p : Nat) (v : Port) : (s.setPort p v).dec = s.dec := rfl
@[simp] theorem State.setPort_syn (s : State) (p : Nat) (v : Port) : (s.setPort p v).syn = s.syn := rfl
@[simp] theorem State.setPort_seq (s : State) (p : Nat) (v : Port) : (s.setPort p v).seq = s.seq := rfl
@[simp] theorem State.setPort_plc (s : State) (p : Nat) (v : Port) : (s.setPort p v).plc = s.plc := rfl
@[simp] theorem State.setPort_blt (s : State) (p : Nat) (v : Port) : (s.setPort p v).blt = s.blt := rfl
@[simp] theorem State.setPort_sec (s : State) (p : Nat) (v : Port) : (s.setPort p v).sec = s.sec := rfl
@[simp] theorem State.setPort_cam (s : State) (p : Nat) (v : Port) : (s.setPort p v).cam = s.cam := rfl
@[simp] theorem State.setPort_fin (s : State) (p : Nat) (v : Port) : (s.setPort p v).fin = s.fin := rfl
@[simp] theorem State.setPort_tlk (s : State) (p : Nat) (v : Port) : (s.setPort p v).tlk = s.tlk := rfl
@[simp] theorem State.setPort_rpt (s : State) (p : Nat) (v : Port) : (s.setPort p v).rpt = s.rpt := rfl
@[simp] theorem State.setPort_cal (s : State) (p : Nat) (v : Port) : (s.setPort p v).cal = s.cal := rfl
@[simp] theorem State.setPort_sat (s : State) (p : Nat) (v : Port) : (s.setPort p v).sat = s.sat := rfl
@[simp] theorem State.setPort_thm (s : State) (p : Nat) (v : Port) : (s.setPort p v).thm = s.thm := rfl
@[simp] theorem State.setPort_avs (s : State) (p : Nat) (v : Port) : (s.setPort p v).avs = s.avs := rfl
@[simp] theorem State.setPort_dmc (s : State) (p : Nat) (v : Port) : (s.setPort p v).dmc = s.dmc := rfl
@[simp] theorem State.setPort_host (s : State) (p : Nat) (v : Port) : (s.setPort p v).host = s.host := rfl
@[simp] theorem State.setPort_clk (s : State) (p : Nat) (v : Port) : (s.setPort p v).clk = s.clk := rfl
@[simp] theorem State.setPort_rst (s : State) (p : Nat) (v : Port) : (s.setPort p v).rst = s.rst := rfl
@[simp] theorem State.setPort_cyc (s : State) (p : Nat) (v : Port) : (s.setPort p v).cyc = s.cyc := rfl
@[simp] theorem State.setPort_reg (s : State) (p : Nat) (v : Port) (o : Nat) : (s.setPort p v).reg o = s.reg o := rfl
@[simp] theorem State.setPort_flag (s : State) (p : Nat) (v : Port) (o b : Nat) : (s.setPort p v).flag o b = s.flag o b := rfl
@[simp] theorem State.setPort_fld (s : State) (p : Nat) (v : Port) (o hi lo : Nat) : (s.setPort p v).fld o hi lo = s.fld o hi lo := rfl
@[simp] theorem State.setPort_up (s : State) (p : Nat) (v : Port) (b : Nat) : (s.setPort p v).up b = s.up b := rfl
@[simp] theorem State.setPort_live (s : State) (p : Nat) (v : Port) (b : Nat) : (s.setPort p v).live b = s.live b := rfl

/-! ## setCtx -/

@[simp] theorem State.setCtx_pending (s : State) (e v : Nat) : (s.setCtx e v).pending = s.pending := rfl
@[simp] theorem State.setCtx_now (s : State) (e v : Nat) : (s.setCtx e v).now = s.now := rfl
@[simp] theorem State.setCtx_draws (s : State) (e v : Nat) : (s.setCtx e v).draws = s.draws := rfl
@[simp] theorem State.setCtx_regs (s : State) (e v : Nat) : (s.setCtx e v).regs = s.regs := rfl
@[simp] theorem State.setCtx_lanes (s : State) (e v : Nat) : (s.setCtx e v).lanes = s.lanes := rfl
@[simp] theorem State.setCtx_dec (s : State) (e v : Nat) : (s.setCtx e v).dec = s.dec := rfl
@[simp] theorem State.setCtx_syn (s : State) (e v : Nat) : (s.setCtx e v).syn = s.syn := rfl
@[simp] theorem State.setCtx_seq (s : State) (e v : Nat) : (s.setCtx e v).seq = s.seq := rfl
@[simp] theorem State.setCtx_plc (s : State) (e v : Nat) : (s.setCtx e v).plc = s.plc := rfl
@[simp] theorem State.setCtx_blt (s : State) (e v : Nat) : (s.setCtx e v).blt = s.blt := rfl
@[simp] theorem State.setCtx_sec (s : State) (e v : Nat) : (s.setCtx e v).sec = s.sec := rfl
@[simp] theorem State.setCtx_cam (s : State) (e v : Nat) : (s.setCtx e v).cam = s.cam := rfl
@[simp] theorem State.setCtx_fin (s : State) (e v : Nat) : (s.setCtx e v).fin = s.fin := rfl
@[simp] theorem State.setCtx_tlk (s : State) (e v : Nat) : (s.setCtx e v).tlk = s.tlk := rfl
@[simp] theorem State.setCtx_rpt (s : State) (e v : Nat) : (s.setCtx e v).rpt = s.rpt := rfl
@[simp] theorem State.setCtx_cal (s : State) (e v : Nat) : (s.setCtx e v).cal = s.cal := rfl
@[simp] theorem State.setCtx_sat (s : State) (e v : Nat) : (s.setCtx e v).sat = s.sat := rfl
@[simp] theorem State.setCtx_thm (s : State) (e v : Nat) : (s.setCtx e v).thm = s.thm := rfl
@[simp] theorem State.setCtx_avs (s : State) (e v : Nat) : (s.setCtx e v).avs = s.avs := rfl
@[simp] theorem State.setCtx_dmc (s : State) (e v : Nat) : (s.setCtx e v).dmc = s.dmc := rfl
@[simp] theorem State.setCtx_host (s : State) (e v : Nat) : (s.setCtx e v).host = s.host := rfl
@[simp] theorem State.setCtx_clk (s : State) (e v : Nat) : (s.setCtx e v).clk = s.clk := rfl
@[simp] theorem State.setCtx_rst (s : State) (e v : Nat) : (s.setCtx e v).rst = s.rst := rfl
@[simp] theorem State.setCtx_reg (s : State) (e v : Nat) (o : Nat) : (s.setCtx e v).reg o = s.reg o := rfl
@[simp] theorem State.setCtx_flag (s : State) (e v : Nat) (o b : Nat) : (s.setCtx e v).flag o b = s.flag o b := rfl
@[simp] theorem State.setCtx_fld (s : State) (e v : Nat) (o hi lo : Nat) : (s.setCtx e v).fld o hi lo = s.fld o hi lo := rfl
@[simp] theorem State.setCtx_up (s : State) (e v : Nat) (b : Nat) : (s.setCtx e v).up b = s.up b := rfl
@[simp] theorem State.setCtx_live (s : State) (e v : Nat) (b : Nat) : (s.setCtx e v).live b = s.live b := rfl

/-! ## setDir -/

@[simp] theorem State.setDir_pending (s : State) (k : Nat) (e : DirEntry) : (s.setDir k e).pending = s.pending := rfl
@[simp] theorem State.setDir_now (s : State) (k : Nat) (e : DirEntry) : (s.setDir k e).now = s.now := rfl
@[simp] theorem State.setDir_draws (s : State) (k : Nat) (e : DirEntry) : (s.setDir k e).draws = s.draws := rfl
@[simp] theorem State.setDir_regs (s : State) (k : Nat) (e : DirEntry) : (s.setDir k e).regs = s.regs := rfl
@[simp] theorem State.setDir_lanes (s : State) (k : Nat) (e : DirEntry) : (s.setDir k e).lanes = s.lanes := rfl
@[simp] theorem State.setDir_asm (s : State) (k : Nat) (e : DirEntry) : (s.setDir k e).asm = s.asm := rfl
@[simp] theorem State.setDir_syn (s : State) (k : Nat) (e : DirEntry) : (s.setDir k e).syn = s.syn := rfl
@[simp] theorem State.setDir_seq (s : State) (k : Nat) (e : DirEntry) : (s.setDir k e).seq = s.seq := rfl
@[simp] theorem State.setDir_plc (s : State) (k : Nat) (e : DirEntry) : (s.setDir k e).plc = s.plc := rfl
@[simp] theorem State.setDir_blt (s : State) (k : Nat) (e : DirEntry) : (s.setDir k e).blt = s.blt := rfl
@[simp] theorem State.setDir_sec (s : State) (k : Nat) (e : DirEntry) : (s.setDir k e).sec = s.sec := rfl
@[simp] theorem State.setDir_cam (s : State) (k : Nat) (e : DirEntry) : (s.setDir k e).cam = s.cam := rfl
@[simp] theorem State.setDir_fin (s : State) (k : Nat) (e : DirEntry) : (s.setDir k e).fin = s.fin := rfl
@[simp] theorem State.setDir_tlk (s : State) (k : Nat) (e : DirEntry) : (s.setDir k e).tlk = s.tlk := rfl
@[simp] theorem State.setDir_rpt (s : State) (k : Nat) (e : DirEntry) : (s.setDir k e).rpt = s.rpt := rfl
@[simp] theorem State.setDir_cal (s : State) (k : Nat) (e : DirEntry) : (s.setDir k e).cal = s.cal := rfl
@[simp] theorem State.setDir_sat (s : State) (k : Nat) (e : DirEntry) : (s.setDir k e).sat = s.sat := rfl
@[simp] theorem State.setDir_thm (s : State) (k : Nat) (e : DirEntry) : (s.setDir k e).thm = s.thm := rfl
@[simp] theorem State.setDir_avs (s : State) (k : Nat) (e : DirEntry) : (s.setDir k e).avs = s.avs := rfl
@[simp] theorem State.setDir_dmc (s : State) (k : Nat) (e : DirEntry) : (s.setDir k e).dmc = s.dmc := rfl
@[simp] theorem State.setDir_host (s : State) (k : Nat) (e : DirEntry) : (s.setDir k e).host = s.host := rfl
@[simp] theorem State.setDir_clk (s : State) (k : Nat) (e : DirEntry) : (s.setDir k e).clk = s.clk := rfl
@[simp] theorem State.setDir_rst (s : State) (k : Nat) (e : DirEntry) : (s.setDir k e).rst = s.rst := rfl
@[simp] theorem State.setDir_reg (s : State) (k : Nat) (e : DirEntry) (o : Nat) : (s.setDir k e).reg o = s.reg o := rfl
@[simp] theorem State.setDir_flag (s : State) (k : Nat) (e : DirEntry) (o b : Nat) : (s.setDir k e).flag o b = s.flag o b := rfl
@[simp] theorem State.setDir_fld (s : State) (k : Nat) (e : DirEntry) (o hi lo : Nat) : (s.setDir k e).fld o hi lo = s.fld o hi lo := rfl
@[simp] theorem State.setDir_up (s : State) (k : Nat) (e : DirEntry) (b : Nat) : (s.setDir k e).up b = s.up b := rfl
@[simp] theorem State.setDir_live (s : State) (k : Nat) (e : DirEntry) (b : Nat) : (s.setDir k e).live b = s.live b := rfl

/-! ## setDecoder -/

@[simp] theorem State.setDecoder_pending (s : State) (d : Nat) (v : Decoder) : (s.setDecoder d v).pending = s.pending := rfl
@[simp] theorem State.setDecoder_now (s : State) (d : Nat) (v : Decoder) : (s.setDecoder d v).now = s.now := rfl
@[simp] theorem State.setDecoder_draws (s : State) (d : Nat) (v : Decoder) : (s.setDecoder d v).draws = s.draws := rfl
@[simp] theorem State.setDecoder_regs (s : State) (d : Nat) (v : Decoder) : (s.setDecoder d v).regs = s.regs := rfl
@[simp] theorem State.setDecoder_lanes (s : State) (d : Nat) (v : Decoder) : (s.setDecoder d v).lanes = s.lanes := rfl
@[simp] theorem State.setDecoder_asm (s : State) (d : Nat) (v : Decoder) : (s.setDecoder d v).asm = s.asm := rfl
@[simp] theorem State.setDecoder_syn (s : State) (d : Nat) (v : Decoder) : (s.setDecoder d v).syn = s.syn := rfl
@[simp] theorem State.setDecoder_seq (s : State) (d : Nat) (v : Decoder) : (s.setDecoder d v).seq = s.seq := rfl
@[simp] theorem State.setDecoder_plc (s : State) (d : Nat) (v : Decoder) : (s.setDecoder d v).plc = s.plc := rfl
@[simp] theorem State.setDecoder_blt (s : State) (d : Nat) (v : Decoder) : (s.setDecoder d v).blt = s.blt := rfl
@[simp] theorem State.setDecoder_sec (s : State) (d : Nat) (v : Decoder) : (s.setDecoder d v).sec = s.sec := rfl
@[simp] theorem State.setDecoder_cam (s : State) (d : Nat) (v : Decoder) : (s.setDecoder d v).cam = s.cam := rfl
@[simp] theorem State.setDecoder_fin (s : State) (d : Nat) (v : Decoder) : (s.setDecoder d v).fin = s.fin := rfl
@[simp] theorem State.setDecoder_tlk (s : State) (d : Nat) (v : Decoder) : (s.setDecoder d v).tlk = s.tlk := rfl
@[simp] theorem State.setDecoder_rpt (s : State) (d : Nat) (v : Decoder) : (s.setDecoder d v).rpt = s.rpt := rfl
@[simp] theorem State.setDecoder_cal (s : State) (d : Nat) (v : Decoder) : (s.setDecoder d v).cal = s.cal := rfl
@[simp] theorem State.setDecoder_sat (s : State) (d : Nat) (v : Decoder) : (s.setDecoder d v).sat = s.sat := rfl
@[simp] theorem State.setDecoder_thm (s : State) (d : Nat) (v : Decoder) : (s.setDecoder d v).thm = s.thm := rfl
@[simp] theorem State.setDecoder_avs (s : State) (d : Nat) (v : Decoder) : (s.setDecoder d v).avs = s.avs := rfl
@[simp] theorem State.setDecoder_dmc (s : State) (d : Nat) (v : Decoder) : (s.setDecoder d v).dmc = s.dmc := rfl
@[simp] theorem State.setDecoder_host (s : State) (d : Nat) (v : Decoder) : (s.setDecoder d v).host = s.host := rfl
@[simp] theorem State.setDecoder_clk (s : State) (d : Nat) (v : Decoder) : (s.setDecoder d v).clk = s.clk := rfl
@[simp] theorem State.setDecoder_rst (s : State) (d : Nat) (v : Decoder) : (s.setDecoder d v).rst = s.rst := rfl
@[simp] theorem State.setDecoder_cyc (s : State) (d : Nat) (v : Decoder) : (s.setDecoder d v).cyc = s.cyc := rfl
@[simp] theorem State.setDecoder_reg (s : State) (d : Nat) (v : Decoder) (o : Nat) : (s.setDecoder d v).reg o = s.reg o := rfl
@[simp] theorem State.setDecoder_flag (s : State) (d : Nat) (v : Decoder) (o b : Nat) : (s.setDecoder d v).flag o b = s.flag o b := rfl
@[simp] theorem State.setDecoder_fld (s : State) (d : Nat) (v : Decoder) (o hi lo : Nat) : (s.setDecoder d v).fld o hi lo = s.fld o hi lo := rfl
@[simp] theorem State.setDecoder_up (s : State) (d : Nat) (v : Decoder) (b : Nat) : (s.setDecoder d v).up b = s.up b := rfl
@[simp] theorem State.setDecoder_live (s : State) (d : Nat) (v : Decoder) (b : Nat) : (s.setDecoder d v).live b = s.live b := rfl

/-! ## setThread -/

@[simp] theorem State.setThread_pending (s : State) (k : Nat) (v : Thread) : (s.setThread k v).pending = s.pending := rfl
@[simp] theorem State.setThread_now (s : State) (k : Nat) (v : Thread) : (s.setThread k v).now = s.now := rfl
@[simp] theorem State.setThread_draws (s : State) (k : Nat) (v : Thread) : (s.setThread k v).draws = s.draws := rfl
@[simp] theorem State.setThread_regs (s : State) (k : Nat) (v : Thread) : (s.setThread k v).regs = s.regs := rfl
@[simp] theorem State.setThread_lanes (s : State) (k : Nat) (v : Thread) : (s.setThread k v).lanes = s.lanes := rfl
@[simp] theorem State.setThread_asm (s : State) (k : Nat) (v : Thread) : (s.setThread k v).asm = s.asm := rfl
@[simp] theorem State.setThread_dec (s : State) (k : Nat) (v : Thread) : (s.setThread k v).dec = s.dec := rfl
@[simp] theorem State.setThread_seq (s : State) (k : Nat) (v : Thread) : (s.setThread k v).seq = s.seq := rfl
@[simp] theorem State.setThread_plc (s : State) (k : Nat) (v : Thread) : (s.setThread k v).plc = s.plc := rfl
@[simp] theorem State.setThread_blt (s : State) (k : Nat) (v : Thread) : (s.setThread k v).blt = s.blt := rfl
@[simp] theorem State.setThread_sec (s : State) (k : Nat) (v : Thread) : (s.setThread k v).sec = s.sec := rfl
@[simp] theorem State.setThread_cam (s : State) (k : Nat) (v : Thread) : (s.setThread k v).cam = s.cam := rfl
@[simp] theorem State.setThread_fin (s : State) (k : Nat) (v : Thread) : (s.setThread k v).fin = s.fin := rfl
@[simp] theorem State.setThread_tlk (s : State) (k : Nat) (v : Thread) : (s.setThread k v).tlk = s.tlk := rfl
@[simp] theorem State.setThread_rpt (s : State) (k : Nat) (v : Thread) : (s.setThread k v).rpt = s.rpt := rfl
@[simp] theorem State.setThread_cal (s : State) (k : Nat) (v : Thread) : (s.setThread k v).cal = s.cal := rfl
@[simp] theorem State.setThread_sat (s : State) (k : Nat) (v : Thread) : (s.setThread k v).sat = s.sat := rfl
@[simp] theorem State.setThread_thm (s : State) (k : Nat) (v : Thread) : (s.setThread k v).thm = s.thm := rfl
@[simp] theorem State.setThread_avs (s : State) (k : Nat) (v : Thread) : (s.setThread k v).avs = s.avs := rfl
@[simp] theorem State.setThread_dmc (s : State) (k : Nat) (v : Thread) : (s.setThread k v).dmc = s.dmc := rfl
@[simp] theorem State.setThread_host (s : State) (k : Nat) (v : Thread) : (s.setThread k v).host = s.host := rfl
@[simp] theorem State.setThread_clk (s : State) (k : Nat) (v : Thread) : (s.setThread k v).clk = s.clk := rfl
@[simp] theorem State.setThread_rst (s : State) (k : Nat) (v : Thread) : (s.setThread k v).rst = s.rst := rfl
@[simp] theorem State.setThread_cyc (s : State) (k : Nat) (v : Thread) : (s.setThread k v).cyc = s.cyc := rfl
@[simp] theorem State.setThread_reg (s : State) (k : Nat) (v : Thread) (o : Nat) : (s.setThread k v).reg o = s.reg o := rfl
@[simp] theorem State.setThread_flag (s : State) (k : Nat) (v : Thread) (o b : Nat) : (s.setThread k v).flag o b = s.flag o b := rfl
@[simp] theorem State.setThread_fld (s : State) (k : Nat) (v : Thread) (o hi lo : Nat) : (s.setThread k v).fld o hi lo = s.fld o hi lo := rfl
@[simp] theorem State.setThread_up (s : State) (k : Nat) (v : Thread) (b : Nat) : (s.setThread k v).up b = s.up b := rfl
@[simp] theorem State.setThread_live (s : State) (k : Nat) (v : Thread) (b : Nat) : (s.setThread k v).live b = s.live b := rfl

/-! ## setEngine -/

@[simp] theorem State.setEngine_pending (s : State) (k : Nat) (v : Engine) : (s.setEngine k v).pending = s.pending := rfl
@[simp] theorem State.setEngine_now (s : State) (k : Nat) (v : Engine) : (s.setEngine k v).now = s.now := rfl
@[simp] theorem State.setEngine_draws (s : State) (k : Nat) (v : Engine) : (s.setEngine k v).draws = s.draws := rfl
@[simp] theorem State.setEngine_regs (s : State) (k : Nat) (v : Engine) : (s.setEngine k v).regs = s.regs := rfl
@[simp] theorem State.setEngine_lanes (s : State) (k : Nat) (v : Engine) : (s.setEngine k v).lanes = s.lanes := rfl
@[simp] theorem State.setEngine_asm (s : State) (k : Nat) (v : Engine) : (s.setEngine k v).asm = s.asm := rfl
@[simp] theorem State.setEngine_dec (s : State) (k : Nat) (v : Engine) : (s.setEngine k v).dec = s.dec := rfl
@[simp] theorem State.setEngine_seq (s : State) (k : Nat) (v : Engine) : (s.setEngine k v).seq = s.seq := rfl
@[simp] theorem State.setEngine_plc (s : State) (k : Nat) (v : Engine) : (s.setEngine k v).plc = s.plc := rfl
@[simp] theorem State.setEngine_blt (s : State) (k : Nat) (v : Engine) : (s.setEngine k v).blt = s.blt := rfl
@[simp] theorem State.setEngine_sec (s : State) (k : Nat) (v : Engine) : (s.setEngine k v).sec = s.sec := rfl
@[simp] theorem State.setEngine_cam (s : State) (k : Nat) (v : Engine) : (s.setEngine k v).cam = s.cam := rfl
@[simp] theorem State.setEngine_fin (s : State) (k : Nat) (v : Engine) : (s.setEngine k v).fin = s.fin := rfl
@[simp] theorem State.setEngine_tlk (s : State) (k : Nat) (v : Engine) : (s.setEngine k v).tlk = s.tlk := rfl
@[simp] theorem State.setEngine_rpt (s : State) (k : Nat) (v : Engine) : (s.setEngine k v).rpt = s.rpt := rfl
@[simp] theorem State.setEngine_cal (s : State) (k : Nat) (v : Engine) : (s.setEngine k v).cal = s.cal := rfl
@[simp] theorem State.setEngine_sat (s : State) (k : Nat) (v : Engine) : (s.setEngine k v).sat = s.sat := rfl
@[simp] theorem State.setEngine_thm (s : State) (k : Nat) (v : Engine) : (s.setEngine k v).thm = s.thm := rfl
@[simp] theorem State.setEngine_avs (s : State) (k : Nat) (v : Engine) : (s.setEngine k v).avs = s.avs := rfl
@[simp] theorem State.setEngine_dmc (s : State) (k : Nat) (v : Engine) : (s.setEngine k v).dmc = s.dmc := rfl
@[simp] theorem State.setEngine_host (s : State) (k : Nat) (v : Engine) : (s.setEngine k v).host = s.host := rfl
@[simp] theorem State.setEngine_clk (s : State) (k : Nat) (v : Engine) : (s.setEngine k v).clk = s.clk := rfl
@[simp] theorem State.setEngine_rst (s : State) (k : Nat) (v : Engine) : (s.setEngine k v).rst = s.rst := rfl
@[simp] theorem State.setEngine_cyc (s : State) (k : Nat) (v : Engine) : (s.setEngine k v).cyc = s.cyc := rfl
@[simp] theorem State.setEngine_reg (s : State) (k : Nat) (v : Engine) (o : Nat) : (s.setEngine k v).reg o = s.reg o := rfl
@[simp] theorem State.setEngine_flag (s : State) (k : Nat) (v : Engine) (o b : Nat) : (s.setEngine k v).flag o b = s.flag o b := rfl
@[simp] theorem State.setEngine_fld (s : State) (k : Nat) (v : Engine) (o hi lo : Nat) : (s.setEngine k v).fld o hi lo = s.fld o hi lo := rfl
@[simp] theorem State.setEngine_up (s : State) (k : Nat) (v : Engine) (b : Nat) : (s.setEngine k v).up b = s.up b := rfl
@[simp] theorem State.setEngine_live (s : State) (k : Nat) (v : Engine) (b : Nat) : (s.setEngine k v).live b = s.live b := rfl

/-! ## setT -/

@[simp] theorem State.setT_pending (s : State) (i v : Nat) : (s.setT i v).pending = s.pending := rfl
@[simp] theorem State.setT_now (s : State) (i v : Nat) : (s.setT i v).now = s.now := rfl
@[simp] theorem State.setT_draws (s : State) (i v : Nat) : (s.setT i v).draws = s.draws := rfl
@[simp] theorem State.setT_regs (s : State) (i v : Nat) : (s.setT i v).regs = s.regs := rfl
@[simp] theorem State.setT_lanes (s : State) (i v : Nat) : (s.setT i v).lanes = s.lanes := rfl
@[simp] theorem State.setT_asm (s : State) (i v : Nat) : (s.setT i v).asm = s.asm := rfl
@[simp] theorem State.setT_dec (s : State) (i v : Nat) : (s.setT i v).dec = s.dec := rfl
@[simp] theorem State.setT_syn (s : State) (i v : Nat) : (s.setT i v).syn = s.syn := rfl
@[simp] theorem State.setT_plc (s : State) (i v : Nat) : (s.setT i v).plc = s.plc := rfl
@[simp] theorem State.setT_blt (s : State) (i v : Nat) : (s.setT i v).blt = s.blt := rfl
@[simp] theorem State.setT_sec (s : State) (i v : Nat) : (s.setT i v).sec = s.sec := rfl
@[simp] theorem State.setT_cam (s : State) (i v : Nat) : (s.setT i v).cam = s.cam := rfl
@[simp] theorem State.setT_fin (s : State) (i v : Nat) : (s.setT i v).fin = s.fin := rfl
@[simp] theorem State.setT_tlk (s : State) (i v : Nat) : (s.setT i v).tlk = s.tlk := rfl
@[simp] theorem State.setT_rpt (s : State) (i v : Nat) : (s.setT i v).rpt = s.rpt := rfl
@[simp] theorem State.setT_cal (s : State) (i v : Nat) : (s.setT i v).cal = s.cal := rfl
@[simp] theorem State.setT_sat (s : State) (i v : Nat) : (s.setT i v).sat = s.sat := rfl
@[simp] theorem State.setT_thm (s : State) (i v : Nat) : (s.setT i v).thm = s.thm := rfl
@[simp] theorem State.setT_avs (s : State) (i v : Nat) : (s.setT i v).avs = s.avs := rfl
@[simp] theorem State.setT_dmc (s : State) (i v : Nat) : (s.setT i v).dmc = s.dmc := rfl
@[simp] theorem State.setT_host (s : State) (i v : Nat) : (s.setT i v).host = s.host := rfl
@[simp] theorem State.setT_clk (s : State) (i v : Nat) : (s.setT i v).clk = s.clk := rfl
@[simp] theorem State.setT_rst (s : State) (i v : Nat) : (s.setT i v).rst = s.rst := rfl
@[simp] theorem State.setT_cyc (s : State) (i v : Nat) : (s.setT i v).cyc = s.cyc := rfl
@[simp] theorem State.setT_reg (s : State) (i v : Nat) (o : Nat) : (s.setT i v).reg o = s.reg o := rfl
@[simp] theorem State.setT_flag (s : State) (i v : Nat) (o b : Nat) : (s.setT i v).flag o b = s.flag o b := rfl
@[simp] theorem State.setT_fld (s : State) (i v : Nat) (o hi lo : Nat) : (s.setT i v).fld o hi lo = s.fld o hi lo := rfl
@[simp] theorem State.setT_up (s : State) (i v : Nat) (b : Nat) : (s.setT i v).up b = s.up b := rfl
@[simp] theorem State.setT_live (s : State) (i v : Nat) (b : Nat) : (s.setT i v).live b = s.live b := rfl

/-! ## setPlcTile -/

@[simp] theorem State.setPlcTile_pending (s : State) (n : Nat) (v : PlcTile) : (s.setPlcTile n v).pending = s.pending := rfl
@[simp] theorem State.setPlcTile_now (s : State) (n : Nat) (v : PlcTile) : (s.setPlcTile n v).now = s.now := rfl
@[simp] theorem State.setPlcTile_draws (s : State) (n : Nat) (v : PlcTile) : (s.setPlcTile n v).draws = s.draws := rfl
@[simp] theorem State.setPlcTile_regs (s : State) (n : Nat) (v : PlcTile) : (s.setPlcTile n v).regs = s.regs := rfl
@[simp] theorem State.setPlcTile_lanes (s : State) (n : Nat) (v : PlcTile) : (s.setPlcTile n v).lanes = s.lanes := rfl
@[simp] theorem State.setPlcTile_asm (s : State) (n : Nat) (v : PlcTile) : (s.setPlcTile n v).asm = s.asm := rfl
@[simp] theorem State.setPlcTile_dec (s : State) (n : Nat) (v : PlcTile) : (s.setPlcTile n v).dec = s.dec := rfl
@[simp] theorem State.setPlcTile_syn (s : State) (n : Nat) (v : PlcTile) : (s.setPlcTile n v).syn = s.syn := rfl
@[simp] theorem State.setPlcTile_seq (s : State) (n : Nat) (v : PlcTile) : (s.setPlcTile n v).seq = s.seq := rfl
@[simp] theorem State.setPlcTile_blt (s : State) (n : Nat) (v : PlcTile) : (s.setPlcTile n v).blt = s.blt := rfl
@[simp] theorem State.setPlcTile_sec (s : State) (n : Nat) (v : PlcTile) : (s.setPlcTile n v).sec = s.sec := rfl
@[simp] theorem State.setPlcTile_cam (s : State) (n : Nat) (v : PlcTile) : (s.setPlcTile n v).cam = s.cam := rfl
@[simp] theorem State.setPlcTile_fin (s : State) (n : Nat) (v : PlcTile) : (s.setPlcTile n v).fin = s.fin := rfl
@[simp] theorem State.setPlcTile_tlk (s : State) (n : Nat) (v : PlcTile) : (s.setPlcTile n v).tlk = s.tlk := rfl
@[simp] theorem State.setPlcTile_rpt (s : State) (n : Nat) (v : PlcTile) : (s.setPlcTile n v).rpt = s.rpt := rfl
@[simp] theorem State.setPlcTile_cal (s : State) (n : Nat) (v : PlcTile) : (s.setPlcTile n v).cal = s.cal := rfl
@[simp] theorem State.setPlcTile_sat (s : State) (n : Nat) (v : PlcTile) : (s.setPlcTile n v).sat = s.sat := rfl
@[simp] theorem State.setPlcTile_thm (s : State) (n : Nat) (v : PlcTile) : (s.setPlcTile n v).thm = s.thm := rfl
@[simp] theorem State.setPlcTile_avs (s : State) (n : Nat) (v : PlcTile) : (s.setPlcTile n v).avs = s.avs := rfl
@[simp] theorem State.setPlcTile_dmc (s : State) (n : Nat) (v : PlcTile) : (s.setPlcTile n v).dmc = s.dmc := rfl
@[simp] theorem State.setPlcTile_host (s : State) (n : Nat) (v : PlcTile) : (s.setPlcTile n v).host = s.host := rfl
@[simp] theorem State.setPlcTile_clk (s : State) (n : Nat) (v : PlcTile) : (s.setPlcTile n v).clk = s.clk := rfl
@[simp] theorem State.setPlcTile_rst (s : State) (n : Nat) (v : PlcTile) : (s.setPlcTile n v).rst = s.rst := rfl
@[simp] theorem State.setPlcTile_cyc (s : State) (n : Nat) (v : PlcTile) : (s.setPlcTile n v).cyc = s.cyc := rfl
@[simp] theorem State.setPlcTile_reg (s : State) (n : Nat) (v : PlcTile) (o : Nat) : (s.setPlcTile n v).reg o = s.reg o := rfl
@[simp] theorem State.setPlcTile_flag (s : State) (n : Nat) (v : PlcTile) (o b : Nat) : (s.setPlcTile n v).flag o b = s.flag o b := rfl
@[simp] theorem State.setPlcTile_fld (s : State) (n : Nat) (v : PlcTile) (o hi lo : Nat) : (s.setPlcTile n v).fld o hi lo = s.fld o hi lo := rfl
@[simp] theorem State.setPlcTile_up (s : State) (n : Nat) (v : PlcTile) (b : Nat) : (s.setPlcTile n v).up b = s.up b := rfl
@[simp] theorem State.setPlcTile_live (s : State) (n : Nat) (v : PlcTile) (b : Nat) : (s.setPlcTile n v).live b = s.live b := rfl

/-! ## setPipe -/

@[simp] theorem State.setPipe_pending (s : State) (k : Nat) (v : CamPipe) : (s.setPipe k v).pending = s.pending := rfl
@[simp] theorem State.setPipe_now (s : State) (k : Nat) (v : CamPipe) : (s.setPipe k v).now = s.now := rfl
@[simp] theorem State.setPipe_draws (s : State) (k : Nat) (v : CamPipe) : (s.setPipe k v).draws = s.draws := rfl
@[simp] theorem State.setPipe_regs (s : State) (k : Nat) (v : CamPipe) : (s.setPipe k v).regs = s.regs := rfl
@[simp] theorem State.setPipe_lanes (s : State) (k : Nat) (v : CamPipe) : (s.setPipe k v).lanes = s.lanes := rfl
@[simp] theorem State.setPipe_asm (s : State) (k : Nat) (v : CamPipe) : (s.setPipe k v).asm = s.asm := rfl
@[simp] theorem State.setPipe_dec (s : State) (k : Nat) (v : CamPipe) : (s.setPipe k v).dec = s.dec := rfl
@[simp] theorem State.setPipe_syn (s : State) (k : Nat) (v : CamPipe) : (s.setPipe k v).syn = s.syn := rfl
@[simp] theorem State.setPipe_seq (s : State) (k : Nat) (v : CamPipe) : (s.setPipe k v).seq = s.seq := rfl
@[simp] theorem State.setPipe_plc (s : State) (k : Nat) (v : CamPipe) : (s.setPipe k v).plc = s.plc := rfl
@[simp] theorem State.setPipe_blt (s : State) (k : Nat) (v : CamPipe) : (s.setPipe k v).blt = s.blt := rfl
@[simp] theorem State.setPipe_sec (s : State) (k : Nat) (v : CamPipe) : (s.setPipe k v).sec = s.sec := rfl
@[simp] theorem State.setPipe_fin (s : State) (k : Nat) (v : CamPipe) : (s.setPipe k v).fin = s.fin := rfl
@[simp] theorem State.setPipe_tlk (s : State) (k : Nat) (v : CamPipe) : (s.setPipe k v).tlk = s.tlk := rfl
@[simp] theorem State.setPipe_rpt (s : State) (k : Nat) (v : CamPipe) : (s.setPipe k v).rpt = s.rpt := rfl
@[simp] theorem State.setPipe_cal (s : State) (k : Nat) (v : CamPipe) : (s.setPipe k v).cal = s.cal := rfl
@[simp] theorem State.setPipe_sat (s : State) (k : Nat) (v : CamPipe) : (s.setPipe k v).sat = s.sat := rfl
@[simp] theorem State.setPipe_thm (s : State) (k : Nat) (v : CamPipe) : (s.setPipe k v).thm = s.thm := rfl
@[simp] theorem State.setPipe_avs (s : State) (k : Nat) (v : CamPipe) : (s.setPipe k v).avs = s.avs := rfl
@[simp] theorem State.setPipe_dmc (s : State) (k : Nat) (v : CamPipe) : (s.setPipe k v).dmc = s.dmc := rfl
@[simp] theorem State.setPipe_host (s : State) (k : Nat) (v : CamPipe) : (s.setPipe k v).host = s.host := rfl
@[simp] theorem State.setPipe_clk (s : State) (k : Nat) (v : CamPipe) : (s.setPipe k v).clk = s.clk := rfl
@[simp] theorem State.setPipe_rst (s : State) (k : Nat) (v : CamPipe) : (s.setPipe k v).rst = s.rst := rfl
@[simp] theorem State.setPipe_cyc (s : State) (k : Nat) (v : CamPipe) : (s.setPipe k v).cyc = s.cyc := rfl
@[simp] theorem State.setPipe_reg (s : State) (k : Nat) (v : CamPipe) (o : Nat) : (s.setPipe k v).reg o = s.reg o := rfl
@[simp] theorem State.setPipe_flag (s : State) (k : Nat) (v : CamPipe) (o b : Nat) : (s.setPipe k v).flag o b = s.flag o b := rfl
@[simp] theorem State.setPipe_fld (s : State) (k : Nat) (v : CamPipe) (o hi lo : Nat) : (s.setPipe k v).fld o hi lo = s.fld o hi lo := rfl
@[simp] theorem State.setPipe_up (s : State) (k : Nat) (v : CamPipe) (b : Nat) : (s.setPipe k v).up b = s.up b := rfl
@[simp] theorem State.setPipe_live (s : State) (k : Nat) (v : CamPipe) (b : Nat) : (s.setPipe k v).live b = s.live b := rfl

/-! ## setTile -/

@[simp] theorem State.setTile_pending (s : State) (n : Nat) (v : Tile) : (s.setTile n v).pending = s.pending := rfl
@[simp] theorem State.setTile_now (s : State) (n : Nat) (v : Tile) : (s.setTile n v).now = s.now := rfl
@[simp] theorem State.setTile_draws (s : State) (n : Nat) (v : Tile) : (s.setTile n v).draws = s.draws := rfl
@[simp] theorem State.setTile_regs (s : State) (n : Nat) (v : Tile) : (s.setTile n v).regs = s.regs := rfl
@[simp] theorem State.setTile_lanes (s : State) (n : Nat) (v : Tile) : (s.setTile n v).lanes = s.lanes := rfl
@[simp] theorem State.setTile_asm (s : State) (n : Nat) (v : Tile) : (s.setTile n v).asm = s.asm := rfl
@[simp] theorem State.setTile_dec (s : State) (n : Nat) (v : Tile) : (s.setTile n v).dec = s.dec := rfl
@[simp] theorem State.setTile_syn (s : State) (n : Nat) (v : Tile) : (s.setTile n v).syn = s.syn := rfl
@[simp] theorem State.setTile_seq (s : State) (n : Nat) (v : Tile) : (s.setTile n v).seq = s.seq := rfl
@[simp] theorem State.setTile_plc (s : State) (n : Nat) (v : Tile) : (s.setTile n v).plc = s.plc := rfl
@[simp] theorem State.setTile_blt (s : State) (n : Nat) (v : Tile) : (s.setTile n v).blt = s.blt := rfl
@[simp] theorem State.setTile_sec (s : State) (n : Nat) (v : Tile) : (s.setTile n v).sec = s.sec := rfl
@[simp] theorem State.setTile_cam (s : State) (n : Nat) (v : Tile) : (s.setTile n v).cam = s.cam := rfl
@[simp] theorem State.setTile_fin (s : State) (n : Nat) (v : Tile) : (s.setTile n v).fin = s.fin := rfl
@[simp] theorem State.setTile_rpt (s : State) (n : Nat) (v : Tile) : (s.setTile n v).rpt = s.rpt := rfl
@[simp] theorem State.setTile_cal (s : State) (n : Nat) (v : Tile) : (s.setTile n v).cal = s.cal := rfl
@[simp] theorem State.setTile_sat (s : State) (n : Nat) (v : Tile) : (s.setTile n v).sat = s.sat := rfl
@[simp] theorem State.setTile_thm (s : State) (n : Nat) (v : Tile) : (s.setTile n v).thm = s.thm := rfl
@[simp] theorem State.setTile_avs (s : State) (n : Nat) (v : Tile) : (s.setTile n v).avs = s.avs := rfl
@[simp] theorem State.setTile_dmc (s : State) (n : Nat) (v : Tile) : (s.setTile n v).dmc = s.dmc := rfl
@[simp] theorem State.setTile_host (s : State) (n : Nat) (v : Tile) : (s.setTile n v).host = s.host := rfl
@[simp] theorem State.setTile_clk (s : State) (n : Nat) (v : Tile) : (s.setTile n v).clk = s.clk := rfl
@[simp] theorem State.setTile_rst (s : State) (n : Nat) (v : Tile) : (s.setTile n v).rst = s.rst := rfl
@[simp] theorem State.setTile_cyc (s : State) (n : Nat) (v : Tile) : (s.setTile n v).cyc = s.cyc := rfl
@[simp] theorem State.setTile_reg (s : State) (n : Nat) (v : Tile) (o : Nat) : (s.setTile n v).reg o = s.reg o := rfl
@[simp] theorem State.setTile_flag (s : State) (n : Nat) (v : Tile) (o b : Nat) : (s.setTile n v).flag o b = s.flag o b := rfl
@[simp] theorem State.setTile_fld (s : State) (n : Nat) (v : Tile) (o hi lo : Nat) : (s.setTile n v).fld o hi lo = s.fld o hi lo := rfl
@[simp] theorem State.setTile_up (s : State) (n : Nat) (v : Tile) (b : Nat) : (s.setTile n v).up b = s.up b := rfl
@[simp] theorem State.setTile_live (s : State) (n : Nat) (v : Tile) (b : Nat) : (s.setTile n v).live b = s.live b := rfl

/-! ## setRptTile -/

@[simp] theorem State.setRptTile_pending (s : State) (n : Nat) (v : RptTile) : (s.setRptTile n v).pending = s.pending := rfl
@[simp] theorem State.setRptTile_now (s : State) (n : Nat) (v : RptTile) : (s.setRptTile n v).now = s.now := rfl
@[simp] theorem State.setRptTile_draws (s : State) (n : Nat) (v : RptTile) : (s.setRptTile n v).draws = s.draws := rfl
@[simp] theorem State.setRptTile_regs (s : State) (n : Nat) (v : RptTile) : (s.setRptTile n v).regs = s.regs := rfl
@[simp] theorem State.setRptTile_lanes (s : State) (n : Nat) (v : RptTile) : (s.setRptTile n v).lanes = s.lanes := rfl
@[simp] theorem State.setRptTile_asm (s : State) (n : Nat) (v : RptTile) : (s.setRptTile n v).asm = s.asm := rfl
@[simp] theorem State.setRptTile_dec (s : State) (n : Nat) (v : RptTile) : (s.setRptTile n v).dec = s.dec := rfl
@[simp] theorem State.setRptTile_syn (s : State) (n : Nat) (v : RptTile) : (s.setRptTile n v).syn = s.syn := rfl
@[simp] theorem State.setRptTile_seq (s : State) (n : Nat) (v : RptTile) : (s.setRptTile n v).seq = s.seq := rfl
@[simp] theorem State.setRptTile_plc (s : State) (n : Nat) (v : RptTile) : (s.setRptTile n v).plc = s.plc := rfl
@[simp] theorem State.setRptTile_blt (s : State) (n : Nat) (v : RptTile) : (s.setRptTile n v).blt = s.blt := rfl
@[simp] theorem State.setRptTile_sec (s : State) (n : Nat) (v : RptTile) : (s.setRptTile n v).sec = s.sec := rfl
@[simp] theorem State.setRptTile_cam (s : State) (n : Nat) (v : RptTile) : (s.setRptTile n v).cam = s.cam := rfl
@[simp] theorem State.setRptTile_fin (s : State) (n : Nat) (v : RptTile) : (s.setRptTile n v).fin = s.fin := rfl
@[simp] theorem State.setRptTile_tlk (s : State) (n : Nat) (v : RptTile) : (s.setRptTile n v).tlk = s.tlk := rfl
@[simp] theorem State.setRptTile_cal (s : State) (n : Nat) (v : RptTile) : (s.setRptTile n v).cal = s.cal := rfl
@[simp] theorem State.setRptTile_sat (s : State) (n : Nat) (v : RptTile) : (s.setRptTile n v).sat = s.sat := rfl
@[simp] theorem State.setRptTile_thm (s : State) (n : Nat) (v : RptTile) : (s.setRptTile n v).thm = s.thm := rfl
@[simp] theorem State.setRptTile_avs (s : State) (n : Nat) (v : RptTile) : (s.setRptTile n v).avs = s.avs := rfl
@[simp] theorem State.setRptTile_dmc (s : State) (n : Nat) (v : RptTile) : (s.setRptTile n v).dmc = s.dmc := rfl
@[simp] theorem State.setRptTile_host (s : State) (n : Nat) (v : RptTile) : (s.setRptTile n v).host = s.host := rfl
@[simp] theorem State.setRptTile_clk (s : State) (n : Nat) (v : RptTile) : (s.setRptTile n v).clk = s.clk := rfl
@[simp] theorem State.setRptTile_rst (s : State) (n : Nat) (v : RptTile) : (s.setRptTile n v).rst = s.rst := rfl
@[simp] theorem State.setRptTile_cyc (s : State) (n : Nat) (v : RptTile) : (s.setRptTile n v).cyc = s.cyc := rfl
@[simp] theorem State.setRptTile_reg (s : State) (n : Nat) (v : RptTile) (o : Nat) : (s.setRptTile n v).reg o = s.reg o := rfl
@[simp] theorem State.setRptTile_flag (s : State) (n : Nat) (v : RptTile) (o b : Nat) : (s.setRptTile n v).flag o b = s.flag o b := rfl
@[simp] theorem State.setRptTile_fld (s : State) (n : Nat) (v : RptTile) (o hi lo : Nat) : (s.setRptTile n v).fld o hi lo = s.fld o hi lo := rfl
@[simp] theorem State.setRptTile_up (s : State) (n : Nat) (v : RptTile) (b : Nat) : (s.setRptTile n v).up b = s.up b := rfl
@[simp] theorem State.setRptTile_live (s : State) (n : Nat) (v : RptTile) (b : Nat) : (s.setRptTile n v).live b = s.live b := rfl

/-! ## setSource -/

@[simp] theorem State.setSource_pending (s : State) (k : Nat) (v : ThmSource) : (s.setSource k v).pending = s.pending := rfl
@[simp] theorem State.setSource_now (s : State) (k : Nat) (v : ThmSource) : (s.setSource k v).now = s.now := rfl
@[simp] theorem State.setSource_draws (s : State) (k : Nat) (v : ThmSource) : (s.setSource k v).draws = s.draws := rfl
@[simp] theorem State.setSource_regs (s : State) (k : Nat) (v : ThmSource) : (s.setSource k v).regs = s.regs := rfl
@[simp] theorem State.setSource_lanes (s : State) (k : Nat) (v : ThmSource) : (s.setSource k v).lanes = s.lanes := rfl
@[simp] theorem State.setSource_asm (s : State) (k : Nat) (v : ThmSource) : (s.setSource k v).asm = s.asm := rfl
@[simp] theorem State.setSource_dec (s : State) (k : Nat) (v : ThmSource) : (s.setSource k v).dec = s.dec := rfl
@[simp] theorem State.setSource_syn (s : State) (k : Nat) (v : ThmSource) : (s.setSource k v).syn = s.syn := rfl
@[simp] theorem State.setSource_seq (s : State) (k : Nat) (v : ThmSource) : (s.setSource k v).seq = s.seq := rfl
@[simp] theorem State.setSource_plc (s : State) (k : Nat) (v : ThmSource) : (s.setSource k v).plc = s.plc := rfl
@[simp] theorem State.setSource_blt (s : State) (k : Nat) (v : ThmSource) : (s.setSource k v).blt = s.blt := rfl
@[simp] theorem State.setSource_sec (s : State) (k : Nat) (v : ThmSource) : (s.setSource k v).sec = s.sec := rfl
@[simp] theorem State.setSource_cam (s : State) (k : Nat) (v : ThmSource) : (s.setSource k v).cam = s.cam := rfl
@[simp] theorem State.setSource_fin (s : State) (k : Nat) (v : ThmSource) : (s.setSource k v).fin = s.fin := rfl
@[simp] theorem State.setSource_tlk (s : State) (k : Nat) (v : ThmSource) : (s.setSource k v).tlk = s.tlk := rfl
@[simp] theorem State.setSource_rpt (s : State) (k : Nat) (v : ThmSource) : (s.setSource k v).rpt = s.rpt := rfl
@[simp] theorem State.setSource_cal (s : State) (k : Nat) (v : ThmSource) : (s.setSource k v).cal = s.cal := rfl
@[simp] theorem State.setSource_sat (s : State) (k : Nat) (v : ThmSource) : (s.setSource k v).sat = s.sat := rfl
@[simp] theorem State.setSource_avs (s : State) (k : Nat) (v : ThmSource) : (s.setSource k v).avs = s.avs := rfl
@[simp] theorem State.setSource_dmc (s : State) (k : Nat) (v : ThmSource) : (s.setSource k v).dmc = s.dmc := rfl
@[simp] theorem State.setSource_host (s : State) (k : Nat) (v : ThmSource) : (s.setSource k v).host = s.host := rfl
@[simp] theorem State.setSource_clk (s : State) (k : Nat) (v : ThmSource) : (s.setSource k v).clk = s.clk := rfl
@[simp] theorem State.setSource_rst (s : State) (k : Nat) (v : ThmSource) : (s.setSource k v).rst = s.rst := rfl
@[simp] theorem State.setSource_cyc (s : State) (k : Nat) (v : ThmSource) : (s.setSource k v).cyc = s.cyc := rfl
@[simp] theorem State.setSource_reg (s : State) (k : Nat) (v : ThmSource) (o : Nat) : (s.setSource k v).reg o = s.reg o := rfl
@[simp] theorem State.setSource_flag (s : State) (k : Nat) (v : ThmSource) (o b : Nat) : (s.setSource k v).flag o b = s.flag o b := rfl
@[simp] theorem State.setSource_fld (s : State) (k : Nat) (v : ThmSource) (o hi lo : Nat) : (s.setSource k v).fld o hi lo = s.fld o hi lo := rfl
@[simp] theorem State.setSource_up (s : State) (k : Nat) (v : ThmSource) (b : Nat) : (s.setSource k v).up b = s.up b := rfl
@[simp] theorem State.setSource_live (s : State) (k : Nat) (v : ThmSource) (b : Nat) : (s.setSource k v).live b = s.live b := rfl

/-! ## setChan -/

@[simp] theorem State.setChan_pending (s : State) (c : Nat) (v : Chan) : (s.setChan c v).pending = s.pending := rfl
@[simp] theorem State.setChan_now (s : State) (c : Nat) (v : Chan) : (s.setChan c v).now = s.now := rfl
@[simp] theorem State.setChan_draws (s : State) (c : Nat) (v : Chan) : (s.setChan c v).draws = s.draws := rfl
@[simp] theorem State.setChan_regs (s : State) (c : Nat) (v : Chan) : (s.setChan c v).regs = s.regs := rfl
@[simp] theorem State.setChan_lanes (s : State) (c : Nat) (v : Chan) : (s.setChan c v).lanes = s.lanes := rfl
@[simp] theorem State.setChan_asm (s : State) (c : Nat) (v : Chan) : (s.setChan c v).asm = s.asm := rfl
@[simp] theorem State.setChan_dec (s : State) (c : Nat) (v : Chan) : (s.setChan c v).dec = s.dec := rfl
@[simp] theorem State.setChan_syn (s : State) (c : Nat) (v : Chan) : (s.setChan c v).syn = s.syn := rfl
@[simp] theorem State.setChan_seq (s : State) (c : Nat) (v : Chan) : (s.setChan c v).seq = s.seq := rfl
@[simp] theorem State.setChan_plc (s : State) (c : Nat) (v : Chan) : (s.setChan c v).plc = s.plc := rfl
@[simp] theorem State.setChan_blt (s : State) (c : Nat) (v : Chan) : (s.setChan c v).blt = s.blt := rfl
@[simp] theorem State.setChan_sec (s : State) (c : Nat) (v : Chan) : (s.setChan c v).sec = s.sec := rfl
@[simp] theorem State.setChan_cam (s : State) (c : Nat) (v : Chan) : (s.setChan c v).cam = s.cam := rfl
@[simp] theorem State.setChan_fin (s : State) (c : Nat) (v : Chan) : (s.setChan c v).fin = s.fin := rfl
@[simp] theorem State.setChan_tlk (s : State) (c : Nat) (v : Chan) : (s.setChan c v).tlk = s.tlk := rfl
@[simp] theorem State.setChan_rpt (s : State) (c : Nat) (v : Chan) : (s.setChan c v).rpt = s.rpt := rfl
@[simp] theorem State.setChan_cal (s : State) (c : Nat) (v : Chan) : (s.setChan c v).cal = s.cal := rfl
@[simp] theorem State.setChan_sat (s : State) (c : Nat) (v : Chan) : (s.setChan c v).sat = s.sat := rfl
@[simp] theorem State.setChan_thm (s : State) (c : Nat) (v : Chan) : (s.setChan c v).thm = s.thm := rfl
@[simp] theorem State.setChan_avs (s : State) (c : Nat) (v : Chan) : (s.setChan c v).avs = s.avs := rfl
@[simp] theorem State.setChan_host (s : State) (c : Nat) (v : Chan) : (s.setChan c v).host = s.host := rfl
@[simp] theorem State.setChan_clk (s : State) (c : Nat) (v : Chan) : (s.setChan c v).clk = s.clk := rfl
@[simp] theorem State.setChan_rst (s : State) (c : Nat) (v : Chan) : (s.setChan c v).rst = s.rst := rfl
@[simp] theorem State.setChan_cyc (s : State) (c : Nat) (v : Chan) : (s.setChan c v).cyc = s.cyc := rfl
@[simp] theorem State.setChan_reg (s : State) (c : Nat) (v : Chan) (o : Nat) : (s.setChan c v).reg o = s.reg o := rfl
@[simp] theorem State.setChan_flag (s : State) (c : Nat) (v : Chan) (o b : Nat) : (s.setChan c v).flag o b = s.flag o b := rfl
@[simp] theorem State.setChan_fld (s : State) (c : Nat) (v : Chan) (o hi lo : Nat) : (s.setChan c v).fld o hi lo = s.fld o hi lo := rfl
@[simp] theorem State.setChan_up (s : State) (c : Nat) (v : Chan) (b : Nat) : (s.setChan c v).up b = s.up b := rfl
@[simp] theorem State.setChan_live (s : State) (c : Nat) (v : Chan) (b : Nat) : (s.setChan c v).live b = s.live b := rfl

/-! ## post -/

@[simp] theorem State.post_pending (s : State) (q : QueueId) (x : Nat) : (s.post q x).pending = s.pending := rfl
@[simp] theorem State.post_now (s : State) (q : QueueId) (x : Nat) : (s.post q x).now = s.now := rfl
@[simp] theorem State.post_draws (s : State) (q : QueueId) (x : Nat) : (s.post q x).draws = s.draws := rfl
@[simp] theorem State.post_regs (s : State) (q : QueueId) (x : Nat) : (s.post q x).regs = s.regs := rfl
@[simp] theorem State.post_lanes (s : State) (q : QueueId) (x : Nat) : (s.post q x).lanes = s.lanes := rfl
@[simp] theorem State.post_asm (s : State) (q : QueueId) (x : Nat) : (s.post q x).asm = s.asm := rfl
@[simp] theorem State.post_dec (s : State) (q : QueueId) (x : Nat) : (s.post q x).dec = s.dec := rfl
@[simp] theorem State.post_syn (s : State) (q : QueueId) (x : Nat) : (s.post q x).syn = s.syn := rfl
@[simp] theorem State.post_seq (s : State) (q : QueueId) (x : Nat) : (s.post q x).seq = s.seq := rfl
@[simp] theorem State.post_plc (s : State) (q : QueueId) (x : Nat) : (s.post q x).plc = s.plc := rfl
@[simp] theorem State.post_blt (s : State) (q : QueueId) (x : Nat) : (s.post q x).blt = s.blt := rfl
@[simp] theorem State.post_sec (s : State) (q : QueueId) (x : Nat) : (s.post q x).sec = s.sec := rfl
@[simp] theorem State.post_cam (s : State) (q : QueueId) (x : Nat) : (s.post q x).cam = s.cam := rfl
@[simp] theorem State.post_fin (s : State) (q : QueueId) (x : Nat) : (s.post q x).fin = s.fin := rfl
@[simp] theorem State.post_tlk (s : State) (q : QueueId) (x : Nat) : (s.post q x).tlk = s.tlk := rfl
@[simp] theorem State.post_rpt (s : State) (q : QueueId) (x : Nat) : (s.post q x).rpt = s.rpt := rfl
@[simp] theorem State.post_cal (s : State) (q : QueueId) (x : Nat) : (s.post q x).cal = s.cal := rfl
@[simp] theorem State.post_sat (s : State) (q : QueueId) (x : Nat) : (s.post q x).sat = s.sat := rfl
@[simp] theorem State.post_thm (s : State) (q : QueueId) (x : Nat) : (s.post q x).thm = s.thm := rfl
@[simp] theorem State.post_avs (s : State) (q : QueueId) (x : Nat) : (s.post q x).avs = s.avs := rfl
@[simp] theorem State.post_dmc (s : State) (q : QueueId) (x : Nat) : (s.post q x).dmc = s.dmc := rfl
@[simp] theorem State.post_clk (s : State) (q : QueueId) (x : Nat) : (s.post q x).clk = s.clk := rfl
@[simp] theorem State.post_rst (s : State) (q : QueueId) (x : Nat) : (s.post q x).rst = s.rst := rfl
@[simp] theorem State.post_cyc (s : State) (q : QueueId) (x : Nat) : (s.post q x).cyc = s.cyc := rfl
@[simp] theorem State.post_reg (s : State) (q : QueueId) (x : Nat) (o : Nat) : (s.post q x).reg o = s.reg o := rfl
@[simp] theorem State.post_flag (s : State) (q : QueueId) (x : Nat) (o b : Nat) : (s.post q x).flag o b = s.flag o b := rfl
@[simp] theorem State.post_fld (s : State) (q : QueueId) (x : Nat) (o hi lo : Nat) : (s.post q x).fld o hi lo = s.fld o hi lo := rfl
@[simp] theorem State.post_up (s : State) (q : QueueId) (x : Nat) (b : Nat) : (s.post q x).up b = s.up b := rfl
@[simp] theorem State.post_live (s : State) (q : QueueId) (x : Nat) (b : Nat) : (s.post q x).live b = s.live b := rfl

/-! ## A read after a write -/

theorem State.reg_setReg (s : State) (off o : Nat) (v : Word) : (s.setReg off v).reg o = if o = off then v else s.reg o :=
  SMap.get_put ..

@[simp] theorem State.reg_setReg_self (s : State) (off : Nat) (v : Word) : (s.setReg off v).reg off = v := by
  simp [State.reg_setReg]

theorem State.reg_setReg_of_ne (s : State) {off o : Nat} (v : Word) (h : o ≠ off) : (s.setReg off v).reg o = s.reg o := by
  simp [State.reg_setReg, h]

@[simp] theorem State.lane_setLane (s : State) (l i : Nat) (v : Lane) :
    (s.setLane l v).lane i = if i = l then v else s.lane i := SMap.get_put ..

@[simp] theorem State.thread_setThread (s : State) (k i : Nat) (v : Thread) :
    (s.setThread k v).thread i = if i = k then v else s.thread i := SMap.get_put ..

@[simp] theorem State.engine_setEngine (s : State) (k i : Nat) (v : Engine) :
    (s.setEngine k v).engine i = if i = k then v else s.engine i := SMap.get_put ..

@[simp] theorem State.tile_setTile (s : State) (n i : Nat) (v : Tile) :
    (s.setTile n v).tile i = if i = n then v else s.tile i := SMap.get_put ..

@[simp] theorem State.pipe_setPipe (s : State) (k i : Nat) (v : CamPipe) :
    (s.setPipe k v).pipe i = if i = k then v else s.pipe i := SMap.get_put ..

@[simp] theorem State.chan_setChan (s : State) (c i : Nat) (v : Chan) :
    (s.setChan c v).chan i = if i = c then v else s.chan i := SMap.get_put ..

@[simp] theorem State.rptTile_setRptTile (s : State) (n i : Nat) (v : RptTile) :
    (s.setRptTile n v).rptTile i = if i = n then v else s.rptTile i := SMap.get_put ..

/-! ## Setting a bit and counting -/

theorem State.reg_bump_of_ne (s : State) {off o : Nat} (n : Nat) (h : o ≠ off) : (s.bump off n).reg o = s.reg o :=
  State.reg_setReg_of_ne _ _ h

theorem State.reg_bump_self (s : State) (off n : Nat) :
    (s.bump off n).reg off = word (min 0xFFFFFFFF ((s.reg off).toNat + n)) := State.reg_setReg_self ..

/-- A counter counts up to 0xFFFF_FFFF and stays there. -/
theorem State.toNat_bump (s : State) (off n : Nat) :
    ((s.bump off n).reg off).toNat = min 0xFFFFFFFF ((s.reg off).toNat + n) := by
  rw [State.reg_bump_self]
  unfold word
  rw [BitVec.toNat_ofNat]
  omega

theorem State.flag_setFlag (s : State) (off b o c : Nat) (hb : b < 32) :
    (s.setFlag off b).flag o c = if o = off ∧ c = b then true else s.flag o c := by
  unfold State.setFlag State.flag
  rw [State.reg_setReg]
  show (if o = off then _ else s.reg o).getLsbD c = _
  by_cases e : o = off
  · subst e
    rw [if_pos rfl, BitVec.getLsbD_or, BitVec.getLsbD_ofNat, Nat.testBit_two_pow]
    by_cases f : c = b
    · subst f
      simp [hb]
    · simp [f, Ne.symm f]
  · simp [e]

theorem State.incsNow_clrRegs (s : State) (off n o : Nat) : (s.clrRegs off n).incsNow o = s.incsNow o := by
  unfold State.clrRegs
  generalize List.range n = l
  induction l generalizing s with
  | nil => rfl
  | cons i l ih => rw [List.foldl_cons, ih]; rfl

/-- A cleared counter holds what it has counted in the cycle of the clear (00 R8, 03 R80). -/
theorem State.reg_clrRegs (s : State) (off n o : Nat) :
    (s.clrRegs off n).reg o = if ∃ i, i < n ∧ o = off + 4 * i then word (min 0xFFFFFFFF (s.incsNow o)) else s.reg o := by
  induction n with
  | zero => simp [State.clrRegs]
  | succ n ih =>
    have step : s.clrRegs off (n + 1) = (s.clrRegs off n).setReg (off + 4 * n)
        (word (min 0xFFFFFFFF ((s.clrRegs off n).incsNow (off + 4 * n)))) := by
      unfold State.clrRegs
      rw [List.range_succ, List.foldl_append]
      rfl
    rw [step, State.reg_setReg, State.incsNow_clrRegs, ih]
    by_cases e : o = off + 4 * n
    · rw [if_pos e, if_pos ⟨n, Nat.lt_succ_self n, e⟩, e]
    · rw [if_neg e]
      have : (∃ i, i < n ∧ o = off + 4 * i) ↔ ∃ i, i < n + 1 ∧ o = off + 4 * i :=
        ⟨fun ⟨i, h, k⟩ => ⟨i, by omega, k⟩, fun ⟨i, h, k⟩ => ⟨i, by
          rcases Nat.lt_succ_iff_lt_or_eq.1 h with h | h
          · exact h
          · exact absurd (h ▸ k) e, k⟩⟩
      simp only [this]

/-- Clearing counters changes the register map alone. -/
theorem State.clrRegs_eq (s : State) (off n : Nat) : s.clrRegs off n = { s with regs := (s.clrRegs off n).regs } := by
  unfold State.clrRegs
  generalize List.range n = l
  induction l generalizing s with
  | nil => rfl
  | cons i l ih => simp only [List.foldl_cons]; rw [ih]; rfl

/-! ## Bus accesses -/

theorem State.live_not_resuming {s : State} {b : Nat} (h : s.live b = true) : s.resuming b = false := by
  unfold State.live at h
  simp only [Bool.and_eq_true, Bool.not_eq_true'] at h
  exact h.2

theorem State.busWrite_ok {s : State} {off : Nat} {b : BusWrite} {eff : State → Word → State} (h : s.busOk off b = true) :
    s.busWrite off b eff = eff (s.accepted off b) b.value := by
  unfold State.busOk at h
  simp only [Bool.and_eq_true, Bool.or_eq_true, decide_eq_true_eq, beq_iff_eq, Bool.not_eq_true'] at h
  obtain ⟨⟨⟨h1, h2⟩, h3⟩, h4⟩ := h
  unfold State.busWrite State.busReach State.busApply
  rw [if_neg, if_neg, State.live_not_resuming h2]
  · simp only [Bool.false_eq_true, if_false]
    rw [if_neg, if_neg (not_not.2 h2), if_neg (not_not.2 h3), if_neg (by simp [h4])]
    rintro ⟨hm, hb⟩
    rcases h1 with h1 | h1
    · exact h1 hm
    · exact hb h1.2
  · rintro ⟨hm, hp⟩
    rcases h1 with h1 | h1
    · exact h1 hm
    · simp [h1.1.2] at hp
  · rintro ⟨hm, hp⟩
    rcases h1 with h1 | h1
    · exact h1 hm
    · exact hp h1.1.1

/-- What taking a register write changes by itself: the response is not an error, and the host's write is noted for the
cycle. -/
theorem State.accepted_eq (s : State) (off : Nat) (b : BusWrite) :
    ∃ c, s.accepted off b = { s with cyc := c, host := { s.host with respErr := false } }
      ∧ c = { s.cyc with hostWrites := c.hostWrites } := by
  unfold State.accepted
  dsimp only
  split
  · exact ⟨_, rfl, rfl⟩
  · exact ⟨_, rfl, rfl⟩

end Sys2Proof.Machine
end

