-- ==== Sys2Proof/Laws/Bus.lean ====
section
/-!
SUPPORT. A register read that reaches its register, and the parts of the state that common operations leave alone.
-/
namespace Sys2Proof.Machine

open Sys2Proof.Safety

/-- A read that reaches its register answers the value there, with the effect of the read. -/
theorem State.busRead_ok {s : State} {off : Nat} {b : BusRead} {eff : State → State × Word} (h : ReadOk s off b) :
    s.busRead off b eff = answered b off (eff s).1 (eff s).2 := by
  obtain ⟨h1, h2, h3⟩ := h
  unfold State.busRead
  dsimp only
  rw [if_neg (fun e => e.2 (h1 e.1)), State.live_not_resuming h2]
  unfold State.readApply
  rw [if_neg (not_not.2 h2), if_neg (not_not.2 h3)]
  rfl

theorem State.laneLink_lanes (s : State) (l : Nat) (w : LaneSt) :
    s.laneLink l w = { s with lanes := (s.laneLink l w).lanes } := by
  unfold State.laneLink
  dsimp only
  split <;> rfl

theorem State.portState_only (s : State) (p : Nat) (st : PortSt) :
    s.portState p st =
      { s with asm := (s.setPort p { s.port p with st := st }).asm, lanes := (s.portState p st).lanes } := by
  unfold State.portState
  dsimp only
  generalize (if (decide (st = .ranging) || decide (st = .joined)) = true then LaneSt.active else LaneSt.dormant) = w
  generalize (if st = .off then LaneSt.dormant else LaneSt.active) = d
  have key (xs : List Nat) (z : State) : ∃ L, xs.foldl (fun s i => s.laneLink (portLane p + i) d) z = { z with lanes := L } := by
    induction xs generalizing z with
    | nil => exact ⟨_, rfl⟩
    | cons x xs ih =>
      obtain ⟨L, h⟩ := ih (z.laneLink (portLane p + x) d)
      refine ⟨L, ?_⟩
      rw [List.foldl_cons, h, State.laneLink_lanes]
  obtain ⟨L, h⟩ := key (List.range 4) (s.setPort p { s.port p with st := st })
  rw [h, State.laneLink_lanes]
  rfl

theorem State.port_setPort (s : State) (p : Fin 2) (v : Port) : (s.setPort p.val v).port p.val = v := by
  match p with
  | 0 => rfl
  | 1 => rfl

theorem State.port_portState (s : State) (p : Fin 2) (st : PortSt) :
    (s.portState p.val st).port p.val = { s.port p.val with st := st } := by
  rw [State.portState_only]
  exact State.port_setPort s p { s.port p.val with st := st }

end Sys2Proof.Machine
end

