-- ==== Sys2Proof/Laws/Frames.lean ====
section
/-!
SUPPORT. What the operations that count, assert events, latch violations and read device memory leave alone: everything but
registers, pending messages and alarms.
-/
namespace Sys2Proof.Safety

open Sys2Proof.Machine

theorem RegsAndEvents.refl (s : State) : RegsAndEvents s s := rfl

theorem RegsAndEvents.trans {s t u : State} (h : RegsAndEvents s t) (k : RegsAndEvents t u) : RegsAndEvents s u := by
  unfold RegsAndEvents at *
  rw [k, h]

theorem RegsAndEvents.setReg (s : State) (off : Nat) (v : Word) : RegsAndEvents s (s.setReg off v) := rfl

theorem RegsAndEvents.setFlag (s : State) (off b : Nat) : RegsAndEvents s (s.setFlag off b) := rfl

theorem RegsAndEvents.setFld (s : State) (off hi lo v : Nat) : RegsAndEvents s (s.setFld off hi lo v) := rfl

theorem RegsAndEvents.bump (s : State) (off n : Nat) : RegsAndEvents s (s.bump off n) := rfl

theorem RegsAndEvents.assertEvent (s : State) (e : Nat) : RegsAndEvents s (s.assertEvent e) := by
  unfold State.assertEvent
  dsimp only
  split <;> split <;> rfl

theorem RegsAndEvents.event (s : State) (e : Nat) : RegsAndEvents s (s.event e) := by
  unfold State.event
  dsimp only
  split
  · split
    · rfl
    · split
      · exact .trans (RegsAndEvents.setFlag ..) (RegsAndEvents.assertEvent ..)
      · rfl
  · rfl

theorem RegsAndEvents.latchWords (s : State) (off : Nat) (ev : Option Nat) (ws : List (Nat × Word)) :
    RegsAndEvents s (s.latchWords off ev ws) := by
  unfold State.latchWords
  have h : ∀ (l : List (Nat × Word)) (z : State), RegsAndEvents z (l.foldl (fun s p => s.setReg p.1 p.2) z) := by
    intro l
    induction l with
    | nil => exact fun _ => rfl
    | cons p l ih => exact fun z => .trans (RegsAndEvents.setReg ..) (ih _)
  have k : RegsAndEvents s (ws.foldl (fun s p => s.setReg p.1 p.2) (s.noteSet off (2 ^ 31))) :=
    .trans (t := s.noteSet off (2 ^ 31)) rfl (h ..)
  dsimp only
  split
  · exact k.trans (RegsAndEvents.event ..)
  · exact k

theorem RegsAndEvents.latchFirst (s : State) (off rank : Nat) (ws : List (Nat × Word)) (ev : Option Nat) :
    RegsAndEvents s (s.latchFirst off rank ws ev) := by
  unfold State.latchFirst
  extract_lets best
  clear_value best
  split
  · rfl
  · rename_i z _
    have h : RegsAndEvents s z := rfl
    clear_value z
    split
    · exact h.trans (RegsAndEvents.latchWords ..)
    · exact h

theorem RegsAndEvents.violation (s : State) (t m o : Nat) (w : Bool) : RegsAndEvents s (s.violation t m o w) :=
  .trans (.trans (RegsAndEvents.bump ..) (RegsAndEvents.event ..)) (RegsAndEvents.latchFirst ..)

theorem RegsAndEvents.uncorrectable (s : State) (ln m k : Nat) : RegsAndEvents s (s.uncorrectable ln m k) :=
  .trans (.trans (RegsAndEvents.bump ..) (RegsAndEvents.event ..)) (RegsAndEvents.latchFirst ..)

theorem RegsAndEvents.readLine (s : State) (ln m k : Nat) : RegsAndEvents s (s.readLine ln m k).1 := by
  unfold State.readLine
  dsimp only
  split
  · exact .trans (RegsAndEvents.bump ..) (RegsAndEvents.uncorrectable ..)
  · split
    · exact .trans (.trans (RegsAndEvents.bump ..) (RegsAndEvents.bump ..)) (RegsAndEvents.event ..)
    · exact RegsAndEvents.bump ..

theorem RegsAndEvents.fetchLine (s : State) (ln m : Nat) : RegsAndEvents s (s.fetchLine ln m).1 := by
  unfold State.fetchLine
  dsimp only
  split
  · split
    · exact .trans (RegsAndEvents.bump ..) (RegsAndEvents.uncorrectable ..)
    · exact RegsAndEvents.bump ..
  · exact RegsAndEvents.readLine ..

theorem RegsAndEvents.foldl1 {α β : Type} {s : State} {i : State × β} {f : State × β → α → State × β} {l : List α}
    (hi : RegsAndEvents s i.1) (hf : ∀ x a, RegsAndEvents x.1 (f x a).1) : RegsAndEvents s (l.foldl f i).1 := by
  induction l generalizing i with
  | nil => exact hi
  | cons a l ih => exact ih (hi.trans (hf i a))

theorem RegsAndEvents.devRead (s : State) (m a n : Nat) : RegsAndEvents s (s.devRead m a n).1 := by
  unfold State.devRead
  split
  · rfl
  · split
    · rfl
    · refine RegsAndEvents.foldl1 (RegsAndEvents.refl s) ?_
      intro x ln
      obtain ⟨x, bs, ok⟩ := x
      dsimp only
      split
      · exact RegsAndEvents.violation ..
      · split
        · rfl
        · exact RegsAndEvents.fetchLine ..

/-- A read of bytes that lie in one line answers what memory holds, or zeros with an error response (14 R310, R319, R327). -/
theorem State.devRead_line (s : State) (m a n : Nat) (h0 : 0 < n) (h : a % 64 + n ≤ 64) :
    (s.devRead m a n).2.1 = if (s.devRead m a n).2.2 then s.bytesAt a n else List.replicate n 0 := by
  have hl : linesOf a n = [a / 64] := by
    unfold linesOf
    rw [if_neg (by omega), show (a + n - 1) / 64 - a / 64 + 1 = 1 by omega]
    simp
  have hp : linePart a n (a / 64) = (a, n) := by
    unfold linePart
    rw [Nat.max_eq_left (by omega), Nat.min_eq_left (by omega)]
    exact Prod.ext rfl (Nat.add_sub_cancel_left ..)
  unfold State.devRead
  rw [hl]
  split
  · rfl
  · cases memGroup a with
    | none => rfl
    | some g =>
      obtain ⟨g, b, x, y⟩ := g
      simp only [List.foldl_cons, List.foldl_nil, hp]
      split
      · rfl
      · split
        · rfl
        · rw [Bool.true_and, List.nil_append]

theorem RegsAndEvents.streamRead (s : State) (m src n : Nat) : RegsAndEvents s (s.streamRead m src n).1 := by
  induction n with
  | zero => rfl
  | succ n ih => exact ih.trans (RegsAndEvents.devRead ..)

end Sys2Proof.Safety

namespace Sys2Proof.Machine

open Sys2Proof.Safety

/-! ## An event, field by field -/

@[simp] theorem State.event_pending (s : State) (e : Nat) : (s.event e).pending = s.pending := by rw [RegsAndEvents.event]

@[simp] theorem State.event_now (s : State) (e : Nat) : (s.event e).now = s.now := by rw [RegsAndEvents.event]

@[simp] theorem State.event_draws (s : State) (e : Nat) : (s.event e).draws = s.draws := by rw [RegsAndEvents.event]

@[simp] theorem State.event_lanes (s : State) (e : Nat) : (s.event e).lanes = s.lanes := by rw [RegsAndEvents.event]

@[simp] theorem State.event_dec (s : State) (e : Nat) : (s.event e).dec = s.dec := by rw [RegsAndEvents.event]

@[simp] theorem State.event_syn (s : State) (e : Nat) : (s.event e).syn = s.syn := by rw [RegsAndEvents.event]

@[simp] theorem State.event_seq (s : State) (e : Nat) : (s.event e).seq = s.seq := by rw [RegsAndEvents.event]

@[simp] theorem State.event_plc (s : State) (e : Nat) : (s.event e).plc = s.plc := by rw [RegsAndEvents.event]

@[simp] theorem State.event_blt (s : State) (e : Nat) : (s.event e).blt = s.blt := by rw [RegsAndEvents.event]

@[simp] theorem State.event_sec (s : State) (e : Nat) : (s.event e).sec = s.sec := by rw [RegsAndEvents.event]

@[simp] theorem State.event_cam (s : State) (e : Nat) : (s.event e).cam = s.cam := by rw [RegsAndEvents.event]

@[simp] theorem State.event_fin (s : State) (e : Nat) : (s.event e).fin = s.fin := by rw [RegsAndEvents.event]

@[simp] theorem State.event_tlk (s : State) (e : Nat) : (s.event e).tlk = s.tlk := by rw [RegsAndEvents.event]

@[simp] theorem State.event_rpt (s : State) (e : Nat) : (s.event e).rpt = s.rpt := by rw [RegsAndEvents.event]

@[simp] theorem State.event_cal (s : State) (e : Nat) : (s.event e).cal = s.cal := by rw [RegsAndEvents.event]

@[simp] theorem State.event_sat (s : State) (e : Nat) : (s.event e).sat = s.sat := by rw [RegsAndEvents.event]

@[simp] theorem State.event_thm (s : State) (e : Nat) : (s.event e).thm = s.thm := by rw [RegsAndEvents.event]

@[simp] theorem State.event_avs (s : State) (e : Nat) : (s.event e).avs = s.avs := by rw [RegsAndEvents.event]

@[simp] theorem State.event_dmc (s : State) (e : Nat) : (s.event e).dmc = s.dmc := by rw [RegsAndEvents.event]

@[simp] theorem State.event_clk (s : State) (e : Nat) : (s.event e).clk = s.clk := by rw [RegsAndEvents.event]

@[simp] theorem State.event_rst (s : State) (e : Nat) : (s.event e).rst = s.rst := by rw [RegsAndEvents.event]

/-! ## Which registers an event touches -/

theorem State.regs_assertEvent (s : State) (e : Nat) : (s.assertEvent e).regs = s.regs := by
  unfold State.assertEvent
  dsimp only
  split <;> split <;> rfl

theorem State.reg_event (s : State) (e o : Nat) (h : o ≠ Reg.evtStatus (e / 32)) : (s.event e).reg o = s.reg o := by
  unfold State.event
  dsimp only
  split
  · split
    · exact State.reg_setReg_of_ne _ _ h
    · split
      · unfold State.reg; rw [State.regs_assertEvent]; exact State.reg_setReg_of_ne _ _ h
      · exact State.reg_setReg_of_ne _ _ h
  · rfl

theorem State.flag_event (s : State) (e o b : Nat) (h : o ≠ Reg.evtStatus (e / 32)) : (s.event e).flag o b = s.flag o b := by
  unfold State.flag; rw [State.reg_event _ _ _ h]

/-- An occurrence sets the event's STATUS bit (15 R348). -/
theorem State.status_event (s : State) (e : Nat) (h : s.up 33 = true) :
    (s.event e).flag (Reg.evtStatus (e / 32)) (e % 32) = true := by
  unfold State.event
  dsimp only
  rw [if_pos h]
  have k : (s.setFlag (Reg.evtStatus (e / 32)) (e % 32)).flag (Reg.evtStatus (e / 32)) (e % 32) = true := by
    rw [State.flag_setFlag _ _ _ _ _ (Nat.mod_lt _ (by decide)), if_pos ⟨rfl, rfl⟩]
  split
  · exact k
  · split
    · unfold State.flag State.reg at *
      rw [State.regs_assertEvent]; exact k
    · exact k

end Sys2Proof.Machine
end

