-- ==== Sys2Proof/Laws/Fields.lean ====
section
/-!
SUPPORT. Bit fields of registers: a field written reads back, the others stay.
-/
namespace Sys2Proof.Machine

/-- A number with a field replaced, as quotient, field and remainder. -/
theorem setBits_eq (n hi lo v : Nat) (h : lo ≤ hi + 1) :
    setBits n hi lo v = 2 ^ lo * (2 ^ (hi + 1 - lo) * (n / 2 ^ (hi + 1)) + v % 2 ^ (hi + 1 - lo)) + n % 2 ^ lo := by
  unfold setBits bits
  rw [Nat.shiftLeft_eq, Nat.shiftLeft_eq, Nat.shiftRight_eq_div_pow]
  have e1 : n / 2 ^ (hi + 1) = n / 2 ^ lo / 2 ^ (hi + 1 - lo) := by
    rw [Nat.div_div_eq_div_mul, ← Nat.pow_add, Nat.add_sub_cancel' h]
  rw [e1]
  have h1 := Nat.div_add_mod n (2 ^ lo)
  have h2 := Nat.div_add_mod (n / 2 ^ lo) (2 ^ (hi + 1 - lo))
  generalize 2 ^ (hi + 1 - lo) = W at *
  generalize 2 ^ lo = L at *
  generalize v % W = v'
  have h3 : n = L * (W * (n / L / W)) + (n / L % W) * L + n % L := by
    conv_lhs => rw [← h1, ← h2]
    ring
  generalize n / L / W = q at *
  generalize n / L % W = m at *
  generalize n % L = r at *
  rw [h3]
  have : L * (W * q) + m * L + r - m * L = L * (W * q) + r := by omega
  rw [this, Nat.mul_add, Nat.mul_comm v' L]
  omega

/-- Bit i of a number with a field replaced. -/
theorem testBit_setBits (n hi lo v i : Nat) (h : lo ≤ hi + 1) :
    (setBits n hi lo v).testBit i = if lo ≤ i ∧ i ≤ hi then v.testBit (i - lo) else n.testBit i := by
  rw [setBits_eq _ _ _ _ h, Nat.testBit_two_pow_mul_add _ (Nat.mod_lt _ (Nat.two_pow_pos _))]
  by_cases h1 : i < lo
  · rw [if_pos h1, if_neg (by omega), Nat.testBit_mod_two_pow, decide_eq_true h1, Bool.true_and]
  · rw [if_neg h1, Nat.testBit_two_pow_mul_add _ (Nat.mod_lt _ (Nat.two_pow_pos _))]
    by_cases h2 : i ≤ hi
    · rw [if_pos (by omega), if_pos ⟨by omega, h2⟩, Nat.testBit_mod_two_pow, decide_eq_true (by omega), Bool.true_and]
    · rw [if_neg (by omega), if_neg (by omega), Nat.testBit_div_two_pow]
      congr 1; omega

theorem testBit_bits (n hi lo i : Nat) : (bits n hi lo).testBit i = (decide (i < hi + 1 - lo) && n.testBit (lo + i)) := by
  unfold bits
  rw [Nat.testBit_mod_two_pow, Nat.testBit_shiftRight]

/-- Bit i of a register after a field was written. -/
theorem State.flag_setFld (s : State) (off hi lo v o i : Nat) (h : lo ≤ hi) (hh : hi < 32) :
    (s.setFld off hi lo v).flag o i = if o = off ∧ lo ≤ i ∧ i ≤ hi then v.testBit (i - lo) else s.flag o i := by
  unfold State.setFld State.flag
  rw [State.reg_setReg]
  by_cases ho : o = off
  · subst ho
    rw [if_pos rfl]
    unfold word
    rw [BitVec.getLsbD_ofNat, testBit_setBits _ _ _ _ _ (by omega)]
    by_cases hi' : lo ≤ i ∧ i ≤ hi
    · rw [if_pos hi', if_pos ⟨rfl, hi'⟩, decide_eq_true (by omega), Bool.true_and]
    · rw [if_neg hi', if_neg (fun e => hi' e.2)]
      by_cases h32 : i < 32
      · rw [decide_eq_true h32, Bool.true_and]; rfl
      · rw [decide_eq_false h32, Bool.false_and, BitVec.getLsbD_of_ge _ _ (by omega)]
  · rw [if_neg ho, if_neg (fun e => ho e.1)]

/-- A field is the number of its bits. -/
theorem State.testBit_fld (s : State) (off hi lo i : Nat) :
    (s.fld off hi lo).testBit i = (decide (i < hi + 1 - lo) && s.flag off (lo + i)) := by
  unfold State.fld State.flag
  rw [testBit_bits]; rfl

/-- A field written reads back. -/
theorem State.fld_setFld (s : State) (off hi lo v : Nat) (h : lo ≤ hi) (hh : hi < 32) :
    (s.setFld off hi lo v).fld off hi lo = v % 2 ^ (hi + 1 - lo) := by
  refine Nat.eq_of_testBit_eq fun i => ?_
  rw [State.testBit_fld, State.flag_setFld _ _ _ _ _ _ _ h hh, Nat.testBit_mod_two_pow]
  by_cases hi' : i < hi + 1 - lo
  · rw [decide_eq_true hi', Bool.true_and, Bool.true_and, if_pos ⟨rfl, by omega, by omega⟩, Nat.add_sub_cancel_left]
  · rw [decide_eq_false hi', Bool.false_and, Bool.false_and]

/-- Another field of the register, or of another, stays. -/
theorem State.fld_setFld_of_ne (s : State) (off hi lo v o h l : Nat) (hlo : lo ≤ hi) (hh : hi < 32)
    (hd : o ≠ off ∨ h < lo ∨ hi < l) : (s.setFld off hi lo v).fld o h l = s.fld o h l := by
  refine Nat.eq_of_testBit_eq fun i => ?_
  rw [State.testBit_fld, State.testBit_fld, State.flag_setFld _ _ _ _ _ _ _ hlo hh]
  by_cases hi' : i < h + 1 - l
  · rw [if_neg]
    rintro ⟨h1, h2, h3⟩
    rcases hd with hd | hd | hd
    · exact hd h1
    · omega
    · omega
  · rw [decide_eq_false hi', Bool.false_and, Bool.false_and]

/-- A flag outside a field leaves it. -/
theorem State.fld_setFlag_of_ne (s : State) (off b o h l : Nat) (hb : b < 32) (hd : o ≠ off ∨ h < b ∨ b < l) :
    (s.setFlag off b).fld o h l = s.fld o h l := by
  refine Nat.eq_of_testBit_eq fun i => ?_
  rw [State.testBit_fld, State.testBit_fld, State.flag_setFlag _ _ _ _ _ hb]
  by_cases hi' : i < h + 1 - l
  · rw [if_neg]
    rintro ⟨h1, h2⟩
    rcases hd with hd | hd | hd
    · exact hd h1
    · omega
    · omega
  · rw [decide_eq_false hi', Bool.false_and, Bool.false_and]

/-- A field of a register that an event does not touch. -/
theorem State.fld_event (s : State) (e o h l : Nat) (ho : o ≠ Reg.evtStatus (e / 32)) : (s.event e).fld o h l = s.fld o h l := by
  unfold State.fld; rw [State.reg_event _ _ _ ho]

theorem State.fld_setReg_of_ne (s : State) (off o h l : Nat) (v : Word) (ho : o ≠ off) : (s.setReg off v).fld o h l = s.fld o h l := by
  unfold State.fld; rw [State.reg_setReg, if_neg ho]

theorem State.fld_bump_of_ne (s : State) (off n o h l : Nat) (ho : o ≠ off) : (s.bump off n).fld o h l = s.fld o h l := by
  unfold State.fld; rw [State.reg_bump_of_ne s n ho]

/-- Clearing a flag clears just that one. -/
theorem State.flag_clrFlag (s : State) (off b o c : Nat) (hb : b < 32) :
    (s.clrFlag off b).flag o c = if o = off ∧ c = b then false else s.flag o c := by
  unfold State.flag State.clrFlag
  rw [State.reg_setReg]
  by_cases ho : o = off
  · rw [if_pos ho, BitVec.getLsbD_and, BitVec.getLsbD_not, BitVec.getLsbD_ofNat, Nat.testBit_two_pow]
    by_cases hc : c = b
    · rw [if_pos ⟨ho, hc⟩, hc]; simp [hb]
    · rw [if_neg (fun h => hc h.2), ho]
      by_cases h32 : c < 32
      · simp [h32]; exact fun _ h => hc h.symm
      · rw [BitVec.getLsbD_of_ge _ _ (by omega)]; simp
  · rw [if_neg ho, if_neg (fun h => ho h.1)]

/-- A field apart from a flag that is cleared. -/
theorem State.fld_clrFlag_of_ne (s : State) (off b o h l : Nat) (hb : b < 32) (hd : o ≠ off ∨ h < b ∨ b < l) :
    (s.clrFlag off b).fld o h l = s.fld o h l := by
  refine Nat.eq_of_testBit_eq fun i => ?_
  rw [State.testBit_fld, State.testBit_fld, State.flag_clrFlag _ _ _ _ _ hb]
  by_cases hi' : i < h + 1 - l
  · rw [if_neg]
    rintro ⟨h1, h2⟩
    rcases hd with hd | hd | hd
    · exact hd h1
    · omega
    · omega
  · rw [decide_eq_false hi', Bool.false_and, Bool.false_and]

end Sys2Proof.Machine
end

