-- ==== Sys2Proof/Laws/Latches.lean ====
section
/-!
SUPPORT. First-occurrence latches (00 R8; 06 R144; 14 R327): what an occurrence latches, and what it leaves.
-/
namespace Sys2Proof.Machine

open Sys2Proof.Safety

theorem State.setsNow_noteSet (s : State) (off m o : Nat) :
    (s.noteSet off m).setsNow o = if o = off then s.setsNow off ||| m else s.setsNow o :=
  SMap.get_put ..

theorem State.cyc_event (s : State) (e : Nat) :
    (s.event e).cyc.firsts = s.cyc.firsts ∧ ∀ o, o ≠ Reg.evtStatus (e / 32) → (s.event e).setsNow o = s.setsNow o := by
  have ha : ∀ z : State, (z.assertEvent e).cyc = z.cyc := by
    intro z
    unfold State.assertEvent
    dsimp only
    split <;> split <;> rfl
  have hs : ∀ o, o ≠ Reg.evtStatus (e / 32) → (s.setFlag (Reg.evtStatus (e / 32)) (e % 32)).setsNow o = s.setsNow o :=
    fun o ho => (State.setsNow_noteSet ..).trans (if_neg ho)
  unfold State.event
  dsimp only
  split
  · split
    · exact ⟨rfl, hs⟩
    · split
      · exact ⟨by rw [ha]; rfl, fun o ho => by unfold State.setsNow; rw [ha]; exact hs o ho⟩
      · exact ⟨rfl, hs⟩
  · exact ⟨rfl, fun _ _ => rfl⟩

end Sys2Proof.Machine

namespace Sys2Proof.Safety

open Sys2Proof.Machine

theorem Calm.event {s : State} {off : Nat} (h : Calm s off) (e : Nat) (ho : off ≠ Reg.evtStatus (e / 32)) :
    Calm (s.event e) off := by
  unfold Calm
  rw [(State.cyc_event s e).1, (State.cyc_event s e).2 _ ho]
  exact h

end Sys2Proof.Safety

namespace Sys2Proof.Machine

open Sys2Proof.Safety


/-- An occurrence that finds its latch free of others of the cycle latches its words if VALID is 0. -/
theorem State.latchFirst_calm {s : State} {off : Nat} (h : Calm s off) (rank : Nat) (ws : List (Nat × Word)) (ev : Option Nat) :
    ∃ z : State, z = { s with cyc := z.cyc } ∧ s.latchFirst off rank ws ev = if s.flag off 31 then z else z.latchWords off ev ws := by
  have hf : s.cyc.firsts.find? (fun p => p.1 == off) = none :=
    List.find?_eq_none.2 fun p hp e => h.1 p hp (beq_iff_eq.1 e)
  unfold State.latchFirst
  rw [hf, h.2, Bool.or_false]
  refine ⟨{ s with cyc := { s.cyc with firsts := SMap.ins s.cyc.firsts off (rank, ev, ws) } }, rfl, ?_⟩
  cases s.flag off 31 <;> rfl

theorem State.reg_latchWords_of_ne (s : State) (off : Nat) (ev : Option Nat) (ws : List (Nat × Word)) (x : Nat)
    (hw : ∀ p ∈ ws, x ≠ p.1) (he : ∀ e ∈ ev, x ≠ Reg.evtStatus (e / 32)) : (s.latchWords off ev ws).reg x = s.reg x := by
  have hf : ∀ (l : List (Nat × Word)) (z : State), (∀ p ∈ l, x ≠ p.1) → (l.foldl (fun s p => s.setReg p.1 p.2) z).reg x = z.reg x := by
    intro l
    induction l with
    | nil => intros; rfl
    | cons p l ih =>
      intro z hl
      rw [List.foldl_cons, ih _ fun q hq => hl q (List.mem_cons_of_mem _ hq)]
      exact State.reg_setReg_of_ne _ _ (hl p (List.mem_cons_self ..))
  unfold State.latchWords
  cases ev with
  | none => exact hf ws _ hw
  | some e => exact (State.reg_event _ _ _ (he e rfl)).trans (hf ws _ hw)

/-- An occurrence leaves every register but those of its latch and its event. -/
theorem State.reg_latchFirst_of_ne (s : State) (off rank : Nat) (ws : List (Nat × Word)) (ev : Option Nat) (x : Nat)
    (hw : ∀ p ∈ ws, x ≠ p.1) (he : ∀ e ∈ ev, x ≠ Reg.evtStatus (e / 32)) : (s.latchFirst off rank ws ev).reg x = s.reg x := by
  unfold State.latchFirst
  extract_lets best
  clear_value best
  split
  · rfl
  · rename_i z _
    have h : z.reg x = s.reg x := rfl
    clear_value z
    split
    · exact (State.reg_latchWords_of_ne _ _ _ _ _ hw he).trans h
    · exact h

theorem State.setsNow_latchWords (s : State) (off : Nat) (ws : List (Nat × Word)) :
    (s.latchWords off none ws).cyc = (s.noteSet off (2 ^ 31)).cyc := by
  have hf : ∀ (l : List (Nat × Word)) (z : State), (l.foldl (fun s p => s.setReg p.1 p.2) z).cyc = z.cyc := by
    intro l
    induction l with
    | nil => intros; rfl
    | cons p l ih => intro z; rw [List.foldl_cons, ih]; rfl
  exact hf ws _

end Sys2Proof.Machine

namespace Sys2Proof.Safety

open Sys2Proof.Machine

theorem Calm.latchFirst {s : State} {off o : Nat} (h : Calm s o) (rank : Nat) (ws : List (Nat × Word)) (ho : o ≠ off) :
    Calm (s.latchFirst off rank ws) o := by
  unfold State.latchFirst
  extract_lets best
  clear_value best
  split
  · exact h
  · rename_i z _
    have h1 : Calm z o := by
      refine ⟨fun p hp => ?_, h.2⟩
      rcases SMap.mem_ins hp with hp | hp
      · rw [hp]; exact ho.symm
      · exact h.1 p hp
    clear_value z
    split
    · unfold Calm State.setsNow
      rw [State.setsNow_latchWords]
      exact ⟨h1.1, by rw [show SMap.get (fun _ => 0) (z.noteSet off (2 ^ 31)).cyc.sets o = (z.noteSet off (2 ^ 31)).setsNow o from rfl,
        State.setsNow_noteSet, if_neg ho]; exact h1.2⟩
    · exact h1

end Sys2Proof.Safety
end

