-- ==== Sys2Proof/Laws/Stores.lean ====
section
/-!
SUPPORT. What a store by access type leaves, for registers whose fields fill the word.
-/
namespace Sys2Proof.Machine

theorem setBits_all (n v : Nat) (hn : n < 2 ^ 32) : setBits n 31 0 v = v % 2 ^ 32 := by
  unfold setBits bits
  simp
  omega

theorem bits_all (n : Nat) (hn : n < 2 ^ 32) : bits n 31 0 = n := by
  unfold bits; simp; omega

theorem testBit_sub_and (n m i : Nat) : (n - (n &&& m)).testBit i = (n.testBit i && !m.testBit i) := by
  induction i generalizing n m with
  | zero =>
    have h1 : (n &&& m) % 2 = (n % 2) &&& (m % 2) := by
      have := @Nat.and_mod_two_pow n m 1
      simpa using this
    have h3 : n &&& m ≤ n := Nat.and_le_left
    simp only [Nat.testBit_zero]
    generalize n &&& m = k at *
    rcases Nat.mod_two_eq_zero_or_one n with hn | hn <;> rcases Nat.mod_two_eq_zero_or_one m with hm | hm <;> rw [hn, hm] at h1 <;> simp at h1 <;> simp only [hn, hm]
    · rw [show (n - k) % 2 = 0 by omega]; rfl
    · rw [show (n - k) % 2 = 0 by omega]; rfl
    · rw [show (n - k) % 2 = 1 by omega]; rfl
    · rw [show (n - k) % 2 = 0 by omega]; rfl
  | succ i ih =>
    have h1 : (n &&& m) % 2 = (n % 2) &&& (m % 2) := by
      have := @Nat.and_mod_two_pow n m 1
      simpa using this
    have h2 : (n &&& m) / 2 = (n / 2) &&& (m / 2) := by
      have := @Nat.and_div_two_pow n m 1
      simpa using this
    have h3 : n &&& m ≤ n := Nat.and_le_left
    rw [Nat.testBit_succ, Nat.testBit_succ, Nat.testBit_succ, ← ih]
    congr 1
    rw [← h2]
    rcases Nat.mod_two_eq_zero_or_one n with hn | hn <;> rcases Nat.mod_two_eq_zero_or_one m with hm | hm <;> rw [hn, hm] at h1 <;> simp at h1 <;> omega

/-- A store into a register that latches no occurrence. -/
theorem State.relatch_of_not (s : State) {off : Nat} (h : isLatchReg off = false) : s.relatch off = s := by
  unfold State.relatch
  rw [h, Bool.not_false, Bool.or_true, if_pos rfl]

/-- A write to a register that has no W1C field and latches no first occurrence writes its fields. -/
theorem State.store_plain (s : State) (off : Nat) (v : Word) {fs : List RegField} (hg : (regFind off).map (·.fields) = some fs)
    (hm : w1cMask fs = 0) (hl : isLatchReg off = false) :
    s.store off v = (s.noteWrite off).setReg off (word (fieldsWrite fs (s.locked off) (s.reg off).toNat v.toNat)) := by
  obtain ⟨f, hf, rfl⟩ := Option.map_eq_some_iff.1 hg
  unfold State.store
  rw [hf]
  dsimp only
  rw [State.relatch_of_not _ hl]
  unfold State.keptBits
  rw [hm, Nat.zero_and, Nat.zero_and, Nat.or_zero]

/-- What a store leaves of the state but the register: what the cycle notes, and nothing besides. -/
theorem State.store_eq (s : State) (off : Nat) (v : Word) (h : isLatchReg off = false) :
    s.store off v = { s with regs := (s.store off v).regs, cyc := (s.store off v).cyc } := by
  unfold State.store
  split
  · rfl
  · rw [State.relatch_of_not _ h]; rfl

theorem State.reg_store_of_ne (s : State) {off : Nat} (v : Word) (h : isLatchReg off = false) {o : Nat} (ho : o ≠ off) :
    (s.store off v).reg o = s.reg o := by
  unfold State.store
  split
  · rfl
  · rw [State.relatch_of_not _ h]; exact State.reg_setReg_of_ne _ _ ho

theorem State.incsNow_store (s : State) (off : Nat) (v : Word) (h : isLatchReg off = false) (o : Nat) :
    (s.store off v).incsNow o = s.incsNow o := by
  unfold State.store
  split
  · rfl
  · rw [State.relatch_of_not _ h]; rfl

/-- A write of 1 clears a STATUS bit, but for one that hardware has set in this cycle (R8). -/
theorem State.store_evtStatus (s : State) (g : Fin 9) (v : Word) :
    s.store (Reg.evtStatus g.val) v = (s.noteWrite (Reg.evtStatus g.val)).setReg (Reg.evtStatus g.val)
      (s.reg (Reg.evtStatus g.val) &&& (~~~ v ||| word (s.setsNow (Reg.evtStatus g.val)))) := by
  have hg : regFind (Reg.evtStatus g.val) = some ⟨0x100000, [(9, 0x4)], [⟨31, 0, .w1c, 0⟩]⟩ := by revert g; decide
  have hm : w1cMask [⟨31, 0, .w1c, 0⟩] = 2 ^ 32 - 1 := by decide
  unfold State.store
  rw [hg]
  dsimp only
  rw [State.relatch_of_not _ (by revert g; decide)]
  refine congrArg _ ?_
  unfold fieldsWrite State.keptBits
  rw [hm]
  simp only [List.foldl_cons, List.foldl_nil]
  rw [setBits_all _ _ (s.reg _).isLt, bits_all _ (s.reg _).isLt, bits_all _ v.isLt]
  refine BitVec.eq_of_getLsbD_eq fun i hi => ?_
  unfold word
  rw [BitVec.getLsbD_ofNat, Nat.testBit_or, Nat.testBit_mod_two_pow, testBit_sub_and, BitVec.getLsbD_and, BitVec.getLsbD_or,
    BitVec.getLsbD_not, BitVec.getLsbD_ofNat, Nat.testBit_and, Nat.testBit_and, Nat.testBit_two_pow_sub_one, decide_eq_true hi]
  show (true && (true && ((s.reg _).getLsbD i && !v.getLsbD i) || true && (s.reg _).getLsbD i && _)) = _
  cases (s.reg (Reg.evtStatus g.val)).getLsbD i <;> cases v.getLsbD i <;>
    cases (s.setsNow (Reg.evtStatus g.val)).testBit i <;> rfl

theorem State.store_evtEnable (s : State) (g : Fin 9) (v : Word) :
    s.store (Reg.evtEnable g.val) v = (s.noteWrite (Reg.evtEnable g.val)).setReg (Reg.evtEnable g.val) v := by
  have hg : (regFind (Reg.evtEnable g.val)).map (·.fields) = some [⟨31, 0, .rw, 0⟩] := by revert g; decide
  have hl : isLatchReg (Reg.evtEnable g.val) = false := by clear hg; revert g; decide
  obtain ⟨f, hf, hs⟩ := Option.map_eq_some_iff.1 hg
  have hm : w1cMask [⟨31, 0, .rw, 0⟩] = 0 := by decide
  unfold State.store
  rw [hf]
  dsimp only
  rw [hs, State.relatch_of_not _ hl]
  refine congrArg _ ?_
  unfold fieldsWrite State.keptBits
  rw [hm, Nat.zero_and, Nat.zero_and, Nat.or_zero]
  simp only [List.foldl_cons, List.foldl_nil]
  rw [setBits_all _ _ (s.reg _).isLt, bits_all _ v.isLt]
  refine BitVec.eq_of_toNat_eq ?_
  unfold word
  rw [BitVec.toNat_ofNat]
  have := v.isLt
  omega

end Sys2Proof.Machine
end

