-- ==== Sys2Proof/Laws/Access.lean ====
section
/-!
SUPPORT. Accesses: what a Proctor violation records, which bits a register write changes, and counter clears.
-/
namespace Sys2Proof.Machine

open Sys2Proof.Safety

theorem ite_fst_lt (c : Prop) [Decidable c] (x y : Nat × Nat) (n : Nat) (h1 : x.1 < n) (h2 : y.1 < n) : (if c then x else y).1 < n := by
  by_cases h : c
  · rw [if_pos h]; exact h1
  · rw [if_neg h]; exact h2

theorem proctorTarget_lt (o : Nat) : (proctorTarget o).1 < 26 := by
  unfold proctorTarget
  iterate 18 (refine ite_fst_lt _ _ _ 26 (by norm_num) ?_)
  norm_num

theorem State.violation_spec (s : State) (tgt m po : Nat) (hm : m < 32) (hc : Calm s (Reg.prcViol tgt)) :
    let v := s.violation tgt m po true
    v.reg (Reg.prcViolCnt tgt) = word (min 0xFFFFFFFF ((s.reg (Reg.prcViolCnt tgt)).toNat + 1))
    ∧ (s.up 33 = true → v.flag (Reg.evtStatus 6) 6 = true)
    ∧ v.reg (Reg.prcViol tgt) = (if s.flag (Reg.prcViol tgt) 31 then s.reg (Reg.prcViol tgt) else word (2 ^ 31 + 2 ^ 30 + m * 2 ^ 16))
    ∧ v.reg (Reg.prcViolAddrLo tgt) = (if s.flag (Reg.prcViol tgt) 31 then s.reg (Reg.prcViolAddrLo tgt) else word po)
    ∧ v.reg (Reg.prcViolAddrHi tgt) = (if s.flag (Reg.prcViol tgt) 31 then s.reg (Reg.prcViolAddrHi tgt) else word (po / 2 ^ 32 % 16))
    ∧ (∀ x, x ≠ Reg.prcViol tgt → x ≠ Reg.prcViolAddrLo tgt → x ≠ Reg.prcViolAddrHi tgt → x ≠ Reg.prcViolCnt tgt → x ≠ Reg.evtStatus 6 → v.reg x = s.reg x)
    ∧ ∀ o, o ≠ Reg.prcViol tgt → o ≠ Reg.evtStatus 6 → Calm s o → Calm v o := by
  have n1 : Reg.prcViolCnt tgt ≠ Reg.evtStatus 6 := by unfold Reg.prcViolCnt Reg.evtStatus; omega
  have n2 : Reg.prcViol tgt ≠ Reg.evtStatus 6 := by unfold Reg.prcViol Reg.evtStatus; omega
  have n3 : Reg.prcViolAddrLo tgt ≠ Reg.evtStatus 6 := by unfold Reg.prcViolAddrLo Reg.evtStatus; omega
  have n4 : Reg.prcViolAddrHi tgt ≠ Reg.evtStatus 6 := by unfold Reg.prcViolAddrHi Reg.evtStatus; omega
  have d1 : Reg.prcViol tgt ≠ Reg.prcViolCnt tgt := by unfold Reg.prcViol Reg.prcViolCnt; omega
  have d2 : Reg.prcViolAddrLo tgt ≠ Reg.prcViolCnt tgt := by unfold Reg.prcViolAddrLo Reg.prcViolCnt; omega
  have d3 : Reg.prcViolAddrHi tgt ≠ Reg.prcViolCnt tgt := by unfold Reg.prcViolAddrHi Reg.prcViolCnt; omega
  have d4 : Reg.prcViolAddrLo tgt ≠ Reg.prcViol tgt := by unfold Reg.prcViolAddrLo Reg.prcViol; omega
  have d5 : Reg.prcViolAddrHi tgt ≠ Reg.prcViol tgt := by unfold Reg.prcViolAddrHi Reg.prcViol; omega
  have d6 : Reg.prcViolAddrHi tgt ≠ Reg.prcViolAddrLo tgt := by unfold Reg.prcViolAddrHi Reg.prcViolAddrLo; omega
  have hr : ∀ x, x ≠ Reg.prcViolCnt tgt → x ≠ Reg.evtStatus 6 → ((s.bump (Reg.prcViolCnt tgt)).event 198).reg x = s.reg x := by
    intro x h1 h2
    rw [State.reg_event _ _ _ h2, State.reg_bump_of_ne _ _ h1]
  have hf : ((s.bump (Reg.prcViolCnt tgt)).event 198).flag (Reg.prcViol tgt) 31 = s.flag (Reg.prcViol tgt) 31 := by
    unfold State.flag; rw [hr _ d1 n2]
  have hcn : ((s.bump (Reg.prcViolCnt tgt)).event 198).reg (Reg.prcViolCnt tgt) = word (min 0xFFFFFFFF ((s.reg (Reg.prcViolCnt tgt)).toNat + 1)) := by
    rw [State.reg_event _ _ _ n1, State.reg_bump_self]
  have he : s.up 33 = true → ((s.bump (Reg.prcViolCnt tgt)).event 198).flag (Reg.evtStatus 6) 6 = true := fun hu => State.status_event _ 198 hu
  have hq : ∀ o, o ≠ Reg.evtStatus 6 → Calm s o → Calm ((s.bump (Reg.prcViolCnt tgt)).event 198) o := fun o ho hc => Calm.event (s := s.bump (Reg.prcViolCnt tgt)) hc 198 ho
  dsimp only
  unfold State.violation
  generalize (s.bump (Reg.prcViolCnt tgt)).event 198 = y at hr hf hcn he hq ⊢
  have hw : ∀ x, x ≠ Reg.prcViol tgt → x ≠ Reg.prcViolAddrLo tgt → x ≠ Reg.prcViolAddrHi tgt → ∀ p ∈ [(Reg.prcViol tgt, word (2 ^ 31 + bnat true * 2 ^ 30 + m % 32 * 2 ^ 16)), (Reg.prcViolAddrLo tgt, word po),
     (Reg.prcViolAddrHi tgt, word (po / 2 ^ 32 % 16))], x ≠ p.1 := by
    intro x h1 h2 h3 p hp
    simp only [List.mem_cons, List.not_mem_nil, or_false] at hp
    rcases hp with rfl | rfl | rfl
    · exact h1
    · exact h2
    · exact h3
  have hk : ∀ x, x ≠ Reg.prcViol tgt → x ≠ Reg.prcViolAddrLo tgt → x ≠ Reg.prcViolAddrHi tgt → (y.latchFirst (Reg.prcViol tgt) m [(Reg.prcViol tgt, word (2 ^ 31 + bnat true * 2 ^ 30 + m % 32 * 2 ^ 16)), (Reg.prcViolAddrLo tgt, word po),
     (Reg.prcViolAddrHi tgt, word (po / 2 ^ 32 % 16))]).reg x = y.reg x := fun x h1 h2 h3 => State.reg_latchFirst_of_ne _ _ _ _ _ _ (hw x h1 h2 h3) (fun e h => by cases h)
  refine ⟨(hk _ d1.symm d2.symm d3.symm).trans hcn, fun hu => ?_, ?_, ?_, ?_, fun x h1 h2 h3 h4 h5 => (hk x h1 h2 h3).trans (hr x h4 h5), fun o h1 h2 h3 => Calm.latchFirst (hq o h2 h3) _ _ h1⟩
  · unfold State.flag
    rw [hk _ n2.symm n3.symm n4.symm]
    exact he hu
  all_goals
    obtain ⟨z, hz, h⟩ := State.latchFirst_calm (hq _ n2 hc) m [(Reg.prcViol tgt, word (2 ^ 31 + bnat true * 2 ^ 30 + m % 32 * 2 ^ 16)), (Reg.prcViolAddrLo tgt, word po), (Reg.prcViolAddrHi tgt, word (po / 2 ^ 32 % 16))] none
    rw [h, hf]
    have hzr : ∀ x, z.reg x = y.reg x := by intro x; rw [hz]; rfl
    cases s.flag (Reg.prcViol tgt) 31
    · rw [if_neg (by decide), if_neg (by decide)]
      unfold State.latchWords
      dsimp only [List.foldl_cons, List.foldl_nil]
      simp only [State.reg_setReg]
      first
      | rw [if_neg d5.symm, if_neg d4.symm, if_pos trivial, Nat.mod_eq_of_lt hm]; rfl
      | rw [if_neg d6.symm, if_pos trivial]
      | rw [if_pos trivial]
    · rw [if_pos rfl, if_pos rfl, hzr]
      first
      | exact hr _ d1 n2
      | exact hr _ d2 n3
      | exact hr _ d3 n4

def fieldStep (locked : Bool) (v w : Nat) (f : RegField) : Nat :=
    match f.acc with
    | .rw => setBits w f.msb f.lsb (bits v f.msb f.lsb)
    | .rwl => if locked then w else setBits w f.msb f.lsb (bits v f.msb f.lsb)
    | .lck => setBits w f.msb f.lsb (bits w f.msb f.lsb ||| bits v f.msb f.lsb)
    | .w1c => setBits w f.msb f.lsb (bits w f.msb f.lsb - (bits w f.msb f.lsb &&& bits v f.msb f.lsb))
    | _ => w

theorem testBit_fieldStep_outside (locked : Bool) (v w i : Nat) (f : RegField) (h0 : f.lsb ≤ f.msb) (h : i < f.lsb ∨ f.msb < i) : (fieldStep locked v w f).testBit i = w.testBit i := by
  have hn : ¬ (f.lsb ≤ i ∧ i ≤ f.msb) := by omega
  unfold fieldStep
  split
  · rw [testBit_setBits _ _ _ _ _ (by omega), if_neg hn]
  · split
    · rfl
    · rw [testBit_setBits _ _ _ _ _ (by omega), if_neg hn]
  · rw [testBit_setBits _ _ _ _ _ (by omega), if_neg hn]
  · rw [testBit_setBits _ _ _ _ _ (by omega), if_neg hn]
  · rfl

def accessBit (acc : Access) (locked old v : Bool) : Bool :=
  match acc with
            | .rw => v
            | .rwl => if locked then old else v
            | .lck => old || v
            | .w1c => old && !v
            | _ => old

theorem testBit_fieldStep_inside (locked : Bool) (v w i : Nat) (f : RegField) (h : f.lsb ≤ i) (h' : i ≤ f.msb) : (fieldStep locked v w f).testBit i = accessBit f.acc locked (w.testBit i) (v.testBit i) := by
  have hb : ∀ n, (bits n f.msb f.lsb).testBit (i - f.lsb) = n.testBit i := by
    intro n
    rw [testBit_bits, decide_eq_true (by omega), Bool.true_and]; congr 1; omega
  unfold fieldStep accessBit
  split
  · rw [testBit_setBits _ _ _ _ _ (by omega), if_pos ⟨h, h'⟩, hb]
  · split
    · rfl
    · rw [testBit_setBits _ _ _ _ _ (by omega), if_pos ⟨h, h'⟩, hb]
  · rw [testBit_setBits _ _ _ _ _ (by omega), if_pos ⟨h, h'⟩, Nat.testBit_or, hb, hb]
  · rw [testBit_setBits _ _ _ _ _ (by omega), if_pos ⟨h, h'⟩, testBit_sub_and, hb, hb]
  · rfl

theorem accessBit_idem (a : Access) (l o v : Bool) : accessBit a l (accessBit a l o v) v = accessBit a l o v := by
  cases a <;> cases l <;> cases o <;> cases v <;> rfl

theorem testBit_fields_inside (locked : Bool) (v i : Nat) (f : RegField) (hi : f.lsb ≤ i) (hi' : i ≤ f.msb) (fs : List RegField) (w : Nat)
    (hd : ∀ f' ∈ fs, f' ≠ f → f'.lsb ≤ f'.msb ∧ (i < f'.lsb ∨ f'.msb < i)) :
    (f ∈ fs → (fs.foldl (fieldStep locked v) w).testBit i = accessBit f.acc locked (w.testBit i) (v.testBit i))
    ∧ (w.testBit i = accessBit f.acc locked (w.testBit i) (v.testBit i) → (fs.foldl (fieldStep locked v) w).testBit i = w.testBit i) := by
  induction fs generalizing w with
  | nil => exact ⟨fun h => absurd h List.not_mem_nil, fun _ => rfl⟩
  | cons a fs ih =>
    have hd' := fun f' hf => hd f' (List.mem_cons_of_mem _ hf)
    rw [List.foldl_cons]
    by_cases ha : a = f
    · subst ha
      have e := testBit_fieldStep_inside locked v w i a hi hi'
      have := (ih (fieldStep locked v w a) hd').2 (by rw [e, accessBit_idem])
      refine ⟨fun _ => by rw [this, e], fun h => by rw [this, e, ← h]⟩
    · have e := testBit_fieldStep_outside locked v w i a (hd a (List.mem_cons_self ..) ha).1 (hd a (List.mem_cons_self ..) ha).2
      have := ih (fieldStep locked v w a) hd'
      rw [e] at this
      exact ⟨fun h => this.1 ((List.mem_cons.1 h).resolve_left (fun h => ha h.symm)), this.2⟩

theorem testBit_fields_outside (locked : Bool) (v i : Nat) (fs : List RegField) (w : Nat) (hd : ∀ f' ∈ fs, f'.lsb ≤ f'.msb ∧ (i < f'.lsb ∨ f'.msb < i)) :
    (fs.foldl (fieldStep locked v) w).testBit i = w.testBit i := by
  induction fs generalizing w with
  | nil => rfl
  | cons a fs ih =>
    rw [List.foldl_cons, ih _ fun f' hf => hd f' (List.mem_cons_of_mem _ hf), testBit_fieldStep_outside locked v w i a (hd a (List.mem_cons_self ..)).1 (hd a (List.mem_cons_self ..)).2]

def w1cStep (m : Nat) (f : RegField) : Nat := if f.acc = .w1c then setBits m f.msb f.lsb (2 ^ (f.msb + 1 - f.lsb) - 1) else m

theorem testBit_w1cStep_inside (m i : Nat) (f : RegField) (h : f.lsb ≤ i) (h' : i ≤ f.msb) : (w1cStep m f).testBit i = (decide (f.acc = .w1c) || m.testBit i) := by
  unfold w1cStep
  by_cases e : f.acc = .w1c
  · rw [if_pos e, testBit_setBits _ _ _ _ _ (by omega), if_pos ⟨h, h'⟩, Nat.testBit_two_pow_sub_one, decide_eq_true (by omega), decide_eq_true e]; rfl
  · rw [if_neg e, decide_eq_false e]; rfl

theorem testBit_w1cStep_outside (m i : Nat) (f : RegField) (h0 : f.lsb ≤ f.msb) (h : i < f.lsb ∨ f.msb < i) : (w1cStep m f).testBit i = m.testBit i := by
  unfold w1cStep
  split
  · rw [testBit_setBits _ _ _ _ _ (by omega), if_neg (by omega)]
  · rfl

theorem testBit_w1cMask_inside (i : Nat) (f : RegField) (hi : f.lsb ≤ i) (hi' : i ≤ f.msb) (fs : List RegField) (m : Nat)
    (hd : ∀ f' ∈ fs, f' ≠ f → f'.lsb ≤ f'.msb ∧ (i < f'.lsb ∨ f'.msb < i)) :
    (fs.foldl w1cStep m).testBit i = (m.testBit i || (decide (f ∈ fs) && decide (f.acc = .w1c))) := by
  induction fs generalizing m with
  | nil => simp
  | cons a fs ih =>
    rw [List.foldl_cons, ih _ fun f' hf => hd f' (List.mem_cons_of_mem _ hf)]
    by_cases ha : a = f
    · subst ha
      rw [testBit_w1cStep_inside _ _ _ hi hi']
      simp only [List.mem_cons, true_or, decide_true, Bool.true_and]
      cases decide (a.acc = .w1c) <;> cases m.testBit i <;> simp
    · rw [testBit_w1cStep_outside _ _ _ (hd a (List.mem_cons_self ..) ha).1 (hd a (List.mem_cons_self ..) ha).2]
      have : (f ∈ a :: fs) ↔ f ∈ fs := by rw [List.mem_cons]; exact ⟨fun h => h.resolve_left (fun h => ha h.symm), .inr⟩
      simp only [this]

theorem testBit_w1cMask_outside (i : Nat) (fs : List RegField) (m : Nat) (hd : ∀ f' ∈ fs, f'.lsb ≤ f'.msb ∧ (i < f'.lsb ∨ f'.msb < i)) :
    (fs.foldl w1cStep m).testBit i = m.testBit i := by
  induction fs generalizing m with
  | nil => rfl
  | cons a fs ih =>
    rw [List.foldl_cons, ih _ fun f' hf => hd f' (List.mem_cons_of_mem _ hf), testBit_w1cStep_outside _ _ _ (hd a (List.mem_cons_self ..)).1 (hd a (List.mem_cons_self ..)).2]

theorem State.relatch_none (z : State) (off : Nat) (h : isLatchReg off = true → ∀ p ∈ z.cyc.firsts, p.1 ≠ off) : z.relatch off = z := by
  unfold State.relatch
  split
  · rfl
  · rename_i hc
    have hl : isLatchReg off = true := by
      cases h' : isLatchReg off
      · exact absurd (by rw [h']; simp) hc
      · rfl
    rw [List.find?_eq_none.2 fun p hp e => h hl p hp (beq_iff_eq.1 e)]

theorem mem_counter_run (off n o : Nat) : (∃ i, i < n ∧ o = off + 4 * i) ↔ o ∈ (List.range n).map (off + 4 * ·) := by
  simp only [List.mem_map, List.mem_range]
  constructor
  · rintro ⟨i, h, rfl⟩; exact ⟨i, h, rfl⟩
  · rintro ⟨i, h, rfl⟩; exact ⟨i, h, rfl⟩

theorem State.reg_clrRegs_mem (z : State) (off n o : Nat) : (z.clrRegs off n).reg o = if o ∈ (List.range n).map (off + 4 * ·) then word (min 0xFFFFFFFF (z.incsNow o)) else z.reg o := by
  rw [State.reg_clrRegs]
  by_cases h : ∃ i, i < n ∧ o = off + 4 * i
  · rw [if_pos h, if_pos ((mem_counter_run ..).1 h)]
  · rw [if_neg h, if_neg (fun e => h ((mem_counter_run ..).2 e))]

theorem State.reg_clrRegs_two (z : State) (a n b m o : Nat) : ((z.clrRegs a n).clrRegs b m).reg o = if o ∈ (List.range n).map (a + 4 * ·) ++ (List.range m).map (b + 4 * ·) then word (min 0xFFFFFFFF (z.incsNow o)) else z.reg o := by
  rw [State.reg_clrRegs_mem, State.reg_clrRegs_mem, State.incsNow_clrRegs]
  by_cases h1 : o ∈ (List.range m).map (b + 4 * ·)
  · rw [if_pos h1, if_pos (List.mem_append_right _ h1)]
  · rw [if_neg h1]
    by_cases h2 : o ∈ (List.range n).map (a + 4 * ·)
    · rw [if_pos h2, if_pos (List.mem_append_left _ h2)]
    · rw [if_neg h2, if_neg (fun e => (List.mem_append.1 e).elim h2 h1)]

theorem regsOnly_trans {z q r : State} (h1 : q = { z with regs := q.regs }) (h2 : r = { q with regs := r.regs }) : r = { z with regs := r.regs } :=
  h2.trans (congrArg (fun y : State => { y with regs := r.regs }) h1)

theorem State.setReg_regsOnly (q : State) (off : Nat) (v : Word) : q.setReg off v = { q with regs := (q.setReg off v).regs } := rfl

theorem bits_15_8 (n : Nat) : bits n 15 8 = n / 256 % 256 := by simp [bits, Nat.shiftRight_eq_div_pow]

theorem bits_7_0 (n : Nat) : bits n 7 0 = n % 256 := by unfold bits; rfl

theorem bits_3_0 (n : Nat) : bits n 3 0 = n % 16 := by unfold bits; rfl

theorem bits_39_8 (n : Nat) : bits n 39 8 = n / 256 % 2 ^ 32 := by unfold bits; rw [Nat.shiftRight_eq_div_pow]

end Sys2Proof.Machine
end

