-- ==== Sys2Proof/Laws/Dram.lean ====
section
/-!
SUPPORT. The memory controller: channels, drains, poison and an accepted write.
-/
namespace Sys2Proof.Machine

open Sys2Proof.Safety

theorem State.chan_setChan_get (s : State) (c d : Nat) (v : Chan) : (s.setChan c v).chan d = if d = c then v else s.chan d := SMap.get_put ..

theorem State.drainLevel_only (s : State) (c : Nat) : s.drainLevel c = { s with dmc := { s.dmc with chans := (s.drainLevel c).dmc.chans } } := by
  unfold State.drainLevel
  dsimp only
  split
  · rfl
  · split <;> rfl

theorem State.drainLevel_chan (s : State) (c d : Nat) : (s.drainLevel c).chan d = if d = c then { s.chan c with drain := (if s.fld Reg.dmcWm 13 8 ≤ (s.chan c).writes.length then true else if (s.chan c).writes.length ≤ s.fld Reg.dmcWm 5 0 then false else (s.chan c).drain) } else s.chan d := by
  unfold State.drainLevel
  dsimp only
  split
  · rw [State.chan_setChan_get]
  · split
    · rw [State.chan_setChan_get]
    · by_cases h : d = c
      · rw [if_pos h, h]
      · rw [if_neg h]

theorem State.byteAt_store (s : State) (a : Nat) (bs : List Byte) (x : Nat) : State.byteAt { s with dmc := { s.dmc with dram := Memory.store s.dmc.dram a bs } } x =
    if a ≤ x ∧ x < a + bs.length then bs.getD (x - a) 0 else s.byteAt x := by
  show SMap.get dramDefault (SMap.store dramDefault s.dmc.dram a bs) x = _
  rw [SMap.get_store]
  split
  · next h => rw [List.getD_eq_getElem?_getD, List.getElem?_eq_getElem (by omega)]; rfl
  · rfl

theorem State.poisoned_setPoison (s : State) (ln l : Nat) : (s.setPoison ln false).poisoned l = true ↔ s.poisoned l = true ∧ l ≠ ln := by
  unfold State.setPoison State.poisoned nsPut
  simp [List.mem_filter]

theorem memChannel_line (a : Nat) : (memChannel (64 * (a / 64))).1 = (memChannel a).1 := by
  unfold memChannel memGroup
  by_cases h0 : a < 0x1000000000
  · rw [if_pos h0, if_pos (by omega)]
    dsimp only
    omega
  · rw [if_neg h0, if_neg (by omega)]
    by_cases h1 : a < 0x1C00000000
    · rw [if_pos h1, if_pos (by omega)]
      dsimp only
      omega
    · rw [if_neg h1, if_neg (by omega)]
      by_cases h2 : a < 0x1E00000000
      · rw [if_pos h2, if_pos (by omega)]
        dsimp only
        omega
      · rw [if_neg h2, if_neg (by omega)]
        by_cases h3 : a < 0x2000000000
        · rw [if_pos h3, if_pos (by omega)]
          dsimp only
          omega
        · rw [if_neg h3, if_neg (by omega)]

/-- What the DRAM part of the state says of a channel: its reads of the line keep what they saw. -/
theorem keepReads_eq (s : State) (c ln : Nat) : ∃ C, s.keepReads c ln (ln + 1) = { s with dmc := { s.dmc with chans := C } }
    ∧ (∀ d, (s.keepReads c ln (ln + 1)).chan d = if d = c then { s.chan c with reads := (s.chan c).reads.map fun q =>
        if q.kept = none ∧ q.line / 64 = ln then { q with kept := some (if s.poisoned ln = true then none else some (s.bytesAt q.line 64)) } else q } else s.chan d) := by
  have hq : ∀ q : MemReq, (q.kept.isNone && decide (ln ≤ q.line / 64) && decide (q.line / 64 < ln + 1)) = true ↔ q.kept = none ∧ q.line / 64 = ln := by
    intro q
    rw [Bool.and_eq_true, Bool.and_eq_true, decide_eq_true_eq, decide_eq_true_eq, Option.isNone_iff_eq_none]
    exact ⟨fun h => ⟨h.1.1, by omega⟩, fun h => ⟨⟨h.1, by omega⟩, by omega⟩⟩
  have hm : ∀ q : MemReq, (if (q.kept.isNone && decide (ln ≤ q.line / 64) && decide (q.line / 64 < ln + 1)) = true then { q with kept := some (if s.poisoned (q.line / 64) then none else some (s.bytesAt q.line 64)) } else q) =
      if q.kept = none ∧ q.line / 64 = ln then { q with kept := some (if s.poisoned ln = true then none else some (s.bytesAt q.line 64)) } else q := by
    intro q
    by_cases h : q.kept = none ∧ q.line / 64 = ln
    · rw [if_pos ((hq q).2 h), if_pos h, h.2]
    · rw [if_neg (fun x => h ((hq q).1 x)), if_neg h]
  unfold State.keepReads
  dsimp only
  split
  · refine ⟨_, rfl, fun d => ?_⟩
    rw [State.chan_setChan_get]
    simp only [hm]
  · next h =>
    refine ⟨s.dmc.chans, rfl, fun d => ?_⟩
    by_cases e : d = c
    · rw [if_pos e, e]
      have : (s.chan c).reads.map (fun q => if q.kept = none ∧ q.line / 64 = ln then { q with kept := some (if s.poisoned ln = true then none else some (s.bytesAt q.line 64)) } else q) = (s.chan c).reads := by
        refine (List.map_congr_left fun q hq' => if_neg fun y => ?_).trans (List.map_id _)
        exact h (List.any_eq_true.2 ⟨q, hq', (hq q).2 y⟩)
      rw [this]
    · rw [if_neg e]

/-- The bytes of an accepted write of one line. -/
theorem State.putLine_eq (s : State) (a : Nat) (bs : List Byte) :
    let t := s.putLine a bs
    let c := (memChannel a).1
    t = { s with dmc := t.dmc }
    ∧ (∀ d, t.chan d = if d = c then { s.chan c with reads := (s.chan c).reads.map fun q =>
        if q.kept = none ∧ q.line / 64 = a / 64 then { q with kept := some (if s.poisoned (a / 64) = true then none else some (s.bytesAt q.line 64)) } else q } else s.chan d)
    ∧ (∀ x, t.byteAt x = if (bs.length = 64 ∨ s.poisoned (a / 64) = false) ∧ a ≤ x ∧ x < a + bs.length then bs.getD (x - a) 0 else s.byteAt x)
    ∧ ∀ l, t.poisoned l = true ↔ s.poisoned l = true ∧ ¬ (bs.length = 64 ∧ l = a / 64) := by
  intro t c
  obtain ⟨C, hC, hc⟩ := keepReads_eq s (memChannel a).1 (a / 64)
  obtain ⟨y, hy⟩ : ∃ y, y = (s.keepReads (memChannel a).1 (a / 64) (a / 64 + 1)).dropScrub (a / 64) := ⟨_, rfl⟩
  have y1 : y = { s with dmc := y.dmc } := by rw [hy, hC]; rfl
  have y2 : ∀ d, y.chan d = (s.keepReads (memChannel a).1 (a / 64) (a / 64 + 1)).chan d := fun d => by rw [hy]; rfl
  have y3 : ∀ x, y.byteAt x = s.byteAt x := fun x => by rw [hy, hC]; rfl
  have y4 : ∀ l, y.poisoned l = s.poisoned l := fun l => by rw [hy, hC]; rfl
  have ht : t = if bs.length = 64 then { (y.setPoison (a / 64) false).setSoft (a / 64) false with dmc := { ((y.setPoison (a / 64) false).setSoft (a / 64) false).dmc with dram := Memory.store ((y.setPoison (a / 64) false).setSoft (a / 64) false).dmc.dram a bs } }
      else if y.poisoned (a / 64) then y else { y with dmc := { y.dmc with dram := Memory.store y.dmc.dram a bs } } := by
    rw [hy]; rfl
  by_cases hl : bs.length = 64
  · rw [if_pos hl] at ht
    refine ⟨?_, fun d => ?_, fun x => ?_, fun l => ?_⟩
    · rw [ht, y1]; rfl
    · have : t.chan d = y.chan d := by rw [ht]; rfl
      rw [this, y2, hc]
    · rw [ht, State.byteAt_store]
      simp only [hl, true_or, true_and]
      exact congrArg (fun z => if a ≤ x ∧ x < a + 64 then bs.getD (x - a) 0 else z) (y3 x)
    · have : t.poisoned l = (y.setPoison (a / 64) false).poisoned l := by rw [ht]; rfl
      rw [this, State.poisoned_setPoison, y4]
      simp only [hl, true_and]
  · rw [if_neg hl, y4] at ht
    by_cases hp : s.poisoned (a / 64) = true
    · rw [if_pos hp] at ht
      refine ⟨?_, fun d => ?_, fun x => ?_, fun l => ?_⟩
      · rw [ht]; exact y1
      · rw [ht, y2, hc]
      · rw [ht, y3, if_neg]
        rintro ⟨h | h, -⟩
        · exact hl h
        · exact absurd (hp.symm.trans h) nofun
      · rw [ht, y4]
        exact ⟨fun h => ⟨h, fun e => hl e.1⟩, fun h => h.1⟩
    · rw [if_neg hp] at ht
      rw [Bool.not_eq_true] at hp
      refine ⟨?_, fun d => ?_, fun x => ?_, fun l => ?_⟩
      · rw [ht, y1]
      · have : t.chan d = y.chan d := by rw [ht]; rfl
        rw [this, y2, hc]
      · rw [ht, State.byteAt_store]
        simp only [hp, or_true, true_and]
        exact congrArg (fun z => if a ≤ x ∧ x < a + bs.length then bs.getD (x - a) 0 else z) (y3 x)
      · have : t.poisoned l = y.poisoned l := by rw [ht]; rfl
        rw [this, y4]
        exact ⟨fun h => ⟨h, fun e => hl e.1⟩, fun h => h.1⟩

theorem State.acceptWrite_spec (s : State) (r : PortReq) (hs : r.scrub = false) :
    let c := r.chan
    let ln := r.line
    let ch := s.chan c
    let t := s.acceptWrite r
    ∃ W : List MemReq, (ch.writes.any (fun w => w.line == 64 * ln) = true →
          W = ch.writes.map fun w => if w.line = 64 * ln then { w with merge := w.merge && decide (r.data.length ≠ 64) } else w)
      ∧ (ch.writes.any (fun w => w.line == 64 * ln) = false → W = ch.writes ++ [{ master := r.master, line := 64 * ln, at_ := r.at_, target := r.target, merge := decide (r.data.length ≠ 64) }])
      ∧ t.chan c = { ch with
          writes := W
          reads := ch.reads.map fun q => if q.kept = none ∧ q.line / 64 = ln then
            { q with kept := some (if s.poisoned ln = true then none else some (s.bytesAt q.line 64)) } else q
          drain := if s.fld Reg.dmcWm 13 8 ≤ W.length then true else if W.length ≤ s.fld Reg.dmcWm 5 0 then false else ch.drain }
      ∧ (∀ d, d ≠ c → t.chan d = s.chan d)
      ∧ (∀ x, t.byteAt x = if (r.data.length = 64 ∨ s.poisoned ln = false) ∧ r.addr ≤ x ∧ x < r.addr + r.data.length
          then r.data.getD (x - r.addr) 0 else s.byteAt x)
      ∧ (∀ l, t.poisoned l = true ↔ s.poisoned l = true ∧ ¬ (r.data.length = 64 ∧ l = ln))
      ∧ t = { s with dmc := t.dmc, cyc := { s.cyc with answers := s.cyc.answers ++ [⟨r.master, true, ln, [], false⟩] } } := by
  intro c ln ch t
  have hw : (!(r.data.length == 64)) = decide (r.data.length ≠ 64) := by
    by_cases h : r.data.length = 64 <;> simp [h]
  obtain ⟨y, hy⟩ : ∃ y, y = if (ch.writes.any fun w => w.line == 64 * ln) = true then s.joinWrite ln (r.data.length == 64)
    else s.setChan c { ch with writes := ch.writes ++ [{ master := r.master, line := 64 * ln, at_ := r.at_, target := r.target, merge := !(r.data.length == 64) }] } := ⟨_, rfl⟩
  have hcl : (memChannel (64 * ln)).1 = c := memChannel_line r.addr
  have y1 : ∃ C, y = { s with dmc := { s.dmc with chans := C } } := by
    rw [hy]; split
    · exact ⟨_, rfl⟩
    · exact ⟨_, rfl⟩
  have y2 : ∃ W : List MemReq, (ch.writes.any (fun w => w.line == 64 * ln) = true →
          W = ch.writes.map fun w => if w.line = 64 * ln then { w with merge := w.merge && decide (r.data.length ≠ 64) } else w)
      ∧ (ch.writes.any (fun w => w.line == 64 * ln) = false → W = ch.writes ++ [{ master := r.master, line := 64 * ln, at_ := r.at_, target := r.target, merge := decide (r.data.length ≠ 64) }])
      ∧ ∀ d, y.chan d = if d = c then { ch with writes := W } else s.chan d := by
    by_cases hh : (ch.writes.any fun w => w.line == 64 * ln) = true
    · refine ⟨_, fun _ => rfl, fun h => absurd (hh.symm.trans h) nofun, fun d => ?_⟩
      rw [hy, if_pos hh]
      unfold State.joinWrite
      dsimp only
      rw [State.chan_setChan_get, hcl, hw]
      simp only [beq_iff_eq]
      rfl
    · refine ⟨_, fun h => absurd h hh, fun _ => rfl, fun d => ?_⟩
      rw [hy, if_neg hh, State.chan_setChan_get, hw]
  obtain ⟨C, y1⟩ := y1
  obtain ⟨W, w1, w2, w3⟩ := y2
  have hp := State.putLine_eq y r.addr r.data
  obtain ⟨z, hz⟩ : ∃ z, z = y.putLine r.addr r.data := ⟨_, rfl⟩
  have ht : t = (z.drainLevel c).answer ⟨r.master, true, ln, [], false⟩ := by
    rw [hz, hy]
    show s.acceptWrite r = _
    unfold State.acceptWrite
    dsimp only
    rw [if_neg (by rw [hs]; decide)]
  dsimp only at hp
  rw [← hz] at hp
  obtain ⟨p1, p2, p3, p4⟩ := hp
  have yp : ∀ l, y.poisoned l = s.poisoned l := fun l => by rw [y1]; rfl
  have yb : ∀ l, y.byteAt l = s.byteAt l := fun l => by rw [y1]; rfl
  have yl : ∀ a n, y.bytesAt a n = s.bytesAt a n := fun l n => by rw [y1]; rfl
  have tc : ∀ d, t.chan d = (z.drainLevel c).chan d := fun d => by rw [ht]; rfl
  refine ⟨W, w1, w2, ?_, fun d hd => ?_, fun x => ?_, fun l => ?_, ?_⟩
  · have hf : ∀ hi lo, z.fld Reg.dmcWm hi lo = s.fld Reg.dmcWm hi lo := fun hi lo => by rw [p1, y1]; rfl
    rw [tc, State.drainLevel_chan, if_pos rfl, hf, hf, p2, if_pos (show c = (memChannel r.addr).1 from rfl)]
    have e : y.chan (memChannel r.addr).1 = { ch with writes := W } := (w3 _).trans (if_pos rfl)
    rw [e]
    simp only [yp, yl]
    rfl
  · rw [tc, State.drainLevel_chan, if_neg hd, p2, if_neg (show d ≠ (memChannel r.addr).1 from hd), w3, if_neg hd]
  · have : t.byteAt x = z.byteAt x := by rw [ht, State.drainLevel_only]; rfl
    rw [this, p3, yb, yp]
    rfl
  · have : t.poisoned l = z.poisoned l := by rw [ht, State.drainLevel_only]; rfl
    rw [this, p4, yp]
    rfl
  · rw [ht, State.drainLevel_only, p1, y1]
    rfl

theorem forceDrain_foldl (g m : Nat) (s : State) (n : Nat) :
    let t := (List.range n).foldl (fun s c =>
      if s.dmc.ports.any fun r => r.write && r.group == g && r.master == m && r.chan == c then s.setChan c { s.chan c with forced := (s.chan c).forced ++ [(m, s.now)] } else s) s
    t = { s with dmc := { s.dmc with chans := t.dmc.chans } }
      ∧ ∀ c, t.chan c = if c < n ∧ (∃ r ∈ s.dmc.ports, ((r.write = true ∧ r.group = g) ∧ r.master = m) ∧ r.chan = c) then
        { s.chan c with forced := (s.chan c).forced ++ [(m, s.now)] } else s.chan c := by
  induction n with
  | zero => exact ⟨rfl, fun c => (if_neg (by omega)).symm⟩
  | succ n ih =>
    obtain ⟨h1, h2⟩ := ih
    rw [List.range_succ, List.foldl_append]
    simp only [List.foldl_cons, List.foldl_nil]
    generalize List.foldl _ s (List.range n) = q at h1 h2 ⊢
    have hq : q.chan n = s.chan n := by rw [h2]; exact if_neg (by omega)
    have hn : q.now = s.now := by rw [h1]
    have hd : q.dmc.ports = s.dmc.ports := by rw [h1]
    have hc : (q.dmc.ports.any fun r => r.write && r.group == g && r.master == m && r.chan == n) = true ↔ ∃ r ∈ s.dmc.ports, ((r.write = true ∧ r.group = g) ∧ r.master = m) ∧ r.chan = n := by
      rw [hd]; simp only [List.any_eq_true, Bool.and_eq_true, beq_iff_eq]
    by_cases hh : ∃ r ∈ s.dmc.ports, ((r.write = true ∧ r.group = g) ∧ r.master = m) ∧ r.chan = n
    · rw [if_pos (hc.2 hh)]
      refine ⟨?_, fun c => ?_⟩
      · exact congrArg (fun y : State => y.setChan n { q.chan n with forced := (q.chan n).forced ++ [(m, q.now)] }) h1
      · rw [State.chan_setChan_get, hn]
        by_cases e : c = n
        · rw [if_pos e, e, hq, if_pos ⟨by omega, hh⟩]
        · rw [if_neg e, h2]
          refine if_congr (and_congr ?_ Iff.rfl) rfl rfl
          omega
    · rw [if_neg (fun x => hh (hc.1 x))]
      refine ⟨h1, fun c => ?_⟩
      rw [h2]
      by_cases e : c = n
      · rw [if_neg (by omega), if_neg (by rw [e]; exact fun x => hh x.2)]
      · refine if_congr (and_congr ?_ Iff.rfl) rfl rfl
        omega

theorem chanFail_foldl (rs : List MemReq) (s : State) : rs.foldl (fun s r => s.memError false r.master r.line 64) s = { s with cyc := { s.cyc with
        answers := s.cyc.answers ++ rs.map fun r => ⟨r.master, false, r.line / 64, List.replicate 64 0, true⟩ } } := by
  induction rs generalizing s with
  | nil => rw [List.map_nil, List.append_nil]; rfl
  | cons r rs ih =>
    rw [List.foldl_cons, ih]
    show _ = _
    unfold State.memError State.answer
    dsimp only
    simp only [List.map_cons, List.append_assoc, List.cons_append, List.nil_append, Bool.false_eq_true, if_false]

end Sys2Proof.Machine
end

