-- ==== Sys2Proof/Laws/Events.lean ====
section
/-!
SUPPORT. What an assertion and an occurrence of an event reach (15 R348, R349).
-/
namespace Sys2Proof.Safety

open Sys2Proof.Machine

theorem assertEvent_asserts (s : State) (e : Nat) :
    (∀ v, v < 64 → ((s.assertEvent e).host.msixPend.getLsbD v = true ↔ s.host.msixPend.getLsbD v = true ∨ ((s.flag (Reg.evtRoute e) 29 && s.up 37) = true ∧ s.fld (Reg.evtRoute e) 5 0 = v)))
    ∧ ∀ j, j < 288 → ((s.assertEvent e).asm.alarms.getLsbD j = true ↔ s.asm.alarms.getLsbD j = true ∨ (j = e ∧ s.flag (Reg.evtRoute e) 30 = true)) := by
  have pow : ∀ w k i : Nat, i < w → ((BitVec.ofNat w (2 ^ k)).getLsbD i = true ↔ k = i) := by
    intro w k i hi; rw [BitVec.getLsbD_ofNat, Nat.testBit_two_pow]; simp [hi]
  have fl : ∀ (z : State) p o b, State.flag { z with host := { z.host with msixPend := p } } o b = z.flag o b := fun _ _ _ _ => rfl
  unfold State.assertEvent
  dsimp only
  refine ⟨fun v hv => ?_, fun j hj => ?_⟩
  · have : ∀ (z : State) (c : Bool), (if c then ({ z with asm := { z.asm with alarms := z.asm.alarms ||| BitVec.ofNat 288 (2 ^ e), portA := { z.asm.portA with contStop := false }, portB := { z.asm.portB with contStop := false } } } : State) else z).host.msixPend = z.host.msixPend := by
      intro z c; cases c <;> rfl
    rw [this]
    cases h : (s.flag (Reg.evtRoute e) 29 && s.up 37)
    · simp
    · rw [if_pos rfl]
      dsimp only
      rw [BitVec.getLsbD_or, Bool.or_eq_true, pow _ _ _ hv]; simp
  · have e1 : ∀ c : Bool, (if c then ({ s with host := { s.host with msixPend := s.host.msixPend ||| BitVec.ofNat 64 (2 ^ s.fld (Reg.evtRoute e) 5 0) } } : State) else s).asm = s.asm := by
      intro c; cases c <;> rfl
    have e2 : ∀ c : Bool, (if c then ({ s with host := { s.host with msixPend := s.host.msixPend ||| BitVec.ofNat 64 (2 ^ s.fld (Reg.evtRoute e) 5 0) } } : State) else s).flag (Reg.evtRoute e) 30 = s.flag (Reg.evtRoute e) 30 := by
      intro c; cases c <;> rfl
    generalize hz : (if (s.flag (Reg.evtRoute e) 29 && s.up 37) = true then ({ s with host := { s.host with msixPend := s.host.msixPend ||| BitVec.ofNat 64 (2 ^ s.fld (Reg.evtRoute e) 5 0) } } : State) else s) = z
    have a1 : z.asm = s.asm := by rw [← hz]; exact e1 _
    have a2 : z.flag (Reg.evtRoute e) 30 = s.flag (Reg.evtRoute e) 30 := by rw [← hz]; exact e2 _
    rw [a1, a2]
    cases h : s.flag (Reg.evtRoute e) 30
    · rw [if_neg (by simp), a1]; simp
    · cases ha : s.asm.alarms.getLsbD e
      · rw [if_pos (by simp)]
        dsimp only
        rw [BitVec.getLsbD_or, Bool.or_eq_true, pow _ _ _ hj]
        exact or_congr_right ⟨fun h => ⟨h.symm, rfl⟩, fun h => h.1.symm⟩
      · rw [if_neg (by simp), a1]
        refine ⟨.inl, fun h => h.elim id fun h => by rw [h.1, ha]⟩

theorem Asserts.none {P : Nat → Prop} (h : ∀ e, ¬ P e) {s t : State} (h1 : t.host.msixPend = s.host.msixPend) (h2 : t.asm.alarms = s.asm.alarms) : Asserts P s t := by
  refine ⟨fun v _ => ?_, fun e _ => ?_⟩
  · rw [h1]; exact ⟨.inl, fun h' => h'.elim id fun ⟨e, he, _⟩ => absurd he (h e)⟩
  · rw [h2]; exact ⟨.inl, fun h' => h'.elim id fun he => absurd he.1 (h e)⟩

theorem Asserts.assertEvent {P Q : Nat → Prop} {s q : State} (e : Nat) (h : Asserts P s q) (hr : ∀ e, q.reg (Reg.evtRoute e) = s.reg (Reg.evtRoute e))
    (hu : q.up 37 = s.up 37) (hQ : ∀ i, Q i ↔ P i ∨ i = e) : Asserts Q s (q.assertEvent e) := by
  have a := assertEvent_asserts q e
  have hf : ∀ e b, q.flag (Reg.evtRoute e) b = s.flag (Reg.evtRoute e) b := fun e b => by unfold State.flag; rw [hr]
  have hd : q.fld (Reg.evtRoute e) 5 0 = s.fld (Reg.evtRoute e) 5 0 := by unfold State.fld; rw [hr]
  rw [hf, hf, hd, hu] at a
  refine ⟨fun v hv => ?_, fun j hj => ?_⟩
  · rw [a.1 v hv, h.1 v hv]
    constructor
    · rintro ((h | ⟨i, h1, h2⟩) | h)
      · exact .inl h
      · exact .inr ⟨i, (hQ i).2 (.inl h1), h2⟩
      · exact .inr ⟨e, (hQ e).2 (.inr rfl), h⟩
    · rintro (h | ⟨i, h1, h2⟩)
      · exact .inl (.inl h)
      · rcases (hQ i).1 h1 with h1 | rfl
        · exact .inl (.inr ⟨i, h1, h2⟩)
        · exact .inr h2
  · rw [a.2 j hj, h.2 j hj, hQ]
    constructor
    · rintro ((h | ⟨h1, h2⟩) | ⟨rfl, h⟩)
      · exact .inl h
      · exact .inr ⟨.inl h1, h2⟩
      · exact .inr ⟨.inr rfl, h⟩
    · rintro (h | ⟨h1 | rfl, h2⟩)
      · exact .inl (.inl h)
      · exact .inl (.inr ⟨h1, h2⟩)
      · exact .inr ⟨rfl, h2⟩

theorem Asserts.congr {P Q : Nat → Prop} {s t : State} (h : Asserts P s t) (hQ : ∀ i, Q i ↔ P i) : Asserts Q s t := by
  have : Q = P := funext fun i => propext (hQ i)
  rw [this]; exact h

theorem Asserts.event {P Q : Nat → Prop} {s q : State} (e : Nat) (he : e < 288) (hu : q.up 33 = true) (h37 : q.up 37 = s.up 37) (h : Asserts P s q) (hr : ∀ e, q.reg (Reg.evtRoute e) = s.reg (Reg.evtRoute e))
    (hs : q.flag (Reg.evtStatus (e / 32)) (e % 32) = s.flag (Reg.evtStatus (e / 32)) (e % 32)) (hen : q.reg (Reg.evtEnable (e / 32)) = s.reg (Reg.evtEnable (e / 32)))
    (hQ : ∀ i, Q i ↔ P i ∨ (i = e ∧ s.flag (Reg.evtStatus (e / 32)) (e % 32) = false ∧ s.flag (Reg.evtEnable (e / 32)) (e % 32) = true)) : Asserts Q s (q.event e) := by
  have n1 : ∀ i, Reg.evtRoute i ≠ Reg.evtStatus (e / 32) := by intro i; unfold Reg.evtRoute Reg.evtStatus; omega
  have n2 : Reg.evtEnable (e / 32) ≠ Reg.evtStatus (e / 32) := by unfold Reg.evtEnable Reg.evtStatus; omega
  have hE : (q.setFlag (Reg.evtStatus (e / 32)) (e % 32)).flag (Reg.evtEnable (e / 32)) (e % 32) = s.flag (Reg.evtEnable (e / 32)) (e % 32) := by
    rw [State.flag_setFlag _ _ _ _ _ (by omega), if_neg (fun h => n2 h.1)]; unfold State.flag; rw [hen]
  unfold State.event
  rw [if_pos hu]
  dsimp only
  rw [hE, hs]
  cases c : s.flag (Reg.evtStatus (e / 32)) (e % 32)
  · cases d : s.flag (Reg.evtEnable (e / 32)) (e % 32)
    · exact Asserts.congr h fun i => by rw [hQ, c, d]; simp
    · exact Asserts.assertEvent (P := P) e h (fun i => (State.reg_setReg_of_ne _ _ (n1 i)).trans (hr i)) h37
        (fun i => by rw [hQ, c, d]; simp)
  · exact Asserts.congr h fun i => by rw [hQ, c]; simp

theorem up_of_regsAndEvents {s t : State} (h : RegsAndEvents s t) (b : Nat) : t.up b = s.up b := by
  unfold RegsAndEvents at h; rw [h]; rfl

/-- Assertions of the events of a group that a mask picks. -/
theorem Asserts.foldl_assert (c : Nat → Bool) (b : Nat) (s : State) (n : Nat) :
    let t := (List.range n).foldl (fun q i => if c i then q.assertEvent (b + i) else q) s
    t.regs = s.regs ∧ RegsAndEvents s t ∧ Asserts (fun e => ∃ i, i < n ∧ c i = true ∧ e = b + i) s t := by
  dsimp only
  induction n with
  | zero => exact ⟨rfl, RegsAndEvents.refl _, Asserts.none (fun e h => by obtain ⟨i, hi, _⟩ := h; omega) rfl rfl⟩
  | succ n ih =>
    obtain ⟨h1, h2, h3⟩ := ih
    rw [List.range_succ, List.foldl_append]
    simp only [List.foldl_cons, List.foldl_nil]
    generalize List.foldl _ s (List.range n) = q at h1 h2 h3 ⊢
    by_cases hc : c n = true
    · rw [if_pos hc]
      refine ⟨(State.regs_assertEvent ..).trans h1, h2.trans (RegsAndEvents.assertEvent ..), ?_⟩
      refine Asserts.assertEvent (b + n) h3 (fun e => by unfold State.reg; rw [h1]) (up_of_regsAndEvents h2 37)
        fun i => ⟨?_, ?_⟩
      · rintro ⟨j, hj, hcj, rfl⟩
        by_cases e : j = n
        · exact .inr (by rw [e])
        · exact .inl ⟨j, by omega, hcj, rfl⟩
      · rintro (⟨j, hj, hcj, rfl⟩ | rfl)
        · exact ⟨j, by omega, hcj, rfl⟩
        · exact ⟨n, by omega, hc, rfl⟩
    · rw [if_neg hc]
      refine ⟨h1, h2, h3.congr fun i => ⟨?_, ?_⟩⟩
      · rintro ⟨j, hj, hcj, rfl⟩
        refine ⟨j, ?_, hcj, rfl⟩
        rcases Nat.lt_succ_iff_lt_or_eq.1 hj with h | rfl
        · exact h
        · exact absurd hcj hc
      · rintro ⟨j, hj, hcj, rfl⟩
        exact ⟨j, by omega, hcj, rfl⟩

/-- One occurrence sets its STATUS bit and no other. -/
theorem flag_status_event (s : State) (e : Nat) (hu : s.up 33 = true) (o i : Nat) (ho : ∃ g, o = Reg.evtStatus g) :
    (s.event e).flag o i = if o = Reg.evtStatus (e / 32) ∧ i = e % 32 then true else s.flag o i := by
  obtain ⟨g, rfl⟩ := ho
  have hr : ∀ z : State, (z.assertEvent e).flag (Reg.evtStatus g) i = z.flag (Reg.evtStatus g) i := by
    intro z; unfold State.flag State.reg; rw [State.regs_assertEvent]
  unfold State.event
  rw [if_pos hu]
  dsimp only
  split
  · exact State.flag_setFlag _ _ _ _ _ (by omega)
  · split
    · rw [hr, State.flag_setFlag _ _ _ _ _ (by omega)]
    · rw [State.flag_setFlag _ _ _ _ _ (by omega)]

/-- Occurrences of the events of one group that a mask picks. -/
theorem Asserts.foldl_event (c : Nat → Bool) (g : Nat) (s : State) (n : Nat) (hn : n ≤ 32) (hg : g < 9) (hu : s.up 33 = true) :
    let t := (List.range n).foldl (fun q i => if c i then q.event (32 * g + i) else q) s
    RegsAndEvents s t ∧ (∀ o, o ≠ Reg.evtStatus g → t.reg o = s.reg o)
      ∧ (∀ i, t.flag (Reg.evtStatus g) i = (s.flag (Reg.evtStatus g) i || (decide (i < n) && c i)))
      ∧ Asserts (fun e => ∃ i, i < n ∧ c i = true ∧ e = 32 * g + i ∧ s.flag (Reg.evtStatus g) i = false
          ∧ s.flag (Reg.evtEnable g) i = true) s t := by
  dsimp only
  induction n with
  | zero =>
    refine ⟨RegsAndEvents.refl _, fun _ _ => rfl, fun i => ?_, Asserts.none (fun e h => by obtain ⟨i, hi, _⟩ := h; omega) rfl rfl⟩
    rw [decide_eq_false (by omega), Bool.false_and, Bool.or_false]; rfl
  | succ n ih =>
    obtain ⟨h2, h1, h4, h3⟩ := ih (by omega)
    rw [List.range_succ, List.foldl_append]
    simp only [List.foldl_cons, List.foldl_nil]
    generalize List.foldl _ s (List.range n) = q at h1 h2 h3 h4 ⊢
    have eg : (32 * g + n) / 32 = g := by omega
    have en : (32 * g + n) % 32 = n := by omega
    have huq : q.up 33 = true := (up_of_regsAndEvents h2 33).trans hu
    by_cases hc : c n = true
    · rw [if_pos hc]
      refine ⟨h2.trans (RegsAndEvents.event ..), fun o ho => (State.reg_event _ _ _ (by rw [eg]; exact ho)).trans (h1 o ho), fun i => ?_, ?_⟩
      · rw [flag_status_event _ _ huq _ _ ⟨g, rfl⟩, eg, en, h4]
        by_cases e : i = n
        · rw [if_pos ⟨rfl, e⟩, e, decide_eq_true (by omega), hc]; simp
        · rw [if_neg (fun h => e h.2)]
          congr 2
          exact decide_eq_decide.2 (by omega)
      · refine Asserts.event (32 * g + n) (by omega) huq (up_of_regsAndEvents h2 37) h3 (fun e => h1 _ (by unfold Reg.evtRoute Reg.evtStatus; omega)) ?_ ?_ fun i => ?_
        · rw [eg, en, h4, decide_eq_false (by omega)]; simp
        · rw [eg]; exact h1 _ (by unfold Reg.evtEnable Reg.evtStatus; omega)
        · rw [eg, en]
          constructor
          · rintro ⟨j, hj, hcj, rfl, hf⟩
            by_cases e : j = n
            · exact .inr ⟨by rw [e], by rw [← e]; exact hf⟩
            · exact .inl ⟨j, by omega, hcj, rfl, hf⟩
          · rintro (⟨j, hj, hcj, rfl, hf⟩ | ⟨rfl, hf⟩)
            · exact ⟨j, by omega, hcj, rfl, hf⟩
            · exact ⟨n, by omega, hc, rfl, hf⟩
    · rw [if_neg hc]
      refine ⟨h2, h1, fun i => ?_, h3.congr fun i => ⟨?_, ?_⟩⟩
      · rw [h4]
        by_cases e : i = n
        · rw [e, Bool.not_eq_true _ |>.mp hc]; simp
        · congr 2
          exact decide_eq_decide.2 (by omega)
      · rintro ⟨j, hj, hcj, rfl, hf⟩
        refine ⟨j, ?_, hcj, rfl, hf⟩
        rcases Nat.lt_succ_iff_lt_or_eq.1 hj with h | rfl
        · exact h
        · exact absurd hcj hc
      · rintro ⟨j, hj, hcj, rfl, hf⟩
        exact ⟨j, by omega, hcj, rfl, hf⟩

/-- What is asserted depends on the routes, the pending vectors and the alarms alone. -/
theorem Asserts.of_eq {P : Nat → Prop} {s s' t : State} (h : Asserts P s' t) (h1 : s'.host.msixPend = s.host.msixPend)
    (h2 : s'.asm.alarms = s.asm.alarms) (h3 : ∀ e, s'.reg (Reg.evtRoute e) = s.reg (Reg.evtRoute e))
    (h4 : s'.up 37 = s.up 37) : Asserts P s t := by
  unfold Asserts State.flag State.fld at *
  simp only [h1, h2, h3, h4] at h
  exact h

end Sys2Proof.Safety
end

