-- ==== Sys2Proof/Laws/Slate.lean ====
section
/-!
SUPPORT. Slate: what an issue comes to (07 R156 to R159), once for all instructions, and reads of a thread's registers after
writes.
-/
namespace Sys2Proof.Machine

open Sys2Proof.Safety

theorem SMap.ins_ins {α : Type} (m : SMap α) (k : Nat) (a b : α) : SMap.ins (SMap.ins m k a) k b = SMap.ins m k b := by
  induction m with
  | nil => simp [SMap.ins]
  | cons p m ih =>
    simp only [SMap.ins]
    split
    · simp [SMap.ins]
    · split
      · simp [SMap.ins]
      · rename_i h1 h2
        simp [SMap.ins, h1, h2, ih]

/-- A second write of a thread that is alive replaces the first. -/
theorem State.setThread_setThread (s : State) (k : Nat) {u v : Thread} (hu : u.alive = true) (hv : v.alive = true) :
    (s.setThread k u).setThread k v = s.setThread k v := by
  have h1 : u ≠ {} := by rintro rfl; cases hu
  have h2 : v ≠ {} := by rintro rfl; cases hv
  unfold State.setThread
  simp only [SMap.put, h1, h2, if_false, SMap.ins_ins]

theorem State.alive_of_ready {s : State} {t : ThreadId} (h : s.threadReady t = true) : (thr s t).alive = true := by
  unfold State.threadReady at h
  simp only [Bool.and_eq_true] at h
  exact h.1.1.1.2

/-- A word of the form has its opcode. -/
theorem Shape.opc_of_ok {p : Shape} {w : SlateWord} (h : p.ok w = true) : w.opc = p.opc := by
  unfold Shape.ok at h
  simp only [Bool.and_eq_true, beq_iff_eq] at h
  obtain ⟨⟨⟨⟨⟨⟨⟨⟨⟨⟨⟨h, _⟩, _⟩, _⟩, _⟩, _⟩, _⟩, _⟩, _⟩, _⟩, _⟩, _⟩ := h
  exact h.symm

/-- An instruction that issues comes to its guard. -/
theorem State.issue_form {s : State} {t : ThreadId} {p : Shape} {w : SlateWord} {always : Bool} {eff : State → Thread → Issue}
    (h : Issues s t p w) :
    s.issue t p w always eff =
      if !always && (thr s t).guard w == 0 then .next (went s t w (thr s t)) else
        match eff s (thr s t) with
        | .go s' => .next (s'.setThread (threadKey t) { (s'.thread (threadKey t)) with pc := (thr s t).pc + slateSize w })
        | .jump s' pc => .next (s'.setThread (threadKey t) { (s'.thread (threadKey t)) with pc := pc })
        | .stall => .next s
        | .trap s' c => .next (s'.slateFault t c)
        | .ended s' => .next s' := by
  obtain ⟨h1, h2, h3, h4, h5⟩ := h
  unfold thr at h2 h4
  have hv : ((p.vregs w).any fun r => (s.pendingRegs t).contains r) = false := by
    simpa using h5
  have h8 : 8 ≤ slateSize w := by unfold slateSize; split <;> decide
  unfold State.issue Thread.seen
  dsimp only
  rw [if_neg (by simp [h1]), if_neg (Nat.not_lt.2 (Nat.le_trans (Nat.add_le_add_left h8 _) h2)), Shape.opc_of_ok h3,
    bne_self_eq_false, Bool.false_and, if_neg Bool.false_ne_true, if_neg (Nat.not_lt.2 h2), h3, h4, if_neg (by decide),
    if_neg (Nat.not_lt.2 h2), hv, if_neg Bool.false_ne_true]
  rfl

/-- An instruction that issues with its guard open, or runs whatever its guard, comes to its effect. -/
theorem State.issue_eff {s : State} {t : ThreadId} {p : Shape} {w : SlateWord} {always : Bool} {eff : State → Thread → Issue}
    (h : Issues s t p w) (g : always = true ∨ Open s t w) :
    s.issue t p w always eff =
      match eff s (thr s t) with
      | .go s' => .next (s'.setThread (threadKey t) { (s'.thread (threadKey t)) with pc := (thr s t).pc + slateSize w })
      | .jump s' pc => .next (s'.setThread (threadKey t) { (s'.thread (threadKey t)) with pc := pc })
      | .stall => .next s
      | .trap s' c => .next (s'.slateFault t c)
      | .ended s' => .next s' := by
  have hg : (!always && (thr s t).guard w == 0) = false := by
    rcases g with g | g
    · simp [g]
    · unfold Open at g
      rw [beq_eq_false_iff_ne.2 g, Bool.and_false]
  rw [State.issue_form h, if_neg (by rw [hg]; exact Bool.false_ne_true)]

/-- A word whose opcode no instruction has, or whose fields are not of the form, raises ILLEGAL (07 R157, R180). -/
theorem State.issue_illegal {s : State} {t : ThreadId} {p : Shape} {w : SlateWord} {always : Bool}
    {eff : State → Thread → Issue} (h1 : s.threadReady t = true) (h2 : (thr s t).pc + 8 ≤ 0x80000)
    (ho : w.opc = p.opc ∨ slateOpcode w.opc.toNat = false) (h3 : p.ok ((thr s t).seen w) = false) :
    s.issue t p w always eff = .next (s.slateFault t 1) := by
  unfold thr at h2 h3
  unfold State.issue
  dsimp only
  rw [if_neg (by simp [h1]), if_neg (Nat.not_lt.2 h2), if_neg (by rcases ho with h | h <;> simp [h]), if_pos (by simp [h3])]

/-- With its guard closed an instruction only advances the program counter (07 R158). -/
theorem State.issue_closed {s : State} {t : ThreadId} {p : Shape} {w : SlateWord} {eff : State → Thread → Issue}
    (h : Issues s t p w) (g : (thr s t).guard w = 0) : s.issue t p w false eff = .next (went s t w (thr s t)) := by
  rw [State.issue_form h, if_pos (by rw [g]; rfl)]

/-- An effect on the thread's registers alone. -/
theorem State.issue_regs {s : State} {t : ThreadId} {p : Shape} {w : SlateWord} {always : Bool} {f : Thread → Thread}
    (h : Issues s t p w) (g : always = true ∨ Open s t w) (hf : (f (thr s t)).alive = (thr s t).alive) :
    s.issue t p w always (State.regsOnly t f) = .next (went s t w (f (thr s t))) := by
  rw [State.issue_eff h g]
  have ha := State.alive_of_ready h.1
  simp only [State.regsOnly, State.thread_setThread, if_true]
  rw [State.setThread_setThread _ _ (hf.trans ha) (by simp [hf, ha])]
  rfl

/-- An effect on the thread's registers that leaves the rest of the machine as `s'` has it. -/
theorem State.issue_go {s s' : State} {t : ThreadId} {p : Shape} {w : SlateWord} {always : Bool}
    {eff : State → Thread → Issue} {u : Thread} (h : Issues s t p w) (g : always = true ∨ Open s t w)
    (he : eff s (thr s t) = .go (s'.setThread (threadKey t) u)) (hu : u.alive = (thr s t).alive) :
    s.issue t p w always eff =
      .next (s'.setThread (threadKey t) { u with pc := (thr s t).pc + slateSize w }) := by
  have ha := State.alive_of_ready h.1
  rw [State.issue_eff h g, he]
  simp only [State.thread_setThread, if_true]
  rw [State.setThread_setThread _ _ (hu.trans ha) (by simp [hu, ha])]

/-- An effect that writes the thread's registers alone. -/
theorem State.issue_thread {s : State} {t : ThreadId} {p : Shape} {w : SlateWord} {always : Bool}
    {eff : State → Thread → Issue} {u : Thread} (h : Issues s t p w) (g : always = true ∨ Open s t w)
    (he : eff s (thr s t) = .go (s.setThread (threadKey t) u)) (hu : u.alive = (thr s t).alive) :
    s.issue t p w always eff = .next (went s t w u) := State.issue_go h g he hu

/-- An effect on the thread's registers that draws a free value. -/
theorem State.issue_drawn {s : State} {t : ThreadId} {p : Shape} {w : SlateWord} {always : Bool}
    {eff : State → Thread → Issue} {u : Thread} (h : Issues s t p w) (g : always = true ∨ Open s t w)
    (he : eff s (thr s t) = .go (s.drawn.setThread (threadKey t) u)) (hu : u.alive = (thr s t).alive) :
    s.issue t p w always eff = .next (went s.drawn t w u) := State.issue_go h g he hu

/-- Only the effect on this state and thread matters. -/
theorem State.issue_congr {s : State} {t : ThreadId} {p : Shape} {w : SlateWord} {always : Bool}
    {eff eff' : State → Thread → Issue} (h : eff s (thr s t) = eff' s (thr s t)) :
    s.issue t p w always eff = s.issue t p w always eff' := by
  unfold State.issue
  unfold thr at h
  dsimp only
  rw [h]

/-- An effect elsewhere in the machine: the thread's registers stay. -/
theorem State.issue_on {s s' : State} {t : ThreadId} {p : Shape} {w : SlateWord} {always : Bool}
    {eff : State → Thread → Issue} (h : Issues s t p w) (g : always = true ∨ Open s t w)
    (he : eff s (thr s t) = .go s') (hs : thr s' t = thr s t) :
    s.issue t p w always eff = .next (went s' t w (thr s t)) := by
  rw [State.issue_eff h g, he]
  unfold went
  rw [hs]
  show Host.Outcome.next _ = _
  rw [show s'.thread (threadKey t) = thr s t from hs]

/-- A branch taken. -/
theorem State.issue_jump {s : State} {t : ThreadId} {p : Shape} {w : SlateWord} {always : Bool}
    {eff : State → Thread → Issue} {pc : Nat} (h : Issues s t p w) (g : always = true ∨ Open s t w)
    (he : eff s (thr s t) = .jump s pc) :
    s.issue t p w always eff = .next (s.setThread (threadKey t) { (thr s t) with pc := pc }) := by
  rw [State.issue_eff h g, he]
  rfl

/-- A branch taken after a write of the thread's registers. -/
theorem State.issue_jump_regs {s : State} {t : ThreadId} {p : Shape} {w : SlateWord} {always : Bool}
    {eff : State → Thread → Issue} {v : Thread} {pc : Nat} (h : Issues s t p w) (g : always = true ∨ Open s t w)
    (hv : v.alive = (thr s t).alive) (he : eff s (thr s t) = .jump (s.setThread (threadKey t) v) pc) :
    s.issue t p w always eff = .next (s.setThread (threadKey t) { v with pc := pc }) := by
  have ha := State.alive_of_ready h.1
  rw [State.issue_eff h g, he]
  simp only [State.thread_setThread, if_true]
  rw [State.setThread_setThread _ _ (hv.trans ha) (by simp [hv, ha])]

/-- An exception (07 R180). -/
theorem State.issue_trap {s s' : State} {t : ThreadId} {p : Shape} {w : SlateWord} {always : Bool}
    {eff : State → Thread → Issue} {c : Nat} (h : Issues s t p w) (g : always = true ∨ Open s t w)
    (he : eff s (thr s t) = .trap s' c) : s.issue t p w always eff = .next (s'.slateFault t c) := by
  rw [State.issue_eff h g, he]

/-! ## The shared forms (07 R163, R164) -/

theorem State.scalarOp_eq {s : State} {t : ThreadId} {w : SlateWord} {o : BitVec 8} {tys : List Nat} {f : Word → Word → Word}
    (h : Issues s t { opc := o, tys := tys, d := .s, a := .s, b := .s, bsels := [0, 2, 3] } w) (g : Open s t w) :
    s.scalarOp t w o tys f
      = .next (went s t w ((thr s t).setS w.d.toNat (f ((thr s t).sreg w.a.toNat) ((thr s t).opS w)))) :=
  State.issue_regs h (.inr g) rfl

/-- The type of a word that meets a form is one of the form's. -/
theorem Shape.ty_of_ok {p : Shape} {w : SlateWord} (h : p.ok w = true) : w.ty.toNat ∈ p.tys := by
  unfold Shape.ok at h
  simp only [Bool.and_eq_true, List.contains_iff_mem] at h
  exact h.1.1.1.1.1.1.1.1.1.2

/-! ## Registers of a thread -/

@[simp] theorem Thread.setS_alive (t : Thread) (r : Nat) (x : Word) : (t.setS r x).alive = t.alive := rfl

@[simp] theorem Thread.setV_alive (t : Thread) (r l : Nat) (x : Word) : (t.setV r l x).alive = t.alive := rfl

@[simp] theorem Thread.setP_alive (t : Thread) (r : Nat) (x : BitVec 64) : (t.setP r x).alive = t.alive := by
  unfold Thread.setP; split <;> rfl

@[simp] theorem Thread.mapV_alive (t : Thread) (g : BitVec 64) (r : Nat) (f : Nat → Word) : (t.mapV g r f).alive = t.alive := by
  unfold Thread.mapV
  suffices h : ∀ (l : List Nat) (u : Thread), (l.foldl (fun t' l => t'.setV r l (f l)) u).alive = u.alive from h _ _
  intro l
  induction l with
  | nil => intro; rfl
  | cons a l ih => intro u; exact ih _

@[simp] theorem Thread.mapP_alive (t : Thread) (g : BitVec 64) (d : Nat) (x : BitVec 64) : (t.mapP g d x).alive = t.alive :=
  Thread.setP_alive ..

theorem State.vectorOp_eq {s : State} {t : ThreadId} {w : SlateWord} {o : BitVec 8} {tys : List Nat} {c : RegKind}
    {f : Word → Word → Word → Word}
    (h : Issues s t { opc := o, tys := tys, d := .v, a := .v, b := .v, c := c, bsels := [0, 1, 2, 3] } w) :
    s.vectorOp t w o tys c f
      = .next (went s t w ((thr s t).mapV ((thr s t).guard w) w.d.toNat fun l =>
          f ((thr s t).vreg w.a.toNat l) ((thr s t).opV w l) ((thr s t).vreg w.c.toNat l))) :=
  State.issue_regs h (.inl rfl) (Thread.mapV_alive ..)

theorem State.vectorUnary_eq {s : State} {t : ThreadId} {w : SlateWord} {o : BitVec 8} {tys : List Nat} {f : Word → Word}
    (h : Issues s t { opc := o, tys := tys, d := .v, a := .v } w) :
    s.vectorUnary t w o tys f
      = .next (went s t w ((thr s t).mapV ((thr s t).guard w) w.d.toNat fun l => f ((thr s t).vreg w.a.toNat l))) :=
  State.issue_regs h (.inl rfl) (Thread.mapV_alive ..)

theorem State.predOp_eq {s : State} {t : ThreadId} {w : SlateWord} {o : BitVec 8} {b : RegKind} {f : BitVec 64 → BitVec 64 → BitVec 64}
    (h : Issues s t { opc := o, d := .p, a := .p, b := b } w) :
    s.predOp t w o b f
      = .next (went s t w ((thr s t).mapP ((thr s t).guard w) w.d.toNat
          (f ((thr s t).preg w.a.toNat) ((thr s t).preg w.b.toNat)))) :=
  State.issue_regs h (.inl rfl) (Thread.mapP_alive ..)

theorem Thread.sreg_setS (t : Thread) (r i : Nat) (x : Word) : (t.setS r x).sreg i = if i = r then x else t.sreg i :=
  SMap.get_put ..

/-- P0 reads as all ones whatever is written (07 R150). -/
theorem Thread.preg_setP (t : Thread) (r i : Nat) (x : BitVec 64) :
    (t.setP r x).preg i = if i = r ∧ r ≠ 0 then x else t.preg i := by
  unfold Thread.setP Thread.preg
  by_cases hr : r = 0
  · simp [hr]
  · by_cases hi : i = 0
    · subst hi; simp [Ne.symm hr]
    · simp [hr, hi, SMap.get_put]

theorem Thread.vreg_setV (t : Thread) (r l i j : Nat) (x : Word) (hl : l < 64) (hj : j < 64) :
    (t.setV r l x).vreg i j = if i = r ∧ j = l then x else t.vreg i j := by
  unfold Thread.setV Thread.vreg
  rw [SMap.get_put]
  have : 64 * i + j = 64 * r + l ↔ i = r ∧ j = l := by omega
  simp only [this]

/-- A lane-guarded write: the active lanes of one register take their values, everything else stays (07 R158). -/
theorem Thread.vreg_mapV (t : Thread) (g : BitVec 64) (r i j : Nat) (f : Nat → Word) (hj : j < 64) :
    (t.mapV g r f).vreg i j = if i = r ∧ g.getLsbD j = true then f j else t.vreg i j := by
  unfold Thread.mapV
  have hm : ∀ l, l ∈ lanesOf g ↔ l < 64 ∧ g.getLsbD l = true := by
    intro l; simp [lanesOf]
  suffices h : ∀ (l : List Nat) (u : Thread), (∀ x ∈ l, x < 64) →
      (l.foldl (fun t' l => t'.setV r l (f l)) u).vreg i j = if i = r ∧ j ∈ l then f j else u.vreg i j by
    rw [h _ _ fun x hx => ((hm x).1 hx).1]
    simp only [hm, hj, true_and]
  intro l
  induction l with
  | nil => intro u _; simp
  | cons a l ih =>
    intro u h
    simp only [List.foldl_cons]
    rw [ih _ fun x hx => h x (List.mem_cons_of_mem _ hx), Thread.vreg_setV _ _ _ _ _ _ (h a (List.mem_cons_self ..)) hj]
    by_cases c : i = r ∧ j ∈ l
    · rw [if_pos c, if_pos ⟨c.1, List.mem_cons_of_mem _ c.2⟩]
    · rw [if_neg c]
      by_cases e : i = r ∧ j = a
      · rw [if_pos e, if_pos ⟨e.1, e.2 ▸ List.mem_cons_self ..⟩, e.2]
      · rw [if_neg e, if_neg]
        rintro ⟨h1, h2⟩
        rcases List.mem_cons.1 h2 with h2 | h2
        · exact e ⟨h1, h2⟩
        · exact c ⟨h1, h2⟩

theorem Thread.mapV_eq (t : Thread) (g : BitVec 64) (r : Nat) (f : Nat → Word) :
    t.mapV g r f = { t with v := (t.mapV g r f).v } := by
  unfold Thread.mapV
  generalize lanesOf g = l
  suffices h : ∀ (l : List Nat) (u : Thread), l.foldl (fun t' l => t'.setV r l (f l)) u
      = { u with v := (l.foldl (fun t' l => t'.setV r l (f l)) u).v } from h l t
  intro l
  induction l with
  | nil => intro; rfl
  | cons a l ih => intro u; simp only [List.foldl_cons]; rw [ih]; rfl

theorem Thread.laneWrite_mapV (t : Thread) (g : BitVec 64) (r : Nat) (f : Nat → Word) : LaneWrite t (t.mapV g r f) g r f :=
  ⟨Thread.mapV_eq .., fun i l h => Thread.vreg_mapV t g r i l f h⟩

theorem State.vectorOp_lanes {s : State} {t : ThreadId} {w : SlateWord} {o : BitVec 8} {tys : List Nat} {c : RegKind}
    {f : Word → Word → Word → Word}
    (h : Issues s t { opc := o, tys := tys, d := .v, a := .v, b := .v, c := c, bsels := [0, 1, 2, 3] } w) :
    ∃ u', s.vectorOp t w o tys c f = .next (went s t w u')
      ∧ LaneWrite (thr s t) u' ((thr s t).guard w) w.d.toNat fun l =>
          f ((thr s t).vreg w.a.toNat l) ((thr s t).opV w l) ((thr s t).vreg w.c.toNat l) :=
  ⟨_, State.vectorOp_eq h, Thread.laneWrite_mapV ..⟩

theorem State.vectorUnary_lanes {s : State} {t : ThreadId} {w : SlateWord} {o : BitVec 8} {tys : List Nat} {f : Word → Word}
    (h : Issues s t { opc := o, tys := tys, d := .v, a := .v } w) :
    ∃ u', s.vectorUnary t w o tys f = .next (went s t w u')
      ∧ LaneWrite (thr s t) u' ((thr s t).guard w) w.d.toNat fun l => f ((thr s t).vreg w.a.toNat l) :=
  ⟨_, State.vectorUnary_eq h, Thread.laneWrite_mapV ..⟩

theorem Thread.predWrite_setP (t : Thread) (d : Nat) (x : BitVec 64) : PredWrite t (t.setP d x) d x := by
  refine ⟨?_, fun i => Thread.preg_setP t d i x⟩
  unfold Thread.setP; split <;> rfl

/-- What a lane-guarded predicate write leaves in its register. -/
theorem inLanes_blend (g x y : BitVec 64) : InLanes g ((y &&& ~~~ g) ||| (x &&& g)) y fun l => x.getLsbD l := by
  intro l hl
  simp only [BitVec.getLsbD_or, BitVec.getLsbD_and, BitVec.getLsbD_not, hl, decide_true, Bool.true_and]
  cases g.getLsbD l <;> simp

theorem getLsbD_lanesWhere (f : Nat → Bool) (l : Nat) (h : l < 64) : (lanesWhere f).getLsbD l = f l := by
  unfold lanesWhere
  rw [BitVec.getLsbD_ofNat]
  simp only [h, decide_true, Bool.true_and]
  suffices k : ∀ n, (List.range n).foldl (fun a i => if f i then a + 2 ^ i else a) 0 < 2 ^ n ∧
      ∀ l, l < n → ((List.range n).foldl (fun a i => if f i then a + 2 ^ i else a) 0).testBit l = f l from (k 64).2 l h
  intro n
  induction n with
  | zero => simp
  | succ n ih =>
    rw [List.range_succ, List.foldl_append]
    simp only [List.foldl_cons, List.foldl_nil]
    generalize (List.range n).foldl (fun a i => if f i then a + 2 ^ i else a) 0 = a at ih
    constructor
    · have : 2 ^ (n + 1) = 2 ^ n + 2 ^ n := by rw [Nat.pow_succ]; omega
      split <;> omega
    · intro l hl
      split
      · rename_i hf
        rw [Nat.add_comm]
        by_cases e : l = n
        · subst e
          rw [Nat.testBit_two_pow_add_eq, Nat.testBit_lt_two_pow ih.1, hf]; rfl
        · rw [Nat.testBit_two_pow_add_gt (by omega)]
          exact ih.2 l (by omega)
      · rename_i hf
        by_cases e : l = n
        · subst e
          rw [Nat.testBit_lt_two_pow ih.1]; simpa using hf
        · exact ih.2 l (by omega)

/-! ## Streams and cancellation (07 R171, R180, R182; 06 R144) -/

theorem State.syn_streamDone (s : State) (hr : Nat) (x : Stream) : (s.streamDone hr x).1.syn = s.syn := by
  unfold State.streamDone
  dsimp only
  rw [RegsAndEvents.streamRead s (2 + hr) x.src x.lines]

/-- A stream that lands writes Homeroom memory and takes the place of stores to it; threads and engines stay. -/
theorem State.streamLand_eq (s : State) (hr eng : Nat) (x : Stream) : s.streamLand hr eng x =
    { s with
      cyc := (s.streamLand hr eng x).cyc
      syn := { s.syn with stores := (s.streamLand hr eng x).syn.stores, mem := (s.streamLand hr eng x).syn.mem } } := by
  unfold State.streamLand
  dsimp only
  generalize hf : (fun (s : State) i => if x.errs.contains i then s
      else s.homeWrite hr (x.dst + 64 * i) ((List.range 16).map fun k => word (leAt x.data (64 * i + 4 * k) 4))) = f
  have hs : ∀ (u : State) i, f u i = { u with cyc := (f u i).cyc, syn := { u.syn with mem := (f u i).syn.mem } } := by
    intro u i
    rw [← hf]
    dsimp only
    split <;> rfl
  suffices h : ∀ (l : List Nat) (u : State),
      l.foldl f u = { u with cyc := (l.foldl f u).cyc, syn := { u.syn with mem := (l.foldl f u).syn.mem } } by
    rw [h]
  intro l
  induction l with
  | nil => intro; rfl
  | cons i l ih =>
    intro u
    rw [List.foldl_cons, ih, hs]

theorem State.thread_streamLand (s : State) (hr eng : Nat) (x : Stream) (i : Nat) :
    (s.streamLand hr eng x).thread i = s.thread i := by rw [State.streamLand_eq]; rfl

theorem State.engine_streamLand (s : State) (hr eng : Nat) (x : Stream) (i : Nat) :
    (s.streamLand hr eng x).engine i = s.engine i := by rw [State.streamLand_eq]; rfl

theorem State.engine_bump (s : State) (o n k : Nat) : (s.bump o n).engine k = s.engine k := rfl

theorem State.thread_bump (s : State) (o n k : Nat) : (s.bump o n).thread k = s.thread k := rfl

theorem State.thread_setEngine (s : State) (k i : Nat) (e : Engine) : (s.setEngine k e).thread i = s.thread i := rfl

/-- After a cancellation the engine is idle, its queue empty, its 8 threads stopped (06 R144, 07 R182). -/
theorem State.cancelChunk_idle (s : State) (hr eng : Nat) (h : (s.engine (engineKey hr eng)).run ≠ none) :
    ((s.cancelChunk hr eng).engine (engineKey hr eng)).run = none
      ∧ ((s.cancelChunk hr eng).engine (engineKey hr eng)).queue = []
      ∧ ∀ j, j < 8 → (s.cancelChunk hr eng).thread (8 * engineKey hr eng + j) = {} := by
  unfold State.cancelChunk
  dsimp only
  rw [if_neg (by cases h' : (s.engine (engineKey hr eng)).run <;> simp_all)]
  refine ⟨?_, ?_, fun j hj => ?_⟩
  · rw [State.engine_bump, State.engine_setEngine, if_pos rfl]
  · rw [State.engine_bump, State.engine_setEngine, if_pos rfl]
  · rw [State.thread_bump, State.thread_setEngine]
    have inner : ∀ (l : List Stream) (u : State) (i : Nat), (l.foldl (fun s x =>
        ((if x.done then (s, x) else s.streamDone hr x).1.streamLand hr eng (if x.done then (s, x) else s.streamDone hr x).2)) u).thread i = u.thread i := by
      intro l
      induction l with
      | nil => intros; rfl
      | cons x l ih =>
        intro u i
        simp only [List.foldl_cons]
        rw [ih, State.thread_streamLand]
        split
        · rfl
        · unfold State.thread; rw [State.syn_streamDone]
    have outer : ∀ (l : List Nat) (u : State), (∃ j' ∈ l, j = j') ∨ u.thread (8 * engineKey hr eng + j) = {} →
        (l.foldl (fun s j =>
          State.setThread ((s.thread (8 * engineKey hr eng + j)).streams.foldl (fun s x =>
            ((if x.done then (s, x) else s.streamDone hr x).1.streamLand hr eng (if x.done then (s, x) else s.streamDone hr x).2)) s)
            (8 * engineKey hr eng + j) {}) u).thread (8 * engineKey hr eng + j) = {} := by
      intro l
      induction l with
      | nil => intro u h; rcases h with ⟨_, h, _⟩ | h
               · cases h
               · exact h
      | cons a l ih =>
        intro u h
        simp only [List.foldl_cons]
        refine ih _ ?_
        by_cases e : j = a
        · right; subst e; rw [State.thread_setThread, if_pos rfl]
        · rcases h with ⟨j', h1, h2⟩ | h
          · rcases List.mem_cons.1 h1 with h1 | h1
            · exact absurd (h2.trans h1) e
            · exact .inl ⟨j', h1, h2⟩
          · right
            rw [State.thread_setThread, if_neg (by omega), inner]; exact h
    exact outer _ _ (.inl ⟨j, List.mem_range.2 hj, rfl⟩)

/-- Latching a fault leaves threads and engines alone until the chunk is cancelled. -/
theorem State.slateFault_idle (s : State) (t : ThreadId) (c : Nat)
    (h : (s.engine (engineKey t.hr.val t.eng.val)).run ≠ none) :
    ((s.slateFault t c).engine (engineKey t.hr.val t.eng.val)).run = none
      ∧ ((s.slateFault t c).engine (engineKey t.hr.val t.eng.val)).queue = []
      ∧ ∀ j, j < 8 → (s.slateFault t c).thread (8 * engineKey t.hr.val t.eng.val + j) = {} := by
  unfold State.slateFault
  dsimp only
  refine State.cancelChunk_idle _ _ _ ?_
  unfold State.engine at h ⊢
  rw [RegsAndEvents.latchFirst s]
  exact h

end Sys2Proof.Machine
end

