-- ==== Sys2Proof/Laws/Homeroom.lean ====
section
/-!
SUPPORT. Homeroom memory, streams, threads and samplers: what each operation of 06 and 07 leaves.
-/
namespace Sys2Proof.Machine

open Sys2Proof.Safety

theorem accessFault_protected {k : MemAccess} {eng : Nat} {as : List Nat} (h : ∃ a ∈ as, protects k eng a = true) : accessFault k eng as = some 2 := by
  unfold accessFault
  rw [if_pos (List.any_eq_true.2 h)]

theorem accessFault_misaligned {k : MemAccess} {eng : Nat} {as : List Nat} (h : ∀ a ∈ as, protects k eng a = false) (h' : ∃ a ∈ as, a % 4 ≠ 0) : accessFault k eng as = some 3 := by
  unfold accessFault
  rw [if_neg (by rw [List.any_eq_true]; rintro ⟨a, ha, e⟩; rw [h a ha] at e; cases e), if_pos (List.any_eq_true.2 (by obtain ⟨a, ha, e⟩ := h'; exact ⟨a, ha, by simpa using e⟩))]

theorem accessFault_none {k : MemAccess} {eng : Nat} {as : List Nat} (h : ∀ a ∈ as, protects k eng a = false) (h' : ∀ a ∈ as, a % 4 = 0) : accessFault k eng as = none := by
  unfold accessFault
  rw [if_neg (by rw [List.any_eq_true]; rintro ⟨a, ha, e⟩; rw [h a ha] at e; cases e), if_neg (by rw [List.any_eq_true]; rintro ⟨a, ha, e⟩; rw [h' a ha] at e; cases e)]

theorem protects_load (eng a : Nat) : protects .load eng a = true ↔ 0x300000 ≤ a := by
  simp [protects]

theorem protects_store (eng a : Nat) : protects .store eng a = true ↔ 0x300000 ≤ a
    ∨ (¬ (0x280000 ≤ a ∧ a < 0x2FF000) ∧ ¬ (0x80000 + eng * 0x20000 ≤ a ∧ a < 0x80000 + eng * 0x20000 + 0x20000)) := by
  simp [protects, inShared, inScratch, imp_iff_or_not, or_comm]

theorem mem_lanesOf (g : BitVec 64) (l : Nat) : l ∈ lanesOf g ↔ l < 64 ∧ g.getLsbD l = true := by simp [lanesOf]

theorem slateAddr_zero (b : Word) (w : SlateWord) : slateAddr b w 0 = (b + w.imm16.signExtend 32).toNat := by
  unfold slateAddr word; simp

theorem keptLanes_spec (s : State) (addr : Nat → Nat) (ls : List Nat) :
    let keep := ls.foldl (fun (acc : List (Nat × Nat)) l =>
      if acc.any fun p => p.1 == addr l then
        (if Config.freeBit s.draws l then acc.filter (fun p => p.1 != addr l) ++ [(addr l, l)] else acc)
      else acc ++ [(addr l, l)]) []
    (∀ p ∈ keep, p.2 ∈ ls ∧ p.1 = addr p.2) ∧ (∀ l ∈ ls, ∃ p ∈ keep, p.1 = addr l) ∧ keep.Pairwise (fun p q => p.1 ≠ q.1) := by
  dsimp only
  suffices h : ∀ (ls done : List Nat) (acc : List (Nat × Nat)),
      ((∀ p ∈ acc, p.2 ∈ done ∧ p.1 = addr p.2) ∧ (∀ l ∈ done, ∃ p ∈ acc, p.1 = addr l) ∧ acc.Pairwise (fun p q => p.1 ≠ q.1)) →
      let keep := ls.foldl (fun (acc : List (Nat × Nat)) l =>
        if acc.any fun p => p.1 == addr l then
          (if Config.freeBit s.draws l then acc.filter (fun p => p.1 != addr l) ++ [(addr l, l)] else acc)
        else acc ++ [(addr l, l)]) acc
      (∀ p ∈ keep, p.2 ∈ done ++ ls ∧ p.1 = addr p.2) ∧ (∀ l ∈ done ++ ls, ∃ p ∈ keep, p.1 = addr l) ∧ keep.Pairwise (fun p q => p.1 ≠ q.1) by
    have := h ls [] [] ⟨by simp, by simp, List.Pairwise.nil⟩
    simpa using this
  intro ls
  induction ls with
  | nil => intro done acc h; simpa using h
  | cons l ls ih =>
    intro done acc ⟨h1, h2, h3⟩
    have := ih (done ++ [l]) (if acc.any fun p => p.1 == addr l then
          (if Config.freeBit s.draws l then acc.filter (fun p => p.1 != addr l) ++ [(addr l, l)] else acc)
        else acc ++ [(addr l, l)]) ?_
    · simpa only [List.append_assoc, List.singleton_append, List.foldl_cons] using this
    · split
      · rename_i ha
        obtain ⟨q, hq, hqa⟩ := List.any_eq_true.1 ha
        have hqa : q.1 = addr l := by simpa using hqa
        split
        · refine ⟨?_, ?_, ?_⟩
          · intro p hp
            rcases List.mem_append.1 hp with hp | hp
            · have := h1 p (List.mem_of_mem_filter hp)
              exact ⟨List.mem_append_left _ this.1, this.2⟩
            · obtain rfl := List.mem_singleton.1 hp
              exact ⟨List.mem_append_right _ (List.mem_singleton.2 rfl), rfl⟩
          · intro x hx
            by_cases e : addr x = addr l
            · exact ⟨(addr l, l), List.mem_append_right _ (List.mem_singleton.2 rfl), e.symm⟩
            · rcases List.mem_append.1 hx with hx | hx
              · obtain ⟨p, hp, hpe⟩ := h2 x hx
                exact ⟨p, List.mem_append_left _ (List.mem_filter.2 ⟨hp, by simpa [hpe] using e⟩), hpe⟩
              · obtain rfl := List.mem_singleton.1 hx
                exact absurd rfl e
          · refine List.pairwise_append.2 ⟨h3.filter _, List.pairwise_singleton .., ?_⟩
            intro p hp q' hq'
            obtain rfl := List.mem_singleton.1 hq'
            simpa using (List.mem_filter.1 hp).2
        · refine ⟨?_, ?_, h3⟩
          · intro p hp
            exact ⟨List.mem_append_left _ (h1 p hp).1, (h1 p hp).2⟩
          · intro x hx
            rcases List.mem_append.1 hx with hx | hx
            · exact h2 x hx
            · obtain rfl := List.mem_singleton.1 hx
              exact ⟨q, hq, hqa⟩
      · rename_i ha
        have ha : ∀ p ∈ acc, p.1 ≠ addr l := by
          intro p hp e; exact ha (List.any_eq_true.2 ⟨p, hp, by simpa using e⟩)
        refine ⟨?_, ?_, ?_⟩
        · intro p hp
          rcases List.mem_append.1 hp with hp | hp
          · exact ⟨List.mem_append_left _ (h1 p hp).1, (h1 p hp).2⟩
          · obtain rfl := List.mem_singleton.1 hp
            exact ⟨List.mem_append_right _ (List.mem_singleton.2 rfl), rfl⟩
        · intro x hx
          rcases List.mem_append.1 hx with hx | hx
          · obtain ⟨p, hp, hpe⟩ := h2 x hx
            exact ⟨p, List.mem_append_left _ hp, hpe⟩
          · obtain rfl := List.mem_singleton.1 hx
            exact ⟨_, List.mem_append_right _ (List.mem_singleton.2 rfl), rfl⟩
        · refine List.pairwise_append.2 ⟨h3, List.pairwise_singleton .., ?_⟩
          intro p hp q' hq'
          obtain rfl := List.mem_singleton.1 hq'
          exact ha p hp

theorem homeStore_foldl (hr eng th : Nat) (f : Nat → Word) (keep : List (Nat × Nat)) (s : State) :
    keep.foldl (fun s p => s.homeStore hr eng th p.1 (f p.2)) s = { s with syn := { s.syn with stores := (keep.map fun p => (⟨hr, eng, th, p.1, f p.2, s.clk.engineCycles⟩ : PendStore)).foldl (fun l p => insStore p l) s.syn.stores } } := by
  induction keep generalizing s with
  | nil => simp
  | cons p l ih => simp only [List.foldl_cons]; rw [ih]; simp [State.homeStore]

theorem mem_commitStores (p : PendStore → Bool) (l : List PendStore) (m : SMap Word) : ∀ x ∈ (commitStores p l m).1, x ∈ l ∧ p x = false := by
  induction l generalizing m with
  | nil => intro x hx; cases hx
  | cons a l ih =>
    unfold commitStores
    split
    · intro x hx; exact ⟨List.mem_cons_of_mem _ (ih _ x hx).1, (ih _ x hx).2⟩
    · split
      · intro x hx; exact ⟨List.mem_cons_of_mem _ (ih _ x hx).1, (ih _ x hx).2⟩
      · rename_i h _
        intro x hx
        rcases List.mem_cons.1 hx with rfl | hx
        · exact ⟨List.mem_cons_self .., by simpa using h⟩
        · exact ⟨List.mem_cons_of_mem _ (ih _ x hx).1, (ih _ x hx).2⟩

theorem commitStores_other (p : PendStore → Bool) (l : List PendStore) (m : SMap Word) (k : Nat) (h : ∀ x ∈ l, p x = true → homeKey x.hr x.addr ≠ k) :
    SMap.get (fun _ => (0 : Word)) (commitStores p l m).2 k = SMap.get (fun _ => 0) m k := by
  induction l generalizing m with
  | nil => rfl
  | cons a l ih =>
    have ih' := fun m => ih m fun x hx => h x (List.mem_cons_of_mem _ hx)
    unfold commitStores
    split
    · rename_i hp
      rw [ih', SMap.get_put, if_neg (fun e => h a (List.mem_cons_self ..) hp e.symm)]
    · split
      · exact ih' _
      · exact ih' _

theorem commitStores_one (p : PendStore → Bool) (l : List PendStore) (m : SMap Word) (x : PendStore) (hx : p x = true)
    (h : ∀ y ∈ l, homeKey y.hr y.addr = homeKey x.hr x.addr → y.hr = x.hr ∧ y.addr = x.addr) (hf : (l.filter fun p => p.hr == x.hr && p.addr == x.addr) = [x]) :
    SMap.get (fun _ => (0 : Word)) (commitStores p l m).2 (homeKey x.hr x.addr) = x.val := by
  induction l generalizing m with
  | nil => simp at hf
  | cons a l ih =>
    by_cases e : (a.hr == x.hr && a.addr == x.addr) = true
    · rw [List.filter_cons_of_pos (by simpa using e)] at hf
      obtain ⟨rfl, hnil⟩ := List.cons.inj hf
      unfold commitStores
      rw [if_pos hx, commitStores_other, SMap.get_put_self]
      intro y hy _ hk
      have := h y (List.mem_cons_of_mem _ hy) hk
      have : y ∈ l.filter fun p => p.hr == a.hr && p.addr == a.addr := List.mem_filter.2 ⟨hy, by simp [this]⟩
      rw [hnil] at this; cases this
    · rw [List.filter_cons_of_neg (by simpa using e)] at hf
      have ih' := fun m => ih m (fun y hy => h y (List.mem_cons_of_mem _ hy)) hf
      unfold commitStores
      split
      · exact ih' _
      · split
        · exact ih' _
        · exact ih' _

theorem commitStores_none (p : PendStore → Bool) (l : List PendStore) (m : SMap Word) (h : ∀ x ∈ l, p x = false) : commitStores p l m = (l, m) := by
  induction l generalizing m with
  | nil => rfl
  | cons a l ih =>
    have ha := h a (List.mem_cons_self ..)
    have ih' := ih m fun x hx => h x (List.mem_cons_of_mem _ hx)
    unfold commitStores
    rw [if_neg (by rw [ha]; exact Bool.false_ne_true), if_neg, ih']
    rw [List.any_eq_true]
    rintro ⟨y, hy, e⟩
    simp [h y (List.mem_cons_of_mem _ hy)] at e

theorem insStore_append (x : PendStore) (l : List PendStore)
    (h : ∀ y ∈ l, ¬ (y.hr == x.hr && y.addr == x.addr && y.at_ == x.at_ && decide (x.eng < y.eng)) = true) : insStore x l = l ++ [x] := by
  induction l with
  | nil => rfl
  | cons y l ih => unfold insStore; rw [if_neg (h y (List.mem_cons_self ..)), ih fun z hz => h z (List.mem_cons_of_mem _ hz)]; rfl

theorem commitStores_mem (p : PendStore → Bool) (l : List PendStore) (m : SMap Word) :
    (∀ x ∈ (commitStores p l m).1, x ∈ l ∧ p x = false)
      ∧ ∀ x ∈ l, p x = false → (∀ y ∈ l, p y = true → ¬ (y.hr = x.hr ∧ y.addr = x.addr)) → x ∈ (commitStores p l m).1 := by
  induction l generalizing m with
  | nil => exact ⟨fun x hx => absurd hx List.not_mem_nil, fun x hx => absurd hx List.not_mem_nil⟩
  | cons a l ih =>
    unfold commitStores
    split
    · rename_i h
      refine ⟨fun x hx => ⟨List.mem_cons_of_mem _ ((ih _).1 x hx).1, ((ih _).1 x hx).2⟩, fun x hx hp hy => (ih _).2 x ?_ hp fun y hy' => hy y (List.mem_cons_of_mem _ hy')⟩
      rcases List.mem_cons.1 hx with rfl | hx
      · rw [h] at hp; cases hp
      · exact hx
    · rename_i h
      split
      · rename_i h2
        refine ⟨fun x hx => ⟨List.mem_cons_of_mem _ ((ih _).1 x hx).1, ((ih _).1 x hx).2⟩, fun x hx hp hy => (ih _).2 x ?_ hp fun y hy' => hy y (List.mem_cons_of_mem _ hy')⟩
        rcases List.mem_cons.1 hx with rfl | hx
        · obtain ⟨y, hyl, e⟩ := List.any_eq_true.1 h2
          simp only [Bool.and_eq_true, beq_iff_eq] at e
          exact absurd ⟨e.1.2, e.2⟩ (hy y (List.mem_cons_of_mem _ hyl) e.1.1)
        · exact hx
      · refine ⟨fun x hx => ?_, fun x hx hp hy => ?_⟩
        · rcases List.mem_cons.1 hx with rfl | hx
          · exact ⟨List.mem_cons_self .., by simpa using h⟩
          · exact ⟨List.mem_cons_of_mem _ ((ih _).1 x hx).1, ((ih _).1 x hx).2⟩
        · rcases List.mem_cons.1 hx with rfl | hx
          · exact List.mem_cons_self ..
          · exact List.mem_cons_of_mem _ ((ih _).2 x hx hp fun y hy' => hy y (List.mem_cons_of_mem _ hy'))

theorem Thread.tag_setTag (u : Thread) (k i : Nat) (x : List Stream) : (u.setTag k x).tag i = if i = k then x else u.tag i := by
  unfold Thread.tag Thread.setTag
  rw [SMap.get_put]

theorem State.streamLand_get (s : State) (hr eng : Nat) (x : Stream) (i : Nat) :
    SMap.get (fun _ => (0 : Word)) (s.streamLand hr eng x).syn.mem i =
      if homeKey hr x.dst ≤ i ∧ i < homeKey hr x.dst + 16 * x.lines ∧ (i - homeKey hr x.dst) / 16 ∉ x.errs then
        word (leAt x.data (4 * (i - homeKey hr x.dst)) 4) else SMap.get (fun _ => 0) s.syn.mem i := by
  unfold State.streamLand
  dsimp only
  generalize hs : ({ s with syn := { s.syn with stores := _ } } : State) = s'
  have hm : s'.syn.mem = s.syn.mem := by rw [← hs]
  rw [← hm]
  clear hm hs
  generalize x.lines = n
  induction n with
  | zero =>
    rw [if_neg (by omega)]; rfl
  | succ n ih =>
    rw [List.range_succ (n := n), List.foldl_append]
    simp only [List.foldl_cons, List.foldl_nil]
    generalize List.foldl _ s' (List.range n) = q at ih ⊢
    by_cases he : x.errs.contains n = true
    · rw [if_pos he, ih]
      have he' : n ∈ x.errs := List.contains_iff_mem.1 he
      by_cases hc : homeKey hr x.dst ≤ i ∧ i < homeKey hr x.dst + 16 * n ∧ (i - homeKey hr x.dst) / 16 ∉ x.errs
      · rw [if_pos hc, if_pos ⟨hc.1, by omega, hc.2.2⟩]
      · rw [if_neg hc, if_neg]
        rintro ⟨h1, h2, h3⟩
        by_cases h4 : i < homeKey hr x.dst + 16 * n
        · exact hc ⟨h1, h4, h3⟩
        · have : (i - homeKey hr x.dst) / 16 = n := by omega
          rw [this] at h3; exact h3 he'
    · rw [if_neg he]
      have he' : n ∉ x.errs := fun h => he (List.contains_iff_mem.2 h)
      unfold State.homeWrite
      dsimp only
      rw [SMap.get_store]
      have hk : homeKey hr (x.dst + 64 * n) = homeKey hr x.dst + 16 * n := by unfold homeKey; omega
      rw [hk]
      by_cases hc : homeKey hr x.dst + 16 * n ≤ i ∧ i < homeKey hr x.dst + 16 * (n + 1)
      · rw [dif_pos (by simp; omega), if_pos ⟨by omega, by omega, by rw [show (i - homeKey hr x.dst) / 16 = n by omega]; exact he'⟩]
        simp only [List.getElem_map, List.getElem_range]
        congr 2; omega
      · rw [dif_neg (by simp; omega), ih]
        congr 1
        apply propext
        constructor
        · rintro ⟨h1, h2, h3⟩; exact ⟨h1, by omega, h3⟩
        · rintro ⟨h1, h2, h3⟩; exact ⟨h1, by omega, h3⟩

theorem streamLands_get (hr eng : Nat) (i : Nat) (xs : List Stream) (s : State) :
    let c (x : Stream) : Prop := homeKey hr x.dst ≤ i ∧ i < homeKey hr x.dst + 16 * x.lines ∧ (i - homeKey hr x.dst) / 16 ∉ x.errs
    let m := SMap.get (fun _ => (0 : Word)) (xs.foldl (fun s x => s.streamLand hr eng x) s).syn.mem i
    ((∀ x ∈ xs, ¬ c x) → m = SMap.get (fun _ => (0 : Word)) s.syn.mem i)
      ∧ ∀ v, (∀ x ∈ xs, c x → word (leAt x.data (4 * (i - homeKey hr x.dst)) 4) = v) → ((∃ x ∈ xs, c x) ∨ SMap.get (fun _ => (0 : Word)) s.syn.mem i = v) → m = v := by
  induction xs generalizing s with
  | nil =>
    refine ⟨fun _ => rfl, fun v _ h => ?_⟩
    rcases h with ⟨x, hx, _⟩ | h
    · cases hx
    · exact h
  | cons x xs ih =>
    have ih := ih (s.streamLand hr eng x)
    dsimp only [List.foldl_cons] at ih ⊢
    rw [State.streamLand_get] at ih
    refine ⟨fun h => ?_, fun v hv h => ?_⟩
    · rw [ih.1 fun y hy => h y (List.mem_cons_of_mem _ hy), if_neg (h x (List.mem_cons_self ..))]
    · refine ih.2 v (fun y hy => hv y (List.mem_cons_of_mem _ hy)) ?_
      by_cases hc : homeKey hr x.dst ≤ i ∧ i < homeKey hr x.dst + 16 * x.lines ∧ (i - homeKey hr x.dst) / 16 ∉ x.errs
      · rw [if_pos hc]; exact .inr (hv x (List.mem_cons_self ..) hc)
      · rw [if_neg hc]
        rcases h with ⟨y, hy, hyc⟩ | h
        · rcases List.mem_cons.1 hy with rfl | hy
          · exact absurd hyc hc
          · exact .inl ⟨y, hy, hyc⟩
        · exact .inr h

theorem State.streamLand_only (s : State) (hr eng : Nat) (x : Stream) : s.streamLand hr eng x =
    { s with
      cyc := { s.cyc with sram := (s.streamLand hr eng x).cyc.sram }
      syn := { s.syn with stores := (s.streamLand hr eng x).syn.stores, mem := (s.streamLand hr eng x).syn.mem } } := by
  unfold State.streamLand
  dsimp only
  generalize hf : (fun (s : State) i => if x.errs.contains i then s
      else s.homeWrite hr (x.dst + 64 * i) ((List.range 16).map fun k => word (leAt x.data (64 * i + 4 * k) 4))) = f
  have hs : ∀ (u : State) i, f u i = { u with cyc := { u.cyc with sram := (f u i).cyc.sram }, syn := { u.syn with mem := (f u i).syn.mem } } := by
    intro u i; rw [← hf]; dsimp only; split <;> rfl
  generalize List.range x.lines = l
  generalize hu : ({ s with syn := { s.syn with stores := _ } } : State) = u
  have key : ∀ (l : List Nat) (u : State), l.foldl f u = { u with cyc := { u.cyc with sram := (l.foldl f u).cyc.sram }, syn := { u.syn with mem := (l.foldl f u).syn.mem } } := by
    intro l
    induction l with
    | nil => intro u; rfl
    | cons a l ih =>
      intro u
      have := ih (f u a)
      rw [List.foldl_cons]
      generalize l.foldl f (f u a) = q at this ⊢
      rw [hs] at this
      exact this
  have := key l u
  generalize l.foldl f u = q at this ⊢
  rw [this, ← hu]

theorem streamLands_only (hr eng : Nat) (xs : List Stream) (s : State) :
    xs.foldl (fun s x => s.streamLand hr eng x) s = { s with
      syn := { s.syn with stores := (xs.foldl (fun s x => s.streamLand hr eng x) s).syn.stores, mem := (xs.foldl (fun s x => s.streamLand hr eng x) s).syn.mem }
      cyc := { s.cyc with sram := (xs.foldl (fun s x => s.streamLand hr eng x) s).cyc.sram } } := by
  induction xs generalizing s with
  | nil => rfl
  | cons x xs ih =>
    have := ih (s.streamLand hr eng x)
    rw [List.foldl_cons]
    generalize xs.foldl (fun s x => s.streamLand hr eng x) (s.streamLand hr eng x) = q at this ⊢
    rw [State.streamLand_only] at this
    exact this

theorem any_lanesOf (g : BitVec 64) (p : Nat → Bool) : (lanesOf g).any p = true ↔ ∃ l, (l < 64 ∧ g.getLsbD l = true) ∧ p l = true := by
  simp [List.any_eq_true, mem_lanesOf]

theorem mapV_foldl (u0 : Thread) (g : BitVec 64) (d : Nat) (f : Nat → Nat → Word) (n : Nat) :
    let u' := (List.range n).foldl (fun u k => u.mapV g (d + k) (f k)) u0
    (u' = { u0 with v := u'.v }) ∧ ∀ r l, l < 64 → u'.vreg r l = if d ≤ r ∧ r < d + n ∧ g.getLsbD l = true then f (r - d) l else u0.vreg r l := by
  induction n with
  | zero => exact ⟨rfl, fun r l _ => by simp; omega⟩
  | succ n ih =>
    rw [List.range_succ, List.foldl_append]
    simp only [List.foldl_cons, List.foldl_nil]
    dsimp only at ih
    refine ⟨?_, fun r l hl => ?_⟩
    · generalize hq : List.foldl _ u0 (List.range n) = q at ih ⊢
      rw [Thread.mapV_eq]
      have := ih.1
      rw [this]
    · rw [Thread.vreg_mapV _ _ _ _ _ _ hl, ih.2 r l hl]
      by_cases h1 : r = d + n
      · by_cases h2 : g.getLsbD l = true
        · rw [if_pos ⟨h1, h2⟩, if_pos ⟨by omega, by omega, h2⟩, h1, Nat.add_sub_cancel_left]
        · rw [if_neg (by tauto), if_neg (by tauto), if_neg (by tauto)]
      · rw [if_neg (by tauto)]
        by_cases h3 : d ≤ r ∧ r < d + n ∧ g.getLsbD l = true
        · rw [if_pos h3, if_pos ⟨h3.1, by omega, h3.2.2⟩]
        · rw [if_neg h3, if_neg]
          rintro ⟨x, y, z⟩
          exact h3 ⟨x, by omega, z⟩

theorem mapV_foldl_alive (u0 : Thread) (g : BitVec 64) (d : Nat) (f : Nat → Nat → Word) (n : Nat) :
    ((List.range n).foldl (fun u k => u.mapV g (d + k) (f k)) u0).alive = u0.alive := by
  rw [(mapV_foldl u0 g d f n).1]

theorem ringStore_foldl (t row : Nat) (u : Thread) (wa wb : Nat) (s0 : State) (ls : List Nat) :
    let ray (l : Nat) : Word := u.vreg wa l
    let lens (l : Nat) : Nat := (rayFields (ray l)).1 % 768
    let view (l : Nat) : Nat := (rayFields (ray l)).2.2.2 * 20 + (rayFields (ray l)).2.2.1
    let place (l : Nat) : Nat := 300 * lens l + 3 * view l
    let s' := ls.foldl (fun s l => s.ringStore t row (ray l) (u.vreg wb l) (u.vreg (wb + 1) l) (u.vreg (wb + 2) l)) s0
    (s' = { s0 with syn := { s0.syn with ring := s'.syn.ring, masks := s'.syn.masks }, cyc := { s0.cyc with rings := s'.cyc.rings } })
    ∧ (∀ k, (∀ l ∈ ls, ∀ j, j < 3 → k ≠ ringKey t (row % 3) (place l + j)) → SMap.get (fun _ => (0 : BitVec 20)) s'.syn.ring k = SMap.get (fun _ => 0) s0.syn.ring k)
    ∧ (∀ k b, (SMap.get s0.maskDefault s0.syn.masks k).getLsbD b = true → (SMap.get s0.maskDefault s'.syn.masks k).getLsbD b = true)
    ∧ (∀ l ∈ ls, view l < 100 → SMap.get (fun _ => false) s0.syn.checked (maskKey t (row % 3) (lens l)) = false →
        (∀ l' ∈ ls, l' ≠ l → ∀ i j, i < 3 → j < 3 → place l' + i ≠ place l + j) →
        (∀ j, j < 3 → SMap.get (fun _ => (0 : BitVec 20)) s'.syn.ring (ringKey t (row % 3) (place l + j)) = ringColour (u.vreg (wb + j) l))
        ∧ (SMap.get s0.maskDefault s'.syn.masks (maskKey t (row % 3) (lens l))).getLsbD (view l) = true) := by
  dsimp only
  induction ls using List.reverseRecOn with
  | nil => exact ⟨rfl, fun _ _ => rfl, fun _ _ h => h, fun l hl => absurd hl (List.not_mem_nil)⟩
  | append_singleton ls x ih =>
    rw [List.foldl_append]
    simp only [List.foldl_cons, List.foldl_nil]
    generalize List.foldl _ s0 ls = q at ih ⊢
    obtain ⟨ih1, ih2, ih3, ih4⟩ := ih
    have hchk : q.syn.checked = s0.syn.checked := by rw [ih1]
    have hdef : q.maskDefault = s0.maskDefault := by rw [ih1]; rfl
    unfold State.ringStore
    dsimp only
    by_cases hc : SMap.get (fun _ => false) q.syn.checked (maskKey t (row % 3) ((rayFields (u.vreg wa x)).1 % 768)) = true
    · rw [if_pos hc]
      refine ⟨ih1, fun k hk => ih2 k fun l hl => hk l (List.mem_append_left _ hl), ih3, fun l hl hv hck hd => ?_⟩
      rcases List.mem_append.1 hl with h | h
      · exact ih4 l h hv hck fun l' hl' => hd l' (List.mem_append_left _ hl')
      · obtain rfl := List.mem_singleton.1 h
        rw [hchk, hck] at hc; cases hc
    · rw [if_neg hc]
      refine ⟨?_, fun k hk => ?_, fun k b hb => ?_, fun l hl hv hck hd => ?_⟩
      · unfold State.setRingMask State.ringWrite
        rw [ih1]
      · unfold State.setRingMask State.ringWrite
        dsimp only
        rw [SMap.get_store, dif_neg, ih2 k fun l hl => hk l (List.mem_append_left _ hl)]
        rintro ⟨h1, h2⟩
        have := hk x (List.mem_append_right _ (List.mem_singleton.2 rfl)) (k - ringKey t (row % 3) (300 * ((rayFields (u.vreg wa x)).1 % 768) + 3 * ((rayFields (u.vreg wa x)).2.2.2 * 20 + (rayFields (u.vreg wa x)).2.2.1))) (by simp at h2; omega)
        unfold ringKey at *
        omega
      · unfold State.setRingMask State.ringMask State.ringWrite
        dsimp only
        have hdd : ∀ (R : SMap (BitVec 20)) (C : Cycle), ({ q with syn := { q.syn with ring := R }, cyc := C } : State).maskDefault = s0.maskDefault := fun _ _ => hdef
        rw [hdd, SMap.get_put]
        split
        · rename_i e
          rw [BitVec.getLsbD_or, ← e, ih3 k b hb]; rfl
        · exact ih3 k b hb
      · unfold State.setRingMask State.ringMask State.ringWrite
        dsimp only
        have hdd : ∀ (R : SMap (BitVec 20)) (C : Cycle), ({ q with syn := { q.syn with ring := R }, cyc := C } : State).maskDefault = s0.maskDefault := fun _ _ => hdef
        rw [hdd]
        by_cases hx : l = x
        · subst hx
          refine ⟨fun j hj => ?_, ?_⟩
          · rw [SMap.get_store, dif_pos (by unfold ringKey; simp; omega)]
            have h0 : ∀ p, ringKey t (row % 3) (p + j) - ringKey t (row % 3) p = j := by intro p; unfold ringKey; omega
            simp only [h0]
            match j, hj with
            | 0, _ => rfl
            | 1, _ => rfl
            | 2, _ => rfl
          · rw [SMap.get_put_self, BitVec.getLsbD_or, Bool.or_eq_true]
            right
            rw [BitVec.getLsbD_ofNat, Nat.testBit_two_pow_self]
            simp [hv]
        · have hl' : l ∈ ls := (List.mem_append.1 hl).resolve_right fun h => hx (List.mem_singleton.1 h)
          have h4 := ih4 l hl' hv hck fun l' hl' => hd l' (List.mem_append_left _ hl')
          refine ⟨fun j hj => ?_, ?_⟩
          · rw [SMap.get_store, dif_neg, h4.1 j hj]
            rintro ⟨h1, h2⟩
            have := hd x (List.mem_append_right _ (List.mem_singleton.2 rfl)) (fun e => hx e.symm)
            generalize 300 * ((rayFields (u.vreg wa x)).1 % 768) + 3 * ((rayFields (u.vreg wa x)).2.2.2 * 20 + (rayFields (u.vreg wa x)).2.2.1) = px at *
            generalize 300 * ((rayFields (u.vreg wa l)).1 % 768) + 3 * ((rayFields (u.vreg wa l)).2.2.2 * 20 + (rayFields (u.vreg wa l)).2.2.1) = pl at *
            have := this (pl + j - px) j (by unfold ringKey at *; simp at h2; omega) hj
            unfold ringKey at *; omega
          · rw [SMap.get_put]
            split
            · rename_i e
              rw [BitVec.getLsbD_or, ← e, h4.2]; rfl
            · exact h4.2

theorem keptRays_spec (p : Nat → Bool) (ray : Nat → Word) (ls : List Nat) (hn : ls.Nodup) :
    let keep := ls.foldl (fun (acc : List Nat) l =>
          if acc.any fun k => ray k == ray l then
            (if p l then acc.filter (fun k => ray k != ray l) ++ [l] else acc)
          else acc ++ [l]) []
    (∀ l ∈ keep, l ∈ ls) ∧ ∀ l ∈ ls, (∀ l' ∈ ls, l' ≠ l → ray l' ≠ ray l) → l ∈ keep := by
  dsimp only
  induction ls using List.reverseRecOn with
  | nil => exact ⟨fun l h => h, fun l h => absurd h List.not_mem_nil⟩
  | append_singleton ls x ih =>
    rw [List.nodup_append] at hn
    obtain ⟨ih1, ih2⟩ := ih hn.1
    rw [List.foldl_append]
    simp only [List.foldl_cons, List.foldl_nil]
    generalize List.foldl _ [] ls = q at ih1 ih2 ⊢
    have hsub : ∀ l ∈ q, l ∈ ls ++ [x] := fun l hl => List.mem_append_left _ (ih1 l hl)
    refine ⟨fun l hl => ?_, fun l hl hd => ?_⟩
    · split at hl
      · split at hl
        · rcases List.mem_append.1 hl with h | h
          · exact hsub l (List.mem_of_mem_filter h)
          · exact List.mem_append_right _ h
        · exact hsub l hl
      · rcases List.mem_append.1 hl with h | h
        · exact hsub l h
        · exact List.mem_append_right _ h
    · by_cases hx : l = x
      · subst hx
        rw [if_neg]
        · exact List.mem_append_right _ (List.mem_singleton.2 rfl)
        · rw [List.any_eq_true]
          rintro ⟨y, hy, e⟩
          have hyl : y ≠ l := fun e' => by
            subst e'
            exact absurd rfl (hn.2.2 y (ih1 y hy) y (List.mem_singleton.2 rfl))
          exact hd y (hsub y hy) hyl (by simpa using e)
      · have hl' : l ∈ q := ih2 l ((List.mem_append.1 hl).resolve_right fun h => hx (List.mem_singleton.1 h)) fun l' hl' => hd l' (List.mem_append_left _ hl')
        have := hd x (List.mem_append_right _ (List.mem_singleton.2 rfl)) (fun e => hx e.symm)
        split
        · split
          · exact List.mem_append_left _ (List.mem_filter.2 ⟨hl', by simpa using fun e => this e.symm⟩)
          · exact hl'
        · exact List.mem_append_left _ hl'

theorem State.thread_setThread_get (s : State) (k i : Nat) (v : Thread) : (s.setThread k v).thread i = if i = k then v else s.thread i := by
  unfold State.thread State.setThread; rw [SMap.get_put]

theorem setThreads_only (f : State → Nat → Thread) (key : Nat → Nat) (l : List Nat) (s : State) :
    l.foldl (fun s j => s.setThread (key j) (f s j)) s = { s with syn := { s.syn with threads := (l.foldl (fun s j => s.setThread (key j) (f s j)) s).syn.threads } } := by
  induction l generalizing s with
  | nil => rfl
  | cons a l ih =>
    rw [List.foldl_cons]
    have := ih (s.setThread (key a) (f s a))
    generalize List.foldl _ _ l = q at this ⊢
    rw [this]; rfl

theorem launchThreads_get (f : Nat → Thread) (key n : Nat) (s : State) (k : Nat) :
    ((List.range n).foldl (fun s j => s.setThread (key + j) (f j)) s).thread k = if key ≤ k ∧ k < key + n then f (k - key) else s.thread k := by
  induction n with
  | zero => rw [if_neg (by omega)]; rfl
  | succ n ih =>
    rw [List.range_succ, List.foldl_append]
    simp only [List.foldl_cons, List.foldl_nil]
    rw [State.thread_setThread_get, ih]
    by_cases h : k = key + n
    · subst h; rw [if_pos rfl, if_pos (by omega), Nat.add_sub_cancel_left]
    · rw [if_neg h]
      congr 1
      apply propext; omega

theorem laneRegisters_foldl (f g : Nat → Word) (n : Nat) (hn : n ≤ 64) (u : Thread) :
    let q := (List.range n).foldl (fun t i => (t.setV 0 i (f i)).setV 1 i (g i)) u
    q = { u with v := q.v } ∧ ∀ r l, l < 64 → q.vreg r l = if l < n ∧ r = 0 then f l else if l < n ∧ r = 1 then g l else u.vreg r l := by
  dsimp only
  induction n with
  | zero => exact ⟨rfl, fun r l _ => by simp⟩
  | succ n ih =>
    have ih := ih (by omega)
    rw [List.range_succ, List.foldl_append]
    simp only [List.foldl_cons, List.foldl_nil]
    generalize List.foldl _ u (List.range n) = q at ih ⊢
    refine ⟨?_, fun r l hl => ?_⟩
    · exact congrArg (fun z : Thread => { z with v := ((q.setV 0 n (f n)).setV 1 n (g n)).v }) ih.1
    · rw [Thread.vreg_setV _ _ _ _ _ _ (by omega) hl, Thread.vreg_setV _ _ _ _ _ _ (by omega) hl, ih.2 r l hl]
      by_cases h1 : l = n
      · subst h1
        by_cases h2 : r = 1
        · subst h2; simp
        · by_cases h3 : r = 0
          · subst h3; simp
          · simp [h2, h3]
      · have : (l < n + 1) = (l < n) := propext (by omega)
        simp only [h1, and_false, if_false, this]

theorem entryThread_spec (hr eng j : Nat) (c : Chunk) (st : Nat) : 
    let u := entryThread hr eng j c st
    u.alive = true ∧ u.pc = c.entry ∧ u.startAt = st ∧ u.calls = [] ∧ u.tags = [] ∧ u.bar = none
    ∧ (∀ r, u.sreg r = word ([c.row, eng, hr, j, 0x2FF000 + 0x800 * (c.row % 2), c.frame % 2 ^ 32,
                  c.frame / 2 ^ 32, 0x80000 + eng * 0x20000].getD r 0))
    ∧ (∀ r, u.preg r = BitVec.allOnes 64)
    ∧ ∀ r l, l < 64 → u.vreg r l = if r = 0 then word l else if r = 1 then
                  word (768 * (eng % 4) + 64 * hr + l + (432 * (eng / 4) + c.row) * 2 ^ 12) else 0 := by
  dsimp only
  unfold entryThread
  dsimp only
  have h := fun u => laneRegisters_foldl (fun i => word i) (fun i => word (768 * (eng % 4) + 64 * hr + i + (432 * (eng / 4) + c.row) * 2 ^ 12)) 64 (by omega) u
  dsimp only at h
  generalize hq : List.foldl (fun t p => Thread.setS t _ _) _ _ = u0
  obtain ⟨h1, h2⟩ := h u0
  have hu0 : u0 = { ({ alive := true, pc := c.entry, startAt := st } : Thread) with sc := u0.sc } := by
    rw [← hq]; rfl
  generalize List.foldl _ u0 _ = v at h1 h2 ⊢
  rw [hu0] at h1
  have hsc : v.sc = u0.sc := (congrArg Thread.sc h1 :)
  have hv0 : ∀ r l, u0.vreg r l = 0 := by intro r l; rw [hu0]; rfl
  refine ⟨(congrArg Thread.alive h1 :), (congrArg Thread.pc h1 :), (congrArg Thread.startAt h1 :), (congrArg Thread.calls h1 :), (congrArg Thread.tags h1 :), (congrArg Thread.bar h1 :), fun r => ?_, fun r => ?_, fun r l hl => ?_⟩
  · have : v.sreg r = u0.sreg r := by unfold Thread.sreg; rw [hsc]
    rw [this, ← hq]
    simp only [List.zipIdx_cons, List.zipIdx_nil, List.foldl_cons, List.foldl_nil, Thread.sreg_setS]
    match r with
    | 0 => simp
    | 1 => simp
    | 2 => simp
    | 3 => simp
    | 4 => simp
    | 5 => simp
    | 6 => simp
    | 7 => simp
    | r + 8 => simp; rfl
  · have : v.p = [] := (congrArg Thread.p h1 :)
    unfold Thread.preg
    rw [this]
    split <;> rfl
  · rw [h2 r l hl, hv0]
    simp only [hl, true_and]

theorem State.engine_setEngine_get (s : State) (k i : Nat) (v : Engine) : (s.setEngine k v).engine i = if i = k then v else s.engine i := by
  unfold State.engine State.setEngine; rw [SMap.get_put]

theorem freeThreads_get (key : Nat) (l : List Nat) (hn : l.Nodup) (s : State) (k : Nat) :
    (l.foldl (fun s j => s.setThread (key + j) { (s.thread (key + j)) with bar := none }) s).thread k = if key ≤ k ∧ k - key ∈ l then { s.thread k with bar := none } else s.thread k := by
  induction l generalizing s with
  | nil => simp
  | cons a l ih =>
    rw [List.nodup_cons] at hn
    rw [List.foldl_cons, ih hn.2, State.thread_setThread_get]
    by_cases h : k = key + a
    · subst h
      rw [if_pos rfl, if_neg (by rw [Nat.add_sub_cancel_left]; tauto), if_pos ⟨by omega, by rw [Nat.add_sub_cancel_left]; exact List.mem_cons_self ..⟩]
    · rw [if_neg h]
      by_cases h2 : key ≤ k ∧ k - key ∈ l
      · rw [if_pos h2, if_pos ⟨h2.1, List.mem_cons_of_mem _ h2.2⟩]
      · rw [if_neg h2, if_neg]
        rintro ⟨h3, h4⟩
        rcases List.mem_cons.1 h4 with h4 | h4
        · omega
        · exact h2 ⟨h3, h4⟩

/-- What reading samples may do: registers and events, one Homeroom's cache, whose new lines hold what memory holds. -/
def SampledRays (hr : Nat) (s z : State) : Prop :=
  RegsAndEvents { s with draws := z.draws, syn := { s.syn with threads := z.syn.threads, cache := z.syn.cache } } z
    ∧ z.syn = { s.syn with threads := z.syn.threads, cache := z.syn.cache }
    ∧ ∀ x ∈ SMap.get (fun _ => []) z.syn.cache hr, x ∈ SMap.get (fun _ => []) s.syn.cache hr ∨ x.bytes = s.bytesAt (64 * x.line) 64

theorem SampledRays.refl (hr : Nat) (s : State) : SampledRays hr s s := ⟨rfl, rfl, fun _ h => .inl h⟩

theorem SampledRays.bytes {hr : Nat} {s z : State} (h : SampledRays hr s z) (a n : Nat) : z.bytesAt a n = s.bytesAt a n := by
  unfold State.bytesAt State.byteAt
  have : z.dmc = s.dmc := by rw [h.1]
  rw [this]

theorem SampledRays.trans {hr : Nat} {s z y : State} (h : SampledRays hr s z) (k : SampledRays hr z y) : SampledRays hr s y := by
  refine ⟨?_, ?_, fun x hx => ?_⟩
  · have h1 := h.1
    have k1 := k.1
    have h2 := h.2.1
    unfold RegsAndEvents at h1 k1 ⊢
    rw [k1, h1]
  · rw [k.2.1, h.2.1]
  · rcases k.2.2 x hx with e | e
    · exact h.2.2 x e
    · rw [h.bytes] at e; exact .inr e

theorem SampledRays.line (s : State) (hr : Nat) (pl : Bool) (ln : Nat) :
    SampledRays hr s (s.sampleLine hr pl ln).1 ∧ (s.sampleLine hr pl ln).1.syn.threads = s.syn.threads := by
  unfold State.sampleLine
  split
  · exact ⟨.refl .., rfl⟩
  · dsimp only
    have h0 : RegsAndEvents s ((s.bump (Reg.hrCnt hr 3)).devRead (2 + hr) (64 * ln) 64).1 := (RegsAndEvents.bump ..).trans (RegsAndEvents.devRead ..)
    have hb := State.devRead_line (s.bump (Reg.hrCnt hr 3)) (2 + hr) (64 * ln) 64 (by decide) (by omega)
    rw [show (s.bump (Reg.hrCnt hr 3)).bytesAt (64 * ln) 64 = s.bytesAt (64 * ln) 64 from rfl] at hb
    generalize (s.bump (Reg.hrCnt hr 3)).devRead (2 + hr) (64 * ln) 64 = r at h0 hb
    obtain ⟨z, bs, ok⟩ := r
    dsimp only at h0 hb ⊢
    have hs : z.syn = s.syn := by rw [h0]
    have hd : z.draws = s.draws := by rw [h0]
    have hz : SampledRays hr s z := by
      refine ⟨?_, by rw [hs], fun x hx => .inl (by rw [← hs]; exact hx)⟩
      rw [hs, hd]; exact h0
    split
    · rename_i hok
      rw [if_pos hok] at hb
      subst hb
      refine ⟨hz.trans ?_, ?_⟩
      · unfold State.cacheFill
        dsimp only
        split
        · refine ⟨rfl, rfl, fun x hx => ?_⟩
          dsimp only at hx
          rw [SMap.get_put_self] at hx
          rcases List.mem_append.1 hx with e | e
          · exact .inl e
          · obtain rfl := List.mem_singleton.1 e
            exact .inr (hz.bytes ..).symm
        · refine ⟨rfl, rfl, fun x hx => ?_⟩
          dsimp only at hx
          rw [SMap.get_put_self] at hx
          rcases List.mem_append.1 hx with e | e
          · exact .inl (List.mem_of_mem_eraseIdx e)
          · obtain rfl := List.mem_singleton.1 e
            exact .inr (hz.bytes ..).symm
      · unfold State.cacheFill
        dsimp only
        split <;> exact congrArg Syn.threads hs
    · exact ⟨hz, congrArg Syn.threads hs⟩

theorem SampledRays.tap (s : State) (hr : Nat) (b : RowLatch) (e : StackEntry) (i j : Int) :
    SampledRays hr s (s.tap hr b e i j).1 ∧ (s.tap hr b e i j).1.syn.threads = s.syn.threads := by
  unfold State.tap
  split
  · exact ⟨.refl .., rfl⟩
  · rename_i a n _
    dsimp only
    have h1 := SampledRays.line s hr e.plane (a / 64)
    generalize s.sampleLine hr e.plane (a / 64) = x at h1 ⊢
    have h2 := SampledRays.line x.1 hr e.plane (a / 64 + 1)
    generalize x.1.sampleLine hr e.plane (a / 64 + 1) = y at h2 ⊢
    by_cases hc : a / 64 = (a + n - 1) / 64
    · rw [if_pos hc]
      dsimp only
      split <;> exact h1
    · rw [if_neg hc]
      split <;> exact ⟨h1.1.trans h2.1, h2.2.trans h1.2⟩

theorem SampledRays.ray (s : State) (hr : Nat) (b : RowLatch) (e : StackEntry) (px py sg ta : Word) :
    SampledRays hr s (s.sampleRay hr b e px py sg ta).1 ∧ (s.sampleRay hr b e px py sg ta).1.syn.threads = s.syn.threads := by
  unfold State.sampleRay
  dsimp only
  generalize samplePoint e (px.toInt + 4096 * b.ox) (py.toInt + 4096 * b.oy) sg.toInt ta.toInt = pt
  have h1 := SampledRays.tap s hr b e pt.1 pt.2.2.1
  generalize s.tap hr b e pt.1 pt.2.2.1 = x1 at h1 ⊢
  have h2 := SampledRays.tap x1.1 hr b e (pt.1 + 1) pt.2.2.1
  generalize x1.1.tap hr b e (pt.1 + 1) pt.2.2.1 = x2 at h2 ⊢
  have h3 := SampledRays.tap x2.1 hr b e pt.1 (pt.2.2.1 + 1)
  generalize x2.1.tap hr b e pt.1 (pt.2.2.1 + 1) = x3 at h3 ⊢
  have h4 := SampledRays.tap x3.1 hr b e (pt.1 + 1) (pt.2.2.1 + 1)
  exact ⟨((h1.1.trans h2.1).trans h3.1).trans h4.1, ((h4.2.trans h3.2).trans h2.2).trans h1.2⟩

theorem State.tap_hit {s : State} {hr : Nat} {b : RowLatch} {e : StackEntry} {i j : Int}
    (h : ∀ a n, tapAddr b e i j = some (a, n) → ∀ ln ∈ linesOf a n, (s.cached hr ln).isNone = false) (y : Syn) (hy : y.cache = s.syn.cache) :
    ({ s with syn := y } : State).tap hr b e i j = ({ s with syn := y }, (s.tap hr b e i j).2) := by
  have hl : ∀ ln, ({ s with syn := y } : State).cached hr ln = s.cached hr ln := by
    intro ln; unfold State.cached; dsimp only; rw [hy]
  unfold State.tap
  cases ht : tapAddr b e i j with
  | none => rfl
  | some p =>
    obtain ⟨a, n⟩ := p
    dsimp only
    have hn : 1 ≤ n := by
      unfold tapAddr at ht
      split at ht
      · cases ht
      · split at ht
        · dsimp only at ht
          obtain ⟨-, rfl⟩ := Prod.mk.inj (Option.some.inj ht)
          split
          · decide
          · split <;> decide
        · split at ht
          · cases ht
          · dsimp only at ht
            split at ht
            · cases ht
            · split at ht
              · cases ht
              · split at ht
                · cases ht
                · obtain ⟨-, rfl⟩ := Prod.mk.inj (Option.some.inj ht)
                  split <;> decide
    have hmem : ∀ k, a / 64 + k ≤ (a + n - 1) / 64 → a / 64 + k ∈ linesOf a n := by
      intro k hk
      unfold linesOf
      rw [if_neg (by omega)]
      exact List.mem_map.2 ⟨k, List.mem_range.2 (by omega), rfl⟩
    have hit : ∀ k, a / 64 + k ≤ (a + n - 1) / 64 → ∃ bs, s.cached hr (a / 64 + k) = some bs := by
      intro k hk
      have := h a n ht _ (hmem k hk)
      cases hc : s.cached hr (a / 64 + k) with
      | none => rw [hc] at this; cases this
      | some bs => exact ⟨bs, rfl⟩
    have line : ∀ (z : State) ln bs, z.cached hr ln = some bs → z.sampleLine hr e.plane ln = (z, some bs) := by
      intro z ln bs hz; unfold State.sampleLine; rw [hz]
    obtain ⟨b0, h0⟩ := hit 0 (by have := Nat.div_le_div_right (c := 64) (show a ≤ a + n - 1 by omega); omega)
    rw [Nat.add_zero] at h0
    rw [line _ _ b0 ((hl _).trans h0), line _ _ b0 h0]
    dsimp only
    by_cases hc : a / 64 = (a + n - 1) / 64
    · rw [if_pos hc, if_pos hc]
    · rw [if_neg hc, if_neg hc]
      obtain ⟨b1, h1⟩ := hit 1 (by have := Nat.div_le_div_right (c := 64) (show a ≤ a + n - 1 by omega); omega)
      rw [line _ _ b1 ((hl _).trans h1), line _ _ b1 h1]

theorem State.sampleRay_hit {s : State} {hr : Nat} {b : RowLatch} {e : StackEntry} {px py sg ta : Word}
    (h : ((rayTaps b e px py sg ta).any fun a => (linesOf a.1 a.2).any fun ln => (s.cached hr ln).isNone) = false) (y : Syn) (hy : y.cache = s.syn.cache) :
    ({ s with syn := y } : State).sampleRay hr b e px py sg ta = ({ s with syn := y }, (s.sampleRay hr b e px py sg ta).2) := by
  have key : ∀ dx dy : Int, (dx, dy) ∈ [((0 : Int), (0 : Int)), (1, 0), (0, 1), (1, 1)] → ∀ a n,
      tapAddr b e ((samplePoint e (px.toInt + 4096 * b.ox) (py.toInt + 4096 * b.oy) sg.toInt ta.toInt).1 + dx) ((samplePoint e (px.toInt + 4096 * b.ox) (py.toInt + 4096 * b.oy) sg.toInt ta.toInt).2.2.1 + dy) = some (a, n) →
      ∀ ln ∈ linesOf a n, (s.cached hr ln).isNone = false := by
    intro dx dy hd a n ha ln hln
    rw [List.any_eq_false] at h
    have h1 := h (a, n) (by
      unfold rayTaps
      exact List.mem_filterMap.2 ⟨(dx, dy), hd, ha⟩)
    rw [Bool.not_eq_true, List.any_eq_false] at h1
    exact Bool.not_eq_true _ ▸ h1 ln hln
  unfold State.sampleRay
  dsimp only
  generalize samplePoint e (px.toInt + 4096 * b.ox) (py.toInt + 4096 * b.oy) sg.toInt ta.toInt = pt at key ⊢
  have k0 := key 0 0 (by simp)
  have k1 := key 1 0 (by simp)
  have k2 := key 0 1 (by simp)
  have k3 := key 1 1 (by simp)
  rw [Int.add_zero, Int.add_zero] at k0
  rw [Int.add_zero] at k1 k2
  have e0 := State.tap_hit k0 s.syn rfl
  have e1 := State.tap_hit k1 s.syn rfl
  have e2 := State.tap_hit k2 s.syn rfl
  rw [State.tap_hit k0 y hy]; dsimp only
  rw [State.tap_hit k1 y hy]; dsimp only
  rw [State.tap_hit k2 y hy]; dsimp only
  rw [State.tap_hit k3 y hy]; dsimp only
  have e0' : (s.tap hr b e pt.1 pt.2.2.1).1 = s := congrArg Prod.fst e0
  have e1' : (s.tap hr b e (pt.1 + 1) pt.2.2.1).1 = s := congrArg Prod.fst e1
  have e2' : (s.tap hr b e pt.1 (pt.2.2.1 + 1)).1 = s := congrArg Prod.fst e2
  rw [e0', e1', e2']

theorem setQuad_foldl (u : Thread) (d l : Nat) (hl : l < 64) (f : Nat → Word) (n : Nat) :
    let q := (List.range n).foldl (fun th j => th.setV (d + j) l (f j)) u
    q = { u with v := q.v } ∧ ∀ r i, i < 64 → q.vreg r i = if i = l ∧ d ≤ r ∧ r < d + n then f (r - d) else u.vreg r i := by
  dsimp only
  induction n with
  | zero => exact ⟨rfl, fun r i _ => by rw [if_neg (by omega)]; rfl⟩
  | succ n ih =>
    rw [List.range_succ, List.foldl_append]
    simp only [List.foldl_cons, List.foldl_nil]
    generalize List.foldl _ u (List.range n) = q at ih ⊢
    refine ⟨congrArg (fun z : Thread => { z with v := (q.setV (d + n) l (f n)).v }) ih.1, fun r i hi => ?_⟩
    rw [Thread.vreg_setV _ _ _ _ _ _ hl hi, ih.2 r i hi]
    by_cases h : r = d + n ∧ i = l
    · obtain ⟨rfl, rfl⟩ := h
      simp
    · rw [if_neg h]
      congr 1
      apply propext
      omega

theorem State.setThread_syn (s : State) (k : Nat) (v : Thread) : s.setThread k v = { s with syn := (s.setThread k v).syn } := rfl

theorem sampleLanes_any (hr k : Nat) (b : RowLatch) (e : StackEntry) (q : SmpReq) (l : List Nat) (hn : l.Nodup) (hl : ∀ i ∈ l, i < 64) (s : State) :
    let s' := l.foldl (fun s l =>
        let r := s.sampleRay hr b e (q.px.getD l 0) (q.py.getD l 0) (q.sg.getD l 0) (q.ta.getD l 0)
        let th := (List.range 4).foldl (fun th j => th.setV (q.dest + j) l (r.2.getD j 0)) (r.1.thread k)
        r.1.setThread k th) s
    SampledRays hr s s'
    ∧ (∀ i, i ≠ k → s'.thread i = s.thread i) ∧ s'.thread k = { s.thread k with v := (s'.thread k).v }
    ∧ (∀ r i, i < 64 → ¬ (q.dest ≤ r ∧ r < q.dest + 4 ∧ i ∈ l) → (s'.thread k).vreg r i = (s.thread k).vreg r i)
    ∧ ∀ i ∈ l, ∃ z, SampledRays hr s z ∧ ∀ j, j < 4 → (s'.thread k).vreg (q.dest + j) i =
        (z.sampleRay hr b e (q.px.getD i 0) (q.py.getD i 0) (q.sg.getD i 0) (q.ta.getD i 0)).2.getD j 0 := by
  dsimp only
  induction l using List.reverseRecOn with
  | nil => exact ⟨.refl .., fun _ _ => rfl, rfl, fun _ _ _ _ => rfl, fun i hi => absurd hi List.not_mem_nil⟩
  | append_singleton l x ih =>
    rw [List.foldl_append]
    simp only [List.foldl_cons, List.foldl_nil]
    rw [List.nodup_append] at hn
    have ih := ih hn.1 fun i hi => hl i (List.mem_append_left _ hi)
    generalize List.foldl _ s l = z at ih ⊢
    obtain ⟨i1, i3, i4, i5, i6⟩ := ih
    have hs := SampledRays.ray z hr b e (q.px.getD x 0) (q.py.getD x 0) (q.sg.getD x 0) (q.ta.getD x 0)
    generalize hR : z.sampleRay hr b e (q.px.getD x 0) (q.py.getD x 0) (q.sg.getD x 0) (q.ta.getD x 0) = r at hs ⊢
    obtain ⟨r1, r2⟩ := r
    dsimp only at hs ⊢
    have hth : ∀ i, r1.thread i = z.thread i := by intro i; unfold State.thread; rw [hs.2]
    have hx : x < 64 := hl x (List.mem_append_right _ (List.mem_singleton.2 rfl))
    have hq := setQuad_foldl (r1.thread k) q.dest x hx (fun j => r2.getD j 0) 4
    dsimp only at hq
    generalize List.foldl (fun th j => Thread.setV th (q.dest + j) x (r2.getD j 0)) (r1.thread k) (List.range 4) = u at hq ⊢
    refine ⟨(i1.trans hs.1).trans ⟨rfl, rfl, fun _ h => .inl h⟩, fun i hi => ?_, ?_, fun r i hi hn => ?_, fun i hi => ?_⟩
    · rw [State.thread_setThread_get, if_neg hi, hth, i3 i hi]
    · rw [State.thread_setThread_get, if_pos rfl, hq.1, hth]
      exact congrArg (fun z : Thread => { z with v := u.v }) i4
    · rw [State.thread_setThread_get, if_pos rfl, hq.2 r i hi, if_neg, hth, i5 r i hi]
      · rintro ⟨a, b, c⟩; exact hn ⟨a, b, List.mem_append_left _ c⟩
      · rintro ⟨a, b, c⟩; exact hn ⟨b, c, List.mem_append_right _ (by rw [a]; exact List.mem_singleton.2 rfl)⟩
    · by_cases hix : i = x
      · subst hix
        refine ⟨z, i1, fun j hj => ?_⟩
        rw [State.thread_setThread_get, if_pos rfl, hq.2 _ i hx, if_pos ⟨rfl, by omega, by omega⟩, Nat.add_sub_cancel_left, hR]
      · have hil := (List.mem_append.1 hi).resolve_right fun hh => hix (List.mem_singleton.1 hh)
        obtain ⟨z', h1, h2⟩ := i6 i hil
        refine ⟨z', h1, fun j hj => ?_⟩
        rw [State.thread_setThread_get, if_pos rfl, hq.2 _ i (hl i hi), if_neg (by tauto), hth]
        exact h2 j hj

theorem sampleLanes_good (hr k : Nat) (b : RowLatch) (e : StackEntry) (q : SmpReq) (l : List Nat) (hn : l.Nodup) (hl : ∀ i ∈ l, i < 64) (s0 s : State) (y : Syn) (hy : s = { s0 with syn := y }) (hc : y.cache = s0.syn.cache)
    (h : ∀ i ∈ l, ((rayTaps b e (q.px.getD i 0) (q.py.getD i 0) (q.sg.getD i 0) (q.ta.getD i 0)).any fun a => (linesOf a.1 a.2).any fun ln => (s0.cached hr ln).isNone) = false) :
    let s' := l.foldl (fun s l =>
        let r := s.sampleRay hr b e (q.px.getD l 0) (q.py.getD l 0) (q.sg.getD l 0) (q.ta.getD l 0)
        let th := (List.range 4).foldl (fun th j => th.setV (q.dest + j) l (r.2.getD j 0)) (r.1.thread k)
        r.1.setThread k th) s
    (s' = { s0 with syn := s'.syn } ∧ s'.syn.cache = s0.syn.cache) ∧ ∀ i j, i ∈ l → j < 4 → (s'.thread k).vreg (q.dest + j) i =
      (s0.sampleRay hr b e (q.px.getD i 0) (q.py.getD i 0) (q.sg.getD i 0) (q.ta.getD i 0)).2.getD j 0 := by
  dsimp only
  induction l using List.reverseRecOn with
  | nil => exact ⟨⟨by rw [hy]; rfl, by rw [hy]; exact hc⟩, fun i j hi => absurd hi List.not_mem_nil⟩
  | append_singleton l x ih =>
    rw [List.foldl_append]
    simp only [List.foldl_cons, List.foldl_nil]
    rw [List.nodup_append] at hn
    have ih := ih hn.1 (fun i hi => hl i (List.mem_append_left _ hi)) (fun i hi => h i (List.mem_append_left _ hi))
    generalize List.foldl _ s l = z at ih ⊢
    obtain ⟨⟨i1, i1c⟩, i2⟩ := ih
    have hsm := State.sampleRay_hit (h x (List.mem_append_right _ (List.mem_singleton.2 rfl))) z.syn i1c
    rw [← i1] at hsm
    rw [hsm]
    dsimp only
    have hx : x < 64 := hl x (List.mem_append_right _ (List.mem_singleton.2 rfl))
    have hq := setQuad_foldl (z.thread k) q.dest x hx (fun j => (s0.sampleRay hr b e (q.px.getD x 0) (q.py.getD x 0) (q.sg.getD x 0) (q.ta.getD x 0)).2.getD j 0) 4
    dsimp only at hq
    generalize List.foldl (fun th j => Thread.setV th (q.dest + j) x _) (z.thread k) (List.range 4) = u at hq ⊢
    refine ⟨⟨?_, i1c⟩, fun i j hi hj => ?_⟩
    · rw [State.setThread_syn, i1]
    · rw [State.thread_setThread_get, if_pos rfl, hq.2 _ i (hl i hi)]
      by_cases hix : i = x
      · subst hix
        rw [if_pos ⟨rfl, by omega, by omega⟩, Nat.add_sub_cancel_left]
      · rw [if_neg (by tauto)]
        exact i2 i j ((List.mem_append.1 hi).resolve_right fun hh => hix (List.mem_singleton.1 hh)) hj

theorem State.thread_setFld_eq (A : State) (o h l v i : Nat) : (A.setFld o h l v).thread i = A.thread i := rfl

theorem State.engine_setFld_eq (A : State) (o h l v i : Nat) : (A.setFld o h l v).engine i = A.engine i := rfl

theorem launchThreads_clk (f : Nat → Nat → Thread) (key n : Nat) (s : State) :
    (List.range n).foldl (fun s j => s.setThread (key + j) (f j (s.clk.engineCycles + 12))) s = (List.range n).foldl (fun s' j => s'.setThread (key + j) (f j (s.clk.engineCycles + 12))) s := by
  induction n with
  | zero => rfl
  | succ n ih =>
    rw [List.range_succ, List.foldl_append, List.foldl_append, ih]
    simp only [List.foldl_cons, List.foldl_nil]
    rw [setThreads_only (fun _ j => f j (s.clk.engineCycles + 12)) (fun j => key + j)]

theorem State.launchChunk_eq (s : State) (hr eng : Nat) (c : Chunk) : s.launchChunk hr eng c =
    ((((List.range 8).foldl (fun s' j => s'.setThread (8 * engineKey hr eng + j) (entryThread hr eng j { c with launch := s.clk.engineCycles } (s.clk.engineCycles + 12))) s).setEngine (engineKey hr eng)
      { run := some { c with launch := s.clk.engineCycles } }).setFld (Reg.hrStatus hr) 24 16 c.row) := by
  rw [← launchThreads_clk (fun j x => entryThread hr eng j { c with launch := s.clk.engineCycles } x)]
  rfl

theorem State.thread_setT (s : State) (i v k : Nat) : (s.setT i v).thread k = s.thread k := rfl

theorem State.thread_seqPc (s : State) (i k : Nat) : (s.seqPc i).thread k = s.thread k := rfl

theorem State.thread_seqSt (s : State) (i : SeqSt) (k : Nat) : (s.seqSt i).thread k = s.thread k := rfl

theorem State.thread_takeMsg (s : State) (d : Nat) (m : EngMsg) (k : Nat) : ((s.takeMsg d m).seqDone).thread k = s.thread k := by
  unfold State.seqDone State.takeMsg
  rw [State.thread_seqSt, State.thread_seqPc, State.thread_setT, State.thread_setT, State.thread_setT]

end Sys2Proof.Machine
end

