-- ==== Sys2Proof/Laws/HostPath.lean ====
section
/-!
SUPPORT. The host window: posts, mailboxes, latches, the GPIO events of one sample.
-/
namespace Sys2Proof.Machine

open Sys2Proof.Safety

theorem postOffset_eq (v : Nat) : v &&& 0x3FFFFFC0 = 64 * (v / 64 % 2 ^ 24) := by
  refine Nat.eq_of_testBit_eq fun i => ?_
  rw [Nat.testBit_and, show (0x3FFFFFC0 : Nat) = 2 ^ 6 * (2 ^ 24 - 1) by decide, show (64 : Nat) = 2 ^ 6 by decide, Nat.testBit_two_pow_mul, Nat.testBit_two_pow_mul, Nat.testBit_two_pow_sub_one, Nat.testBit_mod_two_pow, Nat.testBit_div_two_pow]
  by_cases h : 6 ≤ i
  · rw [decide_eq_true h, Bool.true_and, Bool.true_and, Bool.and_comm]
    congr 2; omega
  · rw [decide_eq_false h]; simp

theorem State.inExtent_iff (s : State) (x n : Nat) : s.inExtent x n = true ↔ ∃ e ∈ s.host.extents, x < e.base + e.len ∧ e.base < x + n := by
  unfold State.inExtent
  simp [List.any_eq_true]

theorem QueueId.owner_eq (q : QueueId) : q.owner = (match q with | .asmDnq _ => 2 | .asmUpq _ => 2 | _ => 1) := by cases q <;> rfl

theorem State.postReason_eq (s z : State) (q : QueueId) (x owner len : Nat) (he : z.host.extents = s.host.extents) :
    z.postReason q owner x len =
      if owner ≠ (match q with | .asmDnq _ => 2 | .asmUpq _ => 2 | _ => 1) then 1
      else if 2 ^ 30 < x + len then 2 else if s.inExtent x len then 3 else if 256 ≤ s.host.extents.length then 4 else 0 := by
  rw [← QueueId.owner_eq]
  have e3 : z.inExtent x len = s.inExtent x len := by unfold State.inExtent; rw [he]
  unfold State.postReason
  rw [e3, he]
  rfl

theorem latched_post_word (s : State) (off rank : Nat) (v : Word) (h : Calm s off) :
    (s.latchFirst off rank [(off, v)]).reg off = if s.flag off 31 then s.reg off else v := by
  obtain ⟨z, hz, e⟩ := State.latchFirst_calm h rank [(off, v)] none
  rw [e]
  have hr : z.reg off = s.reg off := by rw [hz]; rfl
  cases s.flag off 31
  · exact (State.reg_setReg ..).trans (if_pos rfl)
  · exact hr

theorem leAt_leBytes (s : State) (a n i k : Nat) (h : i + k ≤ n) : leAt (s.bytesAt a n) i k = leNat (s.bytesAt (a + i) k) := by
  unfold leAt State.bytesAt
  congr 1
  apply List.ext_getElem
  · simp; omega
  · intro j h1 h2
    simp [Nat.add_assoc]

theorem State.drain_nil (t : State) (h : t.host.fifo = []) : State.drainFifo { t with host := { t.host with fifo := t.host.fifo ++ [] } } = t := by
  have e : t = { t with host := { t.host with fifo := t.host.fifo } } := rfl
  rw [h]
  conv_rhs => rw [e, h]
  rfl

theorem mboxData_foldl (z : State) (k : Nat) (d : List Word) (n : Nat) (hn : n ≤ 6) :
    let t := (List.range n).foldl (fun s i => s.setReg (Reg.hstMboxData k i) (d.getD i 0)) z
    t = { z with regs := t.regs } ∧ (∀ i, i < n → t.reg (Reg.hstMboxData k i) = d.getD i 0) ∧ ∀ o, (∀ i, i < n → o ≠ Reg.hstMboxData k i) → t.reg o = z.reg o := by
  dsimp only
  induction n with
  | zero => exact ⟨rfl, fun i hi => absurd hi (by omega), fun _ _ => rfl⟩
  | succ n ih =>
    obtain ⟨h1, h2, h3⟩ := ih (by omega)
    rw [List.range_succ, List.foldl_append]
    simp only [List.foldl_cons, List.foldl_nil]
    generalize List.foldl _ z (List.range n) = q at h1 h2 h3 ⊢
    refine ⟨?_, fun i hi => ?_, fun o ho => ?_⟩
    · exact congrArg (fun y : State => y.setReg (Reg.hstMboxData k n) (d.getD n 0)) h1
    · rw [State.reg_setReg]
      by_cases e : i = n
      · rw [if_pos (by rw [e]), e]
      · rw [if_neg (by unfold Reg.hstMboxData; omega), h2 i (by omega)]
    · rw [State.reg_setReg, if_neg (ho n (by omega)), h3 o fun i hi => ho i (by omega)]

theorem State.mboxFill_spec (z : State) (k : Nat) (hk : k < 4) (d : List Word) :
    let t := z.mboxFill k d
    t.reg (Reg.hstMbox0w k) = word (2 ^ 31 + (z.fld (Reg.hstMbox0w k) 15 0 + 1) % 65536)
    ∧ (∀ i, i < 6 → t.reg (Reg.hstMboxData k i) = d.getD i 0)
    ∧ (z.up 33 = true → t.flag (Reg.evtStatus 1) (4 + k) = true)
    ∧ (∀ o, o ≠ Reg.hstMbox0w k → (∀ i, i < 6 → o ≠ Reg.hstMboxData k i) → o ≠ Reg.evtStatus 1 → t.reg o = z.reg o)
    ∧ RegsAndEvents z t := by
  dsimp only
  unfold State.mboxFill
  dsimp only
  have hf := mboxData_foldl (z.setReg (Reg.hstMbox0w k) (word (2 ^ 31 + (z.fld (Reg.hstMbox0w k) 15 0 + 1) % 65536))) k d 6 (by omega)
  dsimp only at hf
  generalize List.foldl _ _ (List.range 6) = q at hf ⊢
  obtain ⟨h1, h2, h3⟩ := hf
  have ev : (36 + k) / 32 = 1 := by omega
  have em : (36 + k) % 32 = 4 + k := by omega
  have n1 : Reg.hstMbox0w k ≠ Reg.evtStatus ((36 + k) / 32) := by rw [ev]; unfold Reg.hstMbox0w Reg.evtStatus; omega
  have n2 : ∀ i, Reg.hstMboxData k i ≠ Reg.evtStatus ((36 + k) / 32) := by intro i; rw [ev]; unfold Reg.hstMboxData Reg.evtStatus; omega
  refine ⟨?_, fun i hi => ?_, fun hu => ?_, fun o ho1 ho2 ho3 => ?_, ?_⟩
  · rw [State.reg_event _ _ _ n1, h3 _ (fun i hi => by unfold Reg.hstMbox0w Reg.hstMboxData; omega), State.reg_setReg, if_pos rfl]
  · rw [State.reg_event _ _ _ (n2 i), h2 i hi]
  · have := State.status_event q (36 + k) (by rw [h1]; exact hu)
    rw [ev, em] at this
    exact this
  · rw [State.reg_event _ _ _ (by rw [ev]; exact ho3), h3 o ho2, State.reg_setReg, if_neg ho1]
  · refine RegsAndEvents.trans ?_ (RegsAndEvents.event ..)
    unfold RegsAndEvents
    rw [h1]
    rfl

theorem find_held (k : Nat) (before rest : List (Nat × List Word)) (d : List Word) (h : ∀ p ∈ before, p.1 ≠ k) :
    (before ++ (k, d) :: rest).find? (fun p => p.1 == k) = some (k, d) ∧ (before ++ (k, d) :: rest).erase (k, d) = before ++ rest := by
  induction before with
  | nil => simp
  | cons a l ih =>
    have ha := h a (List.mem_cons_self ..)
    have ih := ih fun p hp => h p (List.mem_cons_of_mem _ hp)
    refine ⟨?_, ?_⟩
    · rw [List.cons_append, List.find?_cons_of_neg (by simpa using ha)]; exact ih.1
    · rw [List.cons_append, List.erase_cons_tail (by simp; intro e; rw [e] at ha; exact absurd rfl ha), ih.2]; rfl

theorem SMap.find_ins {α : Type} (m : SMap α) (k j : Nat) (v : α) :
    ((SMap.ins m k v).find? fun p => p.1 == j).map (·.2) = if j = k then some v else (m.find? fun p => p.1 == j).map (·.2) := by
  induction m with
  | nil =>
    unfold SMap.ins
    by_cases h : j = k
    · rw [if_pos h, List.find?_cons_of_pos (by simp [h])]; rfl
    · rw [if_neg h, List.find?_cons_of_neg (by simp; exact fun e => h e.symm)]
  | cons a m ih =>
    obtain ⟨a, x⟩ := a
    unfold SMap.ins
    split
    · by_cases h : j = k
      · rw [if_pos h, List.find?_cons_of_pos (by simp [h])]; rfl
      · rw [if_neg h, List.find?_cons_of_neg (by simp; exact fun e => h e.symm)]
    · split
      · rename_i h1 h2
        subst h2
        by_cases h : j = k
        · rw [if_pos h, List.find?_cons_of_pos (by simp [h])]; rfl
        · rw [if_neg h, List.find?_cons_of_neg (by simp; exact fun e => h e.symm), List.find?_cons_of_neg (by simp; exact fun e => h e.symm)]
      · rename_i h1 h2
        by_cases h : a = j
        · rw [List.find?_cons_of_pos (by simp [h]), List.find?_cons_of_pos (by simp [h]), if_neg (by omega)]
        · rw [List.find?_cons_of_neg (by simp [h]), List.find?_cons_of_neg (by simp [h]), ih]

theorem State.latched_latchWord (m o : Nat) (v : Word) (z : State) (o' : Nat) :
    (z.latchWord m o v).latched m o' = if o' = o then some v else z.latched m o' := by
  unfold State.latchWord State.latched
  by_cases h : m = 24
  · rw [if_pos h, if_pos h, if_pos h]; exact SMap.find_ins ..
  · rw [if_neg h, if_neg h, if_neg h]; exact SMap.find_ins ..

theorem State.reg_latchWord (m o : Nat) (v : Word) (z : State) (o' : Nat) : (z.latchWord m o v).reg o' = z.reg o' := by
  unfold State.latchWord
  split <;> rfl

theorem latchMbox_foldl (m k : Nat) (z : State) (n : Nat) :
    let t := (List.range n).foldl (fun s i => s.latchWord m (Reg.hstMboxData k i) (s.reg (Reg.hstMboxData k i))) z
    t = { z with host := { z.host with latch := t.host.latch, latchRc := t.host.latchRc } }
    ∧ (m = 24 → t.host.latch = z.host.latch) ∧ (m ≠ 24 → t.host.latchRc = z.host.latchRc)
    ∧ ∀ i, i < n → t.latched m (Reg.hstMboxData k i) = some (z.reg (Reg.hstMboxData k i)) := by
  dsimp only
  induction n with
  | zero => exact ⟨rfl, fun _ => rfl, fun _ => rfl, fun i hi => absurd hi (by omega)⟩
  | succ n ih =>
    rw [List.range_succ, List.foldl_append]
    simp only [List.foldl_cons, List.foldl_nil]
    generalize List.foldl _ z (List.range n) = q at ih ⊢
    obtain ⟨h1, h2, h3, h4⟩ := ih
    have hr : ∀ o, q.reg o = z.reg o := by intro o; rw [h1]; rfl
    refine ⟨?_, fun h => ?_, fun h => ?_, fun i hi => ?_⟩
    · unfold State.latchWord
      split <;> rw [h1]
    · unfold State.latchWord
      rw [if_pos h]; exact h2 h
    · unfold State.latchWord
      rw [if_neg h]; exact h3 h
    · rw [State.latched_latchWord]
      by_cases e : i = n
      · rw [if_pos (by rw [e]), e, hr]
      · rw [if_neg (by unfold Reg.hstMboxData; omega), h4 i (by omega)]

theorem RegsAndEvents.mboxHeld {s t : State} (h : RegsAndEvents s t) : t.host.mboxHeld = s.host.mboxHeld := by
  unfold RegsAndEvents at h
  rw [h]

theorem State.flag_setReg_self (s : State) (o n : Nat) (w : Word) : (s.setReg o w).flag o n = w.getLsbD n := by
  unfold State.flag; rw [State.reg_setReg, if_pos rfl]

theorem gpioEvents_foldl (s : State) (hu : s.up 33 = true) (smp lst flt : BitVec 16) (hf : s.host.gpioFilt = flt) (n : Nat) (hn : n ≤ 16) :
    let edge (i : Nat) : Bool := smp.getLsbD i == lst.getLsbD i && smp.getLsbD i != flt.getLsbD i
    let occ (m e : Nat) : Prop := ∃ i, i < m ∧ edge i = true ∧ e = if smp.getLsbD i then 224 + i else 240 + i
    let t := (List.range n).foldl (fun s n =>
      let x := smp.getLsbD n
      if x == lst.getLsbD n && x != flt.getLsbD n then
        { s with host := { s.host with gpioFilt := s.host.gpioFilt ^^^ BitVec.ofNat 16 (2 ^ n) } }.event
          (if x then 224 + n else 240 + n)
      else s) s
    RegsAndEvents { s with host := { s.host with gpioFilt := t.host.gpioFilt } } t
      ∧ (∀ i, i < 16 → t.host.gpioFilt.getLsbD i = if i < n ∧ edge i = true then smp.getLsbD i else flt.getLsbD i)
      ∧ (∀ e, e < 288 → (t.flag (Reg.evtStatus (e / 32)) (e % 32) = true ↔ s.flag (Reg.evtStatus (e / 32)) (e % 32) = true ∨ occ n e))
      ∧ (∀ o, o ≠ Reg.evtStatus 7 → t.reg o = s.reg o)
      ∧ Asserts (fun e => occ n e ∧ s.flag (Reg.evtStatus (e / 32)) (e % 32) = false ∧ s.flag (Reg.evtEnable (e / 32)) (e % 32) = true) s t := by
  intro edge occ
  dsimp only
  induction n with
  | zero =>
    refine ⟨by rw [List.range_zero]; rfl, fun i _ => ?_, fun e _ => ?_, fun _ _ => rfl, Asserts.none (fun e h => by obtain ⟨⟨i, hi, _⟩, _⟩ := h; omega) rfl rfl⟩
    · rw [if_neg (by omega), ← hf]; rfl
    · exact ⟨.inl, fun h => h.elim id fun ⟨i, hi, _⟩ => by omega⟩
  | succ n ih =>
    obtain ⟨h1, h2, h3, h4, h5⟩ := ih (by omega)
    rw [List.range_succ, List.foldl_append]
    simp only [List.foldl_cons, List.foldl_nil]
    generalize List.foldl _ s (List.range n) = q at h1 h2 h3 h4 h5 ⊢
    have hocc : ∀ e, occ (n + 1) e ↔ occ n e ∨ (edge n = true ∧ e = if smp.getLsbD n then 224 + n else 240 + n) := by
      intro e
      constructor
      · rintro ⟨i, hi, h⟩
        rcases Nat.lt_succ_iff_lt_or_eq.1 hi with hi | rfl
        · exact .inl ⟨i, hi, h⟩
        · exact .inr h
      · rintro (⟨i, hi, h⟩ | h)
        · exact ⟨i, by omega, h⟩
        · exact ⟨n, by omega, h⟩
    by_cases hc : edge n = true
    · rw [if_pos hc]
      generalize hE : (if smp.getLsbD n then 224 + n else 240 + n) = E at hocc ⊢
      have hE1 : E / 32 = 7 ∧ E < 288 ∧ E % 32 = (if smp.getLsbD n then n else 16 + n) := by
        rw [← hE]; split <;> omega
      have hE2 : ¬ occ n E := by
        rintro ⟨i, hi, he, h⟩
        rw [← hE] at h
        split at h <;> split at h <;> omega
      generalize hq' : ({ q with host := { q.host with gpioFilt := q.host.gpioFilt ^^^ BitVec.ofNat 16 (2 ^ n) } } : State) = q'
      have huq : q'.up 33 = true := by
        rw [← hq']
        refine Eq.trans ?_ ((up_of_regsAndEvents h1 33).trans hu)
        rfl
      have hreg : ∀ o, q'.reg o = q.reg o := by intro o; rw [← hq']; rfl
      have hfl : ∀ o b, q'.flag o b = q.flag o b := by intro o b; unfold State.flag; rw [hreg]
      have hA : Asserts (fun e => occ n e ∧ s.flag (Reg.evtStatus (e / 32)) (e % 32) = false ∧ s.flag (Reg.evtEnable (e / 32)) (e % 32) = true) s q' := by
        rw [← hq']; exact h5
      have hR : RegsAndEvents { s with host := { s.host with gpioFilt := q'.host.gpioFilt } } q' := by
        rw [← hq']
        unfold RegsAndEvents at h1 ⊢
        dsimp only at h1 ⊢
        rw [h1]
      have hg : (q'.event E).host.gpioFilt = q'.host.gpioFilt := by
        have := RegsAndEvents.event q' E
        unfold RegsAndEvents at this
        rw [this]
      refine ⟨?_, fun i hi => ?_, fun e he => ?_, fun o ho => ?_, ?_⟩
      · rw [hg]; exact hR.trans (RegsAndEvents.event ..)
      · rw [hg, ← hq']
        dsimp only
        rw [BitVec.getLsbD_xor, h2 i hi, BitVec.getLsbD_ofNat, Nat.testBit_two_pow, decide_eq_true hi, Bool.true_and]
        by_cases e : i = n
        · rw [e, if_neg (by omega), if_pos ⟨by omega, hc⟩, decide_eq_true rfl]
          have : smp.getLsbD n ≠ flt.getLsbD n := by
            intro h; simp only [edge, h, bne_self_eq_false, Bool.and_false] at hc; exact absurd hc (by decide)
          revert this
          cases smp.getLsbD n <;> cases flt.getLsbD n <;> decide
        · rw [decide_eq_false (fun h => e h.symm), Bool.xor_false]
          by_cases h : i < n ∧ edge i = true
          · rw [if_pos h, if_pos ⟨by omega, h.2⟩]
          · rw [if_neg h, if_neg (fun h' => h ⟨by omega, h'.2⟩)]
      · rw [flag_status_event q' E huq _ _ ⟨_, rfl⟩, hfl]
        rw [hocc]
        by_cases e7 : e = E
        · rw [e7, if_pos ⟨rfl, rfl⟩]; exact ⟨fun _ => .inr (.inr ⟨hc, rfl⟩), fun _ => rfl⟩
        · rw [if_neg, h3 e he]
          · exact ⟨fun h => h.elim .inl (fun h => .inr (.inl h)), fun h => h.elim .inl fun h => h.elim .inr fun h => absurd h.2 e7⟩
          · rintro ⟨h, h'⟩
            have : e / 32 = E / 32 := by unfold Reg.evtStatus at h; omega
            omega
      · rw [State.reg_event _ _ _ (by rw [hE1.1]; exact ho), hreg, h4 o ho]
      · refine Asserts.event E hE1.2.1 huq (by rw [← hq']; exact up_of_regsAndEvents h1 37) hA (fun e => (hreg _).trans (h4 _ (by unfold Reg.evtRoute Reg.evtStatus; omega))) ?_ ((hreg _).trans (h4 _ (by unfold Reg.evtEnable Reg.evtStatus; omega))) fun i => ?_
        · rw [hfl]
          have := h3 E hE1.2.1
          cases hx : s.flag (Reg.evtStatus (E / 32)) (E % 32)
          · rw [hx] at this
            have h0 : ¬ q.flag (Reg.evtStatus (E / 32)) (E % 32) = true := fun h => (this.1 h).elim (by decide) hE2
            exact Bool.not_eq_true _ |>.mp h0
          · rw [hx] at this; exact this.2 (.inl rfl)
        · rw [hocc]
          constructor
          · rintro ⟨h | ⟨_, rfl⟩, h'⟩
            · exact .inl ⟨h, h'⟩
            · exact .inr ⟨rfl, h'⟩
          · rintro (⟨h, h'⟩ | ⟨rfl, h'⟩)
            · exact ⟨.inl h, h'⟩
            · exact ⟨.inr ⟨hc, rfl⟩, h'⟩
    · rw [if_neg hc]
      have hocc' : ∀ e, occ (n + 1) e ↔ occ n e := fun e => by rw [hocc]; exact ⟨fun h => h.elim id fun h => absurd h.1 hc, .inl⟩
      refine ⟨h1, fun i hi => ?_, fun e he => ?_, h4, h5.congr fun i => by rw [hocc']⟩
      · rw [h2 i hi]
        by_cases h : i < n ∧ edge i = true
        · rw [if_pos h, if_pos ⟨by omega, h.2⟩]
        · rw [if_neg h, if_neg]
          rintro ⟨k1, k2⟩
          rcases Nat.lt_succ_iff_lt_or_eq.1 k1 with k3 | rfl
          · exact h ⟨k3, k2⟩
          · exact hc k2
      · rw [h3 e he, hocc']

end Sys2Proof.Machine
end

