-- ==== Sys2Proof/Laws/Keeps.lean ====
section
/-!
SUPPORT. `Keeps s t`: what no operation of the model ever does. Between s and t the queue and the clock stand, the counter of
free values does not fall, the register map and device memory stay in canonical form, the extents of the monitor stay apart,
and no OTP bit clears. The files KeepsOps to KeepsExec prove it of every operation, one lemma each, with the rules below.
-/
namespace Sys2Proof.Machine

open Sys2Proof.Safety

structure Keeps (s t : State) : Prop where
  pending : t.pending = s.pending
  now : t.now = s.now
  draws : s.draws ≤ t.draws
  regs : SMap.wf regReset s.regs = true → SMap.wf regReset t.regs = true
  mem : Memory.wf s.dmc.dram = true → Memory.wf t.dmc.dram = true
  extents : ExtentsOk s.host.extents → ExtentsOk t.host.extents
  otp0 : OtpKept s.rst.otp0 t.rst.otp0
  otp1 : OtpKept s.rst.otp1 t.rst.otp1
  otp2 : OtpKept s.rst.otp2 t.rst.otp2

/-- The same of a command's outcome. -/
structure KeepsOut (s : State) (o : Out) : Prop where
  of_next : ∀ t, o = .next t → Keeps s t

/-- The same of an operation that may answer none. -/
structure KeepsOpt (s : State) (o : Option State) : Prop where
  of_some : ∀ t, o = some t → Keeps s t

/-- The same of what a Slate instruction comes to. -/
def KeepsIssue (s : State) : Issue → Prop
  | .go t => Keeps s t
  | .jump t _ => Keeps s t
  | .stall => True
  | .trap t _ => Keeps s t
  | .ended t => Keeps s t

theorem extentsOk_nil : ExtentsOk [] := ⟨Nat.zero_le _, by simp, List.Pairwise.nil⟩

theorem Keeps.refl (s : State) : Keeps s s :=
  ⟨rfl, rfl, Nat.le_refl _, id, id, id, fun _ _ h => h, fun _ _ h => h, fun _ _ h => h⟩

theorem Keeps.trans {s t u : State} (h : Keeps s t) (k : Keeps t u) : Keeps s u :=
  ⟨k.pending.trans h.pending, k.now.trans h.now, Nat.le_trans h.draws k.draws, k.regs ∘ h.regs, k.mem ∘ h.mem,
    k.extents ∘ h.extents, fun _ _ b => k.otp0 _ _ (h.otp0 _ _ b), fun _ _ b => k.otp1 _ _ (h.otp1 _ _ b),
    fun _ _ b => k.otp2 _ _ (h.otp2 _ _ b)⟩

/-- A record update that leaves alone what `Keeps` speaks of. -/
theorem Keeps.of_mk {s x : State} {pending : List Instr} {now draws : Nat} {regs : SMap Word} {lanes : SMap Lane}
    {asm : Asm} {dec : Dec} {syn : Syn} {seq : Seq} {plc : Plc} {blt : Blt} {sec : Sec} {cam : Cam} {fin : Fin_}
    {tlk : Tlk} {rpt : Rpt} {cal : Cal} {sat : Sat} {thm : Thm} {avs : Avs} {dmc : Dmc} {host : HostIf} {clk : Clk}
    {rst : Rst} {cyc : Cycle} (h : Keeps s x) (h1 : pending = x.pending) (h2 : now = x.now) (h3 : x.draws ≤ draws)
    (h4 : regs = x.regs) (h5 : dmc.dram = x.dmc.dram) (h6 : host.extents = x.host.extents)
    (h7 : rst.otp0 = x.rst.otp0) (h8 : rst.otp1 = x.rst.otp1) (h9 : rst.otp2 = x.rst.otp2) :
    Keeps s ⟨pending, now, draws, regs, lanes, asm, dec, syn, seq, plc, blt, sec, cam, fin, tlk, rpt, cal, sat, thm, avs,
      dmc, host, clk, rst, cyc⟩ := by
  refine Keeps.trans h ⟨h1, h2, h3, ?_, ?_, ?_, ?_, ?_, ?_⟩
  · exact fun k => h4 ▸ k
  · exact fun k => h5 ▸ k
  · exact fun k => h6 ▸ k
  · exact fun _ _ k => h7 ▸ k
  · exact fun _ _ k => h8 ▸ k
  · exact fun _ _ k => h9 ▸ k

theorem Keeps.ite {s a b : State} {c : Prop} [Decidable c] (h : Keeps s a) (k : Keeps s b) : Keeps s (if c then a else b) := by
  split
  · exact h
  · exact k

theorem Keeps.foldl {α : Type} {s i : State} {f : State → α → State} {l : List α} (hi : Keeps s i)
    (hf : ∀ x a, Keeps x (f x a)) : Keeps s (l.foldl f i) := by
  induction l generalizing i with
  | nil => exact hi
  | cons a l ih => exact ih (hi.trans (hf i a))

theorem Keeps.foldl1 {α β : Type} {s : State} {i : State × β} {f : State × β → α → State × β} {l : List α}
    (hi : Keeps s i.1) (hf : ∀ x a, Keeps x.1 (f x a).1) : Keeps s (l.foldl f i).1 := by
  induction l generalizing i with
  | nil => exact hi
  | cons a l ih => exact ih (hi.trans (hf i a))

theorem Keeps.of_fst {β : Type} {s t : State} {p : State × β} {b : β} (e : p = (t, b)) (h : Keeps s p.1) : Keeps s t := by
  subst e; exact h

theorem KeepsOut.next {s t : State} (h : Keeps s t) : KeepsOut s (.next t) := by
  refine ⟨fun u e => ?_⟩
  injection e with e
  exact e ▸ h

theorem KeepsOut.ite {s : State} {a b : Out} {c : Prop} [Decidable c] (h : KeepsOut s a) (k : KeepsOut s b) :
    KeepsOut s (if c then a else b) := by
  split
  · exact h
  · exact k

theorem KeepsOpt.some {s t : State} (h : Keeps s t) : KeepsOpt s (some t) :=
  ⟨fun _ e => Option.some.inj e ▸ h⟩

theorem KeepsOpt.none {s : State} : KeepsOpt s none := ⟨fun _ e => nomatch e⟩

theorem KeepsOut.trans {s t : State} {o : Out} (h : Keeps s t) (k : KeepsOut t o) : KeepsOut s o :=
  ⟨fun u e => h.trans (k.of_next u e)⟩

theorem KeepsOpt.trans {s t : State} {o : Option State} (h : Keeps s t) (k : KeepsOpt t o) : KeepsOpt s o :=
  ⟨fun u e => h.trans (k.of_some u e)⟩

theorem KeepsIssue.trans {s t : State} {i : Issue} (h : Keeps s t) (k : KeepsIssue t i) : KeepsIssue s i := by
  cases i <;> first | exact h.trans k | exact trivial

end Sys2Proof.Machine
end

