-- ==== Sys2Proof/Laws/KeepsOps.lean ====
section
/-!
SUPPORT. What `Keeps` says, of the shared operations: one lemma per operation.
-/
namespace Sys2Proof.Machine

open Sys2Proof.Safety

theorem State.dram_keeps (s : State) (a : Nat) (bs : List Byte) :
    Keeps s { s with dmc := { s.dmc with dram := Memory.store s.dmc.dram a bs } } :=
  ⟨rfl, rfl, Nat.le_refl _, id, Memory.wf_store a bs, id, fun _ _ h => h, fun _ _ h => h, fun _ _ h => h⟩

theorem State.setReg_keeps (s : State) (off : Nat) (v : Word) : Keeps s (s.setReg off v) :=
  ⟨rfl, rfl, Nat.le_refl _, SMap.wf_put regReset off v, id, id, fun _ _ h => h, fun _ _ h => h, fun _ _ h => h⟩

theorem State.setFld_keeps (s : State) (off : Nat) (hi : Nat) (lo : Nat) (v : Nat) :
    Keeps s (s.setFld off hi lo v) := by
  unfold State.setFld
  exact (State.setReg_keeps ..)

theorem State.noteSet_keeps (s : State) (off : Nat) (mask : Nat) :
    Keeps s (s.noteSet off mask) := by
  unfold State.noteSet
  refine Keeps.of_mk ?_ rfl rfl (Nat.le_refl _) rfl rfl rfl rfl rfl rfl
  exact Keeps.refl _

theorem State.setFlag_keeps (s : State) (off : Nat) (b : Nat) :
    Keeps s (s.setFlag off b) := by
  unfold State.setFlag
  exact .trans ((State.noteSet_keeps ..)) (State.setReg_keeps ..)

theorem State.clrFlag_keeps (s : State) (off : Nat) (b : Nat) :
    Keeps s (s.clrFlag off b) := by
  unfold State.clrFlag
  exact (State.setReg_keeps ..)

theorem State.noteInc_keeps (s : State) (off : Nat) (n : Nat) :
    Keeps s (s.noteInc off n) := by
  unfold State.noteInc
  refine Keeps.of_mk ?_ rfl rfl (Nat.le_refl _) rfl rfl rfl rfl rfl rfl
  exact Keeps.refl _

theorem State.bump_keeps (s : State) (off : Nat) (n : Nat) :
    Keeps s (s.bump off n) := by
  unfold State.bump
  exact .trans ((State.noteInc_keeps ..)) (State.setReg_keeps ..)

theorem State.unbump_keeps (s : State) (off : Nat) :
    Keeps s (s.unbump off) := by
  unfold State.unbump
  refine Keeps.trans ?_ (State.setReg_keeps ..)
  refine Keeps.of_mk ?_ rfl rfl (Nat.le_refl _) rfl rfl rfl rfl rfl rfl
  exact Keeps.refl _

theorem State.clrRegs_keeps (s : State) (off : Nat) (n : Nat) :
    Keeps s (s.clrRegs off n) := by
  unfold State.clrRegs
  refine Keeps.foldl ?_ (fun y0 _ => ?_)
  · exact Keeps.refl _
  · exact (State.setReg_keeps ..)

theorem State.assertEvent_keeps (s : State) (e : Nat) :
    Keeps s (s.assertEvent e) := by
  unfold State.assertEvent
  extract_lets -merge -useContext -underBinder +onlyGivenNames v0 x2 v1
  try clear_value v0
  have h3 : Keeps s v1 := by
    unfold v1
    split
    · refine Keeps.of_mk ?_ rfl rfl (Nat.le_refl _) rfl rfl rfl rfl rfl rfl
      exact Keeps.refl _
    · exact Keeps.refl _
  clear_value v1
  split
  · refine Keeps.of_mk ?_ rfl rfl (Nat.le_refl _) rfl rfl rfl rfl rfl rfl
    exact h3
  · exact h3

theorem State.event_keeps (s : State) (e : Nat) :
    Keeps s (s.event e) := by
  unfold State.event
  split
  · extract_lets -merge -useContext -underBinder +onlyGivenNames v0 v1
    try clear_value v0
    have h2 : Keeps s v1 := by
      unfold v1
      exact (State.setFlag_keeps ..)
    clear_value v1
    split
    · refine Keeps.of_mk ?_ rfl rfl (Nat.le_refl _) rfl rfl rfl rfl rfl rfl
      exact h2
    · split
      · exact .trans h2 (State.assertEvent_keeps ..)
      · exact h2
  · exact Keeps.refl _

theorem State.latchWords_keeps (s : State) (off : Nat) (ev : Option Nat) (ws : List (Nat × Word)) :
    Keeps s (s.latchWords off ev ws) := by
  unfold State.latchWords
  extract_lets -merge -useContext -underBinder +onlyGivenNames v0
  have h1 : Keeps s v0 := by
    unfold v0
    refine Keeps.foldl ?_ (fun y2 _ => ?_)
    · exact (State.noteSet_keeps ..)
    · exact (State.setReg_keeps ..)
  clear_value v0
  split
  · exact .trans h1 (State.event_keeps ..)
  · exact h1

theorem State.latchFirst_keeps (s : State) (off : Nat) (rank : Nat) (ws : List (Nat × Word)) (ev : Option Nat) :
    Keeps s (s.latchFirst off rank ws ev) := by
  unfold State.latchFirst
  extract_lets -merge -useContext -underBinder +onlyGivenNames v0
  try clear_value v0
  split
  · exact Keeps.refl _
  · extract_lets -merge -useContext -underBinder +onlyGivenNames v1 x3 v2
    try clear_value v1
    have h4 : Keeps s v2 := by
      unfold v2
      refine Keeps.of_mk ?_ rfl rfl (Nat.le_refl _) rfl rfl rfl rfl rfl rfl
      exact Keeps.refl _
    clear_value v2
    split
    · exact .trans h4 (State.latchWords_keeps ..)
    · exact h4

theorem State.relatch_keeps (s : State) (off : Nat) :
    Keeps s (s.relatch off) := by
  unfold State.relatch
  split
  · exact Keeps.refl _
  · split
    · exact (State.latchWords_keeps ..)
    · exact Keeps.refl _

theorem State.noteSram_keeps (s : State) (array : Nat) (lo : Nat) (hi : Nat) :
    Keeps s (s.noteSram array lo hi) := by
  unfold State.noteSram
  refine Keeps.of_mk ?_ rfl rfl (Nat.le_refl _) rfl rfl rfl rfl rfl rfl
  exact Keeps.refl _

theorem State.violation_keeps (s : State) (t : Nat) (m : Nat) (o : Nat) (write : Bool) :
    Keeps s (s.violation t m o write) := by
  unfold State.violation
  exact .trans (.trans ((State.bump_keeps ..)) (State.event_keeps ..)) (State.latchFirst_keeps ..)

theorem State.setChan_keeps (s : State) (c : Nat) (v : Chan) :
    Keeps s (s.setChan c v) := by
  unfold State.setChan
  refine Keeps.of_mk ?_ rfl rfl (Nat.le_refl _) rfl rfl rfl rfl rfl rfl
  exact Keeps.refl _

theorem State.setPoison_keeps (s : State) (ln : Nat) (b : Bool) :
    Keeps s (s.setPoison ln b) := by
  unfold State.setPoison
  refine Keeps.of_mk ?_ rfl rfl (Nat.le_refl _) rfl rfl rfl rfl rfl rfl
  exact Keeps.refl _

theorem State.setSoft_keeps (s : State) (ln : Nat) (b : Bool) :
    Keeps s (s.setSoft ln b) := by
  unfold State.setSoft
  refine Keeps.of_mk ?_ rfl rfl (Nat.le_refl _) rfl rfl rfl rfl rfl rfl
  exact Keeps.refl _

theorem State.strike_keeps (s : State) (c : Nat) (upsets : List (BitVec 31 × Bool)) :
    Keeps s (s.strike c upsets) := by
  unfold State.strike
  refine Keeps.foldl ?_ (fun y0 _ => ?_)
  · exact Keeps.refl _
  · extract_lets -merge -useContext -underBinder +onlyGivenNames v1
    try clear_value v1
    split
    · exact Keeps.refl _
    · split
      · exact (State.setPoison_keeps ..)
      · exact (State.setSoft_keeps ..)

theorem State.uncorrectable_keeps (s : State) (ln : Nat) (m : Nat) (kind : Nat) :
    Keeps s (s.uncorrectable ln m kind) := by
  unfold State.uncorrectable
  extract_lets -merge -useContext -underBinder +onlyGivenNames v0
  try clear_value v0
  exact .trans (.trans ((State.bump_keeps ..)) (State.event_keeps ..)) (State.latchFirst_keeps ..)

theorem State.readLine_keeps (s : State) (ln : Nat) (m : Nat) (kind : Nat) :
    Keeps s (s.readLine ln m kind).1 := by
  unfold State.readLine
  extract_lets -merge -useContext -underBinder +onlyGivenNames v0 v1
  try clear_value v0
  have h2 : Keeps s v1 := by
    unfold v1
    exact (State.bump_keeps ..)
  clear_value v1
  split
  · exact .trans h2 (State.uncorrectable_keeps ..)
  · split
    · exact .trans (.trans h2 (State.bump_keeps ..)) (State.event_keeps ..)
    · exact h2

theorem State.fetchLine_keeps (s : State) (ln : Nat) (m : Nat) :
    Keeps s (s.fetchLine ln m).1 := by
  unfold State.fetchLine
  split
  · extract_lets -merge -useContext -underBinder +onlyGivenNames v0
    have h1 : Keeps s v0 := by
      unfold v0
      exact (State.bump_keeps ..)
    clear_value v0
    split
    · exact .trans h1 (State.uncorrectable_keeps ..)
    · exact h1
  · exact (State.readLine_keeps ..)

theorem State.devRead_keeps (s : State) (m : Nat) (a : Nat) (n : Nat) :
    Keeps s (s.devRead m a n).1 := by
  unfold State.devRead
  split
  · exact Keeps.refl _
  · split
    · exact Keeps.refl _
    · refine Keeps.foldl1 ?_ (fun y0 _ => ?_)
      · exact Keeps.refl _
      · dsimp only
        split
        · exact (State.violation_keeps ..)
        · split
          · exact Keeps.refl _
          · exact (State.fetchLine_keeps ..)

theorem State.keepReads_keeps (s : State) (c : Nat) (lo : Nat) (hi : Nat) :
    Keeps s (s.keepReads c lo hi) := by
  unfold State.keepReads
  extract_lets -merge -useContext -underBinder +onlyGivenNames v0 v1 v2
  try clear_value v2; try clear_value v1; try clear_value v0
  split
  · exact (State.setChan_keeps ..)
  · exact Keeps.refl _

theorem State.dropScrub_keeps (s : State) (ln : Nat) :
    Keeps s (s.dropScrub ln) := by
  unfold State.dropScrub
  refine Keeps.of_mk ?_ rfl rfl (Nat.le_refl _) rfl rfl rfl rfl rfl rfl
  exact Keeps.refl _

theorem State.putLine_keeps (s : State) (a : Nat) (bs : List Byte) :
    Keeps s (s.putLine a bs) := by
  unfold State.putLine
  extract_lets -merge -useContext -underBinder +onlyGivenNames v0 v1
  try clear_value v0
  have h2 : Keeps s v1 := by
    unfold v1
    exact .trans ((State.keepReads_keeps ..)) (State.dropScrub_keeps ..)
  clear_value v1
  split
  · extract_lets -merge -useContext -underBinder +onlyGivenNames v3
    have h4 : Keeps s v3 := by
      unfold v3
      exact .trans (.trans h2 (State.setPoison_keeps ..)) (State.setSoft_keeps ..)
    clear_value v3
    exact h4.trans (State.dram_keeps v3 a bs)
  · split
    · exact h2
    · exact h2.trans (State.dram_keeps v1 a bs)

theorem State.mergeLine_keeps (s : State) (ln : Nat) (m : Nat) :
    Keeps s (s.mergeLine ln m) := by
  unfold State.mergeLine
  exact .trans ((State.readLine_keeps ..)) (State.setSoft_keeps ..)

theorem State.joinWrite_keeps (s : State) (ln : Nat) (whole : Bool) :
    Keeps s (s.joinWrite ln whole) := by
  unfold State.joinWrite
  extract_lets -merge -useContext -underBinder +onlyGivenNames v0 v1 v2
  try clear_value v2; try clear_value v1; try clear_value v0
  exact (State.setChan_keeps ..)

theorem State.storeLine_keeps (s : State) (m : Nat) (ln : Nat) (a : Nat) (bs : List Byte) :
    Keeps s (s.storeLine m ln a bs) := by
  unfold State.storeLine
  extract_lets -merge -useContext -underBinder +onlyGivenNames v0 v1
  try clear_value v0
  have h1 : Keeps s v1 := by
    unfold v1
    split
    · exact State.joinWrite_keeps ..
    · refine Keeps.trans ?_ (State.bump_keeps ..)
      split
      · exact Keeps.refl _
      · exact State.mergeLine_keeps ..
  clear_value v1
  exact h1.trans (State.putLine_keeps ..)

theorem State.devWrite_keeps (s : State) (m : Nat) (a : Nat) (bs : List Byte) (stop : Bool) :
    Keeps s (s.devWrite m a bs stop).1 := by
  unfold State.devWrite
  split
  · exact Keeps.refl _
  · split
    · exact Keeps.refl _
    · refine Keeps.foldl1 ?_ (fun y0 _ => ?_)
      · exact Keeps.refl _
      · split
        · split
          · extract_lets -merge -useContext -underBinder +onlyGivenNames v1
            try clear_value v1
            split
            · exact Keeps.refl _
            · split
              · exact (State.violation_keeps ..)
              · split
                · exact Keeps.refl _
                · exact (State.storeLine_keeps ..)

theorem State.badAccess_keeps (s : State) (off : Nat) (write : Bool) (reason : Nat) :
    Keeps s (s.badAccess off write reason) := by
  unfold State.badAccess
  exact .trans ((State.event_keeps ..)) (State.latchFirst_keeps ..)

theorem State.busError_keeps (s : State) (m : Nat) (off : Nat) (write : Bool) :
    Keeps s (s.busError m off write) := by
  unfold State.busError
  extract_lets -merge -useContext -underBinder +onlyGivenNames x1 v0
  have h2 : Keeps s v0 := by
    unfold v0
    refine Keeps.of_mk ?_ rfl rfl (Nat.le_refl _) rfl rfl rfl rfl rfl rfl
    exact Keeps.refl _
  clear_value v0
  split
  · exact .trans h2 (State.badAccess_keeps ..)
  · exact h2

theorem State.accepted_keeps (s : State) (off : Nat) (b : BusWrite) :
    Keeps s (s.accepted off b) := by
  unfold State.accepted
  extract_lets -merge -useContext -underBinder +onlyGivenNames x1 v0
  have h2 : Keeps s v0 := by
    unfold v0
    split
    · refine Keeps.of_mk ?_ rfl rfl (Nat.le_refl _) rfl rfl rfl rfl rfl rfl
      exact Keeps.refl _
    · exact Keeps.refl _
  clear_value v0
  refine Keeps.of_mk ?_ rfl rfl (Nat.le_refl _) rfl rfl rfl rfl rfl rfl
  exact h2

theorem State.busApply_keeps (s : State) (off : Nat) (b : BusWrite) (eff : State → Word → State) (heff : ∀ y0 y1, Keeps y0 (eff y0 y1)) :
    Keeps s (s.busApply off b eff) := by
  unfold State.busApply
  extract_lets -merge -useContext -underBinder +onlyGivenNames v0
  try clear_value v0
  split
  · exact (State.badAccess_keeps ..)
  · split
    · exact (State.busError_keeps ..)
    · split
      · exact .trans ((State.violation_keeps ..)) (State.busError_keeps ..)
      · split
        · exact (State.busError_keeps ..)
        · exact .trans ((State.accepted_keeps ..)) (heff ..)

theorem State.holdAccess_keeps (s : State) (a : GateAccess) :
    Keeps s (s.holdAccess a) := by
  unfold State.holdAccess
  refine Keeps.of_mk ?_ rfl rfl (Nat.le_refl _) rfl rfl rfl rfl rfl rfl
  exact Keeps.refl _

theorem State.busReach_keeps (s : State) (off : Nat) (b : BusWrite) (eff : State → Word → State) (heff : ∀ y0 y1, Keeps y0 (eff y0 y1)) :
    Keeps s (s.busReach off b eff) := by
  unfold State.busReach
  split
  · exact (State.holdAccess_keeps ..)
  · refine Keeps.trans ?_ (State.busApply_keeps (heff := fun y0 _ => ?_) ..)
    · exact Keeps.refl _
    · exact (heff ..)

theorem State.busWrite_keeps (s : State) (off : Nat) (b : BusWrite) (eff : State → Word → State) (heff : ∀ y0 y1, Keeps y0 (eff y0 y1)) :
    Keeps s (s.busWrite off b eff) := by
  unfold State.busWrite
  split
  · exact Keeps.refl _
  · split
    · refine Keeps.of_mk ?_ rfl rfl (Nat.le_refl _) rfl rfl rfl rfl rfl rfl
      exact Keeps.refl _
    · refine Keeps.trans ?_ (State.busReach_keeps (heff := fun y0 _ => ?_) ..)
      · exact Keeps.refl _
      · exact (heff ..)

theorem State.readApply_keeps (s : State) (off : Nat) (m : Nat) (be : BitVec 4) (eff : State → State × Word) (heff : ∀ y0, Keeps y0 (eff y0).1) :
    Keeps s (s.readApply off m be eff) := by
  unfold State.readApply
  split
  · exact (State.busError_keeps ..)
  · split
    · exact .trans ((State.violation_keeps ..)) (State.busError_keeps ..)
    · extract_lets -merge -useContext -underBinder +onlyGivenNames v0
      have h1 : Keeps s v0.1 := by
        unfold v0
        exact (heff ..)
      clear_value v0
      extract_lets -merge -useContext -underBinder +onlyGivenNames v2
      have h3 : Keeps s v2 := by
        unfold v2
        exact h1
      refine Keeps.of_mk ?_ rfl rfl (Nat.le_refl _) rfl rfl rfl rfl rfl rfl
      exact h3

theorem State.busRead_keeps (s : State) (off : Nat) (b : BusRead) (eff : State → State × Word) (heff : ∀ y0, Keeps y0 (eff y0).1) :
    Keeps s (s.busRead off b eff) := by
  unfold State.busRead
  extract_lets -merge -useContext -underBinder +onlyGivenNames v0
  try clear_value v0
  split
  · exact Keeps.refl _
  · extract_lets -merge -useContext -underBinder +onlyGivenNames v1
    have h2 : Keeps s v1 := by
      unfold v1
      split
      · exact (State.holdAccess_keeps ..)
      · refine Keeps.trans ?_ (State.readApply_keeps (heff := fun y3 => ?_) ..)
        · exact Keeps.refl _
        · exact (heff ..)
    clear_value v1
    split
    · exact h2
    · refine Keeps.of_mk ?_ rfl rfl (Nat.le_refl _) rfl rfl rfl rfl rfl rfl
      exact h2

theorem State.latchWord_keeps (s : State) (m : Nat) (off : Nat) (v : Word) :
    Keeps s (s.latchWord m off v) := by
  unfold State.latchWord
  split
  · refine Keeps.of_mk ?_ rfl rfl (Nat.le_refl _) rfl rfl rfl rfl rfl rfl
    exact Keeps.refl _
  · refine Keeps.of_mk ?_ rfl rfl (Nat.le_refl _) rfl rfl rfl rfl rfl rfl
    exact Keeps.refl _

theorem State.noteQueues_keeps (s : State) :
    Keeps s (s.noteQueues) := by
  unfold State.noteQueues
  refine Keeps.of_mk ?_ rfl rfl (Nat.le_refl _) rfl rfl rfl rfl rfl rfl
  exact Keeps.refl _

theorem State.unlatch_keeps (s : State) (m : Nat) (off : Nat) :
    Keeps s (s.unlatch m off) := by
  unfold State.unlatch
  split
  · refine Keeps.of_mk ?_ rfl rfl (Nat.le_refl _) rfl rfl rfl rfl rfl rfl
    exact Keeps.refl _
  · refine Keeps.of_mk ?_ rfl rfl (Nat.le_refl _) rfl rfl rfl rfl rfl rfl
    exact Keeps.refl _

theorem State.noteWrite_keeps (s : State) (off : Nat) :
    Keeps s (s.noteWrite off) := by
  unfold State.noteWrite
  refine Keeps.of_mk ?_ rfl rfl (Nat.le_refl _) rfl rfl rfl rfl rfl rfl
  exact Keeps.refl _

theorem State.noteArm_keeps (s : State) (g : Nat) (was : Bool) :
    Keeps s (s.noteArm g was) := by
  unfold State.noteArm
  refine Keeps.of_mk ?_ rfl rfl (Nat.le_refl _) rfl rfl rfl rfl rfl rfl
  exact Keeps.refl _

theorem State.store_keeps (s : State) (off : Nat) (v : Word) :
    Keeps s (s.store off v) := by
  unfold State.store
  split
  · exact Keeps.refl _
  · exact .trans (.trans ((State.noteWrite_keeps ..)) (State.setReg_keeps ..)) (State.relatch_keeps ..)

theorem State.winWrite_keeps (s : State) (m : Nat) (x : Nat) (bs : List Byte) :
    Keeps s (s.winWrite m x bs) := by
  unfold State.winWrite
  exact (State.devWrite_keeps ..)

theorem State.fillBuffer_keeps (s : State) (m : Nat) (x : Nat) (content : List Byte) :
    Keeps s (s.fillBuffer m x content) := by
  unfold State.fillBuffer
  exact .trans (.trans ((State.winWrite_keeps ..)) (State.winWrite_keeps ..)) (State.winWrite_keeps ..)

theorem State.ownerReturn_keeps (s : State) (m : Nat) (x : Nat) (status : Nat) :
    Keeps s (s.ownerReturn m x status) := by
  unfold State.ownerReturn
  extract_lets -merge -useContext -underBinder +onlyGivenNames v0 v1 v2
  try clear_value v1; try clear_value v0
  have h3 : Keeps s v2 := by
    unfold v2
    exact (State.winWrite_keeps ..)
  clear_value v2
  exact .trans h3 (State.winWrite_keeps ..)

theorem State.dropExtent_keeps (s : State) (x : Nat) : Keeps s (s.dropExtent x) :=
  ⟨rfl, rfl, Nat.le_refl _, id, id,
    fun h => ⟨Nat.le_trans (List.length_filter_le ..) h.1, fun e he => h.2.1 e (List.mem_of_mem_filter he), h.2.2.filter _⟩,
    fun _ _ h => h, fun _ _ h => h, fun _ _ h => h⟩

theorem State.returnBuffer_keeps (s : State) (m : Nat) (x : Nat) (status : Nat) :
    Keeps s (s.returnBuffer m x status) := by
  unfold State.returnBuffer
  exact .trans ((State.ownerReturn_keeps ..)) (State.dropExtent_keeps ..)

theorem State.returnFilled_keeps (s : State) (m : Nat) (x : Nat) (status : Nat) (content : List Byte) :
    Keeps s (s.returnFilled m x status content) := by
  unfold State.returnFilled
  exact .trans ((State.fillBuffer_keeps ..)) (State.returnBuffer_keeps ..)

theorem State.post_keeps (s : State) (q : QueueId) (off : Nat) :
    Keeps s (s.post q off) := by
  unfold State.post
  refine Keeps.of_mk ?_ rfl rfl (Nat.le_refl _) rfl rfl rfl rfl rfl rfl
  exact Keeps.refl _

theorem State.mboxFill_keeps (s : State) (k : Nat) (d : List Word) :
    Keeps s (s.mboxFill k d) := by
  unfold State.mboxFill
  extract_lets -merge -useContext -underBinder +onlyGivenNames v0 v1
  try clear_value v0
  have h2 : Keeps s v1 := by
    unfold v1
    exact (State.setReg_keeps ..)
  clear_value v1
  refine Keeps.trans ?_ (State.event_keeps ..)
  refine Keeps.foldl ?_ (fun y3 _ => ?_)
  · exact h2
  · exact (State.setReg_keeps ..)

theorem State.mboxResult_keeps (s : State) (k : Nat) (d : List Word) :
    Keeps s (s.mboxResult k d) := by
  unfold State.mboxResult
  split
  · refine Keeps.of_mk ?_ rfl rfl (Nat.le_refl _) rfl rfl rfl rfl rfl rfl
    exact Keeps.refl _
  · exact (State.mboxFill_keeps ..)

theorem State.drawn_keeps (s : State) : Keeps s s.drawn :=
  ⟨rfl, rfl, Nat.le_succ _, id, id, id, fun _ _ h => h, fun _ _ h => h, fun _ _ h => h⟩

theorem State.setLane_keeps (s : State) (l : Nat) (v : Lane) :
    Keeps s (s.setLane l v) := by
  unfold State.setLane
  refine Keeps.of_mk ?_ rfl rfl (Nat.le_refl _) rfl rfl rfl rfl rfl rfl
  exact Keeps.refl _

theorem State.dropCached_keeps (s : State) (p : CacheLine → Bool) :
    Keeps s (s.dropCached p) := by
  unfold State.dropCached
  refine Keeps.of_mk ?_ rfl rfl (Nat.le_refl _) rfl rfl rfl rfl rfl rfl
  exact Keeps.refl _

theorem State.returnLater_keeps (s : State) (m : Nat) (x : Nat) :
    Keeps s (s.returnLater m x) := by
  unfold State.returnLater
  split
  · exact (State.returnBuffer_keeps ..)
  · refine Keeps.of_mk ?_ rfl rfl (Nat.le_refl _) rfl rfl rfl rfl rfl rfl
    exact Keeps.refl _

end Sys2Proof.Machine
end

