-- ==== Sys2Proof/Laws/KeepsLinks.lean ====
section
/-!
SUPPORT. What `Keeps` says, of lanes, the tile link, the scene and the sequencer: one lemma per operation.
-/
namespace Sys2Proof.Machine

open Sys2Proof.Safety

theorem State.laneCodeword_keeps (s : State) (l : Nat) (levels : List (BitVec 2)) :
    Keeps s (s.laneCodeword l levels).1 := by
  unfold State.laneCodeword
  extract_lets -merge -useContext -underBinder +onlyGivenNames v0 v1 v2 v3 v4 v5 v6 v7 v8 v9 v10 x12 v11 v13
  try clear_value v11; try clear_value v10; try clear_value v9; try clear_value v8; try clear_value v7; try clear_value v6; try clear_value v5; try clear_value v4; try clear_value v3; try clear_value v2; try clear_value v1; try clear_value v0
  have h14 : Keeps s v13 := by
    unfold v13
    exact .trans (.trans ((State.setLane_keeps ..)) (State.bump_keeps ..)) (State.bump_keeps ..)
  clear_value v13
  extract_lets -merge -useContext -underBinder +onlyGivenNames v15
  have h16 : Keeps s v15 := by
    unfold v15
    split
    · exact h14
    · exact .trans (.trans h14 (State.bump_keeps ..)) (State.bump_keeps ..)
    · exact .trans (.trans (.trans h14 (State.bump_keeps ..)) (State.setFlag_keeps ..)) (State.event_keeps ..)
  clear_value v15
  exact h16

theorem State.laneHunt_keeps (s : State) (l : Nat) (levels : List (BitVec 2)) :
    Keeps s (s.laneHunt l levels).1 := by
  unfold State.laneHunt
  split
  · extract_lets -merge -useContext -underBinder +onlyGivenNames v0 v1 v2 v3
    try clear_value v3; try clear_value v2; try clear_value v1; try clear_value v0
    exact .trans ((State.setLane_keeps ..)) (State.bump_keeps ..)
  · exact Keeps.refl _

theorem State.laneLockLost_keeps (s : State) (l : Nat) :
    Keeps s (s.laneLockLost l) := by
  unfold State.laneLockLost
  exact .trans (.trans ((State.setLane_keeps ..)) (State.setFlag_keeps ..)) (State.event_keeps ..)

theorem State.laneLink_keeps (s : State) (l : Nat) (w : LaneSt) :
    Keeps s (s.laneLink l w) := by
  unfold State.laneLink
  extract_lets -merge -useContext -underBinder +onlyGivenNames x1 v0
  have h2 : Keeps s v0 := by
    unfold v0
    exact (State.setLane_keeps ..)
  clear_value v0
  split
  · exact .trans h2 (State.setLane_keeps ..)
  · exact h2

theorem State.holdAdapt_keeps (s : State) (l : Nat) :
    Keeps s (s.holdAdapt l) := by
  unfold State.holdAdapt
  split
  · exact .trans (.trans ((State.setReg_keeps ..)) (State.setReg_keeps ..)) (State.drawn_keeps ..)
  · exact Keeps.refl _

theorem State.laneCtrlWrite_keeps (s : State) (l : Nat) (v : Word) :
    Keeps s (s.laneCtrlWrite l v) := by
  unfold State.laneCtrlWrite
  extract_lets -merge -useContext -underBinder +onlyGivenNames v0 v1
  try clear_value v0
  have h2 : Keeps s v1 := by
    unfold v1
    refine Keeps.trans ?_ (State.store_keeps ..)
    split
    · exact (State.holdAdapt_keeps ..)
    · exact Keeps.refl _
  clear_value v1
  split
  · exact h2
  · exact .trans h2 (State.setLane_keeps ..)

theorem execStateReq_keeps (lane : Fin 74) (b : BusWrite) (s : State) :
    KeepsOut s (execStateReq lane b s) := by
  unfold execStateReq
  refine KeepsOut.next ?_
  refine Keeps.trans ?_ (State.busWrite_keeps (heff := fun y0 _ => ?_) ..)
  · exact Keeps.refl _
  · exact (State.laneCtrlWrite_keeps ..)

theorem State.sendBits_keeps (s : State) (l : Nat) (bs : List Bool) :
    Keeps s (s.sendBits l bs) := by
  unfold State.sendBits
  extract_lets -merge -useContext -underBinder +onlyGivenNames v0 v1
  try clear_value v1; try clear_value v0
  exact (State.setLane_keeps ..)

theorem State.laneSend_keeps (s : State) (l : Nat) (bs : List Block) :
    Keeps s (s.laneSend l bs) := by
  unfold State.laneSend
  extract_lets -merge -useContext -underBinder +onlyGivenNames v0
  try clear_value v0
  exact .trans ((State.setLane_keeps ..)) (State.sendBits_keeps ..)

theorem State.prbsSend_keeps (s : State) (l : Nat) :
    Keeps s (s.prbsSend l) := by
  unfold State.prbsSend
  extract_lets -merge -useContext -underBinder +onlyGivenNames v0 v1
  try clear_value v1; try clear_value v0
  exact .trans ((State.setLane_keeps ..)) (State.sendBits_keeps ..)

theorem State.laneBoundary_keeps (s : State) (l : Nat) :
    Keeps s (s.laneBoundary l) := by
  unfold State.laneBoundary
  extract_lets -merge -useContext -underBinder +onlyGivenNames v0
  have h1 : Keeps s v0 := by
    unfold v0
    split
    · exact (State.setReg_keeps ..)
    · exact Keeps.refl _
  clear_value v0
  extract_lets -merge -useContext -underBinder +onlyGivenNames v2
  try clear_value v2
  exact .trans h1 (State.setLane_keeps ..)

theorem execStateTransition_keeps (lane : Fin 74) (s : State) :
    KeepsOut s (execStateTransition lane s) := by
  unfold execStateTransition
  extract_lets -merge -useContext -underBinder +onlyGivenNames v0
  try clear_value v0
  split
  · split
    · extract_lets -merge -useContext -underBinder +onlyGivenNames v1
      have h2 : Keeps s v1 := by
        unfold v1
        exact (State.laneBoundary_keeps ..)
      clear_value v1
      extract_lets -merge -useContext -underBinder +onlyGivenNames x4 v3
      have h5 : Keeps s v3 := by
        unfold v3
        split
        · split
          · exact .trans h2 (State.prbsSend_keeps ..)
          · exact .trans (.trans h2 (State.setLane_keeps ..)) (State.laneSend_keeps ..)
        · exact h2
      clear_value v3
      extract_lets -merge -useContext -underBinder +onlyGivenNames v6
      have h7 : Keeps s v6 := by
        unfold v6
        exact .trans h5 (State.holdAdapt_keeps ..)
      clear_value v6
      refine KeepsOut.next ?_
      exact .trans h7 (State.setLane_keeps ..)
    · refine KeepsOut.next ?_
      exact Keeps.refl _
  · refine KeepsOut.next ?_
    exact Keeps.refl _

theorem State.laneArrive_keeps (s : State) (l : Nat) (w : LaneSt) :
    Keeps s (s.laneArrive l w) := by
  unfold State.laneArrive
  extract_lets -merge -useContext -underBinder +onlyGivenNames v0
  have h1 : Keeps s v0 := by
    unfold v0
    exact (State.laneBoundary_keeps ..)
  clear_value v0
  extract_lets -merge -useContext -underBinder +onlyGivenNames v2
  try clear_value v2
  exact .trans h1 (State.setLane_keeps ..)

theorem State.laneSigLost_keeps (s : State) (l : Nat) :
    Keeps s (s.laneSigLost l) := by
  unfold State.laneSigLost
  extract_lets -merge -useContext -underBinder +onlyGivenNames v0
  have h1 : Keeps s v0 := by
    unfold v0
    exact (State.holdAdapt_keeps ..)
  clear_value v0
  extract_lets -merge -useContext -underBinder +onlyGivenNames v2 v3
  try clear_value v3; try clear_value v2
  split
  · exact .trans (.trans (.trans h1 (State.setLane_keeps ..)) (State.laneArrive_keeps ..)) (State.event_keeps ..)
  · exact .trans (.trans (.trans h1 (State.setLane_keeps ..)) (State.setFlag_keeps ..)) (State.event_keeps ..)

theorem execSignalDetect_keeps (lane : Fin 74) (s : State) :
    KeepsOut s (execSignalDetect lane s) := by
  unfold execSignalDetect
  extract_lets -merge -useContext -underBinder +onlyGivenNames v0
  try clear_value v0
  split
  · refine KeepsOut.next ?_
    exact Keeps.refl _
  · split
    · refine KeepsOut.next ?_
      exact (State.setLane_keeps ..)
    · extract_lets -merge -useContext -underBinder +onlyGivenNames x2 v1
      try clear_value v1
      refine KeepsOut.next ?_
      exact (State.setLane_keeps ..)
    · refine KeepsOut.next ?_
      exact Keeps.refl _

theorem State.laneFirWrite_keeps (s : State) (l : Nat) (v : Word) :
    Keeps s (s.laneFirWrite l v) := by
  unfold State.laneFirWrite
  split
  · split
    · exact (State.setFlag_keeps ..)
    · exact (State.setLane_keeps ..)
  · exact Keeps.refl _

theorem execLaneTxfirWrite_keeps (lane : Fin 74) (b : BusWrite) (s : State) :
    KeepsOut s (execLaneTxfirWrite lane b s) := by
  unfold execLaneTxfirWrite
  refine KeepsOut.next ?_
  refine Keeps.trans ?_ (State.busWrite_keeps (heff := fun y0 _ => ?_) ..)
  · exact Keeps.refl _
  · exact (State.laneFirWrite_keeps ..)

theorem execTxCodewordBoundary_keeps (lane : Fin 74) (s : State) :
    KeepsOut s (execTxCodewordBoundary lane s) := by
  unfold execTxCodewordBoundary
  extract_lets -merge -useContext -underBinder +onlyGivenNames v0
  try clear_value v0
  split
  · extract_lets -merge -useContext -underBinder +onlyGivenNames v1
    have h2 : Keeps s v1 := by
      unfold v1
      exact (State.laneBoundary_keeps ..)
    clear_value v1
    split
    · refine KeepsOut.next ?_
      exact h2
    · split
      · refine KeepsOut.next ?_
        exact .trans h2 (State.prbsSend_keeps ..)
      · split
        · refine KeepsOut.next ?_
          exact h2
        · extract_lets -merge -useContext -underBinder +onlyGivenNames v3
          try clear_value v3
          refine KeepsOut.next ?_
          exact .trans (.trans h2 (State.setLane_keeps ..)) (State.laneSend_keeps ..)
  · refine KeepsOut.next ?_
    exact Keeps.refl _

theorem State.laneInjectWrite_keeps (s : State) (l : Nat) (v : Word) :
    Keeps s (s.laneInjectWrite l v) := by
  unfold State.laneInjectWrite
  extract_lets -merge -useContext -underBinder +onlyGivenNames v0
  have h1 : Keeps s v0 := by
    unfold v0
    exact (State.store_keeps ..)
  clear_value v0
  split
  · exact .trans h1 (State.setLane_keeps ..)
  · exact h1

theorem execInjectGo_keeps (lane : Fin 74) (b : BusWrite) (s : State) :
    KeepsOut s (execInjectGo lane b s) := by
  unfold execInjectGo
  refine KeepsOut.next ?_
  refine Keeps.trans ?_ (State.busWrite_keeps (heff := fun y0 _ => ?_) ..)
  · exact Keeps.refl _
  · exact (State.laneInjectWrite_keeps ..)

theorem State.patchLine_keeps (s : State) (l : Nat) (fl : List Nat) :
    Keeps s (s.patchLine l fl) := by
  unfold State.patchLine
  extract_lets -merge -useContext -underBinder +onlyGivenNames v0 v1 v2 v3 v4
  try clear_value v4; try clear_value v3; try clear_value v2; try clear_value v1; try clear_value v0
  exact (State.setLane_keeps ..)

theorem State.inject_keeps (s : State) (l : Nat) (i : Injection) (at_ : Nat) :
    Keeps s (s.inject l i at_) := by
  unfold State.inject
  extract_lets -merge -useContext -underBinder +onlyGivenNames x1 v0
  try clear_value v0
  split
  · exact .trans ((State.setLane_keeps ..)) (State.patchLine_keeps ..)
  · exact (State.setLane_keeps ..)

theorem execInjection_keeps (lane : Fin 74) (s : State) :
    KeepsOut s (execInjection lane s) := by
  unfold execInjection
  extract_lets -merge -useContext -underBinder +onlyGivenNames v0
  try clear_value v0
  split
  · split
    · split
      · refine KeepsOut.next ?_
        exact Keeps.refl _
      · extract_lets -merge -useContext -underBinder +onlyGivenNames v1
        try clear_value v1
        split
        · refine KeepsOut.next ?_
          exact Keeps.refl _
        · split
          · refine KeepsOut.next ?_
            exact .trans ((State.setLane_keeps ..)) (State.setFlag_keeps ..)
          · refine KeepsOut.next ?_
            exact (State.inject_keeps ..)
    · refine KeepsOut.next ?_
      exact Keeps.refl _
  · refine KeepsOut.next ?_
    exact Keeps.refl _

theorem State.laneCntClr_keeps (s : State) (l : Nat) (v : Word) :
    Keeps s (s.laneCntClr l v) := by
  unfold State.laneCntClr
  split
  · exact .trans ((State.clrRegs_keeps ..)) (State.clrRegs_keeps ..)
  · exact Keeps.refl _

theorem execLaneCntClr_keeps (lane : Fin 74) (b : BusWrite) (s : State) :
    KeepsOut s (execLaneCntClr lane b s) := by
  unfold execLaneCntClr
  refine KeepsOut.next ?_
  refine Keeps.trans ?_ (State.busWrite_keeps (heff := fun y0 _ => ?_) ..)
  · exact Keeps.refl _
  · exact (State.laneCntClr_keeps ..)

theorem State.lanePrbsWrite_keeps (s : State) (l : Nat) (v : Word) :
    Keeps s (s.lanePrbsWrite l v) := by
  unfold State.lanePrbsWrite
  extract_lets -merge -useContext -underBinder +onlyGivenNames v0 v1
  try clear_value v0
  have h2 : Keeps s v1 := by
    unfold v1
    exact (State.store_keeps ..)
  clear_value v1
  split
  · exact .trans h2 (State.setLane_keeps ..)
  · split
    · exact .trans h2 (State.setLane_keeps ..)
    · exact h2

theorem State.takeReturn_keeps {s t : State} {c : Prop} [Decidable c] {n type w : Nat}
    (h : (if c then s.takeReturn n type else none) = some (w, t)) : Keeps s t := by
  split at h
  · unfold State.takeReturn at h
    extract_lets at h
    split at h
    · split at h
      · cases h; exact State.setLane_keeps ..
      · cases h
    · cases h
  · cases h

theorem State.setTile_keeps (s : State) (n : Nat) (t : Tile) :
    Keeps s (s.setTile n t) := by
  unfold State.setTile
  refine Keeps.of_mk ?_ rfl rfl (Nat.le_refl _) rfl rfl rfl rfl rfl rfl
  exact Keeps.refl _

theorem State.eachTile_keeps (s : State) (f : State → Nat → State) (hf : ∀ y0 y1, Keeps y0 (f y0 y1)) :
    Keeps s (s.eachTile f) := by
  unfold State.eachTile
  refine Keeps.foldl ?_ (fun y0 _ => ?_)
  · exact Keeps.refl _
  · exact (hf ..)

theorem State.hand_keeps (s : State) (l : Nat) (b : Block) :
    Keeps s (s.hand l b) := by
  unfold State.hand
  extract_lets -merge -useContext -underBinder +onlyGivenNames v0
  try clear_value v0
  exact (State.setLane_keeps ..)

theorem State.handHead_keeps (s : State) (l : Nat) (b : Block) :
    Keeps s (s.handHead l b) := by
  unfold State.handHead
  extract_lets -merge -useContext -underBinder +onlyGivenNames v0
  try clear_value v0
  exact (State.setLane_keeps ..)

theorem State.handAll_keeps (s : State) (n : Nat) (f : Nat → Block) :
    Keeps s (s.handAll n f) := by
  unfold State.handAll
  refine Keeps.foldl ?_ (fun y0 _ => ?_)
  · exact Keeps.refl _
  · exact (State.handHead_keeps ..)

theorem State.dropInserts_keeps (s : State) (n : Nat) :
    Keeps s (s.dropInserts n) := by
  unfold State.dropInserts
  refine Keeps.foldl ?_ (fun y0 _ => ?_)
  · exact Keeps.refl _
  · exact (State.setLane_keeps ..)

theorem State.frameHeads_keeps (s : State) (short : Bool) (n : Nat) :
    Keeps s (s.frameHeads short n) := by
  unfold State.frameHeads
  extract_lets -merge -useContext -underBinder +onlyGivenNames v0
  have h1 : Keeps s v0 := by
    unfold v0
    exact (State.dropInserts_keeps ..)
  clear_value v0
  extract_lets -merge -useContext -underBinder +onlyGivenNames v2 x4 v3
  try clear_value v2
  have h5 : Keeps s v3 := by
    unfold v3
    exact .trans h1 (State.setTile_keeps ..)
  clear_value v3
  split
  · exact h5
  · exact .trans h5 (State.handAll_keeps ..)

theorem State.cutRow_keeps (s : State) (n : Nat) :
    Keeps s (s.cutRow n) := by
  unfold State.cutRow
  split
  · extract_lets -merge -useContext -underBinder +onlyGivenNames v0
    try clear_value v0
    exact .trans ((State.handAll_keeps ..)) (State.setTile_keeps ..)
  · exact Keeps.refl _

theorem State.rowHeads_keeps (s : State) (k : Nat) (n : Nat) :
    Keeps s (s.rowHeads k n) := by
  unfold State.rowHeads
  extract_lets -merge -useContext -underBinder +onlyGivenNames x1 v0
  have h2 : Keeps s v0 := by
    unfold v0
    exact (State.setTile_keeps ..)
  clear_value v0
  split
  · exact h2
  · exact .trans (.trans h2 (State.handAll_keeps ..)) (State.setTile_keeps ..)

theorem State.handWords_keeps (s : State) (n v k i : Nat) : Keeps s (s.handWords n v k i) := by
  induction k generalizing s i with
  | zero => exact Keeps.refl _
  | succ k ih =>
    unfold State.handWords
    split
    · exact Keeps.refl _
    · refine .ite (Keeps.refl _) (Keeps.trans ?_ (ih _ _))
      split
      · refine .trans (.trans ?_ (State.setTile_keeps ..)) (State.bump_keeps ..)
        split
        · exact .trans (State.hand_keeps ..) (State.hand_keeps ..)
        · exact State.hand_keeps ..
      · refine .trans ?_ (State.setTile_keeps ..)
        split
        · exact .trans (State.hand_keeps ..) (State.hand_keeps ..)
        · exact State.hand_keeps ..

theorem State.rowCodes_keeps (s : State) (n : Nat) (codes : List Nat) :
    Keeps s (s.rowCodes n codes) := by
  unfold State.rowCodes
  split
  · exact Keeps.refl _
  · extract_lets -merge -useContext -underBinder +onlyGivenNames v0 v1 v2 x4 v3
    try clear_value v2; try clear_value v1; try clear_value v0
    have h5 : Keeps s v3 := by
      unfold v3
      exact (State.setTile_keeps ..)
    clear_value v3
    exact .trans h5 (State.handWords_keeps ..)

theorem State.spliceInsert_keeps (s : State) (x : Insert) :
    Keeps s (s.spliceInsert x) := by
  unfold State.spliceInsert
  extract_lets -merge -useContext -underBinder +onlyGivenNames v0 v1
  try clear_value v1; try clear_value v0
  split
  · exact Keeps.refl _
  · extract_lets -merge -useContext -underBinder +onlyGivenNames v2 v3 v4 v5
    try clear_value v4; try clear_value v3; try clear_value v2
    have h6 : Keeps s v5 := by
      unfold v5
      exact (State.setTile_keeps ..)
    clear_value v5
    extract_lets -merge -useContext -underBinder +onlyGivenNames v7
    have h8 : Keeps s v7 := by
      unfold v7
      exact .trans h6 (State.bump_keeps ..)
    clear_value v7
    extract_lets -merge -useContext -underBinder +onlyGivenNames v9
    try clear_value v9
    exact .trans h8 (State.setLane_keeps ..)

theorem execRowSplice_keeps (s : State) :
    KeepsOut s (execRowSplice s) := by
  unfold execRowSplice
  split
  · refine KeepsOut.next ?_
    exact Keeps.refl _
  · extract_lets -merge -useContext -underBinder +onlyGivenNames v0 v1 x3 v2
    try clear_value v1; try clear_value v0
    have h4 : Keeps s v2 := by
      unfold v2
      refine Keeps.of_mk ?_ rfl rfl (Nat.le_refl _) rfl rfl rfl rfl rfl rfl
      exact Keeps.refl _
    clear_value v2
    refine KeepsOut.next ?_
    refine Keeps.foldl ?_ (fun y5 _ => ?_)
    · exact h4
    · exact (State.spliceInsert_keeps ..)

theorem State.tileCommand_keeps (s : State) (n : Nat) (src : CmdSrc) (op : Nat) (arg : Nat) :
    Keeps s (s.tileCommand n src op arg) := by
  unfold State.tileCommand
  extract_lets -merge -useContext -underBinder +onlyGivenNames v0
  try clear_value v0
  exact (State.setTile_keeps ..)

theorem State.cmdHandover_keeps (s : State) (n : Nat) :
    Keeps s (s.cmdHandover n) := by
  unfold State.cmdHandover
  extract_lets -merge -useContext -underBinder +onlyGivenNames v0 v1
  try clear_value v1; try clear_value v0
  split
  · exact Keeps.refl _
  · split
    · exact Keeps.refl _
    · extract_lets -merge -useContext -underBinder +onlyGivenNames v2
      have h3 : Keeps s v2 := by
        unfold v2
        exact (State.setTile_keeps ..)
      clear_value v2
      exact .trans (.trans h3 (State.hand_keeps ..)) (State.bump_keeps ..)

theorem State.hostResult_keeps (s : State) (n : Nat) (op : Nat) (sample : Nat) (oor : Bool) (timeout : Bool) :
    Keeps s (s.hostResult n op sample oor timeout) := by
  unfold State.hostResult
  extract_lets -merge -useContext -underBinder +onlyGivenNames v0 v1
  try clear_value v0
  have h2 : Keeps s v1 := by
    unfold v1
    exact (State.setReg_keeps ..)
  clear_value v1
  extract_lets -merge -useContext -underBinder +onlyGivenNames v3
  have h4 : Keeps s v3 := by
    unfold v3
    exact .trans h2 (State.setReg_keeps ..)
  clear_value v3
  refine Keeps.trans ?_ (State.event_keeps ..)
  refine Keeps.of_mk ?_ rfl rfl (Nat.le_refl _) rfl rfl rfl rfl rfl rfl
  exact h4

theorem State.hcmdHiWrite_keeps (s : State) (v : Word) :
    Keeps s (s.hcmdHiWrite v) := by
  unfold State.hcmdHiWrite
  extract_lets -merge -useContext -underBinder +onlyGivenNames v0
  have h1 : Keeps s v0 := by
    unfold v0
    exact (State.store_keeps ..)
  clear_value v0
  split
  · extract_lets -merge -useContext -underBinder +onlyGivenNames v2 v3 v4
    try clear_value v3; try clear_value v2
    have h5 : Keeps s v4 := by
      unfold v4
      exact .trans (.trans h1 (State.tileCommand_keeps ..)) (State.clrFlag_keeps ..)
    clear_value v4
    refine Keeps.of_mk ?_ rfl rfl (Nat.le_refl _) rfl rfl rfl rfl rfl rfl
    exact h5
  · exact h1

theorem execHcmdGo_keeps (b : BusWrite) (s : State) :
    KeepsOut s (execHcmdGo b s) := by
  unfold execHcmdGo
  refine KeepsOut.next ?_
  refine Keeps.trans ?_ (State.busWrite_keeps (heff := fun y0 _ => ?_) ..)
  · exact Keeps.refl _
  · exact (State.hcmdHiWrite_keeps ..)

theorem State.hresAckWrite_keeps (s : State) (v : Word) :
    Keeps s (s.hresAckWrite v) := by
  unfold State.hresAckWrite
  split
  · exact (State.clrFlag_keeps ..)
  · exact Keeps.refl _

theorem execTlkHresAck_keeps (b : BusWrite) (s : State) :
    KeepsOut s (execTlkHresAck b s) := by
  unfold execTlkHresAck
  refine KeepsOut.next ?_
  refine Keeps.trans ?_ (State.busWrite_keeps (heff := fun y0 _ => ?_) ..)
  · exact Keeps.refl _
  · exact (State.hresAckWrite_keeps ..)

theorem State.hresLoRead_keeps (s : State) (m : Nat) :
    Keeps s (s.hresLoRead m).1 := by
  unfold State.hresLoRead
  exact (State.latchWord_keeps ..)

theorem execTlkHresLoRead_keeps (b : BusRead) (s : State) :
    KeepsOut s (execTlkHresLoRead b s) := by
  unfold execTlkHresLoRead
  refine KeepsOut.next ?_
  refine Keeps.trans ?_ (State.busRead_keeps (heff := fun y0 => ?_) ..)
  · exact Keeps.refl _
  · exact (State.hresLoRead_keeps ..)

theorem State.returnBlocks_keeps (s : State) (n : Nat) (bs : List Block) :
    Keeps s (s.returnBlocks n bs) := by
  unfold State.returnBlocks
  refine Keeps.foldl ?_ (fun y0 _ => ?_)
  · exact Keeps.refl _
  · split
    · exact (State.setLane_keeps ..)
    · split
      · exact Keeps.refl _
      · exact (State.bump_keeps ..)

theorem execFault_keeps (tile : Fin 16) (s : State) :
    KeepsOut s (execFault tile s) := by
  unfold execFault
  extract_lets -merge -useContext -underBinder +onlyGivenNames v0
  try clear_value v0
  split
  · refine KeepsOut.next ?_
    exact Keeps.refl _
  · refine KeepsOut.next ?_
    exact .trans (.trans (State.takeReturn_keeps (by assumption)) (State.latchFirst_keeps ..)) (State.event_keeps ..)

theorem execIdent_keeps (tile : Fin 16) (s : State) :
    KeepsOut s (execIdent tile s) := by
  unfold execIdent
  extract_lets -merge -useContext -underBinder +onlyGivenNames v0
  try clear_value v0
  split
  · refine KeepsOut.next ?_
    exact Keeps.refl _
  · extract_lets -merge -useContext -underBinder +onlyGivenNames v1
    have h2 : Keeps s v1 := by
      unfold v1
      exact .trans (.trans (State.takeReturn_keeps (by assumption)) (State.setReg_keeps ..)) (State.setReg_keeps ..)
    clear_value v1
    extract_lets -merge -useContext -underBinder +onlyGivenNames v3 x5 v4
    try clear_value v3
    have h6 : Keeps s v4 := by
      unfold v4
      exact .trans h2 (State.setTile_keeps ..)
    clear_value v4
    refine KeepsOut.next ?_
    split
    · exact h6
    · exact .trans h6 (State.setFlag_keeps ..)

theorem State.zeroApp_keeps (s : State) (n : Nat) :
    Keeps s (s.zeroApp n) := by
  unfold State.zeroApp
  exact .trans (.trans ((State.setReg_keeps ..)) (State.setTile_keeps ..)) (State.clrFlag_keeps ..)

theorem State.codeAppStep_keeps (s : State) (n : Nat) :
    Keeps s (s.codeAppStep n) := by
  unfold State.codeAppStep
  extract_lets -merge -useContext -underBinder +onlyGivenNames v0 v1
  try clear_value v1; try clear_value v0
  split
  · exact (State.zeroApp_keeps ..)
  · extract_lets -merge -useContext -underBinder +onlyGivenNames v2 v3 x5 v4 v6 v7 v8
    try clear_value v7; try clear_value v6; try clear_value v4; try clear_value v3; try clear_value v2
    have h9 : Keeps s v8 := by
      unfold v8
      exact (State.setReg_keeps ..)
    clear_value v8
    split
    · exact .trans (.trans h9 (State.setTile_keeps ..)) (State.setFlag_keeps ..)
    · exact h9

theorem State.blankTile_keeps (s : State) (reason : Nat) (n : Nat) :
    Keeps s (s.blankTile reason n) := by
  unfold State.blankTile
  exact .trans (.trans ((State.dropInserts_keeps ..)) (State.handAll_keeps ..)) (State.setTile_keeps ..)

theorem State.tlkTrip_keeps (s : State) :
    Keeps s (s.tlkTrip) := by
  unfold State.tlkTrip
  extract_lets -merge -useContext -underBinder +onlyGivenNames x1 v0
  have h2 : Keeps s v0 := by
    unfold v0
    refine Keeps.of_mk ?_ rfl rfl (Nat.le_refl _) rfl rfl rfl rfl rfl rfl
    exact Keeps.refl _
  clear_value v0
  refine Keeps.trans ?_ (State.eachTile_keeps (hf := fun y3 _ => ?_) ..)
  · exact h2
  · exact .trans ((State.zeroApp_keeps ..)) (State.blankTile_keeps ..)

theorem execReferenceCheck_keeps (refv : Nat) (refr : Nat) (s : State) :
    KeepsOut s (execReferenceCheck refv refr s) := by
  unfold execReferenceCheck
  split
  · refine KeepsOut.next ?_
    exact Keeps.refl _
  · extract_lets -merge -useContext -underBinder +onlyGivenNames x1 v0
    have h2 : Keeps s v0 := by
      unfold v0
      refine Keeps.of_mk ?_ rfl rfl (Nat.le_refl _) rfl rfl rfl rfl rfl rfl
      exact Keeps.refl _
    clear_value v0
    extract_lets -merge -useContext -underBinder +onlyGivenNames v3
    try clear_value v3
    split
    · extract_lets -merge -useContext -underBinder +onlyGivenNames x5 v4
      have h6 : Keeps s v4 := by
        unfold v4
        refine Keeps.trans ?_ (State.event_keeps ..)
        refine Keeps.of_mk ?_ rfl rfl (Nat.le_refl _) rfl rfl rfl rfl rfl rfl
        exact h2
      clear_value v4
      refine KeepsOut.next ?_
      refine Keeps.trans ?_ (State.eachTile_keeps (hf := fun y7 _ => ?_) ..)
      · exact h6
      · extract_lets -merge -useContext -underBinder +onlyGivenNames v8
        have h9 : Keeps y7 v8 := by
          unfold v8
          exact (State.zeroApp_keeps ..)
        clear_value v8
        split
        · exact .trans h9 (State.blankTile_keeps ..)
        · exact .trans (.trans h9 (State.dropInserts_keeps ..)) (State.setTile_keeps ..)
    · split
      · split
        · extract_lets -merge -useContext -underBinder +onlyGivenNames x11 v10
          have h12 : Keeps s v10 := by
            unfold v10
            refine Keeps.of_mk ?_ rfl rfl (Nat.le_refl _) rfl rfl rfl rfl rfl rfl
            exact h2
          clear_value v10
          extract_lets -merge -useContext -underBinder +onlyGivenNames v13
          try clear_value v13
          refine KeepsOut.next ?_
          split
          · refine Keeps.of_mk ?_ rfl rfl (Nat.le_refl _) rfl rfl rfl rfl rfl rfl
            exact h12
          · exact h12
        · refine KeepsOut.next ?_
          refine Keeps.of_mk ?_ rfl rfl (Nat.le_refl _) rfl rfl rfl rfl rfl rfl
          exact h2
      · refine KeepsOut.next ?_
        exact h2

theorem State.tileLanes_keeps (s : State) (n : Nat) (w : LaneSt) :
    Keeps s (s.tileLanes n w) := by
  unfold State.tileLanes
  refine Keeps.foldl ?_ (fun y0 _ => ?_)
  · exact (State.laneLink_keeps ..)
  · exact (State.laneLink_keeps ..)

theorem State.wakeTile_keeps (s : State) (n : Nat) :
    Keeps s (s.wakeTile n) := by
  unfold State.wakeTile
  exact .trans ((State.setTile_keeps ..)) (State.tileLanes_keeps ..)

theorem State.shutTile_keeps (s : State) (n : Nat) (reset : Bool) :
    Keeps s (s.shutTile n reset) := by
  unfold State.shutTile
  extract_lets -merge -useContext -underBinder +onlyGivenNames v0
  have h1 : Keeps s v0 := by
    unfold v0
    exact .trans ((State.blankTile_keeps ..)) (State.zeroApp_keeps ..)
  clear_value v0
  exact .trans h1 (State.setTile_keeps ..)

theorem State.tileEnWrite_keeps (s : State) (v : Word) :
    Keeps s (s.tileEnWrite v) := by
  unfold State.tileEnWrite
  extract_lets -merge -useContext -underBinder +onlyGivenNames v0 v1
  try clear_value v0
  have h2 : Keeps s v1 := by
    unfold v1
    exact (State.store_keeps ..)
  clear_value v1
  refine Keeps.trans ?_ (State.eachTile_keeps (hf := fun y3 _ => ?_) ..)
  · exact h2
  · split
    · exact (State.wakeTile_keeps ..)
    · split
      · extract_lets -merge -useContext -underBinder +onlyGivenNames v4
        try clear_value v4
        split
        · exact (State.setTile_keeps ..)
        · exact (State.shutTile_keeps ..)
      · split
        · exact (State.shutTile_keeps ..)
        · exact Keeps.refl _

theorem execTileEnWrite_keeps (b : BusWrite) (s : State) :
    KeepsOut s (execTileEnWrite b s) := by
  unfold execTileEnWrite
  refine KeepsOut.next ?_
  refine Keeps.trans ?_ (State.busWrite_keeps (heff := fun y0 _ => ?_) ..)
  · exact Keeps.refl _
  · exact (State.tileEnWrite_keeps ..)

theorem execTileReset_keeps (b : BusWrite) (s : State) :
    KeepsOut s (execTileReset b s) := by
  unfold execTileReset
  refine KeepsOut.next ?_
  refine Keeps.trans ?_ (State.busWrite_keeps (heff := fun y0 _ => ?_) ..)
  · exact Keeps.refl _
  · exact (State.tileEnWrite_keeps ..)

theorem execTileEnDriveLow_keeps (tile : Fin 16) (s : State) :
    KeepsOut s (execTileEnDriveLow tile s) := by
  unfold execTileEnDriveLow
  extract_lets -merge -useContext -underBinder +onlyGivenNames v0
  try clear_value v0
  split
  · split
    · refine KeepsOut.next ?_
      exact .trans ((State.setTile_keeps ..)) (State.tileLanes_keeps ..)
    · refine KeepsOut.next ?_
      exact Keeps.refl _
  · refine KeepsOut.next ?_
    exact Keeps.refl _

theorem execTileResetHoldEnd_keeps (tile : Fin 16) (s : State) :
    KeepsOut s (execTileResetHoldEnd tile s) := by
  unfold execTileResetHoldEnd
  extract_lets -merge -useContext -underBinder +onlyGivenNames v0
  try clear_value v0
  split
  · split
    · extract_lets -merge -useContext -underBinder +onlyGivenNames x2 v1
      have h3 : Keeps s v1 := by
        unfold v1
        exact (State.setTile_keeps ..)
      clear_value v1
      refine KeepsOut.next ?_
      split
      · exact .trans h3 (State.wakeTile_keeps ..)
      · exact h3
    · refine KeepsOut.next ?_
      exact Keeps.refl _
  · refine KeepsOut.next ?_
    exact Keeps.refl _

theorem execTileDown_keeps (tile : Fin 16) (s : State) :
    KeepsOut s (execTileDown tile s) := by
  unfold execTileDown
  extract_lets -merge -useContext -underBinder +onlyGivenNames v0
  try clear_value v0
  split
  · extract_lets -merge -useContext -underBinder +onlyGivenNames x2 v1
    have h3 : Keeps s v1 := by
      unfold v1
      exact (State.setTile_keeps ..)
    clear_value v1
    refine KeepsOut.next ?_
    exact .trans (.trans h3 (State.bump_keeps ..)) (State.event_keeps ..)
  · refine KeepsOut.next ?_
    exact Keeps.refl _

theorem State.tileLock_keeps (s : State) (n : Nat) (locked : Bool) :
    Keeps s (s.tileLock n locked) := by
  unfold State.tileLock
  exact (State.setTile_keeps ..)

theorem State.tileLinks_keeps (s : State) (n : Nat) :
    Keeps s (s.tileLinks n) := by
  unfold State.tileLinks
  extract_lets -merge -useContext -underBinder +onlyGivenNames v0
  try clear_value v0
  split
  · extract_lets -merge -useContext -underBinder +onlyGivenNames v1
    have h2 : Keeps s v1 := by
      unfold v1
      exact .trans (.trans ((State.setTile_keeps ..)) (State.zeroApp_keeps ..)) (State.event_keeps ..)
    clear_value v1
    split
    · exact .trans (.trans h2 (State.setTile_keeps ..)) (State.setFlag_keeps ..)
    · exact h2
  · exact Keeps.refl _

theorem State.tlkCtrlWrite_keeps (s : State) (v : Word) :
    Keeps s (s.tlkCtrlWrite v) := by
  unfold State.tlkCtrlWrite
  extract_lets -merge -useContext -underBinder +onlyGivenNames v0
  have h1 : Keeps s v0 := by
    unfold v0
    exact (State.store_keeps ..)
  clear_value v0
  split
  · extract_lets -merge -useContext -underBinder +onlyGivenNames v2
    have h3 : Keeps s v2 := by
      unfold v2
      exact .trans h1 (State.noteArm_keeps ..)
    refine Keeps.of_mk ?_ rfl rfl (Nat.le_refl _) rfl rfl rfl rfl rfl rfl
    exact h3
  · exact h1

theorem execTlkArm_keeps (b : BusWrite) (s : State) :
    KeepsOut s (execTlkArm b s) := by
  unfold execTlkArm
  refine KeepsOut.next ?_
  refine Keeps.trans ?_ (State.busWrite_keeps (heff := fun y0 _ => ?_) ..)
  · exact Keeps.refl _
  · exact (State.tlkCtrlWrite_keeps ..)

theorem State.commitTlk_keeps (s : State) :
    Keeps s (s.commitTlk) := by
  unfold State.commitTlk
  split
  · extract_lets -merge -useContext -underBinder +onlyGivenNames v0 v1 v2 x4 v3
    try clear_value v2; try clear_value v1; try clear_value v0
    have h5 : Keeps s v3 := by
      unfold v3
      refine Keeps.of_mk ?_ rfl rfl (Nat.le_refl _) rfl rfl rfl rfl rfl rfl
      exact Keeps.refl _
    clear_value v3
    refine Keeps.trans ?_ (State.eachTile_keeps (hf := fun y6 _ => ?_) ..)
    · exact h5
    · extract_lets -merge -useContext -underBinder +onlyGivenNames v7
      try clear_value v7
      split
      · exact Keeps.refl _
      · exact (State.tileCommand_keeps ..)
  · exact Keeps.refl _

theorem State.tlkCntClr_keeps (s : State) (v : Word) :
    Keeps s (s.tlkCntClr v) := by
  unfold State.tlkCntClr
  split
  · exact .trans (.trans ((State.clrRegs_keeps ..)) (State.clrRegs_keeps ..)) (State.clrRegs_keeps ..)
  · exact Keeps.refl _

theorem execTlkCntClr_keeps (b : BusWrite) (s : State) :
    KeepsOut s (execTlkCntClr b s) := by
  unfold execTlkCntClr
  refine KeepsOut.next ?_
  refine Keeps.trans ?_ (State.busWrite_keeps (heff := fun y0 _ => ?_) ..)
  · exact Keeps.refl _
  · exact (State.tlkCntClr_keeps ..)

theorem State.jxsReason_keeps (s : State) (bs : List Byte) :
    Keeps s (s.jxsReason bs).1 := by
  unfold State.jxsReason
  split
  · exact Keeps.refl _
  · exact (State.drawn_keeps ..)

theorem State.manifestPacket_keeps (s : State) (bs : List (BitVec 64)) :
    Keeps s (s.manifestPacket bs) := by
  unfold State.manifestPacket
  extract_lets -merge -useContext -underBinder +onlyGivenNames v0
  try clear_value v0
  split
  · refine Keeps.of_mk ?_ rfl rfl (Nat.le_refl _) rfl rfl rfl rfl rfl rfl
    exact Keeps.refl _
  · exact .trans ((State.setFld_keeps ..)) (State.event_keeps ..)

theorem State.chooseManifest_keeps (s : State) (t : Nat) :
    Keeps s (s.chooseManifest t) := by
  unfold State.chooseManifest
  extract_lets -merge -useContext -underBinder +onlyGivenNames v0
  try clear_value v0
  split
  · refine Keeps.of_mk ?_ rfl rfl (Nat.le_refl _) rfl rfl rfl rfl rfl rfl
    exact Keeps.refl _
  · refine Keeps.trans ?_ (State.bump_keeps ..)
    refine Keeps.of_mk ?_ rfl rfl (Nat.le_refl _) rfl rfl rfl rfl rfl rfl
    exact Keeps.refl _

theorem State.setDir_keeps (s : State) (key : Nat) (e : DirEntry) :
    Keeps s (s.setDir key e) := by
  unfold State.setDir
  extract_lets -merge -useContext -underBinder +onlyGivenNames v0
  have h1 : Keeps s v0 := by
    unfold v0
    exact (State.noteSram_keeps ..)
  refine Keeps.of_mk ?_ rfl rfl (Nat.le_refl _) rfl rfl rfl rfl rfl rfl
  exact h1

theorem State.invalidateAll_keeps (s : State) :
    Keeps s (s.invalidateAll) := by
  unfold State.invalidateAll
  refine Keeps.of_mk ?_ rfl rfl (Nat.le_refl _) rfl rfl rfl rfl rfl rfl
  exact Keeps.refl _

theorem State.manifestInForce_keeps (s : State) (m : Manifest) (mask : BitVec 16) :
    Keeps s (s.manifestInForce m mask) := by
  unfold State.manifestInForce
  extract_lets -merge -useContext -underBinder +onlyGivenNames v0 v1 v2
  try clear_value v2; try clear_value v1; try clear_value v0
  refine Keeps.of_mk ?_ rfl rfl (Nat.le_refl _) rfl rfl rfl rfl rfl rfl
  exact Keeps.refl _

theorem State.setDecoder_keeps (s : State) (d : Nat) (v : Decoder) :
    Keeps s (s.setDecoder d v) := by
  unfold State.setDecoder
  refine Keeps.of_mk ?_ rfl rfl (Nat.le_refl _) rfl rfl rfl rfl rfl rfl
  exact Keeps.refl _

theorem State.decRefill_keeps (s : State) (d : Nat) :
    Keeps s (s.decRefill d) := by
  unfold State.decRefill
  split
  · exact Keeps.refl _
  · split
    · exact Keeps.refl _
    · extract_lets -merge -useContext -underBinder +onlyGivenNames v0
      have h1 : Keeps s v0 := by
        unfold v0
        exact (State.setDecoder_keeps ..)
      refine Keeps.of_mk ?_ rfl rfl (Nat.le_refl _) rfl rfl rfl rfl rfl rfl
      exact h1

theorem State.dropSlice_keeps (s : State) (sl : Slice) :
    Keeps s (s.dropSlice sl) := by
  unfold State.dropSlice
  extract_lets -merge -useContext -underBinder +onlyGivenNames v0 v1
  try clear_value v1; try clear_value v0
  refine Keeps.of_mk ?_ rfl rfl (Nat.le_refl _) rfl rfl rfl rfl rfl rfl
  exact Keeps.refl _

theorem State.swapSlice_keeps (s : State) (sl : Slice) (sl' : Slice) :
    Keeps s (s.swapSlice sl sl') := by
  unfold State.swapSlice
  extract_lets -merge -useContext -underBinder +onlyGivenNames v0 v1
  try clear_value v1; try clear_value v0
  refine Keeps.of_mk ?_ rfl rfl (Nat.le_refl _) rfl rfl rfl rfl rfl rfl
  exact Keeps.refl _

theorem State.rejectSlice_keeps (s : State) (sl : Slice) (reason : Nat) :
    Keeps s (s.rejectSlice sl reason) := by
  unfold State.rejectSlice
  extract_lets -merge -useContext -underBinder +onlyGivenNames v0 v1
  try clear_value v0
  have h2 : Keeps s v1 := by
    unfold v1
    exact (State.bump_keeps ..)
  clear_value v1
  extract_lets -merge -useContext -underBinder +onlyGivenNames v3
  have h4 : Keeps s v3 := by
    unfold v3
    exact .trans h2 (State.setReg_keeps ..)
  clear_value v3
  extract_lets -merge -useContext -underBinder +onlyGivenNames v5
  have h6 : Keeps s v5 := by
    unfold v5
    exact .trans h4 (State.setReg_keeps ..)
  clear_value v5
  exact .trans (.trans h6 (State.event_keeps ..)) (State.dropSlice_keeps ..)

theorem State.abandonSlice_keeps (s : State) (sl : Slice) :
    Keeps s (s.abandonSlice sl) := by
  unfold State.abandonSlice
  exact .trans ((State.bump_keeps ..)) (State.dropSlice_keeps ..)

theorem State.sliceLoss_keeps (s : State) (stream : Nat) (seq : Nat) :
    Keeps s (s.sliceLoss stream seq) := by
  unfold State.sliceLoss
  split
  · extract_lets -merge -useContext -underBinder +onlyGivenNames v0
    try clear_value v0
    split
    · exact Keeps.refl _
    · exact (State.abandonSlice_keeps ..)
  · exact Keeps.refl _

theorem State.slicePart0_keeps (s : State) (stream : Nat) (dest : Nat) (p : SlicePart) :
    Keeps s (s.slicePart0 stream dest p) := by
  unfold State.slicePart0
  extract_lets -merge -useContext -underBinder +onlyGivenNames v0
  have h1 : Keeps s v0 := by
    unfold v0
    refine Keeps.foldl ?_ (fun y2 _ => ?_)
    · exact Keeps.refl _
    · exact (State.abandonSlice_keeps ..)
  clear_value v0
  extract_lets -merge -useContext -underBinder +onlyGivenNames v3 v4 v5
  try clear_value v4; try clear_value v3
  have h6 : Keeps s v5 := by
    unfold v5
    exact .trans h1 (State.bump_keeps ..)
  clear_value v5
  split
  · exact h6
  · split
    · exact h6
    · split
      · exact h6
      · extract_lets -merge -useContext -underBinder +onlyGivenNames v7 v8
        try clear_value v7
        have h9 : Keeps s v8 := by
          unfold v8
          refine Keeps.foldl ?_ (fun y10 _ => ?_)
          · exact h1
          · exact (State.decRefill_keeps ..)
        clear_value v8
        extract_lets -merge -useContext -underBinder +onlyGivenNames v11
        have h12 : KeepsOpt s v11 := by
          unfold v11
          split
          · refine KeepsOpt.some ?_
            exact .trans h9 (State.setDecoder_keeps ..)
          · split
            · refine KeepsOpt.some ?_
              refine Keeps.of_mk ?_ rfl rfl (Nat.le_refl _) rfl rfl rfl rfl rfl rfl
              exact h9
            · exact KeepsOpt.none
        clear_value v11
        split
        · split
          · exact .trans (h12.of_some _ rfl) (State.rejectSlice_keeps ..)
          · exact h12.of_some _ rfl
        · exact .trans (.trans h9 (State.bump_keeps ..)) (State.event_keeps ..)

theorem State.slicePartK_keeps (s : State) (stream : Nat) (p : SlicePart) :
    Keeps s (s.slicePartK stream p) := by
  unfold State.slicePartK
  split
  · extract_lets -merge -useContext -underBinder +onlyGivenNames v0
    try clear_value v0
    split
    · exact (State.rejectSlice_keeps ..)
    · exact (State.swapSlice_keeps ..)
  · exact Keeps.refl _

theorem State.slicePacket_keeps (s : State) (stream : Nat) (dest : Nat) (seq : Nat) (last : Bool) (bs : List (BitVec 64)) :
    Keeps s (s.slicePacket stream dest seq last bs) := by
  unfold State.slicePacket
  split
  · exact Keeps.refl _
  · extract_lets -merge -useContext -underBinder +onlyGivenNames v0 v1
    try clear_value v1; try clear_value v0
    split
    · exact (State.slicePart0_keeps ..)
    · exact (State.slicePartK_keeps ..)

theorem State.decodeWrite_keeps (s : State) (d : Nat) (sl : Slice) (g : Nat) :
    Keeps s (s.decodeWrite d sl g) := by
  unfold State.decodeWrite
  extract_lets -merge -useContext -underBinder +onlyGivenNames v0 v1 v2 x4 v3
  try clear_value v2; try clear_value v1; try clear_value v0
  have h5 : Keeps s v3 := by
    unfold v3
    exact (State.setDir_keeps ..)
  clear_value v3
  extract_lets -merge -useContext -underBinder +onlyGivenNames v6
  have h7 : Keeps s v6 := by
    unfold v6
    exact .trans h5 (State.devWrite_keeps ..)
  clear_value v6
  split
  · exact .trans h7 (State.rejectSlice_keeps ..)
  · exact .trans h7 (State.setDecoder_keeps ..)

theorem execDecoderStart_keeps (decoder : Fin 4) (s : State) :
    KeepsOut s (execDecoderStart decoder s) := by
  unfold execDecoderStart
  extract_lets -merge -useContext -underBinder +onlyGivenNames v0 v1 v2
  try clear_value v2; try clear_value v1; try clear_value v0
  split
  · split
    · refine KeepsOut.next ?_
      exact (State.decodeWrite_keeps ..)
    · refine KeepsOut.next ?_
      exact Keeps.refl _
  · split
    · refine KeepsOut.next ?_
      exact Keeps.refl _
    · extract_lets -merge -useContext -underBinder +onlyGivenNames v3 v4 v5 v6 v7 x9 v8 v10 v11
      try clear_value v11; try clear_value v10; try clear_value v8; try clear_value v7; try clear_value v6; try clear_value v5; try clear_value v4; try clear_value v3
      split
      · refine KeepsOut.next ?_
        exact .trans ((State.bump_keeps ..)) (State.dropSlice_keeps ..)
      · split
        · refine KeepsOut.next ?_
          exact .trans ((State.bump_keeps ..)) (State.dropSlice_keeps ..)
        · extract_lets -merge -useContext -underBinder +onlyGivenNames v12
          have h13 : Keeps s v12.1 := by
            unfold v12
            exact (State.jxsReason_keeps ..)
          clear_value v12
          split
          · refine KeepsOut.next ?_
            exact .trans h13 (State.rejectSlice_keeps ..)
          · split
            · refine KeepsOut.next ?_
              exact (State.setDecoder_keeps ..)
            · refine KeepsOut.next ?_
              exact (State.decodeWrite_keeps ..)
  · refine KeepsOut.next ?_
    exact Keeps.refl _

theorem execDecoderAssign_keeps (decoder : Fin 4) (s : State) :
    KeepsOut s (execDecoderAssign decoder s) := by
  unfold execDecoderAssign
  split
  · refine KeepsOut.next ?_
    exact (State.decRefill_keeps ..)
  · refine KeepsOut.next ?_
    exact Keeps.refl _

theorem execFlushAck_keeps (decoder : Fin 4) (s : State) :
    KeepsOut s (execFlushAck decoder s) := by
  unfold execFlushAck
  extract_lets -merge -useContext -underBinder +onlyGivenNames v0
  try clear_value v0
  split
  · split
    · refine KeepsOut.next ?_
      exact (State.setDecoder_keeps ..)
    · refine KeepsOut.next ?_
      exact Keeps.refl _
  · refine KeepsOut.next ?_
    exact Keeps.refl _

theorem execPublish_keeps (decoder : Fin 4) (s : State) :
    KeepsOut s (execPublish decoder s) := by
  unfold execPublish
  extract_lets -merge -useContext -underBinder +onlyGivenNames v0 v1
  try clear_value v1; try clear_value v0
  split
  · split
    · extract_lets -merge -useContext -underBinder +onlyGivenNames v2 v3 v4 v5 v6 x8 v7 v9
      try clear_value v7; try clear_value v6; try clear_value v5; try clear_value v4; try clear_value v3; try clear_value v2
      have h10 : Keeps s v9 := by
        unfold v9
        exact .trans (.trans ((State.setDir_keeps ..)) (State.setDecoder_keeps ..)) (State.bump_keeps ..)
      clear_value v9
      extract_lets -merge -useContext -underBinder +onlyGivenNames v11 v12
      try clear_value v11
      have h13 : Keeps s v12 := by
        unfold v12
        exact .trans h10 (State.dropCached_keeps ..)
      clear_value v12
      refine KeepsOut.next ?_
      split
      · exact .trans h13 (State.bump_keeps ..)
      · exact h13
    · refine KeepsOut.next ?_
      exact Keeps.refl _
  · refine KeepsOut.next ?_
    exact Keeps.refl _

theorem execSliceDeadline_keeps (layer : Fin 16) (col : Fin 1024) (row : Fin 1024) (s : State) :
    KeepsOut s (execSliceDeadline layer col row s) := by
  unfold execSliceDeadline
  split
  · extract_lets -merge -useContext -underBinder +onlyGivenNames v0 v1
    try clear_value v1; try clear_value v0
    split
    · extract_lets -merge -useContext -underBinder +onlyGivenNames v2
      try clear_value v2
      split
      · refine KeepsOut.next ?_
        exact (State.setDir_keeps ..)
      · extract_lets -merge -useContext -underBinder +onlyGivenNames v3 v4 v5
        try clear_value v4; try clear_value v3
        have h6 : Keeps s v5 := by
          unfold v5
          exact (State.setDir_keeps ..)
        clear_value v5
        extract_lets -merge -useContext -underBinder +onlyGivenNames v7
        have h8 : Keeps s v7 := by
          unfold v7
          exact .trans (.trans h6 (State.bump_keeps ..)) (State.event_keeps ..)
        clear_value v7
        refine KeepsOut.next ?_
        split
        · exact .trans h8 (State.event_keeps ..)
        · exact h8
    · refine KeepsOut.next ?_
      exact Keeps.refl _
  · refine KeepsOut.next ?_
    exact Keeps.refl _

theorem State.openDeadlines_keeps (s : State) :
    Keeps s (s.openDeadlines) := by
  unfold State.openDeadlines
  refine Keeps.of_mk ?_ rfl rfl (Nat.le_refl _) rfl rfl rfl rfl rfl rfl
  exact Keeps.refl _

theorem State.abandonDecoding_keeps (s : State) :
    Keeps s (s.abandonDecoding) := by
  unfold State.abandonDecoding
  refine Keeps.foldl ?_ (fun y0 _ => ?_)
  · exact Keeps.refl _
  · split
    · exact Keeps.refl _
    · exact .trans ((State.setDecoder_keeps ..)) (State.bump_keeps ..)
    · exact Keeps.refl _

theorem State.directRayPacket_keeps (s : State) (bs : List (BitVec 64)) (tA : Nat) :
    Keeps s (s.directRayPacket bs tA) := by
  unfold State.directRayPacket
  extract_lets -merge -useContext -underBinder +onlyGivenNames v0
  try clear_value v0
  split
  · exact (State.bump_keeps ..)
  · split
    · exact (State.bump_keeps ..)
    · extract_lets -merge -useContext -underBinder +onlyGivenNames v1
      try clear_value v1
      split
      · exact (State.bump_keeps ..)
      · refine Keeps.of_mk ?_ rfl rfl (Nat.le_refl _) rfl rfl rfl rfl rfl rfl
        exact Keeps.refl _

theorem State.decStoreWrite_keeps (s : State) (v : Word) :
    Keeps s (s.decStoreWrite v) := by
  unfold State.decStoreWrite
  extract_lets -merge -useContext -underBinder +onlyGivenNames v0
  try clear_value v0
  split
  · exact Keeps.refl _
  · extract_lets -merge -useContext -underBinder +onlyGivenNames v1 v2
    try clear_value v1
    have h3 : Keeps s v2 := by
      unfold v2
      exact (State.store_keeps ..)
    clear_value v2
    split
    · exact h3
    · exact .trans h3 (State.invalidateAll_keeps ..)

theorem execDecStoreWrite_keeps (b : BusWrite) (s : State) :
    KeepsOut s (execDecStoreWrite b s) := by
  unfold execDecStoreWrite
  refine KeepsOut.next ?_
  refine Keeps.trans ?_ (State.busWrite_keeps (heff := fun y0 _ => ?_) ..)
  · exact Keeps.refl _
  · exact (State.decStoreWrite_keeps ..)

theorem State.decCntClr_keeps (s : State) (v : Word) :
    Keeps s (s.decCntClr v) := by
  unfold State.decCntClr
  split
  · exact (State.clrRegs_keeps ..)
  · exact Keeps.refl _

theorem execDecCntClr_keeps (b : BusWrite) (s : State) :
    KeepsOut s (execDecCntClr b s) := by
  unfold execDecCntClr
  refine KeepsOut.next ?_
  refine Keeps.trans ?_ (State.busWrite_keeps (heff := fun y0 _ => ?_) ..)
  · exact Keeps.refl _
  · exact (State.decCntClr_keeps ..)

theorem State.correctExpress_keeps (s : State) :
    Keeps s (s.correctExpress) := by
  unfold State.correctExpress
  refine Keeps.of_mk ?_ rfl rfl (Nat.le_refl _) rfl rfl rfl rfl rfl rfl
  exact Keeps.refl _

theorem State.cacheFill_keeps (s : State) (hr : Nat) (x : CacheLine) :
    Keeps s (s.cacheFill hr x) := by
  unfold State.cacheFill
  extract_lets -merge -useContext -underBinder +onlyGivenNames v0 v1 v2
  try clear_value v1; try clear_value v0
  have h3 : Keeps s v2 := by
    unfold v2
    split
    · exact Keeps.refl _
    · exact (State.drawn_keeps ..)
  clear_value v2
  extract_lets -merge -useContext -underBinder +onlyGivenNames v4
  try clear_value v4
  refine Keeps.of_mk ?_ rfl rfl (Nat.le_refl _) rfl rfl rfl rfl rfl rfl
  exact h3

theorem State.sampleLine_keeps (s : State) (hr : Nat) (plane : Bool) (ln : Nat) :
    Keeps s (s.sampleLine hr plane ln).1 := by
  unfold State.sampleLine
  split
  · exact Keeps.refl _
  · extract_lets -merge -useContext -underBinder +onlyGivenNames v0
    have h1 : Keeps s v0.1 := by
      unfold v0
      exact .trans ((State.bump_keeps ..)) (State.devRead_keeps ..)
    clear_value v0
    split
    · exact .trans h1 (State.cacheFill_keeps ..)
    · exact h1

theorem State.tap_keeps (s : State) (hr : Nat) (b : RowLatch) (e : StackEntry) (i : Int) (j : Int) :
    Keeps s (s.tap hr b e i j).1 := by
  unfold State.tap
  split
  · exact Keeps.refl _
  · extract_lets -merge -useContext -underBinder +onlyGivenNames v0
    have h1 : Keeps s v0.1 := by
      unfold v0
      exact (State.sampleLine_keeps ..)
    clear_value v0
    extract_lets -merge -useContext -underBinder +onlyGivenNames v2
    have h3 : Keeps s v2.1 := by
      unfold v2
      split
      · exact h1
      · exact .trans h1 (State.sampleLine_keeps ..)
    clear_value v2
    split
    · exact h3
    · exact h3

theorem State.sampleRay_keeps (s : State) (hr : Nat) (b : RowLatch) (e : StackEntry) (px : Word) (py : Word) (sg : Word) (ta : Word) :
    Keeps s (s.sampleRay hr b e px py sg ta).1 := by
  unfold State.sampleRay
  extract_lets -merge -useContext -underBinder +onlyGivenNames v0 v1 v2 v3 v4 v5
  try clear_value v4; try clear_value v3; try clear_value v2; try clear_value v1; try clear_value v0
  have h6 : Keeps s v5.1 := by
    unfold v5
    exact (State.tap_keeps ..)
  clear_value v5
  extract_lets -merge -useContext -underBinder +onlyGivenNames v7
  have h8 : Keeps s v7.1 := by
    unfold v7
    exact .trans h6 (State.tap_keeps ..)
  clear_value v7
  extract_lets -merge -useContext -underBinder +onlyGivenNames v9
  have h10 : Keeps s v9.1 := by
    unfold v9
    exact .trans h8 (State.tap_keeps ..)
  clear_value v9
  extract_lets -merge -useContext -underBinder +onlyGivenNames v11
  have h12 : Keeps s v11.1 := by
    unfold v11
    exact .trans h10 (State.tap_keeps ..)
  clear_value v11
  exact h12

theorem State.setT_keeps (s : State) (i : Nat) (v : Nat) :
    Keeps s (s.setT i v) := by
  unfold State.setT
  refine Keeps.of_mk ?_ rfl rfl (Nat.le_refl _) rfl rfl rfl rfl rfl rfl
  exact Keeps.refl _

theorem State.seqFault_keeps (s : State) (cause : Nat) :
    Keeps s (s.seqFault cause) := by
  unfold State.seqFault
  extract_lets -merge -useContext -underBinder +onlyGivenNames v0
  have h1 : Keeps s v0 := by
    unfold v0
    exact .trans (.trans ((State.setFld_keeps ..)) (State.setFlag_keeps ..)) (State.event_keeps ..)
  clear_value v0
  refine Keeps.of_mk ?_ rfl rfl (Nat.le_refl _) rfl rfl rfl rfl rfl rfl
  exact h1

theorem State.seqPc_keeps (s : State) (pc : Nat) :
    Keeps s (s.seqPc pc) := by
  unfold State.seqPc
  refine Keeps.of_mk ?_ rfl rfl (Nat.le_refl _) rfl rfl rfl rfl rfl rfl
  exact Keeps.refl _

theorem State.seqSt_keeps (s : State) (st : SeqSt) :
    Keeps s (s.seqSt st) := by
  unfold State.seqSt
  refine Keeps.of_mk ?_ rfl rfl (Nat.le_refl _) rfl rfl rfl rfl rfl rfl
  exact Keeps.refl _

theorem State.seqIssue_keeps (s : State) (p : TShape) (w : SlateWord) (bad : Bool) (f : State → State) (hf : ∀ y0, Keeps y0 (f y0)) :
    KeepsOut s (s.seqIssue p w bad f) := by
  unfold State.seqIssue
  split
  · split
    · refine KeepsOut.next ?_
      exact (State.seqFault_keeps ..)
    · split
      · refine KeepsOut.next ?_
        exact Keeps.refl _
      · split
        · refine KeepsOut.next ?_
          exact (State.seqFault_keeps ..)
        · split
          · refine KeepsOut.next ?_
            exact (State.seqFault_keeps ..)
          · refine KeepsOut.next ?_
            exact .trans ((State.seqPc_keeps ..)) (hf ..)
  · refine KeepsOut.next ?_
    exact Keeps.refl _

theorem State.seqWait_keeps (s : State) (at_ : Nat) (x : SeqWait) :
    Keeps s (s.seqWait at_ x) := by
  unfold State.seqWait
  exact .trans ((State.seqPc_keeps ..)) (State.seqSt_keeps ..)

theorem State.seqDone_keeps (s : State) :
    Keeps s (s.seqDone) := by
  unfold State.seqDone
  exact .trans ((State.seqPc_keeps ..)) (State.seqSt_keeps ..)

theorem execSlateTNop_keeps (w : SlateWord) (s : State) :
    KeepsOut s (execSlateTNop w s) := by
  unfold execSlateTNop
  refine KeepsOut.trans ?_ (State.seqIssue_keeps (hf := fun y0 => ?_) ..)
  · exact Keeps.refl _
  · exact Keeps.refl _

theorem State.tAlu_keeps (s : State) (w : SlateWord) (opc : BitVec 8) (f : Nat → Nat → Nat) :
    KeepsOut s (s.tAlu w opc f) := by
  unfold State.tAlu
  refine KeepsOut.trans ?_ (State.seqIssue_keeps (hf := fun y0 => ?_) ..)
  · exact Keeps.refl _
  · exact (State.setT_keeps ..)

theorem execSet_keeps (w : SlateWord) (s : State) :
    KeepsOut s (execSet w s) := by
  unfold execSet
  refine KeepsOut.trans ?_ (State.seqIssue_keeps (hf := fun y0 => ?_) ..)
  · exact Keeps.refl _
  · exact (State.setT_keeps ..)

theorem execAdd_keeps (w : SlateWord) (s : State) :
    KeepsOut s (execAdd w s) := by
  unfold execAdd
  refine KeepsOut.trans ?_ (State.tAlu_keeps ..)
  exact Keeps.refl _

theorem execSub_keeps (w : SlateWord) (s : State) :
    KeepsOut s (execSub w s) := by
  unfold execSub
  refine KeepsOut.trans ?_ (State.tAlu_keeps ..)
  exact Keeps.refl _

theorem execAnd_keeps (w : SlateWord) (s : State) :
    KeepsOut s (execAnd w s) := by
  unfold execAnd
  refine KeepsOut.trans ?_ (State.tAlu_keeps ..)
  exact Keeps.refl _

theorem execOr_keeps (w : SlateWord) (s : State) :
    KeepsOut s (execOr w s) := by
  unfold execOr
  refine KeepsOut.trans ?_ (State.tAlu_keeps ..)
  exact Keeps.refl _

theorem execShr_keeps (w : SlateWord) (s : State) :
    KeepsOut s (execShr w s) := by
  unfold execShr
  refine KeepsOut.trans ?_ (State.tAlu_keeps ..)
  exact Keeps.refl _

theorem execSlateTBr_keeps (w : SlateWord) (s : State) :
    KeepsOut s (execSlateTBr w s) := by
  unfold execSlateTBr
  extract_lets -merge -useContext -underBinder +onlyGivenNames v0 v1
  try clear_value v1; try clear_value v0
  refine KeepsOut.trans ?_ (State.seqIssue_keeps (hf := fun y2 => ?_) ..)
  · exact Keeps.refl _
  · extract_lets -merge -useContext -underBinder +onlyGivenNames v3
    try clear_value v3
    split
    · extract_lets -merge -useContext -underBinder +onlyGivenNames v4
      try clear_value v4
      split
      · exact .trans ((State.seqPc_keeps ..)) (State.seqFault_keeps ..)
      · exact (State.seqPc_keeps ..)
    · exact Keeps.refl _

theorem execWaitrow_keeps (w : SlateWord) (s : State) :
    KeepsOut s (execWaitrow w s) := by
  unfold execWaitrow
  extract_lets -merge -useContext -underBinder +onlyGivenNames v0
  try clear_value v0
  refine KeepsOut.trans ?_ (State.seqIssue_keeps (hf := fun y1 => ?_) ..)
  · exact Keeps.refl _
  · split
    · exact Keeps.refl _
    · exact (State.seqWait_keeps ..)

theorem execWaitbell_keeps (w : SlateWord) (s : State) :
    KeepsOut s (execWaitbell w s) := by
  unfold execWaitbell
  refine KeepsOut.trans ?_ (State.seqIssue_keeps (hf := fun y0 => ?_) ..)
  · exact Keeps.refl _
  · exact (State.seqWait_keeps ..)

theorem State.seqSlotBegins_keeps (s : State) (k : Nat) :
    Keeps s (s.seqSlotBegins k) := by
  unfold State.seqSlotBegins
  split
  · split
    · exact (State.seqDone_keeps ..)
    · exact Keeps.refl _
  · exact Keeps.refl _

theorem State.seqBell_keeps (s : State) (wallTime : Nat) :
    Keeps s (s.seqBell wallTime) := by
  unfold State.seqBell
  split
  · exact .trans ((State.setT_keeps ..)) (State.seqDone_keeps ..)
  · exact Keeps.refl _

theorem State.dispatchRows_keeps (s : State) (at_ : Nat) (entry : Nat) (row : Nat) (count : Nat) (frame : Nat) :
    Keeps s (s.dispatchRows at_ entry row count frame) := by
  unfold State.dispatchRows
  extract_lets -merge -useContext -underBinder +onlyGivenNames v0 x2 v1
  try clear_value v0
  have h3 : Keeps s v1 := by
    unfold v1
    refine Keeps.of_mk ?_ rfl rfl (Nat.le_refl _) rfl rfl rfl rfl rfl rfl
    exact Keeps.refl _
  clear_value v1
  split
  · exact .trans (.trans h3 (State.seqPc_keeps ..)) (State.seqSt_keeps ..)
  · exact .trans h3 (State.seqWait_keeps ..)

theorem execDispatch_keeps (w : SlateWord) (s : State) :
    KeepsOut s (execDispatch w s) := by
  unfold execDispatch
  extract_lets -merge -useContext -underBinder +onlyGivenNames v0 v1 v2
  try clear_value v2; try clear_value v1; try clear_value v0
  refine KeepsOut.trans ?_ (State.seqIssue_keeps (hf := fun y3 => ?_) ..)
  · exact Keeps.refl _
  · exact (State.dispatchRows_keeps ..)

theorem State.dispatchOn_keeps (s : State) :
    Keeps s (s.dispatchOn) := by
  unfold State.dispatchOn
  split
  · exact (State.dispatchRows_keeps ..)
  · exact Keeps.refl _

theorem State.dispatchRow_keeps (s : State) (f : Nat) (r : Nat) (blank : Bool) :
    Keeps s (s.dispatchRow f r blank).1 := by
  unfold State.dispatchRow
  extract_lets -merge -useContext -underBinder +onlyGivenNames v0 v1 x3 v2
  try clear_value v1; try clear_value v0
  have h4 : Keeps s v2 := by
    unfold v2
    refine Keeps.trans ?_ (State.bump_keeps ..)
    refine Keeps.of_mk ?_ rfl rfl (Nat.le_refl _) rfl rfl rfl rfl rfl rfl
    exact Keeps.refl _
  clear_value v2
  split
  · exact .trans h4 (State.dispatchOn_keeps ..)
  · exact .trans (.trans h4 (State.bump_keeps ..)) (State.dispatchOn_keeps ..)

theorem execBindl_keeps (w : SlateWord) (s : State) :
    KeepsOut s (execBindl w s) := by
  unfold execBindl
  refine KeepsOut.trans ?_ (State.seqIssue_keeps (hf := fun y0 => ?_) ..)
  · exact Keeps.refl _
  · refine Keeps.of_mk ?_ rfl rfl (Nat.le_refl _) rfl rfl rfl rfl rfl rfl
    exact Keeps.refl _

theorem State.commitLate_keeps (s : State) :
    Keeps s (s.commitLate) := by
  unfold State.commitLate
  exact .trans (.trans ((State.setFlag_keeps ..)) (State.bump_keeps ..)) (State.event_keeps ..)

theorem execMode_keeps (w : SlateWord) (s : State) :
    KeepsOut s (execMode w s) := by
  unfold execMode
  extract_lets -merge -useContext -underBinder +onlyGivenNames v0
  try clear_value v0
  refine KeepsOut.trans ?_ (State.seqIssue_keeps (hf := fun y1 => ?_) ..)
  · exact Keeps.refl _
  · split
    · extract_lets -merge -useContext -underBinder +onlyGivenNames v2
      have h3 : Keeps y1 v2 := by
        unfold v2
        exact (State.commitLate_keeps ..)
      refine Keeps.of_mk ?_ rfl rfl (Nat.le_refl _) rfl rfl rfl rfl rfl rfl
      exact h3
    · refine Keeps.of_mk ?_ rfl rfl (Nat.le_refl _) rfl rfl rfl rfl rfl rfl
      exact Keeps.refl _

theorem State.takeMsg_keeps (s : State) (d : Nat) (m : EngMsg) :
    Keeps s (s.takeMsg d m) := by
  unfold State.takeMsg
  exact .trans (.trans ((State.setT_keeps ..)) (State.setT_keeps ..)) (State.setT_keeps ..)

theorem execRcvm_keeps (w : SlateWord) (s : State) :
    KeepsOut s (execRcvm w s) := by
  unfold execRcvm
  extract_lets -merge -useContext -underBinder +onlyGivenNames v0
  try clear_value v0
  refine KeepsOut.trans ?_ (State.seqIssue_keeps (hf := fun y1 => ?_) ..)
  · exact Keeps.refl _
  · split
    · refine Keeps.trans ?_ (State.takeMsg_keeps ..)
      refine Keeps.of_mk ?_ rfl rfl (Nat.le_refl _) rfl rfl rfl rfl rfl rfl
      exact Keeps.refl _
    · split
      · exact (State.setT_keeps ..)
      · exact (State.seqWait_keeps ..)

theorem State.seqMessage_keeps (s : State) (m : EngMsg) :
    Keeps s (s.seqMessage m) := by
  unfold State.seqMessage
  split
  · exact Keeps.refl _
  · split
    · exact .trans ((State.takeMsg_keeps ..)) (State.seqDone_keeps ..)
    · refine Keeps.of_mk ?_ rfl rfl (Nat.le_refl _) rfl rfl rfl rfl rfl rfl
      exact Keeps.refl _

theorem execSignal_keeps (w : SlateWord) (s : State) :
    KeepsOut s (execSignal w s) := by
  unfold execSignal
  refine KeepsOut.trans ?_ (State.seqIssue_keeps (hf := fun y0 => ?_) ..)
  · exact Keeps.refl _
  · exact .trans ((State.setFld_keeps ..)) (State.event_keeps ..)

theorem State.seqCtrlWrite_keeps (s : State) (v : Word) :
    Keeps s (s.seqCtrlWrite v) := by
  unfold State.seqCtrlWrite
  extract_lets -merge -useContext -underBinder +onlyGivenNames v0 v1
  try clear_value v0
  have h2 : Keeps s v1 := by
    unfold v1
    exact (State.store_keeps ..)
  clear_value v1
  extract_lets -merge -useContext -underBinder +onlyGivenNames v3 x5 v4
  try clear_value v3
  have h6 : Keeps s v4 := by
    unfold v4
    split
    · refine Keeps.of_mk ?_ rfl rfl (Nat.le_refl _) rfl rfl rfl rfl rfl rfl
      exact h2
    · exact h2
  clear_value v4
  split
  · refine Keeps.of_mk ?_ rfl rfl (Nat.le_refl _) rfl rfl rfl rfl rfl rfl
    exact h6
  · split
    · refine Keeps.of_mk ?_ rfl rfl (Nat.le_refl _) rfl rfl rfl rfl rfl rfl
      exact h6
    · split
      · extract_lets -merge -useContext -underBinder +onlyGivenNames v7
        try clear_value v7
        refine Keeps.of_mk ?_ rfl rfl (Nat.le_refl _) rfl rfl rfl rfl rfl rfl
        exact h6
      · exact h6

theorem execSeqEnWrite_keeps (b : BusWrite) (s : State) :
    KeepsOut s (execSeqEnWrite b s) := by
  unfold execSeqEnWrite
  refine KeepsOut.next ?_
  refine Keeps.trans ?_ (State.busWrite_keeps (heff := fun y0 _ => ?_) ..)
  · exact Keeps.refl _
  · exact (State.seqCtrlWrite_keeps ..)

theorem execSeqRestart_keeps (b : BusWrite) (s : State) :
    KeepsOut s (execSeqRestart b s) := by
  unfold execSeqRestart
  refine KeepsOut.next ?_
  refine Keeps.trans ?_ (State.busWrite_keeps (heff := fun y0 _ => ?_) ..)
  · exact Keeps.refl _
  · exact (State.seqCtrlWrite_keeps ..)

theorem execFreeRunEnWrite_keeps (b : BusWrite) (s : State) :
    KeepsOut s (execFreeRunEnWrite b s) := by
  unfold execFreeRunEnWrite
  refine KeepsOut.next ?_
  refine Keeps.trans ?_ (State.busWrite_keeps (heff := fun y0 _ => ?_) ..)
  · exact Keeps.refl _
  · exact (State.seqCtrlWrite_keeps ..)

theorem State.frameLoRead_keeps (s : State) (m : Nat) :
    Keeps s (s.frameLoRead m).1 := by
  unfold State.frameLoRead
  exact .trans (.trans ((State.latchWord_keeps ..)) (State.latchWord_keeps ..)) (State.latchWord_keeps ..)

theorem execSeqFrameLoRead_keeps (b : BusRead) (s : State) :
    KeepsOut s (execSeqFrameLoRead b s) := by
  unfold execSeqFrameLoRead
  refine KeepsOut.next ?_
  refine Keeps.trans ?_ (State.busRead_keeps (heff := fun y0 => ?_) ..)
  · exact Keeps.refl _
  · exact (State.frameLoRead_keeps ..)

theorem State.seqCntClr_keeps (s : State) (v : Word) :
    Keeps s (s.seqCntClr v) := by
  unfold State.seqCntClr
  split
  · exact (State.clrRegs_keeps ..)
  · exact Keeps.refl _

theorem execSeqCntClr_keeps (b : BusWrite) (s : State) :
    KeepsOut s (execSeqCntClr b s) := by
  unfold execSeqCntClr
  refine KeepsOut.next ?_
  refine Keeps.trans ?_ (State.busWrite_keeps (heff := fun y0 _ => ?_) ..)
  · exact Keeps.refl _
  · exact (State.seqCntClr_keeps ..)

theorem State.geoMarginWrite_keeps (s : State) (v : Word) :
    Keeps s (s.geoMarginWrite v) := by
  unfold State.geoMarginWrite
  extract_lets -merge -useContext -underBinder +onlyGivenNames v0
  have h1 : Keeps s v0 := by
    unfold v0
    exact (State.store_keeps ..)
  clear_value v0
  split
  · extract_lets -merge -useContext -underBinder +onlyGivenNames v2
    have h3 : Keeps s v2 := by
      unfold v2
      exact .trans h1 (State.noteArm_keeps ..)
    refine Keeps.of_mk ?_ rfl rfl (Nat.le_refl _) rfl rfl rfl rfl rfl rfl
    exact h3
  · exact h1

theorem execGeoMarginArm_keeps (b : BusWrite) (s : State) :
    KeepsOut s (execGeoMarginArm b s) := by
  unfold execGeoMarginArm
  refine KeepsOut.next ?_
  refine Keeps.trans ?_ (State.busWrite_keeps (heff := fun y0 _ => ?_) ..)
  · exact Keeps.refl _
  · exact (State.geoMarginWrite_keeps ..)

theorem State.commitGeo_keeps (s : State) :
    Keeps s (s.commitGeo) := by
  unfold State.commitGeo
  split
  · extract_lets -merge -useContext -underBinder +onlyGivenNames v0
    try clear_value v0
    refine Keeps.of_mk ?_ rfl rfl (Nat.le_refl _) rfl rfl rfl rfl rfl rfl
    exact Keeps.refl _
  · exact Keeps.refl _

theorem State.geoInForce_keeps (s : State) :
    Keeps s (s.geoInForce) := by
  unfold State.geoInForce
  split
  · refine Keeps.of_mk ?_ rfl rfl (Nat.le_refl _) rfl rfl rfl rfl rfl rfl
    exact Keeps.refl _
  · exact Keeps.refl _

end Sys2Proof.Machine
end

