-- ==== Sys2Proof/Laws/KeepsSlate.lean ====
section
/-!
SUPPORT. What `Keeps` says, of Slate and synthesis: one lemma per operation.
-/
namespace Sys2Proof.Machine

open Sys2Proof.Safety

theorem KeepsIssue.of_go {s t : State} {i : Issue} (h : KeepsIssue s i) (e : i = .go t) : Keeps s t := by
  rw [e] at h; exact h

theorem KeepsIssue.of_jump {s t : State} {i : Issue} {pc : Nat} (h : KeepsIssue s i) (e : i = .jump t pc) : Keeps s t := by
  rw [e] at h; exact h

theorem KeepsIssue.of_trap {s t : State} {i : Issue} {c : Nat} (h : KeepsIssue s i) (e : i = .trap t c) : Keeps s t := by
  rw [e] at h; exact h

theorem KeepsIssue.of_ended {s t : State} {i : Issue} (h : KeepsIssue s i) (e : i = .ended t) : Keeps s t := by
  rw [e] at h; exact h

theorem State.setThread_keeps (s : State) (k : Nat) (v : Thread) :
    Keeps s (s.setThread k v) := by
  unfold State.setThread
  refine Keeps.of_mk ?_ rfl rfl (Nat.le_refl _) rfl rfl rfl rfl rfl rfl
  exact Keeps.refl _

theorem State.setEngine_keeps (s : State) (k : Nat) (v : Engine) :
    Keeps s (s.setEngine k v) := by
  unfold State.setEngine
  refine Keeps.of_mk ?_ rfl rfl (Nat.le_refl _) rfl rfl rfl rfl rfl rfl
  exact Keeps.refl _

theorem State.homeWrite_keeps (s : State) (hr : Nat) (off : Nat) (ws : List Word) :
    Keeps s (s.homeWrite hr off ws) := by
  unfold State.homeWrite
  extract_lets -merge -useContext -underBinder +onlyGivenNames v0
  have h1 : Keeps s v0 := by
    unfold v0
    exact (State.noteSram_keeps ..)
  refine Keeps.of_mk ?_ rfl rfl (Nat.le_refl _) rfl rfl rfl rfl rfl rfl
  exact h1

theorem State.homeStore_keeps (s : State) (hr : Nat) (eng : Nat) (th : Nat) (off : Nat) (v : Word) :
    Keeps s (s.homeStore hr eng th off v) := by
  unfold State.homeStore
  refine Keeps.of_mk ?_ rfl rfl (Nat.le_refl _) rfl rfl rfl rfl rfl rfl
  exact Keeps.refl _

theorem State.homeFlush_keeps (s : State) (p : PendStore → Bool) :
    Keeps s (s.homeFlush p) := by
  unfold State.homeFlush
  extract_lets -merge -useContext -underBinder +onlyGivenNames v0 v1
  try clear_value v1; try clear_value v0
  refine Keeps.of_mk ?_ rfl rfl (Nat.le_refl _) rfl rfl rfl rfl rfl rfl
  exact Keeps.refl _

theorem State.streamRead_keeps (s : State) (master src n : Nat) : Keeps s (s.streamRead master src n).1 := by
  induction n with
  | zero => exact Keeps.refl _
  | succ n ih => exact ih.trans (State.devRead_keeps ..)

theorem State.streamDone_keeps (s : State) (hr : Nat) (x : Stream) :
    Keeps s (s.streamDone hr x).1 := by
  unfold State.streamDone
  extract_lets -merge -useContext -underBinder +onlyGivenNames v0
  have h1 : Keeps s v0.1 := by
    unfold v0
    exact (State.streamRead_keeps ..)
  clear_value v0
  exact h1

theorem State.streamLand_keeps (s : State) (hr : Nat) (eng : Nat) (x : Stream) :
    Keeps s (s.streamLand hr eng x) := by
  unfold State.streamLand
  extract_lets -merge -useContext -underBinder +onlyGivenNames x1 v0
  have h2 : Keeps s v0 := by
    unfold v0
    refine Keeps.of_mk ?_ rfl rfl (Nat.le_refl _) rfl rfl rfl rfl rfl rfl
    exact Keeps.refl _
  clear_value v0
  refine Keeps.foldl ?_ (fun y3 _ => ?_)
  · exact h2
  · split
    · exact Keeps.refl _
    · exact (State.homeWrite_keeps ..)

theorem State.launchChunk_keeps (s : State) (hr : Nat) (eng : Nat) (c : Chunk) :
    Keeps s (s.launchChunk hr eng c) := by
  unfold State.launchChunk
  extract_lets -merge -useContext -underBinder +onlyGivenNames v0 v1 v2
  try clear_value v1; try clear_value v0
  have h3 : Keeps s v2 := by
    unfold v2
    refine Keeps.foldl ?_ (fun y4 _ => ?_)
    · exact Keeps.refl _
    · exact (State.setThread_keeps ..)
  clear_value v2
  extract_lets -merge -useContext -underBinder +onlyGivenNames x6 v5
  have h7 : Keeps s v5 := by
    unfold v5
    exact .trans h3 (State.setEngine_keeps ..)
  clear_value v5
  exact .trans h7 (State.setFld_keeps ..)

theorem State.cancelChunk_keeps (s : State) (hr : Nat) (eng : Nat) :
    Keeps s (s.cancelChunk hr eng) := by
  unfold State.cancelChunk
  extract_lets -merge -useContext -underBinder +onlyGivenNames v0
  try clear_value v0
  split
  · exact Keeps.refl _
  · extract_lets -merge -useContext -underBinder +onlyGivenNames v1
    have h2 : Keeps s v1 := by
      unfold v1
      refine Keeps.foldl ?_ (fun y3 _ => ?_)
      · exact Keeps.refl _
      · extract_lets -merge -useContext -underBinder +onlyGivenNames v4
        have h5 : Keeps y3 v4 := by
          unfold v4
          refine Keeps.foldl ?_ (fun y6 _ => ?_)
          · exact Keeps.refl _
          · extract_lets -merge -useContext -underBinder +onlyGivenNames v7
            have h8 : Keeps y6 v7.1 := by
              unfold v7
              split
              · exact Keeps.refl _
              · exact (State.streamDone_keeps ..)
            clear_value v7
            exact .trans h8 (State.streamLand_keeps ..)
        clear_value v4
        exact .trans h5 (State.setThread_keeps ..)
    clear_value v1
    exact .trans (.trans h2 (State.setEngine_keeps ..)) (State.bump_keeps ..)

theorem State.endThread_keeps (s : State) (t : ThreadId) :
    Keeps s (s.endThread t) := by
  unfold State.endThread
  extract_lets -merge -useContext -underBinder +onlyGivenNames v0 v1
  try clear_value v0
  have h2 : Keeps s v1 := by
    unfold v1
    exact (State.setThread_keeps ..)
  clear_value v1
  extract_lets -merge -useContext -underBinder +onlyGivenNames v3 v4
  try clear_value v4; try clear_value v3
  split
  · exact .trans h2 (State.setEngine_keeps ..)
  · extract_lets -merge -useContext -underBinder +onlyGivenNames v5 v6 x8 v7
    try clear_value v6; try clear_value v5
    have h9 : Keeps s v7 := by
      unfold v7
      refine Keeps.of_mk ?_ rfl rfl (Nat.le_refl _) rfl rfl rfl rfl rfl rfl
      exact h2
    clear_value v7
    extract_lets -merge -useContext -underBinder +onlyGivenNames v10 x12 v11
    try clear_value v10
    have h13 : Keeps s v11 := by
      unfold v11
      refine Keeps.of_mk ?_ rfl rfl (Nat.le_refl _) rfl rfl rfl rfl rfl rfl
      exact h9
    clear_value v11
    exact .trans (.trans h13 (State.setEngine_keeps ..)) (State.bump_keeps ..)

theorem State.slateFault_keeps (s : State) (t : ThreadId) (cause : Nat) :
    Keeps s (s.slateFault t cause) := by
  unfold State.slateFault
  extract_lets -merge -useContext -underBinder +onlyGivenNames v0 v1
  try clear_value v0
  have h2 : Keeps s v1 := by
    unfold v1
    exact (State.latchFirst_keeps ..)
  clear_value v1
  exact .trans h2 (State.cancelChunk_keeps ..)

theorem execChunkLaunch_keeps (hr : Fin 12) (engine : Fin 16) (s : State) :
    KeepsOut s (execChunkLaunch hr engine s) := by
  unfold execChunkLaunch
  extract_lets -merge -useContext -underBinder +onlyGivenNames v0
  try clear_value v0
  split
  · split
    · refine KeepsOut.next ?_
      exact (State.launchChunk_keeps ..)
    · refine KeepsOut.next ?_
      exact Keeps.refl _
  · refine KeepsOut.next ?_
    exact Keeps.refl _

theorem State.issue_keeps (s : State) (t : ThreadId) (p : Shape) (w : SlateWord) (always : Bool) (eff : State → Thread → Issue) (heff : ∀ y0 y1, KeepsIssue y0 (eff y0 y1)) :
    KeepsOut s (s.issue t p w always eff) := by
  unfold State.issue
  extract_lets -merge -useContext -underBinder +onlyGivenNames v0
  try clear_value v0
  split
  · refine KeepsOut.next ?_
    exact Keeps.refl _
  · split
    · refine KeepsOut.next ?_
      exact (State.slateFault_keeps ..)
    · split
      · refine KeepsOut.next ?_
        exact Keeps.refl _
      · split
        · refine KeepsOut.next ?_
          exact (State.slateFault_keeps ..)
        · split
          · refine KeepsOut.next ?_
            exact (State.slateFault_keeps ..)
          · split
            · refine KeepsOut.next ?_
              exact Keeps.refl _
            · extract_lets -merge -useContext -underBinder +onlyGivenNames v1
              have h2 : ∀ a3 a4, KeepsOut a3 (v1 a3 a4) := by
                intro a3 a4
                unfold v1
                beta_reduce
                refine KeepsOut.next ?_
                exact (State.setThread_keeps ..)
              clear_value v1
              split
              · refine KeepsOut.trans ?_ (h2 ..)
                exact Keeps.refl _
              · split
                · refine KeepsOut.trans ?_ (h2 ..)
                  exact (heff ..).of_go (by assumption)
                · refine KeepsOut.trans ?_ (h2 ..)
                  exact (heff ..).of_jump (by assumption)
                · refine KeepsOut.next ?_
                  exact Keeps.refl _
                · refine KeepsOut.next ?_
                  exact .trans ((heff ..).of_trap (by assumption)) (State.slateFault_keeps ..)
                · refine KeepsOut.next ?_
                  exact (heff ..).of_ended (by assumption)

theorem State.regsOnly_keeps (t : ThreadId) (f : Thread → Thread) (s : State) (th : Thread) :
    KeepsIssue s (State.regsOnly t f s th) := by
  unfold State.regsOnly
  show Keeps _ _
  exact (State.setThread_keeps ..)

theorem State.loadLanes_keeps (s : State) (t : ThreadId) (th : Thread) (w : SlateWord) (addr : Nat → Nat) :
    KeepsIssue s (s.loadLanes t th w addr) := by
  unfold State.loadLanes
  extract_lets -merge -useContext -underBinder +onlyGivenNames v0
  try clear_value v0
  split
  · show Keeps _ _
    exact Keeps.refl _
  · extract_lets -merge -useContext -underBinder +onlyGivenNames v1
    try clear_value v1
    show Keeps _ _
    exact .trans ((State.drawn_keeps ..)) (State.setThread_keeps ..)

theorem State.storeLanes_keeps (s : State) (t : ThreadId) (th : Thread) (w : SlateWord) (addr : Nat → Nat) :
    KeepsIssue s (s.storeLanes t th w addr) := by
  unfold State.storeLanes
  extract_lets -merge -useContext -underBinder +onlyGivenNames v0
  try clear_value v0
  split
  · show Keeps _ _
    exact Keeps.refl _
  · extract_lets -merge -useContext -underBinder +onlyGivenNames v1
    try clear_value v1
    show Keeps _ _
    refine Keeps.foldl ?_ (fun y2 _ => ?_)
    · exact (State.drawn_keeps ..)
    · exact (State.homeStore_keeps ..)

theorem execLdv_keeps (t : ThreadId) (w : SlateWord) (s : State) :
    KeepsOut s (execLdv t w s) := by
  unfold execLdv
  refine KeepsOut.trans ?_ (State.issue_keeps (heff := fun y0 _ => ?_) ..)
  · exact Keeps.refl _
  · refine KeepsIssue.trans ?_ (State.loadLanes_keeps ..)
    exact Keeps.refl _

theorem execStv_keeps (t : ThreadId) (w : SlateWord) (s : State) :
    KeepsOut s (execStv t w s) := by
  unfold execStv
  refine KeepsOut.trans ?_ (State.issue_keeps (heff := fun y0 _ => ?_) ..)
  · exact Keeps.refl _
  · refine KeepsIssue.trans ?_ (State.storeLanes_keeps ..)
    exact Keeps.refl _

theorem execLdb_keeps (t : ThreadId) (w : SlateWord) (s : State) :
    KeepsOut s (execLdb t w s) := by
  unfold execLdb
  refine KeepsOut.trans ?_ (State.issue_keeps (heff := fun y0 _ => ?_) ..)
  · exact Keeps.refl _
  · refine KeepsIssue.trans ?_ (State.loadLanes_keeps ..)
    exact Keeps.refl _

theorem execStb_keeps (t : ThreadId) (w : SlateWord) (s : State) :
    KeepsOut s (execStb t w s) := by
  unfold execStb
  refine KeepsOut.trans ?_ (State.issue_keeps (heff := fun y0 _ => ?_) ..)
  · exact Keeps.refl _
  · refine KeepsIssue.trans ?_ (State.storeLanes_keeps ..)
    exact Keeps.refl _

theorem execLds_keeps (t : ThreadId) (w : SlateWord) (s : State) :
    KeepsOut s (execLds t w s) := by
  unfold execLds
  refine KeepsOut.trans ?_ (State.issue_keeps (heff := fun y0 _ => ?_) ..)
  · exact Keeps.refl _
  · extract_lets -merge -useContext -underBinder +onlyGivenNames v1
    try clear_value v1
    split
    · show Keeps _ _
      exact Keeps.refl _
    · show Keeps _ _
      exact .trans ((State.drawn_keeps ..)) (State.setThread_keeps ..)

theorem execSts_keeps (t : ThreadId) (w : SlateWord) (s : State) :
    KeepsOut s (execSts t w s) := by
  unfold execSts
  refine KeepsOut.trans ?_ (State.issue_keeps (heff := fun y0 _ => ?_) ..)
  · exact Keeps.refl _
  · extract_lets -merge -useContext -underBinder +onlyGivenNames v1
    try clear_value v1
    split
    · show Keeps _ _
      exact Keeps.refl _
    · show Keeps _ _
      exact (State.homeStore_keeps ..)

theorem execAtadd_keeps (t : ThreadId) (w : SlateWord) (s : State) :
    KeepsOut s (execAtadd t w s) := by
  unfold execAtadd
  refine KeepsOut.trans ?_ (State.issue_keeps (heff := fun y0 _ => ?_) ..)
  · exact Keeps.refl _
  · extract_lets -merge -useContext -underBinder +onlyGivenNames v1
    try clear_value v1
    split
    · show Keeps _ _
      exact Keeps.refl _
    · extract_lets -merge -useContext -underBinder +onlyGivenNames v2 v3
      try clear_value v2
      have h4 : Keeps y0 v3 := by
        unfold v3
        exact .trans ((State.drawn_keeps ..)) (State.homeFlush_keeps ..)
      clear_value v3
      extract_lets -merge -useContext -underBinder +onlyGivenNames v5
      try clear_value v5
      show Keeps _ _
      exact .trans (.trans h4 (State.homeWrite_keeps ..)) (State.setThread_keeps ..)

theorem execStrm_keeps (t : ThreadId) (w : SlateWord) (s : State) :
    KeepsOut s (execStrm t w s) := by
  unfold execStrm
  refine KeepsOut.trans ?_ (State.issue_keeps (heff := fun y0 _ => ?_) ..)
  · exact Keeps.refl _
  · extract_lets -merge -useContext -underBinder +onlyGivenNames v1 v2 v3 v4
    try clear_value v4; try clear_value v3; try clear_value v2; try clear_value v1
    split
    · show Keeps _ _
      exact Keeps.refl _
    · split
      · exact trivial
      · extract_lets -merge -useContext -underBinder +onlyGivenNames v5 v6
        try clear_value v5
        have h7 : Keeps y0 v6 := by
          unfold v6
          exact (State.homeFlush_keeps ..)
        clear_value v6
        extract_lets -merge -useContext -underBinder +onlyGivenNames v8
        have h9 : Keeps y0 v8 := by
          unfold v8
          exact .trans (.trans h7 (State.drawn_keeps ..)) (State.homeWrite_keeps ..)
        clear_value v8
        show Keeps _ _
        exact .trans h9 (State.setThread_keeps ..)

theorem execStreamComplete_keeps (t : ThreadId) (tag : Fin 4) (s : State) :
    KeepsOut s (execStreamComplete t tag s) := by
  unfold execStreamComplete
  extract_lets -merge -useContext -underBinder +onlyGivenNames v0
  try clear_value v0
  split
  · split
    · extract_lets -merge -useContext -underBinder +onlyGivenNames v1
      have h2 : Keeps s v1.1 := by
        unfold v1
        exact (State.streamDone_keeps ..)
      clear_value v1
      refine KeepsOut.next ?_
      exact .trans h2 (State.setThread_keeps ..)
    · refine KeepsOut.next ?_
      exact Keeps.refl _
  · refine KeepsOut.next ?_
    exact Keeps.refl _

theorem execSwait_keeps (t : ThreadId) (w : SlateWord) (s : State) :
    KeepsOut s (execSwait t w s) := by
  unfold execSwait
  refine KeepsOut.trans ?_ (State.issue_keeps (heff := fun y0 _ => ?_) ..)
  · exact Keeps.refl _
  · extract_lets -merge -useContext -underBinder +onlyGivenNames v1 v2
    try clear_value v2; try clear_value v1
    split
    · exact trivial
    · extract_lets -merge -useContext -underBinder +onlyGivenNames v3
      have h4 : Keeps y0 v3 := by
        unfold v3
        refine Keeps.foldl ?_ (fun y5 _ => ?_)
        · exact Keeps.refl _
        · exact (State.streamLand_keeps ..)
      clear_value v3
      extract_lets -merge -useContext -underBinder +onlyGivenNames v6 v7
      try clear_value v6
      have h8 : Keeps y0 v7 := by
        unfold v7
        exact .trans h4 (State.setThread_keeps ..)
      clear_value v7
      split
      · show Keeps _ _
        exact h8
      · show Keeps _ _
        exact h8

theorem State.setRingMask_keeps (s : State) (tile : Nat) (entry : Nat) (u : Nat) (m : BitVec 100) :
    Keeps s (s.setRingMask tile entry u m) := by
  unfold State.setRingMask
  refine Keeps.of_mk ?_ rfl rfl (Nat.le_refl _) rfl rfl rfl rfl rfl rfl
  exact Keeps.refl _

theorem State.ringWrite_keeps (s : State) (tile : Nat) (entry : Nat) (p : Nat) (vs : List (BitVec 20)) :
    Keeps s (s.ringWrite tile entry p vs) := by
  unfold State.ringWrite
  refine Keeps.of_mk ?_ rfl rfl (Nat.le_refl _) rfl rfl rfl rfl rfl rfl
  exact Keeps.refl _

theorem State.ringStore_keeps (s : State) (tile : Nat) (row : Nat) (ray : Word) (r : Word) (g : Word) (b : Word) :
    Keeps s (s.ringStore tile row ray r g b) := by
  unfold State.ringStore
  extract_lets -merge -useContext -underBinder +onlyGivenNames v0 v1 v2
  try clear_value v2; try clear_value v1; try clear_value v0
  split
  · exact Keeps.refl _
  · extract_lets -merge -useContext -underBinder +onlyGivenNames v3 v4 v5 x7 v6
    try clear_value v5; try clear_value v4; try clear_value v3
    have h8 : Keeps s v6 := by
      unfold v6
      refine Keeps.of_mk ?_ rfl rfl (Nat.le_refl _) rfl rfl rfl rfl rfl rfl
      exact Keeps.refl _
    clear_value v6
    extract_lets -merge -useContext -underBinder +onlyGivenNames v9
    have h10 : Keeps s v9 := by
      unfold v9
      exact .trans h8 (State.ringWrite_keeps ..)
    clear_value v9
    exact .trans h10 (State.setRingMask_keeps ..)

theorem State.ringUndo_keeps (s : State) (tile : Nat) (entry : Nat) (u : Nat) :
    Keeps s (s.ringUndo tile entry u) := by
  unfold State.ringUndo
  refine Keeps.foldl ?_ (fun y0 _ => ?_)
  · exact Keeps.refl _
  · split
    · exact .trans ((State.ringWrite_keeps ..)) (State.setRingMask_keeps ..)
    · exact Keeps.refl _

theorem execStRing_keeps (t : ThreadId) (w : SlateWord) (s : State) :
    KeepsOut s (execStRing t w s) := by
  unfold execStRing
  refine KeepsOut.trans ?_ (State.issue_keeps (heff := fun y0 _ => ?_) ..)
  · exact Keeps.refl _
  · extract_lets -merge -useContext -underBinder +onlyGivenNames v1 v2
    try clear_value v2; try clear_value v1
    split
    · show Keeps _ _
      exact Keeps.refl _
    · split
      · show Keeps _ _
        exact Keeps.refl _
      · extract_lets -merge -useContext -underBinder +onlyGivenNames v3 v4
        try clear_value v4; try clear_value v3
        show Keeps _ _
        refine Keeps.foldl ?_ (fun y5 _ => ?_)
        · exact (State.drawn_keeps ..)
        · exact (State.ringStore_keeps ..)

theorem execSeat_keeps (t : ThreadId) (w : SlateWord) (s : State) :
    KeepsOut s (execSeat t w s) := by
  unfold execSeat
  refine KeepsOut.trans ?_ (State.issue_keeps (heff := fun y0 _ => ?_) ..)
  · exact Keeps.refl _
  · extract_lets -merge -useContext -underBinder +onlyGivenNames v1
    try clear_value v1
    split
    · show Keeps _ _
      exact Keeps.refl _
    · extract_lets -merge -useContext -underBinder +onlyGivenNames v2
      try clear_value v2
      refine KeepsIssue.trans ?_ (State.regsOnly_keeps ..)
      exact Keeps.refl _

theorem execSmp_keeps (t : ThreadId) (w : SlateWord) (s : State) :
    KeepsOut s (execSmp t w s) := by
  unfold execSmp
  refine KeepsOut.trans ?_ (State.issue_keeps (heff := fun y0 _ => ?_) ..)
  · exact Keeps.refl _
  · extract_lets -merge -useContext -underBinder +onlyGivenNames v1 v2 v3
    try clear_value v3; try clear_value v2; try clear_value v1
    split
    · show Keeps _ _
      exact Keeps.refl _
    · split
      · refine KeepsIssue.trans ?_ (State.regsOnly_keeps ..)
        exact Keeps.refl _
      · split
        · exact trivial
        · extract_lets -merge -useContext -underBinder +onlyGivenNames v4 v5
          try clear_value v5; try clear_value v4
          show Keeps _ _
          exact (State.setEngine_keeps ..)

theorem State.sampleLanes_keeps (s : State) (hr : Nat) (eng : Nat) (b : RowLatch) (e : StackEntry) (q : SmpReq) :
    Keeps s (s.sampleLanes hr eng b e q) := by
  unfold State.sampleLanes
  extract_lets -merge -useContext -underBinder +onlyGivenNames v0
  try clear_value v0
  refine Keeps.foldl ?_ (fun y1 _ => ?_)
  · exact Keeps.refl _
  · extract_lets -merge -useContext -underBinder +onlyGivenNames v2
    have h3 : Keeps y1 v2.1 := by
      unfold v2
      exact (State.sampleRay_keeps ..)
    clear_value v2
    extract_lets -merge -useContext -underBinder +onlyGivenNames v4
    try clear_value v4
    exact .trans h3 (State.setThread_keeps ..)

theorem execSamplerRequest_keeps (hr : Fin 12) (sampler : Fin 4) (channel : Fin 16) (upsets : List (BitVec 31 × Bool)) (s : State) :
    KeepsOut s (execSamplerRequest hr sampler channel upsets s) := by
  unfold execSamplerRequest
  extract_lets -merge -useContext -underBinder +onlyGivenNames v0
  have h1 : Keeps s v0 := by
    unfold v0
    exact (State.strike_keeps ..)
  clear_value v0
  split
  · refine KeepsOut.next ?_
    exact h1
  · extract_lets -merge -useContext -underBinder +onlyGivenNames v2
    try clear_value v2
    split
    · split
      · extract_lets -merge -useContext -underBinder +onlyGivenNames v3 v4
        try clear_value v4; try clear_value v3
        split
        · refine KeepsOut.next ?_
          refine Keeps.of_mk ?_ rfl rfl (Nat.le_refl _) rfl rfl rfl rfl rfl rfl
          exact h1
        · extract_lets -merge -useContext -underBinder +onlyGivenNames v5 x7 v6
          try clear_value v5
          have h8 : Keeps s v6 := by
            unfold v6
            refine Keeps.of_mk ?_ rfl rfl (Nat.le_refl _) rfl rfl rfl rfl rfl rfl
            exact h1
          clear_value v6
          extract_lets -merge -useContext -underBinder +onlyGivenNames x10 v9
          have h11 : Keeps s v9 := by
            unfold v9
            exact .trans h8 (State.setEngine_keeps ..)
          clear_value v9
          extract_lets -merge -useContext -underBinder +onlyGivenNames v12
          have h13 : Keeps s v12 := by
            unfold v12
            split
            · exact .trans h11 (State.sampleLanes_keeps ..)
            · exact h11
          clear_value v12
          extract_lets -merge -useContext -underBinder +onlyGivenNames v14 v15
          try clear_value v15; try clear_value v14
          refine KeepsOut.next ?_
          refine Keeps.trans ?_ (State.bump_keeps ..)
          refine Keeps.of_mk ?_ rfl rfl (Nat.le_refl _) rfl rfl rfl rfl rfl rfl
          exact h13
      · refine KeepsOut.next ?_
        exact h1
    · refine KeepsOut.next ?_
      exact h1

theorem State.blendOp_keeps (s : State) (t : ThreadId) (w : SlateWord) (opc : BitVec 8) (straight : Bool) :
    KeepsOut s (s.blendOp t w opc straight) := by
  unfold State.blendOp
  extract_lets -merge -useContext -underBinder +onlyGivenNames v0
  try clear_value v0
  refine KeepsOut.trans ?_ (State.issue_keeps (heff := fun y1 _ => ?_) ..)
  · exact Keeps.refl _
  · extract_lets -merge -useContext -underBinder +onlyGivenNames v2 v3 v4
    try clear_value v4; try clear_value v3; try clear_value v2
    refine KeepsIssue.trans ?_ (State.regsOnly_keeps ..)
    exact Keeps.refl _

theorem execBlendPm_keeps (t : ThreadId) (w : SlateWord) (s : State) :
    KeepsOut s (execBlendPm t w s) := by
  unfold execBlendPm
  refine KeepsOut.trans ?_ (State.blendOp_keeps ..)
  exact Keeps.refl _

theorem execBlendSt_keeps (t : ThreadId) (w : SlateWord) (s : State) :
    KeepsOut s (execBlendSt t w s) := by
  unfold execBlendSt
  refine KeepsOut.trans ?_ (State.blendOp_keeps ..)
  exact Keeps.refl _

theorem execBar_keeps (t : ThreadId) (w : SlateWord) (s : State) :
    KeepsOut s (execBar t w s) := by
  unfold execBar
  refine KeepsOut.trans ?_ (State.issue_keeps (heff := fun y0 _ => ?_) ..)
  · exact Keeps.refl _
  · refine KeepsIssue.trans ?_ (State.regsOnly_keeps ..)
    exact Keeps.refl _

theorem execBarRelease_keeps (hr : Fin 12) (engine : Fin 16) (s : State) :
    KeepsOut s (execBarRelease hr engine s) := by
  unfold execBarRelease
  extract_lets -merge -useContext -underBinder +onlyGivenNames v0 v1 v2
  try clear_value v2; try clear_value v1; try clear_value v0
  split
  · split
    · refine KeepsOut.next ?_
      refine Keeps.foldl ?_ (fun y3 _ => ?_)
      · exact Keeps.refl _
      · exact (State.setThread_keeps ..)
    · refine KeepsOut.next ?_
      exact Keeps.refl _
  · refine KeepsOut.next ?_
    exact Keeps.refl _

theorem execFence_keeps (t : ThreadId) (w : SlateWord) (s : State) :
    KeepsOut s (execFence t w s) := by
  unfold execFence
  refine KeepsOut.trans ?_ (State.issue_keeps (heff := fun y0 _ => ?_) ..)
  · exact Keeps.refl _
  · show Keeps _ _
    exact (State.homeFlush_keeps ..)

theorem execMsg_keeps (t : ThreadId) (w : SlateWord) (s : State) :
    KeepsOut s (execMsg t w s) := by
  unfold execMsg
  refine KeepsOut.trans ?_ (State.issue_keeps (heff := fun y0 _ => ?_) ..)
  · exact Keeps.refl _
  · split
    · exact trivial
    · show Keeps _ _
      exact (State.seqMessage_keeps ..)

theorem State.ringAssign_keeps (s : State) (row : Nat) :
    Keeps s (s.ringAssign row) := by
  unfold State.ringAssign
  refine Keeps.foldl ?_ (fun y0 _ => ?_)
  · exact Keeps.refl _
  · extract_lets -merge -useContext -underBinder +onlyGivenNames v1 v2 v3 v4 v5 v6
    try clear_value v6; try clear_value v5; try clear_value v4; try clear_value v3; try clear_value v2; try clear_value v1
    refine Keeps.of_mk ?_ rfl rfl (Nat.le_refl _) rfl rfl rfl rfl rfl rfl
    exact Keeps.refl _

theorem State.ringSet_keeps (s : State) :
    Keeps s (s.ringSet) := by
  unfold State.ringSet
  refine Keeps.of_mk ?_ rfl rfl (Nat.le_refl _) rfl rfl rfl rfl rfl rfl
  exact Keeps.refl _

theorem State.stackTable_keeps (s : State) (hr : Nat) (row : Nat) (st : List StackEntry) :
    Keeps s (s.stackTable hr row st) := by
  unfold State.stackTable
  extract_lets -merge -useContext -underBinder +onlyGivenNames v0 v1
  try clear_value v0
  have h2 : Keeps s v1 := by
    unfold v1
    exact (State.homeWrite_keeps ..)
  clear_value v1
  refine Keeps.foldl ?_ (fun y3 _ => ?_)
  · exact h2
  · exact (State.homeWrite_keeps ..)

theorem State.giveChunk_keeps (s : State) (hr : Nat) (eng : Nat) (c : Chunk) :
    Keeps s (s.giveChunk hr eng c) := by
  unfold State.giveChunk
  extract_lets -merge -useContext -underBinder +onlyGivenNames v0
  try clear_value v0
  split
  · exact Keeps.refl _
  · split
    · exact (State.launchChunk_keeps ..)
    · exact (State.setEngine_keeps ..)

theorem State.rowStart_keeps (s : State) (r : Nat) (f : Nat) (entry : Option Nat) :
    Keeps s (s.rowStart r f entry) := by
  unfold State.rowStart
  extract_lets -merge -useContext -underBinder +onlyGivenNames v0
  have h1 : Keeps s v0 := by
    unfold v0
    exact .trans ((State.dropCached_keeps ..)) (State.ringAssign_keeps ..)
  clear_value v0
  extract_lets -merge -useContext -underBinder +onlyGivenNames v2 x4 x5 v3
  try clear_value v2
  have h6 : Keeps s v3 := by
    unfold v3
    split
    · refine Keeps.of_mk ?_ rfl rfl (Nat.le_refl _) rfl rfl rfl rfl rfl rfl
      exact h1
    · refine Keeps.of_mk ?_ rfl rfl (Nat.le_refl _) rfl rfl rfl rfl rfl rfl
      exact h1
  clear_value v3
  extract_lets -merge -useContext -underBinder +onlyGivenNames v7
  have h8 : Keeps s v7 := by
    unfold v7
    refine Keeps.foldl ?_ (fun y9 _ => ?_)
    · exact h6
    · split <;> [exact State.stackTable_keeps ..; exact Keeps.refl _]
  clear_value v7
  split
  · refine Keeps.foldl ?_ (fun y10 _ => ?_)
    · exact h8
    · exact (State.giveChunk_keeps ..)
  · exact h8

theorem State.rowWithheld_keeps (s : State) (r : Nat) :
    Keeps s (s.rowWithheld r) := by
  unfold State.rowWithheld
  split
  · refine Keeps.of_mk ?_ rfl rfl (Nat.le_refl _) rfl rfl rfl rfl rfl rfl
    exact Keeps.refl _
  · refine Keeps.of_mk ?_ rfl rfl (Nat.le_refl _) rfl rfl rfl rfl rfl rfl
    exact Keeps.refl _

theorem State.cancelRow_keeps (s : State) (row : Nat) :
    Keeps s (s.cancelRow row) := by
  unfold State.cancelRow
  refine Keeps.foldl ?_ (fun y0 _ => ?_)
  · exact Keeps.refl _
  · extract_lets -merge -useContext -underBinder +onlyGivenNames v1 v2 v3 v4 x6 v5
    try clear_value v4; try clear_value v3; try clear_value v2; try clear_value v1
    have h7 : Keeps y0 v5 := by
      unfold v5
      split
      · exact .trans ((State.setEngine_keeps ..)) (State.bump_keeps ..)
      · exact Keeps.refl _
    clear_value v5
    split
    · extract_lets -merge -useContext -underBinder +onlyGivenNames v8
      have h9 : Keeps y0 v8 := by
        unfold v8
        exact .trans h7 (State.cancelChunk_keeps ..)
      clear_value v8
      split
      · exact .trans h9 (State.launchChunk_keeps ..)
      · exact h9
    · exact h7

theorem State.lateTest_keeps (s : State) (r : Nat) :
    Keeps s (s.lateTest r) := by
  unfold State.lateTest
  split
  · exact Keeps.refl _
  · extract_lets -merge -useContext -underBinder +onlyGivenNames v0
    have h1 : Keeps s v0 := by
      unfold v0
      exact .trans (.trans ((State.setFlag_keeps ..)) (State.event_keeps ..)) (State.bump_keeps ..)
    clear_value v0
    extract_lets -merge -useContext -underBinder +onlyGivenNames v2
    have h3 : Keeps s v2 := by
      unfold v2
      exact .trans h1 (State.setFld_keeps ..)
    clear_value v2
    extract_lets -merge -useContext -underBinder +onlyGivenNames x5 v4
    have h6 : Keeps s v4 := by
      unfold v4
      refine Keeps.of_mk ?_ rfl rfl (Nat.le_refl _) rfl rfl rfl rfl rfl rfl
      exact h3
    clear_value v4
    split
    · split
      · refine Keeps.trans ?_ (State.bump_keeps ..)
        refine Keeps.of_mk ?_ rfl rfl (Nat.le_refl _) rfl rfl rfl rfl rfl rfl
        exact h6
      · exact h6
    · exact h6

theorem State.shedUpdate_keeps (s : State) :
    Keeps s (s.shedUpdate) := by
  unfold State.shedUpdate
  extract_lets -merge -useContext -underBinder +onlyGivenNames v0 v1 v2 v3
  try clear_value v2; try clear_value v1; try clear_value v0
  have h4 : Keeps s v3 := by
    unfold v3
    exact (State.bump_keeps ..)
  clear_value v3
  extract_lets -merge -useContext -underBinder +onlyGivenNames x6 v5
  have h7 : Keeps s v5 := by
    unfold v5
    refine Keeps.of_mk ?_ rfl rfl (Nat.le_refl _) rfl rfl rfl rfl rfl rfl
    exact h4
  clear_value v5
  refine Keeps.of_mk ?_ rfl rfl (Nat.le_refl _) rfl rfl rfl rfl rfl rfl
  exact h7

theorem State.pvFlip_keeps (s : State) :
    Keeps s (s.pvFlip) := by
  unfold State.pvFlip
  extract_lets -merge -useContext -underBinder +onlyGivenNames v0
  try clear_value v0
  split
  · exact Keeps.refl _
  · split
    · exact .trans ((State.bump_keeps ..)) (State.event_keeps ..)
    · extract_lets -merge -useContext -underBinder +onlyGivenNames x2 v1
      have h3 : Keeps s v1 := by
        unfold v1
        refine Keeps.of_mk ?_ rfl rfl (Nat.le_refl _) rfl rfl rfl rfl rfl rfl
        exact Keeps.refl _
      clear_value v1
      extract_lets -merge -useContext -underBinder +onlyGivenNames v4
      try clear_value v4
      split
      · exact .trans (.trans (.trans h3 (State.returnBuffer_keeps ..)) (State.bump_keeps ..)) (State.event_keeps ..)
      · extract_lets -merge -useContext -underBinder +onlyGivenNames v5
        try clear_value v5
        refine Keeps.of_mk ?_ rfl rfl (Nat.le_refl _) rfl rfl rfl rfl rfl rfl
        exact h3

theorem State.pvLenslet_keeps (s : State) (tile : Nat) (u : Nat) (row : Nat) :
    Keeps s (s.pvLenslet tile u row) := by
  unfold State.pvLenslet
  split
  · exact Keeps.refl _
  · extract_lets -merge -useContext -underBinder +onlyGivenNames v0 v1 v2 v3 v4
    try clear_value v3; try clear_value v2; try clear_value v1; try clear_value v0
    have h5 : Keeps s v4 := by
      unfold v4
      exact (State.winWrite_keeps ..)
    clear_value v4
    refine Keeps.of_mk ?_ rfl rfl (Nat.le_refl _) rfl rfl rfl rfl rfl rfl
    exact h5

theorem execPvDone_keeps (s : State) :
    KeepsOut s (execPvDone s) := by
  unfold execPvDone
  split
  · split
    · extract_lets -merge -useContext -underBinder +onlyGivenNames v0 v1
      try clear_value v0
      have h2 : Keeps s v1 := by
        unfold v1
        exact (State.winWrite_keeps ..)
      clear_value v1
      extract_lets -merge -useContext -underBinder +onlyGivenNames v3 v4
      try clear_value v3
      have h5 : Keeps s v4 := by
        unfold v4
        exact .trans (.trans h2 (State.winWrite_keeps ..)) (State.winWrite_keeps ..)
      clear_value v4
      extract_lets -merge -useContext -underBinder +onlyGivenNames v6
      have h7 : Keeps s v6 := by
        unfold v6
        exact .trans (.trans h5 (State.returnBuffer_keeps ..)) (State.event_keeps ..)
      clear_value v6
      refine KeepsOut.next ?_
      refine Keeps.of_mk ?_ rfl rfl (Nat.le_refl _) rfl rfl rfl rfl rfl rfl
      exact h7
    · refine KeepsOut.next ?_
      exact Keeps.refl _
  · refine KeepsOut.next ?_
    exact Keeps.refl _

theorem State.pvPostWrite_keeps (s : State) (v : Word) :
    Keeps s (s.pvPostWrite v) := by
  unfold State.pvPostWrite
  split
  · exact (State.event_keeps ..)
  · exact (State.post_keeps ..)

theorem execHrPvPost_keeps (b : BusWrite) (s : State) :
    KeepsOut s (execHrPvPost b s) := by
  unfold execHrPvPost
  refine KeepsOut.next ?_
  refine Keeps.trans ?_ (State.busWrite_keeps (heff := fun y0 _ => ?_) ..)
  · exact Keeps.refl _
  · exact (State.pvPostWrite_keeps ..)

theorem State.repeatLenslet_keeps (s : State) (tile : Nat) (u : Nat) (row : Nat) :
    Keeps s (s.repeatLenslet tile u row) := by
  unfold State.repeatLenslet
  extract_lets -merge -useContext -underBinder +onlyGivenNames v0 v1 v2
  try clear_value v1; try clear_value v0
  have h3 : Keeps s v2 := by
    unfold v2
    exact (State.ringWrite_keeps ..)
  clear_value v2
  extract_lets -merge -useContext -underBinder +onlyGivenNames v4
  have h5 : Keeps s v4 := by
    unfold v4
    exact .trans h3 (State.setRingMask_keeps ..)
  clear_value v4
  extract_lets -merge -useContext -underBinder +onlyGivenNames v6 v7 x9 v8
  try clear_value v7; try clear_value v6
  have h10 : Keeps s v8 := by
    unfold v8
    refine Keeps.of_mk ?_ rfl rfl (Nat.le_refl _) rfl rfl rfl rfl rfl rfl
    exact h5
  clear_value v8
  extract_lets -merge -useContext -underBinder +onlyGivenNames v11
  have h12 : Keeps s v11 := by
    unfold v11
    exact .trans (.trans h10 (State.bump_keeps ..)) (State.setFlag_keeps ..)
  clear_value v11
  split
  · exact .trans h12 (State.event_keeps ..)
  · exact h12

theorem State.lateChunk_keeps (s : State) (hr : Nat) (tile : Nat) (row : Nat) :
    Keeps s (s.lateChunk hr tile row) := by
  unfold State.lateChunk
  extract_lets -merge -useContext -underBinder +onlyGivenNames v0 v1
  try clear_value v0
  have h2 : Keeps s v1 := by
    unfold v1
    split
    · extract_lets -merge -useContext -underBinder +onlyGivenNames x4 v3
      have h5 : Keeps s v3 := by
        unfold v3
        refine Keeps.of_mk ?_ rfl rfl (Nat.le_refl _) rfl rfl rfl rfl rfl rfl
        exact Keeps.refl _
      clear_value v3
      refine Keeps.trans ?_ (State.bump_keeps ..)
      split
      · exact .trans h5 (State.unbump_keeps ..)
      · exact h5
    · exact Keeps.refl _
  clear_value v1
  split
  · split
    · exact .trans h2 (State.cancelChunk_keeps ..)
    · exact h2
  · exact h2

theorem State.lensletCheck_keeps (s : State) (tile : Nat) (u : Nat) (row : Nat) :
    Keeps s (s.lensletCheck tile u row) := by
  unfold State.lensletCheck
  extract_lets -merge -useContext -underBinder +onlyGivenNames v0 v1
  try clear_value v0
  have h2 : Keeps s v1 := by
    unfold v1
    exact (State.ringUndo_keeps ..)
  clear_value v1
  extract_lets -merge -useContext -underBinder +onlyGivenNames v3
  have h4 : Keeps s v3 := by
    unfold v3
    split
    · exact h2
    · exact .trans h2 (State.repeatLenslet_keeps ..)
  clear_value v3
  extract_lets -merge -useContext -underBinder +onlyGivenNames v5 x7 v6
  try clear_value v5
  have h8 : Keeps s v6 := by
    unfold v6
    refine Keeps.of_mk ?_ rfl rfl (Nat.le_refl _) rfl rfl rfl rfl rfl rfl
    exact h4
  clear_value v6
  extract_lets -merge -useContext -underBinder +onlyGivenNames v9
  have h10 : Keeps s v9 := by
    unfold v9
    exact .trans h8 (State.pvLenslet_keeps ..)
  clear_value v9
  split
  · exact .trans h10 (State.lateChunk_keeps ..)
  · exact h10

theorem State.hrCntClr_keeps (s : State) (h : Nat) (v : Word) :
    Keeps s (s.hrCntClr h v) := by
  unfold State.hrCntClr
  split
  · exact (State.clrRegs_keeps ..)
  · exact Keeps.refl _

theorem execHrCntClr_keeps (hr : Fin 12) (b : BusWrite) (s : State) :
    KeepsOut s (execHrCntClr hr b s) := by
  unfold execHrCntClr
  refine KeepsOut.next ?_
  refine Keeps.trans ?_ (State.busWrite_keeps (heff := fun y0 _ => ?_) ..)
  · exact Keeps.refl _
  · exact (State.hrCntClr_keeps ..)

theorem State.hrSynCntClr_keeps (s : State) (v : Word) :
    Keeps s (s.hrSynCntClr v) := by
  unfold State.hrSynCntClr
  split
  · exact (State.clrRegs_keeps ..)
  · exact Keeps.refl _

theorem execHrSynCntClr_keeps (b : BusWrite) (s : State) :
    KeepsOut s (execHrSynCntClr b s) := by
  unfold execHrSynCntClr
  refine KeepsOut.next ?_
  refine Keeps.trans ?_ (State.busWrite_keeps (heff := fun y0 _ => ?_) ..)
  · exact Keeps.refl _
  · exact (State.hrSynCntClr_keeps ..)

theorem execNop_keeps (t : ThreadId) (w : SlateWord) (s : State) :
    KeepsOut s (execNop t w s) := by
  unfold execNop
  refine KeepsOut.trans ?_ (State.issue_keeps (heff := fun y0 _ => ?_) ..)
  · exact Keeps.refl _
  · show Keeps _ _
    exact Keeps.refl _

theorem execBr_keeps (t : ThreadId) (w : SlateWord) (s : State) :
    KeepsOut s (execBr t w s) := by
  unfold execBr
  extract_lets -merge -useContext -underBinder +onlyGivenNames v0
  try clear_value v0
  refine KeepsOut.trans ?_ (State.issue_keeps (heff := fun y1 _ => ?_) ..)
  · exact Keeps.refl _
  · extract_lets -merge -useContext -underBinder +onlyGivenNames v2 v3
    try clear_value v3; try clear_value v2
    split
    · show Keeps _ _
      exact Keeps.refl _
    · split
      · show Keeps _ _
        exact Keeps.refl _
      · show Keeps _ _
        exact Keeps.refl _

theorem execJmp_keeps (t : ThreadId) (w : SlateWord) (s : State) :
    KeepsOut s (execJmp t w s) := by
  unfold execJmp
  refine KeepsOut.trans ?_ (State.issue_keeps (heff := fun y0 _ => ?_) ..)
  · exact Keeps.refl _
  · extract_lets -merge -useContext -underBinder +onlyGivenNames v1
    try clear_value v1
    split
    · show Keeps _ _
      exact Keeps.refl _
    · show Keeps _ _
      exact Keeps.refl _

theorem execCall_keeps (t : ThreadId) (w : SlateWord) (s : State) :
    KeepsOut s (execCall t w s) := by
  unfold execCall
  refine KeepsOut.trans ?_ (State.issue_keeps (heff := fun y0 _ => ?_) ..)
  · exact Keeps.refl _
  · split
    · show Keeps _ _
      exact Keeps.refl _
    · split
      · show Keeps _ _
        exact Keeps.refl _
      · show Keeps _ _
        exact (State.setThread_keeps ..)

theorem execRet_keeps (t : ThreadId) (w : SlateWord) (s : State) :
    KeepsOut s (execRet t w s) := by
  unfold execRet
  refine KeepsOut.trans ?_ (State.issue_keeps (heff := fun y0 _ => ?_) ..)
  · exact Keeps.refl _
  · split
    · show Keeps _ _
      exact Keeps.refl _
    · show Keeps _ _
      exact (State.setThread_keeps ..)

theorem execExit_keeps (t : ThreadId) (w : SlateWord) (s : State) :
    KeepsOut s (execExit t w s) := by
  unfold execExit
  refine KeepsOut.trans ?_ (State.issue_keeps (heff := fun y0 _ => ?_) ..)
  · exact Keeps.refl _
  · split
    · exact trivial
    · extract_lets -merge -useContext -underBinder +onlyGivenNames v1
      have h2 : Keeps y0 v1 := by
        unfold v1
        refine Keeps.foldl ?_ (fun y3 _ => ?_)
        · exact Keeps.refl _
        · exact (State.streamLand_keeps ..)
      clear_value v1
      split
      · show Keeps _ _
        exact .trans h2 (State.setThread_keeps ..)
      · show Keeps _ _
        exact .trans h2 (State.endThread_keeps ..)

theorem execTrap_keeps (t : ThreadId) (w : SlateWord) (s : State) :
    KeepsOut s (execTrap t w s) := by
  unfold execTrap
  refine KeepsOut.trans ?_ (State.issue_keeps (heff := fun y0 _ => ?_) ..)
  · exact Keeps.refl _
  · show Keeps _ _
    exact Keeps.refl _

theorem State.scalarOp_keeps (s : State) (t : ThreadId) (w : SlateWord) (opc : BitVec 8) (tys : List Nat) (f : Word → Word → Word) :
    KeepsOut s (s.scalarOp t w opc tys f) := by
  unfold State.scalarOp
  refine KeepsOut.trans ?_ (State.issue_keeps (heff := fun y0 _ => ?_) ..)
  · exact Keeps.refl _
  · refine KeepsIssue.trans ?_ (State.regsOnly_keeps ..)
    exact Keeps.refl _

theorem execSadd_keeps (t : ThreadId) (w : SlateWord) (s : State) :
    KeepsOut s (execSadd t w s) := by
  unfold execSadd
  refine KeepsOut.trans ?_ (State.scalarOp_keeps ..)
  exact Keeps.refl _

theorem execSsub_keeps (t : ThreadId) (w : SlateWord) (s : State) :
    KeepsOut s (execSsub t w s) := by
  unfold execSsub
  refine KeepsOut.trans ?_ (State.scalarOp_keeps ..)
  exact Keeps.refl _

theorem execSmul_keeps (t : ThreadId) (w : SlateWord) (s : State) :
    KeepsOut s (execSmul t w s) := by
  unfold execSmul
  refine KeepsOut.trans ?_ (State.scalarOp_keeps ..)
  exact Keeps.refl _

theorem execSand_keeps (t : ThreadId) (w : SlateWord) (s : State) :
    KeepsOut s (execSand t w s) := by
  unfold execSand
  refine KeepsOut.trans ?_ (State.scalarOp_keeps ..)
  exact Keeps.refl _

theorem execSor_keeps (t : ThreadId) (w : SlateWord) (s : State) :
    KeepsOut s (execSor t w s) := by
  unfold execSor
  refine KeepsOut.trans ?_ (State.scalarOp_keeps ..)
  exact Keeps.refl _

theorem execSxor_keeps (t : ThreadId) (w : SlateWord) (s : State) :
    KeepsOut s (execSxor t w s) := by
  unfold execSxor
  refine KeepsOut.trans ?_ (State.scalarOp_keeps ..)
  exact Keeps.refl _

theorem execSshl_keeps (t : ThreadId) (w : SlateWord) (s : State) :
    KeepsOut s (execSshl t w s) := by
  unfold execSshl
  refine KeepsOut.trans ?_ (State.scalarOp_keeps ..)
  exact Keeps.refl _

theorem execSshr_keeps (t : ThreadId) (w : SlateWord) (s : State) :
    KeepsOut s (execSshr t w s) := by
  unfold execSshr
  refine KeepsOut.trans ?_ (State.scalarOp_keeps ..)
  exact Keeps.refl _

theorem State.scalarMinMax_keeps (s : State) (t : ThreadId) (w : SlateWord) (opc : BitVec 8) (isMin : Bool) :
    KeepsOut s (s.scalarMinMax t w opc isMin) := by
  unfold State.scalarMinMax
  refine KeepsOut.trans ?_ (State.issue_keeps (heff := fun y0 _ => ?_) ..)
  · exact Keeps.refl _
  · extract_lets -merge -useContext -underBinder +onlyGivenNames v1
    try clear_value v1
    show Keeps _ _
    exact .trans ((State.drawn_keeps ..)) (State.setThread_keeps ..)

theorem execSmin_keeps (t : ThreadId) (w : SlateWord) (s : State) :
    KeepsOut s (execSmin t w s) := by
  unfold execSmin
  refine KeepsOut.trans ?_ (State.scalarMinMax_keeps ..)
  exact Keeps.refl _

theorem execSmax_keeps (t : ThreadId) (w : SlateWord) (s : State) :
    KeepsOut s (execSmax t w s) := by
  unfold execSmax
  refine KeepsOut.trans ?_ (State.scalarMinMax_keeps ..)
  exact Keeps.refl _

theorem execSmov_keeps (t : ThreadId) (w : SlateWord) (s : State) :
    KeepsOut s (execSmov t w s) := by
  unfold execSmov
  refine KeepsOut.trans ?_ (State.issue_keeps (heff := fun y0 _ => ?_) ..)
  · exact Keeps.refl _
  · refine KeepsIssue.trans ?_ (State.regsOnly_keeps ..)
    exact Keeps.refl _

theorem execSmfsr_keeps (t : ThreadId) (w : SlateWord) (s : State) :
    KeepsOut s (execSmfsr t w s) := by
  unfold execSmfsr
  refine KeepsOut.trans ?_ (State.issue_keeps (heff := fun y0 _ => ?_) ..)
  · exact Keeps.refl _
  · split
    · show Keeps _ _
      exact (State.setThread_keeps ..)
    · show Keeps _ _
      exact Keeps.refl _

theorem execScmp_keeps (t : ThreadId) (w : SlateWord) (s : State) :
    KeepsOut s (execScmp t w s) := by
  unfold execScmp
  refine KeepsOut.trans ?_ (State.issue_keeps (heff := fun y0 _ => ?_) ..)
  · exact Keeps.refl _
  · extract_lets -merge -useContext -underBinder +onlyGivenNames v1
    try clear_value v1
    show Keeps _ _
    exact (State.setThread_keeps ..)

theorem execSgetl_keeps (t : ThreadId) (w : SlateWord) (s : State) :
    KeepsOut s (execSgetl t w s) := by
  unfold execSgetl
  refine KeepsOut.trans ?_ (State.issue_keeps (heff := fun y0 _ => ?_) ..)
  · exact Keeps.refl _
  · refine KeepsIssue.trans ?_ (State.regsOnly_keeps ..)
    exact Keeps.refl _

theorem State.vectorOp_keeps (s : State) (t : ThreadId) (w : SlateWord) (opc : BitVec 8) (tys : List Nat) (c : RegKind) (f : Word → Word → Word → Word) :
    KeepsOut s (s.vectorOp t w opc tys c f) := by
  unfold State.vectorOp
  refine KeepsOut.trans ?_ (State.issue_keeps (heff := fun y0 _ => ?_) ..)
  · exact Keeps.refl _
  · refine KeepsIssue.trans ?_ (State.regsOnly_keeps ..)
    exact Keeps.refl _

theorem State.vectorUnary_keeps (s : State) (t : ThreadId) (w : SlateWord) (opc : BitVec 8) (tys : List Nat) (f : Word → Word) :
    KeepsOut s (s.vectorUnary t w opc tys f) := by
  unfold State.vectorUnary
  refine KeepsOut.trans ?_ (State.issue_keeps (heff := fun y0 _ => ?_) ..)
  · exact Keeps.refl _
  · refine KeepsIssue.trans ?_ (State.regsOnly_keeps ..)
    exact Keeps.refl _

theorem execVadd_keeps (t : ThreadId) (w : SlateWord) (s : State) :
    KeepsOut s (execVadd t w s) := by
  unfold execVadd
  refine KeepsOut.trans ?_ (State.vectorOp_keeps ..)
  exact Keeps.refl _

theorem execVsub_keeps (t : ThreadId) (w : SlateWord) (s : State) :
    KeepsOut s (execVsub t w s) := by
  unfold execVsub
  refine KeepsOut.trans ?_ (State.vectorOp_keeps ..)
  exact Keeps.refl _

theorem execVmul_keeps (t : ThreadId) (w : SlateWord) (s : State) :
    KeepsOut s (execVmul t w s) := by
  unfold execVmul
  refine KeepsOut.trans ?_ (State.vectorOp_keeps ..)
  exact Keeps.refl _

theorem execVmad_keeps (t : ThreadId) (w : SlateWord) (s : State) :
    KeepsOut s (execVmad t w s) := by
  unfold execVmad
  refine KeepsOut.trans ?_ (State.vectorOp_keeps ..)
  exact Keeps.refl _

theorem State.vectorMinMax_keeps (s : State) (t : ThreadId) (w : SlateWord) (opc : BitVec 8) (isMin : Bool) :
    KeepsOut s (s.vectorMinMax t w opc isMin) := by
  unfold State.vectorMinMax
  refine KeepsOut.trans ?_ (State.issue_keeps (heff := fun y0 _ => ?_) ..)
  · exact Keeps.refl _
  · extract_lets -merge -useContext -underBinder +onlyGivenNames v1
    try clear_value v1
    show Keeps _ _
    exact .trans ((State.drawn_keeps ..)) (State.setThread_keeps ..)

theorem execVmin_keeps (t : ThreadId) (w : SlateWord) (s : State) :
    KeepsOut s (execVmin t w s) := by
  unfold execVmin
  refine KeepsOut.trans ?_ (State.vectorMinMax_keeps ..)
  exact Keeps.refl _

theorem execVmax_keeps (t : ThreadId) (w : SlateWord) (s : State) :
    KeepsOut s (execVmax t w s) := by
  unfold execVmax
  refine KeepsOut.trans ?_ (State.vectorMinMax_keeps ..)
  exact Keeps.refl _

theorem execVabs_keeps (t : ThreadId) (w : SlateWord) (s : State) :
    KeepsOut s (execVabs t w s) := by
  unfold execVabs
  refine KeepsOut.trans ?_ (State.vectorUnary_keeps ..)
  exact Keeps.refl _

theorem execVneg_keeps (t : ThreadId) (w : SlateWord) (s : State) :
    KeepsOut s (execVneg t w s) := by
  unfold execVneg
  refine KeepsOut.trans ?_ (State.vectorUnary_keeps ..)
  exact Keeps.refl _

theorem execVand_keeps (t : ThreadId) (w : SlateWord) (s : State) :
    KeepsOut s (execVand t w s) := by
  unfold execVand
  refine KeepsOut.trans ?_ (State.vectorOp_keeps ..)
  exact Keeps.refl _

theorem execVor_keeps (t : ThreadId) (w : SlateWord) (s : State) :
    KeepsOut s (execVor t w s) := by
  unfold execVor
  refine KeepsOut.trans ?_ (State.vectorOp_keeps ..)
  exact Keeps.refl _

theorem execVxor_keeps (t : ThreadId) (w : SlateWord) (s : State) :
    KeepsOut s (execVxor t w s) := by
  unfold execVxor
  refine KeepsOut.trans ?_ (State.vectorOp_keeps ..)
  exact Keeps.refl _

theorem execVshl_keeps (t : ThreadId) (w : SlateWord) (s : State) :
    KeepsOut s (execVshl t w s) := by
  unfold execVshl
  refine KeepsOut.trans ?_ (State.vectorOp_keeps ..)
  exact Keeps.refl _

theorem execVshr_keeps (t : ThreadId) (w : SlateWord) (s : State) :
    KeepsOut s (execVshr t w s) := by
  unfold execVshr
  refine KeepsOut.trans ?_ (State.vectorOp_keeps ..)
  exact Keeps.refl _

theorem execVmov_keeps (t : ThreadId) (w : SlateWord) (s : State) :
    KeepsOut s (execVmov t w s) := by
  unfold execVmov
  refine KeepsOut.trans ?_ (State.issue_keeps (heff := fun y0 _ => ?_) ..)
  · exact Keeps.refl _
  · refine KeepsIssue.trans ?_ (State.regsOnly_keeps ..)
    exact Keeps.refl _

theorem execVsel_keeps (t : ThreadId) (w : SlateWord) (s : State) :
    KeepsOut s (execVsel t w s) := by
  unfold execVsel
  refine KeepsOut.trans ?_ (State.issue_keeps (heff := fun y0 _ => ?_) ..)
  · exact Keeps.refl _
  · refine KeepsIssue.trans ?_ (State.regsOnly_keeps ..)
    exact Keeps.refl _

theorem execVshfl_keeps (t : ThreadId) (w : SlateWord) (s : State) :
    KeepsOut s (execVshfl t w s) := by
  unfold execVshfl
  refine KeepsOut.trans ?_ (State.issue_keeps (heff := fun y0 _ => ?_) ..)
  · exact Keeps.refl _
  · refine KeepsIssue.trans ?_ (State.regsOnly_keeps ..)
    exact Keeps.refl _

theorem execVrcp_keeps (t : ThreadId) (w : SlateWord) (s : State) :
    KeepsOut s (execVrcp t w s) := by
  unfold execVrcp
  refine KeepsOut.trans ?_ (State.vectorUnary_keeps ..)
  exact Keeps.refl _

theorem execVsqrt_keeps (t : ThreadId) (w : SlateWord) (s : State) :
    KeepsOut s (execVsqrt t w s) := by
  unfold execVsqrt
  refine KeepsOut.trans ?_ (State.vectorUnary_keeps ..)
  exact Keeps.refl _

theorem execVrsq_keeps (t : ThreadId) (w : SlateWord) (s : State) :
    KeepsOut s (execVrsq t w s) := by
  unfold execVrsq
  refine KeepsOut.trans ?_ (State.vectorUnary_keeps ..)
  exact Keeps.refl _

theorem execVfloor_keeps (t : ThreadId) (w : SlateWord) (s : State) :
    KeepsOut s (execVfloor t w s) := by
  unfold execVfloor
  refine KeepsOut.trans ?_ (State.vectorUnary_keeps ..)
  exact Keeps.refl _

theorem execVsat_keeps (t : ThreadId) (w : SlateWord) (s : State) :
    KeepsOut s (execVsat t w s) := by
  unfold execVsat
  refine KeepsOut.trans ?_ (State.issue_keeps (heff := fun y0 _ => ?_) ..)
  · exact Keeps.refl _
  · extract_lets -merge -useContext -underBinder +onlyGivenNames v1
    try clear_value v1
    show Keeps _ _
    exact .trans ((State.drawn_keeps ..)) (State.setThread_keeps ..)

theorem execVcvt_keeps (t : ThreadId) (w : SlateWord) (s : State) :
    KeepsOut s (execVcvt t w s) := by
  unfold execVcvt
  extract_lets -merge -useContext -underBinder +onlyGivenNames v0 v1 v2
  try clear_value v2; try clear_value v1; try clear_value v0
  refine KeepsOut.trans ?_ (State.issue_keeps (heff := fun y3 _ => ?_) ..)
  · exact Keeps.refl _
  · refine KeepsIssue.trans ?_ (State.regsOnly_keeps ..)
    exact Keeps.refl _

theorem execVcmp_keeps (t : ThreadId) (w : SlateWord) (s : State) :
    KeepsOut s (execVcmp t w s) := by
  unfold execVcmp
  refine KeepsOut.trans ?_ (State.issue_keeps (heff := fun y0 _ => ?_) ..)
  · exact Keeps.refl _
  · extract_lets -merge -useContext -underBinder +onlyGivenNames v1
    try clear_value v1
    show Keeps _ _
    exact (State.setThread_keeps ..)

theorem State.predOp_keeps (s : State) (t : ThreadId) (w : SlateWord) (opc : BitVec 8) (b : RegKind) (f : BitVec 64 → BitVec 64 → BitVec 64) :
    KeepsOut s (s.predOp t w opc b f) := by
  unfold State.predOp
  refine KeepsOut.trans ?_ (State.issue_keeps (heff := fun y0 _ => ?_) ..)
  · exact Keeps.refl _
  · refine KeepsIssue.trans ?_ (State.regsOnly_keeps ..)
    exact Keeps.refl _

theorem execPand_keeps (t : ThreadId) (w : SlateWord) (s : State) :
    KeepsOut s (execPand t w s) := by
  unfold execPand
  refine KeepsOut.trans ?_ (State.predOp_keeps ..)
  exact Keeps.refl _

theorem execPor_keeps (t : ThreadId) (w : SlateWord) (s : State) :
    KeepsOut s (execPor t w s) := by
  unfold execPor
  refine KeepsOut.trans ?_ (State.predOp_keeps ..)
  exact Keeps.refl _

theorem execPxor_keeps (t : ThreadId) (w : SlateWord) (s : State) :
    KeepsOut s (execPxor t w s) := by
  unfold execPxor
  refine KeepsOut.trans ?_ (State.predOp_keeps ..)
  exact Keeps.refl _

theorem execPnot_keeps (t : ThreadId) (w : SlateWord) (s : State) :
    KeepsOut s (execPnot t w s) := by
  unfold execPnot
  refine KeepsOut.trans ?_ (State.predOp_keeps ..)
  exact Keeps.refl _

theorem execPset_keeps (t : ThreadId) (w : SlateWord) (s : State) :
    KeepsOut s (execPset t w s) := by
  unfold execPset
  refine KeepsOut.trans ?_ (State.issue_keeps (heff := fun y0 _ => ?_) ..)
  · exact Keeps.refl _
  · refine KeepsIssue.trans ?_ (State.regsOnly_keeps ..)
    exact Keeps.refl _

theorem execPget_keeps (t : ThreadId) (w : SlateWord) (s : State) :
    KeepsOut s (execPget t w s) := by
  unfold execPget
  refine KeepsOut.trans ?_ (State.issue_keeps (heff := fun y0 _ => ?_) ..)
  · exact Keeps.refl _
  · refine KeepsIssue.trans ?_ (State.regsOnly_keeps ..)
    exact Keeps.refl _

theorem execPcnt_keeps (t : ThreadId) (w : SlateWord) (s : State) :
    KeepsOut s (execPcnt t w s) := by
  unfold execPcnt
  refine KeepsOut.trans ?_ (State.issue_keeps (heff := fun y0 _ => ?_) ..)
  · exact Keeps.refl _
  · refine KeepsIssue.trans ?_ (State.regsOnly_keeps ..)
    exact Keeps.refl _

end Sys2Proof.Machine
end

