-- ==== Sys2Proof/Laws/KeepsPanel.lean ====
section
/-!
SUPPORT. What `Keeps` says, of finishing, ageing, the Assembly link, the blitter, cameras and placement: one lemma per operation.
-/
namespace Sys2Proof.Machine

open Sys2Proof.Safety

theorem State.prefetchLine_keeps (late : Bool) (p : State × ResidualRow) (ln : Nat) :
    Keeps p.1 (State.prefetchLine late p ln).1 := by
  unfold State.prefetchLine
  dsimp only
  split
  · exact Keeps.refl _
  · exact State.devRead_keeps ..

theorem State.finArm_keeps (s : State) :
    Keeps s (s.finArm) := by
  unfold State.finArm
  extract_lets -merge -useContext -underBinder +onlyGivenNames v0
  have h1 : Keeps s v0 := by
    unfold v0
    exact (State.noteArm_keeps ..)
  refine Keeps.of_mk ?_ rfl rfl (Nat.le_refl _) rfl rfl rfl rfl rfl rfl
  exact h1

theorem State.finCtrlWrite_keeps (s : State) (v : Word) :
    Keeps s (s.finCtrlWrite v) := by
  unfold State.finCtrlWrite
  extract_lets -merge -useContext -underBinder +onlyGivenNames v0
  have h1 : Keeps s v0 := by
    unfold v0
    exact (State.store_keeps ..)
  clear_value v0
  split
  · exact .trans h1 (State.finArm_keeps ..)
  · exact h1

theorem execFinArm_keeps (b : BusWrite) (s : State) :
    KeepsOut s (execFinArm b s) := by
  unfold execFinArm
  refine KeepsOut.next ?_
  refine Keeps.trans ?_ (State.busWrite_keeps (heff := fun y0 _ => ?_) ..)
  · exact Keeps.refl _
  · exact (State.finCtrlWrite_keeps ..)

theorem State.commitFin_keeps (s : State) :
    Keeps s (s.commitFin) := by
  unfold State.commitFin
  split
  · refine Keeps.of_mk ?_ rfl rfl (Nat.le_refl _) rfl rfl rfl rfl rfl rfl
    exact Keeps.refl _
  · exact Keeps.refl _

theorem State.evalMatrix_keeps (s : State) (n : Nat) :
    Keeps s (s.evalMatrix n) := by
  unfold State.evalMatrix
  extract_lets -merge -useContext -underBinder +onlyGivenNames v0 v1 v2
  try clear_value v1; try clear_value v0
  have h3 : Keeps s v2 := by
    unfold v2
    split
    · exact (State.setFlag_keeps ..)
    · exact (State.clrFlag_keeps ..)
  clear_value v2
  extract_lets -merge -useContext -underBinder +onlyGivenNames v4 v5 v6
  try clear_value v5; try clear_value v4
  have h7 : Keeps s v6 := by
    unfold v6
    refine Keeps.foldl ?_ (fun y8 _ => ?_)
    · exact .trans h3 (State.setReg_keeps ..)
    · exact (State.setReg_keeps ..)
  clear_value v6
  refine Keeps.of_mk ?_ rfl rfl (Nat.le_refl _) rfl rfl rfl rfl rfl rfl
  exact h7

theorem State.finSlot447_keeps (s : State) :
    Keeps s (s.finSlot447) := by
  unfold State.finSlot447
  split
  · exact Keeps.refl _
  · extract_lets -merge -useContext -underBinder +onlyGivenNames v0
    have h1 : Keeps s v0 := by
      unfold v0
      split
      · refine Keeps.of_mk ?_ rfl rfl (Nat.le_refl _) rfl rfl rfl rfl rfl rfl
        exact Keeps.refl _
      · exact Keeps.refl _
    clear_value v0
    refine Keeps.trans ?_ (State.eachTile_keeps (hf := fun y2 _ => ?_) ..)
    · exact h1
    · exact (State.evalMatrix_keeps ..)

theorem execNoTemp_keeps (tile : Fin 16) (s : State) :
    KeepsOut s (execNoTemp tile s) := by
  unfold execNoTemp
  extract_lets -merge -useContext -underBinder +onlyGivenNames v0 v1
  try clear_value v1; try clear_value v0
  split
  · refine KeepsOut.next ?_
    exact .trans ((State.setFlag_keeps ..)) (State.event_keeps ..)
  · refine KeepsOut.next ?_
    exact Keeps.refl _

theorem State.prefetch_keeps (s : State) (row : Nat) (late : Bool) :
    Keeps s (s.prefetch row late) := by
  unfold State.prefetch
  split
  · extract_lets -merge -useContext -underBinder +onlyGivenNames v0 v1
    try clear_value v0
    have h2 : Keeps s v1.1 := by
      unfold v1
      refine Keeps.foldl1 ?_ (fun y3 _ => ?_)
      · exact Keeps.refl _
      · exact State.prefetchLine_keeps ..
    clear_value v1
    extract_lets -merge -useContext -underBinder +onlyGivenNames v4 v5
    try clear_value v4
    have h6 : Keeps s v5 := by
      unfold v5
      exact h2
    refine Keeps.of_mk ?_ rfl rfl (Nat.le_refl _) rfl rfl rfl rfl rfl rfl
    exact h6

theorem State.prefetchSlot_keeps (s : State) (k : Nat) :
    Keeps s (s.prefetchSlot k) := by
  unfold State.prefetchSlot
  split
  · exact Keeps.refl _
  · split
    · exact (State.prefetch_keeps ..)
    · split
      · exact (State.prefetch_keeps ..)
      · split
        · exact (State.prefetch_keeps ..)
        · exact Keeps.refl _

theorem State.prefetchFlip_keeps (s : State) (k : Nat) :
    Keeps s (s.prefetchFlip k) := by
  unfold State.prefetchFlip
  extract_lets -merge -useContext -underBinder +onlyGivenNames v0 v1 x3 v2
  try clear_value v1; try clear_value v0
  have h4 : Keeps s v2 := by
    unfold v2
    refine Keeps.of_mk ?_ rfl rfl (Nat.le_refl _) rfl rfl rfl rfl rfl rfl
    exact Keeps.refl _
  clear_value v2
  split
  · exact h4
  · refine Keeps.foldl ?_ (fun y5 _ => ?_)
    · exact h4
    · split
      · exact Keeps.refl _
      · exact (State.prefetch_keeps ..)

theorem State.residualArrive_keeps (s : State) (r : ResidualRow) (lines : List Nat) :
    Keeps s (s.residualArrive r lines).1 := by
  unfold State.residualArrive
  extract_lets -merge -useContext -underBinder +onlyGivenNames v0 v1
  try clear_value v1; try clear_value v0
  refine Keeps.foldl1 ?_ (fun y2 _ => ?_)
  · exact (State.drawn_keeps ..)
  · exact State.prefetchLine_keeps ..

theorem State.setResidual_keeps (s : State) (r : ResidualRow) :
    Keeps s (s.setResidual r) := by
  unfold State.setResidual
  extract_lets -merge -useContext -underBinder +onlyGivenNames v0 v1
  try clear_value v1; try clear_value v0
  refine Keeps.of_mk ?_ rfl rfl (Nat.le_refl _) rfl rfl rfl rfl rfl rfl
  exact Keeps.refl _

theorem State.readResiduals_keeps (s : State) (n : Nat) (row : Nat) (p : Nat) :
    Keeps s (s.readResiduals n row p).1 := by
  unfold State.readResiduals
  extract_lets -merge -useContext -underBinder +onlyGivenNames v0 v1 v2
  try clear_value v1; try clear_value v0
  have h3 : Keeps s v2.1 := by
    unfold v2
    exact (State.residualArrive_keeps ..)
  clear_value v2
  extract_lets -merge -useContext -underBinder +onlyGivenNames v4 v5 v6
  try clear_value v5; try clear_value v4
  have h7 : Keeps s v6 := by
    unfold v6
    exact .trans h3 (State.setResidual_keeps ..)
  clear_value v6
  extract_lets -merge -useContext -underBinder +onlyGivenNames v8
  have h9 : Keeps s v8 := by
    unfold v8
    split
    · exact h7
    · exact .trans (.trans h7 (State.bump_keeps ..)) (State.event_keeps ..)
  clear_value v8
  exact h9

theorem State.finResBaseWrite_keeps (s : State) (v : Word) :
    Keeps s (s.finResBaseWrite v) := by
  unfold State.finResBaseWrite
  split
  · exact (State.store_keeps ..)
  · exact (State.store_keeps ..)

theorem execFinResBaseWrite_keeps (b : BusWrite) (s : State) :
    KeepsOut s (execFinResBaseWrite b s) := by
  unfold execFinResBaseWrite
  refine KeepsOut.next ?_
  refine Keeps.trans ?_ (State.busWrite_keeps (heff := fun y0 _ => ?_) ..)
  · exact Keeps.refl _
  · exact (State.finResBaseWrite_keeps ..)

theorem State.gainRequest_keeps (s : State) (n : Nat) (x : Nat) :
    Keeps s (s.gainRequest n x) := by
  unfold State.gainRequest
  extract_lets -merge -useContext -underBinder +onlyGivenNames v0
  try clear_value v0
  split
  · refine Keeps.of_mk ?_ rfl rfl (Nat.le_refl _) rfl rfl rfl rfl rfl rfl
    exact Keeps.refl _
  · extract_lets -merge -useContext -underBinder +onlyGivenNames v1 x3 v2
    try clear_value v1
    have h4 : Keeps s v2 := by
      unfold v2
      refine Keeps.of_mk ?_ rfl rfl (Nat.le_refl _) rfl rfl rfl rfl rfl rfl
      exact Keeps.refl _
    clear_value v2
    split
    · exact .trans (.trans (.trans (.trans h4 (State.setFlag_keeps ..)) (State.bump_keeps ..)) (State.event_keeps ..)) (State.returnBuffer_keeps ..)
    · exact h4

theorem State.gainError_keeps (s : State) (n : Nat) :
    Keeps s (s.gainError n) := by
  unfold State.gainError
  exact .trans ((State.setFlag_keeps ..)) (State.event_keeps ..)

theorem State.gainAccept_keeps (s : State) (n : Nat) (x : Nat) :
    Keeps s (s.gainAccept n x) := by
  unfold State.gainAccept
  split
  · exact .trans ((State.returnBuffer_keeps ..)) (State.gainError_keeps ..)
  · exact (State.gainRequest_keeps ..)

theorem State.gainLoadWrite_keeps (s : State) (m : Nat) (v : Word) :
    Keeps s (s.gainLoadWrite m v) := by
  unfold State.gainLoadWrite
  extract_lets -merge -useContext -underBinder +onlyGivenNames v0 v1
  try clear_value v1; try clear_value v0
  split
  · extract_lets -merge -useContext -underBinder +onlyGivenNames v2
    have h3 : Keeps s v2 := by
      unfold v2
      exact (State.post_keeps ..)
    refine Keeps.of_mk ?_ rfl rfl (Nat.le_refl _) rfl rfl rfl rfl rfl rfl
    exact h3
  · split
    · extract_lets -merge -useContext -underBinder +onlyGivenNames v4
      try clear_value v4
      refine Keeps.of_mk ?_ rfl rfl (Nat.le_refl _) rfl rfl rfl rfl rfl rfl
      exact Keeps.refl _
    · exact (State.post_keeps ..)

theorem execFinGainLoad_keeps (b : BusWrite) (s : State) :
    KeepsOut s (execFinGainLoad b s) := by
  unfold execFinGainLoad
  refine KeepsOut.next ?_
  refine Keeps.trans ?_ (State.busWrite_keeps (heff := fun y0 _ => ?_) ..)
  · exact Keeps.refl _
  · exact (State.gainLoadWrite_keeps ..)

theorem execGainCopy_keeps (s : State) :
    KeepsOut s (execGainCopy s) := by
  unfold execGainCopy
  split
  · refine KeepsOut.next ?_
    exact Keeps.refl _
  · extract_lets -merge -useContext -underBinder +onlyGivenNames v0
    try clear_value v0
    split
    · extract_lets -merge -useContext -underBinder +onlyGivenNames v1
      have h2 : Keeps s v1.1 := by
        unfold v1
        exact (State.devRead_keeps ..)
      clear_value v1
      extract_lets -merge -useContext -underBinder +onlyGivenNames v3 v4 v5 x7 x8 v6
      try clear_value v5; try clear_value v4; try clear_value v3
      have h9 : Keeps s v6 := by
        unfold v6
        have h10 : Keeps s x7 := by
          unfold x7
          exact .trans h2 (State.noteSram_keeps ..)
        clear_value x7
        refine Keeps.of_mk ?_ rfl rfl (Nat.le_refl _) rfl rfl rfl rfl rfl rfl
        exact h10
      clear_value v6
      refine KeepsOut.next ?_
      exact .trans (.trans (.trans h9 (State.returnBuffer_keeps ..)) (State.bump_keeps ..)) (State.event_keeps ..)
    · refine KeepsOut.next ?_
      exact Keeps.refl _

theorem State.expressDrop_keeps (s : State) (n : Nat) :
    Keeps s (s.expressDrop n) := by
  unfold State.expressDrop
  exact .trans ((State.bump_keeps ..)) (State.event_keeps ..)

theorem State.spliceTarget_keeps (frame : Nat) (p : State × List Nat) (t : RayTarget) :
    Keeps p.1 (State.spliceTarget frame p t).1 := by
  unfold State.spliceTarget
  extract_lets -merge -useContext -underBinder +onlyGivenNames s n k ahead
  clear_value ahead
  split
  · exact State.expressDrop_keeps ..
  · split
    · exact Keeps.refl _
    · split
      · exact State.expressDrop_keeps ..
      · extract_lets -merge -useContext -underBinder +onlyGivenNames near r s1 ray f s2 x s3
        have h1 : Keeps s s1 := by
          unfold s1 r
          split
          · exact State.readResiduals_keeps ..
          · exact State.bump_keeps ..
        clear_value s1
        refine .trans ?_ (State.bump_keeps ..)
        exact Keeps.of_mk (h1.trans (State.setTile_keeps ..)) rfl rfl (Nat.le_refl _) rfl rfl rfl rfl rfl rfl

theorem execSpliceTest_keeps (s : State) : KeepsOut s (execSpliceTest s) := by
  unfold execSpliceTest
  split
  · exact .next (Keeps.refl _)
  · generalize (if s.latency = true then 102 else 114) = cc
    split
    · refine .next (Keeps.foldl1 ?_ fun _ _ => State.spliceTarget_keeps ..)
      exact Keeps.of_mk (Keeps.refl s) rfl rfl (Nat.le_refl _) rfl rfl rfl rfl rfl rfl
    · exact .next (Keeps.refl _)

theorem State.finCntClr_keeps (s : State) (v : Word) :
    Keeps s (s.finCntClr v) := by
  unfold State.finCntClr
  split
  · exact .trans ((State.clrRegs_keeps ..)) (State.clrRegs_keeps ..)
  · exact Keeps.refl _

theorem execFinCntClr_keeps (b : BusWrite) (s : State) :
    KeepsOut s (execFinCntClr b s) := by
  unfold execFinCntClr
  refine KeepsOut.next ?_
  refine Keeps.trans ?_ (State.busWrite_keeps (heff := fun y0 _ => ?_) ..)
  · exact Keeps.refl _
  · exact (State.finCntClr_keeps ..)

theorem State.setRptTile_keeps (s : State) (n : Nat) (t : RptTile) :
    Keeps s (s.setRptTile n t) := by
  unfold State.setRptTile
  refine Keeps.of_mk ?_ rfl rfl (Nat.le_refl _) rfl rfl rfl rfl rfl rfl
  exact Keeps.refl _

theorem State.masterStore_keeps (s : State) (m : Nat) (off : Nat) (v : Word) :
    Keeps s (s.masterStore m off v) := by
  unfold State.masterStore
  split
  · exact Keeps.refl _
  · split
    · exact (State.violation_keeps ..)
    · split
      · exact Keeps.refl _
      · exact (State.store_keeps ..)

theorem State.rptTake_keeps (s : State) (n : Nat) (u : Nat) (v : Nat) (codes : List Nat) (res : List (Option Int)) :
    Keeps s (s.rptTake n u v codes res) := by
  unfold State.rptTake
  split
  · extract_lets -merge -useContext -underBinder +onlyGivenNames v0 v1
    try clear_value v1; try clear_value v0
    exact (State.setRptTile_keeps ..)
  · exact Keeps.refl _

theorem State.rptSkip_keeps (s : State) (n : Nat) (v : Nat) :
    Keeps s (s.rptSkip n v) := by
  unfold State.rptSkip
  extract_lets -merge -useContext -underBinder +onlyGivenNames x1 v0
  have h2 : Keeps s v0 := by
    unfold v0
    exact (State.setRptTile_keeps ..)
  clear_value v0
  split
  · exact .trans h2 (State.bump_keeps ..)
  · exact h2

theorem State.rptRowDone_keeps (s : State) (n : Nat) (v : Nat) :
    Keeps s (s.rptRowDone n v) := by
  unfold State.rptRowDone
  split
  · exact Keeps.refl _
  · split
    · exact Keeps.refl _
    · extract_lets -merge -useContext -underBinder +onlyGivenNames v0
      try clear_value v0
      split
      · exact (State.rptSkip_keeps ..)
      · extract_lets -merge -useContext -underBinder +onlyGivenNames v1 v2
        try clear_value v1
        have h3 : Keeps s v2.1 := by
          unfold v2
          exact (State.devRead_keeps ..)
        clear_value v2
        extract_lets -merge -useContext -underBinder +onlyGivenNames v4 v5
        try clear_value v4
        have h6 : Keeps s v5.1 := by
          unfold v5
          exact .trans h3 (State.devWrite_keeps ..)
        clear_value v5
        extract_lets -merge -useContext -underBinder +onlyGivenNames v7
        have h8 : Keeps s v7 := by
          unfold v7
          exact .trans (.trans h6 (State.bump_keeps ..)) (State.bump_keeps ..)
        clear_value v7
        exact .trans h8 (State.setRptTile_keeps ..)

theorem State.foldGroup_keeps (s : State) (n : Nat) (x : Sampled) :
    Keeps s (s.foldGroup n x) := by
  unfold State.foldGroup
  extract_lets -merge -useContext -underBinder +onlyGivenNames v0 v1 v2 v3
  try clear_value v2; try clear_value v1; try clear_value v0
  have h4 : Keeps s v3.1 := by
    unfold v3
    exact (State.devRead_keeps ..)
  clear_value v3
  extract_lets -merge -useContext -underBinder +onlyGivenNames v5
  have h6 : Keeps s v5 := by
    unfold v5
    exact h4
  clear_value v5
  extract_lets -merge -useContext -underBinder +onlyGivenNames v7 v8
  try clear_value v8; try clear_value v7
  split
  · exact .trans (.trans h6 (State.drawn_keeps ..)) (State.bump_keeps ..)
  · extract_lets -merge -useContext -underBinder +onlyGivenNames v9 v10 v11 v12 v13 v14 v15 v16 v17
    try clear_value v16; try clear_value v15; try clear_value v14; try clear_value v13; try clear_value v12; try clear_value v11; try clear_value v10; try clear_value v9
    have h18 : Keeps s v17 := by
      unfold v17
      exact .trans h6 (State.devWrite_keeps ..)
    clear_value v17
    extract_lets -merge -useContext -underBinder +onlyGivenNames v19
    have h20 : Keeps s v19 := by
      unfold v19
      exact .trans h18 (State.devWrite_keeps ..)
    clear_value v19
    extract_lets -merge -useContext -underBinder +onlyGivenNames v21 v22
    try clear_value v21
    have h23 : Keeps s v22 := by
      unfold v22
      exact .trans h20 (State.setRptTile_keeps ..)
    clear_value v22
    exact .trans (.trans h23 (State.drawn_keeps ..)) (State.bump_keeps ..)

theorem State.foldFrame_keeps (s : State) :
    Keeps s (s.foldFrame) := by
  unfold State.foldFrame
  split
  · exact Keeps.refl _
  · extract_lets -merge -useContext -underBinder +onlyGivenNames v0
    try clear_value v0
    refine Keeps.foldl ?_ (fun y1 _ => ?_)
    · exact Keeps.refl _
    · extract_lets -merge -useContext -underBinder +onlyGivenNames v2
      try clear_value v2
      split
      · exact Keeps.refl _
      · refine Keeps.foldl ?_ (fun y3 _ => ?_)
        · exact Keeps.refl _
        · exact (State.foldGroup_keeps ..)

theorem State.sense_keeps (s : State) :
    Keeps s (s.sense) := by
  unfold State.sense
  split
  · exact Keeps.refl _
  · extract_lets -merge -useContext -underBinder +onlyGivenNames v0 v1
    try clear_value v1; try clear_value v0
    refine Keeps.trans ?_ (State.eachTile_keeps (hf := fun y2 _ => ?_) ..)
    · exact Keeps.refl _
    · split
      · exact Keeps.refl _
      · refine Keeps.foldl ?_ (fun y3 _ => ?_)
        · exact Keeps.refl _
        · extract_lets -merge -useContext -underBinder +onlyGivenNames v4
          try clear_value v4
          split
          · exact Keeps.refl _
          · extract_lets -merge -useContext -underBinder +onlyGivenNames v5 v6
            try clear_value v6; try clear_value v5
            exact .trans (.trans ((State.setRptTile_keeps ..)) (State.tileCommand_keeps ..)) (State.drawn_keeps ..)

theorem State.senseSample_keeps (s : State) (n : Nat) (i : Nat) (sample : Nat) (good : Bool) :
    Keeps s (s.senseSample n i sample good) := by
  unfold State.senseSample
  split
  · exact (State.bump_keeps ..)
  · extract_lets -merge -useContext -underBinder +onlyGivenNames v0
    have h1 : Keeps s v0.1 := by
      unfold v0
      exact (State.devRead_keeps ..)
    clear_value v0
    extract_lets -merge -useContext -underBinder +onlyGivenNames v2
    have h3 : Keeps s v2.1 := by
      unfold v2
      exact .trans h1 (State.devRead_keeps ..)
    clear_value v2
    extract_lets -merge -useContext -underBinder +onlyGivenNames v4
    have h5 : Keeps s v4 := by
      unfold v4
      exact .trans h3 (State.bump_keeps ..)
    clear_value v4
    split
    · exact h5
    · extract_lets -merge -useContext -underBinder +onlyGivenNames v6
      try clear_value v6
      exact .trans h5 (State.setRptTile_keeps ..)

theorem State.cycleEnd_keeps (s : State) :
    Keeps s (s.cycleEnd) := by
  unfold State.cycleEnd
  split
  · exact Keeps.refl _
  · extract_lets -merge -useContext -underBinder +onlyGivenNames v0 v1 v2
    try clear_value v2; try clear_value v1; try clear_value v0
    refine Keeps.trans ?_ (State.drawn_keeps ..)
    refine Keeps.trans ?_ (State.eachTile_keeps (hf := fun y3 _ => ?_) ..)
    · exact Keeps.refl _
    · extract_lets -merge -useContext -underBinder +onlyGivenNames v4 v5 v6 v7
      try clear_value v7; try clear_value v6; try clear_value v5; try clear_value v4
      exact (State.setRptTile_keeps ..)

theorem State.rptCtrlWrite_keeps (s : State) (v : Word) :
    Keeps s (s.rptCtrlWrite v) := by
  unfold State.rptCtrlWrite
  extract_lets -merge -useContext -underBinder +onlyGivenNames v0 v1 v2 v3
  try clear_value v2; try clear_value v1; try clear_value v0
  have h4 : Keeps s v3 := by
    unfold v3
    exact (State.store_keeps ..)
  clear_value v3
  extract_lets -merge -useContext -underBinder +onlyGivenNames v5
  try clear_value v5
  split
  · refine Keeps.trans ?_ (State.eachTile_keeps (hf := fun y6 _ => ?_) ..)
    · exact h4
    · extract_lets -merge -useContext -underBinder +onlyGivenNames v7
      try clear_value v7
      exact (State.setRptTile_keeps ..)
  · split
    · refine Keeps.of_mk ?_ rfl rfl (Nat.le_refl _) rfl rfl rfl rfl rfl rfl
      exact h4
    · exact h4

theorem execRptClear_keeps (b : BusWrite) (s : State) :
    KeepsOut s (execRptClear b s) := by
  unfold execRptClear
  refine KeepsOut.next ?_
  refine Keeps.trans ?_ (State.busWrite_keeps (heff := fun y0 _ => ?_) ..)
  · exact Keeps.refl _
  · exact (State.rptCtrlWrite_keeps ..)

theorem State.zeroRange_keeps (s : State) (a : Nat) (n : Nat) : Keeps s (s.zeroRange a n) :=
  ⟨rfl, rfl, Nat.le_refl _, id, SMap.wf_filter _ _, id, fun _ _ h => h, fun _ _ h => h, fun _ _ h => h⟩

theorem execStressClearDone_keeps (s : State) :
    KeepsOut s (execStressClearDone s) := by
  unfold execStressClearDone
  split
  · extract_lets -merge -useContext -underBinder +onlyGivenNames x1 v0
    have h2 : Keeps s v0 := by
      unfold v0
      refine Keeps.of_mk ?_ rfl rfl (Nat.le_refl _) rfl rfl rfl rfl rfl rfl
      exact Keeps.refl _
    clear_value v0
    split
    · refine KeepsOut.next ?_
      exact .trans h2 (State.zeroRange_keeps ..)
    · refine KeepsOut.next ?_
      exact .trans h2 (State.violation_keeps ..)
  · refine KeepsOut.next ?_
    exact Keeps.refl _

theorem State.rptCntClr_keeps (s : State) (v : Word) :
    Keeps s (s.rptCntClr v) := by
  unfold State.rptCntClr
  split
  · exact (State.clrRegs_keeps ..)
  · exact Keeps.refl _

theorem execRptCntClr_keeps (b : BusWrite) (s : State) :
    KeepsOut s (execRptCntClr b s) := by
  unfold execRptCntClr
  refine KeepsOut.next ?_
  refine Keeps.trans ?_ (State.busWrite_keeps (heff := fun y0 _ => ?_) ..)
  · exact Keeps.refl _
  · exact (State.rptCntClr_keeps ..)

theorem State.gainStep_keeps (s : State) (n : Nat) :
    Keeps s (s.gainStep n) := by
  unfold State.gainStep
  split
  · exact Keeps.refl _
  · extract_lets -merge -useContext -underBinder +onlyGivenNames v0 v1 v2 v3 v4
    try clear_value v4; try clear_value v3; try clear_value v2; try clear_value v1; try clear_value v0
    exact (State.setReg_keeps ..)

theorem State.trimStart_keeps (s : State) :
    Keeps s (s.trimStart) := by
  unfold State.trimStart
  extract_lets -merge -useContext -underBinder +onlyGivenNames v0
  try clear_value v0
  split
  · refine Keeps.of_mk ?_ rfl rfl (Nat.le_refl _) rfl rfl rfl rfl rfl rfl
    exact Keeps.refl _
  · exact Keeps.refl _

theorem State.refSense_keeps (s : State) (n : Nat) :
    Keeps s (s.refSense n) := by
  unfold State.refSense
  exact .trans ((State.tileCommand_keeps ..)) (State.tileCommand_keeps ..)

theorem execTrimMeasurement_keeps (trim : BitVec 24) (s : State) :
    KeepsOut s (execTrimMeasurement trim s) := by
  unfold execTrimMeasurement
  split
  · split
    · extract_lets -merge -useContext -underBinder +onlyGivenNames x1 v0
      have h2 : Keeps s v0 := by
        unfold v0
        refine Keeps.of_mk ?_ rfl rfl (Nat.le_refl _) rfl rfl rfl rfl rfl rfl
        exact Keeps.refl _
      clear_value v0
      extract_lets -merge -useContext -underBinder +onlyGivenNames v3 x5 x6 x7 v4
      try clear_value v3
      have h8 : Keeps s v4 := by
        unfold v4
        split
        · exact .trans h2 (State.event_keeps ..)
        · refine Keeps.trans ?_ (State.bump_keeps ..)
          refine Keeps.of_mk ?_ rfl rfl (Nat.le_refl _) rfl rfl rfl rfl rfl rfl
          exact h2
      clear_value v4
      refine KeepsOut.next ?_
      exact .trans h8 (State.refSense_keeps ..)
    · refine KeepsOut.next ?_
      exact Keeps.refl _
  · refine KeepsOut.next ?_
    exact Keeps.refl _

theorem State.ageTrack_keeps (s : State) :
    Keeps s (s.ageTrack) := by
  unfold State.ageTrack
  split
  · exact Keeps.refl _
  · extract_lets -merge -useContext -underBinder +onlyGivenNames v0
    have h1 : Keeps s v0 := by
      unfold v0
      refine Keeps.trans ?_ (State.eachTile_keeps (hf := fun y2 _ => ?_) ..)
      · exact Keeps.refl _
      · extract_lets -merge -useContext -underBinder +onlyGivenNames v3
        have h4 : Keeps y2 v3 := by
          unfold v3
          refine Keeps.foldl ?_ (fun y5 _ => ?_)
          · exact Keeps.refl _
          · extract_lets -merge -useContext -underBinder +onlyGivenNames v6 v7 v8 v9 v10
            try clear_value v10; try clear_value v9; try clear_value v8; try clear_value v7; try clear_value v6
            refine Keeps.of_mk ?_ rfl rfl (Nat.le_refl _) rfl rfl rfl rfl rfl rfl
            exact Keeps.refl _
        clear_value v3
        refine Keeps.foldl ?_ (fun y11 _ => ?_)
        · exact h4
        · refine Keeps.foldl ?_ (fun y12 _ => ?_)
          · exact Keeps.refl _
          · extract_lets -merge -useContext -underBinder +onlyGivenNames v13 v14 v15
            try clear_value v15; try clear_value v14; try clear_value v13
            exact (State.masterStore_keeps ..)
    clear_value v0
    split
    · exact .trans h1 (State.finArm_keeps ..)
    · exact h1

theorem State.installRecord_keeps (s : State) :
    Keeps s (s.installRecord) := by
  unfold State.installRecord
  split
  · exact Keeps.refl _
  · split
    · exact Keeps.refl _
    · extract_lets -merge -useContext -underBinder +onlyGivenNames x1 v0
      have h2 : Keeps s v0 := by
        unfold v0
        refine Keeps.of_mk ?_ rfl rfl (Nat.le_refl _) rfl rfl rfl rfl rfl rfl
        exact Keeps.refl _
      clear_value v0
      extract_lets -merge -useContext -underBinder +onlyGivenNames v3
      have h4 : Keeps s v3 := by
        unfold v3
        refine Keeps.trans ?_ (State.eachTile_keeps (hf := fun y5 _ => ?_) ..)
        · exact h2
        · extract_lets -merge -useContext -underBinder +onlyGivenNames v6
          have h7 : Keeps y5 v6 := by
            unfold v6
            exact (State.masterStore_keeps ..)
          clear_value v6
          extract_lets -merge -useContext -underBinder +onlyGivenNames v8
          have h9 : Keeps y5 v8 := by
            unfold v8
            refine Keeps.foldl ?_ (fun y10 _ => ?_)
            · exact h7
            · refine Keeps.foldl ?_ (fun y11 _ => ?_)
              · exact (State.masterStore_keeps ..)
              · exact (State.masterStore_keeps ..)
          clear_value v8
          extract_lets -merge -useContext -underBinder +onlyGivenNames v12 x14 v13
          try clear_value v12
          have h15 : Keeps y5 v13 := by
            unfold v13
            exact .trans h9 (State.setRptTile_keeps ..)
          clear_value v13
          refine Keeps.of_mk ?_ rfl rfl (Nat.le_refl _) rfl rfl rfl rfl rfl rfl
          exact h15
      clear_value v3
      extract_lets -merge -useContext -underBinder +onlyGivenNames v16 x18 v17
      try clear_value v16
      have h19 : Keeps s v17 := by
        unfold v17
        refine Keeps.of_mk ?_ rfl rfl (Nat.le_refl _) rfl rfl rfl rfl rfl rfl
        exact h4
      clear_value v17
      split
      · exact .trans h19 (State.finArm_keeps ..)
      · exact h19

theorem State.recAccept_keeps (s : State) (x : Nat) :
    Keeps s (s.recAccept x) := by
  unfold State.recAccept
  extract_lets -merge -useContext -underBinder +onlyGivenNames v0
  have h1 : ∀ a2, Keeps a2 (v0 a2) := by
    intro a2
    unfold v0
    beta_reduce
    exact .trans ((State.returnBuffer_keeps ..)) (State.setFlag_keeps ..)
  clear_value v0
  split
  · exact (h1 ..)
  · extract_lets -merge -useContext -underBinder +onlyGivenNames v3
    have h4 : Keeps s v3.1 := by
      unfold v3
      exact (State.devRead_keeps ..)
    clear_value v3
    extract_lets -merge -useContext -underBinder +onlyGivenNames v5 v6
    try clear_value v6; try clear_value v5
    split
    · extract_lets -merge -useContext -underBinder +onlyGivenNames v7 x9 x10 v8
      try clear_value v7
      have h11 : Keeps s v8 := by
        unfold v8
        have h12 : Keeps s x9 := by
          unfold x9
          exact h4
        clear_value x9
        refine Keeps.of_mk ?_ rfl rfl (Nat.le_refl _) rfl rfl rfl rfl rfl rfl
        exact h12
      clear_value v8
      exact .trans (.trans h11 (State.setReg_keeps ..)) (State.returnBuffer_keeps ..)
    · exact .trans h4 (h1 ..)

theorem State.recLoadWrite_keeps (s : State) (v : Word) :
    Keeps s (s.recLoadWrite v) := by
  unfold State.recLoadWrite
  exact (State.post_keeps ..)

theorem execCalRecLoad_keeps (b : BusWrite) (s : State) :
    KeepsOut s (execCalRecLoad b s) := by
  unfold execCalRecLoad
  refine KeepsOut.next ?_
  refine Keeps.trans ?_ (State.busWrite_keeps (heff := fun y0 _ => ?_) ..)
  · exact Keeps.refl _
  · exact (State.recLoadWrite_keeps ..)

theorem State.recPostWrite_keeps (s : State) (v : Word) :
    Keeps s (s.recPostWrite v) := by
  unfold State.recPostWrite
  split
  · exact Keeps.refl _
  · exact (State.post_keeps ..)

theorem execCalRecPost_keeps (b : BusWrite) (s : State) :
    KeepsOut s (execCalRecPost b s) := by
  unfold execCalRecPost
  refine KeepsOut.next ?_
  refine Keeps.trans ?_ (State.busWrite_keeps (heff := fun y0 _ => ?_) ..)
  · exact Keeps.refl _
  · exact (State.recPostWrite_keeps ..)

theorem execRecordWrite_keeps (s : State) :
    KeepsOut s (execRecordWrite s) := by
  unfold execRecordWrite
  split
  · refine KeepsOut.next ?_
    exact Keeps.refl _
  · split
    · extract_lets -merge -useContext -underBinder +onlyGivenNames v0 v1 v2 x4 v3
      try clear_value v2; try clear_value v1; try clear_value v0
      have h5 : Keeps s v3 := by
        unfold v3
        refine Keeps.of_mk ?_ rfl rfl (Nat.le_refl _) rfl rfl rfl rfl rfl rfl
        exact Keeps.refl _
      clear_value v3
      refine KeepsOut.next ?_
      exact .trans (.trans (.trans h5 (State.setReg_keeps ..)) (State.returnFilled_keeps ..)) (State.event_keeps ..)
    · refine KeepsOut.next ?_
      exact Keeps.refl _

theorem State.recordDue_keeps (s : State) (asked : Bool) :
    Keeps s (s.recordDue asked) := by
  unfold State.recordDue
  refine Keeps.of_mk ?_ rfl rfl (Nat.le_refl _) rfl rfl rfl rfl rfl rfl
  exact Keeps.refl _

theorem State.baseHeader_keeps (s : State) (x : Nat) :
    Keeps s (s.baseHeader x).1 := by
  unfold State.baseHeader
  extract_lets -merge -useContext -underBinder +onlyGivenNames v0
  have h1 : Keeps s v0.1 := by
    unfold v0
    exact (State.devRead_keeps ..)
  clear_value v0
  exact h1

theorem State.baseAccept_keeps (s : State) (n : Nat) (x : Nat) :
    Keeps s (s.baseAccept n x) := by
  unfold State.baseAccept
  extract_lets -merge -useContext -underBinder +onlyGivenNames v0
  have h1 : ∀ a2, Keeps a2 (v0 a2) := by
    intro a2
    unfold v0
    beta_reduce
    exact .trans ((State.returnBuffer_keeps ..)) (State.setFlag_keeps ..)
  clear_value v0
  split
  · exact (h1 ..)
  · split
    · split
      · refine Keeps.trans ?_ (h1 ..)
        refine Keeps.of_fst (by assumption) ?_
        exact (State.baseHeader_keeps ..)
      · split
        · refine Keeps.of_mk ?_ rfl rfl (Nat.le_refl _) rfl rfl rfl rfl rfl rfl
          refine Keeps.of_fst (by assumption) ?_
          exact (State.baseHeader_keeps ..)
        · extract_lets -merge -useContext -underBinder +onlyGivenNames v3 x5 v4
          try clear_value v3
          have h6 : Keeps s v4 := by
            unfold v4
            refine Keeps.of_mk ?_ rfl rfl (Nat.le_refl _) rfl rfl rfl rfl rfl rfl
            refine Keeps.of_fst (by assumption) ?_
            exact (State.baseHeader_keeps ..)
          clear_value v4
          split
          · exact .trans (.trans (.trans h6 (State.setFlag_keeps ..)) (State.event_keeps ..)) (State.returnBuffer_keeps ..)
          · exact h6

theorem State.baseLoadWrite_keeps (s : State) (v : Word) :
    Keeps s (s.baseLoadWrite v) := by
  unfold State.baseLoadWrite
  exact (State.post_keeps ..)

theorem execCalBaseLoad_keeps (b : BusWrite) (s : State) :
    KeepsOut s (execCalBaseLoad b s) := by
  unfold execCalBaseLoad
  refine KeepsOut.next ?_
  refine Keeps.trans ?_ (State.busWrite_keeps (heff := fun y0 _ => ?_) ..)
  · exact Keeps.refl _
  · exact (State.baseLoadWrite_keeps ..)

theorem State.blendStart_keeps (s : State) (n : Nat) :
    Keeps s (s.blendStart n) := by
  unfold State.blendStart
  exact (State.setRptTile_keeps ..)

theorem execBaseLoadDone_keeps (tile : Fin 16) (s : State) :
    KeepsOut s (execBaseLoadDone tile s) := by
  unfold execBaseLoadDone
  extract_lets -merge -useContext -underBinder +onlyGivenNames v0
  try clear_value v0
  split
  · refine KeepsOut.next ?_
    exact Keeps.refl _
  · split
    · refine KeepsOut.next ?_
      exact Keeps.refl _
    · split
      · extract_lets -merge -useContext -underBinder +onlyGivenNames v1
        have h2 : Keeps s v1.1 := by
          unfold v1
          refine Keeps.trans ?_ (State.devRead_keeps ..)
          refine Keeps.of_fst (by assumption) ?_
          exact (State.baseHeader_keeps ..)
        clear_value v1
        extract_lets -merge -useContext -underBinder +onlyGivenNames v3
        have h4 : Keeps s v3 := by
          unfold v3
          exact .trans h2 (State.devWrite_keeps ..)
        clear_value v3
        extract_lets -merge -useContext -underBinder +onlyGivenNames v5 v6 x8 v7
        try clear_value v6; try clear_value v5
        have h9 : Keeps s v7 := by
          unfold v7
          refine Keeps.of_mk ?_ rfl rfl (Nat.le_refl _) rfl rfl rfl rfl rfl rfl
          exact h4
        clear_value v7
        refine KeepsOut.next ?_
        exact .trans (.trans (.trans (.trans h9 (State.returnBuffer_keeps ..)) (State.bump_keeps ..)) (State.blendStart_keeps ..)) (State.event_keeps ..)

theorem State.calRunWrite_keeps (s : State) (v : Word) :
    Keeps s (s.calRunWrite v) := by
  unfold State.calRunWrite
  extract_lets -merge -useContext -underBinder +onlyGivenNames v0 x2 v1
  try clear_value v0
  have h3 : Keeps s v1 := by
    unfold v1
    split
    · refine Keeps.of_mk ?_ rfl rfl (Nat.le_refl _) rfl rfl rfl rfl rfl rfl
      exact Keeps.refl _
    · exact Keeps.refl _
  clear_value v1
  extract_lets -merge -useContext -underBinder +onlyGivenNames x5 v4
  have h6 : Keeps s v4 := by
    unfold v4
    split
    · refine Keeps.of_mk ?_ rfl rfl (Nat.le_refl _) rfl rfl rfl rfl rfl rfl
      exact h3
    · exact h3
  clear_value v4
  split
  · exact .trans h6 (State.recordDue_keeps ..)
  · exact h6

theorem execCalElec_keeps (b : BusWrite) (s : State) :
    KeepsOut s (execCalElec b s) := by
  unfold execCalElec
  refine KeepsOut.next ?_
  refine Keeps.trans ?_ (State.busWrite_keeps (heff := fun y0 _ => ?_) ..)
  · exact Keeps.refl _
  · exact (State.calRunWrite_keeps ..)

theorem execCalSweep_keeps (b : BusWrite) (s : State) :
    KeepsOut s (execCalSweep b s) := by
  unfold execCalSweep
  refine KeepsOut.next ?_
  refine Keeps.trans ?_ (State.busWrite_keeps (heff := fun y0 _ => ?_) ..)
  · exact Keeps.refl _
  · exact (State.calRunWrite_keeps ..)

theorem execCalRec_keeps (b : BusWrite) (s : State) :
    KeepsOut s (execCalRec b s) := by
  unfold execCalRec
  refine KeepsOut.next ?_
  refine Keeps.trans ?_ (State.busWrite_keeps (heff := fun y0 _ => ?_) ..)
  · exact Keeps.refl _
  · exact (State.calRunWrite_keeps ..)

theorem State.elecStore_keeps (s : State) :
    Keeps s (s.elecStore) := by
  unfold State.elecStore
  extract_lets -merge -useContext -underBinder +onlyGivenNames v0 v1 v2 v3
  try clear_value v3; try clear_value v2; try clear_value v1; try clear_value v0
  refine Keeps.trans ?_ (State.drawn_keeps ..)
  refine Keeps.of_mk ?_ rfl rfl (Nat.le_refl _) rfl rfl rfl rfl rfl rfl
  exact Keeps.refl _

theorem State.sweepEnd_keeps (s : State) :
    Keeps s (s.sweepEnd) := by
  unfold State.sweepEnd
  refine Keeps.trans ?_ (State.drawn_keeps ..)
  refine Keeps.trans ?_ (State.eachTile_keeps (hf := fun y0 _ => ?_) ..)
  · exact Keeps.refl _
  · extract_lets -merge -useContext -underBinder +onlyGivenNames v1 v2
    try clear_value v2; try clear_value v1
    exact (State.setRptTile_keeps ..)

theorem State.proceduresFlip_keeps (s : State) :
    Keeps s (s.proceduresFlip) := by
  unfold State.proceduresFlip
  split
  · exact Keeps.refl _
  · extract_lets -merge -useContext -underBinder +onlyGivenNames v0
    try clear_value v0
    split
    · split
      · extract_lets -merge -useContext -underBinder +onlyGivenNames v1
        have h2 : Keeps s v1 := by
          unfold v1
          exact .trans ((State.elecStore_keeps ..)) (State.recordDue_keeps ..)
        clear_value v1
        refine Keeps.of_mk ?_ rfl rfl (Nat.le_refl _) rfl rfl rfl rfl rfl rfl
        exact h2
      · exact Keeps.refl _
    · split
      · extract_lets -merge -useContext -underBinder +onlyGivenNames v3
        have h4 : Keeps s v3 := by
          unfold v3
          exact .trans ((State.sweepEnd_keeps ..)) (State.recordDue_keeps ..)
        clear_value v3
        refine Keeps.of_mk ?_ rfl rfl (Nat.le_refl _) rfl rfl rfl rfl rfl rfl
        exact h4
      · exact Keeps.refl _
    · split
      · extract_lets -merge -useContext -underBinder +onlyGivenNames x6 v5
        have h7 : Keeps s v5 := by
          unfold v5
          refine Keeps.of_mk ?_ rfl rfl (Nat.le_refl _) rfl rfl rfl rfl rfl rfl
          exact Keeps.refl _
        clear_value v5
        refine Keeps.trans ?_ (State.eachTile_keeps (hf := fun y8 _ => ?_) ..)
        · exact h7
        · extract_lets -merge -useContext -underBinder +onlyGivenNames v9
          have h10 : Keeps y8 v9 := by
            unfold v9
            exact (State.zeroApp_keeps ..)
          clear_value v9
          split
          · exact .trans h10 (State.refSense_keeps ..)
          · exact h10
      · extract_lets -merge -useContext -underBinder +onlyGivenNames x12 v11
        have h13 : Keeps s v11 := by
          unfold v11
          refine Keeps.of_mk ?_ rfl rfl (Nat.le_refl _) rfl rfl rfl rfl rfl rfl
          exact Keeps.refl _
        clear_value v11
        refine Keeps.trans ?_ (State.eachTile_keeps (hf := fun y14 _ => ?_) ..)
        · exact h13
        · exact (State.setRptTile_keeps ..)
      · exact Keeps.refl _

theorem State.sweepIssue_keeps (s : State) (n : Nat) :
    Keeps s (s.sweepIssue n) := by
  unfold State.sweepIssue
  split
  · exact Keeps.refl _
  · extract_lets -merge -useContext -underBinder +onlyGivenNames v0 v1 v2
    try clear_value v2; try clear_value v1; try clear_value v0
    split
    · extract_lets -merge -useContext -underBinder +onlyGivenNames v3 x5 v4
      try clear_value v3
      have h6 : Keeps s v4 := by
        unfold v4
        refine Keeps.of_mk ?_ rfl rfl (Nat.le_refl _) rfl rfl rfl rfl rfl rfl
        exact Keeps.refl _
      clear_value v4
      exact .trans h6 (State.tileCommand_keeps ..)
    · exact Keeps.refl _

theorem State.calCntClr_keeps (s : State) (v : Word) :
    Keeps s (s.calCntClr v) := by
  unfold State.calCntClr
  split
  · exact (State.clrRegs_keeps ..)
  · exact Keeps.refl _

theorem execCalCntClr_keeps (b : BusWrite) (s : State) :
    KeepsOut s (execCalCntClr b s) := by
  unfold execCalCntClr
  refine KeepsOut.next ?_
  refine Keeps.trans ?_ (State.busWrite_keeps (heff := fun y0 _ => ?_) ..)
  · exact Keeps.refl _
  · exact (State.calCntClr_keeps ..)

theorem execCmdHandover_keeps (tile : Fin 16) (s : State) :
    KeepsOut s (execCmdHandover tile s) := by
  unfold execCmdHandover
  extract_lets -merge -useContext -underBinder +onlyGivenNames v0
  try clear_value v0
  split
  · refine KeepsOut.next ?_
    exact Keeps.refl _
  · extract_lets -merge -useContext -underBinder +onlyGivenNames v1
    have h2 : Keeps s v1 := by
      unfold v1
      exact (State.sweepIssue_keeps ..)
    clear_value v1
    refine KeepsOut.next ?_
    split
    · exact .trans h2 (State.cmdHandover_keeps ..)
    · exact h2

theorem State.cmdComplete_keeps (s : State) (n : Nat) (c : TileCmd) (valid : Bool) (oor : Bool) (sample : Nat) (timeout : Bool) :
    Keeps s (s.cmdComplete n c valid oor sample timeout) := by
  unfold State.cmdComplete
  extract_lets -merge -useContext -underBinder +onlyGivenNames v0
  try clear_value v0
  split
  · exact (State.hostResult_keeps ..)
  · exact (State.senseSample_keeps ..)
  · split
    · split
      · exact Keeps.refl _
      · split
        · exact (State.setFld_keeps ..)
        · exact (State.setFld_keeps ..)
    · exact (State.senseSample_keeps ..)
  · exact Keeps.refl _

theorem execCmdResult_keeps (tile : Fin 16) (s : State) :
    KeepsOut s (execCmdResult tile s) := by
  unfold execCmdResult
  extract_lets -merge -useContext -underBinder +onlyGivenNames v0
  try clear_value v0
  split
  · refine KeepsOut.next ?_
    exact Keeps.refl _
  · extract_lets -merge -useContext -underBinder +onlyGivenNames v1
    try clear_value v1
    split
    · refine KeepsOut.next ?_
      exact .trans (State.takeReturn_keeps (by assumption)) (State.bump_keeps ..)
    · extract_lets -merge -useContext -underBinder +onlyGivenNames v2
      have h3 : Keeps s v2 := by
        unfold v2
        exact .trans (State.takeReturn_keeps (by assumption)) (State.setTile_keeps ..)
      clear_value v2
      refine KeepsOut.next ?_
      exact .trans h3 (State.cmdComplete_keeps ..)

theorem execCmdTimeout_keeps (tile : Fin 16) (s : State) :
    KeepsOut s (execCmdTimeout tile s) := by
  unfold execCmdTimeout
  extract_lets -merge -useContext -underBinder +onlyGivenNames v0
  try clear_value v0
  split
  · refine KeepsOut.next ?_
    exact Keeps.refl _
  · split
    · extract_lets -merge -useContext -underBinder +onlyGivenNames v1 x3 v2
      try clear_value v1
      have h4 : Keeps s v2 := by
        unfold v2
        exact .trans ((State.setTile_keeps ..)) (State.drawn_keeps ..)
      clear_value v2
      extract_lets -merge -useContext -underBinder +onlyGivenNames v5
      have h6 : Keeps s v5 := by
        unfold v5
        exact .trans (.trans h4 (State.bump_keeps ..)) (State.event_keeps ..)
      clear_value v5
      refine KeepsOut.next ?_
      exact .trans h6 (State.cmdComplete_keeps ..)
    · refine KeepsOut.next ?_
      exact Keeps.refl _

theorem State.ageSlot432_keeps (s : State) :
    Keeps s (s.ageSlot432) := by
  unfold State.ageSlot432
  exact .trans (.trans (.trans (.trans ((State.foldFrame_keeps ..)) (State.sense_keeps ..)) (State.trimStart_keeps ..)) (State.installRecord_keeps ..)) (State.ageTrack_keeps ..)

theorem State.ageFlip_keeps (s : State) :
    Keeps s (s.ageFlip) := by
  unfold State.ageFlip
  extract_lets -merge -useContext -underBinder +onlyGivenNames v0
  have h1 : Keeps s v0 := by
    unfold v0
    exact (State.proceduresFlip_keeps ..)
  clear_value v0
  extract_lets -merge -useContext -underBinder +onlyGivenNames v2
  have h3 : Keeps s v2 := by
    unfold v2
    refine Keeps.trans ?_ (State.eachTile_keeps (hf := fun y4 _ => ?_) ..)
    · exact h1
    · extract_lets -merge -useContext -underBinder +onlyGivenNames v5
      try clear_value v5
      exact (State.setRptTile_keeps ..)
  clear_value v2
  extract_lets -merge -useContext -underBinder +onlyGivenNames v6
  have h7 : Keeps s v6 := by
    unfold v6
    split
    · exact .trans h3 (State.cycleEnd_keeps ..)
    · exact h3
  clear_value v6
  refine Keeps.of_mk ?_ rfl rfl (Nat.le_refl _) rfl rfl rfl rfl rfl rfl
  exact h7

theorem State.tileFlip_keeps (s : State) (short : Bool) (n : Nat) :
    Keeps s (s.tileFlip short n) := by
  unfold State.tileFlip
  extract_lets -merge -useContext -underBinder +onlyGivenNames v0 v1 v2
  try clear_value v1; try clear_value v0
  have h3 : Keeps s v2 := by
    unfold v2
    exact (State.codeAppStep_keeps ..)
  clear_value v2
  extract_lets -merge -useContext -underBinder +onlyGivenNames v4
  have h5 : Keeps s v4 := by
    unfold v4
    split
    · exact .trans h3 (State.gainStep_keeps ..)
    · exact h3
  clear_value v4
  exact .trans (.trans h5 (State.tileLinks_keeps ..)) (State.frameHeads_keeps ..)

theorem State.tlkFlip_keeps (s : State) (short : Bool) :
    Keeps s (s.tlkFlip short) := by
  unfold State.tlkFlip
  split
  · exact Keeps.refl _
  · extract_lets -merge -useContext -underBinder +onlyGivenNames x1 v0
    have h2 : Keeps s v0 := by
      unfold v0
      refine Keeps.of_mk ?_ rfl rfl (Nat.le_refl _) rfl rfl rfl rfl rfl rfl
      exact Keeps.refl _
    clear_value v0
    refine Keeps.trans ?_ (State.drawn_keeps ..)
    refine Keeps.trans ?_ (State.eachTile_keeps (hf := fun y3 _ => ?_) ..)
    · exact h2
    · exact (State.tileFlip_keeps ..)

theorem State.secResult_keeps (s : State) (status : Nat) (kind : Nat) (type : Nat) (d1 : Nat) (d2 : Nat) (digest : List Byte) :
    Keeps s (s.secResult status kind type d1 d2 digest) := by
  unfold State.secResult
  exact (State.mboxResult_keeps ..)

theorem State.abandonImage_keeps (s : State) (stream : Nat) (status : Nat) :
    Keeps s (s.abandonImage stream status) := by
  unfold State.abandonImage
  extract_lets -merge -useContext -underBinder +onlyGivenNames x1 v0
  have h2 : Keeps s v0 := by
    unfold v0
    refine Keeps.of_mk ?_ rfl rfl (Nat.le_refl _) rfl rfl rfl rfl rfl rfl
    exact Keeps.refl _
  clear_value v0
  extract_lets -merge -useContext -underBinder +onlyGivenNames v3 v4
  try clear_value v3
  have h5 : Keeps s v4 := by
    unfold v4
    exact .trans (.trans h2 (State.drawn_keeps ..)) (State.bump_keeps ..)
  clear_value v4
  exact .trans (.trans h5 (State.secResult_keeps ..)) (State.event_keeps ..)

theorem State.imageBytes_keeps (s : State) (i : AsmImage) (off : Nat) (payload : List Byte) (last : Bool) :
    Keeps s (s.imageBytes i off payload last) := by
  unfold State.imageBytes
  extract_lets -merge -useContext -underBinder +onlyGivenNames v0 v1
  try clear_value v0
  have h2 : Keeps s v1 := by
    unfold v1
    split
    · exact Keeps.refl _
    · exact (State.devWrite_keeps ..)
  clear_value v1
  extract_lets -merge -useContext -underBinder +onlyGivenNames v3 v4
  try clear_value v4; try clear_value v3
  split
  · refine Keeps.of_mk ?_ rfl rfl (Nat.le_refl _) rfl rfl rfl rfl rfl rfl
    exact h2
  · refine Keeps.of_mk ?_ rfl rfl (Nat.le_refl _) rfl rfl rfl rfl rfl rfl
    exact h2

theorem State.imagePacket_keeps (s : State) (stream : Nat) (last : Bool) (bs : List (BitVec 64)) :
    Keeps s (s.imagePacket stream last bs) := by
  unfold State.imagePacket
  split
  · exact Keeps.refl _
  · extract_lets -merge -useContext -underBinder +onlyGivenNames v0 v1 v2 v3
    try clear_value v2; try clear_value v1; try clear_value v0
    have h4 : Keeps s v3 := by
      unfold v3
      split
      · split
        · exact Keeps.refl _
        · exact (State.abandonImage_keeps ..)
      · exact Keeps.refl _
    clear_value v3
    split
    · exact .trans h4 (State.imageBytes_keeps ..)
    · split
      · exact .trans h4 (State.bump_keeps ..)
      · split
        · exact .trans h4 (State.abandonImage_keeps ..)
        · exact .trans h4 (State.imageBytes_keeps ..)

theorem State.imageLoss_keeps (s : State) (stream : Nat) :
    Keeps s (s.imageLoss stream) := by
  unfold State.imageLoss
  split
  · exact (State.abandonImage_keeps ..)
  · exact Keeps.refl _

theorem State.setPort_keeps (s : State) (p : Nat) (v : Port) :
    Keeps s (s.setPort p v) := by
  unfold State.setPort
  refine Keeps.of_mk ?_ rfl rfl (Nat.le_refl _) rfl rfl rfl rfl rfl rfl
  exact Keeps.refl _

theorem State.asmCount_keeps (s : State) (p : Nat) (j : Nat) :
    Keeps s (s.asmCount p j) := by
  unfold State.asmCount
  exact (State.bump_keeps ..)

theorem State.portState_keeps (s : State) (p : Nat) (st : PortSt) :
    Keeps s (s.portState p st) := by
  unfold State.portState
  extract_lets -merge -useContext -underBinder +onlyGivenNames x1 v0
  have h2 : Keeps s v0 := by
    unfold v0
    exact (State.setPort_keeps ..)
  clear_value v0
  extract_lets -merge -useContext -underBinder +onlyGivenNames v3 v4 v5
  try clear_value v4; try clear_value v3
  have h6 : Keeps s v5 := by
    unfold v5
    refine Keeps.foldl ?_ (fun y7 _ => ?_)
    · exact h2
    · exact (State.laneLink_keeps ..)
  clear_value v5
  exact .trans h6 (State.laneLink_keeps ..)

theorem State.rangeOrSync_keeps (s : State) (p : Nat) :
    Keeps s (s.rangeOrSync p) := by
  unfold State.rangeOrSync
  split
  · exact .trans ((State.setPort_keeps ..)) (State.portState_keeps ..)
  · exact (State.portState_keeps ..)

theorem State.clearPanel_keeps (s : State) (p : Nat) :
    Keeps s (s.clearPanel p) := by
  unfold State.clearPanel
  exact .trans ((State.setPort_keeps ..)) (State.setReg_keeps ..)

theorem State.asmBlock_keeps (s : State) (p : Nat) (ln : Nat) (b : Block) (t : Arrival) :
    Keeps s (s.asmBlock p ln b t) := by
  unfold State.asmBlock
  extract_lets -merge -useContext -underBinder +onlyGivenNames v0 v1
  try clear_value v1; try clear_value v0
  split
  · extract_lets -merge -useContext -underBinder +onlyGivenNames v2
    have h3 : Keeps s v2 := by
      unfold v2
      split
      · exact (State.asmCount_keeps ..)
      · exact Keeps.refl _
    clear_value v2
    exact .trans h3 (State.setPort_keeps ..)
  · split
    · split
      · exact Keeps.refl _
      · exact (State.asmCount_keeps ..)
    · split
      · exact (State.setPort_keeps ..)
      · split
        · extract_lets -merge -useContext -underBinder +onlyGivenNames v4
          have h5 : Keeps s v4 := by
            unfold v4
            exact (State.setPort_keeps ..)
          clear_value v4
          split
          · exact .trans h5 (State.asmCount_keeps ..)
          · exact .trans h5 (State.setPort_keeps ..)
        · split
          · exact .trans ((State.setPort_keeps ..)) (State.asmCount_keeps ..)
          · split
            · exact .trans ((State.setPort_keeps ..)) (State.asmCount_keeps ..)
            · exact (State.setPort_keeps ..)

theorem State.asmReceive_keeps (s : State) (p : Nat) (ln : Nat) (bs : List Delivered) :
    Keeps s (s.asmReceive p ln bs) := by
  unfold State.asmReceive
  refine Keeps.foldl ?_ (fun y0 _ => ?_)
  · exact Keeps.refl _
  · exact (State.asmBlock_keeps ..)

theorem execPacket_keeps (port : Fin 2) (lane : Fin 4) (s : State) :
    KeepsOut s (execPacket port lane s) := by
  unfold execPacket
  extract_lets -merge -useContext -underBinder +onlyGivenNames v0
  try clear_value v0
  split
  · refine KeepsOut.next ?_
    exact Keeps.refl _
  · split
    · refine KeepsOut.next ?_
      exact Keeps.refl _
    · extract_lets -merge -useContext -underBinder +onlyGivenNames x2 v1
      have h3 : Keeps s v1 := by
        unfold v1
        exact (State.setPort_keeps ..)
      clear_value v1
      extract_lets -merge -useContext -underBinder +onlyGivenNames v4
      try clear_value v4
      split
      · refine KeepsOut.next ?_
        exact .trans h3 (State.asmCount_keeps ..)
      · split
        · refine KeepsOut.next ?_
          exact .trans h3 (State.asmCount_keeps ..)
        · split
          · refine KeepsOut.next ?_
            exact .trans h3 (State.asmCount_keeps ..)
          · refine KeepsOut.next ?_
            exact .trans h3 (State.setPort_keeps ..)

theorem State.setCtx_keeps (s : State) (e : Nat) (v : Nat) :
    Keeps s (s.setCtx e v) := by
  unfold State.setCtx
  extract_lets -merge -useContext -underBinder +onlyGivenNames v0
  have h1 : Keeps s v0 := by
    unfold v0
    exact (State.noteSram_keeps ..)
  refine Keeps.of_mk ?_ rfl rfl (Nat.le_refl _) rfl rfl rfl rfl rfl rfl
  exact h1

theorem State.seqCtx_keeps (s : State) (e : Nat) (v : Nat) :
    Keeps s (s.seqCtx e v) := by
  unfold State.seqCtx
  split
  · refine Keeps.of_mk ?_ rfl rfl (Nat.le_refl _) rfl rfl rfl rfl rfl rfl
    exact Keeps.refl _
  · exact (State.setCtx_keeps ..)

theorem State.noteCtx_keeps (s : State) (e : Nat) :
    Keeps s (s.noteCtx e) := by
  unfold State.noteCtx
  refine Keeps.of_mk ?_ rfl rfl (Nat.le_refl _) rfl rfl rfl rfl rfl rfl
  exact Keeps.refl _

theorem State.ctxWriteHigh_keeps (s : State) (e : Nat) (v : Nat) :
    Keeps s (s.ctxWriteHigh e v) := by
  unfold State.ctxWriteHigh
  split
  · exact Keeps.refl _
  · exact .trans ((State.noteCtx_keeps ..)) (State.setCtx_keeps ..)

theorem State.ctxWriteLow_keeps (s : State) (e : Nat) (v : Nat) :
    Keeps s (s.ctxWriteLow e v) := by
  unfold State.ctxWriteLow
  split
  · exact Keeps.refl _
  · exact .trans ((State.noteCtx_keeps ..)) (State.setCtx_keeps ..)

theorem State.ctxWrite_keeps (s : State) (o : Nat) (v : Nat) :
    Keeps s (s.ctxWrite o v) := by
  unfold State.ctxWrite
  split
  · exact (State.ctxWriteLow_keeps ..)
  · exact (State.ctxWriteHigh_keeps ..)

theorem State.detain_keeps (s : State) (sender : Nat) :
    Keeps s (s.detain sender) := by
  unfold State.detain
  extract_lets -merge -useContext -underBinder +onlyGivenNames v0 v1
  try clear_value v0
  have h2 : Keeps s v1 := by
    unfold v1
    split
    · exact Keeps.refl _
    · exact .trans ((State.setReg_keeps ..)) (State.setReg_keeps ..)
  clear_value v1
  extract_lets -merge -useContext -underBinder +onlyGivenNames v3
  have h4 : Keeps s v3 := by
    unfold v3
    exact .trans h2 (State.event_keeps ..)
  clear_value v3
  split
  · exact .trans h4 (State.event_keeps ..)
  · exact h4

theorem State.detKeyWrite_keeps (s : State) (n : Nat) (v : Word) :
    Keeps s (s.detKeyWrite n v) := by
  unfold State.detKeyWrite
  extract_lets -merge -useContext -underBinder +onlyGivenNames v0
  have h1 : Keeps s v0 := by
    unfold v0
    exact (State.store_keeps ..)
  clear_value v0
  split
  · exact .trans h1 (State.event_keeps ..)
  · exact h1

theorem State.authFail_keeps (s : State) (p : Nat) (k : Packet) :
    Keeps s (s.authFail p k) := by
  unfold State.authFail
  extract_lets -merge -useContext -underBinder +onlyGivenNames v0
  have h1 : Keeps s v0 := by
    unfold v0
    exact (State.asmCount_keeps ..)
  clear_value v0
  extract_lets -merge -useContext -underBinder +onlyGivenNames v2 v3
  try clear_value v3; try clear_value v2
  split
  · exact .trans h1 (State.detain_keeps ..)
  · exact h1

theorem execDetentionExpiry_keeps (entry : Fin 64) (s : State) :
    KeepsOut s (execDetentionExpiry entry s) := by
  unfold execDetentionExpiry
  extract_lets -merge -useContext -underBinder +onlyGivenNames v0
  try clear_value v0
  split
  · refine KeepsOut.next ?_
    exact (State.clrFlag_keeps ..)
  · refine KeepsOut.next ?_
    exact Keeps.refl _

theorem State.lossToOwner_keeps (s : State) (stream : Nat) (seq : Nat) :
    Keeps s (s.lossToOwner stream seq) := by
  unfold State.lossToOwner
  split
  · exact (State.sliceLoss_keeps ..)
  · exact (State.imageLoss_keeps ..)
  · exact Keeps.refl _

theorem State.lossRepair_keeps (s : State) (e : LossEntry) :
    Keeps s (s.lossRepair e) := by
  unfold State.lossRepair
  extract_lets -merge -useContext -underBinder +onlyGivenNames v0 v1
  try clear_value v1; try clear_value v0
  split
  · split
    · exact .trans ((State.asmCount_keeps ..)) (State.lossToOwner_keeps ..)
    · extract_lets -merge -useContext -underBinder +onlyGivenNames v2
      try clear_value v2
      split
      · split
        · exact .trans (.trans ((State.drawn_keeps ..)) (State.asmCount_keeps ..)) (State.lossToOwner_keeps ..)
        · extract_lets -merge -useContext -underBinder +onlyGivenNames v3
          have h4 : Keeps s v3 := by
            unfold v3
            exact (State.drawn_keeps ..)
          refine Keeps.of_mk ?_ rfl rfl (Nat.le_refl _) rfl rfl rfl rfl rfl rfl
          exact h4
      · extract_lets -merge -useContext -underBinder +onlyGivenNames v5
        have h6 : Keeps s v5 := by
          unfold v5
          exact (State.drawn_keeps ..)
        refine Keeps.of_mk ?_ rfl rfl (Nat.le_refl _) rfl rfl rfl rfl rfl rfl
        exact h6
  · exact (State.lossToOwner_keeps ..)

theorem State.declareLoss_keeps (s : State) (e : LossEntry) :
    Keeps s (s.declareLoss e) := by
  unfold State.declareLoss
  extract_lets -merge -useContext -underBinder +onlyGivenNames x1 v0
  have h2 : Keeps s v0 := by
    unfold v0
    refine Keeps.of_mk ?_ rfl rfl (Nat.le_refl _) rfl rfl rfl rfl rfl rfl
    exact Keeps.refl _
  clear_value v0
  extract_lets -merge -useContext -underBinder +onlyGivenNames v3 v4
  try clear_value v3
  have h5 : Keeps s v4 := by
    unfold v4
    exact .trans (.trans h2 (State.seqCtx_keeps ..)) (State.asmCount_keeps ..)
  clear_value v4
  extract_lets -merge -useContext -underBinder +onlyGivenNames v6
  have h7 : Keeps s v6 := by
    unfold v6
    split
    · exact .trans h5 (State.event_keeps ..)
    · exact h5
  clear_value v6
  exact .trans h7 (State.lossRepair_keeps ..)

theorem State.pendLoss_keeps (s : State) (stream : Nat) (seq : Nat) (p : Nat) :
    Keeps s (s.pendLoss stream seq p) := by
  unfold State.pendLoss
  extract_lets -merge -useContext -underBinder +onlyGivenNames v0
  have h1 : Keeps s v0 := by
    unfold v0
    split
    · split
      · exact (State.declareLoss_keeps ..)
      · exact Keeps.refl _
    · exact Keeps.refl _
  clear_value v0
  refine Keeps.of_mk ?_ rfl rfl (Nat.le_refl _) rfl rfl rfl rfl rfl rfl
  exact h1

theorem execLossDeclared_keeps (s : State) :
    KeepsOut s (execLossDeclared s) := by
  unfold execLossDeclared
  split
  · refine KeepsOut.next ?_
    exact Keeps.refl _
  · split
    · refine KeepsOut.next ?_
      exact (State.declareLoss_keeps ..)
    · refine KeepsOut.next ?_
      exact Keeps.refl _

theorem execRepairExpiry_keeps (s : State) :
    KeepsOut s (execRepairExpiry s) := by
  unfold execRepairExpiry
  extract_lets -merge -useContext -underBinder +onlyGivenNames v0
  try clear_value v0
  split
  · refine KeepsOut.next ?_
    exact Keeps.refl _
  · split
    · extract_lets -merge -useContext -underBinder +onlyGivenNames x2 v1
      have h3 : Keeps s v1 := by
        unfold v1
        refine Keeps.of_mk ?_ rfl rfl (Nat.le_refl _) rfl rfl rfl rfl rfl rfl
        exact Keeps.refl _
      clear_value v1
      refine KeepsOut.next ?_
      exact .trans (.trans h3 (State.asmCount_keeps ..)) (State.lossToOwner_keeps ..)
    · refine KeepsOut.next ?_
      exact Keeps.refl _

theorem State.seqTest_keeps (s : State) (p : Nat) (stream : Nat) (seq : Nat) :
    Keeps s (s.seqTest p stream seq).1 := by
  unfold State.seqTest
  extract_lets -merge -useContext -underBinder +onlyGivenNames v0 v1 v2 v3 v4
  try clear_value v3; try clear_value v2; try clear_value v1; try clear_value v0
  skip
  extract_lets -merge -useContext -underBinder +onlyGivenNames v5
  try clear_value v5
  split
  · exact State.seqCtx_keeps ..
  · split
    · exact State.seqCtx_keeps ..
    · split
      · extract_lets -merge -useContext -underBinder +onlyGivenNames v6 v7
        try clear_value v6
        have h8 : Keeps s v7 := by
          unfold v7
          exact State.seqCtx_keeps ..
        clear_value v7
        refine Keeps.foldl ?_ (fun y9 _ => ?_)
        · exact h8
        · exact (State.pendLoss_keeps ..)
      · split
        · exact .trans (State.seqCtx_keeps ..) (State.asmCount_keeps ..)
        · split
          · refine Keeps.of_mk ?_ rfl rfl (Nat.le_refl _) rfl rfl rfl rfl rfl rfl
            exact Keeps.refl _
          · extract_lets -merge -useContext -underBinder +onlyGivenNames v10
            try clear_value v10
            exact Keeps.refl _

theorem State.retxTest_keeps (s : State) (stream : Nat) (seq : Nat) :
    Keeps s (s.retxTest stream seq).1 := by
  unfold State.retxTest
  split
  · refine Keeps.of_mk ?_ rfl rfl (Nat.le_refl _) rfl rfl rfl rfl rfl rfl
    exact Keeps.refl _
  · exact Keeps.refl _

theorem State.deliver_keeps (s : State) (k : Packet) (dest : Nat) :
    Keeps s (s.deliver k dest) := by
  unfold State.deliver
  extract_lets -merge -useContext -underBinder +onlyGivenNames v0
  try clear_value v0
  split
  · exact (State.slicePacket_keeps ..)
  · split
    · exact (State.directRayPacket_keeps ..)
    · exact Keeps.refl _
  · split
    · exact (State.manifestPacket_keeps ..)
    · exact Keeps.refl _
  · exact (State.imagePacket_keeps ..)
  · exact Keeps.refl _

theorem State.sequenced_keeps (s : State) (p : Nat) (k : Packet) :
    Keeps s (s.sequenced p k) := by
  unfold State.sequenced
  extract_lets -merge -useContext -underBinder +onlyGivenNames v0 v1 v2
  try clear_value v1; try clear_value v0
  have h3 : Keeps s v2.1 := by
    unfold v2
    split
    · exact (State.retxTest_keeps ..)
    · exact (State.seqTest_keeps ..)
  clear_value v2
  split
  · exact .trans (.trans h3 (State.asmCount_keeps ..)) (State.deliver_keeps ..)
  · exact .trans h3 (State.asmCount_keeps ..)
  · exact .trans h3 (State.asmCount_keeps ..)

theorem State.tagQueue_keeps (s : State) (p : Nat) (k : Packet) :
    Keeps s (s.tagQueue p k) := by
  unfold State.tagQueue
  extract_lets -merge -useContext -underBinder +onlyGivenNames v0
  try clear_value v0
  split
  · exact (State.asmCount_keeps ..)
  · extract_lets -merge -useContext -underBinder +onlyGivenNames v1
    try clear_value v1
    exact (State.setPort_keeps ..)

theorem State.reservedStream_keeps (s : State) (p : Nat) (k : Packet) :
    Keeps s (s.reservedStream p k) := by
  unfold State.reservedStream
  extract_lets -merge -useContext -underBinder +onlyGivenNames v0 v1
  try clear_value v1; try clear_value v0
  split
  · split
    · exact (State.tagQueue_keeps ..)
    · exact Keeps.refl _
  · split
    · exact (State.tagQueue_keeps ..)
    · split
      · split
        · exact (State.tagQueue_keeps ..)
        · exact Keeps.refl _
      · split
        · split
          · exact (State.tagQueue_keeps ..)
          · exact Keeps.refl _
        · exact (State.asmCount_keeps ..)

theorem execFilterLookup_keeps (port : Fin 2) (lane : Fin 4) (s : State) :
    KeepsOut s (execFilterLookup port lane s) := by
  unfold execFilterLookup
  extract_lets -merge -useContext -underBinder +onlyGivenNames v0
  try clear_value v0
  split
  · refine KeepsOut.next ?_
    exact Keeps.refl _
  · split
    · refine KeepsOut.next ?_
      exact Keeps.refl _
    · extract_lets -merge -useContext -underBinder +onlyGivenNames x2 v1
      have h3 : Keeps s v1 := by
        unfold v1
        exact (State.setPort_keeps ..)
      clear_value v1
      extract_lets -merge -useContext -underBinder +onlyGivenNames v4 v5
      try clear_value v5; try clear_value v4
      split
      · refine KeepsOut.next ?_
        exact .trans h3 (State.asmCount_keeps ..)
      · split
        · refine KeepsOut.next ?_
          exact .trans h3 (State.reservedStream_keeps ..)
        · split
          · refine KeepsOut.next ?_
            exact .trans h3 (State.asmCount_keeps ..)
          · extract_lets -merge -useContext -underBinder +onlyGivenNames v6
            try clear_value v6
            split
            · refine KeepsOut.next ?_
              exact .trans h3 (State.asmCount_keeps ..)
            · split
              · refine KeepsOut.next ?_
                exact .trans h3 (State.asmCount_keeps ..)
              · split
                · split
                  · refine KeepsOut.next ?_
                    exact .trans h3 (State.tagQueue_keeps ..)
                  · refine KeepsOut.next ?_
                    exact .trans h3 (State.asmCount_keeps ..)
                · refine KeepsOut.next ?_
                  exact .trans h3 (State.sequenced_keeps ..)

theorem State.replay_keeps (s : State) (c : Nat) :
    KeepsOpt s (s.replay c) := by
  unfold State.replay
  split
  · refine KeepsOpt.some ?_
    refine Keeps.of_mk ?_ rfl rfl (Nat.le_refl _) rfl rfl rfl rfl rfl rfl
    exact Keeps.refl _
  · extract_lets -merge -useContext -underBinder +onlyGivenNames v0
    try clear_value v0
    split
    · refine KeepsOpt.some ?_
      refine Keeps.of_mk ?_ rfl rfl (Nat.le_refl _) rfl rfl rfl rfl rfl rfl
      exact Keeps.refl _
    · extract_lets -merge -useContext -underBinder +onlyGivenNames v1
      try clear_value v1
      split
      · refine KeepsOpt.some ?_
        refine Keeps.of_mk ?_ rfl rfl (Nat.le_refl _) rfl rfl rfl rfl rfl rfl
        exact Keeps.refl _
      · exact KeepsOpt.none

theorem State.writeCtxMessage_keeps (s : State) (bs : List (BitVec 64)) :
    Keeps s (s.writeCtxMessage bs) := by
  unfold State.writeCtxMessage
  refine Keeps.foldl ?_ (fun y0 _ => ?_)
  · exact Keeps.refl _
  · extract_lets -merge -useContext -underBinder +onlyGivenNames v1
    try clear_value v1
    split
    · exact Keeps.refl _
    · split
      · exact (State.ctxWriteHigh_keeps ..)
      · exact (State.violation_keeps ..)

theorem State.hostMessage_keeps (s : State) (p : Nat) (bs : List (BitVec 64)) :
    Keeps s (s.hostMessage p bs) := by
  unfold State.hostMessage
  split
  · exact (State.asmCount_keeps ..)
  · extract_lets -merge -useContext -underBinder +onlyGivenNames x1 v0
    have h2 : Keeps s v0 := by
      unfold v0
      exact (State.setPort_keeps ..)
    clear_value v0
    exact .trans (.trans h2 (State.returnFilled_keeps ..)) (State.asmCount_keeps ..)

theorem State.rangeResult_keeps (s : State) (p : Nat) (bs : List (BitVec 64)) :
    Keeps s (s.rangeResult p bs) := by
  unfold State.rangeResult
  extract_lets -merge -useContext -underBinder +onlyGivenNames v0
  try clear_value v0
  split
  · extract_lets -merge -useContext -underBinder +onlyGivenNames v1
    have h2 : Keeps s v1 := by
      unfold v1
      exact .trans ((State.setReg_keeps ..)) (State.setReg_keeps ..)
    clear_value v1
    exact .trans (.trans h2 (State.setPort_keeps ..)) (State.portState_keeps ..)
  · exact Keeps.refl _

theorem State.deregister_keeps (s : State) (p : Nat) (stream : Nat) :
    Keeps s (s.deregister p stream) := by
  unfold State.deregister
  extract_lets -merge -useContext -underBinder +onlyGivenNames v0
  try clear_value v0
  split
  · exact .trans ((State.clearPanel_keeps ..)) (State.rangeOrSync_keeps ..)
  · exact Keeps.refl _

theorem State.controlMessage_keeps (s : State) (p : Nat) (k : Packet) :
    Keeps s (s.controlMessage p k) := by
  unfold State.controlMessage
  split
  · exact (State.asmCount_keeps ..)
  · extract_lets -merge -useContext -underBinder +onlyGivenNames v0 v1 v2 v3
    try clear_value v3; try clear_value v2; try clear_value v1; try clear_value v0
    split
    · refine Keeps.trans ?_ (State.rangeResult_keeps ..)
      refine Keeps.trans ?_ (State.asmCount_keeps ..)
      refine KeepsOpt.of_some ?_ _ (by assumption)
      refine KeepsOpt.trans ?_ (State.replay_keeps ..)
      exact Keeps.refl _
    · split
      · refine Keeps.trans ?_ (State.deregister_keeps ..)
        refine Keeps.trans ?_ (State.asmCount_keeps ..)
        refine KeepsOpt.of_some ?_ _ (by assumption)
        refine KeepsOpt.trans ?_ (State.replay_keeps ..)
        exact Keeps.refl _
      · split
        · refine Keeps.trans ?_ (State.writeCtxMessage_keeps ..)
          refine Keeps.trans ?_ (State.asmCount_keeps ..)
          refine KeepsOpt.of_some ?_ _ (by assumption)
          refine KeepsOpt.trans ?_ (State.replay_keeps ..)
          exact Keeps.refl _
        · split
          · refine Keeps.trans ?_ (State.hostMessage_keeps ..)
            refine KeepsOpt.of_some ?_ _ (by assumption)
            refine KeepsOpt.trans ?_ (State.replay_keeps ..)
            exact Keeps.refl _
          · refine Keeps.trans ?_ (State.asmCount_keeps ..)
            refine KeepsOpt.of_some ?_ _ (by assumption)
            refine KeepsOpt.trans ?_ (State.replay_keeps ..)
            exact Keeps.refl _

theorem State.wallStep_keeps (s : State) (e : Int) :
    Keeps s (s.wallStep e) := by
  unfold State.wallStep
  extract_lets -merge -useContext -underBinder +onlyGivenNames v0 v1
  try clear_value v1; try clear_value v0
  refine Keeps.trans ?_ (State.event_keeps ..)
  refine Keeps.of_mk ?_ rfl rfl (Nat.le_refl _) rfl rfl rfl rfl rfl rfl
  exact Keeps.refl _

theorem State.discipline_keeps (s : State) (e : Int) :
    Keeps s (s.discipline e) := by
  unfold State.discipline
  split
  · exact (State.wallStep_keeps ..)
  · extract_lets -merge -useContext -underBinder +onlyGivenNames x1 v0
    have h2 : Keeps s v0 := by
      unfold v0
      refine Keeps.of_mk ?_ rfl rfl (Nat.le_refl _) rfl rfl rfl rfl rfl rfl
      exact Keeps.refl _
    clear_value v0
    exact .trans h2 (State.drawn_keeps ..)

theorem State.echoes_keeps (s : State) (p : Nat) (cycle : Nat) (echo : List Nat) :
    Keeps s (s.echoes p cycle echo) := by
  unfold State.echoes
  extract_lets -merge -useContext -underBinder +onlyGivenNames v0
  try clear_value v0
  split
  · exact Keeps.refl _
  · split
    · exact Keeps.refl _
    · split
      · extract_lets -merge -useContext -underBinder +onlyGivenNames v1
        have h2 : Keeps s v1 := by
          unfold v1
          exact (State.setPort_keeps ..)
        clear_value v1
        refine Keeps.of_mk ?_ rfl rfl (Nat.le_refl _) rfl rfl rfl rfl rfl rfl
        exact h2
      · extract_lets -merge -useContext -underBinder +onlyGivenNames v3
        have h4 : Keeps s v3 := by
          unfold v3
          exact (State.asmCount_keeps ..)
        clear_value v3
        split
        · exact .trans (.trans h4 (State.setPort_keeps ..)) (State.event_keeps ..)
        · extract_lets -merge -useContext -underBinder +onlyGivenNames v5
          try clear_value v5
          exact .trans (.trans h4 (State.setPort_keeps ..)) (State.drawn_keeps ..)

theorem State.rangeBell_keeps (s : State) (p : Nat) :
    Keeps s (s.rangeBell p) := by
  unfold State.rangeBell
  extract_lets -merge -useContext -underBinder +onlyGivenNames v0
  try clear_value v0
  split
  · exact Keeps.refl _
  · split
    · exact (State.setPort_keeps ..)
    · extract_lets -merge -useContext -underBinder +onlyGivenNames v1
      try clear_value v1
      exact .trans ((State.setPort_keeps ..)) (State.drawn_keeps ..)

theorem State.sourceReturn_keeps (s : State) (p : Nat) (before : Option Nat) :
    Keeps s (s.sourceReturn p before) := by
  unfold State.sourceReturn
  split
  · extract_lets -merge -useContext -underBinder +onlyGivenNames v0 v1
    try clear_value v1; try clear_value v0
    split
    · refine Keeps.of_mk ?_ rfl rfl (Nat.le_refl _) rfl rfl rfl rfl rfl rfl
      exact Keeps.refl _
    · refine Keeps.of_mk ?_ rfl rfl (Nat.le_refl _) rfl rfl rfl rfl rfl rfl
      exact Keeps.refl _
  · exact Keeps.refl _

theorem State.bellState_keeps (s : State) (p : Nat) :
    Keeps s (s.bellState p) := by
  unfold State.bellState
  extract_lets -merge -useContext -underBinder +onlyGivenNames v0 v1
  try clear_value v1; try clear_value v0
  split
  · exact (State.setPort_keeps ..)
  · split
    · exact Keeps.refl _
    · exact (State.portState_keeps ..)
  · exact (State.rangeOrSync_keeps ..)
  · split
    · exact (State.rangeOrSync_keeps ..)
    · exact Keeps.refl _
  · exact Keeps.refl _

theorem State.bellMessage_keeps (s : State) (p : Nat) (k : Packet) :
    Keeps s (s.bellMessage p k) := by
  unfold State.bellMessage
  extract_lets -merge -useContext -underBinder +onlyGivenNames v0 v1 v2
  try clear_value v0
  split
  · exact (State.asmCount_keeps ..)
  · refine .ite (State.asmCount_keeps ..) ?_
    · extract_lets -merge -useContext -underBinder +onlyGivenNames v3
      have h4 : Keeps s v3 := by
        unfold v3
        exact (State.asmCount_keeps ..)
      clear_value v3
      extract_lets -merge -useContext -underBinder +onlyGivenNames v5 v6 v7 v8 v9 v10 v11 v12 v13 x15 v14 v16
      try clear_value v5
      have h17 : Keeps s v16 := by
        unfold v16
        exact .trans h4 (State.setPort_keeps ..)
      clear_value v16
      extract_lets -merge -useContext -underBinder +onlyGivenNames v18
      have h19 : Keeps s v18 := by
        unfold v18
        split
        · exact .trans h17 (State.discipline_keeps ..)
        · exact h17
      clear_value v18
      extract_lets -merge -useContext -underBinder +onlyGivenNames v20
      have h21 : Keeps s v20 := by
        unfold v20
        exact .trans (.trans (.trans h19 (State.echoes_keeps ..)) (State.rangeBell_keeps ..)) (State.bellState_keeps ..)
      clear_value v20
      extract_lets -merge -useContext -underBinder +onlyGivenNames x23 x24 v22
      have h25 : Keeps s v22 := by
        unfold v22
        split
        · have h26 : Keeps s x24 := by
            unfold x24
            refine Keeps.of_mk ?_ rfl rfl (Nat.le_refl _) rfl rfl rfl rfl rfl rfl
            exact h21
          clear_value x24
          exact .trans h26 (State.seqBell_keeps ..)
        · exact h21
      clear_value v22
      exact .trans h25 (State.sourceReturn_keeps ..)

theorem execTagCheck_keeps (port : Fin 2) (s : State) :
    KeepsOut s (execTagCheck port s) := by
  unfold execTagCheck
  extract_lets -merge -useContext -underBinder +onlyGivenNames v0
  try clear_value v0
  split
  · refine KeepsOut.next ?_
    exact Keeps.refl _
  · split
    · refine KeepsOut.next ?_
      exact Keeps.refl _
    · extract_lets -merge -useContext -underBinder +onlyGivenNames x2 v1
      have h3 : Keeps s v1 := by
        unfold v1
        exact (State.setPort_keeps ..)
      clear_value v1
      split
      · refine KeepsOut.next ?_
        exact .trans h3 (State.authFail_keeps ..)
      · split
        · refine KeepsOut.next ?_
          exact .trans h3 (State.bellMessage_keeps ..)
        · refine KeepsOut.next ?_
          exact .trans h3 (State.controlMessage_keeps ..)
        · refine KeepsOut.next ?_
          exact .trans h3 (State.sequenced_keeps ..)

theorem execBellTimeout_keeps (port : Fin 2) (s : State) :
    KeepsOut s (execBellTimeout port s) := by
  unfold execBellTimeout
  extract_lets -merge -useContext -underBinder +onlyGivenNames v0 v1
  try clear_value v0
  refine .ite ?_ (.next (Keeps.refl _))
  · extract_lets -merge -useContext -underBinder +onlyGivenNames v2
    have h3 : Keeps s v2 := by
      unfold v2
      exact (State.setPort_keeps ..)
    clear_value v2
    refine KeepsOut.next ?_
    split
    · exact .trans h3 (State.portState_keeps ..)
    · exact h3

theorem execBellSwitch_keeps (s : State) :
    KeepsOut s (execBellSwitch s) := by
  unfold execBellSwitch
  extract_lets -merge -useContext -underBinder +onlyGivenNames v0 v1 v2 v3
  try clear_value v3; try clear_value v2; try clear_value v1; try clear_value v0
  split
  · refine KeepsOut.next ?_
    refine Keeps.trans ?_ (State.event_keeps ..)
    refine Keeps.of_mk ?_ rfl rfl (Nat.le_refl _) rfl rfl rfl rfl rfl rfl
    exact Keeps.refl _
  · refine KeepsOut.next ?_
    exact Keeps.refl _

theorem execJoinedHoldExpiry_keeps (port : Fin 2) (s : State) :
    KeepsOut s (execJoinedHoldExpiry port s) := by
  unfold execJoinedHoldExpiry
  extract_lets -merge -useContext -underBinder +onlyGivenNames v0
  try clear_value v0
  split
  · split
    · refine KeepsOut.next ?_
      exact .trans ((State.clearPanel_keeps ..)) (State.portState_keeps ..)
    · refine KeepsOut.next ?_
      exact Keeps.refl _
  · refine KeepsOut.next ?_
    exact Keeps.refl _

theorem State.portLockLost_keeps (s : State) (p : Nat) :
    Keeps s (s.portLockLost p) := by
  unfold State.portLockLost
  extract_lets -merge -useContext -underBinder +onlyGivenNames v0 v1 v2
  try clear_value v1; try clear_value v0
  have h3 : Keeps s v2 := by
    unfold v2
    exact (State.setPort_keeps ..)
  clear_value v2
  split
  · extract_lets -merge -useContext -underBinder +onlyGivenNames v4 v5 v6
    try clear_value v6; try clear_value v5; try clear_value v4
    split
    · extract_lets -merge -useContext -underBinder +onlyGivenNames v7 v8 v9
      try clear_value v9; try clear_value v8; try clear_value v7
      exact .trans (.trans (.trans h3 (State.setLane_keeps ..)) (State.setPort_keeps ..)) (State.asmCount_keeps ..)
    · exact h3
  · exact h3

theorem State.runBurst_keeps (s : State) (o : BltOp) (k : Nat) :
    Keeps s (s.runBurst o k).1 := by
  unfold State.runBurst
  extract_lets -merge -useContext -underBinder +onlyGivenNames v0 v1 v2 v3 v4 v5
  try clear_value v4; try clear_value v3; try clear_value v2; try clear_value v1; try clear_value v0
  have h6 : Keeps s v5.1 := by
    unfold v5
    split
    · exact Keeps.refl _
    · exact (State.devRead_keeps ..)
  clear_value v5
  extract_lets -merge -useContext -underBinder +onlyGivenNames v7
  have h8 : Keeps s v7.1 := by
    unfold v7
    split
    · exact .trans h6 (State.devRead_keeps ..)
    · exact h6
  clear_value v7
  split
  · extract_lets -merge -useContext -underBinder +onlyGivenNames v9
    have h10 : Keeps s v9.1 := by
      unfold v9
      exact .trans h8 (State.devWrite_keeps ..)
    clear_value v9
    split
    · refine Keeps.trans ?_ (State.bump_keeps ..)
      extract_lets -merge -useContext -underBinder +onlyGivenNames v11
      have h12 : Keeps s v11 := by
        unfold v11
        exact h10
      refine Keeps.of_mk ?_ rfl rfl (Nat.le_refl _) rfl rfl rfl rfl rfl rfl
      exact h12
    · exact h10
  · exact h8

theorem State.bltOpEnd_keeps (s : State) (o : BltOp) (status : Nat) :
    Keeps s (s.bltOpEnd o status) := by
  unfold State.bltOpEnd
  extract_lets -merge -useContext -underBinder +onlyGivenNames v0 v1 x3 v2
  try clear_value v1; try clear_value v0
  have h4 : Keeps s v2 := by
    unfold v2
    refine Keeps.of_mk ?_ rfl rfl (Nat.le_refl _) rfl rfl rfl rfl rfl rfl
    exact Keeps.refl _
  clear_value v2
  exact .trans (.trans (.trans h4 (State.mboxResult_keeps ..)) (State.event_keeps ..)) (State.bump_keeps ..)

theorem State.bltStart_keeps (s : State) (o : BltOp) :
    Keeps s (s.bltStart o) := by
  unfold State.bltStart
  split
  · exact (State.bltOpEnd_keeps ..)
  · refine Keeps.of_mk ?_ rfl rfl (Nat.le_refl _) rfl rfl rfl rfl rfl rfl
    exact Keeps.refl _

theorem State.bltAbort_keeps (s : State) :
    Keeps s (s.bltAbort) := by
  unfold State.bltAbort
  split
  · split
    · exact Keeps.refl _
    · extract_lets -merge -useContext -underBinder +onlyGivenNames v0
      have h1 : Keeps s v0 := by
        unfold v0
        exact (State.bltOpEnd_keeps ..)
      clear_value v0
      split
      · refine Keeps.trans ?_ (State.bltStart_keeps ..)
        refine Keeps.of_mk ?_ rfl rfl (Nat.le_refl _) rfl rfl rfl rfl rfl rfl
        exact h1
      · exact h1
  · exact Keeps.refl _

theorem State.bltOpWrite_keeps (s : State) (v : Word) :
    Keeps s (s.bltOpWrite v) := by
  unfold State.bltOpWrite
  extract_lets -merge -useContext -underBinder +onlyGivenNames v0
  have h1 : Keeps s v0 := by
    unfold v0
    exact (State.store_keeps ..)
  clear_value v0
  extract_lets -merge -useContext -underBinder +onlyGivenNames v2
  have h3 : Keeps s v2 := by
    unfold v2
    split
    · exact .trans h1 (State.bltAbort_keeps ..)
    · exact h1
  clear_value v2
  split
  · exact h3
  · split
    · exact .trans h3 (State.bltStart_keeps ..)
    · refine Keeps.of_mk ?_ rfl rfl (Nat.le_refl _) rfl rfl rfl rfl rfl rfl
      exact h3

theorem execBltOpGo_keeps (b : BusWrite) (s : State) :
    KeepsOut s (execBltOpGo b s) := by
  unfold execBltOpGo
  refine KeepsOut.next ?_
  refine Keeps.trans ?_ (State.busWrite_keeps (heff := fun y0 _ => ?_) ..)
  · exact Keeps.refl _
  · exact (State.bltOpWrite_keeps ..)

theorem execBltAbort_keeps (b : BusWrite) (s : State) :
    KeepsOut s (execBltAbort b s) := by
  unfold execBltAbort
  refine KeepsOut.next ?_
  refine Keeps.trans ?_ (State.busWrite_keeps (heff := fun y0 _ => ?_) ..)
  · exact Keeps.refl _
  · exact (State.bltOpWrite_keeps ..)

theorem State.bltCommitEnd_keeps (s : State) (p : Nat) (err : Bool) :
    Keeps s (s.bltCommitEnd p err) := by
  unfold State.bltCommitEnd
  extract_lets -merge -useContext -underBinder +onlyGivenNames v0 v1 v2 v3 x5 v4
  try clear_value v3; try clear_value v2; try clear_value v1; try clear_value v0
  have h6 : Keeps s v4 := by
    unfold v4
    refine Keeps.of_mk ?_ rfl rfl (Nat.le_refl _) rfl rfl rfl rfl rfl rfl
    exact Keeps.refl _
  clear_value v4
  extract_lets -merge -useContext -underBinder +onlyGivenNames v7
  have h8 : Keeps s v7 := by
    unfold v7
    split
    · exact .trans h6 (State.setFlag_keeps ..)
    · exact h6
  clear_value v7
  exact .trans (.trans h8 (State.event_keeps ..)) (State.bump_keeps ..)

theorem State.bltCommitWrite_keeps (s : State) (v : Word) :
    Keeps s (s.bltCommitWrite v) := by
  unfold State.bltCommitWrite
  extract_lets -merge -useContext -underBinder +onlyGivenNames v0
  have h1 : Keeps s v0 := by
    unfold v0
    exact (State.store_keeps ..)
  clear_value v0
  split
  · exact h1
  · extract_lets -merge -useContext -underBinder +onlyGivenNames v2 v3
    try clear_value v3; try clear_value v2
    split
    · exact .trans h1 (State.setFlag_keeps ..)
    · split
      · refine Keeps.of_mk ?_ rfl rfl (Nat.le_refl _) rfl rfl rfl rfl rfl rfl
        exact h1
      · extract_lets -merge -useContext -underBinder +onlyGivenNames v4 x6 v5
        try clear_value v4
        have h7 : Keeps s v5 := by
          unfold v5
          refine Keeps.of_mk ?_ rfl rfl (Nat.le_refl _) rfl rfl rfl rfl rfl rfl
          exact h1
        clear_value v5
        split
        · exact .trans (.trans (.trans h7 (State.setFlag_keeps ..)) (State.bump_keeps ..)) (State.event_keeps ..)
        · exact h7

theorem execBltCommitGo_keeps (b : BusWrite) (s : State) :
    KeepsOut s (execBltCommitGo b s) := by
  unfold execBltCommitGo
  refine KeepsOut.next ?_
  refine Keeps.trans ?_ (State.busWrite_keeps (heff := fun y0 _ => ?_) ..)
  · exact Keeps.refl _
  · exact (State.bltCommitWrite_keeps ..)

theorem State.bltFlip_keeps (s : State) (p : Nat) :
    Keeps s (s.bltFlip p) := by
  unfold State.bltFlip
  split
  · split
    · extract_lets -merge -useContext -underBinder +onlyGivenNames v0 v1 v2
      try clear_value v2; try clear_value v1; try clear_value v0
      refine Keeps.of_mk ?_ rfl rfl (Nat.le_refl _) rfl rfl rfl rfl rfl rfl
      exact Keeps.refl _
    · exact Keeps.refl _
  · exact Keeps.refl _

theorem State.bltSlot447_keeps (s : State) :
    Keeps s (s.bltSlot447) := by
  unfold State.bltSlot447
  extract_lets -merge -useContext -underBinder +onlyGivenNames v0
  have h1 : Keeps s v0 := by
    unfold v0
    split
    · refine Keeps.of_mk ?_ rfl rfl (Nat.le_refl _) rfl rfl rfl rfl rfl rfl
      exact Keeps.refl _
    · exact Keeps.refl _
  clear_value v0
  split
  · refine Keeps.foldl ?_ (fun y2 _ => ?_)
    · exact h1
    · exact (State.bltFlip_keeps ..)
  · exact h1

theorem State.syncBurst_keeps (s : State) (p : Nat) :
    Keeps s (s.syncBurst p) := by
  unfold State.syncBurst
  split
  · split
    · split
      · exact (State.bltCommitEnd_keeps ..)
      · extract_lets -merge -useContext -underBinder +onlyGivenNames v0
        have h1 : Keeps s v0.1 := by
          unfold v0
          exact (State.runBurst_keeps ..)
        clear_value v0
        split
        · exact .trans h1 (State.bltCommitEnd_keeps ..)
        · split
          · exact .trans h1 (State.bltCommitEnd_keeps ..)
          · extract_lets -merge -useContext -underBinder +onlyGivenNames v2 v3
            try clear_value v2
            have h4 : Keeps s v3 := by
              unfold v3
              exact h1
            refine Keeps.of_mk ?_ rfl rfl (Nat.le_refl _) rfl rfl rfl rfl rfl rfl
            exact h4
    · exact Keeps.refl _
  · exact Keeps.refl _

theorem State.opBurst_keeps (s : State) (o : BltOp) :
    Keeps s (s.opBurst o) := by
  unfold State.opBurst
  extract_lets -merge -useContext -underBinder +onlyGivenNames x1 v0
  have h2 : Keeps s v0 := by
    unfold v0
    refine Keeps.of_mk ?_ rfl rfl (Nat.le_refl _) rfl rfl rfl rfl rfl rfl
    exact Keeps.refl _
  clear_value v0
  extract_lets -merge -useContext -underBinder +onlyGivenNames v3
  have h4 : Keeps s v3.1 := by
    unfold v3
    exact .trans h2 (State.runBurst_keeps ..)
  clear_value v3
  split
  · exact .trans h4 (State.bltOpEnd_keeps ..)
  · extract_lets -merge -useContext -underBinder +onlyGivenNames v5
    try clear_value v5
    split
    · exact .trans h4 (State.bltOpEnd_keeps ..)
    · extract_lets -merge -useContext -underBinder +onlyGivenNames v6
      have h7 : Keeps s v6 := by
        unfold v6
        exact h4
      refine Keeps.of_mk ?_ rfl rfl (Nat.le_refl _) rfl rfl rfl rfl rfl rfl
      exact h7

theorem execBlitBurst_keeps (s : State) :
    KeepsOut s (execBlitBurst s) := by
  unfold execBlitBurst
  extract_lets -merge -useContext -underBinder +onlyGivenNames v0
  try clear_value v0
  split
  · split
    · split
      · refine KeepsOut.next ?_
        exact (State.opBurst_keeps ..)
      · refine KeepsOut.next ?_
        exact Keeps.refl _
    · split
      · split
        · refine KeepsOut.next ?_
          exact (State.syncBurst_keeps ..)
        · refine KeepsOut.next ?_
          exact Keeps.refl _
      · refine KeepsOut.next ?_
        exact Keeps.refl _
    · split
      · refine KeepsOut.next ?_
        exact Keeps.refl _
      · split
        · refine KeepsOut.next ?_
          exact (State.bltOpEnd_keeps ..)
        · split
          · refine KeepsOut.next ?_
            exact (State.opBurst_keeps ..)
          · refine KeepsOut.next ?_
            exact Keeps.refl _
    · refine KeepsOut.next ?_
      exact Keeps.refl _
  · refine KeepsOut.next ?_
    exact Keeps.refl _

theorem execSynchronisation_keeps (s : State) :
    KeepsOut s (execSynchronisation s) := by
  unfold execSynchronisation
  split
  · split
    · refine KeepsOut.next ?_
      refine Keeps.of_mk ?_ rfl rfl (Nat.le_refl _) rfl rfl rfl rfl rfl rfl
      exact Keeps.refl _
    · refine KeepsOut.next ?_
      exact Keeps.refl _
  · refine KeepsOut.next ?_
    exact Keeps.refl _

theorem State.bltRowStart_keeps (s : State) (r : Nat) (f : Nat) :
    Keeps s (s.bltRowStart r f) := by
  unfold State.bltRowStart
  extract_lets -merge -useContext -underBinder +onlyGivenNames v0 v1 v2 x4 v3
  try clear_value v2; try clear_value v1; try clear_value v0
  have h5 : Keeps s v3 := by
    unfold v3
    refine Keeps.of_mk ?_ rfl rfl (Nat.le_refl _) rfl rfl rfl rfl rfl rfl
    exact Keeps.refl _
  clear_value v3
  split
  · exact h5
  · exact .trans (.trans h5 (State.setReg_keeps ..)) (State.event_keeps ..)

theorem State.commitPlanes_keeps (s : State) :
    Keeps s (s.commitPlanes) := by
  unfold State.commitPlanes
  split
  · extract_lets -merge -useContext -underBinder +onlyGivenNames v0
    try clear_value v0
    refine Keeps.of_mk ?_ rfl rfl (Nat.le_refl _) rfl rfl rfl rfl rfl rfl
    exact Keeps.refl _
  · exact Keeps.refl _

theorem State.bltArmWrite_keeps (s : State) (v : Word) :
    Keeps s (s.bltArmWrite v) := by
  unfold State.bltArmWrite
  split
  · extract_lets -merge -useContext -underBinder +onlyGivenNames v0
    have h1 : Keeps s v0 := by
      unfold v0
      exact (State.noteArm_keeps ..)
    refine Keeps.of_mk ?_ rfl rfl (Nat.le_refl _) rfl rfl rfl rfl rfl rfl
    exact h1
  · exact Keeps.refl _

theorem execBltPlaneArm_keeps (b : BusWrite) (s : State) :
    KeepsOut s (execBltPlaneArm b s) := by
  unfold execBltPlaneArm
  refine KeepsOut.next ?_
  refine Keeps.trans ?_ (State.busWrite_keeps (heff := fun y0 _ => ?_) ..)
  · exact Keeps.refl _
  · exact (State.bltArmWrite_keeps ..)

theorem State.bltCntClr_keeps (s : State) (v : Word) :
    Keeps s (s.bltCntClr v) := by
  unfold State.bltCntClr
  split
  · exact (State.clrRegs_keeps ..)
  · exact Keeps.refl _

theorem execBltCntClr_keeps (b : BusWrite) (s : State) :
    KeepsOut s (execBltCntClr b s) := by
  unfold execBltCntClr
  refine KeepsOut.next ?_
  refine Keeps.trans ?_ (State.busWrite_keeps (heff := fun y0 _ => ?_) ..)
  · exact Keeps.refl _
  · exact (State.bltCntClr_keeps ..)

theorem State.setPipe_keeps (s : State) (k : Nat) (v : CamPipe) :
    Keeps s (s.setPipe k v) := by
  unfold State.setPipe
  refine Keeps.of_mk ?_ rfl rfl (Nat.le_refl _) rfl rfl rfl rfl rfl rfl
  exact Keeps.refl _

theorem State.camAbort_keeps (s : State) (k : Nat) :
    Keeps s (s.camAbort k) := by
  unfold State.camAbort
  split
  · exact Keeps.refl _
  · extract_lets -merge -useContext -underBinder +onlyGivenNames x1 v0
    have h2 : Keeps s v0 := by
      unfold v0
      exact .trans ((State.setPipe_keeps ..)) (State.bump_keeps ..)
    clear_value v0
    split
    · exact .trans (.trans h2 (State.winWrite_keeps ..)) (State.returnBuffer_keeps ..)
    · exact h2

theorem State.camComplete_keeps (s : State) (k : Nat) :
    Keeps s (s.camComplete k) := by
  unfold State.camComplete
  split
  · exact Keeps.refl _
  · extract_lets -merge -useContext -underBinder +onlyGivenNames x1 v0
    have h2 : Keeps s v0 := by
      unfold v0
      exact .trans ((State.setPipe_keeps ..)) (State.bump_keeps ..)
    clear_value v0
    extract_lets -merge -useContext -underBinder +onlyGivenNames v3 v4
    try clear_value v3
    have h5 : Keeps s v4 := by
      unfold v4
      split
      · exact .trans (.trans h2 (State.bump_keeps ..)) (State.event_keeps ..)
      · exact h2
    clear_value v4
    extract_lets -merge -useContext -underBinder +onlyGivenNames v6 v7 x9 v8
    try clear_value v7; try clear_value v6
    have h10 : Keeps s v8 := by
      unfold v8
      exact .trans (.trans h5 (State.setPipe_keeps ..)) (State.drawn_keeps ..)
    clear_value v8
    split
    · extract_lets -merge -useContext -underBinder +onlyGivenNames v11 v12
      try clear_value v11
      have h13 : Keeps s v12 := by
        unfold v12
        exact .trans h10 (State.winWrite_keeps ..)
      clear_value v12
      extract_lets -merge -useContext -underBinder +onlyGivenNames v14
      have h15 : Keeps s v14 := by
        unfold v14
        exact .trans h13 (State.winWrite_keeps ..)
      clear_value v14
      extract_lets -merge -useContext -underBinder +onlyGivenNames v16
      have h17 : Keeps s v16 := by
        unfold v16
        exact .trans h15 (State.winWrite_keeps ..)
      clear_value v16
      exact .trans (.trans h17 (State.returnBuffer_keeps ..)) (State.event_keeps ..)
    · exact h10

theorem State.camFrameStart_keeps (s : State) (k : Nat) (num : Nat) :
    Keeps s (s.camFrameStart k num) := by
  unfold State.camFrameStart
  extract_lets -merge -useContext -underBinder +onlyGivenNames v0
  have h1 : Keeps s v0 := by
    unfold v0
    exact (State.camComplete_keeps ..)
  clear_value v0
  split
  · exact h1
  · extract_lets -merge -useContext -underBinder +onlyGivenNames v2 v3 v4 v5 v6 v7 v8 v9 v10 v11
    try clear_value v10; try clear_value v9; try clear_value v8; try clear_value v7; try clear_value v6; try clear_value v5; try clear_value v4; try clear_value v3; try clear_value v2
    have h12 : Keeps s v11 := by
      unfold v11
      split
      · exact .trans h1 (State.setFlag_keeps ..)
      · exact h1
    clear_value v11
    extract_lets -merge -useContext -underBinder +onlyGivenNames v13
    have h14 : ∀ a15, Keeps a15 (v13 a15) := by
      intro a15
      unfold v13
      beta_reduce
      exact .trans ((State.bump_keeps ..)) (State.event_keeps ..)
    clear_value v13
    split
    · split
      · exact .trans (.trans h12 (State.setPipe_keeps ..)) (h14 ..)
      · extract_lets -merge -useContext -underBinder +onlyGivenNames v16 x18 v17
        try clear_value v16
        have h19 : Keeps s v17 := by
          unfold v17
          exact .trans h12 (State.setPipe_keeps ..)
        clear_value v17
        split
        · exact .trans (.trans h19 (h14 ..)) (State.returnBuffer_keeps ..)
        · exact h19
    · exact .trans h12 (State.setPipe_keeps ..)

theorem State.camLine_keeps (s : State) (k : Nat) (bs : List Byte) (drained : Nat) :
    Keeps s (s.camLine k bs drained) := by
  unfold State.camLine
  split
  · exact (State.bump_keeps ..)
  · split
    · exact (State.setPipe_keeps ..)
    · extract_lets -merge -useContext -underBinder +onlyGivenNames v0 v1
      try clear_value v0
      have h2 : Keeps s v1 := by
        unfold v1
        exact (State.drawn_keeps ..)
      clear_value v1
      extract_lets -merge -useContext -underBinder +onlyGivenNames v3
      try clear_value v3
      split
      · exact .trans h2 (State.setPipe_keeps ..)
      · extract_lets -merge -useContext -underBinder +onlyGivenNames v4 v5 v6 v7 v8 v9 x11 v10
        try clear_value v9; try clear_value v8; try clear_value v7; try clear_value v6; try clear_value v5; try clear_value v4
        have h12 : Keeps s v10 := by
          unfold v10
          exact .trans h2 (State.setPipe_keeps ..)
        clear_value v10
        split
        · exact .trans h12 (State.winWrite_keeps ..)
        · exact h12

theorem execCsi2Packet_keeps (header : BitVec 32) (payload : List Byte) (crc : BitVec 16) (at_ : CsiArrival)
    (lanes : BitVec 5) (s : State) : KeepsOut s (execCsi2Packet header payload crc at_ lanes s) := by
  unfold execCsi2Packet
  split
  · refine KeepsOut.next ?_
    exact Keeps.refl _
  · extract_lets -merge -useContext -underBinder +onlyGivenNames x0 x1 v0
    have h2 : Keeps s v0 := by
      unfold v0
      refine Keeps.of_mk ?_ rfl rfl (Nat.le_refl _) rfl rfl rfl rfl rfl rfl
      exact Keeps.refl _
    clear_value v0 x0
    refine .ite (.next h2) ?_
    split
    · refine KeepsOut.next (.trans (.trans ?_ (State.bump_keeps ..)) (State.event_keeps ..))
      exact Keeps.of_mk h2 rfl rfl (Nat.le_refl _) rfl rfl rfl rfl rfl rfl
    · extract_lets -merge -useContext -underBinder +onlyGivenNames v3
      have h4 : Keeps s v3 := by
        unfold v3
        split
        · exact .trans h2 (State.bump_keeps ..)
        · exact h2
      clear_value v3
      extract_lets -merge -useContext -underBinder +onlyGivenNames v5 v6 v7
      try clear_value v5
      have hb : ∀ n, KeepsOut s (.next (v3.bump n)) := fun n => .next (h4.trans (State.bump_keeps ..))
      refine .ite (.next (.trans (.trans h4 (State.bump_keeps ..)) (State.event_keeps ..))) (.ite (.next h4) ?_)
      rcases v7 with _ | k
      · exact .ite (hb _) (.ite (.next h4) (hb _))
      · refine .ite (.next (h4.trans (State.camFrameStart_keeps ..))) (.ite (.ite (.next (h4.trans (State.camComplete_keeps ..))) (hb _)) ?_)
        extract_lets -merge -useContext -underBinder +onlyGivenNames v8
        exact .ite (.next (h4.trans (State.camLine_keeps ..))) (hb _)

theorem execSpotPublish_keeps (pipe : Fin 4) (s : State) :
    KeepsOut s (execSpotPublish pipe s) := by
  unfold execSpotPublish
  extract_lets -merge -useContext -underBinder +onlyGivenNames v0
  try clear_value v0
  split
  · refine KeepsOut.next ?_
    exact Keeps.refl _
  · split
    · refine KeepsOut.next ?_
      exact Keeps.refl _
    · extract_lets -merge -useContext -underBinder +onlyGivenNames x2 v1
      have h3 : Keeps s v1 := by
        unfold v1
        exact (State.setPipe_keeps ..)
      clear_value v1
      extract_lets -merge -useContext -underBinder +onlyGivenNames v4
      have h5 : Keeps s v4 := by
        unfold v4
        exact .trans (.trans h3 (State.setReg_keeps ..)) (State.setReg_keeps ..)
      clear_value v4
      extract_lets -merge -useContext -underBinder +onlyGivenNames v6
      have h7 : Keeps s v6 := by
        unfold v6
        refine Keeps.foldl ?_ (fun y8 _ => ?_)
        · exact h5
        · exact .trans ((State.setReg_keeps ..)) (State.setReg_keeps ..)
      clear_value v6
      extract_lets -merge -useContext -underBinder +onlyGivenNames v9
      try clear_value v9
      split
      · extract_lets -merge -useContext -underBinder +onlyGivenNames v10
        try clear_value v10
        refine KeepsOut.next ?_
        refine Keeps.of_mk ?_ rfl rfl (Nat.le_refl _) rfl rfl rfl rfl rfl rfl
        exact h7
      · refine KeepsOut.next ?_
        exact h7

theorem State.camBindWrite_keeps (s : State) (k : Nat) (v : Word) :
    Keeps s (s.camBindWrite k v) := by
  unfold State.camBindWrite
  extract_lets -merge -useContext -underBinder +onlyGivenNames v0
  have h1 : Keeps s v0 := by
    unfold v0
    exact (State.store_keeps ..)
  clear_value v0
  extract_lets -merge -useContext -underBinder +onlyGivenNames v2 x4 v3
  try clear_value v2
  have h5 : Keeps s v3 := by
    unfold v3
    split
    · split
      · exact .trans h1 (State.setFlag_keeps ..)
      · exact .trans h1 (State.setPipe_keeps ..)
    · exact h1
  clear_value v3
  split
  · extract_lets -merge -useContext -underBinder +onlyGivenNames v6
    have h7 : Keeps s v6 := by
      unfold v6
      exact .trans h5 (State.camAbort_keeps ..)
    clear_value v6
    exact .trans h7 (State.setPipe_keeps ..)
  · exact h5

theorem execCamBind_keeps (pipe : Fin 4) (b : BusWrite) (s : State) :
    KeepsOut s (execCamBind pipe b s) := by
  unfold execCamBind
  refine KeepsOut.next ?_
  refine Keeps.trans ?_ (State.busWrite_keeps (heff := fun y0 _ => ?_) ..)
  · exact Keeps.refl _
  · exact (State.camBindWrite_keeps ..)

theorem execCamUnbind_keeps (pipe : Fin 4) (b : BusWrite) (s : State) :
    KeepsOut s (execCamUnbind pipe b s) := by
  unfold execCamUnbind
  refine KeepsOut.next ?_
  refine Keeps.trans ?_ (State.busWrite_keeps (heff := fun y0 _ => ?_) ..)
  · exact Keeps.refl _
  · exact (State.camBindWrite_keeps ..)

theorem State.camEnWrite_keeps (s : State) (k : Nat) (v : Word) :
    Keeps s (s.camEnWrite k v) := by
  unfold State.camEnWrite
  extract_lets -merge -useContext -underBinder +onlyGivenNames v0
  have h1 : Keeps s v0 := by
    unfold v0
    exact (State.store_keeps ..)
  clear_value v0
  split
  · exact h1
  · exact .trans h1 (State.camAbort_keeps ..)

theorem execCamEnWrite_keeps (pipe : Fin 4) (b : BusWrite) (s : State) :
    KeepsOut s (execCamEnWrite pipe b s) := by
  unfold execCamEnWrite
  refine KeepsOut.next ?_
  refine Keeps.trans ?_ (State.busWrite_keeps (heff := fun y0 _ => ?_) ..)
  · exact Keeps.refl _
  · exact (State.camEnWrite_keeps ..)

theorem State.camRxEnWrite_keeps (s : State) (v : Word) :
    Keeps s (s.camRxEnWrite v) := by
  unfold State.camRxEnWrite
  extract_lets -merge -useContext -underBinder +onlyGivenNames v0
  have h1 : Keeps s v0 := by
    unfold v0
    exact (State.store_keeps ..)
  clear_value v0
  split
  · exact h1
  · refine Keeps.foldl ?_ (fun y2 _ => ?_)
    · exact h1
    · exact (State.camAbort_keeps ..)

theorem execCamRxEnWrite_keeps (b : BusWrite) (s : State) :
    KeepsOut s (execCamRxEnWrite b s) := by
  unfold execCamRxEnWrite
  refine KeepsOut.next ?_
  refine Keeps.trans ?_ (State.busWrite_keeps (heff := fun y0 _ => ?_) ..)
  · exact Keeps.refl _
  · exact (State.camRxEnWrite_keeps ..)

theorem State.camCapWrite_keeps (s : State) (k : Nat) (v : Word) :
    Keeps s (s.camCapWrite k v) := by
  unfold State.camCapWrite
  split
  · exact Keeps.refl _
  · exact (State.post_keeps ..)

theorem execCamCapPost_keeps (pipe : Fin 4) (b : BusWrite) (s : State) :
    KeepsOut s (execCamCapPost pipe b s) := by
  unfold execCamCapPost
  refine KeepsOut.next ?_
  refine Keeps.trans ?_ (State.busWrite_keeps (heff := fun y0 _ => ?_) ..)
  · exact Keeps.refl _
  · exact (State.camCapWrite_keeps ..)

theorem State.spotRead_keeps (s : State) (m : Nat) (f : Nat) :
    Keeps s (s.spotRead m f).1 := by
  unfold State.spotRead
  exact (State.latchWord_keeps ..)

theorem execSpotResultRead_keeps (entry : Fin 128) (b : BusRead) (s : State) :
    KeepsOut s (execSpotResultRead entry b s) := by
  unfold execSpotResultRead
  refine KeepsOut.next ?_
  refine Keeps.trans ?_ (State.busRead_keeps (heff := fun y0 => ?_) ..)
  · exact Keeps.refl _
  · exact (State.spotRead_keeps ..)

theorem State.camCntClr_keeps (s : State) (k : Nat) (v : Word) :
    Keeps s (s.camCntClr k v) := by
  unfold State.camCntClr
  split
  · exact (State.clrRegs_keeps ..)
  · exact Keeps.refl _

theorem execCamCntClr_keeps (pipe : Fin 4) (b : BusWrite) (s : State) :
    KeepsOut s (execCamCntClr pipe b s) := by
  unfold execCamCntClr
  refine KeepsOut.next ?_
  refine Keeps.trans ?_ (State.busWrite_keeps (heff := fun y0 _ => ?_) ..)
  · exact Keeps.refl _
  · exact (State.camCntClr_keeps ..)

theorem State.camRxCntClr_keeps (s : State) (v : Word) :
    Keeps s (s.camRxCntClr v) := by
  unfold State.camRxCntClr
  split
  · exact (State.clrRegs_keeps ..)
  · exact Keeps.refl _

theorem execCamRxCntClr_keeps (b : BusWrite) (s : State) :
    KeepsOut s (execCamRxCntClr b s) := by
  unfold execCamRxCntClr
  refine KeepsOut.next ?_
  refine Keeps.trans ?_ (State.busWrite_keeps (heff := fun y0 _ => ?_) ..)
  · exact Keeps.refl _
  · exact (State.camRxCntClr_keeps ..)

theorem execCompletenessCheck_keeps (tile : Fin 16) (u : Fin 768) (s : State) :
    KeepsOut s (execCompletenessCheck tile u s) := by
  unfold execCompletenessCheck
  extract_lets -merge -useContext -underBinder +onlyGivenNames v0 v1 v2
  try clear_value v2; try clear_value v1; try clear_value v0
  split
  · extract_lets -merge -useContext -underBinder +onlyGivenNames v3
    have h4 : Keeps s v3 := by
      unfold v3
      exact (State.lensletCheck_keeps ..)
    clear_value v3
    extract_lets -merge -useContext -underBinder +onlyGivenNames x6 v5
    have h7 : Keeps s v5 := by
      unfold v5
      refine Keeps.of_mk ?_ rfl rfl (Nat.le_refl _) rfl rfl rfl rfl rfl rfl
      exact h4
    clear_value v5
    extract_lets -merge -useContext -underBinder +onlyGivenNames v8
    have h9 : Keeps s v8.1 := by
      unfold v8
      exact .trans h7 (State.readResiduals_keeps ..)
    clear_value v8
    extract_lets -merge -useContext -underBinder +onlyGivenNames v10
    have h11 : Keeps s v10 := by
      unfold v10
      exact h9
    clear_value v10
    extract_lets -merge -useContext -underBinder +onlyGivenNames v12 v13 v14
    try clear_value v13; try clear_value v12
    have h15 : Keeps s v14 := by
      unfold v14
      exact .trans (.trans h11 (State.bump_keeps ..)) (State.rptTake_keeps ..)
    clear_value v14
    extract_lets -merge -useContext -underBinder +onlyGivenNames v16
    have h17 : Keeps s v16 := by
      unfold v16
      exact .trans h15 (State.rowCodes_keeps ..)
    clear_value v16
    refine KeepsOut.next ?_
    split
    · exact .trans h17 (State.rptRowDone_keeps ..)
    · exact h17
  · refine KeepsOut.next ?_
    exact Keeps.refl _

theorem State.rowStop_keeps (s : State) (k : Nat) (n : Nat) :
    Keeps s (s.rowStop k n) := by
  unfold State.rowStop
  split
  · exact .trans (.trans (.trans ((State.bump_keeps ..)) (State.event_keeps ..)) (State.cutRow_keeps ..)) (State.rptSkip_keeps ..)
  · exact Keeps.refl _

theorem State.emitSlot_keeps (s : State) (k : Nat) :
    Keeps s (s.emitSlot k) := by
  unfold State.emitSlot
  extract_lets -merge -useContext -underBinder +onlyGivenNames v0 v1
  try clear_value v0
  have h2 : Keeps s v1 := by
    unfold v1
    split
    · refine Keeps.trans ?_ (State.eachTile_keeps (hf := fun y3 _ => ?_) ..)
      · exact Keeps.refl _
      · exact (State.rowStop_keeps ..)
    · exact Keeps.refl _
  clear_value v1
  extract_lets -merge -useContext -underBinder +onlyGivenNames x5 v4
  have h6 : Keeps s v4 := by
    unfold v4
    refine Keeps.of_mk ?_ rfl rfl (Nat.le_refl _) rfl rfl rfl rfl rfl rfl
    exact h2
  clear_value v4
  extract_lets -merge -useContext -underBinder +onlyGivenNames v7
  have h8 : Keeps s v7 := by
    unfold v7
    split
    · refine Keeps.trans ?_ (State.eachTile_keeps (hf := fun y9 _ => ?_) ..)
      · exact h6
      · exact (State.rptSkip_keeps ..)
    · exact h6
  clear_value v7
  split
  · refine Keeps.trans ?_ (State.eachTile_keeps (hf := fun y10 _ => ?_) ..)
    · exact h8
    · exact (State.rowHeads_keeps ..)
  · exact h8

theorem State.emitShort_keeps (s : State) :
    Keeps s (s.emitShort) := by
  unfold State.emitShort
  extract_lets -merge -useContext -underBinder +onlyGivenNames v0
  have h1 : Keeps s v0 := by
    unfold v0
    refine Keeps.trans ?_ (State.eachTile_keeps (hf := fun y2 _ => ?_) ..)
    · exact Keeps.refl _
    · exact (State.cutRow_keeps ..)
  clear_value v0
  refine Keeps.of_mk ?_ rfl rfl (Nat.le_refl _) rfl rfl rfl rfl rfl rfl
  exact h1

theorem State.setPlcTile_keeps (s : State) (n : Nat) (v : PlcTile) :
    Keeps s (s.setPlcTile n v) := by
  unfold State.setPlcTile
  refine Keeps.of_mk ?_ rfl rfl (Nat.le_refl _) rfl rfl rfl rfl rfl rfl
  exact Keeps.refl _

theorem State.writeStaging_keeps (s : State) (n : Nat) :
    Keeps s (s.writeStaging n) := by
  unfold State.writeStaging
  extract_lets -merge -useContext -underBinder +onlyGivenNames v0 v1 v2 v3 v4 v5 v6 v7 x9 x10 v8
  try clear_value v7; try clear_value v6; try clear_value v5; try clear_value v4; try clear_value v3; try clear_value v2; try clear_value v1; try clear_value v0
  have h11 : Keeps s v8 := by
    unfold v8
    have h12 : Keeps s x9 := by
      unfold x9
      exact (State.noteSram_keeps ..)
    clear_value x9
    refine Keeps.of_mk ?_ rfl rfl (Nat.le_refl _) rfl rfl rfl rfl rfl rfl
    exact h12
  clear_value v8
  exact .trans h11 (State.setPlcTile_keeps ..)

theorem State.readyToWrite_keeps (s : State) (n : Nat) :
    Keeps s (s.readyToWrite n) := by
  unfold State.readyToWrite
  extract_lets -merge -useContext -underBinder +onlyGivenNames v0 x2 v1
  try clear_value v0
  have h3 : Keeps s v1 := by
    unfold v1
    refine Keeps.of_mk ?_ rfl rfl (Nat.le_refl _) rfl rfl rfl rfl rfl rfl
    exact Keeps.refl _
  clear_value v1
  split
  · exact .trans h3 (State.writeStaging_keeps ..)
  · exact h3

theorem State.writeNext_keeps (s : State) (n : Nat) :
    Keeps s (s.writeNext n) := by
  unfold State.writeNext
  extract_lets -merge -useContext -underBinder +onlyGivenNames v0 x2 v1
  try clear_value v0
  have h3 : Keeps s v1 := by
    unfold v1
    refine Keeps.of_mk ?_ rfl rfl (Nat.le_refl _) rfl rfl rfl rfl rfl rfl
    exact Keeps.refl _
  clear_value v1
  split
  · split
    · exact .trans h3 (State.writeStaging_keeps ..)
    · exact h3
  · exact h3

theorem State.startUpdate_keeps (s : State) (n : Nat) (u : PlcUpdate) :
    Keeps s (s.startUpdate n u) := by
  unfold State.startUpdate
  extract_lets -merge -useContext -underBinder +onlyGivenNames x1 v0
  have h2 : Keeps s v0 := by
    unfold v0
    exact (State.setPlcTile_keeps ..)
  clear_value v0
  split
  · exact .trans h2 (State.readyToWrite_keeps ..)
  · exact h2

theorem State.plcRequest_keeps (s : State) (n : Nat) (u : PlcUpdate) :
    Keeps s (s.plcRequest n u) := by
  unfold State.plcRequest
  extract_lets -merge -useContext -underBinder +onlyGivenNames v0
  try clear_value v0
  split
  · exact (State.startUpdate_keeps ..)
  · exact (State.setPlcTile_keeps ..)
  · extract_lets -merge -useContext -underBinder +onlyGivenNames v1
    have h2 : Keeps s v1 := by
      unfold v1
      exact .trans (.trans ((State.setPlcTile_keeps ..)) (State.setFlag_keeps ..)) (State.bump_keeps ..)
    clear_value v1
    extract_lets -merge -useContext -underBinder +onlyGivenNames v3
    have h4 : Keeps s v3 := by
      unfold v3
      exact .trans h2 (State.event_keeps ..)
    clear_value v3
    split
    · exact .trans h4 (State.returnBuffer_keeps ..)
    · exact h4

theorem State.plcHostRequest_keeps (s : State) (n : Nat) (u : PlcUpdate) :
    Keeps s (s.plcHostRequest n u) := by
  unfold State.plcHostRequest
  split
  · extract_lets -merge -useContext -underBinder +onlyGivenNames x1 v0
    have h2 : Keeps s v0 := by
      unfold v0
      refine Keeps.of_mk ?_ rfl rfl (Nat.le_refl _) rfl rfl rfl rfl rfl rfl
      exact Keeps.refl _
    clear_value v0
    split
    · exact h2
    · exact .trans (.trans (.trans h2 (State.setPlcTile_keeps ..)) (State.writeNext_keeps ..)) (State.plcRequest_keeps ..)
  · exact (State.plcRequest_keeps ..)

theorem State.plcRebuildWrite_keeps (s : State) (v : Word) :
    Keeps s (s.plcRebuildWrite v) := by
  unfold State.plcRebuildWrite
  refine Keeps.foldl ?_ (fun y0 _ => ?_)
  · exact Keeps.refl _
  · split
    · exact (State.plcHostRequest_keeps ..)
    · exact Keeps.refl _

theorem execPlcRebuild_keeps (b : BusWrite) (s : State) :
    KeepsOut s (execPlcRebuild b s) := by
  unfold execPlcRebuild
  refine KeepsOut.next ?_
  refine Keeps.trans ?_ (State.busWrite_keeps (heff := fun y0 _ => ?_) ..)
  · exact Keeps.refl _
  · exact (State.plcRebuildWrite_keeps ..)

theorem State.plcLoadWrite_keeps (s : State) (v : Word) :
    Keeps s (s.plcLoadWrite v) := by
  unfold State.plcLoadWrite
  exact (State.post_keeps ..)

theorem execPlcLoad_keeps (b : BusWrite) (s : State) :
    KeepsOut s (execPlcLoad b s) := by
  unfold execPlcLoad
  refine KeepsOut.next ?_
  refine Keeps.trans ?_ (State.busWrite_keeps (heff := fun y0 _ => ?_) ..)
  · exact Keeps.refl _
  · exact (State.plcLoadWrite_keeps ..)

theorem State.plcLoadError_keeps (s : State) (n : Nat) :
    Keeps s (s.plcLoadError n) := by
  unfold State.plcLoadError
  exact .trans ((State.setFlag_keeps ..)) (State.event_keeps ..)

theorem State.plcLoadAccept_keeps (s : State) (n : Nat) (x : Nat) :
    Keeps s (s.plcLoadAccept n x) := by
  unfold State.plcLoadAccept
  split
  · exact .trans ((State.returnBuffer_keeps ..)) (State.plcLoadError_keeps ..)
  · exact (State.plcHostRequest_keeps ..)

theorem execLoadCopyDone_keeps (tile : Fin 16) (s : State) :
    KeepsOut s (execLoadCopyDone tile s) := by
  unfold execLoadCopyDone
  extract_lets -merge -useContext -underBinder +onlyGivenNames v0 v1
  try clear_value v1; try clear_value v0
  split
  · split
    · refine KeepsOut.next ?_
      exact Keeps.refl _
    · extract_lets -merge -useContext -underBinder +onlyGivenNames v2
      have h3 : Keeps s v2.1 := by
        unfold v2
        exact (State.devRead_keeps ..)
      clear_value v2
      extract_lets -merge -useContext -underBinder +onlyGivenNames v4 v5 x7 x8 v6
      try clear_value v5; try clear_value v4
      have h9 : Keeps s v6 := by
        unfold v6
        have h10 : Keeps s x7 := by
          unfold x7
          exact .trans h3 (State.noteSram_keeps ..)
        clear_value x7
        refine Keeps.of_mk ?_ rfl rfl (Nat.le_refl _) rfl rfl rfl rfl rfl rfl
        exact h10
      clear_value v6
      extract_lets -merge -useContext -underBinder +onlyGivenNames v11
      have h12 : Keeps s v11 := by
        unfold v11
        exact .trans (.trans (.trans h9 (State.returnBuffer_keeps ..)) (State.bump_keeps ..)) (State.event_keeps ..)
      clear_value v11
      refine KeepsOut.next ?_
      exact .trans (.trans h12 (State.setPlcTile_keeps ..)) (State.readyToWrite_keeps ..)
  · refine KeepsOut.next ?_
    exact Keeps.refl _

theorem execChartUpdateComplete_keeps (tile : Fin 16) (s : State) :
    KeepsOut s (execChartUpdateComplete tile s) := by
  unfold execChartUpdateComplete
  extract_lets -merge -useContext -underBinder +onlyGivenNames v0 v1
  try clear_value v1; try clear_value v0
  split
  · refine KeepsOut.next ?_
    exact .trans (.trans ((State.setPlcTile_keeps ..)) (State.bump_keeps ..)) (State.writeNext_keeps ..)
  · refine KeepsOut.next ?_
    exact Keeps.refl _

theorem State.chartExchange_keeps (s : State) :
    Keeps s (s.chartExchange) := by
  unfold State.chartExchange
  extract_lets -merge -useContext -underBinder +onlyGivenNames v0
  have h1 : Keeps s v0 := by
    unfold v0
    exact (State.correctExpress_keeps ..)
  clear_value v0
  refine Keeps.foldl ?_ (fun y2 _ => ?_)
  · exact h1
  · extract_lets -merge -useContext -underBinder +onlyGivenNames v3
    try clear_value v3
    split
    · split
      · extract_lets -merge -useContext -underBinder +onlyGivenNames v4 v5 v6 x8 v7
        try clear_value v6; try clear_value v5; try clear_value v4
        have h9 : Keeps y2 v7 := by
          unfold v7
          have h10 : Keeps y2 x8 := by
            unfold x8
            exact .trans ((State.noteSram_keeps ..)) (State.noteSram_keeps ..)
          clear_value x8
          refine Keeps.of_mk ?_ rfl rfl (Nat.le_refl _) rfl rfl rfl rfl rfl rfl
          exact h10
        clear_value v7
        extract_lets -merge -useContext -underBinder +onlyGivenNames v11
        have h12 : Keeps y2 v11 := by
          unfold v11
          exact .trans (.trans h9 (State.setPlcTile_keeps ..)) (State.bump_keeps ..)
        clear_value v11
        split
        · exact .trans h12 (State.startUpdate_keeps ..)
        · exact h12
      · exact Keeps.refl _
    · exact Keeps.refl _

theorem State.plcStepTile_keeps (s : State) (n : Nat) :
    Keeps s (s.plcStepTile n) := by
  unfold State.plcStepTile
  extract_lets -merge -useContext -underBinder +onlyGivenNames v0 v1 v2 v3 v4 v5 v6 v7 v8 v9 v10 v11 v12 v13 v14
  try clear_value v13; try clear_value v12; try clear_value v11; try clear_value v10; try clear_value v9; try clear_value v8; try clear_value v7; try clear_value v6; try clear_value v5; try clear_value v4; try clear_value v3; try clear_value v2; try clear_value v1; try clear_value v0
  have h15 : ∀ a16 a17 a18, Keeps a16 (v14 a16 a17 a18) := by
    intro a16 a17 a18
    unfold v14
    beta_reduce
    exact (State.setReg_keeps ..)
  clear_value v14
  extract_lets -merge -useContext -underBinder +onlyGivenNames v19
  have h20 : Keeps s v19 := by
    unfold v19
    exact .trans (.trans (.trans ((h15 ..)) (h15 ..)) (h15 ..)) (h15 ..)
  clear_value v19
  extract_lets -merge -useContext -underBinder +onlyGivenNames v21
  have h22 : Keeps s v21 := by
    unfold v21
    split
    · exact .trans h20 (State.bump_keeps ..)
    · exact h20
  clear_value v21
  extract_lets -merge -useContext -underBinder +onlyGivenNames x24 v23
  have h25 : Keeps s v23 := by
    unfold v23
    exact .trans h22 (State.setPlcTile_keeps ..)
  clear_value v23
  split
  · refine Keeps.trans ?_ (State.plcRequest_keeps ..)
    refine Keeps.of_mk ?_ rfl rfl (Nat.le_refl _) rfl rfl rfl rfl rfl rfl
    exact h25
  · exact h25

theorem State.placementStep_keeps (s : State) :
    Keeps s (s.placementStep) := by
  unfold State.placementStep
  split
  · refine Keeps.foldl ?_ (fun y0 _ => ?_)
    · exact Keeps.refl _
    · exact (State.plcStepTile_keeps ..)
  · exact Keeps.refl _

theorem State.acceptFit_keeps (s : State) (n : Nat) (ps : List FitPoint) :
    Keeps s (s.acceptFit n ps) := by
  unfold State.acceptFit
  extract_lets -merge -useContext -underBinder +onlyGivenNames v0 v1 v2
  try clear_value v1; try clear_value v0
  have h3 : ∀ a4 a5 a6, Keeps a4 (v2 a4 a5 a6) := by
    intro a4 a5 a6
    unfold v2
    beta_reduce
    split
    · exact Keeps.refl _
    · exact .trans ((State.noteWrite_keeps ..)) (State.setReg_keeps ..)
  clear_value v2
  extract_lets -merge -useContext -underBinder +onlyGivenNames v7 v8 v9 v10
  try clear_value v9; try clear_value v8; try clear_value v7
  have h11 : Keeps s v10 := by
    unfold v10
    exact (h3 ..)
  clear_value v10
  extract_lets -merge -useContext -underBinder +onlyGivenNames v12
  have h13 : Keeps s v12 := by
    unfold v12
    exact .trans h11 (h3 ..)
  clear_value v12
  extract_lets -merge -useContext -underBinder +onlyGivenNames v14
  have h15 : Keeps s v14 := by
    unfold v14
    exact .trans h13 (h3 ..)
  clear_value v14
  extract_lets -merge -useContext -underBinder +onlyGivenNames v16
  have h17 : Keeps s v16 := by
    unfold v16
    exact .trans h15 (h3 ..)
  clear_value v16
  extract_lets -merge -useContext -underBinder +onlyGivenNames v18
  have h19 : Keeps s v18 := by
    unfold v18
    exact .trans (.trans h17 (State.noteWrite_keeps ..)) (State.setReg_keeps ..)
  clear_value v18
  extract_lets -merge -useContext -underBinder +onlyGivenNames v20 v21
  try clear_value v20
  have h22 : Keeps s v21 := by
    unfold v21
    exact .trans h19 (State.setReg_keeps ..)
  clear_value v21
  extract_lets -merge -useContext -underBinder +onlyGivenNames x24 v23
  have h25 : Keeps s v23 := by
    unfold v23
    exact .trans h22 (State.setPlcTile_keeps ..)
  clear_value v23
  exact .trans (.trans h25 (State.drawn_keeps ..)) (State.bump_keeps ..)

theorem State.rejectFit_keeps (s : State) (n : Nat) :
    Keeps s (s.rejectFit n) := by
  unfold State.rejectFit
  exact .trans (.trans ((State.setFlag_keeps ..)) (State.bump_keeps ..)) (State.event_keeps ..)

theorem execFit_keeps (tile : Fin 16) (s : State) :
    KeepsOut s (execFit tile s) := by
  unfold execFit
  extract_lets -merge -useContext -underBinder +onlyGivenNames v0
  try clear_value v0
  split
  · refine KeepsOut.next ?_
    exact Keeps.refl _
  · split
    · refine KeepsOut.next ?_
      exact Keeps.refl _
    · extract_lets -merge -useContext -underBinder +onlyGivenNames x2 v1
      have h3 : Keeps s v1 := by
        unfold v1
        refine Keeps.of_mk ?_ rfl rfl (Nat.le_refl _) rfl rfl rfl rfl rfl rfl
        exact Keeps.refl _
      clear_value v1
      split
      · refine KeepsOut.next ?_
        exact h3
      · extract_lets -merge -useContext -underBinder +onlyGivenNames v4 v5
        try clear_value v5; try clear_value v4
        split
        · refine KeepsOut.next ?_
          exact .trans h3 (State.bump_keeps ..)
        · split
          · refine KeepsOut.next ?_
            exact .trans h3 (State.acceptFit_keeps ..)
          · extract_lets -merge -useContext -underBinder +onlyGivenNames v6
            try clear_value v6
            split
            · refine KeepsOut.next ?_
              exact .trans h3 (State.rejectFit_keeps ..)
            · refine KeepsOut.next ?_
              exact .trans h3 (State.acceptFit_keeps ..)

theorem execFitStale_keeps (tile : Fin 16) (s : State) :
    KeepsOut s (execFitStale tile s) := by
  unfold execFitStale
  extract_lets -merge -useContext -underBinder +onlyGivenNames v0 v1
  try clear_value v1; try clear_value v0
  split
  · refine KeepsOut.next ?_
    exact .trans (.trans ((State.setFlag_keeps ..)) (State.setFld_keeps ..)) (State.event_keeps ..)
  · refine KeepsOut.next ?_
    exact Keeps.refl _

theorem State.plcCtrlWrite_keeps (s : State) (v : Word) :
    Keeps s (s.plcCtrlWrite v) := by
  unfold State.plcCtrlWrite
  extract_lets -merge -useContext -underBinder +onlyGivenNames v0 v1
  try clear_value v0
  have h2 : Keeps s v1 := by
    unfold v1
    exact (State.store_keeps ..)
  clear_value v1
  extract_lets -merge -useContext -underBinder +onlyGivenNames v3
  try clear_value v3
  split
  · exact h2
  · refine Keeps.foldl ?_ (fun y4 _ => ?_)
    · exact h2
    · extract_lets -merge -useContext -underBinder +onlyGivenNames x6 v5
      have h7 : Keeps y4 v5 := by
        unfold v5
        exact (State.setPlcTile_keeps ..)
      clear_value v5
      split
      · exact h7
      · exact .trans (.trans h7 (State.clrFlag_keeps ..)) (State.setFld_keeps ..)

theorem State.chartRead_keeps (s : State) (m : Nat) (k : Nat) :
    Keeps s (s.chartRead m k).1 := by
  unfold State.chartRead
  extract_lets -merge -useContext -underBinder +onlyGivenNames v0
  try clear_value v0
  exact (State.latchWord_keeps ..)

theorem execChartWindowRead_keeps (node : Fin 85360) (b : BusRead) (s : State) :
    KeepsOut s (execChartWindowRead node b s) := by
  unfold execChartWindowRead
  refine KeepsOut.next ?_
  refine Keeps.trans ?_ (State.busRead_keeps (heff := fun y0 => ?_) ..)
  · exact Keeps.refl _
  · exact (State.chartRead_keeps ..)

theorem State.plcCntClr_keeps (s : State) (v : Word) :
    Keeps s (s.plcCntClr v) := by
  unfold State.plcCntClr
  split
  · exact (State.clrRegs_keeps ..)
  · exact Keeps.refl _

theorem execPlcCntClr_keeps (b : BusWrite) (s : State) :
    KeepsOut s (execPlcCntClr b s) := by
  unfold execPlcCntClr
  refine KeepsOut.next ?_
  refine Keeps.trans ?_ (State.busWrite_keeps (heff := fun y0 _ => ?_) ..)
  · exact Keeps.refl _
  · exact (State.plcCntClr_keeps ..)

end Sys2Proof.Machine
end

