-- ==== Sys2Proof/Laws/KeepsHost.lean ====
section
/-!
SUPPORT. What `Keeps` says, of Satchel, the Registrar, power, the upstream link, the host and reset: one lemma per operation.
-/
namespace Sys2Proof.Machine

open Sys2Proof.Safety

theorem State.satSubmit_keeps (s : State) (j : SatJob) (clear : Bool) :
    Keeps s (s.satSubmit j clear) := by
  unfold State.satSubmit
  split
  · extract_lets -merge -useContext -underBinder +onlyGivenNames v0
    have h1 : Keeps s v0 := by
      unfold v0
      exact (State.setFlag_keeps ..)
    clear_value v0
    refine Keeps.of_mk ?_ rfl rfl (Nat.le_refl _) rfl rfl rfl rfl rfl rfl
    exact h1
  · extract_lets -merge -useContext -underBinder +onlyGivenNames v2
    try clear_value v2
    refine Keeps.of_mk ?_ rfl rfl (Nat.le_refl _) rfl rfl rfl rfl rfl rfl
    exact Keeps.refl _

theorem State.satJobWrite_keeps (s : State) (v : Word) :
    Keeps s (s.satJobWrite v) := by
  unfold State.satJobWrite
  extract_lets -merge -useContext -underBinder +onlyGivenNames v0
  have h1 : Keeps s v0 := by
    unfold v0
    exact (State.store_keeps ..)
  clear_value v0
  split
  · exact h1
  · exact .trans h1 (State.satSubmit_keeps ..)

theorem execSatJobGo_keeps (b : BusWrite) (s : State) :
    KeepsOut s (execSatJobGo b s) := by
  unfold execSatJobGo
  refine KeepsOut.next ?_
  refine Keeps.trans ?_ (State.busWrite_keeps (heff := fun y0 _ => ?_) ..)
  · exact Keeps.refl _
  · exact (State.satJobWrite_keeps ..)

theorem State.satCount_keeps (s : State) (r : SatResult) :
    Keeps s (s.satCount r) := by
  unfold State.satCount
  extract_lets -merge -useContext -underBinder +onlyGivenNames v0 v1 x3 v2
  try clear_value v1; try clear_value v0
  have h4 : Keeps s v2 := by
    unfold v2
    refine Keeps.of_mk ?_ rfl rfl (Nat.le_refl _) rfl rfl rfl rfl rfl rfl
    exact Keeps.refl _
  clear_value v2
  extract_lets -merge -useContext -underBinder +onlyGivenNames v5
  have h6 : Keeps s v5 := by
    unfold v5
    exact .trans (.trans (.trans (.trans h4 (State.bump_keeps ..)) (State.bump_keeps ..)) (State.bump_keeps ..)) (State.bump_keeps ..)
  clear_value v5
  split
  · exact .trans (.trans h6 (State.bump_keeps ..)) (State.event_keeps ..)
  · exact h6

theorem State.satReport_keeps (s : State) (j : SatJob) (r : SatResult) :
    Keeps s (s.satReport j r) := by
  unfold State.satReport
  extract_lets -merge -useContext -underBinder +onlyGivenNames v0
  have h1 : Keeps s v0 := by
    unfold v0
    exact (State.mboxResult_keeps ..)
  clear_value v0
  extract_lets -merge -useContext -underBinder +onlyGivenNames v2
  have h3 : Keeps s v2 := by
    unfold v2
    exact .trans h1 (State.event_keeps ..)
  clear_value v2
  split
  · exact .trans h3 (State.event_keeps ..)
  · exact h3

theorem State.satRead_keeps (s : State) (a : Nat) (n : Nat) :
    Keeps s (s.satRead a n).1 := by
  unfold State.satRead
  refine Keeps.foldl1 ?_ (fun y0 _ => ?_)
  · exact Keeps.refl _
  · split
    · exact Keeps.refl _
    · extract_lets -merge -useContext -underBinder +onlyGivenNames v1 v2
      try clear_value v1
      have h3 : Keeps y0.1 v2.1 := by
        unfold v2
        exact (State.devRead_keeps ..)
      clear_value v2
      split
      · exact h3
      · exact h3

theorem State.satWrite_keeps (s : State) (a : Nat) (bs : List Byte) :
    Keeps s (s.satWrite a bs).1 := by
  unfold State.satWrite
  refine Keeps.foldl1 ?_ (fun y0 _ => ?_)
  · exact Keeps.refl _
  · split
    · exact Keeps.refl _
    · extract_lets -merge -useContext -underBinder +onlyGivenNames v1 v2
      try clear_value v1
      have h3 : Keeps y0.1 v2.1 := by
        unfold v2
        exact (State.devWrite_keeps ..)
      clear_value v2
      split
      · exact h3
      · exact h3

theorem State.satRun_keeps (s : State) (j : SatJob) :
    Keeps s (s.satRun j).1 := by
  unfold State.satRun
  extract_lets -merge -useContext -underBinder +onlyGivenNames v0 v1 v2
  try clear_value v1; try clear_value v0
  have h3 : Keeps s v2.1 := by
    unfold v2
    exact (State.satRead_keeps ..)
  clear_value v2
  extract_lets -merge -useContext -underBinder +onlyGivenNames v4
  have h5 : Keeps s v4 := by
    unfold v4
    exact h3
  clear_value v4
  split
  · extract_lets -merge -useContext -underBinder +onlyGivenNames v6
    have h7 : Keeps s v6.1 := by
      unfold v6
      exact .trans h5 (State.satWrite_keeps ..)
    clear_value v6
    extract_lets -merge -useContext -underBinder +onlyGivenNames v8
    try clear_value v8
    exact .trans h7 (State.drawn_keeps ..)

theorem State.setSatUnit_keeps (s : State) (dec : Bool) (j : Option SatJob) :
    Keeps s (s.setSatUnit dec j) := by
  unfold State.setSatUnit
  refine Keeps.of_mk ?_ rfl rfl (Nat.le_refl _) rfl rfl rfl rfl rfl rfl
  exact Keeps.refl _

theorem execJobStart_keeps (decompress : Bool) (s : State) :
    KeepsOut s (execJobStart decompress s) := by
  unfold execJobStart
  split
  · refine KeepsOut.next ?_
    exact Keeps.refl _
  · extract_lets -merge -useContext -underBinder +onlyGivenNames v0 v1 v2
    try clear_value v2; try clear_value v1; try clear_value v0
    split
    · refine KeepsOut.next ?_
      exact Keeps.refl _
    · extract_lets -merge -useContext -underBinder +onlyGivenNames x4 v3
      have h5 : Keeps s v3 := by
        unfold v3
        split
        · exact Keeps.refl _
        · refine Keeps.of_mk ?_ rfl rfl (Nat.le_refl _) rfl rfl rfl rfl rfl rfl
          exact Keeps.refl _
      clear_value v3
      extract_lets -merge -useContext -underBinder +onlyGivenNames x7 v6
      have h8 : Keeps s v6 := by
        unfold v6
        split
        · exact h5
        · refine Keeps.of_mk ?_ rfl rfl (Nat.le_refl _) rfl rfl rfl rfl rfl rfl
          exact h5
      clear_value v6
      split
      · extract_lets -merge -useContext -underBinder +onlyGivenNames v9
        try clear_value v9
        refine KeepsOut.next ?_
        exact .trans (.trans h8 (State.satCount_keeps ..)) (State.satReport_keeps ..)
      · refine KeepsOut.next ?_
        exact .trans h8 (State.setSatUnit_keeps ..)

theorem State.ckptJobEnd_keeps (s : State) (j : SatJob) (out : List Byte) (r : SatResult) :
    Keeps s (s.ckptJobEnd j out r) := by
  unfold State.ckptJobEnd
  split
  · split
    · exact Keeps.refl _
    · split
      · refine Keeps.trans ?_ (State.setFlag_keeps ..)
        refine Keeps.of_mk ?_ rfl rfl (Nat.le_refl _) rfl rfl rfl rfl rfl rfl
        exact Keeps.refl _
      · extract_lets -merge -useContext -underBinder +onlyGivenNames v0 v1
        try clear_value v0
        have h2 : Keeps s v1 := by
          unfold v1
          exact .trans (.trans (.trans ((State.winWrite_keeps ..)) (State.winWrite_keeps ..)) (State.winWrite_keeps ..)) (State.drawn_keeps ..)
        clear_value v1
        extract_lets -merge -useContext -underBinder +onlyGivenNames x4 v3
        have h5 : Keeps s v3 := by
          unfold v3
          refine Keeps.of_mk ?_ rfl rfl (Nat.le_refl _) rfl rfl rfl rfl rfl rfl
          exact h2
        clear_value v3
        split
        · exact h5
        · refine Keeps.trans ?_ (State.returnBuffer_keeps ..)
          refine Keeps.of_mk ?_ rfl rfl (Nat.le_refl _) rfl rfl rfl rfl rfl rfl
          exact h5
  · exact Keeps.refl _

theorem execJobEnd_keeps (decompress : Bool) (s : State) :
    KeepsOut s (execJobEnd decompress s) := by
  unfold execJobEnd
  split
  · refine KeepsOut.next ?_
    exact Keeps.refl _
  · split
    · refine KeepsOut.next ?_
      exact Keeps.refl _
    · extract_lets -merge -useContext -underBinder +onlyGivenNames v0
      have h1 : Keeps s v0.1 := by
        unfold v0
        exact .trans ((State.setSatUnit_keeps ..)) (State.satRun_keeps ..)
      clear_value v0
      extract_lets -merge -useContext -underBinder +onlyGivenNames v2
      have h3 : Keeps s v2 := by
        unfold v2
        exact .trans h1 (State.satCount_keeps ..)
      clear_value v2
      refine KeepsOut.next ?_
      split
      · exact .trans h3 (State.ckptJobEnd_keeps ..)
      · exact .trans h3 (State.satReport_keeps ..)

theorem State.satAbortRun_keeps (s : State) (dec : Bool) :
    Keeps s (s.satAbortRun dec).1 := by
  unfold State.satAbortRun
  split
  · exact Keeps.refl _
  · split
    · exact Keeps.refl _
    · extract_lets -merge -useContext -underBinder +onlyGivenNames v0 v1 v2
      try clear_value v1; try clear_value v0
      have h3 : Keeps s v2.1 := by
        unfold v2
        exact (State.satWrite_keeps ..)
      clear_value v2
      exact .trans (.trans h3 (State.setSatUnit_keeps ..)) (State.drawn_keeps ..)

theorem State.satGosAfter_keeps (s : State) :
    Keeps s (s.satGosAfter) := by
  unfold State.satGosAfter
  extract_lets -merge -useContext -underBinder +onlyGivenNames v0 v1
  try clear_value v0
  have h2 : Keeps s v1 := by
    unfold v1
    split
    · exact (State.clrFlag_keeps ..)
    · exact Keeps.refl _
  clear_value v1
  refine Keeps.foldl ?_ (fun y3 _ => ?_)
  · refine Keeps.of_mk ?_ rfl rfl (Nat.le_refl _) rfl rfl rfl rfl rfl rfl
    exact h2
  · exact (State.satSubmit_keeps ..)

theorem State.satCtrlWrite_keeps (s : State) (v : Word) :
    Keeps s (s.satCtrlWrite v) := by
  unfold State.satCtrlWrite
  split
  · exact Keeps.refl _
  · extract_lets -merge -useContext -underBinder +onlyGivenNames v0
    have h1 : Keeps s v0.1 := by
      unfold v0
      exact (State.satAbortRun_keeps ..)
    clear_value v0
    extract_lets -merge -useContext -underBinder +onlyGivenNames v2
    have h3 : Keeps s v2.1 := by
      unfold v2
      exact .trans h1 (State.satAbortRun_keeps ..)
    clear_value v2
    extract_lets -merge -useContext -underBinder +onlyGivenNames v4 v5 v6 v7 v8
    try clear_value v7; try clear_value v6; try clear_value v5; try clear_value v4
    have h9 : ∀ a10 a11, Keeps a10 (v8 a10 a11) := by
      intro a10 a11
      unfold v8
      beta_reduce
      exact .trans ((State.satCount_keeps ..)) (State.satReport_keeps ..)
    clear_value v8
    refine Keeps.trans ?_ (State.satGosAfter_keeps ..)
    refine Keeps.foldl ?_ (fun y12 _ => ?_)
    · extract_lets -merge -useContext -underBinder +onlyGivenNames v13
      have h14 : Keeps s v13 := by
        unfold v13
        exact h3
      refine Keeps.of_mk ?_ rfl rfl (Nat.le_refl _) rfl rfl rfl rfl rfl rfl
      exact h14
    · exact (h9 ..)

theorem execSatAbort_keeps (b : BusWrite) (s : State) :
    KeepsOut s (execSatAbort b s) := by
  unfold execSatAbort
  refine KeepsOut.next ?_
  refine Keeps.trans ?_ (State.busWrite_keeps (heff := fun y0 _ => ?_) ..)
  · exact Keeps.refl _
  · exact (State.satCtrlWrite_keeps ..)

theorem State.satCntClrWrite_keeps (s : State) (v : Word) :
    Keeps s (s.satCntClrWrite v) := by
  unfold State.satCntClrWrite
  split
  · refine Keeps.trans ?_ (State.clrRegs_keeps ..)
    refine Keeps.of_mk ?_ rfl rfl (Nat.le_refl _) rfl rfl rfl rfl rfl rfl
    exact Keeps.refl _
  · exact Keeps.refl _

theorem execSatCntClr_keeps (b : BusWrite) (s : State) :
    KeepsOut s (execSatCntClr b s) := by
  unfold execSatCntClr
  refine KeepsOut.next ?_
  refine Keeps.trans ?_ (State.busWrite_keeps (heff := fun y0 _ => ?_) ..)
  · exact Keeps.refl _
  · exact (State.satCntClrWrite_keeps ..)

theorem State.ckptStart_keeps (s : State) :
    Keeps s (s.ckptStart) := by
  unfold State.ckptStart
  split
  · exact Keeps.refl _
  · refine Keeps.of_mk ?_ rfl rfl (Nat.le_refl _) rfl rfl rfl rfl rfl rfl
    exact Keeps.refl _

theorem execCheckpoint_keeps (s : State) :
    KeepsOut s (execCheckpoint s) := by
  unfold execCheckpoint
  extract_lets -merge -useContext -underBinder +onlyGivenNames v0
  try clear_value v0
  split
  · refine KeepsOut.next ?_
    refine Keeps.trans ?_ (State.ckptStart_keeps ..)
    refine Keeps.of_mk ?_ rfl rfl (Nat.le_refl _) rfl rfl rfl rfl rfl rfl
    exact Keeps.refl _
  · refine KeepsOut.next ?_
    exact Keeps.refl _

theorem State.ckptCtrlWrite_keeps (s : State) (v : Word) :
    Keeps s (s.ckptCtrlWrite v) := by
  unfold State.ckptCtrlWrite
  extract_lets -merge -useContext -underBinder +onlyGivenNames v0
  have h1 : Keeps s v0 := by
    unfold v0
    exact (State.store_keeps ..)
  clear_value v0
  split
  · exact .trans h1 (State.ckptStart_keeps ..)
  · exact h1

theorem execCkptNow_keeps (b : BusWrite) (s : State) :
    KeepsOut s (execCkptNow b s) := by
  unfold execCkptNow
  refine KeepsOut.next ?_
  refine Keeps.trans ?_ (State.busWrite_keeps (heff := fun y0 _ => ?_) ..)
  · exact Keeps.refl _
  · exact (State.ckptCtrlWrite_keeps ..)

theorem execCheckpointDone_keeps (s : State) :
    KeepsOut s (execCheckpointDone s) := by
  unfold execCheckpointDone
  split
  · split
    · extract_lets -merge -useContext -underBinder +onlyGivenNames x1 v0
      have h2 : Keeps s v0 := by
        unfold v0
        refine Keeps.of_mk ?_ rfl rfl (Nat.le_refl _) rfl rfl rfl rfl rfl rfl
        exact Keeps.refl _
      clear_value v0
      refine KeepsOut.next ?_
      exact .trans (.trans (.trans (.trans h2 (State.returnBuffer_keeps ..)) (State.setReg_keeps ..)) (State.event_keeps ..)) (State.recordDue_keeps ..)
    · refine KeepsOut.next ?_
      exact Keeps.refl _
  · refine KeepsOut.next ?_
    exact Keeps.refl _

theorem State.ckptPostWrite_keeps (s : State) (v : Word) :
    Keeps s (s.ckptPostWrite v) := by
  unfold State.ckptPostWrite
  split
  · exact Keeps.refl _
  · exact (State.post_keeps ..)

theorem execRptCkptPost_keeps (b : BusWrite) (s : State) :
    KeepsOut s (execRptCkptPost b s) := by
  unfold execRptCkptPost
  refine KeepsOut.next ?_
  refine Keeps.trans ?_ (State.busWrite_keeps (heff := fun y0 _ => ?_) ..)
  · exact Keeps.refl _
  · exact (State.ckptPostWrite_keeps ..)

theorem State.ckptAccept_keeps (s : State) (x : Nat) :
    Keeps s (s.ckptAccept x) := by
  unfold State.ckptAccept
  split
  · exact (State.returnBuffer_keeps ..)
  · refine Keeps.of_mk ?_ rfl rfl (Nat.le_refl _) rfl rfl rfl rfl rfl rfl
    exact Keeps.refl _

theorem State.restPostWrite_keeps (s : State) (v : Word) :
    Keeps s (s.restPostWrite v) := by
  unfold State.restPostWrite
  split
  · exact Keeps.refl _
  · exact (State.post_keeps ..)

theorem execRptRestPost_keeps (b : BusWrite) (s : State) :
    KeepsOut s (execRptRestPost b s) := by
  unfold execRptRestPost
  refine KeepsOut.next ?_
  refine Keeps.trans ?_ (State.busWrite_keeps (heff := fun y0 _ => ?_) ..)
  · exact Keeps.refl _
  · exact (State.restPostWrite_keeps ..)

theorem State.restAccept_keeps (s : State) (x : Nat) :
    Keeps s (s.restAccept x) := by
  unfold State.restAccept
  refine Keeps.of_mk ?_ rfl rfl (Nat.le_refl _) rfl rfl rfl rfl rfl rfl
  exact Keeps.refl _

theorem State.restCheck_keeps (s : State) (x : Nat) (index : Nat) (gen : Option Nat) :
    Keeps s (s.restCheck x index gen).1 := by
  unfold State.restCheck
  extract_lets -merge -useContext -underBinder +onlyGivenNames v0
  have h1 : Keeps s v0.1 := by
    unfold v0
    exact (State.devRead_keeps ..)
  clear_value v0
  extract_lets -merge -useContext -underBinder +onlyGivenNames v2 v3
  try clear_value v3; try clear_value v2
  split
  · exact h1
  · extract_lets -merge -useContext -underBinder +onlyGivenNames v4
    have h5 : Keeps s v4.1 := by
      unfold v4
      exact .trans h1 (State.devRead_keeps ..)
    clear_value v4
    extract_lets -merge -useContext -underBinder +onlyGivenNames v6
    try clear_value v6
    split
    · exact h5
    · exact h5

theorem State.stressFree_keeps (s : State) : Keeps s s.stressFree :=
  .trans (State.dram_keeps ..) (State.drawn_keeps ..)

theorem execRestoreBufferDone_keeps (s : State) :
    KeepsOut s (execRestoreBufferDone s) := by
  unfold execRestoreBufferDone
  split
  · refine KeepsOut.next ?_
    exact Keeps.refl _
  · split
    · refine KeepsOut.next ?_
      exact Keeps.refl _
    · extract_lets -merge -useContext -underBinder +onlyGivenNames x1 v0
      have h2 : Keeps s v0 := by
        unfold v0
        refine Keeps.of_mk ?_ rfl rfl (Nat.le_refl _) rfl rfl rfl rfl rfl rfl
        exact Keeps.refl _
      clear_value v0
      extract_lets -merge -useContext -underBinder +onlyGivenNames v3 v4
      try clear_value v3
      have h5 : Keeps s v4.1 := by
        unfold v4
        exact .trans h2 (State.restCheck_keeps ..)
      clear_value v4
      extract_lets -merge -useContext -underBinder +onlyGivenNames v6
      have h7 : Keeps s v6 := by
        unfold v6
        exact h5
      clear_value v6
      split
      · extract_lets -merge -useContext -underBinder +onlyGivenNames v8
        have h9 : Keeps s v8 := by
          unfold v8
          exact .trans h7 (State.devWrite_keeps ..)
        clear_value v8
        extract_lets -merge -useContext -underBinder +onlyGivenNames x11 v10
        have h12 : Keeps s v10 := by
          unfold v10
          refine Keeps.of_mk ?_ rfl rfl (Nat.le_refl _) rfl rfl rfl rfl rfl rfl
          exact h9
        clear_value v10
        refine KeepsOut.next ?_
        exact .trans h12 (State.returnBuffer_keeps ..)
      · extract_lets -merge -useContext -underBinder +onlyGivenNames x14 v13
        have h15 : Keeps s v13 := by
          unfold v13
          refine Keeps.of_mk ?_ rfl rfl (Nat.le_refl _) rfl rfl rfl rfl rfl rfl
          exact h7
        clear_value v13
        refine KeepsOut.next ?_
        exact .trans (.trans (.trans h15 (State.setFlag_keeps ..)) (State.stressFree_keeps ..)) (State.returnBuffer_keeps ..)

theorem otpKept_put (m : SMap Byte) (byte bit : Nat) :
    OtpKept m (SMap.put (fun _ => (0 : Byte)) m byte (SMap.get (fun _ => (0 : Byte)) m byte ||| BitVec.ofNat 8 (2 ^ bit))) := by
  intro k i h
  unfold otpBit at h ⊢
  rw [SMap.get_put]
  split
  · rename_i e
    subst e
    rw [BitVec.getLsbD_or, h, Bool.true_or]
  · exact h

theorem State.otpProgram_keeps (s : State) (byte : Nat) (bit : Nat) : Keeps s (s.otpProgram byte bit) :=
  ⟨rfl, rfl, Nat.le_refl _, id, id, id, otpKept_put _ _ _, otpKept_put _ _ _, otpKept_put _ _ _⟩

theorem State.extend_keeps (s : State) (m : Nat) (x : List Byte) :
    Keeps s (s.extend m x) := by
  unfold State.extend
  extract_lets -merge -useContext -underBinder +onlyGivenNames v0
  try clear_value v0
  refine Keeps.foldl ?_ (fun y1 _ => ?_)
  · exact Keeps.refl _
  · exact (State.setReg_keeps ..)

theorem State.firmwareStart_keeps (s : State) (bs : List Byte) (payload : List Byte) :
    Keeps s (s.firmwareStart bs payload) := by
  unfold State.firmwareStart
  extract_lets -merge -useContext -underBinder +onlyGivenNames v0
  have h1 : Keeps s v0 := by
    unfold v0
    exact .trans ((State.extend_keeps ..)) (State.bump_keeps ..)
  clear_value v0
  refine Keeps.trans ?_ (State.setFlag_keeps ..)
  refine Keeps.of_mk ?_ rfl rfl (Nat.le_refl _) rfl rfl rfl rfl rfl rfl
  exact h1

theorem State.bootFail_keeps (s : State) (status : Nat) :
    Keeps s (s.bootFail status) := by
  unfold State.bootFail
  exact .trans ((State.setFld_keeps ..)) (State.bump_keeps ..)

theorem State.romBoot_keeps (s : State) (copyA : List Byte) (copyB : List Byte) :
    Keeps s (s.romBoot copyA copyB) := by
  unfold State.romBoot
  extract_lets -merge -useContext -underBinder +onlyGivenNames v0
  have h1 : Keeps s v0 := by
    unfold v0
    exact (State.extend_keeps ..)
  clear_value v0
  extract_lets -merge -useContext -underBinder +onlyGivenNames v2
  have h3 : Keeps s v2 := by
    unfold v2
    split
    · exact .trans h1 (State.setFlag_keeps ..)
    · exact h1
  clear_value v2
  split
  · refine Keeps.of_mk ?_ rfl rfl (Nat.le_refl _) rfl rfl rfl rfl rfl rfl
    exact h3
  · extract_lets -merge -useContext -underBinder +onlyGivenNames v4
    try clear_value v4
    split
    · exact .trans h3 (State.firmwareStart_keeps ..)
    · extract_lets -merge -useContext -underBinder +onlyGivenNames v5
      have h6 : Keeps s v5 := by
        unfold v5
        exact .trans h3 (State.bootFail_keeps ..)
      clear_value v5
      extract_lets -merge -useContext -underBinder +onlyGivenNames v7
      try clear_value v7
      split
      · exact .trans h6 (State.firmwareStart_keeps ..)
      · exact .trans (.trans (.trans h6 (State.bootFail_keeps ..)) (State.setFlag_keeps ..)) (State.event_keeps ..)

theorem State.imageEnd_keeps (s : State) (src : ImageSrc) (type : Nat) (svn : Nat) (status : Nat) (digest : List Byte) :
    Keeps s (s.imageEnd src type svn status digest) := by
  unfold State.imageEnd
  extract_lets -merge -useContext -underBinder +onlyGivenNames v0
  have h1 : Keeps s v0 := by
    unfold v0
    split
    · exact (State.returnBuffer_keeps ..)
    · exact Keeps.refl _
  clear_value v0
  extract_lets -merge -useContext -underBinder +onlyGivenNames v2
  have h3 : Keeps s v2 := by
    unfold v2
    split
    · exact h1
    · exact .trans (.trans h1 (State.bump_keeps ..)) (State.event_keeps ..)
  clear_value v2
  exact .trans h3 (State.secResult_keeps ..)

theorem State.imageLoaded_keeps (s : State) (src : ImageSrc) (type : Nat) (svn : Nat) (digest : List Byte) :
    Keeps s (s.imageLoaded src type svn digest) := by
  unfold State.imageLoaded
  exact .trans (.trans ((State.extend_keeps ..)) (State.event_keeps ..)) (State.imageEnd_keeps ..)

theorem State.registrarDecode_keeps (s : State) (bs : List Byte) :
    Keeps s (s.registrarDecode bs) := by
  unfold State.registrarDecode
  extract_lets -merge -useContext -underBinder +onlyGivenNames v0 v1 v2 v3
  try clear_value v2; try clear_value v1; try clear_value v0
  have h4 : Keeps s v3.1 := by
    unfold v3
    exact (State.satWrite_keeps ..)
  clear_value v3
  extract_lets -merge -useContext -underBinder +onlyGivenNames v5 v6 v7
  try clear_value v7; try clear_value v6; try clear_value v5
  exact .trans (.trans (.trans (.trans h4 (State.satCount_keeps ..)) (State.satReport_keeps ..)) (State.drawn_keeps ..)) (State.clrFlag_keeps ..)

theorem State.imageVerified_keeps (s : State) (src : ImageSrc) (bs : List Byte) (payload : List Byte) :
    Keeps s (s.imageVerified src bs payload) := by
  unfold State.imageVerified
  extract_lets -merge -useContext -underBinder +onlyGivenNames v0 v1 v2 v3
  try clear_value v2; try clear_value v1; try clear_value v0
  have h4 : ∀ a5 a6, Keeps a5 (v3 a5 a6) := by
    intro a5 a6
    unfold v3
    beta_reduce
    split
    · exact (State.imageEnd_keeps ..)
    · exact Keeps.refl _
  clear_value v3
  extract_lets -merge -useContext -underBinder +onlyGivenNames v7
  have h8 : Keeps s v7 := by
    unfold v7
    exact (State.bump_keeps ..)
  clear_value v7
  split
  · extract_lets -merge -useContext -underBinder +onlyGivenNames v9
    have h10 : Keeps s v9 := by
      unfold v9
      exact .trans h8 (h4 ..)
    clear_value v9
    refine Keeps.of_mk ?_ rfl rfl (Nat.le_refl _) rfl rfl rfl rfl rfl rfl
    exact h10
  · split
    · extract_lets -merge -useContext -underBinder +onlyGivenNames v11
      have h12 : Keeps s v11 := by
        unfold v11
        exact .trans h8 (h4 ..)
      clear_value v11
      refine Keeps.of_mk ?_ rfl rfl (Nat.le_refl _) rfl rfl rfl rfl rfl rfl
      exact h12
    · split
      · extract_lets -merge -useContext -underBinder +onlyGivenNames v13
        have h14 : Keeps s v13.1 := by
          unfold v13
          exact .trans h8 (State.devWrite_keeps ..)
        clear_value v13
        split
        · exact .trans h14 (State.imageLoaded_keeps ..)
        · exact .trans h14 (State.imageEnd_keeps ..)
      · split
        · exact .trans (.trans h8 (State.setFlag_keeps ..)) (State.imageLoaded_keeps ..)
        · exact .trans h8 (State.imageEnd_keeps ..)

theorem execImageVerification_keeps (s : State) :
    KeepsOut s (execImageVerification s) := by
  unfold execImageVerification
  extract_lets -merge -useContext -underBinder +onlyGivenNames v0
  try clear_value v0
  split
  · refine KeepsOut.next ?_
    exact Keeps.refl _
  · split
    · split
      · refine KeepsOut.next ?_
        exact Keeps.refl _
      · extract_lets -merge -useContext -underBinder +onlyGivenNames v1
        have h2 : Keeps s v1.1 := by
          unfold v1
          exact (State.devRead_keeps ..)
        clear_value v1
        extract_lets -merge -useContext -underBinder +onlyGivenNames v3 v4 v5 v6 v7
        try clear_value v6; try clear_value v5; try clear_value v4; try clear_value v3
        have h8 : ∀ a9, Keeps a9 (v7 a9) := by
          intro a9
          unfold v7
          beta_reduce
          refine Keeps.of_mk ?_ rfl rfl (Nat.le_refl _) rfl rfl rfl rfl rfl rfl
          exact Keeps.refl _
        clear_value v7
        split
        · refine KeepsOut.next ?_
          exact .trans (.trans (.trans h2 (h8 ..)) (State.drawn_keeps ..)) (State.imageEnd_keeps ..)
        · split
          · refine KeepsOut.next ?_
            exact .trans (.trans (.trans h2 (h8 ..)) (State.drawn_keeps ..)) (State.imageEnd_keeps ..)
          · extract_lets -merge -useContext -underBinder +onlyGivenNames v10
            have h11 : Keeps s v10.1 := by
              unfold v10
              exact .trans h2 (State.devRead_keeps ..)
            clear_value v10
            extract_lets -merge -useContext -underBinder +onlyGivenNames v12 v13
            try clear_value v13; try clear_value v12
            split
            · refine KeepsOut.next ?_
              exact .trans (.trans (.trans h11 (h8 ..)) (State.drawn_keeps ..)) (State.imageEnd_keeps ..)
            · extract_lets -merge -useContext -underBinder +onlyGivenNames v14
              try clear_value v14
              split
              · refine KeepsOut.next ?_
                exact Keeps.refl _
              · extract_lets -merge -useContext -underBinder +onlyGivenNames v15
                have h16 : Keeps s v15 := by
                  unfold v15
                  exact .trans h11 (h8 ..)
                clear_value v15
                extract_lets -merge -useContext -underBinder +onlyGivenNames v17
                have h18 : Keeps s v17 := by
                  unfold v17
                  split
                  · exact .trans h16 (State.registrarDecode_keeps ..)
                  · exact h16
                clear_value v17
                split
                · refine KeepsOut.next ?_
                  exact .trans h18 (State.imageEnd_keeps ..)
                · split
                  · refine KeepsOut.next ?_
                    exact .trans (.trans h18 (State.firmwareStart_keeps ..)) (State.imageEnd_keeps ..)
                  · refine KeepsOut.next ?_
                    exact .trans h18 (State.imageVerified_keeps ..)

theorem State.imgPostWrite_keeps (s : State) (v : Word) :
    Keeps s (s.imgPostWrite v) := by
  unfold State.imgPostWrite
  extract_lets -merge -useContext -underBinder +onlyGivenNames v0
  try clear_value v0
  split
  · exact Keeps.refl _
  · exact (State.post_keeps ..)

theorem execSecImgPost_keeps (b : BusWrite) (s : State) :
    KeepsOut s (execSecImgPost b s) := by
  unfold execSecImgPost
  refine KeepsOut.next ?_
  refine Keeps.trans ?_ (State.busWrite_keeps (heff := fun y0 _ => ?_) ..)
  · exact Keeps.refl _
  · exact (State.imgPostWrite_keeps ..)

theorem State.imgAccept_keeps (s : State) (x : Nat) :
    Keeps s (s.imgAccept x) := by
  unfold State.imgAccept
  refine Keeps.of_mk ?_ rfl rfl (Nat.le_refl _) rfl rfl rfl rfl rfl rfl
  exact Keeps.refl _

theorem State.kernelApply_keeps (s : State) :
    Keeps s (s.kernelApply) := by
  unfold State.kernelApply
  split
  · exact Keeps.refl _
  · split
    · exact Keeps.refl _
    · extract_lets -merge -useContext -underBinder +onlyGivenNames x1 v0
      have h2 : Keeps s v0 := by
        unfold v0
        refine Keeps.of_mk ?_ rfl rfl (Nat.le_refl _) rfl rfl rfl rfl rfl rfl
        exact Keeps.refl _
      clear_value v0
      extract_lets -merge -useContext -underBinder +onlyGivenNames v3
      have h4 : Keeps s v3 := by
        unfold v3
        refine Keeps.foldl ?_ (fun y5 _ => ?_)
        · exact h2
        · split
          · exact Keeps.refl _
          · extract_lets -merge -useContext -underBinder +onlyGivenNames v6
            have h7 : Keeps y5 v6 := by
              unfold v6
              exact (State.noteSram_keeps ..)
            refine Keeps.of_mk ?_ rfl rfl (Nat.le_refl _) rfl rfl rfl rfl rfl rfl
            exact h7
      clear_value v3
      exact .trans h4 (State.imageLoaded_keeps ..)

theorem execFrameProgramApply_keeps (s : State) :
    KeepsOut s (execFrameProgramApply s) := by
  unfold execFrameProgramApply
  split
  · refine KeepsOut.next ?_
    exact Keeps.refl _
  · extract_lets -merge -useContext -underBinder +onlyGivenNames v0 v1
    try clear_value v1; try clear_value v0
    split
    · refine KeepsOut.next ?_
      exact Keeps.refl _
    · extract_lets -merge -useContext -underBinder +onlyGivenNames x3 v2
      have h4 : Keeps s v2 := by
        unfold v2
        refine Keeps.of_mk ?_ rfl rfl (Nat.le_refl _) rfl rfl rfl rfl rfl rfl
        exact Keeps.refl _
      clear_value v2
      extract_lets -merge -useContext -underBinder +onlyGivenNames x6 x7 v5
      have h8 : Keeps s v5 := by
        unfold v5
        have h9 : Keeps s x6 := by
          unfold x6
          exact .trans h4 (State.noteSram_keeps ..)
        clear_value x6
        refine Keeps.of_mk ?_ rfl rfl (Nat.le_refl _) rfl rfl rfl rfl rfl rfl
        exact h9
      clear_value v5
      refine KeepsOut.next ?_
      exact .trans h8 (State.imageLoaded_keeps ..)

theorem State.extendWrite_keeps (s : State) (v : Word) :
    Keeps s (s.extendWrite v) := by
  unfold State.extendWrite
  split
  · exact (State.extend_keeps ..)
  · exact Keeps.refl _

theorem execSecExtendGo_keeps (b : BusWrite) (s : State) :
    KeepsOut s (execSecExtendGo b s) := by
  unfold execSecExtendGo
  refine KeepsOut.next ?_
  refine Keeps.trans ?_ (State.busWrite_keeps (heff := fun y0 _ => ?_) ..)
  · exact Keeps.refl _
  · exact (State.extendWrite_keeps ..)

theorem State.prcLockWrite_keeps (s : State) (t : Nat) (v : Word) :
    Keeps s (s.prcLockWrite t v) := by
  unfold State.prcLockWrite
  extract_lets -merge -useContext -underBinder +onlyGivenNames v0
  have h1 : Keeps s v0 := by
    unfold v0
    exact (State.store_keeps ..)
  clear_value v0
  extract_lets -merge -useContext -underBinder +onlyGivenNames v2
  have h3 : Keeps s v2 := by
    unfold v2
    split
    · exact .trans h1 (State.clrRegs_keeps ..)
    · exact h1
  clear_value v2
  split
  · exact .trans h3 (State.extend_keeps ..)
  · exact h3

theorem execPrcLockWrite_keeps (target : Fin 23) (b : BusWrite) (s : State) :
    KeepsOut s (execPrcLockWrite target b s) := by
  unfold execPrcLockWrite
  refine KeepsOut.next ?_
  refine Keeps.trans ?_ (State.busWrite_keeps (heff := fun y0 _ => ?_) ..)
  · exact Keeps.refl _
  · exact (State.prcLockWrite_keeps ..)

theorem execPrcLockCntClr_keeps (target : Fin 23) (b : BusWrite) (s : State) :
    KeepsOut s (execPrcLockCntClr target b s) := by
  unfold execPrcLockCntClr
  refine KeepsOut.next ?_
  refine Keeps.trans ?_ (State.busWrite_keeps (heff := fun y0 _ => ?_) ..)
  · exact Keeps.refl _
  · exact (State.prcLockWrite_keeps ..)

theorem State.takeLeaf_keeps (s : State) (cache : List (List Byte)) :
    Keeps s (s.takeLeaf cache).1 := by
  unfold State.takeLeaf
  extract_lets -merge -useContext -underBinder +onlyGivenNames v0
  try clear_value v0
  split
  · refine Keeps.trans ?_ (State.setReg_keeps ..)
    refine Keeps.of_mk ?_ rfl rfl (Nat.le_refl _) rfl rfl rfl rfl rfl rfl
    exact Keeps.refl _
  · split
    · exact Keeps.refl _
    · split
      · exact Keeps.refl _
      · split
        · refine Keeps.of_mk ?_ rfl rfl (Nat.le_refl _) rfl rfl rfl rfl rfl rfl
          exact Keeps.refl _
        · extract_lets -merge -useContext -underBinder +onlyGivenNames v1
          have h2 : Keeps s v1 := by
            unfold v1
            exact (State.otpProgram_keeps ..)
          clear_value v1
          extract_lets -merge -useContext -underBinder +onlyGivenNames x4 v3
          have h5 : Keeps s v3 := by
            unfold v3
            refine Keeps.of_mk ?_ rfl rfl (Nat.le_refl _) rfl rfl rfl rfl rfl rfl
            exact h2
          clear_value v3
          extract_lets -merge -useContext -underBinder +onlyGivenNames v6
          have h7 : Keeps s v6 := by
            unfold v6
            split
            · exact .trans h5 (State.event_keeps ..)
            · exact h5
          clear_value v6
          exact .trans h7 (State.setReg_keeps ..)

theorem State.reportFail_keeps (s : State) (x : Nat) (status : Nat) :
    Keeps s (s.reportFail x status) := by
  unfold State.reportFail
  extract_lets -merge -useContext -underBinder +onlyGivenNames v0 v1
  try clear_value v0
  have h2 : Keeps s v1 := by
    unfold v1
    exact .trans ((State.drawn_keeps ..)) (State.returnBuffer_keeps ..)
  clear_value v1
  extract_lets -merge -useContext -underBinder +onlyGivenNames v3
  have h4 : Keeps s v3 := by
    unfold v3
    split
    · exact h2
    · exact .trans h2 (State.event_keeps ..)
  clear_value v3
  exact .trans h4 (State.secResult_keeps ..)

theorem execMeasurementReport_keeps (treeCache : List Byte) (s : State) :
    KeepsOut s (execMeasurementReport treeCache s) := by
  unfold execMeasurementReport
  split
  · refine KeepsOut.next ?_
    exact Keeps.refl _
  · split
    · refine KeepsOut.next ?_
      exact Keeps.refl _
    · extract_lets -merge -useContext -underBinder +onlyGivenNames x1 v0
      have h2 : Keeps s v0 := by
        unfold v0
        refine Keeps.of_mk ?_ rfl rfl (Nat.le_refl _) rfl rfl rfl rfl rfl rfl
        exact Keeps.refl _
      clear_value v0
      split
      · refine KeepsOut.next ?_
        exact .trans h2 (State.reportFail_keeps ..)
      · extract_lets -merge -useContext -underBinder +onlyGivenNames v3
        try clear_value v3
        split
        · refine KeepsOut.next ?_
          refine Keeps.trans ?_ (State.reportFail_keeps ..)
          refine Keeps.of_fst (by assumption) ?_
          exact .trans h2 (State.takeLeaf_keeps ..)
        · extract_lets -merge -useContext -underBinder +onlyGivenNames v4 v5 v6
          try clear_value v5; try clear_value v4
          have h7 : Keeps s v6 := by
            unfold v6
            refine Keeps.trans ?_ (State.event_keeps ..)
            refine Keeps.trans ?_ (State.bump_keeps ..)
            refine Keeps.trans ?_ (State.returnFilled_keeps ..)
            refine Keeps.of_fst (by assumption) ?_
            exact .trans h2 (State.takeLeaf_keeps ..)
          clear_value v6
          refine KeepsOut.next ?_
          exact .trans h7 (State.secResult_keeps ..)

theorem State.attPostWrite_keeps (s : State) (v : Word) :
    Keeps s (s.attPostWrite v) := by
  unfold State.attPostWrite
  split
  · exact Keeps.refl _
  · exact (State.post_keeps ..)

theorem execSecAttPost_keeps (b : BusWrite) (s : State) :
    KeepsOut s (execSecAttPost b s) := by
  unfold execSecAttPost
  refine KeepsOut.next ?_
  refine Keeps.trans ?_ (State.busWrite_keeps (heff := fun y0 _ => ?_) ..)
  · exact Keeps.refl _
  · exact (State.attPostWrite_keeps ..)

theorem State.attAccept_keeps (s : State) (x : Nat) :
    Keeps s (s.attAccept x) := by
  unfold State.attAccept
  refine Keeps.of_mk ?_ rfl rfl (Nat.le_refl _) rfl rfl rfl rfl rfl rfl
  exact Keeps.refl _

theorem State.asmkeyDataWrite_keeps (s : State) (m : Nat) (n : Nat) (v : Word) :
    Keeps s (s.asmkeyDataWrite m n v) := by
  unfold State.asmkeyDataWrite
  split
  · exact (State.setReg_keeps ..)
  · exact Keeps.refl _

theorem State.asmkeyWrite_keeps (s : State) (m : Nat) (v : Word) :
    Keeps s (s.asmkeyWrite m v) := by
  unfold State.asmkeyWrite
  split
  · exact Keeps.refl _
  · extract_lets -merge -useContext -underBinder +onlyGivenNames v0
    have h1 : Keeps s v0 := by
      unfold v0
      exact (State.store_keeps ..)
    clear_value v0
    split
    · exact h1
    · extract_lets -merge -useContext -underBinder +onlyGivenNames v2 v3 x5 v4
      try clear_value v3; try clear_value v2
      have h6 : Keeps s v4 := by
        unfold v4
        refine Keeps.of_mk ?_ rfl rfl (Nat.le_refl _) rfl rfl rfl rfl rfl rfl
        exact h1
      clear_value v4
      extract_lets -merge -useContext -underBinder +onlyGivenNames x8 x9 v7
      have h10 : Keeps s v7 := by
        unfold v7
        split
        · refine Keeps.of_mk ?_ rfl rfl (Nat.le_refl _) rfl rfl rfl rfl rfl rfl
          exact h6
        · refine Keeps.of_mk ?_ rfl rfl (Nat.le_refl _) rfl rfl rfl rfl rfl rfl
          exact h6
      clear_value v7
      exact .trans (.trans h10 (State.setFlag_keeps ..)) (State.clrRegs_keeps ..)

theorem execAsmkeyCommit_keeps (b : BusWrite) (s : State) :
    KeepsOut s (execAsmkeyCommit b s) := by
  unfold execAsmkeyCommit
  refine KeepsOut.next ?_
  refine Keeps.trans ?_ (State.busWrite_keeps (heff := fun y0 _ => ?_) ..)
  · exact Keeps.refl _
  · exact (State.asmkeyWrite_keeps ..)

theorem State.secCntClrWrite_keeps (s : State) (v : Word) :
    Keeps s (s.secCntClrWrite v) := by
  unfold State.secCntClrWrite
  split
  · exact (State.clrRegs_keeps ..)
  · exact Keeps.refl _

theorem execSecCntClr_keeps (b : BusWrite) (s : State) :
    KeepsOut s (execSecCntClr b s) := by
  unfold execSecCntClr
  refine KeepsOut.next ?_
  refine Keeps.trans ?_ (State.busWrite_keeps (heff := fun y0 _ => ?_) ..)
  · exact Keeps.refl _
  · exact (State.secCntClrWrite_keeps ..)

theorem State.setSource_keeps (s : State) (k : Nat) (v : ThmSource) :
    Keeps s (s.setSource k v) := by
  unfold State.setSource
  refine Keeps.of_mk ?_ rfl rfl (Nat.le_refl _) rfl rfl rfl rfl rfl rfl
  exact Keeps.refl _

theorem State.thmLatch_keeps (s : State) :
    Keeps s (s.thmLatch) := by
  unfold State.thmLatch
  refine Keeps.of_mk ?_ rfl rfl (Nat.le_refl _) rfl rfl rfl rfl rfl rfl
  exact Keeps.refl _

theorem State.markBad_keeps (s : State) (k : Nat) :
    Keeps s (s.markBad k) := by
  unfold State.markBad
  split
  · exact Keeps.refl _
  · refine Keeps.trans ?_ (State.event_keeps ..)
    split
    · exact (State.setFlag_keeps ..)
    · exact (State.setFlag_keeps ..)

theorem State.thmRefresh_keeps (s : State) :
    Keeps s (s.thmRefresh) := by
  unfold State.thmRefresh
  extract_lets -merge -useContext -underBinder +onlyGivenNames v0 v1 v2 v3 v4 v5 v6 v7
  try clear_value v6; try clear_value v5; try clear_value v4; try clear_value v3; try clear_value v2; try clear_value v1; try clear_value v0
  have h8 : Keeps s v7 := by
    unfold v7
    split
    · exact Keeps.refl _
    · exact (State.setReg_keeps ..)
  clear_value v7
  extract_lets -merge -useContext -underBinder +onlyGivenNames v9
  have h10 : Keeps s v9 := by
    unfold v9
    split
    · exact h8
    · exact .trans h8 (State.setReg_keeps ..)
  clear_value v9
  extract_lets -merge -useContext -underBinder +onlyGivenNames v11
  have h12 : Keeps s v11 := by
    unfold v11
    refine Keeps.foldl ?_ (fun y13 _ => ?_)
    · exact h10
    · exact (State.setReg_keeps ..)
  clear_value v11
  exact .trans (.trans h12 (State.setReg_keeps ..)) (State.drawn_keeps ..)

theorem execRetStatus_keeps (tile : Fin 16) (s : State) :
    KeepsOut s (execRetStatus tile s) := by
  unfold execRetStatus
  extract_lets -merge -useContext -underBinder +onlyGivenNames v0
  try clear_value v0
  split
  · refine KeepsOut.next ?_
    exact Keeps.refl _
  · extract_lets -merge -useContext -underBinder +onlyGivenNames v1
    have h2 : Keeps s v1 := by
      unfold v1
      exact .trans (State.takeReturn_keeps (by assumption)) (State.setReg_keeps ..)
    clear_value v1
    extract_lets -merge -useContext -underBinder +onlyGivenNames v3 v4
    try clear_value v3
    have h5 : Keeps s v4 := by
      unfold v4
      exact .trans h2 (State.setTile_keeps ..)
    clear_value v4
    extract_lets -merge -useContext -underBinder +onlyGivenNames v6
    have h7 : Keeps s v6 := by
      unfold v6
      exact .trans h5 (State.clrFlag_keeps ..)
    clear_value v6
    extract_lets -merge -useContext -underBinder +onlyGivenNames v8
    have h9 : Keeps s v8 := by
      unfold v8
      exact .trans (.trans h7 (State.bump_keeps ..)) (State.bump_keeps ..)
    clear_value v8
    split
    · refine KeepsOut.next ?_
      exact h9
    · refine KeepsOut.next ?_
      refine Keeps.trans ?_ (State.thmRefresh_keeps ..)
      split
      · exact .trans h9 (State.markBad_keeps ..)
      · exact h9

theorem execSensorConversion_keeps (sensor : Fin 32) (raw : Word) (temp : Option (BitVec 16)) (s : State) :
    KeepsOut s (execSensorConversion sensor raw temp s) := by
  unfold execSensorConversion
  extract_lets -merge -useContext -underBinder +onlyGivenNames v0 v1 v2
  try clear_value v2; try clear_value v1; try clear_value v0
  split
  · refine KeepsOut.next ?_
    exact Keeps.refl _
  · split
    · refine KeepsOut.next ?_
      exact .trans (.trans ((State.setSource_keeps ..)) (State.markBad_keeps ..)) (State.thmRefresh_keeps ..)
    · extract_lets -merge -useContext -underBinder +onlyGivenNames v3 v4
      try clear_value v3
      have h5 : Keeps s v4 := by
        unfold v4
        exact (State.setSource_keeps ..)
      clear_value v4
      refine KeepsOut.next ?_
      refine Keeps.trans ?_ (State.thmRefresh_keeps ..)
      split
      · exact .trans h5 (State.markBad_keeps ..)
      · exact h5

theorem State.thmBadWrite_keeps (s : State) (tiles : Bool) (v : Word) :
    Keeps s (s.thmBadWrite tiles v) := by
  unfold State.thmBadWrite
  extract_lets -merge -useContext -underBinder +onlyGivenNames v0 v1 v2
  try clear_value v1; try clear_value v0
  have h3 : Keeps s v2 := by
    unfold v2
    exact (State.store_keeps ..)
  clear_value v2
  extract_lets -merge -useContext -underBinder +onlyGivenNames v4
  have h5 : Keeps s v4 := by
    unfold v4
    refine Keeps.foldl ?_ (fun y6 _ => ?_)
    · exact h3
    · split
      · exact (State.setSource_keeps ..)
      · exact Keeps.refl _
  clear_value v4
  exact .trans h5 (State.thmRefresh_keeps ..)

theorem execThmBadClear_keeps (tiles : Bool) (b : BusWrite) (s : State) :
    KeepsOut s (execThmBadClear tiles b s) := by
  unfold execThmBadClear
  refine KeepsOut.next ?_
  refine Keeps.trans ?_ (State.busWrite_keeps (heff := fun y0 _ => ?_) ..)
  · exact Keeps.refl _
  · exact (State.thmBadWrite_keeps ..)

theorem execRateTest_keeps (s : State) :
    KeepsOut s (execRateTest s) := by
  unfold execRateTest
  split
  · refine KeepsOut.next ?_
    exact Keeps.refl _
  · extract_lets -merge -useContext -underBinder +onlyGivenNames x1 v0
    have h2 : Keeps s v0 := by
      unfold v0
      refine Keeps.of_mk ?_ rfl rfl (Nat.le_refl _) rfl rfl rfl rfl rfl rfl
      exact Keeps.refl _
    clear_value v0
    extract_lets -merge -useContext -underBinder +onlyGivenNames v3 v4
    try clear_value v3
    have h5 : Keeps s v4 := by
      unfold v4
      refine Keeps.foldl ?_ (fun y6 _ => ?_)
      · exact h2
      · extract_lets -merge -useContext -underBinder +onlyGivenNames v7
        try clear_value v7
        split
        · exact (State.setSource_keeps ..)
        · extract_lets -merge -useContext -underBinder +onlyGivenNames v8 v9
          try clear_value v9; try clear_value v8
          exact (State.setSource_keeps ..)
    clear_value v4
    refine KeepsOut.next ?_
    exact .trans h5 (State.setFld_keeps ..)

theorem State.setStage_keeps (s : State) (n : Nat) :
    Keeps s (s.setStage n) := by
  unfold State.setStage
  exact .trans ((State.setFld_keeps ..)) (State.setFld_keeps ..)

theorem State.askTick_keeps (s : State) :
    Keeps s (s.askTick) := by
  unfold State.askTick
  extract_lets -merge -useContext -underBinder +onlyGivenNames v0 v1
  try clear_value v1; try clear_value v0
  split
  · split
    · refine Keeps.trans ?_ (State.event_keeps ..)
      refine Keeps.trans ?_ (State.setFlag_keeps ..)
      refine Keeps.of_mk ?_ rfl rfl (Nat.le_refl _) rfl rfl rfl rfl rfl rfl
      exact Keeps.refl _
    · exact Keeps.refl _
  · split
    · refine Keeps.trans ?_ (State.clrFlag_keeps ..)
      refine Keeps.of_mk ?_ rfl rfl (Nat.le_refl _) rfl rfl rfl rfl rfl rfl
      exact Keeps.refl _
    · exact Keeps.refl _

theorem State.stageTick_keeps (s : State) :
    Keeps s (s.stageTick) := by
  unfold State.stageTick
  extract_lets -merge -useContext -underBinder +onlyGivenNames v0 v1 v2 v3 v4
  try clear_value v3; try clear_value v2; try clear_value v1; try clear_value v0
  have h5 : ∀ a6, Keeps a6 (v4 a6) := by
    intro a6
    unfold v4
    beta_reduce
    refine Keeps.of_mk ?_ rfl rfl (Nat.le_refl _) rfl rfl rfl rfl rfl rfl
    exact Keeps.refl _
  clear_value v4
  split
  · extract_lets -merge -useContext -underBinder +onlyGivenNames v7
    try clear_value v7
    split
    · refine Keeps.trans ?_ (State.event_keeps ..)
      refine Keeps.trans ?_ (State.setStage_keeps ..)
      refine Keeps.of_mk ?_ rfl rfl (Nat.le_refl _) rfl rfl rfl rfl rfl rfl
      exact Keeps.refl _
    · exact Keeps.refl _
  · split
    · split
      · exact .trans ((State.setStage_keeps ..)) (State.event_keeps ..)
      · split
        · exact .trans (.trans ((h5 ..)) (State.setStage_keeps ..)) (State.event_keeps ..)
        · exact Keeps.refl _
    · split
      · exact .trans (.trans ((h5 ..)) (State.setStage_keeps ..)) (State.event_keeps ..)
      · exact Keeps.refl _

theorem State.tripNow_keeps (s : State) :
    Keeps s (s.tripNow) := by
  unfold State.tripNow
  extract_lets -merge -useContext -underBinder +onlyGivenNames x1 v0
  have h2 : Keeps s v0 := by
    unfold v0
    refine Keeps.of_mk ?_ rfl rfl (Nat.le_refl _) rfl rfl rfl rfl rfl rfl
    exact Keeps.refl _
  clear_value v0
  exact .trans (.trans (.trans (.trans h2 (State.tlkTrip_keeps ..)) (State.setFlag_keeps ..)) (State.event_keeps ..)) (State.setStage_keeps ..)

theorem State.tripTick_keeps (s : State) :
    Keeps s (s.tripTick) := by
  unfold State.tripTick
  extract_lets -merge -useContext -underBinder +onlyGivenNames v0
  try clear_value v0
  split
  · exact (State.tripNow_keeps ..)
  · split
    · exact Keeps.refl _
    · extract_lets -merge -useContext -underBinder +onlyGivenNames v1 v2 x4 v3
      try clear_value v2; try clear_value v1
      have h5 : Keeps s v3 := by
        unfold v3
        refine Keeps.of_mk ?_ rfl rfl (Nat.le_refl _) rfl rfl rfl rfl rfl rfl
        exact Keeps.refl _
      clear_value v3
      extract_lets -merge -useContext -underBinder +onlyGivenNames v6
      try clear_value v6
      split
      · refine Keeps.trans ?_ (State.clrFlag_keeps ..)
        refine Keeps.of_mk ?_ rfl rfl (Nat.le_refl _) rfl rfl rfl rfl rfl rfl
        exact h5
      · exact h5

theorem execThmTick_keeps (s : State) :
    KeepsOut s (execThmTick s) := by
  unfold execThmTick
  split
  · refine KeepsOut.next ?_
    exact Keeps.refl _
  · extract_lets -merge -useContext -underBinder +onlyGivenNames x1 x2 v0
    have h3 : Keeps s v0 := by
      unfold v0
      have h4 : Keeps s x1 := by
        unfold x1
        exact (State.thmLatch_keeps ..)
      clear_value x1
      refine Keeps.of_mk ?_ rfl rfl (Nat.le_refl _) rfl rfl rfl rfl rfl rfl
      exact h4
    clear_value v0
    extract_lets -merge -useContext -underBinder +onlyGivenNames v5
    have h6 : Keeps s v5 := by
      unfold v5
      refine Keeps.trans ?_ (State.eachTile_keeps (hf := fun y7 _ => ?_) ..)
      · exact h3
      · extract_lets -merge -useContext -underBinder +onlyGivenNames v8 v9
        try clear_value v9; try clear_value v8
        split
        · exact (State.markBad_keeps ..)
        · exact Keeps.refl _
    clear_value v5
    refine KeepsOut.next ?_
    exact .trans (.trans (.trans (.trans h6 (State.thmRefresh_keeps ..)) (State.askTick_keeps ..)) (State.stageTick_keeps ..)) (State.tripTick_keeps ..)

theorem execComparatorFire_keeps (sensor : Fin 32) (temp : BitVec 16) (s : State) :
    KeepsOut s (execComparatorFire sensor temp s) := by
  unfold execComparatorFire
  extract_lets -merge -useContext -underBinder +onlyGivenNames v0 v1 v2 x4 v3
  try clear_value v2; try clear_value v1; try clear_value v0
  have h5 : Keeps s v3 := by
    unfold v3
    exact (State.setSource_keeps ..)
  clear_value v3
  split
  · refine KeepsOut.next ?_
    exact h5
  · split
    · refine KeepsOut.next ?_
      split
      · exact h5
      · exact .trans h5 (State.tripNow_keeps ..)
    · refine KeepsOut.next ?_
      split
      · exact h5
      · exact .trans h5 (State.tlkTrip_keeps ..)

theorem State.thmCtrlWrite_keeps (s : State) (v : Word) :
    Keeps s (s.thmCtrlWrite v) := by
  unfold State.thmCtrlWrite
  extract_lets -merge -useContext -underBinder +onlyGivenNames v0
  have h1 : Keeps s v0 := by
    unfold v0
    exact (State.store_keeps ..)
  clear_value v0
  split
  · refine Keeps.of_mk ?_ rfl rfl (Nat.le_refl _) rfl rfl rfl rfl rfl rfl
    exact h1
  · exact h1

theorem execTripClr_keeps (b : BusWrite) (s : State) :
    KeepsOut s (execTripClr b s) := by
  unfold execTripClr
  refine KeepsOut.next ?_
  refine Keeps.trans ?_ (State.busWrite_keeps (heff := fun y0 _ => ?_) ..)
  · exact Keeps.refl _
  · exact (State.thmCtrlWrite_keeps ..)

theorem State.avsFail_keeps (s : State) :
    Keeps s (s.avsFail) := by
  unfold State.avsFail
  refine Keeps.trans ?_ (State.event_keeps ..)
  refine Keeps.trans ?_ (State.setFlag_keeps ..)
  refine Keeps.of_mk ?_ rfl rfl (Nat.le_refl _) rfl rfl rfl rfl rfl rfl
  exact Keeps.refl _

theorem State.avsStepFrom_keeps (s : State) (v : Nat) (sl : Nat) (accepted : Bool) :
    Keeps s (s.avsStepFrom v sl accepted) := by
  unfold State.avsStepFrom
  extract_lets -merge -useContext -underBinder +onlyGivenNames v0 v1 v2 v3 v4 v5 v6 v7
  have h8 : Keeps s v7 := by
    unfold v7
    split
    · exact (State.event_keeps ..)
    · exact Keeps.refl _
  extract_lets -merge -useContext -underBinder +onlyGivenNames v9 v10
  have h11 : Keeps s v10 := by
    unfold v10
    split
    · exact .trans h8 (State.event_keeps ..)
    · exact h8
  extract_lets -merge -useContext -underBinder +onlyGivenNames v12
  have h13 : Keeps s v12 := by
    unfold v12
    exact .trans h11 (State.setFld_keeps ..)
  extract_lets -merge -useContext -underBinder +onlyGivenNames v14
  have h15 : Keeps s v14 := by
    unfold v14
    exact .trans h13 (State.setFld_keeps ..)
  extract_lets -merge -useContext -underBinder +onlyGivenNames v16
  split
  · exact .trans h15 (State.avsFail_keeps ..)
  · extract_lets -merge -useContext -underBinder +onlyGivenNames x18 v17
    have h19 : Keeps s v17 := by
      unfold v17
      refine Keeps.of_mk ?_ rfl rfl (Nat.le_refl _) rfl rfl rfl rfl rfl rfl
      exact h15
    extract_lets -merge -useContext -underBinder +onlyGivenNames v20
    have h21 : Keeps s v20 := by
      unfold v20
      exact .trans h19 (State.setFld_keeps ..)
    split
    · exact .trans h21 (State.setFld_keeps ..)
    · exact h21

theorem execAvsStep_keeps (core : BitVec 8) (fabric : BitVec 8) (engine : BitVec 8) (readBack : Option (BitVec 16)) (accepted : Bool) (s : State) :
    KeepsOut s (execAvsStep core fabric engine readBack accepted s) := by
  unfold execAvsStep
  split
  · refine KeepsOut.next ?_
    exact Keeps.refl _
  · extract_lets -merge -useContext -underBinder +onlyGivenNames x1 v0
    have h2 : Keeps s v0 := by
      unfold v0
      refine Keeps.of_mk ?_ rfl rfl (Nat.le_refl _) rfl rfl rfl rfl rfl rfl
      exact Keeps.refl _
    clear_value v0
    extract_lets -merge -useContext -underBinder +onlyGivenNames v3
    try clear_value v3
    split
    · refine KeepsOut.next ?_
      exact .trans (.trans h2 (State.avsStepFrom_keeps ..)) (State.drawn_keeps ..)
    · split
      · refine KeepsOut.next ?_
        exact .trans h2 (State.avsFail_keeps ..)
      · refine KeepsOut.next ?_
        exact .trans (.trans h2 (State.avsStepFrom_keeps ..)) (State.drawn_keeps ..)

theorem State.avsCtrlWrite_keeps (s : State) (v : Word) :
    Keeps s (s.avsCtrlWrite v) := by
  unfold State.avsCtrlWrite
  extract_lets -merge -useContext -underBinder +onlyGivenNames v0
  have h1 : Keeps s v0 := by
    unfold v0
    exact (State.store_keeps ..)
  clear_value v0
  extract_lets -merge -useContext -underBinder +onlyGivenNames x3 v2
  have h4 : Keeps s v2 := by
    unfold v2
    split
    · refine Keeps.of_mk ?_ rfl rfl (Nat.le_refl _) rfl rfl rfl rfl rfl rfl
      exact h1
    · exact h1
  clear_value v2
  split
  · exact .trans h4 (State.clrFlag_keeps ..)
  · exact h4

theorem execAvsResume_keeps (b : BusWrite) (s : State) :
    KeepsOut s (execAvsResume b s) := by
  unfold execAvsResume
  refine KeepsOut.next ?_
  refine Keeps.trans ?_ (State.busWrite_keeps (heff := fun y0 _ => ?_) ..)
  · exact Keeps.refl _
  · exact (State.avsCtrlWrite_keeps ..)

theorem execPmbusTelemetry_keeps (good : Bool) (vin : BitVec 16) (iout : BitVec 16) (temp : BitVec 16) (s : State) :
    KeepsOut s (execPmbusTelemetry good vin iout temp s) := by
  unfold execPmbusTelemetry
  split
  · refine KeepsOut.next ?_
    exact Keeps.refl _
  · extract_lets -merge -useContext -underBinder +onlyGivenNames x1 v0
    have h2 : Keeps s v0 := by
      unfold v0
      refine Keeps.of_mk ?_ rfl rfl (Nat.le_refl _) rfl rfl rfl rfl rfl rfl
      exact Keeps.refl _
    clear_value v0
    split
    · refine KeepsOut.next ?_
      exact .trans (.trans h2 (State.setReg_keeps ..)) (State.setReg_keeps ..)
    · refine KeepsOut.next ?_
      exact .trans h2 (State.clrFlag_keeps ..)

theorem State.avsLimitsWrite_keeps (s : State) (v : Word) :
    Keeps s (s.avsLimitsWrite v) := by
  unfold State.avsLimitsWrite
  extract_lets -merge -useContext -underBinder +onlyGivenNames v0 v1
  try clear_value v1; try clear_value v0
  split
  · exact (State.store_keeps ..)
  · exact Keeps.refl _

theorem execAvsLimitsWrite_keeps (b : BusWrite) (s : State) :
    KeepsOut s (execAvsLimitsWrite b s) := by
  unfold execAvsLimitsWrite
  refine KeepsOut.next ?_
  refine Keeps.trans ?_ (State.busWrite_keeps (heff := fun y0 _ => ?_) ..)
  · exact Keeps.refl _
  · exact (State.avsLimitsWrite_keeps ..)

theorem State.upMessage_keeps (s : State) (stream low : Nat) (own : List (BitVec 64)) {r : State × List Block}
    (h : s.upMessage stream low own = some r) : Keeps s r.1 := by
  unfold State.upMessage at h
  split at h
  · cases h
  · cases h
    refine Keeps.trans ?_ (State.drawn_keeps ..)
    exact Keeps.of_mk (Keeps.refl s) rfl rfl (Nat.le_refl _) rfl rfl rfl rfl rfl rfl

theorem addMessage_keeps (f : Filling) (stream low : Nat) (own : List (BitVec 64)) :
    Keeps f.1 (addMessage f stream low own).1.1 := by
  unfold addMessage
  split
  · exact Keeps.refl _
  · split
    · exact State.upMessage_keeps _ _ _ _ ‹_›
    · exact Keeps.refl _

theorem addAlarm_keeps (f : Filling) (p stream : Nat) : Keeps f.1 (addAlarm f p stream).1 := by
  unfold addAlarm
  extract_lets -merge -useContext -underBinder +onlyGivenNames s
  split
  · exact Keeps.refl _
  · extract_lets -merge -useContext -underBinder +onlyGivenNames r
    have h : Keeps f.1 r.1.1 := by unfold r; exact addMessage_keeps ..
    clear_value r
    split
    · have k : Keeps f.1 { r.1.1 with asm := { r.1.1.asm with alarms := 0 } } :=
        Keeps.of_mk h rfl rfl (Nat.le_refl _) rfl rfl rfl rfl rfl rfl
      dsimp only
      exact .ite k (k.trans (State.setPort_keeps ..))
    · exact h

theorem addNacks_keeps (p stream : Nat) (start : Int) (n : Nat) (f : Filling) :
    Keeps f.1 (addNacks p stream start n f).1 := by
  induction n generalizing f with
  | zero => exact Keeps.refl _
  | succ n ih =>
    unfold addNacks
    extract_lets -merge -useContext -underBinder +onlyGivenNames es
    split
    · exact Keeps.refl _
    · extract_lets -merge -useContext -underBinder +onlyGivenNames r
      have h : Keeps f.1 r.1.1 := by unfold r; exact addMessage_keeps ..
      clear_value r
      split
      · refine Keeps.trans ?_ (ih _)
        exact Keeps.of_mk h rfl rfl (Nat.le_refl _) rfl rfl rfl rfl rfl rfl
      · exact h

theorem addBuffers_keeps (p stream : Nat) (l : List Nat) (f : Filling) : Keeps f.1 (addBuffers p stream l f).1 := by
  induction l generalizing f with
  | nil => exact Keeps.refl _
  | cons x l ih =>
    unfold addBuffers
    extract_lets -merge -useContext -underBinder +onlyGivenNames s hd used rd bytes n blocks pop
    have hp : ∀ t, Keeps t (pop t) := by intro t; unfold pop; exact State.setPort_keeps ..
    have h : Keeps f.1 rd.1 := by
      unfold rd hd s; exact .trans (State.devRead_keeps ..) (State.devRead_keeps ..)
    clear_value pop bytes blocks rd
    split
    · exact Keeps.trans (.trans (.trans (.trans h (hp _)) (State.winWrite_keeps ..)) (State.returnBuffer_keeps ..)) (ih (_, f.2))
    · extract_lets -merge -useContext -underBinder +onlyGivenNames r
      have hr : Keeps rd.1 r.1.1 := addMessage_keeps (rd.1, f.2) _ _ _
      clear_value r
      split
      · exact Keeps.trans (.trans (.trans (.trans h hr) (hp _)) (State.returnBuffer_keeps ..)) (ih (_, r.1.2))
      · exact Keeps.refl _

theorem State.sendBurst_keeps (s : State) (p : Nat) (start : Int) (ncw : Nat) (bs : List Block) :
    Keeps s (s.sendBurst p start ncw bs) := by
  unfold State.sendBurst
  extract_lets -merge -useContext -underBinder +onlyGivenNames v0 v1 v2 x4 v3
  try clear_value v2; try clear_value v1; try clear_value v0
  have h5 : Keeps s v3 := by
    unfold v3
    exact (State.setLane_keeps ..)
  clear_value v3
  extract_lets -merge -useContext -underBinder +onlyGivenNames v6
  try clear_value v6
  exact .trans (.trans h5 (State.setPort_keeps ..)) (State.asmCount_keeps ..)

theorem State.useGrant_keeps (s : State) (p : Nat) (g : Nat) :
    Keeps s (s.useGrant p g) := by
  unfold State.useGrant
  extract_lets -merge -useContext -underBinder +onlyGivenNames v0
  try clear_value v0
  exact (State.setPort_keeps ..)

theorem State.ownSlot_keeps (s : State) (p : Nat) (start : Int) (ncw : Nat) :
    Keeps s (s.ownSlot p start ncw) := by
  unfold State.ownSlot
  extract_lets -merge -useContext -underBinder +onlyGivenNames st f lv f2 nacker f3 f4 s5
  have h1 : Keeps s lv.1.1 := by
    unfold lv
    split
    · exact addMessage_keeps f _ _ _
    · exact Keeps.refl _
  have h2 : Keeps s f2.1 := h1.trans (addAlarm_keeps ..)
  have h3 : Keeps s f3.1 := by
    unfold f3
    split
    · exact h2.trans (addNacks_keeps ..)
    · exact h2
  have h4 : Keeps s f4.1 := h3.trans (addBuffers_keeps ..)
  have h5 : Keeps s s5 := h4.trans (State.sendBurst_keeps ..)
  clear_value s5
  split
  · exact .trans (.trans h5 (State.clearPanel_keeps ..)) (State.rangeOrSync_keeps ..)
  · exact h5

theorem State.contentionSlot_keeps (s : State) (p : Nat) (start : Int) :
    Keeps s (s.contentionSlot p start) := by
  unfold State.contentionSlot
  extract_lets -merge -useContext -underBinder +onlyGivenNames v0
  try clear_value v0
  split
  · exact Keeps.refl _
  · split
    · exact (State.setPort_keeps ..)
    · split
      · exact (State.asmCount_keeps ..)
      · extract_lets -merge -useContext -underBinder +onlyGivenNames v1 v2 v3
        try clear_value v2; try clear_value v1
        skip
        split
        · extract_lets -merge -useContext -underBinder +onlyGivenNames v4
          have h5 : Keeps s v4 := by
            unfold v4
            exact addMessage_keeps (s, [], _) _ _ _
          clear_value v4
          exact .trans (.trans h5 (State.setPort_keeps ..)) (State.sendBurst_keeps ..)
        · exact Keeps.refl _

theorem State.rangingBurst_keeps (s : State) (p : Nat) :
    Keeps s (s.rangingBurst p) := by
  unfold State.rangingBurst
  split
  · split
    · exact Keeps.refl _
    · extract_lets -merge -useContext -underBinder +onlyGivenNames x1 v0
      have h2 : Keeps s v0 := by
        unfold v0
        exact (State.setPort_keeps ..)
      clear_value v0
      extract_lets -merge -useContext -underBinder +onlyGivenNames v3
      skip
      split
      · extract_lets -merge -useContext -underBinder +onlyGivenNames v4
        have h5 : Keeps s v4 := by
          unfold v4
          exact h2.trans (addMessage_keeps (_, [], _) _ _ _)
        clear_value v4
        exact .trans (.trans h5 (State.setPort_keeps ..)) (State.sendBurst_keeps ..)
      · exact h2
  · exact Keeps.refl _

theorem State.rangingSlot_keeps (s : State) (p : Nat) (g : Grant) :
    Keeps s (s.rangingSlot p g) := by
  unfold State.rangingSlot
  extract_lets -merge -useContext -underBinder +onlyGivenNames v0
  try clear_value v0
  split
  · exact Keeps.refl _
  · split
    · exact (State.setPort_keeps ..)
    · extract_lets -merge -useContext -underBinder +onlyGivenNames v1 v2
      try clear_value v2; try clear_value v1
      split
      · exact .trans ((State.drawn_keeps ..)) (State.asmCount_keeps ..)
      · exact .trans (.trans ((State.setPort_keeps ..)) (State.drawn_keeps ..)) (State.rangingBurst_keeps ..)

theorem execUpstreamBurst_keeps (port : Fin 2) (grant : Fin 64) (s : State) :
    KeepsOut s (execUpstreamBurst port grant s) := by
  unfold execUpstreamBurst
  extract_lets -merge -useContext -underBinder +onlyGivenNames v0 v1
  try clear_value v1; try clear_value v0
  split
  · refine KeepsOut.next ?_
    exact Keeps.refl _
  · split
    · refine KeepsOut.next ?_
      exact (State.rangingBurst_keeps ..)
    · split
      · refine KeepsOut.next ?_
        exact Keeps.refl _
      · extract_lets -merge -useContext -underBinder +onlyGivenNames v2 v3 v4
        try clear_value v4; try clear_value v3; try clear_value v2
        split
        · refine KeepsOut.next ?_
          exact Keeps.refl _
        · split
          · refine KeepsOut.next ?_
            exact .trans ((State.useGrant_keeps ..)) (State.rangingSlot_keeps ..)
          · split
            · refine KeepsOut.next ?_
              exact .trans ((State.useGrant_keeps ..)) (State.contentionSlot_keeps ..)
            · split
              · extract_lets -merge -useContext -underBinder +onlyGivenNames v5
                have h6 : Keeps s v5 := by
                  unfold v5
                  exact (State.useGrant_keeps ..)
                clear_value v5
                split
                · refine KeepsOut.next ?_
                  exact .trans h6 (State.asmCount_keeps ..)
                · refine KeepsOut.next ?_
                  exact .trans h6 (State.ownSlot_keeps ..)
              · refine KeepsOut.next ?_
                exact Keeps.refl _

theorem State.returnPortBuffers_keeps (s : State) (p : Nat) :
    Keeps s (s.returnPortBuffers p) := by
  unfold State.returnPortBuffers
  extract_lets -merge -useContext -underBinder +onlyGivenNames v0 v1
  try clear_value v0
  have h2 : Keeps s v1 := by
    unfold v1
    refine Keeps.foldl ?_ (fun y3 _ => ?_)
    · exact Keeps.refl _
    · exact (State.returnLater_keeps ..)
  clear_value v1
  exact .trans h2 (State.setPort_keeps ..)

theorem State.asmCtrlWrite_keeps (s : State) (p : Nat) (v : Word) :
    Keeps s (s.asmCtrlWrite p v) := by
  unfold State.asmCtrlWrite
  extract_lets -merge -useContext -underBinder +onlyGivenNames v0
  have h1 : Keeps s v0 := by
    unfold v0
    exact (State.store_keeps ..)
  clear_value v0
  extract_lets -merge -useContext -underBinder +onlyGivenNames v2
  try clear_value v2
  split
  · split
    · exact h1
    · extract_lets -merge -useContext -underBinder +onlyGivenNames v3
      have h4 : Keeps s v3 := by
        unfold v3
        exact .trans (.trans h1 (State.returnPortBuffers_keeps ..)) (State.clearPanel_keeps ..)
      clear_value v3
      exact .trans (.trans h4 (State.setPort_keeps ..)) (State.portState_keeps ..)
  · extract_lets -merge -useContext -underBinder +onlyGivenNames v5
    have h6 : Keeps s v5 := by
      unfold v5
      split
      · exact .trans h1 (State.portState_keeps ..)
      · exact h1
    clear_value v5
    extract_lets -merge -useContext -underBinder +onlyGivenNames v7
    have h8 : Keeps s v7 := by
      unfold v7
      split
      · exact .trans (.trans h6 (State.clearPanel_keeps ..)) (State.rangeOrSync_keeps ..)
      · exact h6
    clear_value v7
    split
    · exact .trans h8 (State.setPort_keeps ..)
    · exact h8

theorem execAsmLeave_keeps (port : Fin 2) (b : BusWrite) (s : State) :
    KeepsOut s (execAsmLeave port b s) := by
  unfold execAsmLeave
  refine KeepsOut.next ?_
  refine Keeps.trans ?_ (State.busWrite_keeps (heff := fun y0 _ => ?_) ..)
  · exact Keeps.refl _
  · exact (State.asmCtrlWrite_keeps ..)

theorem execRejoin_keeps (port : Fin 2) (b : BusWrite) (s : State) :
    KeepsOut s (execRejoin port b s) := by
  unfold execRejoin
  refine KeepsOut.next ?_
  refine Keeps.trans ?_ (State.busWrite_keeps (heff := fun y0 _ => ?_) ..)
  · exact Keeps.refl _
  · exact (State.asmCtrlWrite_keeps ..)

theorem execPortEnWrite_keeps (port : Fin 2) (b : BusWrite) (s : State) :
    KeepsOut s (execPortEnWrite port b s) := by
  unfold execPortEnWrite
  refine KeepsOut.next ?_
  refine Keeps.trans ?_ (State.busWrite_keeps (heff := fun y0 _ => ?_) ..)
  · exact Keeps.refl _
  · exact (State.asmCtrlWrite_keeps ..)

theorem execLossHoldWrite_keeps (port : Fin 2) (b : BusWrite) (s : State) :
    KeepsOut s (execLossHoldWrite port b s) := by
  unfold execLossHoldWrite
  refine KeepsOut.next ?_
  refine Keeps.trans ?_ (State.busWrite_keeps (heff := fun y0 _ => ?_) ..)
  · exact Keeps.refl _
  · exact (State.store_keeps ..)

theorem State.asmPost_keeps (s : State) (p : Nat) (up : Bool) (x : Nat) :
    Keeps s (s.asmPost p up x) := by
  unfold State.asmPost
  extract_lets -merge -useContext -underBinder +onlyGivenNames v0 v1
  try clear_value v1; try clear_value v0
  split
  · exact (State.event_keeps ..)
  · exact (State.post_keeps ..)

theorem execAsmDnqPost_keeps (port : Fin 2) (b : BusWrite) (s : State) :
    KeepsOut s (execAsmDnqPost port b s) := by
  unfold execAsmDnqPost
  refine KeepsOut.next ?_
  refine Keeps.trans ?_ (State.busWrite_keeps (heff := fun y0 _ => ?_) ..)
  · exact Keeps.refl _
  · exact (State.asmPost_keeps ..)

theorem execAsmUpqPost_keeps (port : Fin 2) (b : BusWrite) (s : State) :
    KeepsOut s (execAsmUpqPost port b s) := by
  unfold execAsmUpqPost
  refine KeepsOut.next ?_
  refine Keeps.trans ?_ (State.busWrite_keeps (heff := fun y0 _ => ?_) ..)
  · exact Keeps.refl _
  · exact (State.asmPost_keeps ..)

theorem State.wallLoRead_keeps (s : State) (m : Nat) :
    Keeps s (s.wallLoRead m).1 := by
  unfold State.wallLoRead
  exact (State.latchWord_keeps ..)

theorem execAsmWallLoRead_keeps (b : BusRead) (s : State) :
    KeepsOut s (execAsmWallLoRead b s) := by
  unfold execAsmWallLoRead
  refine KeepsOut.next ?_
  refine Keeps.trans ?_ (State.busRead_keeps (heff := fun y0 => ?_) ..)
  · exact Keeps.refl _
  · exact (State.wallLoRead_keeps ..)

theorem State.asmCntClr_keeps (s : State) (p : Nat) (v : Word) :
    Keeps s (s.asmCntClr p v) := by
  unfold State.asmCntClr
  split
  · exact (State.clrRegs_keeps ..)
  · exact Keeps.refl _

theorem execAsmCntClr_keeps (port : Fin 2) (b : BusWrite) (s : State) :
    KeepsOut s (execAsmCntClr port b s) := by
  unfold execAsmCntClr
  refine KeepsOut.next ?_
  refine Keeps.trans ?_ (State.busWrite_keeps (heff := fun y0 _ => ?_) ..)
  · exact Keeps.refl _
  · exact (State.asmCntClr_keeps ..)

theorem State.lockFollow_keeps (s : State) (l : Nat) (was : Bool) :
    Keeps s (s.lockFollow l was) := by
  unfold State.lockFollow
  extract_lets -merge -useContext -underBinder +onlyGivenNames v0
  try clear_value v0
  split
  · exact Keeps.refl _
  · split
    · exact (State.tileLock_keeps ..)
    · split
      · exact (State.portLockLost_keeps ..)
      · exact Keeps.refl _

theorem State.takeBlocks_keeps (s : State) (l : Nat) (ds : List Delivered) :
    Keeps s (s.takeBlocks l ds) := by
  unfold State.takeBlocks
  split
  · split
    · exact (State.returnBlocks_keeps ..)
    · exact Keeps.refl _
  · split
    · exact (State.asmReceive_keeps ..)
    · exact Keeps.refl _

theorem execCodewordReceived_keeps (lane : Fin 74) (levels : List (BitVec 2)) (s : State) :
    KeepsOut s (execCodewordReceived lane levels s) := by
  unfold execCodewordReceived
  extract_lets -merge -useContext -underBinder +onlyGivenNames v0
  try clear_value v0
  split
  · extract_lets -merge -useContext -underBinder +onlyGivenNames v1
    have h2 : Keeps s v1.1 := by
      unfold v1
      exact (State.laneCodeword_keeps ..)
    clear_value v1
    refine KeepsOut.next ?_
    exact .trans h2 (State.takeBlocks_keeps ..)
  · refine KeepsOut.next ?_
    exact Keeps.refl _

theorem execAlignmentHunt_keeps (lane : Fin 74) (levels : List (BitVec 2)) (s : State) :
    KeepsOut s (execAlignmentHunt lane levels s) := by
  unfold execAlignmentHunt
  extract_lets -merge -useContext -underBinder +onlyGivenNames v0
  try clear_value v0
  split
  · extract_lets -merge -useContext -underBinder +onlyGivenNames v1
    have h2 : Keeps s v1.1 := by
      unfold v1
      exact (State.laneHunt_keeps ..)
    clear_value v1
    refine KeepsOut.next ?_
    exact .trans (.trans h2 (State.lockFollow_keeps ..)) (State.takeBlocks_keeps ..)
  · refine KeepsOut.next ?_
    exact Keeps.refl _

theorem execLockLost_keeps (lane : Fin 74) (s : State) :
    KeepsOut s (execLockLost lane s) := by
  unfold execLockLost
  extract_lets -merge -useContext -underBinder +onlyGivenNames v0
  try clear_value v0
  split
  · refine KeepsOut.next ?_
    exact .trans ((State.laneLockLost_keeps ..)) (State.lockFollow_keeps ..)
  · refine KeepsOut.next ?_
    exact Keeps.refl _

theorem execSigLost_keeps (lane : Fin 74) (s : State) :
    KeepsOut s (execSigLost lane s) := by
  unfold execSigLost
  extract_lets -merge -useContext -underBinder +onlyGivenNames v0
  try clear_value v0
  split
  · refine KeepsOut.next ?_
    exact .trans ((State.laneSigLost_keeps ..)) (State.lockFollow_keeps ..)
  · refine KeepsOut.next ?_
    exact Keeps.refl _

theorem execLaneStateComplete_keeps (lane : Fin 74) (s : State) :
    KeepsOut s (execLaneStateComplete lane s) := by
  unfold execLaneStateComplete
  extract_lets -merge -useContext -underBinder +onlyGivenNames v0
  try clear_value v0
  split
  · refine KeepsOut.next ?_
    exact .trans (.trans ((State.laneArrive_keeps ..)) (State.event_keeps ..)) (State.lockFollow_keeps ..)
  · refine KeepsOut.next ?_
    exact Keeps.refl _

theorem execChkLock_keeps (lane : Fin 74) (levels : List (BitVec 2)) (s : State) :
    KeepsOut s (execChkLock lane levels s) := by
  unfold execChkLock
  extract_lets -merge -useContext -underBinder +onlyGivenNames v0
  try clear_value v0
  split
  · extract_lets -merge -useContext -underBinder +onlyGivenNames v1 v2
    try clear_value v2; try clear_value v1
    refine KeepsOut.next ?_
    exact .trans (.trans ((State.setLane_keeps ..)) (State.bump_keeps ..)) (State.lockFollow_keeps ..)
  · refine KeepsOut.next ?_
    exact Keeps.refl _

theorem State.evtStatusWrite_keeps (s : State) (g : Nat) (v : Word) :
    Keeps s (s.evtStatusWrite g v) := by
  unfold State.evtStatusWrite
  extract_lets -merge -useContext -underBinder +onlyGivenNames v0
  have h1 : Keeps s v0 := by
    unfold v0
    exact (State.store_keeps ..)
  clear_value v0
  extract_lets -merge -useContext -underBinder +onlyGivenNames v2 x4 v3
  try clear_value v2
  have h5 : Keeps s v3 := by
    unfold v3
    refine Keeps.of_mk ?_ rfl rfl (Nat.le_refl _) rfl rfl rfl rfl rfl rfl
    exact h1
  clear_value v3
  refine Keeps.foldl ?_ (fun y6 _ => ?_)
  · exact h5
  · exact (State.assertEvent_keeps ..)

theorem execEvtStatusClear_keeps (group : Fin 9) (b : BusWrite) (s : State) :
    KeepsOut s (execEvtStatusClear group b s) := by
  unfold execEvtStatusClear
  refine KeepsOut.next ?_
  refine Keeps.trans ?_ (State.busWrite_keeps (heff := fun y0 _ => ?_) ..)
  · exact Keeps.refl _
  · exact (State.evtStatusWrite_keeps ..)

theorem State.evtEnableWrite_keeps (s : State) (g : Nat) (v : Word) :
    Keeps s (s.evtEnableWrite g v) := by
  unfold State.evtEnableWrite
  extract_lets -merge -useContext -underBinder +onlyGivenNames v0 v1 v2
  try clear_value v1; try clear_value v0
  have h3 : Keeps s v2 := by
    unfold v2
    exact (State.store_keeps ..)
  clear_value v2
  refine Keeps.foldl ?_ (fun y4 _ => ?_)
  · exact h3
  · split
    · exact (State.assertEvent_keeps ..)
    · exact Keeps.refl _

theorem execEvtEnableWrite_keeps (group : Fin 9) (b : BusWrite) (s : State) :
    KeepsOut s (execEvtEnableWrite group b s) := by
  unfold execEvtEnableWrite
  refine KeepsOut.next ?_
  refine Keeps.trans ?_ (State.busWrite_keeps (heff := fun y0 _ => ?_) ..)
  · exact Keeps.refl _
  · exact (State.evtEnableWrite_keeps ..)

theorem State.softSet_keeps (s : State) (m : Nat) (v : Word) :
    Keeps s (s.softSet m v) := by
  unfold State.softSet
  split
  · refine Keeps.foldl ?_ (fun y0 _ => ?_)
    · exact Keeps.refl _
    · split
      · exact (State.event_keeps ..)
      · exact Keeps.refl _
  · exact Keeps.refl _

theorem execEvtSoftSet_keeps (b : BusWrite) (s : State) :
    KeepsOut s (execEvtSoftSet b s) := by
  unfold execEvtSoftSet
  refine KeepsOut.next ?_
  refine Keeps.trans ?_ (State.busWrite_keeps (heff := fun y0 _ => ?_) ..)
  · exact Keeps.refl _
  · exact (State.softSet_keeps ..)

theorem execGpioEdge_keeps (levels : BitVec 16) (s : State) :
    KeepsOut s (execGpioEdge levels s) := by
  unfold execGpioEdge
  split
  · refine KeepsOut.next ?_
    exact Keeps.refl _
  · extract_lets -merge -useContext -underBinder +onlyGivenNames v0 v1 v2 v3 x5 v4
    try clear_value v3; try clear_value v2; try clear_value v1; try clear_value v0
    have h6 : Keeps s v4 := by
      unfold v4
      refine Keeps.of_mk ?_ rfl rfl (Nat.le_refl _) rfl rfl rfl rfl rfl rfl
      exact Keeps.refl _
    clear_value v4
    refine KeepsOut.next ?_
    refine Keeps.foldl ?_ (fun y7 _ => ?_)
    · exact h6
    · extract_lets -merge -useContext -underBinder +onlyGivenNames v8
      try clear_value v8
      split
      · refine Keeps.trans ?_ (State.event_keeps ..)
        refine Keeps.of_mk ?_ rfl rfl (Nat.le_refl _) rfl rfl rfl rfl rfl rfl
        exact Keeps.refl _
      · exact Keeps.refl _

theorem execMsixMessage_keeps (vector : Fin 64) (cfg : PciConfig) (s : State) :
    KeepsOut s (execMsixMessage vector cfg s) := by
  unfold execMsixMessage
  extract_lets -merge -useContext -underBinder +onlyGivenNames v0
  try clear_value v0
  split
  · refine KeepsOut.next ?_
    exact Keeps.refl _
  · extract_lets -merge -useContext -underBinder +onlyGivenNames x2 v1
    have h3 : Keeps s v1 := by
      unfold v1
      refine Keeps.of_mk ?_ rfl rfl (Nat.le_refl _) rfl rfl rfl rfl rfl rfl
      exact Keeps.refl _
    clear_value v1
    split
    · refine KeepsOut.next ?_
      refine Keeps.of_mk ?_ rfl rfl (Nat.le_refl _) rfl rfl rfl rfl rfl rfl
      exact h3
    · refine KeepsOut.next ?_
      exact h3

theorem execPcieLinkTraining_keeps (up : Bool) (width : BitVec 4) (speed : BitVec 4) (s : State) :
    KeepsOut s (execPcieLinkTraining up width speed s) := by
  unfold execPcieLinkTraining
  split
  · refine KeepsOut.next ?_
    exact Keeps.refl _
  · split
    · refine KeepsOut.next ?_
      exact (State.setReg_keeps ..)
    · split
      · refine KeepsOut.next ?_
        exact (State.setReg_keeps ..)
      · refine KeepsOut.next ?_
        exact Keeps.refl _

theorem State.mboxAckWrite_keeps (s : State) (k : Nat) (v : Word) :
    Keeps s (s.mboxAckWrite k v) := by
  unfold State.mboxAckWrite
  split
  · extract_lets -merge -useContext -underBinder +onlyGivenNames v0
    have h1 : Keeps s v0 := by
      unfold v0
      exact (State.clrFlag_keeps ..)
    clear_value v0
    split
    · refine Keeps.trans ?_ (State.mboxFill_keeps ..)
      refine Keeps.of_mk ?_ rfl rfl (Nat.le_refl _) rfl rfl rfl rfl rfl rfl
      exact h1
    · exact h1
  · exact Keeps.refl _

theorem execMboxAck_keeps (k : Fin 4) (b : BusWrite) (s : State) :
    KeepsOut s (execMboxAck k b s) := by
  unfold execMboxAck
  refine KeepsOut.next ?_
  refine Keeps.trans ?_ (State.busWrite_keeps (heff := fun y0 _ => ?_) ..)
  · exact Keeps.refl _
  · exact (State.mboxAckWrite_keeps ..)

theorem State.mboxRead_keeps (s : State) (m : Nat) (k : Nat) :
    Keeps s (s.mboxRead m k).1 := by
  unfold State.mboxRead
  refine Keeps.foldl ?_ (fun y0 _ => ?_)
  · exact Keeps.refl _
  · exact (State.latchWord_keeps ..)

theorem execMboxRead_keeps (k : Fin 4) (b : BusRead) (s : State) :
    KeepsOut s (execMboxRead k b s) := by
  unfold execMboxRead
  refine KeepsOut.next ?_
  refine Keeps.trans ?_ (State.busRead_keeps (heff := fun y0 => ?_) ..)
  · exact Keeps.refl _
  · exact (State.mboxRead_keeps ..)

theorem State.monitorWrite_keeps (s : State) (x : Nat) (bs : List Byte) :
    Keeps s (s.monitorWrite x bs) := by
  unfold State.monitorWrite
  split
  · exact .trans (.trans ((State.bump_keeps ..)) (State.event_keeps ..)) (State.latchFirst_keeps ..)
  · exact (State.devWrite_keeps ..)

theorem State.windowWrite_keeps (s : State) (x : Nat) (bytes : List Byte) :
    Keeps s (s.windowWrite x bytes) := by
  unfold State.windowWrite
  split
  · exact (State.monitorWrite_keeps ..)
  · refine Keeps.of_mk ?_ rfl rfl (Nat.le_refl _) rfl rfl rfl rfl rfl rfl
    exact Keeps.refl _

theorem execWindowWrite_keeps (off : BitVec 30) (bytes : List Byte) (s : State) :
    KeepsOut s (execWindowWrite off bytes s) := by
  unfold execWindowWrite
  extract_lets -merge -useContext -underBinder +onlyGivenNames v0
  try clear_value v0
  split
  · refine KeepsOut.next ?_
    exact Keeps.refl _
  · refine KeepsOut.next ?_
    exact (State.windowWrite_keeps ..)

theorem State.hpCntClr_keeps (s : State) (v : Word) :
    Keeps s (s.hpCntClr v) := by
  unfold State.hpCntClr
  split
  · exact (State.clrRegs_keeps ..)
  · exact Keeps.refl _

theorem execHpCntClr_keeps (b : BusWrite) (s : State) :
    KeepsOut s (execHpCntClr b s) := by
  unfold execHpCntClr
  refine KeepsOut.next ?_
  refine Keeps.trans ?_ (State.busWrite_keeps (heff := fun y0 _ => ?_) ..)
  · exact Keeps.refl _
  · exact (State.hpCntClr_keeps ..)

theorem State.rcPostWrite_keeps (s : State) (v : Word) :
    Keeps s (s.rcPostWrite v) := by
  unfold State.rcPostWrite
  split
  · exact Keeps.refl _
  · exact (State.post_keeps ..)

theorem execRcPost_keeps (b : BusWrite) (s : State) :
    KeepsOut s (execRcPost b s) := by
  unfold execRcPost
  refine KeepsOut.next ?_
  refine Keeps.trans ?_ (State.busWrite_keeps (heff := fun y0 _ => ?_) ..)
  · exact Keeps.refl _
  · exact (State.rcPostWrite_keeps ..)

theorem State.rcCntClr_keeps (s : State) (v : Word) :
    Keeps s (s.rcCntClr v) := by
  unfold State.rcCntClr
  split
  · exact (State.clrRegs_keeps ..)
  · exact Keeps.refl _

theorem execRcCntClr_keeps (b : BusWrite) (s : State) :
    KeepsOut s (execRcCntClr b s) := by
  unfold execRcCntClr
  refine KeepsOut.next ?_
  refine Keeps.trans ?_ (State.busWrite_keeps (heff := fun y0 _ => ?_) ..)
  · exact Keeps.refl _
  · exact (State.rcCntClr_keeps ..)

theorem execRootLockDetect_keeps (s : State) :
    KeepsOut s (execRootLockDetect s) := by
  unfold execRootLockDetect
  split
  · refine KeepsOut.next ?_
    exact Keeps.refl _
  · refine KeepsOut.next ?_
    refine Keeps.of_mk ?_ rfl rfl (Nat.le_refl _) rfl rfl rfl rfl rfl rfl
    exact Keeps.refl _

theorem execRootStable_keeps (s : State) :
    KeepsOut s (execRootStable s) := by
  unfold execRootStable
  split
  · refine KeepsOut.next ?_
    refine Keeps.of_mk ?_ rfl rfl (Nat.le_refl _) rfl rfl rfl rfl rfl rfl
    exact Keeps.refl _
  · refine KeepsOut.next ?_
    exact Keeps.refl _

theorem State.startSwitch_keeps (s : State) (t : Nat) :
    Keeps s (s.startSwitch t) := by
  unfold State.startSwitch
  refine Keeps.of_mk ?_ rfl rfl (Nat.le_refl _) rfl rfl rfl rfl rfl rfl
  exact Keeps.refl _

theorem State.endSwitch_keeps (s : State) :
    Keeps s (s.endSwitch) := by
  unfold State.endSwitch
  extract_lets -merge -useContext -underBinder +onlyGivenNames v0 x2 v1
  try clear_value v0
  have h3 : Keeps s v1 := by
    unfold v1
    refine Keeps.of_mk ?_ rfl rfl (Nat.le_refl _) rfl rfl rfl rfl rfl rfl
    exact Keeps.refl _
  clear_value v1
  split
  · exact h3
  · split
    · refine Keeps.of_mk ?_ rfl rfl (Nat.le_refl _) rfl rfl rfl rfl rfl rfl
      exact h3
    · exact .trans h3 (State.startSwitch_keeps ..)

theorem execEngineTargetChange_keeps (s : State) :
    KeepsOut s (execEngineTargetChange s) := by
  unfold execEngineTargetChange
  extract_lets -merge -useContext -underBinder +onlyGivenNames v0
  try clear_value v0
  split
  · refine KeepsOut.next ?_
    exact Keeps.refl _
  · split
    · refine KeepsOut.next ?_
      refine Keeps.of_mk ?_ rfl rfl (Nat.le_refl _) rfl rfl rfl rfl rfl rfl
      exact Keeps.refl _
    · refine KeepsOut.next ?_
      exact (State.startSwitch_keeps ..)

theorem execQuiesceDone_keeps (s : State) :
    KeepsOut s (execQuiesceDone s) := by
  unfold execQuiesceDone
  split
  · split
    · refine KeepsOut.next ?_
      refine Keeps.of_mk ?_ rfl rfl (Nat.le_refl _) rfl rfl rfl rfl rfl rfl
      exact Keeps.refl _
    · refine KeepsOut.next ?_
      exact Keeps.refl _
  · refine KeepsOut.next ?_
    exact Keeps.refl _

theorem execRatioRampStep_keeps (s : State) :
    KeepsOut s (execRatioRampStep s) := by
  unfold execRatioRampStep
  split
  · split
    · extract_lets -merge -useContext -underBinder +onlyGivenNames v0 x2 v1
      try clear_value v0
      have h3 : Keeps s v1 := by
        unfold v1
        refine Keeps.of_mk ?_ rfl rfl (Nat.le_refl _) rfl rfl rfl rfl rfl rfl
        exact Keeps.refl _
      clear_value v1
      refine KeepsOut.next ?_
      split
      · exact .trans h3 (State.endSwitch_keeps ..)
      · exact h3
    · refine KeepsOut.next ?_
      exact Keeps.refl _
  · refine KeepsOut.next ?_
    exact Keeps.refl _

theorem execDomainStable_keeps (domain : Fin 6) (s : State) :
    KeepsOut s (execDomainStable domain s) := by
  unfold execDomainStable
  extract_lets -merge -useContext -underBinder +onlyGivenNames v0
  try clear_value v0
  split
  · refine KeepsOut.next ?_
    exact Keeps.refl _
  · extract_lets -merge -useContext -underBinder +onlyGivenNames v1
    have h2 : ∀ a3, Keeps a3 (v1 a3) := by
      intro a3
      unfold v1
      beta_reduce
      refine Keeps.of_mk ?_ rfl rfl (Nat.le_refl _) rfl rfl rfl rfl rfl rfl
      exact Keeps.refl _
    clear_value v1
    extract_lets -merge -useContext -underBinder +onlyGivenNames v4
    try clear_value v4
    split
    · split
      · refine KeepsOut.next ?_
        exact .trans ((h2 ..)) (State.endSwitch_keeps ..)
      · refine KeepsOut.next ?_
        exact Keeps.refl _
    · split
      · refine KeepsOut.next ?_
        exact (h2 ..)
      · refine KeepsOut.next ?_
        exact Keeps.refl _

theorem State.setBlockFlag_keeps (s : State) (r0 : Nat) (r1 : Nat) (b : Nat) :
    Keeps s (s.setBlockFlag r0 r1 b) := by
  unfold State.setBlockFlag
  split
  · exact (State.setFlag_keeps ..)
  · exact (State.setFlag_keeps ..)

theorem State.clrBlockFlag_keeps (s : State) (r0 : Nat) (r1 : Nat) (b : Nat) :
    Keeps s (s.clrBlockFlag r0 r1 b) := by
  unfold State.clrBlockFlag
  split
  · exact (State.clrFlag_keeps ..)
  · exact (State.clrFlag_keeps ..)

theorem State.gateOpen_keeps (s : State) (b : Nat) :
    Keeps s (s.gateOpen b) := by
  unfold State.gateOpen
  extract_lets -merge -useContext -underBinder +onlyGivenNames v0
  have h1 : Keeps s v0 := by
    unfold v0
    exact .trans ((State.clrBlockFlag_keeps ..)) (State.clrBlockFlag_keeps ..)
  clear_value v0
  refine Keeps.of_mk ?_ rfl rfl (Nat.le_refl _) rfl rfl rfl rfl rfl rfl
  exact h1

theorem State.gateFree_keeps (s : State) (b : Nat) :
    Keeps s (s.gateFree b) := by
  unfold State.gateFree
  split
  · extract_lets -merge -useContext -underBinder +onlyGivenNames v0
    have h1 : Keeps s v0 := by
      unfold v0
      exact (State.gateOpen_keeps ..)
    clear_value v0
    refine Keeps.of_mk ?_ rfl rfl (Nat.le_refl _) rfl rfl rfl rfl rfl rfl
    exact h1
  · split
    · exact Keeps.refl _
    · exact (State.gateOpen_keeps ..)

theorem State.gateWrite_keeps (s : State) (g : Nat) (v : Word) :
    Keeps s (s.gateWrite g v) := by
  unfold State.gateWrite
  refine Keeps.foldl ?_ (fun y0 _ => ?_)
  · exact Keeps.refl _
  · extract_lets -merge -useContext -underBinder +onlyGivenNames v1
    try clear_value v1
    split
    · exact Keeps.refl _
    · split
      · exact (State.gateFree_keeps ..)
      · split
        · exact Keeps.refl _
        · extract_lets -merge -useContext -underBinder +onlyGivenNames v2
          have h3 : Keeps y0 v2 := by
            unfold v2
            exact (State.setBlockFlag_keeps ..)
          clear_value v2
          refine Keeps.of_mk ?_ rfl rfl (Nat.le_refl _) rfl rfl rfl rfl rfl rfl
          exact h3

theorem execClkGateWrite_keeps (group : Fin 2) (b : BusWrite) (s : State) :
    KeepsOut s (execClkGateWrite group b s) := by
  unfold execClkGateWrite
  refine KeepsOut.next ?_
  refine Keeps.trans ?_ (State.busWrite_keeps (heff := fun y0 _ => ?_) ..)
  · exact Keeps.refl _
  · exact (State.gateWrite_keeps ..)

theorem State.gateShut_keeps (s : State) (b : Nat) :
    Keeps s (s.gateShut b) := by
  unfold State.gateShut
  extract_lets -merge -useContext -underBinder +onlyGivenNames x1 v0
  have h2 : Keeps s v0 := by
    unfold v0
    refine Keeps.of_mk ?_ rfl rfl (Nat.le_refl _) rfl rfl rfl rfl rfl rfl
    exact Keeps.refl _
  clear_value v0
  exact .trans h2 (State.setBlockFlag_keeps ..)

theorem execGateClose_keeps (block : Fin 36) (s : State) :
    KeepsOut s (execGateClose block s) := by
  unfold execGateClose
  split
  · refine KeepsOut.next ?_
    exact (State.gateShut_keeps ..)
  · refine KeepsOut.next ?_
    exact Keeps.refl _

theorem execGateTimeout_keeps (block : Fin 36) (s : State) :
    KeepsOut s (execGateTimeout block s) := by
  unfold execGateTimeout
  extract_lets -merge -useContext -underBinder +onlyGivenNames v0
  try clear_value v0
  split
  · split
    · extract_lets -merge -useContext -underBinder +onlyGivenNames v1 v2
      try clear_value v1
      have h3 : ∀ a4 a5, Keeps a4 (v2 a4 a5) := by
        intro a4 a5
        unfold v2
        beta_reduce
        exact (State.busError_keeps ..)
      clear_value v2
      extract_lets -merge -useContext -underBinder +onlyGivenNames x7 v6
      have h8 : Keeps s v6 := by
        unfold v6
        refine Keeps.foldl ?_ (fun y9 _ => ?_)
        · refine Keeps.of_mk ?_ rfl rfl (Nat.le_refl _) rfl rfl rfl rfl rfl rfl
          exact Keeps.refl _
        · exact (h3 ..)
      clear_value v6
      refine KeepsOut.next ?_
      exact .trans (.trans (.trans h8 (State.gateShut_keeps ..)) (State.setBlockFlag_keeps ..)) (State.event_keeps ..)
    · refine KeepsOut.next ?_
      exact Keeps.refl _
  · refine KeepsOut.next ?_
    exact Keeps.refl _

theorem State.eraseRegs_keeps (s : State) (p : Nat → Bool) : Keeps s (s.eraseRegs p) :=
  ⟨rfl, rfl, Nat.le_refl _, SMap.wf_filter _ _, id, id, fun _ _ h => h, fun _ _ h => h, fun _ _ h => h⟩

theorem State.returnHeld_keeps (s : State) (i : Nat) :
    Keeps s (s.returnHeld i) := by
  unfold State.returnHeld
  extract_lets -merge -useContext -underBinder +onlyGivenNames v0 v1
  try clear_value v0
  have h2 : Keeps s v1 := by
    unfold v1
    refine Keeps.foldl ?_ (fun y3 _ => ?_)
    · exact Keeps.refl _
    · exact (State.returnLater_keeps ..)
  clear_value v1
  refine Keeps.of_mk ?_ rfl rfl (Nat.le_refl _) rfl rfl rfl rfl rfl rfl
  exact h2

theorem State.withdraw_keeps (s : State) (i : Nat) :
    Keeps s (s.withdraw i) := by
  unfold State.withdraw
  extract_lets -merge -useContext -underBinder +onlyGivenNames v0
  try clear_value v0
  refine Keeps.of_mk ?_ rfl rfl (Nat.le_refl _) rfl rfl rfl rfl rfl rfl
  exact Keeps.refl _

theorem State.idleLanes_keeps (s : State) (p : Nat → Bool) :
    Keeps s (s.idleLanes p) := by
  unfold State.idleLanes
  extract_lets -merge -useContext -underBinder +onlyGivenNames v0 v1
  try clear_value v1; try clear_value v0
  refine Keeps.foldl ?_ (fun y2 _ => ?_)
  · refine Keeps.of_mk ?_ rfl rfl (Nat.le_refl _) rfl rfl rfl rfl rfl rfl
    exact Keeps.refl _
  · exact (State.lockFollow_keeps ..)

theorem State.linkOff_keeps (s : State) (ls : List Nat) :
    Keeps s (s.linkOff ls) := by
  unfold State.linkOff
  refine Keeps.foldl ?_ (fun y0 _ => ?_)
  · exact Keeps.refl _
  · exact (State.laneLink_keeps ..)

theorem State.wakeLanes_keeps (s : State) (ls : List Nat) :
    Keeps s (s.wakeLanes ls) := by
  unfold State.wakeLanes
  refine Keeps.foldl ?_ (fun y0 _ => ?_)
  · exact Keeps.refl _
  · exact (State.laneLink_keeps ..)

theorem State.dropResults_keeps (s : State) (k : Nat) :
    Keeps s (s.dropResults k) := by
  unfold State.dropResults
  refine Keeps.of_mk ?_ rfl rfl (Nat.le_refl _) rfl rfl rfl rfl rfl rfl
  exact Keeps.refl _

theorem State.eraseHome_keeps (s : State) (h : Nat) :
    Keeps s (s.eraseHome h) := by
  unfold State.eraseHome
  extract_lets -merge -useContext -underBinder +onlyGivenNames v0
  have h1 : ∀ a2, Keeps a2 (v0 a2) := by
    intro a2
    unfold v0
    beta_reduce
    refine Keeps.of_mk ?_ rfl rfl (Nat.le_refl _) rfl rfl rfl rfl rfl rfl
    exact Keeps.refl _
  clear_value v0
  extract_lets -merge -useContext -underBinder +onlyGivenNames v3
  have h4 : Keeps s v3 := by
    unfold v3
    exact (h1 ..)
  clear_value v3
  split
  · refine Keeps.of_mk ?_ rfl rfl (Nat.le_refl _) rfl rfl rfl rfl rfl rfl
    exact h4
  · exact h4

theorem State.eraseTyped_keeps (s : State) (i : Nat) (keep : Bool) :
    Keeps s (s.eraseTyped i keep) := by
  unfold State.eraseTyped
  split
  · exact (State.eraseHome_keeps ..)
  · split
    · exact .trans (Keeps.of_mk (Keeps.refl s) rfl rfl (Nat.le_refl _) rfl rfl rfl rfl rfl rfl) (State.linkOff_keeps ..)
    · exact .trans (Keeps.of_mk (Keeps.refl s) rfl rfl (Nat.le_refl _) rfl rfl rfl rfl rfl rfl) (State.linkOff_keeps ..)
    · exact Keeps.of_mk (Keeps.refl s) rfl rfl (Nat.le_refl _) rfl rfl rfl rfl rfl rfl
    · exact (State.idleLanes_keeps ..)
    · exact (State.idleLanes_keeps ..)
    · exact Keeps.of_mk (Keeps.refl s) rfl rfl (Nat.le_refl _) rfl rfl rfl rfl rfl rfl
    · exact Keeps.of_mk (Keeps.refl s) rfl rfl (Nat.le_refl _) rfl rfl rfl rfl rfl rfl
    · exact Keeps.of_mk (Keeps.refl s) rfl rfl (Nat.le_refl _) rfl rfl rfl rfl rfl rfl
    · exact Keeps.of_mk (Keeps.refl s) rfl rfl (Nat.le_refl _) rfl rfl rfl rfl rfl rfl
    · exact Keeps.of_mk (Keeps.refl s) rfl rfl (Nat.le_refl _) rfl rfl rfl rfl rfl rfl
    · exact Keeps.of_mk (Keeps.refl s) rfl rfl (Nat.le_refl _) rfl rfl rfl rfl rfl rfl
    · extract_lets -merge -useContext -underBinder +onlyGivenNames v0
      have h1 : Keeps s v0 := by
        unfold v0
        refine Keeps.trans ?_ (State.eachTile_keeps (hf := fun y2 _ => ?_) ..)
        · exact Keeps.refl _
        · exact .ite (.trans (State.setFlag_keeps ..) (State.event_keeps ..)) (Keeps.refl _)
      clear_value v0
      exact Keeps.of_mk (h1.trans (((State.linkOff_keeps ..).trans (State.linkOff_keeps ..)).trans (State.idleLanes_keeps ..)))
        rfl rfl (Nat.le_refl _) rfl rfl rfl rfl rfl rfl
    · exact Keeps.of_mk (Keeps.refl s) rfl rfl (Nat.le_refl _) rfl rfl rfl rfl rfl rfl
    · exact Keeps.of_mk (Keeps.refl s) rfl rfl (Nat.le_refl _) rfl rfl rfl rfl rfl rfl
    · exact Keeps.of_mk (Keeps.refl s) rfl rfl (Nat.le_refl _) rfl rfl rfl rfl rfl rfl
    · refine Keeps.trans ?_ (State.dropResults_keeps ..)
      exact Keeps.of_mk (Keeps.refl _) rfl rfl (Nat.le_refl _) rfl rfl rfl rfl rfl rfl
    · refine Keeps.trans ?_ (State.dropResults_keeps ..)
      exact Keeps.of_mk (Keeps.refl _) rfl rfl (Nat.le_refl _) rfl rfl rfl rfl rfl rfl
    · extract_lets -merge -useContext -underBinder +onlyGivenNames v2
      try clear_value v2
      exact Keeps.of_mk (State.setFld_keeps ..) rfl rfl (Nat.le_refl _) rfl rfl rfl rfl rfl rfl
    · exact Keeps.of_mk (Keeps.refl s) rfl rfl (Nat.le_refl _) rfl rfl rfl rfl rfl rfl
    · refine Keeps.trans ?_ (State.dropResults_keeps ..)
      exact Keeps.of_mk (Keeps.refl _) rfl rfl (Nat.le_refl _) rfl rfl rfl rfl rfl rfl
    · exact Keeps.of_mk (Keeps.refl s) rfl rfl (Nat.le_refl _) rfl rfl rfl rfl rfl rfl
    · exact ⟨rfl, rfl, Nat.le_refl _, id, id, fun _ => extentsOk_nil, fun _ _ h => h, fun _ _ h => h, fun _ _ h => h⟩
    · refine Keeps.trans ?_ (State.dropResults_keeps ..)
      exact Keeps.of_mk (Keeps.refl _) rfl rfl (Nat.le_refl _) rfl rfl rfl rfl rfl rfl
    · exact Keeps.of_mk (Keeps.refl s) rfl rfl (Nat.le_refl _) rfl rfl rfl rfl rfl rfl
    · exact Keeps.of_mk (Keeps.refl s) rfl rfl (Nat.le_refl _) rfl rfl rfl rfl rfl rfl
    · exact Keeps.refl _

theorem State.eraseItem_keeps (s : State) (i : Nat) (keep : Bool) :
    Keeps s (s.eraseItem i keep) := by
  unfold State.eraseItem
  exact .trans ((State.eraseRegs_keeps ..)) (State.eraseTyped_keeps ..)

theorem State.assertReset_keeps (s : State) (m : BitVec 40) (security : Bool) (keep : Bool) :
    Keeps s (s.assertReset m security keep) := by
  unfold State.assertReset
  extract_lets -merge -useContext -underBinder +onlyGivenNames v0 v1
  try clear_value v0
  have h2 : Keeps s v1 := by
    unfold v1
    refine Keeps.foldl ?_ (fun y3 _ => ?_)
    · exact Keeps.refl _
    · split
      · exact (State.returnHeld_keeps ..).trans (State.withdraw_keeps ..)
      · exact Keeps.refl _
  clear_value v1
  extract_lets -merge -useContext -underBinder +onlyGivenNames x5 x6 v4
  have h7 : Keeps s v4 := by
    unfold v4
    split
    · split
      · exact h2.trans ⟨rfl, rfl, Nat.le_refl _, id, fun _ => SMap.wf_nil _, id, fun _ _ h => h, fun _ _ h => h, fun _ _ h => h⟩
      · refine Keeps.of_mk ?_ rfl rfl (Nat.le_refl _) rfl rfl rfl rfl rfl rfl
        exact h2
    · exact h2
  clear_value v4
  extract_lets -merge -useContext -underBinder +onlyGivenNames v8
  have h9 : Keeps s v8 := by
    unfold v8
    refine Keeps.foldl ?_ (fun y10 _ => ?_)
    · exact h7
    · split
      · exact (State.gateOpen_keeps ..)
      · exact Keeps.refl _
  clear_value v8
  extract_lets -merge -useContext -underBinder +onlyGivenNames v11
  have h12 : Keeps s v11 := by
    unfold v11
    refine Keeps.foldl ?_ (fun y13 _ => ?_)
    · exact h9
    · exact (State.eraseItem_keeps ..)
  clear_value v11
  refine Keeps.of_mk ?_ rfl rfl (Nat.le_refl _) rfl rfl rfl rfl rfl rfl
  exact h12

theorem State.bootOver_keeps (s : State) (m : BitVec 40) :
    Keeps s (s.bootOver m) := by
  unfold State.bootOver
  refine Keeps.of_mk ?_ rfl rfl (Nat.le_refl _) rfl rfl rfl rfl rfl rfl
  exact Keeps.refl _

theorem State.cause_keeps (s : State) (b : Nat) :
    Keeps s (s.cause b) := by
  unfold State.cause
  exact (State.setFlag_keeps ..)

theorem State.wideReset_keeps (s : State) (security : Bool) (b : Nat) :
    Keeps s (s.wideReset security b) := by
  unfold State.wideReset
  extract_lets -merge -useContext -underBinder +onlyGivenNames v0
  have h1 : Keeps s v0 := by
    unfold v0
    exact .trans (.trans ((State.assertReset_keeps ..)) (State.bootOver_keeps ..)) (State.cause_keeps ..)
  clear_value v0
  refine Keeps.of_mk ?_ rfl rfl (Nat.le_refl _) rfl rfl rfl rfl rfl rfl
  exact h1

theorem State.narrowReset_keeps (s : State) (b : Nat) :
    Keeps s (s.narrowReset b) := by
  unfold State.narrowReset
  exact .trans (.trans ((State.assertReset_keeps ..)) (State.bootOver_keeps ..)) (State.cause_keeps ..)

theorem State.porReset_keeps (s : State) (bit : Nat) (clkLoss : Bool) :
    Keeps s (s.porReset bit clkLoss) := by
  unfold State.porReset
  extract_lets -merge -useContext -underBinder +onlyGivenNames v0
  have h1 : Keeps s v0 := by
    unfold v0
    exact ⟨rfl, rfl, Nat.le_refl _, fun _ => SMap.wf_nil _, fun _ => SMap.wf_nil _,
      fun _ => extentsOk_nil, fun _ _ h => h, fun _ _ h => h, fun _ _ h => h⟩
  clear_value v0
  extract_lets -merge -useContext -underBinder +onlyGivenNames v2
  have h3 : Keeps s v2 := by
    unfold v2
    split
    · exact .trans h1 (State.setReg_keeps ..)
    · exact .trans h1 (State.setReg_keeps ..)
  clear_value v2
  split
  · exact .trans h3 (State.setFlag_keeps ..)
  · exact h3

theorem execPorAndBrownOut_keeps (s : State) :
    KeepsOut s (execPorAndBrownOut s) := by
  unfold execPorAndBrownOut
  refine KeepsOut.next ?_
  exact (State.porReset_keeps ..)

theorem execRootLockLoss_keeps (s : State) :
    KeepsOut s (execRootLockLoss s) := by
  unfold execRootLockLoss
  split
  · refine KeepsOut.next ?_
    exact (State.porReset_keeps ..)
  · refine KeepsOut.next ?_
    refine Keeps.of_mk ?_ rfl rfl (Nat.le_refl _) rfl rfl rfl rfl rfl rfl
    exact Keeps.refl _

theorem execPorRelease_keeps (s : State) :
    KeepsOut s (execPorRelease s) := by
  unfold execPorRelease
  split
  · refine KeepsOut.next ?_
    refine Keeps.of_mk ?_ rfl rfl (Nat.le_refl _) rfl rfl rfl rfl rfl rfl
    exact Keeps.refl _
  · refine KeepsOut.next ?_
    exact Keeps.refl _

theorem execNrst_keeps (s : State) :
    KeepsOut s (execNrst s) := by
  unfold execNrst
  extract_lets -merge -useContext -underBinder +onlyGivenNames x1 v0
  have h2 : Keeps s v0 := by
    unfold v0
    refine Keeps.of_mk ?_ rfl rfl (Nat.le_refl _) rfl rfl rfl rfl rfl rfl
    exact Keeps.refl _
  clear_value v0
  split
  · refine KeepsOut.next ?_
    exact h2
  · extract_lets -merge -useContext -underBinder +onlyGivenNames v3
    have h4 : Keeps s v3 := by
      unfold v3
      exact .trans h2 (State.wideReset_keeps ..)
    clear_value v3
    refine KeepsOut.next ?_
    refine Keeps.of_mk ?_ rfl rfl (Nat.le_refl _) rfl rfl rfl rfl rfl rfl
    exact h4

theorem execNrstRelease_keeps (s : State) :
    KeepsOut s (execNrstRelease s) := by
  unfold execNrstRelease
  refine KeepsOut.next ?_
  refine Keeps.of_mk ?_ rfl rfl (Nat.le_refl _) rfl rfl rfl rfl rfl rfl
  exact Keeps.refl _

theorem State.endpointReset_keeps (s : State) :
    Keeps s (s.endpointReset) := by
  unfold State.endpointReset
  extract_lets -merge -useContext -underBinder +onlyGivenNames v0
  have h1 : Keeps s v0 := by
    unfold v0
    exact .trans ((State.eraseItem_keeps ..)) (State.withdraw_keeps ..)
  clear_value v0
  refine Keeps.of_mk ?_ rfl rfl (Nat.le_refl _) rfl rfl rfl rfl rfl rfl
  exact h1

theorem execPerst_keeps (s : State) :
    KeepsOut s (execPerst s) := by
  unfold execPerst
  split
  · refine KeepsOut.next ?_
    exact Keeps.refl _
  · extract_lets -merge -useContext -underBinder +onlyGivenNames x1 v0
    have h2 : Keeps s v0 := by
      unfold v0
      refine Keeps.of_mk ?_ rfl rfl (Nat.le_refl _) rfl rfl rfl rfl rfl rfl
      exact Keeps.refl _
    clear_value v0
    split
    · refine KeepsOut.next ?_
      exact h2
    · refine KeepsOut.next ?_
      exact .trans (.trans (.trans h2 (State.endpointReset_keeps ..)) (State.cause_keeps ..)) (State.event_keeps ..)

theorem execFlr_keeps (s : State) :
    KeepsOut s (execFlr s) := by
  unfold execFlr
  split
  · refine KeepsOut.next ?_
    exact Keeps.refl _
  · extract_lets -merge -useContext -underBinder +onlyGivenNames v0
    try clear_value v0
    refine KeepsOut.next ?_
    exact .trans (.trans ((State.endpointReset_keeps ..)) (State.cause_keeps ..)) (State.setReg_keeps ..)

theorem State.onRelease_keeps (s : State) (i : Nat) (copyA : List Byte) (copyB : List Byte) :
    Keeps s (s.onRelease i copyA copyB) := by
  unfold State.onRelease
  split
  · exact (State.asmCtrlWrite_keeps ..)
  · exact (State.asmCtrlWrite_keeps ..)
  · exact (State.wakeLanes_keeps ..)
  · exact (State.wakeLanes_keeps ..)
  · extract_lets -merge -useContext -underBinder +onlyGivenNames v0
    try clear_value v0
    refine Keeps.of_mk ?_ rfl rfl (Nat.le_refl _) rfl rfl rfl rfl rfl rfl
    exact Keeps.refl _
  · refine Keeps.of_mk ?_ rfl rfl (Nat.le_refl _) rfl rfl rfl rfl rfl rfl
    exact Keeps.refl _
  · split
    · refine Keeps.trans ?_ (State.event_keeps ..)
      refine Keeps.of_mk ?_ rfl rfl (Nat.le_refl _) rfl rfl rfl rfl rfl rfl
      exact Keeps.refl _
    · exact Keeps.refl _
  · exact (State.romBoot_keeps ..)
  · split
    · refine Keeps.trans ?_ (State.setFld_keeps ..)
      refine Keeps.of_mk ?_ rfl rfl (Nat.le_refl _) rfl rfl rfl rfl rfl rfl
      exact Keeps.refl _
    · exact Keeps.refl _
  · exact Keeps.refl _

theorem State.releaseItem_keeps (s : State) (i : Nat) (copyA : List Byte) (copyB : List Byte) :
    Keeps s (s.releaseItem i copyA copyB) := by
  unfold State.releaseItem
  extract_lets -merge -useContext -underBinder +onlyGivenNames v0 x2 v1
  try clear_value v0
  have h3 : Keeps s v1 := by
    unfold v1
    refine Keeps.of_mk ?_ rfl rfl (Nat.le_refl _) rfl rfl rfl rfl rfl rfl
    exact Keeps.refl _
  clear_value v1
  extract_lets -merge -useContext -underBinder +onlyGivenNames v4
  have h5 : Keeps s v4 := by
    unfold v4
    exact .trans h3 (State.onRelease_keeps ..)
  clear_value v4
  split
  · exact .trans h5 (State.event_keeps ..)
  · exact h5

theorem execBlockRelease_keeps (item : ResetItem) (copyA : List Byte) (copyB : List Byte) (s : State) :
    KeepsOut s (execBlockRelease item copyA copyB s) := by
  unfold execBlockRelease
  extract_lets -merge -useContext -underBinder +onlyGivenNames v0
  try clear_value v0
  split
  · refine KeepsOut.next ?_
    exact Keeps.refl _
  · split
    · refine KeepsOut.next ?_
      refine Keeps.foldl ?_ (fun y1 _ => ?_)
      · exact Keeps.refl _
      · split
        · exact (State.releaseItem_keeps ..)
        · exact Keeps.refl _
    · refine KeepsOut.next ?_
      exact (State.releaseItem_keeps ..)

theorem execPerstRelease_keeps (s : State) :
    KeepsOut s (execPerstRelease s) := by
  unfold execPerstRelease
  extract_lets -merge -useContext -underBinder +onlyGivenNames x1 v0
  have h2 : Keeps s v0 := by
    unfold v0
    refine Keeps.of_mk ?_ rfl rfl (Nat.le_refl _) rfl rfl rfl rfl rfl rfl
    exact Keeps.refl _
  clear_value v0
  split
  · refine KeepsOut.next ?_
    exact .trans h2 (State.releaseItem_keeps ..)
  · refine KeepsOut.next ?_
    exact h2

theorem State.bootHoldWrite_keeps (s : State) (m : Nat) (v : Word) :
    Keeps s (s.bootHoldWrite m v) := by
  unfold State.bootHoldWrite
  split
  · extract_lets -merge -useContext -underBinder +onlyGivenNames x1 v0
    have h2 : Keeps s v0 := by
      unfold v0
      refine Keeps.of_mk ?_ rfl rfl (Nat.le_refl _) rfl rfl rfl rfl rfl rfl
      exact Keeps.refl _
    clear_value v0
    refine Keeps.trans ?_ (State.event_keeps ..)
    refine Keeps.foldl ?_ (fun y3 _ => ?_)
    · exact h2
    · split <;> [exact State.releaseItem_keeps ..; exact Keeps.refl _]
  · exact Keeps.refl _

theorem execBootHoldRelease_keeps (b : BusWrite) (s : State) :
    KeepsOut s (execBootHoldRelease b s) := by
  unfold execBootHoldRelease
  refine KeepsOut.next ?_
  refine Keeps.trans ?_ (State.busWrite_keeps (heff := fun y0 _ => ?_) ..)
  · exact Keeps.refl _
  · exact (State.bootHoldWrite_keeps ..)

theorem State.rstBlockWrite_keeps (s : State) (g : Nat) (m : Nat) (v : Word) :
    Keeps s (s.rstBlockWrite g m v) := by
  unfold State.rstBlockWrite
  extract_lets -merge -useContext -underBinder +onlyGivenNames v0 v1 v2 v3
  try clear_value v2; try clear_value v1; try clear_value v0
  have h4 : Keeps s v3 := by
    unfold v3
    exact (State.store_keeps ..)
  clear_value v3
  extract_lets -merge -useContext -underBinder +onlyGivenNames v5 v6 v7 v8 x10 v9
  try clear_value v8; try clear_value v7; try clear_value v6; try clear_value v5
  have h11 : Keeps s v9 := by
    unfold v9
    refine Keeps.of_mk ?_ rfl rfl (Nat.le_refl _) rfl rfl rfl rfl rfl rfl
    exact h4
  clear_value v9
  extract_lets -merge -useContext -underBinder +onlyGivenNames v12 v13
  try clear_value v12
  have h14 : Keeps s v13 := by
    unfold v13
    split
    · exact h11
    · exact .trans h11 (State.assertReset_keeps ..)
  clear_value v13
  refine Keeps.foldl ?_ (fun y15 _ => ?_)
  · exact h14
  · extract_lets -merge -useContext -underBinder +onlyGivenNames v16
    try clear_value v16
    split
    · exact (State.releaseItem_keeps ..)
    · exact Keeps.refl _

theorem execRstBlockWrite_keeps (group : Fin 2) (b : BusWrite) (s : State) :
    KeepsOut s (execRstBlockWrite group b s) := by
  unfold execRstBlockWrite
  refine KeepsOut.next ?_
  refine Keeps.trans ?_ (State.busWrite_keeps (heff := fun y0 _ => ?_) ..)
  · exact Keeps.refl _
  · exact (State.rstBlockWrite_keeps ..)

theorem State.rstDeviceWrite_keeps (s : State) (m : Nat) (v : Word) :
    Keeps s (s.rstDeviceWrite m v) := by
  unfold State.rstDeviceWrite
  split
  · exact (State.narrowReset_keeps ..)
  · exact Keeps.refl _

theorem execRstDeviceGo_keeps (b : BusWrite) (s : State) :
    KeepsOut s (execRstDeviceGo b s) := by
  unfold execRstDeviceGo
  refine KeepsOut.next ?_
  refine Keeps.trans ?_ (State.busWrite_keeps (heff := fun y0 _ => ?_) ..)
  · exact Keeps.refl _
  · exact (State.rstDeviceWrite_keeps ..)

theorem State.secCtrlWrite_keeps (s : State) (m : Nat) (v : Word) :
    Keeps s (s.secCtrlWrite m v) := by
  unfold State.secCtrlWrite
  split
  · exact (State.wideReset_keeps ..)
  · exact Keeps.refl _

theorem execSecReset_keeps (b : BusWrite) (s : State) :
    KeepsOut s (execSecReset b s) := by
  unfold execSecReset
  refine KeepsOut.next ?_
  refine Keeps.trans ?_ (State.busWrite_keeps (heff := fun y0 _ => ?_) ..)
  · exact Keeps.refl _
  · exact (State.secCtrlWrite_keeps ..)

theorem State.lifecycleWrite_keeps (s : State) (m : Nat) (v : Word) :
    Keeps s (s.lifecycleWrite m v) := by
  unfold State.lifecycleWrite
  split
  · extract_lets -merge -useContext -underBinder +onlyGivenNames v0
    try clear_value v0
    exact .trans ((State.otpProgram_keeps ..)) (State.wideReset_keeps ..)
  · exact Keeps.refl _

theorem execLifecycleAdvance_keeps (b : BusWrite) (s : State) :
    KeepsOut s (execLifecycleAdvance b s) := by
  unfold execLifecycleAdvance
  refine KeepsOut.next ?_
  refine Keeps.trans ?_ (State.busWrite_keeps (heff := fun y0 _ => ?_) ..)
  · exact Keeps.refl _
  · exact (State.lifecycleWrite_keeps ..)

theorem execOptionLoader_keeps (s : State) :
    KeepsOut s (execOptionLoader s) := by
  unfold execOptionLoader
  split
  · refine KeepsOut.next ?_
    exact Keeps.refl _
  · extract_lets -merge -useContext -underBinder +onlyGivenNames v0 v1
    try clear_value v0
    extract_lets -merge -useContext -underBinder +onlyGivenNames v2 v3
    try clear_value v3; try clear_value v2
    refine KeepsOut.next ?_
    refine Keeps.trans ?_ (State.setReg_keeps ..)
    refine Keeps.of_mk ?_ rfl rfl (Nat.le_refl _) rfl rfl rfl rfl rfl rfl
    exact Keeps.refl _

theorem State.commitGroups_keeps (s : State) (mask : BitVec 16) :
    Keeps s (s.commitGroups mask) := by
  unfold State.commitGroups
  extract_lets -merge -useContext -underBinder +onlyGivenNames v0
  have h1 : Keeps s v0 := by
    unfold v0
    split
    · exact (State.commitGeo_keeps ..)
    · exact Keeps.refl _
  clear_value v0
  extract_lets -merge -useContext -underBinder +onlyGivenNames v2
  have h3 : Keeps s v2 := by
    unfold v2
    split
    · exact .trans h1 (State.commitPlanes_keeps ..)
    · exact h1
  clear_value v2
  extract_lets -merge -useContext -underBinder +onlyGivenNames v4
  have h5 : Keeps s v4 := by
    unfold v4
    split
    · exact .trans h3 (State.commitFin_keeps ..)
    · exact h3
  clear_value v4
  split
  · exact .trans h5 (State.commitTlk_keeps ..)
  · exact h5

theorem State.lateCommit_keeps (s : State) (mask : BitVec 16) :
    Keeps s (s.lateCommit mask) := by
  unfold State.lateCommit
  extract_lets -merge -useContext -underBinder +onlyGivenNames v0
  have h1 : Keeps s v0 := by
    unfold v0
    exact (State.commitLate_keeps ..)
  clear_value v0
  refine Keeps.of_mk ?_ rfl rfl (Nat.le_refl _) rfl rfl rfl rfl rfl rfl
  exact h1

theorem execCommit_keeps (w : SlateWord) (s : State) :
    KeepsOut s (execCommit w s) := by
  unfold execCommit
  extract_lets -merge -useContext -underBinder +onlyGivenNames v0
  try clear_value v0
  refine KeepsOut.trans ?_ (State.seqIssue_keeps (hf := fun y1 => ?_) ..)
  · exact Keeps.refl _
  · split
    · exact (State.seqWait_keeps ..)
    · split
      · exact (State.commitGroups_keeps ..)
      · exact (State.lateCommit_keeps ..)

theorem State.commitSlot432_keeps (s : State) :
    Keeps s (s.commitSlot432) := by
  unfold State.commitSlot432
  extract_lets -merge -useContext -underBinder +onlyGivenNames v0
  have h1 : Keeps s v0 := by
    unfold v0
    split
    · refine Keeps.trans ?_ (State.commitGroups_keeps ..)
      refine Keeps.of_mk ?_ rfl rfl (Nat.le_refl _) rfl rfl rfl rfl rfl rfl
      exact Keeps.refl _
    · exact Keeps.refl _
  clear_value v0
  split
  · exact .trans (.trans h1 (State.commitGroups_keeps ..)) (State.seqDone_keeps ..)
  · exact h1

theorem execRdsr_keeps (w : SlateWord) (s : State) :
    KeepsOut s (execRdsr w s) := by
  unfold execRdsr
  extract_lets -merge -useContext -underBinder +onlyGivenNames v0
  try clear_value v0
  refine KeepsOut.trans ?_ (State.seqIssue_keeps (hf := fun y1 => ?_) ..)
  · exact Keeps.refl _
  · exact (State.setT_keeps ..)

theorem execSlateTFlip_keeps (w : SlateWord) (s : State) :
    KeepsOut s (execSlateTFlip w s) := by
  unfold execSlateTFlip
  refine KeepsOut.trans ?_ (State.seqIssue_keeps (hf := fun y0 => ?_) ..)
  · exact Keeps.refl _
  · exact .trans ((State.seqPc_keeps ..)) (State.seqSt_keeps ..)

theorem State.synthStart_keeps (s : State) (f : Nat) (r : Nat) (blank : Bool) :
    Keeps s (s.synthStart f r blank) := by
  unfold State.synthStart
  extract_lets -merge -useContext -underBinder +onlyGivenNames v0
  have h1 : Keeps s v0 := by
    unfold v0
    exact (State.chartExchange_keeps ..)
  clear_value v0
  extract_lets -merge -useContext -underBinder +onlyGivenNames v2 v3
  try clear_value v2
  have h4 : Keeps s v3.1 := by
    unfold v3
    exact .trans h1 (State.dispatchRow_keeps ..)
  clear_value v3
  extract_lets -merge -useContext -underBinder +onlyGivenNames v5
  have h6 : Keeps s v5 := by
    unfold v5
    exact .trans h4 (State.rowStart_keeps ..)
  clear_value v5
  refine Keeps.trans ?_ (State.bltRowStart_keeps ..)
  split
  · exact .trans h6 (State.rowWithheld_keeps ..)
  · exact h6

theorem State.bindStep_keeps (s : State) (t : Nat) :
    Keeps s (s.bindStep t) := by
  unfold State.bindStep
  extract_lets -merge -useContext -underBinder +onlyGivenNames v0
  have h1 : Keeps s v0 := by
    unfold v0
    exact (State.chooseManifest_keeps ..)
  clear_value v0
  split
  · exact .trans (.trans h1 (State.setFlag_keeps ..)) (State.bump_keeps ..)
  · extract_lets -merge -useContext -underBinder +onlyGivenNames x3 v2
    have h4 : Keeps s v2 := by
      unfold v2
      refine Keeps.of_mk ?_ rfl rfl (Nat.le_refl _) rfl rfl rfl rfl rfl rfl
      exact h1
    clear_value v2
    split
    · extract_lets -merge -useContext -underBinder +onlyGivenNames v5 v6
      try clear_value v5
      have h7 : Keeps s v6 := by
        unfold v6
        exact .trans h4 (State.manifestInForce_keeps ..)
      clear_value v6
      split
      · exact h7
      · refine Keeps.of_mk ?_ rfl rfl (Nat.le_refl _) rfl rfl rfl rfl rfl rfl
        exact h7
    · exact h4

theorem State.modeFix_keeps (s : State) :
    Keeps s (s.modeFix) := by
  unfold State.modeFix
  extract_lets -merge -useContext -underBinder +onlyGivenNames v0
  try clear_value v0
  refine Keeps.of_mk ?_ rfl rfl (Nat.le_refl _) rfl rfl rfl rfl rfl rfl
  exact Keeps.refl _

theorem State.slot447_keeps (s : State) (t : Nat) :
    Keeps s (s.slot447 t) := by
  unfold State.slot447
  extract_lets -merge -useContext -underBinder +onlyGivenNames v0
  have h1 : Keeps s v0 := by
    unfold v0
    exact .trans (.trans (.trans (.trans (.trans (.trans ((State.geoInForce_keeps ..)) (State.bindStep_keeps ..)) (State.modeFix_keeps ..)) (State.bltSlot447_keeps ..)) (State.shedUpdate_keeps ..)) (State.openDeadlines_keeps ..)) (State.finSlot447_keeps ..)
  clear_value v0
  extract_lets -merge -useContext -underBinder +onlyGivenNames x3 v2
  have h4 : Keeps s v2 := by
    unfold v2
    refine Keeps.of_mk ?_ rfl rfl (Nat.le_refl _) rfl rfl rfl rfl rfl rfl
    exact h1
  clear_value v2
  exact .trans h4 (State.synthStart_keeps ..)

theorem State.rowsAt_keeps (s : State) (k : Nat) :
    Keeps s (s.rowsAt k) := by
  unfold State.rowsAt
  extract_lets -merge -useContext -underBinder +onlyGivenNames v0
  have h1 : Keeps s v0 := by
    unfold v0
    split
    · exact (State.cancelRow_keeps ..)
    · exact Keeps.refl _
  clear_value v0
  extract_lets -merge -useContext -underBinder +onlyGivenNames v2
  have h3 : Keeps s v2 := by
    unfold v2
    split
    · exact .trans h1 (State.lateTest_keeps ..)
    · exact h1
  clear_value v2
  split
  · exact .trans h3 (State.synthStart_keeps ..)
  · exact h3

theorem State.slotBegin_keeps (s : State) (k : Nat) :
    Keeps s (s.slotBegin k) := by
  unfold State.slotBegin
  extract_lets -merge -useContext -underBinder +onlyGivenNames v0 x2 v1
  try clear_value v0
  have h3 : Keeps s v1 := by
    unfold v1
    refine Keeps.of_mk ?_ rfl rfl (Nat.le_refl _) rfl rfl rfl rfl rfl rfl
    exact Keeps.refl _
  clear_value v1
  extract_lets -merge -useContext -underBinder +onlyGivenNames v4
  have h5 : Keeps s v4 := by
    unfold v4
    split
    · exact .trans h3 (State.commitSlot432_keeps ..)
    · exact h3
  clear_value v4
  extract_lets -merge -useContext -underBinder +onlyGivenNames v6
  have h7 : Keeps s v6 := by
    unfold v6
    exact .trans (.trans (.trans (.trans h5 (State.seqSlotBegins_keeps ..)) (State.rowsAt_keeps ..)) (State.emitSlot_keeps ..)) (State.prefetchSlot_keeps ..)
  clear_value v6
  refine Keeps.trans ?_ (State.noteQueues_keeps ..)
  split
  · exact .trans (.trans (.trans h7 (State.placementStep_keeps ..)) (State.kernelApply_keeps ..)) (State.ageSlot432_keeps ..)
  · split
    · exact .trans h7 (State.slot447_keeps ..)
    · exact h7

theorem execSlotStart_keeps (s : State) :
    KeepsOut s (execSlotStart s) := by
  unfold execSlotStart
  split
  · split
    · refine KeepsOut.next ?_
      exact (State.slotBegin_keeps ..)
    · refine KeepsOut.next ?_
      exact Keeps.refl _
  · refine KeepsOut.next ?_
    exact Keeps.refl _

theorem State.endRow_keeps (s : State) (k : Nat) :
    Keeps s (s.endRow k) := by
  unfold State.endRow
  extract_lets -merge -useContext -underBinder +onlyGivenNames v0
  have h1 : Keeps s v0 := by
    unfold v0
    exact (State.cancelRow_keeps ..)
  clear_value v0
  split
  · refine Keeps.trans ?_ (State.eachTile_keeps (hf := fun y2 _ => ?_) ..)
    · exact h1
    · exact (State.rowStop_keeps ..)
  · exact h1

theorem State.endShort_keeps (s : State) :
    Keeps s (s.endShort) := by
  unfold State.endShort
  extract_lets -merge -useContext -underBinder +onlyGivenNames v0 v1
  try clear_value v0
  have h2 : Keeps s v1 := by
    unfold v1
    split
    · exact .trans ((State.endRow_keeps ..)) (State.cancelRow_keeps ..)
    · exact .trans (.trans ((State.cancelRow_keeps ..)) (State.cancelRow_keeps ..)) (State.emitShort_keeps ..)
  clear_value v1
  extract_lets -merge -useContext -underBinder +onlyGivenNames x4 v3
  have h5 : Keeps s v3 := by
    unfold v3
    refine Keeps.of_mk ?_ rfl rfl (Nat.le_refl _) rfl rfl rfl rfl rfl rfl
    exact h2
  clear_value v3
  exact .trans (.trans (.trans h5 (State.setFlag_keeps ..)) (State.bump_keeps ..)) (State.event_keeps ..)

theorem State.modeSwitch_keeps (s : State) :
    Keeps s (s.modeSwitch) := by
  unfold State.modeSwitch
  extract_lets -merge -useContext -underBinder +onlyGivenNames v0
  have h1 : Keeps s v0 := by
    unfold v0
    exact .trans (.trans ((State.ringSet_keeps ..)) (State.invalidateAll_keeps ..)) (State.abandonDecoding_keeps ..)
  clear_value v0
  extract_lets -merge -useContext -underBinder +onlyGivenNames v2 v3 v4 x6 x7 v5
  try clear_value v4; try clear_value v3; try clear_value v2
  have h8 : Keeps s v5 := by
    unfold v5
    refine Keeps.of_mk ?_ rfl rfl (Nat.le_refl _) rfl rfl rfl rfl rfl rfl
    exact h1
  clear_value v5
  split
  · exact .trans (.trans h8 (State.setFld_keeps ..)) (State.event_keeps ..)
  · exact h8

theorem State.seqFlip_keeps (s : State) :
    Keeps s (s.seqFlip) := by
  unfold State.seqFlip
  extract_lets -merge -useContext -underBinder +onlyGivenNames v0 v1
  try clear_value v1; try clear_value v0
  split
  · exact Keeps.refl _
  · split
    · refine Keeps.of_mk ?_ rfl rfl (Nat.le_refl _) rfl rfl rfl rfl rfl rfl
      exact Keeps.refl _
    · split
      · exact Keeps.refl _
      · extract_lets -merge -useContext -underBinder +onlyGivenNames v2
        have h3 : Keeps s v2 := by
          unfold v2
          split
          · exact .trans ((State.lateCommit_keeps ..)) (State.seqDone_keeps ..)
          · exact Keeps.refl _
        clear_value v2
        exact .trans (.trans (.trans h3 (State.setFlag_keeps ..)) (State.bump_keeps ..)) (State.event_keeps ..)

theorem State.watchdog_keeps (s : State) :
    Keeps s (s.watchdog).1 := by
  unfold State.watchdog
  split
  · exact Keeps.refl _
  · split
    · exact (State.setFld_keeps ..)
    · extract_lets -merge -useContext -underBinder +onlyGivenNames v0
      try clear_value v0
      exact (State.setFld_keeps ..)

theorem State.newFrame_keeps (s : State) (wall : Nat) :
    Keeps s (s.newFrame wall) := by
  unfold State.newFrame
  extract_lets -merge -useContext -underBinder +onlyGivenNames v0
  try clear_value v0
  refine Keeps.of_mk ?_ rfl rfl (Nat.le_refl _) rfl rfl rfl rfl rfl rfl
  exact Keeps.refl _

theorem State.flip_keeps (s : State) (wall : Nat) :
    Keeps s (s.flip wall) := by
  unfold State.flip
  extract_lets -merge -useContext -underBinder +onlyGivenNames v0 v1 v2
  try clear_value v1; try clear_value v0
  have h3 : Keeps s v2 := by
    unfold v2
    split
    · exact (State.endShort_keeps ..)
    · split
      · exact (State.endRow_keeps ..)
      · exact Keeps.refl _
  clear_value v2
  extract_lets -merge -useContext -underBinder +onlyGivenNames v4
  have h5 : Keeps s v4 := by
    unfold v4
    split
    · exact h3
    · exact .trans h3 (State.slot447_keeps ..)
  clear_value v4
  extract_lets -merge -useContext -underBinder +onlyGivenNames v6 v7
  try clear_value v6
  have h8 : Keeps s v7.1 := by
    unfold v7
    exact .trans h5 (State.watchdog_keeps ..)
  clear_value v7
  extract_lets -merge -useContext -underBinder +onlyGivenNames v9
  have h10 : Keeps s v9 := by
    unfold v9
    exact .trans h8 (State.newFrame_keeps ..)
  clear_value v9
  extract_lets -merge -useContext -underBinder +onlyGivenNames v11
  have h12 : Keeps s v11 := by
    unfold v11
    split
    · exact .trans h10 (State.modeSwitch_keeps ..)
    · exact h10
  clear_value v11
  extract_lets -merge -useContext -underBinder +onlyGivenNames v13
  have h14 : Keeps s v13 := by
    unfold v13
    split
    · exact .trans h12 (State.event_keeps ..)
    · exact h12
  clear_value v13
  extract_lets -merge -useContext -underBinder +onlyGivenNames v15
  have h16 : Keeps s v15 := by
    unfold v15
    exact .trans h14 (State.seqFlip_keeps ..)
  clear_value v15
  extract_lets -merge -useContext -underBinder +onlyGivenNames v17
  have h18 : Keeps s v17 := by
    unfold v17
    exact .trans h16 (State.rowsAt_keeps ..)
  clear_value v17
  extract_lets -merge -useContext -underBinder +onlyGivenNames v19
  have h20 : Keeps s v19 := by
    unfold v19
    exact .trans (.trans (.trans (.trans h18 (State.pvFlip_keeps ..)) (State.ageFlip_keeps ..)) (State.tlkFlip_keeps ..)) (State.prefetchFlip_keeps ..)
  clear_value v19
  extract_lets -merge -useContext -underBinder +onlyGivenNames v21
  have h22 : Keeps s v21 := by
    unfold v21
    exact .trans (.trans h20 (State.emitSlot_keeps ..)) (State.prefetchSlot_keeps ..)
  clear_value v21
  refine Keeps.trans ?_ (State.noteQueues_keeps ..)
  split
  · exact .trans h22 (State.narrowReset_keeps ..)
  · exact h22

theorem State.portFlip_keeps (s : State) (wall : Nat) (hold : Bool) :
    Keeps s (s.portFlip wall hold) := by
  unfold State.portFlip
  extract_lets -merge -useContext -underBinder +onlyGivenNames x1 x2 v0
  have h3 : Keeps s v0 := by
    unfold v0
    refine Keeps.of_mk ?_ rfl rfl (Nat.le_refl _) rfl rfl rfl rfl rfl rfl
    exact Keeps.refl _
  clear_value v0
  split
  · exact .trans h3 (State.flip_keeps ..)
  · exact h3

theorem execFlip_keeps (s : State) :
    KeepsOut s (execFlip s) := by
  unfold execFlip
  split
  · split
    · refine KeepsOut.next ?_
      exact (State.portFlip_keeps ..)
    · refine KeepsOut.next ?_
      exact Keeps.refl _
  · refine KeepsOut.next ?_
    exact Keeps.refl _

theorem execHoldoverFlip_keeps (s : State) :
    KeepsOut s (execHoldoverFlip s) := by
  unfold execHoldoverFlip
  split
  · refine KeepsOut.next ?_
    exact (State.portFlip_keeps ..)
  · refine KeepsOut.next ?_
    exact Keeps.refl _

theorem execFreeRunFlip_keeps (s : State) :
    KeepsOut s (execFreeRunFlip s) := by
  unfold execFreeRunFlip
  split
  · extract_lets -merge -useContext -underBinder +onlyGivenNames v0 x2 v1
    try clear_value v0
    have h3 : Keeps s v1 := by
      unfold v1
      refine Keeps.trans ?_ (State.bump_keeps ..)
      refine Keeps.of_mk ?_ rfl rfl (Nat.le_refl _) rfl rfl rfl rfl rfl rfl
      exact Keeps.refl _
    clear_value v1
    extract_lets -merge -useContext -underBinder +onlyGivenNames v4
    have h5 : Keeps s v4 := by
      unfold v4
      split
      · exact .trans h3 (State.event_keeps ..)
      · exact h3
    clear_value v4
    refine KeepsOut.next ?_
    exact .trans h5 (State.flip_keeps ..)
  · refine KeepsOut.next ?_
    exact Keeps.refl _

end Sys2Proof.Machine
end

