-- ==== Sys2Proof/Laws/KeepsRest.lean ====
section
/-!
SUPPORT. What `Keeps` says, of the memory controller, posts, Roll Call, register writes and the tick: one lemma per operation.
-/
namespace Sys2Proof.Machine

open Sys2Proof.Safety

theorem State.answer_keeps (s : State) (x : MemAnswer) :
    Keeps s (s.answer x) := by
  unfold State.answer
  refine Keeps.of_mk ?_ rfl rfl (Nat.le_refl _) rfl rfl rfl rfl rfl rfl
  exact Keeps.refl _

theorem State.memError_keeps (s : State) (write : Bool) (m : Nat) (a : Nat) (n : Nat) :
    Keeps s (s.memError write m a n) := by
  unfold State.memError
  exact (State.answer_keeps ..)

theorem State.portEnter_keeps (s : State) (r : PortReq) :
    Keeps s (s.portEnter r) := by
  unfold State.portEnter
  refine Keeps.of_mk ?_ rfl rfl (Nat.le_refl _) rfl rfl rfl rfl rfl rfl
  exact Keeps.refl _

theorem State.portTake_keeps (s : State) (r : PortReq) :
    Keeps s (s.portTake r) := by
  unfold State.portTake
  split
  · exact (State.portEnter_keeps ..)
  · refine Keeps.of_mk ?_ rfl rfl (Nat.le_refl _) rfl rfl rfl rfl rfl rfl
    exact Keeps.refl _

theorem State.portFill_keeps (s : State) :
    Keeps s (s.portFill) := by
  unfold State.portFill
  extract_lets -merge -useContext -underBinder +onlyGivenNames v0
  try clear_value v0
  refine Keeps.foldl ?_ (fun y1 _ => ?_)
  · refine Keeps.of_mk ?_ rfl rfl (Nat.le_refl _) rfl rfl rfl rfl rfl rfl
    exact Keeps.refl _
  · exact (State.portTake_keeps ..)

theorem State.drainLevel_keeps (s : State) (c : Nat) :
    Keeps s (s.drainLevel c) := by
  unfold State.drainLevel
  extract_lets -merge -useContext -underBinder +onlyGivenNames v0
  try clear_value v0
  split
  · exact (State.setChan_keeps ..)
  · split
    · exact (State.setChan_keeps ..)
    · exact Keeps.refl _

theorem State.acceptWrite_keeps (s : State) (r : PortReq) :
    Keeps s (s.acceptWrite r) := by
  unfold State.acceptWrite
  extract_lets -merge -useContext -underBinder +onlyGivenNames v0 v1 v2 v3 v4 v5
  try clear_value v2
  have h4 : Keeps s v4 := by
    unfold v4
    split
    · exact State.joinWrite_keeps ..
    · exact State.setChan_keeps ..
  have h5 : Keeps s v5 := by
    unfold v5
    split
    · exact h4.trans (State.setSoft_keeps ..)
    · exact h4.trans (State.putLine_keeps ..)
  exact .trans (.trans h5 (State.drainLevel_keeps ..)) (State.answer_keeps ..)

theorem State.grant_keeps (s : State) (r : PortReq) :
    Keeps s (s.grant r) := by
  unfold State.grant
  extract_lets -merge -useContext -underBinder +onlyGivenNames v0 x2 v1
  try clear_value v0
  have h3 : Keeps s v1 := by
    unfold v1
    refine Keeps.of_mk ?_ rfl rfl (Nat.le_refl _) rfl rfl rfl rfl rfl rfl
    exact Keeps.refl _
  clear_value v1
  extract_lets -merge -useContext -underBinder +onlyGivenNames v4
  try clear_value v4
  split
  · exact .trans h3 (State.memError_keeps ..)
  · split
    · exact .trans h3 (State.acceptWrite_keeps ..)
    · split
      · extract_lets -merge -useContext -underBinder +onlyGivenNames v5
        have h6 : Keeps s v5.1 := by
          unfold v5
          exact .trans h3 (State.fetchLine_keeps ..)
        clear_value v5
        exact .trans h6 (State.answer_keeps ..)
      · exact .trans h3 (State.setChan_keeps ..)

theorem State.grantMaster_keeps (s : State) (m : Nat) :
    Keeps s (s.grantMaster m) := by
  unfold State.grantMaster
  refine Keeps.foldl1 ?_ (fun y0 _ => ?_)
  · exact Keeps.refl _
  · split
    · exact Keeps.refl _
    · split
      · exact (State.grant_keeps ..)
      · exact Keeps.refl _

theorem State.forcedEnd_keeps (s : State) (c : Nat) :
    Keeps s (s.forcedEnd c) := by
  unfold State.forcedEnd
  extract_lets -merge -useContext -underBinder +onlyGivenNames v0
  try clear_value v0
  split
  · exact Keeps.refl _
  · extract_lets -merge -useContext -underBinder +onlyGivenNames v1
    try clear_value v1
    exact (State.setChan_keeps ..)

theorem State.portStep_keeps (s : State) :
    Keeps s (s.portStep) := by
  unfold State.portStep
  split
  · exact Keeps.refl _
  · refine Keeps.trans ?_ (State.portFill_keeps ..)
    refine Keeps.foldl ?_ (fun y0 _ => ?_)
    · refine Keeps.foldl ?_ (fun y1 _ => ?_)
      · exact Keeps.refl _
      · exact (State.grantMaster_keeps ..)
    · exact (State.forcedEnd_keeps ..)

theorem State.requestPart_keeps (s : State) (g : Nat) (b : Nat) (m : Nat) (write : Bool) (a : Nat) (n : Nat) (data : List Byte) (ln : Nat) (scrub : Bool) :
    Keeps s (s.requestPart g b m write a n data ln scrub) := by
  unfold State.requestPart
  split
  · split
    · exact .trans ((State.violation_keeps ..)) (State.memError_keeps ..)
    · exact (State.portTake_keeps ..)

theorem execDmcRequest_keeps (master : Fin 32) (write : Bool) (addr : BitVec 37) (n : Fin 4097) (data : List Byte) (s : State) :
    KeepsOut s (execDmcRequest master write addr n data s) := by
  unfold execDmcRequest
  extract_lets -merge -useContext -underBinder +onlyGivenNames v0 v1 v2
  try clear_value v2; try clear_value v1; try clear_value v0
  split
  · refine KeepsOut.next ?_
    exact Keeps.refl _
  · split
    · refine KeepsOut.next ?_
      exact Keeps.refl _
    · split
      · refine KeepsOut.next ?_
        exact (State.windowWrite_keeps ..)
      · split
        · refine KeepsOut.next ?_
          exact (State.memError_keeps ..)
        · split
          · refine KeepsOut.next ?_
            exact (State.memError_keeps ..)
          · refine KeepsOut.next ?_
            refine Keeps.foldl ?_ (fun y3 _ => ?_)
            · exact Keeps.refl _
            · exact (State.requestPart_keeps ..)

theorem State.retryPush_keeps (s : State) (c : Nat) (kind : CmdKind) (line : Nat) :
    Keeps s (s.retryPush c kind line) := by
  unfold State.retryPush
  extract_lets -merge -useContext -underBinder +onlyGivenNames v0
  try clear_value v0
  exact (State.setChan_keeps ..)

theorem State.issueWrite_keeps (s : State) (c : Nat) (w : MemReq) :
    Keeps s (s.issueWrite c w) := by
  unfold State.issueWrite
  extract_lets -merge -useContext -underBinder +onlyGivenNames v0
  try clear_value v0
  split
  · extract_lets -merge -useContext -underBinder +onlyGivenNames v1 v2
    try clear_value v1
    have h3 : Keeps s v2 := by
      unfold v2
      exact (State.setChan_keeps ..)
    clear_value v2
    exact .trans (.trans h3 (State.mergeLine_keeps ..)) (State.retryPush_keeps ..)
  · extract_lets -merge -useContext -underBinder +onlyGivenNames v4
    have h5 : Keeps s v4 := by
      unfold v4
      exact (State.setChan_keeps ..)
    clear_value v4
    exact .trans (.trans (.trans h5 (State.bump_keeps ..)) (State.drainLevel_keeps ..)) (State.retryPush_keeps ..)

theorem State.issueRead_keeps (s : State) (c : Nat) (r : MemReq) :
    Keeps s (s.issueRead c r) := by
  unfold State.issueRead
  extract_lets -merge -useContext -underBinder +onlyGivenNames v0 v1 v2
  try clear_value v1; try clear_value v0
  have h3 : Keeps s v2 := by
    unfold v2
    exact .trans ((State.setChan_keeps ..)) (State.retryPush_keeps ..)
  clear_value v2
  extract_lets -merge -useContext -underBinder +onlyGivenNames v4
  have h5 : Keeps s v4.1 := by
    unfold v4
    split
    · exact .trans h3 (State.bump_keeps ..)
    · exact .trans (.trans h3 (State.bump_keeps ..)) (State.uncorrectable_keeps ..)
    · extract_lets -merge -useContext -underBinder +onlyGivenNames v6
      have h7 : Keeps s v6.1 := by
        unfold v6
        exact .trans h3 (State.readLine_keeps ..)
      clear_value v6
      exact h7
  clear_value v4
  exact .trans h5 (State.answer_keeps ..)

theorem execChannelCommand_keeps (channel : Fin 16) (upsets : List (BitVec 31 × Bool)) (s : State) :
    KeepsOut s (execChannelCommand channel upsets s) := by
  unfold execChannelCommand
  extract_lets -merge -useContext -underBinder +onlyGivenNames v0 v1
  try clear_value v0
  have h2 : Keeps s v1 := by
    unfold v1
    exact (State.strike_keeps ..)
  clear_value v1
  split
  · refine KeepsOut.next ?_
    exact h2
  · extract_lets -merge -useContext -underBinder +onlyGivenNames v3 v4 v5
    try clear_value v5; try clear_value v4; try clear_value v3
    split
    · refine KeepsOut.next ?_
      exact .trans h2 (State.issueWrite_keeps ..)
    · refine KeepsOut.next ?_
      split
      · exact .trans h2 (State.issueWrite_keeps ..)
      · exact .trans h2 (State.issueRead_keeps ..)
    · refine KeepsOut.next ?_
      exact .trans h2 (State.issueWrite_keeps ..)
    · refine KeepsOut.next ?_
      exact h2

theorem execForcedDrain_keeps (port : PortId) (s : State) :
    KeepsOut s (execForcedDrain port s) := by
  unfold execForcedDrain
  split
  · refine KeepsOut.next ?_
    exact Keeps.refl _
  · refine KeepsOut.next ?_
    refine Keeps.foldl ?_ (fun y0 _ => ?_)
    · exact Keeps.refl _
    · extract_lets -merge -useContext -underBinder +onlyGivenNames v1
      try clear_value v1
      split
      · exact (State.setChan_keeps ..)
      · exact Keeps.refl _

theorem execRefresh_keeps (channel : Fin 16) (bank : Fin 16) (manage : Bool) (s : State) :
    KeepsOut s (execRefresh channel bank manage s) := by
  unfold execRefresh
  extract_lets -merge -useContext -underBinder +onlyGivenNames v0 v1 v2
  try clear_value v2; try clear_value v1; try clear_value v0
  split
  · extract_lets -merge -useContext -underBinder +onlyGivenNames v3
    have h4 : Keeps s v3 := by
      unfold v3
      exact (State.retryPush_keeps ..)
    clear_value v3
    refine KeepsOut.next ?_
    exact .trans h4 (State.setChan_keeps ..)
  · refine KeepsOut.next ?_
    exact Keeps.refl _

theorem State.chanFail_keeps (s : State) (c : Nat) :
    Keeps s (s.chanFail c) := by
  unfold State.chanFail
  extract_lets -merge -useContext -underBinder +onlyGivenNames v0 v1
  try clear_value v0
  have h2 : Keeps s v1 := by
    unfold v1
    refine Keeps.foldl ?_ (fun y3 _ => ?_)
    · exact Keeps.refl _
    · exact (State.memError_keeps ..)
  clear_value v1
  exact .trans (.trans h2 (State.setChan_keeps ..)) (State.event_keeps ..)

theorem execTraining_keeps (channel : Fin 16) (pass : Bool) (s : State) :
    KeepsOut s (execTraining channel pass s) := by
  unfold execTraining
  extract_lets -merge -useContext -underBinder +onlyGivenNames v0 v1
  try clear_value v1; try clear_value v0
  split
  · extract_lets -merge -useContext -underBinder +onlyGivenNames x3 v2
    have h4 : Keeps s v2 := by
      unfold v2
      refine Keeps.of_mk ?_ rfl rfl (Nat.le_refl _) rfl rfl rfl rfl rfl rfl
      exact Keeps.refl _
    clear_value v2
    refine KeepsOut.next ?_
    split
    · exact .trans h4 (State.setChan_keeps ..)
    · exact .trans h4 (State.chanFail_keeps ..)
  · refine KeepsOut.next ?_
    exact Keeps.refl _

theorem State.retrainOne_keeps (s : State) (pass : Bool) (c : Nat) :
    Keeps s (s.retrainOne pass c) := by
  unfold State.retrainOne
  extract_lets -merge -useContext -underBinder +onlyGivenNames v0 v1
  try clear_value v1; try clear_value v0
  split
  · exact (State.setChan_keeps ..)
  · exact (State.chanFail_keeps ..)

theorem execPeriodicRetrain_keeps (channel : Fin 16) (pass : Bool) (s : State) :
    KeepsOut s (execPeriodicRetrain channel pass s) := by
  unfold execPeriodicRetrain
  extract_lets -merge -useContext -underBinder +onlyGivenNames v0
  try clear_value v0
  split
  · split
    · refine KeepsOut.next ?_
      refine Keeps.foldl ?_ (fun y1 _ => ?_)
      · exact Keeps.refl _
      · split
        · exact (State.retrainOne_keeps ..)
        · exact Keeps.refl _
    · refine KeepsOut.next ?_
      exact (State.retrainOne_keeps ..)
  · refine KeepsOut.next ?_
    exact Keeps.refl _

theorem State.dmcCtrlWrite_keeps (s : State) (v : Word) :
    Keeps s (s.dmcCtrlWrite v) := by
  unfold State.dmcCtrlWrite
  extract_lets -merge -useContext -underBinder +onlyGivenNames v0
  have h1 : Keeps s v0 := by
    unfold v0
    exact (State.store_keeps ..)
  clear_value v0
  split
  · refine Keeps.foldl ?_ (fun y2 _ => ?_)
    · exact h1
    · split
      · exact (State.setChan_keeps ..)
      · exact Keeps.refl _
  · exact h1

theorem execDmcRetrain_keeps (b : BusWrite) (s : State) :
    KeepsOut s (execDmcRetrain b s) := by
  unfold execDmcRetrain
  refine KeepsOut.next ?_
  refine Keeps.trans ?_ (State.busWrite_keeps (heff := fun y0 _ => ?_) ..)
  · exact Keeps.refl _
  · exact (State.dmcCtrlWrite_keeps ..)

theorem execParityAlert_keeps (channel : Fin 16) (s : State) :
    KeepsOut s (execParityAlert channel s) := by
  unfold execParityAlert
  extract_lets -merge -useContext -underBinder +onlyGivenNames v0 v1
  try clear_value v1; try clear_value v0
  split
  · refine KeepsOut.next ?_
    exact Keeps.refl _
  · extract_lets -merge -useContext -underBinder +onlyGivenNames v2 v3
    try clear_value v3; try clear_value v2
    split
    · refine KeepsOut.next ?_
      exact (State.chanFail_keeps ..)
    · extract_lets -merge -useContext -underBinder +onlyGivenNames v4 v5 v6
      try clear_value v5; try clear_value v4
      have h7 : Keeps s v6 := by
        unfold v6
        exact (State.setChan_keeps ..)
      clear_value v6
      refine KeepsOut.next ?_
      exact .trans (.trans h7 (State.bump_keeps ..)) (State.event_keeps ..)

theorem State.scrubLine_keeps (s : State) (g : Nat) (b : Nat) (ln : Nat) :
    Keeps s (s.scrubLine g b ln) := by
  unfold State.scrubLine
  extract_lets -merge -useContext -underBinder +onlyGivenNames v0
  have h1 : Keeps s v0.1 := by
    unfold v0
    split
    · exact (State.fetchLine_keeps ..)
    · exact (State.readLine_keeps ..)
  clear_value v0
  split
  · exact .trans h1 (State.requestPart_keeps ..)
  · exact h1

theorem execScrubRead_keeps (channel : Fin 16) (upsets : List (BitVec 31 × Bool)) (s : State) :
    KeepsOut s (execScrubRead channel upsets s) := by
  unfold execScrubRead
  extract_lets -merge -useContext -underBinder +onlyGivenNames v0 v1
  try clear_value v0
  have h2 : Keeps s v1 := by
    unfold v1
    exact (State.strike_keeps ..)
  clear_value v1
  extract_lets -merge -useContext -underBinder +onlyGivenNames v3 v4 v5 v6 v7 v8
  try clear_value v8; try clear_value v7; try clear_value v6; try clear_value v5; try clear_value v4; try clear_value v3
  split
  · extract_lets -merge -useContext -underBinder +onlyGivenNames v9 v10
    try clear_value v9
    have h11 : Keeps s v10 := by
      unfold v10
      exact .trans h2 (State.setChan_keeps ..)
    clear_value v10
    extract_lets -merge -useContext -underBinder +onlyGivenNames v12
    have h13 : Keeps s v12 := by
      unfold v12
      split
      · exact .trans h11 (State.violation_keeps ..)
      · exact .trans (.trans h11 (State.scrubLine_keeps ..)) (State.retryPush_keeps ..)
    clear_value v12
    refine KeepsOut.next ?_
    split
    · exact .trans h13 (State.event_keeps ..)
    · exact h13
  · refine KeepsOut.next ?_
    exact h2

theorem State.sramLost_keeps (s : State) (array : Nat) (i : Nat) :
    Keeps s (s.sramLost array i) := by
  unfold State.sramLost
  split
  · exact Keeps.refl _
  · split
    · refine Keeps.of_mk ?_ rfl rfl (Nat.le_refl _) rfl rfl rfl rfl rfl rfl
      exact Keeps.refl _
    · extract_lets -merge -useContext -underBinder +onlyGivenNames v0 v1 v2
      try clear_value v2; try clear_value v1; try clear_value v0
      refine Keeps.of_mk ?_ rfl rfl (Nat.le_refl _) rfl rfl rfl rfl rfl rfl
      exact Keeps.refl _
    · refine Keeps.of_mk ?_ rfl rfl (Nat.le_refl _) rfl rfl rfl rfl rfl rfl
      exact Keeps.refl _
    · extract_lets -merge -useContext -underBinder +onlyGivenNames v3 v4
      try clear_value v4; try clear_value v3
      refine Keeps.of_mk ?_ rfl rfl (Nat.le_refl _) rfl rfl rfl rfl rfl rfl
      exact Keeps.refl _
    · refine Keeps.of_mk ?_ rfl rfl (Nat.le_refl _) rfl rfl rfl rfl rfl rfl
      exact Keeps.refl _
    · extract_lets -merge -useContext -underBinder +onlyGivenNames v5 x7 x8 v6
      try clear_value v6; try clear_value v5
      refine Keeps.of_mk ?_ rfl rfl (Nat.le_refl _) rfl rfl rfl rfl rfl rfl
      exact Keeps.refl _

theorem execSramScrub_keeps (array : Fin 6) (index : Nat) (lost : Bool) (s : State) :
    KeepsOut s (execSramScrub array index lost s) := by
  unfold execSramScrub
  split
  · split
    · refine KeepsOut.next ?_
      exact .trans (.trans ((State.bump_keeps ..)) (State.event_keeps ..)) (State.sramLost_keeps ..)
    · refine KeepsOut.next ?_
      exact (State.bump_keeps ..)
  · refine KeepsOut.next ?_
    exact Keeps.refl _

theorem State.dmcWmWrite_keeps (s : State) (v : Word) :
    Keeps s (s.dmcWmWrite v) := by
  unfold State.dmcWmWrite
  extract_lets -merge -useContext -underBinder +onlyGivenNames v0 v1
  try clear_value v1; try clear_value v0
  split
  · exact Keeps.refl _
  · refine Keeps.foldl ?_ (fun y2 _ => ?_)
    · exact (State.store_keeps ..)
    · exact (State.drainLevel_keeps ..)

theorem execDmcWmWrite_keeps (b : BusWrite) (s : State) :
    KeepsOut s (execDmcWmWrite b s) := by
  unfold execDmcWmWrite
  refine KeepsOut.next ?_
  refine Keeps.trans ?_ (State.busWrite_keeps (heff := fun y0 _ => ?_) ..)
  · exact Keeps.refl _
  · exact (State.dmcWmWrite_keeps ..)

theorem State.errAddrRead_keeps (s : State) (m : Nat) :
    Keeps s (s.errAddrRead m).1 := by
  unfold State.errAddrRead
  exact (State.latchWord_keeps ..)

theorem execDmcErrAddrLoRead_keeps (b : BusRead) (s : State) :
    KeepsOut s (execDmcErrAddrLoRead b s) := by
  unfold execDmcErrAddrLoRead
  refine KeepsOut.next ?_
  refine Keeps.trans ?_ (State.busRead_keeps (heff := fun y0 => ?_) ..)
  · exact Keeps.refl _
  · exact (State.errAddrRead_keeps ..)

theorem State.violAddrRead_keeps (s : State) (t : Nat) (m : Nat) :
    Keeps s (s.violAddrRead t m).1 := by
  unfold State.violAddrRead
  exact (State.latchWord_keeps ..)

theorem execPrcViolAddrLoRead_keeps (target : Fin 23) (b : BusRead) (s : State) :
    KeepsOut s (execPrcViolAddrLoRead target b s) := by
  unfold execPrcViolAddrLoRead
  refine KeepsOut.next ?_
  refine Keeps.trans ?_ (State.busRead_keeps (heff := fun y0 => ?_) ..)
  · exact Keeps.refl _
  · exact (State.violAddrRead_keeps ..)

theorem State.dmcCntClr_keeps (s : State) (v : Word) :
    Keeps s (s.dmcCntClr v) := by
  unfold State.dmcCntClr
  split
  · refine Keeps.foldl ?_ (fun y0 _ => ?_)
    · exact (State.clrRegs_keeps ..)
    · exact (State.clrRegs_keeps ..)
  · exact Keeps.refl _

theorem execDmcCntClr_keeps (b : BusWrite) (s : State) :
    KeepsOut s (execDmcCntClr b s) := by
  unfold execDmcCntClr
  refine KeepsOut.next ?_
  refine Keeps.trans ?_ (State.busWrite_keeps (heff := fun y0 _ => ?_) ..)
  · exact Keeps.refl _
  · exact (State.dmcCntClr_keeps ..)

theorem State.readWord_keeps (s : State) (m : Nat) (off : Nat) :
    Keeps s (s.readWord m off).1 := by
  unfold State.readWord
  split
  · exact (State.wallLoRead_keeps ..)
  · split
    · exact (State.frameLoRead_keeps ..)
    · split
      · exact (State.hresLoRead_keeps ..)
      · split
        · exact (State.errAddrRead_keeps ..)
        · split
          · exact (State.violAddrRead_keeps ..)
          · split
            · exact (State.spotRead_keeps ..)
            · split
              · exact (State.chartRead_keeps ..)
              · split
                · exact (State.mboxRead_keeps ..)
                · split
                  · exact (State.drawn_keeps ..)
                  · split
                    · exact (State.unlatch_keeps ..)
                    · exact Keeps.refl _

theorem State.rcRead_keeps (s : State) (off : Nat) :
    Keeps s (s.rcRead off).1 := by
  unfold State.rcRead
  extract_lets -merge -useContext -underBinder +onlyGivenNames v0
  try clear_value v0
  split
  · exact Keeps.refl _
  · split
    · exact Keeps.refl _
    · split
      · exact (State.violation_keeps ..)
      · extract_lets -merge -useContext -underBinder +onlyGivenNames v1
        have h2 : Keeps s v1.1 := by
          unfold v1
          exact (State.readWord_keeps ..)
        clear_value v1
        exact h2

theorem State.rcReadNext_keeps (s : State) :
    Keeps s (s.rcReadNext) := by
  unfold State.rcReadNext
  split
  · exact Keeps.refl _
  · extract_lets -merge -useContext -underBinder +onlyGivenNames v0
    have h1 : Keeps s v0.1 := by
      unfold v0
      exact (State.rcRead_keeps ..)
    clear_value v0
    extract_lets -merge -useContext -underBinder +onlyGivenNames v2
    have h3 : Keeps s v2 := by
      unfold v2
      split
      · exact h1
      · exact .trans h1 (State.bump_keeps ..)
    clear_value v2
    refine Keeps.of_mk ?_ rfl rfl (Nat.le_refl _) rfl rfl rfl rfl rfl rfl
    exact h3

theorem State.rcTick_keeps (s : State) :
    Keeps s (s.rcTick) := by
  unfold State.rcTick
  split
  · exact (State.rcReadNext_keeps ..)
  · exact Keeps.refl _

theorem State.rcResult_keeps (s : State) (status : Nat) (snap : Nat) (buf : Nat) (frame : Nat) (n : Nat) (errs : Nat) :
    Keeps s (s.rcResult status snap buf frame n errs) := by
  unfold State.rcResult
  exact .trans ((State.mboxResult_keeps ..)) (State.event_keeps ..)

theorem State.rcTrigger_keeps (s : State) :
    Keeps s (s.rcTrigger) := by
  unfold State.rcTrigger
  split
  · exact (State.bump_keeps ..)
  · split
    · exact Keeps.refl _
    · extract_lets -merge -useContext -underBinder +onlyGivenNames v0 x2 v1
      try clear_value v0
      have h3 : Keeps s v1 := by
        unfold v1
        refine Keeps.of_mk ?_ rfl rfl (Nat.le_refl _) rfl rfl rfl rfl rfl rfl
        exact Keeps.refl _
      clear_value v1
      split
      · exact .trans (.trans (.trans h3 (State.returnBuffer_keeps ..)) (State.bump_keeps ..)) (State.rcResult_keeps ..)
      · extract_lets -merge -useContext -underBinder +onlyGivenNames x5 x6 v4
        have h7 : Keeps s v4 := by
          unfold v4
          have h8 : Keeps s x5 := by
            unfold x5
            exact .trans h3 (State.bump_keeps ..)
          refine Keeps.of_mk ?_ rfl rfl (Nat.le_refl _) rfl rfl rfl rfl rfl rfl
          exact h8
        clear_value v4
        exact .trans h7 (State.rcTick_keeps ..)

theorem execRollCallTrigger_keeps (s : State) :
    KeepsOut s (execRollCallTrigger s) := by
  unfold execRollCallTrigger
  split
  · refine KeepsOut.next ?_
    exact Keeps.refl _
  · split
    · split
      · refine KeepsOut.next ?_
        refine Keeps.trans ?_ (State.rcTrigger_keeps ..)
        refine Keeps.of_mk ?_ rfl rfl (Nat.le_refl _) rfl rfl rfl rfl rfl rfl
        exact Keeps.refl _
      · refine KeepsOut.next ?_
        exact Keeps.refl _
    · extract_lets -merge -useContext -underBinder +onlyGivenNames v0
      try clear_value v0
      split
      · refine KeepsOut.next ?_
        refine Keeps.trans ?_ (State.rcTrigger_keeps ..)
        refine Keeps.of_mk ?_ rfl rfl (Nat.le_refl _) rfl rfl rfl rfl rfl rfl
        exact Keeps.refl _
      · refine KeepsOut.next ?_
        exact Keeps.refl _

theorem State.rcCtrlWrite_keeps (s : State) (v : Word) :
    Keeps s (s.rcCtrlWrite v) := by
  unfold State.rcCtrlWrite
  extract_lets -merge -useContext -underBinder +onlyGivenNames v0 v1 v2
  try clear_value v1; try clear_value v0
  have h3 : Keeps s v2 := by
    unfold v2
    exact (State.store_keeps ..)
  clear_value v2
  extract_lets -merge -useContext -underBinder +onlyGivenNames v4 x6 v5
  try clear_value v4
  have h7 : Keeps s v5 := by
    unfold v5
    split
    · refine Keeps.of_mk ?_ rfl rfl (Nat.le_refl _) rfl rfl rfl rfl rfl rfl
      exact h3
    · exact h3
  clear_value v5
  extract_lets -merge -useContext -underBinder +onlyGivenNames x9 v8
  have h10 : Keeps s v8 := by
    unfold v8
    split
    · refine Keeps.of_mk ?_ rfl rfl (Nat.le_refl _) rfl rfl rfl rfl rfl rfl
      exact h7
    · exact h7
  clear_value v8
  split
  · exact .trans h10 (State.rcTrigger_keeps ..)
  · exact h10

theorem execRcNow_keeps (b : BusWrite) (s : State) :
    KeepsOut s (execRcNow b s) := by
  unfold execRcNow
  refine KeepsOut.next ?_
  refine Keeps.trans ?_ (State.busWrite_keeps (heff := fun y0 _ => ?_) ..)
  · exact Keeps.refl _
  · exact (State.rcCtrlWrite_keeps ..)

theorem State.rcWrites_keeps (s : State) (x : Nat) (content : List Byte) :
    Keeps s (s.rcWrites x content).1 := by
  unfold State.rcWrites
  extract_lets -merge -useContext -underBinder +onlyGivenNames v0
  have h1 : Keeps s v0.1 := by
    unfold v0
    exact (State.devWrite_keeps ..)
  clear_value v0
  split
  · exact h1
  · extract_lets -merge -useContext -underBinder +onlyGivenNames v2
    have h3 : Keeps s v2.1 := by
      unfold v2
      exact .trans h1 (State.devWrite_keeps ..)
    clear_value v2
    split
    · exact h3
    · exact .trans h3 (State.devWrite_keeps ..)

theorem State.rcReturn_keeps (s : State) (x : Snapshot) (status : Nat) :
    Keeps s (s.rcReturn x status) := by
  unfold State.rcReturn
  extract_lets -merge -useContext -underBinder +onlyGivenNames v0 v1
  try clear_value v0
  have h2 : Keeps s v1 := by
    unfold v1
    exact (State.returnBuffer_keeps ..)
  clear_value v1
  refine Keeps.trans ?_ (State.rcResult_keeps ..)
  split
  · exact .trans h2 (State.bump_keeps ..)
  · exact h2

theorem execSnapshotDone_keeps (s : State) :
    KeepsOut s (execSnapshotDone s) := by
  unfold execSnapshotDone
  split
  · refine KeepsOut.next ?_
    exact Keeps.refl _
  · split
    · refine KeepsOut.next ?_
      exact Keeps.refl _
    · extract_lets -merge -useContext -underBinder +onlyGivenNames v0 v1 x3 v2
      try clear_value v1; try clear_value v0
      have h4 : Keeps s v2.1 := by
        unfold v2
        refine Keeps.trans ?_ (State.rcWrites_keeps ..)
        refine Keeps.of_mk ?_ rfl rfl (Nat.le_refl _) rfl rfl rfl rfl rfl rfl
        exact Keeps.refl _
      extract_lets -merge -useContext -underBinder +onlyGivenNames v5
      have h6 : Keeps s v5 := by
        unfold v5
        exact h4
      split
      · refine KeepsOut.next ?_
        exact .trans h6 (State.rcReturn_keeps ..)
      · split
        · refine KeepsOut.next ?_
          exact .trans h6 (State.rcReturn_keeps ..)
        · split
          · refine KeepsOut.next ?_
            exact .trans h6 (State.rcReturn_keeps ..)
          · split
            · refine KeepsOut.next ?_
              exact .trans h6 (State.rcReturn_keeps ..)
            · extract_lets -merge -useContext -underBinder +onlyGivenNames v7 v8
              try clear_value v7
              have h9 : Keeps s v8.1 := by
                unfold v8
                exact .trans h6 (State.devWrite_keeps ..)
              clear_value v8
              split
              · refine KeepsOut.next ?_
                exact .trans h9 (State.rcReturn_keeps ..)
              · refine KeepsOut.next ?_
                exact .trans (.trans (.trans h9 (State.dropExtent_keeps ..)) (State.post_keeps ..)) (State.rcResult_keeps ..)

theorem State.writeCore_keeps (s : State) (m : Nat) (off : Nat) (v : Word) :
    Keeps s (s.writeCore m off v) := by
  unfold State.writeCore
  refine .ite (State.secCtrlWrite_keeps ..) ?_
  refine .ite (State.lifecycleWrite_keeps ..) ?_
  refine .ite (State.imgPostWrite_keeps ..) ?_
  refine .ite (State.attPostWrite_keeps ..) ?_
  refine .ite (State.extendWrite_keeps ..) ?_
  refine .ite (State.asmkeyWrite_keeps ..) ?_
  refine .ite (State.asmkeyDataWrite_keeps ..) ?_
  refine .ite (State.secCntClrWrite_keeps ..) ?_
  refine .ite (State.gateWrite_keeps ..) ?_
  refine .ite (State.gateWrite_keeps ..) ?_
  refine .ite (State.rstBlockWrite_keeps ..) ?_
  refine .ite (State.rstBlockWrite_keeps ..) ?_
  refine .ite (State.rstDeviceWrite_keeps ..) ?_
  refine .ite (State.bootHoldWrite_keeps ..) ?_
  exact (State.store_keeps ..)

theorem State.writeHost_keeps (s : State) (m : Nat) (off : Nat) (v : Word) :
    Keeps s (s.writeHost m off v) := by
  unfold State.writeHost
  split
  · exact (State.evtStatusWrite_keeps ..)
  · split
    · exact (State.evtEnableWrite_keeps ..)
    · split
      · exact (State.softSet_keeps ..)
      · split
        · exact (State.hpCntClr_keeps ..)
        · split
          · exact (State.mboxAckWrite_keeps ..)
          · split
            · exact (State.rcCtrlWrite_keeps ..)
            · split
              · exact (State.rcPostWrite_keeps ..)
              · split
                · exact (State.rcCntClr_keeps ..)
                · exact (State.store_keeps ..)

theorem State.writeAsm_keeps (s : State) (off : Nat) (v : Word) :
    Keeps s (s.writeAsm off v) := by
  unfold State.writeAsm
  extract_lets -merge -useContext -underBinder +onlyGivenNames v0
  try clear_value v0
  split
  · exact (State.asmCtrlWrite_keeps ..)
  · split
    · exact (State.asmPost_keeps ..)
    · split
      · exact (State.asmPost_keeps ..)
      · split
        · exact (State.asmCntClr_keeps ..)
        · split
          · exact (State.detKeyWrite_keeps ..)
          · exact (State.store_keeps ..)

theorem State.writeLane_keeps (s : State) (off : Nat) (v : Word) :
    Keeps s (s.writeLane off v) := by
  unfold State.writeLane
  extract_lets -merge -useContext -underBinder +onlyGivenNames v0
  try clear_value v0
  split
  · exact (State.store_keeps ..)
  · split
    · exact (State.laneCtrlWrite_keeps ..)
    · split
      · exact (State.laneFirWrite_keeps ..)
      · split
        · exact (State.laneCntClr_keeps ..)
        · split
          · exact .trans ((State.lanePrbsWrite_keeps ..)) (State.lockFollow_keeps ..)
          · split
            · exact (State.laneInjectWrite_keeps ..)
            · exact (State.store_keeps ..)

theorem State.writeScene_keeps (s : State) (off : Nat) (v : Word) :
    Keeps s (s.writeScene off v) := by
  unfold State.writeScene
  refine .ite (State.decStoreWrite_keeps ..) ?_
  refine .ite (State.decCntClr_keeps ..) ?_
  refine .ite (State.hrSynCntClr_keeps ..) ?_
  refine .ite (State.pvPostWrite_keeps ..) ?_
  refine .ite (State.hrCntClr_keeps ..) ?_
  refine .ite (State.seqCtrlWrite_keeps ..) ?_
  refine .ite (State.seqCntClr_keeps ..) ?_
  refine .ite (State.geoMarginWrite_keeps ..) ?_
  refine .ite (State.plcCtrlWrite_keeps ..) ?_
  refine .ite (State.plcRebuildWrite_keeps ..) ?_
  refine .ite (State.plcLoadWrite_keeps ..) ?_
  refine .ite (State.plcCntClr_keeps ..) ?_
  exact (State.store_keeps ..)

theorem State.writeCam_keeps (s : State) (off : Nat) (v : Word) :
    Keeps s (s.writeCam off v) := by
  unfold State.writeCam
  extract_lets -merge -useContext -underBinder +onlyGivenNames v0
  try clear_value v0
  split
  · exact (State.camRxEnWrite_keeps ..)
  · split
    · exact (State.camRxCntClr_keeps ..)
    · split
      · exact (State.camEnWrite_keeps ..)
      · split
        · exact (State.camBindWrite_keeps ..)
        · split
          · exact (State.camCapWrite_keeps ..)
          · split
            · exact (State.camCntClr_keeps ..)
            · exact (State.store_keeps ..)

theorem State.writeTile_keeps (s : State) (m : Nat) (off : Nat) (v : Word) :
    Keeps s (s.writeTile m off v) := by
  unfold State.writeTile
  split
  · exact (State.finCtrlWrite_keeps ..)
  · split
    · exact (State.finResBaseWrite_keeps ..)
    · split
      · exact (State.gainLoadWrite_keeps ..)
      · split
        · exact (State.finCntClr_keeps ..)
        · split
          · exact (State.tlkCtrlWrite_keeps ..)
          · split
            · exact (State.tileEnWrite_keeps ..)
            · split
              · exact (State.tlkCntClr_keeps ..)
              · split
                · exact (State.hcmdHiWrite_keeps ..)
                · split
                  · exact (State.hresAckWrite_keeps ..)
                  · exact (State.store_keeps ..)

theorem State.writeAge_keeps (s : State) (off : Nat) (v : Word) :
    Keeps s (s.writeAge off v) := by
  unfold State.writeAge
  split
  · exact (State.rptCtrlWrite_keeps ..)
  · split
    · exact (State.ckptCtrlWrite_keeps ..)
    · split
      · exact (State.ckptPostWrite_keeps ..)
      · split
        · exact (State.restPostWrite_keeps ..)
        · split
          · exact (State.rptCntClr_keeps ..)
          · split
            · exact (State.calRunWrite_keeps ..)
            · split
              · exact (State.calCntClr_keeps ..)
              · split
                · exact (State.baseLoadWrite_keeps ..)
                · split
                  · exact (State.recLoadWrite_keeps ..)
                  · split
                    · exact (State.recPostWrite_keeps ..)
                    · exact (State.store_keeps ..)

theorem State.writeMem_keeps (s : State) (off : Nat) (v : Word) :
    Keeps s (s.writeMem off v) := by
  unfold State.writeMem
  split
  · exact (State.dmcCtrlWrite_keeps ..)
  · split
    · exact (State.dmcWmWrite_keeps ..)
    · split
      · exact (State.dmcCntClr_keeps ..)
      · split
        · exact (State.prcLockWrite_keeps ..)
        · exact (State.store_keeps ..)

theorem State.writeRest_keeps (s : State) (off : Nat) (v : Word) :
    Keeps s (s.writeRest off v) := by
  unfold State.writeRest
  refine .ite (State.satCtrlWrite_keeps ..) ?_
  refine .ite (State.satJobWrite_keeps ..) ?_
  refine .ite (State.satCntClrWrite_keeps ..) ?_
  refine .ite (State.bltOpWrite_keeps ..) ?_
  refine .ite (State.bltArmWrite_keeps ..) ?_
  refine .ite (State.bltCommitWrite_keeps ..) ?_
  refine .ite (State.bltCntClr_keeps ..) ?_
  refine .ite (State.thmCtrlWrite_keeps ..) ?_
  refine .ite (State.thmBadWrite_keeps ..) ?_
  refine .ite (State.thmBadWrite_keeps ..) ?_
  refine .ite (State.avsCtrlWrite_keeps ..) ?_
  refine .ite (State.avsLimitsWrite_keeps ..) ?_
  exact (State.store_keeps ..)

theorem State.regEffect_keeps (s : State) (m : Nat) (off : Nat) (v : Word) :
    Keeps s (s.regEffect m off v) := by
  unfold State.regEffect
  split
  · exact (State.writeCore_keeps ..)
  · split
    · exact (State.writeHost_keeps ..)
    · split
      · exact (State.writeAsm_keeps ..)
      · split
        · exact (State.writeLane_keeps ..)
        · split
          · exact (State.ctxWrite_keeps ..)
          · split
            · exact (State.writeScene_keeps ..)
            · split
              · exact Keeps.refl _
              · split
                · exact (State.writeCam_keeps ..)
                · split
                  · exact (State.writeTile_keeps ..)
                  · split
                    · exact (State.writeAge_keeps ..)
                    · split
                      · exact (State.writeMem_keeps ..)
                      · exact (State.writeRest_keeps ..)

theorem State.regWrite_keeps (s : State) (o : Nat) (b : BusWrite) :
    Keeps s (s.regWrite o b) := by
  unfold State.regWrite
  extract_lets -merge -useContext -underBinder +onlyGivenNames v0
  try clear_value v0
  split
  · split
    · exact (State.badAccess_keeps ..)
    · exact Keeps.refl _
  · split
    · split
      · exact (State.badAccess_keeps ..)
      · exact Keeps.refl _
    · refine Keeps.trans ?_ (State.busWrite_keeps (heff := fun y1 _ => ?_) ..)
      · exact Keeps.refl _
      · exact (State.regEffect_keeps ..)

theorem execRegisterWrite_keeps (off : BitVec 26) (b : RegWrite) (s : State) :
    KeepsOut s (execRegisterWrite off b s) := by
  unfold execRegisterWrite
  refine KeepsOut.next ?_
  refine Keeps.foldl ?_ (fun y0 _ => ?_)
  · exact (State.regWrite_keeps ..)
  · exact (State.regWrite_keeps ..)

theorem drainHeld_keeps (l : List HpItem) (s : State) : Keeps s (drainHeld l s) := by
  induction l generalizing s with
  | nil => exact Keeps.of_mk (Keeps.refl _) rfl rfl (Nat.le_refl _) rfl rfl rfl rfl rfl rfl
  | cons x l ih =>
    cases x with
    | post q a => exact Keeps.of_mk (Keeps.refl _) rfl rfl (Nat.le_refl _) rfl rfl rfl rfl rfl rfl
    | write x bs => exact (State.monitorWrite_keeps ..).trans (ih _)
    | reg off v be =>
      unfold drainHeld
      extract_lets -merge -useContext -underBinder +onlyGivenNames y
      have h : Keeps s y := by
        unfold y
        exact State.busReach_keeps (heff := fun _ _ => State.regEffect_keeps ..) ..
      clear_value y
      exact .ite (h.trans (ih _)) (Keeps.of_mk h rfl rfl (Nat.le_refl _) rfl rfl rfl rfl rfl rfl)

theorem State.drainFifo_keeps (s : State) :
    Keeps s (s.drainFifo) := by
  unfold State.drainFifo
  refine Keeps.trans ?_ (drainHeld_keeps ..)
  refine Keeps.of_mk ?_ rfl rfl (Nat.le_refl _) rfl rfl rfl rfl rfl rfl
  exact Keeps.refl _

theorem State.accessNow_keeps (s : State) (a : GateAccess) :
    Keeps s (s.accessNow a) := by
  unfold State.accessNow
  split
  · refine Keeps.trans ?_ (State.busApply_keeps (heff := fun y0 _ => ?_) ..)
    · exact Keeps.refl _
    · exact (State.regEffect_keeps ..)
  · refine Keeps.trans ?_ (State.readApply_keeps (heff := fun y1 => ?_) ..)
    · exact Keeps.refl _
    · exact (State.readWord_keeps ..)

theorem State.gateStep_keeps (s : State) :
    Keeps s (s.gateStep) := by
  unfold State.gateStep
  split
  · exact Keeps.refl _
  · extract_lets -merge -useContext -underBinder +onlyGivenNames v0 v1 v2
    try clear_value v2; try clear_value v1; try clear_value v0
    refine Keeps.foldl ?_ (fun y3 _ => ?_)
    · refine Keeps.of_mk ?_ rfl rfl (Nat.le_refl _) rfl rfl rfl rfl rfl rfl
      exact Keeps.refl _
    · exact (State.accessNow_keeps ..)

theorem State.ownerRead_keeps (s : State) (m : Nat) (x : Nat) :
    Keeps s (s.ownerRead m x).1 := by
  unfold State.ownerRead
  extract_lets -merge -useContext -underBinder +onlyGivenNames v0
  have h1 : Keeps s v0.1 := by
    unfold v0
    exact (State.devRead_keeps ..)
  clear_value v0
  exact h1

theorem State.postRefused_keeps (s : State) (z1 : QueueId) :
    Keeps s (s.postRefused z1) := by
  unfold State.postRefused
  split
  · exact (State.plcLoadError_keeps ..)
  · exact (State.gainError_keeps ..)
  · exact (State.setFlag_keeps ..)
  · exact (State.setFlag_keeps ..)
  · exact Keeps.refl _

theorem State.postAccepted_keeps (s : State) (x : Nat) (z2 : QueueId) :
    Keeps s (s.postAccepted x z2) := by
  unfold State.postAccepted
  split
  · exact (State.setPort_keeps ..)
  · exact (State.setPort_keeps ..)
  · refine Keeps.of_mk ?_ rfl rfl (Nat.le_refl _) rfl rfl rfl rfl rfl rfl
    exact Keeps.refl _
  · exact (State.plcLoadAccept_keeps ..)
  · exact (State.setPipe_keeps ..)
  · exact (State.gainAccept_keeps ..)
  · exact (State.baseAccept_keeps ..)
  · exact (State.recAccept_keeps ..)
  · refine Keeps.of_mk ?_ rfl rfl (Nat.le_refl _) rfl rfl rfl rfl rfl rfl
    exact Keeps.refl _
  · exact (State.ckptAccept_keeps ..)
  · exact (State.restAccept_keeps ..)
  · refine Keeps.of_mk ?_ rfl rfl (Nat.le_refl _) rfl rfl rfl rfl rfl rfl
    exact Keeps.refl _
  · exact (State.imgAccept_keeps ..)
  · exact (State.attAccept_keeps ..)

theorem State.refusePost_keeps (s : State) (q : QueueId) (x : Nat) (reason : Nat) :
    Keeps s (s.refusePost q x reason) := by
  unfold State.refusePost
  extract_lets -merge -useContext -underBinder +onlyGivenNames v0
  have h1 : Keeps s v0 := by
    unfold v0
    exact (State.latchFirst_keeps ..)
  clear_value v0
  extract_lets -merge -useContext -underBinder +onlyGivenNames v2
  have h3 : Keeps s v2 := by
    unfold v2
    split
    · exact h1
    · exact .trans h1 (State.ownerReturn_keeps ..)
  clear_value v2
  exact .trans (.trans h3 (State.event_keeps ..)) (State.postRefused_keeps ..)

theorem State.acceptPost_keeps (s : State) (q : QueueId) (owner x len : Nat) (h : s.postReason q owner x len = 0)
    (hl : 64 ≤ len) : Keeps s (s.acceptPost q x len) := by
  refine Keeps.trans (t := { s with host := { s.host with extents := s.host.extents ++ [Extent.mk x len q] } })
    ⟨rfl, rfl, Nat.le_refl _, id, id, fun k => ?_, fun _ _ h => h, fun _ _ h => h, fun _ _ h => h⟩ (State.postAccepted_keeps ..)
  unfold State.postReason at h
  split at h
  · cases h
  split at h
  · cases h
  split at h
  · cases h
  split at h
  · cases h
  rename_i h1 h2 h3 h4
  simp only [State.inExtent, List.any_eq_true, Bool.and_eq_true, decide_eq_true_eq, not_exists, not_and] at h3
  refine ⟨by simp; omega, fun e he => ?_, ?_⟩
  · rcases List.mem_append.1 he with he | he
    · exact k.2.1 e he
    · obtain rfl := List.mem_singleton.1 he
      exact ⟨hl, by simp only; omega⟩
  · refine List.pairwise_append.2 ⟨k.2.2, List.pairwise_singleton .., fun e he f hf => ?_⟩
    obtain rfl := List.mem_singleton.1 hf
    have := h3 e he
    unfold Apart
    simp only
    by_cases c : x < e.base + e.len
    · exact .inr (Nat.le_of_not_lt (this c))
    · exact .inl (Nat.le_of_not_lt c)

theorem State.postCheck_keeps (s : State) (q : QueueId) (x : Nat) :
    Keeps s (s.postCheck q x) := by
  unfold State.postCheck
  extract_lets -merge -useContext -underBinder +onlyGivenNames r k
  have h1 : Keeps s r.1 := State.ownerRead_keeps ..
  have h2 : 64 ≤ r.2.2 := by
    unfold r State.ownerRead ownerLen
    dsimp only
    split <;> omega
  refine dite (k = 0) (fun h => ?_) (fun h => ?_)
  · rw [if_pos h]
    exact h1.trans (State.acceptPost_keeps _ _ _ _ _ h h2)
  · rw [if_neg h]
    exact h1.trans (State.refusePost_keeps ..)

theorem execPostCheck_keeps (s : State) :
    KeepsOut s (execPostCheck s) := by
  unfold execPostCheck
  split
  · split
    · extract_lets -merge -useContext -underBinder +onlyGivenNames x1 v0
      have h2 : Keeps s v0 := by
        unfold v0
        refine Keeps.trans ?_ (State.postCheck_keeps ..)
        refine Keeps.of_mk ?_ rfl rfl (Nat.le_refl _) rfl rfl rfl rfl rfl rfl
        exact Keeps.refl _
      clear_value v0
      refine KeepsOut.next ?_
      refine Keeps.trans ?_ (State.drainFifo_keeps ..)
      refine Keeps.of_mk ?_ rfl rfl (Nat.le_refl _) rfl rfl rfl rfl rfl rfl
      exact h2
    · refine KeepsOut.next ?_
      exact Keeps.refl _
  · refine KeepsOut.next ?_
    exact Keeps.refl _

theorem State.detentionTick_keeps (s : State) :
    Keeps s (s.detentionTick) := by
  unfold State.detentionTick
  split
  · refine Keeps.foldl ?_ (fun y0 _ => ?_)
    · exact Keeps.refl _
    · split
      · exact (State.setFld_keeps ..)
      · exact Keeps.refl _
  · exact Keeps.refl _

theorem State.tagStalls_keeps (s : State) :
    Keeps s (s.tagStalls) := by
  unfold State.tagStalls
  refine Keeps.foldl ?_ (fun y0 _ => ?_)
  · exact Keeps.refl _
  · extract_lets -merge -useContext -underBinder +onlyGivenNames v1
    try clear_value v1
    split
    · exact (State.bump_keeps ..)
    · exact Keeps.refl _

theorem State.readStep_keeps (s : State) :
    Keeps s (s.readStep) := by
  unfold State.readStep
  split
  · exact Keeps.refl _
  · split
    · exact Keeps.refl _
    · extract_lets -merge -useContext -underBinder +onlyGivenNames x1 v0
      have h2 : Keeps s v0 := by
        unfold v0
        refine Keeps.of_mk ?_ rfl rfl (Nat.le_refl _) rfl rfl rfl rfl rfl rfl
        exact Keeps.refl _
      clear_value v0
      extract_lets -merge -useContext -underBinder +onlyGivenNames x4 v3
      have h5 : Keeps s v3 := by
        unfold v3
        split
        · refine Keeps.of_mk ?_ rfl rfl (Nat.le_refl _) rfl rfl rfl rfl rfl rfl
          exact h2
        · refine Keeps.trans ?_ (State.readApply_keeps (heff := fun y6 => ?_) ..)
          · exact h2
          · exact (State.readWord_keeps ..)
      clear_value v3
      refine Keeps.of_mk ?_ rfl rfl (Nat.le_refl _) rfl rfl rfl rfl rfl rfl
      exact h5

theorem State.windowStep_keeps (s : State) :
    Keeps s (s.windowStep) := by
  unfold State.windowStep
  extract_lets -merge -useContext -underBinder +onlyGivenNames x1 v0
  have h2 : Keeps s v0 := by
    unfold v0
    split
    · exact Keeps.refl _
    · refine Keeps.foldl ?_ (fun y3 _ => ?_)
      · refine Keeps.of_mk ?_ rfl rfl (Nat.le_refl _) rfl rfl rfl rfl rfl rfl
        exact Keeps.refl _
      · exact (State.returnLater_keeps ..)
  clear_value v0
  split
  · exact h2
  · exact h2
  · split
    · exact .trans h2 (State.drainFifo_keeps ..)
    · exact h2

theorem State.tick_keeps (s : State) : Keeps { s with now := s.now + 1 } s.tick := by
  unfold State.tick
  extract_lets -merge -useContext -underBinder +onlyGivenNames c x1 v0 v1
  have h : Keeps { s with now := s.now + 1 } v0 :=
    Keeps.of_mk (Keeps.refl _) rfl rfl (Nat.le_refl _) rfl rfl rfl rfl rfl rfl
  clear_value v0
  have h1 : Keeps { s with now := s.now + 1 } v1 := by
    unfold v1
    exact .ite h (h.trans (State.tagStalls_keeps ..))
  clear_value v1
  extract_lets -merge -useContext -underBinder +onlyGivenNames v2
  have h2 : Keeps { s with now := s.now + 1 } v2 := by
    unfold v2
    exact .ite (h1.trans (State.portStep_keeps ..)) h1
  clear_value v2
  have h3 : Keeps { s with now := s.now + 1 } (if v2.live 0 then v2.detentionTick else v2) :=
    .ite (h2.trans (State.detentionTick_keeps ..)) h2
  exact (((((h3.trans (State.rcTick_keeps ..)).trans (State.gateStep_keeps ..)).trans (State.readStep_keeps ..)).trans
    (State.windowStep_keeps ..))).trans (State.noteQueues_keeps ..)

end Sys2Proof.Machine
end

