-- ==== Sys2Proof/Laws/KeepsExec.lean ====
section
/-!
SUPPORT. What `Keeps` says of exec, arm by arm, and what follows for a step: the invariants of Safety.lean.
-/
namespace Sys2Proof.Machine

open Sys2Proof.Safety

theorem exec_keeps (i : Instr) (s : State) : KeepsOut s (exec i s) := by
  cases i with
  | slotStart => exact execSlotStart_keeps ..
  | flip => exact execFlip_keeps ..
  | holdoverFlip => exact execHoldoverFlip_keeps ..
  | freeRunFlip => exact execFreeRunFlip_keeps ..
  | chunkLaunch _ _ => exact execChunkLaunch_keeps ..
  | completenessCheck _ _ => exact execCompletenessCheck_keeps ..
  | codewordReceived _ _ => exact execCodewordReceived_keeps ..
  | alignmentHunt _ _ => exact execAlignmentHunt_keeps ..
  | lockLost _ => exact execLockLost_keeps ..
  | sigLost _ => exact execSigLost_keeps ..
  | stateReq _ _ => exact execStateReq_keeps ..
  | stateTransition _ => exact execStateTransition_keeps ..
  | laneStateComplete _ => exact execLaneStateComplete_keeps ..
  | laneTxfirWrite _ _ => exact execLaneTxfirWrite_keeps ..
  | txCodewordBoundary _ => exact execTxCodewordBoundary_keeps ..
  | chkLock _ _ => exact execChkLock_keeps ..
  | injectGo _ _ => exact execInjectGo_keeps ..
  | injection _ => exact execInjection_keeps ..
  | laneCntClr _ _ => exact execLaneCntClr_keeps ..
  | upstreamBurst _ _ => exact execUpstreamBurst_keeps ..
  | packet _ _ => exact execPacket_keeps ..
  | filterLookup _ _ => exact execFilterLookup_keeps ..
  | tagCheck _ => exact execTagCheck_keeps ..
  | lossDeclared => exact execLossDeclared_keeps ..
  | repairExpiry => exact execRepairExpiry_keeps ..
  | bellTimeout _ => exact execBellTimeout_keeps ..
  | bellSwitch => exact execBellSwitch_keeps ..
  | joinedHoldExpiry _ => exact execJoinedHoldExpiry_keeps ..
  | detentionExpiry _ => exact execDetentionExpiry_keeps ..
  | asmLeave _ _ => exact execAsmLeave_keeps ..
  | rejoin _ _ => exact execRejoin_keeps ..
  | portEnWrite _ _ => exact execPortEnWrite_keeps ..
  | lossHoldWrite _ _ => exact execLossHoldWrite_keeps ..
  | asmDnqPost _ _ => exact execAsmDnqPost_keeps ..
  | asmUpqPost _ _ => exact execAsmUpqPost_keeps ..
  | asmWallLoRead _ => exact execAsmWallLoRead_keeps ..
  | asmCntClr _ _ => exact execAsmCntClr_keeps ..
  | decoderAssign _ => exact execDecoderAssign_keeps ..
  | decoderStart _ => exact execDecoderStart_keeps ..
  | publish _ => exact execPublish_keeps ..
  | sliceDeadline _ _ _ => exact execSliceDeadline_keeps ..
  | spliceTest => exact execSpliceTest_keeps ..
  | rowSplice => exact execRowSplice_keeps ..
  | decStoreWrite _ => exact execDecStoreWrite_keeps ..
  | decCntClr _ => exact execDecCntClr_keeps ..
  | samplerRequest _ _ _ _ => exact execSamplerRequest_keeps ..
  | pvDone => exact execPvDone_keeps ..
  | hrPvPost _ => exact execHrPvPost_keeps ..
  | hrCntClr _ _ => exact execHrCntClr_keeps ..
  | hrSynCntClr _ => exact execHrSynCntClr_keeps ..
  | nop _ _ => exact execNop_keeps ..
  | br _ _ => exact execBr_keeps ..
  | jmp _ _ => exact execJmp_keeps ..
  | call _ _ => exact execCall_keeps ..
  | ret _ _ => exact execRet_keeps ..
  | exit _ _ => exact execExit_keeps ..
  | trap _ _ => exact execTrap_keeps ..
  | sadd _ _ => exact execSadd_keeps ..
  | ssub _ _ => exact execSsub_keeps ..
  | smul _ _ => exact execSmul_keeps ..
  | sand _ _ => exact execSand_keeps ..
  | sor _ _ => exact execSor_keeps ..
  | sxor _ _ => exact execSxor_keeps ..
  | sshl _ _ => exact execSshl_keeps ..
  | sshr _ _ => exact execSshr_keeps ..
  | smin _ _ => exact execSmin_keeps ..
  | smax _ _ => exact execSmax_keeps ..
  | smov _ _ => exact execSmov_keeps ..
  | smfsr _ _ => exact execSmfsr_keeps ..
  | scmp _ _ => exact execScmp_keeps ..
  | sgetl _ _ => exact execSgetl_keeps ..
  | vadd _ _ => exact execVadd_keeps ..
  | vsub _ _ => exact execVsub_keeps ..
  | vmul _ _ => exact execVmul_keeps ..
  | vmad _ _ => exact execVmad_keeps ..
  | vmin _ _ => exact execVmin_keeps ..
  | vmax _ _ => exact execVmax_keeps ..
  | vabs _ _ => exact execVabs_keeps ..
  | vneg _ _ => exact execVneg_keeps ..
  | vand _ _ => exact execVand_keeps ..
  | vor _ _ => exact execVor_keeps ..
  | vxor _ _ => exact execVxor_keeps ..
  | vshl _ _ => exact execVshl_keeps ..
  | vshr _ _ => exact execVshr_keeps ..
  | vmov _ _ => exact execVmov_keeps ..
  | vsel _ _ => exact execVsel_keeps ..
  | vshfl _ _ => exact execVshfl_keeps ..
  | vrcp _ _ => exact execVrcp_keeps ..
  | vsqrt _ _ => exact execVsqrt_keeps ..
  | vrsq _ _ => exact execVrsq_keeps ..
  | vfloor _ _ => exact execVfloor_keeps ..
  | vsat _ _ => exact execVsat_keeps ..
  | vcvt _ _ => exact execVcvt_keeps ..
  | vcmp _ _ => exact execVcmp_keeps ..
  | pand _ _ => exact execPand_keeps ..
  | por _ _ => exact execPor_keeps ..
  | pxor _ _ => exact execPxor_keeps ..
  | pnot _ _ => exact execPnot_keeps ..
  | pset _ _ => exact execPset_keeps ..
  | pget _ _ => exact execPget_keeps ..
  | pcnt _ _ => exact execPcnt_keeps ..
  | ldv _ _ => exact execLdv_keeps ..
  | stv _ _ => exact execStv_keeps ..
  | ldb _ _ => exact execLdb_keeps ..
  | stb _ _ => exact execStb_keeps ..
  | lds _ _ => exact execLds_keeps ..
  | sts _ _ => exact execSts_keeps ..
  | atadd _ _ => exact execAtadd_keeps ..
  | strm _ _ => exact execStrm_keeps ..
  | streamComplete _ _ => exact execStreamComplete_keeps ..
  | swait _ _ => exact execSwait_keeps ..
  | seat _ _ => exact execSeat_keeps ..
  | smp _ _ => exact execSmp_keeps ..
  | blendPm _ _ => exact execBlendPm_keeps ..
  | blendSt _ _ => exact execBlendSt_keeps ..
  | stRing _ _ => exact execStRing_keeps ..
  | bar _ _ => exact execBar_keeps ..
  | barRelease _ _ => exact execBarRelease_keeps ..
  | fence _ _ => exact execFence_keeps ..
  | msg _ _ => exact execMsg_keeps ..
  | slateTNop _ => exact execSlateTNop_keeps ..
  | set _ => exact execSet_keeps ..
  | add _ => exact execAdd_keeps ..
  | sub _ => exact execSub_keeps ..
  | and _ => exact execAnd_keeps ..
  | or _ => exact execOr_keeps ..
  | shr _ => exact execShr_keeps ..
  | rdsr _ => exact execRdsr_keeps ..
  | slateTBr _ => exact execSlateTBr_keeps ..
  | waitrow _ => exact execWaitrow_keeps ..
  | waitbell _ => exact execWaitbell_keeps ..
  | dispatch _ => exact execDispatch_keeps ..
  | bindl _ => exact execBindl_keeps ..
  | commit _ => exact execCommit_keeps ..
  | mode _ => exact execMode_keeps ..
  | slateTFlip _ => exact execSlateTFlip_keeps ..
  | rcvm _ => exact execRcvm_keeps ..
  | signal _ => exact execSignal_keeps ..
  | seqEnWrite _ => exact execSeqEnWrite_keeps ..
  | seqRestart _ => exact execSeqRestart_keeps ..
  | freeRunEnWrite _ => exact execFreeRunEnWrite_keeps ..
  | seqFrameLoRead _ => exact execSeqFrameLoRead_keeps ..
  | seqCntClr _ => exact execSeqCntClr_keeps ..
  | geoMarginArm _ => exact execGeoMarginArm_keeps ..
  | plcRebuild _ => exact execPlcRebuild_keeps ..
  | plcLoad _ => exact execPlcLoad_keeps ..
  | chartUpdateComplete _ => exact execChartUpdateComplete_keeps ..
  | loadCopyDone _ => exact execLoadCopyDone_keeps ..
  | fit _ => exact execFit_keeps ..
  | fitStale _ => exact execFitStale_keeps ..
  | chartWindowRead _ _ => exact execChartWindowRead_keeps ..
  | plcCntClr _ => exact execPlcCntClr_keeps ..
  | csi2Packet _ _ _ _ _ => exact execCsi2Packet_keeps ..
  | spotPublish _ => exact execSpotPublish_keeps ..
  | camBind _ _ => exact execCamBind_keeps ..
  | camUnbind _ _ => exact execCamUnbind_keeps ..
  | camEnWrite _ _ => exact execCamEnWrite_keeps ..
  | camRxEnWrite _ => exact execCamRxEnWrite_keeps ..
  | camCapPost _ _ => exact execCamCapPost_keeps ..
  | spotResultRead _ _ => exact execSpotResultRead_keeps ..
  | camCntClr _ _ => exact execCamCntClr_keeps ..
  | camRxCntClr _ => exact execCamRxCntClr_keeps ..
  | finGainLoad _ => exact execFinGainLoad_keeps ..
  | gainCopy => exact execGainCopy_keeps ..
  | noTemp _ => exact execNoTemp_keeps ..
  | finArm _ => exact execFinArm_keeps ..
  | finResBaseWrite _ => exact execFinResBaseWrite_keeps ..
  | finCntClr _ => exact execFinCntClr_keeps ..
  | cmdHandover _ => exact execCmdHandover_keeps ..
  | cmdResult _ => exact execCmdResult_keeps ..
  | cmdTimeout _ => exact execCmdTimeout_keeps ..
  | retStatus _ => exact execRetStatus_keeps ..
  | fault _ => exact execFault_keeps ..
  | ident _ => exact execIdent_keeps ..
  | hcmdGo _ => exact execHcmdGo_keeps ..
  | tlkHresAck _ => exact execTlkHresAck_keeps ..
  | tlkHresLoRead _ => exact execTlkHresLoRead_keeps ..
  | tileEnWrite _ => exact execTileEnWrite_keeps ..
  | tileReset _ => exact execTileReset_keeps ..
  | tileEnDriveLow _ => exact execTileEnDriveLow_keeps ..
  | tileResetHoldEnd _ => exact execTileResetHoldEnd_keeps ..
  | tileDown _ => exact execTileDown_keeps ..
  | referenceCheck _ _ => exact execReferenceCheck_keeps ..
  | tlkArm _ => exact execTlkArm_keeps ..
  | tlkCntClr _ => exact execTlkCntClr_keeps ..
  | trimMeasurement _ => exact execTrimMeasurement_keeps ..
  | calElec _ => exact execCalElec_keeps ..
  | calSweep _ => exact execCalSweep_keeps ..
  | calRec _ => exact execCalRec_keeps ..
  | recordWrite => exact execRecordWrite_keeps ..
  | calRecPost _ => exact execCalRecPost_keeps ..
  | calRecLoad _ => exact execCalRecLoad_keeps ..
  | calBaseLoad _ => exact execCalBaseLoad_keeps ..
  | baseLoadDone _ => exact execBaseLoadDone_keeps ..
  | checkpoint => exact execCheckpoint_keeps ..
  | ckptNow _ => exact execCkptNow_keeps ..
  | checkpointDone => exact execCheckpointDone_keeps ..
  | rptCkptPost _ => exact execRptCkptPost_keeps ..
  | rptRestPost _ => exact execRptRestPost_keeps ..
  | rptClear _ => exact execRptClear_keeps ..
  | rptCntClr _ => exact execRptCntClr_keeps ..
  | calCntClr _ => exact execCalCntClr_keeps ..
  | dmcRequest _ _ _ _ _ => exact execDmcRequest_keeps ..
  | channelCommand _ _ => exact execChannelCommand_keeps ..
  | forcedDrain _ => exact execForcedDrain_keeps ..
  | flushAck _ => exact execFlushAck_keeps ..
  | refresh _ _ _ => exact execRefresh_keeps ..
  | training _ _ => exact execTraining_keeps ..
  | periodicRetrain _ _ => exact execPeriodicRetrain_keeps ..
  | dmcRetrain _ => exact execDmcRetrain_keeps ..
  | parityAlert _ => exact execParityAlert_keeps ..
  | scrubRead _ _ => exact execScrubRead_keeps ..
  | sramScrub _ _ _ => exact execSramScrub_keeps ..
  | dmcWmWrite _ => exact execDmcWmWrite_keeps ..
  | dmcErrAddrLoRead _ => exact execDmcErrAddrLoRead_keeps ..
  | prcViolAddrLoRead _ _ => exact execPrcViolAddrLoRead_keeps ..
  | prcLockWrite _ _ => exact execPrcLockWrite_keeps ..
  | prcLockCntClr _ _ => exact execPrcLockCntClr_keeps ..
  | dmcCntClr _ => exact execDmcCntClr_keeps ..
  | registerWrite _ _ => exact execRegisterWrite_keeps ..
  | perst => exact execPerst_keeps ..
  | flr => exact execFlr_keeps ..
  | windowWrite _ _ => exact execWindowWrite_keeps ..
  | postCheck => exact execPostCheck_keeps ..
  | mboxAck _ _ => exact execMboxAck_keeps ..
  | mboxRead _ _ => exact execMboxRead_keeps ..
  | rollCallTrigger => exact execRollCallTrigger_keeps ..
  | rcNow _ => exact execRcNow_keeps ..
  | snapshotDone => exact execSnapshotDone_keeps ..
  | rcPost _ => exact execRcPost_keeps ..
  | rcCntClr _ => exact execRcCntClr_keeps ..
  | evtStatusClear _ _ => exact execEvtStatusClear_keeps ..
  | evtEnableWrite _ _ => exact execEvtEnableWrite_keeps ..
  | evtSoftSet _ => exact execEvtSoftSet_keeps ..
  | gpioEdge _ => exact execGpioEdge_keeps ..
  | msixMessage _ _ => exact execMsixMessage_keeps ..
  | hpCntClr _ => exact execHpCntClr_keeps ..
  | satJobGo _ => exact execSatJobGo_keeps ..
  | satAbort _ => exact execSatAbort_keeps ..
  | jobStart _ => exact execJobStart_keeps ..
  | jobEnd _ => exact execJobEnd_keeps ..
  | satCntClr _ => exact execSatCntClr_keeps ..
  | bltOpGo _ => exact execBltOpGo_keeps ..
  | bltAbort _ => exact execBltAbort_keeps ..
  | blitBurst => exact execBlitBurst_keeps ..
  | bltCommitGo _ => exact execBltCommitGo_keeps ..
  | synchronisation => exact execSynchronisation_keeps ..
  | bltPlaneArm _ => exact execBltPlaneArm_keeps ..
  | bltCntClr _ => exact execBltCntClr_keeps ..
  | rootLockDetect => exact execRootLockDetect_keeps ..
  | rootStable => exact execRootStable_keeps ..
  | rootLockLoss => exact execRootLockLoss_keeps ..
  | domainStable _ => exact execDomainStable_keeps ..
  | engineTargetChange => exact execEngineTargetChange_keeps ..
  | quiesceDone => exact execQuiesceDone_keeps ..
  | ratioRampStep => exact execRatioRampStep_keeps ..
  | clkGateWrite _ _ => exact execClkGateWrite_keeps ..
  | gateClose _ => exact execGateClose_keeps ..
  | gateTimeout _ => exact execGateTimeout_keeps ..
  | porAndBrownOut => exact execPorAndBrownOut_keeps ..
  | nrst => exact execNrst_keeps ..
  | secReset _ => exact execSecReset_keeps ..
  | rstDeviceGo _ => exact execRstDeviceGo_keeps ..
  | rstBlockWrite _ _ => exact execRstBlockWrite_keeps ..
  | blockRelease _ _ _ => exact execBlockRelease_keeps ..
  | optionLoader => exact execOptionLoader_keeps ..
  | bootHoldRelease _ => exact execBootHoldRelease_keeps ..
  | avsStep _ _ _ _ _ => exact execAvsStep_keeps ..
  | avsResume _ => exact execAvsResume_keeps ..
  | pmbusTelemetry _ _ _ _ => exact execPmbusTelemetry_keeps ..
  | avsLimitsWrite _ => exact execAvsLimitsWrite_keeps ..
  | sensorConversion _ _ _ => exact execSensorConversion_keeps ..
  | rateTest => exact execRateTest_keeps ..
  | thmTick => exact execThmTick_keeps ..
  | comparatorFire _ _ => exact execComparatorFire_keeps ..
  | tripClr _ => exact execTripClr_keeps ..
  | thmBadClear _ _ => exact execThmBadClear_keeps ..
  | lifecycleAdvance _ => exact execLifecycleAdvance_keeps ..
  | imageVerification => exact execImageVerification_keeps ..
  | secImgPost _ => exact execSecImgPost_keeps ..
  | frameProgramApply => exact execFrameProgramApply_keeps ..
  | secExtendGo _ => exact execSecExtendGo_keeps ..
  | secAttPost _ => exact execSecAttPost_keeps ..
  | measurementReport _ => exact execMeasurementReport_keeps ..
  | asmkeyCommit _ => exact execAsmkeyCommit_keeps ..
  | secCntClr _ => exact execSecCntClr_keeps ..
  | signalDetect _ => exact execSignalDetect_keeps ..
  | porRelease => exact execPorRelease_keeps ..
  | nrstRelease => exact execNrstRelease_keeps ..
  | perstRelease => exact execPerstRelease_keeps ..
  | pcieLinkTraining _ _ _ => exact execPcieLinkTraining_keeps ..
  | stressClearDone => exact execStressClearDone_keeps ..
  | restoreBufferDone => exact execRestoreBufferDone_keeps ..

/-- A step takes the front command off the queue, or with none waiting lets one core cycle pass. -/
theorem step_keeps {s t : State} (h : step s = .next t) :
    Keeps { s with pending := s.pending.tail, now := if s.pending = [] then s.now + 1 else s.now } t := by
  unfold step at h
  split at h
  · rename_i e
    injection h with h
    subst h
    have k := State.tick_keeps s
    rw [e]
    obtain ⟨k1, k2, k3, k4, k5, k6, k7, k8, k9⟩ := k
    exact ⟨k1.trans e, k2, k3, k4, k5, k6, k7, k8, k9⟩
  · rename_i i rest e
    have k := (exec_keeps i _).of_next t h
    obtain ⟨k1, k2, k3, k4, k5, k6, k7, k8, k9⟩ := k
    rw [e]
    exact ⟨k1, k2, k3, k4, k5, k6, k7, k8, k9⟩

end Sys2Proof.Machine
end

