-- ==== Sys2Proof/Laws/Links.lean ====
section
/-!
SUPPORT. Lanes, Assembly ports, tiles and cameras: what their shared operations leave.
-/
namespace Sys2Proof.Machine

open Sys2Proof.Safety

theorem State.lane_congr {s t : State} (h : t.lanes = s.lanes) (i : Nat) : t.lane i = s.lane i := by unfold State.lane; rw [h]

theorem State.lanes_drawn (s : State) : s.drawn.lanes = s.lanes := rfl

theorem State.reg_drawn_eq (s : State) (o : Nat) : s.drawn.reg o = s.reg o := rfl

theorem State.now_drawn (s : State) : s.drawn.now = s.now := rfl

theorem State.lanes_holdAdapt (s : State) (k : Nat) : (s.holdAdapt k).lanes = s.lanes := by
  unfold State.holdAdapt; split
  · rw [State.lanes_drawn, State.setReg_lanes, State.setReg_lanes]
  · rfl

theorem State.reg_holdAdapt (s : State) (k o : Nat) (h1 : o ≠ Reg.laneAdapt k) (h2 : o ≠ Reg.laneThresh k) : (s.holdAdapt k).reg o = s.reg o := by
  unfold State.holdAdapt
  split
  · rw [State.reg_drawn_eq, State.reg_setReg, if_neg h2, State.reg_setReg, if_neg h1]
  · rfl

theorem State.now_holdAdapt (s : State) (k : Nat) : (s.holdAdapt k).now = s.now := by
  unfold State.holdAdapt; split
  · rw [State.now_drawn, State.setReg_now, State.setReg_now]
  · rfl

theorem laneCtrl_fields (k : Fin 74) : (regFind (Reg.laneCtrl k.val)).map (·.fields) = some [⟨15, 12, .ro, 0⟩, ⟨7, 7, .ro, 0⟩, ⟨6, 6, .rw, 0⟩, ⟨5, 5, .rw, 0⟩, ⟨4, 4, .rw, 0⟩, ⟨2, 0, .rw, 0⟩] := by
  revert k; decide

theorem laneCtrlMask_low (k : Nat) (v : Word) (i : Nat) (hi : i < 3) : (laneCtrlMask k v).getLsbD i = v.getLsbD i := by
  unfold laneCtrlMask
  rcases (by omega : i = 0 ∨ i = 1 ∨ i = 2) with rfl | rfl | rfl <;> rw [BitVec.getLsbD_and, BitVec.getLsbD_and] <;> split <;> split <;> simp <;> decide

theorem State.lane_stored (z : State) (k : Fin 74) (v : Word) : (z.store (Reg.laneCtrl k.val) (laneCtrlMask k.val v)).lanes = z.lanes
    ∧ (z.store (Reg.laneCtrl k.val) (laneCtrlMask k.val v)).fld (Reg.laneCtrl k.val) 2 0 = v.toNat % 8 := by
  have hs := State.store_plain z (Reg.laneCtrl k.val) (laneCtrlMask k.val v) (laneCtrl_fields k) (by decide) (by clear z v; revert k; decide)
  refine ⟨by rw [hs]; rfl, Nat.eq_of_testBit_eq fun i => ?_⟩
  rw [State.testBit_fld, show (8 : Nat) = 2 ^ 3 by decide, Nat.testBit_mod_two_pow]
  by_cases hi : i < 3
  · rw [hs]
    unfold State.flag word
    rw [State.reg_setReg, if_pos rfl, BitVec.getLsbD_ofNat, decide_eq_true (by omega), Bool.true_and]
    unfold fieldsWrite
    simp only [List.foldl_cons, List.foldl_nil]
    rw [testBit_setBits _ _ _ _ _ (by omega), if_pos (by omega), testBit_bits]
    have := laneCtrlMask_low k.val v i hi
    unfold BitVec.getLsbD at this
    rw [show 0 + (0 + i - 0) = i by omega, this]
    rw [decide_eq_true (by omega), decide_eq_true (by omega)]
    rfl
  · rw [decide_eq_false (by omega), Bool.false_and, Bool.false_and]

theorem State.laneWant_eq (z : State) (k : Fin 74) (v : Word) (h : z.fld (Reg.laneCtrl k.val) 2 0 = v.toNat % 8) : z.laneWant k.val = match v.toNat % 8 with
          | 1 => .active
          | 2 => .quiet
          | 3 => .dormant
          | _ => (z.lane k.val).link := by
  unfold State.laneWant; rw [h] <;> rfl

theorem State.boundary_lane (s : State) (k : Nat) : (s.laneBoundary k).lane k = { s.lane k with
          firPend := none, preOn := s.flag (Reg.laneCtrl k) 4 && lanePam4 k, genOn := laneTx k && s.flag (Reg.lanePrbs k) 2
          genPoly := BitVec.ofNat 2 (s.fld (Reg.lanePrbs k) 1 0)
          txen := laneTx k && s.flag (Reg.lanePrbs k) 2 && laneBurst k && (s.lane k).st == .active }
    ∧ ∀ w, (s.lane k).firPend = some w → (s.laneBoundary k).reg (Reg.laneTxfir k) = w := by
  unfold State.laneBoundary
  dsimp only
  split
  · rename_i w hw
    refine ⟨?_, fun w' hw' => ?_⟩
    · rw [State.lane_setLane, if_pos rfl]
      unfold State.flag State.fld
      rw [State.reg_setReg_of_ne _ _ (by unfold Reg.laneCtrl Reg.laneTxfir; omega), State.reg_setReg_of_ne _ _ (by unfold Reg.lanePrbs Reg.laneTxfir; omega)]
      rfl
    · rw [hw] at hw'; cases hw'
      exact State.reg_setReg_self ..
  · rename_i hw
    exact ⟨by rw [State.lane_setLane, if_pos rfl], fun w hw' => by rw [hw] at hw'; cases hw'⟩

theorem State.setLane_holdAdapt (z : State) (k : Nat) (f : Lane → Lane) : (z.holdAdapt k).setLane k (f ((z.holdAdapt k).lane k)) = (z.holdAdapt k).setLane k (f (z.lane k)) := by
  rw [State.lane_congr (State.lanes_holdAdapt z k)]

theorem State.laneQuietDue_iff (s : State) (k : Nat) : s.laneQuietDue k = true ↔ (if 1 ≤ s.fld (Reg.laneCtrl k) 2 0 % 8 ∧ s.fld (Reg.laneCtrl k) 2 0 % 8 ≤ 3 then s.fld (Reg.laneCtrl k) 2 0 % 8 else 0) = 0 := by
  unfold State.laneQuietDue
  rw [beq_iff_eq]
  rfl

theorem State.fld_holdAdapt (s : State) (k hi lo : Nat) : (s.holdAdapt k).fld (Reg.laneCtrl k) hi lo = s.fld (Reg.laneCtrl k) hi lo := by
  unfold State.fld; rw [State.reg_holdAdapt _ _ _ (by unfold Reg.laneCtrl Reg.laneAdapt; omega) (by unfold Reg.laneCtrl Reg.laneThresh; omega)]

theorem State.arrive_eq (z : State) (k : Nat) (w : LaneSt) : z.laneArrive k w = (z.laneBoundary k).setLane k
    (match (((z.laneBoundary k).lane k).enter w).held with
      | none => ((z.laneBoundary k).lane k).enter w
      | some v => Lane.ask { ((z.laneBoundary k).lane k).enter w with held := none } v) := by
  unfold State.laneArrive
  dsimp only
  cases (((z.laneBoundary k).lane k).enter w).held <;> rfl

theorem State.laneMatters_iff (s : State) (k : Nat) : s.signalMatters k = true ↔ (s.lane k).st = .active ∨ (s.lane k).st = .transition ∧ ((s.lane k).cdrLock || (s.lane k).blockLock || (s.lane k).cwLock) = true := by
  unfold State.signalMatters
  simp only [Bool.or_eq_true, Bool.and_eq_true, beq_iff_eq]

theorem State.rangeOrSync_st (s : State) (p : Fin 2) : ((s.rangeOrSync p.val).port p.val).st ≠ .joined := by
  unfold State.rangeOrSync
  split <;> rw [State.port_portState] <;> exact fun h => nomatch h

theorem State.port_store (s : State) (p : Fin 2) (v : Word) : (s.store (Reg.asmCtrl p.val) v).port p.val = s.port p.val := by
  have hg : (regFind (Reg.asmCtrl p.val)).map (·.fields) = some (((regFind (Reg.asmCtrl 0)).map (·.fields)).getD []) := by
    clear s v; revert p; decide
  rw [State.store_plain s (Reg.asmCtrl p.val) v hg (by decide) (by clear hg s v; revert p; decide)]
  rfl

theorem State.takeReturn_eq {s : State} {n : Nat} {b : Block} {bs : List Block} (h : (s.lane (58 + n)).rx = b :: bs) (hc : b.ctl = true) (hb : b.bad = false) {ty : Nat} (ht : b.type = ty) :
    s.takeReturn n ty = some (b.data.toNat, s.setLane (58 + n) { s.lane (58 + n) with rx := bs }) := by
  unfold State.takeReturn
  dsimp only
  rw [h]
  dsimp only
  exact if_pos (by rw [hc, hb, ht]; simp)

theorem State.takeReturn_none {s : State} {n ty : Nat} (h : (s.lane (58 + n)).rx = []) : s.takeReturn n ty = none := by
  unfold State.takeReturn
  dsimp only
  rw [h]

theorem State.cmdAllowed_iff {z : State} {n : Nat} : z.cmdAllowed n = true ↔ ((z.activeSlot = false ∨ (z.tile n).blanked = true ∨ (z.tile n).st = .waking ∨ (z.tile n).st = .down)
            ∧ (∀ f, z.seq.flipAt = some f → ∀ y, (y = f ∨ y = f + ratePeriod z.seq.rate) → y + 40000 ≤ z.now ∨ z.now + 40000 ≤ y))
            ∧ (z.tile n).out.length < 8 := by
  unfold State.cmdAllowed
  dsimp only
  rw [Bool.and_eq_true, Bool.and_eq_true, decide_eq_true_eq]
  refine and_congr (and_congr ?_ ?_) Iff.rfl
  · simp only [Bool.or_eq_true, Bool.not_eq_true', beq_iff_eq, or_assoc]
  · cases hf : z.seq.flipAt with
    | none => simp
    | some f =>
      simp only [Bool.not_eq_true', Bool.or_eq_false_iff, Bool.and_eq_false_iff, decide_eq_false_iff_not, Option.some.injEq, forall_eq', forall_eq_or_imp, forall_eq]
      omega

theorem tileFault_words (z : State) (n : Fin 16) (h : Calm z (Reg.tlkFault n.val)) (a b : Word) :
    (z.latchFirst (Reg.tlkFault n.val) 0 [(Reg.tlkFault n.val, a), (Reg.tlkFaultDetail n.val, b)]).reg (Reg.tlkFault n.val) =
      (if z.flag (Reg.tlkFault n.val) 31 = true then z.reg (Reg.tlkFault n.val) else a)
    ∧ (z.latchFirst (Reg.tlkFault n.val) 0 [(Reg.tlkFault n.val, a), (Reg.tlkFaultDetail n.val, b)]).reg (Reg.tlkFaultDetail n.val) =
      if z.flag (Reg.tlkFault n.val) 31 = true then z.reg (Reg.tlkFaultDetail n.val) else b := by
  obtain ⟨q, hq, e⟩ := State.latchFirst_calm h 0 [(Reg.tlkFault n.val, a), (Reg.tlkFaultDetail n.val, b)] none
  have hr : ∀ o, q.reg o = z.reg o := by intro o; rw [hq]; rfl
  have hne : Reg.tlkFault n.val ≠ Reg.tlkFaultDetail n.val := by unfold Reg.tlkFault Reg.tlkFaultDetail; omega
  rw [e]
  cases z.flag (Reg.tlkFault n.val) 31
  · have hw : q.latchWords (Reg.tlkFault n.val) none [(Reg.tlkFault n.val, a), (Reg.tlkFaultDetail n.val, b)] =
        ((q.setReg (Reg.tlkFault n.val) a).setReg (Reg.tlkFaultDetail n.val) b).noteSet (Reg.tlkFault n.val) (2 ^ 31) := rfl
    simp only [Bool.false_eq_true, if_false]
    rw [hw]
    refine ⟨?_, ?_⟩
    · exact (State.reg_setReg_of_ne _ _ hne).trans (State.reg_setReg_self ..)
    · exact State.reg_setReg_self ..
  · refine ⟨?_, ?_⟩ <;> simp only [if_true, hr]

theorem State.tile_setTile_self (s : State) (n : Nat) (t : Tile) : ((s.setTile n t).tile n) = t := by
  unfold State.tile State.setTile
  rw [SMap.get_put, if_pos rfl]

theorem State.st_zeroApp (s : State) (n : Nat) : ((s.zeroApp n).tile n).st = (s.tile n).st := by
  have h : (s.zeroApp n).tile n = ((s.setReg (Reg.tlkIrefApp n) 0).setTile n { s.tile n with rampDone := false }).tile n := rfl
  rw [h, State.tile_setTile_self]

theorem State.tileSilent_iff {s : State} {n : Nat} : s.tileSilent n = true ↔ ((s.tile n).statusAt = none ∨ ∃ x, (s.tile n).statusAt = some x ∧ x + 1600000 * max 1 (s.fld Reg.tlkCtrl 15 8) ≤ s.now)
          ∨ ((s.lane (58 + n)).cwLock = false ∧ ∃ x, (s.tile n).lockLostAt = some x ∧ x + 1600000 * max 1 (s.fld Reg.tlkCtrl 15 8) ≤ s.now) := by
  unfold State.tileSilent
  dsimp only
  rw [Bool.or_eq_true, Bool.and_eq_true, Bool.not_eq_true']
  cases (s.tile n).statusAt <;> cases (s.tile n).lockLostAt <;> simp

end Sys2Proof.Machine
end

