-- ==== Sys2Proof/Laws/Registrar.lean ====
section
/-!
SUPPORT. The Registrar: the outcomes of an image check, and the leaves of the attestation key.
-/
namespace Sys2Proof.Machine

open Sys2Proof.Safety

theorem State.imageCheck_eq (s : State) (bs : List Byte) (rom : Bool) (h : ImageHead) (hh : h = imageHead bs) (key root : List Byte) (hk : key = slice bs 64 64)
    (hr : root = (List.range 32).map (fun i => BitVec.ofNat 8 (s.optByte ((if h.root = 0 then 32 else 64) + i)))) :
    s.imageCheck bs rom = if !s.imageFormat bs rom then (1, [])
  else if h.bound && h.serial != s.serial then (1, [])
  else if !s.rootUsable h then (2, [])
  else if shake256 key 32 != root then (3, [])
  else if h.svn < s.minSvn then (4, [])
  else if !xmssVerify key (bs.take (128 + h.len)) (slice bs (128 + h.len) 2820) then (5, [])
  else if h.comp then
    let e := satDecode ((bs.drop 128).take h.len) h.rawLen
    if e.err.isNone && e.out.length == h.rawLen then (0, e.out) else (6, [])
  else (0, (bs.drop 128).take h.len) := by
  subst hk hr hh
  rfl

theorem State.takeLeaf_new {s : State} {cache : List (List Byte)} (hl : ∀ n e, s.sec.leaf = some (n, e) → e ≤ n) (found : Option Nat)
    (hf : ((List.range 1024).find? fun k => !(s.optByte (128 + k / 8)).testBit (k % 8)) = found) : s.takeLeaf cache = if s.sec.treeBad then (s, none, 12) else
        match found with
        | none => (s, none, 11)
        | some k =>
          if !s.sec.treeChecked && xCacheRoot (attPart 0x55) cache != attRoot then
            ({ s with sec := { s.sec with treeBad := true } }, none, 12)
          else
            let s := (s.otpProgram (128 + k / 8) (k % 8))
            let s := { s with sec := { s.sec with treeChecked := true, leaf := some (1024 * k + 1, 1024 * k + 1024) } }
            let s := if s.blocksFree ≤ 16 then s.event 14 else s
            (s.setReg Reg.secLeaf (word (2 ^ 31 + (1024 * k + 1) % 2 ^ 20)), some (1024 * k), 0) := by
  unfold State.takeLeaf
  rw [hf]
  clear hf
  cases hx : s.sec.leaf with
  | none => rfl
  | some p =>
    dsimp only
    rw [if_neg (Nat.not_lt.2 (hl p.1 p.2 hx))] <;> rfl

end Sys2Proof.Machine
end

