-- ==== Sys2Proof/Laws/Reset.lean ====
section
/-!
SUPPORT. What a reset takes: erasing an item sets its registers and typed state to their reset values, and no later item undoes it.
-/
namespace Sys2Proof.Machine

open Sys2Proof.Safety

theorem foldl_keeps_prop {f : State → Nat → State} {P : State → Prop} {l : List Nat} (hk : ∀ s a, a ∈ l → P s → P (f s a)) {s : State} (h : P s) : P (l.foldl f s) := by
  induction l generalizing s with
  | nil => exact h
  | cons a l ih => exact ih (fun s b hb => hk s b (List.mem_cons_of_mem _ hb)) (hk s a List.mem_cons_self h)

theorem foldl_meets_prop {f : State → Nat → State} {P : State → Prop} {l : List Nat} (hl : l.Pairwise (· < ·)) {a : Nat} (ha : a ∈ l) (he : ∀ s, P (f s a)) (hk : ∀ s b, a < b → P s → P (f s b)) (s : State) : P (l.foldl f s) := by
  induction l generalizing s with
  | nil => exact nomatch ha
  | cons b l ih =>
    rw [List.pairwise_cons] at hl
    rcases List.mem_cons.1 ha with rfl | h
    · show P (l.foldl f (f s a))
      exact foldl_keeps_prop (fun s b hb => hk s b (hl.1 b hb)) (he s)
    · exact ih hl.2 h _

theorem State.linkOff_lanes (ls : List Nat) (s : State) : s.linkOff ls = { s with lanes := (s.linkOff ls).lanes } := by
  unfold State.linkOff
  induction ls generalizing s with
  | nil => rfl
  | cons l ls ih =>
    rw [List.foldl_cons, ih, State.laneLink_lanes]

/-- What dropping a lane's lock can change. -/
structure LockKeeps (s t : State) : Prop where
  rest : t = { s with regs := t.regs, lanes := t.lanes, asm := t.asm, tlk := t.tlk, cyc := t.cyc }
  regs : ∀ off, off ≠ Reg.asmCnt 0 16 → off ≠ Reg.asmCnt 1 16 → t.reg off = s.reg off
  port : ∀ p, p < 2 → (s.port p).burst = none → (t.port p).burst = none ∧ t.reg (Reg.asmCnt p 16) = s.reg (Reg.asmCnt p 16)

theorem LockKeeps.refl (s : State) : LockKeeps s s := ⟨rfl, fun _ _ _ => rfl, fun _ _ h => ⟨h, rfl⟩⟩

theorem LockKeeps.trans {s t u : State} (h : LockKeeps s t) (k : LockKeeps t u) : LockKeeps s u := by
  refine ⟨?_, fun o a b => (k.regs o a b).trans (h.regs o a b), fun p hp hb => ?_⟩
  · rw [k.rest, h.rest]
  · have a := h.port p hp hb
    have b := k.port p hp a.1
    exact ⟨b.1, b.2.trans a.2⟩

theorem State.setPort_lockKeeps (s : State) (p : Nat) (v : Port) (hv : (s.port p).burst = none → v.burst = none) : LockKeeps s (s.setPort p v) := by
  refine ⟨rfl, fun _ _ _ => rfl, fun p' hp' h => ⟨?_, rfl⟩⟩
  unfold State.setPort State.port at *
  dsimp only
  by_cases c : p = 0
  · rw [if_pos c] at hv
    rw [if_pos c]
    by_cases c' : p' = 0
    · rw [if_pos c'] at h ⊢; exact hv h
    · rw [if_neg c'] at h ⊢; exact h
  · rw [if_neg c] at hv
    rw [if_neg c]
    by_cases c' : p' = 0
    · rw [if_pos c'] at h ⊢; exact h
    · rw [if_neg c'] at h ⊢; exact hv h

theorem State.asmCount_lockKeeps (s : State) (p : Nat) (hp : p < 2) (h : (s.port p).burst ≠ none) : LockKeeps s (s.asmCount p 16) := by
  have ne : ∀ off, off ≠ Reg.asmCnt p 16 → (s.asmCount p 16).reg off = s.reg off := fun off h => State.reg_setReg_of_ne _ _ h
  refine ⟨rfl, fun off a b => ne off ?_, fun p' hp' h' => ⟨h', ne _ ?_⟩⟩
  · have : p = 0 ∨ p = 1 := by omega
    rcases this with rfl | rfl <;> assumption
  · intro e
    have : p' = p := by unfold Reg.asmCnt at e; omega
    exact h (this ▸ h')

theorem State.setLane_lockKeeps (s : State) (l : Nat) (v : Lane) : LockKeeps s (s.setLane l v) := ⟨rfl, fun _ _ _ => rfl, fun _ _ h => ⟨h, rfl⟩⟩

theorem State.portLockLost_lockKeeps (s : State) (p : Nat) (hp : p < 2) : LockKeeps s (s.portLockLost p) := by
  unfold State.portLockLost
  extract_lets q0 q z
  have hb : q.burst = (s.port p).burst := by unfold q; split <;> rfl
  have hz : LockKeeps s z := State.setPort_lockKeeps s p _ fun x => hb.trans x
  have hq : (z.port p).burst = q.burst := by
    unfold z State.setPort State.port
    dsimp only
    by_cases c : p = 0
    · rw [if_pos c, if_pos c]
    · rw [if_neg c, if_neg c]
  clear_value q z
  split
  · rename_i b hqb
    extract_lets a0 a1 a2
    split
    · refine hz.trans ((State.setLane_lockKeeps _ _ _).trans ((State.setPort_lockKeeps _ p _ fun x => ?_).trans (State.asmCount_lockKeeps _ p hp ?_)))
      · exact absurd (hqb.symm.trans (hq.symm.trans x)) nofun
      · unfold State.setPort State.port
        dsimp only
        split <;> exact nofun
    · exact hz
  · exact hz

theorem State.lockFollow_lockKeeps (s : State) (l : Nat) : LockKeeps s (s.lockFollow l true) := by
  unfold State.lockFollow
  dsimp only
  split
  · exact .refl s
  · split
    · exact ⟨rfl, fun _ _ _ => rfl, fun _ _ h => ⟨h, rfl⟩⟩
    · split
      · rename_i h
        refine State.portLockLost_lockKeeps _ _ ?_
        simp only [Bool.and_eq_true, Bool.or_eq_true, beq_iff_eq] at h
        omega
      · exact .refl s

theorem State.idleLanes_lockKeeps (s : State) (p : Nat → Bool) : LockKeeps s (s.idleLanes p) := by
  have key : ∀ (xs : List Nat) (z : State), LockKeeps z (xs.foldl (fun s l => s.lockFollow l true) z) := by
    intro xs
    induction xs with
    | nil => exact LockKeeps.refl
    | cons x xs ih => exact fun z => (State.lockFollow_lockKeeps z x).trans (ih _)
  unfold State.idleLanes
  extract_lets locked idle
  exact LockKeeps.trans (t := { s with lanes := s.lanes.filterMap idle }) ⟨rfl, fun _ _ _ => rfl, fun _ _ h => ⟨h, rfl⟩⟩ (key _ _)

/-- What takes an item's typed state leaves alone. -/
structure EraseKeeps (i : Nat) (s t : State) : Prop where
  rst : t.rst = s.rst
  now : t.now = s.now
  regs : ∀ off, off ≠ Reg.asmCnt 0 16 → off ≠ Reg.asmCnt 1 16 → (i = 23 → off ≠ Reg.finStatus ∧ blockOf off ≠ 33) →
    (i = 30 → off ≠ Reg.clkEngine) → t.reg off = s.reg off
  noTemp : s.reg Reg.finStatus = 0xFFFF → t.reg Reg.finStatus = 0xFFFF
  port : ∀ p, p < 2 → (s.port p).burst = none → (t.port p).burst = none ∧ t.reg (Reg.asmCnt p 16) = s.reg (Reg.asmCnt p 16)
  dec : t.dec = if i = 5 then {} else s.dec
  plc : t.plc = if i = 19 then {} else s.plc
  fin : t.fin = if i = 22 then {} else s.fin
  cal : t.cal = if i = 25 then {} else s.cal
  sat : t.sat = if i = 28 then {} else s.sat
  blt : t.blt = if i = 29 then {} else s.blt
  sec : t.sec = if i = 36 then {} else s.sec
  ext : t.host.extents = if i = 34 then [] else s.host.extents
  mbox : i = 38 ∨ s.host.mboxHeld = [] → t.host.mboxHeld = []
  cfg : t.host.cfg = if i = 37 then {} else s.host.cfg
  pend : i ≠ 23 → t.host.msixPend = if i = 37 then 0 else s.host.msixPend
  seq : i = 18 ∨ t.seq = s.seq
  dmc : t.dmc = if i = 26 then { dram := s.dmc.dram, poison := s.dmc.poison, soft := s.dmc.soft, selfRefresh := s.dmc.selfRefresh } else s.dmc

theorem LockKeeps.erase {s t : State} {i : Nat} (h : LockKeeps s t) (hi : i = 3 ∨ i = 4) : EraseKeeps i s t := by
  have r := h.rest
  refine ⟨(congrArg State.rst r :), (congrArg State.now r :), fun o a b _ _ => h.regs o a b, fun x => (h.regs _ (by decide) (by decide)).trans x, h.port, ?_, ?_, ?_, ?_, ?_, ?_, ?_, ?_, ?_, ?_, fun _ => ?_, ?_, ?_⟩
  · rw [if_neg (by omega)]; exact (congrArg State.dec r :)
  · rw [if_neg (by omega)]; exact (congrArg State.plc r :)
  · rw [if_neg (by omega)]; exact (congrArg State.fin r :)
  · rw [if_neg (by omega)]; exact (congrArg State.cal r :)
  · rw [if_neg (by omega)]; exact (congrArg State.sat r :)
  · rw [if_neg (by omega)]; exact (congrArg State.blt r :)
  · rw [if_neg (by omega)]; exact (congrArg State.sec r :)
  · rw [if_neg (by omega)]; exact (congrArg (fun x : State => x.host.extents) r :)
  · rintro (x | x)
    · omega
    · exact ((congrArg (fun x : State => x.host.mboxHeld) r :)).trans x
  · rw [if_neg (by omega)]; exact (congrArg (fun x : State => x.host.cfg) r :)
  · rw [if_neg (by omega)]; exact (congrArg (fun x : State => x.host.msixPend) r :)
  · exact .inr (congrArg State.seq r :)
  · rw [if_neg (by omega)]; exact (congrArg State.dmc r :)

/-- The finishing unit has no temperature of any tile: what that changes. -/
theorem noTemp_foldl (xs : List Nat) (hx : ∀ n ∈ xs, n < 16) (s : State) :
    let f (s : State) (n : Nat) : State := if s.up 22 && !s.flag Reg.finStatus n then (s.setFlag Reg.finStatus n).event 163 else s
    RegsAndEvents s (xs.foldl f s) ∧ (∀ off, off ≠ Reg.finStatus → off ≠ Reg.evtStatus 5 → (xs.foldl f s).reg off = s.reg off)
      ∧ (s.reg Reg.finStatus = 0xFFFF → (xs.foldl f s).reg Reg.finStatus = 0xFFFF) := by
  intro f
  induction xs generalizing s with
  | nil => exact ⟨.refl s, fun _ _ _ => rfl, id⟩
  | cons n xs ih =>
    have h1 := ih (fun k hk => hx k (List.mem_cons_of_mem _ hk)) (f s n)
    have hn : n < 16 := hx n List.mem_cons_self
    have hf : RegsAndEvents s (f s n) ∧ (∀ off, off ≠ Reg.finStatus → off ≠ Reg.evtStatus 5 → (f s n).reg off = s.reg off) ∧ (s.reg Reg.finStatus = 0xFFFF → (f s n).reg Reg.finStatus = 0xFFFF) := by
      show RegsAndEvents s (if _ then _ else _) ∧ _
      by_cases c : (s.up 22 && !s.flag Reg.finStatus n) = true
      · refine ⟨?_, fun off h h' => ?_, fun h => ?_⟩
        · rw [if_pos c]; exact .trans (RegsAndEvents.setFlag ..) (RegsAndEvents.event ..)
        · show (if _ then _ else _ : State).reg off = _
          rw [if_pos c, State.reg_event _ _ _ h']
          exact State.reg_setReg_of_ne _ _ h
        · exfalso
          have : s.flag Reg.finStatus n = true := by
            unfold State.flag
            rw [h]
            exact (by decide : ∀ k : Fin 16, (0xFFFF : Word).getLsbD k.val = true) ⟨n, hn⟩
          rw [this, Bool.not_true, Bool.and_false] at c
          exact nomatch c
      · refine ⟨?_, fun off h h' => ?_, fun h => ?_⟩
        · rw [if_neg c]; exact .refl s
        · show (if _ then _ else _ : State).reg off = _
          rw [if_neg c]
        · show (if _ then _ else _ : State).reg _ = _
          rw [if_neg c]; exact h
    exact ⟨hf.1.trans h1.1, fun off a b => (h1.2.1 off a b).trans (hf.2.1 off a b), fun h => h1.2.2 (hf.2.2 h)⟩

theorem eraseTlk_eraseKeeps (s s₁ : State) (X : SMap Lane) (p : Nat → Bool) (x : Tlk) (h : RegsAndEvents s s₁)
    (hr : ∀ off, off ≠ Reg.finStatus → off ≠ Reg.evtStatus 5 → s₁.reg off = s.reg off) (hn : s.reg Reg.finStatus = 0xFFFF → s₁.reg Reg.finStatus = 0xFFFF) :
    EraseKeeps 23 s { State.idleLanes { s₁ with lanes := X } p with tlk := x } := by
  have k := State.idleLanes_lockKeeps { s₁ with lanes := X } p
  have r := k.rest
  generalize State.idleLanes { s₁ with lanes := X } p = t at k r ⊢
  unfold RegsAndEvents at h
  have hb : ∀ p, p < 2 → (s₁.port p).burst = (s.port p).burst := by
    intro p hp
    unfold State.port
    rw [h]
    split <;> rfl
  have hd : ∀ {α : Type} (g : State → α), (∀ z : State, g { s with
    regs := z.regs
    host := { s.host with msixPend := z.host.msixPend }
    asm := { s.asm with
      alarms := z.asm.alarms
      portA := { s.asm.portA with contStop := z.asm.portA.contStop }
      portB := { s.asm.portB with contStop := z.asm.portB.contStop } }
    cyc := z.cyc } = g s) → g s₁ = g s := fun g hg => (congrArg g h).trans (hg s₁)
  refine ⟨(congrArg State.rst r :).trans (hd State.rst fun _ => rfl), (congrArg State.now r :).trans (hd State.now fun _ => rfl),
    fun o a b c _ => (k.regs o a b).trans (hr o (c rfl).1 fun e => (c rfl).2 (by rw [e]; decide)),
    fun e => (k.regs _ (by decide) (by decide)).trans (hn e),
    fun p hp e => ?_, (congrArg State.dec r :).trans (hd State.dec fun _ => rfl), (congrArg State.plc r :).trans (hd State.plc fun _ => rfl),
    (congrArg State.fin r :).trans (hd State.fin fun _ => rfl), (congrArg State.cal r :).trans (hd State.cal fun _ => rfl), (congrArg State.sat r :).trans (hd State.sat fun _ => rfl),
    (congrArg State.blt r :).trans (hd State.blt fun _ => rfl), (congrArg State.sec r :).trans (hd State.sec fun _ => rfl),
    (congrArg (fun x : State => x.host.extents) r :).trans (hd (fun x : State => x.host.extents) fun _ => rfl),
    fun e => ((congrArg (fun x : State => x.host.mboxHeld) r :).trans (hd (fun x : State => x.host.mboxHeld) fun _ => rfl)).trans (e.resolve_left (by decide)),
    (congrArg (fun x : State => x.host.cfg) r :).trans (hd (fun x : State => x.host.cfg) fun _ => rfl),
    fun e => absurd rfl e, .inr ((congrArg State.seq r :).trans (hd State.seq fun _ => rfl)), (congrArg State.dmc r :).trans (hd State.dmc fun _ => rfl)⟩
  have q := k.port p hp ((hb p hp).trans e)
  refine ⟨q.1, q.2.trans (hr _ ?_ ?_)⟩
  · have : p = 0 ∨ p = 1 := by omega
    rcases this with rfl | rfl <;> decide
  · have : p = 0 ∨ p = 1 := by omega
    rcases this with rfl | rfl <;> decide

theorem State.eraseHome_only (s : State) (h : Nat) : s.eraseHome h = { s with syn := (s.eraseHome h).syn } := by
  unfold State.eraseHome
  dsimp only
  split <;> rfl

theorem State.eraseTyped_eraseKeeps (s : State) (i : Nat) (keep : Bool) : EraseKeeps i s (s.eraseTyped i keep) := by
  unfold State.eraseTyped
  split
  · rename_i h
    rw [Bool.and_eq_true, decide_eq_true_eq, decide_eq_true_eq] at h
    rw [State.eraseHome_only]
    refine ⟨rfl, rfl, fun _ _ _ _ _ => rfl, id, fun _ _ h => ⟨h, rfl⟩, ?_, ?_, ?_, ?_, ?_, ?_, ?_, ?_, ?_, ?_, ?_, ?_, ?_⟩
    all_goals first
      | exact .inr rfl
      | (intro _; rw [if_neg (by omega)])
      | rw [if_neg (by omega)]
      | (rintro (x | x); omega; exact x)
  · split
    case h_12 =>
      have k := noTemp_foldl (List.range 16) (fun n h => List.mem_range.1 h) s
      dsimp only at k
      unfold State.eachTile
      dsimp only
      generalize List.foldl _ s (List.range 16) = s₁ at k ⊢
      rw [State.linkOff_lanes ((List.range 16).map (58 + ·)) s₁, State.linkOff_lanes (List.range 48)]
      exact eraseTlk_eraseKeeps s s₁ _ _ _ k.1 k.2.1 k.2.2
    case h_18 =>
      unfold State.setFld
      generalize word (setBits (s.reg Reg.clkEngine).toNat 10 8 4) = v
      dsimp only
      refine ⟨rfl, rfl, fun o _ _ _ c => State.reg_setReg_of_ne s v (c rfl), fun h => (State.reg_setReg_of_ne s v (by decide)).trans h, fun p hp h => ⟨h, State.reg_setReg_of_ne s v ?_⟩, rfl, rfl, rfl, rfl, rfl, rfl, rfl, rfl, fun x => x.resolve_left (by decide), rfl, fun _ => rfl, .inr rfl, rfl⟩
      have : p = 0 ∨ p = 1 := by omega
      rcases this with rfl | rfl <;> decide
    all_goals first
      | exact (State.idleLanes_lockKeeps s _).erase (by decide)
      | exact ⟨rfl, rfl, fun _ _ _ _ _ => rfl, id, fun _ _ h => ⟨h, rfl⟩, rfl, rfl, rfl, rfl, rfl, rfl, rfl, rfl, fun x => x.resolve_left (by decide), rfl, fun _ => rfl, (by first | exact .inr rfl | exact .inl rfl), rfl⟩
      | exact ⟨rfl, rfl, fun _ _ _ _ _ => rfl, id, fun _ _ h => ⟨h, rfl⟩, rfl, rfl, rfl, rfl, rfl, rfl, rfl, rfl, fun _ => rfl, rfl, fun _ => rfl, (by first | exact .inr rfl | exact .inl rfl), rfl⟩
      | exact ⟨rfl, rfl, fun _ _ _ _ _ => rfl, id, fun _ _ h => ⟨h, rfl⟩, rfl, rfl, rfl, rfl, rfl, rfl, rfl, rfl,
          fun x => (congrArg (List.filter _) (x.resolve_left (by decide))).trans rfl, rfl, fun _ => rfl, (by first | exact .inr rfl | exact .inl rfl), rfl⟩
      | skip
    · rw [State.linkOff_lanes]
      refine ⟨rfl, rfl, fun _ _ _ _ _ => rfl, id, fun p _ h => ⟨?_, rfl⟩, rfl, rfl, rfl, rfl, rfl, rfl, rfl, rfl, fun x => x.resolve_left (by decide), rfl, fun _ => rfl, .inr rfl, rfl⟩
      unfold State.port at *
      by_cases c : p = 0
      · rw [if_pos c]
      · rw [if_neg c] at h ⊢; exact h
    · rw [State.linkOff_lanes]
      refine ⟨rfl, rfl, fun _ _ _ _ _ => rfl, id, fun p _ h => ⟨?_, rfl⟩, rfl, rfl, rfl, rfl, rfl, rfl, rfl, rfl, fun x => x.resolve_left (by decide), rfl, fun _ => rfl, .inr rfl, rfl⟩
      unfold State.port at *
      by_cases c : p = 0
      · rw [if_pos c] at h ⊢; exact h
      · rw [if_neg c]
    · rename_i h0 h1 h2 h3 h4 h5 h18 h19 h20 h21 h22 h23 h24 h25 h26 h28 h29 h30 h31 h32 h33 h34 h36 h37 h38
      exact ⟨rfl, rfl, fun _ _ _ _ _ => rfl, id, fun _ _ h => ⟨h, rfl⟩, (if_neg h5).symm, (if_neg h19).symm, (if_neg h22).symm, (if_neg h25).symm, (if_neg h28).symm,
        (if_neg h29).symm, (if_neg h36).symm, (if_neg h34).symm, fun x => x.resolve_left h38, (if_neg h37).symm, fun _ => (if_neg h37).symm, .inr rfl, (if_neg h26).symm⟩

theorem State.eraseItem_eraseKeeps (s : State) (i : Nat) (keep : Bool) : EraseKeeps i (s.eraseRegs (itemReg i)) (s.eraseItem i keep) := State.eraseTyped_eraseKeeps _ i keep

theorem State.reg_eraseRegs (s : State) (p : Nat → Bool) (off : Nat) : (s.eraseRegs p).reg off = if p off = true then regReset off else s.reg off := by
  unfold State.reg State.eraseRegs
  rw [SMap.get_filter regReset s.regs (fun k => !p k) off]
  cases p off <;> rfl

def RegErased (off : Nat) (z : State) : Prop := z.reg off = regReset off ∧ ∀ p, p < 2 → off = Reg.asmCnt p 16 → (z.port p).burst = none

theorem State.eraseItem_port (z : State) (i : Nat) (hi : i = 0 ∨ i = 1) (keep : Bool) : ((z.eraseItem i keep).port i).burst = none ∧ ∀ off, (z.eraseItem i keep).reg off = (z.eraseRegs (itemReg i)).reg off := by
  rcases hi with rfl | rfl
  · generalize hy : z.eraseRegs (itemReg 0) = y
    have : z.eraseItem 0 keep = State.linkOff { y with asm := { portB := y.asm.portB, ctx := y.asm.ctx, loss := y.asm.loss, repair := y.asm.repair, msgCounter := y.asm.msgCounter } } [50, 51, 52, 53, 48] := by rw [← hy]; rfl
    rw [this, State.linkOff_lanes]
    exact ⟨rfl, fun _ => rfl⟩
  · generalize hy : z.eraseRegs (itemReg 1) = y
    have : z.eraseItem 1 keep = State.linkOff { y with asm := { y.asm with portB := {} } } [54, 55, 56, 57, 49] := by rw [← hy]; rfl
    rw [this, State.linkOff_lanes]
    exact ⟨rfl, fun _ => rfl⟩

theorem RegErased.eraseItem (off i j : Nat) (hij : i < j) (hi : itemReg i off = true) (keep : Bool) (z : State) (h : RegErased off z) : RegErased off (z.eraseItem j keep) := by
  have e := State.eraseItem_eraseKeeps z j keep
  have hb : blockOf off = i := beq_iff_eq.1 (Bool.and_eq_true _ _ ▸ hi).1
  have r : (z.eraseRegs (itemReg j)).reg off = regReset off := by rw [State.reg_eraseRegs, h.1]; split <;> rfl
  by_cases c : ∃ p, p < 2 ∧ off = Reg.asmCnt p 16
  · obtain ⟨p, hp, rfl⟩ := c
    have k := e.port p hp (h.2 p hp rfl)
    refine ⟨k.2.trans r, fun q hq hx => ?_⟩
    have : q = p := by unfold Reg.asmCnt at hx; omega
    exact this ▸ k.1
  · refine ⟨?_, fun q hq hx => absurd ⟨q, hq, hx⟩ c⟩
    by_cases f : off = Reg.finStatus
    · subst f
      have hf : regReset Reg.finStatus = 0xFFFF := by decide
      rw [hf] at r ⊢
      exact e.noTemp r
    · refine (e.regs off (fun x => c ⟨0, by decide, x⟩) (fun x => c ⟨1, by decide, x⟩) (fun k => ⟨f, by omega⟩) (fun k x => ?_)).trans r
      have : blockOf Reg.clkEngine = 39 := by decide
      rw [x, this] at hb
      omega

theorem RegErased.of_eraseItem (off i : Nat) (keep : Bool) (hi : itemReg i off = true) (z : State) : RegErased off (z.eraseItem i keep) := by
  have e := State.eraseItem_eraseKeeps z i keep
  have hb : blockOf off = i := beq_iff_eq.1 (Bool.and_eq_true _ _ ▸ hi).1
  have r : (z.eraseRegs (itemReg i)).reg off = regReset off := by rw [State.reg_eraseRegs, if_pos hi]
  by_cases c : ∃ p, p < 2 ∧ off = Reg.asmCnt p 16
  · obtain ⟨p, hp, rfl⟩ := c
    have hp' : p = 0 ∨ p = 1 := by omega
    have hi' : i = p := by
      rcases hp' with rfl | rfl
      · exact hb.symm
      · exact hb.symm
    subst hi'
    have k := State.eraseItem_port z i hp' keep
    refine ⟨(k.2 _).trans r, fun q hq hx => ?_⟩
    have : q = i := by unfold Reg.asmCnt at hx; omega
    rw [this]; exact k.1
  · refine ⟨?_, fun q hq hx => absurd ⟨q, hq, hx⟩ c⟩
    by_cases f : off = Reg.finStatus
    · subst f
      have hf : regReset Reg.finStatus = 0xFFFF := by decide
      rw [hf] at r ⊢
      exact e.noTemp r
    · refine (e.regs off (fun x => c ⟨0, by decide, x⟩) (fun x => c ⟨1, by decide, x⟩) (fun k => ⟨f, by omega⟩) (fun k x => ?_)).trans r
      have : blockOf Reg.clkEngine = 39 := by decide
      rw [x, this] at hb
      omega

theorem mem_maskItems {m : BitVec 40} {i : Nat} (h : m.getLsbD i = true) : i ∈ maskItems m := by
  refine List.mem_filter.2 ⟨List.mem_range.2 ?_, h⟩
  by_contra x
  rw [BitVec.getLsbD_of_ge m i (by omega)] at h
  exact nomatch h

theorem State.assertReset_form (s : State) (m : BitVec 40) (security keep : Bool) : ∃ z, s.assertReset m security keep =
    (fun u : State => { u with rst := { u.rst with held := u.rst.held ||| m } }) ((maskItems m).foldl (fun s i => s.eraseItem i keep) z) := ⟨_, rfl⟩

/-- What holds after the erasing of an item, and what no later one undoes, holds after an assertion. -/
theorem eraseItems_meets {P : State → Prop} {m : BitVec 40} {i : Nat} (hm : m.getLsbD i = true) (keep : Bool) (hh : ∀ z : State, P (z.eraseItem i keep)) (hk : ∀ (z : State) (j : Nat), i < j → P z → P (z.eraseItem j keep)) (z : State) :
    P ((maskItems m).foldl (fun s i => s.eraseItem i keep) z) :=
  foldl_meets_prop (f := fun s i => s.eraseItem i keep) (List.Pairwise.filter _ List.pairwise_lt_range) (mem_maskItems hm) hh hk z

theorem ite_lt {c : Prop} [Decidable c] {a b n : Nat} (ha : c → a < n) (hb : b < n) : (if c then a else b) < n := by
  by_cases h : c
  · rw [if_pos h]; exact ha h
  · rw [if_neg h]; exact hb

theorem blockOf_lt (off : Nat) : blockOf off < 40 := by
  unfold blockOf
  repeat' (first | refine ite_lt (fun h => ?_) ?_ | omega)

end Sys2Proof.Machine
end

