-- ==== Sys2Proof/Laws/Seq.lean ====
section
/-!
SUPPORT. The Timetable sequencer: what an issue comes to (08 R185, R189), once for all Slate-T instructions, and the queue of
row work.
-/
namespace Sys2Proof.Machine

open Sys2Proof.Safety

/-- A word of the form has its opcode. -/
theorem TShape.opc_of_ok {p : TShape} {w : SlateWord} (h : p.ok w = true) : w.opc = p.opc := by
  unfold TShape.ok at h
  simp only [Bool.and_eq_true, beq_iff_eq] at h
  obtain ⟨⟨⟨⟨⟨⟨⟨⟨⟨⟨⟨⟨⟨h, _⟩, _⟩, _⟩, _⟩, _⟩, _⟩, _⟩, _⟩, _⟩, _⟩, _⟩, _⟩, _⟩ := h
  exact h.symm

/-- An instruction of its own form comes to its effect, with the program counter past it. -/
theorem State.seqIssue_eq {s : State} {p : TShape} {w : SlateWord} {bad : Bool} {f : State → State} (h : SeqIssues s p w)
    (hb : bad = false) : s.seqIssue p w bad f = .next (f (s.seqPc (s.seqNext w))) := by
  obtain ⟨h1, h2, h3, h4⟩ := h
  have hp : ¬ 65536 < s.seq.pc + 8 := by
    unfold State.seqNext at h2
    rcases h : w.ext <;> rw [h] at h2 <;> revert h2 <;> intro h2
    · exact Nat.not_lt.2 h2
    · exact Nat.not_lt.2 (Nat.le_trans (Nat.add_le_add_left (by decide) _) h2)
  unfold State.seqIssue State.seqSeen
  rw [if_pos h1, if_neg hp, TShape.opc_of_ok h3, bne_self_eq_false, Bool.false_and, if_neg Bool.false_ne_true,
    if_neg (Nat.not_lt.2 h2), h3, h4, hb, if_neg (by decide), if_neg (Nat.not_lt.2 h2)]

/-- A fetch whose first word lies past program memory is BRANCH. -/
theorem State.seqIssue_branch {s : State} {p : TShape} {w : SlateWord} {bad : Bool} {f : State → State}
    (h1 : s.seqRunning = true) (h2 : 65536 < s.seq.pc + 8) : s.seqIssue p w bad f = .next (s.seqFault 4) := by
  unfold State.seqIssue
  rw [if_pos h1, if_pos h2]

/-- A word whose opcode no instruction has, that is not of the form, or with an operand its table does not allow, is ILLEGAL,
wherever its extension word lies. -/
theorem State.seqIssue_illegal {s : State} {p : TShape} {w : SlateWord} {bad : Bool} {f : State → State}
    (h1 : s.seqRunning = true) (h2 : s.seq.pc + 8 ≤ 65536) (ho : w.opc = p.opc ∨ slateTOpcode w.opc.toNat = false)
    (h3 : p.ok (s.seqSeen w) = false ∨ bad = true) : s.seqIssue p w bad f = .next (s.seqFault 1) := by
  unfold State.seqIssue
  rw [if_pos h1, if_neg (by omega), if_neg (by rcases ho with h | h <;> simp [h]),
    if_pos (by rcases h3 with h3 | h3 <;> simp [h3])]

/-- An instruction that issues with an operand its table does not allow is ILLEGAL. -/
theorem State.seqIssue_bad {s : State} {p : TShape} {w : SlateWord} {bad : Bool} {f : State → State} (h : SeqIssues s p w)
    (hb : bad = true) : s.seqIssue p w bad f = .next (s.seqFault 1) := by
  have := h.2.1
  refine State.seqIssue_illegal h.1 ?_ (.inl (TShape.opc_of_ok h.2.2.1)) (.inr hb)
  unfold State.seqNext at this
  split at this <;> omega

/-- An extension word past program memory raises BRANCH when nothing else is wrong with the instruction (08 R185). -/
theorem State.seqIssue_past {s : State} {p : TShape} {w : SlateWord} {bad : Bool} {f : State → State}
    (h1 : s.seqRunning = true) (h2 : s.seq.pc + 8 ≤ 65536) (h3 : p.ok (s.seqSeen w) = true) (h4 : bad = false)
    (h5 : (s.seq.bad.any fun x => s.seq.pc / 8 ≤ x && x < s.seqNext w / 8) = false) (h6 : 65536 < s.seqNext w) :
    s.seqIssue p w bad f = .next (s.seqFault 4) := by
  have ho : w.opc = p.opc := by
    have := TShape.opc_of_ok h3
    unfold State.seqSeen at this
    rwa [if_pos h6] at this
  unfold State.seqIssue
  rw [if_pos h1, if_neg (by omega), if_neg (by simp [ho]), h3, h4, h5, if_neg (by decide), if_pos h6]

/-- Only a shape that takes a 32-bit immediate has an extension word. -/
theorem TShape.bsel_of_ext {p : TShape} {w : SlateWord} (h : p.ok w = true) (he : w.ext = true) : 3 ∈ p.bsels := by
  unfold TShape.ok at h
  simp only [Bool.and_eq_true, beq_iff_eq] at h
  obtain ⟨⟨⟨⟨⟨⟨⟨_, hb⟩, _⟩, _⟩, hx⟩, _⟩, _⟩, _⟩ := h
  rw [he] at hx
  have : w.bsel = 3 := by simpa using hx.symm
  rw [this] at hb
  exact List.contains_iff_mem.1 hb

/-- A sequencer that does not run issues nothing. -/
theorem State.seqIssue_idle {s : State} {p : TShape} {w : SlateWord} {bad : Bool} {f : State → State}
    (h1 : s.seqRunning = false) : s.seqIssue p w bad f = .next s := by
  unfold State.seqIssue
  rw [if_neg (by rw [h1]; decide)]

/-- Setting the program counter back to where it stood undoes its advance. -/
theorem State.seqPc_back (s : State) (n : Nat) : (s.seqPc n).seqPc s.seq.pc = s := rfl

/-- A DISPATCH queues rows in order while there is room (08 R193). -/
theorem pushDescs_eq (entry frame n r : Nat) (q : List (BitVec 64)) :
    pushDescs entry frame n r q = (q ++ (List.range (min n (1024 - q.length))).map (fun i => descOf entry (r + i) frame),
      n - min n (1024 - q.length)) := by
  induction n generalizing r q with
  | zero => simp [pushDescs]
  | succ n ih =>
    unfold pushDescs
    by_cases h : q.length < 1024
    · rw [if_pos h, ih]
      have e : min (n + 1) (1024 - q.length) = min n (1024 - (q ++ [descOf entry r frame]).length) + 1 := by
        rw [List.length_append, List.length_singleton]; omega
      rw [e, List.range_succ_eq_map, List.map_cons, List.append_assoc, List.singleton_append, List.map_map]
      refine congr (congrArg Prod.mk (congrArg (q ++ ·) (congrArg₂ List.cons rfl (List.map_congr_left fun i _ => ?_)))) ?_
      · show descOf entry (r + 1 + i) frame = descOf entry (r + (i + 1)) frame
        rw [Nat.add_assoc, Nat.add_comm 1 i]
      · omega
    · rw [if_neg h, show min (n + 1) (1024 - q.length) = 0 by omega]
      simp

end Sys2Proof.Machine
end

