-- ==== Sys2Proof/Laws/Timed.lean ====
section
/-!
SUPPORT. `Timed s t`: the frame, its slot and when they began, the mode and the flips to come stand as they were. One lemma
for each operation that a slot start or a flip calls; those that begin a slot or a frame say what it is.
-/
namespace Sys2Proof.Machine

open Sys2Proof.Safety

structure Timed (s t : State) : Prop where
  slot : t.seq.slot = s.seq.slot
  slotAt : t.seq.slotAt = s.seq.slotAt
  flipAt : t.seq.flipAt = s.seq.flipAt
  frame : t.seq.frame = s.seq.frame
  flipWall : t.seq.flipWall = s.seq.flipWall
  blanked : t.seq.blanked = s.seq.blanked
  rate : t.seq.rate = s.seq.rate
  switchFrame : t.seq.switchFrame = s.seq.switchFrame
  freeRun : t.seq.freeRun = s.seq.freeRun
  nextFlip : t.asm.nextFlip = s.asm.nextFlip
  holdover : t.asm.holdover = s.asm.holdover
  wall : t.asm.wall = s.asm.wall
  now : t.now = s.now

theorem Timed.refl (s : State) : Timed s s := ⟨rfl, rfl, rfl, rfl, rfl, rfl, rfl, rfl, rfl, rfl, rfl, rfl, rfl⟩

theorem Timed.trans {s t u : State} (h : Timed s t) (k : Timed t u) : Timed s u :=
  ⟨k.slot.trans h.slot, k.slotAt.trans h.slotAt, k.flipAt.trans h.flipAt, k.frame.trans h.frame, k.flipWall.trans h.flipWall, k.blanked.trans h.blanked, 
    k.rate.trans h.rate, k.switchFrame.trans h.switchFrame, k.freeRun.trans h.freeRun, k.nextFlip.trans h.nextFlip, k.holdover.trans h.holdover, k.wall.trans h.wall, k.now.trans h.now⟩

theorem Timed.of_mk {s x : State} {pending : List Instr} {now draws : Nat} {regs : SMap Word} {lanes : SMap Lane}
    {asm : Asm} {dec : Dec} {syn : Syn} {seq : Seq} {plc : Plc} {blt : Blt} {sec : Sec} {cam : Cam} {fin : Fin_}
    {tlk : Tlk} {rpt : Rpt} {cal : Cal} {sat : Sat} {thm : Thm} {avs : Avs} {dmc : Dmc} {host : HostIf} {clk : Clk}
    {rst : Rst} {cyc : Machine.Cycle} (h : Timed s x)
    (h0 : seq.slot = x.seq.slot)
    (h1 : seq.slotAt = x.seq.slotAt)
    (h2 : seq.flipAt = x.seq.flipAt)
    (h3 : seq.frame = x.seq.frame)
    (h4 : seq.flipWall = x.seq.flipWall)
    (h5 : seq.blanked = x.seq.blanked)
    (h6 : seq.rate = x.seq.rate)
    (h7 : seq.switchFrame = x.seq.switchFrame)
    (h8 : seq.freeRun = x.seq.freeRun)
    (h9 : asm.nextFlip = x.asm.nextFlip)
    (h10 : asm.holdover = x.asm.holdover)
    (h11 : asm.wall = x.asm.wall)
    (h12 : now = x.now) :
    Timed s ⟨pending, now, draws, regs, lanes, asm, dec, syn, seq, plc, blt, sec, cam, fin, tlk, rpt, cal, sat, thm, avs,
      dmc, host, clk, rst, cyc⟩ := h.trans ⟨h0, h1, h2, h3, h4, h5, h6, h7, h8, h9, h10, h11, h12⟩

theorem Timed.ite {s a b : State} {c : Prop} [Decidable c] (h : Timed s a) (k : Timed s b) : Timed s (if c then a else b) := by
  split
  · exact h
  · exact k

theorem Timed.foldl {α : Type} {s i : State} {f : State → α → State} {l : List α} (hi : Timed s i)
    (hf : ∀ x a, Timed x (f x a)) : Timed s (l.foldl f i) := by
  induction l generalizing i with
  | nil => exact hi
  | cons a l ih => exact ih (hi.trans (hf i a))

theorem Timed.foldl1 {α β : Type} {s : State} {i : State × β} {f : State × β → α → State × β} {l : List α}
    (hi : Timed s i.1) (hf : ∀ x a, Timed x.1 (f x a).1) : Timed s (l.foldl f i).1 := by
  induction l generalizing i with
  | nil => exact hi
  | cons a l ih => exact ih (hi.trans (hf i a))

theorem Timed.of_fst {β : Type} {s t : State} {p : State × β} {b : β} (e : p = (t, b)) (h : Timed s p.1) : Timed s t := by
  subst e; exact h

theorem State.dram_timed (s : State) (a : Nat) (bs : List Byte) :
    Timed s { s with dmc := { s.dmc with dram := Memory.store s.dmc.dram a bs } } :=
  ⟨rfl, rfl, rfl, rfl, rfl, rfl, rfl, rfl, rfl, rfl, rfl, rfl, rfl⟩

theorem State.setReg_timed (s : State) (off : Nat) (v : Word) : Timed s (s.setReg off v) :=
  ⟨rfl, rfl, rfl, rfl, rfl, rfl, rfl, rfl, rfl, rfl, rfl, rfl, rfl⟩

theorem State.setFld_timed (s : State) (off : Nat) (hi : Nat) (lo : Nat) (v : Nat) :
    Timed s (s.setFld off hi lo v) := by
  unfold State.setFld
  exact (State.setReg_timed ..)

theorem State.noteSet_timed (s : State) (off : Nat) (mask : Nat) :
    Timed s (s.noteSet off mask) := by
  unfold State.noteSet
  refine Timed.of_mk ?_ rfl rfl rfl rfl rfl rfl rfl rfl rfl rfl rfl rfl rfl
  exact Timed.refl _

theorem State.setFlag_timed (s : State) (off : Nat) (b : Nat) :
    Timed s (s.setFlag off b) := by
  unfold State.setFlag
  exact .trans ((State.noteSet_timed ..)) (State.setReg_timed ..)

theorem State.clrFlag_timed (s : State) (off : Nat) (b : Nat) :
    Timed s (s.clrFlag off b) := by
  unfold State.clrFlag
  exact (State.setReg_timed ..)

theorem State.noteInc_timed (s : State) (off : Nat) (n : Nat) :
    Timed s (s.noteInc off n) := by
  unfold State.noteInc
  refine Timed.of_mk ?_ rfl rfl rfl rfl rfl rfl rfl rfl rfl rfl rfl rfl rfl
  exact Timed.refl _

theorem State.bump_timed (s : State) (off : Nat) (n : Nat) :
    Timed s (s.bump off n) := by
  unfold State.bump
  exact .trans ((State.noteInc_timed ..)) (State.setReg_timed ..)

theorem State.assertEvent_timed (s : State) (e : Nat) :
    Timed s (s.assertEvent e) := by
  unfold State.assertEvent
  extract_lets -merge -useContext -underBinder +onlyGivenNames v0 x2 v1
  try clear_value v0
  have h3 : Timed s v1 := by
    unfold v1
    split
    · refine Timed.of_mk ?_ rfl rfl rfl rfl rfl rfl rfl rfl rfl rfl rfl rfl rfl
      exact Timed.refl _
    · exact Timed.refl _
  clear_value v1
  split
  · refine Timed.of_mk ?_ rfl rfl rfl rfl rfl rfl rfl rfl rfl rfl rfl rfl rfl
    exact h3
  · exact h3

theorem State.event_timed (s : State) (e : Nat) :
    Timed s (s.event e) := by
  unfold State.event
  split
  · extract_lets -merge -useContext -underBinder +onlyGivenNames v0 v1
    try clear_value v0
    have h2 : Timed s v1 := by
      unfold v1
      exact (State.setFlag_timed ..)
    clear_value v1
    split
    · refine Timed.of_mk ?_ rfl rfl rfl rfl rfl rfl rfl rfl rfl rfl rfl rfl rfl
      exact h2
    · split
      · exact .trans h2 (State.assertEvent_timed ..)
      · exact h2
  · exact Timed.refl _

theorem State.latchWords_timed (s : State) (off : Nat) (ev : Option Nat) (ws : List (Nat × Word)) :
    Timed s (s.latchWords off ev ws) := by
  unfold State.latchWords
  extract_lets -merge -useContext -underBinder +onlyGivenNames v0
  have h1 : Timed s v0 := by
    unfold v0
    refine Timed.foldl ?_ (fun y2 _ => ?_)
    · exact (State.noteSet_timed ..)
    · exact (State.setReg_timed ..)
  clear_value v0
  split
  · exact .trans h1 (State.event_timed ..)
  · exact h1

theorem State.latchFirst_timed (s : State) (off : Nat) (rank : Nat) (ws : List (Nat × Word)) (ev : Option Nat) :
    Timed s (s.latchFirst off rank ws ev) := by
  unfold State.latchFirst
  extract_lets -merge -useContext -underBinder +onlyGivenNames v0
  try clear_value v0
  split
  · exact Timed.refl _
  · extract_lets -merge -useContext -underBinder +onlyGivenNames v1 x3 v2
    try clear_value v1
    have h4 : Timed s v2 := by
      unfold v2
      refine Timed.of_mk ?_ rfl rfl rfl rfl rfl rfl rfl rfl rfl rfl rfl rfl rfl
      exact Timed.refl _
    clear_value v2
    split
    · exact .trans h4 (State.latchWords_timed ..)
    · exact h4

theorem State.relatch_timed (s : State) (off : Nat) :
    Timed s (s.relatch off) := by
  unfold State.relatch
  split
  · exact Timed.refl _
  · split
    · exact (State.latchWords_timed ..)
    · exact Timed.refl _

theorem State.noteSram_timed (s : State) (array : Nat) (lo : Nat) (hi : Nat) :
    Timed s (s.noteSram array lo hi) := by
  unfold State.noteSram
  refine Timed.of_mk ?_ rfl rfl rfl rfl rfl rfl rfl rfl rfl rfl rfl rfl rfl
  exact Timed.refl _

theorem State.violation_timed (s : State) (t : Nat) (m : Nat) (o : Nat) (write : Bool) :
    Timed s (s.violation t m o write) := by
  unfold State.violation
  exact .trans (.trans ((State.bump_timed ..)) (State.event_timed ..)) (State.latchFirst_timed ..)

theorem State.setChan_timed (s : State) (c : Nat) (v : Chan) :
    Timed s (s.setChan c v) := by
  unfold State.setChan
  refine Timed.of_mk ?_ rfl rfl rfl rfl rfl rfl rfl rfl rfl rfl rfl rfl rfl
  exact Timed.refl _

theorem State.setPoison_timed (s : State) (ln : Nat) (b : Bool) :
    Timed s (s.setPoison ln b) := by
  unfold State.setPoison
  refine Timed.of_mk ?_ rfl rfl rfl rfl rfl rfl rfl rfl rfl rfl rfl rfl rfl
  exact Timed.refl _

theorem State.setSoft_timed (s : State) (ln : Nat) (b : Bool) :
    Timed s (s.setSoft ln b) := by
  unfold State.setSoft
  refine Timed.of_mk ?_ rfl rfl rfl rfl rfl rfl rfl rfl rfl rfl rfl rfl rfl
  exact Timed.refl _

theorem State.uncorrectable_timed (s : State) (ln : Nat) (m : Nat) (kind : Nat) :
    Timed s (s.uncorrectable ln m kind) := by
  unfold State.uncorrectable
  extract_lets -merge -useContext -underBinder +onlyGivenNames v0
  try clear_value v0
  exact .trans (.trans ((State.bump_timed ..)) (State.event_timed ..)) (State.latchFirst_timed ..)

theorem State.readLine_timed (s : State) (ln : Nat) (m : Nat) (kind : Nat) :
    Timed s (s.readLine ln m kind).1 := by
  unfold State.readLine
  extract_lets -merge -useContext -underBinder +onlyGivenNames v0 v1
  try clear_value v0
  have h2 : Timed s v1 := by
    unfold v1
    exact (State.bump_timed ..)
  clear_value v1
  split
  · exact .trans h2 (State.uncorrectable_timed ..)
  · split
    · exact .trans (.trans h2 (State.bump_timed ..)) (State.event_timed ..)
    · exact h2

theorem State.fetchLine_timed (s : State) (ln : Nat) (m : Nat) :
    Timed s (s.fetchLine ln m).1 := by
  unfold State.fetchLine
  split
  · extract_lets -merge -useContext -underBinder +onlyGivenNames v0
    have h1 : Timed s v0 := by
      unfold v0
      exact (State.bump_timed ..)
    clear_value v0
    split
    · exact .trans h1 (State.uncorrectable_timed ..)
    · exact h1
  · exact (State.readLine_timed ..)

theorem State.devRead_timed (s : State) (m : Nat) (a : Nat) (n : Nat) :
    Timed s (s.devRead m a n).1 := by
  unfold State.devRead
  split
  · exact Timed.refl _
  · split
    · exact Timed.refl _
    · refine Timed.foldl1 ?_ (fun y0 _ => ?_)
      · exact Timed.refl _
      · dsimp only
        split
        · exact (State.violation_timed ..)
        · split
          · exact Timed.refl _
          · exact (State.fetchLine_timed ..)

theorem State.keepReads_timed (s : State) (c : Nat) (lo : Nat) (hi : Nat) :
    Timed s (s.keepReads c lo hi) := by
  unfold State.keepReads
  extract_lets -merge -useContext -underBinder +onlyGivenNames v0 v1 v2
  try clear_value v2; try clear_value v1; try clear_value v0
  split
  · exact (State.setChan_timed ..)
  · exact Timed.refl _

theorem State.dropScrub_timed (s : State) (ln : Nat) :
    Timed s (s.dropScrub ln) := by
  unfold State.dropScrub
  refine Timed.of_mk ?_ rfl rfl rfl rfl rfl rfl rfl rfl rfl rfl rfl rfl rfl
  exact Timed.refl _

theorem State.putLine_timed (s : State) (a : Nat) (bs : List Byte) :
    Timed s (s.putLine a bs) := by
  unfold State.putLine
  extract_lets -merge -useContext -underBinder +onlyGivenNames v0 v1
  try clear_value v0
  have h2 : Timed s v1 := by
    unfold v1
    exact .trans ((State.keepReads_timed ..)) (State.dropScrub_timed ..)
  clear_value v1
  split
  · extract_lets -merge -useContext -underBinder +onlyGivenNames v3
    have h4 : Timed s v3 := by
      unfold v3
      exact .trans (.trans h2 (State.setPoison_timed ..)) (State.setSoft_timed ..)
    clear_value v3
    exact h4.trans (State.dram_timed v3 a bs)
  · split
    · exact h2
    · exact h2.trans (State.dram_timed v1 a bs)

theorem State.mergeLine_timed (s : State) (ln : Nat) (m : Nat) :
    Timed s (s.mergeLine ln m) := by
  unfold State.mergeLine
  exact .trans ((State.readLine_timed ..)) (State.setSoft_timed ..)

theorem State.joinWrite_timed (s : State) (ln : Nat) (whole : Bool) :
    Timed s (s.joinWrite ln whole) := by
  unfold State.joinWrite
  extract_lets -merge -useContext -underBinder +onlyGivenNames v0 v1 v2
  try clear_value v2; try clear_value v1; try clear_value v0
  exact (State.setChan_timed ..)

theorem State.storeLine_timed (s : State) (m : Nat) (ln : Nat) (a : Nat) (bs : List Byte) :
    Timed s (s.storeLine m ln a bs) := by
  unfold State.storeLine
  extract_lets -merge -useContext -underBinder +onlyGivenNames v0 v1
  try clear_value v0
  have h1 : Timed s v1 := by
    unfold v1
    split
    · exact State.joinWrite_timed ..
    · refine Timed.trans ?_ (State.bump_timed ..)
      split
      · exact Timed.refl _
      · exact State.mergeLine_timed ..
  clear_value v1
  exact h1.trans (State.putLine_timed ..)

theorem State.devWrite_timed (s : State) (m : Nat) (a : Nat) (bs : List Byte) (stop : Bool) :
    Timed s (s.devWrite m a bs stop).1 := by
  unfold State.devWrite
  split
  · exact Timed.refl _
  · split
    · exact Timed.refl _
    · refine Timed.foldl1 ?_ (fun y0 _ => ?_)
      · exact Timed.refl _
      · split
        · split
          · extract_lets -merge -useContext -underBinder +onlyGivenNames v1
            try clear_value v1
            split
            · exact Timed.refl _
            · split
              · exact (State.violation_timed ..)
              · split
                · exact Timed.refl _
                · exact (State.storeLine_timed ..)

theorem State.noteQueues_timed (s : State) :
    Timed s (s.noteQueues) := by
  unfold State.noteQueues
  refine Timed.of_mk ?_ rfl rfl rfl rfl rfl rfl rfl rfl rfl rfl rfl rfl rfl
  exact Timed.refl _

theorem State.noteWrite_timed (s : State) (off : Nat) :
    Timed s (s.noteWrite off) := by
  unfold State.noteWrite
  refine Timed.of_mk ?_ rfl rfl rfl rfl rfl rfl rfl rfl rfl rfl rfl rfl rfl
  exact Timed.refl _

theorem State.noteArm_timed (s : State) (g : Nat) (was : Bool) :
    Timed s (s.noteArm g was) := by
  unfold State.noteArm
  refine Timed.of_mk ?_ rfl rfl rfl rfl rfl rfl rfl rfl rfl rfl rfl rfl rfl
  exact Timed.refl _

theorem State.store_timed (s : State) (off : Nat) (v : Word) :
    Timed s (s.store off v) := by
  unfold State.store
  split
  · exact Timed.refl _
  · exact .trans (.trans ((State.noteWrite_timed ..)) (State.setReg_timed ..)) (State.relatch_timed ..)

theorem State.winWrite_timed (s : State) (m : Nat) (x : Nat) (bs : List Byte) :
    Timed s (s.winWrite m x bs) := by
  unfold State.winWrite
  exact (State.devWrite_timed ..)

theorem State.ownerReturn_timed (s : State) (m : Nat) (x : Nat) (status : Nat) :
    Timed s (s.ownerReturn m x status) := by
  unfold State.ownerReturn
  extract_lets -merge -useContext -underBinder +onlyGivenNames v0 v1 v2
  try clear_value v1; try clear_value v0
  have h3 : Timed s v2 := by
    unfold v2
    exact (State.winWrite_timed ..)
  clear_value v2
  exact .trans h3 (State.winWrite_timed ..)

theorem State.dropExtent_timed (s : State) (x : Nat) : Timed s (s.dropExtent x) :=
  ⟨rfl, rfl, rfl, rfl, rfl, rfl, rfl, rfl, rfl, rfl, rfl, rfl, rfl⟩

theorem State.returnBuffer_timed (s : State) (m : Nat) (x : Nat) (status : Nat) :
    Timed s (s.returnBuffer m x status) := by
  unfold State.returnBuffer
  exact .trans ((State.ownerReturn_timed ..)) (State.dropExtent_timed ..)

theorem State.mboxFill_timed (s : State) (k : Nat) (d : List Word) :
    Timed s (s.mboxFill k d) := by
  unfold State.mboxFill
  extract_lets -merge -useContext -underBinder +onlyGivenNames v0 v1
  try clear_value v0
  have h2 : Timed s v1 := by
    unfold v1
    exact (State.setReg_timed ..)
  clear_value v1
  refine Timed.trans ?_ (State.event_timed ..)
  refine Timed.foldl ?_ (fun y3 _ => ?_)
  · exact h2
  · exact (State.setReg_timed ..)

theorem State.mboxResult_timed (s : State) (k : Nat) (d : List Word) :
    Timed s (s.mboxResult k d) := by
  unfold State.mboxResult
  split
  · refine Timed.of_mk ?_ rfl rfl rfl rfl rfl rfl rfl rfl rfl rfl rfl rfl rfl
    exact Timed.refl _
  · exact (State.mboxFill_timed ..)

theorem State.drawn_timed (s : State) : Timed s s.drawn :=
  ⟨rfl, rfl, rfl, rfl, rfl, rfl, rfl, rfl, rfl, rfl, rfl, rfl, rfl⟩

theorem State.setLane_timed (s : State) (l : Nat) (v : Lane) :
    Timed s (s.setLane l v) := by
  unfold State.setLane
  refine Timed.of_mk ?_ rfl rfl rfl rfl rfl rfl rfl rfl rfl rfl rfl rfl rfl
  exact Timed.refl _

theorem State.dropCached_timed (s : State) (p : CacheLine → Bool) :
    Timed s (s.dropCached p) := by
  unfold State.dropCached
  refine Timed.of_mk ?_ rfl rfl rfl rfl rfl rfl rfl rfl rfl rfl rfl rfl rfl
  exact Timed.refl _

theorem State.setTile_timed (s : State) (n : Nat) (t : Tile) :
    Timed s (s.setTile n t) := by
  unfold State.setTile
  refine Timed.of_mk ?_ rfl rfl rfl rfl rfl rfl rfl rfl rfl rfl rfl rfl rfl
  exact Timed.refl _

theorem State.eachTile_timed (s : State) (f : State → Nat → State) (hf : ∀ y0 y1, Timed y0 (f y0 y1)) :
    Timed s (s.eachTile f) := by
  unfold State.eachTile
  refine Timed.foldl ?_ (fun y0 _ => ?_)
  · exact Timed.refl _
  · exact (hf ..)

theorem State.handHead_timed (s : State) (l : Nat) (b : Block) :
    Timed s (s.handHead l b) := by
  unfold State.handHead
  extract_lets -merge -useContext -underBinder +onlyGivenNames v0
  try clear_value v0
  exact (State.setLane_timed ..)

theorem State.handAll_timed (s : State) (n : Nat) (f : Nat → Block) :
    Timed s (s.handAll n f) := by
  unfold State.handAll
  refine Timed.foldl ?_ (fun y0 _ => ?_)
  · exact Timed.refl _
  · exact (State.handHead_timed ..)

theorem State.dropInserts_timed (s : State) (n : Nat) :
    Timed s (s.dropInserts n) := by
  unfold State.dropInserts
  refine Timed.foldl ?_ (fun y0 _ => ?_)
  · exact Timed.refl _
  · exact (State.setLane_timed ..)

theorem State.frameHeads_timed (s : State) (short : Bool) (n : Nat) :
    Timed s (s.frameHeads short n) := by
  unfold State.frameHeads
  extract_lets -merge -useContext -underBinder +onlyGivenNames v0
  have h1 : Timed s v0 := by
    unfold v0
    exact (State.dropInserts_timed ..)
  clear_value v0
  extract_lets -merge -useContext -underBinder +onlyGivenNames v2 x4 v3
  try clear_value v2
  have h5 : Timed s v3 := by
    unfold v3
    exact .trans h1 (State.setTile_timed ..)
  clear_value v3
  split
  · exact h5
  · exact .trans h5 (State.handAll_timed ..)

theorem State.cutRow_timed (s : State) (n : Nat) :
    Timed s (s.cutRow n) := by
  unfold State.cutRow
  split
  · extract_lets -merge -useContext -underBinder +onlyGivenNames v0
    try clear_value v0
    exact .trans ((State.handAll_timed ..)) (State.setTile_timed ..)
  · exact Timed.refl _

theorem State.rowHeads_timed (s : State) (k : Nat) (n : Nat) :
    Timed s (s.rowHeads k n) := by
  unfold State.rowHeads
  extract_lets -merge -useContext -underBinder +onlyGivenNames x1 v0
  have h2 : Timed s v0 := by
    unfold v0
    exact (State.setTile_timed ..)
  clear_value v0
  split
  · exact h2
  · exact .trans (.trans h2 (State.handAll_timed ..)) (State.setTile_timed ..)

theorem State.tileCommand_timed (s : State) (n : Nat) (src : CmdSrc) (op : Nat) (arg : Nat) :
    Timed s (s.tileCommand n src op arg) := by
  unfold State.tileCommand
  extract_lets -merge -useContext -underBinder +onlyGivenNames v0
  try clear_value v0
  exact (State.setTile_timed ..)

theorem State.zeroApp_timed (s : State) (n : Nat) :
    Timed s (s.zeroApp n) := by
  unfold State.zeroApp
  exact .trans (.trans ((State.setReg_timed ..)) (State.setTile_timed ..)) (State.clrFlag_timed ..)

theorem State.codeAppStep_timed (s : State) (n : Nat) :
    Timed s (s.codeAppStep n) := by
  unfold State.codeAppStep
  extract_lets -merge -useContext -underBinder +onlyGivenNames v0 v1
  try clear_value v1; try clear_value v0
  split
  · exact (State.zeroApp_timed ..)
  · extract_lets -merge -useContext -underBinder +onlyGivenNames v2 v3 x5 v4 v6 v7 v8
    try clear_value v7; try clear_value v6; try clear_value v4; try clear_value v3; try clear_value v2
    have h9 : Timed s v8 := by
      unfold v8
      exact (State.setReg_timed ..)
    clear_value v8
    split
    · exact .trans (.trans h9 (State.setTile_timed ..)) (State.setFlag_timed ..)
    · exact h9

theorem State.tileLinks_timed (s : State) (n : Nat) :
    Timed s (s.tileLinks n) := by
  unfold State.tileLinks
  extract_lets -merge -useContext -underBinder +onlyGivenNames v0
  try clear_value v0
  split
  · extract_lets -merge -useContext -underBinder +onlyGivenNames v1
    have h2 : Timed s v1 := by
      unfold v1
      exact .trans (.trans ((State.setTile_timed ..)) (State.zeroApp_timed ..)) (State.event_timed ..)
    clear_value v1
    split
    · exact .trans (.trans h2 (State.setTile_timed ..)) (State.setFlag_timed ..)
    · exact h2
  · exact Timed.refl _

theorem State.commitTlk_timed (s : State) :
    Timed s (s.commitTlk) := by
  unfold State.commitTlk
  split
  · extract_lets -merge -useContext -underBinder +onlyGivenNames v0 v1 v2 x4 v3
    try clear_value v2; try clear_value v1; try clear_value v0
    have h5 : Timed s v3 := by
      unfold v3
      refine Timed.of_mk ?_ rfl rfl rfl rfl rfl rfl rfl rfl rfl rfl rfl rfl rfl
      exact Timed.refl _
    clear_value v3
    refine Timed.trans ?_ (State.eachTile_timed (hf := fun y6 _ => ?_) ..)
    · exact h5
    · extract_lets -merge -useContext -underBinder +onlyGivenNames v7
      try clear_value v7
      split
      · exact Timed.refl _
      · exact (State.tileCommand_timed ..)
  · exact Timed.refl _

theorem State.chooseManifest_timed (s : State) (t : Nat) :
    Timed s (s.chooseManifest t) := by
  unfold State.chooseManifest
  extract_lets -merge -useContext -underBinder +onlyGivenNames v0
  try clear_value v0
  split
  · refine Timed.of_mk ?_ rfl rfl rfl rfl rfl rfl rfl rfl rfl rfl rfl rfl rfl
    exact Timed.refl _
  · refine Timed.trans ?_ (State.bump_timed ..)
    refine Timed.of_mk ?_ rfl rfl rfl rfl rfl rfl rfl rfl rfl rfl rfl rfl rfl
    exact Timed.refl _

theorem State.invalidateAll_timed (s : State) :
    Timed s (s.invalidateAll) := by
  unfold State.invalidateAll
  refine Timed.of_mk ?_ rfl rfl rfl rfl rfl rfl rfl rfl rfl rfl rfl rfl rfl
  exact Timed.refl _

theorem State.manifestInForce_timed (s : State) (m : Manifest) (mask : BitVec 16) :
    Timed s (s.manifestInForce m mask) := by
  unfold State.manifestInForce
  extract_lets -merge -useContext -underBinder +onlyGivenNames v0 v1 v2
  try clear_value v2; try clear_value v1; try clear_value v0
  refine Timed.of_mk ?_ rfl rfl rfl rfl rfl rfl rfl rfl rfl rfl rfl rfl rfl
  exact Timed.refl _

theorem State.setDecoder_timed (s : State) (d : Nat) (v : Decoder) :
    Timed s (s.setDecoder d v) := by
  unfold State.setDecoder
  refine Timed.of_mk ?_ rfl rfl rfl rfl rfl rfl rfl rfl rfl rfl rfl rfl rfl
  exact Timed.refl _

theorem State.openDeadlines_timed (s : State) :
    Timed s (s.openDeadlines) := by
  unfold State.openDeadlines
  refine Timed.of_mk ?_ rfl rfl rfl rfl rfl rfl rfl rfl rfl rfl rfl rfl rfl
  exact Timed.refl _

theorem State.abandonDecoding_timed (s : State) :
    Timed s (s.abandonDecoding) := by
  unfold State.abandonDecoding
  refine Timed.foldl ?_ (fun y0 _ => ?_)
  · exact Timed.refl _
  · split
    · exact Timed.refl _
    · exact .trans ((State.setDecoder_timed ..)) (State.bump_timed ..)
    · exact Timed.refl _

theorem State.correctExpress_timed (s : State) :
    Timed s (s.correctExpress) := by
  unfold State.correctExpress
  refine Timed.of_mk ?_ rfl rfl rfl rfl rfl rfl rfl rfl rfl rfl rfl rfl rfl
  exact Timed.refl _

theorem State.seqPc_timed (s : State) (pc : Nat) :
    Timed s (s.seqPc pc) := by
  unfold State.seqPc
  refine Timed.of_mk ?_ rfl rfl rfl rfl rfl rfl rfl rfl rfl rfl rfl rfl rfl
  exact Timed.refl _

theorem State.seqSt_timed (s : State) (st : SeqSt) :
    Timed s (s.seqSt st) := by
  unfold State.seqSt
  refine Timed.of_mk ?_ rfl rfl rfl rfl rfl rfl rfl rfl rfl rfl rfl rfl rfl
  exact Timed.refl _

theorem State.seqWait_timed (s : State) (at_ : Nat) (x : SeqWait) :
    Timed s (s.seqWait at_ x) := by
  unfold State.seqWait
  exact .trans ((State.seqPc_timed ..)) (State.seqSt_timed ..)

theorem State.seqDone_timed (s : State) :
    Timed s (s.seqDone) := by
  unfold State.seqDone
  exact .trans ((State.seqPc_timed ..)) (State.seqSt_timed ..)

theorem State.seqSlotBegins_timed (s : State) (k : Nat) :
    Timed s (s.seqSlotBegins k) := by
  unfold State.seqSlotBegins
  split
  · split
    · exact (State.seqDone_timed ..)
    · exact Timed.refl _
  · exact Timed.refl _

theorem State.dispatchRows_timed (s : State) (at_ : Nat) (entry : Nat) (row : Nat) (count : Nat) (frame : Nat) :
    Timed s (s.dispatchRows at_ entry row count frame) := by
  unfold State.dispatchRows
  extract_lets -merge -useContext -underBinder +onlyGivenNames v0 x2 v1
  try clear_value v0
  have h3 : Timed s v1 := by
    unfold v1
    refine Timed.of_mk ?_ rfl rfl rfl rfl rfl rfl rfl rfl rfl rfl rfl rfl rfl
    exact Timed.refl _
  clear_value v1
  split
  · exact .trans (.trans h3 (State.seqPc_timed ..)) (State.seqSt_timed ..)
  · exact .trans h3 (State.seqWait_timed ..)

theorem State.dispatchOn_timed (s : State) :
    Timed s (s.dispatchOn) := by
  unfold State.dispatchOn
  split
  · exact (State.dispatchRows_timed ..)
  · exact Timed.refl _

theorem State.dispatchRow_timed (s : State) (f : Nat) (r : Nat) (blank : Bool) :
    Timed s (s.dispatchRow f r blank).1 := by
  unfold State.dispatchRow
  extract_lets -merge -useContext -underBinder +onlyGivenNames v0 v1 x3 v2
  try clear_value v1; try clear_value v0
  have h4 : Timed s v2 := by
    unfold v2
    refine Timed.trans ?_ (State.bump_timed ..)
    refine Timed.of_mk ?_ rfl rfl rfl rfl rfl rfl rfl rfl rfl rfl rfl rfl rfl
    exact Timed.refl _
  clear_value v2
  split
  · exact .trans h4 (State.dispatchOn_timed ..)
  · exact .trans (.trans h4 (State.bump_timed ..)) (State.dispatchOn_timed ..)

theorem State.commitLate_timed (s : State) :
    Timed s (s.commitLate) := by
  unfold State.commitLate
  exact .trans (.trans ((State.setFlag_timed ..)) (State.bump_timed ..)) (State.event_timed ..)

theorem State.commitGeo_timed (s : State) :
    Timed s (s.commitGeo) := by
  unfold State.commitGeo
  split
  · extract_lets -merge -useContext -underBinder +onlyGivenNames v0
    try clear_value v0
    refine Timed.of_mk ?_ rfl rfl rfl rfl rfl rfl rfl rfl rfl rfl rfl rfl rfl
    exact Timed.refl _
  · exact Timed.refl _

theorem State.geoInForce_timed (s : State) :
    Timed s (s.geoInForce) := by
  unfold State.geoInForce
  split
  · refine Timed.of_mk ?_ rfl rfl rfl rfl rfl rfl rfl rfl rfl rfl rfl rfl rfl
    exact Timed.refl _
  · exact Timed.refl _

theorem State.setThread_timed (s : State) (k : Nat) (v : Thread) :
    Timed s (s.setThread k v) := by
  unfold State.setThread
  refine Timed.of_mk ?_ rfl rfl rfl rfl rfl rfl rfl rfl rfl rfl rfl rfl rfl
  exact Timed.refl _

theorem State.setEngine_timed (s : State) (k : Nat) (v : Engine) :
    Timed s (s.setEngine k v) := by
  unfold State.setEngine
  refine Timed.of_mk ?_ rfl rfl rfl rfl rfl rfl rfl rfl rfl rfl rfl rfl rfl
  exact Timed.refl _

theorem State.homeWrite_timed (s : State) (hr : Nat) (off : Nat) (ws : List Word) :
    Timed s (s.homeWrite hr off ws) := by
  unfold State.homeWrite
  extract_lets -merge -useContext -underBinder +onlyGivenNames v0
  have h1 : Timed s v0 := by
    unfold v0
    exact (State.noteSram_timed ..)
  refine Timed.of_mk ?_ rfl rfl rfl rfl rfl rfl rfl rfl rfl rfl rfl rfl rfl
  exact h1

theorem State.streamRead_timed (s : State) (master src n : Nat) : Timed s (s.streamRead master src n).1 := by
  induction n with
  | zero => exact Timed.refl _
  | succ n ih => exact ih.trans (State.devRead_timed ..)

theorem State.streamDone_timed (s : State) (hr : Nat) (x : Stream) :
    Timed s (s.streamDone hr x).1 := by
  unfold State.streamDone
  extract_lets -merge -useContext -underBinder +onlyGivenNames v0
  have h1 : Timed s v0.1 := by
    unfold v0
    exact (State.streamRead_timed ..)
  clear_value v0
  exact h1

theorem State.streamLand_timed (s : State) (hr : Nat) (eng : Nat) (x : Stream) :
    Timed s (s.streamLand hr eng x) := by
  unfold State.streamLand
  extract_lets -merge -useContext -underBinder +onlyGivenNames x1 v0
  have h2 : Timed s v0 := by
    unfold v0
    refine Timed.of_mk ?_ rfl rfl rfl rfl rfl rfl rfl rfl rfl rfl rfl rfl rfl
    exact Timed.refl _
  clear_value v0
  refine Timed.foldl ?_ (fun y3 _ => ?_)
  · exact h2
  · split
    · exact Timed.refl _
    · exact (State.homeWrite_timed ..)

theorem State.launchChunk_timed (s : State) (hr : Nat) (eng : Nat) (c : Chunk) :
    Timed s (s.launchChunk hr eng c) := by
  unfold State.launchChunk
  extract_lets -merge -useContext -underBinder +onlyGivenNames v0 v1 v2
  try clear_value v1; try clear_value v0
  have h3 : Timed s v2 := by
    unfold v2
    refine Timed.foldl ?_ (fun y4 _ => ?_)
    · exact Timed.refl _
    · exact (State.setThread_timed ..)
  clear_value v2
  extract_lets -merge -useContext -underBinder +onlyGivenNames x6 v5
  have h7 : Timed s v5 := by
    unfold v5
    exact .trans h3 (State.setEngine_timed ..)
  clear_value v5
  exact .trans h7 (State.setFld_timed ..)

theorem State.cancelChunk_timed (s : State) (hr : Nat) (eng : Nat) :
    Timed s (s.cancelChunk hr eng) := by
  unfold State.cancelChunk
  extract_lets -merge -useContext -underBinder +onlyGivenNames v0
  try clear_value v0
  split
  · exact Timed.refl _
  · extract_lets -merge -useContext -underBinder +onlyGivenNames v1
    have h2 : Timed s v1 := by
      unfold v1
      refine Timed.foldl ?_ (fun y3 _ => ?_)
      · exact Timed.refl _
      · extract_lets -merge -useContext -underBinder +onlyGivenNames v4
        have h5 : Timed y3 v4 := by
          unfold v4
          refine Timed.foldl ?_ (fun y6 _ => ?_)
          · exact Timed.refl _
          · extract_lets -merge -useContext -underBinder +onlyGivenNames v7
            have h8 : Timed y6 v7.1 := by
              unfold v7
              split
              · exact Timed.refl _
              · exact (State.streamDone_timed ..)
            clear_value v7
            exact .trans h8 (State.streamLand_timed ..)
        clear_value v4
        exact .trans h5 (State.setThread_timed ..)
    clear_value v1
    exact .trans (.trans h2 (State.setEngine_timed ..)) (State.bump_timed ..)

theorem State.ringAssign_timed (s : State) (row : Nat) :
    Timed s (s.ringAssign row) := by
  unfold State.ringAssign
  refine Timed.foldl ?_ (fun y0 _ => ?_)
  · exact Timed.refl _
  · extract_lets -merge -useContext -underBinder +onlyGivenNames v1 v2 v3 v4 v5 v6
    try clear_value v6; try clear_value v5; try clear_value v4; try clear_value v3; try clear_value v2; try clear_value v1
    refine Timed.of_mk ?_ rfl rfl rfl rfl rfl rfl rfl rfl rfl rfl rfl rfl rfl
    exact Timed.refl _

theorem State.ringSet_timed (s : State) :
    Timed s (s.ringSet) := by
  unfold State.ringSet
  refine Timed.of_mk ?_ rfl rfl rfl rfl rfl rfl rfl rfl rfl rfl rfl rfl rfl
  exact Timed.refl _

theorem State.stackTable_timed (s : State) (hr : Nat) (row : Nat) (st : List StackEntry) :
    Timed s (s.stackTable hr row st) := by
  unfold State.stackTable
  extract_lets -merge -useContext -underBinder +onlyGivenNames v0 v1
  try clear_value v0
  have h2 : Timed s v1 := by
    unfold v1
    exact (State.homeWrite_timed ..)
  clear_value v1
  refine Timed.foldl ?_ (fun y3 _ => ?_)
  · exact h2
  · exact (State.homeWrite_timed ..)

theorem State.giveChunk_timed (s : State) (hr : Nat) (eng : Nat) (c : Chunk) :
    Timed s (s.giveChunk hr eng c) := by
  unfold State.giveChunk
  extract_lets -merge -useContext -underBinder +onlyGivenNames v0
  try clear_value v0
  split
  · exact Timed.refl _
  · split
    · exact (State.launchChunk_timed ..)
    · exact (State.setEngine_timed ..)

theorem State.rowStart_timed (s : State) (r : Nat) (f : Nat) (entry : Option Nat) :
    Timed s (s.rowStart r f entry) := by
  unfold State.rowStart
  extract_lets -merge -useContext -underBinder +onlyGivenNames v0
  have h1 : Timed s v0 := by
    unfold v0
    exact .trans ((State.dropCached_timed ..)) (State.ringAssign_timed ..)
  clear_value v0
  extract_lets -merge -useContext -underBinder +onlyGivenNames v2 x4 x5 v3
  try clear_value v2
  have h6 : Timed s v3 := by
    unfold v3
    split
    · refine Timed.of_mk ?_ rfl rfl rfl rfl rfl rfl rfl rfl rfl rfl rfl rfl rfl
      exact h1
    · refine Timed.of_mk ?_ rfl rfl rfl rfl rfl rfl rfl rfl rfl rfl rfl rfl rfl
      exact h1
  clear_value v3
  extract_lets -merge -useContext -underBinder +onlyGivenNames v7
  have h8 : Timed s v7 := by
    unfold v7
    refine Timed.foldl ?_ (fun y9 _ => ?_)
    · exact h6
    · split <;> [exact State.stackTable_timed ..; exact Timed.refl _]
  clear_value v7
  split
  · refine Timed.foldl ?_ (fun y10 _ => ?_)
    · exact h8
    · exact (State.giveChunk_timed ..)
  · exact h8

theorem State.rowWithheld_timed (s : State) (r : Nat) :
    Timed s (s.rowWithheld r) := by
  unfold State.rowWithheld
  split
  · refine Timed.of_mk ?_ rfl rfl rfl rfl rfl rfl rfl rfl rfl rfl rfl rfl rfl
    exact Timed.refl _
  · refine Timed.of_mk ?_ rfl rfl rfl rfl rfl rfl rfl rfl rfl rfl rfl rfl rfl
    exact Timed.refl _

theorem State.cancelRow_timed (s : State) (row : Nat) :
    Timed s (s.cancelRow row) := by
  unfold State.cancelRow
  refine Timed.foldl ?_ (fun y0 _ => ?_)
  · exact Timed.refl _
  · extract_lets -merge -useContext -underBinder +onlyGivenNames v1 v2 v3 v4 x6 v5
    try clear_value v4; try clear_value v3; try clear_value v2; try clear_value v1
    have h7 : Timed y0 v5 := by
      unfold v5
      split
      · exact .trans ((State.setEngine_timed ..)) (State.bump_timed ..)
      · exact Timed.refl _
    clear_value v5
    split
    · extract_lets -merge -useContext -underBinder +onlyGivenNames v8
      have h9 : Timed y0 v8 := by
        unfold v8
        exact .trans h7 (State.cancelChunk_timed ..)
      clear_value v8
      split
      · exact .trans h9 (State.launchChunk_timed ..)
      · exact h9
    · exact h7

theorem State.lateTest_timed (s : State) (r : Nat) :
    Timed s (s.lateTest r) := by
  unfold State.lateTest
  split
  · exact Timed.refl _
  · extract_lets -merge -useContext -underBinder +onlyGivenNames v0
    have h1 : Timed s v0 := by
      unfold v0
      exact .trans (.trans ((State.setFlag_timed ..)) (State.event_timed ..)) (State.bump_timed ..)
    clear_value v0
    extract_lets -merge -useContext -underBinder +onlyGivenNames v2
    have h3 : Timed s v2 := by
      unfold v2
      exact .trans h1 (State.setFld_timed ..)
    clear_value v2
    extract_lets -merge -useContext -underBinder +onlyGivenNames x5 v4
    have h6 : Timed s v4 := by
      unfold v4
      refine Timed.of_mk ?_ rfl rfl rfl rfl rfl rfl rfl rfl rfl rfl rfl rfl rfl
      exact h3
    clear_value v4
    split
    · split
      · refine Timed.trans ?_ (State.bump_timed ..)
        refine Timed.of_mk ?_ rfl rfl rfl rfl rfl rfl rfl rfl rfl rfl rfl rfl rfl
        exact h6
      · exact h6
    · exact h6

theorem State.shedUpdate_timed (s : State) :
    Timed s (s.shedUpdate) := by
  unfold State.shedUpdate
  extract_lets -merge -useContext -underBinder +onlyGivenNames v0 v1 v2 v3
  try clear_value v2; try clear_value v1; try clear_value v0
  have h4 : Timed s v3 := by
    unfold v3
    exact (State.bump_timed ..)
  clear_value v3
  extract_lets -merge -useContext -underBinder +onlyGivenNames x6 v5
  have h7 : Timed s v5 := by
    unfold v5
    refine Timed.of_mk ?_ rfl rfl rfl rfl rfl rfl rfl rfl rfl rfl rfl rfl rfl
    exact h4
  clear_value v5
  refine Timed.of_mk ?_ rfl rfl rfl rfl rfl rfl rfl rfl rfl rfl rfl rfl rfl
  exact h7

theorem State.pvFlip_timed (s : State) :
    Timed s (s.pvFlip) := by
  unfold State.pvFlip
  extract_lets -merge -useContext -underBinder +onlyGivenNames v0
  try clear_value v0
  split
  · exact Timed.refl _
  · split
    · exact .trans ((State.bump_timed ..)) (State.event_timed ..)
    · extract_lets -merge -useContext -underBinder +onlyGivenNames x2 v1
      have h3 : Timed s v1 := by
        unfold v1
        refine Timed.of_mk ?_ rfl rfl rfl rfl rfl rfl rfl rfl rfl rfl rfl rfl rfl
        exact Timed.refl _
      clear_value v1
      extract_lets -merge -useContext -underBinder +onlyGivenNames v4
      try clear_value v4
      split
      · exact .trans (.trans (.trans h3 (State.returnBuffer_timed ..)) (State.bump_timed ..)) (State.event_timed ..)
      · extract_lets -merge -useContext -underBinder +onlyGivenNames v5
        try clear_value v5
        refine Timed.of_mk ?_ rfl rfl rfl rfl rfl rfl rfl rfl rfl rfl rfl rfl rfl
        exact h3

theorem State.prefetchLine_timed (late : Bool) (p : State × ResidualRow) (ln : Nat) :
    Timed p.1 (State.prefetchLine late p ln).1 := by
  unfold State.prefetchLine
  dsimp only
  split
  · exact Timed.refl _
  · exact State.devRead_timed ..

theorem State.finArm_timed (s : State) :
    Timed s (s.finArm) := by
  unfold State.finArm
  extract_lets -merge -useContext -underBinder +onlyGivenNames v0
  have h1 : Timed s v0 := by
    unfold v0
    exact (State.noteArm_timed ..)
  refine Timed.of_mk ?_ rfl rfl rfl rfl rfl rfl rfl rfl rfl rfl rfl rfl rfl
  exact h1

theorem State.commitFin_timed (s : State) :
    Timed s (s.commitFin) := by
  unfold State.commitFin
  split
  · refine Timed.of_mk ?_ rfl rfl rfl rfl rfl rfl rfl rfl rfl rfl rfl rfl rfl
    exact Timed.refl _
  · exact Timed.refl _

theorem State.evalMatrix_timed (s : State) (n : Nat) :
    Timed s (s.evalMatrix n) := by
  unfold State.evalMatrix
  extract_lets -merge -useContext -underBinder +onlyGivenNames v0 v1 v2
  try clear_value v1; try clear_value v0
  have h3 : Timed s v2 := by
    unfold v2
    split
    · exact (State.setFlag_timed ..)
    · exact (State.clrFlag_timed ..)
  clear_value v2
  extract_lets -merge -useContext -underBinder +onlyGivenNames v4 v5 v6
  try clear_value v5; try clear_value v4
  have h7 : Timed s v6 := by
    unfold v6
    refine Timed.foldl ?_ (fun y8 _ => ?_)
    · exact .trans h3 (State.setReg_timed ..)
    · exact (State.setReg_timed ..)
  clear_value v6
  refine Timed.of_mk ?_ rfl rfl rfl rfl rfl rfl rfl rfl rfl rfl rfl rfl rfl
  exact h7

theorem State.finSlot447_timed (s : State) :
    Timed s (s.finSlot447) := by
  unfold State.finSlot447
  split
  · exact Timed.refl _
  · extract_lets -merge -useContext -underBinder +onlyGivenNames v0
    have h1 : Timed s v0 := by
      unfold v0
      split
      · refine Timed.of_mk ?_ rfl rfl rfl rfl rfl rfl rfl rfl rfl rfl rfl rfl rfl
        exact Timed.refl _
      · exact Timed.refl _
    clear_value v0
    refine Timed.trans ?_ (State.eachTile_timed (hf := fun y2 _ => ?_) ..)
    · exact h1
    · exact (State.evalMatrix_timed ..)

theorem State.prefetch_timed (s : State) (row : Nat) (late : Bool) :
    Timed s (s.prefetch row late) := by
  unfold State.prefetch
  split
  · extract_lets -merge -useContext -underBinder +onlyGivenNames v0 v1
    try clear_value v0
    have h2 : Timed s v1.1 := by
      unfold v1
      refine Timed.foldl1 ?_ (fun y3 _ => ?_)
      · exact Timed.refl _
      · exact State.prefetchLine_timed ..
    clear_value v1
    extract_lets -merge -useContext -underBinder +onlyGivenNames v4 v5
    try clear_value v4
    have h6 : Timed s v5 := by
      unfold v5
      exact h2
    refine Timed.of_mk ?_ rfl rfl rfl rfl rfl rfl rfl rfl rfl rfl rfl rfl rfl
    exact h6

theorem State.prefetchSlot_timed (s : State) (k : Nat) :
    Timed s (s.prefetchSlot k) := by
  unfold State.prefetchSlot
  split
  · exact Timed.refl _
  · split
    · exact (State.prefetch_timed ..)
    · split
      · exact (State.prefetch_timed ..)
      · split
        · exact (State.prefetch_timed ..)
        · exact Timed.refl _

theorem State.prefetchFlip_timed (s : State) (k : Nat) :
    Timed s (s.prefetchFlip k) := by
  unfold State.prefetchFlip
  extract_lets -merge -useContext -underBinder +onlyGivenNames v0 v1 x3 v2
  try clear_value v1; try clear_value v0
  have h4 : Timed s v2 := by
    unfold v2
    refine Timed.of_mk ?_ rfl rfl rfl rfl rfl rfl rfl rfl rfl rfl rfl rfl rfl
    exact Timed.refl _
  clear_value v2
  split
  · exact h4
  · refine Timed.foldl ?_ (fun y5 _ => ?_)
    · exact h4
    · split
      · exact Timed.refl _
      · exact (State.prefetch_timed ..)

theorem State.setRptTile_timed (s : State) (n : Nat) (t : RptTile) :
    Timed s (s.setRptTile n t) := by
  unfold State.setRptTile
  refine Timed.of_mk ?_ rfl rfl rfl rfl rfl rfl rfl rfl rfl rfl rfl rfl rfl
  exact Timed.refl _

theorem State.masterStore_timed (s : State) (m : Nat) (off : Nat) (v : Word) :
    Timed s (s.masterStore m off v) := by
  unfold State.masterStore
  split
  · exact Timed.refl _
  · split
    · exact (State.violation_timed ..)
    · split
      · exact Timed.refl _
      · exact (State.store_timed ..)

theorem State.rptSkip_timed (s : State) (n : Nat) (v : Nat) :
    Timed s (s.rptSkip n v) := by
  unfold State.rptSkip
  extract_lets -merge -useContext -underBinder +onlyGivenNames x1 v0
  have h2 : Timed s v0 := by
    unfold v0
    exact (State.setRptTile_timed ..)
  clear_value v0
  split
  · exact .trans h2 (State.bump_timed ..)
  · exact h2

theorem State.foldGroup_timed (s : State) (n : Nat) (x : Sampled) :
    Timed s (s.foldGroup n x) := by
  unfold State.foldGroup
  extract_lets -merge -useContext -underBinder +onlyGivenNames v0 v1 v2 v3
  try clear_value v2; try clear_value v1; try clear_value v0
  have h4 : Timed s v3.1 := by
    unfold v3
    exact (State.devRead_timed ..)
  clear_value v3
  extract_lets -merge -useContext -underBinder +onlyGivenNames v5
  have h6 : Timed s v5 := by
    unfold v5
    exact h4
  clear_value v5
  extract_lets -merge -useContext -underBinder +onlyGivenNames v7 v8
  try clear_value v8; try clear_value v7
  split
  · exact .trans (.trans h6 (State.drawn_timed ..)) (State.bump_timed ..)
  · extract_lets -merge -useContext -underBinder +onlyGivenNames v9 v10 v11 v12 v13 v14 v15 v16 v17
    try clear_value v16; try clear_value v15; try clear_value v14; try clear_value v13; try clear_value v12; try clear_value v11; try clear_value v10; try clear_value v9
    have h18 : Timed s v17 := by
      unfold v17
      exact .trans h6 (State.devWrite_timed ..)
    clear_value v17
    extract_lets -merge -useContext -underBinder +onlyGivenNames v19
    have h20 : Timed s v19 := by
      unfold v19
      exact .trans h18 (State.devWrite_timed ..)
    clear_value v19
    extract_lets -merge -useContext -underBinder +onlyGivenNames v21 v22
    try clear_value v21
    have h23 : Timed s v22 := by
      unfold v22
      exact .trans h20 (State.setRptTile_timed ..)
    clear_value v22
    exact .trans (.trans h23 (State.drawn_timed ..)) (State.bump_timed ..)

theorem State.foldFrame_timed (s : State) :
    Timed s (s.foldFrame) := by
  unfold State.foldFrame
  split
  · exact Timed.refl _
  · extract_lets -merge -useContext -underBinder +onlyGivenNames v0
    try clear_value v0
    refine Timed.foldl ?_ (fun y1 _ => ?_)
    · exact Timed.refl _
    · extract_lets -merge -useContext -underBinder +onlyGivenNames v2
      try clear_value v2
      split
      · exact Timed.refl _
      · refine Timed.foldl ?_ (fun y3 _ => ?_)
        · exact Timed.refl _
        · exact (State.foldGroup_timed ..)

theorem State.sense_timed (s : State) :
    Timed s (s.sense) := by
  unfold State.sense
  split
  · exact Timed.refl _
  · extract_lets -merge -useContext -underBinder +onlyGivenNames v0 v1
    try clear_value v1; try clear_value v0
    refine Timed.trans ?_ (State.eachTile_timed (hf := fun y2 _ => ?_) ..)
    · exact Timed.refl _
    · split
      · exact Timed.refl _
      · refine Timed.foldl ?_ (fun y3 _ => ?_)
        · exact Timed.refl _
        · extract_lets -merge -useContext -underBinder +onlyGivenNames v4
          try clear_value v4
          split
          · exact Timed.refl _
          · extract_lets -merge -useContext -underBinder +onlyGivenNames v5 v6
            try clear_value v6; try clear_value v5
            exact .trans (.trans ((State.setRptTile_timed ..)) (State.tileCommand_timed ..)) (State.drawn_timed ..)

theorem State.cycleEnd_timed (s : State) :
    Timed s (s.cycleEnd) := by
  unfold State.cycleEnd
  split
  · exact Timed.refl _
  · extract_lets -merge -useContext -underBinder +onlyGivenNames v0 v1 v2
    try clear_value v2; try clear_value v1; try clear_value v0
    refine Timed.trans ?_ (State.drawn_timed ..)
    refine Timed.trans ?_ (State.eachTile_timed (hf := fun y3 _ => ?_) ..)
    · exact Timed.refl _
    · extract_lets -merge -useContext -underBinder +onlyGivenNames v4 v5 v6 v7
      try clear_value v7; try clear_value v6; try clear_value v5; try clear_value v4
      exact (State.setRptTile_timed ..)

theorem State.gainStep_timed (s : State) (n : Nat) :
    Timed s (s.gainStep n) := by
  unfold State.gainStep
  split
  · exact Timed.refl _
  · extract_lets -merge -useContext -underBinder +onlyGivenNames v0 v1 v2 v3 v4
    try clear_value v4; try clear_value v3; try clear_value v2; try clear_value v1; try clear_value v0
    exact (State.setReg_timed ..)

theorem State.trimStart_timed (s : State) :
    Timed s (s.trimStart) := by
  unfold State.trimStart
  extract_lets -merge -useContext -underBinder +onlyGivenNames v0
  try clear_value v0
  split
  · refine Timed.of_mk ?_ rfl rfl rfl rfl rfl rfl rfl rfl rfl rfl rfl rfl rfl
    exact Timed.refl _
  · exact Timed.refl _

theorem State.refSense_timed (s : State) (n : Nat) :
    Timed s (s.refSense n) := by
  unfold State.refSense
  exact .trans ((State.tileCommand_timed ..)) (State.tileCommand_timed ..)

theorem State.ageTrack_timed (s : State) :
    Timed s (s.ageTrack) := by
  unfold State.ageTrack
  split
  · exact Timed.refl _
  · extract_lets -merge -useContext -underBinder +onlyGivenNames v0
    have h1 : Timed s v0 := by
      unfold v0
      refine Timed.trans ?_ (State.eachTile_timed (hf := fun y2 _ => ?_) ..)
      · exact Timed.refl _
      · extract_lets -merge -useContext -underBinder +onlyGivenNames v3
        have h4 : Timed y2 v3 := by
          unfold v3
          refine Timed.foldl ?_ (fun y5 _ => ?_)
          · exact Timed.refl _
          · extract_lets -merge -useContext -underBinder +onlyGivenNames v6 v7 v8 v9 v10
            try clear_value v10; try clear_value v9; try clear_value v8; try clear_value v7; try clear_value v6
            refine Timed.of_mk ?_ rfl rfl rfl rfl rfl rfl rfl rfl rfl rfl rfl rfl rfl
            exact Timed.refl _
        clear_value v3
        refine Timed.foldl ?_ (fun y11 _ => ?_)
        · exact h4
        · refine Timed.foldl ?_ (fun y12 _ => ?_)
          · exact Timed.refl _
          · extract_lets -merge -useContext -underBinder +onlyGivenNames v13 v14 v15
            try clear_value v15; try clear_value v14; try clear_value v13
            exact (State.masterStore_timed ..)
    clear_value v0
    split
    · exact .trans h1 (State.finArm_timed ..)
    · exact h1

theorem State.installRecord_timed (s : State) :
    Timed s (s.installRecord) := by
  unfold State.installRecord
  split
  · exact Timed.refl _
  · split
    · exact Timed.refl _
    · extract_lets -merge -useContext -underBinder +onlyGivenNames x1 v0
      have h2 : Timed s v0 := by
        unfold v0
        refine Timed.of_mk ?_ rfl rfl rfl rfl rfl rfl rfl rfl rfl rfl rfl rfl rfl
        exact Timed.refl _
      clear_value v0
      extract_lets -merge -useContext -underBinder +onlyGivenNames v3
      have h4 : Timed s v3 := by
        unfold v3
        refine Timed.trans ?_ (State.eachTile_timed (hf := fun y5 _ => ?_) ..)
        · exact h2
        · extract_lets -merge -useContext -underBinder +onlyGivenNames v6
          have h7 : Timed y5 v6 := by
            unfold v6
            exact (State.masterStore_timed ..)
          clear_value v6
          extract_lets -merge -useContext -underBinder +onlyGivenNames v8
          have h9 : Timed y5 v8 := by
            unfold v8
            refine Timed.foldl ?_ (fun y10 _ => ?_)
            · exact h7
            · refine Timed.foldl ?_ (fun y11 _ => ?_)
              · exact (State.masterStore_timed ..)
              · exact (State.masterStore_timed ..)
          clear_value v8
          extract_lets -merge -useContext -underBinder +onlyGivenNames v12 x14 v13
          try clear_value v12
          have h15 : Timed y5 v13 := by
            unfold v13
            exact .trans h9 (State.setRptTile_timed ..)
          clear_value v13
          refine Timed.of_mk ?_ rfl rfl rfl rfl rfl rfl rfl rfl rfl rfl rfl rfl rfl
          exact h15
      clear_value v3
      extract_lets -merge -useContext -underBinder +onlyGivenNames v16 x18 v17
      try clear_value v16
      have h19 : Timed s v17 := by
        unfold v17
        refine Timed.of_mk ?_ rfl rfl rfl rfl rfl rfl rfl rfl rfl rfl rfl rfl rfl
        exact h4
      clear_value v17
      split
      · exact .trans h19 (State.finArm_timed ..)
      · exact h19

theorem State.recordDue_timed (s : State) (asked : Bool) :
    Timed s (s.recordDue asked) := by
  unfold State.recordDue
  refine Timed.of_mk ?_ rfl rfl rfl rfl rfl rfl rfl rfl rfl rfl rfl rfl rfl
  exact Timed.refl _

theorem State.elecStore_timed (s : State) :
    Timed s (s.elecStore) := by
  unfold State.elecStore
  extract_lets -merge -useContext -underBinder +onlyGivenNames v0 v1 v2 v3
  try clear_value v3; try clear_value v2; try clear_value v1; try clear_value v0
  refine Timed.trans ?_ (State.drawn_timed ..)
  refine Timed.of_mk ?_ rfl rfl rfl rfl rfl rfl rfl rfl rfl rfl rfl rfl rfl
  exact Timed.refl _

theorem State.sweepEnd_timed (s : State) :
    Timed s (s.sweepEnd) := by
  unfold State.sweepEnd
  refine Timed.trans ?_ (State.drawn_timed ..)
  refine Timed.trans ?_ (State.eachTile_timed (hf := fun y0 _ => ?_) ..)
  · exact Timed.refl _
  · extract_lets -merge -useContext -underBinder +onlyGivenNames v1 v2
    try clear_value v2; try clear_value v1
    exact (State.setRptTile_timed ..)

theorem State.proceduresFlip_timed (s : State) :
    Timed s (s.proceduresFlip) := by
  unfold State.proceduresFlip
  split
  · exact Timed.refl _
  · extract_lets -merge -useContext -underBinder +onlyGivenNames v0
    try clear_value v0
    split
    · split
      · extract_lets -merge -useContext -underBinder +onlyGivenNames v1
        have h2 : Timed s v1 := by
          unfold v1
          exact .trans ((State.elecStore_timed ..)) (State.recordDue_timed ..)
        clear_value v1
        refine Timed.of_mk ?_ rfl rfl rfl rfl rfl rfl rfl rfl rfl rfl rfl rfl rfl
        exact h2
      · exact Timed.refl _
    · split
      · extract_lets -merge -useContext -underBinder +onlyGivenNames v3
        have h4 : Timed s v3 := by
          unfold v3
          exact .trans ((State.sweepEnd_timed ..)) (State.recordDue_timed ..)
        clear_value v3
        refine Timed.of_mk ?_ rfl rfl rfl rfl rfl rfl rfl rfl rfl rfl rfl rfl rfl
        exact h4
      · exact Timed.refl _
    · split
      · extract_lets -merge -useContext -underBinder +onlyGivenNames x6 v5
        have h7 : Timed s v5 := by
          unfold v5
          refine Timed.of_mk ?_ rfl rfl rfl rfl rfl rfl rfl rfl rfl rfl rfl rfl rfl
          exact Timed.refl _
        clear_value v5
        refine Timed.trans ?_ (State.eachTile_timed (hf := fun y8 _ => ?_) ..)
        · exact h7
        · extract_lets -merge -useContext -underBinder +onlyGivenNames v9
          have h10 : Timed y8 v9 := by
            unfold v9
            exact (State.zeroApp_timed ..)
          clear_value v9
          split
          · exact .trans h10 (State.refSense_timed ..)
          · exact h10
      · extract_lets -merge -useContext -underBinder +onlyGivenNames x12 v11
        have h13 : Timed s v11 := by
          unfold v11
          refine Timed.of_mk ?_ rfl rfl rfl rfl rfl rfl rfl rfl rfl rfl rfl rfl rfl
          exact Timed.refl _
        clear_value v11
        refine Timed.trans ?_ (State.eachTile_timed (hf := fun y14 _ => ?_) ..)
        · exact h13
        · exact (State.setRptTile_timed ..)
      · exact Timed.refl _

theorem State.ageSlot432_timed (s : State) :
    Timed s (s.ageSlot432) := by
  unfold State.ageSlot432
  exact .trans (.trans (.trans (.trans ((State.foldFrame_timed ..)) (State.sense_timed ..)) (State.trimStart_timed ..)) (State.installRecord_timed ..)) (State.ageTrack_timed ..)

theorem State.ageFlip_timed (s : State) :
    Timed s (s.ageFlip) := by
  unfold State.ageFlip
  extract_lets -merge -useContext -underBinder +onlyGivenNames v0
  have h1 : Timed s v0 := by
    unfold v0
    exact (State.proceduresFlip_timed ..)
  clear_value v0
  extract_lets -merge -useContext -underBinder +onlyGivenNames v2
  have h3 : Timed s v2 := by
    unfold v2
    refine Timed.trans ?_ (State.eachTile_timed (hf := fun y4 _ => ?_) ..)
    · exact h1
    · extract_lets -merge -useContext -underBinder +onlyGivenNames v5
      try clear_value v5
      exact (State.setRptTile_timed ..)
  clear_value v2
  extract_lets -merge -useContext -underBinder +onlyGivenNames v6
  have h7 : Timed s v6 := by
    unfold v6
    split
    · exact .trans h3 (State.cycleEnd_timed ..)
    · exact h3
  clear_value v6
  refine Timed.of_mk ?_ rfl rfl rfl rfl rfl rfl rfl rfl rfl rfl rfl rfl rfl
  exact h7

theorem State.tileFlip_timed (s : State) (short : Bool) (n : Nat) :
    Timed s (s.tileFlip short n) := by
  unfold State.tileFlip
  extract_lets -merge -useContext -underBinder +onlyGivenNames v0 v1 v2
  try clear_value v1; try clear_value v0
  have h3 : Timed s v2 := by
    unfold v2
    exact (State.codeAppStep_timed ..)
  clear_value v2
  extract_lets -merge -useContext -underBinder +onlyGivenNames v4
  have h5 : Timed s v4 := by
    unfold v4
    split
    · exact .trans h3 (State.gainStep_timed ..)
    · exact h3
  clear_value v4
  exact .trans (.trans h5 (State.tileLinks_timed ..)) (State.frameHeads_timed ..)

theorem State.tlkFlip_timed (s : State) (short : Bool) :
    Timed s (s.tlkFlip short) := by
  unfold State.tlkFlip
  split
  · exact Timed.refl _
  · extract_lets -merge -useContext -underBinder +onlyGivenNames x1 v0
    have h2 : Timed s v0 := by
      unfold v0
      refine Timed.of_mk ?_ rfl rfl rfl rfl rfl rfl rfl rfl rfl rfl rfl rfl rfl
      exact Timed.refl _
    clear_value v0
    refine Timed.trans ?_ (State.drawn_timed ..)
    refine Timed.trans ?_ (State.eachTile_timed (hf := fun y3 _ => ?_) ..)
    · exact h2
    · exact (State.tileFlip_timed ..)

theorem State.secResult_timed (s : State) (status : Nat) (kind : Nat) (type : Nat) (d1 : Nat) (d2 : Nat) (digest : List Byte) :
    Timed s (s.secResult status kind type d1 d2 digest) := by
  unfold State.secResult
  exact (State.mboxResult_timed ..)

theorem State.bltFlip_timed (s : State) (p : Nat) :
    Timed s (s.bltFlip p) := by
  unfold State.bltFlip
  split
  · split
    · extract_lets -merge -useContext -underBinder +onlyGivenNames v0 v1 v2
      try clear_value v2; try clear_value v1; try clear_value v0
      refine Timed.of_mk ?_ rfl rfl rfl rfl rfl rfl rfl rfl rfl rfl rfl rfl rfl
      exact Timed.refl _
    · exact Timed.refl _
  · exact Timed.refl _

theorem State.bltSlot447_timed (s : State) :
    Timed s (s.bltSlot447) := by
  unfold State.bltSlot447
  extract_lets -merge -useContext -underBinder +onlyGivenNames v0
  have h1 : Timed s v0 := by
    unfold v0
    split
    · refine Timed.of_mk ?_ rfl rfl rfl rfl rfl rfl rfl rfl rfl rfl rfl rfl rfl
      exact Timed.refl _
    · exact Timed.refl _
  clear_value v0
  split
  · refine Timed.foldl ?_ (fun y2 _ => ?_)
    · exact h1
    · exact (State.bltFlip_timed ..)
  · exact h1

theorem State.bltRowStart_timed (s : State) (r : Nat) (f : Nat) :
    Timed s (s.bltRowStart r f) := by
  unfold State.bltRowStart
  extract_lets -merge -useContext -underBinder +onlyGivenNames v0 v1 v2 x4 v3
  try clear_value v2; try clear_value v1; try clear_value v0
  have h5 : Timed s v3 := by
    unfold v3
    refine Timed.of_mk ?_ rfl rfl rfl rfl rfl rfl rfl rfl rfl rfl rfl rfl rfl
    exact Timed.refl _
  clear_value v3
  split
  · exact h5
  · exact .trans (.trans h5 (State.setReg_timed ..)) (State.event_timed ..)

theorem State.commitPlanes_timed (s : State) :
    Timed s (s.commitPlanes) := by
  unfold State.commitPlanes
  split
  · extract_lets -merge -useContext -underBinder +onlyGivenNames v0
    try clear_value v0
    refine Timed.of_mk ?_ rfl rfl rfl rfl rfl rfl rfl rfl rfl rfl rfl rfl rfl
    exact Timed.refl _
  · exact Timed.refl _

theorem State.rowStop_timed (s : State) (k : Nat) (n : Nat) :
    Timed s (s.rowStop k n) := by
  unfold State.rowStop
  split
  · exact .trans (.trans (.trans ((State.bump_timed ..)) (State.event_timed ..)) (State.cutRow_timed ..)) (State.rptSkip_timed ..)
  · exact Timed.refl _

theorem State.emitSlot_timed (s : State) (k : Nat) :
    Timed s (s.emitSlot k) := by
  unfold State.emitSlot
  extract_lets -merge -useContext -underBinder +onlyGivenNames v0 v1
  try clear_value v0
  have h2 : Timed s v1 := by
    unfold v1
    split
    · refine Timed.trans ?_ (State.eachTile_timed (hf := fun y3 _ => ?_) ..)
      · exact Timed.refl _
      · exact (State.rowStop_timed ..)
    · exact Timed.refl _
  clear_value v1
  extract_lets -merge -useContext -underBinder +onlyGivenNames x5 v4
  have h6 : Timed s v4 := by
    unfold v4
    refine Timed.of_mk ?_ rfl rfl rfl rfl rfl rfl rfl rfl rfl rfl rfl rfl rfl
    exact h2
  clear_value v4
  extract_lets -merge -useContext -underBinder +onlyGivenNames v7
  have h8 : Timed s v7 := by
    unfold v7
    split
    · refine Timed.trans ?_ (State.eachTile_timed (hf := fun y9 _ => ?_) ..)
      · exact h6
      · exact (State.rptSkip_timed ..)
    · exact h6
  clear_value v7
  split
  · refine Timed.trans ?_ (State.eachTile_timed (hf := fun y10 _ => ?_) ..)
    · exact h8
    · exact (State.rowHeads_timed ..)
  · exact h8

theorem State.emitShort_timed (s : State) :
    Timed s (s.emitShort) := by
  unfold State.emitShort
  extract_lets -merge -useContext -underBinder +onlyGivenNames v0
  have h1 : Timed s v0 := by
    unfold v0
    refine Timed.trans ?_ (State.eachTile_timed (hf := fun y2 _ => ?_) ..)
    · exact Timed.refl _
    · exact (State.cutRow_timed ..)
  clear_value v0
  refine Timed.of_mk ?_ rfl rfl rfl rfl rfl rfl rfl rfl rfl rfl rfl rfl rfl
  exact h1

theorem State.setPlcTile_timed (s : State) (n : Nat) (v : PlcTile) :
    Timed s (s.setPlcTile n v) := by
  unfold State.setPlcTile
  refine Timed.of_mk ?_ rfl rfl rfl rfl rfl rfl rfl rfl rfl rfl rfl rfl rfl
  exact Timed.refl _

theorem State.writeStaging_timed (s : State) (n : Nat) :
    Timed s (s.writeStaging n) := by
  unfold State.writeStaging
  extract_lets -merge -useContext -underBinder +onlyGivenNames v0 v1 v2 v3 v4 v5 v6 v7 x9 x10 v8
  try clear_value v7; try clear_value v6; try clear_value v5; try clear_value v4; try clear_value v3; try clear_value v2; try clear_value v1; try clear_value v0
  have h11 : Timed s v8 := by
    unfold v8
    have h12 : Timed s x9 := by
      unfold x9
      exact (State.noteSram_timed ..)
    clear_value x9
    refine Timed.of_mk ?_ rfl rfl rfl rfl rfl rfl rfl rfl rfl rfl rfl rfl rfl
    exact h12
  clear_value v8
  exact .trans h11 (State.setPlcTile_timed ..)

theorem State.readyToWrite_timed (s : State) (n : Nat) :
    Timed s (s.readyToWrite n) := by
  unfold State.readyToWrite
  extract_lets -merge -useContext -underBinder +onlyGivenNames v0 x2 v1
  try clear_value v0
  have h3 : Timed s v1 := by
    unfold v1
    refine Timed.of_mk ?_ rfl rfl rfl rfl rfl rfl rfl rfl rfl rfl rfl rfl rfl
    exact Timed.refl _
  clear_value v1
  split
  · exact .trans h3 (State.writeStaging_timed ..)
  · exact h3

theorem State.startUpdate_timed (s : State) (n : Nat) (u : PlcUpdate) :
    Timed s (s.startUpdate n u) := by
  unfold State.startUpdate
  extract_lets -merge -useContext -underBinder +onlyGivenNames x1 v0
  have h2 : Timed s v0 := by
    unfold v0
    exact (State.setPlcTile_timed ..)
  clear_value v0
  split
  · exact .trans h2 (State.readyToWrite_timed ..)
  · exact h2

theorem State.plcRequest_timed (s : State) (n : Nat) (u : PlcUpdate) :
    Timed s (s.plcRequest n u) := by
  unfold State.plcRequest
  extract_lets -merge -useContext -underBinder +onlyGivenNames v0
  try clear_value v0
  split
  · exact (State.startUpdate_timed ..)
  · exact (State.setPlcTile_timed ..)
  · extract_lets -merge -useContext -underBinder +onlyGivenNames v1
    have h2 : Timed s v1 := by
      unfold v1
      exact .trans (.trans ((State.setPlcTile_timed ..)) (State.setFlag_timed ..)) (State.bump_timed ..)
    clear_value v1
    extract_lets -merge -useContext -underBinder +onlyGivenNames v3
    have h4 : Timed s v3 := by
      unfold v3
      exact .trans h2 (State.event_timed ..)
    clear_value v3
    split
    · exact .trans h4 (State.returnBuffer_timed ..)
    · exact h4

theorem State.chartExchange_timed (s : State) :
    Timed s (s.chartExchange) := by
  unfold State.chartExchange
  extract_lets -merge -useContext -underBinder +onlyGivenNames v0
  have h1 : Timed s v0 := by
    unfold v0
    exact (State.correctExpress_timed ..)
  clear_value v0
  refine Timed.foldl ?_ (fun y2 _ => ?_)
  · exact h1
  · extract_lets -merge -useContext -underBinder +onlyGivenNames v3
    try clear_value v3
    split
    · split
      · extract_lets -merge -useContext -underBinder +onlyGivenNames v4 v5 v6 x8 v7
        try clear_value v6; try clear_value v5; try clear_value v4
        have h9 : Timed y2 v7 := by
          unfold v7
          have h10 : Timed y2 x8 := by
            unfold x8
            exact .trans ((State.noteSram_timed ..)) (State.noteSram_timed ..)
          clear_value x8
          refine Timed.of_mk ?_ rfl rfl rfl rfl rfl rfl rfl rfl rfl rfl rfl rfl rfl
          exact h10
        clear_value v7
        extract_lets -merge -useContext -underBinder +onlyGivenNames v11
        have h12 : Timed y2 v11 := by
          unfold v11
          exact .trans (.trans h9 (State.setPlcTile_timed ..)) (State.bump_timed ..)
        clear_value v11
        split
        · exact .trans h12 (State.startUpdate_timed ..)
        · exact h12
      · exact Timed.refl _
    · exact Timed.refl _

theorem State.plcStepTile_timed (s : State) (n : Nat) :
    Timed s (s.plcStepTile n) := by
  unfold State.plcStepTile
  extract_lets -merge -useContext -underBinder +onlyGivenNames v0 v1 v2 v3 v4 v5 v6 v7 v8 v9 v10 v11 v12 v13 v14
  try clear_value v13; try clear_value v12; try clear_value v11; try clear_value v10; try clear_value v9; try clear_value v8; try clear_value v7; try clear_value v6; try clear_value v5; try clear_value v4; try clear_value v3; try clear_value v2; try clear_value v1; try clear_value v0
  have h15 : ∀ a16 a17 a18, Timed a16 (v14 a16 a17 a18) := by
    intro a16 a17 a18
    unfold v14
    beta_reduce
    exact (State.setReg_timed ..)
  clear_value v14
  extract_lets -merge -useContext -underBinder +onlyGivenNames v19
  have h20 : Timed s v19 := by
    unfold v19
    exact .trans (.trans (.trans ((h15 ..)) (h15 ..)) (h15 ..)) (h15 ..)
  clear_value v19
  extract_lets -merge -useContext -underBinder +onlyGivenNames v21
  have h22 : Timed s v21 := by
    unfold v21
    split
    · exact .trans h20 (State.bump_timed ..)
    · exact h20
  clear_value v21
  extract_lets -merge -useContext -underBinder +onlyGivenNames x24 v23
  have h25 : Timed s v23 := by
    unfold v23
    exact .trans h22 (State.setPlcTile_timed ..)
  clear_value v23
  split
  · refine Timed.trans ?_ (State.plcRequest_timed ..)
    refine Timed.of_mk ?_ rfl rfl rfl rfl rfl rfl rfl rfl rfl rfl rfl rfl rfl
    exact h25
  · exact h25

theorem State.placementStep_timed (s : State) :
    Timed s (s.placementStep) := by
  unfold State.placementStep
  split
  · refine Timed.foldl ?_ (fun y0 _ => ?_)
    · exact Timed.refl _
    · exact (State.plcStepTile_timed ..)
  · exact Timed.refl _

theorem State.extend_timed (s : State) (m : Nat) (x : List Byte) :
    Timed s (s.extend m x) := by
  unfold State.extend
  extract_lets -merge -useContext -underBinder +onlyGivenNames v0
  try clear_value v0
  refine Timed.foldl ?_ (fun y1 _ => ?_)
  · exact Timed.refl _
  · exact (State.setReg_timed ..)

theorem State.imageEnd_timed (s : State) (src : ImageSrc) (type : Nat) (svn : Nat) (status : Nat) (digest : List Byte) :
    Timed s (s.imageEnd src type svn status digest) := by
  unfold State.imageEnd
  extract_lets -merge -useContext -underBinder +onlyGivenNames v0
  have h1 : Timed s v0 := by
    unfold v0
    split
    · exact (State.returnBuffer_timed ..)
    · exact Timed.refl _
  clear_value v0
  extract_lets -merge -useContext -underBinder +onlyGivenNames v2
  have h3 : Timed s v2 := by
    unfold v2
    split
    · exact h1
    · exact .trans (.trans h1 (State.bump_timed ..)) (State.event_timed ..)
  clear_value v2
  exact .trans h3 (State.secResult_timed ..)

theorem State.imageLoaded_timed (s : State) (src : ImageSrc) (type : Nat) (svn : Nat) (digest : List Byte) :
    Timed s (s.imageLoaded src type svn digest) := by
  unfold State.imageLoaded
  exact .trans (.trans ((State.extend_timed ..)) (State.event_timed ..)) (State.imageEnd_timed ..)

theorem State.kernelApply_timed (s : State) :
    Timed s (s.kernelApply) := by
  unfold State.kernelApply
  split
  · exact Timed.refl _
  · split
    · exact Timed.refl _
    · extract_lets -merge -useContext -underBinder +onlyGivenNames x1 v0
      have h2 : Timed s v0 := by
        unfold v0
        refine Timed.of_mk ?_ rfl rfl rfl rfl rfl rfl rfl rfl rfl rfl rfl rfl rfl
        exact Timed.refl _
      clear_value v0
      extract_lets -merge -useContext -underBinder +onlyGivenNames v3
      have h4 : Timed s v3 := by
        unfold v3
        refine Timed.foldl ?_ (fun y5 _ => ?_)
        · exact h2
        · split
          · exact Timed.refl _
          · extract_lets -merge -useContext -underBinder +onlyGivenNames v6
            have h7 : Timed y5 v6 := by
              unfold v6
              exact (State.noteSram_timed ..)
            refine Timed.of_mk ?_ rfl rfl rfl rfl rfl rfl rfl rfl rfl rfl rfl rfl rfl
            exact h7
      clear_value v3
      exact .trans h4 (State.imageLoaded_timed ..)

theorem State.commitGroups_timed (s : State) (mask : BitVec 16) :
    Timed s (s.commitGroups mask) := by
  unfold State.commitGroups
  extract_lets -merge -useContext -underBinder +onlyGivenNames v0
  have h1 : Timed s v0 := by
    unfold v0
    split
    · exact (State.commitGeo_timed ..)
    · exact Timed.refl _
  clear_value v0
  extract_lets -merge -useContext -underBinder +onlyGivenNames v2
  have h3 : Timed s v2 := by
    unfold v2
    split
    · exact .trans h1 (State.commitPlanes_timed ..)
    · exact h1
  clear_value v2
  extract_lets -merge -useContext -underBinder +onlyGivenNames v4
  have h5 : Timed s v4 := by
    unfold v4
    split
    · exact .trans h3 (State.commitFin_timed ..)
    · exact h3
  clear_value v4
  split
  · exact .trans h5 (State.commitTlk_timed ..)
  · exact h5

theorem State.lateCommit_timed (s : State) (mask : BitVec 16) :
    Timed s (s.lateCommit mask) := by
  unfold State.lateCommit
  extract_lets -merge -useContext -underBinder +onlyGivenNames v0
  have h1 : Timed s v0 := by
    unfold v0
    exact (State.commitLate_timed ..)
  clear_value v0
  refine Timed.of_mk ?_ rfl rfl rfl rfl rfl rfl rfl rfl rfl rfl rfl rfl rfl
  exact h1

theorem State.commitSlot432_timed (s : State) :
    Timed s (s.commitSlot432) := by
  unfold State.commitSlot432
  extract_lets -merge -useContext -underBinder +onlyGivenNames v0
  have h1 : Timed s v0 := by
    unfold v0
    split
    · refine Timed.trans ?_ (State.commitGroups_timed ..)
      refine Timed.of_mk ?_ rfl rfl rfl rfl rfl rfl rfl rfl rfl rfl rfl rfl rfl
      exact Timed.refl _
    · exact Timed.refl _
  clear_value v0
  split
  · exact .trans (.trans h1 (State.commitGroups_timed ..)) (State.seqDone_timed ..)
  · exact h1

theorem State.synthStart_timed (s : State) (f : Nat) (r : Nat) (blank : Bool) :
    Timed s (s.synthStart f r blank) := by
  unfold State.synthStart
  extract_lets -merge -useContext -underBinder +onlyGivenNames v0
  have h1 : Timed s v0 := by
    unfold v0
    exact (State.chartExchange_timed ..)
  clear_value v0
  extract_lets -merge -useContext -underBinder +onlyGivenNames v2 v3
  try clear_value v2
  have h4 : Timed s v3.1 := by
    unfold v3
    exact .trans h1 (State.dispatchRow_timed ..)
  clear_value v3
  extract_lets -merge -useContext -underBinder +onlyGivenNames v5
  have h6 : Timed s v5 := by
    unfold v5
    exact .trans h4 (State.rowStart_timed ..)
  clear_value v5
  refine Timed.trans ?_ (State.bltRowStart_timed ..)
  split
  · exact .trans h6 (State.rowWithheld_timed ..)
  · exact h6

theorem State.bindStep_timed (s : State) (t : Nat) :
    Timed s (s.bindStep t) := by
  unfold State.bindStep
  extract_lets -merge -useContext -underBinder +onlyGivenNames v0
  have h1 : Timed s v0 := by
    unfold v0
    exact (State.chooseManifest_timed ..)
  clear_value v0
  split
  · exact .trans (.trans h1 (State.setFlag_timed ..)) (State.bump_timed ..)
  · extract_lets -merge -useContext -underBinder +onlyGivenNames x3 v2
    have h4 : Timed s v2 := by
      unfold v2
      refine Timed.of_mk ?_ rfl rfl rfl rfl rfl rfl rfl rfl rfl rfl rfl rfl rfl
      exact h1
    clear_value v2
    split
    · extract_lets -merge -useContext -underBinder +onlyGivenNames v5 v6
      try clear_value v5
      have h7 : Timed s v6 := by
        unfold v6
        exact .trans h4 (State.manifestInForce_timed ..)
      clear_value v6
      split
      · exact h7
      · refine Timed.of_mk ?_ rfl rfl rfl rfl rfl rfl rfl rfl rfl rfl rfl rfl rfl
        exact h7
    · exact h4

theorem State.modeFix_timed (s : State) :
    Timed s (s.modeFix) := by
  unfold State.modeFix
  extract_lets -merge -useContext -underBinder +onlyGivenNames v0
  try clear_value v0
  refine Timed.of_mk ?_ rfl rfl rfl rfl rfl rfl rfl rfl rfl rfl rfl rfl rfl
  exact Timed.refl _

theorem State.slot447_timed (s : State) (t : Nat) :
    Timed s (s.slot447 t) := by
  unfold State.slot447
  extract_lets -merge -useContext -underBinder +onlyGivenNames v0
  have h1 : Timed s v0 := by
    unfold v0
    exact .trans (.trans (.trans (.trans (.trans (.trans ((State.geoInForce_timed ..)) (State.bindStep_timed ..)) (State.modeFix_timed ..)) (State.bltSlot447_timed ..)) (State.shedUpdate_timed ..)) (State.openDeadlines_timed ..)) (State.finSlot447_timed ..)
  clear_value v0
  extract_lets -merge -useContext -underBinder +onlyGivenNames x3 v2
  have h4 : Timed s v2 := by
    unfold v2
    refine Timed.of_mk ?_ rfl rfl rfl rfl rfl rfl rfl rfl rfl rfl rfl rfl rfl
    exact h1
  clear_value v2
  exact .trans h4 (State.synthStart_timed ..)

theorem State.rowsAt_timed (s : State) (k : Nat) :
    Timed s (s.rowsAt k) := by
  unfold State.rowsAt
  extract_lets -merge -useContext -underBinder +onlyGivenNames v0
  have h1 : Timed s v0 := by
    unfold v0
    split
    · exact (State.cancelRow_timed ..)
    · exact Timed.refl _
  clear_value v0
  extract_lets -merge -useContext -underBinder +onlyGivenNames v2
  have h3 : Timed s v2 := by
    unfold v2
    split
    · exact .trans h1 (State.lateTest_timed ..)
    · exact h1
  clear_value v2
  split
  · exact .trans h3 (State.synthStart_timed ..)
  · exact h3

theorem State.endRow_timed (s : State) (k : Nat) :
    Timed s (s.endRow k) := by
  unfold State.endRow
  extract_lets -merge -useContext -underBinder +onlyGivenNames v0
  have h1 : Timed s v0 := by
    unfold v0
    exact (State.cancelRow_timed ..)
  clear_value v0
  split
  · refine Timed.trans ?_ (State.eachTile_timed (hf := fun y2 _ => ?_) ..)
    · exact h1
    · exact (State.rowStop_timed ..)
  · exact h1

theorem State.endShort_timed (s : State) :
    Timed s (s.endShort) := by
  unfold State.endShort
  extract_lets -merge -useContext -underBinder +onlyGivenNames v0 v1
  try clear_value v0
  have h2 : Timed s v1 := by
    unfold v1
    split
    · exact .trans ((State.endRow_timed ..)) (State.cancelRow_timed ..)
    · exact .trans (.trans ((State.cancelRow_timed ..)) (State.cancelRow_timed ..)) (State.emitShort_timed ..)
  clear_value v1
  extract_lets -merge -useContext -underBinder +onlyGivenNames x4 v3
  have h5 : Timed s v3 := by
    unfold v3
    refine Timed.of_mk ?_ rfl rfl rfl rfl rfl rfl rfl rfl rfl rfl rfl rfl rfl
    exact h2
  clear_value v3
  exact .trans (.trans (.trans h5 (State.setFlag_timed ..)) (State.bump_timed ..)) (State.event_timed ..)

theorem State.modeSwitch_timed (s : State) :
    Timed s (s.modeSwitch) := by
  unfold State.modeSwitch
  extract_lets -merge -useContext -underBinder +onlyGivenNames v0
  have h1 : Timed s v0 := by
    unfold v0
    exact .trans (.trans ((State.ringSet_timed ..)) (State.invalidateAll_timed ..)) (State.abandonDecoding_timed ..)
  clear_value v0
  extract_lets -merge -useContext -underBinder +onlyGivenNames v2 v3 v4 x6 x7 v5
  try clear_value v4; try clear_value v3; try clear_value v2
  have h8 : Timed s v5 := by
    unfold v5
    refine Timed.of_mk ?_ rfl rfl rfl rfl rfl rfl rfl rfl rfl rfl rfl rfl rfl
    exact h1
  clear_value v5
  split
  · exact .trans (.trans h8 (State.setFld_timed ..)) (State.event_timed ..)
  · exact h8

theorem State.seqFlip_timed (s : State) :
    Timed s (s.seqFlip) := by
  unfold State.seqFlip
  extract_lets -merge -useContext -underBinder +onlyGivenNames v0 v1
  try clear_value v1; try clear_value v0
  split
  · exact Timed.refl _
  · split
    · refine Timed.of_mk ?_ rfl rfl rfl rfl rfl rfl rfl rfl rfl rfl rfl rfl rfl
      exact Timed.refl _
    · split
      · exact Timed.refl _
      · extract_lets -merge -useContext -underBinder +onlyGivenNames v2
        have h3 : Timed s v2 := by
          unfold v2
          split
          · exact .trans ((State.lateCommit_timed ..)) (State.seqDone_timed ..)
          · exact Timed.refl _
        clear_value v2
        exact .trans (.trans (.trans h3 (State.setFlag_timed ..)) (State.bump_timed ..)) (State.event_timed ..)

theorem State.watchdog_timed (s : State) :
    Timed s (s.watchdog).1 := by
  unfold State.watchdog
  split
  · exact Timed.refl _
  · split
    · exact (State.setFld_timed ..)
    · extract_lets -merge -useContext -underBinder +onlyGivenNames v0
      try clear_value v0
      exact (State.setFld_timed ..)

/-- The start of slot k: it is the slot in progress, begun where slotStart says, in the frame of the last flip. -/
theorem State.slotBegin_timing (s : State) (k f : Nat) (hf : s.seq.flipAt = some f) :
    Timed { s with seq := { s.seq with slot := k, slotAt := f + s.slotStart k } } (s.slotBegin k) := by
  unfold State.slotBegin
  rw [hf]
  dsimp only
  generalize hv : ({ s with seq := { s.seq with slot := k, slotAt := f + s.slotStart k } } : State) = v1
  have h2 : Timed v1 (if k = 432 then v1.commitSlot432 else v1) := Timed.ite (State.commitSlot432_timed ..) (Timed.refl _)
  generalize (if k = 432 then v1.commitSlot432 else v1) = v2 at h2 ⊢
  have h3 : Timed v1 (((v2.seqSlotBegins k).rowsAt k).emitSlot k |>.prefetchSlot k) :=
    .trans (.trans (.trans (.trans h2 (State.seqSlotBegins_timed ..)) (State.rowsAt_timed ..)) (State.emitSlot_timed ..))
      (State.prefetchSlot_timed ..)
  generalize (((v2.seqSlotBegins k).rowsAt k).emitSlot k).prefetchSlot k = v3 at h3 ⊢
  split
  · exact .trans (.trans (.trans (.trans h3 (State.placementStep_timed ..)) (State.kernelApply_timed ..))
      (State.ageSlot432_timed ..)) (State.noteQueues_timed ..)
  · split
    · exact .trans (.trans h3 (State.slot447_timed ..)) (State.noteQueues_timed ..)
    · exact h3.trans (State.noteQueues_timed ..)

/-- What a flip leaves, but for the reset that a watchdog at its limit makes: the next frame, begun now. -/
structure FlippedTo (s t : State) (wall : Nat) : Prop where
  frame : t.seq.frame = (s.seq.frame + 1) % 2 ^ 48
  flipWall : t.seq.flipWall = wall
  flipAt : t.seq.flipAt = some s.now
  slot : t.seq.slot = 0
  slotAt : t.seq.slotAt = s.now
  freeRun : t.seq.freeRun = s.seq.freeRun
  nextFlip : t.asm.nextFlip = s.asm.nextFlip
  holdover : t.asm.holdover = s.asm.holdover
  now : t.now = s.now

theorem FlippedTo.trans {s t u : State} {wall : Nat} (h : FlippedTo s t wall) (k : Timed t u) : FlippedTo s u wall :=
  ⟨k.frame.trans h.frame, k.flipWall.trans h.flipWall, k.flipAt.trans h.flipAt, k.slot.trans h.slot,
    k.slotAt.trans h.slotAt, k.freeRun.trans h.freeRun, k.nextFlip.trans h.nextFlip, k.holdover.trans h.holdover,
    k.now.trans h.now⟩

theorem State.flip_timing (s : State) (wall : Nat) :
    ∃ u, (s.flip wall = u.noteQueues ∨ s.flip wall = (u.narrowReset 5).noteQueues) ∧ FlippedTo s u wall := by
  unfold State.flip
  dsimp only
  generalize s.shortFrame = short
  have h1 : Timed s (if short then s.endShort else if s.inFrame && s.seq.slot == 431 then s.endRow 431 else s) :=
    Timed.ite (State.endShort_timed ..) (Timed.ite (State.endRow_timed ..) (Timed.refl _))
  generalize (if short then s.endShort else if s.inFrame && s.seq.slot == 431 then s.endRow 431 else s) = v1 at h1 ⊢
  have h2 : Timed s (if v1.seq.done447 then v1 else v1.slot447 wall) := Timed.ite h1 (h1.trans (State.slot447_timed ..))
  generalize (if v1.seq.done447 then v1 else v1.slot447 wall) = v2 at h2 ⊢
  have h3 : Timed s v2.watchdog.1 := h2.trans (State.watchdog_timed ..)
  generalize v2.watchdog.2 = dog
  generalize v2.watchdog.1 = v3 at h3 ⊢
  have h4 : FlippedTo s (v3.newFrame wall) wall := by
    refine ⟨?_, rfl, ?_, rfl, h3.now, h3.freeRun, h3.nextFlip, h3.holdover, h3.now⟩
    · rw [← h3.frame]; rfl
    · rw [← h3.now]; rfl
  generalize v3.newFrame wall = v4 at h4 ⊢
  have h5 : FlippedTo s (if v4.seq.switchFrame then v4.modeSwitch else v4) wall :=
    h4.trans (Timed.ite (State.modeSwitch_timed ..) (Timed.refl _))
  generalize (if v4.seq.switchFrame then v4.modeSwitch else v4) = v5 at h5 ⊢
  have h6 : FlippedTo s (if v2.seq.switchFrame then v5.event 112 else v5) wall :=
    h5.trans (Timed.ite (State.event_timed ..) (Timed.refl _))
  generalize (if v2.seq.switchFrame then v5.event 112 else v5) = v6 at h6 ⊢
  have h7 := (((((((h6.trans (State.seqFlip_timed ..)).trans (State.rowsAt_timed _ 0)).trans (State.pvFlip_timed ..)).trans
    (State.ageFlip_timed ..)).trans (State.tlkFlip_timed _ short)).trans (State.prefetchFlip_timed _ s.seq.slot)).trans
    (State.emitSlot_timed _ 0)).trans (State.prefetchSlot_timed _ 0)
  refine ⟨_, ?_, h7⟩
  cases dog
  · exact .inl rfl
  · exact .inr rfl

end Sys2Proof.Machine
end

