-- ==== Sys2Proof/WellFormed.lean ====
section
/-!
DEFINITION. Which commands can come from outside: the checks on operands that the spec's own limits give. `exec` is total and
does not ask for them; a command that fails one can not occur.
-/
namespace Sys2Proof

/-- Levels of one codeword on a receive lane: 2,720 PAM4 symbols or 5,440 NRZ bits (03 R57, Table LNE-1). -/
def levelsOf (lane : Nat) : Nat := if 58 ≤ lane then 5440 else 2720

/-- A received run of `n` codewords on lane l: a receive lane, the right number of levels, NRZ levels 0 or 1. -/
def rxLevels (n lane : Nat) (levels : List (BitVec 2)) : Bool :=
  50 ≤ lane && levels.length == n * levelsOf lane && (lane < 58 || levels.all fun x => !x.getLsbD 1)

/-- A register write names an aligned word of BAR0 (15 R332). -/
def alignedWord (off : BitVec 26) : Bool := off.toNat % 4 == 0

/-- A host write of BAR2 writes at least a byte and stays inside the window (15 R335). -/
def inWindow (off : BitVec 30) (bytes : List Byte) : Bool := !bytes.isEmpty && off.toNat + bytes.length ≤ 2 ^ 30

/-- A trained PCIe link is 1, 2 or 4 lanes wide at Gen 1 to Gen 5 (15 Table HST-1). -/
def linkOk (up : Bool) (width speed : BitVec 4) : Bool :=
  !up || ((width == 1 || width == 2 || width == 4) && 1 ≤ speed.toNat && speed.toNat ≤ 5)

/-- The checks of each command; a command with no case of its own has operands that are all possible. -/
def Instr.wellFormed : Instr → Bool
  | .codewordReceived l v => rxLevels 1 l.val v
  | .alignmentHunt l v => rxLevels 2 l.val v
  | .chkLock l v => rxLevels 1 l.val v
  | .registerWrite off _ => alignedWord off
  | .windowWrite off bs => inWindow off bs
  | .pcieLinkTraining up w sp => linkOk up w sp
  | _ => true

end Sys2Proof
end

