-- ==== Sys2Proof/Tests/Slice0.lean ====
section
/-!
SUPPORT. Own tests: ill-formed terms that WellFormed refuses, witnesses that meet the hypotheses of the statements, and a few
results worked by hand from the spec.
-/

namespace Sys2Proof.Tests

open Sys2Proof.Machine Sys2Proof.Safety

/-- Every item out of reset, all else as after power-on. -/
def wit : State := { State.reset with rst := { held := 0 } }

/-- Engine 0 of Homeroom 0 runs a chunk of row 0 whose thread 0 is as given. -/
def running (u : Thread) : State :=
  (wit.setEngine 0 { run := some ⟨0, 0, 0, 0⟩ }).setThread 0 { u with alive := true }

/-- Thread 0 of engine 0 of Homeroom 0. -/
def t0 : ThreadId := ⟨0, 0, 0⟩

end Sys2Proof.Tests
open Sys2Proof Sys2Proof.Machine Sys2Proof.Safety Sys2Proof.Tests

/-! ## StepRunsTheFrontCommand -/

theorem test_wit_front : ({ wit with pending := [.perst] } : State).pending = .perst :: [] ∧ wit.pending = [] := by and_intros <;> decide

/-! ## TablesStayCanonical -/

theorem test_wit_canonical : step { wit with pending := [.nop t0 {}] } = .next wit ∧ MemOk wit ∧ RegsOk wit
    ∧ wit.host.extents = [] := ⟨rfl, rfl, rfl, rfl⟩

/-! ## OtpBitsNeverClear -/

theorem test_wit_otp : step { wit with pending := [.nop t0 {}], rst := { wit.rst with otp0 := [(0, 1)] } }
      = .next { wit with rst := { wit.rst with otp0 := [(0, 1)] } }
    ∧ otpBit [(0, 1)] 0 0 = true := ⟨rfl, rfl⟩

/-! ## CommandsLeaveQueueAndClock -/

theorem test_wit_queue : exec (.nop t0 {}) wit = .next wit ∧ step { wit with pending := [.nop t0 {}] } = .next wit := ⟨rfl, rfl⟩

/-! ## RefusedAccessesChangeNothing -/

theorem test_wit_refused : (0x1200030#26).toNat % 4 = 0 ∧ noBlock (0x1200030#26).toNat = false
    ∧ ({ wit with rst := { wit.rst with held := 2 ^ 18 } } : State).answers 0x1200030 = false
    ∧ wit.answers 0x1200030 = true ∧ wit.permits (proctorTarget 0x1200030).1 31 (proctorTarget 0x1200030).2 4 true = false
    ∧ Calm wit (Reg.prcViol (proctorTarget 0x1200030).1) ∧ Calm wit Reg.hstBadacc ∧ wit.resuming (blockOf 0x1200030) = false
    ∧ wit.hostPath = false ∧ (wit.setFlag Reg.hstLink 31).hostPath = true ∧ (wit.setFlag Reg.hstLink 31).hostHeld = false
    ∧ ({ wit with host := { wit.host with fifo := [.write 0 [1]] } } : State).hostHeld = true
    ∧ ({ wit with clk := { wit.clk with resume := [(18, 4)] } } : State).resuming (blockOf 0x1200030) = true
    ∧ ({ wit with rst := { wit.rst with held := 1 } } : State).answers Reg.asmWallLo = false
    ∧ wit.resuming (blockOf Reg.asmWallLo) = false ∧ chartWindow (0x1400000#26).toNat = true
    ∧ wit.answers 0x1400000 = true ∧ wit.permits (proctorTarget 0x1400000).1 0 (proctorTarget 0x1400000).2 4 true = true := by
  and_intros <;> decide

/-! ## RegisterWriteByAccessType -/

/-- SEQ_WDOG has EN and LIMIT (RW) and a read-only COUNT. -/
theorem test_wit_access : ∃ g, regFind Reg.seqWdog = some g ∧ (⟨7, 0, .rw, 8⟩ : RegField) ∈ g.fields
    ∧ (∀ f' ∈ g.fields, f' ≠ (⟨7, 0, .rw, 8⟩ : RegField) → f'.lsb ≤ f'.msb ∧ (0 < f'.lsb ∨ f'.msb < 0))
    ∧ ∀ f ∈ g.fields, f.lsb ≤ f.msb ∧ (31 < f.lsb ∨ f.msb < 31) := by decide

/-- The Registrar may write SEQ_HOSTARG after reset (14 R328). -/
theorem test_wit_write : wit.busOk Reg.seqHostarg { master := 0, value := 5 } = true := by decide

theorem test_hostarg_written : (wit.store Reg.seqHostarg 5).reg Reg.seqHostarg = 5 := by decide

/-! ## CounterClears -/

/-- Master 0 may write every counter-clear register after reset (14 R328). -/
theorem test_wit_counters : ∀ off ∈ [Reg.laneCntClr 73, Reg.asmCntClr 1, Reg.decCntClr, Reg.hrCntClr 11, Reg.hrSynCntClr, Reg.seqCntClr,
    Reg.plcCntClr, Reg.camCntClr 3, Reg.camRxCntClr, Reg.finCntClr, Reg.tlkCntClr, Reg.rptCntClr, Reg.calCntClr, Reg.dmcCntClr,
    Reg.hpCntClr, Reg.rcCntClr, Reg.satCntClr, Reg.bltCntClr, Reg.secCntClr, Reg.prcLock 22],
    wit.busOk off { master := 0, value := 0x80000001 } = true := by decide

/-! ## ScalarAluResults -/

theorem test_wit_scalar : Open (running {}) t0 {}
    ∧ Issues (running {}) t0 { opc := 0x10, tys := [0, 1, 2], d := .s, a := .s, b := .s, bsels := [0, 2, 3] } { opc := 0x10, ty := 1, d := 31, a := 31, bsel := 2 }
    ∧ Issues (running {}) t0 { opc := 0x12, tys := [0, 1, 2], d := .s, a := .s, b := .s, bsels := [0, 2, 3] } { opc := 0x12, ty := 2, bsel := 3, ext := true }
    ∧ Issues (running {}) t0 { opc := 0x17, tys := [0, 1], d := .s, a := .s, b := .s, bsels := [0, 2, 3] } { opc := 0x17, b := 31 }
    ∧ Issues (running {}) t0 { opc := 0x1A, tys := [0, 1, 2], d := .s, b := .s, bsels := [0, 2, 3] } { opc := 0x1A, ty := 2 }
    ∧ Issues (running {}) t0 { opc := 0x1D, tys := [1], d := .s, a := .v, b := .s, bsels := [0, 2, 3] } { opc := 0x1D, ty := 1, a := 63 } := by
  and_intros <;> decide

/-! ## VectorAluResults -/

theorem test_wit_vector :
    Issues (running {}) t0 { opc := 0x20, tys := [0, 1, 2, 3, 4], d := .v, a := .v, b := .v, bsels := [0, 1, 2, 3] } { opc := 0x20, ty := 4, d := 63, a := 63, bsel := 1, b := 31 }
    ∧ Issues (running {}) t0 { opc := 0x23, tys := [0, 1, 2, 3, 4], d := .v, a := .v, b := .v, c := .v, bsels := [0, 1, 2, 3] } { opc := 0x23, ty := 3, c := 63 }
    ∧ Issues (running {}) t0 { opc := 0x26, tys := [0, 2, 3, 4], d := .v, a := .v } { opc := 0x26, ty := 4 }
    ∧ Issues (running {}) t0 { opc := 0x2C, tys := [0, 1], d := .v, a := .v, b := .v, bsels := [0, 1, 2, 3] } { opc := 0x2C, ty := 1, bsel := 3, ext := true }
    ∧ Issues (running {}) t0 { opc := 0x2D, tys := [0, 1, 2, 3, 4, 5], d := .v, b := .v, bsels := [0, 1, 2, 3] } { opc := 0x2D, ty := 5, bsel := 2, imm16 := 1 }
    ∧ Issues (running {}) t0 { opc := 0x2E, tys := [1], d := .v, a := .v, b := .v, c := .p, bsels := [0, 1, 2, 3] } { opc := 0x2E, ty := 1, c := 7, pn := true }
    ∧ Issues (running {}) t0 { opc := 0x2F, tys := [1], d := .v, a := .v, b := .v, bsels := [0, 1, 2, 3] } { opc := 0x2F, ty := 1 } := by and_intros <;> decide

/-! ## FloatAndConversionResults -/

theorem test_wit_float :
    Issues (running {}) t0 { opc := 0x30, tys := [2], d := .v, a := .v } { opc := 0x30, ty := 2, d := 63 }
    ∧ Issues (running {}) t0 { opc := 0x24, tys := [0, 1, 2, 3, 4], d := .v, a := .v, b := .v, bsels := [0, 1, 2, 3] } { opc := 0x24, ty := 4 }
    ∧ Issues (running {}) t0 { opc := 0x35, tys := [0, 1, 2, 3, 4, 5], d := .v, a := .v, b := .v, bsels := [0, 1, 2, 3], mod := 63 } { opc := 0x35, ty := 3, mod := 2, b := 63 }
    ∧ Issues (running {}) t0 { opc := 0x35, tys := [0, 1, 2, 3, 4, 5], d := .v, a := .v, b := .unused, bsels := [0], mod := 63 } { opc := 0x35, ty := 2, mod := 0x3B } := by and_intros <;> decide

/-! ## FixedPointSaturatesIntegersWrap -/

theorem test_wit_fixed :
    Issues (running {}) t0 { opc := 0x20, tys := [0, 1, 2, 3, 4], d := .v, a := .v, b := .v, bsels := [0, 1, 2, 3] } { opc := 0x20, ty := 1 }
    ∧ Issues (running {}) t0 { opc := 0x21, tys := [0, 1, 2, 3, 4], d := .v, a := .v, b := .v, bsels := [0, 1, 2, 3] } { opc := 0x21, ty := 4 }
    ∧ Issues (running {}) t0 { opc := 0x23, tys := [0, 1, 2, 3, 4], d := .v, a := .v, b := .v, c := .v, bsels := [0, 1, 2, 3] } { opc := 0x23, ty := 0 }
    ∧ Issues (running {}) t0 { opc := 0x23, tys := [0, 1, 2, 3, 4], d := .v, a := .v, b := .v, c := .v, bsels := [0, 1, 2, 3] } { opc := 0x23, ty := 4 }
    ∧ Issues (running {}) t0 { opc := 0x27, tys := [0, 2, 3, 4], d := .v, a := .v } { opc := 0x27 }
    ∧ Issues (running {}) t0 { opc := 0x26, tys := [0, 2, 3, 4], d := .v, a := .v } { opc := 0x26, ty := 4 } := by and_intros <;> decide

/-! ## ScalarSelectResults -/

theorem test_wit_select : Open (running {}) t0 {}
    ∧ Issues (running {}) t0 { opc := 0x18, tys := [0, 1, 2], d := .s, a := .s, b := .s, bsels := [0, 2, 3] } { opc := 0x18 }
    ∧ Issues (running {}) t0 { opc := 0x19, tys := [0, 1, 2], d := .s, a := .s, b := .s, bsels := [0, 2, 3] } { opc := 0x19, ty := 1 }
    ∧ Issues (running {}) t0 { opc := 0x19, tys := [0, 1, 2], d := .s, a := .s, b := .s, bsels := [0, 2, 3] } { opc := 0x19, ty := 2 }
    ∧ Issues (running {}) t0 { opc := 0x1B, tys := [1], d := .s, imm := true } { opc := 0x1B, ty := 1, imm16 := 14 }
    ∧ Issues (running {}) t0 { opc := 0x1C, tys := [0, 1, 2], d := .p, a := .s, b := .s, bsels := [0, 2, 3], mod := 7 } { opc := 0x1C, ty := 0, mod := 5, d := 7 }
    ∧ Issues (running {}) t0 { opc := 0x1C, tys := [0, 1, 2], d := .p, a := .s, b := .s, bsels := [0, 2, 3], mod := 7 } { opc := 0x1C, ty := 1, d := 0 }
    ∧ Issues (running {}) t0 { opc := 0x1C, tys := [0, 1, 2], d := .p, a := .s, b := .s, bsels := [0, 2, 3], mod := 7 } { opc := 0x1C, ty := 2 } := by and_intros <;> decide

/-! ## PredicateResults -/

theorem test_wit_predicate : Open (running {}) t0 {}
    ∧ Issues (running {}) t0 { opc := 0x41, d := .p, a := .p, b := .p } { opc := 0x41, d := 0, a := 7, b := 7, pn := true }
    ∧ Issues (running {}) t0 { opc := 0x44, d := .p, a := .p } { opc := 0x44, d := 7 }
    ∧ Issues (running {}) t0 { opc := 0x40, tys := [0, 1, 2, 4], d := .p, a := .v, b := .v, bsels := [0, 1, 2, 3], mod := 7 } { opc := 0x40, ty := 4, mod := 5 }
    ∧ Issues (running {}) t0 { opc := 0x45, d := .p, a := .s, b := .s } { opc := 0x45, d := 1, a := 31 }
    ∧ Issues (running {}) t0 { opc := 0x46, d := .s, a := .p, mod := 1 } { opc := 0x46, mod := 1 }
    ∧ Issues (running {}) t0 { opc := 0x47, d := .s, a := .p } { opc := 0x47, a := 7 } := by and_intros <;> decide

/-! ## PredicateZero -/

theorem test_wit_p0 : (0 : BitVec 6) = ({} : SlateWord).d ∧ Open (running {}) t0 {}
    ∧ Issues (running {}) t0 { opc := 0x43, d := .p, a := .p, b := .p } { opc := 0x43, a := 7 }
    ∧ Issues (running {}) t0 { opc := 0x44, d := .p, a := .p } { opc := 0x44 }
    ∧ Issues (running {}) t0 { opc := 0x40, tys := [0, 1, 2, 4], d := .p, a := .v, b := .v, bsels := [0, 1, 2, 3], mod := 7 } { opc := 0x40, mod := 5 }
    ∧ Issues (running {}) t0 { opc := 0x45, d := .p, a := .s, b := .s } { opc := 0x45 }
    ∧ Issues (running {}) t0 { opc := 0x1C, tys := [0, 1, 2], d := .p, a := .s, b := .s, bsels := [0, 2, 3], mod := 7 } { opc := 0x1C, mod := 5 } := by and_intros <;> decide

/-! ## ControlResults -/

theorem test_wit_control : Open (running {}) t0 {} ∧ Issues (running {}) t0 { opc := 0x00 } {}
    ∧ Issues (running {}) t0 { opc := 0x01, mod := 3, imm := true, ext := true } { opc := 0x01, mod := 2, imm16 := 0xFFFF }
    ∧ Issues (running { pc := 0x7FFF8 }) t0 { opc := 0x01, mod := 3, imm := true, ext := true } { opc := 0x01, imm16 := 1 }
    ∧ Issues (running {}) t0 { opc := 0x01, mod := 3, imm := true, ext := true } { opc := 0x01, ext := true, imm32 := 0x7FFF8 }
    ∧ Issues (running {}) t0 { opc := 0x02, a := .s } { opc := 0x02 }
    ∧ Issues (running { sc := [(0, 4)] }) t0 { opc := 0x02, a := .s } { opc := 0x02 }
    ∧ Issues (running {}) t0 { opc := 0x03, imm := true, ext := true } { opc := 0x03, imm16 := 1 }
    ∧ Issues (running { calls := List.replicate 16 0 }) t0 { opc := 0x03, imm := true, ext := true } { opc := 0x03 }
    ∧ Issues (running { calls := [8] }) t0 { opc := 0x04 } { opc := 0x04 } ∧ Issues (running {}) t0 { opc := 0x05 } { opc := 0x05 }
    ∧ (∀ x ∈ (thr (running {}) t0).streams, x.done = true ∧ x.errs = [])
    ∧ (∀ j, j < 8 → 8 * 0 + j ≠ threadKey t0 → ((running {}).thread (8 * 0 + j)).alive = false)
    ∧ Issues (running { tags := [(2, [{ src := 0, dst := 0x280000, lines := 1 }])] }) t0 { opc := 0x05 } { opc := 0x05 }
    ∧ Issues (running {}) t0 { opc := 0x06, imm := true } { opc := 0x06, imm16 := 0xFFFF } ∧ ((running {}).engine 0).run ≠ none := by
  and_intros <;> decide

/-! ## GuardClosedIsNoOperation -/

theorem test_wit_closed : (thr (running {}) t0).guard { pn := true } = 0
    ∧ Issues (running {}) t0 { opc := 0x00 } { opc := 0x00, pn := true } ∧ Issues (running {}) t0 { opc := 0x05 } { opc := 0x05, pn := true }
    ∧ Issues (running {}) t0 { opc := 0x02, a := .s } { opc := 0x02, pn := true }
    ∧ Issues (running {}) t0 { opc := 0x03, imm := true, ext := true } { opc := 0x03, pn := true }
    ∧ Issues (running {}) t0 { opc := 0x06, imm := true } { opc := 0x06, pn := true }
    ∧ Issues (running {}) t0 { opc := 0x1A, tys := [0, 1, 2], d := .s, b := .s, bsels := [0, 2, 3] } { opc := 0x1A, pn := true }
    ∧ Issues (running {}) t0 { opc := 0x54, tys := [1], d := .s, a := .s, imm := true } { opc := 0x54, pn := true, ty := 1 }
    ∧ Issues (running {}) t0 { opc := 0x55, tys := [1], a := .s, c := .s, imm := true } { opc := 0x55, pn := true, ty := 1 }
    ∧ Issues (running {}) t0 { opc := 0x80, tys := [1], imm := true } { opc := 0x80, pn := true, ty := 1 }
    ∧ Issues (running {}) t0 { opc := 0x81, tys := [1] } { opc := 0x81, pn := true, ty := 1 }
    ∧ Issues (running {}) t0 { opc := 0x82, tys := [1], a := .s, b := .s, imm := true } { opc := 0x82, pn := true, ty := 1 } := by
  and_intros <;> decide

/-! ## SlateExceptionCancelsChunk -/

theorem test_wit_exception : Open (running {}) t0 {} ∧ Issues (running {}) t0 { opc := 0x06, imm := true } { opc := 0x06, imm16 := 0xFFFF }
    ∧ Shape.ok { opc := 0x10, tys := [0, 1, 2], d := .s, a := .s, b := .s, bsels := [0, 2, 3] } ((thr (running {}) t0).seen { opc := 0x10, bsel := 1 }) = false
    ∧ slateOpcode 0xFF = false ∧ (thr (running { pc := 0x7FFF8 }) t0).pc + 8 ≤ 0x80000
    ∧ Shape.ok { opc := 0x20, tys := [0, 1, 2, 3, 4], d := .v, a := .v, b := .v, bsels := [0, 1, 2, 3] }
        ((thr (running { pc := 0x7FFF8 }) t0).seen { opc := 0x20, ty := 5, bsel := 3, ext := true }) = false
    ∧ ((running {}).engine 0).run ≠ none ∧ ((running {}).engine 0).run.map (·.row) = some 0
    ∧ (running {}).flag (Reg.hrFault 0) 31 = false ∧ (∀ j, j < 8 → ((running {}).thread j).streams = [])
    ∧ Calm (running {}) (Reg.hrFault 0) ∧ Issues (running {}) t0 { opc := 0x05 } { opc := 0x05 } := by and_intros <;> decide

/-! ## HomeroomLoadsAndStores -/

theorem test_wit_memory : Open (running {}) t0 {}
    ∧ Issues (running {}) t0 { opc := 0x50, tys := [1], d := .v, a := .v, imm := true } { opc := 0x50, ty := 1, imm16 := 0x8000 }
    ∧ Issues (running {}) t0 { opc := 0x52, tys := [1], d := .v, a := .s, imm := true } { opc := 0x52, ty := 1 }
    ∧ Issues (running {}) t0 { opc := 0x51, tys := [1], a := .v, c := .v, imm := true } { opc := 0x51, ty := 1 }
    ∧ Issues (running {}) t0 { opc := 0x53, tys := [1], a := .s, c := .v, imm := true } { opc := 0x53, ty := 1 }
    ∧ Issues (running {}) t0 { opc := 0x54, tys := [1], d := .s, a := .s, imm := true } { opc := 0x54, ty := 1, imm16 := 2 }
    ∧ Issues (running {}) t0 { opc := 0x55, tys := [1], a := .s, c := .s, imm := true } { opc := 0x55, ty := 1 } := by and_intros <;> decide

/-! ## StoresBecomeVisible -/

/-- One store by thread 0 of engine 0 waits. -/
def stored : State := (running {}).homeStore 0 0 0 0x280000 5

theorem test_wit_visible : Open stored t0 {} ∧ Issues stored t0 { opc := 0x81, tys := [1] } { opc := 0x81, ty := 1 }
    ∧ (∀ p ∈ (running {}).syn.stores, p.hr = 0 → p.addr = 0x280000 → p.eng = 0)
    ∧ (stored.syn.stores.filter fun p => p.hr == 0 && p.addr == 0x280000) = [⟨0, 0, 0, 0x280000, 5, stored.clk.engineCycles⟩]
    ∧ (∀ p ∈ stored.syn.stores, p.addr < 0x300000 ∧ p.addr % 4 = 0)
    ∧ Issues (running { sc := [(0, 0x2FEFFC)] }) t0 { opc := 0x56, tys := [1], d := .s, a := .s, b := .s, bsels := [0, 3], imm := true } { opc := 0x56, ty := 1 }
    ∧ Issues (running { sc := [(0, 0x2FEFFE)] }) t0 { opc := 0x56, tys := [1], d := .s, a := .s, b := .s, bsels := [0, 3], imm := true } { opc := 0x56, ty := 1, bsel := 3, ext := true }
    ∧ Issues (running {}) t0 { opc := 0x56, tys := [1], d := .s, a := .s, b := .s, bsels := [0, 3], imm := true } { opc := 0x56, ty := 1 } := by
  and_intros <;> decide

/-- A store is seen by its own engine (07 R169). -/
theorem test_load_sees_store : stored.homeLoad 0 0 0x280000 0 = 5 ∧ stored.homeWord 0 0x280000 = 0 := by decide

/-! ## StreamsRun -/

/-- Thread 0 has a stream of one line in hand under tag 3, its one line good or in error. -/
def streamed (done : Bool) (errs : List Nat) : State :=
  running { tags := [(3, [{ src := 64, dst := 0x280000, lines := 1, done := done, data := List.replicate 64 7, errs := errs }])] }

theorem test_wit_streams :
    Open (running {}) t0 {} ∧ Open (streamed true []) t0 {} ∧ Open (streamed false []) t0 {} ∧ Open (streamed true [0]) t0 {}
    ∧ Issues (running {}) t0 { opc := 0x60, tys := [1], a := .s, b := .s, mod := 3, imm := true, legal := true } { opc := 0x60, ty := 1, b := 31, mod := 3, imm16 := 1023 }
    ∧ Issues (running { sc := [(31, 0x2FEFC0)] }) t0 { opc := 0x60, tys := [1], a := .s, b := .s, mod := 3, imm := true, legal := true } { opc := 0x60, ty := 1, b := 31, mod := 3, imm16 := 1 }
    ∧ Issues (running { sc := [(0, 0x280000)], tags := [(3, [{ src := 64, dst := 0x280000, lines := 1 }])] }) t0
      { opc := 0x60, tys := [1], a := .s, b := .s, mod := 3, imm := true, legal := true } { opc := 0x60, ty := 1, mod := 3 }
    ∧ ((thr (streamed false []) t0).tag 3).find? (fun x => !x.done) = some { src := 64, dst := 0x280000, lines := 1, data := List.replicate 64 7 }
    ∧ { streamed false [] with rst := { held := 2 ^ 26 } }.memReady 2 64 64 = true
    ∧ Issues (streamed true []) t0 { opc := 0x61, tys := [1], mod := 15 } { opc := 0x61, ty := 1, mod := 8 }
    ∧ Issues (streamed false []) t0 { opc := 0x61, tys := [1], mod := 15 } { opc := 0x61, ty := 1, mod := 15 }
    ∧ Issues (streamed true [0]) t0 { opc := 0x61, tys := [1], mod := 15 } { opc := 0x61, ty := 1, mod := 8 } := by and_intros <;> decide

/-! ## RayResults -/

/-- A queue with n requests, in an engine whose row has a stack of one layer. -/
def sampling (n : Nat) : State :=
  let s := running {}
  let q : SmpReq := { thread := 1, dest := 0, entry := 0, lanes := 1, px := [], py := [], sg := [], ta := [] }
  let l : StackEntry := { id := 0, plane := false, premul := true, sheddable := false, z := 0, alpha := 255, scale := 4096, disparity := 0, offX := 0, offY := 0, gridW := 1, gridH := 1, base := 0, fmt := 0 }
  { s with syn := { s.syn with engines := [(0, { run := some ⟨0, 0, 0, 0⟩, queue := List.replicate n q })], bank0 := { stack := [l] } } }

theorem test_wit_rays :
    Issues (running {}) t0 { opc := 0x70, tys := [0], d := .quad, a := .v } { opc := 0x70, d := 60, a := 63 }
    ∧ rayInRange ((thr (running { v := [(64 * 63, 0x80000000)] }) t0).vreg 63 0) = false
    ∧ Issues (running { v := [(64 * 63, 0x80000000)] }) t0 { opc := 0x70, tys := [0], d := .quad, a := .v } { opc := 0x70, a := 63 }
    ∧ Issues (sampling 3) t0 { opc := 0x71, tys := [2], d := .quad, a := .quad, b := .s, bsels := [1, 2] } { opc := 0x71, ty := 2, bsel := 1, b := 31, d := 60, a := 60 }
    ∧ Issues (sampling 4) t0 { opc := 0x71, tys := [2], d := .quad, a := .quad, b := .s, bsels := [1, 2] } { opc := 0x71, ty := 2, bsel := 2 }
    ∧ Issues (running {}) t0 { opc := 0x71, tys := [2], d := .quad, a := .quad, b := .s, bsels := [1, 2] } { opc := 0x71, ty := 2, bsel := 2, imm16 := 15, pn := true }
    ∧ ((sampling 4).engine 0).queue.length = 4 ∧ ((sampling 4).bank 0).stack.length = 1
    ∧ (thr (running {}) t0).guard { pn := true } = 0 ∧ (thr (running {}) t0).guard {} ≠ 0
    ∧ (0x27#6 &&& 0x18 = 0 ∧ (0x27#6).getLsbD 5 = true)
    ∧ Issues (running {}) t0 { opc := 0x73, tys := [2], d := .quad, a := .quad, c := .own } { opc := 0x73, ty := 2, c := 0x27 }
    ∧ Issues (running {}) t0 { opc := 0x74, tys := [2], a := .v, b := .triple } { opc := 0x74, ty := 2, a := 63, b := 61 }
    ∧ ((running {}).engine 0).run = some ⟨0, 0, 0, 0⟩
    ∧ rayInRange ((thr (running { v := [(64, 1), (65, 2)], p := [(1, 3)] }) t0).vreg 1 0) = true
    ∧ rayInChunk 0 0 0 ((thr (running { v := [(64, 1), (65, 2)], p := [(1, 3)] }) t0).vreg 1 1) = true
    ∧ rayInChunk 0 0 0 0x1000 = false
    ∧ (thr (running { v := [(64, 1), (65, 2)], p := [(1, 3)] }) t0).guard { pg := 1 } = 3 := by and_intros <;> decide

/-! ## ThreadsMeetAndReport -/

/-- Two chunks: one waits in engine 0, engine 1 runs one whose threads 0 and 1 wait at barriers x and y. -/
def meeting (x y : Option Nat) : State :=
  let s := (wit.setEngine 0 { wait := some ⟨431, 8, 5, 0⟩ }).setEngine 1 { run := some ⟨0, 0, 0, 0⟩ }
  (s.setThread 8 { alive := true, bar := x }).setThread 9 { alive := true, bar := y }

theorem test_wit_sync :
    (wit.live 6 = true ∧ ((meeting none none).engine 0).run = none ∧ ((meeting none none).engine 0).wait = some ⟨431, 8, 5, 0⟩)
    ∧ Open (running {}) t0 {} ∧ Issues (running {}) t0 { opc := 0x80, tys := [1], imm := true } { opc := 0x80, ty := 1, imm16 := 3 }
    ∧ (∀ j, j < 8 → ((meeting (some 3) (some 3)).thread (8 + j)).alive = true → ((meeting (some 3) (some 3)).thread (8 + j)).bar = some 3)
    ∧ ((meeting (some 3) (some 2)).thread 8).bar ≠ ((meeting (some 3) (some 2)).thread 9).bar
    ∧ Issues (running {}) t0 { opc := 0x82, tys := [1], a := .s, b := .s, imm := true } { opc := 0x82, ty := 1 }
    ∧ Issues ((running {}).setReg Reg.seqCtrl 1) t0 { opc := 0x82, tys := [1], a := .s, b := .s, imm := true } { opc := 0x82, ty := 1 }
    ∧ ((running {}).setReg Reg.seqCtrl 1).flag Reg.seqCtrl 0 = true := by and_intros <;> decide

/-- Engine 0 of Homeroom 0 has one request for one lane, of a plane of one tile; with reads of its in each of eight channels. -/
def asking (reads : List MemReq) : State :=
  let q : SmpReq := { thread := 1, dest := 0, entry := 0, lanes := 1, px := [], py := [], sg := [], ta := [] }
  let l : StackEntry := { id := 0, plane := true, premul := true, sheddable := false, z := 0, alpha := 255, scale := 4096, disparity := 0, offX := 0, offY := 0, gridW := 1, gridH := 1, base := 0, fmt := 0 }
  { wit with
    syn := { engines := [(0, { run := some ⟨0, 0, 0, 0⟩, queue := [q] })], bank0 := { stack := [l] } }
    dmc := { chans := (List.range 8).map fun c => (c, { reads := reads }) } }

theorem test_wit_sampler : (asking []).nextEngine 0 0 = some 0 ∧ (asking []).live 6 = true
    ∧ ((asking []).engineRuns || (asking []).quiescing) = true ∧ (asking []).missTags 0 < 256
    ∧ ((asking []).engine 0).run = some ⟨0, 0, 0, 0⟩ ∧ ((asking []).bank 0).stack.length = 1
    ∧ (∃ q, ((asking []).engine 0).queue = [q] ∧ (((asking []).bank 0).stack[0]?).any (fun ent => (asking []).requestMisses 0 ((asking []).bank 0) ent q) = true)
    ∧ 256 ≤ (asking (List.replicate 32 { master := 2, line := 0, at_ := 0, target := 0 })).missTags 0 := by
  refine ⟨?_, ?_, ?_, ?_, ?_, ?_, ⟨_, rfl, ?_⟩, ?_⟩ <;> decide

/-! ## TimetableComputes -/

/-- The sequencer runs at pc 0 in slot k, T0 holding v. -/
def sequencing (k : Nat) (v : Word) : State :=
  let s := wit.setReg Reg.seqCtrl 1
  { s with seq := { s.seq with st := .running, slot := k, t := [(0, v)] } }

theorem test_wit_timetable :
    SeqIssues (sequencing 0 5) { opc := 0xC0 } { opc := 0xC0 }
    ∧ SeqIssues (sequencing 0 5) { opc := 0xC1, d := true, b := true, bsels := [0, 2, 3] } { opc := 0xC1, bsel := 3, ext := true }
    ∧ SeqIssues (sequencing 0 5) { opc := 0xC2, d := true, a := true, b := true, bsels := [0, 2, 3] } { opc := 0xC2, bsel := 2, imm16 := 65535 }
    ∧ SeqIssues (sequencing 0 5) { opc := 0xC7, d := true, imm := true } { opc := 0xC7, imm16 := 12 }
    ∧ SeqIssues (sequencing 0 5) { opc := 0xC7, d := true, imm := true } { opc := 0xC7, imm16 := 13 }
    ∧ SeqIssues (sequencing 0 5) { opc := 0xC8, a := true, b := true, bsels := [0, 3], mod := 15, imm := true } { opc := 0xC8, mod := 8, imm16 := 8191 }
    ∧ SeqIssues (sequencing 0 5) { opc := 0xC8, a := true, b := true, bsels := [0, 3], mod := 15, imm := true } { opc := 0xC8, mod := 1, imm16 := 8192 }
    ∧ SeqIssues (sequencing 0 5) { opc := 0xC8, a := true, b := true, bsels := [0, 3], mod := 15, imm := true } { opc := 0xC8, mod := 15 }
    ∧ SeqIssues (sequencing 0 5) { opc := 0xC8, a := false, b := false, bsels := [0, 3], mod := 15, imm := true } { opc := 0xC8, mod := 6, imm16 := 65535 }
    ∧ SeqIssues (sequencing 5 5) { opc := 0xC9, b := true, bsels := [0, 2] } { opc := 0xC9 } ∧ (sequencing 5 5).tB {} = 5
    ∧ SeqIssues (sequencing 4 5) { opc := 0xC9, b := true, bsels := [0, 2] } { opc := 0xC9 }
    ∧ SeqIssues (sequencing 4 448) { opc := 0xC9, b := true, bsels := [0, 2] } { opc := 0xC9 } ∧ (sequencing 4 448).tB {} = 448
    ∧ SeqIssues (sequencing 4 448) { opc := 0xCA, d := true } { opc := 0xCA, d := 15 } := by and_intros <;> decide

/-! ## TimetableActs -/

/-- T1 and T2 hold a row and a count, the queue n descriptors, the message queue the messages given. -/
def dispatching (entry row count : Word) (n : Nat) (ms : List EngMsg) (k : Nat) : State :=
  let s := sequencing k 5
  { s with seq := { s.seq with t := [(0, entry), (1, row), (2, count)], desc := List.replicate n 0, msgs := ms } }

theorem test_wit_acts :
    SeqIssues (dispatching 0x7FFF8 0 432 0 [] 0) { opc := 0xCB, a := true, b := true, c := true, mod := 1 } { opc := 0xCB, b := 1, c := 2, mod := 1 }
    ∧ SeqIssues (dispatching 8 431 1 1024 [] 0) { opc := 0xCB, a := true, b := true, c := true, mod := 1 } { opc := 0xCB, b := 1, c := 2 }
    ∧ SeqIssues (dispatching 8 431 2 0 [] 0) { opc := 0xCB, a := true, b := true, c := true, mod := 1 } { opc := 0xCB, b := 1, c := 2 }
    ∧ SeqIssues (sequencing 446 5) { opc := 0xCC, a := true } { opc := 0xCC } ∧ SeqIssues (sequencing 446 5) { opc := 0xCE, a := true } { opc := 0xCE } ∧ SeqIssues (sequencing 447 5) { opc := 0xCE, a := true } { opc := 0xCE }
    ∧ SeqIssues (sequencing 447 6) { opc := 0xCE, a := true } { opc := 0xCE } ∧ (sequencing 447 6).tReg 0 = 6
    ∧ SeqIssues (sequencing 431 5) { opc := 0xCD, b := true, bsels := [0, 2] } { opc := 0xCD } ∧ SeqIssues (sequencing 432 5) { opc := 0xCD, b := true, bsels := [0, 2] } { opc := 0xCD }
    ∧ SeqIssues (sequencing 446 5) { opc := 0xCD, b := true, bsels := [0, 2] } { opc := 0xCD, bsel := 2, imm16 := 15 }
    ∧ SeqIssues (sequencing 447 5) { opc := 0xCD, b := true, bsels := [0, 2] } { opc := 0xCD } ∧ SeqIssues (sequencing 447 5) { opc := 0xCF } { opc := 0xCF }
    ∧ SeqIssues (dispatching 0 0 0 0 [⟨1, 2, 3, 4, 5, 6⟩] 0) { opc := 0xD0, d := true, mod := 1 } { opc := 0xD0, d := 13 }
    ∧ SeqIssues (sequencing 0 0) { opc := 0xD0, d := true, mod := 1 } { opc := 0xD0, mod := 1 } ∧ SeqIssues (sequencing 0 0) { opc := 0xD0, d := true, mod := 1 } { opc := 0xD0 }
    ∧ SeqIssues (sequencing 0 0) { opc := 0xD0, d := true, mod := 1 } { opc := 0xD0, d := 14 } ∧ SeqIssues (sequencing 0 0) { opc := 0xD1, imm := true } { opc := 0xD1, imm16 := 65535 } := by
  and_intros <;> decide

/-! ## TimetableFaults -/

theorem test_wit_faults : (sequencing 0 0).seqRunning = true
    ∧ (TShape.ok { opc := 0xCC, a := true } ((sequencing 0 0).seqSeen { opc := 0xCC, a := 16 }) = false ∧ slateTOpcode 0xD2 = false)
    ∧ ({ sequencing 0 0 with seq := { (sequencing 0 0).seq with pc := 65528 } } : State).seqRunning = true
    ∧ 65536 < ({ sequencing 0 0 with seq := { (sequencing 0 0).seq with pc := 65528 } } : State).seqNext { opc := 0xC1, ext := true, bsel := 3 }
    ∧ TShape.ok { opc := 0xC1, d := true, b := true, bsels := [0, 2, 3] }
        (({ sequencing 0 0 with seq := { (sequencing 0 0).seq with pc := 65528 } } : State).seqSeen
          { opc := 0xC1, ext := true, bsel := 3, immHigh := 5 }) = true := by
  and_intros <;> decide

/-! ## SlotsAndFlips -/

/-- A frame that began in cycle 0, in cycle 40,000. -/
def framed : State := { wit with now := 40000, seq := { wit.seq with flipAt := some 0, enAt := 0, slot := 0 } }

theorem test_wit_slots : framed.seq.flipAt = some 0 ∧ framed.live 18 = true ∧ framed.seq.slot < 447 ∧ framed.flipDue = false
    ∧ 0 + (framed.seq.slot + 1) * ratePeriod framed.seq.rate / 448 ≤ framed.now
    ∧ ({ framed with now := 29760 } : State).now < 0 + (framed.seq.slot + 1) * ratePeriod framed.seq.rate / 448
    ∧ ({ framed with asm := { framed.asm with nextFlip := some 7, wall := 7 * 16000000 } } : State).wallNs = 7
    ∧ ({ framed with asm := { framed.asm with flipPeriod := 8333333, wall := 8333333 * 16000000 } } : State).wallNs
        = framed.seq.flipWall + 8333333
    ∧ framed.flag Reg.seqCtrl 2 = true ∧ (framed.setFlag Reg.seqCtrl 0).flag Reg.seqCtrl 0 = true
    ∧ 0 + ratePeriod framed.seq.rate + ratePeriod framed.seq.rate / 448 ≤ ({ framed with now := 14000000 } : State).now := by
  and_intros <;> decide

/-! ## SequencerControl -/

theorem test_wit_seq_regs : wit.busOk Reg.seqCtrl { master := 0, value := 5 } = true ∧ wit.busOk Reg.seqCtrl { master := 0, value := 0x80000001 } = true
    ∧ wit.flag Reg.seqCtrl 0 = false ∧ (wit.setFlag Reg.seqCtrl 0).flag Reg.seqCtrl 0 = true
    ∧ ReadOk wit Reg.seqFrameLo { master := 0 }
    ∧ wit.busOk Reg.seqGeoMargin { master := 0, value := 0x40000008 } = true := by and_intros <;> decide

/-! ## PostsWaitForTheMonitor -/

theorem test_wit_posts : ∀ off ∈ [Reg.asmDnqPost 1, Reg.asmUpqPost 0, Reg.hrPvPost, Reg.camCapPost 3, Reg.calRecPost, Reg.rptCkptPost,
    Reg.rptRestPost, Reg.rcPost, Reg.secImgPost, Reg.secAttPost], wit.busOk off { master := 0, value := 0x3FFFFFFF } = true := by decide

/-- A queue of four with four posts to be checked is full; fewer leave room. -/
theorem test_wit_queues : ({ wit with host := { wit.host with fifo := List.replicate 4 (.post .rc 0) } } : State).posting .rc = 4
    ∧ ({ wit with host := { wit.host with fifo := List.replicate 3 (.post .rc 0) } } : State).posting .rc = 3
    ∧ ({ wit with host := { wit.host with fifo := List.replicate 16 (.post (.asmDnq true) 0) } } : State).posting (.asmDnq true) = 16
    ∧ wit.flag Reg.rptCtrl 0 = false ∧ (wit.setFlag Reg.rptCtrl 0).flag Reg.rptCtrl 0 = true := by and_intros <;> decide

/-! ## MonitorChecksPosts -/

/-- A post at the monitor of a buffer of 64 bytes whose ownership word holds w0, with the extents given; every
master may read group 3, whose channel is trained. -/
def posted (q : QueueId) (x w0 : Nat) (es : List Extent) : State :=
  let s := (wit.setReg (Reg.prcE1 3 0) 0xFFFFFF).setReg (Reg.prcE2 3 0) 0xFFFFFFFF
  { s with
    host := { wit.host with fifo := [.post q x], extents := es }
    dmc := { wit.dmc with chans := [(15, { trained := true })], dram := Memory.store [] (winAddr x) (leBytes 4 w0 ++ leBytes 4 1) } }

theorem test_wit_monitor : (posted .rc 64 0 []).host.fifo = .post .rc 64 :: [] ∧ (posted .rc 64 0 []).live 34 = true
    ∧ leNat ((posted .rc 64 0 []).bytesAt (winAddr 64) 4) % 4 = 0 ∧ leNat ((posted .rc 64 1 []).bytesAt (winAddr 64) 4) % 4 = 1
    ∧ leNat ((posted (.asmUpq true) 64 2 []).bytesAt (winAddr 64) 4) % 4 = 2 ∧ (posted .rc 64 1 []).memReady 24 (winAddr 64) 64 = true ∧ ((posted .rc 64 1 []).ownerRead 24 64).2 = (1, 64)
    ∧ (64 < 127 + 64 ∧ 127 < 64 + 64) ∧ ¬ (64 < 128 + 64 ∧ 128 < 64 + 64)
    ∧ ((posted .rc (2 ^ 30 - 64) 1 []).ownerRead 24 (2 ^ 30 - 64)).2 = (1, 64) ∧ Calm ((posted .rc 64 1 []).ownerRead 24 64).1 Reg.hpRefuse ∧ Calm wit Reg.hpViol
    ∧ wit.host.fifo = [] ∧ (wit.setReg Reg.hstLink 0x80000000).hostPath = true
    ∧ (wit.setReg Reg.hstLink 0x80000000).live 34 = true ∧ (0x3FFFFFFF#30).toNat + [(0 : Byte)].length ≤ 2 ^ 30 := by
  and_intros <;> decide

theorem test_wit_full : (posted .rc 64 1 (List.replicate 256 ⟨128, 64, .rc⟩)).host.extents.length = 256 := List.length_replicate ..

/-! ## MailboxesHoldTheirResult -/

/-- Mailbox 1 holds a result whose SEQ is 0; another waits. -/
def mailed : State :=
  { wit.setReg (Reg.hstMbox0w 1) 0x80000000 with host := { wit.host with mboxHeld := [(0, []), (1, [7])] } }

theorem test_wit_mailbox : mailed.busOk (Reg.hstMboxAck (1 : Fin 4).val) { master := 0, value := 0 } = true
    ∧ (0 : Word).toNat % 65536 = mailed.fld (Reg.hstMbox0w 1) 15 0 ∧ (1 : Word).toNat % 65536 ≠ mailed.fld (Reg.hstMbox0w 1) 15 0
    ∧ mailed.host.mboxHeld = [(0, [])] ++ (1, [7]) :: [] ∧ (∀ p ∈ wit.host.mboxHeld, p.1 ≠ 1)
    ∧ ReadOk mailed (Reg.hstMbox0w (3 : Fin 4).val) { master := 0 }
    ∧ mailed.flag (Reg.hstMbox0w 1) 31 = true ∧ mailed.flag (Reg.hstMbox0w 2) 31 = false := by
  and_intros <;> decide

/-! ## EventsReachTheirRoutes -/

/-- Event 16 (group 0) has occurred; ROUTE of event 257 names vector 5 and an alarm; pin 3 was seen high once. -/
def evented : State :=
  let s := ((wit.setFlag (Reg.evtStatus 0) 16).setFlag (Reg.evtEnable 8) 1).setReg (Reg.evtRoute 257) 0x60000005
  { s with host := { s.host with gpioLast := 8 } }

theorem test_wit_events : (∀ off ∈ [Reg.evtStatus (0 : Fin 9).val, Reg.evtEnable (8 : Fin 9).val, Reg.evtSoftSet],
      evented.busOk off { master := 0, value := 2 } = true)
    ∧ evented.busOk Reg.evtSoftSet { master := 16, value := 2 } = false
    ∧ evented.up 33 = true ∧ evented.live 33 = true ∧ evented.flag (Reg.evtStatus 8) 1 = false ∧ evented.flag (Reg.evtEnable 8) 1 = true
    ∧ evented.flag (Reg.evtRoute 257) 29 = true ∧ evented.fld (Reg.evtRoute 257) 5 0 = 5 ∧ evented.flag (Reg.evtRoute 257) 30 = true
    ∧ (8 : BitVec 16).getLsbD 3 = evented.host.gpioLast.getLsbD 3 ∧ (8 : BitVec 16).getLsbD 3 ≠ evented.host.gpioFilt.getLsbD 3
    ∧ (((evented.setReg (Reg.prcE0 7 0) 0x80000000).setReg (Reg.prcE1 7 0) 0).setReg (Reg.prcE3 7 0) 0x10002).busOk Reg.evtSoftSet
        { master := 1, value := 2 } = true := by
  and_intros <;> decide

/-! ## MessagesAndTheLink -/

theorem test_wit_message : (({ wit with host := { wit.host with msixPend := 32 } } : State).setFlag Reg.hstLink 31).hostPath = true
    ∧ ({ wit with host := { wit.host with msixPend := 32 } } : State).host.msixPend.getLsbD (5 : Fin 64).val = true
    ∧ (∃ c : PciConfig, c.msixEnable = true ∧ c.fnMask = false ∧ c.busMaster = true)
    ∧ (wit.setReg (Reg.hstMsixTable 5 3) 0).flag (Reg.hstMsixTable (5 : Fin 64).val 3) 0 = false ∧ wit.up 37 = true ∧ State.reset.up 37 = false := by
  refine ⟨by decide, by decide, ⟨{ msixEnable := true, fnMask := false, busMaster := true }, rfl, rfl, rfl⟩, ?_⟩
  and_intros <;> decide

/-! ## RollCallSnapshots -/

/-- Roll Call runs by time, a buffer of 256 bytes posted, N = 2. -/
def rolling : State :=
  { (wit.setReg Reg.rcCtrl 0x00C00001).setReg Reg.rcCount 2 with
      host := { wit.host with rcQueue := [64], extents := [⟨64, 256, .rc⟩] } }

theorem test_wit_roll_call : rolling.live 32 = true ∧ rolling.flag Reg.rcCtrl 0 = true ∧ rolling.flag Reg.rcCtrl 1 = false
    ∧ (rolling.setFlag Reg.rcCtrl 1).flag Reg.rcCtrl 1 = true ∧ rolling.host.rcQueue = 64 :: [] ∧ rolling.host.rcBusy = none
    ∧ rolling.flag (Reg.hstMbox0w 3) 31 = false ∧ rolling.host.mboxHeld = [] ∧ rolling.bufLen 64 = 256 ∧ min 256 (rolling.fld Reg.rcCount 8 0) = 2
    ∧ rolling.wallNs < rolling.host.rcBase + max 1 (rolling.fld Reg.rcPeriod 15 0) * 1000000
    ∧ rolling.busOk Reg.rcCtrl { master := 0, value := 0x80000001 } = true ∧ (0x80000001 : Word).getLsbD 31 = true
    ∧ rolling.host.rcBase ≤ rolling.wallNs := by
  and_intros <;> decide

/-- A snapshot of two entries, both read; every master may write group 3, whose channel is trained. -/
def rolled : State :=
  let s := (rolling.setReg (Reg.prcE1 3 0) 0xFFFFFF).setReg (Reg.prcE3 3 0) 0xFFFFFFFF
  { s with host := { rolling.host with rcQueue := [], rcBusy := some ⟨64, 0, [1, 2], 2, 0, 0, 0, 0⟩ }
           dmc := { s.dmc with chans := [(15, { trained := true })] } }

theorem test_wit_snapshot : rolled.host.rcBusy = some ⟨64, 0, [1, 2], 2, 0, 0, 0, 0⟩ ∧ rolled.live 32 = true
    ∧ rolled.memReady 24 (winAddr 64) (rolled.bufLen 64) = true
    ∧ (rolled.devWrite 24 (winAddr 128) [1] true).2 = true ∧ (State.reset.devWrite 24 (winAddr 128) [1] true).2 = false
    ∧ rolled.flag Reg.rcCtrl 2 = false ∧ (rolled.setFlag Reg.rcCtrl 2).flag Reg.rcCtrl 2 = true ∧ rolled.live (rolled.fld Reg.rcCtrl 3 3) = true
    ∧ (rolled.port 0).upq.length + rolled.posting (.asmUpq false) = 0
    ∧ ({ rolled with asm := { rolled.asm with portA := { rolled.asm.portA with upq := List.replicate 16 0 } } } : State).port 0
        = { rolled.asm.portA with upq := List.replicate 16 0 } := by
  and_intros <;> decide

/-! ## LaneStatesFollowRequests -/

/-- Lane 58 (a tile's return lane) as given. -/
def laned (ln : Lane) : State := wit.setLane 58 ln

theorem test_wit_lanes : wit.busOk (Reg.laneCtrl (58 : Fin 74).val) { master := 0, value := 1 } = true
    ∧ wit.live (laneBlock 58) = true ∧ wit.live (laneBlock 0) = true ∧ State.reset.live (laneBlock 58) = false ∧ laneTx 58 = false ∧ laneTx 0 = true ∧ laneBurst 0 = false
    ∧ wit.fld (Reg.laneCtrl 58) 2 0 = 0 ∧ (wit.setFld (Reg.laneCtrl 58) 2 0 1).fld (Reg.laneCtrl 58) 2 0 = 1
    ∧ ((laned { st := .active, noticeAt := some 0, cwLock := true, lossDue := true }).lane 58).st = .active
    ∧ ((laned { st := .transition, held := some .quiet }).lane 58).held = some .quiet
    ∧ ((laned { st := .dormant, req := some .active }).lane 58).req = some .active
    ∧ (((wit.setReg (Reg.lanePrbs 0) 4).laneBoundary 0).lane 0).genOn = true ∧ ((wit.laneBoundary 0).lane 0).genOn = false
    ∧ ((laned { st := .transition, cdrLock := true, firPend := some 5 }).lane 58).firPend = some 5 := by and_intros <;> decide

/-! ## CodewordsAndLineTests -/

/-- A lane as given. -/
def lanes (k : Nat) (ln : Lane) : State := wit.setLane k ln

theorem test_wit_codewords : (lanes 50 { st := .active, cwLock := true }).laneReceiving 50 = true
    ∧ ((lanes 50 { st := .active, cwLock := true }).lane 50).cwLock = true ∧ ((lanes 50 { st := .active, cwLock := true }).lane 50).lossDue = false
    ∧ lanePam4 50 = true ∧ lanePam4 58 = false ∧ ((lanes 58 { st := .active, cdrLock := true }).lane 58).cdrLock = true
    ∧ (lanes 58 { st := .active, cdrLock := true }).laneReceiving 58 = true
    ∧ wit.busOk (Reg.laneTxfir (0 : Fin 74).val) { master := 0, value := 0x8000 } = true ∧ firSum 0x8000 ≤ 64 ∧ 64 < firSum 0x3F8000
    ∧ laneTx (0 : Fin 74).val = true ∧ wit.live (laneBlock 0) = true ∧ laneBurst 48 = true ∧ laneBurst 0 = false ∧ laneTx (58 : Fin 74).val = false
    ∧ wit.flag (Reg.lanePrbs 0) 2 = false ∧ (wit.setFlag (Reg.lanePrbs 0) 2).flag (Reg.lanePrbs 0) 2 = true
    ∧ ((wit.setFlag (Reg.lanePrbs 58) 6).setLane 58 { st := .active }).flag (Reg.lanePrbs 58) 6 = true := by and_intros <;> decide

theorem test_wit_levels : (List.replicate 2720 (0 : BitVec 2)).length = 2720 ∧ (List.replicate (2 * 5440) (0 : BitVec 2)).length = 2 * 5440 :=
  ⟨List.length_replicate .., List.length_replicate ..⟩

theorem test_wit_injection : wit.busOk (Reg.laneInject (0 : Fin 74).val) { master := 0, value := 0x80000102 } = true
    ∧ (0x80000102 : Word).getLsbD 31 = true ∧ (wit.lane 0).inj = none ∧ ((lanes 0 { inj := some ⟨2, 1⟩, genOn := true }).lane 0).inj = some ⟨2, 1⟩
    ∧ ((lanes 0 { inj := some ⟨2, 1⟩, genOn := true }).lane 0).genOn = true ∧ (lanes 0 { inj := some ⟨2, 1⟩ }).live (laneBlock 0) = true := by
  and_intros <;> decide

/-! ## PacketsAndTheFilter -/

/-- A packet of a type, a length and an AUTH bit on a stream. -/
def pkt (ty len auth stream : Nat) (bad : Bool) : Packet :=
  { lane := 0, head := BitVec.ofNat 64 (0x78 + stream * 256 + ty * 2 ^ 28 + len * 2 ^ 48 + auth * 2 ^ 60), bad := bad, arrive := 0, last := 0 }

/-- Stream 5 is a valid SLICE stream, stream 6 a valid MANIFEST stream with a required tag, stream 7 one that has begun. -/
def streams : State := ((wit.setCtx 5 (2 ^ 63 + 2 ^ 56)).setCtx 6 (2 ^ 63 + 2 ^ 62 + 3 * 2 ^ 56)).setCtx 7 (2 ^ 63 + 2 ^ 56 + 2 ^ 31 + 9 * 2 ^ 8 + 1)

theorem test_wit_packet : streams.live (1 : Fin 2).val = true ∧ takeLane 0 [pkt 1 4 0 5 false] = some (pkt 1 4 0 5 false, [])
    ∧ pktLen (pkt 1 4 0 5 false).head = 4 ∧ pktType (pkt 1 4 0 5 false).head = 1 ∧ (pkt 1 4 0 5 true).bad = true
    ∧ pktType (pkt 6 4 0 5 false).head = 6 ∧ pktAuth (pkt 6 4 0 5 false).head = false
    ∧ (pkt 1 4 0 5 false).tail.toNat / 256 % 2 ^ 32 = 0 ∧ pktStream (pkt 1 4 0 0xFFF00 false).head = 0xFFF00 := by and_intros <;> decide

theorem test_wit_filter : streams.detained 1 5 = false ∧ (streams.setReg (Reg.asmDetKey 3) 0xC0000005).detained 1 5 = true
    ∧ (streams.ctxEntry 5).testBit 63 = true ∧ bits (streams.ctxEntry 5) 59 56 = 1 ∧ (streams.ctxEntry 4).testBit 63 = false
    ∧ (streams.ctxEntry 6).testBit 62 = true ∧ pktAuth (pkt 3 4 1 6 false).head = true
    ∧ (streams.seqTest 0 5 100).2 = .accept ∧ (streams.seqTest 0 7 9).2 = .accept ∧ (streams.seqTest 0 7 8).2 = .duplicate
    ∧ (streams.seqTest 0 7 7).2 = .stale := by and_intros <;> decide

/-! ## TagsLossesAndBells -/

/-- A tagged packet under a key that has not been set fails its tag check. -/
theorem test_wit_tags : wit.live (1 : Fin 2).val = true
    ∧ ((wit.setPort 1 { wit.port 1 with tag := [pkt 7 4 1 0xFFF00 false] }).port (1 : Fin 2).val).tag = [pkt 7 4 1 0xFFF00 false]
    ∧ wit.tagOk (pkt 7 4 1 0xFFF00 false) = false ∧ pktType (pkt 7 4 1 0xFFF00 false).head = 7
    ∧ msgSender (pkt 7 4 1 0xFFF00 false) = 0 ∧ wit.fld (Reg.asmServerId 0) 15 0 = 0
    ∧ (wit.setReg (Reg.asmServerId 0) 0x00010001).fld (Reg.asmServerId 0) 15 0 = 1
    ∧ (wit.setReg (Reg.asmServerId 0) 0x00010001).fld (Reg.asmServerId 0) 31 16 = 1 := by and_intros <;> decide

/-- A state in which port A joined, heard its last Bell at 10, lost its lane at 20, and owes a loss and a repair. -/
def owing (n : Nat) : State :=
  let s := { wit with now := n, asm := { wit.asm with loss := [⟨5, 7, 0, 0⟩], repair := [⟨5, 6, none, some 3, 1⟩] } }
  s.setPort 0 { s.port 0 with st := .joined, bellAt := some 10, lostAt := some 20 }

theorem test_wit_timers : (owing 6400).asm.loss.find? (fun e => e.at_ + (owing 6400).lossHold ≤ (owing 6400).now) = some ⟨5, 7, 0, 0⟩
    ∧ (∀ e ∈ (owing 6399).asm.loss, (owing 6399).now < e.at_ + (owing 6399).lossHold)
    ∧ ((owing 1).ctxEntry 5).testBit 60 = false ∧ ((wit.setCtx 5 (2 ^ 60)).ctxEntry 5).testBit 60 = true
    ∧ (owing 16000003).asm.repair = [⟨5, 6, none, some 3, 1⟩] ∧ 3 + 16000000 ≤ (owing 16000003).now
    ∧ ((owing 1600010).port (0 : Fin 2).val).bellAt = some 10 ∧ 10 + 1600000 ≤ (owing 1600010).now
    ∧ ((owing 160000020).port (0 : Fin 2).val).lostAt = some 20 ∧ ((owing 160000020).port (0 : Fin 2).val).st = .joined
    ∧ (wit.port 0).lostAt = none ∧ 20 + 160000000 ≤ (owing 160000020).now := by and_intros <;> decide

/-- Port A is quiet since 0; port B, time locked, heard a Bell at 800000. -/
def twoBells : State :=
  let s := { wit with now := 800000 }
  let s := s.setPort 0 { s.port 0 with bellAt := some 0, st := .sync }
  s.setPort 1 { s.port 1 with bellAt := some 800000, timeLock := true }

theorem test_wit_bell_switch : twoBells.bellSource = 0 ∧ (twoBells.port 0).bellAt = some 0 ∧ (twoBells.port (1 - 0)).bellAt = some 800000
    ∧ (twoBells.port 1).timeLock = true ∧ twoBells.live (1 - 0) = true ∧ (twoBells.port 0).timeLock = false ∧ (twoBells.port 0).st = .sync
    ∧ (∃ t : State, exec .bellSwitch twoBells = .next t ∧ t.asm.switched = true ∧ t.bellSource = 1) := by
  refine ⟨by decide, by decide, by decide, by decide, by decide, by decide, by decide, _, rfl, by decide, by decide⟩

/-! ## AssemblyPortControl -/

/-- Port B in a state, with lane 0 in codeword lock, its upstream lane ACTIVE and one grant. -/
def granted (st : PortSt) (panel : Option Nat) (g : Grant) : State :=
  let s := wit.setPort 1 { wit.port 1 with st := st, panel := panel, grants := [g] }
  let s := s.setLane (portLane 1) { s.lane (portLane 1) with cwLock := true }
  s.setLane (upLane 1) { s.lane (upLane 1) with st := .active }

theorem test_wit_port_ctrl : wit.busOk (Reg.asmCtrl (1 : Fin 2).val) ⟨0, 1, 15⟩ = true ∧ wit.busOk (Reg.asmTiming (0 : Fin 2).val) ⟨0, 1, 15⟩ = true
    ∧ (wit.port 1).st = .off ∧ ((granted .joined none ⟨0, 0, 0, false⟩).port 1).st = .joined
    ∧ (granted .joined none ⟨0, 0, 0, false⟩).busOk (Reg.asmCtrl (1 : Fin 2).val) ⟨0, 0xC0000001, 15⟩ = true
    ∧ ((granted .listen none ⟨0, 0, 0, false⟩).port 1).st = .listen := by and_intros <;> decide

theorem test_wit_wall_read : ReadOk wit Reg.asmWallLo { master := 0 } := ⟨by decide, by decide, by decide⟩

theorem test_wit_grants : (granted .joined (some 3) ⟨3, 2, 0, false⟩).live (1 : Fin 2).val = true
    ∧ (granted .joined (some 3) ⟨3, 2, 0, false⟩).live (laneBlock (upLane (1 : Fin 2).val)) = true
    ∧ ((granted .joined (some 3) ⟨3, 2, 0, false⟩).lane (portLane (1 : Fin 2).val)).cwLock = true
    ∧ ((granted .joined (some 3) ⟨3, 2, 0, false⟩).lane (upLane (1 : Fin 2).val)).st = .active
    ∧ ((granted .joined (some 3) ⟨3, 2, 0, false⟩).port (1 : Fin 2).val).grants[(0 : Fin 64).val]? = some ⟨3, 2, 0, false⟩
    ∧ ((granted .joined (some 3) ⟨3, 2, 0, false⟩).useGrant 1 0).grantTooSoon 1 0 = true
    ∧ ((granted .joined (some 3) ⟨3, 2, 0, false⟩).useGrant 1 0).grantTooSoon 1 32000000000 = false := by and_intros <;> decide

/-! ## SlicesAreDecodedAndPublished -/

/-- A complete slice of frame f at column 0, row 0 of layer 0. -/
def slice0 (f : Nat) : Slice := ⟨5, 0, 0, 0, 0, 0, [⟨0, 0, f, 1, true, [0]⟩]⟩

/-- Decoder 1 holds the slice of frame f in a phase; layer 0 is bound by the manifest of frame 5. -/
def decoding (f : Nat) (ph : DecPhase) (now : Nat) : State :=
  { wit.setDecoder 1 { slice := some (slice0 f), phase := ph } with now := now }

theorem test_wit_decoder : wit.live 5 = true ∧ wit.live 26 = true ∧ (wit.decoder 0).slice = none ∧ wit.engineRuns = true
    ∧ ((decoding 5 .gather 0).decoder (1 : Fin 4).val).slice = some (slice0 5) ∧ (slice0 5).complete = true
    ∧ ((decoding 5 (.acked 0 3) 11).decoder (1 : Fin 4).val).phase = .acked 0 3 ∧ 3 + 8 ≤ (decoding 5 (.acked 0 3) 11).now
    ∧ (slice0 5).frame = 5 ∧ frameLe (slice0 5).frame ((0 + 1) % 65536) = false ∧ frameLe (slice0 1).frame ((0 + 1) % 65536) = true
    ∧ wit.dirAt (slotKey 0 0 0) = {} ∧ ((wit.setDir 0 { gen0 := ⟨1, true, 0⟩ }).dirAt (slotKey 0 0 0)).gen0 = ⟨1, true, 0⟩ := by
  and_intros <;> decide

theorem test_wit_dec_store : wit.busOk Reg.decStore ⟨0, 0x41, 15⟩ = true ∧ (wit.store Reg.decStore 0x41).fld Reg.decStore 6 0 = 0x41
    ∧ wit.fld Reg.decStore 6 0 = 0x40 ∧ (wit.store Reg.decStore 0x40).fld Reg.decStore 6 0 = 0x40 := by and_intros <;> decide

/-- Frame 5 is in synthesis and row 1 has begun; layer 0 with a grid of one slice is bound. -/
def bound0 : State :=
  let s := { wit with seq := { wit.seq with flipAt := some 0, slot := 1 } }
  { s with dec := { s.dec with bind := 1, force := some ⟨5, 0, [⟨0, false, false, 0, 0, 4096, 0, 0, 0, 1, 1, 0⟩]⟩ } }

theorem test_wit_slice_deadline : bound0.boundLayer (0 : Fin 16).val = some ⟨0, false, false, 0, 0, 4096, 0, 0, 0, 1, 1, 0⟩
    ∧ bound0.fSyn = some 5 ∧ bound0.needed ⟨0, false, false, 0, 0, 4096, 0, 0, 0, 1, 1, 0⟩ 0 0 = true
    ∧ bound0.deadlinePassed ⟨0, false, false, 0, 0, 4096, 0, 0, 0, 1, 1, 0⟩ 0 = true
    ∧ ((bound0.setDir 0 { seen := true, gen0 := ⟨5, true, 0⟩ }).dirAt (slotKey 0 0 0)).sampled 5 1 = some 0
    ∧ (({ seen := true, gen0 := ⟨4, true, 0⟩, runs := 3 } : DirEntry).sampled 5 1).any (fun g => (({ gen0 := ⟨4, true, 0⟩ } : DirEntry).gen g).frame % 65536 == 5 % 65536) = false
    ∧ (wit.setReg Reg.decCtrl 0x300).fld Reg.decCtrl 15 8 = 3 := by and_intros <;> decide

/-! ## SplicesAndLenslets -/

/-- Frame 0 is in slot k, cc cycles into it, with an express block of one target and a capture of frame 0. -/
def inSlot (k cc : Nat) : State :=
  { wit with now := 24000 * k + cc, seq := { wit.seq with flipAt := some 0, slot := k, slotAt := 24000 * k },
             dec := { wit.dec with express := [⟨0, 0, [⟨0, 1, 2, [0], none⟩]⟩] }, syn := { wit.syn with capture := some ⟨0, false, 0, 0, 0, 0, 0, 0, 0⟩ } }

theorem test_wit_splice : wit.live 22 = true ∧ (inSlot 1 0).dec.express = [⟨0, 0, [⟨0, 1, 2, [0], none⟩]⟩]
    ∧ (inSlot 1 0).seq.flipAt = some 0 ∧ (inSlot 1 0).activeSlot = true ∧ (inSlot 1 0).panelBlank = false
    ∧ SMap.get (fun _ => 0) (inSlot 1 0).syn.cursorU 0 = 0 ∧ ((inSlot 1 0).tile 0).blanked = true
    ∧ (∀ j ∈ List.range 3, ((inSlot 1 0).lane (3 * 0 + j)).free ≤ 125 * (inSlot 1 0).now + 128)
    ∧ (inSlot 1 0).seq.frame = 0 ∧ (inSlot 1 0).cursor 0 = 0 ∧ insertBudget (inSlot 1 0).seq.rate ≠ 0 ∧ ((inSlot 1 0).tile 0).slotInserts = 0
    ∧ (inSlot 432 0).syn.capture = some ⟨0, false, 0, 0, 0, 0, 0, 0, 0⟩ := by and_intros <;> decide

/-! ## GainsAndFinishingRegisters -/

/-- Frame 0 is in a slot; a gain load of tile 2 waits, and another behind it when asked. -/
def gains (slot : Nat) (more : Bool) : State :=
  { wit with seq := { wit.seq with flipAt := some 1, slot := slot },
             fin := { wit.fin with loads := [⟨2, 0, 0⟩], queued := if more then [⟨2, 64, 7⟩] else [] } }

theorem test_wit_gains : wit.busOk Reg.finGainLoad ⟨0, 0, 15⟩ = true ∧ wit.busOk Reg.finCtrl ⟨0, 0x80000000, 15⟩ = true
    ∧ wit.busOk Reg.finResBase ⟨0, 0xFFFF, 15⟩ = true ∧ (gains 432 false).live 22 = true ∧ (gains 432 true).fin.loads = [⟨2, 0, 0⟩]
    ∧ 0 < 1 + slotStartOf (gains 432 true).seq.rate 432 ∧ (gains 432 true).fin.copiedAt ≠ some 0
    ∧ ({ gains 432 true with rst := { held := 0x4000000 } } : State).memReady 22 (winAddr 0) 663616 = true
    ∧ (wit.tile 3).statusAt = none ∧ wit.flag Reg.finStatus 3 = true ∧ (wit.setReg Reg.finStatus 0).flag Reg.finStatus 3 = false := by
  and_intros <;> decide

theorem test_wit_gain_queue : ((gains 432 false).devRead 22 (winAddr 0 + 64) 0).1.fin.queued = [] := by decide

/-! ## ChartUpdatesAndFits -/

/-- Tile 3 runs an update, perhaps copied, perhaps with one queued; one fit of the tile is due and the loop runs. -/
def charting (u : PlcUpdate) (copied : Bool) (q : Option PlcUpdate) : State :=
  let s := (wit.setPlcTile 3 { running := some u, copied := copied, queued := q }).setReg Reg.plcCtrl 2
  { s with now := 10734, plc := { s.plc with writing := [3], fits := [⟨3, true, []⟩] } }

theorem test_wit_chart : wit.busOk Reg.plcRebuild ⟨0, 8, 15⟩ = true ∧ wit.busOk Reg.plcLoad ⟨0, 3, 15⟩ = true
    ∧ (wit.plcTile 3).running = none ∧ ((charting .rebuild false none).plcTile 3).running = some .rebuild
    ∧ ((charting .rebuild false (some (.load 64))).plcTile 3).queued = some (.load 64)
    ∧ ((charting (.load 64) true none).plcTile (3 : Fin 16).val).copied = true ∧ (charting (.load 64) true none).live 19 = true
    ∧ ((charting (.load 64) true none).plcTile 3).since + 10734 ≤ (charting (.load 64) true none).now
    ∧ (charting .rebuild false none).plc.fits.find? (fun f => f.tile == (3 : Fin 16).val) = some ⟨3, true, []⟩
    ∧ (charting .rebuild false none).flag Reg.plcCtrl 1 = true ∧ wit.flag Reg.plcCtrl 1 = false
    ∧ (charting .rebuild false none).plc.writing.head? = some 3 ∧ ({ charting (.load 64) false none with rst := { held := 0x4000000 } } : State).memReady 25 (winAddr 64) 48079 = true
    ∧ (PlcFit.points ⟨3, true, []⟩).length < (charting .rebuild false none).minFid
    ∧ (wit.plcTile 3).fitAt = none ∧ wit.flag (Reg.plcFitStatus 3) 31 = false := by and_intros <;> decide

theorem test_wit_chart_read : ReadOk wit (0x1400000 + 8 * (5 : Fin 85360).val) { master := 0 } := ⟨by decide, by decide, by decide⟩

/-- Four fiducials of tile 0, the third seen off where the table has it. -/
def fiducials (off : Word) : PlcFit :=
  ⟨0, true, (List.range 4).map fun i => ⟨i, [0x80000001, word (100 * i * i + 0x10000 * i), 0, 0x01000100],
    0x80000000 + (if i = 2 then off else 0), 0⟩⟩

theorem test_wit_fit : fitTooFar (fitSolve (fiducials 0).points) (fiducials 0).points (wit.fld Reg.plcFit 15 8) = false
    ∧ fitTooFar (fitSolve (fiducials 0x1000).points) (fiducials 0x1000).points (wit.fld Reg.plcFit 15 8) = true
    ∧ wit.minFid ≤ (fiducials 0).points.length := by and_intros <;> decide

/-! ## CameraPacketsAndResults -/

/-- The receiver runs; pipeline 1 holds a result, and an open RAW10 frame when asked. -/
def filming (frame : Option CamFrame) : State :=
  let s := wit.setReg Reg.camRxCtrl 1
  s.setPipe 1 { s.pipe 1 with done := [⟨7, 0, [⟨3, [], 0x80000000, 1⟩]⟩], frame := frame }

/-- An open frame of 64 by 16 pixels. -/
def openFrame : CamFrame := ⟨7, false, 4, 64, 16, 0, 0, 1, 0, [], [], [], [], [], 0, false, false, false, none⟩

theorem test_wit_camera : (filming none).live 21 = true ∧ (filming none).live 20 = true ∧ (filming none).flag Reg.camRxCtrl 0 = true
    ∧ (wit.setReg Reg.camRxCtrl 0).flag Reg.camRxCtrl 0 = false ∧ csiHeader 0 = some (0, false) ∧ csiHeader 1 = some (0, true) ∧ csiHeader 3 = none
    ∧ (filming none).pipeOf 1 = some 1 ∧ ((filming none).setPipe 1 { (filming none).pipe 1 with bound := none }).pipeOf 1 = none
    ∧ ((filming none).pipe (1 : Fin 4).val).done = [⟨7, 0, [⟨3, [], 0x80000000, 1⟩]⟩]
    ∧ ((filming (some openFrame)).pipe 1).frame = some openFrame ∧ (filming none).live 19 = true := by and_intros <;> decide

theorem test_wit_camera_registers : wit.busOk (Reg.camBind (1 : Fin 4).val) ⟨0, 0xC0000000, 15⟩ = true
    ∧ wit.busOk (Reg.camCtrl (1 : Fin 4).val) ⟨0, 0, 15⟩ = true ∧ wit.busOk Reg.camRxCtrl ⟨0, 0, 15⟩ = true := by and_intros <;> decide

theorem test_wit_spot_read : ReadOk wit (Reg.camSpot0 (3 : Fin 128).val) { master := 0 } := ⟨by decide, by decide, by decide⟩

/-! ## TileCommandsAndReturns -/

/-- A return block of a type stands on the return lane of tile 2, which waits for the result of tag 0. -/
def returning (ty : Nat) (v : BitVec 64) : State :=
  let s := wit.setLane 60 { wit.lane 60 with rx := [⟨true, v ||| BitVec.ofNat 64 ty, false⟩] }
  { s.setTile 2 { s.tile 2 with out := [⟨⟨.host, 1, 0⟩, 0, 0⟩] } with now := 40000 }

theorem test_wit_returns : (returning 0x72 0).live 23 = true
    ∧ ((returning 0x72 0).lane (58 + (2 : Fin 16).val)).rx = [⟨true, 0x72, false⟩] ∧ (⟨true, 0x72, false⟩ : Block).type = 0x72
    ∧ (⟨true, 0x171, false⟩ : Block).type = 0x71 ∧ (⟨true, 0x73, false⟩ : Block).type = 0x73 ∧ (⟨true, 0x175, false⟩ : Block).type = 0x75
    ∧ bits (0x175 : BitVec 64).toNat 15 8 = 1 ∧ ((returning 0x72 0).tile 2).out.find? (fun o => o.ctag == bits 0x72 15 8) = some ⟨⟨.host, 1, 0⟩, 0, 0⟩
    ∧ ((returning 0x72 0).tile 2).out.find? (fun o => o.ctag == bits 0x172 15 8) = none ∧ 0 + 40000 ≤ (returning 0x72 0).now
    ∧ wit.flag (Reg.tlkFault 2) 31 = false ∧ (wit.setReg (Reg.tlkFault 2) 0x80000000).flag (Reg.tlkFault 2) 31 = true
    ∧ Calm (returning 0x73 0) (Reg.tlkFault 2) ∧ wit.live 30 = true ∧ (wit.setTile 2 { wit.tile 2 with st := .linked }).live 30 = true
    ∧ outOfRange 3000 = true ∧ outOfRange 0 = false ∧ (wit.tile 2).out = [] ∧ (wit.lane 60).rx = [] ∧ (wit.sweepIssue 2).cmdAllowed 2 = true := by and_intros <;> decide

theorem test_wit_host_command : wit.busOk Reg.tlkHcmdHi ⟨0, 0x80000100, 15⟩ = true ∧ (wit.store Reg.tlkHcmdHi 0x80000100).tlk.host = none
    ∧ wit.busOk Reg.tlkHresAck ⟨0, 0, 15⟩ = true ∧ wit.fld Reg.tlkHresLo 31 16 = 0 := by and_intros <;> decide

theorem test_wit_result_read : ReadOk wit Reg.tlkHresLo { master := 0 } := ⟨by decide, by decide, by decide⟩

/-! ## TilesWakeShutAndGoDown -/

/-- Tile 2 in a state, shut since 0 and held since 0, at a time. -/
def shutting (st : TileSt) (now : Nat) : State :=
  { wit.setTile 2 { wit.tile 2 with st := st, shutAt := some (0, true), holdAt := some 0 } with now := now }

theorem test_wit_tile_power : wit.busOk Reg.tlkTileEn ⟨0, 0x40004, 15⟩ = true ∧ wit.busOk Reg.tlkCtrl ⟨0, 0x80000000, 15⟩ = true
    ∧ (shutting .linked 16000).live 23 = true ∧ ((shutting .linked 16000).tile (2 : Fin 16).val).shutAt = some (0, true)
    ∧ 0 + 16000 ≤ (shutting .linked 16000).now ∧ ((shutting .off 1600000).tile (2 : Fin 16).val).holdAt = some 0
    ∧ ((shutting .off 1600000).setReg Reg.tlkTileEn 4).flag Reg.tlkTileEn (2 : Fin 16).val = true
    ∧ wit.flag Reg.tlkTileEn (2 : Fin 16).val = false ∧ (shutting .linked 0).tileSilent 2 = true
    ∧ ((wit.setTile 2 { wit.tile 2 with statusAt := some 0 }).tileSilent 2) = false := by and_intros <;> decide

theorem test_wit_references : wit.live 23 = true ∧ wit.tlk.refFault = false ∧ wit.live 25 = true ∧ (wit.setReg Reg.calCtrl 0).flag Reg.calCtrl 2 = false
    ∧ wit.flag Reg.calCtrl 2 = true ∧ wit.cal.elec = none ∧ wit.cal.elecReq = none ∧ wit.tlk.refAt = none
    ∧ ({ wit with tlk := { wit.tlk with refAt := some 0 } } : State).refDue = false
    ∧ ({ wit with tlk := { wit.tlk with refFault := true, refPasses := 99 } } : State).tlk.refPasses = 99
    ∧ (2450000 ≤ 2500000 ∧ 2500000 ≤ 2550000) ∧ 237500 ≤ 250000 ∧ 250000 ≤ 262500 := by and_intros <;> decide

/-! ## CalibrationEngine -/

/-- A measurement of tile 2 has run for 40 µs, a record is owed, a buffer posted, and a base map of tile 2 loads. -/
def calibrating : State :=
  { wit with now := 64000, rst := { held := 0x4000000 }, cal := { wit.cal with mirror := some (2, 0), recDue := [false], recQueue := [64], running := [(2, 128)] } }

theorem test_wit_calibration : calibrating.live 25 = true ∧ calibrating.cal.mirror = some (2, 0) ∧ 0 + 64000 ≤ calibrating.now
    ∧ 100 * ((0x400000 : Int) - 0x400000).natAbs ≤ 2 * 0x400000 ∧ 2 * 0x400000 < 100 * ((0x500000 : Int) - 0x400000).natAbs
    ∧ calibrating.cal.recQueue = [64] ∧ calibrating.cal.recDue = [false] ∧ calibrating.cal.running.find? (fun p => p.1 == (2 : Fin 16).val) = some (2, 128)
    ∧ calibrating.memReady 20 (winAddr 64) 9384 = true ∧ calibrating.memReady 20 (winAddr 128) (calibrating.bufLen 128) = true
    ∧ calibrating.memReady 20 0x1C00000000 64 = true
    ∧ wit.busOk Reg.calRun ⟨0, 7, 15⟩ = true ∧ wit.busOk Reg.calRecLoad ⟨0, 64, 15⟩ = true ∧ wit.busOk Reg.calBaseLoad ⟨0, 66, 15⟩ = true := by
  and_intros <;> decide

/-! ## ReportCardCheckpoints -/

/-- The 64 buffers of generation 3 have been written, a buffer waits to be restored, a clearing runs, and a period has passed. -/
def checkpointing : State :=
  let s := wit.setReg Reg.rptCtrl 8
  { s with now := 1600000000 * 65536, rpt := { s.rpt with ckpt := some ⟨3, 64⟩, ckptQueue := [64], restQueue := [128], clearing := true } }

theorem test_wit_report_card : checkpointing.live 24 = true ∧ checkpointing.flag Reg.rptCtrl 3 = true ∧ checkpointing.flag Reg.rptCtrl 0 = false
    ∧ checkpointing.rpt.ckptBase + 1600000000 * max 1 (checkpointing.fld Reg.rptCkptCtrl 15 0) ≤ checkpointing.now
    ∧ checkpointing.rpt.ckpt = some ⟨3, 64⟩ ∧ checkpointing.rpt.ckptQueue = [64] ∧ checkpointing.rpt.clearing = true
    ∧ checkpointing.permits 2 19 0 3185049600 true = false
    ∧ (((checkpointing.setReg (Reg.prcE0 2 1) 0x80000000).setReg (Reg.prcE1 2 1) 0xFFFFFF).setReg (Reg.prcE3 2 1) 0x80000).permits 2 19 0 3185049600 true = true
    ∧ checkpointing.rpt.restQueue = [128] ∧ ({ checkpointing with rst := { held := 2 ^ 26 } } : State).memReady 19 (winAddr 128) 64 = true
    ∧ ({ checkpointing with rst := { held := 2 ^ 26 } } : State).memReady 19 0x1C00000000 64 = true := by and_intros <;> decide

theorem test_wit_report_card_writes : wit.busOk Reg.rptCkptCtrl ⟨0, 0x80000000, 15⟩ = true ∧ wit.busOk Reg.rptCtrl ⟨0, 0x80000000, 15⟩ = true
    ∧ wit.flag Reg.rptCtrl 0 = false ∧ (wit.setReg Reg.rptCtrl 1).flag Reg.rptCtrl 0 = true := by and_intros <;> decide

/-! ## MemoryHoldsWhatIsWritten -/

/-- Channel 15 of the service group is trained; a write to its first line waits. -/
def trained : State :=
  (wit.setChan 15 { trained := true, writes := [⟨0, 0x1E00000000, 0, 1, false, none⟩] }).setReg (Reg.prcE0 3 1) 0x80000000
    |>.setReg (Reg.prcE1 3 1) 0xFFFFFF |>.setReg (Reg.prcE2 3 1) 0x10000 |>.setReg (Reg.prcE3 3 1) 0x10000

theorem test_wit_dram : trained.up 26 = true ∧ memGroup (0x1E00000040 : BitVec 37).toNat = some (3, 0x1E00000000, 15, 1)
    ∧ memGroup (0x1FFFFFFFFFFF : BitVec 45).toNat = none ∧ memInGroup 0x1BFFFFFFFF 2 = false ∧ memInGroup 0x1E00000040 64 = true
    ∧ (memChannel 0x1E00000040).1 = 15 ∧ (trained.chan 15).trained = true ∧ (trained.chan 15).failed = false ∧ trained.groupOpen 3 16 = true
    ∧ trained.permits 3 16 0x40 64 true = true ∧ trained.permits 3 16 0x40 64 false = true ∧ trained.permits 3 17 0x40 64 true = false
    ∧ trained.lineHeld (0x1E00000000 / 64) = true ∧ trained.lineHeld (0x1E00000040 / 64) = false
    ∧ ((trained.chan 15).writes.any fun w => w.line == 64 * (0x1E00000000 / 64)) = true
    ∧ ((trained.chan 15).writes.any fun w => w.line == 64 * (0x1E00000040 / 64)) = false ∧ wit.poisoned 0x78000001 = false
    ∧ (wit.setPoison 0x78000001 true).poisoned 0x78000001 = true := by and_intros <;> decide

theorem test_wit_dram_host : (wit.setReg Reg.hstLink 0x80000000).hostPath = true ∧ (wit.setReg Reg.hstLink 0x80000000).live 34 = true
    ∧ winAddr 0 ≤ winAddr 64 ∧ winAddr 64 + 64 ≤ winAddr 0 + 2 ^ 30 ∧ wit.hostPath = false
    ∧ wit.portRoom { group := 3, master := 16, write := true, addr := 0x1E00000040, len := 64, data := [] } = true
    ∧ wit.dmc.stalled.any (PortReq.samePort { group := 3, master := 16, write := true, addr := 0x1E00000040, len := 64, data := [] }) = false
    ∧ ({ trained with dmc := { trained.dmc with stalled := [{ group := 3, master := 16, write := true, addr := 0x1E00000040, len := 64, data := [] }] } } : State).dmc.stalled.any
      (PortReq.samePort { group := 3, master := 16, write := true, addr := 0x1E00000040, len := 64, data := [] }) = true := by and_intros <;> decide

/-! ## ChannelsIssueTrainAndFail -/

/-- Channel 3 is trained, with a write and a read of the finishing unit waiting. -/
def channel3 : State :=
  wit.setChan 3 { trained := true, writes := [⟨22, 64, 0, 1, false, none⟩], reads := [⟨22, 128, 0, 1000, false, none⟩] }

theorem test_wit_channels : (channel3.strike 3 []).chanReady 3 = true ∧ (wit.strike 3 []).chanReady 3 = false ∧ channel3.chanReady 3 = true
    ∧ (channel3.chan 3).writes.find? (channel3.issueOk 3) = some ⟨22, 64, 0, 1, false, none⟩ ∧ (wit.chan 3).writes.find? (wit.issueOk 3) = none
    ∧ (channel3.chan 3).drain = false ∧ (channel3.chan 3).forced = [] ∧ (⟨22, 64, 0, 1, false, none⟩ : MemReq).urgency 0 = 0
    ∧ (⟨22, 64, 0, 1, false, none⟩ : MemReq).urgency 7 = 7
    ∧ channel3.nextRead 3 = some ⟨22, 128, 0, 1000, false, none⟩ ∧ wit.nextRead 3 = none ∧ (channel3.chan 3).refresh = none
    ∧ channel3.up 26 = true ∧ (channel3.chan 3).trained = true ∧ (channel3.chan 3).failed = false ∧ (channel3.chan 3).replayEnd = none
    ∧ ({ wit with clk := { wit.clk with stable := 8 } } : State).clk.stable.getLsbD 3 = true ∧ (wit.chan 3).trained = false := by
  and_intros <;> decide

theorem test_wit_retrain : (wit.setChan 14 { trained := true, retrain := true }).retrainDue 14 = true ∧ wit.retrainWindow 14 = true
    ∧ wit.retrainDue 14 = false ∧ ({ wit with seq := { wit.seq with flipAt := some 0, slot := 447 }, asm := { wit.asm with nextFlip := some 4000 } } : State).retrainWindow 3 = true
    ∧ wit.busOk Reg.dmcCtrl ⟨0, 0x80000001, 15⟩ = true ∧ wit.retrainRuns = false := by and_intros <;> decide

/-! ## ScrubbingLocksAndErrorReads -/

/-- Channel 15 is trained and the gap has passed. -/
def scrubbing : State := { (wit.setChan 15 { trained := true }).setReg Reg.dmcCtrl 1 with now := 200000 }

theorem test_wit_scrub : scrubbing.chanReady 15 = true ∧ scrubbing.issueOk 15 { master := 23, line := chanLine 15 0, at_ := 200000, target := 1 } = true ∧ scrubbing.flag Reg.dmcCtrl 0 = true
    ∧ (scrubbing.chan 15).scrubAt + 2 * max 1 (scrubbing.fld Reg.dmcScrub 15 0) ≤ scrubbing.now
    ∧ memGroup (chanLine 15 0) = some (chanGroup 15, 0x1E00000000, 15, 1) ∧ scrubbing.permits 3 23 0 64 false = false
    ∧ (((scrubbing.setReg (Reg.prcE0 3 1) 0x80000000).setReg (Reg.prcE1 3 1) 0xFFFFFF).setReg (Reg.prcE2 3 1) 0x800000).permits 3 23 0 64 false = true
    ∧ 5 < sramSize 4 ∧ scrubbing.up (sramBlock 4 5) = true
    ∧ scrubbing.lineHeld 7 = false ∧ scrubbing.poisoned 7 = false ∧ (scrubbing.setPoison 7 true).poisoned 7 = true
    ∧ scrubbing.dmc.soft.contains 7 = false ∧ (scrubbing.setSoft 7 true).dmc.soft.contains 7 = true
    ∧ (scrubbing.setChan 1 { writes := [⟨0, 64 * 7, 0, 1, false, none⟩] }).lineHeld 7 = true ∧ scrubbing.up 26 = true := by and_intros <;> decide

theorem test_wit_memory_registers : wit.busOk Reg.dmcWm ⟨0, 0x1008, 15⟩ = true ∧ wit.busOk (Reg.prcLock (5 : Fin 23).val) ⟨0, 0x80000001, 15⟩ = true := by
  and_intros <;> decide

theorem test_wit_error_reads : ReadOk wit Reg.dmcErrAddrLo { master := 0 } ∧ ReadOk wit (Reg.prcViolAddrLo (5 : Fin 23).val) { master := 0 } :=
  ⟨⟨by decide, by decide, by decide⟩, ⟨by decide, by decide, by decide⟩⟩

/-! ## SatchelJobsQueueAndEnd -/

/-- A compression job of 1 byte that runs or waits; one with nothing to read is bad. -/
def satJob (n : Nat) : SatJob := { decompress := false, blockLog := 10, level := 0, tag := 1, src := 0x1E00000000, dst := 0x1E00001000, srcLen := n, dstLen := 64 }

theorem test_wit_satchel : wit.live 28 = true ∧ wit.busOk Reg.satJobCtrl ⟨0, 0x8A000001, 15⟩ = true ∧ wit.busOk Reg.satCtrl ⟨0, 0x80000000, 15⟩ = true
    ∧ 8 ≤ (List.replicate 8 (satJob 1)).length ∧ (wit.store Reg.satJobCtrl 0x8A000001).sat.queue.length < 8 ∧ wit.satUnit false = none ∧ wit.satStalled false = false
    ∧ ({ wit with sat := { wit.sat with queue := [satJob 1] } } : State).sat.queue.find? (fun j => j.decompress == false) = some (satJob 1)
    ∧ (satJob 1).bad = false ∧ (satJob 0).bad = true ∧ wit.ckptJob = none
    ∧ ({ wit with sat := { wit.sat with comp := some (satJob 1) } } : State).satUnit false = some (satJob 1)
    ∧ ({ wit with rst := { held := 2 ^ 26 } } : State).memReady 21 (satJob 1).src 1 = true := by and_intros <;> decide

/-! ## BlitterOperationsAndCommits -/

/-- An operation of 64 by 2 texels of 4 bytes; as a copy its source pitch is too small. -/
def bltOp (op : Nat) : BltOp := ⟨op, 0, false, false, false, 1, 0x1000000000, 0x1000000000, 0, 4096, 64, 2, 0, 511, 511, 0, true, 0⟩

/-- A job, an operation and commits as given. -/
def blitting (job : Option Nat) (op : Option BltOp) (syncs : List Nat) (running : SMap BltCommit) : State :=
  { wit with now := 10000, blt := { wit.blt with job := job, op := op, syncs := syncs, running := running } }

theorem test_wit_blitter : wit.live 29 = true ∧ wit.busOk Reg.bltOp ⟨0, 0xC0000000, 15⟩ = true ∧ wit.busOk Reg.bltCommit ⟨0, 0x80000001, 15⟩ = true
    ∧ wit.busOk Reg.bltPlaneArm ⟨0, 0x80000000, 15⟩ = true ∧ (bltOp 0).bad = false ∧ (bltOp 1).bad = true ∧ wit.blt.lastBurst = none
    ∧ (wit.store Reg.bltOp 0xC0000000).blt.op = none ∧ ((blitting none (some (bltOp 0)) [] []).store Reg.bltOp 0xC0000000).blt.op = some (bltOp 0)
    ∧ (blitting (some 4) (some (bltOp 0)) [] []).blt.job = some 4 ∧ (blitting none (some (bltOp 0)) [] []).flag (Reg.hstMbox0w 2) 31 = false
    ∧ (blitting none (some (bltOp 0)) [] []).mboxStalled 2 = false ∧ 0 + 1 < burstsTotal (bltOp 0)
    ∧ ({ blitting none (some (bltOp 0)) [] [] with rst := { held := 2 ^ 26 } } : State).burstReady (bltOp 0) 0 = true
    ∧ (bltOp 0).goAt ≠ (blitting none (some (bltOp 0)) [] []).now ∧ (bltOp 0).goAt = wit.now ∧ wit.cyc.bltGo = none := by and_intros <;> decide

theorem test_wit_commits : (blitting none none [2] [(2, ⟨⟨0, 0, 1, 1⟩, 0, some (bltOp 1)⟩)]).bltCommit 2 = some ⟨⟨0, 0, 1, 1⟩, 0, some (bltOp 1)⟩
    ∧ wit.bltCommit 2 = none ∧ wit.bltQueued 2 = none ∧ (bltOp 1).fmt ≠ 3 := by and_intros <;> decide

/-! ## ClocksSettleSwitchAndGate -/

/-- Clocks as given, time passed. -/
def clocked (c : Clk) : State := { wit with now := 1000000, clk := c }

theorem test_wit_clocks : (clocked {}).rst.por = true ∧ ({ clocked {} with rst := { por := false } } : State).rst.por = false
    ∧ (clocked { rootLock := true }).clk.lockAt + 524288 ≤ (clocked {}).now ∧ (clocked { rootLock := true }).clk.rootStable = false
    ∧ (clocked { rootStable := true, stable := 3 }).clk.stable.getLsbD 2 = false ∧ (clocked { rootStable := true, stable := 3 }).clk.stable.getLsbD 1 = true
    ∧ (clocked { rootStable := true, switch := some ⟨5, false, 0, true⟩, held := some 4 }).clk.switch = some ⟨5, false, 0, true⟩ := by
  and_intros <;> decide

theorem test_wit_targets : ((clocked { rootStable := true }).setReg Reg.clkEngine 0x504).fld Reg.clkEngine 10 8 = 5
    ∧ max 5 (max 4 (min 6 (((clocked { rootStable := true }).setReg Reg.clkEngine 0x504).fld Reg.clkEngine 2 0))) ≠ (clocked {}).clk.held.getD (clocked {}).clk.target
    ∧ max ((clocked {}).fld Reg.clkEngine 10 8) (max 4 (min 6 ((clocked {}).fld Reg.clkEngine 2 0))) = 4 := by and_intros <;> decide

theorem test_wit_gates : wit.busOk Reg.clkGate0 ⟨0, 1, 15⟩ = true ∧ wit.busOk Reg.clkGate1 ⟨0, 1, 15⟩ = true ∧ gateable 0 = true ∧ gateable 35 = true
    ∧ gateable 2 = false ∧ wit.gateDue 28 = none ∧ (clocked { gateAt := [(28, 7)] }).gateDue 28 = some 7
    ∧ wit.accessWaits 28 = false ∧ (clocked { waiting := [⟨0, Reg.satCtrl, some 0, 15⟩] }).accessWaits 28 = true
    ∧ wit.gated 28 = false ∧ (wit.setReg Reg.clkGateClosed0 0x10000000).gated 28 = true ∧ wit.resuming 28 = false
    ∧ (clocked { resume := [(28, 2000000)] }).resuming 28 = true := by and_intros <;> decide

/-! ## ResetSourcesAndReleases -/

/-- The reset state of the RST block as given, and the slow domain stable. -/
def resetting (r : Rst) : State := { wit with clk := { stable := 63 }, rst := r }

theorem test_wit_sources : State.reset.rst.por = true ∧ State.reset.rst.nrstPin = true ∧ ({ wit with clk := { rootStable := true } } : State).clk.rootStable = true
    ∧ (resetting { por := false }).rst.nrst = false ∧ (resetting { por := false }).rst.perst = false ∧ (resetting { por := false }).rst.loaded = false
    ∧ (resetting { por := false }).clk.stable.getLsbD 5 = true ∧ (resetting { nrst := true }).rst.nrst = true ∧ (resetting { perst := true }).rst.perst = true
    ∧ (resetting { por := false, loaded := true, boot := 0 }).canRelease 39 = true ∧ (resetting { por := false, loaded := true, boot := 0 }).canRelease 5 = true
    ∧ (resetting { por := false, loaded := true }).canRelease 5 = false := by and_intros <;> decide

theorem test_wit_reset_writes : wit.busOk Reg.secCtrl ⟨0, 0x53520001, 15⟩ = true ∧ wit.busOk Reg.rstDevice ⟨0, 0x52530001, 15⟩ = true
    ∧ wit.busOk Reg.secLifecycle ⟨0, 0x4C430010, 15⟩ = true ∧ wit.busOk Reg.rstBootHold ⟨0, 0x80000000, 15⟩ = true ∧ wit.rst.bootHold = true ∧ wit.lifecycle = 0
    ∧ wit.busOk Reg.rstBlock0 ⟨0, 0x400000, 15⟩ = true ∧ wit.busOk Reg.rstBlock1 ⟨0, 1, 15⟩ = true := by and_intros <;> decide

/-! ## ResetsEraseWhatTheyCover -/

theorem test_wit_erase : (0x10 : BitVec 40).getLsbD 4 = true ∧ wideMask.getLsbD 39 = true ∧ itemReg 0 (Reg.asmCnt 0 16) = true ∧ itemReg 18 Reg.seqCtrl = true
    ∧ itemReg (blockOf Reg.rstBlock0) Reg.rstBlock0 = true ∧ Reg.clkEngine ≠ Reg.rstCause ∧ Reg.clkEngine ≠ Reg.clkStatus := by and_intros <;> decide

/-! ## ThermalSourcesStagesAndTrips -/

/-- THM after a while, its state as given. -/
def heating (h : Thm) : State := { wit with now := 10 ^ 10, thm := h }

theorem test_wit_sources_due : wit.live 30 = true ∧ (wit.source 3).at_ = none ∧ (wit.setSource 3 { at_ := some 0 }).source 3 = { at_ := some 0 }
    ∧ wit.now < wit.thm.rateAt + 160000000 ∧ (heating {}).thm.rateAt + 160000000 ≤ (heating {}).now ∧ (heating {}).thm.tickAt + 160000 ≤ (heating {}).now
    ∧ wit.now < wit.thm.tickAt + 160000 := by and_intros <;> decide

theorem test_wit_stages : wit.thm.askAt = none ∧ wit.thmStage = 0 ∧ (wit.setFld Reg.thmStatus 27 26 1).thmStage = 1 ∧ (wit.setFld Reg.thmStatus 27 26 2).thmStage = 2
    ∧ (heating { askAt := some 5 }).thm.askAt = some 5 ∧ wit.tlk.trip = false ∧ ({ wit with tlk := { trip := true } } : State).tlk.trip = true
    ∧ wit.flag Reg.thmStatus 31 = false ∧ (wit.setSource 3 { fires := true }).compFires = true ∧ wit.compFires = false := by and_intros <;> decide

theorem test_wit_thermal_writes : wit.busOk Reg.thmCtrl ⟨0, 0x80000000, 15⟩ = true ∧ wit.busOk Reg.thmBad0 ⟨0, 1, 15⟩ = true
    ∧ wit.busOk Reg.thmBad1 ⟨0, 1, 15⟩ = true := by and_intros <;> decide

/-! ## CoreVoltageLoop -/

/-- AVS with the root stable and 100 µs passed, its own state as given. -/
def looping (a : Avs) : State := { wit with now := 100000000, clk := { rootStable := true }, avs := a }

theorem test_wit_voltage : (looping {}).live 31 = true ∧ (looping {}).clk.rootStable = true ∧ (looping {}).flag Reg.avsCtrl 0 = true
    ∧ (looping {}).flag Reg.avsStatus 31 = false ∧ (looping {}).avs.stepAt + 160000 ≤ (looping {}).now ∧ (looping {}).avs.started = false
    ∧ (looping { started := true }).avs.started = true ∧ (looping {}).flag Reg.avsCpmEn 0 = true ∧ (looping {}).flag Reg.avsCpmEn 1 = true
    ∧ (looping {}).flag Reg.avsCpmEn 2 = true ∧ (looping {}).avs.pmbAt + 16000000 ≤ (looping {}).now ∧ wit.now < wit.avs.pmbAt + 16000000
    ∧ wit.busOk Reg.avsCtrl ⟨0, 0x80000001, 15⟩ = true ∧ wit.busOk Reg.avsLimits ⟨0, 0x66804D8, 15⟩ = true := by and_intros <;> decide

/-! ## ImagesReportsAndKeys -/

/-- The ROM waits for an image, of which one is complete; memory in reset, so that its reads fail. -/
def rescue : State :=
  let s := (wit.setFlag Reg.secStatus 30)
  { s with sec := { s.sec with complete := [.stage 1 0 4096] }, rst := { s.rst with held := 0x4000000 } }

theorem test_wit_images : wit.sec.complete = [] ∧ rescue.sec.complete = [.stage 1 0 4096] ∧ rescue.flag Reg.secStatus 30 = true ∧ rescue.flag Reg.secStatus 31 = false
    ∧ rescue.up 36 = true ∧ rescue.memReady 0 (rescue.imagePlace (.stage 1 0 4096)).1 (rescue.imagePlace (.stage 1 0 4096)).2 = true
    ∧ (rescue.setReg Reg.secStatus 0).registrarRuns = false ∧ rescue.mboxStalled 0 = false := by
  refine ⟨by decide, by decide, by decide, by decide, by decide, rfl, by decide, by decide⟩

theorem test_wit_checks : wit.imageFormat [] false = false ∧ (imageHead []).type = 0 ∧ (imageHead [0x53, 0x49, 0x4D, 0x47, 1, 1]).type = 1
    ∧ (imageHead [0x53, 0x49, 0x4D, 0x47, 1, 2]).type = 2 ∧ (imageHead [0x53, 0x49, 0x4D, 0x47, 1, 3]).type = 3 ∧ (imageHead [0x53, 0x49, 0x4D, 0x47, 1, 4]).type = 4
    ∧ (imageHead []).comp = false ∧ wit.minSvn = 0 := by and_intros <;> decide

/-- A firmware image, well formed: type 0, no payload; the header alone, its fields zero elsewhere. -/
def romHead : List Byte := [0x53, 0x49, 0x4D, 0x47, 1, 0] ++ List.replicate 122 0

theorem test_wit_format : wit.imageFormat romHead true = true ∧ (imageHead romHead).bound = false ∧ wit.rootUsable (imageHead romHead) = true := by
  and_intros <;> decide

/-- A program waits in slot 432 with the sequencer stopped; a report waits; leaves 5 to 1023 of block 0 are left. -/
def applying : State :=
  let s := wit.setReg Reg.secStatus 0x80000000
  { s with sec := { s.sec with program := some ⟨.stage 1 0 0, 2, 0, [], 0, []⟩, reports := [64], leaf := some (5, 1024) }
           host := { s.host with extents := [⟨64, 4096, .secAtt⟩] }
           seq := { s.seq with st := .stopped, slot := 432, flipAt := some 0 } }

theorem test_wit_applying : applying.registrarRuns = true ∧ applying.up 18 = true ∧ applying.sec.kernel = none ∧ applying.inFrame = true
    ∧ applying.seq.slot = 432 ∧ applying.seq.st = .stopped ∧ applying.sec.reports = [64] ∧ applying.sec.leaf = some (5, 1024) ∧ applying.isReturn = false
    ∧ wit.sec.program = none ∧ wit.sec.reports = [] ∧ wit.sec.leaf = none ∧ wit.sec.treeBad = false ∧ wit.sec.treeChecked = false := by and_intros <;> decide

theorem test_wit_reports : ({ applying with rst := { held := 0x4000000 } } : State).memReady 0 (winAddr 64) 3200 = true
    ∧ ¬ applying.bufLen 64 < 3148 ∧ ({ applying with rst := { opt := [(96, 4)] } } : State).isDead = true := by
  refine ⟨by decide, by decide, by decide⟩

theorem test_wit_keys : wit.busOk Reg.secExtend ⟨0, 1, 15⟩ = true ∧ wit.busOk Reg.secAsmkeyCtrl ⟨0, 0x80000000, 15⟩ = true := by and_intros <;> decide

/-! ## WellFormed -/

theorem test_ill_formed_codeword : (Instr.codewordReceived 50 []).wellFormed = false
    ∧ (Instr.codewordReceived 3 (List.replicate 2720 0)).wellFormed = false := by and_intros <;> decide

theorem test_ill_formed_hunt : (Instr.alignmentHunt 58 [1, 2, 3]).wellFormed = false := by decide

theorem test_ill_formed_check : (Instr.chkLock 60 [0, 3]).wellFormed = false := by decide

theorem test_ill_formed_write : (Instr.registerWrite 0x400101 ⟨⟨16, 0, 15⟩, []⟩).wellFormed = false := by decide

theorem test_ill_formed_window : (Instr.windowWrite 0x3FFFFFFF [1, 2]).wellFormed = false
    ∧ (Instr.windowWrite 64 []).wellFormed = false := by and_intros <;> decide

theorem test_ill_formed_link : (Instr.pcieLinkTraining true 3 1).wellFormed = false
    ∧ (Instr.pcieLinkTraining true 4 6).wellFormed = false ∧ (Instr.pcieLinkTraining false 3 0).wellFormed = true := by
  and_intros <;> decide

/-! ## Worked by the spec -/

/-- Table SLT-19 (07 R156): the fields and the commands of its two words. -/
theorem test_slate_words : slateInstr t0 (slateFields 0x2001081380400000 0)
      = some (.vadd t0 { opc := 0x20, ty := 1, d := 2, a := 1, b := 14, bsel := 1 })
    ∧ slateInstr t0 (slateFields 0x720A20C021000000 0)
      = some (.blendPm t0 { opc := 0x72, pg := 1, ty := 2, d := 8, a := 12, c := 0x21 }) := by and_intros <;> decide

/-- An opcode of no instruction, and one of Slate-T's on a view engine, spell none (R157). -/
theorem test_slate_reserved : slateInstr t0 (slateFields 0x0700000000000000 0) = none
    ∧ slateInstr t0 (slateFields 0xC000000000000000 0) = none := by and_intros <;> decide

/-- Table SLT-5 and the ray below it (07 R154, R155): 0.5, 1.0, 65,534 and 0.4596698. -/
theorem test_uf20_values : toUf20 .nearest (unpackF binary32 0x3F000000) = 0xBC000 ∧ toUf20 .nearest (unpackF binary32 0x3F800000) = 0xC0000
    ∧ toUf20 .nearest (unpackF binary32 0x477FFE00) = 0xFFFFF ∧ toUf20 .nearest (unpackF binary32 0x3EEB59D7) = 0xBB5AD
    ∧ toUf20 .nearest (unpackF binary32 0x80000000) = 0 := by and_intros <;> decide

/-- The worked example of 01: slot 136 at 120 Hz starts 4,047,618 cc after the flip. -/
theorem test_slot_start : slotStartOf 0 136 = 4047618 := by decide

/-- The worked case of 14: channel, channel-local address, bank and row. -/
theorem test_address : memChannel 0x1E07489C = (0, 0x3C0E99C) ∧ bankRow 0x3C0E99C = (13, 1921) := by and_intros <;> decide

/-- The worked block of 16: "ABCABCABCABCXY", 14 bytes in one block. -/
theorem test_worked_block : (satDecode [6, 0, 0x0D, 0, 8, 0, 0, 0, 8, 0x41, 0x42, 0x43, 0xC0, 2, 0x58, 0x59] 64).out =
    [0x41, 0x42, 0x43, 0x41, 0x42, 0x43, 0x41, 0x42, 0x43, 0x41, 0x42, 0x43, 0x58, 0x59] := by decide

/-- Its distance 5 with 3 bytes of history ends the job: DATA4 0, DATA5 4, after 3 bytes. -/
theorem test_block_distance : (satDecode [6, 0, 0x0D, 0, 8, 0, 0, 0, 8, 0x41, 0x42, 0x43, 0xC0, 4, 0x58, 0x59] 64).err.map Prod.snd = some (0, 4)
    ∧ (satDecode [6, 0, 0x0D, 0, 8, 0, 0, 0, 8, 0x41, 0x42, 0x43, 0xC0, 4, 0x58, 0x59] 64).out.length = 3 := by and_intros <;> decide

/-- The worked precoder case of 03 (R62): pairs 00, 01, 11, 10, 01 go out as 0, 1, 1, 2, 3. -/
theorem test_precoder : (bitsToLevels true false true 0 [false, false, false, true, true, true, true, false, false, true]).1 = [0, 1, 1, 2, 3] := by
  decide

/-! ## Steps -/

/-- 06, worked example: the sample point of layer 3. -/
theorem test_worked_sample_point : samplePoint (layerStack ⟨3, false, false, 0, 0xFFFF, 0x1000, 5120, 0, 0, 200, 200, 0⟩)
    45943808 18253312 6305 1722 = (11223, 242, 4457, 250) := by decide

/-- 11, worked example: matrix entry, q, and the dithered codes of four frames. -/
theorem test_worked_code : interpolate (fun k => [400, 720].getD k 0) (fun k => [1020000, 1040000].getD k 0) 2 568 = 1030500
    ∧ quantise 264629371467202560000 4092 = 1834
    ∧ (List.range 4).map (fun f => (driveCode true true 1048575 1023 f 139420 136 264629371467202560000).1) = [459, 458, 459, 458] := by
  and_intros <;> decide

/-- 09, worked example: node (58, 17) of the base plus the applied model. -/
theorem test_worked_node : (rebuildNode 0x001CFFCBFE0203FA (nodeShift 96 (-32) 0 2000 58 17) 400).1 = 0x00000010FE000400 := by decide

/-- 13, worked example: the blend of T_f = 128 at t = 150, and -1 moved by it towards -2. -/
theorem test_worked_blend : blendFraction 128 (some 150) = (128, 234) ∧ -1 + roundAway ((-2 - -1) * 128) 234 = -2 := by
  and_intros <;> decide

/-- A command in front of the queue is taken and run; an empty queue lets a cycle pass. -/
theorem test_step_takes_front : step { wit with pending := [.porAndBrownOut] } = exec .porAndBrownOut wit := rfl
end

/-!
The statements of chapter 00 (scope): the step and its queue, that every command goes on, the state after reset, and register
writes by access type.
-/
namespace Sys2Proof.Machine

open Sys2Proof.Safety

/-! ## The step and the state after reset -/

theorem step_cons (c : Instr) (rest : List Instr) (s : State) :
    step { s with pending := c :: rest } = exec c { s with pending := rest } := rfl

theorem step_of_pending_nil {s : State} (h : s.pending = []) : step s = .next s.tick := by
  unfold step
  rw [h]

theorem reset_item_held (i : Nat) (h : i < 40) : State.reset.rst.held.getLsbD i = true := by
  revert i
  decide

/-! ## Every command goes on

An outcome that is a next state, and the shapes in which the commands give one: a state as it stands, a choice between two, and
the issue of an instruction to a Slate thread or to the sequencer. Commands of one shape are taken together in `exec_goesOn`. -/

/-- The outcome is a next state. -/
def GoesOn (o : Out) : Prop := ∃ t, o = .next t

theorem GoesOn.next (t : State) : GoesOn (.next t) := ⟨t, rfl⟩

theorem GoesOn.ite {c : Prop} [Decidable c] {a b : Out} (ha : GoesOn a) (hb : GoesOn b) : GoesOn (if c then a else b) := by
  split
  · exact ha
  · exact hb

/-- A Slate instruction goes on whatever it comes to: an exception is a state too (07 R180). -/
theorem State.issue_goesOn (s : State) (t : ThreadId) (p : Shape) (w : SlateWord) (always : Bool)
    (eff : State → Thread → Issue) : GoesOn (s.issue t p w always eff) := by
  dsimp only [State.issue]
  refine .ite (.next _) (.ite (.next _) (.ite (.next _) (.ite (.next _) (.ite (.next _) (.ite (.next _) (.ite (.next _) ?_))))))
  cases eff s (s.thread (threadKey t)) <;> exact .next _

/-- A Slate-T instruction goes on: a fault of the sequencer is a state too (08 R189). -/
theorem State.seqIssue_goesOn (s : State) (p : TShape) (w : SlateWord) (bad : Bool) (f : State → State) :
    GoesOn (s.seqIssue p w bad f) :=
  .ite (.ite (.next _) (.ite (.next _) (.ite (.next _) (.ite (.next _) (.next _))))) (.next _)

theorem State.scalarOp_goesOn (s : State) (t : ThreadId) (w : SlateWord) (opc : BitVec 8) (tys : List Nat)
    (f : Word → Word → Word) : GoesOn (s.scalarOp t w opc tys f) :=
  State.issue_goesOn ..

theorem State.scalarMinMax_goesOn (s : State) (t : ThreadId) (w : SlateWord) (opc : BitVec 8) (isMin : Bool) :
    GoesOn (s.scalarMinMax t w opc isMin) :=
  State.issue_goesOn ..

theorem State.vectorOp_goesOn (s : State) (t : ThreadId) (w : SlateWord) (opc : BitVec 8) (tys : List Nat) (c : RegKind)
    (f : Word → Word → Word → Word) : GoesOn (s.vectorOp t w opc tys c f) :=
  State.issue_goesOn ..

theorem State.vectorUnary_goesOn (s : State) (t : ThreadId) (w : SlateWord) (opc : BitVec 8) (tys : List Nat)
    (f : Word → Word) : GoesOn (s.vectorUnary t w opc tys f) :=
  State.issue_goesOn ..

theorem State.vectorMinMax_goesOn (s : State) (t : ThreadId) (w : SlateWord) (opc : BitVec 8) (isMin : Bool) :
    GoesOn (s.vectorMinMax t w opc isMin) :=
  State.issue_goesOn ..

theorem State.predOp_goesOn (s : State) (t : ThreadId) (w : SlateWord) (opc : BitVec 8) (b : RegKind)
    (f : BitVec 64 → BitVec 64 → BitVec 64) : GoesOn (s.predOp t w opc b f) :=
  State.issue_goesOn ..

theorem State.blendOp_goesOn (s : State) (t : ThreadId) (w : SlateWord) (opc : BitVec 8) (straight : Bool) :
    GoesOn (s.blendOp t w opc straight) := by
  unfold State.blendOp
  exact State.issue_goesOn ..

theorem State.tAlu_goesOn (s : State) (w : SlateWord) (opc : BitVec 8) (f : Nat → Nat → Nat) : GoesOn (s.tAlu w opc f) :=
  State.seqIssue_goesOn ..

theorem execDecoderStart_goesOn (decoder : Fin 4) (s : State) : GoesOn (execDecoderStart decoder s) := by
  dsimp only [execDecoderStart]
  split
  · exact .ite (.next _) (.next _)
  · exact .ite (.next _) (.ite (.next _) (.ite (.next _) (.ite (.next _) (.ite (.next _) (.next _)))))
  · exact .next _

theorem execSliceDeadline_goesOn (layer : Fin 16) (col : Fin 1024) (row : Fin 1024) (s : State) :
    GoesOn (execSliceDeadline layer col row s) := by
  dsimp only [execSliceDeadline]
  split
  · exact .ite (.ite (.next _) (.next _)) (.next _)
  · exact .next _

theorem execSamplerRequest_goesOn (hr : Fin 12) (sampler : Fin 4) (channel : Fin 16)
    (upsets : List (BitVec 31 × Bool)) (s : State) : GoesOn (execSamplerRequest hr sampler channel upsets s) := by
  dsimp only [execSamplerRequest]
  split
  · exact .next _
  · split
    · exact .ite (.ite (.next _) (.next _)) (.next _)
    · exact .next _

theorem execSignalDetect_goesOn (lane : Fin 74) (s : State) : GoesOn (execSignalDetect lane s) := by
  dsimp only [execSignalDetect]
  refine .ite (.next _) ?_
  split
  · exact .next _
  · exact .next _
  · exact .next _

theorem execInjection_goesOn (lane : Fin 74) (s : State) : GoesOn (execInjection lane s) := by
  dsimp only [execInjection]
  split
  · refine .ite ?_ (.next _)
    split
    · exact .next _
    · exact .ite (.next _) (.ite (.next _) (.next _))
  · exact .next _

theorem execCmdResult_goesOn (tile : Fin 16) (s : State) : GoesOn (execCmdResult tile s) := by
  dsimp only [execCmdResult]
  split
  · exact .next _
  · split
    · exact .next _
    · exact .next _

theorem execPacket_goesOn (port : Fin 2) (lane : Fin 4) (s : State) : GoesOn (execPacket port lane s) := by
  dsimp only [execPacket]
  refine .ite (.next _) ?_
  split
  · exact .next _
  · exact .ite (.next _) (.ite (.next _) (.ite (.next _) (.next _)))

theorem execFilterLookup_goesOn (port : Fin 2) (lane : Fin 4) (s : State) :
    GoesOn (execFilterLookup port lane s) := by
  dsimp only [execFilterLookup]
  refine .ite (.next _) ?_
  split
  · exact .next _
  · exact .ite (.next _) (.ite (.next _) (.ite (.next _) (.ite (.next _) (.ite (.next _) (.ite (.ite (.next _)
      (.next _)) (.next _))))))

theorem execTagCheck_goesOn (port : Fin 2) (s : State) : GoesOn (execTagCheck port s) := by
  dsimp only [execTagCheck]
  refine .ite (.next _) ?_
  split
  · exact .next _
  · refine .ite (.next _) ?_
    split
    · exact .next _
    · exact .next _
    · exact .next _

theorem execBlitBurst_goesOn (s : State) : GoesOn (execBlitBurst s) := by
  dsimp only [execBlitBurst]
  refine .ite ?_ (.next _)
  split
  · exact .ite (.next _) (.next _)
  · split
    · exact .ite (.next _) (.next _)
    · exact .next _
  · exact .ite (.next _) (.ite (.next _) (.ite (.next _) (.next _)))
  · exact .next _

theorem execCsi2Packet_goesOn (header : BitVec 32) (payload : List Byte) (crc : BitVec 16) (at_ : CsiArrival)
    (lanes : BitVec 5) (s : State) : GoesOn (execCsi2Packet header payload crc at_ lanes s) := by
  dsimp only [execCsi2Packet]
  refine .ite (.next _) (.ite (.next _) ?_)
  split
  · exact .next _
  · refine .ite (.next _) (.ite (.next _) ?_)
    split
    · exact .ite (.next _) (.ite (.next _) (.next _))
    · exact .ite (.next _) (.ite (.ite (.next _) (.next _)) (.ite (.next _) (.next _)))

theorem execFit_goesOn (tile : Fin 16) (s : State) : GoesOn (execFit tile s) := by
  dsimp only [execFit]
  split
  · exact .next _
  · exact .ite (.next _) (.ite (.next _) (.ite (.next _) (.ite (.next _) (.ite (.next _) (.next _)))))

theorem execUpstreamBurst_goesOn (port : Fin 2) (grant : Fin 64) (s : State) :
    GoesOn (execUpstreamBurst port grant s) := by
  dsimp only [execUpstreamBurst]
  refine .ite (.next _) (.ite (.next _) ?_)
  split
  · exact .next _
  · exact .ite (.next _) (.ite (.next _) (.ite (.next _) (.ite (.ite (.next _) (.next _)) (.next _))))

theorem execRestoreBufferDone_goesOn (s : State) : GoesOn (execRestoreBufferDone s) := by
  dsimp only [execRestoreBufferDone]
  split
  · exact .next _
  · refine .ite (.next _) ?_
    split
    · exact .next _
    · exact .next _

theorem execImageVerification_goesOn (s : State) : GoesOn (execImageVerification s) := by
  dsimp only [execImageVerification]
  split
  · exact .next _
  · exact .ite (.next _) (.ite (.next _) (.ite (.next _) (.ite (.next _) (.ite (.next _) (.ite (.next _) (.ite
      (.next _) (.next _)))))))

theorem execMeasurementReport_goesOn (treeCache : List Byte) (s : State) :
    GoesOn (execMeasurementReport treeCache s) := by
  dsimp only [execMeasurementReport]
  split
  · exact .next _
  · refine .ite (.next _) (.ite (.next _) ?_)
    split
    · exact .next _
    · exact .next _

theorem execAvsStep_goesOn (core fabric engine : BitVec 8) (readBack : Option (BitVec 16)) (accepted : Bool)
    (s : State) : GoesOn (execAvsStep core fabric engine readBack accepted s) := by
  dsimp only [execAvsStep]
  refine .ite (.next _) (.ite (.next _) ?_)
  split
  · exact .next _
  · exact .next _

theorem execDomainStable_goesOn (domain : Fin 6) (s : State) : GoesOn (execDomainStable domain s) := by
  dsimp only [execDomainStable]
  refine .ite (.next _) ?_
  split
  · exact .ite (.next _) (.next _)
  · exact .ite (.next _) (.next _)

theorem execDmcRequest_goesOn (master : Fin 32) (write : Bool) (addr : BitVec 37) (n : Fin 4097) (data : List Byte)
    (s : State) : GoesOn (execDmcRequest master write addr n data s) := by
  dsimp only [execDmcRequest]
  refine .ite (.next _) (.ite (.next _) (.ite (.next _) ?_))
  split
  · exact .next _
  · exact .ite (.next _) (.next _)

theorem execChannelCommand_goesOn (channel : Fin 16) (upsets : List (BitVec 31 × Bool)) (s : State) :
    GoesOn (execChannelCommand channel upsets s) := by
  dsimp only [execChannelCommand]
  refine .ite (.next _) ?_
  split
  · exact .next _
  · exact .next _
  · exact .next _
  · exact .next _

theorem execSnapshotDone_goesOn (s : State) : GoesOn (execSnapshotDone s) := by
  dsimp only [execSnapshotDone]
  split
  · exact .next _
  · exact .ite (.next _) (.ite (.next _) (.ite (.next _) (.ite (.next _) (.ite (.next _) (.ite (.next _)
      (.next _))))))

/-- By the shape of what the command does; a register access is a next state whatever the wrapper makes of it. -/
theorem exec_goesOn (i : Instr) (s : State) : GoesOn (exec i s) := by
  unfold exec
  cases i with
  | stateReq _ _ | laneTxfirWrite _ _ | injectGo _ _ | laneCntClr _ _ | asmLeave _ _ | rejoin _ _ | portEnWrite _ _
    | lossHoldWrite _ _ | asmDnqPost _ _ | asmUpqPost _ _ | asmWallLoRead _ | asmCntClr _ _ | decStoreWrite _
    | decCntClr _ | hrPvPost _ | hrCntClr _ _ | hrSynCntClr _ | seqEnWrite _ | seqRestart _ | freeRunEnWrite _
    | seqFrameLoRead _ | seqCntClr _ | geoMarginArm _ | plcRebuild _ | plcLoad _ | chartWindowRead _ _
    | plcCntClr _ | camBind _ _ | camUnbind _ _ | camEnWrite _ _ | camRxEnWrite _ | camCapPost _ _
    | spotResultRead _ _ | camCntClr _ _ | camRxCntClr _ | finGainLoad _ | finArm _ | finResBaseWrite _
    | finCntClr _ | hcmdGo _ | tlkHresAck _ | tlkHresLoRead _ | tileEnWrite _ | tileReset _ | tlkArm _
    | tlkCntClr _ | calElec _ | calSweep _ | calRec _ | calRecPost _ | calRecLoad _ | calBaseLoad _ | ckptNow _
    | rptCkptPost _ | rptRestPost _ | rptClear _ | rptCntClr _ | calCntClr _ | dmcRetrain _ | dmcWmWrite _
    | dmcErrAddrLoRead _ | prcViolAddrLoRead _ _ | prcLockWrite _ _ | prcLockCntClr _ _ | dmcCntClr _
    | registerWrite _ _ | mboxAck _ _ | mboxRead _ _ | rcNow _ | rcPost _ | rcCntClr _ | evtStatusClear _ _
    | evtEnableWrite _ _ | evtSoftSet _ | hpCntClr _ | satJobGo _ | satAbort _ | satCntClr _ | bltOpGo _
    | bltAbort _ | bltCommitGo _ | bltPlaneArm _ | bltCntClr _ | clkGateWrite _ _ | porAndBrownOut | secReset _
    | rstDeviceGo _ | rstBlockWrite _ _ | bootHoldRelease _ | avsResume _ | avsLimitsWrite _ | tripClr _
    | thmBadClear _ _ | lifecycleAdvance _ | secImgPost _ | secExtendGo _ | secAttPost _ | asmkeyCommit _
    | secCntClr _ | nrstRelease =>
    exact .next _
  | nop _ _ | jmp _ _ | call _ _ | ret _ _ | exit _ _ | trap _ _ | smov _ _ | smfsr _ _ | scmp _ _ | sgetl _ _
    | vmov _ _ | vsel _ _ | vshfl _ _ | vsat _ _ | vcmp _ _ | pset _ _ | pget _ _ | pcnt _ _ | ldv _ _ | stv _ _
    | ldb _ _ | stb _ _ | lds _ _ | sts _ _ | atadd _ _ | strm _ _ | swait _ _ | seat _ _ | smp _ _ | stRing _ _
    | bar _ _ | fence _ _ | msg _ _ =>
    exact State.issue_goesOn ..
  | sadd _ _ | ssub _ _ | smul _ _ | sand _ _ | sor _ _ | sxor _ _ | sshl _ _ | sshr _ _ =>
    exact State.scalarOp_goesOn ..
  | smin _ _ | smax _ _ =>
    exact State.scalarMinMax_goesOn ..
  | vadd _ _ | vsub _ _ | vmul _ _ | vmad _ _ | vand _ _ | vor _ _ | vxor _ _ | vshl _ _ | vshr _ _ =>
    exact State.vectorOp_goesOn ..
  | vabs _ _ | vneg _ _ | vrcp _ _ | vsqrt _ _ | vrsq _ _ | vfloor _ _ =>
    exact State.vectorUnary_goesOn ..
  | vmin _ _ | vmax _ _ =>
    exact State.vectorMinMax_goesOn ..
  | pand _ _ | por _ _ | pxor _ _ | pnot _ _ =>
    exact State.predOp_goesOn ..
  | blendPm _ _ | blendSt _ _ =>
    exact State.blendOp_goesOn ..
  | slateTNop _ | set _ | waitbell _ | bindl _ | slateTFlip _ | signal _ =>
    exact State.seqIssue_goesOn ..
  | add _ | sub _ | and _ | or _ | shr _ =>
    exact State.tAlu_goesOn ..
  | holdoverFlip | freeRunFlip | completenessCheck _ _ | codewordReceived _ _ | alignmentHunt _ _ | lockLost _
    | sigLost _ | laneStateComplete _ | chkLock _ _ | bellTimeout _ | bellSwitch | detentionExpiry _
    | decoderAssign _ | rowSplice | chartUpdateComplete _ | fitStale _ | noTemp _ | cmdHandover _ | tileDown _
    | checkpoint | forcedDrain _ | refresh _ _ _ | training _ _ | scrubRead _ _ | flr | windowWrite _ _
    | gpioEdge _ | rootLockDetect | rootStable | rootLockLoss | gateClose _ | nrst | optionLoader | rateTest
    | thmTick | porRelease | perstRelease =>
    exact .ite (.next _) (.next _)
  | parityAlert _ | perst | msixMessage _ _ | engineTargetChange | blockRelease _ _ _ | pmbusTelemetry _ _ _ _
    | comparatorFire _ _ =>
    exact .ite (.next _) (.ite (.next _) (.next _))
  | periodicRetrain _ _ | sramScrub _ _ _ | stressClearDone =>
    exact .ite (.ite (.next _) (.next _)) (.next _)
  | txCodewordBoundary _ =>
    exact .ite (.ite (.next _) (.ite (.next _) (.ite (.next _) (.next _)))) (.next _)
  | referenceCheck _ _ =>
    exact .ite (.next _) (.ite (.next _) (.ite (.ite (.next _) (.next _)) (.next _)))
  | rollCallTrigger =>
    exact .ite (.next _) (.ite (.ite (.next _) (.next _)) (.ite (.next _) (.next _)))
  | pcieLinkTraining _ _ _ =>
    exact .ite (.next _) (.ite (.next _) (.ite (.next _) (.next _)))
  | injection _ => exact execInjection_goesOn ..
  | upstreamBurst _ _ => exact execUpstreamBurst_goesOn ..
  | packet _ _ => exact execPacket_goesOn ..
  | filterLookup _ _ => exact execFilterLookup_goesOn ..
  | tagCheck _ => exact execTagCheck_goesOn ..
  | decoderStart _ => exact execDecoderStart_goesOn ..
  | sliceDeadline _ _ _ => exact execSliceDeadline_goesOn ..
  | samplerRequest _ _ _ _ => exact execSamplerRequest_goesOn ..
  | fit _ => exact execFit_goesOn ..
  | csi2Packet _ _ _ _ _ => exact execCsi2Packet_goesOn ..
  | cmdResult _ => exact execCmdResult_goesOn ..
  | dmcRequest _ _ _ _ _ => exact execDmcRequest_goesOn ..
  | channelCommand _ _ => exact execChannelCommand_goesOn ..
  | snapshotDone => exact execSnapshotDone_goesOn ..
  | blitBurst => exact execBlitBurst_goesOn ..
  | domainStable _ => exact execDomainStable_goesOn ..
  | avsStep _ _ _ _ _ => exact execAvsStep_goesOn ..
  | imageVerification => exact execImageVerification_goesOn ..
  | measurementReport _ => exact execMeasurementReport_goesOn ..
  | signalDetect _ => exact execSignalDetect_goesOn ..
  | restoreBufferDone => exact execRestoreBufferDone_goesOn ..
  | br _ _ | vcvt _ _ =>
    dsimp only [execBr, execVcvt]
    exact State.issue_goesOn ..
  | rdsr _ | slateTBr _ | waitrow _ | dispatch _ | commit _ | mode _ | rcvm _ =>
    dsimp only [execRdsr, execSlateTBr, execWaitrow, execDispatch, execCommit, execMode, execRcvm]
    exact State.seqIssue_goesOn ..
  | slotStart | flip | chunkLaunch _ _ | stateTransition _ | joinedHoldExpiry _ | publish _ | pvDone
    | streamComplete _ _ | barRelease _ _ | loadCopyDone _ | tileEnDriveLow _ | tileResetHoldEnd _
    | trimMeasurement _ | checkpointDone | flushAck _ | postCheck | synchronisation | quiesceDone | ratioRampStep
    | gateTimeout _ =>
    dsimp only [execSlotStart, execFlip, execChunkLaunch, execStateTransition, execJoinedHoldExpiry, execPublish,
      execPvDone, execStreamComplete, execBarRelease, execLoadCopyDone, execTileEnDriveLow, execTileResetHoldEnd,
      execTrimMeasurement, execCheckpointDone, execFlushAck, execPostCheck, execSynchronisation, execQuiesceDone,
      execRatioRampStep, execGateTimeout]
    split
    · exact .ite (.next _) (.next _)
    · exact .next _
  | spliceTest | gainCopy | cmdTimeout _ | retStatus _ | recordWrite | baseLoadDone _ | jobEnd _
    | frameProgramApply =>
    dsimp only [execSpliceTest, execGainCopy, execCmdTimeout, execRetStatus, execRecordWrite, execBaseLoadDone,
      execJobEnd, execFrameProgramApply]
    split
    · exact .next _
    · exact .ite (.next _) (.next _)
  | lossDeclared | repairExpiry | sensorConversion _ _ _ =>
    dsimp only [execLossDeclared, execRepairExpiry, execSensorConversion]
    refine .ite (.next _) ?_
    split
    · exact .next _
    · exact .next _
  | spotPublish _ | jobStart _ =>
    dsimp only [execSpotPublish, execJobStart]
    refine .ite (.next _) ?_
    split
    · exact .next _
    · exact .ite (.next _) (.next _)
  | fault _ | ident _ =>
    dsimp only [execFault, execIdent]
    split
    · exact .next _
    · exact .next _

theorem step_goesOn (s : State) : Goes s := by
  cases h : s.pending with
  | nil => exact ⟨s.tick, step_of_pending_nil h⟩
  | cons c rest =>
    obtain ⟨t, ht⟩ := exec_goesOn c { s with pending := rest }
    refine ⟨t, ?_⟩
    unfold step
    rw [h]
    exact ht

/-! ## A store by access type (00 R8 to R10, Table SCP-4) -/

theorem fieldsWrite_eq_foldl (fs : List RegField) (locked : Bool) (old v : Nat) :
    fieldsWrite fs locked old v = fs.foldl (fieldStep locked v) old := rfl

theorem w1cMask_eq_foldl (fs : List RegField) : w1cMask fs = fs.foldl w1cStep 0 := rfl

/-- A store where no occurrence of the cycle is latched anew (00 R8) is one write of the register. -/
theorem State.store_of_find {s : State} {off : Nat} {g : RegGroup} (v : Word) (hg : regFind off = some g)
    (hf : isLatchReg off = true → ∀ p ∈ s.cyc.firsts, p.1 ≠ off) :
    s.store off v = (s.noteWrite off).setReg off
      (word (fieldsWrite g.fields (s.locked off) (s.reg off).toNat v.toNat ||| s.keptBits g.fields off)) := by
  unfold State.store
  rw [hg]
  exact State.relatch_none _ off hf

theorem State.testBit_keptBits (s : State) (fs : List RegField) (off i : Nat) :
    (s.keptBits fs off).testBit i = ((fs.foldl w1cStep 0).testBit i && s.flag off i && (s.setsNow off).testBit i) := by
  unfold State.keptBits
  rw [w1cMask_eq_foldl, Nat.testBit_and, Nat.testBit_and]
  rfl

theorem State.flag_of_ge (s : State) (off : Nat) {i : Nat} (h : 32 ≤ i) : s.flag off i = false :=
  BitVec.getLsbD_of_ge _ _ h

section
variable {s : State} {off : Nat} {g : RegGroup} {v : Word} (hg : regFind off = some g)
  (hf : isLatchReg off = true → ∀ p ∈ s.cyc.firsts, p.1 ≠ off)
include hg hf

theorem State.store_frame : s.store off v = { s with regs := (s.store off v).regs, cyc := (s.store off v).cyc } := by
  rw [State.store_of_find v hg hf]
  rfl

theorem State.reg_store_of_ne_find {o : Nat} (ho : o ≠ off) : (s.store off v).reg o = s.reg o := by
  rw [State.store_of_find v hg hf]
  exact State.reg_setReg_of_ne _ _ ho

/-- A bit of a register after a store: what the fields' writes give, or a W1C bit that hardware has set in the cycle (R8). -/
theorem State.flag_store {i : Nat} (hi : i < 32) :
    (s.store off v).flag off i = ((g.fields.foldl (fieldStep (s.locked off) v.toNat) (s.reg off).toNat).testBit i
      || ((g.fields.foldl w1cStep 0).testBit i && s.flag off i && (s.setsNow off).testBit i)) := by
  rw [State.store_of_find v hg hf, ← State.testBit_keptBits, ← fieldsWrite_eq_foldl, ← Nat.testBit_or]
  unfold State.flag word
  rw [State.reg_setReg_self, BitVec.getLsbD_ofNat, decide_eq_true hi, Bool.true_and]

/-- A bit of a field, by the field's access type (Table SCP-4). -/
theorem State.flag_store_of_mem {f : RegField} {i : Nat} (hm : f ∈ g.fields) (h1 : f.lsb ≤ i) (h2 : i ≤ f.msb)
    (h3 : f.msb < 32) (hd : ∀ f' ∈ g.fields, f' ≠ f → f'.lsb ≤ f'.msb ∧ (i < f'.lsb ∨ f'.msb < i)) :
    (s.store off v).flag off i = (accessBit f.acc (s.locked off) (s.flag off i) (v.getLsbD i)
      || (decide (f.acc = .w1c) && s.flag off i && (s.setsNow off).testBit i)) := by
  rw [State.flag_store hg hf (by omega), (testBit_fields_inside _ _ i f h1 h2 g.fields _ hd).1 hm,
    testBit_w1cMask_inside i f h1 h2 g.fields 0 hd, Nat.zero_testBit, Bool.false_or, decide_eq_true hm, Bool.true_and]
  rfl

/-- A bit of no field stays. -/
theorem State.flag_store_outside {i : Nat} (hd : ∀ f ∈ g.fields, f.lsb ≤ f.msb ∧ (i < f.lsb ∨ f.msb < i)) :
    (s.store off v).flag off i = s.flag off i := by
  rcases Nat.lt_or_ge i 32 with hi | hi
  · rw [State.flag_store hg hf hi, testBit_fields_outside _ _ i _ _ hd, testBit_w1cMask_outside i _ _ hd, Nat.zero_testBit,
      Bool.false_and, Bool.false_and, Bool.or_false]
    rfl
  · rw [State.flag_of_ge _ _ hi, State.flag_of_ge _ _ hi]

end

/-! ## REGISTER_WRITE -/

theorem execRegisterWrite_single (off : BitVec 26) (b : BusWrite) (s : State) :
    exec (.registerWrite off ⟨b, []⟩) s = .next (s.regWrite off.toNat b) := rfl

theorem State.regWrite_ok {s : State} {o : Nat} {b : BusWrite} (ha : o % 4 = 0) (hb : noBlock o = false)
    (hk : s.busOk o b = true) : s.regWrite o b = (s.accepted o b).regEffect b.master.val o b.value := by
  unfold State.regWrite
  dsimp only
  rw [if_neg (not_not.2 ha), hb, if_neg Bool.false_ne_true, State.busWrite_ok hk]

theorem State.regWrite_noBlock {s : State} {o : Nat} {b : BusWrite} (ha : o % 4 = 0) (hb : noBlock o = true)
    (hm : b.master.val ≠ 16) : s.regWrite o b = s := by
  unfold State.regWrite
  dsimp only
  rw [if_neg (not_not.2 ha), if_pos hb, if_neg fun h => hm h.1.1]

/-- Registers of several blocks whose write is the store alone. -/
def plainRegs : List Nat := [Reg.seqEntry, Reg.seqWdog, Reg.seqHostarg, Reg.evtRoute 0, Reg.evtRoute 255, Reg.hstBadacc]

theorem State.regEffect_plain {o : Nat} (h : o ∈ plainRegs) (s : State) (m : Nat) (v : Word) :
    s.regEffect m o v = s.store o v := by
  simp only [plainRegs, List.mem_cons, List.not_mem_nil, or_false] at h
  rcases h with rfl | rfl | rfl | rfl | rfl | rfl <;> rfl

theorem plainRegs_place {o : Nat} (h : o ∈ plainRegs) : o % 4 = 0 ∧ noBlock o = false := by
  revert o
  decide

/-- The words of a request after its second fall in the places that a request from the second word on gives them (R332). -/
theorem execRegisterWrite_cons (s : State) (off : BitVec 26) (b : BusWrite) (e : BitVec 4 × Word)
    (more : List (BitVec 4 × Word)) (h : off.toNat + 4 < 2 ^ 26) :
    exec (.registerWrite off ⟨b, e :: more⟩) s
      = exec (.registerWrite (off + 4) ⟨{ b with be := e.1, value := e.2 }, more⟩) (s.regWrite off.toNat b) := by
  have ho : (off + 4).toNat = off.toNat + 4 := by
    rw [BitVec.toNat_add]
    exact Nat.mod_eq_of_lt h
  show execRegisterWrite _ _ _ = execRegisterWrite _ _ _
  unfold execRegisterWrite
  simp only [List.zipIdx_cons, List.foldl_cons, ho, List.zipIdx_succ, List.foldl_map]
  have hx : ∀ k, off.toNat + 4 + 4 * (k + 1) = off.toNat + 4 * (k + 1 + 1) := by omega
  simp only [hx, Nat.zero_add, Nat.mul_one]

/-! ## The statements -/

/-- Settles O1, by the two cases of `step`. -/
theorem stepRunsTheFrontCommand : Obligations.StepRunsTheFrontCommand :=
  ⟨step_cons, fun _ => step_of_pending_nil⟩

/-- Settles O2, command by command (`exec_goesOn`); a step with nothing waiting is a tick. -/
theorem everyCommandGoesOn : Obligations.EveryCommandGoesOn :=
  ⟨exec_goesOn, step_goesOn⟩

/-- Settles O3, part by part: each is the value of a field, or of a read of an empty table, in `State.reset`. -/
theorem resetState : Obligations.ResetState := by
  unfold Obligations.ResetState
  refine ⟨rfl, rfl, fun _ => rfl, by decide, by decide, fun _ => rfl, rfl, rfl, reset_item_held, fun _ => rfl, fun _ => rfl,
    rfl, rfl, rfl, extentsOk_nil⟩

/-- Settles O6: what `Keeps` says of the queue, the clock and the free values drawn. -/
theorem commandsLeaveQueueAndClock : Obligations.CommandsLeaveQueueAndClock := by
  refine ⟨fun i s t h => ?_, fun s t h => ?_⟩
  · have k := (exec_keeps i s).of_next t h
    exact ⟨k.pending, k.now, k.draws⟩
  · have k := step_keeps h
    exact ⟨k.pending, k.now⟩

/-- Settles O8: the bits of a store field by field, then the way of REGISTER_WRITE to its register. -/
theorem registerWriteByAccessType : Obligations.RegisterWriteByAccessType := by
  refine ⟨fun s off v g hg hf => ⟨State.store_frame hg hf, fun o ho => State.reg_store_of_ne_find hg hf ho, ?_,
    fun i hd => State.flag_store_outside hg hf hd⟩, ?_, ?_, ?_, ?_⟩
  · intro f i hm h1 h2 h3 hd
    rw [State.flag_store_of_mem hg hf hm h1 h2 h3 hd]
    cases f.acc <;> simp [accessBit, Bool.and_or_distrib_left]
  · intro s off b ha hb hk _
    rw [execRegisterWrite_single, State.regWrite_ok ha hb hk]
  · intro s off b hp hk
    obtain ⟨ha, hb⟩ := plainRegs_place hp
    rw [execRegisterWrite_single, State.regWrite_ok ha hb hk, State.regEffect_plain hp]
  · intro s off b ha hb hm
    rw [execRegisterWrite_single, State.regWrite_noBlock ha hb hm]
  · intro s off b e more h
    exact ⟨_, execRegisterWrite_single off b s, execRegisterWrite_cons s off b e more h⟩

end Sys2Proof.Machine

/-!
The statements of chapter 01 (panel geometry): slot starts and flips.
-/
namespace Sys2Proof.Machine

/-! ## Slot starts (01 R23, R24) -/

/-- The next slot begins once its scheduled cycle is reached, unless a flip is due. -/
theorem execSlotStart_of_le {s : State} {f : Nat} (hf : s.seq.flipAt = some f) (hl : s.live 18 = true)
    (hk : s.seq.slot < 447) (hd : s.flipDue = false) (hb : f + s.slotStart (s.seq.slot + 1) ≤ s.now) :
    execSlotStart s = .next (s.slotBegin (s.seq.slot + 1)) := by
  simp [execSlotStart, hf, hl, hk, hd, hb]

theorem execSlotStart_of_lt {s : State} {f : Nat} (hf : s.seq.flipAt = some f)
    (hb : s.now < f + s.slotStart (s.seq.slot + 1)) : execSlotStart s = .next s := by
  simp [execSlotStart, hf, Nat.not_le.mpr hb]

/-! ## A frame begun by a flip (01 R24; 08 R199) -/

/-- The outcome is a new frame, begun now with the wall time given, but for the reset of a watchdog at its limit and the notes
of the cycle. -/
def BeginsFrame (s : State) (o : Out) (wall : Nat) (next : Option Nat) (hold free : Bool) : Prop :=
  ∃ t u : State, o = .next t ∧ (t = { u with cyc := t.cyc } ∨ t = { u.narrowReset 5 with cyc := t.cyc })
    ∧ u.seq.frame = (s.seq.frame + 1) % 2 ^ 48 ∧ u.seq.flipWall = wall ∧ u.seq.flipAt = some s.now ∧ u.seq.slot = 0
    ∧ u.seq.slotAt = s.now ∧ u.asm.nextFlip = next ∧ u.asm.holdover = hold ∧ u.seq.freeRun = free ∧ u.now = s.now

theorem State.noteQueues_eq_cyc (s : State) : s.noteQueues = { s with cyc := s.noteQueues.cyc } := rfl

/-- A flip from a state of the same frame and cycle leaves free running and the flips to come as that state has them. -/
theorem State.flip_beginsFrame {s v : State} (wall : Nat) (hframe : v.seq.frame = s.seq.frame) (hnow : v.now = s.now) :
    BeginsFrame s (.next (v.flip wall)) wall v.asm.nextFlip v.asm.holdover v.seq.freeRun := by
  obtain ⟨u, hflip, hu⟩ := State.flip_timing v wall
  refine ⟨v.flip wall, u, rfl, ?_, hframe ▸ hu.frame, hu.flipWall, hnow ▸ hu.flipAt, hu.slot, hnow ▸ hu.slotAt,
    hu.nextFlip, hu.holdover, hu.freeRun, hu.now.trans hnow⟩
  rcases hflip with h | h
  · exact .inl (h ▸ State.noteQueues_eq_cyc u)
  · exact .inr (h ▸ State.noteQueues_eq_cyc (u.narrowReset 5))

/-! ## Flips of the Assembly port (04 R101) -/

theorem State.portFlip_beginsFrame {s : State} (wall : Nat) (hold : Bool) (hl : s.live 18 = true) :
    BeginsFrame s (.next (s.portFlip wall hold)) wall none hold false := by
  have hflip : s.portFlip wall hold = ({ s with
      asm := { s.asm with nextFlip := none, holdover := hold }, seq := { s.seq with freeRun := false } } : State).flip wall :=
    if_pos hl
  rw [hflip]
  exact State.flip_beginsFrame wall rfl rfl

/-- The sequencer takes no flip while it is not live: only what the port itself keeps changes. -/
theorem State.portFlip_of_not_live {s : State} (wall : Nat) (hold : Bool) (hl : s.live 18 = false) :
    s.portFlip wall hold = { s with
      asm := { s.asm with nextFlip := none, holdover := hold }, seq := { s.seq with freeRun := false } } :=
  if_neg (Bool.eq_false_iff.mp hl)

theorem execFlip_of_le {s : State} {w : Nat} (hn : s.asm.nextFlip = some w) (hw : w ≤ s.wallNs) :
    execFlip s = .next (s.portFlip w false) := by
  simp [execFlip, hn, hw]

theorem execFlip_of_lt {s : State} {w : Nat} (hn : s.asm.nextFlip = some w) (hw : s.wallNs < w) :
    execFlip s = .next s := by
  simp [execFlip, hn, Nat.not_le.mpr hw]

theorem execHoldoverFlip_of_le {s : State} (hn : s.asm.nextFlip = none) (hp : s.asm.flipPeriod ≠ 0)
    (hf : s.seq.flipAt ≠ none) (hw : s.seq.flipWall + s.asm.flipPeriod ≤ s.wallNs) :
    execHoldoverFlip s = .next (s.portFlip s.wallNs true) := by
  have hdue : s.holdoverDue = true := by
    simp [State.holdoverDue, State.inFrame, hn, hp, Option.isSome_iff_ne_none.mpr hf, hw]
  exact if_pos hdue

theorem execFlip_beginsFrame {s : State} {w : Nat} (hn : s.asm.nextFlip = some w) (hw : w ≤ s.wallNs)
    (hl : s.live 18 = true) : BeginsFrame s (execFlip s) w none false false := by
  rw [execFlip_of_le hn hw]
  exact State.portFlip_beginsFrame w false hl

theorem execHoldoverFlip_beginsFrame {s : State} (hn : s.asm.nextFlip = none) (hp : s.asm.flipPeriod ≠ 0)
    (hf : s.seq.flipAt ≠ none) (hw : s.seq.flipWall + s.asm.flipPeriod ≤ s.wallNs) (hl : s.live 18 = true) :
    BeginsFrame s (execHoldoverFlip s) s.wallNs none true false := by
  rw [execHoldoverFlip_of_le hn hp hf hw]
  exact State.portFlip_beginsFrame s.wallNs true hl

/-! ## The sequencer's own flips (08 R202) -/

/-- The cycle in which the sequencer's own flip comes. -/
def State.freeRunAt (s : State) : Nat :=
  let p := ratePeriod s.seq.rate
  match s.seq.flipAt with
  | some f => if s.seq.freeRun then f + p else f + p + p / 448
  | none => s.seq.enAt + p + p / 448

/-- It is due from that cycle on; before the first flip only a sequencer that is enabled counts. -/
theorem State.freeRunDue_iff {s : State} (hen : s.flag Reg.seqCtrl 2 = true) :
    s.freeRunDue = true ↔ s.freeRunAt ≤ s.now ∧ (s.seq.flipAt = none → s.flag Reg.seqCtrl 0 = true) := by
  unfold State.freeRunDue State.freeRunAt
  cases hf : s.seq.flipAt with
  | none => simp [hen, and_comm]
  | some f => cases s.seq.freeRun <;> simp [hen, Nat.add_assoc]

/-- Free running is on and the flip counted; the first of a run sets EV_SEQ_FREERUN. -/
def State.freeRunCounted (s : State) : State :=
  let counted := ({ s with seq := { s.seq with freeRun := true } } : State).bump (Reg.seqCnt 4)
  if s.seq.freeRun then counted else counted.event 110

theorem State.freeRunCounted_timed (s : State) :
    Timed { s with seq := { s.seq with freeRun := true } } s.freeRunCounted :=
  have hbump := State.bump_timed { s with seq := { s.seq with freeRun := true } } (Reg.seqCnt 4) 1
  Timed.ite hbump (hbump.trans (State.event_timed ..))

theorem execFreeRunFlip_of_due {s : State} (hl : s.live 18 = true) (hd : s.freeRunDue = true) :
    execFreeRunFlip s = .next (s.freeRunCounted.flip s.wallNs) := by
  have hwall : s.freeRunCounted.wallNs = s.wallNs := congrArg (· / 16000000) s.freeRunCounted_timed.wall
  rw [← hwall]
  cases hr : s.seq.freeRun <;> simp [execFreeRunFlip, State.freeRunCounted, hl, hd, hr]

theorem execFreeRunFlip_of_not_due {s : State} (hd : s.freeRunDue = false) : execFreeRunFlip s = .next s := by
  simp [execFreeRunFlip, hd]

theorem execFreeRunFlip_beginsFrame {s : State} (hl : s.live 18 = true) (hd : s.freeRunDue = true) :
    BeginsFrame s (execFreeRunFlip s) s.wallNs s.asm.nextFlip s.asm.holdover true := by
  have h := s.freeRunCounted_timed
  have hflip := State.flip_beginsFrame (s := s) s.wallNs h.frame h.now
  rw [execFreeRunFlip_of_due hl hd]
  rwa [h.nextFlip, h.holdover, h.freeRun] at hflip

/-! ## The statements -/

/-- Settles O28: slot starts by `State.slotBegin_timing`, the three flips by `BeginsFrame`. -/
theorem slotsAndFlips : Obligations.SlotsAndFlips := by
  refine ⟨fun s f hf hl hk hd => ⟨fun hb => ?_, fun hb => execSlotStart_of_lt hf hb⟩,
    fun s w hn => ⟨fun hw hl => execFlip_beginsFrame hn hw hl, fun hw hl => ?_, fun hw => execFlip_of_lt hn hw⟩,
    fun s hn hp hf hw hl => execHoldoverFlip_beginsFrame hn hp hf hw hl, fun s hl hen => ?_⟩
  · have h := State.slotBegin_timing s (s.seq.slot + 1) f hf
    exact ⟨_, execSlotStart_of_le hf hl hk hd hb, h.slot, h.slotAt, h.frame, h.flipAt.trans hf, h.flipWall, h.rate,
      h.blanked, h.nextFlip, h.holdover, h.now⟩
  · exact (execFlip_of_le hn hw).trans (congrArg _ (State.portFlip_of_not_live w false hl))
  · intro p since due s₁ s₂ s₃
    have hdue : due = s.freeRunAt := by
      unfold due since State.freeRunAt
      cases s.seq.flipAt <;> simp [p]
    rw [hdue]
    refine ⟨fun hle hen₀ => ?_, fun hlt => execFreeRunFlip_of_not_due ?_⟩
    · have hd := (State.freeRunDue_iff hen).mpr ⟨hle, hen₀⟩
      exact ⟨execFreeRunFlip_of_due hl hd, execFreeRunFlip_beginsFrame hl hd⟩
    · exact Bool.eq_false_iff.mpr fun h => Nat.not_le.mpr hlt ((State.freeRunDue_iff hen).mp h).1

end Sys2Proof.Machine

/-!
The counter clears of the chapters (03 R80; 00 R8).
-/
namespace Sys2Proof.Machine

/-! ## Counters cleared -/

/-- The registers `cnts` of t hold what they have counted in this cycle of z; nothing else has changed. -/
structure Cleared (cnts : List Nat) (z t : State) : Prop where
  frame : t = { z with regs := t.regs }
  reg : ∀ o, t.reg o = if o ∈ cnts then word (min 0xFFFFFFFF (z.incsNow o)) else z.reg o

/-- The n counters from off on. -/
def counterRun (off n : Nat) : List Nat := (List.range n).map (off + 4 * ·)

theorem State.clrRegs_cleared (z : State) (off n : Nat) : Cleared (counterRun off n) z (z.clrRegs off n) :=
  ⟨z.clrRegs_eq off n, z.reg_clrRegs_mem off n⟩

theorem Cleared.cyc {cnts : List Nat} {z t : State} (h : Cleared cnts z t) : t.cyc = z.cyc := by
  rw [h.frame]

theorem Cleared.sat {cnts : List Nat} {z t : State} (h : Cleared cnts z t) : t.sat = z.sat := by
  rw [h.frame]

theorem Cleared.incsNow {cnts : List Nat} {z t : State} (h : Cleared cnts z t) (o : Nat) : t.incsNow o = z.incsNow o := by
  unfold State.incsNow
  rw [h.cyc]

theorem Cleared.trans {as bs : List Nat} {z y t : State} (h : Cleared as z y) (k : Cleared bs y t) :
    Cleared (as ++ bs) z t := by
  refine ⟨regsOnly_trans h.frame k.frame, fun o => ?_⟩
  rw [k.reg, h.incsNow, h.reg]
  by_cases ha : o ∈ as <;> by_cases hb : o ∈ bs <;> simp [ha, hb]

theorem Cleared.congr {as bs : List Nat} {z t : State} (h : Cleared as z t) (e : ∀ o, o ∈ bs ↔ o ∈ as) : Cleared bs z t :=
  ⟨h.frame, fun o => by simp only [h.reg, e]⟩

/-- Runs of counters cleared one after the other. -/
theorem Cleared.foldl {α : Type} (run : α → List Nat) (clear : State → α → State)
    (hc : ∀ z a, Cleared (run a) z (clear z a)) (xs : List α) {as : List Nat} {z y : State} (h : Cleared as z y) :
    Cleared (as ++ xs.flatMap run) z (xs.foldl clear y) := by
  induction xs generalizing as y with
  | nil => simpa using h
  | cons x xs ih => simpa using ih (h.trans (hc y x))

/-! ## A write of a counter-clear register -/

/-- What a write of v to the counter-clear register `clr` of the counters `cnts` makes of z: with bit 0 the counters are
cleared, and SAT_CNT_CLR clears the remainders of its KiB counters besides. -/
structure ClearWritten (clr : Nat) (cnts : List Nat) (v : Word) (z t : State) : Prop where
  frame : t = { z with regs := t.regs, sat := t.sat }
  sat : t.sat = z.sat ∨ (clr = Reg.satCntClr ∧ t.sat = { z.sat with inRest := 0, outRest := 0 })
  reg : ∀ o, t.reg o = if v.getLsbD 0 = true ∧ o ∈ cnts then word (min 0xFFFFFFFF (z.incsNow o)) else z.reg o

theorem ClearWritten.of_not {clr : Nat} {cnts : List Nat} {v : Word} (hv : ¬ v.getLsbD 0 = true) (z : State) :
    ClearWritten clr cnts v z z :=
  ⟨rfl, .inl rfl, fun _ => (if_neg fun h => hv h.1).symm⟩

theorem ClearWritten.of_ite {clr : Nat} {cnts : List Nat} {z t : State} (h : Cleared cnts z t) (v : Word) :
    ClearWritten clr cnts v z (if v.getLsbD 0 then t else z) := by
  by_cases hv : v.getLsbD 0 = true
  · rw [if_pos hv]
    refine ⟨?_, .inl h.sat, fun o => by simp only [h.reg, hv, true_and]⟩
    rw [h.sat]
    exact h.frame
  · rw [if_neg hv]
    exact .of_not hv z

theorem State.satCntClrWrite_clears (z : State) (v : Word) :
    ClearWritten Reg.satCntClr (counterRun (Reg.satCnt 0) 5) v z (z.satCntClrWrite v) := by
  unfold State.satCntClrWrite
  by_cases hv : v.getLsbD 0 = true
  · rw [if_pos hv]
    have h := State.clrRegs_cleared { z with sat := { z.sat with inRest := 0, outRest := 0 } } (Reg.satCnt 0) 5
    refine ⟨?_, .inr ⟨rfl, h.sat⟩, fun o => by simp only [h.reg, hv, true_and]; rfl⟩
    rw [h.sat]
    exact h.frame
  · rw [if_neg hv]
    exact .of_not hv z

theorem State.laneCntClr_clears (z : State) (k : Nat) (v : Word) :
    ClearWritten (Reg.laneCntClr k) (Reg.lanePrbsErr k :: counterRun (Reg.laneCntCw k) 5) v z (z.laneCntClr k v) := by
  refine .of_ite (((z.clrRegs_cleared _ 5).trans (State.clrRegs_cleared _ (Reg.lanePrbsErr k) 1)).congr fun o => ?_) v
  simp [counterRun, or_comm]

theorem State.dmcCntClr_clears (z : State) (v : Word) :
    ClearWritten Reg.dmcCntClr
      (counterRun (Reg.dmcCntSram 0) 2 ++ (List.range 16).flatMap fun c => counterRun (Reg.dmcCntCh c 0) 6) v z
      (z.dmcCntClr v) :=
  .of_ite (Cleared.foldl (fun c => counterRun (Reg.dmcCntCh c 0) 6) (fun s c => s.clrRegs (Reg.dmcCntCh c 0) 6)
    (fun _ _ => State.clrRegs_cleared ..) _ (z.clrRegs_cleared ..)) v

/-! ## The write reaches its register -/

@[simp] theorem State.accepted_reg (s : State) (off : Nat) (b : BusWrite) (o : Nat) : (s.accepted off b).reg o = s.reg o := by
  obtain ⟨c, heq, -⟩ := s.accepted_eq off b
  rw [heq]
  rfl

@[simp] theorem State.accepted_incsNow (s : State) (off : Nat) (b : BusWrite) (o : Nat) :
    (s.accepted off b).incsNow o = s.incsNow o := by
  obtain ⟨c, heq, hc⟩ := s.accepted_eq off b
  rw [heq, hc]
  rfl

theorem State.accepted_frame (s : State) (off : Nat) (b : BusWrite) :
    s.accepted off b = { s with cyc := (s.accepted off b).cyc, host := { s.host with respErr := false } } := by
  obtain ⟨c, heq, -⟩ := s.accepted_eq off b
  rw [heq]

theorem busWrite_clears {s : State} {b : BusWrite} {clr : Nat} {cnts : List Nat} {eff : State → Word → State}
    (hb : s.busOk clr b = true) (heff : ∀ z, ClearWritten clr cnts b.value z (eff z b.value)) :
    ∃ t, (.next (s.busWrite clr b eff) : Out) = .next t
      ∧ t = { s with regs := t.regs, sat := t.sat, cyc := t.cyc, host := { s.host with respErr := false } }
      ∧ (t.sat = s.sat ∨ (clr = Reg.satCntClr ∧ t.sat = { s.sat with inRest := 0, outRest := 0 }))
      ∧ ∀ o, t.reg o = if b.value.getLsbD 0 = true ∧ o ∈ cnts then word (min 0xFFFFFFFF (s.incsNow o)) else s.reg o := by
  obtain ⟨heq, hsat, hreg⟩ := heff (s.accepted clr b)
  have hacc := s.accepted_frame clr b
  refine ⟨_, congrArg _ (State.busWrite_ok hb), ?_, ?_, fun o => by simp [hreg]⟩
  · generalize eff (s.accepted clr b) b.value = t at heq
    rw [hacc] at heq
    have hcyc := congrArg State.cyc heq
    rw [hcyc]
    exact heq
  · rwa [congrArg State.sat hacc] at hsat

/-! ## PRC_LOCK with LOCK 0 -/

theorem isLatchReg_prcLock (target : Fin 23) : isLatchReg (Reg.prcLock target.val) = false := by
  revert target
  decide

theorem prcViolCnt_ne_prcLock (k : Nat) : Reg.prcViolCnt k ≠ Reg.prcLock k := by
  unfold Reg.prcViolCnt Reg.prcLock
  omega

theorem State.prcLockWrite_of_unlocked (z : State) (k : Nat) {v : Word} (hv : v.getLsbD 0 = false) :
    z.prcLockWrite k v = if v.getLsbD 31 then (z.store (Reg.prcLock k) v).clrRegs (Reg.prcViolCnt k) 1
      else z.store (Reg.prcLock k) v := by
  unfold State.prcLockWrite
  dsimp only
  rw [hv, Bool.false_and, if_neg Bool.false_ne_true]

theorem prcLockCntClr_clears {s : State} {b : BusWrite} (target : Fin 23)
    (hb : s.busOk (Reg.prcLock target.val) b = true) (hv : b.value.getLsbD 0 = false) :
    ∃ t, exec (.prcLockCntClr target b) s = .next t
      ∧ t = { s with regs := t.regs, cyc := t.cyc, host := { s.host with respErr := false } }
      ∧ (b.value.getLsbD 31 = true →
          t.reg (Reg.prcViolCnt target.val) = word (min 0xFFFFFFFF (s.incsNow (Reg.prcViolCnt target.val))))
      ∧ (b.value.getLsbD 31 = false → t.reg (Reg.prcViolCnt target.val) = s.reg (Reg.prcViolCnt target.val))
      ∧ ∀ o, o ≠ Reg.prcViolCnt target.val → o ≠ Reg.prcLock target.val → t.reg o = s.reg o := by
  let z := s.accepted (Reg.prcLock target.val) b
  let y := z.store (Reg.prcLock target.val) b.value
  have hl := isLatchReg_prcLock target
  have hexec : exec (.prcLockCntClr target b) s = .next (z.prcLockWrite target.val b.value) :=
    congrArg _ (State.busWrite_ok hb)
  have hy : y = { s with regs := y.regs, cyc := y.cyc, host := { s.host with respErr := false } } := by
    have hstore : y = { z with regs := y.regs, cyc := y.cyc } := z.store_eq _ b.value hl
    rwa [show z = _ from s.accepted_frame _ b] at hstore
  have hreg : ∀ o, o ≠ Reg.prcLock target.val → y.reg o = s.reg o := fun o ho => by
    rw [z.reg_store_of_ne b.value hl ho, State.accepted_reg]
  have hincs : ∀ o, y.incsNow o = s.incsNow o := fun o => by
    rw [z.incsNow_store _ b.value hl, State.accepted_incsNow]
  rw [hexec, z.prcLockWrite_of_unlocked _ hv]
  have hne := prcViolCnt_ne_prcLock target.val
  by_cases hc : b.value.getLsbD 31 = true
  case neg =>
    rw [if_neg hc]
    exact ⟨y, rfl, hy, fun h => absurd h hc, fun _ => hreg _ hne, fun o _ ho => hreg o ho⟩
  case pos =>
    have hclr := y.clrRegs_cleared (Reg.prcViolCnt target.val) 1
    rw [if_pos hc]
    refine ⟨_, rfl, ?_, fun _ => ?_, fun h => absurd hc (Bool.eq_false_iff.1 h), fun o h1 h2 => ?_⟩
    · rw [hclr.cyc]
      exact regsOnly_trans (z := { s with cyc := y.cyc, host := { s.host with respErr := false } }) hy hclr.frame
    · rw [hclr.reg, if_pos (by simp [counterRun]), hincs]
    · rw [hclr.reg, if_neg (by simpa [counterRun] using h1), hreg o h2]

/-! ## The statement -/

/-- Settles O9: each clear is a run of counters cleared (`Cleared`), behind one write that reaches its register
(`busWrite_clears`). -/
theorem counterClears : Obligations.CounterClears := by
  intro s b run clears
  have plain : ∀ {i : Instr} {clr off n : Nat} {eff : State → Word → State},
      exec i s = .next (s.busWrite clr b eff) → (∀ z v, eff z v = if v.getLsbD 0 then z.clrRegs off n else z) →
      clears i clr (run off n) := fun hi heff hb =>
    hi ▸ busWrite_clears hb fun z => heff z b.value ▸ .of_ite (State.clrRegs_cleared ..) _
  refine ⟨fun lane hb => busWrite_clears hb fun z => z.laneCntClr_clears lane.val b.value,
    fun port => plain rfl fun _ _ => rfl, plain rfl fun _ _ => rfl, fun hr => plain rfl fun _ _ => rfl,
    plain rfl fun _ _ => rfl, plain rfl fun _ _ => rfl, plain rfl fun _ _ => rfl, fun pipe => plain rfl fun _ _ => rfl,
    plain rfl fun _ _ => rfl, fun hb => busWrite_clears hb fun z => ?_, fun hb => busWrite_clears hb fun z => ?_,
    plain rfl fun _ _ => rfl, plain rfl fun _ _ => rfl,
    fun hb => busWrite_clears hb fun z => z.dmcCntClr_clears b.value, plain (n := 1) rfl fun _ _ => rfl,
    plain rfl fun _ _ => rfl, fun hb => busWrite_clears hb fun z => z.satCntClrWrite_clears b.value,
    plain rfl fun _ _ => rfl, plain rfl fun _ _ => rfl, fun target hb hv => prcLockCntClr_clears target hb hv⟩
  · exact .of_ite ((z.clrRegs_cleared ..).trans (State.clrRegs_cleared ..)) _
  · exact .of_ite (((z.clrRegs_cleared ..).trans (State.clrRegs_cleared ..)).trans (State.clrRegs_cleared ..)) _

end Sys2Proof.Machine

/-!
The lane states of chapter 03 (R65 to R72, R79).
-/
namespace Sys2Proof.Machine

theorem State.accepted_lane (s : State) (off : Nat) (b : BusWrite) (i : Nat) : (s.accepted off b).lane i = s.lane i :=
  State.lane_congr (congrArg State.lanes (s.accepted_frame off b)) i

theorem State.accepted_fld (s : State) (off : Nat) (b : BusWrite) (o hi lo : Nat) :
    (s.accepted off b).fld o hi lo = s.fld o hi lo := by
  unfold State.fld
  rw [State.accepted_reg]

@[simp] theorem State.boundary_st (s : State) (k : Nat) : ((s.laneBoundary k).lane k).st = (s.lane k).st := by
  rw [(s.boundary_lane k).1]

/-! ## Requests (R70, R71) -/

/-- The state that a STATE_REQ value asks for, where AUTO gives the lane to its link layer. -/
def reqState (link : LaneSt) (v : Nat) : LaneSt :=
  match v % 8 with
  | 1 => .active
  | 2 => .quiet
  | 3 => .dormant
  | _ => link

/-- LANE_CTRL as a write stores it, with what adaptation shows held first where it sets ADAPT_FREEZE (R68). -/
def State.ctrlStored (z : State) (k : Nat) (v : Word) : State :=
  (if v.getLsbD 6 then z.holdAdapt k else z).store (Reg.laneCtrl k) (laneCtrlMask k v)

theorem State.lane_ctrlStored (z : State) (k : Fin 74) (v : Word) : (z.ctrlStored k.val v).lane k.val = z.lane k.val := by
  refine (State.lane_congr (State.lane_stored _ k v).1 _).trans (State.lane_congr ?_ _)
  split
  · exact z.lanes_holdAdapt k.val
  · rfl

theorem reqCode_mod (v : Nat) : reqCode (v % 8) = reqCode v := by
  unfold reqCode
  rw [Nat.mod_mod]

theorem State.laneCtrlWrite_eq (z : State) (k : Fin 74) (v : Word) :
    z.laneCtrlWrite k.val v = if reqCode v.toNat = reqCode (z.fld (Reg.laneCtrl k.val) 2 0) then z.ctrlStored k.val v
      else (z.ctrlStored k.val v).setLane k.val ((z.lane k.val).ask (reqState (z.lane k.val).link v.toNat)) := by
  have hfld : (z.ctrlStored k.val v).fld (Reg.laneCtrl k.val) 2 0 = v.toNat % 8 := (State.lane_stored _ k v).2
  have hwant : (z.ctrlStored k.val v).laneWant k.val = reqState (z.lane k.val).link v.toNat := by
    rw [State.laneWant_eq _ k v hfld, State.lane_ctrlStored]
    rfl
  have hwrite : z.laneCtrlWrite k.val v =
      if reqCode ((z.ctrlStored k.val v).fld (Reg.laneCtrl k.val) 2 0) = reqCode (z.fld (Reg.laneCtrl k.val) 2 0) then
        z.ctrlStored k.val v
      else (z.ctrlStored k.val v).setLane k.val
        (((z.ctrlStored k.val v).lane k.val).ask ((z.ctrlStored k.val v).laneWant k.val)) := rfl
  rw [hwrite, hfld, reqCode_mod, hwant, State.lane_ctrlStored]

theorem execStateReq_of_ok {s : State} {l : Fin 74} {b : BusWrite} (hb : s.busOk (Reg.laneCtrl l.val) b = true) :
    let z₁ := (s.accepted (Reg.laneCtrl l.val) b).ctrlStored l.val b.value
    exec (.stateReq l b) s =
      .next (if reqCode b.value.toNat = reqCode (s.fld (Reg.laneCtrl l.val) 2 0) then z₁
        else z₁.setLane l.val ((s.lane l.val).ask (reqState (s.lane l.val).link b.value.toNat))) := by
  intro z₁
  refine congrArg _ ((State.busWrite_ok hb).trans ?_)
  rw [State.laneCtrlWrite_eq, State.accepted_fld, State.accepted_lane]

theorem Lane.ask_of_transition {ln : Lane} (h : ln.st = .transition) (w : LaneSt) : ln.ask w = { ln with held := some w } :=
  if_pos h

theorem Lane.ask_of_inForce {ln : Lane} (h : ln.st ≠ .transition) {w : LaneSt} (hw : ln.st = w) : ln.ask w = ln :=
  (if_neg h).trans (if_pos hw)

theorem Lane.ask_of_ne {ln : Lane} (h : ln.st ≠ .transition) {w : LaneSt} (hw : ln.st ≠ w) :
    ln.ask w = { ln with req := some w } :=
  (if_neg h).trans (if_neg hw)

/-! ## Transitions begin (R71, R72) -/

/-- The transition to w begins: adaptation holds what it shows, the transmitter is off. -/
def State.beginsTo (k : Nat) (w : LaneSt) (z : State) : State :=
  (z.holdAdapt k).setLane k { z.lane k with st := .transition, target := w, req := none, txen := false }

/-- A serial transmitter goes from ACTIVE to QUIET. -/
def saysGoodbye (k : Nat) (st w : LaneSt) : Bool := laneTx k && st == .active && w == .quiet && !laneBurst k

/-- The last codeword of a serial transmitter before QUIET: PRBS bits, or the link's blocks and eight QUIET_NOTICE. -/
def State.goodbye (c : State) (k : Nat) : State :=
  if (c.lane k).genOn then c.prbsSend k else
    let nx := (c.lane k).nextBlocks c.latency 72
    (c.setLane k nx.2).laneSend k (fillBlocks 72 nx.1 ++ (List.range 8).map fun i => quietNotice (7 - i))

theorem saysGoodbye_iff (k : Nat) (st w : LaneSt) :
    saysGoodbye k st w = true ↔ laneTx k = true ∧ laneBurst k = false ∧ st = .active ∧ w = .quiet := by
  simp only [saysGoodbye, Bool.and_eq_true, beq_iff_eq, Bool.not_eq_true']
  tauto

theorem execStateTransition_of_req {s : State} {l : Fin 74} {w : LaneSt} (hr : (s.lane l.val).req = some w)
    (hl : s.live (laneBlock l.val) = true) (ht : (s.lane l.val).st ≠ .transition) :
    let c := s.laneBoundary l.val
    exec (.stateTransition l) s = .next (State.beginsTo l.val w
      (if saysGoodbye l.val (s.lane l.val).st w then c.goodbye l.val else c)) := by
  intro c
  have hcond : (s.live (laneBlock l.val) && (s.lane l.val).st != .transition) = true := by simp [hl, ht]
  have hexec : exec (.stateTransition l) s =
      let z := if saysGoodbye l.val (c.lane l.val).st w then c.goodbye l.val else c
      .next ((z.holdAdapt l.val).setLane l.val
        { (z.holdAdapt l.val).lane l.val with st := .transition, target := w, req := none, txen := false }) := by
    change execStateTransition l s = _
    unfold execStateTransition
    simp only [hr, hcond, if_true]
    rfl
  rw [hexec, State.boundary_st]
  exact congrArg _ (State.setLane_holdAdapt _ l.val
    fun ln => { ln with st := .transition, target := w, req := none, txen := false })

theorem execStateTransition_of_idle {s : State} {l : Fin 74}
    (h : (s.lane l.val).req = none ∨ ¬ s.live (laneBlock l.val) = true ∨ (s.lane l.val).st = .transition) :
    exec (.stateTransition l) s = .next s := by
  change execStateTransition l s = _
  unfold execStateTransition
  dsimp only
  cases hr : (s.lane l.val).req with
  | none => rfl
  | some w =>
    refine if_neg ?_
    rw [hr] at h
    rcases h with h | h | h
    · exact nomatch h
    · simp [h]
    · simp [h]

/-! ## Transitions end (R71, R79) -/

theorem execLaneStateComplete_of_transition {s : State} {l : Fin 74} (hl : s.live (laneBlock l.val) = true)
    (ht : (s.lane l.val).st = .transition) :
    exec (.laneStateComplete l) s = .next (((s.laneArrive l.val (s.lane l.val).target).event 66).lockFollow l.val
      (s.lane l.val).cwLock) :=
  if_pos (by simp [hl, ht])

/-! ## Signal (R66 to R68) -/

theorem execSignalDetect_of_active {s : State} {l : Fin 74} (hr : laneTx l.val = false)
    (hl : s.live (laneBlock l.val) = true) (h : (s.lane l.val).st = .active) :
    exec (.signalDetect l) s = .next (s.setLane l.val { s.lane l.val with sigDet := true, cdrLock := true }) := by
  change execSignalDetect l s = _
  simp [execSignalDetect, hr, hl, h]

theorem execSignalDetect_of_quiet {s : State} {l : Fin 74} (hr : laneTx l.val = false)
    (hl : s.live (laneBlock l.val) = true) (h : (s.lane l.val).st = .quiet) :
    exec (.signalDetect l) s = .next (s.setLane l.val (if s.laneQuietDue l.val then
      { s.lane l.val with sigDet := true, st := .transition, target := .active }
      else { s.lane l.val with sigDet := true })) := by
  change execSignalDetect l s = _
  simp [execSignalDetect, hr, hl, h]

theorem execSigLost_of_not {s : State} {l : Fin 74} (h : ¬ s.signalMatters l.val = true) :
    exec (.sigLost l) s = .next s :=
  if_neg (by simp [h])

theorem execSigLost_of_matters {s : State} {l : Fin 74} (hr : laneTx l.val = false)
    (hl : s.live (laneBlock l.val) = true) (h : s.signalMatters l.val = true) :
    exec (.sigLost l) s = .next ((s.laneSigLost l.val).lockFollow l.val (s.lane l.val).cwLock) :=
  if_pos (by simp [hr, hl, h])

/-- A QUIET_NOTICE came within the last 2 µs (R66). -/
def State.noticed (s : State) (k : Nat) : Bool :=
  match (s.lane k).noticeAt with
  | some t => decide (s.now ≤ t + 3200)
  | none => false

theorem State.noticed_iff (s : State) (k : Nat) :
    s.noticed k = true ↔ ∃ t, (s.lane k).noticeAt = some t ∧ s.now ≤ t + 3200 := by
  unfold State.noticed
  cases (s.lane k).noticeAt <;> simp

theorem State.laneSigLost_eq (s : State) (k : Nat) :
    s.laneSigLost k = if s.noticed k && s.laneQuietDue k then
        (((s.holdAdapt k).setLane k { s.lane k with sigDet := false }).laneArrive k .quiet).event 66
      else (((s.holdAdapt k).setLane k { (s.lane k).unlock with cdrLock := false, sigDet := false }).setFlag
        (Reg.laneStatus k) 9).event 64 := by
  have hlane : (s.holdAdapt k).lane k = s.lane k := State.lane_congr (s.lanes_holdAdapt k) k
  have hdue : (s.holdAdapt k).laneQuietDue k = s.laneQuietDue k := by
    unfold State.laneQuietDue
    rw [State.fld_holdAdapt]
  have hnoticed : (s.holdAdapt k).noticed k = s.noticed k := by
    unfold State.noticed
    rw [hlane, State.now_holdAdapt]
  have heq : s.laneSigLost k =
      let h := s.holdAdapt k
      if h.noticed k && h.laneQuietDue k then
        ((h.setLane k { h.lane k with sigDet := false }).laneArrive k .quiet).event 66
      else ((h.setLane k { (h.lane k).unlock with cdrLock := false, sigDet := false }).setFlag
        (Reg.laneStatus k) 9).event 64 := rfl
  rw [heq]
  dsimp only
  rw [hnoticed, hdue, hlane]

/-! ## Loss of lock (R65, R79) -/

theorem execLockLost_of_due {s : State} {l : Fin 74} (hl : s.live (laneBlock l.val) = true)
    (hc : (s.lane l.val).cwLock = true) (hd : (s.lane l.val).lossDue = true) :
    exec (.lockLost l) s = .next ((s.laneLockLost l.val).lockFollow l.val true) :=
  if_pos (by simp [hl, hc, hd])

theorem execLockLost_of_not {s : State} {l : Fin 74}
    (h : (s.lane l.val).cwLock = false ∨ (s.lane l.val).lossDue = false) : exec (.lockLost l) s = .next s :=
  if_neg (by rcases h with h | h <;> simp [h])

/-! ## The statement -/

/-- Settles O36, condition by condition: STATE_REQ by what the write asks for (`Lane.ask`), STATE_TRANSITION by the last
codeword of a transmitter that goes QUIET (`State.goodbye`), SIG_LOST by `State.laneSigLost_eq`. -/
theorem laneStatesFollowRequests : Obligations.LaneStatesFollowRequests := by
  intro s l k ln live code auto c arrives
  have harrives : ∀ z w, arrives z w = z.laneArrive k w := fun z w => (z.arrive_eq k w).symm
  refine ⟨s.boundary_lane k, fun b hb => ?_, fun w hreq hl ht => ?_, execStateTransition_of_idle, fun hl ht => ?_,
    fun hr hl => ?_, execLockLost_of_due, execLockLost_of_not⟩
  · intro z z₁ w same
    have hexec := execStateReq_of_ok hb
    refine ⟨fun h => ?_, fun h ht => ?_, fun h ht hw => ?_, fun h ht hw => ?_⟩
    · exact hexec.trans (congrArg _ (if_pos h))
    all_goals refine hexec.trans (congrArg _ ((if_neg h).trans (congrArg _ ?_)))
    · exact Lane.ask_of_transition ht w
    · exact Lane.ask_of_inForce ht hw
    · exact Lane.ask_of_ne ht hw
  · intro begins goodbye
    have hexec := execStateTransition_of_req hreq hl ht
    have hsays := saysGoodbye_iff k ln.st w
    refine ⟨fun h => ?_, fun h hg => ?_, fun h hg => ?_⟩
    · exact hexec.trans (congrArg _ (congrArg _ (if_neg fun e => h (hsays.1 e))))
    all_goals refine hexec.trans (congrArg _ (congrArg _ ((if_pos (hsays.2 h)).trans ?_)))
    · exact if_pos hg
    · exact if_neg (Bool.eq_false_iff.1 hg)
  · rw [harrives]
    exact execLaneStateComplete_of_transition hl ht
  · have hdue : s.laneQuietDue k = true ↔ auto := s.laneQuietDue_iff k
    refine ⟨execSignalDetect_of_active hr hl, fun hq ha => ?_, fun hq ha => ?_, ?_⟩
    · exact (execSignalDetect_of_quiet hr hl hq).trans (congrArg _ (congrArg _ (if_pos (hdue.2 ha))))
    · exact (execSignalDetect_of_quiet hr hl hq).trans (congrArg _ (congrArg _ (if_neg fun e => ha (hdue.1 e))))
    · intro matters
      have hmatters : s.signalMatters k = true ↔ matters := s.laneMatters_iff k
      refine ⟨fun h => execSigLost_of_not fun e => h (hmatters.1 e), fun h => ?_⟩
      intro h₁ said
      have hsaid : s.noticed k = true ↔ said := s.noticed_iff k
      rw [execSigLost_of_matters hr hl (hmatters.2 h), State.laneSigLost_eq]
      refine ⟨fun hs ha => ?_, fun hn => ?_⟩
      · rw [if_pos (Bool.and_eq_true_iff.2 ⟨hsaid.2 hs, hdue.2 ha⟩), harrives]
      · rw [if_neg fun e => hn ⟨hsaid.1 (Bool.and_eq_true_iff.1 e).1, hdue.1 (Bool.and_eq_true_iff.1 e).2⟩]

end Sys2Proof.Machine

/-!
Control of the Assembly ports and their grants (04 R104, R106, R108, Table ASM-8).
-/
namespace Sys2Proof.Machine

open Sys2Proof.Safety

/-! ## A write of ASM_CTRL (Table ASM-8, R108) -/

/-- A port turned OFF: its buffers go back, its panel, time lock, grants, open and queued packets are gone. -/
def State.portOff (z : State) (p : Nat) : State :=
  let y := (z.returnPortBuffers p).clearPanel p
  (y.setPort p { y.port p with
    timeLock := false, lockStreak := 0, grants := [], rangeBells := none, rangeAns := none, attempt := none, retry := 0,
    contSkip := 0, rxOpen := [none, none, none, none], complete := [], lookup := [], tag := [] }).portState p .off

/-- REJOIN acts on a port in SYNC, RANGING or JOINED. -/
def rejoins (st : PortSt) : Prop := st = .sync ∨ st = .ranging ∨ st = .joined

section
variable (z : State) (p : Fin 2) (v : Word)

/-- What the write makes of the state with ASM_CTRL stored. -/
theorem State.asmCtrlWrite_disable (h0 : v.getLsbD 0 = false) :
    let y := z.store (Reg.asmCtrl p.val) v
    z.asmCtrlWrite p.val v = if (y.port p.val).st = .off then y else y.portOff p.val := by
  unfold State.asmCtrlWrite
  simp only [h0, Bool.not_false, if_true]
  rfl

theorem State.asmCtrlWrite_enable (h0 : v.getLsbD 0 = true) :
    let y := z.store (Reg.asmCtrl p.val) v
    let st := (y.port p.val).st
    let on := if st = .off then y.portState p.val .listen else y
    let x := if v.getLsbD 30 && (st == .sync || st == .ranging || st == .joined) then
      (on.clearPanel p.val).rangeOrSync p.val else on
    z.asmCtrlWrite p.val v = if v.getLsbD 31 && (x.port p.val).st == .joined then
      x.setPort p.val { x.port p.val with leaving := true } else x := by
  unfold State.asmCtrlWrite
  simp only [h0, Bool.not_true, Bool.false_eq_true, if_false]

theorem State.asmCtrlWrite_listen (h0 : v.getLsbD 0 = true) (hst : (z.port p.val).st = .off) :
    z.asmCtrlWrite p.val v = (z.store (Reg.asmCtrl p.val) v).portState p.val .listen := by
  rw [State.asmCtrlWrite_enable z p v h0]
  simp [State.port_store, hst, State.port_portState]

theorem State.asmCtrlWrite_rejoin (h0 : v.getLsbD 0 = true) (h30 : v.getLsbD 30 = true)
    (hst : rejoins (z.port p.val).st) :
    z.asmCtrlWrite p.val v = ((z.store (Reg.asmCtrl p.val) v).clearPanel p.val).rangeOrSync p.val := by
  have hoff : (z.port p.val).st ≠ .off := by
    rcases hst with h | h | h <;> rw [h] <;> exact nofun
  have hin : ((z.port p.val).st == .sync || (z.port p.val).st == .ranging || (z.port p.val).st == .joined) = true := by
    rcases hst with h | h | h <;> rw [h] <;> rfl
  rw [State.asmCtrlWrite_enable z p v h0]
  simp only [State.port_store, hoff, if_false, h30, hin, Bool.true_and, if_true]
  exact if_neg fun e => State.rangeOrSync_st _ p (beq_iff_eq.1 (Bool.and_eq_true_iff.1 e).2)

/-- EN stands, REJOIN does not act: LEAVE alone is left. -/
theorem State.asmCtrlWrite_stay (h0 : v.getLsbD 0 = true) (hst : (z.port p.val).st ≠ .off)
    (h30 : v.getLsbD 30 = false ∨ (z.port p.val).st = .listen) :
    let y := z.store (Reg.asmCtrl p.val) v
    z.asmCtrlWrite p.val v = if v.getLsbD 31 && (z.port p.val).st == .joined then
      y.setPort p.val { y.port p.val with leaving := true } else y := by
  have hno : (v.getLsbD 30 && ((z.port p.val).st == .sync || (z.port p.val).st == .ranging
      || (z.port p.val).st == .joined)) = false := by
    rcases h30 with h | h
    · rw [h, Bool.false_and]
    · rw [h]
      exact Bool.and_false _
  rw [State.asmCtrlWrite_enable z p v h0]
  simp only [State.port_store, hst, if_false, hno, Bool.false_eq_true]

end

theorem State.accepted_port (s : State) (off : Nat) (b : BusWrite) (p : Nat) : (s.accepted off b).port p = s.port p := by
  rw [s.accepted_frame off b]
  rfl

/-- The three commands of ASM_CTRL are one write. -/
theorem exec_asmCtrl {s : State} {p : Fin 2} {b : BusWrite} (hb : s.busOk (Reg.asmCtrl p.val) b = true) {c : Instr}
    (hc : c = .asmLeave p b ∨ c = .rejoin p b ∨ c = .portEnWrite p b) :
    exec c s = .next ((s.accepted (Reg.asmCtrl p.val) b).asmCtrlWrite p.val b.value) := by
  have h : (.next (s.busWrite (Reg.asmCtrl p.val) b fun s v => s.asmCtrlWrite p.val v) : Out)
      = .next ((s.accepted (Reg.asmCtrl p.val) b).asmCtrlWrite p.val b.value) := congrArg _ (State.busWrite_ok hb)
  rcases hc with rfl | rfl | rfl <;> exact h

/-! ## Grants (R104, R106, R108) -/

/-- The port may send: it and its lanes are live, lane 0 in codeword lock, the upstream lane ACTIVE and not in PRBS. -/
structure MaySend (s : State) (p : Nat) : Prop where
  port : s.live p = true
  lane : s.live (laneBlock (upLane p)) = true
  lock : (s.lane (portLane p)).cwLock = true
  up : (s.lane (upLane p)).st = .active
  data : (s.lane (upLane p)).genOn = false

/-- A ranging grant, for a port in RANGING. -/
abbrev rangingGrant (q : Port) (g : Grant) : Prop := q.st = .ranging ∧ g.panel = 0xFE

/-- The clock reading of a grant's TXEN instant. -/
def State.grantStart (s : State) (p : Nat) (g : Grant) : Int :=
  let eqd := if rangingGrant (s.port p) g then 0 else (s.reg (Reg.asmEqd p)).toNat
  (s.port p).bellArrive + ((uiUnits (eqd + 64 * g.start) : Nat) : Int)

/-- The grant is unused, of at least one codeword, and its instant has come. -/
def State.grantOpen (s : State) (p : Nat) (g : Grant) : Prop :=
  g.used = false ∧ g.ncw ≠ 0 ∧ s.grantStart p g ≤ (s.asm.wall : Int)

/-- What the port makes of a grant it holds, used or not. -/
def State.grantTaken (s : State) (p n : Nat) (g : Grant) : State :=
  let q := s.port p
  let s₁ := s.useGrant p n
  if rangingGrant q g then s₁.rangingSlot p g
  else if q.st = .joined ∧ g.panel = 0xFF ∧ g.ncw = 1 then s₁.contentionSlot p (s.grantStart p g)
  else if q.st = .joined ∧ q.panel = some g.panel then
    if s₁.grantTooSoon p (s.grantStart p g) then s₁.asmCount p 18
    else s₁.ownSlot p (s.grantStart p g) (burstLength g.ncw)
  else s

/-- A port that may send answers a ranging, or else looks at the grant. -/
theorem execUpstreamBurst_of_maySend {s : State} {p : Fin 2} (n : Fin 64) (h : MaySend s p.val) :
    exec (.upstreamBurst p n) s =
      if (s.port p.val).st == .ranging && (s.port p.val).rangeAns.isSome then .next (s.rangingBurst p.val)
      else match (s.port p.val).grants[n.val]? with
      | none => .next s
      | some g =>
        if g.used || g.ncw == 0 || (s.asm.wall : Int) < s.grantStart p.val g then .next s
        else .next (s.grantTaken p.val n.val g) := by
  have hguard : (!s.live p.val || !s.live (laneBlock (upLane p.val)) || !(s.lane (portLane p.val)).cwLock
      || (s.lane (upLane p.val)).st != .active || (s.lane (upLane p.val)).genOn) = false := by
    simp [h.port, h.lane, h.lock, h.up, h.data]
  change execUpstreamBurst p n s = _
  unfold execUpstreamBurst State.grantTaken
  dsimp only
  rw [hguard, if_neg Bool.false_ne_true]
  refine ite_congr rfl (fun _ => rfl) fun _ => ?_
  cases (s.port p.val).grants[n.val]? with
  | none => rfl
  | some g =>
    refine ite_congr rfl (fun _ => rfl) fun _ => ?_
    simp only [apply_ite (Host.Outcome.next (φ := Fault) (ρ := Refusal))]
    rfl

theorem execUpstreamBurst_of_answer {s : State} {p : Fin 2} (n : Fin 64) (h : MaySend s p.val)
    (ha : (s.port p.val).st = .ranging ∧ (s.port p.val).rangeAns.isSome = true) :
    exec (.upstreamBurst p n) s = .next (s.rangingBurst p.val) :=
  (execUpstreamBurst_of_maySend n h).trans (if_pos (by simp [ha]))

theorem execUpstreamBurst_of_grant {s : State} {p : Fin 2} {n : Fin 64} {g : Grant} (h : MaySend s p.val)
    (ha : ¬ ((s.port p.val).st = .ranging ∧ (s.port p.val).rangeAns.isSome = true))
    (hg : (s.port p.val).grants[n.val]? = some g) :
    (¬ s.grantOpen p.val g → exec (.upstreamBurst p n) s = .next s)
      ∧ (s.grantOpen p.val g → exec (.upstreamBurst p n) s = .next (s.grantTaken p.val n.val g)) := by
  have hshut : (g.used || g.ncw == 0 || decide ((s.asm.wall : Int) < s.grantStart p.val g)) = true
      ↔ ¬ s.grantOpen p.val g := by
    unfold State.grantOpen
    simp only [Bool.or_eq_true, beq_iff_eq, decide_eq_true_eq]
    cases g.used with
    | true => simp
    | false =>
      simp
      omega
  have hexec := (execUpstreamBurst_of_maySend n h).trans (if_neg (by simpa using ha))
  rw [hg] at hexec
  exact ⟨fun hc => hexec.trans (if_pos (hshut.2 hc)), fun ho => hexec.trans (if_neg fun e => hshut.1 e ho)⟩

section
variable {s : State} {p n : Nat} {g : Grant}

theorem State.grantTaken_ranging (h : rangingGrant (s.port p) g) :
    s.grantTaken p n g = (s.useGrant p n).rangingSlot p g :=
  if_pos h

theorem not_rangingGrant {q : Port} (h : q.st ≠ .ranging) : ¬ rangingGrant q g := fun e => h e.1

theorem State.grantTaken_contention (hj : (s.port p).st = .joined) (hp : g.panel = 0xFF) (hn : g.ncw = 1) :
    s.grantTaken p n g = (s.useGrant p n).contentionSlot p (s.grantStart p g) :=
  (if_neg (not_rangingGrant (by rw [hj]; exact nofun))).trans (if_pos ⟨hj, hp, hn⟩)

theorem State.grantTaken_own (hj : (s.port p).st = .joined) (hp : g.panel ≠ 0xFF) (hq : (s.port p).panel = some g.panel) :
    s.grantTaken p n g = if (s.useGrant p n).grantTooSoon p (s.grantStart p g) then (s.useGrant p n).asmCount p 18
      else (s.useGrant p n).ownSlot p (s.grantStart p g) (burstLength g.ncw) :=
  (if_neg (not_rangingGrant (by rw [hj]; exact nofun))).trans
    ((if_neg fun e => hp e.2.1).trans (if_pos ⟨hj, hq⟩))

theorem State.grantTaken_other (hr : (s.port p).st ≠ .ranging) (hj : (s.port p).st ≠ .joined) :
    s.grantTaken p n g = s :=
  (if_neg (not_rangingGrant hr)).trans ((if_neg fun e => hj e.1).trans (if_neg fun e => hj e.1))

end

/-! ## The statement -/

/-- Settles O40: a write of ASM_CTRL by EN and the port's state, a grant by what the port makes of it
(`State.grantTaken`). -/
theorem assemblyPortControl : Obligations.AssemblyPortControl := by
  refine ⟨fun s p b hb c hc => ?_, fun s p b hb => congrArg _ (State.busWrite_ok hb),
    fun s b hb => congrArg _ (State.busRead_ok hb), fun s p n hp hl hk hu hd => ?_⟩
  · intro s₁ st s₂
    let z := s.accepted (Reg.asmCtrl p.val) b
    have hport : z.port p.val = s.port p.val := s.accepted_port _ b _
    have hstored : s₁.port p.val = s.port p.val := (z.port_store p b.value).trans hport
    rw [exec_asmCtrl hb hc]
    refine ⟨fun h0 hst => congrArg _ ?_, fun h0 hst => congrArg _ ?_, fun h0 hst => congrArg _ ?_,
      fun h0 h30 hst => congrArg _ ?_, fun h0 h30 h31 hst => congrArg _ ?_, fun h0 h30 h31 hoff hst => congrArg _ ?_,
      fun h0 h30 h31 hoff => congrArg _ ?_⟩
    · exact (z.asmCtrlWrite_disable p b.value h0).trans (if_pos (hstored ▸ hst))
    · exact (z.asmCtrlWrite_disable p b.value h0).trans (if_neg (hstored ▸ hst))
    · exact z.asmCtrlWrite_listen p b.value h0 (hport ▸ hst)
    · exact z.asmCtrlWrite_rejoin p b.value h0 h30 (hport ▸ hst)
    · refine (z.asmCtrlWrite_stay p b.value h0 (hport ▸ fun e => ?_) (.inl h30)).trans (if_pos ?_)
      · exact nomatch hst.symm.trans e
      · rw [h31, hport]
        exact beq_iff_eq.2 hst
    · refine (z.asmCtrlWrite_stay p b.value h0 (hport ▸ hoff) (.inl h30)).trans (if_neg ?_)
      rw [hport]
      exact fun e => hst (beq_iff_eq.1 (Bool.and_eq_true_iff.1 e).2)
    · refine (z.asmCtrlWrite_stay p b.value h0 (hport ▸ hoff) (hport ▸ h30)).trans (if_neg ?_)
      rw [h31, Bool.false_and]
      exact Bool.false_ne_true
  · intro q answers
    have hmay : MaySend s p.val := ⟨hp, hl, hk, hu, hd⟩
    refine ⟨execUpstreamBurst_of_answer n hmay, fun g ha hg => ?_⟩
    intro ranging start open_ s₁
    obtain ⟨hshut, htaken⟩ := execUpstreamBurst_of_grant hmay ha hg
    refine ⟨hshut, fun ho hr => (htaken ho).trans (congrArg _ (State.grantTaken_ranging hr)),
      fun ho hj hpan hn => (htaken ho).trans (congrArg _ (State.grantTaken_contention hj hpan hn)),
      fun ho hj hpan hq => ?_, fun hr hj => ?_⟩
    · have hown := (htaken ho).trans (congrArg _ (State.grantTaken_own hj hpan hq))
      exact ⟨fun hs => hown.trans (congrArg _ (if_pos hs)),
        fun hs => hown.trans (congrArg _ (if_neg (Bool.eq_false_iff.1 hs)))⟩
    · by_cases ho : s.grantOpen p.val g
      · exact (htaken ho).trans (congrArg _ (State.grantTaken_other hr hj))
      · exact hshut ho

end Sys2Proof.Machine

/-!
Codewords received and sent, the hunt, and the line tests of chapter 03 (R54 to R65, R69, R76 to R78).
-/
namespace Sys2Proof.Machine

/-! ## Reception (R55, R60, R61, R64, R65) -/

/-- The line bits of a received codeword as far as the code corrects them (R60). -/
def corrected (dec : Option (List Nat × Nat)) (line : List Bool) : List Bool :=
  match dec with
  | some d => (d.1.map (unpackBits 10)).flatten
  | none => line

/-- The counters and flags of a codeword with its correction: wrong symbols, or an uncorrectable codeword (R60). -/
def State.countCorrection (s : State) (k : Nat) (dec : Option (List Nat × Nat)) : State :=
  match dec with
  | some (_, 0) => s
  | some (_, wrong) => (s.bump (Reg.laneCntCorr k)).bump (Reg.laneCntSym k) wrong
  | none => ((s.bump (Reg.laneCntUncorr k)).setFlag (Reg.laneStatus k) 10).event 65

/-- A codeword's effect from its line bits, its windows, its correction and the bits as far as they are corrected. -/
def State.codewordTaken (s : State) (k : Nat) (line : List Bool × Nat) (w : Nat × Nat × Nat × Option Nat)
    (dec : Option (List Nat × Nat)) (good : List Bool) : State × List Delivered :=
  let ln := s.lane k
  let passed := w.2.2.2.getD 80
  let rd := readBlocks 0 ln.scr.toNat (chunks 66 80 good) dec.isNone
  let blocks := rd.1.take passed
  let s₁ := ((s.setLane k { s.laneTook k 5440 line.2 ln with
      scr := BitVec.ofNat 58 rd.2
      winCount := w.1, winBad := w.2.1, lossDue := w.2.2.2.isSome
      noticeAt := if blocks.any isNotice then some s.now else ln.noticeAt }).bump (Reg.laneCntCw k)).bump
        (Reg.laneCntHdrErr k) (w.2.2.1 + (((chunks 66 80 good).take passed).filter headerInvalid).length)
  (s₁.countCorrection k dec, delivered 0 blocks)

/-- A codeword on a lane with no loss due. -/
theorem State.laneCodeword_eq {s : State} {k : Nat} {levels : List (BitVec 2)} (hd : (s.lane k).lossDue = false)
    {line : List Bool × Nat} {w : Nat × Nat × Nat × Option Nat} {dec : Option (List Nat × Nat)}
    (hline : s.laneBits k levels = line)
    (hw : windowRun (s.lane k).winCount (s.lane k).winBad ((chunks 66 80 line.1).map headerInvalid) 0 = w)
    (hdec : rsDecode ((chunks 10 544 line.1).map packBits) = dec) :
    s.laneCodeword k levels = s.codewordTaken k line w dec (corrected dec line.1) := by
  unfold State.laneCodeword State.codewordTaken State.countCorrection corrected
  simp only [hline, hw, hdec, hd, Bool.false_or]
  obtain ⟨_, _, _, lost⟩ := w
  cases dec <;> cases lost <;> rfl

theorem execCodewordReceived_of_locked {s : State} {l : Fin 74} {levels : List (BitVec 2)}
    (hr : s.laneReceiving l.val = true) (hc : (s.lane l.val).cwLock = true) (hd : (s.lane l.val).lossDue = false)
    (hn : levels.length = codewordLevels l.val) :
    let r := s.laneCodeword l.val levels
    exec (.codewordReceived l levels) s = .next (r.1.takeBlocks l.val r.2) :=
  if_pos (by simp [hr, hc, hd, hn])

/-- The lane after a step of the hunt, noting a QUIET_NOTICE among the blocks confirmed (R66). -/
def State.hunted (s : State) (k n pre : Nat) (r : Lane × List Block) : Lane :=
  let x := s.laneTook k n pre r.1
  if r.2.any isNotice then { x with noticeAt := some s.now } else x

theorem execAlignmentHunt_of_unlocked {s : State} {l : Fin 74} {levels : List (BitVec 2)}
    (hr : s.laneReceiving l.val = true) (hk : (s.lane l.val).cdrLock = true) (hc : (s.lane l.val).cwLock = false)
    (hn : levels.length = 2 * codewordLevels l.val) :
    let k := l.val
    let r := huntStep k (s.lane k) (s.laneBits k levels).1
    let m := huntTook (s.lane k) r.1.cwLock
    let pre := (s.laneBits k (levels.take (if lanePam4 k then m / 2 else m))).2
    let s₁ := (s.setLane k (s.hunted k m pre r)).bump (Reg.laneCntHdrErr k) (r.2.filter (·.bad)).length
    exec (.alignmentHunt l levels) s = .next ((s₁.lockFollow k false).takeBlocks k
      (delivered 5440 (r.2.take 80) ++ delivered 0 (r.2.drop 80))) := by
  intro k r m pre s₁
  have hhunt : s.laneHunt k levels = (s₁, delivered 5440 (r.2.take 80) ++ delivered 0 (r.2.drop 80)) :=
    if_pos (by simp [k, hr, hk, hc])
  have hexec : exec (.alignmentHunt l levels) s =
      .next (((s.laneHunt k levels).1.lockFollow k false).takeBlocks k (s.laneHunt k levels).2) :=
    if_pos (by simp [hr, hk, hc, hn])
  rw [hexec, hhunt]

/-! ## Transmission (R62, R69) -/

theorem State.laneFirWrite_eq (z : State) {k : Nat} (ht : laneTx k = true) (v : Word) :
    z.laneFirWrite k v = if 64 < firSum v.toNat then z.setFlag (Reg.laneStatus k) 11
      else z.setLane k { z.lane k with firPend := some (v &&& 0xFFFFFFE0) } :=
  if_pos ht

/-- What an ACTIVE transmitter sends from its boundary on: PRBS bits, on a serial lane blocks of its link. -/
def State.nextCodeword (c : State) (k : Nat) : State :=
  if (c.lane k).genOn then c.prbsSend k
  else if laneBurst k then c
  else
    let nx := (c.lane k).nextBlocks c.latency 80
    (c.setLane k nx.2).laneSend k (fillBlocks 80 nx.1)

section
variable {c : State} {k : Nat}

theorem State.nextCodeword_prbs (hg : (c.lane k).genOn = true) : c.nextCodeword k = c.prbsSend k :=
  if_pos hg

theorem State.nextCodeword_burst (hg : (c.lane k).genOn = false) (hb : laneBurst k = true) : c.nextCodeword k = c := by
  rw [State.nextCodeword, hg, if_neg Bool.false_ne_true, if_pos hb]

theorem State.nextCodeword_link (hg : (c.lane k).genOn = false) (hb : laneBurst k = false) :
    let nx := (c.lane k).nextBlocks c.latency 80
    c.nextCodeword k = (c.setLane k nx.2).laneSend k (fillBlocks 80 nx.1) := by
  intro nx
  rw [State.nextCodeword, hg, if_neg Bool.false_ne_true, hb, if_neg Bool.false_ne_true]

end

theorem execTxCodewordBoundary_of_live {s : State} {l : Fin 74} (ht : laneTx l.val = true)
    (hl : s.live (laneBlock l.val) = true) :
    let c := s.laneBoundary l.val
    exec (.txCodewordBoundary l) s =
      .next (if (c.lane l.val).st != .active then c else c.nextCodeword l.val) := by
  intro c
  refine (if_pos (by simp [ht, hl])).trans ?_
  unfold State.nextCodeword
  simp only [apply_ite (Host.Outcome.next (φ := Fault) (ρ := Refusal))]
  rfl

/-! ## PRBS checking (R76) -/

theorem execChkLock_of_checking {s : State} {l : Fin 74} (levels : List (BitVec 2)) (ht : laneTx l.val = false)
    (hl : s.live (laneBlock l.val) = true) (ha : (s.lane l.val).st = .active)
    (hp : s.flag (Reg.lanePrbs l.val) 6 = true) :
    let k := l.val
    let line := s.laneBits k levels
    let r := chkRun (s.fld (Reg.lanePrbs k) 5 4) (s.lane k) line.1
    exec (.chkLock l levels) s = .next (((s.setLane k (s.laneTook k line.1.length line.2 r.1.unlock)).bump
      (Reg.lanePrbsErr k) r.2).lockFollow k (s.lane k).cwLock) :=
  if_pos (by simp [ht, hl, ha, hp])

/-! ## Injection (R77, R78, Table LNE-8) -/

theorem bits_1_0 (n : Nat) : bits n 1 0 = n % 4 := rfl

theorem bits_13_8 (n : Nat) : bits n 13 8 = n / 256 % 64 := by
  rw [bits, Nat.shiftRight_eq_div_pow]
  rfl

theorem isLatchReg_laneInject (l : Fin 74) : isLatchReg (Reg.laneInject l.val) = false := by
  revert l
  decide

theorem State.laneInjectWrite_eq (z : State) (l : Fin 74) (v : Word) :
    let y := z.store (Reg.laneInject l.val) v
    z.laneInjectWrite l.val v = if v.getLsbD 31 && (z.lane l.val).inj.isNone then
      y.setLane l.val { z.lane l.val with inj := some ⟨v.toNat % 4, v.toNat / 256 % 64⟩ } else y := by
  intro y
  have hlane : y.lane l.val = z.lane l.val :=
    State.lane_congr (congrArg State.lanes (z.store_eq _ v (isLatchReg_laneInject l))) _
  unfold State.laneInjectWrite
  rw [← bits_1_0, ← bits_13_8, ← hlane]

theorem execInjection_of_none {s : State} {l : Fin 74} (h : (s.lane l.val).inj = none) :
    exec (.injection l) s = .next s := by
  change execInjection l s = _
  unfold execInjection
  simp only [h]

section
variable {s : State} {l : Fin 74} {i : Injection} (hi : (s.lane l.val).inj = some i)
  (hl : s.live (laneBlock l.val) = true)
include hi hl

theorem execInjection_of_no_boundary (ha : s.injectAt l.val i = none) : exec (.injection l) s = .next s := by
  change execInjection l s = _
  unfold execInjection
  simp only [hi, hl, if_true, ha]

theorem execInjection_of_boundary {a : Nat} (ha : s.injectAt l.val i = some a) :
    let k := l.val
    let prbs := if laneTx k then (s.lane k).genOn else s.flag (Reg.lanePrbs k) 6
    exec (.injection l) s = .next (
      if laneBurst k && (s.lane k).lineLength k ≤ a then s
      else if prbs && 2 ≤ i.kind then (s.setLane k { s.lane k with inj := none }).setFlag (Reg.laneStatus k) 12
      else s.inject k i a) := by
  intro k prbs
  change execInjection l s = _
  unfold execInjection
  simp only [hi, hl, if_true, ha, apply_ite (Host.Outcome.next (φ := Fault) (ρ := Refusal))]
  rfl

end

/-! ## The statement -/

/-- Settles O37, instruction by instruction. -/
theorem codewordsAndLineTests : Obligations.CodewordsAndLineTests := by
  intro s l k ln n took
  refine ⟨fun levels hr hc hd hn => ?_, fun levels hr hk hc hn => ?_, fun b hb => ?_, fun ht hl => ?_,
    fun levels => execChkLock_of_checking levels, fun b hb => ?_, fun i hi hl => ?_, execInjection_of_none⟩
  · intro line w dec
    have hexec := execCodewordReceived_of_locked hr hc hd hn
    rw [State.laneCodeword_eq (line := line) (w := w) (dec := dec) hd rfl rfl rfl] at hexec
    clear_value dec
    obtain - | ⟨corr, _ | wrong⟩ := dec
    · exact hexec
    · exact hexec
    · exact hexec
  · intro r m x s₁
    rw [execAlignmentHunt_of_unlocked hr hk hc hn]
    rfl
  · intro z
    have hexec : exec (.laneTxfirWrite l b) s = .next (z.laneFirWrite k b.value) := congrArg _ (State.busWrite_ok hb)
    have hlane : z.lane k = ln := s.accepted_lane _ b k
    refine ⟨fun ht hle => ?_, fun ht hlt => ?_, fun ht => ?_⟩
    · rw [hexec, z.laneFirWrite_eq ht, if_neg (Nat.not_lt.2 hle), hlane]
    · rw [hexec, z.laneFirWrite_eq ht, if_pos hlt]
    · exact hexec.trans (congrArg _ (if_neg (Bool.eq_false_iff.1 ht)))
  · intro c x g sends
    have hexec := execTxCodewordBoundary_of_live ht hl
    have hactive : x.st = .active → exec (.txCodewordBoundary l) s = .next (c.nextCodeword k) := fun ha =>
      hexec.trans (congrArg _ (if_neg (by rw [show (c.lane k).st = _ from ha]; decide)))
    refine ⟨fun ha => hexec.trans (congrArg _ (if_pos (bne_iff_ne.2 ha))), fun ha hg => ?_, fun ha hg hbst => ?_,
      fun ha hg hbst => ?_⟩
    · exact (hactive ha).trans (congrArg _ (State.nextCodeword_prbs hg))
    · exact (hactive ha).trans (congrArg _ (State.nextCodeword_burst hg hbst))
    · exact (hactive ha).trans (congrArg _ (State.nextCodeword_link hg hbst))
  · intro z
    have hlane : (s.accepted (Reg.laneInject k) b).lane k = ln := s.accepted_lane _ b k
    have hexec : exec (.injectGo l b) s = .next ((s.accepted (Reg.laneInject k) b).laneInjectWrite k b.value) :=
      congrArg _ (State.busWrite_ok hb)
    rw [hexec, State.laneInjectWrite_eq _ l, hlane]
    refine ⟨fun h31 hno => ?_, fun h => ?_⟩
    · exact congrArg _ (if_pos (by rw [h31, hno]; rfl))
    · refine congrArg _ (if_neg ?_)
      rcases h with h | h
      · rw [h, Bool.false_and]
        exact Bool.false_ne_true
      · rw [Option.isNone_eq_false_iff.2 (Option.isSome_iff_ne_none.2 h), Bool.and_false]
        exact Bool.false_ne_true
  · intro prbs flips
    refine ⟨execInjection_of_no_boundary hi hl, fun a ha => ?_⟩
    intro out ignored sending
    have hexec := execInjection_of_boundary hi hl ha
    have hout : (laneBurst k && decide (ln.lineLength k ≤ a)) = true ↔ out := by simp [out]
    have hignored : (prbs && decide (2 ≤ i.kind)) = true ↔ ignored := by simp [ignored]
    have hsending : (laneTx k && decide (a < ln.lineLength k)) = true ↔ sending := by simp [sending]
    have hacts : ¬ out → ¬ ignored → exec (.injection l) s = .next (s.inject k i a) := fun ho hg =>
      hexec.trans (congrArg _ ((if_neg (hout.not.2 ho)).trans (if_neg (hignored.not.2 hg))))
    refine ⟨fun ho => hexec.trans (congrArg _ (if_pos (hout.2 ho))), fun ho hg => ?_, fun ho hg hs => ?_,
      fun ho hg hs => ?_⟩
    · exact hexec.trans (congrArg _ ((if_neg (hout.not.2 ho)).trans (if_pos (hignored.2 hg))))
    · exact (hacts ho hg).trans (congrArg _ (if_pos (hsending.2 hs)))
    · exact (hacts ho hg).trans (congrArg _ (if_neg (hsending.not.2 hs)))

end Sys2Proof.Machine

/-!
The receiving side of the Assembly link (04 R84, R87 to R93, R98 to R102, R105, R109): the packet checks, the stream filter, the tag
unit, losses and repairs, Detention and the timers of the ports.
-/
namespace Sys2Proof.Machine

/-! ## The checks of a complete packet (R84) -/

/-- A head that no good packet has: too short, of no type, or a message without a tag. -/
abbrev pktMalformed (h : BitVec 64) : Prop :=
  pktLen h < 4 ∨ pktType h = 0 ∨ 8 ≤ pktType h ∨ ((pktType h = 6 ∨ pktType h = 7) ∧ pktAuth h = false)

/-- What a port makes of a complete packet taken off: counted as it fails, or queued for its lookup. -/
def State.packetChecked (s : State) (p : Nat) (k : Packet) : State :=
  if pktMalformed k.head then s.asmCount p 3
  else if k.bad then s.asmCount p 5
  else if k.tail.toNat / 256 % 2 ^ 32 = pktCrc k.head k.data then
    s.setPort p { s.port p with lookup := (s.port p).lookup ++ [k] }
  else s.asmCount p 4

section
variable {s : State} {p : Fin 2} {lane : Fin 4} (hl : s.live p.val = true)
include hl

theorem execPacket_of_none (hk : takeLane lane.val (s.port p.val).complete = none) :
    exec (.packet p lane) s = .next s := by
  change execPacket p lane s = _
  simp only [execPacket, hl, hk, ite_self]

theorem execPacket_of_some {k : Packet} {rest : List Packet}
    (hk : takeLane lane.val (s.port p.val).complete = some (k, rest)) :
    exec (.packet p lane) s =
      .next ((s.setPort p.val { s.port p.val with complete := rest }).packetChecked p.val k) := by
  change execPacket p lane s = _
  simp only [execPacket, hl, hk, State.packetChecked, bits_39_8, Bool.not_true, Bool.false_eq_true, if_false,
    apply_ite (Host.Outcome.next (φ := Fault) (ρ := Refusal)), Bool.or_eq_true, Bool.and_eq_true, Bool.not_eq_true',
    decide_eq_true_eq, beq_iff_eq, or_assoc, ite_not]

end

/-! ## The sequence test (R88, R91) -/

/-- The test a packet meets: of a repair where it says RETX, else of its sequence number. -/
def State.packetTest (s : State) (p : Nat) (k : Packet) : State × SeqResult :=
  if pktRetx k.head then s.retxTest (pktStream k.head) (pktSeq k.head)
  else s.seqTest p (pktStream k.head) (pktSeq k.head)

theorem State.sequenced_eq (s : State) (p : Nat) (k : Packet) :
    s.sequenced p k = match (s.packetTest p k).2 with
      | .accept => ((s.packetTest p k).1.asmCount p 0).deliver k (bits (s.ctxSeen (pktStream k.head)) 51 32)
      | .duplicate => (s.packetTest p k).1.asmCount p 6
      | .stale => (s.packetTest p k).1.asmCount p 7 := rfl

/-! ## The stream filter (R87) -/

/-- The Detention list stops a packet: its stream, or the sender of its message. -/
abbrev State.stops (s : State) (k : Packet) : Prop :=
  s.detained 1 (pktStream k.head) = true
    ∨ (pktType k.head = 6 ∨ pktType k.head = 7) ∧ s.detained 0 (msgSender k) = true

/-- A packet of no message type on an ordinary stream, by the stream's entry. -/
def State.contextFiltered (s : State) (p : Nat) (k : Packet) : State :=
  let e := s.ctxSeen (pktStream k.head)
  if e.testBit 63 = false then s.asmCount p 1
  else if bits e 59 56 ≠ pktType k.head then s.asmCount p 2
  else if tagRequired (pktType k.head) e then if pktAuth k.head then s.tagQueue p k else s.asmCount p 3
  else s.sequenced p k

/-- What the filter makes of a packet taken off. -/
def State.filtered (s : State) (p : Nat) (k : Packet) : State :=
  if s.stops k then s.asmCount p 13
  else if 0xFFF00 ≤ pktStream k.head then s.reservedStream p k
  else if pktType k.head = 6 ∨ pktType k.head = 7 then s.asmCount p 3
  else s.contextFiltered p k

theorem tagRequired_iff (ty e : Nat) :
    tagRequired ty e = true ↔ (ty = 3 ∨ ty = 4 ∨ ty = 5) ∧ e.testBit 62 = true := by
  simp [tagRequired, or_assoc]

section
variable {s : State} {p : Fin 2} {lane : Fin 4} (hl : s.live p.val = true)
include hl

theorem execFilterLookup_of_none (hk : takeLane lane.val (s.port p.val).lookup = none) :
    exec (.filterLookup p lane) s = .next s := by
  change execFilterLookup p lane s = _
  simp only [execFilterLookup, hl, hk, ite_self]

theorem execFilterLookup_of_some {k : Packet} {rest : List Packet}
    (hk : takeLane lane.val (s.port p.val).lookup = some (k, rest)) :
    exec (.filterLookup p lane) s =
      .next ((s.setPort p.val { s.port p.val with lookup := rest }).filtered p.val k) := by
  change execFilterLookup p lane s = _
  simp only [execFilterLookup, hl, hk, State.filtered, State.contextFiltered, Bool.not_true, Bool.false_eq_true, if_false,
    apply_ite (Host.Outcome.next (φ := Fault) (ρ := Refusal)), Bool.or_eq_true, Bool.and_eq_true, Bool.not_eq_true',
    beq_iff_eq]

end

section
variable {s : State} {p : Nat} {k : Packet}

/-- A packet that the entry alone decides on. -/
abbrev State.ordinary (s : State) (k : Packet) : Prop :=
  ¬ s.stops k ∧ pktStream k.head < 0xFFF00 ∧ pktType k.head ≠ 6 ∧ pktType k.head ≠ 7

theorem State.filtered_of_ordinary (h : s.ordinary k) : s.filtered p k = s.contextFiltered p k := by
  obtain ⟨hstop, hst, h6, h7⟩ := h
  unfold State.filtered
  rw [if_neg hstop, if_neg (Nat.not_le.2 hst), if_neg (not_or.2 ⟨h6, h7⟩)]

variable (hv : (s.ctxSeen (pktStream k.head)).testBit 63 = true)
  (hty : bits (s.ctxSeen (pktStream k.head)) 59 56 = pktType k.head)
include hv hty

theorem State.contextFiltered_of_tagged (ht : tagRequired (pktType k.head) (s.ctxSeen (pktStream k.head)) = true) :
    s.contextFiltered p k = if pktAuth k.head then s.tagQueue p k else s.asmCount p 3 := by
  unfold State.contextFiltered
  dsimp only
  rw [if_neg (ne_false_of_eq_true hv), if_neg (not_not.2 hty), if_pos ht]

theorem State.contextFiltered_of_untagged (ht : ¬ tagRequired (pktType k.head) (s.ctxSeen (pktStream k.head)) = true) :
    s.contextFiltered p k = s.sequenced p k := by
  unfold State.contextFiltered
  dsimp only
  rw [if_neg (ne_false_of_eq_true hv), if_neg (not_not.2 hty), if_neg ht]

end

/-! ## The tag unit (R93, R98) -/

/-- One of the four server IDs (R98). -/
abbrev State.serverId (s : State) (id : Nat) : Prop :=
  ∃ q < 2, s.fld (Reg.asmServerId q) 15 0 = id ∨ s.fld (Reg.asmServerId q) 31 16 = id

theorem State.authFail_eq (s : State) (p : Nat) (k : Packet) :
    let z := s.asmCount p 10
    s.authFail p k = if (pktType k.head = 6 ∨ pktType k.head = 7) ∧ ¬ z.serverId (msgSender k) then
      z.detain (msgSender k) else z := by
  simp [State.authFail]

section
variable {s : State} {p : Fin 2} (hl : s.live p.val = true)
include hl

theorem execTagCheck_of_nil (h : (s.port p.val).tag = []) : exec (.tagCheck p) s = .next s := by
  change execTagCheck p s = _
  simp only [execTagCheck, hl, h, ite_self]

variable {k : Packet} {rest : List Packet} (h : (s.port p.val).tag = k :: rest)
include h

theorem execTagCheck_of_wrong (ht : (s.setPort p.val { s.port p.val with tag := rest }).tagOk k = false) :
    exec (.tagCheck p) s = .next ((s.setPort p.val { s.port p.val with tag := rest }).authFail p.val k) := by
  change execTagCheck p s = _
  simp only [execTagCheck, hl, h, ht, Bool.not_true, Bool.not_false, Bool.false_eq_true, if_false, if_true]

theorem execTagCheck_of_right (ht : (s.setPort p.val { s.port p.val with tag := rest }).tagOk k = true) :
    let s₁ := s.setPort p.val { s.port p.val with tag := rest }
    exec (.tagCheck p) s = .next (if pktType k.head = 7 then s₁.bellMessage p.val k
      else if pktType k.head = 6 then s₁.controlMessage p.val k else s₁.sequenced p.val k) := by
  intro s₁
  change execTagCheck p s = _
  simp only [execTagCheck, hl, h, ht, Bool.not_true, Bool.false_eq_true, if_false]
  split
  · rw [if_pos ‹_›]
  · rw [if_neg (by omega), if_pos ‹_›]
  · rw [if_neg ‹_›, if_neg ‹_›]

end

/-! ## Losses, repairs and Detention (R89, R99, R105) -/

/-- The model drops an entry from a list by `!=`, the statements by `≠`. -/
theorem bne_eq_decide_ne {α : Type} [DecidableEq α] (a : α) : (· != a) = fun x => decide (x ≠ a) :=
  funext fun _ => decide_not.symm

theorem State.declareLoss_eq (s : State) (e : LossEntry) :
    let c := s.ctxSeen e.stream
    let s₁ := { s with asm := { s.asm with loss := s.asm.loss.filter (· ≠ e) } }
    let s₂ := (s₁.seqCtx e.stream (setBits c 30 24 (min 127 (bits c 30 24 + 1)))).asmCount e.port 8
    s.declareLoss e = (if c.testBit 60 then s₂.event 67 else s₂).lossRepair e := by
  unfold State.declareLoss
  rw [bne_eq_decide_ne e]
  rfl

/-- An entry of the repair list is due (R105): its deadline has come, or it has none and 10 ms have passed since its request. -/
def State.repairDue (s : State) (r : RepairEntry) : Prop :=
  (∃ t, r.deadline = some t ∧ t ≤ s.wallNs)
    ∨ (r.deadline = none ∧ ∃ t, r.requestedAt = some t ∧ t + 16000000 ≤ s.now)

section
variable {s : State} (hl : s.live 0 = true)
include hl

theorem execLossDeclared_of_some {e : LossEntry}
    (h : s.asm.loss.find? (fun e => e.at_ + s.lossHold ≤ s.now) = some e) :
    exec .lossDeclared s = .next (s.declareLoss e) := by
  change execLossDeclared s = _
  simp only [execLossDeclared, hl, h, Bool.not_true, Bool.false_eq_true, if_false]

theorem execLossDeclared_of_none (h : ∀ e ∈ s.asm.loss, s.now < e.at_ + s.lossHold) :
    exec .lossDeclared s = .next s := by
  have hnone : s.asm.loss.find? (fun e => e.at_ + s.lossHold ≤ s.now) = none :=
    List.find?_eq_none.2 fun e he => by simpa using h e he
  change execLossDeclared s = _
  simp only [execLossDeclared, hl, hnone, ite_self]

theorem execRepairExpiry_of_due {r : RepairEntry} {rest : List RepairEntry} (h : s.asm.repair = r :: rest)
    (hd : s.repairDue r) :
    exec .repairExpiry s = .next (({ s with asm := { s.asm with repair := s.asm.repair.filter (· ≠ r) } }.asmCount
      r.port 19).lossToOwner r.stream r.seq) := by
  change execRepairExpiry s = _
  rcases hd with ⟨t, hr, ht⟩ | ⟨hr, t, hq, ht⟩
  · simp [execRepairExpiry, hl, h, hr, ht, bne_eq_decide_ne r]
  · simp [execRepairExpiry, hl, h, hr, hq, ht, bne_eq_decide_ne r]

theorem execRepairExpiry_of_nil (h : s.asm.repair = []) : exec .repairExpiry s = .next s := by
  change execRepairExpiry s = _
  simp only [execRepairExpiry, hl, h, List.find?_nil, ite_self]

theorem execDetentionExpiry_eq (n : Fin 64) :
    exec (.detentionExpiry n) s = .next (if s.flag (Reg.asmDetKey n.val) 31 = true
      ∧ s.fld (Reg.asmDetRemain n.val) 15 0 = 0 then s.clrFlag (Reg.asmDetKey n.val) 31 else s) := by
  change execDetentionExpiry n s = _
  simp only [execDetentionExpiry, hl, Bool.true_and, Bool.and_eq_true, beq_iff_eq,
    apply_ite (Host.Outcome.next (φ := Fault) (ρ := Refusal))]

end

/-! ## The timers of the Bells and of a lost port (R100, R102, R109) -/

section
variable {s : State} {p : Fin 2} {t : Nat} (hl : s.live p.val = true)
include hl

theorem execBellTimeout_of_bell (h : (s.port p.val).bellAt = some t) :
    let s₁ := s.setPort p.val { s.port p.val with timeLock := false, lockStreak := 0 }
    exec (.bellTimeout p) s = .next (if t + 1600000 ≤ s.now then
      if (s.port p.val).st = .sync ∨ (s.port p.val).st = .ranging then s₁.portState p.val .listen else s₁
      else s) := by
  change execBellTimeout p s = _
  simp only [execBellTimeout, hl, h, Bool.true_and, decide_eq_true_eq, Bool.or_eq_true,
    apply_ite (Host.Outcome.next (φ := Fault) (ρ := Refusal))]

theorem execJoinedHoldExpiry_of_lost (h : (s.port p.val).lostAt = some t) :
    exec (.joinedHoldExpiry p) s = .next (if (s.port p.val).st = .joined ∧ t + 160000000 ≤ s.now then
      (s.clearPanel p.val).portState p.val .listen else s) := by
  change execJoinedHoldExpiry p s = _
  simp only [execJoinedHoldExpiry, hl, h, Bool.true_and, Bool.and_eq_true, beq_iff_eq, decide_eq_true_eq,
    apply_ite (Host.Outcome.next (φ := Fault) (ρ := Refusal))]

end

theorem execJoinedHoldExpiry_of_none {s : State} {p : Fin 2} (h : (s.port p.val).lostAt = none) :
    exec (.joinedHoldExpiry p) s = .next s := by
  change execJoinedHoldExpiry p s = _
  simp only [execJoinedHoldExpiry, h]

/-- The Bell source may switch (R102): it is quiet, and the other port is time locked, fresh and out of reset. -/
abbrev State.bellSwitches (s : State) (b u : Nat) : Prop :=
  b + 800000 ≤ s.now ∧ (s.port (1 - s.bellSource)).timeLock = true ∧ s.now ≤ u + 800000
    ∧ s.live (1 - s.bellSource) = true

theorem execBellSwitch_of_bells {s : State} {b u : Nat} (hb : (s.port s.bellSource).bellAt = some b)
    (hu : (s.port (1 - s.bellSource)).bellAt = some u) :
    exec .bellSwitch s = .next (if s.bellSwitches b u then
      { s with asm := { s.asm with switched := !s.asm.switched, returnCount := 0 } }.event 71 else s) := by
  change execBellSwitch s = _
  simp only [execBellSwitch, hb, hu, Bool.and_eq_true, decide_eq_true_eq, and_assoc,
    apply_ite (Host.Outcome.next (φ := Fault) (ρ := Refusal))]

/-! ## The statements -/

/-- Settles O38: what the checks (`State.packetChecked`) and the filter (`State.filtered`) make of the packet taken off. -/
theorem packetsAndTheFilter : Obligations.PacketsAndTheFilter := by
  intro s p lane hl
  refine ⟨fun k rest hk => ?_, execPacket_of_none hl, fun k rest hk => ?_, execFilterLookup_of_none hl⟩
  · intro s₁ ty malformed crcOk
    rw [execPacket_of_some hl hk]
    refine ⟨fun hm => congrArg _ (if_pos hm), fun hm hb => congrArg _ ((if_neg hm).trans (if_pos hb)),
      fun hm hb hc => ?_, fun hm hb hc => ?_⟩
    · exact congrArg _ ((if_neg hm).trans ((if_neg (Bool.eq_false_iff.1 hb)).trans (if_neg hc)))
    · exact congrArg _ ((if_neg hm).trans ((if_neg (Bool.eq_false_iff.1 hb)).trans (if_pos hc)))
  · intro s₁ st ty held e tagged ordinary test
    rw [execFilterLookup_of_some hl hk]
    have hctx : ordinary → s₁.filtered p.val k = s₁.contextFiltered p.val k := State.filtered_of_ordinary
    refine ⟨fun hh => congrArg _ (if_pos hh), fun hh hst => congrArg _ ((if_neg hh).trans (if_pos hst)),
      fun hh hst hm => ?_, fun ho hv => ?_, fun ho hv hty => ?_, fun ho hv hty ht => ?_, fun ho hv hty ht => ?_⟩
    · exact congrArg _ ((if_neg hh).trans ((if_neg (Nat.not_le.2 hst)).trans (if_pos hm)))
    · exact congrArg _ ((hctx ho).trans (if_pos hv))
    · exact congrArg _ ((hctx ho).trans ((if_neg (ne_false_of_eq_true hv)).trans (if_pos hty)))
    · have htag := (hctx ho).trans (State.contextFiltered_of_tagged hv hty ((tagRequired_iff ty e).2 ht))
      exact ⟨fun ha => congrArg _ (htag.trans (if_pos ha)),
        fun ha => congrArg _ (htag.trans (if_neg (Bool.eq_false_iff.1 ha)))⟩
    · have huntagged := State.contextFiltered_of_untagged (p := p.val) hv hty fun h => ht ((tagRequired_iff ty e).1 h)
      have hseq := ((hctx ho).trans huntagged).trans (s₁.sequenced_eq p.val k)
      refine ⟨fun hr => congrArg _ (hseq.trans ?_), fun hr => congrArg _ (hseq.trans ?_),
        fun hr => congrArg _ (hseq.trans ?_)⟩
      all_goals
        rw [show (s₁.packetTest p.val k).2 = _ from hr]
        rfl

/-- Settles O39, instruction by instruction. -/
theorem tagsLossesAndBells : Obligations.TagsLossesAndBells := by
  intro s p
  refine ⟨fun hl => ⟨fun k rest hk => ?_, execTagCheck_of_nil hl, fun t ht => ?_, fun t ht => ?_,
    execJoinedHoldExpiry_of_none⟩, fun hl => ⟨fun e he => ?_, execLossDeclared_of_none hl,
      fun r rest hr hd => execRepairExpiry_of_due hl hr hd, execRepairExpiry_of_nil hl, execDetentionExpiry_eq hl⟩,
    fun b u hb hu => ?_⟩
  · intro s₁ s₂ server
    have hwrong (ht : s₁.tagOk k = false) := (execTagCheck_of_wrong hl hk ht).trans (congrArg _ (s₁.authFail_eq p.val k))
    have hright (ht : s₁.tagOk k = true) := execTagCheck_of_right hl hk ht
    refine ⟨fun ht hm hs => (hwrong ht).trans (congrArg _ (if_pos ⟨hm, hs⟩)), fun ht hm => ?_,
      fun ht h7 => (hright ht).trans (congrArg _ (if_pos h7)), fun ht h6 => ?_, fun ht h6 h7 => ?_⟩
    · refine (hwrong ht).trans (congrArg _ (if_neg fun ⟨hmsg, hserver⟩ => ?_))
      exact hm.elim (fun hno => hmsg.elim hno.1 hno.2) hserver
    · exact (hright ht).trans (congrArg _ ((if_neg (by rw [h6]; decide)).trans (if_pos h6)))
    · exact (hright ht).trans (congrArg _ ((if_neg h7).trans (if_neg h6)))
  · intro s₁
    rw [execBellTimeout_of_bell hl ht]
    refine ⟨fun hd hst => congrArg _ ((if_pos hd).trans (if_pos hst)), fun hd hs hr => ?_,
      fun hd => congrArg _ (if_neg (Nat.not_le.2 hd))⟩
    exact congrArg _ ((if_pos hd).trans (if_neg (not_or.2 ⟨hs, hr⟩)))
  · rw [execJoinedHoldExpiry_of_lost hl ht]
    refine ⟨fun hst hd => congrArg _ (if_pos ⟨hst, hd⟩), fun h => congrArg _ (if_neg fun ⟨hst, hd⟩ => ?_)⟩
    exact h.elim (· hst) (Nat.not_lt.2 hd)
  · intro c s₁ s₂
    rw [execLossDeclared_of_some hl he, s.declareLoss_eq e]
    exact ⟨fun hc => congrArg (Host.Outcome.next <| State.lossRepair · e) (if_pos hc),
      fun hc => congrArg (Host.Outcome.next <| State.lossRepair · e) (if_neg (Bool.eq_false_iff.1 hc))⟩
  · rw [execBellSwitch_of_bells hb hu]
    refine ⟨fun hq hlock hf hlive => congrArg _ (if_pos ⟨hq, hlock, hf, hlive⟩),
      fun h => congrArg _ (if_neg fun ⟨hq, hlock, _, _⟩ => ?_)⟩
    exact h.elim (Nat.not_lt.2 hq) (Bool.eq_false_iff.1 · hlock)

end Sys2Proof.Machine

/-!
Slices in chapter 05 (R116, R119 to R125; 14 R322): the decoders, the start of a slice, its publication, the deadlines and the
base of the slice store.
-/
namespace Sys2Proof.Machine

/-! ## Decoders take slices (R119) -/

theorem State.decRefill_of_waiting {s : State} {d : Nat} {sl : Slice} {rest : List Slice}
    (hs : (s.decoder d).slice = none) (ha : s.dec.area = sl :: rest) :
    let t := s.setDecoder d { slice := some sl, phase := .gather }
    s.decRefill d = { t with dec := { t.dec with area := rest } } := by
  simp only [State.decRefill, hs, ha, Option.isSome_none, Bool.false_eq_true, if_false]

theorem State.decRefill_of_not_waiting {s : State} {d : Nat}
    (h : (s.decoder d).slice ≠ none ∨ s.dec.area = []) : s.decRefill d = s := by
  unfold State.decRefill
  rcases h with hs | ha
  · rw [if_pos (Option.isSome_iff_ne_none.2 hs)]
  · simp only [ha, ite_self]

theorem execDecoderAssign_eq {s : State} (d : Fin 4) (hl : s.live 5 = true) :
    exec (.decoderAssign d) s = .next (s.decRefill d.val) := if_pos hl

/-! ## The start of a complete slice (R119 to R122) -/

/-- The directory entry that a slice is tested against: that of its position, a fresh one where another index stands there. -/
def State.entryOf (s : State) (sl : Slice) : DirEntry :=
  let e := s.dirAt (slotKey sl.layer sl.col sl.row)
  if e.index = sl.index then e else { index := sl.index }

/-- The generation that a new slice goes to: not the newest (R122). -/
def DirEntry.target (e : DirEntry) : Nat := match e.newest with | some n => 1 - n | none => 0

/-- A slice of a frame is stale (R120): held already, not later than the older of two valid generations, or its target is the
generation that the rows sample. -/
abbrev DirEntry.stale (e : DirEntry) (f before frame : Nat) : Prop :=
  let held (g : Gen) : Prop := g.valid = true ∧ g.frame = frame
  let older := if frameLe e.gen0.frame e.gen1.frame then e.gen0.frame else e.gen1.frame
  held e.gen0 ∨ held e.gen1 ∨ ((e.gen0.valid = true ∧ e.gen1.valid = true) ∧ frameLt older frame = false)
    ∨ e.sampled f before = some e.target

/-- A slice that is neither early nor stale: rejected before its first write, held while a row samples its target, or written. -/
def State.decodeInto (s : State) (d : Nat) (sl : Slice) (g : Nat) : State :=
  let r := s.jxsReason sl.stream_
  if r.2 ≠ 0 ∧ r.2 ≠ 10 then r.1.rejectSlice sl r.2
  else if s.sampling (slotKey sl.layer sl.col sl.row) g = true then s.setDecoder d { slice := some sl, phase := .holding g }
  else s.decodeWrite d sl g

section
variable {s : State} {d : Fin 4} {sl : Slice} (hl : s.live 5 = true) (hr : s.engineRuns = true)
  (hs : (s.decoder d.val).slice = some sl)
include hl hr hs

theorem execDecoderStart_of_complete (hp : (s.decoder d.val).phase = .gather) (hc : sl.complete = true) :
    let f := s.fSyn.getD 0
    let e := s.entryOf sl
    exec (.decoderStart d) s = .next (
      if frameLe sl.frame ((f + 1) % 65536) = false then (s.bump (Reg.decCnt 6)).dropSlice sl
      else if e.stale f (s.now + 1) sl.frame then (s.bump (Reg.decCnt 5)).dropSlice sl
      else s.decodeInto d.val sl e.target) := by
  intro f e
  change execDecoderStart d s = _
  simp only [execDecoderStart, hl, hr, hs, hp, hc, Bool.not_true, Bool.or_false, Bool.false_eq_true, if_false,
    Bool.not_eq_true', Bool.or_eq_true, Bool.and_eq_true, beq_iff_eq, or_assoc,
    apply_ite (Host.Outcome.next (φ := Fault) (ρ := Refusal)), State.decodeInto]
  rfl

theorem execDecoderStart_of_holding {g : Nat} (hp : (s.decoder d.val).phase = .holding g) :
    exec (.decoderStart d) s = .next (if s.sampling (slotKey sl.layer sl.col sl.row) g = true then s
      else s.decodeWrite d.val sl g) := by
  change execDecoderStart d s = _
  simp only [execDecoderStart, hl, hr, hs, hp, Bool.true_and, Bool.not_eq_true', ← Bool.not_eq_true, ite_not,
    apply_ite (Host.Outcome.next (φ := Fault) (ρ := Refusal))]

end

/-! ## Publication (R122, R125; 14 R322) -/

theorem execFlushAck_of_flushing {s : State} {d : Fin 4} {g : Nat} (hl : s.live 26 = true)
    (hp : (s.decoder d.val).phase = .flushing g) :
    exec (.flushAck d) s = .next (if ((s.dmc.ports ++ s.dmc.stalled).any fun r => r.write && r.master == 14) = true then s
      else s.setDecoder d.val { s.decoder d.val with phase := .acked g s.now }) := by
  change execFlushAck d s = _
  simp only [execFlushAck, hl, hp, Bool.true_and, Bool.not_eq_true', ← Bool.not_eq_true, ite_not,
    apply_ite (Host.Outcome.next (φ := Fault) (ρ := Refusal))]

/-- The slice is of the frame in synthesis. -/
abbrev State.isCurrent (s : State) (sl : Slice) : Prop := s.fSyn.any (fun f => f % 65536 == sl.frame) = true

/-- The slice comes too late for its own frame (R124): the frame is over, or is the one in synthesis with the deadline passed. -/
abbrev State.isLate (s : State) (sl : Slice) : Prop :=
  s.fSyn.any (fun f => frameLt sl.frame f) = true
    ∨ (s.isCurrent sl ∧ (s.boundLayer sl.layer).any (fun le => s.deadlinePassed le sl.row) = true)

/-- Generation g of the slice's position becomes valid where the position is still the slice's; the decoder is free, the slice
counted, and the sampler caches lose the generation's lines. -/
def State.publishSlice (s : State) (d : Nat) (sl : Slice) (g : Nat) : State :=
  let key := slotKey sl.layer sl.col sl.row
  let e := s.dirAt key
  let e' : DirEntry := if e.index = sl.index then
      { e.setGen g { frame := sl.frame, valid := true, at_ := s.now } with
        seen := true, expired := e.expired && !decide (s.isCurrent sl) }
    else e
  let u := ((s.setDir key e').setDecoder d {}).bump (Reg.decCnt 0)
  let lo := u.slotAddr key g / 64
  u.dropCached fun x => lo ≤ x.line && x.line < lo + 1536

theorem execPublish_of_acked {s : State} {d : Fin 4} {sl : Slice} {g at_ : Nat} (hl : s.live 5 = true)
    (hr : s.engineRuns = true) (hs : (s.decoder d.val).slice = some sl) (hp : (s.decoder d.val).phase = .acked g at_) :
    let t := s.publishSlice d.val sl g
    exec (.publish d) s = .next (if at_ + 8 ≤ s.now then if s.isLate sl then t.bump (Reg.decCnt 7) else t else s) := by
  intro t
  change execPublish d s = _
  simp only [execPublish, hl, hr, hs, hp, Bool.true_and, decide_eq_true_eq, Bool.or_eq_true, Bool.and_eq_true,
    apply_ite (Host.Outcome.next (φ := Fault) (ρ := Refusal)), t, State.publishSlice, Bool.decide_eq_true]
  -- The model matches on the values that the statement asks by `any`, also in the instance of the choice.
  delta State.isLate State.isCurrent
  cases s.fSyn <;> cases s.boundLayer sl.layer <;> rfl

/-! ## Deadlines (R124, R125) -/

/-- The position of a bound layer is judged: its slice is needed, stands there and was seen before, its deadline has passed, and
the frame has not judged it yet. -/
abbrev State.judges (s : State) (le : LayerEntry) (col row : Nat) (e : DirEntry) : Prop :=
  (s.needed le col row = true ∧ e.index = row * le.gridW + col ∧ e.seen = true)
    ∧ s.deadlinePassed le row = true ∧ e.judged = false

/-- The run of concealments with this one exceeds CONCEAL_MAX, where that is not 0. -/
abbrev State.expires (s : State) (e : DirEntry) : Prop :=
  s.fld Reg.decCtrl 15 8 ≠ 0 ∧ s.fld Reg.decCtrl 15 8 < e.runs + 1

/-- A slice is concealed: its run is longer and may expire, the concealment counted and evented. -/
def State.conceal (s : State) (key : Nat) (e : DirEntry) : State :=
  ((s.setDir key { e with
    judged := true, runs := e.runs + 1, expired := e.expired || decide (s.expires e), told := e.told || decide (s.expires e) }).bump
      (Reg.decCnt 8)).event 99

theorem execSliceDeadline_of_bound {s : State} {l : Fin 16} {le : LayerEntry} {f : Nat} (col row : Fin 1024)
    (hl : s.live 5 = true) (hle : s.boundLayer l.val = some le) (hf : s.fSyn = some f) :
    let key := slotKey l.val col.val row.val
    let e := s.dirAt key
    exec (.sliceDeadline l col row) s = .next (
      if s.judges le col.val row.val e then
        if (e.sampled f s.now).any (fun g => (e.gen g).frame % 65536 == f % 65536) = true then
          s.setDir key { e with judged := true, runs := 0, expired := false, told := false }
        else if s.expires e ∧ e.told = false then (s.conceal key e).event 100 else s.conceal key e
      else s) := by
  intro key e
  change execSliceDeadline l col row s = _
  simp only [execSliceDeadline, hl, hle, hf, Bool.true_and, Bool.and_eq_true, beq_iff_eq, Bool.not_eq_true',
    decide_eq_true_eq, and_assoc, State.judges, State.conceal, key, e,
    apply_ite (Host.Outcome.next (φ := Fault) (ρ := Refusal))]
  cases (s.dirAt (slotKey l.val col.val row.val)).sampled f s.now <;> rfl

/-! ## The base of the slice store (R116) -/

theorem execDecStoreWrite_eq {s : State} {b : BusWrite} (hb : s.busOk Reg.decStore b = true) :
    let z := s.accepted Reg.decStore b
    let y := z.store Reg.decStore b.value
    let base := b.value.toNat % 128
    exec (.decStoreWrite b) s = .next (if base < 64 ∨ 105 < base then z
      else if y.fld Reg.decStore 6 0 = s.fld Reg.decStore 6 0 then y else y.invalidateAll) := by
  change (.next (s.busWrite Reg.decStore b State.decStoreWrite) : Out) = _
  rw [State.busWrite_ok hb, ← s.accepted_fld Reg.decStore b]
  simp only [State.decStoreWrite, Bool.or_eq_true, decide_eq_true_eq]
  rfl

/-! ## The statement -/

/-- Settles O41, command by command. -/
theorem slicesAreDecodedAndPublished : Obligations.SlicesAreDecodedAndPublished := by
  intro s d
  refine ⟨fun hl => ⟨fun sl rest hs ha => ?_, fun h => ?_, fun sl hr hs hp hc => ?_,
    fun sl g hr hs hp => execDecoderStart_of_holding hl hr hs hp, fun sl g at_ hr hs hp => ?_,
    fun l col row le f hle hf => ?_⟩, fun hl g hp => ?_, fun b hb => ?_⟩
  · exact (execDecoderAssign_eq d hl).trans (congrArg _ (State.decRefill_of_waiting hs ha))
  · exact (execDecoderAssign_eq d hl).trans (congrArg _ (State.decRefill_of_not_waiting h))
  · have hstart := execDecoderStart_of_complete hl hr hs hp hc
    refine ⟨fun he => hstart.trans (congrArg _ (if_pos he)), fun he hst => hstart.trans (congrArg _ ?_),
      fun he hst => hstart.trans (congrArg _ ?_)⟩
    · exact (if_neg (ne_false_of_eq_true he)).trans (if_pos hst)
    · exact (if_neg (ne_false_of_eq_true he)).trans (if_neg hst)
  · have hpub := execPublish_of_acked hl hr hs hp
    refine ⟨fun hw => hpub.trans (congrArg _ (if_neg (Nat.not_le.2 hw))), fun hw => ⟨fun h => ?_, fun h => ?_⟩⟩
    · exact hpub.trans (congrArg _ ((if_pos hw).trans (if_pos h)))
    · exact hpub.trans (congrArg _ ((if_pos hw).trans (if_neg h)))
  · have hdl := execSliceDeadline_of_bound col row hl hle hf
    refine ⟨fun hd hm => hdl.trans (congrArg _ ((if_pos hd).trans (if_pos hm))), fun hd hm t ht => ?_,
      fun hd => hdl.trans (congrArg _ (if_neg hd))⟩
    subst ht
    refine ⟨fun hx ht => hdl.trans (congrArg _ ?_), fun hx => hdl.trans (congrArg _ ?_)⟩
    · exact (if_pos hd).trans ((if_neg hm).trans (if_pos ⟨hx, ht⟩))
    · exact (if_pos hd).trans ((if_neg hm).trans (if_neg fun ⟨hx', ht⟩ => hx.elim (· hx') (ne_false_of_eq_true · ht)))
  · have hack := execFlushAck_of_flushing hl hp
    exact ⟨fun hw => hack.trans (congrArg _ (if_neg (Bool.eq_false_iff.1 hw))), fun hw => hack.trans (congrArg _ (if_pos hw))⟩
  · have hwrite := execDecStoreWrite_eq hb
    refine ⟨fun ho => hwrite.trans (congrArg _ (if_pos ho)), fun h64 h105 he => hwrite.trans (congrArg _ ?_),
      fun h64 h105 he => hwrite.trans (congrArg _ ?_)⟩
    · exact (if_neg (by omega)).trans (if_pos he)
    · exact (if_neg (by omega)).trans (if_neg he)

end Sys2Proof.Machine


/-!
The statements of chapter 07 (Slate): scalar, vector and predicate instructions.
-/
namespace Sys2Proof.Machine

open Sys2Proof.Safety

/-! ## Integer and fixed-point values (07 R153) -/

theorem addT_of_lt_two {ty : Nat} (h : ty < 2) (a b : Word) : addT ty a b = a + b := by
  obtain rfl | rfl : ty = 0 ∨ ty = 1 := by omega
  · rfl
  · rfl

theorem subT_of_lt_two {ty : Nat} (h : ty < 2) (a b : Word) : subT ty a b = a - b := by
  obtain rfl | rfl : ty = 0 ∨ ty = 1 := by omega
  · rfl
  · rfl

theorem mulT_of_lt_two {ty : Nat} (h : ty < 2) (a b : Word) : mulT ty a b = a * b := by
  obtain rfl | rfl : ty = 0 ∨ ty = 1 := by omega
  · rfl
  · rfl

theorem madT_of_lt_two {ty : Nat} (h : ty < 2) (a b c : Word) : madT ty a b c = a * b + c := by
  obtain rfl | rfl : ty = 0 ∨ ty = 1 := by omega
  · rfl
  · rfl

theorem toNat_addT {ty : Nat} (h : ty < 2) (a b : Word) : (addT ty a b).toNat = (a.toNat + b.toNat) % 2 ^ 32 := by
  rw [addT_of_lt_two h, BitVec.toNat_add]

theorem toNat_subT {ty : Nat} (h : ty < 2) (a b : Word) :
    (subT ty a b).toNat = (2 ^ 32 + a.toNat - b.toNat) % 2 ^ 32 := by
  rw [subT_of_lt_two h, BitVec.toNat_sub, Nat.sub_add_comm (Nat.le_of_lt b.isLt)]

theorem toNat_mulT {ty : Nat} (h : ty < 2) (a b : Word) : (mulT ty a b).toNat = (a.toNat * b.toNat) % 2 ^ 32 := by
  rw [mulT_of_lt_two h, BitVec.toNat_mul]

theorem toNat_madT {ty : Nat} (h : ty < 2) (a b c : Word) :
    (madT ty a b c).toNat = (a.toNat * b.toNat + c.toNat) % 2 ^ 32 := by
  rw [madT_of_lt_two h, BitVec.toNat_add, BitVec.toNat_mul, Nat.mod_add_mod]

theorem toNat_negT_int (a : Word) : (negT 0 a).toNat = (2 ^ 32 - a.toNat) % 2 ^ 32 := by
  change ((0#32 : Word) - a).toNat = _
  rw [BitVec.zero_sub, BitVec.toNat_neg]

theorem toNat_absT_int (a : Word) :
    (absT 0 a).toNat = (if a.toInt < 0 then 2 ^ 32 - a.toNat else a.toNat) % 2 ^ 32 := by
  change (if a.toInt < 0 then 0 - a else a).toNat = _
  split
  · exact toNat_negT_int a
  · exact (Nat.mod_eq_of_lt a.isLt).symm

theorem word_toBits (x : Int) : word (toBits 32 x) = BitVec.ofInt 32 x := by
  apply BitVec.eq_of_toNat_eq
  unfold word toBits
  rw [BitVec.toNat_ofNat, BitVec.toNat_ofInt]
  omega

/-- A fixed-point result is the exact value, clamped. -/
theorem toInt_satQ (x : Int) : (satQ x).toInt = max (-2147483648) (min 2147483647 x) := by
  have hclamp : clampInt (-2147483648) 2147483647 x = max (-2147483648) (min 2147483647 x) := by
    unfold clampInt
    split
    · omega
    · split <;> omega
  unfold satQ
  rw [word_toBits, hclamp]
  exact BitVec.toInt_ofInt_eq_self (by decide) (le_max_left ..) (by omega)

/-! ## The shared forms -/

/-- An instruction that cannot go on yet. -/
theorem State.issue_stall {s : State} {t : ThreadId} {p : Shape} {w : SlateWord} {always : Bool}
    {eff : State → Thread → Issue} (h : Issues s t p w) (g : always = true ∨ Open s t w)
    (he : eff s (thr s t) = .stall) : s.issue t p w always eff = .next s := by
  rw [State.issue_eff h g, he]

section
variable {s : State} {t : ThreadId} {p : Shape} {w : SlateWord}

theorem State.scalarOp_val {o : BitVec 8} {tys : List Nat} {f : Word → Word → Word} {x : Word}
    (h : Issues s t { opc := o, tys := tys, d := .s, a := .s, b := .s, bsels := [0, 2, 3] } w) (g : Open s t w)
    (hx : f ((thr s t).sreg w.a.toNat) ((thr s t).opS w) = x) :
    s.scalarOp t w o tys f = .next (went s t w ((thr s t).setS w.d.toNat x)) :=
  hx ▸ State.scalarOp_eq h g

/-- An instruction that writes V[D] in the active lanes (07 R158). -/
theorem State.issue_mapV {f : Thread → Nat → Word} (h : Issues s t p w) :
    ∃ u', s.issue t p w true (State.regsOnly t fun th => th.mapV (th.guard w) w.d.toNat (f th)) = .next (went s t w u')
      ∧ LaneWrite (thr s t) u' ((thr s t).guard w) w.d.toNat (f (thr s t)) :=
  ⟨_, State.issue_regs h (.inl rfl) (Thread.mapV_alive ..), Thread.laneWrite_mapV ..⟩

/-- The same with a draw of free values. -/
theorem State.issue_mapV_drawn {f : State → Thread → Nat → Word} (h : Issues s t p w) :
    ∃ u', s.issue t p w true (fun s th => .go (s.drawn.setThread (threadKey t) (th.mapV (th.guard w) w.d.toNat (f s th))))
        = .next (went s.drawn t w u')
      ∧ LaneWrite (thr s t) u' ((thr s t).guard w) w.d.toNat (f s (thr s t)) :=
  ⟨_, State.issue_drawn h (.inl rfl) rfl (Thread.mapV_alive ..), Thread.laneWrite_mapV ..⟩

end

theorem LaneWrite.of_active {u u' : Thread} {g : BitVec 64} {r : Nat} {f : Nat → Word} (h : LaneWrite u u' g r f)
    {l : Nat} (hl : l < 64 ∧ g.getLsbD l = true) : u'.vreg r l = f l :=
  (h.2 r l hl.1).trans (if_pos ⟨rfl, hl.2⟩)

theorem LaneWrite.congr {u u' : Thread} {g : BitVec 64} {r : Nat} {f f' : Nat → Word} (h : LaneWrite u u' g r f)
    (hf : ∀ l, f l = f' l) : LaneWrite u u' g r f' := funext hf ▸ h

/-! ## Scalar and vector arithmetic -/

/-- Settles O10, form by form. -/
theorem scalarAluResults : Obligations.ScalarAluResults := by
  intro s t w g
  refine ⟨⟨fun h => ⟨fun hty => ?_, fun hty => ?_⟩, fun h => ⟨fun hty => ?_, fun hty => ?_⟩,
      fun h => ⟨fun hty => ?_, fun hty => ?_⟩⟩,
    ⟨fun h => ?_, fun h => ?_, fun h => ?_, fun h => ?_, fun h => ?_⟩, fun h => ?_, fun h => ?_⟩
  · exact State.scalarOp_val h g (addT_of_lt_two hty ..)
  · exact State.scalarOp_val h g (by rw [hty]; rfl)
  · exact State.scalarOp_val h g (subT_of_lt_two hty ..)
  · exact State.scalarOp_val h g (by rw [hty]; rfl)
  · exact State.scalarOp_val h g (mulT_of_lt_two hty ..)
  · exact State.scalarOp_val h g (by rw [hty]; rfl)
  · exact State.scalarOp_eq h g
  · exact State.scalarOp_eq h g
  · exact State.scalarOp_eq h g
  · exact State.scalarOp_eq h g
  · exact State.scalarOp_eq h g
  · change execSmov t w s = _
    exact State.issue_regs h (.inr g) rfl
  · change execSgetl t w s = _
    exact State.issue_regs h (.inr g) rfl

/-- Settles O11: each instruction is a write of V[D] in the active lanes. -/
theorem vectorAluResults : Obligations.VectorAluResults := by
  intro s t w
  refine ⟨⟨?_, ?_, ?_⟩, ?_, ?_, ?_, ⟨?_, ?_, ?_, ?_, ?_⟩, ?_, ?_, ?_⟩
  all_goals intro h
  · exact show ∃ u', execVadd t w s = _ ∧ _ from State.vectorOp_lanes h
  · exact show ∃ u', execVsub t w s = _ ∧ _ from State.vectorOp_lanes h
  · exact show ∃ u', execVmul t w s = _ ∧ _ from State.vectorOp_lanes h
  · exact show ∃ u', execVmad t w s = _ ∧ _ from State.vectorOp_lanes h
  · exact show ∃ u', execVabs t w s = _ ∧ _ from State.vectorUnary_lanes h
  · exact show ∃ u', execVneg t w s = _ ∧ _ from State.vectorUnary_lanes h
  · exact show ∃ u', execVand t w s = _ ∧ _ from State.vectorOp_lanes h
  · exact show ∃ u', execVor t w s = _ ∧ _ from State.vectorOp_lanes h
  · exact show ∃ u', execVxor t w s = _ ∧ _ from State.vectorOp_lanes h
  · exact show ∃ u', execVshl t w s = _ ∧ _ from State.vectorOp_lanes h
  · exact show ∃ u', execVshr t w s = _ ∧ _ from State.vectorOp_lanes h
  · exact show ∃ u', execVmov t w s = _ ∧ _ from State.issue_mapV h
  · exact show ∃ u', execVsel t w s = _ ∧ _ from State.issue_mapV h
  · exact show ∃ u', execVshfl t w s = _ ∧ _ from State.issue_mapV h

/-- What holds of the result in every lane holds of V[D] in the active ones. -/
theorem lanes_active {s : State} {t : ThreadId} {w : SlateWord} {o : Out} {u : Thread} {g : BitVec 64} {d : Nat}
    {f : Nat → Word} (P : Nat → Word → Prop)
    (h : ∃ u', o = .next (went s t w u') ∧ LaneWrite u u' g d f) (hP : ∀ l, P l (f l)) :
    ∃ u', o = .next (went s t w u') ∧ ∀ l, l < 64 ∧ g.getLsbD l = true → P l (u'.vreg d l) := by
  obtain ⟨u', he, hu⟩ := h
  exact ⟨u', he, fun l hl => LaneWrite.of_active hu hl ▸ hP l⟩

theorem toInt_absT_fixed (a : Word) : (absT 4 a).toInt = max (-2147483648) (min 2147483647 |a.toInt|) := by
  have habs : |a.toInt| = if a.toInt < 0 then -a.toInt else a.toInt := by
    split
    · exact abs_of_neg ‹_›
    · exact abs_of_nonneg (not_lt.1 ‹_›)
  rw [habs]
  exact toInt_satQ _

/-- Settles O13: the results of VectorAluResults, with the arithmetic of each type read as numbers. -/
theorem fixedPointSaturatesIntegersWrap : Obligations.FixedPointSaturatesIntegersWrap := by
  intro s t w u a b c
  obtain ⟨⟨hadd, hsub, hmul⟩, hmad, habs, hneg, -⟩ := vectorAluResults s t w
  refine ⟨fun hty => ⟨fun h => ?_, fun h => ?_, fun h => ?_, fun h => ?_⟩, fun hty => ⟨fun h => ?_, fun h => ?_⟩,
    fun hty => ⟨fun h => ?_, fun h => ?_, fun h => ?_, fun h => ?_, fun h => ?_, fun h => ?_⟩⟩
  · exact lanes_active (fun l x => x.toNat = _) (hadd h) fun l => toNat_addT hty ..
  · exact lanes_active (fun l x => x.toNat = _) (hsub h) fun l => toNat_subT hty ..
  · exact lanes_active (fun l x => x.toNat = _) (hmul h) fun l => toNat_mulT hty ..
  · exact lanes_active (fun l x => x.toNat = _) (hmad h) fun l => toNat_madT hty ..
  · exact lanes_active (fun l x => x.toNat = _) (hneg h) fun l => hty ▸ toNat_negT_int _
  · exact lanes_active (fun l x => x.toNat = _) (habs h) fun l => hty ▸ toNat_absT_int _
  · exact lanes_active (fun l x => x.toInt = _) (hadd h) fun l => hty ▸ toInt_satQ _
  · exact lanes_active (fun l x => x.toInt = _) (hsub h) fun l => hty ▸ toInt_satQ _
  · exact lanes_active (fun l x => x.toInt = _) (hmul h) fun l => hty ▸ toInt_satQ _
  · exact lanes_active (fun l x => x.toInt = _) (hmad h) fun l => hty ▸ toInt_satQ _
  · exact lanes_active (fun l x => x.toInt = _) (hneg h) fun l => hty ▸ toInt_satQ _
  · exact lanes_active (fun l x => x.toInt = _) (habs h) fun l => hty ▸ toInt_absT_fixed _

/-! ## Floats, conversion, minimum and maximum -/

/-- The codes of a conversion that VCVT takes (07 R166). -/
theorem vcvtLegal {src dst : Nat} {hi : Bool} (h6 : src < 6) (hd : dst = 3 → src = 2 ∨ src = 3)
    (hs : src = 3 → dst = 2 ∨ dst = 3) (hhi : src ≠ 3 → hi = false) :
    (decide (src < 6) && !(dst == 3 && src != 2 && src != 3) && !(src == 3 && dst != 2 && dst != 3)
      && !(src != 3 && hi)) = true := by
  by_cases h3 : src = 3
  · subst h3
    rcases hs rfl with rfl | rfl <;> rfl
  · have hdst : dst = 3 → src = 2 := fun h => (hd h).resolve_right h3
    simp only [h6, hhi h3, decide_true, Bool.and_false, Bool.not_false, Bool.and_true, beq_eq_false_iff_ne.2 h3,
      Bool.false_and, Bool.true_and, Bool.not_eq_true', Bool.and_eq_false_imp, Bool.and_eq_true, beq_iff_eq, bne_iff_ne]
    exact fun h => absurd (hdst h.1) h.2

theorem execVcvt_lanes {s : State} {t : ThreadId} {w : SlateWord} (h6 : w.mod.toNat % 8 < 6)
    (hd : w.ty.toNat = 3 → w.mod.toNat % 8 = 2 ∨ w.mod.toNat % 8 = 3)
    (hs : w.mod.toNat % 8 = 3 → w.ty.toNat = 2 ∨ w.ty.toNat = 3) (hhi : w.mod.toNat % 8 ≠ 3 → w.mod.getLsbD 5 = false)
    (h : Issues s t { opc := 0x35, tys := [0, 1, 2, 3, 4, 5], d := .v, a := .v,
                        b := if w.ty.toNat = 3 ∧ w.mod.toNat % 8 ≠ 3 then .v else .unused,
                        bsels := if w.ty.toNat = 3 ∧ w.mod.toNat % 8 ≠ 3 then [0, 1, 2, 3] else [0], mod := 63 } w) :
    ∃ u', execVcvt t w s = .next (went s t w u')
      ∧ LaneWrite (thr s t) u' ((thr s t).guard w) w.d.toNat fun l =>
        convert (w.mod.toNat % 8) w.ty.toNat (roundingOf (w.mod.toNat / 8 % 4)) (w.mod.getLsbD 5)
          ((thr s t).vreg w.a.toNat l) ((thr s t).opV w l) := by
  unfold execVcvt
  simp only [vcvtLegal h6 hd hs hhi, Bool.and_eq_true, beq_iff_eq, bne_iff_ne]
  exact State.issue_mapV h

/-- Settles O12: writes of V[D] in the active lanes, with a draw where the sign of a zero is open. -/
theorem floatAndConversionResults : Obligations.FloatAndConversionResults := by
  intro s t w
  refine ⟨⟨fun h => ?_, fun h => ?_, fun h => ?_, fun h => ?_, fun h => ?_⟩, ⟨fun h => ?_, fun h => ?_⟩,
    fun h6 hd hs hhi h => execVcvt_lanes h6 hd hs hhi h⟩
  · exact show ∃ u', execVrcp t w s = _ ∧ _ from State.vectorUnary_lanes h
  · exact show ∃ u', execVsqrt t w s = _ ∧ _ from State.vectorUnary_lanes h
  · exact show ∃ u', execVrsq t w s = _ ∧ _ from State.vectorUnary_lanes h
  · exact show ∃ u', execVfloor t w s = _ ∧ _ from State.vectorUnary_lanes h
  · obtain ⟨u', he, hu⟩ := State.issue_mapV_drawn (f := fun s th l =>
      if th.vreg w.a.toNat l == 0x80000000 && Config.freeBit s.draws l then th.vreg w.a.toNat l
      else word (fSat binary32 (th.vreg w.a.toNat l).toNat)) h
    refine ⟨u', Config.freeBit s.draws, he, LaneWrite.congr hu fun l => if_congr ?_ rfl rfl⟩
    rw [Bool.and_eq_true, beq_iff_eq]
  · obtain ⟨u', he, hu⟩ := State.issue_mapV_drawn (f := fun s th l =>
      minMaxT w.ty.toNat true (Config.freeBit s.draws l) (th.vreg w.a.toNat l) (th.opV w l)) h
    exact ⟨u', Config.freeBit s.draws, he, hu⟩
  · obtain ⟨u', he, hu⟩ := State.issue_mapV_drawn (f := fun s th l =>
      minMaxT w.ty.toNat false (Config.freeBit s.draws l) (th.vreg w.a.toNat l) (th.opV w l)) h
    exact ⟨u', Config.freeBit s.draws, he, hu⟩

/-! ## SMIN, SMAX, SMFSR, SCMP -/

theorem minMaxT_signed (isMin tie : Bool) (a b : Word) :
    (minMaxT 0 isMin tie a b).toInt = if isMin then min a.toInt b.toInt else max a.toInt b.toInt := by
  change (if (decide (a.toInt < b.toInt)) == isMin then a else b).toInt = _
  by_cases h : a.toInt < b.toInt
  · rw [decide_eq_true h]
    cases isMin
    · exact (max_eq_right h.le).symm
    · exact (min_eq_left h.le).symm
  · rw [decide_eq_false h]
    cases isMin
    · exact (max_eq_left (not_lt.1 h)).symm
    · exact (min_eq_right (not_lt.1 h)).symm

theorem minMaxT_unsigned (isMin tie : Bool) (a b : Word) :
    (minMaxT 1 isMin tie a b).toNat = if isMin then min a.toNat b.toNat else max a.toNat b.toNat := by
  change (if (decide (a.toNat < b.toNat)) == isMin then a else b).toNat = _
  by_cases h : a.toNat < b.toNat
  · rw [decide_eq_true h]
    cases isMin
    · exact (max_eq_right h.le).symm
    · exact (min_eq_left h.le).symm
  · rw [decide_eq_false h]
    cases isMin
    · exact (max_eq_left (not_lt.1 h)).symm
    · exact (min_eq_right (not_lt.1 h)).symm

/-- The condition c of Table SLT-13 between two numbers. -/
def condInt (c : Nat) (x y : Int) : Bool :=
  [x == y, x != y, decide (x < y), decide (x ≤ y), decide (y < x), decide (y ≤ x)].getD c false


theorem decide_le_int (x y : Int) : (decide (x < y) || x == y) = decide (x ≤ y) := by
  rw [Bool.eq_iff_iff, Bool.or_eq_true, decide_eq_true_iff, decide_eq_true_iff, beq_iff_eq, le_iff_lt_or_eq]

theorem decide_ge_int (x y : Int) : (decide (y < x) || x == y) = decide (y ≤ x) := by
  rw [BEq.comm, decide_le_int]

theorem condT_signed {c : Nat} (h : c < 6) (a b : Word) : condT 0 c a b = condInt c a.toInt b.toInt := by
  have heq : (a == b) = (a.toInt == b.toInt) := by
    rw [Bool.eq_iff_iff, beq_iff_eq, beq_iff_eq, BitVec.toInt_inj]
  unfold condT
  simp only [heq]
  interval_cases c
  · rfl
  · rfl
  · rfl
  · exact decide_le_int ..
  · rfl
  · exact decide_ge_int ..

theorem condT_unsigned {c : Nat} (h : c < 6) (a b : Word) : condT 1 c a b = condInt c a.toNat b.toNat := by
  have heq : (a == b) = ((a.toNat : Int) == b.toNat) := by
    rw [Bool.eq_iff_iff, beq_iff_eq, beq_iff_eq, Int.natCast_inj, BitVec.toNat_inj]
  unfold condT
  simp only [heq, ← Int.ofNat_lt]
  interval_cases c
  · rfl
  · rfl
  · rfl
  · exact decide_le_int ..
  · rfl
  · exact decide_ge_int ..

theorem State.scalarMinMax_eq {s : State} {t : ThreadId} {w : SlateWord} {o : BitVec 8} {isMin : Bool}
    (h : Issues s t { opc := o, tys := [0, 1, 2], d := .s, a := .s, b := .s, bsels := [0, 2, 3] } w) (g : Open s t w) :
    s.scalarMinMax t w o isMin = .next (went s.drawn t w ((thr s t).setS w.d.toNat
      (minMaxT w.ty.toNat isMin (Config.freeBit s.draws 0) ((thr s t).sreg w.a.toNat) ((thr s t).opS w)))) :=
  State.issue_drawn h (.inr g) rfl rfl

/-- The special registers in the order of Table SLT-3. -/
theorem State.specialReg_of_le (s : State) (t : ThreadId) {n : Nat} (h : n ≤ 14) :
    let c := (s.engine (engineKey t.hr.val t.eng.val)).run.getD ⟨0, 0, 0, 0⟩
    s.specialReg t n = some (word ([c.row, t.eng.val, t.hr.val, t.th.val, 0x2FF000 + 0x800 * (c.row % 2), c.frame,
      c.frame / 2 ^ 32, 0x80000 + t.eng.val * 0x20000, t.eng.val, bnat s.latency,
      min 0xFFFFFFFF (s.clk.engineCycles - c.launch), s.seq.slot, s.slotCc, s.cursor t.eng.val,
      (if c.row % 2 = 0 then s.syn.bank0 else s.syn.bank1).stack.length].getD n 0)) := by
  interval_cases n <;> rfl

theorem execSmfsr_eq {s : State} {t : ThreadId} {w : SlateWord} {x : Word} (h14 : w.imm16.toNat ≤ 14)
    (h : Issues s t { opc := 0x1B, tys := [1], d := .s, imm := true } w) (g : Open s t w)
    (hx : s.specialReg t w.imm16.toNat = some x) :
    execSmfsr t w s = .next (went s t w ((thr s t).setS w.d.toNat x)) := by
  unfold execSmfsr
  rw [decide_eq_true h14]
  exact State.issue_thread h (.inr g) (by rw [hx]) rfl

theorem execScmp_eq {s : State} {t : ThreadId} {w : SlateWord} (h6 : w.mod.toNat % 8 < 6)
    (h : Issues s t { opc := 0x1C, tys := [0, 1, 2], d := .p, a := .s, b := .s, bsels := [0, 2, 3], mod := 7 } w)
    (g : Open s t w) :
    let r := condT w.ty.toNat (w.mod.toNat % 8) ((thr s t).sreg w.a.toNat) ((thr s t).opS w)
    execScmp t w s = .next (went s t w ((thr s t).setP w.d.toNat (if r then BitVec.allOnes 64 else 0))) := by
  unfold execScmp
  rw [decide_eq_true h6]
  exact State.issue_thread h (.inr g) rfl (Thread.setP_alive ..)

/-- Settles O14: what is drawn for SMIN and SMAX is the free bit of log entry 10. -/
theorem scalarSelectResults : Obligations.ScalarSelectResults := by
  intro s t w g
  refine ⟨fun hty => ⟨fun h => ?_, fun h => ?_⟩, fun hty => ⟨fun h => ?_, fun h => ?_⟩,
    fun hty => ⟨fun h => ?_, fun h => ?_⟩, fun h14 h => ?_, fun h6 h => ⟨fun hty => ?_, fun hty => ?_, fun hty => ?_⟩⟩
  · exact ⟨_, State.scalarMinMax_eq h g, hty ▸ minMaxT_signed ..⟩
  · exact ⟨_, State.scalarMinMax_eq h g, hty ▸ minMaxT_signed ..⟩
  · exact ⟨_, State.scalarMinMax_eq h g, hty ▸ minMaxT_unsigned ..⟩
  · exact ⟨_, State.scalarMinMax_eq h g, hty ▸ minMaxT_unsigned ..⟩
  · exact ⟨_, State.scalarMinMax_eq h g, Config.freeBit s.draws 0, by rw [hty]; rfl⟩
  · exact ⟨_, State.scalarMinMax_eq h g, Config.freeBit s.draws 0, by rw [hty]; rfl⟩
  · exact execSmfsr_eq h14 h g (State.specialReg_of_le s t h14)
  · refine ⟨_, execScmp_eq h6 h g, ?_⟩
    rw [hty, condT_signed h6]
    exact Thread.predWrite_setP ..
  · refine ⟨_, execScmp_eq h6 h g, ?_⟩
    rw [hty, condT_unsigned h6]
    exact Thread.predWrite_setP ..
  · refine ⟨_, execScmp_eq h6 h g, ?_⟩
    rw [hty]
    exact Thread.predWrite_setP ..

/-! ## Predicates (07 R150, R167) -/

theorem Thread.predLanes_mapP (u : Thread) (g : BitVec 64) (d : Nat) {x : BitVec 64} {q : Nat → Bool}
    (hq : ∀ l, l < 64 → x.getLsbD l = q l) : ∃ y, PredWrite u (u.mapP g d x) d y ∧ InLanes g y (u.preg d) q := by
  refine ⟨_, Thread.predWrite_setP .., fun l hl => ?_⟩
  rw [← hq l hl]
  exact inLanes_blend _ _ _ l hl

theorem State.predOp_lanes {s : State} {t : ThreadId} {w : SlateWord} {o : BitVec 8} {b : RegKind}
    {f : BitVec 64 → BitVec 64 → BitVec 64} {q : Nat → Bool} (h : Issues s t { opc := o, d := .p, a := .p, b := b } w)
    (hq : ∀ l, l < 64 → (f ((thr s t).preg w.a.toNat) ((thr s t).preg w.b.toNat)).getLsbD l = q l) :
    ∃ u' x, s.predOp t w o b f = .next (went s t w u') ∧ PredWrite (thr s t) u' w.d.toNat x
      ∧ InLanes ((thr s t).guard w) x ((thr s t).preg w.d.toNat) q :=
  have ⟨x, hx⟩ := Thread.predLanes_mapP (thr s t) ((thr s t).guard w) w.d.toNat hq
  ⟨_, x, State.predOp_eq h, hx⟩

theorem execVcmp_eq {s : State} {t : ThreadId} {w : SlateWord} (h6 : w.mod.toNat % 8 < 6)
    (h : Issues s t { opc := 0x40, tys := [0, 1, 2, 4], d := .p, a := .v, b := .v, bsels := [0, 1, 2, 3], mod := 7 } w) :
    execVcmp t w s = .next (went s t w ((thr s t).mapP ((thr s t).guard w) w.d.toNat (lanesWhere fun l =>
      condT w.ty.toNat (w.mod.toNat % 8) ((thr s t).vreg w.a.toNat l) ((thr s t).opV w l)))) := by
  unfold execVcmp
  rw [decide_eq_true h6]
  exact State.issue_thread h (.inl rfl) rfl (Thread.mapP_alive ..)

theorem ofNat_pair_eq_append (x y : Word) : BitVec.ofNat 64 (x.toNat + 2 ^ 32 * y.toNat) = y ++ x := by
  apply BitVec.eq_of_toNat_eq
  rw [BitVec.toNat_ofNat, BitVec.toNat_append, Nat.shiftLeft_eq, Nat.mul_comm y.toNat,
    ← Nat.two_pow_add_eq_or_of_lt x.isLt]
  have := x.isLt
  have := y.isLt
  omega

theorem word_half (x : BitVec 64) (m : Nat) :
    word (x.toNat / 2 ^ (32 * (m % 2))) = x.extractLsb' (if m % 2 = 1 then 32 else 0) 32 := by
  have hm : 32 * (m % 2) = if m % 2 = 1 then 32 else 0 := by split <;> omega
  apply BitVec.eq_of_toNat_eq
  rw [hm, BitVec.extractLsb'_toNat, Nat.shiftRight_eq_div_pow]
  exact BitVec.toNat_ofNat ..

/-- Settles O15: the lane-guarded instructions write a blend of the old bits and the new. -/
theorem predicateResults : Obligations.PredicateResults := by
  intro s t w
  refine ⟨⟨fun h => ?_, fun h => ?_, fun h => ?_⟩, fun h => ?_, fun h6 h => ?_, fun g h => ?_, fun g h => ?_,
    fun g h => ?_⟩
  · exact show ∃ u' x, execPand t w s = _ ∧ _ from State.predOp_lanes h fun l _ => BitVec.getLsbD_and ..
  · exact show ∃ u' x, execPor t w s = _ ∧ _ from State.predOp_lanes h fun l _ => BitVec.getLsbD_or ..
  · exact show ∃ u' x, execPxor t w s = _ ∧ _ from State.predOp_lanes h fun l _ => BitVec.getLsbD_xor ..
  · exact show ∃ u' x, execPnot t w s = _ ∧ _ from State.predOp_lanes h fun l hl => by
      rw [BitVec.getLsbD_not, decide_eq_true hl, Bool.true_and]
  · obtain ⟨x, hx⟩ := Thread.predLanes_mapP (thr s t) ((thr s t).guard w) w.d.toNat (getLsbD_lanesWhere _)
    exact ⟨_, x, execVcmp_eq h6 h, hx⟩
  · refine ⟨_, show execPset t w s = _ from State.issue_regs h (.inr g) (Thread.setP_alive ..), ?_⟩
    rw [ofNat_pair_eq_append]
    exact Thread.predWrite_setP ..
  · rw [← word_half]
    exact show execPget t w s = _ from State.issue_regs h (.inr g) rfl
  · rw [List.countP_eq_length_filter]
    exact show execPcnt t w s = _ from State.issue_regs h (.inr g) rfl

/-- Settles O16: a write of P0 leaves the thread's registers as they are. -/
theorem predicateZero : Obligations.PredicateZero := by
  refine ⟨fun u => rfl, fun s t w hd => ?_⟩
  have hset : ∀ x, (thr s t).setP w.d.toNat x = thr s t := fun x => by rw [hd]; rfl
  have hmap : ∀ g x, (thr s t).mapP g w.d.toNat x = thr s t := fun g x => hset _
  refine ⟨⟨fun h => ?_, fun h => ?_, fun h => ?_⟩, fun h => ?_, fun h6 h => ?_, fun g h => ?_, fun g h6 h => ?_⟩
  · exact (show execPand t w s = _ from State.predOp_eq h).trans (by rw [hmap])
  · exact (show execPor t w s = _ from State.predOp_eq h).trans (by rw [hmap])
  · exact (show execPxor t w s = _ from State.predOp_eq h).trans (by rw [hmap])
  · exact (show execPnot t w s = _ from State.predOp_eq h).trans (by rw [hmap])
  · exact (execVcmp_eq h6 h).trans (by rw [hmap])
  · exact (show execPset t w s = _ from State.issue_regs h (.inr g) (Thread.setP_alive ..)).trans (by rw [hset])
  · exact (execScmp_eq h6 h g).trans (by rw [hset])

end Sys2Proof.Machine

/-!
The statements of chapter 07 (Slate): control instructions, closed guards and exceptions.
-/
namespace Sys2Proof.Machine

open Sys2Proof.Safety

/-! ## Branches (07 R162) -/

theorem targetOk_iff (x : Int) : targetOk x = true ↔ x % 8 = 0 ∧ 0 ≤ x ∧ x < 0x80000 := by
  simp only [targetOk, Bool.and_eq_true, beq_iff_eq, decide_eq_true_eq, and_assoc]

/-- The test of BR on its guard bits: ANY, ALL or NONE. -/
def brHolds (m : Nat) (g : BitVec 64) : Bool := if m = 0 then g != 0 else if m = 1 then g == BitVec.allOnes 64 else g == 0

theorem brHolds_iff {m : Nat} (h3 : m % 4 ≠ 3) (g : BitVec 64) : brHolds (m % 4) g = true ↔
    (m % 4 = 0 ∧ g ≠ 0) ∨ (m % 4 = 1 ∧ g = BitVec.allOnes 64) ∨ (m % 4 = 2 ∧ g = 0) := by
  have hm : m % 4 = 0 ∨ m % 4 = 1 ∨ m % 4 = 2 := by omega
  unfold brHolds
  rcases hm with h | h | h <;> simp [h]

/-- The effect of BR: on to the next instruction, to the target, or BRANCH. -/
def branchEffect (w : SlateWord) (s : State) (u : Thread) : Issue :=
  if brHolds (w.mod.toNat % 4) (u.guard w) = false then .go s
  else if targetOk (branchTarget w u.pc) = true then .jump s (branchTarget w u.pc).toNat
  else .trap s 4

theorem execBr_eq {s : State} {t : ThreadId} {w : SlateWord} (h3 : w.mod.toNat % 4 ≠ 3) :
    execBr t w s = s.issue t { opc := 0x01, mod := 3, imm := true, ext := true } w true (branchEffect w) := by
  unfold execBr
  simp only [bne_iff_ne.2 h3, Bool.not_eq_true']
  rfl

/-! ## The end of a thread (07 R182) -/

theorem State.thread_endThread (s : State) (t : ThreadId) (i : Nat) :
    (s.endThread t).thread i = if i = threadKey t then {} else s.thread i := by
  unfold State.endThread
  dsimp only
  split
  · exact (State.thread_setEngine ..).trans (State.thread_setThread ..)
  · exact Eq.trans (b := (s.setThread (threadKey t) {}).thread i) rfl (State.thread_setThread ..)

/-- No other thread of the chunk lives. -/
abbrev State.LastThread (s : State) (t : ThreadId) : Prop :=
  ∀ j, j < 8 → 8 * engineKey t.hr.val t.eng.val + j ≠ threadKey t →
    (s.thread (8 * engineKey t.hr.val t.eng.val + j)).alive = false

theorem State.any_alive_endThread (s : State) (t : ThreadId) :
    ((List.range 8).any fun j =>
        ((s.setThread (threadKey t) {}).thread (8 * engineKey t.hr.val t.eng.val + j)).alive) = true
      ↔ ¬ s.LastThread t := by
  simp only [List.any_eq_true, List.mem_range, State.thread_setThread]
  constructor
  · rintro ⟨j, hj, ha⟩ hall
    split at ha
    · cases ha
    · rw [hall j hj ‹_›] at ha
      cases ha
  · intro hn
    unfold State.LastThread at hn
    push Not at hn
    obtain ⟨j, hj, hne, ha⟩ := hn
    exact ⟨j, hj, by rw [if_neg hne]; exact Bool.not_eq_false _ ▸ ha⟩

/-- The last thread of a chunk ends the chunk, which is counted. -/
theorem State.endThread_last {s : State} {t : ThreadId} (hl : s.LastThread t) :
    ((s.endThread t).engine (engineKey t.hr.val t.eng.val)).run = none
      ∧ (s.endThread t).reg (Reg.hrCnt t.hr.val 0)
        = word (min 0xFFFFFFFF ((s.reg (Reg.hrCnt t.hr.val 0)).toNat + 1)) := by
  unfold State.endThread
  dsimp only
  rw [if_neg fun h => (State.any_alive_endThread s t).1 h hl]
  refine ⟨?_, ?_⟩
  · rw [State.engine_bump, State.engine_setEngine, if_pos rfl]
  · exact State.reg_bump_self ..

theorem State.endThread_not_last {s : State} {t : ThreadId} (hl : ¬ s.LastThread t) :
    ((s.endThread t).engine (engineKey t.hr.val t.eng.val)).run = (s.engine (engineKey t.hr.val t.eng.val)).run
      ∧ ∀ o, (s.endThread t).reg o = s.reg o := by
  unfold State.endThread
  dsimp only
  rw [if_pos ((State.any_alive_endThread s t).2 hl)]
  refine ⟨?_, fun o => rfl⟩
  rw [State.engine_setEngine, if_pos rfl]
  rfl

/-- EXIT with all streams complete and free of errors: they land and the thread ends. -/
theorem execExit_ends {s : State} {t : ThreadId} {w : SlateWord} (h : Issues s t { opc := 0x05 } w) (g : Open s t w)
    (hx : ∀ x ∈ (thr s t).streams, x.done = true ∧ x.errs = []) :
    execExit t w s = .next
      (((thr s t).streams.foldl (fun s x => s.streamLand t.hr.val t.eng.val x) s).endThread t) := by
  have hd : ((thr s t).streams.any fun x => !x.done) = false := by
    rw [List.any_eq_false]
    exact fun x hm => by rw [(hx x hm).1]; exact Bool.false_ne_true
  have he : ((thr s t).streams.any fun x => !x.errs.isEmpty) = false := by
    rw [List.any_eq_false]
    exact fun x hm => by rw [(hx x hm).2]; exact Bool.false_ne_true
  unfold execExit
  rw [State.issue_eff h (.inr g)]
  simp only [hd, he, Bool.false_eq_true, if_false]

theorem execTrap_eq {s : State} {t : ThreadId} {w : SlateWord} (h : Issues s t { opc := 0x06, imm := true } w)
    (g : Open s t w) : execTrap t w s = .next (s.slateFault t 9) := State.issue_trap h (.inr g) rfl

theorem execExit_waits {s : State} {t : ThreadId} {w : SlateWord} (h : Issues s t { opc := 0x05 } w) (g : Open s t w)
    (hx : ∃ x ∈ (thr s t).streams, x.done = false) : execExit t w s = .next s := by
  refine State.issue_stall h (.inr g) (if_pos ?_)
  obtain ⟨x, hm, hf⟩ := hx
  exact List.any_eq_true.2 ⟨x, hm, by rw [hf]; rfl⟩

/-- Settles O17, instruction by instruction; the tests of a branch are those of `targetOk` and `brHolds`. -/
theorem controlResults : Obligations.ControlResults := by
  intro s t w
  refine ⟨fun g h => ?_, fun h3 h => ⟨fun hn => ?_, fun hh hx => ?_, fun hh hx => ?_⟩,
    fun g h => ⟨fun hx => ?_, fun hx => ?_⟩, fun g h => ⟨fun hx hc => ?_, fun hx => ?_, fun hx hc => ?_⟩,
    fun g h => ⟨fun x xs hc => ?_, fun hc => ?_⟩, fun g h => ⟨fun hx => ?_, fun hx => ?_⟩, fun g h hrun => ?_⟩
  · exact show execNop t w s = _ from State.issue_on h (.inr g) rfl rfl
  · exact (execBr_eq h3).trans (State.issue_on h (.inl rfl)
      (if_pos (Bool.eq_false_iff.2 (mt (brHolds_iff h3 _).1 hn))) rfl)
  · exact (execBr_eq h3).trans (State.issue_jump h (.inl rfl)
      ((if_neg (ne_false_of_eq_true ((brHolds_iff h3 _).2 hh))).trans (if_pos ((targetOk_iff _).2 hx))))
  · exact (execBr_eq h3).trans (State.issue_trap h (.inl rfl)
      ((if_neg (ne_false_of_eq_true ((brHolds_iff h3 _).2 hh))).trans (if_neg (mt (targetOk_iff _).1 hx))))
  · exact show execJmp t w s = _ from State.issue_jump h (.inr g) (if_pos ((targetOk_iff _).2 hx))
  · exact show execJmp t w s = _ from State.issue_trap h (.inr g) (if_neg (mt (targetOk_iff _).1 hx))
  · have hok : targetOk (branchTarget w (thr s t).pc) = true := (targetOk_iff _).2 hx
    exact show execCall t w s = _ from State.issue_jump_regs h (.inr g) rfl
      ((if_neg (by rw [hok]; decide)).trans (if_neg (Nat.not_le.2 hc)))
  · have hbad : targetOk (branchTarget w (thr s t).pc) = false := Bool.eq_false_iff.2 (mt (targetOk_iff _).1 hx)
    exact show execCall t w s = _ from State.issue_trap h (.inr g) (if_pos (by rw [hbad]; rfl))
  · have hok : targetOk (branchTarget w (thr s t).pc) = true := (targetOk_iff _).2 hx
    exact show execCall t w s = _ from State.issue_trap h (.inr g) ((if_neg (by rw [hok]; decide)).trans (if_pos hc))
  · exact show execRet t w s = _ from State.issue_jump_regs (v := { (thr s t) with calls := xs }) h (.inr g) rfl
      (by rw [hc]; rfl)
  · exact show execRet t w s = _ from State.issue_trap h (.inr g) (by rw [hc])
  · have hs := streamLands_only t.hr.val t.eng.val (thr s t).streams s
    refine ⟨_, execExit_ends h g hx, ?_⟩
    generalize (thr s t).streams.foldl (fun s x => s.streamLand t.hr.val t.eng.val x) s = z at hs
    have ht : ∀ i, z.thread i = s.thread i := fun i => by rw [hs]; rfl
    have he : ∀ k, z.engine k = s.engine k := fun k => by rw [hs]; rfl
    have hr : ∀ o, z.reg o = s.reg o := fun o => by rw [hs]; rfl
    refine ⟨(State.thread_endThread ..).trans (if_pos rfl), fun i hi => ?_, fun hl => ?_, fun hl => ?_⟩
    · rw [State.thread_endThread, if_neg hi, ht]
    · simp only [← ht] at hl
      rw [← hr]
      exact State.endThread_last hl
    · simp only [← ht] at hl
      simp only [← hr, ← he]
      exact State.endThread_not_last hl
  · exact execExit_waits h g hx
  · exact ⟨_, execTrap_eq h g, rfl, (State.slateFault_idle s t 9 hrun).1, (State.slateFault_idle s t 9 hrun).2.2⟩

/-! ## Closed guards (07 R158) -/

/-- Settles O18: none of these instructions runs whatever its guard holds. -/
theorem guardClosedIsNoOperation : Obligations.GuardClosedIsNoOperation := by
  intro s t w hg
  refine ⟨⟨fun h => ?_, fun h => ?_, fun h => ?_⟩, fun h => ?_, fun h => ?_, fun h => ?_, fun h => ?_, fun h => ?_,
    fun h => ?_, fun h => ?_, fun h => ?_, fun h => ?_⟩
  · exact show execNop t w s = _ from State.issue_closed h hg
  · exact show execRet t w s = _ from State.issue_closed h hg
  · exact show execExit t w s = _ from State.issue_closed h hg
  · exact show execJmp t w s = _ from State.issue_closed h hg
  · exact show execCall t w s = _ from State.issue_closed h hg
  · exact show execTrap t w s = _ from State.issue_closed h hg
  · exact show execSmov t w s = _ from State.issue_closed h hg
  · exact show execLds t w s = _ from State.issue_closed h hg
  · exact show execSts t w s = _ from State.issue_closed h hg
  · exact show execBar t w s = _ from State.issue_closed h hg
  · exact show execFence t w s = _ from State.issue_closed h hg
  · exact show execMsg t w s = _ from State.issue_closed h hg

/-! ## Exceptions (07 R180; 06 R144) -/

/-- A chunk without streams is cancelled with no register but its counter written. -/
theorem State.reg_cancelChunk_of_ne {s : State} {hr eng o : Nat}
    (hs : ∀ j, j < 8 → (s.thread (8 * engineKey hr eng + j)).streams = []) (ho : o ≠ Reg.hrCnt hr 1) :
    (s.cancelChunk hr eng).reg o = s.reg o := by
  unfold State.cancelChunk
  dsimp only
  split
  · rfl
  · rw [State.reg_bump_of_ne _ _ ho]
    rw [State.setEngine_reg]
    refine (List.foldlRecOn (motive := fun u : State => u.reg o = s.reg o
      ∧ ∀ j, j < 8 → (u.thread (8 * engineKey hr eng + j)).streams = []) _ _ ⟨rfl, hs⟩ ?_).1
    rintro u ⟨hreg, hu⟩ i hi
    rw [hu i (List.mem_range.1 hi), List.foldl_nil]
    refine ⟨(State.setThread_reg ..).trans hreg, fun j hj => ?_⟩
    rw [State.thread_setThread]
    split
    · rfl
    · exact hu j hj

/-- The first fault of a Homeroom stands in HR_FAULT (R180). -/
theorem State.reg_slateFault {s : State} {t : ThreadId} {c r : Nat}
    (hrow : (s.engine (engineKey t.hr.val t.eng.val)).run.map (·.row) = some r)
    (hv : s.flag (Reg.hrFault t.hr.val) 31 = false) (hc : Calm s (Reg.hrFault t.hr.val))
    (hs : ∀ j, j < 8 → (s.thread (8 * engineKey t.hr.val t.eng.val + j)).streams = []) :
    (s.slateFault t c).reg (Reg.hrFault t.hr.val)
      = word (2 ^ 31 + t.eng.val * 2 ^ 24 + t.th.val * 2 ^ 20 + r * 2 ^ 8 + c) := by
  obtain ⟨ch, hch, rfl⟩ := Option.map_eq_some_iff.1 hrow
  unfold State.slateFault
  rw [hch]
  dsimp only
  rw [State.reg_cancelChunk_of_ne]
  · obtain ⟨z, hz, he⟩ := State.latchFirst_calm hc (8 * t.eng.val + t.th.val)
      [(Reg.hrFault t.hr.val, word (2 ^ 31 + t.eng.val * 2 ^ 24 + t.th.val * 2 ^ 20 + ch.row * 2 ^ 8 + c))] (some 103)
    rw [he, hv, if_neg Bool.false_ne_true]
    refine (State.reg_event _ _ _ ?_).trans (State.reg_setReg_self ..)
    unfold Reg.hrFault Reg.evtStatus
    omega
  · intro j hj
    unfold State.thread
    rw [RegsAndEvents.latchFirst s]
    exact hs j hj
  · unfold Reg.hrFault Reg.hrCnt
    omega

/-- Settles O19: the exception itself is `State.slateFault`, its cancellation `State.slateFault_idle`. -/
theorem slateExceptionCancelsChunk : Obligations.SlateExceptionCancelsChunk := by
  intro s t w
  refine ⟨fun g h => execTrap_eq h g, fun hr hp => ⟨fun ho hk => ?_, fun ho hk => ?_⟩,
    fun c hrun => State.slateFault_idle s t c hrun, fun c r _ hrow _ hv hc hs => State.reg_slateFault hrow hv hc hs,
    fun g h hx => ⟨_, execExit_ends h g hx, (State.thread_endThread ..).trans (if_pos rfl)⟩⟩
  · change execSadd t w s = _
    unfold execSadd State.scalarOp
    exact State.issue_illegal hr hp ho hk
  · change execVadd t w s = _
    unfold execVadd State.vectorOp
    exact State.issue_illegal hr hp ho hk

end Sys2Proof.Machine

/-!
The statements of chapter 07 (Slate): loads, stores, FENCE and ATADD in Homeroom memory.
-/
namespace Sys2Proof.Machine

open Sys2Proof.Safety

/-! ## Addresses that fault (07 R168) -/

/-- The access of a load or of a store. -/
def accessOf (store : Bool) : MemAccess := if store then .store else .load

/-- An address at which a load, or a store, of an engine raises PROTECT. -/
abbrev ClosedTo (eng : Nat) (store : Bool) (a : Nat) : Prop :=
  0x300000 ≤ a ∨ (store = true ∧ ¬ (0x280000 ≤ a ∧ a < 0x2FF000)
    ∧ ¬ (0x80000 + eng * 0x20000 ≤ a ∧ a < 0x80000 + eng * 0x20000 + 0x20000))

theorem protects_accessOf (eng : Nat) (store : Bool) (a : Nat) :
    protects (accessOf store) eng a = true ↔ ClosedTo eng store a := by
  cases store
  · exact (protects_load eng a).trans ⟨.inl, fun h => h.elim id fun h => Bool.noConfusion h.1⟩
  · exact (protects_store eng a).trans (or_congr_right ⟨fun h => ⟨rfl, h⟩, And.right⟩)

section
variable {eng : Nat} {store : Bool} {addr : Nat → Nat} {P : Nat → Prop} {ls : List Nat}

theorem accessFault_lanes_none (hm : ∀ l, l ∈ ls ↔ P l) (h : ∀ l, P l → ¬ ClosedTo eng store (addr l) ∧ addr l % 4 = 0) :
    accessFault (accessOf store) eng (ls.map addr) = none := by
  refine accessFault_none (fun a ha => ?_) fun a ha => ?_
  · obtain ⟨l, hl, rfl⟩ := List.mem_map.1 ha
    exact Bool.eq_false_iff.2 (mt (protects_accessOf ..).1 (h l ((hm l).1 hl)).1)
  · obtain ⟨l, hl, rfl⟩ := List.mem_map.1 ha
    exact (h l ((hm l).1 hl)).2

theorem accessFault_lanes_protect (hm : ∀ l, l ∈ ls ↔ P l) (h : ∃ l, P l ∧ ClosedTo eng store (addr l)) :
    accessFault (accessOf store) eng (ls.map addr) = some 2 := by
  obtain ⟨l, hl, hc⟩ := h
  exact accessFault_protected ⟨_, List.mem_map_of_mem ((hm l).2 hl), (protects_accessOf ..).2 hc⟩

theorem accessFault_lanes_align (hm : ∀ l, l ∈ ls ↔ P l) (h : ∀ l, P l → ¬ ClosedTo eng store (addr l))
    (h' : ∃ l, P l ∧ addr l % 4 ≠ 0) : accessFault (accessOf store) eng (ls.map addr) = some 3 := by
  obtain ⟨l, hl, ha⟩ := h'
  refine accessFault_misaligned (fun a ha => ?_) ⟨_, List.mem_map_of_mem ((hm l).2 hl), ha⟩
  obtain ⟨l, hl, rfl⟩ := List.mem_map.1 ha
  exact Bool.eq_false_iff.2 (mt (protects_accessOf ..).1 (h l ((hm l).1 hl)))

end

/-! ## Vector loads and stores -/

section
variable {s : State} {t : ThreadId} {w : SlateWord} {p : Shape} {o : Out} {addr : Thread → Nat → Nat}

theorem State.issue_loadLanes (h : Issues s t p w)
    (ho : o = s.issue t p w true fun s th => s.loadLanes t th w (addr th)) :
    let u := thr s t
    let active (l : Nat) : Prop := l < 64 ∧ (u.guard w).getLsbD l = true
    ((∀ l, active l → ¬ ClosedTo t.eng.val false (addr u l) ∧ addr u l % 4 = 0) → ∃ u', o = .next (went s.drawn t w u')
        ∧ LaneWrite u u' (u.guard w) w.d.toNat fun l => s.homeLoad t.hr.val t.eng.val (addr u l) l)
      ∧ ((∃ l, active l ∧ ClosedTo t.eng.val false (addr u l)) → o = .next (s.slateFault t 2))
      ∧ ((∀ l, active l → ¬ ClosedTo t.eng.val false (addr u l)) → (∃ l, active l ∧ addr u l % 4 ≠ 0) →
        o = .next (s.slateFault t 3)) := by
  subst ho
  refine ⟨fun hf => ⟨_, State.issue_drawn h (.inl rfl) ?_ (Thread.mapV_alive ..), Thread.laneWrite_mapV ..⟩,
    fun hc => State.issue_trap h (.inl rfl) ?_, fun hc ha => State.issue_trap h (.inl rfl) ?_⟩
  · simp only [State.loadLanes, (show accessFault .load _ _ = _ from accessFault_lanes_none (mem_lanesOf _) hf)]
  · simp only [State.loadLanes, (show accessFault .load _ _ = _ from accessFault_lanes_protect (mem_lanesOf _) hc)]
  · simp only [State.loadLanes, (show accessFault .load _ _ = _ from accessFault_lanes_align (mem_lanesOf _) hc ha)]

theorem State.issue_storeLanes (h : Issues s t p w)
    (ho : o = s.issue t p w true fun s th => s.storeLanes t th w (addr th)) :
    let u := thr s t
    let active (l : Nat) : Prop := l < 64 ∧ (u.guard w).getLsbD l = true
    ((∀ l, active l → ¬ ClosedTo t.eng.val true (addr u l) ∧ addr u l % 4 = 0) → ∃ new : List PendStore, o = .next (went
          { s.drawn with syn := { s.syn with stores := new.foldl (fun l p => insStore p l) s.syn.stores } } t w u)
        ∧ (∀ p ∈ new, ∃ l, active l
          ∧ p = ⟨t.hr.val, t.eng.val, t.th.val, addr u l, u.vreg w.c.toNat l, s.clk.engineCycles⟩)
        ∧ (∀ l, active l → ∃ p ∈ new, p.addr = addr u l) ∧ new.Pairwise fun p q => p.addr ≠ q.addr)
      ∧ ((∃ l, active l ∧ ClosedTo t.eng.val true (addr u l)) → o = .next (s.slateFault t 2))
      ∧ ((∀ l, active l → ¬ ClosedTo t.eng.val true (addr u l)) → (∃ l, active l ∧ addr u l % 4 ≠ 0) →
        o = .next (s.slateFault t 3)) := by
  subst ho
  refine ⟨fun hf => ?_, fun hc => State.issue_trap h (.inl rfl) ?_, fun hc ha => State.issue_trap h (.inl rfl) ?_⟩
  · obtain ⟨hkeep, hall, hdiff⟩ := keptLanes_spec s (addr (thr s t)) (lanesOf ((thr s t).guard w))
    generalize hk : List.foldl _ _ (lanesOf ((thr s t).guard w)) = keep at hkeep hall hdiff
    refine ⟨keep.map fun p => ⟨t.hr.val, t.eng.val, t.th.val, p.1, (thr s t).vreg w.c.toNat p.2, s.clk.engineCycles⟩,
      State.issue_on h (.inl rfl) ?_ rfl, ?_, fun l hl => ?_, ?_⟩
    · simp only [State.storeLanes, (show accessFault .store _ _ = _ from accessFault_lanes_none (mem_lanesOf _) hf)]
      rw [hk, homeStore_foldl]
      rfl
    · intro p hp
      obtain ⟨q, hq, rfl⟩ := List.mem_map.1 hp
      obtain ⟨hl, ha⟩ := hkeep q hq
      exact ⟨q.2, (mem_lanesOf ..).1 hl, by rw [ha]⟩
    · obtain ⟨q, hq, ha⟩ := hall l ((mem_lanesOf ..).2 hl)
      exact ⟨_, List.mem_map_of_mem hq, ha⟩
    · exact List.pairwise_map.2 hdiff
  · simp only [State.storeLanes, (show accessFault .store _ _ = _ from accessFault_lanes_protect (mem_lanesOf _) hc)]
  · simp only [State.storeLanes, (show accessFault .store _ _ = _ from accessFault_lanes_align (mem_lanesOf _) hc ha)]

end


/-! ## Scalar loads and stores -/

section
variable {eng : Nat} {store : Bool} {a : Nat}

theorem accessFault_one_none (hc : ¬ ClosedTo eng store a) (ha : a % 4 = 0) :
    accessFault (accessOf store) eng [a] = none :=
  accessFault_lanes_none (ls := [a]) (addr := id) (P := (· = a)) (fun _ => List.mem_singleton) fun _ h => h ▸ ⟨hc, ha⟩

theorem accessFault_one_protect (hc : ClosedTo eng store a) : accessFault (accessOf store) eng [a] = some 2 :=
  accessFault_lanes_protect (ls := [a]) (addr := id) (P := (· = a)) (fun _ => List.mem_singleton) ⟨a, rfl, hc⟩

theorem accessFault_one_align (hc : ¬ ClosedTo eng store a) (ha : a % 4 ≠ 0) :
    accessFault (accessOf store) eng [a] = some 3 :=
  accessFault_lanes_align (ls := [a]) (addr := id) (P := (· = a)) (fun _ => List.mem_singleton) (fun _ h => h ▸ hc)
    ⟨a, rfl, ha⟩

end

section
variable {s : State} {t : ThreadId} {w : SlateWord} (g : Open s t w)
include g

/-- What LDS comes to, by the fault of its address. -/
theorem execLds_eq (h : Issues s t { opc := 0x54, tys := [1], d := .s, a := .s, imm := true } w) :
    let a := ((thr s t).sreg w.a.toNat + w.imm16.signExtend 32).toNat
    (accessFault .load t.eng.val [a] = none → execLds t w s = .next (went s.drawn t w
        ((thr s t).setS w.d.toNat (s.homeLoad t.hr.val t.eng.val a 0))))
      ∧ ∀ c, accessFault .load t.eng.val [a] = some c → execLds t w s = .next (s.slateFault t c) := by
  intro a
  have ha : slateAddr ((thr s t).sreg w.a.toNat) w 0 = a := slateAddr_zero ..
  refine ⟨fun hf => State.issue_drawn h (.inr g) ?_ rfl, fun c hf => State.issue_trap h (.inr g) ?_⟩
  · simp only [ha, hf]
  · simp only [ha, hf]

theorem execSts_eq (h : Issues s t { opc := 0x55, tys := [1], a := .s, c := .s, imm := true } w) :
    let a := ((thr s t).sreg w.a.toNat + w.imm16.signExtend 32).toNat
    (accessFault .store t.eng.val [a] = none → execSts t w s = .next (went
        (s.homeStore t.hr.val t.eng.val t.th.val a ((thr s t).sreg w.c.toNat)) t w (thr s t)))
      ∧ ∀ c, accessFault .store t.eng.val [a] = some c → execSts t w s = .next (s.slateFault t c) := by
  intro a
  have ha : slateAddr ((thr s t).sreg w.a.toNat) w 0 = a := slateAddr_zero ..
  refine ⟨fun hf => State.issue_on h (.inr g) ?_ rfl, fun c hf => State.issue_trap h (.inr g) ?_⟩
  · simp only [ha, hf]
  · simp only [ha, hf]

end

/-- Settles O20: the vector forms by `State.issue_loadLanes` and `State.issue_storeLanes`, the scalar ones by their one
address. -/
theorem homeroomLoadsAndStores : Obligations.HomeroomLoadsAndStores := by
  intro s t w
  have hgather : ∀ l, slateAddr ((thr s t).vreg w.a.toNat l) w 0 =
      ((thr s t).vreg w.a.toNat l + w.imm16.signExtend 32).toNat := fun l => slateAddr_zero ..
  refine ⟨fun h => ?_, fun h => ?_, fun h => ?_, fun h => ?_, fun g h => ⟨fun hf => ?_, fun hc => ?_, fun hc ha => ?_⟩,
    fun g h => ⟨fun hf => ?_, fun hc => ?_, fun hc ha => ?_⟩⟩
  · have hl := State.issue_loadLanes (o := execLdv t w s) (addr := fun th l => slateAddr (th.vreg w.a.toNat l) w 0) h rfl
    simp only [hgather] at hl
    exact hl
  · exact State.issue_loadLanes (o := execLdb t w s) (addr := fun th l => slateAddr (th.sreg w.a.toNat) w (4 * l)) h rfl
  · have hl := State.issue_storeLanes (o := execStv t w s) (addr := fun th l => slateAddr (th.vreg w.a.toNat l) w 0) h rfl
    simp only [hgather] at hl
    exact hl
  · exact State.issue_storeLanes (o := execStb t w s) (addr := fun th l => slateAddr (th.sreg w.a.toNat) w (4 * l)) h rfl
  · exact (execLds_eq g h).1 (accessFault_one_none (store := false) hf.1 hf.2)
  · exact (execLds_eq g h).2 2 (accessFault_one_protect (store := false) hc)
  · exact (execLds_eq g h).2 3 (accessFault_one_align (store := false) hc ha)
  · exact (execSts_eq g h).1 (accessFault_one_none (store := true) hf.1 hf.2)
  · exact (execSts_eq g h).2 2 (accessFault_one_protect (store := true) hc)
  · exact (execSts_eq g h).2 3 (accessFault_one_align (store := true) hc ha)

/-! ## Stores become visible (07 R169, R178) -/

/-- An engine sees a store of its own at once, where no other engine's store to the word waits. -/
theorem State.homeLoad_homeStore {s : State} {hr eng th a : Nat} {v : Word}
    (h : ∀ p ∈ s.syn.stores, p.hr = hr → p.addr = a → p.eng = eng) (i : Nat) :
    (s.homeStore hr eng th a v).homeLoad hr eng a i = v := by
  have hins : insStore ⟨hr, eng, th, a, v, s.clk.engineCycles⟩ s.syn.stores
      = s.syn.stores ++ [⟨hr, eng, th, a, v, s.clk.engineCycles⟩] := by
    refine insStore_append _ _ fun y hy hlt => ?_
    simp only [Bool.and_eq_true, beq_iff_eq, decide_eq_true_eq] at hlt
    obtain ⟨⟨⟨hhr, haddr⟩, _⟩, hlt⟩ := hlt
    have := h y hy hhr haddr
    omega
  unfold State.homeLoad State.homeStore
  simp only [hins, List.foldl_append, List.foldl_cons, List.foldl_nil, beq_self_eq_true, Bool.and_self, if_true,
    List.isEmpty_nil]

/-- Within Homeroom memory a key names one Homeroom and one word. -/
theorem homeKey_inj {hr hr' a b : Nat} (ha : a < 0x300000 ∧ a % 4 = 0) (hb : b < 0x300000 ∧ b % 4 = 0)
    (h : homeKey hr a = homeKey hr' b) : hr = hr' ∧ a = b := by
  unfold homeKey at h
  omega

theorem State.homeFlush_none {s : State} {p : PendStore → Bool} (h : ∀ x ∈ s.syn.stores, p x = false) :
    s.homeFlush p = s := by
  have hf : s.syn.stores.filter p = [] := List.filter_eq_nil_iff.2 fun x hx => ne_true_of_eq_false (h x hx)
  unfold State.homeFlush
  rw [commitStores_none _ _ _ h, hf]
  rfl

theorem protects_atomic (eng a : Nat) : protects .atomic eng a = true ↔ ¬ (0x280000 ≤ a ∧ a < 0x2FF000) := by
  simp only [protects, inShared, Bool.or_eq_true, decide_eq_true_eq, Bool.not_eq_true', Bool.and_eq_false_iff,
    decide_eq_false_iff_not]
  omega

theorem protects_atomic_of_shared {eng a : Nat} (h : 0x280000 ≤ a ∧ a < 0x2FF000) : protects .atomic eng a = false :=
  Bool.eq_false_iff.2 fun hp => (protects_atomic ..).1 hp h

theorem State.get_homeWrite_one (s : State) (hr a : Nat) (x : Word) (k : Nat) :
    SMap.get (fun _ => (0 : Word)) (s.homeWrite hr a [x]).syn.mem k
      = if k = homeKey hr a then x else SMap.get (fun _ => 0) s.syn.mem k := by
  unfold State.homeWrite
  dsimp only
  rw [SMap.get_store]
  by_cases hk : k = homeKey hr a
  · subst hk
    simp
  · rw [if_neg hk, dif_neg]
    rintro ⟨h1, h2⟩
    simp only [List.length_singleton] at h2
    omega

section
variable {s : State} {t : ThreadId} {w : SlateWord} (g : Open s t w)
include g

theorem execFence_eq (h : Issues s t { opc := 0x81, tys := [1] } w) :
    execFence t w s = .next (went
      (s.homeFlush fun p => p.hr == t.hr.val && p.eng == t.eng.val && p.th == t.th.val) t w (thr s t)) :=
  State.issue_on h (.inr g) rfl rfl

section
variable (h : Issues s t { opc := 0x56, tys := [1], d := .s, a := .s, b := .s, bsels := [0, 3], imm := true } w)
include h

theorem execAtadd_fault {c : Nat}
    (hc : accessFault .atomic t.eng.val [((thr s t).sreg w.a.toNat + w.imm16.signExtend 32).toNat] = some c) :
    execAtadd t w s = .next (s.slateFault t c) := by
  refine State.issue_trap h (.inr g) ?_
  simp only [slateAddr_zero, hc]

/-- ATADD on a word to which no store waits. -/
theorem execAtadd_eq {a : Nat} (ha : ((thr s t).sreg w.a.toNat + w.imm16.signExtend 32).toNat = a)
    (hc : accessFault .atomic t.eng.val [a] = none) (hs : ∀ p ∈ s.syn.stores, ¬ (p.hr = t.hr.val ∧ p.addr = a)) :
    execAtadd t w s = .next (went (s.drawn.homeWrite t.hr.val a [s.homeWord t.hr.val a + (thr s t).opS w]) t w
      ((thr s t).setS w.d.toNat (s.homeWord t.hr.val a))) := by
  refine State.issue_go (s' := s.drawn.homeWrite t.hr.val a [s.homeWord t.hr.val a + (thr s t).opS w]) h (.inr g) ?_ rfl
  simp only [slateAddr_zero, ha, hc]
  rw [State.homeFlush_none]
  · rfl
  · intro p hp
    have : (p.hr == t.hr.val && p.addr == a) = false := by
      simpa using hs p hp
    rw [this, Bool.false_and]

end
end

/-- Settles O21: what FENCE leaves is what `commitStores` does. -/
theorem storesBecomeVisible : Obligations.StoresBecomeVisible := by
  intro s t w
  have hmine : ∀ p : PendStore, (p.hr == t.hr.val && p.eng == t.eng.val && p.th == t.th.val) = true
      ↔ p.hr = t.hr.val ∧ p.eng = t.eng.val ∧ p.th = t.th.val := fun p => by
    simp only [Bool.and_eq_true, beq_iff_eq, and_assoc]
  refine ⟨fun a v i h => ⟨State.homeLoad_homeStore h i, rfl⟩, fun g h => ⟨_, _, _, execFence_eq g h, ?_, ?_, ?_⟩,
    fun g h => ⟨fun hlo hhi hal hs => ?_, fun ha => ?_, fun hlo hhi ha => ?_⟩⟩
  · intro p hp hm
    exact absurd ((hmine p).2 hm) (ne_true_of_eq_false (mem_commitStores _ _ _ p hp).2)
  · intro x hm hlt hal hin hone
    rw [← hm.1] at hone
    have hx := commitStores_one (fun p => p.hr == t.hr.val && p.eng == t.eng.val && p.th == t.th.val) _ s.syn.mem x
      ((hmine x).2 hm) (fun y hy hk => homeKey_inj (hin y hy) ⟨hlt, hal⟩ hk) hone
    rwa [hm.1] at hx
  · intro k hk
    exact commitStores_other _ _ _ _ fun x hx hp => hk x hx ((hmine x).1 hp)
  · have hc : accessFault .atomic t.eng.val [_] = none :=
      accessFault_none (fun a hm => protects_atomic_of_shared (List.mem_singleton.1 hm ▸ ⟨hlo, hhi⟩))
        fun a hm => List.mem_singleton.1 hm ▸ hal
    exact ⟨_, _, execAtadd_eq g h rfl hc hs, State.get_homeWrite_one _ _ _ _⟩
  · exact execAtadd_fault g h (accessFault_protected ⟨_, List.mem_singleton.2 rfl, (protects_atomic ..).2 (by omega)⟩)
  · exact execAtadd_fault g h (accessFault_misaligned
      (fun a hm => protects_atomic_of_shared (List.mem_singleton.1 hm ▸ ⟨hlo, hhi⟩)) ⟨_, List.mem_singleton.2 rfl, ha⟩)

end Sys2Proof.Machine

/-!
The statements of chapter 07 (Slate): streams into Homeroom memory.
-/
namespace Sys2Proof.Machine

open Sys2Proof.Safety

/-- A word of the form has legal values in its own fields. -/
theorem Shape.legal_of_ok {p : Shape} {w : SlateWord} (h : p.ok w = true) : p.legal = true := by
  unfold Shape.ok at h
  simp only [Bool.and_eq_true] at h
  exact h.1.1.1.1.1.1.1.1.1.1.2

/-! ## STRM (07 R170) -/

/-- The destinations that STRM takes: whole lines in the shared region or in the scratch of the engine. -/
abbrev StreamDest (eng dst n : Nat) : Prop :=
  dst % 64 = 0 ∧ ((0x280000 ≤ dst ∧ dst + 64 * n ≤ 0x2FF000)
    ∨ (0x80000 + eng * 0x20000 ≤ dst ∧ dst + 64 * n ≤ 0x80000 + eng * 0x20000 + 0x20000))

theorem streamDest_iff (eng dst : Nat) {n : Nat} (hn : 0 < n) :
    (dst % 64 != 0 || !((inShared dst && inShared (dst + 64 * n - 1))
      || (inScratch eng dst && inScratch eng (dst + 64 * n - 1)))) = true ↔ ¬ StreamDest eng dst n := by
  unfold StreamDest inShared inScratch
  simp only [Bool.or_eq_true, bne_iff_ne, Bool.not_eq_true', Bool.or_eq_false_iff, Bool.and_eq_false_iff,
    decide_eq_false_iff_not]
  omega

/-- The stores of an engine into the destination of a stream. -/
def intoStream (hr eng dst n : Nat) (p : PendStore) : Bool :=
  p.hr == hr && p.eng == eng && decide (dst ≤ p.addr) && decide (p.addr < dst + 64 * n)

theorem intoStream_iff (hr eng dst n : Nat) (p : PendStore) :
    intoStream hr eng dst n p = true ↔ p.hr = hr ∧ p.eng = eng ∧ dst ≤ p.addr ∧ p.addr < dst + 64 * n := by
  simp only [intoStream, Bool.and_eq_true, beq_iff_eq, decide_eq_true_eq, and_assoc]

/-- The machine once STRM has taken its destination: the engine's stores into it are over, its words are free. -/
def State.streamClaim (s : State) (hr eng dst n : Nat) : State :=
  let s := s.homeFlush (intoStream hr eng dst n)
  s.drawn.homeWrite hr dst ((List.range (16 * n)).map (Config.freeWord s.draws))

theorem State.streamClaim_stores (s : State) (hr eng dst n : Nat) :
    (∀ p ∈ (s.streamClaim hr eng dst n).syn.stores,
        p ∈ s.syn.stores ∧ ¬ (p.hr = hr ∧ p.eng = eng ∧ dst ≤ p.addr ∧ p.addr < dst + 64 * n))
      ∧ ∀ p ∈ s.syn.stores, ¬ (p.hr = hr ∧ dst ≤ p.addr ∧ p.addr < dst + 64 * n) →
        p ∈ (s.streamClaim hr eng dst n).syn.stores := by
  obtain ⟨hsub, hstay⟩ := commitStores_mem (intoStream hr eng dst n) s.syn.stores s.syn.mem
  refine ⟨fun p hp => ⟨(hsub p hp).1, mt (intoStream_iff ..).2 (ne_true_of_eq_false (hsub p hp).2)⟩, fun p hp hout => ?_⟩
  refine hstay p hp (Bool.eq_false_iff.2 fun hin => ?_) fun y _ hy hsame => ?_
  · obtain ⟨hhr, _, hlo, hhi⟩ := (intoStream_iff ..).1 hin
    exact hout ⟨hhr, hlo, hhi⟩
  · obtain ⟨hhr, _, hlo, hhi⟩ := (intoStream_iff ..).1 hy
    rw [hsame.1] at hhr
    rw [hsame.2] at hlo hhi
    exact hout ⟨hhr, hlo, hhi⟩

theorem State.streamClaim_mem {s : State} {hr eng dst n i : Nat} (hd : dst % 64 = 0)
    (hi : i < homeKey hr dst ∨ homeKey hr dst + 16 * n ≤ i) :
    SMap.get (fun _ => (0 : Word)) (s.streamClaim hr eng dst n).syn.mem i = SMap.get (fun _ => 0) s.syn.mem i := by
  refine Eq.trans (b := SMap.get (fun _ => 0) (s.homeFlush (intoStream hr eng dst n)).syn.mem i) ?_ ?_
  · unfold State.streamClaim State.homeWrite
    dsimp only
    rw [SMap.get_store, dif_neg]
    · rfl
    · rintro ⟨hlo, hhi⟩
      rw [List.length_map, List.length_range] at hhi
      omega
  · refine commitStores_other _ _ _ _ fun x _ hx hk => ?_
    obtain ⟨hhr, _, hlo, hhi⟩ := (intoStream_iff ..).1 hx
    subst hhr
    unfold homeKey at hi hk
    omega

section
variable {s : State} {t : ThreadId} {w : SlateWord} (g : Open s t w)
  (h : Issues s t { opc := 0x60, tys := [1], a := .s, b := .s, mod := 3, imm := true, legal := w.imm16.toNat < 1024 } w)
include g h

/-- What STRM comes to. -/
theorem execStrm_eq {n dst k : Nat} (hn : n = if w.imm16.toNat = 0 then 1024 else w.imm16.toNat)
    (hd : dst = ((thr s t).sreg w.b.toNat).toNat) (hk : k = w.mod.toNat % 4) :
    (¬ StreamDest t.eng.val dst n → execStrm t w s = .next (s.slateFault t 2))
      ∧ (StreamDest t.eng.val dst n → (∃ x ∈ (thr s t).tag k, x.done = false) → execStrm t w s = .next s)
      ∧ (StreamDest t.eng.val dst n → (∀ x ∈ (thr s t).tag k, x.done = true) → execStrm t w s =
        .next (went (s.streamClaim t.hr.val t.eng.val dst n) t w ((thr s t).setTag k
          ((thr s t).tag k ++ [{ src := 64 * ((thr s t).sreg w.a.toNat).toNat, dst := dst, lines := n }])))) := by
  have hlt : w.imm16.toNat < 1024 := of_decide_eq_true (Shape.legal_of_ok h.2.2.1)
  have hn' : (if w.imm16.toNat % 1024 = 0 then 1024 else w.imm16.toNat % 1024) = n := by
    rw [Nat.mod_eq_of_lt hlt, hn]
  have hpos : 0 < n := by rw [hn]; split <;> omega
  have hdest := streamDest_iff t.eng.val dst hpos
  have hok : StreamDest t.eng.val dst n → _ = false := fun hx => Bool.eq_false_iff.2 (mt hdest.1 (not_not.2 hx))
  refine ⟨fun hx => State.issue_trap h (.inr g) ?_, fun hx hw => ?_, fun hx hw => ?_⟩
  · simp only [hn', ← hd, hdest.2 hx, if_true]
  · refine State.issue_stall h (.inr g) ?_
    have hany : ((thr s t).tag k).any (fun x => !x.done) = true := by
      obtain ⟨x, hm, hf⟩ := hw
      exact List.any_eq_true.2 ⟨x, hm, by rw [hf]; rfl⟩
    simp only [hn', ← hd, ← hk, hok hx, hany, if_true, if_false, Bool.false_eq_true]
  · have hany : ((thr s t).tag k).any (fun x => !x.done) = false :=
      List.any_eq_false.2 fun x hm => by rw [hw x hm]; exact Bool.false_ne_true
    refine State.issue_go (s' := s.streamClaim t.hr.val t.eng.val dst n) h (.inr g) ?_ rfl
    simp only [hn', ← hd, ← hk, hok hx, hany, if_false, Bool.false_eq_true]
    rfl

end

/-! ## STREAM_COMPLETE and SWAIT (07 R171) -/

/-- The tags that SWAIT names. -/
def namedTags (w : SlateWord) : List Nat := (List.range 4).filter fun k => w.mod.getLsbD k

/-- The streams of the tags that SWAIT names. -/
def namedStreams (w : SlateWord) (u : Thread) : List Stream := (namedTags w).flatMap u.tag

theorem mem_namedStreams (w : SlateWord) (u : Thread) (x : Stream) :
    x ∈ namedStreams w u ↔ ∃ k, k < 4 ∧ w.mod.getLsbD k = true ∧ x ∈ u.tag k := by
  simp only [namedStreams, namedTags, List.mem_flatMap, List.mem_filter, List.mem_range, and_assoc]

/-- A thread with some tags cleared. -/
def Thread.clearTags (u : Thread) (ks : List Nat) : Thread := ks.foldl (fun u k => u.setTag k []) u

theorem Thread.clearTags_only (u : Thread) (ks : List Nat) : u.clearTags ks = { u with tags := (u.clearTags ks).tags } := by
  unfold Thread.clearTags
  induction ks generalizing u with
  | nil => rfl
  | cons k ks ih => rw [List.foldl_cons, ih]; rfl

theorem Thread.tag_clearTags (u : Thread) (ks : List Nat) (i : Nat) :
    (u.clearTags ks).tag i = if i ∈ ks then [] else u.tag i := by
  unfold Thread.clearTags
  induction ks generalizing u with
  | nil => simp
  | cons k ks ih =>
    rw [List.foldl_cons, ih, Thread.tag_setTag]
    by_cases h : i = k
    · simp [h]
    · simp [h]

theorem Thread.tag_clearTags_named (u : Thread) (w : SlateWord) {k : Nat} (h : k < 4) :
    (u.clearTags (namedTags w)).tag k = if w.mod.getLsbD k = true then [] else u.tag k := by
  rw [Thread.tag_clearTags]
  simp only [namedTags, List.mem_filter, List.mem_range, h, true_and]

/-- The machine once streams have landed, the later over the earlier. -/
def State.streamsLand (s : State) (hr eng : Nat) (xs : List Stream) : State :=
  xs.foldl (fun s x => s.streamLand hr eng x) s

theorem State.streamsLand_only (s : State) (hr eng : Nat) (xs : List Stream) :
    let z := s.streamsLand hr eng xs
    z = { s with
      syn := { s.syn with stores := z.syn.stores, mem := z.syn.mem }
      cyc := { s.cyc with sram := z.cyc.sram } } :=
  streamLands_only hr eng xs s

/-- Where no named stream covers a word it stays; where all that cover it bring one value it holds that. -/
theorem State.streamsLand_get (s : State) (hr eng : Nat) (xs : List Stream) (i : Nat) :
    let c (x : Stream) : Prop :=
      homeKey hr x.dst ≤ i ∧ i < homeKey hr x.dst + 16 * x.lines ∧ (i - homeKey hr x.dst) / 16 ∉ x.errs
    let m (z : State) : Word := SMap.get (fun _ => 0) z.syn.mem i
    ((∀ x ∈ xs, ¬ c x) → m (s.streamsLand hr eng xs) = m s)
      ∧ ∀ v, (∀ x ∈ xs, c x → word (leAt x.data (4 * (i - homeKey hr x.dst)) 4) = v) → ((∃ x ∈ xs, c x) ∨ m s = v) →
        m (s.streamsLand hr eng xs) = v :=
  streamLands_get hr eng i xs s

theorem State.thread_streamsLand (s : State) (hr eng : Nat) (xs : List Stream) (k : Nat) :
    (s.streamsLand hr eng xs).thread k = s.thread k := by
  rw [s.streamsLand_only]
  rfl

section
variable {s : State} {t : ThreadId} {w : SlateWord} (g : Open s t w)
  (h : Issues s t { opc := 0x61, tys := [1], mod := 15 } w)
include g h

theorem execSwait_waits (hx : ∃ x ∈ namedStreams w (thr s t), x.done = false) : execSwait t w s = .next s := by
  refine State.issue_stall h (.inr g) (if_pos ?_)
  obtain ⟨x, hm, hf⟩ := hx
  exact List.any_eq_true.2 ⟨x, hm, by rw [hf]; rfl⟩

/-- SWAIT with its streams in hand: they land, its tags are clear, and it goes on or raises STREAM. -/
theorem execSwait_lands (hx : ∀ x ∈ namedStreams w (thr s t), x.done = true) :
    let z := s.streamsLand t.hr.val t.eng.val (namedStreams w (thr s t))
    let u := (thr s t).clearTags (namedTags w)
    ((∀ x ∈ namedStreams w (thr s t), x.errs = []) → execSwait t w s = .next (went z t w u))
      ∧ ((∃ x ∈ namedStreams w (thr s t), x.errs ≠ []) →
        execSwait t w s = .next ((z.setThread (threadKey t) u).slateFault t 8)) := by
  intro z u
  have hd : ((namedStreams w (thr s t)).any fun x => !x.done) = false :=
    List.any_eq_false.2 fun x hm => by rw [hx x hm]; exact Bool.false_ne_true
  have hu : u.alive = (thr s t).alive := (congrArg Thread.alive ((thr s t).clearTags_only (namedTags w)) :)
  have hz : thr z t = thr s t := s.thread_streamsLand ..
  refine ⟨fun he => ?_, fun he => State.issue_trap h (.inr g) ((if_neg (ne_true_of_eq_false hd)).trans (if_pos ?_))⟩
  · have hn : ((namedStreams w (thr s t)).any fun x => !x.errs.isEmpty) = false :=
      List.any_eq_false.2 fun x hm => by rw [he x hm]; exact Bool.false_ne_true
    refine (State.issue_go (s' := z) h (.inr g)
      ((if_neg (ne_true_of_eq_false hd)).trans (if_neg (ne_true_of_eq_false hn))) hu).trans ?_
    unfold went
    rw [hz]
  · obtain ⟨x, hm, he⟩ := he
    exact List.any_eq_true.2 ⟨x, hm, by simpa using he⟩

end

theorem execStreamComplete_eq {s : State} {t : ThreadId} {tag : Fin 4} {x : Stream}
    (hf : ((thr s t).tag tag.val).find? (fun x => !x.done) = some x)
    (hr : s.memReady (2 + t.hr.val) x.src (64 * x.lines) = true) :
    let r := s.streamRead (2 + t.hr.val) x.src x.lines
    execStreamComplete t tag s = .next (r.1.setThread (threadKey t) ((thr s t).setTag tag.val
      (((thr s t).tag tag.val).filter (·.done) ++ [{ x with done := true, data := r.2.1, errs := r.2.2 }]))) := by
  unfold thr at hf
  unfold execStreamComplete
  simp only [hf, hr, if_true]
  rfl

/-- Settles O22, instruction by instruction. -/
theorem streamsRun : Obligations.StreamsRun := by
  intro s t w
  refine ⟨fun g h => ?_, fun tag x hf hr => ⟨execStreamComplete_eq hf hr, RegsAndEvents.streamRead ..⟩, fun g h => ?_⟩
  · obtain ⟨hbad, hwait, hgo⟩ := execStrm_eq g h rfl rfl rfl
    exact ⟨hbad, hwait, fun hx hw => ⟨_, _, _, hgo hx hw, (s.streamClaim_stores ..).1, (s.streamClaim_stores ..).2,
      fun i hi => State.streamClaim_mem hx.1 hi⟩⟩
  · have hm := mem_namedStreams w (thr s t)
    refine ⟨fun ⟨x, hx, hd⟩ => execSwait_waits g h ⟨x, (hm x).2 hx, hd⟩, fun hd => ?_⟩
    obtain ⟨hgo, htrap⟩ := execSwait_lands g h fun x hx => hd x ((hm x).1 hx)
    have hz := s.streamsLand_only t.hr.val t.eng.val (namedStreams w (thr s t))
    have hget := s.streamsLand_get t.hr.val t.eng.val (namedStreams w (thr s t))
    generalize s.streamsLand t.hr.val t.eng.val (namedStreams w (thr s t)) = z at hz hget hgo htrap
    refine ⟨z.syn.stores, z.syn.mem, z.cyc.sram, (thr s t).clearTags (namedTags w),
      ⟨(thr s t).clearTags_only _, fun k hk => (thr s t).tag_clearTags_named w hk⟩, fun i hi => ?_,
      fun i x hx hc hone => ?_, fun he => ?_, fun ⟨x, hx, he⟩ => ?_⟩
    · exact (hget i).1 fun x hx => hi x ((hm x).1 hx)
    · exact (hget i).2 _ (fun y hy hyc => by rw [hone y ((hm y).1 hy) hyc]) (.inl ⟨x, (hm x).2 hx, hc⟩)
    · rw [← hz]
      exact hgo fun x hx => he x ((hm x).1 hx)
    · rw [← hz]
      exact htrap ⟨x, (hm x).2 hx, he⟩

end Sys2Proof.Machine

/-!
The statements of chapter 07 (Slate): rays, samples, blends and the row ring.
-/
namespace Sys2Proof.Machine

open Sys2Proof.Safety

/-! ## Writes of a quad (07 R172, R173, R175) -/

/-- Four registers from d written in the active lanes. -/
def Thread.mapQuad (u : Thread) (g : BitVec 64) (d : Nat) (f : Nat → Nat → Word) : Thread :=
  (List.range 4).foldl (fun u j => u.mapV g (d + j) (f j)) u

section
variable (u : Thread) (g : BitVec 64) (d : Nat) (f : Nat → Nat → Word)

theorem Thread.mapQuad_only : u.mapQuad g d f = { u with v := (u.mapQuad g d f).v } := (mapV_foldl u g d f 4).1

theorem Thread.mapQuad_alive : (u.mapQuad g d f).alive = u.alive := mapV_foldl_alive u g d f 4

theorem Thread.vreg_mapQuad (r l : Nat) (hl : l < 64) :
    (u.mapQuad g d f).vreg r l = if d ≤ r ∧ r < d + 4 ∧ g.getLsbD l = true then f (r - d) l else u.vreg r l :=
  (mapV_foldl u g d f 4).2 r l hl

end

theorem Thread.preg_mapQuad (u : Thread) (g : BitVec 64) (d : Nat) (f : Nat → Nat → Word) (i : Nat) :
    (u.mapQuad g d f).preg i = u.preg i := by
  rw [Thread.mapQuad_only]
  rfl

theorem Thread.vreg_setP (u : Thread) (d : Nat) (x : BitVec 64) (r l : Nat) : (u.setP d x).vreg r l = u.vreg r l := by
  rw [(Thread.predWrite_setP u d x).1]
  rfl

section
variable {s : State} {t : ThreadId} {w : SlateWord}

/-! ## SEAT and SMP -/

theorem execSeat_trap (h : Issues s t { opc := 0x70, tys := [0], d := .quad, a := .v } w)
    (hx : ∃ l, (l < 64 ∧ ((thr s t).guard w).getLsbD l = true) ∧ rayInRange ((thr s t).vreg w.a.toNat l) = false) :
    execSeat t w s = .next (s.slateFault t 6) := by
  refine State.issue_trap h (.inl rfl) (if_pos ((any_lanesOf ..).2 ?_))
  obtain ⟨l, hl, hr⟩ := hx
  exact ⟨l, hl, by rw [hr]; rfl⟩

theorem execSeat_eq (h : Issues s t { opc := 0x70, tys := [0], d := .quad, a := .v } w)
    (hx : ∀ l, l < 64 ∧ ((thr s t).guard w).getLsbD l = true → rayInRange ((thr s t).vreg w.a.toNat l) = true) :
    execSeat t w s = .next (went s t w ((thr s t).mapQuad ((thr s t).guard w) w.d.toNat fun j l =>
      (seatWords (s.bank (s.chunkRow t)).chart ((thr s t).vreg w.a.toNat l)).getD j 0)) := by
  refine State.issue_thread h (.inl rfl) (if_neg fun hany => ?_) (Thread.mapQuad_alive ..)
  obtain ⟨l, hl, hr⟩ := (any_lanesOf ..).1 hany
  rw [hx l hl] at hr
  cases hr

section
variable (h : Issues s t { opc := 0x71, tys := [2], d := .quad, a := .quad, b := .s, bsels := [1, 2] } w)
include h

theorem execSmp_idle (hg : (thr s t).guard w = 0) : execSmp t w s = .next (went s t w (thr s t)) :=
  State.issue_on h (.inl rfl) (if_pos (by rw [hg]; rfl)) rfl

variable (hg : (thr s t).guard w ≠ 0) {i : Nat}
  (hi : i = if w.bsel = 1 then ((thr s t).sreg w.b.toNat).toNat else w.imm16.toNat)
include hg hi

theorem execSmp_past (hp : (s.bank (s.chunkRow t)).stack.length ≤ i) :
    execSmp t w s = .next (went s t w ((thr s t).mapQuad ((thr s t).guard w) w.d.toNat fun _ _ => 0)) := by
  subst hi
  exact State.issue_thread h (.inl rfl) ((if_neg (by simpa using hg)).trans (if_pos hp)) (Thread.mapQuad_alive ..)

theorem execSmp_full (hp : i < (s.bank (s.chunkRow t)).stack.length)
    (hq : 4 ≤ (s.engine (engineKey t.hr.val t.eng.val)).queue.length) : execSmp t w s = .next s := by
  subst hi
  exact State.issue_stall h (.inl rfl) ((if_neg (by simpa using hg)).trans ((if_neg (Nat.not_le.2 hp)).trans (if_pos hq)))

theorem execSmp_queued (hp : i < (s.bank (s.chunkRow t)).stack.length)
    (hq : (s.engine (engineKey t.hr.val t.eng.val)).queue.length < 4) :
    let k := engineKey t.hr.val t.eng.val
    let col (j : Nat) : List Word := (List.range 64).map fun l => (thr s t).vreg (w.a.toNat + j) l
    execSmp t w s = .next (went (s.setEngine k { (s.engine k) with queue := (s.engine k).queue
      ++ [⟨t.th.val, w.d.toNat, i, (thr s t).guard w, col 0, col 1, col 2, col 3⟩] }) t w (thr s t)) := by
  subst hi
  exact State.issue_on h (.inl rfl)
    ((if_neg (by simpa using hg)).trans ((if_neg (Nat.not_le.2 hp)).trans (if_neg (Nat.not_le.2 hq)))) rfl

end

/-! ## BLEND (07 R175) -/

/-- What BLEND makes of lane l: the accumulator quad at D blended with the sample quad at A. -/
def blendOf (straight : Bool) (u : Thread) (w : SlateWord) (l : Nat) : List Nat :=
  blendLane straight ((List.range 4).map fun j => (u.vreg (w.d.toNat + j) l).toNat)
    ((List.range 4).map fun j => (u.vreg (w.a.toNat + j) l).toNat)

/-- The thread after BLEND. -/
def Thread.blended (u : Thread) (straight : Bool) (w : SlateWord) : Thread :=
  let q := u.mapQuad (u.guard w) w.d.toNat fun j l => word ((blendOf straight u w l).getD j 0)
  if w.c.getLsbD 5 then
    q.mapP (u.guard w) (w.c.toNat % 8) (lanesWhere fun l =>
      (unpackF binary32 ((blendOf straight u w l).getD 3 0)).lt (unpackF binary32 theta))
  else q

theorem blendLegal : ∀ c : BitVec 6, c &&& 0x18 = 0 → (c.getLsbD 5 = true ∨ c = 0) →
    (bits c.toNat 4 3 == 0 && (c.getLsbD 5 || c.toNat == 0)) = true := by decide

theorem State.blendOp_eq {o : BitVec 8} {straight : Bool} (hz : w.c &&& 0x18 = 0) (h5 : w.c.getLsbD 5 = true ∨ w.c = 0)
    (h : Issues s t { opc := o, tys := [2], d := .quad, a := .quad, c := .own } w) :
    s.blendOp t w o straight = .next (went s t w ((thr s t).blended straight w)) := by
  unfold State.blendOp
  dsimp only
  rw [blendLegal w.c hz h5]
  refine State.issue_thread h (.inl rfl) rfl ?_
  unfold Thread.blended
  split
  · exact (Thread.mapP_alive ..).trans (Thread.mapQuad_alive ..)
  · exact Thread.mapQuad_alive ..

end

section
variable (u : Thread) (straight : Bool) (w : SlateWord)

theorem Thread.blended_only :
    u.blended straight w = { u with v := (u.blended straight w).v, p := (u.blended straight w).p } := by
  have hq := u.mapQuad_only (u.guard w) w.d.toNat fun j l => word ((blendOf straight u w l).getD j 0)
  unfold Thread.blended
  dsimp only
  generalize u.mapQuad (u.guard w) w.d.toNat _ = q at hq
  split
  · generalize hx : q.mapP _ _ _ = q'
    have hp : q' = { q with p := q'.p } := hx ▸ (Thread.predWrite_setP ..).1
    rw [hp, hq]
  · rw [hq]

theorem Thread.vreg_blended (r l : Nat) (hl : l < 64) : (u.blended straight w).vreg r l =
    if w.d.toNat ≤ r ∧ r < w.d.toNat + 4 ∧ (u.guard w).getLsbD l = true
      then word ((blendOf straight u w l).getD (r - w.d.toNat) 0) else u.vreg r l := by
  rw [← Thread.vreg_mapQuad u (u.guard w) w.d.toNat (fun j l => word ((blendOf straight u w l).getD j 0)) r l hl]
  unfold Thread.blended
  dsimp only
  split
  · exact Thread.vreg_setP ..
  · rfl

/-- BLEND writes no predicate but the one that C names, and that only with C[5] = 1. -/
theorem Thread.preg_blended_of_ne {i : Nat}
    (hi : i ≠ w.c.toNat % 8 ∨ i = 0 ∨ w.c = 0) : (u.blended straight w).preg i = u.preg i := by
  unfold Thread.blended
  dsimp only
  split
  · rename_i hc
    have hc0 : w.c ≠ 0 := fun h => by rw [h] at hc; cases hc
    refine (Thread.preg_setP ..).trans ?_
    rw [if_neg, Thread.preg_mapQuad]
    rintro ⟨rfl, hne⟩
    rcases hi with hi | hi | hi
    · exact hi rfl
    · exact hne hi
    · exact hc0 hi
  · exact Thread.preg_mapQuad ..

theorem Thread.preg_blended (hc : w.c.getLsbD 5 = true) (h0 : w.c.toNat % 8 ≠ 0) :
    InLanes (u.guard w) ((u.blended straight w).preg (w.c.toNat % 8)) (u.preg (w.c.toNat % 8)) fun l =>
      (unpackF binary32 ((blendOf straight u w l).getD 3 0)).lt (unpackF binary32 theta) := by
  unfold Thread.blended
  rw [if_pos hc]
  intro l hl
  refine (congrArg (BitVec.getLsbD · l) ((Thread.preg_setP ..).trans (if_pos ⟨rfl, h0⟩))).trans ?_
  rw [Thread.preg_mapQuad]
  refine (inLanes_blend _ _ _ l hl).trans ?_
  simp only [getLsbD_lanesWhere _ l hl]

end

/-! ## ST.RING (07 R176) -/

/-- The place of a ray in its row: emitters of one lenslet after another, three to a view. -/
def rayPlace (r : Word) : Nat := 300 * ((rayFields r).1 % 768) + 3 * ((rayFields r).2.2.2 * 20 + (rayFields r).2.2.1)

theorem rayView_lt {r : Word} (h : rayInRange r = true) : (rayFields r).2.2.2 * 20 + (rayFields r).2.2.1 < 100 := by
  unfold rayInRange at h
  simp only [Bool.and_eq_true, decide_eq_true_eq] at h
  obtain ⟨⟨⟨-, hs⟩, ht⟩, -⟩ := h
  omega

theorem rayPlace_apart {x y : Word} (h : rayPlace x ≠ rayPlace y) {i j : Nat} (hi : i < 3) (hj : j < 3) :
    rayPlace x + i ≠ rayPlace y + j := by
  unfold rayPlace at h ⊢
  omega

/-- The ray is in range and its lenslet the chunk's. -/
abbrev RayOf (t : ThreadId) (c : Chunk) (r : Word) : Prop :=
  rayInRange r = true ∧ rayInChunk t.hr.val t.eng.val c.row r = true

/-- The active lanes whose stores stand: of those that name one ray, one (log entry 24). -/
def keptRays (s : State) (u : Thread) (w : SlateWord) : List Nat :=
  (lanesOf (u.guard w)).foldl (fun acc l =>
    if acc.any fun k => u.vreg w.a.toNat k == u.vreg w.a.toNat l then
      (if Config.freeBit s.draws l then acc.filter (fun k => u.vreg w.a.toNat k != u.vreg w.a.toNat l) ++ [l] else acc)
    else acc ++ [l]) []

theorem active_of_mem_keptRays {s : State} {u : Thread} {w : SlateWord} {l : Nat} (h : l ∈ keptRays s u w) :
    l < 64 ∧ (u.guard w).getLsbD l = true :=
  (mem_lanesOf ..).1 ((keptRays_spec (Config.freeBit s.draws) (u.vreg w.a.toNat) _ (List.nodup_range.filter _)).1 l h)

theorem mem_keptRays {s : State} {u : Thread} {w : SlateWord} {l : Nat} (hl : l < 64 ∧ (u.guard w).getLsbD l = true)
    (h : ∀ l', l' < 64 ∧ (u.guard w).getLsbD l' = true → l' ≠ l → u.vreg w.a.toNat l' ≠ u.vreg w.a.toNat l) :
    l ∈ keptRays s u w :=
  (keptRays_spec (Config.freeBit s.draws) (u.vreg w.a.toNat) _ (List.nodup_range.filter _)).2 l ((mem_lanesOf ..).2 hl)
    fun l' hl' => h l' ((mem_lanesOf ..).1 hl')

/-- The stores of some lanes into the row ring. -/
def State.ringStores (s : State) (tile row : Nat) (u : Thread) (w : SlateWord) (ls : List Nat) : State :=
  ls.foldl (fun s l => s.ringStore tile row (u.vreg w.a.toNat l) (u.vreg w.b.toNat l) (u.vreg (w.b.toNat + 1) l)
    (u.vreg (w.b.toNat + 2) l)) s

theorem State.ringStores_only (s : State) (tile row : Nat) (u : Thread) (w : SlateWord) (ls : List Nat) :
    let z := s.ringStores tile row u w ls
    z = { s with
      syn := { s.syn with ring := z.syn.ring, masks := z.syn.masks }
      cyc := { s.cyc with rings := z.cyc.rings } } :=
  (ringStore_foldl tile row u w.a.toNat w.b.toNat s ls).1

theorem State.ringStores_other {s : State} {tile row : Nat} {u : Thread} {w : SlateWord} {ls : List Nat} {k : Nat}
    (h : ∀ l ∈ ls, ∀ j, j < 3 → k ≠ ringKey tile (row % 3) (rayPlace (u.vreg w.a.toNat l) + j)) :
    SMap.get (fun _ => (0 : BitVec 20)) (s.ringStores tile row u w ls).syn.ring k = SMap.get (fun _ => 0) s.syn.ring k :=
  (ringStore_foldl tile row u w.a.toNat w.b.toNat s ls).2.1 k h

/-- A lane that stores alone at its place leaves its colours and its mask bit there. -/
theorem State.ringStores_lane {s : State} {tile row : Nat} {u : Thread} {w : SlateWord} {ls : List Nat} {l : Nat}
    (hl : l ∈ ls) (hr : rayInRange (u.vreg w.a.toNat l) = true)
    (hc : SMap.get (fun _ => false) s.syn.checked (maskKey tile (row % 3) ((rayFields (u.vreg w.a.toNat l)).1 % 768))
      = false)
    (hd : ∀ l' ∈ ls, l' ≠ l → rayPlace (u.vreg w.a.toNat l') ≠ rayPlace (u.vreg w.a.toNat l)) :
    let z := s.ringStores tile row u w ls
    let f := rayFields (u.vreg w.a.toNat l)
    (∀ j, j < 3 → z.ringAt tile (row % 3) (rayPlace (u.vreg w.a.toNat l) + j) = ringColour (u.vreg (w.b.toNat + j) l))
      ∧ (z.ringMask tile (row % 3) (f.1 % 768)).getLsbD (f.2.2.2 * 20 + f.2.2.1) = true := by
  obtain ⟨hring, hmask⟩ := (ringStore_foldl tile row u w.a.toNat w.b.toNat s ls).2.2.2 l hl (rayView_lt hr) hc
    fun l' hl' hne i j hi hj => rayPlace_apart (hd l' hl' hne) hi hj
  refine ⟨hring, ?_⟩
  have hz : (s.ringStores tile row u w ls).maskDefault = s.maskDefault := by rw [s.ringStores_only]; rfl
  unfold State.ringMask
  rw [hz]
  exact hmask

section
variable {s : State} {t : ThreadId} {w : SlateWord} {ch : Chunk}
  (hr : (s.engine (engineKey t.hr.val t.eng.val)).run = some ch)
  (h : Issues s t { opc := 0x74, tys := [2], a := .v, b := .triple } w)
include hr h

theorem execStRing_trap (hx : ∃ l, (l < 64 ∧ ((thr s t).guard w).getLsbD l = true)
      ∧ ¬ RayOf t ch ((thr s t).vreg w.a.toNat l)) :
    execStRing t w s = .next (s.slateFault t 7) := by
  refine State.issue_trap h (.inl rfl) ?_
  simp only [hr]
  refine if_pos ((any_lanesOf ..).2 ?_)
  obtain ⟨l, hl, hn⟩ := hx
  refine ⟨l, hl, ?_⟩
  rw [← Bool.not_and, Bool.not_eq_true', ← Bool.not_eq_true, Bool.and_eq_true]
  exact hn

theorem execStRing_eq (hx : ∀ l, l < 64 ∧ ((thr s t).guard w).getLsbD l = true →
      RayOf t ch ((thr s t).vreg w.a.toNat l)) :
    execStRing t w s = .next (went
      (s.drawn.ringStores t.eng.val ch.row (thr s t) w (keptRays s (thr s t) w)) t w (thr s t)) := by
  refine State.issue_on h (.inl rfl) ?_ ?_
  · simp only [hr]
    refine if_neg fun hany => ?_
    obtain ⟨l, hl, hn⟩ := (any_lanesOf ..).1 hany
    rw [← Bool.not_and, Bool.not_eq_true', ← Bool.not_eq_true, Bool.and_eq_true] at hn
    exact hn (hx l hl)
  · unfold thr State.thread
    rw [State.ringStores_only]
    rfl

end

/-- Settles O23, instruction by instruction. -/
theorem rayResults : Obligations.RayResults := by
  intro s t w
  refine ⟨fun h => ⟨fun hx => execSeat_trap h hx,
      fun hx => ⟨_, execSeat_eq h hx, Thread.mapQuad_only .., Thread.vreg_mapQuad _ _ _ _⟩⟩,
    fun h => ⟨fun hg => execSmp_idle h hg,
      fun hg hp => ⟨_, execSmp_past h hg rfl hp, Thread.mapQuad_only .., Thread.vreg_mapQuad _ _ _ _⟩,
      fun hg hp hq => execSmp_full h hg rfl hp hq, fun hg hp hq => execSmp_queued h hg rfl hp hq⟩,
    fun c hc hz h5 st h => ?_, fun ch hr h => ⟨fun hx => execStRing_trap hr h hx, fun hx => ?_⟩⟩
  · subst hc
    refine ⟨(thr s t).blended st w, ?_, Thread.blended_only .., Thread.vreg_blended _ st w,
      fun i hi => Thread.preg_blended_of_ne _ st w hi, fun hc h0 => Thread.preg_blended _ st w (h5.resolve_right hc) h0⟩
    cases st
    · exact show execBlendPm t w s = _ from State.blendOp_eq hz h5 h
    · exact show execBlendSt t w s = _ from State.blendOp_eq hz h5 h
  · have hz := s.drawn.ringStores_only t.eng.val ch.row (thr s t) w (keptRays s (thr s t) w)
    refine ⟨_, _, _, (execStRing_eq hr h hx).trans (congrArg (fun z => Host.Outcome.next (went z t w (thr s t))) hz),
      fun l hl hc hd => ?_, fun k hk => State.ringStores_other fun l hl j hj => hk l j (active_of_mem_keptRays hl) hj⟩
    have hmem := mem_keptRays (s := s) hl fun l' hl' hne heq => hd l' hl' hne (congrArg rayPlace heq)
    have hlane := State.ringStores_lane (s := s.drawn) hmem (hx l hl).1 hc
      fun l' hl' hne => hd l' (active_of_mem_keptRays hl') hne
    rw [hz] at hlane
    exact hlane

end Sys2Proof.Machine

/-!
The statements of chapter 07 (Slate): the launch of a chunk, barriers, messages and samplers.
-/
namespace Sys2Proof.Machine

open Sys2Proof.Safety

/-! ## CHUNK_LAUNCH (07 R151, R181; 06 R130) -/

section
variable (s : State) (hr eng : Nat) (c : Chunk)

/-- The 8 threads of an engine at the entry of a chunk. -/
def State.startThreads : State :=
  (List.range 8).foldl (fun s' j => s'.setThread (8 * engineKey hr eng + j)
    (entryThread hr eng j { c with launch := s.clk.engineCycles } (s.clk.engineCycles + 12))) s

theorem State.launchChunk_started : s.launchChunk hr eng c = ((s.startThreads hr eng c).setEngine (engineKey hr eng)
    { run := some { c with launch := s.clk.engineCycles } }).setFld (Reg.hrStatus hr) 24 16 c.row :=
  s.launchChunk_eq hr eng c

theorem State.startThreads_only : ∃ m, s.startThreads hr eng c = { s with syn := { s.syn with threads := m } } :=
  ⟨_, setThreads_only (fun _ j => entryThread hr eng j { c with launch := s.clk.engineCycles } (s.clk.engineCycles + 12))
    (8 * engineKey hr eng + ·) (List.range 8) s⟩

theorem State.thread_startThreads (k : Nat) : (s.startThreads hr eng c).thread k =
    if 8 * engineKey hr eng ≤ k ∧ k < 8 * engineKey hr eng + 8 then
      entryThread hr eng (k - 8 * engineKey hr eng) { c with launch := s.clk.engineCycles } (s.clk.engineCycles + 12)
    else s.thread k :=
  launchThreads_get
    (fun j => entryThread hr eng j { c with launch := s.clk.engineCycles } (s.clk.engineCycles + 12)) _ 8 s k

theorem State.launchChunk_only : ∃ r e m,
    s.launchChunk hr eng c = { s with regs := r, syn := { s.syn with engines := e, threads := m } } := by
  obtain ⟨m, hm⟩ := s.startThreads_only hr eng c
  rw [State.launchChunk_started, hm]
  exact ⟨_, _, _, rfl⟩

theorem State.engine_launchChunk (k : Nat) : (s.launchChunk hr eng c).engine k =
    if k = engineKey hr eng then { run := some { c with launch := s.clk.engineCycles } } else s.engine k := by
  obtain ⟨m, hm⟩ := s.startThreads_only hr eng c
  rw [State.launchChunk_started, State.engine_setFld_eq, State.engine_setEngine, hm]
  rfl

theorem State.thread_launchChunk (k : Nat) : (s.launchChunk hr eng c).thread k = (s.startThreads hr eng c).thread k := by
  rw [State.launchChunk_started, State.thread_setFld_eq, State.thread_setEngine]

theorem State.reg_launchChunk {o : Nat} (h : o ≠ Reg.hrStatus hr) : (s.launchChunk hr eng c).reg o = s.reg o := by
  obtain ⟨m, hm⟩ := s.startThreads_only hr eng c
  rw [State.launchChunk_started, hm]
  exact State.reg_setReg_of_ne _ _ h

end

theorem execChunkLaunch_eq {s : State} {hr : Fin 12} {eng : Fin 16} {c : Chunk} (hl : s.live (6 + hr.val) = true)
    (hr' : (s.engine (engineKey hr.val eng.val)).run = none) (hw : (s.engine (engineKey hr.val eng.val)).wait = some c) :
    execChunkLaunch hr eng s = .next (s.launchChunk hr.val eng.val c) := by
  simp only [execChunkLaunch, hr', hw, hl, if_true]

/-! ## BAR_RELEASE (07 R177) -/

/-- The threads of an engine that live, of the 8 from a key. -/
def State.living (s : State) (key : Nat) : List Nat := (List.range 8).filter fun j => (s.thread (key + j)).alive

theorem State.mem_living (s : State) (key j : Nat) : j ∈ s.living key ↔ j < 8 ∧ (s.thread (key + j)).alive = true := by
  simp only [State.living, List.mem_filter, List.mem_range]

/-- The threads freed from their barrier. -/
def State.freeLiving (s : State) (key : Nat) : State :=
  (s.living key).foldl (fun s j => s.setThread (key + j) { (s.thread (key + j)) with bar := none }) s

theorem State.freeLiving_only (s : State) (key : Nat) :
    let z := s.freeLiving key
    z = { s with syn := { s.syn with threads := z.syn.threads } } :=
  setThreads_only (fun s j => { (s.thread (key + j)) with bar := none }) (key + ·) (s.living key) s

theorem State.thread_freeLiving (s : State) (n k : Nat) : (s.freeLiving (8 * n)).thread k =
    if k / 8 = n ∧ (s.thread k).alive = true then { s.thread k with bar := none } else s.thread k := by
  refine (freeThreads_get (8 * n) (s.living (8 * n)) (List.nodup_range.filter _) s k).trans (if_congr ?_ rfl rfl)
  rw [State.mem_living]
  constructor
  · rintro ⟨hle, hlt, ha⟩
    rw [Nat.add_sub_cancel' hle] at ha
    exact ⟨by omega, ha⟩
  · rintro ⟨hk, ha⟩
    have hle : 8 * n ≤ k := by omega
    exact ⟨hle, by omega, by rwa [Nat.add_sub_cancel' hle]⟩

/-- Every live thread of the engine is at the barrier x. -/
abbrev State.AllAt (s : State) (key x : Nat) : Prop :=
  ∀ j, j < 8 → (s.thread (key + j)).alive = true → (s.thread (key + j)).bar = some x

/-- The barriers at which the live threads of an engine are. -/
def State.bars (s : State) (key : Nat) : List (Option Nat) := (s.living key).map fun j => (s.thread (key + j)).bar

theorem State.mem_bars {s : State} {key j : Nat} (hj : j < 8) (ha : (s.thread (key + j)).alive = true) :
    (s.thread (key + j)).bar ∈ s.bars key :=
  List.mem_map_of_mem (f := fun j => (s.thread (key + j)).bar) ((s.mem_living key j).2 ⟨hj, ha⟩)

theorem State.AllAt.eq_of_mem_bars {s : State} {key x : Nat} (h : s.AllAt key x) {b : Option Nat} (hb : b ∈ s.bars key) :
    b = some x := by
  obtain ⟨j, hj, rfl⟩ := List.mem_map.1 hb
  obtain ⟨hj8, ha⟩ := (s.mem_living ..).1 hj
  exact h j hj8 ha

section
variable {s : State} {hr : Fin 12} {eng : Fin 16}

theorem execBarRelease_frees {x j₀ : Nat} (hl : s.live (6 + hr.val) = true) (h₀ : j₀ < 8)
    (ha : (s.thread (8 * engineKey hr.val eng.val + j₀)).alive = true) (hx : s.AllAt (8 * engineKey hr.val eng.val) x) :
    execBarRelease hr eng s = .next (s.freeLiving (8 * engineKey hr.val eng.val)) := by
  have hmem := s.mem_bars h₀ ha
  have hall : ∀ b ∈ s.bars (8 * engineKey hr.val eng.val), b = some x := fun b => hx.eq_of_mem_bars
  unfold execBarRelease
  dsimp only
  split
  · next y rest hb =>
    change s.bars _ = _ at hb
    rw [hb] at hall
    rw [hl, hall (some y) (List.mem_cons_self ..)]
    exact if_pos (List.all_eq_true.2 fun b hb => beq_iff_eq.2 (hall b (List.mem_cons_of_mem _ hb)))
  · next hno =>
    cases hb : s.bars (8 * engineKey hr.val eng.val) with
    | nil => rw [hb] at hmem; cases hmem
    | cons b rest =>
      rw [hb] at hall
      exact absurd (hb.trans (congrArg (· :: rest) (hall b (List.mem_cons_self ..)))) (hno x rest)

theorem execBarRelease_waits {i j : Nat} (hi : i < 8) (hj : j < 8)
    (hia : (s.thread (8 * engineKey hr.val eng.val + i)).alive = true)
    (hja : (s.thread (8 * engineKey hr.val eng.val + j)).alive = true)
    (h : (s.thread (8 * engineKey hr.val eng.val + i)).bar ≠ (s.thread (8 * engineKey hr.val eng.val + j)).bar
      ∨ (s.thread (8 * engineKey hr.val eng.val + i)).bar = none) : execBarRelease hr eng s = .next s := by
  have hmi := s.mem_bars hi hia
  have hmj := s.mem_bars hj hja
  unfold execBarRelease
  dsimp only
  split
  · next y rest hb =>
    change s.bars _ = _ at hb
    rw [hb] at hmi hmj
    refine if_neg fun hc => ?_
    obtain ⟨-, hrest⟩ := Bool.and_eq_true_iff.1 hc
    have hall : ∀ b ∈ some y :: rest, b = some y := fun b hb => (List.mem_cons.1 hb).elim id fun hb =>
      beq_iff_eq.1 (List.all_eq_true.1 hrest b hb)
    rcases h with h | h
    · exact h ((hall _ hmi).trans (hall _ hmj).symm)
    · cases h.symm.trans (hall _ hmi)
  · rfl

end

/-! ## MSG (07 R179; 08 R207) -/

theorem State.msgDiscarded_iff (s : State) :
    s.msgDiscarded = true ↔ s.flag Reg.seqCtrl 0 = false ∨ s.seq.st = .halted := by
  simp only [State.msgDiscarded, Bool.or_eq_true, Bool.not_eq_true', beq_iff_eq]

section
variable {s : State} {t : ThreadId} {w : SlateWord} (g : Open s t w)
  (h : Issues s t { opc := 0x82, tys := [1], a := .s, b := .s, imm := true } w)
include g h

theorem execMsg_full (hd : s.msgDiscarded = false) (hq : 64 ≤ s.seq.msgs.length) : execMsg t w s = .next s :=
  State.issue_stall h (.inr g) (if_pos (by rw [hd, decide_eq_true hq]; rfl))

/-- MSG that need not wait leaves its message where `State.seqMessage` puts it. -/
theorem execMsg_eq {z : State} (hq : s.msgDiscarded = true ∨ s.seq.msgs.length < 64)
    (hz : s.seqMessage ⟨(thr s t).sreg w.a.toNat, (thr s t).sreg w.b.toNat, w.imm16, t.hr.val, t.eng.val, t.th.val⟩ = z)
    (hthr : thr z t = thr s t) : execMsg t w s = .next (went z t w (thr s t)) := by
  subst hz
  refine State.issue_on h (.inr g) (if_neg fun hc => ?_) hthr
  obtain ⟨hn, hle⟩ := Bool.and_eq_true_iff.1 hc
  rcases hq with hq | hq
  · rw [hq] at hn
    cases hn
  · exact Nat.not_le.2 hq (of_decide_eq_true hle)

end

theorem State.seqMessage_discarded {s : State} {m : EngMsg} (hd : s.msgDiscarded = true) : s.seqMessage m = s := if_pos hd

theorem State.seqMessage_queued {s : State} {m : EngMsg} (hd : s.msgDiscarded = false)
    (hw : ∀ d, s.seq.st ≠ .waiting (.message d)) :
    s.seqMessage m = { s with seq := { s.seq with msgs := s.seq.msgs ++ [m] } } := by
  unfold State.seqMessage
  rw [hd, if_neg Bool.false_ne_true]
  split
  · next d hst => exact absurd hst (hw d)
  · rfl

theorem State.seqMessage_taken {s : State} {m : EngMsg} {d : Nat} (hd : s.msgDiscarded = false)
    (hw : s.seq.st = .waiting (.message d)) : s.seqMessage m = (s.takeMsg d m).seqDone := by
  unfold State.seqMessage
  rw [hd, if_neg Bool.false_ne_true, hw]

/-! ## SAMPLER_REQUEST (07 R174; 06 R128) -/

/-- The machine once sampler smp of Homeroom hr has taken the first request of engine e: the turn is the engine's, the
sampler no longer waits for a miss tag. -/
def State.takeRequest (s : State) (hr smp e : Nat) (rest : List SmpReq) : State :=
  State.setEngine { s with syn := { s.syn with
      rr := SMap.put (fun _ => 3) s.syn.rr (4 * hr + smp) (e % 4)
      tagWait := s.syn.tagWait &&& ~~~ BitVec.ofNat 48 (2 ^ (4 * hr + smp)) } }
    (engineKey hr e) { (s.engine (engineKey hr e)) with queue := rest }

/-- The machine once the samples of a request stand in the registers of its thread. -/
def State.serveRequest (s : State) (hr e : Nat) (b : RowLatch) (q : SmpReq) : State :=
  match b.stack[q.entry]? with
  | some ent => s.sampleLanes hr e b ent q
  | none => s

/-- Samples are counted in units of 64, the rest kept. -/
def State.countSamples (s : State) (hr n : Nat) : State :=
  let m := SMap.get (fun _ => 0) s.syn.smpRest hr + n
  State.bump { s with syn := { s.syn with smpRest := SMap.put (fun _ => 0) s.syn.smpRest hr (m % 64) } }
    (Reg.hrCnt hr 2) (m / 64)

section
variable {s : State} {hr : Fin 12} {smp : Fin 4} {ch : Fin 16} {e : Nat} {q : SmpReq} {rest : List SmpReq} {c : Chunk}
  (hn : s.nextEngine hr.val smp.val = some e) (hq : (s.engine (engineKey hr.val e)).queue = q :: rest)
  (hc : (s.engine (engineKey hr.val e)).run = some c) (hl : s.live (6 + hr.val) = true)
  (hr' : (s.engineRuns || s.quiescing) = true)
include hn hq hc hl hr'

theorem execSamplerRequest_waits (ht : 256 ≤ s.missTags hr.val)
    (hm : (((s.bank c.row).stack[q.entry]?).any fun ent => s.requestMisses hr.val (s.bank c.row) ent q) = true) :
    execSamplerRequest hr smp ch [] s = .next { s with syn := { s.syn with
      tagWait := s.syn.tagWait ||| BitVec.ofNat 48 (2 ^ (4 * hr.val + smp.val)) } } := by
  unfold execSamplerRequest
  rw [show s.strike ch.val [] = s from rfl]
  simp only [hn, hq, hc, hl, hr', hm, decide_eq_true ht, Bool.and_self, if_true]

theorem execSamplerRequest_serves (hm : s.missTags hr.val < 256
      ∨ (((s.bank c.row).stack[q.entry]?).any fun ent => s.requestMisses hr.val (s.bank c.row) ent q) = false) :
    execSamplerRequest hr smp ch [] s = .next
      (((s.takeRequest hr.val smp.val e rest).serveRequest hr.val e (s.bank c.row) q).countSamples hr.val
        (lanesOf q.lanes).length) := by
  have hno : (decide (256 ≤ s.missTags hr.val)
      && ((s.bank c.row).stack[q.entry]?).any fun ent => s.requestMisses hr.val (s.bank c.row) ent q) = false := by
    rcases hm with hm | hm
    · rw [decide_eq_false (Nat.not_le.2 hm), Bool.false_and]
    · rw [hm, Bool.and_false]
  unfold execSamplerRequest
  rw [show s.strike ch.val [] = s from rfl]
  simp only [hn, hq, hc, hl, hr', hno, Bool.and_self, if_true, Bool.false_eq_true, if_false]
  rfl

end

section
variable (s : State) (hr e : Nat) (b : RowLatch) (q : SmpReq)

/-- Serving a request reads lines and writes the quad of its thread in its lanes. -/
theorem State.serveRequest_spec :
    let z := s.serveRequest hr e b q
    let k := 8 * engineKey hr e + q.thread
    SampledRays hr s z ∧ (∀ i, i ≠ k → z.thread i = s.thread i) ∧ z.thread k = { s.thread k with v := (z.thread k).v }
      ∧ ∀ r l, l < 64 → ¬ (q.dest ≤ r ∧ r < q.dest + 4 ∧ q.lanes.getLsbD l = true) →
        (z.thread k).vreg r l = (s.thread k).vreg r l := by
  unfold State.serveRequest
  split
  · next ent _ =>
    obtain ⟨h1, h2, h3, h4, -⟩ := sampleLanes_any hr (8 * engineKey hr e + q.thread) b ent q (lanesOf q.lanes)
      (List.nodup_range.filter _) (fun i hi => ((mem_lanesOf ..).1 hi).1) s
    exact ⟨h1, h2, h3, fun r l hl hn => h4 r l hl fun ⟨hlo, hhi, hm⟩ => hn ⟨hlo, hhi, ((mem_lanesOf ..).1 hm).2⟩⟩
  · exact ⟨.refl .., fun _ _ => rfl, rfl, fun _ _ _ _ => rfl⟩

variable {s hr e b q} {ent : StackEntry} (he : b.stack[q.entry]? = some ent)
include he

theorem State.serveRequest_lane {l : Nat} (hl : l < 64) (ha : q.lanes.getLsbD l = true) :
    ∃ z, SampledRays hr s z ∧ ∀ j, j < 4 →
      ((s.serveRequest hr e b q).thread (8 * engineKey hr e + q.thread)).vreg (q.dest + j) l =
        (z.sampleRay hr b ent (q.px.getD l 0) (q.py.getD l 0) (q.sg.getD l 0) (q.ta.getD l 0)).2.getD j 0 := by
  unfold State.serveRequest
  rw [he]
  exact (sampleLanes_any hr (8 * engineKey hr e + q.thread) b ent q (lanesOf q.lanes) (List.nodup_range.filter _)
    (fun i hi => ((mem_lanesOf ..).1 hi).1) s).2.2.2.2 l ((mem_lanesOf ..).2 ⟨hl, ha⟩)

/-- A request that misses nothing is served over the cache of s as it stands, whatever else of the synthesis has moved. -/
theorem State.serveRequest_hit {y : Syn} (hy : y.cache = s.syn.cache) (hm : s.requestMisses hr b ent q = false) :
    let z := State.serveRequest { s with syn := y } hr e b q
    z = { s with syn := z.syn } ∧ ∀ l j, l < 64 → j < 4 → q.lanes.getLsbD l = true →
      (z.thread (8 * engineKey hr e + q.thread)).vreg (q.dest + j) l =
        (s.sampleRay hr b ent (q.px.getD l 0) (q.py.getD l 0) (q.sg.getD l 0) (q.ta.getD l 0)).2.getD j 0 := by
  unfold State.serveRequest
  rw [he]
  obtain ⟨⟨h1, -⟩, h2⟩ := sampleLanes_good hr (8 * engineKey hr e + q.thread) b ent q (lanesOf q.lanes)
    (List.nodup_range.filter _) (fun i hi => ((mem_lanesOf ..).1 hi).1) s { s with syn := y } y rfl hy
    (fun i hi => Bool.eq_false_iff.2 (List.any_eq_false.1 hm i hi))
  exact ⟨h1, fun l j hl hj ha => h2 l j ((mem_lanesOf ..).2 ⟨hl, ha⟩) hj⟩

end

theorem RegsAndEvents.withSyn {a b : State} (h : RegsAndEvents a b) (y : Syn) :
    RegsAndEvents { a with syn := y } { b with syn := y } := by
  unfold RegsAndEvents at *
  rw [h]

/-- What reading samples may do, of the whole machine. -/
theorem SampledRays.regsAndEvents {hr : Nat} {s z : State} (h : SampledRays hr s z) :
    RegsAndEvents { s with draws := z.draws, syn := z.syn } z := by
  have h1 := h.1
  rwa [← h.2.1] at h1

/-- Counting adds to the sample counter and to the rest, no more. -/
theorem State.countSamples_only (s : State) (hr n : Nat) :
    ∃ m k, s.countSamples hr n = State.bump { s with syn := { s.syn with smpRest := m } } (Reg.hrCnt hr 2) k :=
  ⟨_, _, rfl⟩

/-- The whole of a request that is served (R174): the queue, the turn and the wait of the sampler, the quad. -/
theorem State.samplerRequest_spec {s t : State} {hr smp e n : Nat} {rest : List SmpReq} {b : RowLatch} {q : SmpReq}
    (ht : ((s.takeRequest hr smp e rest).serveRequest hr e b q).countSamples hr n = t) :
    let k := 8 * engineKey hr e + q.thread
    RegsAndEvents { s with draws := t.draws, syn := t.syn } t
      ∧ (∀ i, t.engine i = if i = engineKey hr e then { s.engine i with queue := rest } else s.engine i)
      ∧ (∀ i, SMap.get (fun _ => 3) t.syn.rr i = if i = 4 * hr + smp then e % 4 else SMap.get (fun _ => 3) s.syn.rr i)
      ∧ t.syn.tagWait = s.syn.tagWait &&& ~~~ BitVec.ofNat 48 (2 ^ (4 * hr + smp))
      ∧ (∀ i, i ≠ k → t.thread i = s.thread i)
      ∧ t.thread k = { s.thread k with v := (t.thread k).v }
      ∧ ∀ r l, l < 64 → ¬ (q.dest ≤ r ∧ r < q.dest + 4 ∧ q.lanes.getLsbD l = true) →
        (t.thread k).vreg r l = (s.thread k).vreg r l := by
  obtain ⟨hz, hother, hk, hregs⟩ := (s.takeRequest hr smp e rest).serveRequest_spec hr e b q
  generalize (s.takeRequest hr smp e rest).serveRequest hr e b q = z at ht hz hother hk hregs
  obtain ⟨m, j, hm⟩ := z.countSamples_only hr n
  obtain rfl := hm.symm.trans ht
  have hsyn := hz.2.1
  refine ⟨(RegsAndEvents.withSyn hz.regsAndEvents _).trans (RegsAndEvents.bump ..), fun i => ?_, fun i => ?_,
    (congrArg Syn.tagWait hsyn :), hother, hk, hregs⟩
  · refine (congrArg (fun y => SMap.get (fun _ => {}) (Syn.engines y) i) hsyn).trans ?_
    refine (State.engine_setEngine ..).trans ?_
    split
    · next hi => rw [hi]
    · rfl
  · exact (congrArg (fun y => SMap.get (fun _ => 3) (Syn.rr y) i) hsyn).trans (SMap.get_put ..)

/-- Every lane's quad holds the samples taken at some point of the service (R135 to R138). -/
theorem State.samplerRequest_lane {s t : State} {hr smp e n : Nat} {rest : List SmpReq} {b : RowLatch} {q : SmpReq}
    {ent : StackEntry} (ht : ((s.takeRequest hr smp e rest).serveRequest hr e b q).countSamples hr n = t)
    (he : b.stack[q.entry]? = some ent) {l : Nat} (hl : l < 64) (ha : q.lanes.getLsbD l = true) :
    ∃ z : State, RegsAndEvents { s with draws := z.draws, syn := z.syn } z
      ∧ (∀ x ∈ SMap.get (fun _ => []) z.syn.cache hr,
        x ∈ SMap.get (fun _ => []) s.syn.cache hr ∨ x.bytes = s.bytesAt (64 * x.line) 64)
      ∧ ∀ j, j < 4 → (t.thread (8 * engineKey hr e + q.thread)).vreg (q.dest + j) l =
        (z.sampleRay hr b ent (q.px.getD l 0) (q.py.getD l 0) (q.sg.getD l 0) (q.ta.getD l 0)).2.getD j 0 := by
  obtain ⟨z, hz, hv⟩ := State.serveRequest_lane (s := s.takeRequest hr smp e rest) (hr := hr) (e := e) he hl ha
  subst ht
  exact ⟨z, hz.regsAndEvents, hz.2.2, hv⟩

/-- A request that misses nothing is served over the cache as it stands. -/
theorem State.samplerRequest_hit {s t : State} {hr smp e n : Nat} {rest : List SmpReq} {b : RowLatch} {q : SmpReq}
    {ent : StackEntry} (ht : ((s.takeRequest hr smp e rest).serveRequest hr e b q).countSamples hr n = t)
    (he : b.stack[q.entry]? = some ent) (hm : s.requestMisses hr b ent q = false) :
    (∀ l j, l < 64 → j < 4 → q.lanes.getLsbD l = true → (t.thread (8 * engineKey hr e + q.thread)).vreg (q.dest + j) l =
        (s.sampleRay hr b ent (q.px.getD l 0) (q.py.getD l 0) (q.sg.getD l 0) (q.ta.getD l 0)).2.getD j 0)
      ∧ ∃ k, t = ({ s with syn := t.syn } : State).bump (Reg.hrCnt hr 2) k := by
  obtain ⟨hz, hv⟩ := State.serveRequest_hit (s := s) (hr := hr) (e := e) (y := (s.takeRequest hr smp e rest).syn) he rfl hm
  rw [show ({ s with syn := (s.takeRequest hr smp e rest).syn } : State) = s.takeRequest hr smp e rest from rfl] at hz hv
  generalize (s.takeRequest hr smp e rest).serveRequest hr e b q = z at ht hz hv
  obtain ⟨m, k, hk⟩ := z.countSamples_only hr n
  obtain rfl := hk.symm.trans ht
  refine ⟨hv, k, ?_⟩
  rw [hz]
  rfl

/-- Settles O24, command by command. -/
theorem threadsMeetAndReport : Obligations.ThreadsMeetAndReport := by
  intro s
  refine ⟨fun hr eng c hl hrun hw => ?_, fun t w g h => ?_,
    fun hr eng => ⟨fun x j₀ hl h₀ ha hx => ?_, fun i j hi hj hia hja h => ?_⟩,
    fun t w g h => ⟨fun hd => ?_, fun hd hq => ?_, fun hd hq hw => ?_, fun d hen hq hw => ?_⟩,
    fun hr smp ch e q rest c hn hq hc hl hrun => ⟨fun ht hm => ?_, fun hm => ?_⟩, fun hr smp ch ups => rfl⟩
  · refine ⟨_, execChunkLaunch_eq hl hrun hw, ?_, fun k hk => ?_, fun k hk => ?_,
      fun off ho => s.reg_launchChunk _ _ c ho, ?_, fun j hj => ?_⟩
    · exact (s.engine_launchChunk ..).trans (if_pos rfl)
    · exact (s.engine_launchChunk ..).trans (if_neg hk)
    · rw [State.thread_launchChunk, State.thread_startThreads, if_neg (by omega)]
    · obtain ⟨r, e, m, h⟩ := s.launchChunk_only hr.val eng.val c
      rw [h]
    · rw [State.thread_launchChunk, State.thread_startThreads, if_pos (by omega), Nat.add_sub_cancel_left]
      exact entryThread_spec ..
  · exact show execBar t w s = _ from State.issue_regs h (.inr g) rfl
  · exact ⟨_, execBarRelease_frees hl h₀ ha hx, s.freeLiving_only _, s.thread_freeLiving _⟩
  · exact execBarRelease_waits hi hj hia hja h
  · have hdisc := s.msgDiscarded_iff.2 hd
    exact execMsg_eq g h (.inl hdisc) (State.seqMessage_discarded hdisc) rfl
  · exact execMsg_full g h (Bool.eq_false_iff.2 (mt s.msgDiscarded_iff.1 hd)) hq
  · exact execMsg_eq g h (.inr hq) (State.seqMessage_queued (Bool.eq_false_iff.2 (mt s.msgDiscarded_iff.1 hd)) hw) rfl
  · have hd : s.msgDiscarded = false := by
      rw [State.msgDiscarded, hen, hw]
      rfl
    exact execMsg_eq g h (.inr hq) (State.seqMessage_taken hd hw) (State.thread_takeMsg ..)
  · exact execSamplerRequest_waits hn hq hc hl hrun ht hm
  · have hserve := execSamplerRequest_serves (ch := ch) hn hq hc hl hrun hm
    generalize ht : ((s.takeRequest hr.val smp.val e rest).serveRequest hr.val e (s.bank c.row) q).countSamples hr.val
      (lanesOf q.lanes).length = t at hserve
    obtain ⟨hregs, heng, hrr, htag, hother, hthr, hv⟩ := State.samplerRequest_spec ht
    refine ⟨t, hserve, hregs, heng, hrr, htag, hother, hthr, hv, fun ent he =>
      ⟨fun l hl ha => State.samplerRequest_lane ht he hl ha, fun hmiss => State.samplerRequest_hit ht he ?_⟩⟩
    rwa [he, Option.any_some] at hmiss

end Sys2Proof.Machine

/-!
The statements of chapter 08 (the Timetable): what a Slate-T instruction computes, what it acts on, how it faults, and the
registers that start and stop the sequencer.
-/
namespace Sys2Proof.Machine

open Sys2Proof.Safety

/-! ## The place of an instruction (08 R185, R186) -/

section
variable {s : State} {p : TShape} {w : SlateWord} (h : SeqIssues s p w) (hp : 3 ∉ p.bsels)
include h hp

/-- An instruction whose form takes no 32-bit immediate is one word. -/
theorem seqNext_of_oneWord : s.seqNext w = s.seq.pc + 8 := by
  have hx : w.ext = false := Bool.eq_false_iff.2 fun he => hp (TShape.bsel_of_ext h.2.2.1 he)
  unfold State.seqNext
  rw [hx]
  rfl

/-- One word back from the instruction after it stands the instruction itself. -/
theorem seqPc_back_of_oneWord : (s.seqPc (s.seqNext w)).seqPc ((s.seqPc (s.seqNext w)).seq.pc - 8) = s := by
  rw [seqNext_of_oneWord h hp]
  exact s.seqPc_back _

/-- Where it waits, the program counter is still at it. -/
theorem seqWait_of_oneWord (x : SeqWait) :
    (s.seqPc (s.seqNext w)).seqWait ((s.seqPc (s.seqNext w)).seq.pc - 8) x = s.seqSt (.waiting x) :=
  congrArg (State.seqSt · (.waiting x)) (seqPc_back_of_oneWord h hp)

end

/-! ## Arithmetic and RDSR (08 R187, R188) -/

theorem State.tAlu_eq {s : State} {opc : BitVec 8} {w : SlateWord} (f : Nat → Nat → Nat) (h : SeqIssues s (shapeAlu opc) w) :
    s.tAlu w opc f = .next ((s.seqPc (s.seqNext w)).setT w.d.toNat (f (s.tReg w.a.toNat) (s.tB w))) :=
  State.seqIssue_eq h rfl

/-- No special register depends on the program counter. -/
theorem State.specialT_seqPc (s : State) (pc n : Nat) : (s.seqPc pc).specialT n = s.specialT n := rfl

theorem execRdsr_eq {s : State} {w : SlateWord} (h : SeqIssues s { opc := 0xC7, d := true, imm := true } w) :
    execRdsr w s = .next (if w.imm16.toNat ≤ 12 then (s.seqPc (s.seqNext w)).setT w.d.toNat (s.specialT w.imm16.toNat)
      else s.seqFault 1) := by
  unfold execRdsr
  by_cases hn : w.imm16.toNat ≤ 12
  · rw [if_pos hn, ← State.specialT_seqPc s (s.seqNext w)]
    exact State.seqIssue_eq h (decide_eq_false (Nat.not_lt.2 hn))
  · rw [if_neg hn]
    exact State.seqIssue_bad h (decide_eq_true (Nat.lt_of_not_le hn))

/-! ## WAITROW (08 R187) -/

theorem execWaitrow_eq {s : State} {w : SlateWord} (h : SeqIssues s { opc := 0xC9, b := true, bsels := [0, 2] } w) :
    execWaitrow w s = .next (if s.tB w ≤ 447 then
        if s.tB w ≤ s.seq.slot then s.seqPc (s.seqNext w) else s.seqSt (.waiting (.row (s.tB w)))
      else s.seqFault 1) := by
  unfold execWaitrow
  by_cases hk : s.tB w ≤ 447
  · rw [if_pos hk, ← seqWait_of_oneWord h (by simp)]
    refine (State.seqIssue_eq h (decide_eq_false (Nat.not_lt.2 hk))).trans (congrArg _ ?_)
    exact if_congr decide_eq_true_iff rfl rfl
  · rw [if_neg hk]
    exact State.seqIssue_bad h (decide_eq_true (Nat.lt_of_not_le hk))

/-! ## BR (08 R187) -/

/-- The form of a branch: ALWAYS compares nothing. -/
def brForm (always : Bool) : TShape :=
  { opc := 0xC8, a := !always, b := !always, bsels := [0, 3], mod := 15, imm := true }

theorem brForm_eq (c : Nat) :
    ({ opc := 0xC8, a := c ≠ 6, b := c ≠ 6, bsels := [0, 3], mod := 15, imm := true } : TShape) = brForm (c == 6) := by
  by_cases hc : c = 6 <;> simp [brForm, hc]

/-- The comparison of a branch is signed if MOD[3] is 1: its form has no higher bit of MOD. -/
theorem brForm_signed {always : Bool} {w : SlateWord} (h : (brForm always).ok w = true) :
    (w.mod.toNat / 8 == 1) = w.mod.getLsbD 3 := by
  have hmod : w.mod.toNat &&& 48 = 0 := by
    unfold TShape.ok at h
    simp only [Bool.and_eq_true] at h
    exact beq_iff_eq.1 h.1.2
  revert hmod
  generalize w.mod = m
  revert m
  decide

theorem tCond_iff {c : Nat} (hc : c < 7) (signed : Bool) (a b : Nat) :
    let x : Int := if signed then sext 32 a else a
    let y : Int := if signed then sext 32 b else b
    tCond c signed a b = true ↔ (c = 0 ∧ x = y) ∨ (c = 1 ∧ x ≠ y) ∨ (c = 2 ∧ x < y) ∨ (c = 3 ∧ x ≤ y) ∨ (c = 4 ∧ y < x)
      ∨ (c = 5 ∧ y ≤ x) ∨ c = 6 := by
  intro x y
  unfold tCond
  interval_cases c <;> simp [x, y]

/-- What a branch that is taken comes to: BRANCH if its target lies outside program memory. -/
def State.branchTo (s : State) (target : Int) : State :=
  if target < 0 ∨ 65536 ≤ target then s.seqFault 4 else s.seqPc target.toNat

section
variable {s : State} {w : SlateWord} (h : SeqIssues s (brForm (w.mod.toNat % 8 == 6)) w)
include h

theorem execSlateTBr_eq (hc : w.mod.toNat % 8 ≠ 7) :
    execSlateTBr w s = .next (if tCond (w.mod.toNat % 8) (w.mod.getLsbD 3) (s.tReg w.a.toNat) (s.tB w)
      then s.branchTo (s.seq.pc + 8 * w.imm16.toInt) else s.seqPc (s.seqNext w)) := by
  have hat : (((s.seqPc (s.seqNext w)).seq.pc : Int) - if w.ext then 16 else 8) = s.seq.pc := by
    change ((s.seqNext w : Nat) : Int) - _ = _
    unfold State.seqNext
    cases w.ext <;> simp
  unfold execSlateTBr
  refine (State.seqIssue_eq h (beq_false_of_ne hc)).trans (congrArg _ ?_)
  dsimp only
  rw [hat, brForm_signed h.2.2.1]
  simp only [State.branchTo, Bool.or_eq_true, decide_eq_true_eq]
  rfl

theorem execSlateTBr_illegal (hc : w.mod.toNat % 8 = 7) : execSlateTBr w s = .next (s.seqFault 1) := by
  unfold execSlateTBr
  exact State.seqIssue_bad h (beq_iff_eq.2 hc)

end

/-! ## The statement on computing instructions -/

/-- Settles O25, instruction by instruction. -/
theorem timetableComputes : Obligations.TimetableComputes := by
  intro s w a b next alu cc br
  refine ⟨fun h => show execSlateTNop w s = _ from State.seqIssue_eq h rfl,
    fun h => show execSet w s = _ from State.seqIssue_eq h rfl,
    ⟨fun h => show execAdd w s = _ from State.tAlu_eq _ h, fun h => show execSub w s = _ from State.tAlu_eq _ h,
      fun h => show execAnd w s = _ from State.tAlu_eq _ h, fun h => show execOr w s = _ from State.tAlu_eq _ h,
      fun h => show execShr w s = _ from State.tAlu_eq _ h⟩,
    fun h => ⟨fun hn => (execRdsr_eq h).trans (congrArg _ (if_pos hn)),
      fun hn => (execRdsr_eq h).trans (congrArg _ (if_neg (Nat.not_le.2 hn)))⟩,
    fun h => ?_,
    fun h => ⟨fun hb hk => (execWaitrow_eq h).trans (congrArg _ ((if_pos hk).trans (if_pos hb))),
      fun hb hk => (execWaitrow_eq h).trans (congrArg _ ((if_pos hk).trans (if_neg (Nat.not_le.2 hb)))),
      fun hk => (execWaitrow_eq h).trans (congrArg _ (if_neg (Nat.not_le.2 hk)))⟩,
    fun h => show execWaitbell w s = _ from
      (State.seqIssue_eq h rfl).trans (congrArg _ (seqWait_of_oneWord h (by simp) _))⟩
  intro x y holds target
  have hbr : SeqIssues s (brForm (cc == 6)) w := brForm_eq cc ▸ h
  have hiff (hc : cc ≠ 7) : tCond cc (w.mod.getLsbD 3) a b = true ↔ holds := tCond_iff (by omega) ..
  have hne (hh : holds) : cc ≠ 7 := by
    rcases hh with ⟨hcc, -⟩ | ⟨hcc, -⟩ | ⟨hcc, -⟩ | ⟨hcc, -⟩ | ⟨hcc, -⟩ | ⟨hcc, -⟩ | hcc <;> omega
  have htaken (hh : holds) : exec (.slateTBr w) s = .next (s.branchTo target) :=
    (execSlateTBr_eq hbr (hne hh)).trans (congrArg _ (if_pos ((hiff (hne hh)).2 hh)))
  exact ⟨fun hh h0 h1 => (htaken hh).trans (congrArg _ (if_neg (by omega))),
    fun hh ht => (htaken hh).trans (congrArg _ (if_pos ht)),
    fun hh hc => (execSlateTBr_eq hbr hc).trans (congrArg _ (if_neg (mt (hiff hc).1 hh))),
    fun hc => execSlateTBr_illegal hbr hc⟩

/-! ## DISPATCH (08 R193) -/

section
variable (s : State) (at_ entry row count frame : Nat)

/-- The rows of a DISPATCH for which the queue has room, behind what it holds. -/
def State.rowsQueued : List (BitVec 64) :=
  s.seq.desc ++ (List.range (min count (1024 - s.seq.desc.length))).map fun i => descOf entry (row + i) frame

theorem State.dispatchRows_all (hn : min count (1024 - s.seq.desc.length) = count) :
    s.dispatchRows at_ entry row count frame = { s with seq := { s.seq with
      desc := s.rowsQueued entry row count frame, pc := at_ + 8, st := .running } } := by
  unfold State.dispatchRows State.rowsQueued
  rw [pushDescs_eq, hn, Nat.sub_self]
  rfl

theorem State.dispatchRows_waits (hn : min count (1024 - s.seq.desc.length) < count) :
    let n := min count (1024 - s.seq.desc.length)
    s.dispatchRows at_ entry row count frame = { s with seq := { s.seq with
      desc := s.rowsQueued entry row count frame, pc := at_
      st := .waiting (.dispatch entry (row + n) (count - n) frame) } } := by
  intro n
  have hrest : count - (count - n) = n := Nat.sub_sub_self (Nat.le_of_lt hn)
  unfold State.dispatchRows State.rowsQueued
  rw [pushDescs_eq]
  dsimp only
  rw [if_neg (show count - n ≠ 0 by omega), hrest]
  rfl

end

/-- The operands that DISPATCH allows: an entry of the code region, rows of the panel. -/
abbrev dispatchLegal (entry row count : Nat) : Prop := entry % 8 = 0 ∧ entry < 0x80000 ∧ row + count ≤ 432

section
variable {s : State} {w : SlateWord} (h : SeqIssues s { opc := 0xCB, a := true, b := true, c := true, mod := 1 } w)
include h

theorem execDispatch_legal (hl : dispatchLegal (s.tReg w.a.toNat) (s.tReg w.b.toNat) (s.tReg w.c.toNat)) :
    execDispatch w s = .next ((s.seqPc (s.seqNext w)).dispatchRows s.seq.pc (s.tReg w.a.toNat) (s.tReg w.b.toNat)
      (s.tReg w.c.toNat) (s.seq.frame + w.mod.toNat % 2)) := by
  have hpc : (s.seqPc (s.seqNext w)).seq.pc - 8 = s.seq.pc := by
    rw [seqNext_of_oneWord h (by simp)]
    rfl
  unfold execDispatch
  rw [State.seqIssue_eq h (by simp; omega), hpc]
  rfl

theorem execDispatch_illegal (hl : ¬ dispatchLegal (s.tReg w.a.toNat) (s.tReg w.b.toNat) (s.tReg w.c.toNat)) :
    execDispatch w s = .next (s.seqFault 1) := by
  unfold execDispatch
  exact State.seqIssue_bad h (by simp; omega)

end

/-! ## MODE and COMMIT (08 R196, R197, R203) -/

@[simp] theorem State.commitLate_seq (s : State) : s.commitLate.seq = s.seq := by simp [State.commitLate]

/-- The mask of a late commit joins the pending one. -/
theorem State.lateCommit_eq (s : State) (mask : BitVec 16) :
    s.lateCommit mask = { s.commitLate with seq := { s.commitLate.seq with
      commitPend := some (s.seq.commitPend.getD 0 ||| mask) } } :=
  congrArg (fun q : Seq => { s.commitLate with seq := { s.commitLate.seq with
    commitPend := some (q.commitPend.getD 0 ||| mask) } }) s.commitLate_seq

theorem execMode_eq {s : State} {w : SlateWord} (h : SeqIssues s { opc := 0xCE, a := true } w) :
    let next := s.seqPc (s.seqNext w)
    let code := s.tReg w.a.toNat % 8
    execMode w s = .next (if code < 6 then
        if s.seq.slot = 447 then { next.commitLate with seq := { next.commitLate.seq with lateReq := some code } }
        else { next with seq := { next.seq with req := some code } }
      else s.seqFault 1) := by
  intro next code
  unfold execMode
  by_cases hc : code < 6
  · rw [if_pos hc]
    refine (State.seqIssue_eq h (decide_eq_false (Nat.not_le.2 hc))).trans (congrArg _ ?_)
    exact if_congr beq_iff_eq rfl rfl
  · rw [if_neg hc]
    exact State.seqIssue_bad h (decide_eq_true (Nat.le_of_not_lt hc))

theorem execCommit_eq {s : State} {w : SlateWord} (h : SeqIssues s { opc := 0xCD, b := true, bsels := [0, 2] } w) :
    let next := s.seqPc (s.seqNext w)
    let mask := BitVec.ofNat 16 (s.tB w)
    execCommit w s = .next (if s.seq.slot < 432 then s.seqSt (.waiting (.commit mask.toNat))
      else if s.seq.slot < 447 then next.commitGroups mask
      else { next.commitLate with seq := { next.commitLate.seq with
        commitPend := some (s.seq.commitPend.getD 0 ||| mask) } }) := by
  intro next mask
  unfold execCommit
  exact (State.seqIssue_eq h rfl).trans (congrArg _ (if_congr Iff.rfl (seqWait_of_oneWord h (by simp) _)
    (if_congr Iff.rfl rfl (State.lateCommit_eq next mask))))

/-! ## RCVM (08 R207) -/

section
variable {s : State} {w : SlateWord} (h : SeqIssues s { opc := 0xD0, d := true, mod := 1 } w)
include h

theorem execRcvm_takes (hd : w.d.toNat ≤ 13) {m : EngMsg} {ms : List EngMsg} (hm : s.seq.msgs = m :: ms) :
    execRcvm w s = .next (State.takeMsg { s.seqPc (s.seqNext w) with
      seq := { (s.seqPc (s.seqNext w)).seq with msgs := ms } } w.d.toNat m) := by
  have hm' : (s.seqPc (s.seqNext w)).seq.msgs = m :: ms := hm
  unfold execRcvm
  rw [State.seqIssue_eq h (decide_eq_false (Nat.not_lt.2 hd)), hm']

theorem execRcvm_empty (hd : w.d.toNat ≤ 13) (hm : s.seq.msgs = []) :
    execRcvm w s = .next (if w.mod.toNat % 2 = 1 then (s.seqPc (s.seqNext w)).setT (w.d.toNat + 2) 0x80000000
      else s.seqSt (.waiting (.message w.d.toNat))) := by
  have hm' : (s.seqPc (s.seqNext w)).seq.msgs = [] := hm
  unfold execRcvm
  rw [State.seqIssue_eq h (decide_eq_false (Nat.not_lt.2 hd)), hm', seqWait_of_oneWord h (by simp)]

theorem execRcvm_illegal (hd : 13 < w.d.toNat) : execRcvm w s = .next (s.seqFault 1) := by
  unfold execRcvm
  exact State.seqIssue_bad h (decide_eq_true hd)

end

/-! ## FLIP (08 R190) -/

theorem execSlateTFlip_eq {s : State} {w : SlateWord} (h : SeqIssues s { opc := 0xCF } w) :
    execSlateTFlip w s = .next (s.seqSt .inFlip) :=
  (State.seqIssue_eq h rfl).trans (congrArg _ (congrArg (State.seqSt · .inFlip) (seqPc_back_of_oneWord h (by simp))))

/-! ## The statement on acting instructions -/

/-- Settles O26, instruction by instruction. -/
theorem timetableActs : Obligations.TimetableActs := by
  intro s w next a d
  refine ⟨fun h => ?_, fun h => show execBindl w s = _ from State.seqIssue_eq h rfl,
    fun h => ⟨fun hc hs => (execMode_eq h).trans (congrArg _ ((if_pos hc).trans (if_neg hs))),
      fun hc hs => (execMode_eq h).trans (congrArg _ ((if_pos hc).trans (if_pos hs))),
      fun hc => (execMode_eq h).trans (congrArg _ (if_neg (Nat.not_lt.2 hc)))⟩,
    fun h => ⟨fun hs => (execCommit_eq h).trans (congrArg _ (if_pos hs)),
      fun h0 h1 => (execCommit_eq h).trans (congrArg _ ((if_neg (Nat.not_lt.2 h0)).trans (if_pos h1))),
      fun h1 => (execCommit_eq h).trans (congrArg _ ((if_neg (by omega)).trans (if_neg (by omega))))⟩,
    fun h => execSlateTFlip_eq h,
    fun h => ⟨fun m ms hd hm => execRcvm_takes h hd hm,
      fun hd hm hw => (execRcvm_empty h hd hm).trans (congrArg _ (if_pos (by rw [hw]; rfl))),
      fun hd hm hw => (execRcvm_empty h hd hm).trans (congrArg _ (if_neg (by rw [hw]; decide))),
      fun hd => execRcvm_illegal h hd⟩,
    fun h => show execSignal w s = _ from State.seqIssue_eq h rfl⟩
  intro row count frame n queued legal
  refine ⟨fun hl hn => (execDispatch_legal h hl).trans (congrArg _ ?_),
    fun hl hn => (execDispatch_legal h hl).trans (congrArg _ (State.dispatchRows_waits _ _ _ _ _ _ hn)),
    fun hl => execDispatch_illegal h hl⟩
  refine (State.dispatchRows_all _ _ _ _ _ _ hn).trans ?_
  rw [← seqNext_of_oneWord h (by simp)]
  rfl

/-! ## Faults (08 R185, R189) -/

/-- A run is the issue of an instruction word w of form p; where the form has room for an extension word, no operand is
illegal but for a branch on condition 7. -/
def IssuesAs (w : SlateWord) (run : State → Out) (p : TShape) : Prop :=
  ∀ s, ∃ bad f, run s = s.seqIssue p w bad f ∧ (3 ∈ p.bsels → w.mod.toNat % 8 ≠ 7 → bad = false)

theorem IssuesAs.anyOperands {w : SlateWord} {p : TShape} {f : State → State → State} :
    IssuesAs w (fun s => s.seqIssue p w false (f s)) p :=
  fun s => ⟨false, f s, rfl, fun _ _ => rfl⟩

theorem IssuesAs.oneWord {w : SlateWord} {p : TShape} {bad : State → Bool} {f : State → State → State}
    (hp : 3 ∉ p.bsels) : IssuesAs w (fun s => s.seqIssue p w (bad s) (f s)) p :=
  fun s => ⟨bad s, f s, rfl, fun h3 => absurd h3 hp⟩

section
variable (w : SlateWord)

theorem State.tAlu_issues (opc : BitVec 8) (f : Nat → Nat → Nat) :
    IssuesAs w (fun s => s.tAlu w opc f) (shapeAlu opc) := by
  unfold State.tAlu
  exact .anyOperands

theorem execRdsr_issues : IssuesAs w (execRdsr w) { opc := 0xC7, d := true, imm := true } := by
  unfold execRdsr
  exact .oneWord (by simp)

theorem execSlateTBr_issues : IssuesAs w (execSlateTBr w) (brForm (w.mod.toNat % 8 == 6)) := by
  unfold execSlateTBr
  exact fun s => ⟨w.mod.toNat % 8 == 7, _, rfl, fun _ hc => beq_false_of_ne hc⟩

theorem execWaitrow_issues : IssuesAs w (execWaitrow w) { opc := 0xC9, b := true, bsels := [0, 2] } := by
  unfold execWaitrow
  exact .oneWord (by simp)

theorem execDispatch_issues : IssuesAs w (execDispatch w) { opc := 0xCB, a := true, b := true, c := true, mod := 1 } := by
  unfold execDispatch
  exact .oneWord (by simp)

theorem execCommit_issues : IssuesAs w (execCommit w) { opc := 0xCD, b := true, bsels := [0, 2] } := by
  unfold execCommit
  exact .anyOperands

theorem execMode_issues : IssuesAs w (execMode w) { opc := 0xCE, a := true } := by
  unfold execMode
  exact .oneWord (by simp)

theorem execRcvm_issues : IssuesAs w (execRcvm w) { opc := 0xD0, d := true, mod := 1 } := by
  unfold execRcvm
  exact .oneWord (by simp)

end

/-- The conditions of a fault and its cause, for an instruction of form p. -/
abbrev SeqFaults (s : State) (p : TShape) (w : SlateWord) (cause : Nat) : Prop :=
  (65536 < s.seq.pc + 8 ∧ cause = 4)
    ∨ (s.seq.pc + 8 ≤ 65536 ∧ (w.opc = p.opc ∨ slateTOpcode w.opc.toNat = false) ∧ p.ok (s.seqSeen w) = false ∧ cause = 1)
    ∨ (s.seq.pc + 8 ≤ 65536 ∧ 65536 < s.seqNext w ∧ p.ok (s.seqSeen w) = true ∧ w.mod.toNat % 8 ≠ 7
      ∧ (s.seq.bad.any fun x => s.seq.pc / 8 ≤ x && x < s.seqNext w / 8) = false ∧ cause = 4)

/-- An instruction whose second word alone lies past program memory has an extension word. -/
theorem TShape.bsel_of_past {s : State} {p : TShape} {w : SlateWord} (h : p.ok (s.seqSeen w) = true)
    (h8 : s.seq.pc + 8 ≤ 65536) (hpast : 65536 < s.seqNext w) : 3 ∈ p.bsels := by
  have hext : w.ext = true := by
    by_contra hx
    unfold State.seqNext at hpast
    rw [if_neg hx] at hpast
    omega
  refine TShape.bsel_of_ext h ?_
  unfold State.seqSeen
  rw [if_pos hpast]
  exact hext

theorem IssuesAs.fault {s : State} {w : SlateWord} {run : State → Out} {p : TShape} {cause : Nat}
    (h : IssuesAs w run p) (hr : s.seqRunning = true) (hf : SeqFaults s p w cause) : run s = .next (s.seqFault cause) := by
  obtain ⟨bad, f, hrun, hbad⟩ := h s
  rw [hrun]
  rcases hf with ⟨h8, rfl⟩ | ⟨h8, ho, hok, rfl⟩ | ⟨h8, hpast, hok, hc, hchk, rfl⟩
  · exact State.seqIssue_branch hr h8
  · exact State.seqIssue_illegal hr h8 ho (.inl hok)
  · exact State.seqIssue_past hr h8 hok (hbad (TShape.bsel_of_past hok h8 hpast) hc) hchk hpast

/-! ## What a fault of the sequencer leaves (08 R189) -/

section
variable (s : State) (cause : Nat)

/-- The fault is latched and its event set; the sequencer still stands where it was. -/
def State.seqFaultLatched : State := ((s.setFld Reg.seqStatus 7 0 cause).setFlag Reg.seqStatus 29).event 109

theorem State.seqFault_seq : (s.seqFault cause).seq = { s.seq with st := .halted } :=
  congrArg (fun q : Seq => { q with st := .halted }) (State.event_seq _ 109)

theorem seqStatus_ne_evtStatus : Reg.seqStatus ≠ Reg.evtStatus (109 / 32) := by decide

theorem State.seqFault_cause (hc : cause < 256) : (s.seqFault cause).fld Reg.seqStatus 7 0 = cause := by
  change (s.seqFaultLatched cause).fld _ _ _ = _
  unfold State.seqFaultLatched
  rw [State.fld_event _ _ _ _ _ seqStatus_ne_evtStatus, State.fld_setFlag_of_ne _ _ _ _ _ _ (by decide) (by decide),
    State.fld_setFld _ _ _ _ _ (by decide) (by decide)]
  exact Nat.mod_eq_of_lt hc

theorem State.seqFault_flag : (s.seqFault cause).flag Reg.seqStatus 29 = true := by
  change (s.seqFaultLatched cause).flag _ _ = _
  unfold State.seqFaultLatched
  rw [State.flag_event _ _ _ _ seqStatus_ne_evtStatus, State.flag_setFlag _ _ _ _ _ (by decide)]
  exact if_pos ⟨rfl, rfl⟩

theorem State.seqFault_event (hu : s.up 33 = true) :
    (s.seqFault cause).flag (Reg.evtStatus (109 / 32)) (109 % 32) = true :=
  State.status_event ((s.setFld Reg.seqStatus 7 0 cause).setFlag Reg.seqStatus 29) 109 hu

theorem State.seqFault_frame : RegsAndEvents { s with seq := (s.seqFault cause).seq } (s.seqFault cause) := by
  have h : RegsAndEvents s (s.seqFaultLatched cause) :=
    ((RegsAndEvents.setFld ..).trans (RegsAndEvents.setFlag ..)).trans (RegsAndEvents.event ..)
  exact congrArg (fun z : State => { z with seq := (s.seqFault cause).seq }) h

end

/-! ## The statement on faults -/

/-- Settles O27: each of the 18 instructions is an issue of its form (`IssuesAs`), and a fault of an issue is
`State.seqFault`. -/
theorem timetableFaults : Obligations.TimetableFaults := by
  intro s w hr alu always br forms i p hmem cause hf
  have hbr : br = brForm (w.mod.toNat % 8 == 6) := brForm_eq _
  have hforms : ∀ x ∈ forms, IssuesAs w (exec x.1) x.2 := by
    simp only [forms, hbr, List.forall_mem_cons]
    exact ⟨show IssuesAs w (execSlateTNop w) _ from .anyOperands, show IssuesAs w (execSet w) _ from .anyOperands,
      show IssuesAs w (execAdd w) _ from State.tAlu_issues w _ _, show IssuesAs w (execSub w) _ from State.tAlu_issues w _ _,
      show IssuesAs w (execAnd w) _ from State.tAlu_issues w _ _, show IssuesAs w (execOr w) _ from State.tAlu_issues w _ _,
      show IssuesAs w (execShr w) _ from State.tAlu_issues w _ _, execRdsr_issues w, execSlateTBr_issues w,
      execWaitrow_issues w, show IssuesAs w (execWaitbell w) _ from .anyOperands, execDispatch_issues w,
      show IssuesAs w (execBindl w) _ from .anyOperands, execCommit_issues w, execMode_issues w,
      show IssuesAs w (execSlateTFlip w) _ from .anyOperands, execRcvm_issues w,
      show IssuesAs w (execSignal w) _ from .anyOperands, List.forall_mem_nil _⟩
  have hc : cause < 256 := by
    rcases hf with ⟨-, h⟩ | ⟨-, -, -, h⟩ | ⟨-, -, -, -, -, h⟩ <;> omega
  have hexec := (hforms _ hmem).fault hr hf
  exact ⟨_, hexec, s.seqFault_seq cause, s.seqFault_cause cause hc, s.seqFault_flag cause, s.seqFault_event cause,
    s.seqFault_frame cause, hexec⟩

/-! ## A write of SEQ_CTRL (08 R192, R202) -/

theorem regFind_seqCtrl : regFind Reg.seqCtrl
    = some ⟨0x1200000, [], [⟨31, 31, .w1p, 0⟩, ⟨2, 2, .rw, 1⟩, ⟨1, 1, .rw, 1⟩, ⟨0, 0, .rw, 0⟩]⟩ := by
  decide

theorem isLatchReg_seqCtrl : isLatchReg Reg.seqCtrl = false := by decide

section
variable (z : State) (v : Word)

/-- EN, HALT's bit 1 and FREE_RUN_EN take what is written. -/
theorem State.flag_store_seqCtrl (i : Fin 3) : (z.store Reg.seqCtrl v).flag Reg.seqCtrl i.val = v.getLsbD i.val := by
  have hcalm : isLatchReg Reg.seqCtrl = true → ∀ p ∈ z.cyc.firsts, p.1 ≠ Reg.seqCtrl :=
    fun h => absurd h (Bool.eq_false_iff.1 isLatchReg_seqCtrl)
  rw [State.flag_store_of_mem regFind_seqCtrl hcalm (f := ⟨i.val, i.val, .rw, if i.val = 0 then 0 else 1⟩)
    (by revert i; decide) le_rfl le_rfl (i.isLt.trans (by decide)) (by revert i; decide)]
  simp [accessBit]

theorem State.store_seqCtrl_seq : (z.store Reg.seqCtrl v).seq = z.seq := by
  rw [z.store_eq _ v isLatchReg_seqCtrl]

theorem State.store_seqCtrl_now : (z.store Reg.seqCtrl v).now = z.now := by
  rw [z.store_eq _ v isLatchReg_seqCtrl]

/-- The write is stored; free running ends if it leaves FREE_RUN_EN 0. -/
def State.seqCtrlStored : State :=
  let y := z.store Reg.seqCtrl v
  { y with seq := { y.seq with freeRun := z.seq.freeRun && v.getLsbD 2 } }

theorem State.seqCtrlStored_eq :
    let y := z.store Reg.seqCtrl v
    (if y.seq.freeRun && !y.flag Reg.seqCtrl 2 then { y with seq := { y.seq with freeRun := false } } else y)
      = z.seqCtrlStored v := by
  intro y
  have hflag : y.flag Reg.seqCtrl 2 = v.getLsbD 2 := z.flag_store_seqCtrl v 2
  unfold State.seqCtrlStored
  have hfree : (y.seq.freeRun && v.getLsbD 2) = if y.seq.freeRun && !v.getLsbD 2 then false else y.seq.freeRun := by
    cases y.seq.freeRun <;> cases v.getLsbD 2 <;> rfl
  rw [hflag, ← z.store_seqCtrl_seq v, hfree]
  cases (y.seq.freeRun && !v.getLsbD 2) <;> rfl

/-- What a write of SEQ_CTRL does besides, by EN before and after. -/
theorem State.seqCtrlWrite_eq :
    let y := z.seqCtrlStored v
    let was := z.flag Reg.seqCtrl 0
    let en := v.getLsbD 0
    z.seqCtrlWrite v =
      if was = false ∧ en = true then { y with seq := { y.seq with st := .awaiting, enAt := z.now, restartDue := false } }
      else if was = true ∧ en = false then { y with seq := { y.seq with st := .stopped, desc := [], restartDue := false } }
      else if was = true ∧ en = true ∧ v.getLsbD 31 = true ∧ z.seq.restartDue = false then
        { y with seq := { y.seq with restartDue := true, st := if z.seq.st = .halted then .awaiting else z.seq.st } }
      else y := by
  intro y was en
  have hen : (z.store Reg.seqCtrl v).flag Reg.seqCtrl 0 = en := z.flag_store_seqCtrl v 0
  unfold State.seqCtrlWrite
  dsimp only
  rw [hen, z.seqCtrlStored_eq v]
  unfold y State.seqCtrlStored
  simp only [z.store_seqCtrl_seq v, z.store_seqCtrl_now v, Bool.and_eq_true, Bool.not_eq_true', and_assoc]
  rfl

end

theorem State.accepted_seq (s : State) (off : Nat) (b : BusWrite) : (s.accepted off b).seq = s.seq := by
  rw [s.accepted_frame off b]

theorem State.accepted_now (s : State) (off : Nat) (b : BusWrite) : (s.accepted off b).now = s.now := by
  rw [s.accepted_frame off b]

theorem exec_seqCtrl {s : State} {b : BusWrite} (hb : s.busOk Reg.seqCtrl b = true) {c : BusWrite → Instr}
    (hc : c ∈ [Instr.seqEnWrite, Instr.seqRestart, Instr.freeRunEnWrite]) :
    exec (c b) s = .next ((s.accepted Reg.seqCtrl b).seqCtrlWrite b.value) := by
  have h : (.next (s.busWrite Reg.seqCtrl b State.seqCtrlWrite) : Out)
      = .next ((s.accepted Reg.seqCtrl b).seqCtrlWrite b.value) := congrArg _ (State.busWrite_ok hb)
  simp only [List.mem_cons, List.not_mem_nil, or_false] at hc
  rcases hc with rfl | rfl | rfl <;> exact h

/-! ## A write of SEQ_GEO_MARGIN (01 R33) -/

theorem isLatchReg_seqGeoMargin : isLatchReg Reg.seqGeoMargin = false := by decide

theorem State.geoMarginWrite_eq (z : State) (v : Word) :
    let y := z.store Reg.seqGeoMargin v
    let x := if v.getLsbD 30 then y.noteArm 0 z.seq.geoArmed else y
    z.geoMarginWrite v = { x with seq := { x.seq with geoArmed := v.getLsbD 30 || z.seq.geoArmed } } := by
  intro y x
  have hseq : y.seq = z.seq := by
    unfold y
    rw [z.store_eq _ v isLatchReg_seqGeoMargin]
  unfold x State.geoMarginWrite
  rw [← hseq]
  cases v.getLsbD 30 <;> rfl

/-! ## The statement on the sequencer's registers -/

/-- Settles O29: a write of SEQ_CTRL by EN before and after (`State.seqCtrlWrite_eq`). -/
theorem sequencerControl : Obligations.SequencerControl := by
  refine ⟨fun s b c hc hb => ?_, fun s b hb => congrArg _ (State.busRead_ok hb), fun s b hb => ?_⟩
  · intro z z₁ was en
    have hz : (s.accepted Reg.seqCtrl b).seqCtrlStored b.value = z₁ := by
      unfold State.seqCtrlStored
      rw [State.accepted_seq]
    have hwas : (s.accepted Reg.seqCtrl b).flag Reg.seqCtrl 0 = was := congrArg (BitVec.getLsbD · 0) (s.accepted_reg ..)
    have hwrite := (s.accepted Reg.seqCtrl b).seqCtrlWrite_eq b.value
    rw [hz, hwas, State.accepted_seq, State.accepted_now] at hwrite
    rw [exec_seqCtrl hb hc]
    refine ⟨fun h0 h1 => congrArg _ (hwrite.trans (if_pos ⟨h0, h1⟩)),
      fun h0 h1 => congrArg _ (hwrite.trans ((if_neg fun h => ?_).trans (if_pos ⟨h0, h1⟩))),
      fun h0 h1 h31 hr => congrArg _ (hwrite.trans ((if_neg fun h => ?_).trans ((if_neg fun h => ?_).trans
        (if_pos ⟨h0, h1, h31, hr⟩)))),
      fun hsame hno => congrArg _ (hwrite.trans ((if_neg fun h => ?_).trans ((if_neg fun h => ?_).trans
        (if_neg fun h => ?_))))⟩
    · exact nomatch h0.symm.trans h.1
    · exact nomatch h0.symm.trans h.1
    · exact nomatch h1.symm.trans h.2
    · exact nomatch h.1.symm.trans (hsame.trans h.2)
    · exact nomatch h.1.symm.trans (hsame.trans h.2)
    · obtain ⟨-, hen, h31, hr⟩ := h
      rcases hno with h0 | h0 | h0
      · exact nomatch h0.symm.trans hen
      · exact nomatch h0.symm.trans h31
      · exact nomatch h0.symm.trans hr
  · have hwrite := State.geoMarginWrite_eq (s.accepted Reg.seqGeoMargin b) b.value
    rw [State.accepted_seq] at hwrite
    exact congrArg _ ((State.busWrite_ok hb).trans hwrite)

end Sys2Proof.Machine

/-!
The statement of chapter 09 (placement): requests for chart updates, the copy of a mesh, staging, fits, staleness and the chart
window.
-/
namespace Sys2Proof.Machine

open Sys2Proof.Safety

/-! ## Requests (09 R213 to R215) -/

section
variable {s : State} {n : Nat} (u : PlcUpdate)

theorem State.plcRequest_of_idle (hr : (s.plcTile n).running = none) : s.plcRequest n u = s.startUpdate n u := by
  simp only [State.plcRequest, hr]

theorem State.plcRequest_of_running {r : PlcUpdate} (hr : (s.plcTile n).running = some r) (hq : (s.plcTile n).queued = none) :
    s.plcRequest n u = s.setPlcTile n { s.plcTile n with queued := some u } := by
  simp only [State.plcRequest, hr, hq]

/-- The queued request gives way to u: the flag, the counter and the event. -/
def State.plcSupersede (s : State) (n : Nat) (u : PlcUpdate) : State :=
  (((s.setPlcTile n { s.plcTile n with queued := some u }).setFlag Reg.plcChartStatus n).bump (Reg.plcCnt 5)).event 130

theorem State.plcRequest_of_queued_rebuild {r : PlcUpdate} (hr : (s.plcTile n).running = some r)
    (hq : (s.plcTile n).queued = some .rebuild) : s.plcRequest n u = s.plcSupersede n u := by
  simp only [State.plcRequest, State.plcSupersede, hr, hq]

theorem State.plcRequest_of_queued_load {r : PlcUpdate} {x : Nat} (hr : (s.plcTile n).running = some r)
    (hq : (s.plcTile n).queued = some (.load x)) : s.plcRequest n u = (s.plcSupersede n u).returnBuffer 25 x 2 := by
  simp only [State.plcRequest, State.plcSupersede, hr, hq]

end

theorem execPlcRebuild_eq {s : State} {b : BusWrite} (hb : s.busOk Reg.plcRebuild b = true) :
    exec (.plcRebuild b) s = .next ((s.accepted Reg.plcRebuild b).plcRebuildWrite b.value) :=
  congrArg _ (State.busWrite_ok hb)

theorem execPlcLoad_eq {s : State} {b : BusWrite} (hb : s.busOk Reg.plcLoad b = true) :
    exec (.plcLoad b) s = .next ((s.accepted Reg.plcLoad b).post (.plcLoad (b.value.toNat % 16))
      (b.value.toNat &&& 0x3FFFFFC0)) := by
  rw [← bits_3_0]
  exact congrArg _ (State.busWrite_ok hb)

theorem execChartWindowRead_eq {s : State} {k : Fin 85360} {b : BusRead} (hb : ReadOk s (0x1400000 + 8 * k.val) b) :
    exec (.chartWindowRead k b) s = .next (answered b (0x1400000 + 8 * k.val) (s.chartRead b.master.val k.val).1
      (s.chartRead b.master.val k.val).2) :=
  congrArg _ (State.busRead_ok hb)

section
variable {s : State} (n : Fin 16)

/-! ## Staging (09 R212, R215) -/

theorem execChartUpdateComplete_eq (hl : s.live 19 = true) :
    let t := s.plcTile n.val
    exec (.chartUpdateComplete n) s = .next (if s.plc.writing.head? = some n.val ∧ t.since + 10734 ≤ s.now then
      ((s.setPlcTile n.val { t with complete := some s.now }).bump (Reg.plcCnt 7) t.sat).writeNext n.val else s) := by
  change execChartUpdateComplete n s = _
  simp only [execChartUpdateComplete, hl, Bool.true_and, Bool.and_eq_true, beq_iff_eq, decide_eq_true_eq,
    apply_ite (Host.Outcome.next (φ := Fault) (ρ := Refusal))]

/-! ## Loading a mesh (09 R216) -/

/-- The mesh of the buffer at x is in the base copy of tile n; the buffer is back at the host, counted and reported. -/
def State.meshCopied (s : State) (n x : Nat) : State :=
  let r := s.devRead 25 (winAddr x + 64) 48015
  let nodes := (List.range 5335).map fun m => BitVec.ofNat 64 (leAt (r.2.1.drop (8 * m)) 0 8)
  let u := { r.1.noteSram 1 (170720 + 5335 * n) (170720 + 5335 * n + 5335) with plc := { r.1.plc with
    base := SMap.store (fun _ => 0) r.1.plc.base (5335 * n) nodes
    baseConf := SMap.store (fun _ => 0) r.1.plc.baseConf (5335 * n) ((r.2.1.drop 42680).take 5335) } }
  ((u.returnBuffer 25 x 0).bump (Reg.plcCnt 4)).event 131

theorem execLoadCopyDone_of_load {x : Nat} (hl : s.live 19 = true) (hx : (s.plcTile n.val).running = some (.load x)) :
    let t := s.plcTile n.val
    exec (.loadCopyDone n) s = .next (if t.copied = true ∨ s.memReady 25 (winAddr x) 48079 = false then s
      else ((s.meshCopied n.val x).setPlcTile n.val { t with copied := true }).readyToWrite n.val) := by
  change execLoadCopyDone n s = _
  simp only [execLoadCopyDone, hx, hl, Bool.not_true, Bool.or_false, Bool.or_eq_true, Bool.not_eq_true',
    apply_ite (Host.Outcome.next (φ := Fault) (ρ := Refusal)), State.meshCopied]

theorem execLoadCopyDone_of_not_load (hx : ∀ x, (s.plcTile n.val).running ≠ some (.load x)) :
    exec (.loadCopyDone n) s = .next s := by
  change execLoadCopyDone n s = _
  dsimp only [execLoadCopyDone]
  split
  · next x h => exact absurd h (hx x)
  · rfl

/-! ## Fits (09 R220, R221) -/

theorem execFit_of_none (h : ∀ f ∈ s.plc.fits, f.tile ≠ n.val) : exec (.fit n) s = .next s := by
  have hnone : s.plc.fits.find? (fun f => f.tile == n.val) = none :=
    List.find?_eq_none.2 fun f hf he => h f hf (beq_iff_eq.1 he)
  change execFit n s = _
  simp only [execFit, hnone]

/-- The fit of the points is beyond RESID_MAX. -/
abbrev State.fitFar (s : State) (ps : List FitPoint) : Prop := fitTooFar (fitSolve ps) ps (s.fld Reg.plcFit 15 8) = true

/-- The fit due is taken off the list. -/
def State.fitTaken (s : State) (f : PlcFit) : State := { s with plc := { s.plc with fits := s.plc.fits.erase f } }

/-- The checks of R221 in their order. -/
theorem execFit_of_due {f : PlcFit} (hl : s.live 19 = true)
    (hf : s.plc.fits.find? (fun f => f.tile == n.val) = some f) :
    let z := s.fitTaken f
    let ps := f.points
    let qs := fitDrop (fitSolve ps) ps
    exec (.fit n) s = .next (
      if s.flag Reg.plcCtrl 1 = false then z
      else if ps.length < s.minFid then z.bump (Reg.plcCnt 1)
      else if ¬ s.fitFar ps then z.acceptFit n.val ps
      else if qs.length < s.minFid ∨ s.fitFar qs then z.rejectFit n.val
      else z.acceptFit n.val qs) := by
  change execFit n s = _
  simp only [execFit, hf, hl, Bool.not_true, Bool.false_eq_true, if_false, Bool.not_eq_true', Bool.or_eq_true,
    decide_eq_true_eq, Bool.not_eq_true, apply_ite (Host.Outcome.next (φ := Fault) (ρ := Refusal))]
  rfl

/-! ## Staleness (09 R224) -/

/-- The tile has no accepted fit, or none within STALE_MS. -/
abbrev State.fitOld (s : State) (n : Nat) : Prop :=
  (s.plcTile n).fitAt = none ∨ ∃ a, (s.plcTile n).fitAt = some a ∧ a + 1600000 * s.fld Reg.plcFit 31 16 < s.now

theorem execFitStale_of_stale (hl : s.live 19 = true) (hon : s.flag Reg.plcCtrl 1 = true) (ho : s.fitOld n.val)
    (hs : s.flag (Reg.plcFitStatus n.val) 31 = false) :
    exec (.fitStale n) s =
      .next (((s.setFlag (Reg.plcFitStatus n.val) 31).setFld (Reg.plcFitStatus n.val) 23 16 128).event 129) := by
  change execFitStale n s = _
  rcases ho with h | ⟨a, h, ha⟩
  · simp only [execFitStale, hl, hon, hs, h, Bool.not_false, Bool.and_self, if_true]
  · simp only [execFitStale, hl, hon, hs, h, ha, Bool.not_false, Bool.and_self, decide_true, if_true]

theorem execFitStale_of_not_stale (h : s.flag Reg.plcCtrl 1 = false ∨ ¬ s.fitOld n.val
    ∨ s.flag (Reg.plcFitStatus n.val) 31 = true) : exec (.fitStale n) s = .next s := by
  change execFitStale n s = _
  unfold execFitStale
  refine if_neg fun hc => ?_
  simp only [Bool.and_eq_true, Bool.not_eq_true'] at hc
  obtain ⟨⟨⟨-, hon⟩, ho⟩, hs⟩ := hc
  rcases h with h | h | h
  · exact nomatch h.symm.trans hon
  · refine h ?_
    split at ho
    · next a ha => exact .inr ⟨a, ha, of_decide_eq_true ho⟩
    · next ha => exact .inl ha
  · exact nomatch h.symm.trans hs

end

/-! ## The statement -/

/-- Settles O44, command by command; the requests that PLC_REBUILD makes are `State.plcHostRequest` written out. -/
theorem chartUpdatesAndFits : Obligations.ChartUpdatesAndFits := by
  refine ⟨fun s b hb => execPlcRebuild_eq hb,
    fun s n u => ⟨State.plcRequest_of_idle u, fun r => State.plcRequest_of_running u, fun r q hr hq => ?_⟩,
    fun s b hb => execPlcLoad_eq hb, fun s b k hb => execChartWindowRead_eq hb, fun s n hl => ?_⟩
  · refine ⟨fun h => State.plcRequest_of_queued_rebuild u hr (hq.trans (congrArg _ h)), fun x h => ?_⟩
    exact State.plcRequest_of_queued_load u hr (hq.trans (congrArg _ h))
  · have hdone := execChartUpdateComplete_eq n hl
    refine ⟨fun hw => hdone.trans (congrArg _ (if_pos hw)), fun hw => hdone.trans (congrArg _ (if_neg hw)), fun x hx => ?_,
      execLoadCopyDone_of_not_load n, execFit_of_none n, fun f hf => ?_, execFitStale_of_stale n hl,
      execFitStale_of_not_stale n⟩
    · have hcopy := execLoadCopyDone_of_load n hl hx
      refine ⟨fun h => hcopy.trans (congrArg _ (if_pos h)), fun hc hm => hcopy.trans (congrArg _ (if_neg ?_))⟩
      simp only [hc, hm, Bool.false_eq_true, Bool.true_eq_false, or_self, not_false_eq_true]
    · intro z ps qs far
      have hfit := execFit_of_due n hl hf
      refine ⟨fun hoff => hfit.trans (congrArg _ (if_pos hoff)), fun hon hfew => hfit.trans (congrArg _ ?_),
        fun hon hmin hnear => hfit.trans (congrArg _ ?_),
        fun hon hmin hfar => ⟨fun h => hfit.trans (congrArg _ ?_), fun hq hnear => hfit.trans (congrArg _ ?_)⟩⟩
      all_goals refine (if_neg (ne_false_of_eq_true hon)).trans ?_
      · exact if_pos hfew
      · exact (if_neg (Nat.not_lt.2 hmin)).trans (if_pos hnear)
      · exact (if_neg (Nat.not_lt.2 hmin)).trans ((if_neg (not_not.2 hfar)).trans (if_pos h))
      · exact (if_neg (Nat.not_lt.2 hmin)).trans ((if_neg (not_not.2 hfar)).trans
          (if_neg fun h => h.elim (Nat.not_lt.2 hq) hnear))

end Sys2Proof.Machine

/-!
The statement of chapter 10 (witness cameras): packets of the link, published results, bindings, disabling, and the read of a
spot result.
-/
namespace Sys2Proof.Machine

open Sys2Proof.Safety

/-! ## Packets by their data type (10 R229 to R234) -/

/-- A packet with a checked header on a channel bound to no pipeline. -/
def State.csiUnbound (z : State) (dt : Nat) : State :=
  if dt = 0 then z.bump (Reg.camRxCnt 4) else if dt = 1 ∨ dt = 0x2B ∨ dt = 0x2C then z else z.bump (Reg.camRxCnt 3)

/-- The lines of pipeline k are RAW12: as its open frame has sampled it, else as CAM_CTRL has it. -/
def State.linesRaw12 (z : State) (k : Nat) : Bool :=
  match (z.pipe k).frame with
  | some f => f.raw12
  | none => z.flag (Reg.camCtrl k) 2

/-- A packet that is neither a Frame Start nor a Frame End, on a channel bound to pipeline k. -/
def State.csiLine (z : State) (k dt : Nat) (bs : List Byte) (drained : Nat) : State :=
  if dt = (if z.linesRaw12 k = true then 0x2C else 0x2B) then z.camLine k bs drained else z.bump (Reg.camRxCnt 3)

/-- A packet with header h on a channel bound to pipeline k. -/
def State.csiBound (z : State) (k h : Nat) (bs : List Byte) (drained : Nat) : State :=
  if h % 64 = 0 then z.camFrameStart k (h / 256)
  else if h % 64 = 1 then if (z.pipe k).frame.isSome = true then z.camComplete k else z.bump (Reg.camRxCnt 5)
  else z.csiLine k (h % 64) bs drained

/-- A long packet of a wrong length or CRC. -/
abbrev csiBad (h : Nat) (bs : List Byte) (crc : BitVec 16) : Prop :=
  0x10 ≤ h % 64 ∧ (bs.length ≠ h / 256 ∨ crc16 bs ≠ crc.toNat)

/-- Short packets of the unused types and generic long ones. -/
abbrev csiUnused (dt : Nat) : Prop := dt = 2 ∨ dt = 3 ∨ (8 ≤ dt ∧ dt ≤ 15) ∨ dt = 0x12

/-- A packet with header h, after the header's correction: the checks in their order. -/
def State.csiPacket (z : State) (h : Nat) (bs : List Byte) (crc : BitVec 16) (drained : Nat) : State :=
  if csiBad h bs crc then (z.bump (Reg.camRxCnt 2)).event 134
  else if csiUnused (h % 64) then z
  else ((z.pipeOf (h / 64 % 4)).map fun k => z.csiBound k h bs drained).getD (z.csiUnbound (h % 64))

/-- The lane states are shown; the rest of the HS burst is discarded or not. -/
def State.csiShown (s : State) (lanes : BitVec 5) (dead : Bool) : State :=
  { s with cam := { s.cam with rx := lanes, dead := dead } }

/-- A corrected header counts. -/
def State.csiCorrected (s : State) (fixed : Bool) : State := if fixed = true then s.bump (Reg.camRxCnt 0) else s

section
variable (z : State) {k h : Nat} {bs : List Byte} {crc : BitVec 16} {drained : Nat}

theorem State.csiPacket_of_bad (hb : csiBad h bs crc) :
    z.csiPacket h bs crc drained = (z.bump (Reg.camRxCnt 2)).event 134 := if_pos hb

theorem State.csiPacket_of_unused (hb : ¬ csiBad h bs crc) (hu : csiUnused (h % 64)) : z.csiPacket h bs crc drained = z :=
  (if_neg hb).trans (if_pos hu)

theorem State.csiPacket_of_unbound (hb : ¬ csiBad h bs crc) (hu : ¬ csiUnused (h % 64))
    (hp : z.pipeOf (h / 64 % 4) = none) : z.csiPacket h bs crc drained = z.csiUnbound (h % 64) := by
  rw [State.csiPacket, if_neg hb, if_neg hu, hp]
  rfl

theorem State.csiPacket_of_bound (hb : ¬ csiBad h bs crc) (hu : ¬ csiUnused (h % 64))
    (hp : z.pipeOf (h / 64 % 4) = some k) : z.csiPacket h bs crc drained = z.csiBound k h bs drained := by
  rw [State.csiPacket, if_neg hb, if_neg hu, hp]
  rfl

theorem State.csiBound_of_line (h0 : h % 64 ≠ 0) (h1 : h % 64 ≠ 1) {is12 : Bool} (hl : z.linesRaw12 k = is12) :
    z.csiBound k h bs drained =
      if h % 64 = (if is12 = true then 0x2C else 0x2B) then z.camLine k bs drained else z.bump (Reg.camRxCnt 3) := by
  rw [State.csiBound, if_neg h0, if_neg h1, State.csiLine, hl]

theorem State.linesRaw12_of_frame {f : CamFrame} (hf : (z.pipe k).frame = some f) : z.linesRaw12 k = f.raw12 := by
  rw [State.linesRaw12, hf]

theorem State.linesRaw12_of_no_frame (hf : (z.pipe k).frame = none) : z.linesRaw12 k = z.flag (Reg.camCtrl k) 2 := by
  rw [State.linesRaw12, hf]

end

/-! ## CSI2_PACKET (10 R229) -/

theorem next_ite (p : Prop) [Decidable p] (y z : State) :
    (.next (if p then y else z) : Out) = if p then .next y else .next z := apply_ite _ p y z

section
variable {s : State} {hd : BitVec 32} {bs : List Byte} {crc : BitVec 16} {first : Bool} {drained : Nat} {lanes : BitVec 5}

theorem execCsi2Packet_off (h : s.live 21 = false ∨ s.live 20 = false ∨ s.flag Reg.camRxCtrl 0 = false) :
    exec (.csi2Packet hd bs crc ⟨first, drained⟩ lanes) s = .next s := by
  refine if_pos ?_
  rcases h with h | h | h <;> simp [h]

section
variable (h21 : s.live 21 = true) (h20 : s.live 20 = true) (hen : s.flag Reg.camRxCtrl 0 = true)
include h21 h20 hen

theorem execCsi2Packet_dead (hdead : s.cam.dead = true ∧ first = false) :
    exec (.csi2Packet hd bs crc ⟨first, drained⟩ lanes) s = .next (s.csiShown lanes true) := by
  change execCsi2Packet hd bs crc ⟨first, drained⟩ lanes s = _
  simp [execCsi2Packet, h21, h20, hen, hdead, State.csiShown]

variable (hlive : ¬ (s.cam.dead = true ∧ first = false))
include hlive

theorem execCsi2Packet_uncorrectable (hh : csiHeader hd.toNat = none) :
    exec (.csi2Packet hd bs crc ⟨first, drained⟩ lanes) s =
      .next (((s.csiShown lanes true).bump (Reg.camRxCnt 1)).event 134) := by
  have hdead : (s.cam.dead && !first) = false := by simpa using hlive
  change execCsi2Packet hd bs crc ⟨first, drained⟩ lanes s = _
  simp only [execCsi2Packet, h21, h20, hen, hdead, hh, Bool.not_true, Bool.or_self, Bool.false_eq_true, if_false,
    State.csiShown]

theorem execCsi2Packet_of_header {h : Nat} {fixed : Bool} (hh : csiHeader hd.toNat = some (h, fixed)) :
    exec (.csi2Packet hd bs crc ⟨first, drained⟩ lanes) s =
      .next (((s.csiShown lanes false).csiCorrected fixed).csiPacket h bs crc drained) := by
  have hdead : (s.cam.dead && !first) = false := by simpa using hlive
  change execCsi2Packet hd bs crc ⟨first, drained⟩ lanes s = _
  unfold execCsi2Packet
  rw [if_neg (by simp [h21, h20, hen])]
  extract_lets dead cam shown _
  have hshown : shown = s.csiShown lanes false := by simp only [shown, cam, dead, hdead, State.csiShown]
  rw [if_neg (by simp [dead, hdead]), hh, hshown]
  dsimp -zeta only
  extract_lets z dt wc pipe
  change _ = Host.Outcome.next (z.csiPacket h bs crc drained)
  clear_value z
  unfold State.csiPacket
  subst dt wc pipe
  cases z.pipeOf (h / 64 % 4) with
  | none => simp only [Option.map_none, Option.getD_none, State.csiUnbound, next_ite]
  | some k =>
    simp only [Option.map_some, Option.getD_some, State.csiBound, State.csiLine, next_ite]
    rfl

end

end

/-! ## SPOT_PUBLISH (10 R240; 09 R220) -/

section
variable {s : State} {k : Fin 4}

/-- The oldest result d of pipeline k leaves its queue: status, number and spot words are in their registers. -/
def State.spotsWritten (s : State) (k : Nat) (d : CamPub) (rest : List CamPub) : State :=
  d.spots.foldl (fun s e => (s.setReg (Reg.camSpot0 e.entry) e.spot0).setReg (Reg.camSpot1 e.entry) e.spot1)
    (((s.setPipe k { s.pipe k with done := rest }).setReg (Reg.camLastStatus k) d.status).setReg
      (Reg.camLastNum k) (word d.num))

/-- The fits that result d makes due: of every tile with an entry in it. -/
def CamPub.fitsDue (d : CamPub) : List PlcFit :=
  (List.range 16).filterMap fun n =>
    let own := d.spots.filter fun e => e.entry / 8 == n
    if own.isEmpty then none else some (PlcFit.mk n (d.status.toNat / 2 ^ 28 == 0) own)

theorem execSpotPublish_of_none (h20 : s.live 20 = true) (hd : (s.pipe k.val).done = []) :
    exec (.spotPublish k) s = .next s := by
  change execSpotPublish k s = _
  simp only [execSpotPublish, h20, hd, ite_self]

theorem execSpotPublish_of_result {d : CamPub} {rest : List CamPub} (h20 : s.live 20 = true)
    (hd : (s.pipe k.val).done = d :: rest) :
    let u := s.spotsWritten k.val d rest
    exec (.spotPublish k) s = .next (if u.live 19 = true ∧ u.flag Reg.plcCtrl 1 = true then
      { u with plc := { u.plc with fits := u.plc.fits ++ d.fitsDue } } else u) := by
  intro u
  change execSpotPublish k s = _
  unfold execSpotPublish
  simp only [h20, hd, Bool.not_true, Bool.false_eq_true, if_false, Bool.and_eq_true, next_ite]
  rfl

end

/-! ## Registers (10 R230, R235, R240) -/

/-- BIND and UNBIND are one write of CAM_BIND. -/
theorem exec_camBind {s : State} {k : Fin 4} {b : BusWrite} (hb : s.busOk (Reg.camBind k.val) b = true) {c : Instr}
    (hc : c = .camBind k b ∨ c = .camUnbind k b) :
    exec c s = .next ((s.accepted (Reg.camBind k.val) b).camBindWrite k.val b.value) := by
  have h : (.next (s.busWrite (Reg.camBind k.val) b fun s v => s.camBindWrite k.val v) : Out)
      = .next ((s.accepted (Reg.camBind k.val) b).camBindWrite k.val b.value) := congrArg _ (State.busWrite_ok hb)
  rcases hc with rfl | rfl <;> exact h

/-- BIND: a free pipeline takes a free channel, else the conflict is flagged. -/
def State.camBound (z : State) (k : Nat) : State :=
  let vc := z.fld (Reg.camBind k) 5 4
  if (z.pipe k).bound = none ∧ z.pipeOf vc = none then z.setPipe k { z.pipe k with bound := some vc }
  else z.setFlag (Reg.camStatus k) 31

/-- UNBIND: an open frame is aborted, the pipeline is free. -/
def State.camReleased (z : State) (k : Nat) : State :=
  (z.camAbort k).setPipe k { (z.camAbort k).pipe k with bound := none }

theorem State.camBindWrite_eq (s : State) (k : Nat) (v : Word) :
    let z := s.store (Reg.camBind k) v
    let u := if v.getLsbD 31 = false then z else z.camBound k
    s.camBindWrite k v = if v.getLsbD 30 = true then u.camReleased k else u := by
  intro z u
  have hu : (if v.getLsbD 31 then
      if (z.pipe k).bound.isSome || (z.pipeOf (z.fld (Reg.camBind k) 5 4)).isSome then z.setFlag (Reg.camStatus k) 31
      else z.setPipe k { z.pipe k with bound := some (z.fld (Reg.camBind k) 5 4) } else z) = u := by
    unfold u State.camBound
    cases v.getLsbD 31
    · rfl
    · cases (z.pipe k).bound <;> cases hp : z.pipeOf (z.fld (Reg.camBind k) 5 4) <;> simp [hp]
  exact congrArg (fun u : State => if v.getLsbD 30 = true then u.camReleased k else u) hu

/-! ## The statement -/

/-- Settles O45: packets by the branches of `State.csiPacket`, then command by command. -/
theorem cameraPacketsAndResults : Obligations.CameraPacketsAndResults := by
  refine ⟨fun s hd bs crc first drained lanes => ⟨execCsi2Packet_off, fun h21 h20 hen => ?_⟩, fun s k h20 => ?_,
    fun s k b hb c hc => (exec_camBind hb hc).trans (congrArg _ (State.camBindWrite_eq _ _ _)),
    fun s k b hb => congrArg _ (State.busWrite_ok hb), fun s b hb => congrArg _ (State.busWrite_ok hb),
    fun s e b hb => congrArg _ (State.busRead_ok hb)⟩
  · refine ⟨execCsi2Packet_dead h21 h20 hen, execCsi2Packet_uncorrectable h21 h20 hen, fun h fixed hlive hh => ?_⟩
    have hex := execCsi2Packet_of_header (bs := bs) (crc := crc) (drained := drained) (lanes := lanes) h21 h20 hen
      hlive hh
    refine ⟨fun hb => hex.trans (congrArg _ (State.csiPacket_of_bad _ hb)),
      fun hb hu => hex.trans (congrArg _ (State.csiPacket_of_unused _ hb hu)),
      fun hb hu hp => hex.trans (congrArg _ (State.csiPacket_of_unbound _ hb hu hp)), fun k hb hu hp => ?_⟩
    have hbound := hex.trans (congrArg _ (State.csiPacket_of_bound _ hb hu hp))
    refine ⟨fun h0 => hbound.trans (congrArg _ (if_pos h0)),
      fun h1 => hbound.trans (congrArg _ ((if_neg (h1.trans_ne Nat.one_ne_zero)).trans (if_pos h1))),
      fun f hf h0 h1 => hbound.trans (congrArg _ (State.csiBound_of_line _ h0 h1 (State.linesRaw12_of_frame _ hf))),
      fun hf h0 h1 => hbound.trans (congrArg _ (State.csiBound_of_line _ h0 h1 (State.linesRaw12_of_no_frame _ hf)))⟩
  · refine ⟨fun d rest hd => ?_, execSpotPublish_of_none h20⟩
    have hpub := execSpotPublish_of_result h20 hd
    refine ⟨fun hon => hpub.trans (congrArg _ (if_pos hon)), fun hoff => hpub.trans (congrArg _ (if_neg fun hon => ?_))⟩
    rcases hoff with h | h
    · exact nomatch h.symm.trans hon.1
    · exact nomatch h.symm.trans hon.2

end Sys2Proof.Machine

/-!
The statements of chapter 11 (finishing): gain loads, missing temperatures and the finishing registers; then express blocks and
their inserts, the lenslets at the cursor, and the end of a capture.
-/
namespace Sys2Proof.Machine

open Sys2Proof.Safety

/-! ## A write of FIN_GAIN_LOAD (R249, R337) -/

section
variable (z : State) (v : Word)

/-- An item of the monitor is a gain post that the calibration engine has made in this cycle. -/
def State.calibrationGain (z : State) (i : HpItem) : Bool := match i with
  | .post (.finGain k) y => z.cyc.calGains.contains (k, y)
  | _ => false

theorem State.gainLoadWrite_of_host : z.gainLoadWrite 16 v = { z with host := { z.host with
    fifo := insBefore (.post (.finGain (v.toNat % 16)) (v.toNat &&& 0x3FFFFFC0)) z.calibrationGain z.host.fifo } } := by
  rw [← bits_3_0]
  rfl

theorem State.gainLoadWrite_of_calibration :
    let n := v.toNat % 16
    let x := v.toNat &&& 0x3FFFFFC0
    z.gainLoadWrite 20 v = { z.post (.finGain n) x with cyc := { z.cyc with calGains := (n, x) :: z.cyc.calGains } } := by
  rw [← bits_3_0]
  rfl

theorem State.gainLoadWrite_of_other {m : Nat} (h16 : m ≠ 16) (h20 : m ≠ 20) :
    z.gainLoadWrite m v = z.post (.finGain (v.toNat % 16)) (v.toNat &&& 0x3FFFFFC0) := by
  rw [← bits_3_0]
  exact (if_neg h20).trans (if_neg h16)

end

theorem execFinGainLoad_eq {s : State} {b : BusWrite} (hb : s.busOk Reg.finGainLoad b = true) :
    exec (.finGainLoad b) s = .next ((s.accepted Reg.finGainLoad b).gainLoadWrite b.master.val b.value) :=
  congrArg _ (State.busWrite_ok hb)

/-! ## GAIN_COPY (R248, R249) -/

section
variable {s : State} {l : GainLoad} {rest : List GainLoad} {f : Nat}

/-- Load l may be copied in the frame that began at f: a slot of the copy, a request of before slot 432, no copy in this
frame yet, and a memory that takes the read. -/
abbrev State.gainCopies (s : State) (l : GainLoad) (f : Nat) : Prop :=
  432 ≤ s.seq.slot ∧ s.seq.slot < 447 ∧ l.at_ < f + slotStartOf s.seq.rate 432
    ∧ s.fin.copiedAt ≠ some s.seq.frame ∧ s.memReady 22 (winAddr l.buf) 663616 = true

/-- The state after the read of load l's buffer, and the bytes read. -/
def State.gainRead (s : State) (l : GainLoad) : State × List Byte × Bool := s.devRead 22 (winAddr l.buf + 64) 663552

/-- The load queued behind load l. -/
def State.gainBehind (s : State) (l : GainLoad) : Option GainLoad :=
  (s.gainRead l).1.fin.queued.find? fun q => q.tile == l.tile

/-- The gains of load l are in force, the loads given are left, the buffer is back at the host. -/
def State.gainsCopied (s : State) (l : GainLoad) (loads : List GainLoad) : State :=
  let r := s.gainRead l
  let gains := (List.range 331776).map fun i => BitVec.ofNat 16 (leAt (r.2.1.drop (2 * i)) 0 2)
  ((({ r.1.noteSram 2 (82944 * l.tile) (82944 * l.tile + 82944) with fin := { r.1.fin with
    gains := SMap.store (fun _ => 0x4000) r.1.fin.gains (331776 * l.tile) gains
    loads := loads, queued := r.1.fin.queued.filter (fun q => q.tile != l.tile)
    copiedAt := some r.1.seq.frame } } : State).returnBuffer 22 l.buf 0).bump (Reg.finCnt 5)).event 164

theorem execGainCopy_of_load (h22 : s.live 22 = true) (hl : s.fin.loads = l :: rest) (hf : s.seq.flipAt = some f) :
    exec .gainCopy s = .next (if s.gainCopies l f then
      s.gainsCopied l (((s.gainBehind l).map fun q => insLoad q rest).getD rest) else s) := by
  have hin : s.inFrame = true := by rw [State.inFrame, hf]; rfl
  have hnext : (match s.gainBehind l with | some q => insLoad q rest | none => rest)
      = ((s.gainBehind l).map fun q => insLoad q rest).getD rest := by cases s.gainBehind l <;> rfl
  rw [next_ite, ← hnext]
  change execGainCopy s = _
  unfold execGainCopy
  rw [hl, hf]
  refine if_congr ?_ rfl rfl
  simp only [h22, hin, Bool.true_and, Bool.and_eq_true, decide_eq_true_eq, bne_iff_ne, and_assoc]
  exact Iff.rfl

end

/-! ## NO_TEMP (R251) -/

section
variable {s : State} (n : Fin 16)

/-- The tile's last report is missing or more than 100 ms old. -/
abbrev State.reportOld (s : State) (n : Nat) : Prop :=
  (s.tile n).statusAt = none ∨ ∃ t, (s.tile n).statusAt = some t ∧ t + 160000000 < s.now

theorem execNoTemp_of_old (h22 : s.live 22 = true) (ho : s.reportOld n.val) (hs : s.flag Reg.finStatus n.val = false) :
    exec (.noTemp n) s = .next ((s.setFlag Reg.finStatus n.val).event 163) := by
  change execNoTemp n s = _
  rcases ho with h | ⟨t, h, ht⟩
  · simp only [execNoTemp, h22, hs, h, Bool.not_false, Bool.and_self, if_true]
  · simp only [execNoTemp, h22, hs, h, ht, Bool.not_false, Bool.and_self, decide_true, if_true]

theorem execNoTemp_of_not_old (h : ¬ s.reportOld n.val ∨ s.flag Reg.finStatus n.val = true) :
    exec (.noTemp n) s = .next s := by
  change execNoTemp n s = _
  unfold execNoTemp
  refine if_neg fun hc => ?_
  simp only [Bool.and_eq_true, Bool.not_eq_true'] at hc
  obtain ⟨⟨-, ho⟩, hs⟩ := hc
  rcases h with h | h
  · refine h ?_
    split at ho
    · next t ht => exact .inr ⟨t, ht, of_decide_eq_true ho⟩
    · next ht => exact .inl ht
  · exact nomatch hs.symm.trans h

end

/-! ## FIN_CTRL and FIN_RES_BASE (R243, R252) -/

theorem execFinArm_eq {s : State} {b : BusWrite} (hb : s.busOk Reg.finCtrl b = true) :
    let t := (s.accepted Reg.finCtrl b).store Reg.finCtrl b.value
    exec (.finArm b) s = .next (if b.value.getLsbD 31 = true then t.finArm else t) :=
  congrArg _ (State.busWrite_ok hb)

theorem execFinResBaseWrite_eq {s : State} {b : BusWrite} (hb : s.busOk Reg.finResBase b = true) :
    exec (.finResBaseWrite b) s = .next ((s.accepted Reg.finResBase b).finResBaseWrite b.value) :=
  congrArg _ (State.busWrite_ok hb)

theorem State.finResBaseWrite_eq (z : State) (v : Word) :
    z.finResBaseWrite v = if v.toNat / 256 % 256 ≤ 252 ∧ v.toNat % 256 ≤ 250 then z.store Reg.finResBase v
      else z.store Reg.finResBase (word (v.toNat / 2 ^ 31 * 2 ^ 31 + z.fld Reg.finResBase 15 0)) := by
  rw [State.finResBaseWrite, bits_15_8, bits_7_0]
  simp only [Bool.and_eq_true, decide_eq_true_eq]

/-! ## The statement on gains and registers -/

/-- Settles O43, command by command; the masters of a gain load and the load behind a copied one are its cases. -/
theorem gainsAndFinishingRegisters : Obligations.GainsAndFinishingRegisters := by
  refine ⟨fun s b hb => ?_, fun s l rest f h22 hl hf => ?_,
    fun s n h22 => ⟨execNoTemp_of_old n h22, execNoTemp_of_not_old n⟩, fun s b hb => ?_, fun s b hb => ?_⟩
  · have hload := execFinGainLoad_eq hb
    refine ⟨fun h16 h20 => hload.trans (congrArg _ (State.gainLoadWrite_of_other _ _ h16 h20)), fun h20 => ?_, fun h16 => ?_⟩
    · rw [h20] at hload
      exact hload.trans (congrArg _ (State.gainLoadWrite_of_calibration _ _))
    · rw [h16] at hload
      exact hload.trans (congrArg _ (State.gainLoadWrite_of_host _ _))
  · have hcopy := execGainCopy_of_load h22 hl hf
    refine ⟨fun hok hq => (hcopy.trans (congrArg _ (if_pos hok))).trans ?_,
      fun q hok hq => (hcopy.trans (congrArg _ (if_pos hok))).trans ?_, fun hno => hcopy.trans (congrArg _ (if_neg hno))⟩
    · have hb : s.gainBehind l = none := hq
      rw [hb]
      rfl
    · have hb : s.gainBehind l = some q := hq
      rw [hb]
      rfl
  · have harm := execFinArm_eq hb
    exact ⟨fun h => harm.trans (congrArg _ (if_pos h)), fun h => harm.trans (congrArg _ (if_neg (ne_true_of_eq_false h)))⟩
  · have hbase := State.finResBaseWrite_eq (s.accepted Reg.finResBase b) b.value
    rw [State.accepted_fld] at hbase
    exact (execFinResBaseWrite_eq hb).trans (congrArg _ hbase)

/-! ## The targets of an express block (R257, R258) -/

/-- A target of frame `frame` comes too late: its frame, its row or its place in the row has passed. -/
abbrev State.targetPassed (s : State) (frame : Nat) (x : RayTarget) : Prop :=
  s.seq.frame ≠ frame ∨ s.activeSlot = false ∨ x.v < s.seq.slot ∨ (x.v = s.seq.slot ∧ 300 * x.u < s.cursor x.tile)

/-- The slot has sent its budget of inserts for the tile. -/
abbrev State.insertsSpent (s : State) (n : Nat) : Prop := insertBudget s.seq.rate ≤ (s.tile n).slotInserts

/-- Value q of a target's rays, clamped. -/
def RayTarget.value (x : RayTarget) (q : Nat) : Nat :=
  let w := (if x.rays.length = 100 then x.rays.getD (q / 3) 0 else x.rays.getD 0 0).toNat
  uf20Clamp (bits w (20 * (q % 3) + 19) (20 * (q % 3)))

/-- The residuals of a target: read if its row is in progress or next, else none, which counts. -/
def State.targetResiduals (s : State) (x : RayTarget) : State × List (Option Int) :=
  if x.v ≤ s.seq.slot + 1 then s.readResiduals x.tile x.v (300 * x.u) else (s.bump (Reg.finCnt 1), [])

/-- A target is finished and waits as an insert; `seen`: the tiles with an earlier insert of the block. -/
def State.insertTarget (s : State) (seen : List Nat) (x : RayTarget) : State × List Nat :=
  let r := s.targetResiduals x
  let f := r.1.finishLenslet x.tile x.u x.v x.value fun q => (r.2.getD q none).getD 0
  let z := r.1.setTile x.tile { r.1.tile x.tile with slotInserts := (r.1.tile x.tile).slotInserts + 1 }
  (State.bump { z with tlk := { z.tlk with splice := z.tlk.splice ++
    [{ tile := x.tile, row := x.v, u := x.u, codes := f.1, first := !seen.contains x.tile, at_ := z.now
       corr := (z.correctTarget x).corr.getD (0, 0, 0, 0) }] } } (Reg.finCnt 4) f.2, x.tile :: seen)

/-- The tests of a target in their order. -/
theorem State.spliceTarget_eq (s : State) (frame : Nat) (seen : List Nat) (x : RayTarget) :
    State.spliceTarget frame (s, seen) x =
      if s.targetPassed frame x then (s.expressDrop x.tile, seen)
      else if (s.tile x.tile).blanked = true then (s, seen)
      else if s.insertsSpent x.tile then (s.expressDrop x.tile, seen)
      else s.insertTarget seen x := by
  have place : (s.seq.slot < x.v ∨ x.v = s.seq.slot ∧ s.cursor x.tile ≤ 300 * x.u)
      ↔ ¬ (x.v < s.seq.slot ∨ x.v = s.seq.slot ∧ 300 * x.u < s.cursor x.tile) := by omega
  refine if_congr ?_ rfl rfl
  simp only [State.targetPassed, Bool.not_eq_true', ← Bool.not_eq_true, Bool.and_eq_true, Bool.or_eq_true, beq_iff_eq,
    decide_eq_true_eq, place, not_and_or, not_not, or_assoc]

/-! ## SPLICE_TEST and ROW_SPLICE (02 R46, R47; 12 R269) -/

section
variable {s : State}

theorem execSpliceTest_of_nil (h : s.dec.express = []) : exec .spliceTest s = .next s := by
  change execSpliceTest s = _
  simp only [execSpliceTest, h]

theorem execSpliceTest_of_block {x : DirectRay} {rest : List DirectRay} (h22 : s.live 22 = true)
    (hx : s.dec.express = x :: rest) :
    exec .spliceTest s = .next (if x.at_ + (if s.latency = true then 102 else 114) ≤ s.now then
      (x.targets.foldl (State.spliceTarget x.frame) ({ s with dec := { s.dec with express := rest } }, [])).1 else s) := by
  change execSpliceTest s = _
  simp only [execSpliceTest, hx, h22, Bool.true_and, decide_eq_true_eq, next_ite]

theorem execRowSplice_eq (h22 : s.live 22 = true) :
    let due (x : Insert) : Bool := x.at_ + 4 ≤ s.now
    exec .rowSplice s = .next ((s.tlk.splice.filter due).foldl State.spliceInsert
      { s with tlk := { s.tlk with splice := s.tlk.splice.filter fun x => !due x } }) :=
  if_neg (by simp [h22])

end

/-! ## COMPLETENESS_CHECK (06 R143; 11 R255, R256) -/

theorem State.lanesAccept_iff (s : State) (n : Nat) :
    s.lanesAccept n = true ↔ ∀ j ∈ List.range 3, (s.lane (3 * n + j)).free ≤ 125 * s.now + 128 := by
  simp only [State.lanesAccept, List.all_eq_true, decide_eq_true_eq]

/-- The cursor of tile n may take lenslet u now. -/
abbrev State.lensletReady (s : State) (n u : Nat) : Prop :=
  (s.activeSlot = true ∧ s.panelBlank = false) ∧ SMap.get (fun _ => 0) s.syn.cursorU n = u
    ∧ 300 * u ≤ 16 * s.slotCc ∧ (s.latency = true ∨ ∀ j ∈ List.range 3, (s.lane (3 * n + j)).free ≤ 125 * s.now + 128)

/-- The cursor of tile n has passed lenslet u. -/
def State.cursorPast (s : State) (n u : Nat) : State :=
  { s with syn := { s.syn with cursorU := SMap.put (fun _ => 0) s.syn.cursorU n (u + 1)
                               cursorAt := SMap.put (fun _ => 0) s.syn.cursorAt n s.now } }

/-- Lenslet u of tile n in row v is checked and finished, and its codes have joined the row. -/
def State.lensletDone (s : State) (n u v : Nat) : State :=
  let r := ((s.lensletCheck n u v).cursorPast n u).readResiduals n v (300 * u)
  let f := r.1.finishLenslet n u v (fun q => (r.1.ringAt n (v % 3) (300 * u + q)).toNat) fun q => (r.2.getD q none).getD 0
  ((r.1.bump (Reg.finCnt 4) f.2).rptTake n u v f.1 r.2).rowCodes n f.1

theorem execCompletenessCheck_eq {s : State} (h22 : s.live 22 = true) (n : Fin 16) (u : Fin 768) :
    let t := s.lensletDone n.val u.val s.seq.slot
    exec (.completenessCheck n u) s = .next (if s.lensletReady n.val u.val then
      if u.val = 767 then t.rptRowDone n.val s.seq.slot else t else s) := by
  intro t
  rw [next_ite]
  refine if_congr ?_ rfl rfl
  simp only [h22, Bool.true_and, Bool.and_eq_true, Bool.or_eq_true, Bool.not_eq_true', beq_iff_eq, decide_eq_true_eq,
    State.lanesAccept_iff, State.lensletsBegun, and_assoc]

/-! ## PV_DONE (06 R148; 15 R340) -/

section
variable {s : State}

/-- The header, the used length and the CRC of capture c are in its buffer, which is back at the host. -/
def State.captureReturned (s : State) (c : Capture) : State :=
  let used := 64 + 3072 * 1728 * pvBytes c.format
  let s₁ := s.winWrite 22 (c.buf + 64) (pvHeader c)
  let crc := crc32 (s₁.bytesAt (winAddr (c.buf + 64)) used)
  (((s₁.winWrite 22 (c.buf + 8) (leBytes 4 used)).winWrite 22 (c.buf + 12) (leBytes 4 crc)).returnBuffer 22 c.buf 0).event 104

theorem execPvDone_of_none (h : s.syn.capture = none) : exec .pvDone s = .next s := by
  change execPvDone s = _
  simp only [execPvDone, h]

theorem execPvDone_of_capture {c : Capture} (h22 : s.live 22 = true) (hc : s.syn.capture = some c) :
    let t := s.captureReturned c
    exec .pvDone s = .next (if 432 ≤ s.seq.slot ∨ c.frame ≠ s.seq.frame then
      { t with syn := { t.syn with capture := none } } else s) := by
  intro t
  rw [next_ite]
  change execPvDone s = _
  unfold execPvDone
  rw [hc]
  refine if_congr ?_ rfl rfl
  simp only [h22, Bool.true_and, Bool.or_eq_true, decide_eq_true_eq, bne_iff_ne]

end

/-! ## The statement on splices and lenslets -/

/-- Settles O42, command by command, and the tests of a target by `State.spliceTarget_eq`. -/
theorem splicesAndLenslets : Obligations.SplicesAndLenslets := by
  intro s
  refine ⟨fun h22 => ⟨fun x rest hx => ?_, execRowSplice_eq h22, fun n u => ?_, fun c hc => ?_⟩, execSpliceTest_of_nil,
    execPvDone_of_none, fun frame seen x => ?_⟩
  · have htest := execSpliceTest_of_block h22 hx
    exact ⟨fun h => htest.trans (congrArg _ (if_pos h)), fun h => htest.trans (congrArg _ (if_neg (Nat.not_le.2 h)))⟩
  · have hcheck := execCompletenessCheck_eq h22 n u
    exact ⟨fun h hu => hcheck.trans (congrArg _ ((if_pos h).trans (if_neg hu))),
      fun h hu => hcheck.trans (congrArg _ ((if_pos h).trans (if_pos hu))), fun h => hcheck.trans (congrArg _ (if_neg h))⟩
  · have hdone := execPvDone_of_capture h22 hc
    exact ⟨fun h => hdone.trans (congrArg _ (if_pos h)),
      fun h hf => hdone.trans (congrArg _ (if_neg fun hn => hn.elim (Nat.not_le.2 h) (absurd hf)))⟩
  · have htest := State.spliceTarget_eq s frame seen x
    exact ⟨fun h => htest.trans (if_pos h), fun h hb => htest.trans ((if_neg h).trans (if_pos hb)),
      fun h hb hs => htest.trans ((if_neg h).trans ((if_neg (ne_true_of_eq_false hb)).trans (if_pos hs))),
      fun h hb hs => htest.trans ((if_neg h).trans ((if_neg (ne_true_of_eq_false hb)).trans (if_neg hs)))⟩

end Sys2Proof.Machine

/-!
The statements of chapter 12 (the tile link): commands to a tile and the blocks of its return lane, with the host's command and
result; then tile power, silence and the checks of the references.
-/
namespace Sys2Proof.Machine

open Sys2Proof.Safety

/-! ## CMD_HANDOVER (R271; 13 R296) -/

theorem execCmdHandover_eq {s : State} {n : Fin 16} (h23 : s.live 23 = true) :
    let z := s.sweepIssue n.val
    exec (.cmdHandover n) s = .next (if z.cmdAllowed n.val = true then z.cmdHandover n.val else z) :=
  if_neg (by rw [h23]; decide)

/-! ## Blocks of the return lane (R272, R274, R275) -/

/-- The first block of tile n's return lane is taken; the blocks given stay. -/
def State.returnTaken (s : State) (n : Nat) (bs : List Block) : State :=
  s.setLane (58 + n) { s.lane (58 + n) with rx := bs }

/-- RET_STATUS word w of tile n stands in the tile's registers. -/
def State.statusTaken (z : State) (n w : Nat) : State :=
  let u := z.setReg (Reg.tlkTemp n) (word (2 ^ 31 + bits w 23 8))
  (((u.setTile n { u.tile n with
    statusAt := some u.now, lock3Seen := (u.tile n).lock3Seen || w.testBit 33 }).clrFlag Reg.finStatus n).bump
      (Reg.tlkRowerr n) (bits w 55 48)).bump (Reg.tlkInsdrop n) (bits w 63 56)

/-- The thermal unit judges the temperature that tile n has reported (19 R406, R407). -/
def State.tileJudged (v : State) (n : Nat) : State :=
  (if outOfRange (v.sourceT (32 + n)) then v.markBad (32 + n) else v).thmRefresh

theorem State.tileJudged_of_outOfRange {v : State} {n : Nat} (h : outOfRange (v.sourceT (32 + n)) = true) :
    v.tileJudged n = (v.markBad (32 + n)).thmRefresh :=
  congrArg State.thmRefresh (if_pos h)

theorem State.tileJudged_of_inRange {v : State} {n : Nat} (h : outOfRange (v.sourceT (32 + n)) = false) :
    v.tileJudged n = v.thmRefresh :=
  congrArg State.thmRefresh (if_neg (ne_true_of_eq_false h))

/-- FAULT word w of tile n is latched if its register is free. -/
def State.tileFaultLatched (z : State) (n w : Nat) : State :=
  z.latchFirst (Reg.tlkFault n) 0
    [(Reg.tlkFault n, word (2 ^ 31 + bits w 63 48 * 2 ^ 8 + bits w 15 8)), (Reg.tlkFaultDetail n, word (bits w 47 16))]

/-- Both words of IDENT word w stand in tile n's registers. -/
def State.identWritten (z : State) (n w : Nat) : State :=
  (z.setReg (Reg.tlkIdentLo n) (word w)).setReg (Reg.tlkIdentHi n) (word (w / 2 ^ 32))

section
variable {s : State} {n : Fin 16}

theorem execReturns_of_empty (hrx : (s.lane (58 + n.val)).rx = []) :
    exec (.cmdResult n) s = .next s ∧ exec (.retStatus n) s = .next s ∧ exec (.fault n) s = .next s
      ∧ exec (.ident n) s = .next s := by
  have hno (ty : Nat) : (if s.live 23 = true then s.takeReturn n.val ty else none) = none := by
    rw [State.takeReturn_none hrx, ite_self]
  change execCmdResult n s = _ ∧ execRetStatus n s = _ ∧ execFault n s = _ ∧ execIdent n s = _
  simp only [execCmdResult, execRetStatus, execFault, execIdent, hno, and_self]

variable {b : Block} {bs : List Block} (h23 : s.live 23 = true) (hrx : (s.lane (58 + n.val)).rx = b :: bs)
  (hc : b.ctl = true) (hb : b.bad = false)
include h23 hrx hc hb

/-- An intact block of the type that a command takes off the return lane. -/
theorem State.takeReturn_of_intact {ty : Nat} (ht : b.type = ty) :
    (if s.live 23 = true then s.takeReturn n.val ty else none) = some (b.data.toNat, s.returnTaken n.val bs) :=
  (if_pos h23).trans (State.takeReturn_eq hrx hc hb ht)

theorem execCmdResult_of_unknown (ht : b.type = 0x72)
    (ho : ((s.returnTaken n.val bs).tile n.val).out.find? (fun o => o.ctag == bits b.data.toNat 15 8) = none) :
    exec (.cmdResult n) s = .next ((s.returnTaken n.val bs).bump (Reg.tlkCnt 3)) := by
  change execCmdResult n s = _
  simp only [execCmdResult, State.takeReturn_of_intact h23 hrx hc hb ht, ho]

theorem execCmdResult_of_outstanding (ht : b.type = 0x72) {o : OutCmd}
    (ho : ((s.returnTaken n.val bs).tile n.val).out.find? (fun o => o.ctag == bits b.data.toNat 15 8) = some o) :
    let z := s.returnTaken n.val bs
    let w := b.data.toNat
    exec (.cmdResult n) s = .next ((z.setTile n.val { z.tile n.val with out := (z.tile n.val).out.erase o }).cmdComplete
      n.val o.cmd (w.testBit 24) (w.testBit 25) (bits w 47 32) false) := by
  change execCmdResult n s = _
  simp only [execCmdResult, State.takeReturn_of_intact h23 hrx hc hb ht, ho]

theorem execRetStatus_of_block (ht : b.type = 0x71) :
    let z := s.returnTaken n.val bs
    let v := z.statusTaken n.val b.data.toNat
    exec (.retStatus n) s = .next (if v.live 30 = true ∧ (z.tile n.val).st = .linked then v.tileJudged n.val else v) := by
  intro z v
  rw [← ite_not, next_ite]
  change execRetStatus n s = _
  unfold execRetStatus
  dsimp only
  rw [State.takeReturn_of_intact h23 hrx hc hb ht]
  refine if_congr ?_ rfl rfl
  rw [not_and_or, Bool.or_eq_true, Bool.not_eq_true', bne_iff_ne, Bool.not_eq_true]
  exact Iff.rfl

theorem execFault_of_block (ht : b.type = 0x73) :
    exec (.fault n) s = .next (((s.returnTaken n.val bs).tileFaultLatched n.val b.data.toNat).event 169) := by
  change execFault n s = _
  simp only [execFault, State.takeReturn_of_intact h23 hrx hc hb ht, State.tileFaultLatched]

theorem execIdent_of_block (ht : b.type = 0x75) :
    let u := (s.returnTaken n.val bs).identWritten n.val b.data.toNat
    exec (.ident n) s = .next (if bits b.data.toNat 15 8 = 1 then u.setTile n.val { u.tile n.val with identSeen := true }
      else (u.setTile n.val { u.tile n.val with identSeen := false }).setFlag Reg.tlkStatus n.val) := by
  intro u
  change execIdent n s = _
  simp only [execIdent, State.takeReturn_of_intact h23 hrx hc hb ht]
  by_cases hv : bits b.data.toNat 15 8 = 1
  · simp only [hv, if_true, decide_true]
    rfl
  · simp only [hv, if_false, decide_false]
    rfl

end

/-! ## CMD_TIMEOUT (R272) -/

section
variable {s : State} {n : Fin 16}

theorem execCmdTimeout_of_nil (ho : (s.tile n.val).out = []) : exec (.cmdTimeout n) s = .next s := by
  change execCmdTimeout n s = _
  simp only [execCmdTimeout, ho]

/-- The oldest command of tile n leaves those that wait for a result, as a timeout. -/
def State.timedOut (s : State) (n : Nat) (rest : List OutCmd) : State :=
  (((s.setTile n { s.tile n with out := rest }).drawn).bump (Reg.tlkCnt 2)).event 170

theorem execCmdTimeout_of_cons {o : OutCmd} {rest : List OutCmd} (h23 : s.live 23 = true)
    (ho : (s.tile n.val).out = o :: rest) :
    exec (.cmdTimeout n) s = .next (if o.at_ + 40000 ≤ s.now then
      (s.timedOut n.val rest).cmdComplete n.val o.cmd false (Config.freeBit s.draws 0)
        ((Config.freeWord s.draws 0).toNat % 65536) true else s) := by
  rw [next_ite]
  change execCmdTimeout n s = _
  simp only [execCmdTimeout, ho, h23, Bool.true_and, decide_eq_true_eq]
  rfl

end

/-! ## The host's command and its result (R273) -/

/-- The host's command in TLK_HCMD_HI and TLK_HCMD_LO is issued; no result is valid until it ends. -/
def State.hostIssued (z : State) : State :=
  let n := z.fld Reg.tlkHcmdHi 19 16
  let u := (z.tileCommand n .host (z.fld Reg.tlkHcmdHi 15 8)
    ((z.reg Reg.tlkHcmdLo).toNat + z.fld Reg.tlkHcmdHi 7 0 * 2 ^ 32)).clrFlag Reg.tlkHresHi 31
  { u with tlk := { u.tlk with host := some n } }

theorem execHcmdGo_eq {s : State} {b : BusWrite} (hb : s.busOk Reg.tlkHcmdHi b = true) :
    let z := (s.accepted Reg.tlkHcmdHi b).store Reg.tlkHcmdHi b.value
    exec (.hcmdGo b) s = .next (if b.value.getLsbD 31 = true ∧ z.tlk.host = none then z.hostIssued else z) := by
  intro z
  refine congrArg _ ((State.busWrite_ok hb).trans (if_congr ?_ rfl rfl))
  rw [Bool.and_eq_true, Option.isNone_iff_eq_none]

theorem bits_15_0 (n : Nat) : bits n 15 0 = n % 65536 := rfl

theorem execTlkHresAck_eq {s : State} {b : BusWrite} (hb : s.busOk Reg.tlkHresAck b = true) :
    let z := s.accepted Reg.tlkHresAck b
    exec (.tlkHresAck b) s = .next (if b.value.toNat % 65536 = s.fld Reg.tlkHresLo 31 16 then z.clrFlag Reg.tlkHresHi 31
      else z) := by
  intro z
  refine congrArg _ ((State.busWrite_ok hb).trans ?_)
  rw [State.hresAckWrite, bits_15_0, State.accepted_fld]

/-! ## The statement on commands and returns -/

/-- Settles O46, command by command; the blocks of the return lane by their type. -/
theorem tileCommandsAndReturns : Obligations.TileCommandsAndReturns := by
  refine ⟨fun s n h23 => ⟨?_, fun b bs hrx hc hb => ⟨fun ht => ⟨execCmdResult_of_unknown h23 hrx hc hb ht, fun o =>
      execCmdResult_of_outstanding h23 hrx hc hb ht⟩, fun ht => ?_, fun ht => ⟨execFault_of_block h23 hrx hc hb ht, fun h =>
      tileFault_words _ n h _ _⟩, fun ht => ?_⟩, execReturns_of_empty, fun o rest ho => ?_, execCmdTimeout_of_nil⟩,
    fun s b hb => ?_, fun s b hb => execTlkHresAck_eq hb, fun s b hb => congrArg _ (State.busRead_ok hb)⟩
  · have hand := execCmdHandover_eq (n := n) h23
    exact ⟨fun h => hand.trans (congrArg _ (if_pos (State.cmdAllowed_iff.2 h))),
      fun h => hand.trans (congrArg _ (if_neg fun hn => h (State.cmdAllowed_iff.1 hn)))⟩
  · have hstat := execRetStatus_of_block h23 hrx hc hb ht
    exact ⟨fun h => hstat.trans (congrArg _ (if_neg h)),
      fun h hout => hstat.trans (congrArg _ ((if_pos h).trans (State.tileJudged_of_outOfRange hout))),
      fun h hin => hstat.trans (congrArg _ ((if_pos h).trans (State.tileJudged_of_inRange hin)))⟩
  · have hident := execIdent_of_block h23 hrx hc hb ht
    exact ⟨fun h => hident.trans (congrArg _ (if_pos h)), fun h => hident.trans (congrArg _ (if_neg h))⟩
  · have hout := execCmdTimeout_of_cons h23 ho
    exact ⟨fun h => hout.trans (congrArg _ (if_pos h)), fun h => hout.trans (congrArg _ (if_neg (Nat.not_le.2 h)))⟩
  · have hgo := execHcmdGo_eq hb
    refine ⟨fun h hn => hgo.trans (congrArg _ (if_pos ⟨h, hn⟩)), fun h => hgo.trans (congrArg _ (if_neg fun hn => ?_))⟩
    rcases h with h | h
    · exact nomatch h.symm.trans hn.1
    · exact h hn.2

/-! ## A write of TLK_TILE_EN (R276, Table TLK-5) -/

/-- What word v of TLK_TILE_EN, written over word old, asks of tile n. -/
def State.tileEnAsked (old v : Word) (s : State) (n : Nat) : State :=
  if v.getLsbD n = true ∧ old.getLsbD n = false then s.wakeTile n
  else if v.getLsbD n = false ∧ old.getLsbD n = true then
    if (s.tile n).st = .off then
      s.setTile n { s.tile n with shutAt := (s.tile n).shutAt.map fun x => (x.1, false), holdAt := none }
    else s.shutTile n false
  else if (v.getLsbD n = true ∧ v.getLsbD (16 + n) = true) ∧ (s.tile n).st ≠ .off then s.shutTile n true else s

theorem State.tileEnWrite_eq (s : State) (v : Word) :
    s.tileEnWrite v = (List.range 16).foldl (State.tileEnAsked (s.reg Reg.tlkTileEn) v) (s.store Reg.tlkTileEn v) := by
  unfold State.tileEnWrite State.eachTile
  refine congrArg (fun f => List.foldl f _ _) (funext fun s => funext fun n => ?_)
  simp only [State.tileEnAsked, Bool.and_eq_true, Bool.not_eq_true', bne_iff_ne]

/-- TILE_EN_WRITE and TILE_RESET are one write of TLK_TILE_EN. -/
theorem exec_tileEn {s : State} {b : BusWrite} (hb : s.busOk Reg.tlkTileEn b = true) {c : Instr}
    (hc : c = .tileEnWrite b ∨ c = .tileReset b) :
    exec c s = .next ((List.range 16).foldl (State.tileEnAsked (s.reg Reg.tlkTileEn) b.value)
      ((s.accepted Reg.tlkTileEn b).store Reg.tlkTileEn b.value)) := by
  have h : (.next (s.busWrite Reg.tlkTileEn b State.tileEnWrite) : Out)
      = .next ((List.range 16).foldl (State.tileEnAsked (s.reg Reg.tlkTileEn) b.value)
        ((s.accepted Reg.tlkTileEn b).store Reg.tlkTileEn b.value)) := by
    rw [State.busWrite_ok hb, State.tileEnWrite_eq, State.accepted_reg]
  rcases hc with rfl | rfl <;> exact h

/-! ## TILE_EN low, and the hold of a reset (R276) -/

section
variable {s : State} {n : Fin 16}

theorem execTileEnDriveLow_of_none (hs : (s.tile n.val).shutAt = none) : exec (.tileEnDriveLow n) s = .next s := by
  change execTileEnDriveLow n s = _
  simp only [execTileEnDriveLow, hs]

theorem execTileResetHoldEnd_of_none (hh : (s.tile n.val).holdAt = none) : exec (.tileResetHoldEnd n) s = .next s := by
  change execTileResetHoldEnd n s = _
  simp only [execTileResetHoldEnd, hh]

/-- TILE_EN of tile n is driven low; the hold of a reset begins. -/
def State.tileEnLow (s : State) (n : Nat) (reset : Bool) : State :=
  (s.setTile n { s.tile n with
    shutAt := none, enLow := true, holdAt := if reset = true then some s.now else none }).tileLanes n .dormant

variable (h23 : s.live 23 = true) {t : Nat}
include h23

theorem execTileEnDriveLow_of_some {reset : Bool} (hs : (s.tile n.val).shutAt = some (t, reset)) :
    exec (.tileEnDriveLow n) s = .next (if t + 16000 ≤ s.now then s.tileEnLow n.val reset else s) := by
  rw [next_ite]
  change execTileEnDriveLow n s = _
  simp only [execTileEnDriveLow, hs, h23, Bool.true_and, decide_eq_true_eq, State.tileEnLow]

theorem execTileResetHoldEnd_of_some (hh : (s.tile n.val).holdAt = some t) :
    let z := s.setTile n.val { s.tile n.val with holdAt := none }
    exec (.tileResetHoldEnd n) s = .next (if t + 1600000 ≤ s.now then
      if s.flag Reg.tlkTileEn n.val = true then z.wakeTile n.val else z else s) := by
  intro z
  rw [next_ite]
  change execTileResetHoldEnd n s = _
  simp only [execTileResetHoldEnd, hh, h23, Bool.true_and, decide_eq_true_eq]
  rfl

end

/-! ## TILE_DOWN (Table TLK-5) -/

theorem execTileDown_eq {s : State} {n : Fin 16} (h23 : s.live 23 = true) :
    exec (.tileDown n) s = .next (if (s.tile n.val).st = .linked ∧ s.tileSilent n.val = true then
      ((s.setTile n.val { s.tile n.val with st := .down, identSeen := false, lock3Seen := false }).bump
        (Reg.tlkCnt 4)).event 168 else s) := by
  rw [next_ite]
  refine if_congr ?_ rfl rfl
  rw [h23, Bool.true_and, Bool.and_eq_true, beq_iff_eq]

/-! ## REFERENCE_CHECK (R278, R280; 13 R295) -/

theorem State.refDue_iff {s : State} :
    s.refDue = true ↔ s.tlk.refAt = none ∨ ∃ t, s.tlk.refAt = some t ∧ t + 1600000 ≤ s.now := by
  unfold State.refDue
  cases s.tlk.refAt <;> simp

/-- V_REFV (in µV) and the REFR current (in nA) are in their limits. -/
abbrev refsInLimits (v r : Nat) : Prop := (2450000 ≤ v ∧ v ≤ 2550000) ∧ 237500 ≤ r ∧ r ≤ 262500

/-- The check is noted, with the REFR current. -/
def State.refsChecked (s : State) (r : Nat) : State := { s with tlk := { s.tlk with refAt := some s.now, refr := r } }

/-- A fault of the references takes the light of tile n. -/
def State.refsDark (s : State) (n : Nat) : State :=
  if (s.tile n).st = .linked then (s.zeroApp n).blankTile 3 n
  else ((s.zeroApp n).dropInserts n).setTile n { (s.zeroApp n).tile n with blanked := true, row := none }

/-- The references have failed: the fault, its event, and every tile dark. -/
def State.refsFailed (y : State) : State :=
  (List.range 16).foldl State.refsDark
    (State.event { y with tlk := { y.tlk with refFault := true, refPasses := 0 } } 171)

/-- The fault of the references has cleared. -/
def State.refsCleared (y : State) : State := { y with tlk := { y.tlk with refFault := false, refPasses := 0 } }

/-- A cleared fault asks for the electrical calibration. -/
abbrev State.recalibrates (s : State) : Prop :=
  ((s.live 25 = true ∧ s.flag Reg.calCtrl 2 = true) ∧ s.cal.elec = none) ∧ s.cal.elecReq = none

section
variable {s : State} {v r : Nat}

theorem execReferenceCheck_of_not_due (hd : s.refDue = false) : exec (.referenceCheck v r) s = .next s :=
  if_pos (by rw [hd, Bool.not_false, Bool.or_true])

theorem execReferenceCheck_of_due (h23 : s.live 23 = true) (hd : s.refDue = true) :
    exec (.referenceCheck v r) s =
      let y := s.refsChecked r
      .next (if ¬ refsInLimits v r then y.refsFailed
        else if s.tlk.refFault = true then
          if 99 ≤ s.tlk.refPasses then
            if s.recalibrates then { y.refsCleared with cal := { y.refsCleared.cal with elecReq := some s.now } }
            else y.refsCleared
          else { y with tlk := { y.tlk with refPasses := s.tlk.refPasses + 1 } }
        else y) := by
  have hdark : (fun (s : State) n => let s := s.zeroApp n
      if (s.tile n).st = .linked then s.blankTile 3 n
      else (s.dropInserts n).setTile n { s.tile n with blanked := true, row := none }) = State.refsDark :=
    funext fun s => funext fun n => if_congr (by rw [State.st_zeroApp]) rfl rfl
  simp only [next_ite]
  refine (if_neg (by rw [h23, hd]; decide)).trans (if_congr ?_ ?_ (if_congr Iff.rfl (if_congr Iff.rfl ?_ rfl) rfl))
  · rw [Bool.not_eq_true', decide_eq_false_iff_not, refsInLimits, and_assoc]
  · exact congrArg (fun f => (.next ((List.range 16).foldl f _) : Out)) hdark
  · refine (congrArg _ (if_congr ?_ rfl rfl)).trans (next_ite ..)
    simp only [Bool.and_eq_true, Option.isNone_iff_eq_none]
    exact Iff.rfl

end

/-! ## TLK_CTRL (08 R196) -/

theorem execTlkArm_eq {s : State} {b : BusWrite} (hb : s.busOk Reg.tlkCtrl b = true) :
    let z := (s.accepted Reg.tlkCtrl b).store Reg.tlkCtrl b.value
    exec (.tlkArm b) s = .next (if b.value.getLsbD 31 = true then
      { z.noteArm 3 z.tlk.armed with tlk := { z.tlk with armed := true } } else z) :=
  congrArg _ (State.busWrite_ok hb)

/-! ## The statement on tile power and the references -/

/-- Settles O47, command by command; the instants and the outcomes of a check are its cases. -/
theorem tilesWakeShutAndGoDown : Obligations.TilesWakeShutAndGoDown := by
  refine ⟨fun s b hb c hc => exec_tileEn hb hc, fun s n h23 => ⟨fun t reset hs => ?_, execTileEnDriveLow_of_none,
    fun t hh => ?_, execTileResetHoldEnd_of_none, ?_⟩, fun s v r h23 => ?_, fun s b hb => ?_⟩
  · have hlow := execTileEnDriveLow_of_some h23 hs
    exact ⟨fun h => hlow.trans (congrArg _ (if_pos h)), fun h => hlow.trans (congrArg _ (if_neg (Nat.not_le.2 h)))⟩
  · have hend := execTileResetHoldEnd_of_some h23 hh
    exact ⟨fun h hen => hend.trans (congrArg _ ((if_pos h).trans (if_pos hen))),
      fun h hen => hend.trans (congrArg _ ((if_pos h).trans (if_neg (ne_true_of_eq_false hen)))),
      fun h => hend.trans (congrArg _ (if_neg (Nat.not_le.2 h)))⟩
  · have hdown := execTileDown_eq (n := n) h23
    refine ⟨fun hl h => hdown.trans (congrArg _ (if_pos ⟨hl, State.tileSilent_iff.2 h⟩)),
      fun h => hdown.trans (congrArg _ (if_neg fun ⟨hl, hs⟩ => ?_))⟩
    exact h.elim (absurd hl) (absurd (State.tileSilent_iff.1 hs))
  · have hcheck (hd : s.refDue = true) := execReferenceCheck_of_due (v := v) (r := r) h23 hd
    have hpass (hd : s.refDue = true) (hp : refsInLimits v r) := (hcheck hd).trans (congrArg _ (if_neg (not_not.2 hp)))
    refine ⟨fun hd => execReferenceCheck_of_not_due (Bool.eq_false_iff.2 fun h => hd (State.refDue_iff.1 h)),
      fun hd hp => (hcheck (State.refDue_iff.2 hd)).trans (congrArg _ (if_pos hp)), fun hd hp hf => ?_, fun hd hp hf hn => ?_,
      fun hd hp hf hn => ?_⟩
    · exact (hpass (State.refDue_iff.2 hd) hp).trans (congrArg _ (if_neg (ne_true_of_eq_false hf)))
    · exact (hpass (State.refDue_iff.2 hd) hp).trans (congrArg _ ((if_pos hf).trans (if_neg (Nat.not_le.2 hn))))
    · have hclear := (hpass (State.refDue_iff.2 hd) hp).trans (congrArg _ ((if_pos hf).trans (if_pos hn)))
      exact ⟨fun h => hclear.trans (congrArg _ (if_pos h)), fun h => hclear.trans (congrArg _ (if_neg h))⟩
  · have harm := execTlkArm_eq hb
    exact ⟨fun h => harm.trans (congrArg _ (if_pos h)), fun h => harm.trans (congrArg _ (if_neg (ne_true_of_eq_false h)))⟩

end Sys2Proof.Machine

/-!
What every step keeps (00 R7, 14 R311, 15 R337, 20 R413): canonical tables, extents apart, OTP bits programmed.
-/
namespace Sys2Proof.Machine
open Sys2Proof.Safety

/-- Settles O4: what `Keeps` says of the register map, of device memory and of the extents. -/
theorem tablesStayCanonical : Obligations.TablesStayCanonical := by
  intro s t h hmem hregs hext
  have k := step_keeps h
  exact ⟨k.mem hmem, k.regs hregs, k.extents hext⟩

/-- Settles O5: what `Keeps` says of the three OTP copies. -/
theorem otpBitsNeverClear : Obligations.OtpBitsNeverClear := by
  intro s t h a i
  have k := step_keeps h
  exact ⟨k.otp0 a i, k.otp1 a i, k.otp2 a i⟩

end Sys2Proof.Machine

/-!
The posts of chapter 15 (R337, R338), register by register.
-/
namespace Sys2Proof.Machine

open Sys2Proof.Safety

theorem State.accepted_flag (s : State) (off : Nat) (b : BusWrite) (o i : Nat) : (s.accepted off b).flag o i = s.flag o i :=
  congrArg (BitVec.getLsbD · i) (s.accepted_reg off b o)

/-! ## Posts before their check (R337, R338) -/

/-- A post register whose effect is a queue's: `held` buffers are in the queue, a post at `depth` is not taken. -/
theorem execPost_of_effect {s : State} {b : BusWrite} {i : Instr} {off depth held : Nat} {q : QueueId} {full : State → State}
    {eff : State → Word → State} (hi : exec i s = .next (s.busWrite off b eff))
    (heff : ∀ c, let z : State := { s with cyc := c, host := { s.host with respErr := false } }
      eff z b.value = if depth ≤ held + s.posting q then full z else z.post q (b.value.toNat &&& 0x3FFFFFC0))
    (hb : s.busOk off b = true) :
    let z := s.accepted off b
    (held + s.posting q < depth → exec i s = .next { z with
        host := { z.host with fifo := s.host.fifo ++ [.post q (64 * (b.value.toNat / 64 % 2 ^ 24))] } })
      ∧ (depth ≤ held + s.posting q → exec i s = .next (full z)) := by
  obtain ⟨c, hz, -⟩ := s.accepted_eq off b
  have hexec := hi.trans (congrArg _ ((State.busWrite_ok hb).trans (hz ▸ heff c)))
  dsimp only
  rw [hexec, hz, ← postOffset_eq]
  exact ⟨fun h => congrArg _ (if_neg (Nat.not_le.2 h)), fun h => congrArg _ (if_pos h)⟩

/-- Settles O30, register by register; what the effect of each does is its definition. -/
theorem postsWaitForTheMonitor : Obligations.PostsWaitForTheMonitor := by
  intro s b x posts
  have post : ∀ (full : State → State) {i : Instr} {off depth held : Nat} {q : QueueId} {eff : State → Word → State},
      exec i s = .next (s.busWrite off b eff) → (∀ c, let z : State := { s with cyc := c, host := { s.host with respErr := false } }
        eff z b.value = if depth ≤ held + s.posting q then full z else z.post q (b.value.toNat &&& 0x3FFFFFC0)) →
      posts i off depth held q full := fun _ _ _ _ _ _ _ hi heff hb => execPost_of_effect hi heff hb
  refine ⟨fun p => ⟨post (State.event · 73) rfl fun _ => rfl, post (State.event · 73) rfl fun _ => rfl⟩,
    post (State.event · 106) rfl fun _ => rfl, fun k => post id rfl fun _ => rfl, post id rfl fun _ => rfl,
    post id rfl fun _ => rfl, fun hen => post id rfl fun c => ?_, fun hen hb => ?_, post id rfl fun _ => rfl,
    post id rfl fun _ => rfl, post id rfl fun _ => rfl⟩
  · refine if_congr ?_ rfl rfl
    change (s.flag Reg.rptCtrl 0 || _) = true ↔ _
    rw [hen, Bool.false_or, decide_eq_true_eq]
    exact Iff.rfl
  · refine congrArg _ ((State.busWrite_ok hb).trans (if_pos ?_))
    rw [State.accepted_flag, hen, Bool.true_or]

end Sys2Proof.Machine

/-!
The Hall Pass monitor of chapter 15 (R336 to R339).
-/
namespace Sys2Proof.Machine

open Sys2Proof.Safety

/-! ## The Hall Pass monitor (R336 to R339) -/

theorem State.inExtent_of_regsAndEvents {s t : State} (h : RegsAndEvents s t) (x n : Nat) :
    t.inExtent x n = s.inExtent x n := by
  unfold RegsAndEvents at h
  rw [h]
  rfl

/-- What a queue's master reads of the ownership word of a buffer; a failed read reads zeros (R336, R337). -/
theorem State.ownerRead_eq (s : State) (m : Nat) {x : Nat} (hx : x % 64 = 0) :
    if (s.devRead m (winAddr x) 8).2.2 then
      (s.ownerRead m x).2.1 = leNat (s.bytesAt (winAddr x) 4) % 4
        ∧ (s.ownerRead m x).2.2 = ownerLen (leNat (s.bytesAt (winAddr x + 4) 4))
    else (s.ownerRead m x).2.1 = 0 := by
  have hline := State.devRead_line s m (winAddr x) 8 (by omega) (by unfold winAddr; omega)
  unfold State.ownerRead
  dsimp only
  rw [hline]
  split
  · rw [leAt_leBytes _ _ _ _ _ (by omega), leAt_leBytes _ _ _ _ _ (by omega)]
    exact ⟨rfl, rfl⟩
  · decide

theorem execPostCheck_of_post {s : State} {q : QueueId} {x : Nat} {r : List _} (hf : s.host.fifo = .post q x :: r)
    (hl : s.live 34 = true) (hm : s.memReady q.master (winAddr x) 64 = true) :
    let t := State.postCheck { s with host := { s.host with fifo := [] } } q x
    exec .postCheck s = .next (State.drainFifo { t with host := { t.host with fifo := t.host.fifo ++ r } }) := by
  show execPostCheck s = _
  unfold execPostCheck
  rw [hf]
  dsimp only
  rw [hl, hm]
  rfl

theorem execPostCheck_of_not_ready {s : State} {q : QueueId} {x : Nat} {r : List _} (hf : s.host.fifo = .post q x :: r)
    (h : (s.live 34 && s.memReady q.master (winAddr x) 64) = false) : exec .postCheck s = .next s := by
  show execPostCheck s = _
  unfold execPostCheck
  rw [hf]
  dsimp only
  rw [h, if_neg Bool.false_ne_true]

theorem execPostCheck_of_nil {s : State} (hf : s.host.fifo = []) : exec .postCheck s = .next s := by
  show execPostCheck s = _
  unfold execPostCheck
  rw [hf]

/-- A refused post: the extent that holds its ownership word is one registered before (R337). -/
theorem State.postCheck_of_reason {s z : State} {q : QueueId} {x k : Nat} (hz : RegsAndEvents s (s.ownerRead q.master x).1)
    (hk : (s.ownerRead q.master x).1.postReason q (s.ownerRead q.master x).2.1 x (s.ownerRead q.master x).2.2 = k)
    (h0 : k ≠ 0) 
    (hl : z = (s.ownerRead q.master x).1.latchFirst Reg.hpRefuse q.reg [(Reg.hpRefuse, word (2 ^ 31 + x / 64 * 64 + k))]) :
    s.postCheck q x = ((if s.inExtent x 64 then z else z.ownerReturn q.master x 1).event 33).postRefused q := by
  have hz' : RegsAndEvents s z := hl ▸ hz.trans (RegsAndEvents.latchFirst ..)
  unfold State.postCheck
  dsimp only
  rw [hk, if_neg h0]
  unfold State.refusePost
  dsimp only
  rw [← hl, State.inExtent_of_regsAndEvents hz']

theorem State.postCheck_of_good {s : State} {q : QueueId} {x : Nat}
    (hk : (s.ownerRead q.master x).1.postReason q (s.ownerRead q.master x).2.1 x (s.ownerRead q.master x).2.2 = 0) :
    s.postCheck q x = (s.ownerRead q.master x).1.acceptPost q x (s.ownerRead q.master x).2.2 := by
  unfold State.postCheck
  dsimp only
  rw [hk, if_pos rfl]

/-- What one post leaves when nothing was held behind it (R338). -/
theorem execPostCheck_of_last {s t : State} {q : QueueId} {x : Nat} (hf : s.host.fifo = [.post q x])
    (hl : s.live 34 = true) (hm : s.memReady q.master (winAddr x) 64 = true)
    (ht : State.postCheck { s with host := { s.host with fifo := [] } } q x = t) (hn : t.host.fifo = []) :
    exec .postCheck s = .next t := by
  rw [execPostCheck_of_post hf hl hm, ht, State.drain_nil _ hn]

/-! ## Writes of the window (R335, R338, R339) -/

theorem execWindowWrite_of_ok {s : State} {off : BitVec 30} {bs : List Byte} (hp : s.hostPath = true) (hl : s.live 34 = true)
    (hb : bs ≠ []) (hx : off.toNat + bs.length ≤ 2 ^ 30) :
    exec (.windowWrite off bs) s = .next (s.windowWrite off.toNat bs) := by
  refine if_neg ?_
  rw [hp, hl, List.isEmpty_eq_false_iff.2 hb, decide_eq_false (Nat.not_lt.2 hx)]
  decide

theorem State.monitorWrite_of_touching {s : State} {x : Nat} {bs : List Byte} (h : s.inExtent x bs.length = true) :
    s.monitorWrite x bs = ((s.bump Reg.hpViolCnt).event 32).latchFirst Reg.hpViol 0 [(Reg.hpViol, word (2 ^ 31 + x))] :=
  if_pos h

theorem State.monitorWrite_of_clear {s : State} {x : Nat} {bs : List Byte} (h : ¬ s.inExtent x bs.length = true) :
    s.monitorWrite x bs = (s.devWrite 16 (winAddr x) bs).1 :=
  if_neg h

theorem State.windowWrite_of_nil {s : State} (h : s.host.fifo = []) (x : Nat) (bs : List Byte) :
    s.windowWrite x bs = s.monitorWrite x bs := by
  unfold State.windowWrite
  rw [h]
  rfl

theorem State.windowWrite_of_held {s : State} (h : s.host.fifo ≠ []) (x : Nat) (bs : List Byte) :
    s.windowWrite x bs = { s with host := { s.host with fifo := s.host.fifo ++ [.write x bs] } } := by
  unfold State.windowWrite
  rw [List.isEmpty_eq_false_iff.2 h]
  rfl

/-- A dropped write latches its address unless VALID was 1 (R339). -/
theorem State.hpViol_latched {s : State} (x : Nat) (h : Calm s Reg.hpViol) :
    (((s.bump Reg.hpViolCnt).event 32).latchFirst Reg.hpViol 0 [(Reg.hpViol, word (2 ^ 31 + x))]).reg Reg.hpViol
      = if s.flag Reg.hpViol 31 then s.reg Reg.hpViol else word (2 ^ 31 + x) := by
  have hcalm : Calm ((s.bump Reg.hpViolCnt).event 32) Reg.hpViol :=
    Calm.event (s := s.bump Reg.hpViolCnt) h 32 (by decide)
  have hreg : ((s.bump Reg.hpViolCnt).event 32).reg Reg.hpViol = s.reg Reg.hpViol := by
    rw [State.reg_event _ _ _ (by decide), State.reg_bump_of_ne _ _ (by decide)]
  rw [latched_post_word _ _ _ _ hcalm]
  unfold State.flag
  rw [hreg]

/-- Settles O31: the check by the reason a post is refused for, then the host's writes. -/
theorem monitorChecksPosts : Obligations.MonitorChecksPosts := by
  refine ⟨fun s q x r hf hx hl hm => ?_, fun s => execPostCheck_of_nil, fun s q x r => execPostCheck_of_not_ready,
    fun s off bs hp hl hb hx => ?_⟩
  case refine_2 =>
    have hexec := execWindowWrite_of_ok hp hl hb hx
    refine ⟨fun hf => hexec.trans (congrArg _ (State.windowWrite_of_held hf ..)), fun hf hn => ?_,
      fun hf ht => ⟨?_, State.hpViol_latched _⟩⟩
    · rw [hexec, State.windowWrite_of_nil hf, State.monitorWrite_of_clear fun h => hn ((State.inExtent_iff ..).1 h)]
      rfl
    · rw [hexec, State.windowWrite_of_nil hf, State.monitorWrite_of_touching ((State.inExtent_iff ..).2 ht)]
  case refine_1 =>
    intro s₀ read s₁ owner len touches wanted after latched refused
    have hread : RegsAndEvents s₀ s₁ := RegsAndEvents.devRead ..
    obtain ⟨hext, hfifo, hrc, hsyn, hcal⟩ : s₁.host.extents = s.host.extents ∧ s₁.host.fifo = []
        ∧ s₁.host.rcQueue = s.host.rcQueue ∧ s₁.syn = s.syn ∧ s₁.cal = s.cal := by
      unfold RegsAndEvents at hread
      rw [hread]
      exact ⟨rfl, rfl, rfl, rfl, rfl⟩
    have hexec := execPostCheck_of_post hf hl hm
    have hreason : s₁.postReason q owner x len = if owner ≠ wanted then 1 else if 2 ^ 30 < x + len then 2
        else if s.inExtent x len then 3 else if 256 ≤ s.host.extents.length then 4 else 0 :=
      State.postReason_eq s s₁ q x owner len hext
    have href (k : Nat) (h0 : k ≠ 0) (hk : s₁.postReason q owner x len = k) : exec .postCheck s = after (refused k) := by
      rw [hexec, State.postCheck_of_reason hread hk h0 rfl]
      rfl
    have hgood (hk : s₁.postReason q owner x len = 0) :
        State.postCheck s₀ q x = State.postAccepted { s₁ with
          host := { s₁.host with extents := s.host.extents ++ [⟨x, len, q⟩] } } x q := by
      rw [State.postCheck_of_good hk, ← hext]
      rfl
    have htouch : s.inExtent x len = true ↔ touches len := State.inExtent_iff ..
    have hgood' (h1 : owner = wanted) (h2 : x + len ≤ 2 ^ 30) (h3 : ¬ touches len) (h4 : s.host.extents.length < 256) :=
      hgood (hreason.trans ((if_neg (not_not.2 h1)).trans ((if_neg (Nat.not_lt.2 h2)).trans
        ((if_neg fun h => h3 (htouch.1 h)).trans (if_neg (Nat.not_le.2 h4))))))
    refine ⟨⟨hread, State.ownerRead_eq s₀ _ hx⟩, fun h1 => href 1 (by decide) (hreason.trans (if_pos h1)),
      fun h1 h2 => href 2 (by decide) (hreason.trans ((if_neg (not_not.2 h1)).trans (if_pos h2))),
      fun h1 h2 h3 => href 3 (by decide) (hreason.trans ((if_neg (not_not.2 h1)).trans
        ((if_neg (Nat.not_lt.2 h2)).trans (if_pos (htouch.2 h3))))),
      fun h1 h2 h3 h4 => href 4 (by decide) (hreason.trans ((if_neg (not_not.2 h1)).trans
        ((if_neg (Nat.not_lt.2 h2)).trans ((if_neg fun h => h3 (htouch.1 h)).trans (if_pos h4))))),
      fun k _ hc => latched_post_word _ _ _ _ hc, fun h1 h2 h3 h4 => ?_⟩
    have hg := hgood' h1 h2 h3 h4
    have hlast (hr : r = []) := execPostCheck_of_last (hr ▸ hf) hl hm hg
    refine ⟨by rw [hexec, hg], fun hq hr => ?_, fun hq hr => ?_, fun hq hr => ?_⟩
    · subst hq
      rw [hlast hr hfifo, ← hrc]
      rfl
    · subst hq
      rw [hlast hr hfifo, ← hsyn]
      rfl
    · subst hq
      rw [hlast hr hfifo, ← hcal]
      rfl

end Sys2Proof.Machine

/-!
The mailboxes of chapter 15 (R342, R343, R346).
-/
namespace Sys2Proof.Machine

open Sys2Proof.Safety

/-! ## ACK (R342, R343) -/

theorem State.mboxAckWrite_of_other {s : State} {k : Nat} {v : Word} (h : v.toNat % 65536 ≠ s.fld (Reg.hstMbox0w k) 15 0) :
    s.mboxAckWrite k v = s :=
  if_neg h

theorem State.mboxAckWrite_of_current {s : State} {k : Nat} {v : Word} (h : v.toNat % 65536 = s.fld (Reg.hstMbox0w k) 15 0) :
    s.mboxAckWrite k v = match s.host.mboxHeld.find? fun p => p.1 == k with
      | some p => State.mboxFill { s.clrFlag (Reg.hstMbox0w k) 31 with
          host := { s.host with mboxHeld := s.host.mboxHeld.erase p } } k p.2
      | none => s.clrFlag (Reg.hstMbox0w k) 31 :=
  (if_pos h).trans rfl

theorem State.mboxAckWrite_of_none {s : State} {k : Nat} {v : Word} (h : v.toNat % 65536 = s.fld (Reg.hstMbox0w k) 15 0)
    (hn : ∀ p ∈ s.host.mboxHeld, p.1 ≠ k) : s.mboxAckWrite k v = s.clrFlag (Reg.hstMbox0w k) 31 := by
  rw [State.mboxAckWrite_of_current h, List.find?_eq_none.2 fun p hp e => hn p hp (beq_iff_eq.1 e)]

theorem State.mboxAckWrite_of_held {s : State} {k : Nat} {v : Word} {before rest : List (Nat × List Word)} {d : List Word}
    (h : v.toNat % 65536 = s.fld (Reg.hstMbox0w k) 15 0) (hh : s.host.mboxHeld = before ++ (k, d) :: rest)
    (hn : ∀ p ∈ before, p.1 ≠ k) :
    s.mboxAckWrite k v = State.mboxFill { s.clrFlag (Reg.hstMbox0w k) 31 with
      host := { s.host with mboxHeld := before ++ rest } } k d := by
  obtain ⟨hfind, herase⟩ := find_held k before rest d hn
  rw [State.mboxAckWrite_of_current h, hh, hfind]
  dsimp only
  rw [herase]

/-- An ACK clears VALID alone: SEQ stands (Table HST-6). -/
theorem State.fld_clrFlag_seq (s : State) (k : Nat) :
    (s.clrFlag (Reg.hstMbox0w k) 31).fld (Reg.hstMbox0w k) 15 0 = s.fld (Reg.hstMbox0w k) 15 0 :=
  State.fld_clrFlag_of_ne _ _ _ _ _ _ (by decide) (.inr (.inl (by decide)))

/-- What the delivery of a held result leaves, after the ACK that frees the mailbox (R343). -/
theorem State.mboxFill_delivers {s z : State} {k : Fin 4} {d : List Word}
    (hz : ∀ o, z.reg o = (s.clrFlag (Reg.hstMbox0w k.val) 31).reg o) :
    let t := z.mboxFill k.val d
    t.reg (Reg.hstMbox0w k.val) = word (2 ^ 31 + (s.fld (Reg.hstMbox0w k.val) 15 0 + 1) % 65536)
      ∧ (∀ i, i < 6 → t.reg (Reg.hstMboxData k.val i) = d.getD i 0)
      ∧ (z.up 33 = true → t.flag (Reg.evtStatus 1) (4 + k.val) = true)
      ∧ (∀ o, o ≠ Reg.hstMbox0w k.val → (∀ i, i < 6 → o ≠ Reg.hstMboxData k.val i) → o ≠ Reg.evtStatus 1 →
        t.reg o = s.reg o)
      ∧ RegsAndEvents z t := by
  obtain ⟨h0, hdata, hev, hreg, hframe⟩ := State.mboxFill_spec z k.val k.isLt d
  have hseq : z.fld (Reg.hstMbox0w k.val) 15 0 = s.fld (Reg.hstMbox0w k.val) 15 0 := by
    rw [← s.fld_clrFlag_seq]
    exact congrArg (fun w : Word => bits w.toNat 15 0) (hz _)
  refine ⟨hseq ▸ h0, hdata, hev, fun o h1 h2 h3 => ?_, hframe⟩
  rw [hreg o h1 h2 h3, hz]
  exact State.reg_setReg_of_ne _ _ h1

/-! ## The producer (R343) -/

theorem State.mboxResult_of_valid {s : State} {k : Nat} (d : List Word) (h : s.flag (Reg.hstMbox0w k) 31 = true) :
    s.mboxResult k d = { s with host := { s.host with mboxHeld := s.host.mboxHeld ++ [(k, d)] } } :=
  if_pos h

theorem State.mboxResult_of_free {s : State} {k : Nat} (d : List Word) (h : s.flag (Reg.hstMbox0w k) 31 = false) :
    s.mboxResult k d = s.mboxFill k d :=
  if_neg (ne_true_of_eq_false h)

/-! ## The statement -/

/-- Settles O32: an ACK by SEQ and what is held, a read by the words it latches, a result by VALID. -/
theorem mailboxesHoldTheirResult : Obligations.MailboxesHoldTheirResult := by
  refine ⟨fun s k b hb => ?_, fun s k b hr => ?_, fun s k d => ⟨State.mboxResult_of_valid d, fun h => ?_⟩⟩
  · intro z seq
    have hexec : exec (.mboxAck k b) s = .next (z.mboxAckWrite k.val b.value) := congrArg _ (State.busWrite_ok hb)
    have hz : z = { s with cyc := z.cyc, host := { s.host with respErr := false } } := s.accepted_frame _ b
    have hseq : z.fld (Reg.hstMbox0w k.val) 15 0 = seq := s.accepted_fld ..
    have hheld : z.host.mboxHeld = s.host.mboxHeld := by rw [hz]
    rw [hexec]
    refine ⟨fun h => congrArg _ (State.mboxAckWrite_of_other (hseq ▸ h)),
      fun h hn => congrArg _ (State.mboxAckWrite_of_none (hseq ▸ h) (hheld ▸ hn)), fun d before rest h hh hn => ?_⟩
    rw [State.mboxAckWrite_of_held (hseq.symm ▸ h) (hheld.trans hh) hn]
    let y : State := { z.clrFlag (Reg.hstMbox0w k.val) 31 with host := { z.host with mboxHeld := before ++ rest } }
    obtain ⟨h0, hdata, hev, hreg, hframe⟩ := State.mboxFill_delivers (s := z) (z := y) (k := k) (d := d) fun _ => rfl
    have hup : z.up 33 = s.up 33 := by rw [hz]; rfl
    refine ⟨_, rfl, RegsAndEvents.mboxHeld hframe, hseq ▸ h0, hdata, fun hu => hev (hup.trans hu),
      fun o h1 h2 h3 => ?_, hframe⟩
    rw [hreg o h1 h2 h3, State.accepted_reg]
  · obtain ⟨hframe, hlatch, hlatchRc, hwords⟩ := latchMbox_foldl b.master.val k.val s 6
    exact ⟨_, congrArg _ (State.busRead_ok hr), hwords, hframe, hlatch, hlatchRc⟩
  · rw [State.mboxResult_of_free d h]
    exact (State.mboxFill_spec s k.val k.isLt d).1

end Sys2Proof.Machine

/-!
The events of chapter 15 (R348 to R352).
-/
namespace Sys2Proof.Machine

open Sys2Proof.Safety

/-! ## A write that reaches its register -/

theorem State.accepted_again (s : State) (off : Nat) (b : BusWrite) : (s.accepted off b).cyc.again = s.cyc.again := by
  obtain ⟨c, hz, hc⟩ := s.accepted_eq off b
  rw [hz, hc]

theorem State.accepted_setsNow (s : State) (off : Nat) (b : BusWrite) (o : Nat) :
    (s.accepted off b).setsNow o = s.setsNow o := by
  obtain ⟨c, hz, hc⟩ := s.accepted_eq off b
  rw [hz, hc]
  rfl

theorem State.accepted_up (s : State) (off : Nat) (b : BusWrite) (i : Nat) : (s.accepted off b).up i = s.up i := by
  rw [s.accepted_frame]
  rfl

theorem RegsAndEvents.of_accepted {s t : State} {off : Nat} {b : BusWrite} (h : RegsAndEvents (s.accepted off b) t) :
    RegsAndEvents { s with host := { s.host with respErr := false } } t := by
  refine RegsAndEvents.trans ?_ h
  rw [s.accepted_frame]
  rfl

theorem Asserts.of_accepted {P : Nat → Prop} {s t : State} {off : Nat} {b : BusWrite}
    (h : Asserts P (s.accepted off b) t) : Asserts P s t :=
  h.of_eq (by rw [s.accepted_frame]) (by rw [s.accepted_frame]) (fun _ => s.accepted_reg ..) (s.accepted_up ..)

/-! ## The events of one group -/

theorem exists_event_of_group (c : Nat → Bool) (g e : Nat) :
    (∃ i, i < 32 ∧ c i = true ∧ e = 32 * g + i) ↔ e / 32 = g ∧ c (e % 32) = true := by
  constructor
  · rintro ⟨i, hi, hc, rfl⟩
    rw [show (32 * g + i) / 32 = g by omega, show (32 * g + i) % 32 = i by omega]
    exact ⟨rfl, hc⟩
  · rintro ⟨rfl, hc⟩
    exact ⟨e % 32, by omega, hc, by omega⟩

/-- The events of group g that `c` picks are asserted by a machine that differs from s in registers no route lies in. -/
theorem Asserts.group {c : Nat → Bool} {g : Nat} {s z : State} {P : Nat → Prop}
    (h1 : z.host.msixPend = s.host.msixPend) (h2 : z.asm.alarms = s.asm.alarms)
    (h3 : ∀ e, z.reg (Reg.evtRoute e) = s.reg (Reg.evtRoute e)) (h4 : z.up 37 = s.up 37)
    (hP : ∀ e, P e ↔ e / 32 = g ∧ c (e % 32) = true) :
    Asserts P s ((List.range 32).foldl (fun q i => if c i then q.assertEvent (32 * g + i) else q) z) :=
  (((Asserts.foldl_assert c (32 * g) z 32).2.2).congr fun e => (hP e).trans (exists_event_of_group c g e).symm).of_eq
    h1 h2 h3 h4

theorem evtRoute_ne_status (e : Nat) {g : Nat} (hg : g < 9) : Reg.evtRoute e ≠ Reg.evtStatus g := by
  unfold Reg.evtRoute Reg.evtStatus
  omega

theorem evtRoute_ne_enable (e : Nat) {g : Nat} (hg : g < 9) : Reg.evtRoute e ≠ Reg.evtEnable g := by
  unfold Reg.evtRoute Reg.evtEnable
  omega

theorem evtEnable_ne_status {g : Nat} (h : Nat) (hg : g < 9) (hh : h < 9) : Reg.evtEnable g ≠ Reg.evtStatus h := by
  unfold Reg.evtEnable Reg.evtStatus
  omega

/-! ## EVT_STATUS and EVT_ENABLE (R348, R349) -/

/-- Bits of a STATUS word that a write of v clears although the event occurred in this cycle and is enabled. -/
def State.evtWon (s : State) (g : Nat) (v : Word) (n : Nat) : Bool :=
  v.getLsbD n && s.cyc.again.contains (32 * g + n) && s.flag (Reg.evtEnable g) n

theorem State.evtWon_iff (s : State) (g e : Nat) (v : Word) (h : e / 32 = g) : s.evtWon g v (e % 32) = true ↔
    v.getLsbD (e % 32) = true ∧ e ∈ s.cyc.again ∧ s.flag (Reg.evtEnable g) (e % 32) = true := by
  subst h
  unfold State.evtWon
  rw [Bool.and_eq_true, Bool.and_eq_true, List.contains_iff_mem, Nat.div_add_mod, and_assoc]

theorem State.evtStatusWrite_spec (s : State) (g : Fin 9) (v : Word) :
    let t := s.evtStatusWrite g.val v
    RegsAndEvents s t
      ∧ (∀ n, n < 32 → t.flag (Reg.evtStatus g.val) n =
          (s.flag (Reg.evtStatus g.val) n && (!v.getLsbD n || (s.setsNow (Reg.evtStatus g.val)).testBit n)))
      ∧ (∀ o, o ≠ Reg.evtStatus g.val → t.reg o = s.reg o)
      ∧ Asserts (fun e => e / 32 = g.val ∧ v.getLsbD (e % 32) = true ∧ e ∈ s.cyc.again
          ∧ s.flag (Reg.evtEnable g.val) (e % 32) = true) s t := by
  let w := s.reg (Reg.evtStatus g.val) &&& (~~~ v ||| word (s.setsNow (Reg.evtStatus g.val)))
  let y := (s.noteWrite (Reg.evtStatus g.val)).setReg (Reg.evtStatus g.val) w
  obtain ⟨z, hz, hzc⟩ : ∃ z : State, s.evtStatusWrite g.val v = (List.range 32).foldl
      (fun q i => if s.evtWon g.val v i then q.assertEvent (32 * g.val + i) else q) z ∧ z = { y with cyc := z.cyc } := by
    have hen : ∀ n, y.flag (Reg.evtEnable g.val) n = s.flag (Reg.evtEnable g.val) n := fun n =>
      congrArg (BitVec.getLsbD · n) (State.reg_setReg_of_ne _ _ (evtEnable_ne_status _ g.isLt g.isLt))
    have hwon : s.evtWon g.val v = fun n => v.getLsbD n && y.cyc.again.contains (32 * g.val + n)
        && y.flag (Reg.evtEnable g.val) n := funext fun n => by
      rw [hen]
      rfl
    unfold State.evtStatusWrite
    rw [s.store_evtStatus g v, hwon]
    dsimp only
    rw [List.foldl_filter]
    exact ⟨_, rfl, rfl⟩
  have hyr : ∀ o, o ≠ Reg.evtStatus g.val → y.reg o = s.reg o := fun o ho => State.reg_setReg_of_ne _ _ ho
  obtain ⟨hregs, hframe, -⟩ := Asserts.foldl_assert (s.evtWon g.val v) (32 * g.val) z 32
  have hzr : ∀ o, z.reg o = y.reg o := fun o => by rw [hzc]; rfl
  dsimp only
  rw [hz]
  have htr : ∀ o, State.reg (List.foldl _ z (List.range 32)) o = y.reg o := fun o =>
    (congrArg (SMap.get regReset · o) hregs).trans (hzr o)
  refine ⟨?_, fun n hn => ?_, fun o ho => (htr o).trans (hyr o ho), ?_⟩
  · refine RegsAndEvents.trans ?_ hframe
    rw [hzc]
    rfl
  · unfold State.flag
    rw [htr, State.reg_setReg_self, BitVec.getLsbD_and, BitVec.getLsbD_or, BitVec.getLsbD_not, word, BitVec.getLsbD_ofNat,
      decide_eq_true hn, Bool.true_and, Bool.true_and]
  · refine Asserts.group (by rw [hzc]; rfl) (by rw [hzc]; rfl) 
      (fun e => (hzr _).trans (hyr _ (evtRoute_ne_status e g.isLt))) (by rw [hzc]; rfl) fun e =>
        and_congr_right fun h => (s.evtWon_iff g.val e v h).symm

theorem State.evtEnableWrite_spec (s : State) (g : Fin 9) (v : Word) :
    let t := s.evtEnableWrite g.val v
    RegsAndEvents s t ∧ t.reg (Reg.evtEnable g.val) = v ∧ (∀ o, o ≠ Reg.evtEnable g.val → t.reg o = s.reg o)
      ∧ Asserts (fun e => e / 32 = g.val ∧ v.getLsbD (e % 32) = true ∧ s.flag (Reg.evtEnable g.val) (e % 32) = false
          ∧ s.flag (Reg.evtStatus g.val) (e % 32) = true) s t := by
  let y := (s.noteWrite (Reg.evtEnable g.val)).setReg (Reg.evtEnable g.val) v
  let c (n : Nat) : Bool := v.getLsbD n && !s.flag (Reg.evtEnable g.val) n && s.flag (Reg.evtStatus g.val) n
  have hwrite : s.evtEnableWrite g.val v = (List.range 32).foldl
      (fun q i => if c i then q.assertEvent (32 * g.val + i) else q) y := by
    unfold State.evtEnableWrite
    rw [s.store_evtEnable g v]
    rfl
  obtain ⟨hregs, hframe, -⟩ := Asserts.foldl_assert c (32 * g.val) y 32
  have htr : ∀ o, State.reg (List.foldl _ y (List.range 32)) o = y.reg o := fun o =>
    congrArg (SMap.get regReset · o) hregs
  dsimp only
  rw [hwrite]
  refine ⟨RegsAndEvents.trans (t := y) rfl hframe, (htr _).trans (State.reg_setReg_self ..),
    fun o ho => (htr o).trans (State.reg_setReg_of_ne _ _ ho), ?_⟩
  refine Asserts.group rfl rfl (fun e => State.reg_setReg_of_ne _ _ (evtRoute_ne_enable e g.isLt)) rfl fun e =>
    and_congr_right fun _ => ?_
  rw [Bool.and_eq_true, Bool.and_eq_true, Bool.not_eq_true', and_assoc]

/-! ## EVT_SOFT_SET (R351) -/

theorem State.softSet_of_other {m : Nat} (s : State) (v : Word) (h0 : m ≠ 0) (h16 : m ≠ 16) : s.softSet m v = s := by
  refine if_neg ?_
  rw [decide_eq_false h0, decide_eq_false h16]
  decide

theorem State.softSet_spec {s : State} {m : Nat} (v : Word) (hu : s.up 33 = true) (hm : m = 0 ∨ m = 16) :
    let t := s.softSet m v
    RegsAndEvents s t ∧ t.reg (Reg.evtStatus 8) = s.reg (Reg.evtStatus 8) ||| v
      ∧ (∀ o, o ≠ Reg.evtStatus 8 → t.reg o = s.reg o)
      ∧ Asserts (fun e => 256 ≤ e ∧ e < 288 ∧ v.getLsbD (e - 256) = true
          ∧ s.flag (Reg.evtStatus (e / 32)) (e % 32) = false ∧ s.flag (Reg.evtEnable (e / 32)) (e % 32) = true) s t := by
  obtain ⟨hframe, hreg, hflag, hasserts⟩ := Asserts.foldl_event v.getLsbD 8 s 32 (by decide) (by decide) hu
  have hset : s.softSet m v = (List.range 32).foldl (fun q i => if v.getLsbD i then q.event (32 * 8 + i) else q) s :=
    if_pos (by simpa using hm)
  dsimp only
  rw [hset]
  refine ⟨hframe, BitVec.eq_of_getLsbD_eq fun i hi => ?_, hreg, hasserts.congr fun e => ⟨?_, ?_⟩⟩
  · rw [BitVec.getLsbD_or]
    refine (hflag i).trans ?_
    rw [decide_eq_true hi, Bool.true_and]
    rfl
  · rintro ⟨h1, h2, hv, hfresh⟩
    rw [show e / 32 = 8 by omega, show e % 32 = e - 256 by omega] at hfresh
    exact ⟨e - 256, by omega, hv, by omega, hfresh⟩
  · rintro ⟨i, hi, hv, rfl, hfresh⟩
    rw [show (32 * 8 + i) / 32 = 8 by omega, show (32 * 8 + i) % 32 = i by omega, show 32 * 8 + i - 256 = i by omega]
    exact ⟨by omega, by omega, hv, hfresh⟩

/-! ## GPIO_EDGE (R352) -/

/-- The levels of a sample: OUT where OE is 1, the pin elsewhere. -/
def State.gpioSample (s : State) (levels : BitVec 16) : BitVec 16 :=
  (levels &&& ~~~ BitVec.ofNat 16 (s.fld Reg.evtGpioOe 15 0))
    ||| (BitVec.ofNat 16 (s.fld Reg.evtGpioOut 15 0) &&& BitVec.ofNat 16 (s.fld Reg.evtGpioOe 15 0))

theorem State.getLsbD_gpioSample (s : State) (levels : BitVec 16) {n : Nat} (hn : n < 16) :
    (s.gpioSample levels).getLsbD n = if s.flag Reg.evtGpioOe n then s.flag Reg.evtGpioOut n else levels.getLsbD n := by
  unfold State.gpioSample
  rw [BitVec.getLsbD_or, BitVec.getLsbD_and, BitVec.getLsbD_and, BitVec.getLsbD_not, BitVec.getLsbD_ofNat,
    BitVec.getLsbD_ofNat, State.testBit_fld, State.testBit_fld, decide_eq_true hn, Nat.zero_add]
  cases s.flag Reg.evtGpioOe n <;> simp

/-- The edges that the pins of a sample make, pin by pin. -/
def State.gpioEdges (s : State) (smp last filt : BitVec 16) : State :=
  (List.range 16).foldl (fun s n =>
    let x := smp.getLsbD n
    if x == last.getLsbD n && x != filt.getLsbD n then
      { s with host := { s.host with gpioFilt := s.host.gpioFilt ^^^ BitVec.ofNat 16 (2 ^ n) } }.event
        (if x then 224 + n else 240 + n)
    else s) s

theorem execGpioEdge_of_live {s : State} (levels : BitVec 16) (h : s.live 33 = true) :
    exec (.gpioEdge levels) s = .next (State.gpioEdges { s with
      host := { s.host with gpioIn := levels, gpioLast := s.gpioSample levels } }
        (s.gpioSample levels) s.host.gpioLast s.host.gpioFilt) :=
  if_neg (by rw [h]; decide)

/-! ## The statement -/

/-- Settles O33, register by register, then the sample of the pins. -/
theorem eventsReachTheirRoutes : Obligations.EventsReachTheirRoutes := by
  refine ⟨fun s g b hb => ?_, fun s g b hb => ?_, fun s b hb hu => ?_, fun s levels hl => ?_⟩
  · have hexec : exec (.evtStatusClear g b) s = .next ((s.accepted (Reg.evtStatus g.val) b).evtStatusWrite g.val b.value) :=
      congrArg _ (State.busWrite_ok hb)
    obtain ⟨hframe, hflag, hreg, hasserts⟩ := State.evtStatusWrite_spec (s.accepted (Reg.evtStatus g.val) b) g b.value
    simp only [State.accepted_flag, State.accepted_reg, State.accepted_again, State.accepted_setsNow] at hflag hreg hasserts
    exact ⟨_, hexec, RegsAndEvents.of_accepted hframe, hflag, hreg, Asserts.of_accepted hasserts⟩
  · have hexec : exec (.evtEnableWrite g b) s = .next ((s.accepted (Reg.evtEnable g.val) b).evtEnableWrite g.val b.value) :=
      congrArg _ (State.busWrite_ok hb)
    obtain ⟨hframe, hval, hreg, hasserts⟩ := State.evtEnableWrite_spec (s.accepted (Reg.evtEnable g.val) b) g b.value
    simp only [State.accepted_flag, State.accepted_reg] at hreg hasserts
    exact ⟨_, hexec, RegsAndEvents.of_accepted hframe, hval, hreg, Asserts.of_accepted hasserts⟩
  · have hexec : exec (.evtSoftSet b) s = .next ((s.accepted Reg.evtSoftSet b).softSet b.master.val b.value) :=
      congrArg _ (State.busWrite_ok hb)
    refine ⟨fun hm => ?_, fun h0 h16 => hexec.trans (congrArg _ (State.softSet_of_other _ _ h0 h16))⟩
    obtain ⟨hframe, hval, hreg, hasserts⟩ :=
      State.softSet_spec (s := s.accepted Reg.evtSoftSet b) b.value ((s.accepted_up ..).trans hu) hm
    simp only [State.accepted_flag, State.accepted_reg] at hval hreg hasserts
    exact ⟨_, hexec, RegsAndEvents.of_accepted hframe, hval, hreg, Asserts.of_accepted hasserts⟩
  · intro sample edge occurs
    have hs (n : Nat) (hn : n < 16) : (s.gpioSample levels).getLsbD n = sample n := s.getLsbD_gpioSample levels hn
    let z : State := { s with host := { s.host with gpioIn := levels, gpioLast := s.gpioSample levels } }
    have hu : z.up 33 = true := by
      unfold State.live at hl
      rw [Bool.and_eq_true, Bool.and_eq_true] at hl
      exact hl.1.1
    obtain ⟨hframe, hfilt, hflag, hreg, hasserts⟩ :=
      gpioEvents_foldl z hu (s.gpioSample levels) s.host.gpioLast s.host.gpioFilt rfl 16 (Nat.le_refl _)
    have hedge (n : Nat) (hn : n < 16) : ((s.gpioSample levels).getLsbD n == s.host.gpioLast.getLsbD n
        && (s.gpioSample levels).getLsbD n != s.host.gpioFilt.getLsbD n) = true ↔ edge n := by
      rw [hs n hn, Bool.and_eq_true, beq_iff_eq, bne_iff_ne]
    have hocc (e : Nat) : (∃ i, i < 16 ∧ ((s.gpioSample levels).getLsbD i == s.host.gpioLast.getLsbD i
        && (s.gpioSample levels).getLsbD i != s.host.gpioFilt.getLsbD i) = true
        ∧ e = if (s.gpioSample levels).getLsbD i then 224 + i else 240 + i) ↔ occurs e :=
      exists_congr fun n => and_congr_right fun hn => and_congr (hedge n hn) (by rw [hs n hn])
    have hexec := execGpioEdge_of_live levels hl
    rw [show State.gpioEdges _ _ _ _ = List.foldl _ z (List.range 16) from rfl] at hexec
    generalize List.foldl _ z (List.range 16) = t at hexec hframe hfilt hflag hreg hasserts
    have hlast : t.host.gpioLast = s.gpioSample levels := congrArg (fun t : State => t.host.gpioLast) hframe
    refine ⟨t, hexec, hlast ▸ hframe, fun n hn => by rw [hlast, hs n hn], fun n hn => ⟨fun h => ?_, fun h => ?_⟩,
      fun e he => (hflag e he).trans (or_congr Iff.rfl (hocc e)), hreg,
      hasserts.congr fun e => and_congr (hocc e).symm Iff.rfl⟩
    · exact (hfilt n hn).trans ((if_pos ⟨hn, (hedge n hn).2 h⟩).trans (hs n hn))
    · exact (hfilt n hn).trans (if_neg fun h' => h ((hedge n hn).1 h'.2))

end Sys2Proof.Machine

/-!
MSI-X messages and the link of chapter 15 (R329, R349).
-/
namespace Sys2Proof.Machine

open Sys2Proof.Safety

/-- Nothing holds the message of a vector back (R349). -/
def State.msixMay (s : State) (v : Nat) (cfg : PciConfig) : Prop :=
  s.host.msixPend.getLsbD v = true ∧ cfg.msixEnable = true ∧ cfg.fnMask = false ∧ cfg.busMaster = true
    ∧ s.flag (Reg.hstMsixTable v 3) 0 = false

theorem State.msixMay_iff (s : State) (v : Nat) (cfg : PciConfig) : s.msixMay v cfg ↔
    (s.host.msixPend.getLsbD v && cfg.msixEnable && !cfg.fnMask && cfg.busMaster
      && !s.flag (Reg.hstMsixTable v 3) 0) = true := by
  simp only [State.msixMay, Bool.and_eq_true, Bool.not_eq_true', and_assoc]

theorem execMsixMessage_of_no_path {s : State} {v : Fin 64} {cfg : PciConfig} (h : s.hostPath = false) :
    exec (.msixMessage v cfg) s = .next s :=
  if_pos (by rw [h]; rfl)

theorem execMsixMessage_of_held {s : State} {v : Fin 64} {cfg : PciConfig} (h : s.hostPath = true)
    (hm : ¬ s.msixMay v.val cfg) :
    exec (.msixMessage v cfg) s = .next { s with host := { s.host with cfg := cfg } } :=
  (if_neg (by rw [h]; decide)).trans (if_neg fun hc => hm ((s.msixMay_iff ..).2 hc))

theorem execMsixMessage_of_may {s : State} {v : Fin 64} {cfg : PciConfig} (h : s.hostPath = true)
    (hm : s.msixMay v.val cfg) :
    exec (.msixMessage v cfg) s = .next { s with host := { s.host with
      cfg := cfg
      msixPend := s.host.msixPend &&& ~~~ BitVec.ofNat 64 (2 ^ v.val)
      lastMsg := some ⟨v.val, s.reg (Reg.hstMsixTable v.val 0), s.reg (Reg.hstMsixTable v.val 1),
        s.reg (Reg.hstMsixTable v.val 2)⟩ } } :=
  (if_neg (by rw [h]; decide)).trans (if_pos ((s.msixMay_iff ..).1 hm))

theorem execPcieLinkTraining_of_reset {s : State} {up : Bool} {w g : BitVec 4} (h : s.up 37 = false) :
    exec (.pcieLinkTraining up w g) s = .next s :=
  if_pos (by rw [h]; rfl)

theorem execPcieLinkTraining_of_down {s : State} {w g : BitVec 4} (h : s.up 37 = true) :
    exec (.pcieLinkTraining false w g) s = .next (s.setReg Reg.hstLink 0) :=
  (if_neg (by rw [h]; decide)).trans (if_pos rfl)

theorem execPcieLinkTraining_of_trained {s : State} {w g : BitVec 4} (h : s.up 37 = true) (hw : w = 1 ∨ w = 2 ∨ w = 4)
    (h1 : 1 ≤ g.toNat) (h5 : g.toNat ≤ 5) :
    exec (.pcieLinkTraining true w g) s = .next (s.setReg Reg.hstLink (word (2 ^ 31 + w.toNat * 16 + g.toNat))) := by
  refine (if_neg (by rw [h]; decide)).trans ((if_neg (by decide)).trans (if_pos ?_))
  rw [decide_eq_true h1, decide_eq_true h5]
  rcases hw with rfl | rfl | rfl <;> rfl

/-- Settles O34, condition by condition. -/
theorem messagesAndTheLink : Obligations.MessagesAndTheLink := by
  refine ⟨fun s v cfg => ⟨execMsixMessage_of_no_path, execMsixMessage_of_held, execMsixMessage_of_may⟩,
    fun s up w g => ⟨execPcieLinkTraining_of_reset, fun h hd => ?_, fun h hu hw h1 h5 => ?_⟩⟩
  · rw [hd, execPcieLinkTraining_of_down h]
  · rw [hu, execPcieLinkTraining_of_trained h hw h1 h5, Nat.mul_comm]

end Sys2Proof.Machine

/-!
Roll Call of chapter 15 (R344, R345, R347).
-/
namespace Sys2Proof.Machine

open Sys2Proof.Safety

/-! ## Triggers (R344, R345) -/

theorem State.mboxStalled_iff (s : State) (k : Nat) : s.mboxStalled k = true ↔ ∃ d, (k, d) ∈ s.host.mboxHeld := by
  unfold State.mboxStalled
  rw [List.any_eq_true]
  constructor
  · rintro ⟨⟨j, d⟩, hm, hj⟩
    exact ⟨d, beq_iff_eq.1 hj ▸ hm⟩
  · rintro ⟨d, hm⟩
    exact ⟨_, hm, beq_self_eq_true k⟩

theorem State.rcBlocked_iff (s : State) : s.rcBlocked = true ↔
    s.host.rcQueue = [] ∨ s.host.rcBusy ≠ none ∨ s.flag (Reg.hstMbox0w 3) 31 = true
      ∨ ∃ d, (3, d) ∈ s.host.mboxHeld := by
  unfold State.rcBlocked
  rw [Bool.or_eq_true, Bool.or_eq_true, Bool.or_eq_true, s.mboxStalled_iff, List.isEmpty_iff, Option.isSome_iff_ne_none,
    or_assoc, or_assoc]

theorem State.rcTrigger_of_blocked {s : State} (h : s.rcBlocked = true) : s.rcTrigger = s.bump (Reg.rcCnt 1) :=
  if_pos h

/-- A trigger with a buffer that is too short (R345). -/
theorem State.rcTrigger_of_short {s : State} {x : Nat} {xs : List Nat} (h : ¬ s.rcBlocked = true)
    (hq : s.host.rcQueue = x :: xs) (hx : s.bufLen x < 128 + 4 * s.rcN) :
    s.rcTrigger = ((State.returnBuffer { s with host := { s.host with rcQueue := xs } } 24 x 3).bump (Reg.rcCnt 1)).rcResult
      3 s.host.rcSnap x s.seq.frame s.rcN 0 := by
  unfold State.rcTrigger
  rw [if_neg h, hq]
  exact if_pos hx

/-- A trigger that begins a snapshot (R345). -/
theorem State.rcTrigger_of_room {s : State} {x : Nat} {xs : List Nat} (h : ¬ s.rcBlocked = true)
    (hq : s.host.rcQueue = x :: xs) (hx : 128 + 4 * s.rcN ≤ s.bufLen x) :
    s.rcTrigger = ({ s.bump (Reg.rcCnt 0) with host := { s.host with
      rcQueue := xs
      rcSnap := (s.host.rcSnap + 1) % 2 ^ 32
      rcBusy := some ⟨x, s.now, [], s.rcN, 0, s.host.rcSnap, s.seq.frame, s.wallNs⟩ } } : State).rcTick := by
  unfold State.rcTrigger
  rw [if_neg h, hq]
  exact if_neg (Nat.not_lt.2 hx)

/-! ## ROLL_CALL_TRIGGER (R344) -/

/-- The flip in force shows a frame that PERIOD divides, for the first time. -/
def State.rcFlips (s : State) : Prop :=
  s.seq.flipAt ≠ none ∧ s.seq.frame % s.rcPeriod = 0 ∧ s.host.rcFrame ≠ some s.seq.frame

theorem State.rcFlips_iff (s : State) : s.rcFlips ↔
    (s.seq.flipAt.isSome && s.seq.frame % s.rcPeriod = 0 && s.host.rcFrame != some s.seq.frame) = true := by
  unfold State.rcFlips
  rw [Bool.and_eq_true, Bool.and_eq_true, Option.isSome_iff_ne_none, decide_eq_true_eq, bne_iff_ne, and_assoc]

theorem execRollCallTrigger_of_on {s : State} (hl : s.live 32 = true) (hen : s.flag Reg.rcCtrl 0 = true) :
    exec .rollCallTrigger s =
      if s.flag Reg.rcCtrl 1 then
        if s.seq.flipAt.isSome && s.seq.frame % s.rcPeriod = 0 && s.host.rcFrame != some s.seq.frame then
          .next (State.rcTrigger { s with host := { s.host with rcFrame := some s.seq.frame } })
        else .next s
      else if s.host.rcBase + s.rcPeriod * 1000000 ≤ s.wallNs then
        .next (State.rcTrigger { s with host := { s.host with rcBase := s.host.rcBase + s.rcPeriod * 1000000 } })
      else .next s :=
  if_neg (by rw [hl, hen]; decide)

/-! ## RC_CTRL (R344) -/

/-- A write of RC_CTRL: the rhythm without the periods past where TRIG falls, and from now on where EN rises. -/
theorem State.rcCtrlWrite_eq (s : State) (v : Word) :
    s.rcCtrlWrite v =
      let ms := s.rcPeriod * 1000000
      let s₁ := s.store Reg.rcCtrl v
      let s₂ : State := if s.flag Reg.rcCtrl 1 = true ∧ v.getLsbD 1 = false ∧ s.host.rcBase ≤ s.wallNs then
        { s₁ with host := { s₁.host with rcBase := s.host.rcBase + (s.wallNs - s.host.rcBase) / ms * ms } } else s₁
      let s₃ : State := if v.getLsbD 0 = true ∧ s.flag Reg.rcCtrl 0 = false then
        { s₂ with host := { s₂.host with rcBase := s.wallNs, rcFrame := some s.seq.frame } } else s₂
      if v.getLsbD 31 = true then s₃.rcTrigger else s₃ := by
  have hs₁ := s.store_eq Reg.rcCtrl v (by decide)
  have hper : (s.store Reg.rcCtrl v).rcPeriod = s.rcPeriod := by
    unfold State.rcPeriod State.fld
    rw [s.reg_store_of_ne v (by decide) (by decide)]
  obtain ⟨hbase, hwall, hframe⟩ : (s.store Reg.rcCtrl v).host.rcBase = s.host.rcBase
      ∧ (s.store Reg.rcCtrl v).wallNs = s.wallNs ∧ (s.store Reg.rcCtrl v).seq.frame = s.seq.frame := by
    rw [hs₁]
    exact ⟨rfl, rfl, rfl⟩
  have hhost : ∀ (z : State) (h : HostIf), State.wallNs { z with host := h } = z.wallNs := fun _ _ => rfl
  unfold State.rcCtrlWrite
  simp only [hper, hbase, hwall, Bool.and_eq_true, Bool.not_eq_true', decide_eq_true_eq, and_assoc]
  rw [← hwall, ← hframe]
  generalize s.rcPeriod * 1000000 = ms
  by_cases hp : s.flag Reg.rcCtrl 1 = true ∧ v.getLsbD 1 = false ∧ s.host.rcBase ≤ (s.store Reg.rcCtrl v).wallNs
  · simp only [if_pos hp, hhost]
  · simp only [if_neg hp]

/-! ## SNAPSHOT_DONE (R345, R347) -/

/-- The three writes of a snapshot, in order, up to the first that fails. -/
theorem State.rcWrites_eq (s : State) (x : Nat) (content : List Byte) :
    s.rcWrites x content =
      let w₁ := s.devWrite 24 (winAddr (x + 64)) content true
      let w₂ := w₁.1.devWrite 24 (winAddr (x + 8)) (leBytes 4 content.length)
      let w₃ := w₂.1.devWrite 24 (winAddr (x + 12)) (leBytes 4 (crc32 content))
      if w₁.2 = false then w₁ else if w₂.2 = false then w₂ else w₃ := by
  unfold State.rcWrites
  simp only [Bool.not_eq_true']

theorem execSnapshotDone_of_read {s : State} {x : Snapshot} (hx : s.host.rcBusy = some x) (hl : s.live 32 = true)
    (hn : x.n ≤ x.values.length) (hm : s.memReady 24 (winAddr x.buf) (s.bufLen x.buf) = true) :
    let p := s.fld Reg.rcCtrl 3 3
    let r := State.rcWrites { s with host := { s.host with rcBusy := none } } x.buf (x.content s.rcType)
    let w := leNat (r.1.bytesAt (winAddr x.buf) 4)
    let o := r.1.devWrite 24 (winAddr x.buf) (leBytes 4 (w - w % 4 + 2))
    exec .snapshotDone s = .next (if r.2 = false then r.1.rcReturn x 6
      else if r.1.flag Reg.rcCtrl 2 = false then r.1.rcReturn x 0
      else if r.1.live p = false then r.1.rcReturn x 6
      else if 16 ≤ (r.1.port p).upq.length + r.1.posting (.asmUpq (p == 1)) then r.1.rcReturn x 3
      else if o.2 = false then o.1.rcReturn x 6
      else ((o.1.dropExtent x.buf).post (.asmUpq (p == 1)) x.buf).rcResult 0 x.snap x.buf x.frame x.n x.errs) := by
  show execSnapshotDone s = _
  unfold execSnapshotDone
  rw [hx]
  dsimp only
  rw [hl, hm, decide_eq_false (Nat.not_lt.2 hn), if_neg (by decide)]
  simp only [Bool.not_eq_true', next_ite]

/-! ## The statement -/

/-- Settles O35: a trigger by what holds it back and the oldest buffer, the write of RC_CTRL, the end of a snapshot by its
writes and its destination. -/
theorem rollCallSnapshots : Obligations.RollCallSnapshots := by
  unfold Obligations.RollCallSnapshots
  intro period trigger
  have htrig (s : State) : trigger s s.rcTrigger := by
    refine ⟨fun h => State.rcTrigger_of_blocked (s.rcBlocked_iff.2 h), fun x xs hw hq => ?_⟩
    have hb : ¬ s.rcBlocked = true := fun h => hw (s.rcBlocked_iff.1 h)
    exact ⟨State.rcTrigger_of_short hb hq, State.rcTrigger_of_room hb hq⟩
  refine ⟨fun s hl hen => ?_, fun s b hb => ?_, fun s x hx hl hn hm => ?_⟩
  · intro due flips
    have hexec := execRollCallTrigger_of_on hl hen
    refine ⟨fun ht hd => ⟨_, hexec.trans ((if_neg (ne_true_of_eq_false ht)).trans (if_pos hd)), htrig _⟩,
      fun ht hd => hexec.trans ((if_neg (ne_true_of_eq_false ht)).trans (if_neg (Nat.not_le.2 hd))),
      fun ht hf => ⟨_, hexec.trans ((if_pos ht).trans (if_pos (s.rcFlips_iff.1 hf))), htrig _⟩,
      fun ht hf => hexec.trans ((if_pos ht).trans (if_neg fun h => hf (s.rcFlips_iff.2 h)))⟩
  · intro ms s₁ s₂ s₃
    obtain ⟨hbase, hwall, hframe⟩ : (s.accepted Reg.rcCtrl b).host.rcBase = s.host.rcBase
        ∧ (s.accepted Reg.rcCtrl b).wallNs = s.wallNs ∧ (s.accepted Reg.rcCtrl b).seq.frame = s.seq.frame := by
      rw [s.accepted_frame]
      exact ⟨rfl, rfl, rfl⟩
    have hper : (s.accepted Reg.rcCtrl b).rcPeriod = period s := by
      unfold State.rcPeriod
      rw [State.accepted_fld]
    have hexec : exec (.rcNow b) s = .next (if b.value.getLsbD 31 = true then s₃.rcTrigger else s₃) := by
      refine congrArg _ ((State.busWrite_ok hb).trans ((State.rcCtrlWrite_eq _ _).trans ?_))
      simp only [State.accepted_flag, hbase, hwall, hframe, hper]
      rfl
    exact ⟨fun h => ⟨_, hexec.trans (congrArg _ (if_pos h)), htrig _⟩,
      fun h => hexec.trans (congrArg _ (if_neg (ne_true_of_eq_false h)))⟩
  · intro port content w₁ w₂ w₃ r dest full back word0 own
    have hr : State.rcWrites { s with host := { s.host with rcBusy := none } } x.buf (x.content s.rcType) = r :=
      State.rcWrites_eq ..
    have hexec := execSnapshotDone_of_read hx hl hn hm
    rw [hr] at hexec
    refine ⟨fun h => hexec.trans (congrArg _ (if_pos h)), fun h hd => hexec.trans (congrArg _ ?_),
      fun h hd hp => hexec.trans (congrArg _ ?_), fun h hd hp hf => hexec.trans (congrArg _ ?_),
      fun h hd hp hf ho => hexec.trans (congrArg _ ?_), fun h hd hp hf ho => hexec.trans (congrArg _ ?_)⟩
    · rw [if_neg (ne_false_of_eq_true h), if_pos hd]
      rfl
    · rw [if_neg (ne_false_of_eq_true h), if_neg (ne_false_of_eq_true hd), if_pos hp]
      rfl
    · rw [if_neg (ne_false_of_eq_true h), if_neg (ne_false_of_eq_true hd), if_neg (ne_false_of_eq_true hp), if_pos hf]
      rfl
    · rw [if_neg (ne_false_of_eq_true h), if_neg (ne_false_of_eq_true hd), if_neg (ne_false_of_eq_true hp), if_neg hf,
        if_pos ho]
      rfl
    · rw [if_neg (ne_false_of_eq_true h), if_neg (ne_false_of_eq_true hd), if_neg (ne_false_of_eq_true hp), if_neg hf,
        if_neg (ne_false_of_eq_true ho)]

end Sys2Proof.Machine

/-!
Refused register accesses (15 R332 to R334; 14 R327; 18 R389, R394; 09 R226).
-/
namespace Sys2Proof.Machine

open Sys2Proof.Safety

/-! ## The way of a write to its block (R333; 18 R389) -/

theorem State.regWrite_eq {o : Nat} (s : State) (b : BusWrite) (ha : o % 4 = 0) (hb : noBlock o = false) :
    s.regWrite o b = s.busWrite o b fun s v => s.regEffect b.master.val o v :=
  (if_neg (not_not.2 ha)).trans (if_neg (by rw [hb]; decide))

theorem State.busWrite_of_no_path {s : State} {o : Nat} {b : BusWrite} {eff : State → Word → State} (hm : b.master.val = 16)
    (hp : s.hostPath = false) : s.busWrite o b eff = s :=
  if_pos ⟨hm, ne_true_of_eq_false hp⟩

theorem State.busWrite_of_held {s : State} {o : Nat} {b : BusWrite} {eff : State → Word → State} (hm : b.master.val = 16)
    (hp : s.hostPath = true) (hh : s.hostHeld = true) :
    s.busWrite o b eff = { s with host := { s.host with fifo := s.host.fifo ++ [.reg o b.value b.be] } } :=
  (if_neg fun h => h.2 hp).trans (if_pos ⟨hm, hh⟩)

theorem State.busWrite_of_path {s : State} {o : Nat} {b : BusWrite} {eff : State → Word → State}
    (h : b.master.val = 16 → s.hostPath = true ∧ s.hostHeld = false) : s.busWrite o b eff = s.busReach o b eff :=
  (if_neg fun hn => hn.2 (h hn.1).1).trans (if_neg fun hn => Bool.false_ne_true ((h hn.1).2.symm.trans hn.2))

theorem State.busReach_of_resuming {s : State} {o : Nat} {b : BusWrite} {eff : State → Word → State}
    (h : s.resuming (blockOf o) = true) : s.busReach o b eff = s.holdAccess ⟨b.master, o, some b.value, b.be⟩ :=
  if_pos h

theorem State.busReach_of_running {s : State} {o : Nat} {b : BusWrite} {eff : State → Word → State}
    (h : s.resuming (blockOf o) = false) : s.busReach o b eff = s.busApply o b eff :=
  if_neg (ne_true_of_eq_false h)

/-! ## What the wrapper does with a write it refuses (R332, R334) -/

section
variable {s : State} {o : Nat} {b : BusWrite} {eff : State → Word → State}

theorem State.busApply_of_part (hm : b.master.val = 16) (hb : b.be ≠ 15) : s.busApply o b eff = s.badAccess o true 1 :=
  if_pos ⟨hm, hb⟩

theorem State.busApply_of_no_answer (hb : b.master.val = 16 → b.be = 15) (ha : s.answers o = false) :
    s.busApply o b eff = s.busError b.master.val o true :=
  (if_neg fun h => h.2 (hb h.1)).trans (if_pos (ne_true_of_eq_false ha))

theorem State.busApply_of_refused (hb : b.master.val = 16 → b.be = 15) (ha : s.answers o = true)
    (hp : s.permits (proctorTarget o).1 b.master.val (proctorTarget o).2 4 true = false) :
    s.busApply o b eff =
      (s.violation (proctorTarget o).1 b.master.val (proctorTarget o).2 true).busError b.master.val o true :=
  (if_neg fun h => h.2 (hb h.1)).trans ((if_neg (not_not.2 ha)).trans (if_pos (ne_true_of_eq_false hp)))

theorem State.busApply_of_chart (hb : b.master.val = 16 → b.be = 15) (ha : s.answers o = true)
    (hp : s.permits (proctorTarget o).1 b.master.val (proctorTarget o).2 4 true = true) (hc : chartWindow o = true) :
    s.busApply o b eff = s.busError b.master.val o true :=
  (if_neg fun h => h.2 (hb h.1)).trans ((if_neg (not_not.2 ha)).trans ((if_neg (not_not.2 hp)).trans (if_pos hc)))

end

/-- The word HST_BADACC holds after a write refused for a reason. -/
def State.badAccWord (s : State) (o reason : Nat) : Word :=
  if s.flag Reg.hstBadacc 31 then s.reg Reg.hstBadacc else word (2 ^ 31 + 2 ^ 30 + reason * 2 ^ 28 + o / 4 % 2 ^ 24 * 4)

theorem State.badAccess_spec {s : State} (o reason : Nat) (hc : Calm s Reg.hstBadacc) :
    let t := s.badAccess o true reason
    RegsAndEvents s t ∧ t.reg Reg.hstBadacc = s.badAccWord o reason ∧ (s.up 33 = true → t.flag (Reg.evtStatus 1) 2 = true)
      ∧ ∀ x, x ≠ Reg.hstBadacc → x ≠ Reg.evtStatus 1 → t.reg x = s.reg x := by
  have hcalm : Calm (s.event 34) Reg.hstBadacc := hc.event 34 (by decide)
  have hreg : (s.event 34).reg Reg.hstBadacc = s.reg Reg.hstBadacc := State.reg_event _ _ _ (by decide)
  have hother (x : Nat) (hx : x ≠ Reg.hstBadacc) : (s.badAccess o true reason).reg x = (s.event 34).reg x :=
    State.reg_latchFirst_of_ne _ _ _ _ _ _ (fun p hp => by rwa [List.mem_singleton.1 hp]) (fun e he => nomatch he)
  refine ⟨(RegsAndEvents.event ..).trans (RegsAndEvents.latchFirst ..), ?_, fun hu => ?_, fun x h1 h2 => ?_⟩
  · refine (latched_post_word _ _ _ _ hcalm).trans ?_
    unfold State.flag State.badAccWord
    rw [hreg]
    rfl
  · exact (congrArg (BitVec.getLsbD · 2) (hother _ (by decide))).trans (State.status_event s 34 hu)
  · rw [hother x h1, State.reg_event _ _ _ h2]

theorem State.busError_spec {s : State} (m o : Nat) (hc : m = 16 → Calm s Reg.hstBadacc) :
    let t := s.busError m o true
    RegsAndEvents { s with host := { s.host with resp := 0, respErr := true } } t
      ∧ (m = 16 → t.reg Reg.hstBadacc = s.badAccWord o 2)
      ∧ ∀ x, x ≠ Reg.hstBadacc → x ≠ Reg.evtStatus 1 → t.reg x = s.reg x := by
  let y : State := { s with host := { s.host with resp := 0, respErr := true } }
  by_cases hm : m = 16
  case pos =>
    obtain ⟨hframe, hword, -, hreg⟩ := State.badAccess_spec (s := y) o 2 (hc hm)
    have ht : s.busError m o true = y.badAccess o true 2 := if_pos hm
    rw [ht]
    exact ⟨hframe, fun _ => hword, hreg⟩
  case neg =>
    have ht : s.busError m o true = y := if_neg hm
    rw [ht]
    exact ⟨RegsAndEvents.refl _, fun h => absurd h hm, fun _ _ _ => rfl⟩

/-- A refusal of a Proctor that ends in an error response. -/
theorem State.refusal_spec {s : State} (tgt m o po : Nat) (htgt : tgt < 26) (hm : m < 32) (hv : Calm s (Reg.prcViol tgt))
    (hc : m = 16 → Calm s Reg.hstBadacc) :
    let t := (s.violation tgt m po true).busError m o true
    RegsAndEvents { s with host := { s.host with resp := 0, respErr := true } } t
      ∧ (m = 16 → t.reg Reg.hstBadacc = s.badAccWord o 2)
      ∧ t.reg (Reg.prcViolCnt tgt) = word (min 0xFFFFFFFF ((s.reg (Reg.prcViolCnt tgt)).toNat + 1))
      ∧ (s.up 33 = true → t.flag (Reg.evtStatus 6) 6 = true)
      ∧ t.reg (Reg.prcViol tgt) = (if s.flag (Reg.prcViol tgt) 31 then s.reg (Reg.prcViol tgt)
          else word (2 ^ 31 + 2 ^ 30 + m * 2 ^ 16))
      ∧ t.reg (Reg.prcViolAddrLo tgt) = (if s.flag (Reg.prcViol tgt) 31 then s.reg (Reg.prcViolAddrLo tgt) else word po)
      ∧ ∀ x, x ≠ Reg.hstBadacc → x ≠ Reg.prcViol tgt → x ≠ Reg.prcViolAddrLo tgt → x ≠ Reg.prcViolAddrHi tgt →
          x ≠ Reg.prcViolCnt tgt → x ≠ Reg.evtStatus 1 → x ≠ Reg.evtStatus 6 → t.reg x = s.reg x := by
  obtain ⟨hcnt, hev, hviol, hlo, -, hreg, hcalm⟩ := State.violation_spec s tgt m po hm hv
  have hframe := RegsAndEvents.violation s tgt m po true
  have hne : Reg.hstBadacc ≠ Reg.prcViol tgt ∧ Reg.hstBadacc ≠ Reg.prcViolAddrLo tgt
      ∧ Reg.hstBadacc ≠ Reg.prcViolAddrHi tgt ∧ Reg.hstBadacc ≠ Reg.prcViolCnt tgt := by
    unfold Reg.hstBadacc Reg.prcViol Reg.prcViolAddrLo Reg.prcViolAddrHi Reg.prcViolCnt
    omega
  have hev1 : Reg.prcViol tgt ≠ Reg.evtStatus 1 ∧ Reg.prcViolAddrLo tgt ≠ Reg.evtStatus 1
      ∧ Reg.prcViolCnt tgt ≠ Reg.evtStatus 1 := by
    unfold Reg.evtStatus Reg.prcViol Reg.prcViolAddrLo Reg.prcViolCnt
    omega
  obtain ⟨hb1, hb2, hb3, hb4⟩ := hne
  obtain ⟨he1, he2, he4⟩ := hev1
  have hbad : (s.violation tgt m po true).reg Reg.hstBadacc = s.reg Reg.hstBadacc := hreg _ hb1 hb2 hb3 hb4 (by decide)
  obtain ⟨hframe', hword, hreg'⟩ := State.busError_spec (s := s.violation tgt m po true) m o
    fun h => hcalm _ hb1 (by decide) (hc h)
  refine ⟨?_, fun h => ?_, (hreg' _ hb4.symm he4).trans hcnt, fun hu => ?_, (hreg' _ hb1.symm he1).trans hviol,
    (hreg' _ hb2.symm he2).trans hlo, fun x h1 h2 h3 h4 h5 h6 h7 => (hreg' x h1 h6).trans (hreg x h2 h3 h4 h5 h7)⟩
  · refine RegsAndEvents.trans ?_ hframe'
    unfold RegsAndEvents at hframe ⊢
    rw [hframe]
  · refine (hword h).trans ?_
    unfold State.badAccWord State.flag
    rw [hbad]
  · exact (congrArg (BitVec.getLsbD · 6) (hreg' _ (by decide) (by decide))).trans (hev hu)

theorem State.busRead_of_no_answer {s : State} {o : Nat} {r : BusRead} {eff : State → State × Word} (hm : r.master.val ≠ 16)
    (hmore : r.more = []) (hres : s.resuming (blockOf o) = false) (ha : s.answers o = false) :
    s.busRead o r eff = { s with host := { s.host with resp := 0, respErr := true } } := by
  unfold State.busRead
  dsimp only
  rw [if_neg fun h => hm h.1, hres, hmore]
  exact (if_pos (ne_true_of_eq_false ha)).trans (if_neg hm)

/-- Settles O7, by what stops the write on its way; then the read of ASM_WALL_LO. -/
theorem refusedAccessesChangeNothing : Obligations.RefusedAccessesChangeNothing := by
  intro s off b ha hnb o m tgt quiet badacc onPath pathOk refused
  have hexec : exec (.registerWrite off ⟨b, []⟩) s = .next (s.busWrite o b fun s v => s.regEffect b.master.val o v) :=
    congrArg _ (s.regWrite_eq b ha hnb)
  have happly (h : onPath) : exec (.registerWrite off ⟨b, []⟩) s =
      .next (s.busApply o b fun s v => s.regEffect b.master.val o v) :=
    hexec.trans (congrArg _ ((State.busWrite_of_path h.1).trans (State.busReach_of_running h.2)))
  -- an error response that no violation comes with
  have herr (h : pathOk) (he : s.busApply o b (fun s v => s.regEffect b.master.val o v) = s.busError m o true) :
      ∃ t, refused t ∧ ∀ x, x ≠ Reg.hstBadacc → x ≠ Reg.evtStatus 1 → t.reg x = s.reg x := by
    obtain ⟨hframe, hword, hreg⟩ := State.busError_spec (s := s) m o fun h16 => (h.2 h16).2
    have hresp := congrArg (fun t : State => (t.host.resp, t.host.respErr)) hframe
    obtain ⟨h0, h1⟩ := Prod.mk.inj hresp
    refine ⟨_, ⟨(happly h.1).trans (congrArg _ he), ⟨?_, fun x h1 _ _ _ _ h2 _ => hreg x h1 h2⟩, h1, h0, hword⟩, hreg⟩
    rw [h0, h1]
    exact hframe
  refine ⟨fun h16 hp => hexec.trans (congrArg _ (State.busWrite_of_no_path h16 hp)),
    fun h16 hp hh => hexec.trans (congrArg _ (State.busWrite_of_held h16 hp hh)),
    fun hp hr => hexec.trans (congrArg _ ((State.busWrite_of_path hp).trans (State.busReach_of_resuming hr))),
    fun hp h16 hbe hc => ?_, fun hp hans => herr hp (State.busApply_of_no_answer (fun h => (hp.2 h).1) hans),
    fun hp hans hper hv => ?_, fun hp hans hper hcw => herr hp (State.busApply_of_chart (fun h => (hp.2 h).1) hans hper hcw),
    fun r hm hmore hans hres => ?_⟩
  · obtain ⟨hframe, hword, hev, hreg⟩ := State.badAccess_spec (s := s) o 1 hc
    have hhost := congrArg (fun t : State => (t.host.resp, t.host.respErr)) hframe
    obtain ⟨h0, h1⟩ := Prod.mk.inj hhost
    refine ⟨_, (happly hp).trans (congrArg _ (State.busApply_of_part h16 hbe)),
      ⟨?_, fun x h1 _ _ _ _ h2 _ => hreg x h1 h2⟩, hword, h0, hev⟩
    rw [h0, h1]
    exact hframe
  · obtain ⟨hframe, hword, hcnt, hev, hviol, hlo, hreg⟩ := State.refusal_spec (s := s) tgt m o (proctorTarget o).2
      (proctorTarget_lt o) b.master.isLt hv fun h => (hp.2 h).2
    have hresp := congrArg (fun t : State => (t.host.resp, t.host.respErr)) hframe
    obtain ⟨h0, h1⟩ := Prod.mk.inj hresp
    refine ⟨_, ⟨(happly hp.1).trans (congrArg _ (State.busApply_of_refused (fun h => (hp.2 h).1) hans hper)), ⟨?_, hreg⟩,
      h1, h0, hword⟩, hcnt, hev, hviol, hlo⟩
    rw [h0, h1]
    exact hframe
  · exact congrArg _ (State.busRead_of_no_answer hm hmore hres hans)

end Sys2Proof.Machine

/-!
What resets erase (18 R391, R392, R398, Tables RST-1 and RST-2).
-/
namespace Sys2Proof.Machine

open Sys2Proof.Safety

/-! ## An ordered assertion (R393) -/

/-- What erasing item i makes true, no later item undoes and HELD does not speak of, holds after an assertion over i. -/
theorem State.assertReset_meets {P : State → Prop} {m : BitVec 40} {i : Nat} (hm : m.getLsbD i = true) (keep : Bool)
    (herase : ∀ z : State, P (z.eraseItem i keep)) (hlater : ∀ (z : State) (j : Nat), i < j → P z → P (z.eraseItem j keep))
    (hheld : ∀ (z : State) (h : BitVec 40), P z → P { z with rst := { z.rst with held := h } })
    (s : State) (security : Bool) :
    P (s.assertReset m security keep) := by
  obtain ⟨z, hz⟩ := s.assertReset_form m security keep
  rw [hz]
  exact hheld _ _ (eraseItems_meets hm keep herase hlater z)

/-- The same of a part of the state that an item's erasing sets to a value and every other item leaves alone. -/
theorem State.assertReset_part {α : Type} {f : State → α} {v : α} {m : BitVec 40} {i : Nat} (hm : m.getLsbD i = true)
    (keep : Bool)
    (herase : ∀ (z : State) (j : Nat), i ≤ j → f (z.eraseItem j keep) = if j = i then v else f (z.eraseRegs (itemReg j)))
    (hregs : ∀ (z : State) (p : Nat → Bool), f (z.eraseRegs p) = f z)
    (hheld : ∀ (z : State) (h : BitVec 40), f { z with rst := { z.rst with held := h } } = f z)
    (s : State) (security : Bool) : f (s.assertReset m security keep) = v := by
  refine State.assertReset_meets (P := fun t => f t = v) hm keep (fun z => (herase z i (Nat.le_refl _)).trans (if_pos rfl))
    (fun z j hj h => ?_) (fun z h hz => (hheld z h).trans hz) s security
  rw [herase z j (Nat.le_of_lt hj), if_neg (Nat.ne_of_gt hj), hregs, h]

theorem State.up_assertReset {m : BitVec 40} {i : Nat} (hm : m.getLsbD i = true) (s : State) (security keep : Bool) :
    (s.assertReset m security keep).up i = false := by
  obtain ⟨z, hz⟩ := s.assertReset_form m security keep
  rw [hz]
  unfold State.up
  dsimp only
  rw [BitVec.getLsbD_or, hm, Bool.or_true, Bool.not_true]

theorem State.reg_assertReset {m : BitVec 40} {i off : Nat} (hm : m.getLsbD i = true) (hi : itemReg i off = true) (s : State)
    (security keep : Bool) : (s.assertReset m security keep).reg off = regReset off :=
  (State.assertReset_meets (P := RegErased off) hm keep (RegErased.of_eraseItem off i keep hi)
    (fun z j hj => RegErased.eraseItem off i j hj hi keep z) (fun _ _ h => h) s security).1

theorem State.now_assertReset (s : State) (m : BitVec 40) (security keep : Bool) :
    (s.assertReset m security keep).now = s.now :=
  (s.assertReset_keeps m security keep).now

/-- The memory controller but its contents (14 R305; 18 R399). -/
theorem State.dmc_assertReset {m : BitVec 40} (hm : m.getLsbD 26 = true) (s : State) (security keep : Bool) :
    let t := s.assertReset m security keep
    t.dmc = { dram := t.dmc.dram, poison := t.dmc.poison, soft := t.dmc.soft, selfRefresh := t.dmc.selfRefresh } := by
  refine State.assertReset_meets (P := fun t => t.dmc = { dram := t.dmc.dram, poison := t.dmc.poison, soft := t.dmc.soft
                                                          selfRefresh := t.dmc.selfRefresh })
    hm keep (fun z => ?_) (fun z j hj h => ?_) (fun _ _ h => h) s security
  · rfl
  · have hdmc := (State.eraseItem_eraseKeeps z j keep).dmc
    rw [if_neg (Nat.ne_of_gt hj)] at hdmc
    rw [hdmc]
    exact h

/-- The sequencer, its frame counter apart where the source keeps it (Table RST-2). -/
theorem State.seq_assertReset {m : BitVec 40} (hm : m.getLsbD 18 = true) (s : State) (security keep : Bool) :
    let t := s.assertReset m security keep
    t.seq = if keep = true then { frame := t.seq.frame, flipWall := t.seq.flipWall, slotAt := s.now }
      else { slotAt := s.now } := by
  dsimp only
  rw [← s.now_assertReset m security keep]
  refine State.assertReset_meets (P := fun t => t.seq = if keep = true then
      { frame := t.seq.frame, flipWall := t.seq.flipWall, slotAt := t.now } else { slotAt := t.now })
    hm keep (fun z => ?_) (fun z j hj h => ?_) (fun _ _ h => h) s security
  · cases keep <;> rfl
  · have hkeeps := State.eraseItem_eraseKeeps z j keep
    rw [hkeeps.seq.resolve_left (Nat.ne_of_gt hj), hkeeps.now]
    exact h

theorem State.mboxHeld_assertReset {m : BitVec 40} (hm : m.getLsbD 38 = true) (s : State) (security keep : Bool) :
    (s.assertReset m security keep).host.mboxHeld = [] :=
  State.assertReset_meets (P := fun t => t.host.mboxHeld = []) hm keep
    (fun z => (State.eraseItem_eraseKeeps z 38 keep).mbox (.inl rfl))
    (fun z j _ h => (State.eraseItem_eraseKeeps z j keep).mbox (.inr h)) (fun _ _ h => h) s security

theorem State.config_assertReset {m : BitVec 40} (hm : m.getLsbD 37 = true) (s : State) (security keep : Bool) :
    (s.assertReset m security keep).host.cfg = {} ∧ (s.assertReset m security keep).host.msixPend = 0 :=
  ⟨State.assertReset_part (f := fun t => t.host.cfg) hm keep (fun z j _ => (State.eraseItem_eraseKeeps z j keep).cfg)
      (fun _ _ => rfl) (fun _ _ => rfl) s security,
    State.assertReset_part (f := fun t => t.host.msixPend) hm keep
      (fun z j hj => (State.eraseItem_eraseKeeps z j keep).pend (by omega)) (fun _ _ => rfl) (fun _ _ => rfl) s security⟩

/-! ## The wide and the narrow sources (Table RST-1) -/

theorem State.reg_cause (s : State) (c : Nat) {off : Nat} (h : off ≠ Reg.rstCause) : (s.cause c).reg off = s.reg off :=
  State.reg_setReg_of_ne _ _ h

theorem State.flag_cause (s : State) {c : Nat} (hc : c < 32) : (s.cause c).flag Reg.rstCause c = true :=
  (State.flag_setFlag _ _ _ _ _ hc).trans (if_pos ⟨rfl, rfl⟩)

theorem ne_rstCause_of_itemReg {off : Nat} (h : itemReg (blockOf off) off = true) : off ≠ Reg.rstCause := by
  rintro rfl
  revert h
  decide

theorem getLsbD_wideMask {i : Nat} (hi : i < 40) : wideMask.getLsbD i = true := by
  revert i
  decide

theorem getLsbD_deviceMask {i : Nat} (hi : i ≤ 32 ∨ i = 36) : deviceMask.getLsbD i = true := by
  have key : ∀ j, j < 40 → (j ≤ 32 ∨ j = 36) → deviceMask.getLsbD j = true := by decide
  exact key i (by omega) hi

theorem itemReg_of_device {off : Nat} (h : blockOf off ≤ 32 ∨ blockOf off = 36) : itemReg (blockOf off) off = true := by
  unfold itemReg
  rw [beq_self_eq_true, Bool.true_and, show (blockOf off == 39) = false from beq_false_of_ne (by omega)]
  rfl

theorem getLsbD_bootMask {i : Nat} (h : i ≤ 32) (h1 : i ≠ 26) (h2 : i ≠ 27) :
    (deviceMask &&& 0x9F3FFFFFF).getLsbD i = true := by
  have key : ∀ j, j < 33 → j ≠ 26 → j ≠ 27 → (deviceMask &&& 0x9F3FFFFFF).getLsbD j = true := by decide
  exact key i (by omega) h1 h2

theorem State.boot_bootOver {m : BitVec 40} {i : Nat} (s : State) (h : (m &&& 0x9F3FFFFFF).getLsbD i = true) :
    (s.bootOver m).rst.boot.getLsbD i = true := by
  unfold State.bootOver
  dsimp only
  rw [BitVec.getLsbD_or, h, Bool.or_true]

/-- What a wide source leaves of the assertion it orders. -/
theorem State.wideReset_spec (s : State) (security : Bool) {c : Nat} (hc : c < 32) :
    let y := s.assertReset wideMask security false
    let t := s.wideReset security c
    t.rst.held = y.rst.held ∧ t.seq = y.seq ∧ (∀ off, off ≠ Reg.rstCause → t.reg off = y.reg off)
      ∧ t.flag Reg.rstCause c = true ∧ t.rst.loaded = false ∧ t.rst.opt = [] ∧ t.rst.bootHold = true
      ∧ ∀ i, (0x9F3FFFFFF : BitVec 40).getLsbD i = true → t.rst.boot.getLsbD i = true := by
  unfold State.wideReset
  generalize s.assertReset wideMask security false = y
  exact ⟨rfl, rfl, fun off => State.reg_cause _ c, State.flag_cause _ hc, rfl, rfl, rfl,
    fun i hi => State.boot_bootOver y (by rwa [wideMask, BitVec.allOnes_and])⟩

/-- What a narrow source leaves of the assertion it orders. -/
theorem State.narrowReset_spec (s : State) {c : Nat} (hc : c < 32) :
    let y := s.assertReset deviceMask false true
    let t := s.narrowReset c
    t.rst.held = y.rst.held ∧ (∀ off, off ≠ Reg.rstCause → t.reg off = y.reg off) ∧ t.flag Reg.rstCause c = true
      ∧ t.rst.bootHold = true ∧ ∀ i, i ≤ 32 → i ≠ 26 → i ≠ 27 → t.rst.boot.getLsbD i = true := by
  unfold State.narrowReset
  generalize s.assertReset deviceMask false true = y
  exact ⟨rfl, fun off => State.reg_cause _ c, State.flag_cause _ hc, rfl,
    fun i hi h26 h27 => State.boot_bootOver y (getLsbD_bootMask hi h26 h27)⟩

theorem State.up_congr {s t : State} (h : t.rst.held = s.rst.held) (i : Nat) : t.up i = s.up i :=
  congrArg (fun m : BitVec 40 => !m.getLsbD i) h

/-! ## POR (R391, R393) -/

/-- What lies outside the block and its OTP: all that a POR-class reset leaves. -/
def State.porBase (s : State) (lost : Bool) : State :=
  { pending := s.pending, now := s.now, draws := s.draws
    host := { gpioIn := s.host.gpioIn }
    rst := { otp0 := s.rst.otp0, otp1 := s.rst.otp1, otp2 := s.rst.otp2, nrstPin := s.rst.nrstPin
             perst := s.rst.perst, clkLoss := lost } }

theorem State.porReset_eq (s : State) (c : Nat) (lost : Bool) :
    let q := (s.porBase lost).setReg Reg.rstCause (if s.rst.por = true then s.reg Reg.rstCause else word (2 ^ c))
    s.porReset c lost = if lost = true then q.setFlag Reg.clkStatus 31 else q := by
  unfold State.porReset
  cases s.rst.por <;> rfl

theorem State.porBase_reg (s : State) (lost : Bool) (off : Nat) : (s.porBase lost).reg off = regReset off := rfl

theorem State.reg_setFlag (s : State) (off b o : Nat) :
    (s.setFlag off b).reg o = if o = off then s.reg off ||| BitVec.ofNat 32 (2 ^ b) else s.reg o :=
  State.reg_setReg ..

theorem State.reg_porReset (s : State) (c : Nat) (lost : Bool) {off : Nat} (h : off ≠ Reg.clkStatus) :
    (s.porReset c lost).reg off =
      if off = Reg.rstCause then if s.rst.por = true then s.reg Reg.rstCause else word (2 ^ c) else regReset off := by
  rw [s.porReset_eq]
  cases lost
  · exact State.reg_setReg ..
  · exact ((State.reg_setFlag ..).trans (if_neg h)).trans (State.reg_setReg ..)

theorem State.flag_porReset_clkLost (s : State) (c : Nat) (lost : Bool) :
    (s.porReset c lost).flag Reg.clkStatus 31 = lost := by
  rw [s.porReset_eq]
  cases lost
  · refine (congrArg (BitVec.getLsbD · 31) (State.reg_setReg_of_ne _ _ (by decide))).trans ?_
    rw [s.porBase_reg]
    decide
  · exact (State.flag_setFlag _ _ _ _ _ (by decide)).trans (if_pos ⟨rfl, rfl⟩)

/-- Settles O57: an assertion item by item, then each source over its mask. -/
theorem resetsEraseWhatTheyCover : Obligations.ResetsEraseWhatTheyCover := by
  refine ⟨fun s m security keep => ?_, fun s security c hc => ?_, fun s c hc => ?_, fun s c lost hc => ?_⟩
  · have part {α : Type} {f : State → α} {v : α} {i : Nat} (herase : ∀ (z : State) (j : Nat),
        f (z.eraseItem j keep) = if j = i then v else f (z.eraseRegs (itemReg j))) (hregs : ∀ (z : State) (p : Nat → Bool),
        f (z.eraseRegs p) = f z) (hheld : ∀ (z : State) (h : BitVec 40), f { z with rst := { z.rst with held := h } } = f z)
        (hm : m.getLsbD i = true) : f (s.assertReset m security keep) = v :=
      State.assertReset_part hm keep (fun z j _ => herase z j) hregs hheld s security
    exact ⟨fun i hm => s.up_assertReset hm security keep, fun i off hm hi => s.reg_assertReset hm hi security keep,
      part (f := State.dec) (fun z j => (State.eraseItem_eraseKeeps z j keep).dec) (fun _ _ => rfl) (fun _ _ => rfl),
      part (f := State.plc) (fun z j => (State.eraseItem_eraseKeeps z j keep).plc) (fun _ _ => rfl) (fun _ _ => rfl),
      part (f := State.fin) (fun z j => (State.eraseItem_eraseKeeps z j keep).fin) (fun _ _ => rfl) (fun _ _ => rfl),
      part (f := State.cal) (fun z j => (State.eraseItem_eraseKeeps z j keep).cal) (fun _ _ => rfl) (fun _ _ => rfl),
      part (f := State.sat) (fun z j => (State.eraseItem_eraseKeeps z j keep).sat) (fun _ _ => rfl) (fun _ _ => rfl),
      part (f := State.blt) (fun z j => (State.eraseItem_eraseKeeps z j keep).blt) (fun _ _ => rfl) (fun _ _ => rfl),
      part (f := State.sec) (fun z j => (State.eraseItem_eraseKeeps z j keep).sec) (fun _ _ => rfl) (fun _ _ => rfl),
      fun hm => s.mboxHeld_assertReset hm security keep,
      part (f := fun t => t.host.extents) (fun z j => (State.eraseItem_eraseKeeps z j keep).ext) (fun _ _ => rfl)
        (fun _ _ => rfl),
      fun hm => s.config_assertReset hm security keep, fun hm => s.dmc_assertReset hm security keep,
      fun hm => s.seq_assertReset hm security keep⟩
  · obtain ⟨hheld, hseq, hreg, hrest⟩ := s.wideReset_spec security hc
    refine ⟨fun i hi => (State.up_congr hheld i).trans (s.up_assertReset (getLsbD_wideMask hi) security false), hrest.1,
      fun off ho => ?_, ?_, hrest.2⟩
    · exact (hreg _ (ne_rstCause_of_itemReg ho)).trans
        (s.reg_assertReset (getLsbD_wideMask (blockOf_lt off)) ho security false)
    · rw [hseq, s.seq_assertReset (getLsbD_wideMask (by decide)) security false, if_neg Bool.false_ne_true]
  · obtain ⟨hheld, hreg, hrest⟩ := s.narrowReset_spec hc
    refine ⟨fun i hi => (State.up_congr hheld i).trans (s.up_assertReset (getLsbD_deviceMask hi) false true), hrest.1,
      fun off ho => ?_, hrest.2⟩
    exact (hreg _ (ne_rstCause_of_itemReg (itemReg_of_device ho))).trans
      (s.reg_assertReset (getLsbD_deviceMask ho) (itemReg_of_device ho) false true)
  · refine ⟨?_, ?_, ?_, fun off h1 h2 => (s.reg_porReset c lost h2).trans (if_neg h1),
      (s.reg_porReset c lost (by decide)).trans (if_pos rfl), s.flag_porReset_clkLost c lost⟩
    all_goals rw [s.porReset_eq]
    · cases lost <;> exact ⟨⟨rfl, rfl⟩, fun i hi => congrArg (!·) (reset_item_held i hi), rfl, rfl⟩
    · cases lost <;> exact ⟨⟨rfl, rfl, rfl⟩, rfl, rfl, rfl⟩
    · cases lost <;> exact ⟨⟨rfl, rfl, rfl, rfl⟩, rfl, rfl, rfl, rfl⟩

end Sys2Proof.Machine

/-!
Requests of device memory (14 R305, R311, R313, R314, R319, R323, R326, R327).
-/
namespace Sys2Proof.Machine

open Sys2Proof.Safety

/-! ## DMC_REQUEST (R305, R323, R326, R327; 15 R335) -/

/-- A host request of n bytes at a finds its path and lies in the window (15 R335). -/
def State.hostReach (s : State) (a n : Nat) : Prop :=
  (s.hostPath = true ∧ s.live 34 = true) ∧ winAddr 0 ≤ a ∧ a + n ≤ winAddr 0 + 2 ^ 30

theorem State.not_hostReach_iff (s : State) (a n : Nat) : ¬ s.hostReach a n ↔
    (!s.hostPath || !s.live 34 || a < winAddr 0 || winAddr 0 + 2 ^ 30 < a + n) = true := by
  unfold State.hostReach
  generalize winAddr 0 = w
  rw [Bool.or_eq_true, Bool.or_eq_true, Bool.or_eq_true, Bool.not_eq_true', Bool.not_eq_true', decide_eq_true_eq,
    decide_eq_true_eq]
  cases s.hostPath <;> cases s.live 34 <;> simp
  omega

/-- What the controller makes of a request that reaches it, by the group of its first byte. -/
def State.requested (s : State) (m : Nat) (w : Bool) (a n : Nat) (data : List Byte) : State :=
  match memGroup a with
  | none => s.memError w m a n
  | some (g, b, _, _) =>
    if !memInGroup a n || !s.up 26 then s.memError w m a n
    else (linesOf a n).foldl (fun s ln => s.requestPart g b m w a n data ln) s

section
variable {s : State} {m : Fin 32} {w : Bool} {addr : BitVec 37} {k : Fin 4097} {data : List Byte} {n : Nat}

/-- DMC_REQUEST, with n the bytes it asks for. -/
theorem execDmcRequest_eq (hn : n = if w = true then data.length else k.val) : exec (.dmcRequest m w addr k data) s =
    if n = 0 then .next s
    else if (m.val = 16 && (!s.hostPath || !s.live 34 || addr.toNat < winAddr 0
      || winAddr 0 + 2 ^ 30 < addr.toNat + n)) = true then .next s
    else if (m.val = 16 && w) = true then .next (s.windowWrite (addr.toNat - winAddr 0) data)
    else .next (s.requested m.val w addr.toNat n data) := by
  subst hn
  show execDmcRequest m w addr k data s = _
  unfold execDmcRequest State.requested
  dsimp only
  refine if_congr Iff.rfl rfl (if_congr (by simp) rfl (if_congr (by simp) rfl ?_))
  cases memGroup addr.toNat with
  | none => rfl
  | some g => simp only [next_ite]

theorem execDmcRequest_of_empty (hn : n = if w = true then data.length else k.val) (h0 : n = 0) :
    exec (.dmcRequest m w addr k data) s = .next s :=
  (execDmcRequest_eq hn).trans (if_pos h0)

theorem execDmcRequest_of_host_outside (hn : n = if w = true then data.length else k.val) (h0 : 0 < n) (hm : m.val = 16)
    (hr : ¬ s.hostReach addr.toNat n) : exec (.dmcRequest m w addr k data) s = .next s := by
  refine (execDmcRequest_eq hn).trans ((if_neg (Nat.ne_of_gt h0)).trans (if_pos ?_))
  rw [decide_eq_true hm, Bool.true_and]
  exact (s.not_hostReach_iff ..).1 hr

theorem execDmcRequest_of_host_write (hn : n = if w = true then data.length else k.val) (h0 : 0 < n) (hm : m.val = 16)
    (hr : s.hostReach addr.toNat n) (hw : w = true) :
    exec (.dmcRequest m w addr k data) s = .next (s.windowWrite (addr.toNat - winAddr 0) data) := by
  refine (execDmcRequest_eq hn).trans ((if_neg (Nat.ne_of_gt h0)).trans ((if_neg ?_).trans (if_pos ?_)))
  · rw [decide_eq_true hm, Bool.true_and]
    exact fun h => (s.not_hostReach_iff ..).2 h hr
  · rw [decide_eq_true hm, hw]
    rfl

theorem execDmcRequest_of_reach (hn : n = if w = true then data.length else k.val) (h0 : 0 < n)
    (hr : m.val ≠ 16 ∨ (s.hostReach addr.toNat n ∧ w = false)) :
    exec (.dmcRequest m w addr k data) s = .next (s.requested m.val w addr.toNat n data) := by
  refine (execDmcRequest_eq hn).trans ((if_neg (Nat.ne_of_gt h0)).trans ((if_neg fun h => ?_).trans (if_neg fun h => ?_)))
  all_goals
    rw [Bool.and_eq_true, decide_eq_true_eq] at h
    obtain ⟨hm, hx⟩ := h
    obtain ⟨hr, hw⟩ := hr.resolve_left (not_not.2 hm)
  · exact (s.not_hostReach_iff ..).2 hx hr
  · exact Bool.false_ne_true (hw.symm.trans hx)

end

section
variable {s : State} {m a n : Nat} {w : Bool} {data : List Byte} {g base first count : Nat}

theorem State.requested_of_outside (h : memGroup a = none) : s.requested m w a n data = s.memError w m a n := by
  unfold State.requested
  rw [h]

theorem State.requested_of_error (hg : memGroup a = some (g, base, first, count))
    (h : memInGroup a n = false ∨ s.up 26 = false) :
    s.requested m w a n data = s.memError w m a n := by
  unfold State.requested
  rw [hg]
  exact if_pos (by rcases h with h | h <;> simp [h])

theorem State.requested_of_group (hg : memGroup a = some (g, base, first, count)) (hin : memInGroup a n = true)
    (hup : s.up 26 = true) :
    s.requested m w a n data = (linesOf a n).foldl (fun s ln => s.requestPart g base m w a n data ln) s := by
  unfold State.requested
  rw [hg]
  exact if_neg (by rw [hin, hup]; decide)

end

/-- The part of a request in one line: to its port, or a violation answered with an error (R326, R327). -/
theorem State.requestPart_eq (s : State) (g b m : Nat) (w : Bool) (a n : Nat) (data : List Byte) (ln : Nat) :
    let lo := max a (64 * ln)
    let len := min (a + n) (64 * ln + 64) - lo
    s.requestPart g b m w a n data ln = if s.permits g m (lo - b) len w = true then
      s.portTake { group := g, master := m, write := w, addr := lo, len := len, data := (data.drop (lo - a)).take len }
    else (s.violation g m (lo - b) w).memError w m lo len := by
  dsimp only
  unfold State.requestPart linePart
  dsimp only
  cases s.permits g m (max a (64 * ln) - b) _ w <;> rfl

/-! ## The ports (R323) -/

theorem State.portTake_of_room {s : State} {r : PortReq} (h : s.portRoom r = true ∧ s.dmc.stalled.any r.samePort = false) :
    s.portTake r = s.portEnter r :=
  if_pos (by rw [h.1, h.2]; rfl)

theorem State.portTake_of_full {s : State} {r : PortReq}
    (h : ¬ (s.portRoom r = true ∧ s.dmc.stalled.any r.samePort = false)) :
    s.portTake r = { s with dmc := { s.dmc with stalled := s.dmc.stalled ++ [r] } } :=
  if_neg fun hc => h (by simpa using hc)

/-! ## What a port grants (R311, R313, R314, R319) -/

/-- A request that has left its port. -/
def State.leaves (s : State) (r : PortReq) : State := { s with dmc := { s.dmc with ports := s.dmc.ports.erase r } }

theorem State.grant_of_failed {s : State} {r : PortReq} (hf : (s.chan r.chan).failed = true) :
    s.grant r = (s.leaves r).memError r.write r.master r.addr r.len :=
  if_pos hf

theorem State.grant_of_write {s : State} {r : PortReq} (hf : (s.chan r.chan).failed = false) (hw : r.write = true) :
    s.grant r = (s.leaves r).acceptWrite r :=
  (if_neg (ne_true_of_eq_false hf)).trans (if_pos hw)

theorem State.grant_of_read {s : State} {r : PortReq} (hf : (s.chan r.chan).failed = false) (hw : r.write = false)
    (hh : s.lineHeld r.line = false) : s.grant r = (s.leaves r).setChan r.chan { s.chan r.chan with
      reads := (s.chan r.chan).reads ++ [{ master := r.master, line := 64 * r.line, at_ := r.at_, target := r.target }] } :=
  (if_neg (ne_true_of_eq_false hf)).trans ((if_neg (ne_true_of_eq_false hw)).trans (if_neg (ne_true_of_eq_false hh)))

/-- A read of a line that a write holds is answered by it, if its data is good (R314). -/
theorem State.grant_of_held_read {s : State} {r : PortReq} (hf : (s.chan r.chan).failed = false) (hw : r.write = false)
    (hh : s.lineHeld r.line = true) (hp : s.poisoned r.line = false) :
    s.grant r = ((s.leaves r).bump (Reg.dmcCntCh (memChannel (64 * r.line)).1 5)).answer
      ⟨r.master, false, r.line, s.bytesAt r.addr r.len, false⟩ := by
  have hfetch : (s.leaves r).fetchLine r.line r.master =
      ((s.leaves r).bump (Reg.dmcCntCh (memChannel (64 * r.line)).1 5), true) :=
    (if_pos hh).trans (if_neg (ne_true_of_eq_false hp))
  exact ((if_neg (ne_true_of_eq_false hf)).trans ((if_neg (ne_true_of_eq_false hw)).trans (if_pos hh))).trans
    (congrArg (fun f : State × Bool => f.1.answer ⟨r.master, false, r.line,
      if f.2 then f.1.bytesAt r.addr r.len else List.replicate r.len 0, !f.2⟩) hfetch)

/-- Settles O50: a request by who asks and where, its parts line by line, the port, and what the port grants by kind. -/
theorem memoryHoldsWhatIsWritten : Obligations.MemoryHoldsWhatIsWritten := by
  refine ⟨fun s m w addr k data => ?_, fun s r => ⟨State.portTake_of_room, State.portTake_of_full⟩, fun s r => ?_⟩
  · intro a n c err reach
    refine ⟨execDmcRequest_of_empty rfl, execDmcRequest_of_host_outside rfl, execDmcRequest_of_host_write rfl,
      fun h0 hr => ?_⟩
    have hexec : exec c s = .next (s.requested m.val w a n data) := execDmcRequest_of_reach rfl h0 hr
    refine ⟨fun h => hexec.trans (congrArg _ (State.requested_of_outside h)), fun g base first count hg =>
      ⟨fun h => hexec.trans (congrArg _ (State.requested_of_error hg h)), fun hin hup => ?_⟩⟩
    rw [hexec, State.requested_of_group hg hin hup]
    exact congrArg (fun f => (.next ((linesOf a n).foldl f s) : Out)) (funext fun z => funext fun ln => z.requestPart_eq ..)
  · intro c ln ch y req
    refine ⟨State.grant_of_failed, fun hf hw => ⟨State.grant_of_held_read hf hw, State.grant_of_read hf hw⟩,
      fun hf hw hs => ?_⟩
    obtain ⟨W, hjoin, happend, hchan, hother, hbytes, hpoison, hframe⟩ := State.acceptWrite_spec y r hs
    exact ⟨_, W, State.grant_of_write hf hw, hjoin, happend, hchan, hother, hbytes, hpoison, hframe⟩

end Sys2Proof.Machine

/-! The memory channels: command slots, refresh, training, replay, failure (14 R312, R313, R316 to R319). -/
namespace Sys2Proof.Machine

open Sys2Proof.Safety

/-! ### Command slots (R312, R313) -/

theorem execChannelCommand_idle (c : Fin 16) (upsets : List (BitVec 31 × Bool)) (s : State)
    (h : (s.strike c.val upsets).chanReady c.val = false) :
    execChannelCommand c upsets s = .next (s.strike c.val upsets) :=
  if_pos (by rw [h]; rfl)

/-- What forces a ready channel to issue writes first: drain mode, a flush, or a write of urgency 7. -/
theorem writesFirst_iff (z : State) (c : Nat) :
    ((z.chan c).drain || !(z.chan c).forced.isEmpty || (z.chan c).writes.any fun w => w.urgency z.now == 7) = true
      ↔ ((z.chan c).drain = true ∨ (z.chan c).forced ≠ []) ∨ ∃ w ∈ (z.chan c).writes, w.urgency z.now = 7 := by
  simp only [Bool.or_eq_true, Bool.not_eq_true', List.isEmpty_eq_false_iff, List.any_eq_true, beq_iff_eq]

/-- A ready channel's choice, by what its queues offer. -/
theorem execChannelCommand_ready (c : Fin 16) (upsets : List (BitVec 31 × Bool)) (s : State) {z : State}
    (hz : s.strike c.val upsets = z) (h : z.chanReady c.val = true) :
    execChannelCommand c upsets s =
      match if (z.chan c.val).drain || !(z.chan c.val).forced.isEmpty
              || (z.chan c.val).writes.any fun w => w.urgency z.now == 7
          then (z.chan c.val).writes.find? (z.issueOk c.val) else none,
        z.nextRead c.val, (z.chan c.val).writes.find? (z.issueOk c.val) with
      | some w, _, _ => .next (z.issueWrite c.val w)
      | none, some r, _ => .next (if r.merge then z.issueWrite c.val r else z.issueRead c.val r)
      | none, none, some w => .next (z.issueWrite c.val w)
      | none, none, none => .next z := by
  subst hz
  exact if_neg (by rw [h]; decide)

/-! ### Refresh, training, retraining, replay and failure (R316 to R319) -/

/-- No bank of the channel is under refresh. -/
theorem refreshIdle_iff (ch : Chan) (now : Nat) :
    (match ch.refresh with | some (_, e) => decide (e ≤ now) | none => true) = true
      ↔ ch.refresh = none ∨ ∃ b e, ch.refresh = some (b, e) ∧ e ≤ now := by
  rcases ch.refresh with _ | ⟨b, e⟩ <;> simp

theorem execRefresh_of_idle (c : Fin 16) (bank : Fin 16) (manage : Bool) (s : State) (hr : s.chanReady c.val = true)
    (h : (s.chan c.val).refresh = none ∨ ∃ b e, (s.chan c.val).refresh = some (b, e) ∧ e ≤ s.now) :
    execRefresh c bank manage s =
      .next ((s.retryPush c.val .refresh bank.val).setChan c.val { (s.retryPush c.val .refresh bank.val).chan c.val with
        refresh := some (bank.val, s.now + if manage then 192 else 240) }) :=
  if_pos (by rw [hr, Bool.true_and]; exact (refreshIdle_iff _ _).2 h)

theorem execRefresh_of_busy (c : Fin 16) (bank : Fin 16) (manage : Bool) (s : State) (hr : s.chanReady c.val = true)
    (h : ¬ ((s.chan c.val).refresh = none ∨ ∃ b e, (s.chan c.val).refresh = some (b, e) ∧ e ≤ s.now)) :
    execRefresh c bank manage s = .next s :=
  if_neg (by rw [hr, Bool.true_and]; exact fun x => h ((refreshIdle_iff _ _).1 x))

/-- A refresh marks the bank in its channel and changes nothing else. -/
theorem chan_refresh (s : State) (c d bank e : Nat) :
    let z := s.retryPush c .refresh bank
    (z.setChan c { z.chan c with refresh := some (bank, e) }).chan d =
      if d = c then { s.chan c with
        retry := (s.chan c).unconfirmed s.now ++ [⟨.refresh, bank, s.now⟩], refresh := some (bank, e) }
      else s.chan d := by
  intro z
  rw [State.chan_setChan_get]
  show (if d = c then { (State.retryPush s c .refresh bank).chan c with refresh := some (bank, e) }
    else (State.retryPush s c .refresh bank).chan d) = _
  unfold State.retryPush
  rw [State.chan_setChan_get, State.chan_setChan_get, if_pos rfl]
  split <;> rfl

theorem execTraining_eq (c : Fin 16) (pass : Bool) (s : State) (hu : s.up 26 = true)
    (hc : s.clk.stable.getLsbD 3 = true) (ht : (s.chan c.val).trained = false) (hf : (s.chan c.val).failed = false) :
    execTraining c pass s = .next
      (let z := { s with dmc := { s.dmc with selfRefresh := false } }
       if pass then z.setChan c.val { s.chan c.val with trained := true, trainedAt := s.now } else z.chanFail c.val) :=
  if_pos (by rw [hu, hc, ht, hf]; rfl)

theorem execPeriodicRetrain_idle (c : Fin 16) (pass : Bool) (s : State)
    (h : s.up 26 = false ∨ s.retrainDue c.val = false ∨ s.retrainWindow c.val = false) :
    execPeriodicRetrain c pass s = .next s :=
  if_neg (by rcases h with h | h | h <;> simp [h])

theorem execPeriodicRetrain_due (c : Fin 16) (pass : Bool) (s : State) (hu : s.up 26 = true)
    (hd : s.retrainDue c.val = true) (hw : s.retrainWindow c.val = true) :
    execPeriodicRetrain c pass s = if c.val < 8 then
      .next ((List.range 8).foldl (fun s k =>
        if (s.chan k).trained = true ∧ (s.chan k).failed = false then s.retrainOne (pass || k != c.val) k else s) s)
      else .next (s.retrainOne pass c.val) := by
  refine (if_pos (by rw [hu, hd, hw]; rfl)).trans ?_
  simp only [Bool.and_eq_true, Bool.not_eq_true']

/-- A parity alert comes during a replay, or is one too many. -/
theorem replayRuns_iff (ch : Chan) (now : Nat) :
    (match ch.replayEnd with | some e => decide (now < e) | none => false) = true
      ↔ ∃ e, ch.replayEnd = some e ∧ now < e := by
  rcases ch.replayEnd with _ | e <;> simp

/-- The alerts of the last 1 ms, with one at this time (R318). -/
def State.alertsNow (s : State) (c : Nat) : List Nat := ((s.chan c).alerts.filter fun t => s.now < t + 1600000) ++ [s.now]

/-- A parity alert that fails its channel: it comes during a replay or is one too many (R318, R319). -/
def State.AlertFails (s : State) (c : Nat) : Prop :=
  (∃ e, (s.chan c).replayEnd = some e ∧ s.now < e) ∨ max 1 (s.fld Reg.dmcReplay 7 0) < (s.alertsNow c).length

theorem alertFails_iff (s : State) (c : Nat) :
    ((match (s.chan c).replayEnd with | some e => decide (s.now < e) | none => false)
      || decide (max 1 (s.fld Reg.dmcReplay 7 0) < (s.alertsNow c).length)) = true ↔ s.AlertFails c := by
  rw [Bool.or_eq_true, replayRuns_iff, decide_eq_true_iff]
  exact Iff.rfl

theorem execParityAlert_of_fails (c : Fin 16) (s : State) (hu : s.up 26 = true) (ht : (s.chan c.val).trained = true)
    (hf : (s.chan c.val).failed = false) (h : s.AlertFails c.val) :
    execParityAlert c s = .next (s.chanFail c.val) :=
  (if_neg (by rw [hu, ht, hf]; decide)).trans (if_pos ((alertFails_iff s c.val).2 h))

theorem execParityAlert_of_replay (c : Fin 16) (s : State) (hu : s.up 26 = true) (ht : (s.chan c.val).trained = true)
    (hf : (s.chan c.val).failed = false) (h : ¬ s.AlertFails c.val) :
    execParityAlert c s = .next (((s.setChan c.val { s.chan c.val with
      alerts := s.alertsNow c.val, replayEnd := some (s.now + 448)
      retry := ((s.chan c.val).unconfirmed s.now).map fun x => { x with at_ := s.now + 448 } }).bump
        (Reg.dmcCntCh c.val 2)).event 194) :=
  (if_neg (by rw [hu, ht, hf]; decide)).trans (if_neg fun x => h ((alertFails_iff s c.val).1 x))

theorem State.chanFail_eq (s : State) (c : Nat) : s.chanFail c = (State.setChan { s with cyc := { s.cyc with
      answers := s.cyc.answers ++ (s.chan c).reads.map fun r =>
        ⟨r.master, false, r.line / 64, List.replicate 64 0, true⟩ } } c
    { s.chan c with
      failed := true, trained := false, reads := [], writes := [], retry := [], forced := []
      drain := false, issuing := none, retrain := false }).event 195 := by
  unfold State.chanFail
  dsimp only
  rw [chanFail_foldl]

theorem execForcedDrain_up (g : Fin 4) (m : Fin 32) (s : State) (hu : s.up 26 = true) :
    execForcedDrain ⟨g, m⟩ s = .next ((List.range 16).foldl (fun s c =>
      if s.dmc.ports.any fun r => r.write && r.group == g.val && r.master == m.val && r.chan == c then
        s.setChan c { s.chan c with forced := (s.chan c).forced ++ [(m.val, s.now)] } else s) s) :=
  if_neg (by rw [hu]; decide)

theorem execDmcRetrain_eq (s : State) (b : BusWrite) (hb : s.busOk Reg.dmcCtrl b = true) :
    execDmcRetrain b s =
      let z := (s.accepted Reg.dmcCtrl b).store Reg.dmcCtrl b.value
      .next (if b.value.getLsbD 31 = true ∧ z.retrainRuns = false then
        (List.range 16).foldl (fun s c => if (s.chan c).trained = true ∧ (s.chan c).failed = false then
          s.setChan c { s.chan c with retrain := true } else s) z else z) := by
  unfold execDmcRetrain
  rw [State.busWrite_ok hb]
  unfold State.dmcCtrlWrite
  simp only [Bool.and_eq_true, Bool.not_eq_true']

/-- Settles O51, command by command from the equations above. -/
theorem channelsIssueTrainAndFail : Obligations.ChannelsIssueTrainAndFail := by
  unfold Obligations.ChannelsIssueTrainAndFail
  refine ⟨fun s c => ⟨fun upsets => ?_, fun hready => ⟨fun bank manage hidle => ?_, fun bank manage b e hb he => ?_⟩,
    fun hu ht hf => ?_, fun hu hc ht hf => ⟨execTraining_eq c true s hu hc ht hf, execTraining_eq c false s hu hc ht hf⟩,
    fun hu hd hw pass => ⟨fun h8 => ?_, fun h8 => ?_⟩, fun pass h => execPeriodicRetrain_idle c pass s h⟩,
    fun s g m hu => ?_, fun s c => s.chanFail_eq c, fun s b hb => execDmcRetrain_eq s b hb⟩
  · -- a command slot
    generalize hz : s.strike c.val upsets = z
    refine ⟨fun h => (execChannelCommand_idle c upsets s (by rw [hz]; exact h)).trans (by rw [hz]), ?_⟩
    have hexec (h : z.chanReady c.val = true) := execChannelCommand_ready c upsets s hz h
    refine ⟨fun w h hforced hw => (hexec h).trans ?_, fun r h hno hr => (hexec h).trans ?_,
      fun w h hr hw => (hexec h).trans ?_, fun h hr hw => (hexec h).trans ?_⟩
    · rw [if_pos ((writesFirst_iff z c.val).2 hforced), hw]
    · have hnone : (if (z.chan c.val).drain || !(z.chan c.val).forced.isEmpty
          || (z.chan c.val).writes.any fun w => w.urgency z.now == 7
          then (z.chan c.val).writes.find? (z.issueOk c.val) else none) = none := by
        rcases hno with hno | hno
        · exact if_neg fun x => hno ((writesFirst_iff z c.val).1 x)
        · rw [hno, ite_self]
      rw [hnone, hr]
    · rw [hr, hw]
      cases hif : ((z.chan c.val).drain || !(z.chan c.val).forced.isEmpty
        || (z.chan c.val).writes.any fun w => w.urgency z.now == 7) <;> rfl
    · rw [hr, hw, ite_self]
  · -- a refresh of a channel with no bank in refresh
    exact ⟨_, execRefresh_of_idle c bank manage s hready hidle, rfl, (chan_refresh ..).trans (if_pos rfl),
      fun d hd => (chan_refresh ..).trans (if_neg hd)⟩
  · refine execRefresh_of_busy c bank manage s hready ?_
    rintro (h | ⟨b', e', h, he'⟩)
    · exact absurd (hb.symm.trans h) nofun
    · cases hb.symm.trans h
      exact absurd he' (Nat.not_le.2 he)
  · -- a parity alert
    exact ⟨execParityAlert_of_fails c s hu ht hf, execParityAlert_of_replay c s hu ht hf⟩
  · exact (execPeriodicRetrain_due c pass s hu hd hw).trans (if_neg (Nat.not_lt.2 h8))
  · exact (execPeriodicRetrain_due c pass s hu hd hw).trans (if_pos h8)
  · -- a flush
    show ∃ t : State, execForcedDrain ⟨g, m⟩ s = .next t ∧ _
    have hflush := forceDrain_foldl g.val m.val s 16
    rw [execForcedDrain_up g m s hu]
    dsimp only at hflush
    generalize (List.range 16).foldl _ s = t at hflush ⊢
    exact ⟨t, rfl, hflush⟩

end Sys2Proof.Machine

/-! The scrubber, the watermarks, the Proctors' locks and the latched error addresses (14 R310, R324 to R327; 15 R346). -/
namespace Sys2Proof.Machine

open Sys2Proof.Safety

/-! ### The scrubber (R324, R325) -/

/-- The scrubber may read the channel's next line: the channel can issue the read and GAP fc have passed since the last. -/
def State.ScrubReady (s : State) (c : Nat) : Prop :=
  ((s.chanReady c = true
    ∧ s.issueOk c { master := 23, line := chanLine c (s.chan c).scrub, at_ := s.now, target := 1 } = true)
    ∧ s.flag Reg.dmcCtrl 0 = true) ∧ (s.chan c).scrubAt + 2 * max 1 (s.fld Reg.dmcScrub 15 0) ≤ s.now

theorem scrubReady_iff (s : State) (c : Nat) :
    (s.chanReady c && s.issueOk c { master := 23, line := chanLine c (s.chan c).scrub, at_ := s.now, target := 1 }
      && s.flag Reg.dmcCtrl 0
      && decide ((s.chan c).scrubAt + 2 * max 1 (s.fld Reg.dmcScrub 15 0) ≤ s.now)) = true ↔ s.ScrubReady c := by
  simp only [Bool.and_eq_true, decide_eq_true_iff]
  exact Iff.rfl

theorem execScrubRead_of_not_ready (c : Fin 16) (ups : List (BitVec 31 × Bool)) (s : State)
    (h : ¬ (s.strike c.val ups).ScrubReady c.val) : execScrubRead c ups s = .next (s.strike c.val ups) :=
  if_neg fun x => h ((scrubReady_iff _ _).1 x)

/-- The end of channel 15's pass is an occurrence (R324). -/
def scrubDone (c k : Nat) (t : State) : State := if c = 15 ∧ k = 0 then t.event 196 else t

/-- A scrubber's read that is due moves to the channel's next line, and the Proctor decides about it. -/
theorem execScrubRead_of_ready (c : Fin 16) (ups : List (BitVec 31 × Bool)) (s0 : State) {s : State}
    (hs : s0.strike c.val ups = s) (h : s.ScrubReady c.val) {base f n : Nat}
    (hg : memGroup (chanLine c.val (s.chan c.val).scrub) = some (chanGroup c.val, base, f, n)) :
    execScrubRead c ups s0 =
      let a := chanLine c.val (s.chan c.val).scrub
      let k := ((s.chan c.val).scrub + 1) % 2 ^ 27
      let z := s.setChan c.val { s.chan c.val with scrub := k, scrubAt := s.now }
      .next (scrubDone c.val k (if z.permits (chanGroup c.val) 23 (a - base) 64 false = false then
          z.violation (chanGroup c.val) 23 (a - base) false
        else (z.scrubLine (chanGroup c.val) base (a / 64)).retryPush c.val .read a)) := by
  subst hs
  refine (if_pos ((scrubReady_iff _ _).2 h)).trans ?_
  simp only [hg, Bool.and_eq_true, decide_eq_true_eq, Bool.not_eq_true', scrubDone]

theorem State.scrubLine_of_held (s : State) (g b ln : Nat) (h : s.lineHeld ln = true) :
    s.scrubLine g b ln = (s.fetchLine ln 23).1 := by
  unfold State.scrubLine
  rw [if_pos h]
  exact if_neg (by rw [h, Bool.not_true, Bool.and_false]; decide)

theorem State.scrubLine_of_poisoned (s : State) (g b ln : Nat) (h : s.lineHeld ln = false) (hp : s.poisoned ln = true) :
    s.scrubLine g b ln = (s.bump (Reg.dmcCntCh (memChannel (64 * ln)).1 3)).uncorrectable ln 23 2 := by
  have hread : s.readLine ln 23 2 = ((s.bump (Reg.dmcCntCh (memChannel (64 * ln)).1 3)).uncorrectable ln 23 2, false) :=
    if_pos hp
  unfold State.scrubLine
  rw [if_neg (ne_true_of_eq_false h), hread]
  rfl

theorem State.scrubLine_of_clean (s : State) (g b ln : Nat) (h : s.lineHeld ln = false) (hp : s.poisoned ln = false)
    (hsoft : s.dmc.soft.contains ln = false) :
    s.scrubLine g b ln = s.bump (Reg.dmcCntCh (memChannel (64 * ln)).1 3) := by
  have hread : s.readLine ln 23 2 = (s.bump (Reg.dmcCntCh (memChannel (64 * ln)).1 3), true) :=
    (if_neg (ne_true_of_eq_false hp)).trans (if_neg (ne_true_of_eq_false hsoft))
  unfold State.scrubLine
  rw [if_neg (ne_true_of_eq_false h), hread, hsoft]
  rfl

theorem State.scrubLine_of_soft (s : State) (g b ln : Nat) (h : s.lineHeld ln = false) (hp : s.poisoned ln = false)
    (hsoft : s.dmc.soft.contains ln = true) :
    let c := (memChannel (64 * ln)).1
    let w := ((s.bump (Reg.dmcCntCh c 3)).bump (Reg.dmcCntCh c 0)).event 192
    s.scrubLine g b ln = w.requestPart g b 23 true (64 * ln) 64 (w.bytesAt (64 * ln) 64) ln true := by
  intro c w
  have hread : s.readLine ln 23 2 = (w, true) := (if_neg (ne_true_of_eq_false hp)).trans (if_pos hsoft)
  unfold State.scrubLine
  rw [if_neg (ne_true_of_eq_false h), hread, hsoft, h]
  rfl

/-- An array word can be scrubbed: it exists and its block is out of reset (R325). -/
theorem execSramScrub_ready_iff (s : State) (array : Fin 6) (i : Nat) :
    (s.up 26 && s.flag Reg.dmcCtrl 0 && decide (i < sramSize array.val) && s.up (sramBlock array.val i)) = true
      ↔ (s.up 26 = true ∧ s.flag Reg.dmcCtrl 0 = true) ∧ i < sramSize array.val
        ∧ s.up (sramBlock array.val i) = true := by
  simp only [Bool.and_eq_true, decide_eq_true_iff, and_assoc]

/-! ### Watermarks, locks and latched addresses (R310, R313, R327) -/

theorem execDmcWmWrite_eq (s : State) (b : BusWrite) (hb : s.busOk Reg.dmcWm b = true) :
    execDmcWmWrite b s =
      let z := s.accepted Reg.dmcWm b
      let high := b.value.toNat / 256 % 64
      let low := b.value.toNat % 64
      .next (if low < high ∧ high ≤ 32 then (List.range 16).foldl State.drainLevel (z.store Reg.dmcWm b.value) else z) := by
  have hlow : bits b.value.toNat 5 0 = b.value.toNat % 64 := by simp [bits]
  have hhigh : bits b.value.toNat 13 8 = b.value.toNat / 256 % 64 := by simp [bits, Nat.shiftRight_eq_div_pow]
  unfold execDmcWmWrite
  rw [State.busWrite_ok hb]
  unfold State.dmcWmWrite
  simp only [hlow, hhigh, Bool.or_eq_true, decide_eq_true_eq]
  show (Host.Outcome.next _ : Out) = _
  by_cases h : b.value.toNat % 64 < b.value.toNat / 256 % 64 ∧ b.value.toNat / 256 % 64 ≤ 32
  · rw [if_pos h]
    exact congrArg _ (if_neg fun x => x.elim (Nat.not_le.2 h.1) (Nat.not_lt.2 h.2))
  · rw [if_neg h]
    refine congrArg _ (if_pos ?_)
    exact (not_and_or.1 h).imp Nat.not_lt.1 Nat.not_le.1

theorem execPrcLockWrite_eq (s : State) (t : Fin 23) (b : BusWrite) (hb : s.busOk (Reg.prcLock t.val) b = true) :
    execPrcLockWrite t b s =
      let z := (s.accepted (Reg.prcLock t.val) b).store (Reg.prcLock t.val) b.value
      let u := if b.value.getLsbD 31 = true then
        z.setReg (Reg.prcViolCnt t.val) (word (min 0xFFFFFFFF (z.incsNow (Reg.prcViolCnt t.val)))) else z
      .next (if b.value.getLsbD 0 = true ∧ u.up 36 = true then u.extend 4 (shake256 (u.proctorBytes t.val) 32) else u) := by
  unfold execPrcLockWrite
  rw [State.busWrite_ok hb]
  unfold State.prcLockWrite
  simp only [Bool.and_eq_true]
  rfl

theorem execDmcErrAddrLoRead_eq (s : State) (b : BusRead) (hr : ReadOk s Reg.dmcErrAddrLo b) :
    execDmcErrAddrLoRead b s = .next (answered b Reg.dmcErrAddrLo
      (s.latchWord b.master.val Reg.dmcErrAddrHi (s.reg Reg.dmcErrAddrHi)) (s.reg Reg.dmcErrAddrLo)) := by
  unfold execDmcErrAddrLoRead
  rw [State.busRead_ok hr]
  rfl

theorem execPrcViolAddrLoRead_eq (s : State) (t : Fin 23) (b : BusRead) (hr : ReadOk s (Reg.prcViolAddrLo t.val) b) :
    execPrcViolAddrLoRead t b s = .next (answered b (Reg.prcViolAddrLo t.val)
      (s.latchWord b.master.val (Reg.prcViolAddrHi t.val) (s.reg (Reg.prcViolAddrHi t.val)))
      (s.reg (Reg.prcViolAddrLo t.val))) := by
  unfold execPrcViolAddrLoRead
  rw [State.busRead_ok hr]
  rfl

/-- Settles O52, command by command from the equations above. -/
theorem scrubbingLocksAndErrorReads : Obligations.ScrubbingLocksAndErrorReads := by
  unfold Obligations.ScrubbingLocksAndErrorReads
  refine ⟨fun s0 c ups => ?_, fun s g base ln => ⟨s.scrubLine_of_held g base ln, s.scrubLine_of_poisoned g base ln,
    s.scrubLine_of_clean g base ln, s.scrubLine_of_soft g base ln⟩, fun s array i => ⟨fun h => ⟨?_, ?_⟩, fun lost h => ?_⟩,
    fun s b hb => execDmcWmWrite_eq s b hb, fun s t b hb => execPrcLockWrite_eq s t b hb,
    fun s b hr => execDmcErrAddrLoRead_eq s b hr, fun s t b hr => execPrcViolAddrLoRead_eq s t b hr⟩
  · generalize hs : s0.strike c.val ups = s
    refine ⟨fun h => (execScrubRead_of_not_ready c ups s0 (by rw [hs]; exact h)).trans (by rw [hs]),
      fun h base f n hg => ?_⟩
    have hexec := execScrubRead_of_ready c ups s0 hs h hg
    exact ⟨fun hp => hexec.trans (congrArg (fun t => Host.Outcome.next (scrubDone _ _ t)) (if_pos hp)),
      fun hp => hexec.trans (congrArg (fun t => Host.Outcome.next (scrubDone _ _ t)) (if_neg (ne_false_of_eq_true hp)))⟩
  · exact if_pos ((execSramScrub_ready_iff s array i).2 h)
  · exact if_pos ((execSramScrub_ready_iff s array i).2 h)
  · exact if_neg fun x => h ((execSramScrub_ready_iff s array i).1 x)

end Sys2Proof.Machine

/-! The core voltage loop (19 R402 to R405). -/
namespace Sys2Proof.Machine

open Sys2Proof.Safety

/-! ### The least slack (R403) -/

/-- The slacks of the enabled domains. -/
def State.slacks (s : State) (core fabric engine : BitVec 8) : List Nat :=
  (if s.flag Reg.avsCpmEn 0 then [core.toNat] else []) ++ (if s.flag Reg.avsCpmEn 1 then [fabric.toNat] else [])
    ++ (if s.flag Reg.avsCpmEn 2 then [engine.toNat] else [])

theorem State.mem_slacks (s : State) (c f e : BitVec 8) (n : Nat) :
    n ∈ s.slacks c f e ↔ (s.flag Reg.avsCpmEn 0 = true ∧ n = c.toNat)
      ∨ (s.flag Reg.avsCpmEn 1 = true ∧ n = f.toNat) ∨ (s.flag Reg.avsCpmEn 2 = true ∧ n = e.toNat) := by
  simp [State.slacks]

/-- The least slack is a least element of the enabled domains' slacks, if one is enabled. -/
theorem State.min?_slacks (s : State) (c f e : BitVec 8) (h : s.slacks c f e ≠ []) :
    (s.slacks c f e).min? = some (s.leastSlack c f e) := by
  have heq : s.leastSlack c f e = match s.slacks c f e with
    | [] => (Config.freeWord s.draws 0).toNat % 256
    | x :: xs => xs.foldl min x := rfl
  rw [heq]
  cases hl : s.slacks c f e with
  | nil => exact absurd hl h
  | cons x xs => exact List.min?_cons'

theorem State.leastSlack_le (s : State) (c f e : BitVec 8) {n : Nat} (h : n ∈ s.slacks c f e) : s.leastSlack c f e ≤ n :=
  (List.min?_eq_some_iff.1 (s.min?_slacks c f e (List.ne_nil_of_mem h))).2 n h

theorem State.leastSlack_mem (s : State) (c f e : BitVec 8) {n : Nat} (h : n ∈ s.slacks c f e) :
    s.leastSlack c f e ∈ s.slacks c f e :=
  (List.min?_eq_some_iff.1 (s.min?_slacks c f e (List.ne_nil_of_mem h))).1

/-! ### A step of the loop (R402 to R405) -/

/-- The loop runs and 100 µs have passed since its last step. -/
def State.AvsDue (s : State) : Prop :=
  ((s.live 31 = true ∧ s.clk.rootStable = true) ∧ s.flag Reg.avsCtrl 0 = true ∧ s.flag Reg.avsStatus 31 = false)
    ∧ s.avs.stepAt + 160000 ≤ s.now

theorem not_avsDue_iff (s : State) :
    (!s.live 31 || !s.clk.rootStable || !s.flag Reg.avsCtrl 0 || s.flag Reg.avsStatus 31
      || decide (s.now < s.avs.stepAt + usCc 100)) = true ↔ ¬ s.AvsDue := by
  have hus : usCc 100 = 160000 := rfl
  simp only [State.AvsDue, hus, Bool.or_eq_true, Bool.not_eq_true', decide_eq_true_iff, not_and_or, Bool.not_eq_true,
    Bool.not_eq_false, not_le, or_assoc]

theorem execAvsStep_of_not_due (c f e : BitVec 8) (back : Option (BitVec 16)) (acc : Bool) (s : State)
    (h : ¬ s.AvsDue) : execAvsStep c f e back acc s = .next s :=
  if_pos ((not_avsDue_iff s).2 h)

/-- A step that is due starts from the target in force, or from the read-back voltage. -/
theorem execAvsStep_of_due (c f e : BitVec 8) (back : Option (BitVec 16)) (acc : Bool) (s : State) (h : s.AvsDue) :
    execAvsStep c f e back acc s =
      let z : State := { s with avs := { s.avs with stepAt := s.now } }
      if z.avs.started then .next (z.avsStepFrom (z.fld Reg.avsStatus 11 0) (z.leastSlack c f e) acc).drawn
      else match back with
        | none => .next z.avsFail
        | some mv => .next (z.avsStepFrom (2 * mv.toNat / 5 * 5) (z.leastSlack c f e) acc).drawn :=
  if_neg fun x => (not_avsDue_iff s).1 x h

/-- Where the target of a step goes (R404). -/
def State.avsTarget (s : State) (v sl : Nat) : Nat :=
  if s.clk.switch ≠ none then v
  else if sl < s.fld Reg.avsSlack 7 0 ∧ v < s.fld Reg.avsLimits 27 16 then v + 5
  else if (s.fld Reg.avsSlack 15 8 < sl ∧ s.fld Reg.avsLimits 11 0 < v)
      ∧ (s.clk.engineDiv = 4 ∨ s.fld Reg.avsVhold 11 0 + 5 ≤ v) then v - 5
  else v

theorem State.avsStepFrom_eq (s : State) (v sl : Nat) (acc : Bool) :
    let v' := s.avsTarget v sl
    let top := sl < s.fld Reg.avsSlack 7 0 ∧ s.fld Reg.avsLimits 27 16 ≤ v
    let a := if sl < s.fld Reg.avsSlack 23 16 then s.event 8 else s
    let b := (State.setFld (if top then a.event 6 else a) Reg.avsStatus 30 30 (if top then 1 else 0)).setFld
      Reg.avsStatus 23 16 sl
    let on := State.setFld { b with avs := { b.avs with started := true, written := some (v' / 2) } }
      Reg.avsStatus 11 0 v'
    s.avsStepFrom v sl acc = if b.avs.written ≠ some (v' / 2) ∧ acc = false then b.avsFail
      else if on.clk.engineDiv = 4 then on.setFld Reg.avsVhold 11 0 v' else on := by
  unfold State.avsStepFrom State.avsTarget
  simp only [Option.isSome_iff_ne_none, Bool.and_eq_true, Bool.or_eq_true, decide_eq_true_iff, bnat, bne_iff_ne,
    Bool.not_eq_true', ne_eq]

/-! ### Telemetry and the registers (R402, R405) -/

theorem execPmbusTelemetry_due (vin iout temp : BitVec 16) (good : Bool) (s : State) (hl : s.live 31 = true)
    (ht : s.avs.pmbAt + 16000000 ≤ s.now) :
    execPmbusTelemetry good vin iout temp s =
      let z : State := { s with avs := { s.avs with pmbAt := s.now } }
      if good then .next ((z.setReg Reg.avsTelem0 (word (vin.toNat * 2 ^ 16 + iout.toNat))).setReg Reg.avsTelem1
        (word (2 ^ 31 + temp.toNat)))
      else .next (z.clrFlag Reg.avsTelem1 31) :=
  if_neg (by
    rw [hl, Bool.not_true, Bool.false_or, decide_eq_true_iff]
    exact Nat.not_lt.2 ht)

theorem execPmbusTelemetry_idle (vin iout temp : BitVec 16) (good : Bool) (s : State)
    (h : s.live 31 = false ∨ s.now < s.avs.pmbAt + 16000000) : execPmbusTelemetry good vin iout temp s = .next s :=
  if_pos (by
    rw [Bool.or_eq_true, Bool.not_eq_true', decide_eq_true_iff]
    exact h)

theorem execAvsResume_eq (s : State) (b : BusWrite) (hb : s.busOk Reg.avsCtrl b = true) :
    execAvsResume b s =
      let w := (s.accepted Reg.avsCtrl b).store Reg.avsCtrl b.value
      let u : State := if b.value.getLsbD 0 = false ∨ b.value.getLsbD 31 = true then
        { w with avs := { w.avs with started := false } } else w
      .next (if b.value.getLsbD 31 = true then u.clrFlag Reg.avsStatus 31 else u) := by
  unfold execAvsResume
  rw [State.busWrite_ok hb]
  unfold State.avsCtrlWrite
  simp only [Bool.or_eq_true, Bool.not_eq_true']

theorem execAvsLimitsWrite_eq (s : State) (b : BusWrite) (hb : s.busOk Reg.avsLimits b = true) :
    execAvsLimitsWrite b s =
      let vmax := bits b.value.toNat 27 16
      let vmin := bits b.value.toNat 11 0
      .next (if 1240 ≤ vmin ∧ vmin ≤ vmax ∧ vmax ≤ 1640 then (s.accepted Reg.avsLimits b).store Reg.avsLimits b.value
        else s.accepted Reg.avsLimits b) := by
  unfold execAvsLimitsWrite
  rw [State.busWrite_ok hb]
  rfl

/-- Settles O59, from the equations above. -/
theorem coreVoltageLoop : Obligations.CoreVoltageLoop := by
  unfold Obligations.CoreVoltageLoop
  refine ⟨fun s c f e acc => ?_, fun s v sl acc => s.avsStepFrom_eq v sl acc, fun s => rfl, fun s vin iout temp =>
    ⟨fun ⟨hl, ht⟩ => ⟨execPmbusTelemetry_due vin iout temp true s hl ht,
      execPmbusTelemetry_due vin iout temp false s hl ht⟩,
      fun h good => execPmbusTelemetry_idle vin iout temp good s h⟩,
    fun s b => ⟨execAvsResume_eq s b, execAvsLimitsWrite_eq s b⟩⟩
  have hmem := s.mem_slacks c f e
  refine ⟨fun h back => execAvsStep_of_not_due c f e back acc s h, fun h hst back => ?_, fun h hst => ?_,
    fun h hst mv => ?_, fun h => ?_, fun h => ?_, fun h => ?_, fun h => ?_⟩
  · exact (execAvsStep_of_due c f e back acc s h).trans (if_pos hst)
  · exact (execAvsStep_of_due c f e none acc s h).trans (if_neg (ne_true_of_eq_false hst))
  · exact (execAvsStep_of_due c f e (some mv) acc s h).trans (if_neg (ne_true_of_eq_false hst))
  · exact s.leastSlack_le c f e ((hmem _).2 (.inl ⟨h, rfl⟩))
  · exact s.leastSlack_le c f e ((hmem _).2 (.inr (.inl ⟨h, rfl⟩)))
  · exact s.leastSlack_le c f e ((hmem _).2 (.inr (.inr ⟨h, rfl⟩)))
  · have hsome : ∃ n, n ∈ s.slacks c f e := by
      rcases h with h | h | h
      · exact ⟨_, (hmem _).2 (.inl ⟨h, rfl⟩)⟩
      · exact ⟨_, (hmem _).2 (.inr (.inl ⟨h, rfl⟩))⟩
      · exact ⟨_, (hmem _).2 (.inr (.inr ⟨h, rfl⟩))⟩
    obtain ⟨n, hn⟩ := hsome
    exact (hmem _).1 (s.leastSlack_mem c f e hn)

end Sys2Proof.Machine

/-! The root clock and its domains, engine switches and clock gates (18 R382 to R390). -/
namespace Sys2Proof.Machine

open Sys2Proof.Safety

/-! ### The root and its domains (R382, R384) -/

theorem execRootLockDetect_of_unlocked (s : State) (hp : s.rst.por = false) (hl : s.clk.rootLock = false) :
    execRootLockDetect s = .next { s with clk := { s.clk with rootLock := true, lockAt := s.now } } :=
  if_neg (by rw [hp, hl]; decide)

theorem execRootLockDetect_idle (s : State) (h : s.rst.por = true ∨ s.clk.rootLock = true) :
    execRootLockDetect s = .next s :=
  if_pos ((Bool.or_eq_true _ _).mpr h)

theorem rootSettled_iff (s : State) :
    (s.clk.rootLock && !s.clk.rootStable && decide (s.clk.lockAt + 524288 ≤ s.now)) = true
      ↔ (s.clk.rootLock = true ∧ s.clk.rootStable = false) ∧ s.clk.lockAt + 524288 ≤ s.now := by
  rw [Bool.and_eq_true, Bool.and_eq_true, Bool.not_eq_true', decide_eq_true_iff]

theorem execDomainStable_idle (d : Fin 6) (s : State) (h : s.clk.rootStable = false ∨ s.clk.stable.getLsbD d.val = true) :
    execDomainStable d s = .next s :=
  if_pos (by rw [Bool.or_eq_true, Bool.not_eq_true']; exact h)

/-- The state with a domain stable. -/
def State.domainUp (s : State) (d : Nat) : State :=
  { s with clk := { s.clk with stable := s.clk.stable ||| BitVec.ofNat 6 (2 ^ d) } }

/-- When the engine domain restarted, if a native switch has restarted it (R386). -/
def State.restartAt (s : State) (d : Nat) : Option Nat :=
  match s.clk.switch with
  | some w => if d = 2 && w.restarted then some w.since else none
  | none => none

theorem State.restartAt_of_restarted {s : State} {d : Nat} {w : Switch} (hw : s.clk.switch = some w) (hd : d = 2)
    (hr : w.restarted = true) : s.restartAt d = some w.since := by
  unfold State.restartAt
  rw [hw]
  exact if_pos (by rw [hr, Bool.and_true, decide_eq_true_iff]; exact hd)

theorem State.restartAt_of_not_restarted {s : State} {d : Nat}
    (h : ¬ ∃ w, s.clk.switch = some w ∧ d = 2 ∧ w.restarted = true) : s.restartAt d = none := by
  unfold State.restartAt
  cases hw : s.clk.switch with
  | none => rfl
  | some w =>
    refine if_neg fun x => h ⟨w, hw, ?_⟩
    rw [Bool.and_eq_true, decide_eq_true_iff] at x
    exact x

theorem execDomainStable_starting (d : Fin 6) (s : State) (hr : s.clk.rootStable = true)
    (hs : s.clk.stable.getLsbD d.val = false) :
    execDomainStable d s = match s.restartAt d.val with
      | some t => if t + 16 * s.clk.engineDiv ≤ s.now then .next (s.domainUp d.val).endSwitch else .next s
      | none => if s.clk.startAt + 64 * s.domainDiv d.val ≤ s.now then .next (s.domainUp d.val) else .next s :=
  if_neg (by rw [hr, hs]; decide)

/-! ### The engine divider (R385 to R387) -/

theorem State.endSwitch_of_held (s : State) {t : Nat} (h : s.clk.held = some t) :
    s.endSwitch =
      let z : State := { s with clk := { s.clk with switch := none, held := none } }
      if t = s.clk.engineDiv then { z with clk := { z.clk with target := t } } else z.startSwitch t := by
  unfold State.endSwitch
  rw [h]

theorem State.endSwitch_of_none (s : State) (h : s.clk.held = none) :
    s.endSwitch = { s with clk := { s.clk with switch := none, held := none } } := by
  unfold State.endSwitch
  rw [h]

theorem execEngineTargetChange_idle (s : State)
    (h : s.clk.rootStable = false ∨ s.engineTarget = s.clk.held.getD s.clk.target) :
    execEngineTargetChange s = .next s :=
  if_pos (by rw [Bool.or_eq_true, Bool.not_eq_true', decide_eq_true_iff]; exact h)

theorem execEngineTargetChange_new (s : State) (hr : s.clk.rootStable = true)
    (ht : s.engineTarget ≠ s.clk.held.getD s.clk.target) :
    execEngineTargetChange s = if s.clk.switch.isSome then
        .next { s with clk := { s.clk with held := some s.engineTarget } }
      else .next (s.startSwitch s.engineTarget) :=
  if_neg (by rw [hr, Bool.not_true, Bool.false_or, decide_eq_true_iff]; exact ht)

theorem execQuiesceDone_of_switch (s : State) {w : Switch} (hw : s.clk.switch = some w) :
    execQuiesceDone s = if !w.ramp && !w.restarted then
      .next { s with clk := { s.clk with
        engineDiv := w.target, stable := s.clk.stable &&& 0x3B
        switch := some { w with restarted := true, since := s.now } } }
      else .next s := by
  unfold execQuiesceDone
  rw [hw]

theorem execQuiesceDone_of_none (s : State) (hw : s.clk.switch = none) : execQuiesceDone s = .next s := by
  unfold execQuiesceDone
  rw [hw]

theorem execRatioRampStep_of_none (s : State) (hw : s.clk.switch = none) : execRatioRampStep s = .next s := by
  unfold execRatioRampStep
  rw [hw]

theorem execRatioRampStep_of_switch (s : State) {w : Switch} (hw : s.clk.switch = some w) :
    execRatioRampStep s =
      if w.ramp && w.since + 64 * s.clk.engineDiv ≤ s.now then
        let d := if s.clk.engineDiv < w.target then s.clk.engineDiv + 1 else s.clk.engineDiv - 1
        let z : State := { s with clk := { s.clk with engineDiv := d, switch := some { w with since := s.now } } }
        .next (if d = w.target then z.endSwitch else z)
      else .next s := by
  unfold execRatioRampStep
  rw [hw]

/-! ### Gates (R388 to R390) -/

theorem execClkGateWrite_eq (s : State) (g : Fin 2) (b : BusWrite)
    (hb : s.busOk (if g = 0 then Reg.clkGate0 else Reg.clkGate1) b = true) :
    execClkGateWrite g b s = .next ((List.range 32).foldl (fun s i =>
      let k := 32 * g.val + i
      if gateable k = false then s
      else if b.value.getLsbD i = false then s.gateFree k
      else if s.up k = false ∨ s.blockFlag Reg.clkGate0 Reg.clkGate1 k = true then s
      else
        let z := s.setBlockFlag Reg.clkGate0 Reg.clkGate1 k
        { z with clk := { z.clk with gateAt := SMap.ins z.clk.gateAt k z.now } })
      (s.accepted (if g = 0 then Reg.clkGate0 else Reg.clkGate1) b)) := by
  have hreg : (if g.val = 0 then Reg.clkGate0 else Reg.clkGate1) = if g = 0 then Reg.clkGate0 else Reg.clkGate1 :=
    if_congr (Fin.ext_iff (b := 0)).symm rfl rfl
  unfold execClkGateWrite
  rw [hreg, State.busWrite_ok hb]
  unfold State.gateWrite
  simp only [Bool.not_eq_true', Bool.or_eq_true]

theorem State.gateFree_of_gated (s : State) (k : Nat) (h : s.gated k = true) :
    let z := (s.clrBlockFlag Reg.clkGate0 Reg.clkGate1 k).clrBlockFlag Reg.clkGateClosed0 Reg.clkGateClosed1 k
    s.gateFree k = { z with clk := { z.clk with
      gateAt := SMap.del z.clk.gateAt k
      resume := SMap.ins (SMap.del z.clk.resume k) k (s.now + 4 * s.domainDiv (itemDomain k)) } } :=
  if_pos h

theorem State.gateFree_of_open (s : State) (k : Nat) (h : s.gated k = false) :
    s.gateFree k = if s.resuming k then s else s.gateOpen k :=
  if_neg (ne_true_of_eq_false h)

theorem execGateClose_of_none (k : Fin 36) (s : State) (h : s.gateDue k.val = none) : execGateClose k s = .next s :=
  if_neg (by rw [h]; nofun)

theorem execGateClose_of_due (k : Fin 36) (s : State) {t : Nat} (h : s.gateDue k.val = some t) :
    execGateClose k s = if s.accessWaits k.val = true then .next s else .next (s.gateShut k.val) := by
  unfold execGateClose
  rw [h]
  cases s.accessWaits k.val <;> rfl

theorem execGateTimeout_of_none (k : Fin 36) (s : State) (h : s.gateDue k.val = none) : execGateTimeout k s = .next s := by
  unfold execGateTimeout
  dsimp only
  rw [h]

theorem execGateTimeout_of_due (k : Fin 36) (s : State) {t : Nat} (h : s.gateDue k.val = some t) :
    execGateTimeout k s = if t + 8192 ≤ s.now then
      .next ((((State.gateShut ((s.clk.waiting.filter fun a => blockOf a.off == k.val).foldl
        (fun (s : State) a => s.busError a.master.val a.off a.write.isSome)
        { s with clk := { s.clk with waiting := s.clk.waiting.filter fun a => blockOf a.off != k.val } }) k.val).setBlockFlag
          Reg.clkGateTo0 Reg.clkGateTo1 k.val).event 10))
      else .next s := by
  unfold execGateTimeout
  dsimp only
  rw [h]

/-- Settles O55, command by command from the equations above. -/
theorem clocksSettleSwitchAndGate : Obligations.ClocksSettleSwitchAndGate := by
  unfold Obligations.ClocksSettleSwitchAndGate
  refine ⟨fun s => ⟨fun ⟨hp, hl⟩ => execRootLockDetect_of_unlocked s hp hl, execRootLockDetect_idle s,
      ⟨fun h => if_pos ((rootSettled_iff s).2 h), fun h => if_neg fun x => h ((rootSettled_iff s).1 x)⟩,
      fun h => if_neg (ne_true_of_eq_false h), fun d => ⟨execDomainStable_idle d s, fun hr hs => ⟨fun w hw hd hre => ?_,
        fun hno => ?_⟩⟩⟩,
    fun s => ⟨s.endSwitch_of_none, fun t => s.endSwitch_of_held⟩,
    fun s => ⟨execEngineTargetChange_idle s, fun hr ht hsw => ?_, fun hr ht hsw => ?_,
      fun hsw => ⟨execQuiesceDone_of_none s hsw, execRatioRampStep_of_none s hsw⟩, fun w hw => ?_⟩,
    fun s g b hb => execClkGateWrite_eq s g b hb,
    fun s k => ⟨s.gateFree_of_gated k, fun hg hres => (s.gateFree_of_open k hg).trans (if_pos hres),
      fun hg hres => (s.gateFree_of_open k hg).trans (if_neg (ne_true_of_eq_false hres))⟩,
    fun s k => ⟨fun h => ⟨execGateClose_of_none k s h, execGateTimeout_of_none k s h⟩,
      fun t h => ⟨fun hw => ?_, fun hw => ?_, fun ht => ?_, fun ht => ?_⟩⟩⟩
  · refine (execDomainStable_starting d s hr hs).trans ?_
    rw [State.restartAt_of_restarted hw hd hre]
    exact (apply_ite _ _ _ _).symm
  · refine (execDomainStable_starting d s hr hs).trans ?_
    rw [State.restartAt_of_not_restarted hno]
    exact (apply_ite _ _ _ _).symm
  · exact (execEngineTargetChange_new s hr ht).trans (if_pos (Option.isSome_iff_ne_none.2 hsw))
  · exact (execEngineTargetChange_new s hr ht).trans (if_neg (by rw [hsw]; nofun))
  · have hq := execQuiesceDone_of_switch s hw
    have hramp := execRatioRampStep_of_switch s hw
    refine ⟨fun ⟨h1, h2⟩ => hq.trans (if_pos (by rw [h1, h2]; rfl)), fun h => hq.trans (if_neg ?_),
      fun h => hramp.trans (if_neg ?_), fun h1 h2 => hramp.trans (if_pos ?_)⟩
    · rw [Bool.and_eq_true, Bool.not_eq_true', Bool.not_eq_true']
      rintro ⟨h1, h2⟩
      exact h.elim (fun h => absurd (h1.symm.trans h) nofun) fun h => absurd (h2.symm.trans h) nofun
    · rw [Bool.and_eq_true, decide_eq_true_iff]
      rintro ⟨h1, h2⟩
      exact h.elim (fun h => absurd (h1.symm.trans h) nofun) fun h => absurd h2 (Nat.not_le.2 h)
    · rw [h1, Bool.true_and, decide_eq_true_iff]
      exact h2
  · exact (execGateClose_of_due k s h).trans (if_neg (ne_true_of_eq_false hw))
  · exact (execGateClose_of_due k s h).trans (if_pos hw)
  · exact (execGateTimeout_of_due k s h).trans (if_pos ht)
  · exact (execGateTimeout_of_due k s h).trans (if_neg (Nat.not_le.2 ht))

end Sys2Proof.Machine

/-! The reset sources and the releases (18 R391 to R401; 15 R330; 20 R414). -/
namespace Sys2Proof.Machine

open Sys2Proof.Safety

theorem State.accepted_rst (s : State) (off : Nat) (b : BusWrite) : (s.accepted off b).rst = s.rst := by
  rw [s.accepted_frame]

/-! ### The pins and the option loader (R391, R397, R401; 15 R330) -/

/-- The state with the nRST pin low. -/
def State.nrstLow (s : State) : State := { s with rst := { s.rst with nrstPin := false } }

theorem execNrst_of_held (s : State) (h : s.rst.por = true ∨ s.rst.nrst = true) : execNrst s = .next s.nrstLow :=
  if_pos ((Bool.or_eq_true _ _).mpr h)

theorem execNrst_of_free (s : State) (hp : s.rst.por = false) (hn : s.rst.nrst = false) :
    execNrst s = .next (let t := s.nrstLow.wideReset false 3; { t with rst := { t.rst with nrst := true } }) :=
  if_neg (by
    show ¬ (s.rst.por || s.rst.nrst) = true
    rw [hp, hn]
    decide)

/-- The state with PERST# asserted. -/
def State.perstLow (s : State) : State := { s with rst := { s.rst with perst := true } }

theorem execPerst_of_low (s : State) (h : s.rst.perst = true) : execPerst s = .next s := if_pos h

theorem execPerst_of_high (s : State) (h : s.rst.perst = false) :
    execPerst s = if s.rst.por = true then .next s.perstLow
      else .next ((s.perstLow.endpointReset.cause 7).event 35) :=
  if_neg (ne_true_of_eq_false h)

theorem execPorRelease_of_ready (s : State) (hp : s.rst.por = true) (hn : s.rst.nrstPin = true) :
    execPorRelease s = .next { s with rst := { s.rst with por := false } } :=
  if_pos (by rw [hp, hn]; rfl)

theorem execPorRelease_idle (s : State) (h : s.rst.por = false ∨ s.rst.nrstPin = false) : execPorRelease s = .next s :=
  if_neg (by rcases h with h | h <;> simp [h])

theorem execFlr_eq (s : State) : execFlr s =
    .next (if s.hostPath = true then (s.endpointReset.cause 8).setReg Reg.hstLink (s.reg Reg.hstLink) else s) := by
  unfold execFlr
  cases s.hostPath <;> rfl

theorem execPerstRelease_eq (s : State) : execPerstRelease s =
    .next (let high : State := { s with rst := { s.rst with perst := false } }
      if high.canRelease 37 = true then high.releaseItem 37 [] [] else high) :=
  (next_ite _ _ _).symm

/-- The option loader can run: no wide source stands, the slow domain is stable, nothing is loaded (R397). -/
theorem optionLoaderDue_iff (s : State) :
    (s.rst.por || s.rst.nrst || s.rst.loaded || !s.clk.stable.getLsbD 5) = true
      ↔ ¬ ((s.rst.por = false ∧ s.rst.nrst = false) ∧ s.rst.loaded = false ∧ s.clk.stable.getLsbD 5 = true) := by
  simp only [Bool.or_eq_true, Bool.not_eq_true', not_and_or, Bool.not_eq_false, Bool.not_eq_true, or_assoc]

/-! ### Releases (R395 to R398) -/

theorem execBlockRelease_of_held (i : Fin 40) (copyA copyB : List Byte) (s : State) (h : s.canRelease i.val = false) :
    execBlockRelease i copyA copyB s = .next s :=
  if_pos (by rw [h]; rfl)

theorem execBlockRelease_of_free (i : Fin 40) (copyA copyB : List Byte) (s : State) (h : s.canRelease i.val = true) :
    execBlockRelease i copyA copyB s = if earlyItems.contains i.val then
      .next (earlyItems.foldl (fun s j => if s.canRelease j then s.releaseItem j copyA copyB else s) s)
      else .next (s.releaseItem i.val copyA copyB) :=
  if_neg (by rw [h]; decide)

theorem execBootHoldRelease_eq (s : State) (b : BusWrite) (hb : s.busOk Reg.rstBootHold b = true) :
    execBootHoldRelease b s =
      let z := s.accepted Reg.rstBootHold b
      let free : State := { z with rst := { z.rst with boot := 0, bootHold := false } }
      .next (if (b.master.val = 0 ∧ b.value.getLsbD 31 = true) ∧ s.rst.bootHold = true then
        ((List.range 36).foldl (fun s k => if s.canRelease k then s.releaseItem k [] [] else s) free).event 11 else z) := by
  unfold execBootHoldRelease
  rw [State.busWrite_ok hb]
  unfold State.bootHoldWrite
  simp only [State.accepted_rst, Bool.and_eq_true, decide_eq_true_eq]

theorem execRstBlockWrite_eq (s : State) (g : Fin 2) (b : BusWrite)
    (hb : s.busOk (if g = 0 then Reg.rstBlock0 else Reg.rstBlock1) b = true) :
    execRstBlockWrite g b s =
      let off := if g = 0 then Reg.rstBlock0 else Reg.rstBlock1
      let fixed : Word := if g = 0 ∧ b.master.val ≠ 0 then 0x0C000000 else 0
      let z := s.accepted off b
      let old := z.reg off
      let w := z.store off ((b.value &&& ~~~ fixed) ||| (old &&& fixed))
      let new := w.reg off
      let rise := (new &&& ~~~ old).toNat * 2 ^ (32 * g.val)
      let fall := (old &&& ~~~ new).toNat * 2 ^ (32 * g.val)
      let u : State := { w with rst := { w.rst with
        written := (w.rst.written &&& ~~~ BitVec.ofNat 36 rise) ||| BitVec.ofNat 36 fall } }
      let fresh := BitVec.ofNat 40 rise &&& ~~~ u.rst.held
      .next ((List.range 32).foldl (fun s i =>
        let k := 32 * g.val + i
        if fall.testBit k = true ∧ s.canRelease k = true then s.releaseItem k [] [] else s)
        (if fresh = 0 then u else u.assertReset fresh false true)) := by
  have hg : g.val = 0 ↔ g = 0 := (Fin.ext_iff (b := 0)).symm
  unfold execRstBlockWrite
  simp only [hg]
  rw [State.busWrite_ok hb]
  unfold State.rstBlockWrite
  simp only [hg, Bool.and_eq_true, decide_eq_true_eq, bne_iff_ne]

/-! ### Sources written in registers (R391, R400; 20 R414) -/

theorem execSecReset_eq (s : State) (b : BusWrite) (hb : s.busOk Reg.secCtrl b = true) :
    execSecReset b s =
      .next (if (b.master.val = 0 ∧ b.value.getLsbD 0 = true) ∧ bits b.value.toNat 31 16 = 0x5352 then
        (s.accepted Reg.secCtrl b).wideReset true 4 else s.accepted Reg.secCtrl b) := by
  unfold execSecReset
  rw [State.busWrite_ok hb]
  unfold State.secCtrlWrite
  simp only [Bool.and_eq_true, decide_eq_true_eq]

theorem execRstDeviceGo_eq (s : State) (b : BusWrite) (hb : s.busOk Reg.rstDevice b = true) :
    execRstDeviceGo b s =
      .next (if ((b.master.val = 0 ∨ b.master.val = 16) ∧ b.value.getLsbD 0 = true) ∧ bits b.value.toNat 31 16 = 0x5253 then
        (s.accepted Reg.rstDevice b).narrowReset 6 else s.accepted Reg.rstDevice b) := by
  unfold execRstDeviceGo
  rw [State.busWrite_ok hb]
  unfold State.rstDeviceWrite
  simp only [Bool.and_eq_true, Bool.or_eq_true, decide_eq_true_eq]

theorem State.accepted_lifecycle (s : State) (off : Nat) (b : BusWrite) : (s.accepted off b).lifecycle = s.lifecycle := by
  rw [s.accepted_frame]
  rfl

theorem execLifecycleAdvance_eq (s : State) (b : BusWrite) (hb : s.busOk Reg.secLifecycle b = true) :
    execLifecycleAdvance b s =
      let z := s.accepted Reg.secLifecycle b
      let l := s.lifecycle
      let bit := if 2 ≤ l then 2 else if 1 ≤ l then 1 else 0
      .next (if ((b.master.val = 0 ∧ b.value.getLsbD 4 = true) ∧ bits b.value.toNat 31 16 = 0x4C43) ∧ l < 4 then
        (z.otpProgram 96 bit).wideReset true 4 else z) := by
  unfold execLifecycleAdvance
  rw [State.busWrite_ok hb]
  unfold State.lifecycleWrite State.isDead
  simp only [State.accepted_lifecycle, Bool.and_eq_true, Bool.not_eq_true', decide_eq_true_eq, decide_eq_false_iff_not,
    not_le]

/-- Settles O56, command by command from the equations above. -/
theorem resetSourcesAndReleases : Obligations.ResetSourcesAndReleases := by
  unfold Obligations.ResetSourcesAndReleases
  refine ⟨fun s => ⟨rfl, fun h => if_pos h, fun ⟨hp, hn⟩ => execPorRelease_of_ready s hp hn, execPorRelease_idle s,
      ⟨execNrst_of_held s, fun ⟨hp, hn⟩ => execNrst_of_free s hp hn⟩, rfl,
      ⟨execPerst_of_low s, fun ⟨h, hp⟩ => (execPerst_of_high s h).trans (if_pos hp),
        fun ⟨h, hp⟩ => (execPerst_of_high s h).trans (if_neg (ne_true_of_eq_false hp))⟩,
      execPerstRelease_eq s, execFlr_eq s,
      ⟨fun h => if_neg fun x => (optionLoaderDue_iff s).1 x h, fun h => if_pos ((optionLoaderDue_iff s).2 h)⟩,
      fun i copyA copyB => ⟨execBlockRelease_of_held i copyA copyB s, fun hc hi => ?_, fun hc hi => ?_⟩⟩,
    fun s b => ⟨execSecReset_eq s b, execRstDeviceGo_eq s b, execLifecycleAdvance_eq s b, execBootHoldRelease_eq s b⟩,
    fun s g b => execRstBlockWrite_eq s g b⟩
  · exact (execBlockRelease_of_free i copyA copyB s hc).trans (if_neg fun x => hi (List.contains_iff_mem.1 x))
  · exact (execBlockRelease_of_free i copyA copyB s hc).trans (if_pos (List.contains_iff_mem.2 hi))

end Sys2Proof.Machine

/-! The temperature sources, the ask, the stages and the trip (19 R406 to R411). -/
namespace Sys2Proof.Machine

open Sys2Proof.Safety

/-! ### Sources (R406 to R408) -/

theorem usCc_hundred : usCc 100 = 160000 := rfl

theorem msCc_hundred : msCc 100 = 160000000 := rfl

/-- A conversion of the sensor is due (R406). -/
def State.SensorDue (s : State) (k : Nat) : Prop :=
  s.live 30 = true ∧ ∀ t, (s.source k).at_ = some t → t + (if s.sensorFast k = true then 160000 else 1600000) ≤ s.now

theorem not_sensorDue_iff (s : State) (k : Nat) :
    (!s.live 30 || !match (s.source k).at_ with
      | none => true
      | some t => decide (t + (if s.sensorFast k then usCc 100 else msCc 1) ≤ s.now)) = true ↔ ¬ s.SensorDue k := by
  unfold State.SensorDue
  cases s.live 30 <;> cases (s.source k).at_ <;> simp [usCc_hundred, msCc]

theorem execSensorConversion_of_not_due (k : Fin 32) (raw : Word) (temp : Option (BitVec 16)) (s : State)
    (h : ¬ s.SensorDue k.val) : execSensorConversion k raw temp s = .next s :=
  if_pos ((not_sensorDue_iff s k.val).2 h)

theorem execSensorConversion_of_due (k : Fin 32) (raw : Word) (temp : Option (BitVec 16)) (s : State)
    (h : s.SensorDue k.val) :
    execSensorConversion k raw temp s = match temp with
      | none => .next (((s.setSource k.val { s.source k.val with at_ := some s.now }).markBad k.val).thmRefresh)
      | some t =>
        let same := if (s.source k.val).seen && (s.source k.val).raw == raw then (s.source k.val).same + 1 else 0
        let z := s.setSource k.val { s.source k.val with
          seen := true, raw := raw, same := same, last := t.toInt, at_ := some s.now }
        .next ((if outOfRange t.toInt || 1024 ≤ same then z.markBad k.val else z).thmRefresh) :=
  if_neg fun x => (not_sensorDue_iff s k.val).1 x h

theorem outOfRange_iff (t : Int) : outOfRange t = true ↔ t < -640 ∨ 2400 < t := by
  unfold outOfRange
  rw [Bool.or_eq_true, decide_eq_true_iff, decide_eq_true_iff]

/-- A timer of the block that has not come up. -/
theorem timerIdle_iff (s : State) (e : Nat) :
    (!s.live 30 || decide (s.now < e)) = true ↔ s.live 30 = false ∨ s.now < e := by
  rw [Bool.or_eq_true, Bool.not_eq_true', decide_eq_true_iff]

theorem timerIdle_of_due {s : State} {e : Nat} (h : s.live 30 = true ∧ e ≤ s.now) :
    ¬ (!s.live 30 || decide (s.now < e)) = true := by
  rw [timerIdle_iff]
  exact fun x => x.elim (ne_false_of_eq_true h.1) (Nat.not_lt.2 h.2)

theorem execRateTest_idle (s : State) (h : s.live 30 = false ∨ s.now < s.thm.rateAt + 160000000) :
    execRateTest s = .next s :=
  if_pos (by rw [msCc_hundred]; exact (timerIdle_iff s _).2 h)

/-- The rate test of one source (R408). -/
def State.testRate (rate : Int) (s : State) (k : Nat) : State :=
  let c := s.source k
  if s.sourceValid k = false then s.setSource k { c with hist := [], passes := 0 }
  else
    let pass := c.hist[9]?.any fun old => decide (old + rate ≤ s.sourceT k)
    s.setSource k { c with
      hist := (s.sourceT k :: c.hist).take 10, passes := if pass = true then c.passes + 1 else 0 }

theorem execRateTest_of_due (s : State) (h : s.live 30 = true ∧ s.thm.rateAt + 160000000 ≤ s.now) :
    execRateTest s =
      let z := (List.range 48).foldl (State.testRate (bits s.thm.lim.rate.toNat 15 8))
        { s with thm := { s.thm with rateAt := s.now } }
      .next (z.setFld Reg.thmStatus 29 29 (bnat z.rateStands)) := by
  have htest : (fun (s' : State) k =>
      let c := s'.source k
      if !s'.sourceValid k then s'.setSource k { c with hist := [], passes := 0 }
      else
        let t := s'.sourceT k
        let pass : Bool := match c.hist[9]? with
          | some old => decide (old + (bits s.thm.lim.rate.toNat 15 8 : Int) ≤ t) | none => false
        s'.setSource k { c with hist := (t :: c.hist).take 10, passes := cond pass (c.passes + 1) 0 })
      = State.testRate (bits s.thm.lim.rate.toNat 15 8) := by
    funext s' k
    unfold State.testRate
    simp only [Bool.not_eq_true', Bool.cond_eq_ite]
    cases (s'.source k).hist[9]? <;> rfl
  refine (if_neg (by rw [msCc_hundred]; exact timerIdle_of_due h)).trans ?_
  rw [← htest]
  rfl

theorem execThmBadClear_eq (tiles : Bool) (b : BusWrite) (s : State)
    (hb : s.busOk (if tiles = true then Reg.thmBad1 else Reg.thmBad0) b = true) :
    execThmBadClear tiles b s =
      let off := if tiles = true then Reg.thmBad1 else Reg.thmBad0
      let z := s.accepted off b
      .next (State.thmRefresh ((List.range 32).foldl (fun u k =>
        if ((z.reg off).getLsbD k = true ∧ u.flag off k = false) ∧ tiles = false then
          u.setSource k { u.source k with same := 0 } else u) (z.store off b.value))) := by
  unfold execThmBadClear
  rw [State.busWrite_ok hb]
  unfold State.thmBadWrite
  simp only [Bool.and_eq_true, Bool.not_eq_true']

/-! ### The tick (R407, R409 to R411) -/

theorem match_eq_all (o : Option Nat) (p : Nat → Bool) :
    (match o with | some x => p x | none => true) = o.all p := by
  cases o <;> rfl

theorem match_eq_any (o : Option Nat) (p : Nat → Bool) :
    (match o with | some x => p x | none => false) = o.any p := by
  cases o <;> rfl

/-- A linked tile that has been silent for 100 ms, or whose temperature is out of range, is bad (R407). -/
def State.judgeTile (s : State) (n : Nat) : State :=
  let old := (s.tile n).statusAt.all fun x => decide (x + 160000000 < s.now)
  if (s.tile n).st = .linked ∧ (old = true ∨ s.sourceT (32 + n) < -640 ∨ 2400 < s.sourceT (32 + n)) then
    s.markBad (32 + n) else s

theorem execThmTick_idle (s : State) (h : s.live 30 = false ∨ s.now < s.thm.tickAt + 160000) :
    execThmTick s = .next s :=
  if_pos (by rw [usCc_hundred]; exact (timerIdle_iff s _).2 h)

theorem execThmTick_of_due (s : State) (h : s.live 30 = true ∧ s.thm.tickAt + 160000 ≤ s.now) :
    execThmTick s =
      let lim : ThmLim := {
        ctrl := s.regBefore Reg.thmCtrl, timing := s.regBefore Reg.thmTiming, die := s.regBefore Reg.thmDieLim
        tile := s.regBefore Reg.thmTileLim, rate := s.regBefore Reg.thmRate }
      let z := (List.range 16).foldl State.judgeTile { s with thm := { s.thm with lim := lim, tickAt := s.now } }
      .next (z.thmRefresh.askTick.stageTick.tripTick) := by
  have hjudge : (fun (s : State) n =>
      let t := s.tile n
      let old := match t.statusAt with | some x => decide (x + msCc 100 < s.now) | none => true
      if t.st == .linked && (old || outOfRange (s.sourceT (32 + n))) then s.markBad (32 + n) else s)
      = State.judgeTile := by
    funext s n
    unfold State.judgeTile
    refine if_congr ?_ rfl rfl
    have hold : (match (s.tile n).statusAt with | some x => decide (x + msCc 100 < s.now) | none => true)
        = (s.tile n).statusAt.all fun x => decide (x + 160000000 < s.now) := by
      rw [← msCc_hundred]
      exact match_eq_all _ fun x => decide (x + msCc 100 < s.now)
    rw [Bool.and_eq_true, Bool.or_eq_true, outOfRange_iff, beq_iff_eq, hold]
  refine (if_neg (by rw [usCc_hundred]; exact timerIdle_of_due h)).trans ?_
  rw [← hjudge]
  rfl

theorem State.askTick_of_none (s : State) (h : s.thm.askAt = none) :
    s.askTick = if (s.anyAt 0 = true ∨ s.rateStands = true) ∨ s.badSources ≠ [] then
      (State.setFlag { s with thm := { s.thm with askAt := some s.now, escAt := s.now } } Reg.thmStatus 30).event 0
      else s := by
  unfold State.askTick
  rw [h]
  simp only [Bool.or_eq_true, Bool.not_eq_true', List.isEmpty_eq_false_iff, ne_eq]

theorem State.askTick_of_some (s : State) (h : s.thm.askAt ≠ none) :
    s.askTick = if (s.rateStands = false ∧ s.badSources = [])
        ∧ ((List.range 48).all fun k => !s.sourceIn k || decide (s.sourceValue k < s.thmLimit k 0 - s.thmHyst)) = true then
      State.clrFlag { s with thm := { s.thm with askAt := none, askEnd := s.now } } Reg.thmStatus 30 else s := by
  obtain ⟨t, ht⟩ := Option.ne_none_iff_exists'.1 h
  unfold State.askTick
  rw [ht]
  simp only [Bool.and_eq_true, Bool.not_eq_true', List.isEmpty_iff]
  rfl

/-- The ask has been over, and the stage has not moved down, for the quiet time (R410). -/
def State.Quiet (s : State) : Prop :=
  s.thm.askAt = none
    ∧ max s.thm.askEnd s.thm.downAt + 1600000 * max 1 (bits s.thm.lim.timing.toNat 15 0) ≤ s.now

theorem quiet_iff (s : State) :
    (s.thm.askAt.isNone
      && decide (max s.thm.askEnd s.thm.downAt + msCc (max 1 (bits s.thm.lim.timing.toNat 15 0)) ≤ s.now)) = true
      ↔ s.Quiet := by
  rw [Bool.and_eq_true, Option.isNone_iff_eq_none, decide_eq_true_iff]
  exact Iff.rfl

theorem State.stageTick_of_zero (s : State) (h : s.thmStage = 0) :
    let grace := s.thm.askAt.any fun t => decide (t + 1600000 * bits s.thm.lim.ctrl.toNat 15 0 ≤ s.now)
    s.stageTick = if (grace = true ∨ 2 ≤ s.badSources.length) ∨ s.flag Reg.avsStatus 31 = true then
      (State.setStage { s with thm := { s.thm with escAt := s.now } } 1).event 1 else s := by
  intro grace
  refine (if_pos h).trans (if_congr ?_ rfl rfl)
  rw [Bool.or_eq_true, Bool.or_eq_true, decide_eq_true_iff]
  have hgrace := match_eq_any s.thm.askAt fun t => decide (t + msCc (bits s.thm.lim.ctrl.toNat 15 0) ≤ s.now)
  exact or_congr (or_congr (Eq.to_iff (congrArg (· = true) hgrace)) Iff.rfl) Iff.rfl

theorem State.stageTick_of_one (s : State) (h : s.thmStage = 1) :
    s.stageTick =
      if (s.anyAt 8 || (s.thm.askAt.isSome && decide (s.thm.escAt + msCc (bits s.thm.lim.timing.toNat 31 16) ≤ s.now)))
          = true then (s.setStage 2).event 2
      else if (s.thm.askAt.isNone
          && decide (max s.thm.askEnd s.thm.downAt + msCc (max 1 (bits s.thm.lim.timing.toNat 15 0)) ≤ s.now)
          && !s.flag Reg.avsStatus 31) = true then
        (State.setStage { s with thm := { s.thm with downAt := s.now } } 0).event 4
      else s :=
  (if_neg (by rw [h]; decide)).trans (if_pos h)

theorem State.stageTick_of_two (s : State) (h : 2 ≤ s.thmStage) :
    s.stageTick = if (s.thm.askAt.isNone
          && decide (max s.thm.askEnd s.thm.downAt + msCc (max 1 (bits s.thm.lim.timing.toNat 15 0)) ≤ s.now)
          && !s.tlk.trip) = true then
        (State.setStage { s with thm := { s.thm with downAt := s.now } } 1).event 1
      else s :=
  (if_neg (by omega)).trans (if_neg (by omega))

/-- The ask has stood for the time to escalate (R410). -/
theorem escalates_iff (s : State) :
    (s.anyAt 8 || (s.thm.askAt.isSome && decide (s.thm.escAt + msCc (bits s.thm.lim.timing.toNat 31 16) ≤ s.now))) = true
      ↔ s.anyAt 8 = true
        ∨ (s.thm.askAt ≠ none ∧ s.thm.escAt + 1600000 * bits s.thm.lim.timing.toNat 31 16 ≤ s.now) := by
  rw [Bool.or_eq_true, Bool.and_eq_true, decide_eq_true_iff, Option.isSome_iff_ne_none]
  exact Iff.rfl

/-! ### The trip (R411) -/

/-- A cause of a trip (R411). -/
def State.Hot (s : State) : Prop :=
  (s.dieBad = true ∨ s.compFires = true)
    ∨ ((List.range 48).any fun k => s.sourceValid k && decide (s.thmLimit k 16 ≤ s.sourceT k)) = true

theorem tripStarts_iff (s : State) :
    ((s.dieBad || s.compFires || allSources.any fun k => s.sourceValid k && s.thmLimit k 16 ≤ s.sourceT k)
      && !s.flag Reg.thmStatus 31) = true ↔ s.Hot ∧ s.flag Reg.thmStatus 31 = false := by
  rw [Bool.and_eq_true, Bool.or_eq_true, Bool.or_eq_true, Bool.not_eq_true']
  exact Iff.rfl

theorem State.tripTick_of_starts (s : State) (h : s.Hot ∧ s.flag Reg.thmStatus 31 = false) : s.tripTick = s.tripNow :=
  if_pos ((tripStarts_iff s).2 h)

theorem State.tripTick_of_no_trip (s : State) (h : ¬ (s.Hot ∧ s.flag Reg.thmStatus 31 = false))
    (ht : s.tlk.trip = false) : s.tripTick = s :=
  (if_neg fun x => h ((tripStarts_iff s).1 x)).trans (if_pos (by rw [ht]; rfl))

/-- A source that takes part is not below TRIP less HYST, or none is. -/
def State.cool (s : State) : Bool :=
  allSources.all fun k => !s.sourceValid k || decide (s.sourceT k < s.thmLimit k 16 - s.thmHyst)

theorem State.tripTick_of_trip (s : State) (h : ¬ (s.Hot ∧ s.flag Reg.thmStatus 31 = false)) (ht : s.tlk.trip = true) :
    let since := s.thm.coolAt.getD s.now
    let z : State := { s with thm := { s.thm with coolAt := if s.cool = true then some since else none } }
    s.tripTick = if ((s.cool = true ∧ since + 1600000000 ≤ s.now) ∧ s.compFires = false ∧ s.dieBad = false)
        ∧ (s.flag Reg.thmCtrl 30 = false ∨ s.thm.tripClr = true) then
      State.clrFlag { z with tlk := { z.tlk with trip := false } } Reg.thmStatus 31 else z := by
  intro since z
  have hsec : msCc 1000 = 1600000000 := rfl
  have hlong : (match if s.cool = true then some since else none with
      | some t => decide (t + msCc 1000 ≤ s.now) | none => false) = true
      ↔ s.cool = true ∧ since + 1600000000 ≤ s.now := by
    rw [hsec]
    cases s.cool
    · exact ⟨nofun, fun x => absurd x.1 nofun⟩
    · exact decide_eq_true_iff.trans ⟨fun x => ⟨rfl, x⟩, fun x => x.2⟩
  refine (if_neg fun x => h ((tripStarts_iff s).1 x)).trans ((if_neg (by rw [ht]; decide)).trans (if_congr ?_ rfl rfl))
  rw [Bool.and_eq_true, Bool.and_eq_true, Bool.and_eq_true, Bool.or_eq_true, Bool.not_eq_true', Bool.not_eq_true',
    Bool.not_eq_true']
  exact and_congr ((and_congr_left' (and_congr_left' hlong)).trans and_assoc) Iff.rfl

theorem execComparatorFire_eq (k : Fin 32) (temp : BitVec 16) (s : State) :
    let limit : Int := if s.up 30 = true then s.thmLimit 0 16 else 1888
    let z := s.setSource k.val { s.source k.val with fires := decide (limit ≤ temp.toInt) }
    execComparatorFire k temp s =
      .next (if temp.toInt < limit then z
        else if s.up 30 = true then (if s.flag Reg.thmStatus 31 = true then z else z.tripNow)
        else if s.tlk.trip = true then z else z.tlkTrip) := by
  intro limit z
  have hfires : (!decide (limit ≤ temp.toInt)) = true ↔ temp.toInt < limit := by
    rw [Bool.not_eq_true', decide_eq_false_iff_not, not_le]
  have hreset : (16 : Int) * 118 = 1888 := rfl
  unfold execComparatorFire
  rw [next_ite, next_ite, hreset]
  exact if_congr hfires rfl rfl

theorem execTripClr_eq (s : State) (b : BusWrite) (hb : s.busOk Reg.thmCtrl b = true) :
    execTripClr b s =
      let z := (s.accepted Reg.thmCtrl b).store Reg.thmCtrl b.value
      .next (if b.value.getLsbD 31 = true ∧ z.tlk.trip = true then { z with thm := { z.thm with tripClr := true } }
        else z) := by
  unfold execTripClr
  rw [State.busWrite_ok hb]
  unfold State.thmCtrlWrite
  simp only [Bool.and_eq_true]

/-- Settles O58, from the equations above. -/
theorem thermalSourcesStagesAndTrips : Obligations.ThermalSourcesStagesAndTrips := by
  unfold Obligations.ThermalSourcesStagesAndTrips
  refine ⟨fun s => ⟨fun k raw temp => ⟨execSensorConversion_of_not_due k raw temp s,
        execSensorConversion_of_due k raw none s, fun h t => ?_⟩,
      ⟨execRateTest_of_due s, execRateTest_idle s⟩, ⟨execThmTick_of_due s, execThmTick_idle s⟩,
      fun k temp => execComparatorFire_eq k temp s⟩,
    fun s => ⟨s.askTick_of_none, s.askTick_of_some⟩,
    fun s => ⟨s.stageTick_of_zero, fun h => (s.stageTick_of_one h).trans ?_, fun h => (s.stageTick_of_two h).trans ?_⟩,
    fun s => ⟨s.tripTick_of_starts, s.tripTick_of_no_trip, s.tripTick_of_trip, rfl⟩,
    fun s b => execTripClr_eq s b, fun s tiles b => execThmBadClear_eq tiles b s⟩
  · refine (execSensorConversion_of_due k raw (some t) s h).trans ?_
    simp only [Bool.and_eq_true, Bool.or_eq_true, outOfRange_iff, decide_eq_true_eq, beq_iff_eq]
  · refine if_congr (escalates_iff s) rfl (if_congr ?_ rfl rfl)
    rw [Bool.and_eq_true, quiet_iff, Bool.not_eq_true', ← Bool.not_eq_true]
    exact Iff.rfl
  · refine if_congr ?_ rfl rfl
    rw [Bool.and_eq_true, quiet_iff, Bool.not_eq_true']
    exact Iff.rfl

end Sys2Proof.Machine

/-! Satchel's jobs (16 R360 to R363). -/
namespace Sys2Proof.Machine

open Sys2Proof.Safety

/-! ### Submission (R360) -/

theorem execSatJobGo_eq (s : State) (b : BusWrite) (hb : s.busOk Reg.satJobCtrl b = true) :
    execSatJobGo b s =
      let z := (s.accepted Reg.satJobCtrl b).store Reg.satJobCtrl b.value
      .next (if b.value.getLsbD 31 = false then z else z.satSubmit z.satStaged (!z.flag Reg.satStatus 31)) := by
  unfold execSatJobGo
  rw [State.busWrite_ok hb]
  unfold State.satJobWrite
  simp only [Bool.not_eq_true']

theorem State.satSubmit_of_full (s : State) (j : SatJob) (clear : Bool) (h : 8 ≤ s.sat.queue.length) :
    s.satSubmit j clear =
      let z := s.setFlag Reg.satStatus 31
      { z with cyc := { z.cyc with satGos := z.cyc.satGos ++ [(j, clear)] } } :=
  if_pos h

theorem State.satSubmit_of_room (s : State) (j : SatJob) (clear : Bool) (h : s.sat.queue.length < 8) :
    s.satSubmit j clear = { s with sat := { s.sat with
      queue := s.sat.queue ++ [{ j with order := s.sat.submitted }], submitted := s.sat.submitted + 1 } } :=
  if_neg (Nat.not_le.2 h)

/-! ### Starting and ending (R360 to R362) -/

/-- The job that an idle unit takes: the waiting checkpoint job, if no register job waits or it is its turn, else the
oldest register job of its kind (R360). -/
def State.satPick (s : State) (dec : Bool) : Option SatJob :=
  let reg := s.sat.queue.find? fun j => j.decompress == dec
  let int := if dec = true then none else s.ckptJob
  if int.isSome = true ∧ (reg = none ∨ s.sat.turn = false) then int else reg

/-- The model's choice between the two kinds of jobs. -/
theorem satPick_eq (reg int : Option SatJob) (turn : Bool) :
    (match reg, int with
      | some r, some i => some (if turn then r else i)
      | some r, none => some r
      | none, o => o) = if int.isSome = true ∧ (reg = none ∨ turn = false) then int else reg := by
  cases reg with
  | none => cases int <;> rfl
  | some r =>
    cases int with
    | none => rfl
    | some i => cases turn <;> rfl

theorem execJobStart_eq (dec : Bool) (s : State) :
    execJobStart dec s = if !s.live 28 || (s.satUnit dec).isSome || s.satStalled dec then .next s else
      match s.satPick dec with
      | none => .next s
      | some j =>
        let z := if j.internal = true then s else { s with sat := { s.sat with queue := s.sat.queue.erase j } }
        let u := if dec = true then z else { z with sat := { z.sat with turn := j.internal } }
        if j.bad then
          let r : SatResult := { status := 8, used := 0, written := 0, blocks := 0 }
          .next ((u.satCount r).satReport j r)
        else .next (u.setSatUnit dec (some j)) := by
  unfold State.satPick
  dsimp only
  rw [← satPick_eq]
  rfl

theorem execJobStart_idle (dec : Bool) (s : State)
    (h : s.satUnit dec ≠ none ∨ s.satStalled dec = true ∨ s.satPick dec = none) : execJobStart dec s = .next s := by
  rw [execJobStart_eq]
  by_cases hbusy : (!s.live 28 || (s.satUnit dec).isSome || s.satStalled dec) = true
  · exact if_pos hbusy
  · rw [if_neg hbusy]
    rw [Bool.or_eq_true, Bool.or_eq_true, not_or, not_or, Option.isSome_iff_ne_none] at hbusy
    obtain ⟨⟨-, hunit⟩, hstalled⟩ := hbusy
    rw [(h.resolve_left hunit).resolve_left hstalled]

/-- An idle unit's start of the job it takes. -/
theorem execJobStart_picks (dec : Bool) (s : State) (hl : s.live 28 = true) (hu : s.satUnit dec = none)
    (hs : s.satStalled dec = false) {j : SatJob} (hj : s.satPick dec = some j) :
    execJobStart dec s =
      let z := if j.internal = true then s else { s with sat := { s.sat with queue := s.sat.queue.erase j } }
      let u := if dec = true then z else { z with sat := { z.sat with turn := j.internal } }
      let r : SatResult := { status := 8, used := 0, written := 0, blocks := 0 }
      if j.bad = true then .next ((u.satCount r).satReport j r) else .next (u.setSatUnit dec (some j)) := by
  rw [execJobStart_eq, if_neg (by rw [hl, hu, hs]; decide), hj]

theorem execJobEnd_of_none (dec : Bool) (s : State) (h : s.satUnit dec = none) : execJobEnd dec s = .next s := by
  unfold execJobEnd
  rw [h]

theorem execJobEnd_of_some (dec : Bool) (s : State) {j : SatJob} (hl : s.live 28 = true) (hj : s.satUnit dec = some j)
    (hsrc : s.memReady 21 j.src j.srcLen = true) (hdst : s.memReady 21 j.dst j.dstLen = true) :
    execJobEnd dec s =
      let x := (s.setSatUnit dec none).satRun j
      .next (if j.internal = true then (x.1.satCount x.2.2).ckptJobEnd j x.2.1 x.2.2
        else (x.1.satCount x.2.2).satReport j x.2.2) := by
  unfold execJobEnd
  rw [hj]
  exact if_neg (by rw [hl, hsrc, hdst]; decide)

/-! ### Aborts (R363) -/

/-- An abort ends at most one running job of a unit. -/
theorem State.satAbortRun_ends (s : State) (dec : Bool) : (s.satAbortRun dec).2 = [] ∨ ∃ p, (s.satAbortRun dec).2 = [p] := by
  unfold State.satAbortRun
  split
  · exact .inl rfl
  · split
    · exact .inl rfl
    · exact .inr ⟨_, rfl⟩

/-- The place in the order of submission of the first job of a list. -/
def firstOrder (l : List (SatJob × SatResult)) : Nat := (l.map fun p => p.1.order).headD 0

/-- The two units' ended jobs in order of submission (R363). -/
def endedRun (xs ys : List (SatJob × SatResult)) : List (SatJob × SatResult) :=
  if xs.isEmpty = false ∧ ys.isEmpty = false ∧ firstOrder ys < firstOrder xs then ys ++ xs else xs ++ ys

theorem endedRun_eq (xs ys : List (SatJob × SatResult)) : (xs = [] ∨ ∃ p, xs = [p]) → (ys = [] ∨ ∃ p, ys = [p]) →
    (match xs, ys with
      | [x], [y] => if x.1.order ≤ y.1.order then [x, y] else [y, x]
      | xs, ys => xs ++ ys) = endedRun xs ys := by
  intro hx hy
  rcases hx with rfl | ⟨x, rfl⟩
  · exact (if_neg fun h => absurd h.1 nofun).symm
  · rcases hy with rfl | ⟨y, rfl⟩
    · exact (if_neg fun h => absurd h.2.1 nofun).symm
    · by_cases h : x.1.order ≤ y.1.order
      · exact (if_pos h).trans (if_neg fun h' => absurd h'.2.2 (Nat.not_lt.2 h)).symm
      · exact (if_neg h).trans (if_pos ⟨rfl, rfl, Nat.not_le.1 h⟩).symm

theorem execSatAbort_of_clear (s : State) (b : BusWrite) (hb : s.busOk Reg.satCtrl b = true)
    (hv : b.value.getLsbD 31 = false) : execSatAbort b s = .next (s.accepted Reg.satCtrl b) := by
  unfold execSatAbort
  rw [State.busWrite_ok hb]
  exact congrArg _ (if_pos (by rw [hv]; rfl))

theorem execSatAbort_of_set (s : State) (b : BusWrite) (hb : s.busOk Reg.satCtrl b = true)
    (hv : b.value.getLsbD 31 = true) :
    execSatAbort b s =
      let z := s.accepted Reg.satCtrl b
      let x := z.satAbortRun false
      let y := x.1.satAbortRun true
      let old := (y.1.sat.queue.filter fun j => j.goAt != z.now).map fun j =>
        (j, ({ status := 7, used := 0, written := 0, blocks := 0 } : SatResult))
      let kept := y.1.sat.queue.filter fun j => j.goAt == z.now
      .next (State.satGosAfter ((endedRun x.2 y.2 ++ old).foldl
        (fun s p => (s.satCount p.2).satReport p.1 p.2) { y.1 with sat := { y.1.sat with queue := kept } })) := by
  unfold execSatAbort
  rw [State.busWrite_ok hb]
  dsimp only
  rw [← endedRun_eq _ _ (State.satAbortRun_ends _ _) (State.satAbortRun_ends _ _)]
  exact congrArg _ (if_neg (by rw [hv]; decide))

/-- Settles O53, command by command from the equations above. -/
theorem satchelJobsQueueAndEnd : Obligations.SatchelJobsQueueAndEnd := by
  unfold Obligations.SatchelJobsQueueAndEnd
  refine ⟨fun s b hb => ?_, fun s dec hl => ⟨execJobStart_idle dec s, fun j hu hs hj => ?_⟩,
    fun s dec => ⟨execJobEnd_of_none dec s, fun j hl hj hsrc hdst => ?_⟩,
    fun s b hb => ⟨execSatAbort_of_clear s b hb, execSatAbort_of_set s b hb⟩⟩
  · have hexec := execSatJobGo_eq s b hb
    refine ⟨fun hv => hexec.trans (congrArg _ (if_pos hv)), fun hv hfull => hexec.trans (congrArg _ ?_),
      fun hv hroom => hexec.trans (congrArg _ ?_)⟩
    · exact (if_neg (ne_false_of_eq_true hv)).trans (State.satSubmit_of_full _ _ _ hfull)
    · exact (if_neg (ne_false_of_eq_true hv)).trans (State.satSubmit_of_room _ _ _ hroom)
  · have hexec := execJobStart_picks dec s hl hu hs hj
    exact ⟨fun hbad => hexec.trans (if_pos hbad), fun hok => hexec.trans (if_neg (ne_true_of_eq_false hok))⟩
  · have hexec := execJobEnd_of_some dec s hl hj hsrc hdst
    exact ⟨fun hint => hexec.trans (congrArg _ (if_neg (ne_true_of_eq_false hint))),
      fun hint => hexec.trans (congrArg _ (if_pos hint))⟩

end Sys2Proof.Machine

/-! The Report Card's checkpoints, restores and clearing (13 R301, R302, RPT_CTRL). -/
namespace Sys2Proof.Machine

open Sys2Proof.Safety

/-! ### Checkpoint generations (R301) -/

/-- A generation is due: checkpoints are enabled and PERIOD seconds have passed since the last (R301). -/
theorem execCheckpoint_eq (s : State) (hl : s.live 24 = true) :
    let period := 1600000000 * max 1 (s.fld Reg.rptCkptCtrl 15 0)
    execCheckpoint s = if s.flag Reg.rptCtrl 3 = true ∧ s.rpt.ckptBase + period ≤ s.now then
      .next (State.ckptStart { s with rpt := { s.rpt with ckptBase := s.rpt.ckptBase + period } }) else .next s := by
  intro period
  refine if_congr ?_ rfl rfl
  rw [hl, Bool.true_and, Bool.and_eq_true, decide_eq_true_iff]

theorem execCheckpointDone_of_running (s : State) (hl : s.live 24 = true) {c : Ckpt} {x : Nat} {xs : List Nat}
    (hc : s.rpt.ckpt = some c) (hq : s.rpt.ckptQueue = x :: xs) :
    let z : State := { s with rpt := { s.rpt with ckpt := none, ckptQueue := xs } }
    execCheckpointDone s = if c.next = 64 then
      .next (State.recordDue (((z.returnBuffer 19 x 0).setReg Reg.rptLastGen (word c.gen)).event 173))
      else .next s := by
  unfold execCheckpointDone
  rw [hc, hq]
  refine if_congr ?_ rfl rfl
  rw [hl, Bool.true_and, decide_eq_true_iff]

theorem execCheckpointDone_idle (s : State) (h : s.rpt.ckpt = none ∨ s.rpt.ckptQueue = []) :
    execCheckpointDone s = .next s := by
  unfold execCheckpointDone
  split
  · next hc hq => exact absurd h (not_or.2 ⟨by rw [hc]; nofun, by rw [hq]; nofun⟩)
  · rfl

theorem State.ckptStart_eq (s : State) : s.ckptStart = if s.rpt.ckpt = none then
    { s with rpt := { s.rpt with ckpt := some ⟨(s.reg Reg.rptLastGen + 1).toNat, 0⟩ } } else s := by
  unfold State.ckptStart
  cases s.rpt.ckpt <;> rfl

theorem execCkptNow_eq (s : State) (b : BusWrite) (hb : s.busOk Reg.rptCkptCtrl b = true) :
    execCkptNow b s =
      let z := (s.accepted Reg.rptCkptCtrl b).store Reg.rptCkptCtrl b.value
      .next (if b.value.getLsbD 31 = true then z.ckptStart else z) := by
  unfold execCkptNow
  rw [State.busWrite_ok hb]
  rfl

/-! ### Clearing and restores (R302) -/

theorem execStressClearDone_eq (s : State) (hl : s.live 24 = true) :
    execStressClearDone s = if s.rpt.clearing = true then
      let z : State := { s with rpt := { s.rpt with clearing := false } }
      if z.permits 2 19 0 3185049600 true = true then .next (z.zeroRange 0x1C00000000 3185049600)
      else .next (z.violation 2 19 0 true)
    else .next s :=
  if_congr (by rw [hl, Bool.true_and]) rfl rfl

theorem execRestoreBufferDone_idle (s : State) (h : s.rpt.restQueue = [] ∨ s.flag Reg.rptCtrl 0 = true) :
    execRestoreBufferDone s = .next s := by
  unfold execRestoreBufferDone
  split
  · rfl
  · next hq =>
    have hen := h.resolve_left (by rw [hq]; nofun)
    exact if_pos (by rw [hen, Bool.or_true, Bool.true_or, Bool.true_or])

/-- How a checked restore buffer ends: the restore fails. -/
def State.restFailed (s : State) (x : Nat) : State :=
  ((State.setFlag { s with rpt := { s.rpt with restore := none } } Reg.rptStatus 30).stressFree).returnBuffer 19 x 1

/-- How a checked restore buffer ends: its counters are written, and the restore goes on or is complete. -/
def State.restPassed (s : State) (x index : Nat) (p : List Byte × Nat) : State :=
  let u := (s.devWrite 19 (0x1C00000000 + 50331648 * index) p.1).1
  State.returnBuffer { u with rpt := { u.rpt with
    restore := if index = 63 then none else some (p.2, index + 1) } } 19 x 0

theorem execRestoreBufferDone_of_cons (s : State) (hl : s.live 24 = true) {x : Nat} {xs : List Nat}
    (hq : s.rpt.restQueue = x :: xs) (hen : s.flag Reg.rptCtrl 0 = false)
    (hbuf : s.memReady 19 (winAddr x) 64 = true) (hmem : s.memReady 19 0x1C00000000 64 = true) :
    execRestoreBufferDone s =
      let z : State := { s with rpt := { s.rpt with restQueue := xs } }
      let index := (s.rpt.restore.map Prod.snd).getD 0
      let c := z.restCheck x index (s.rpt.restore.map Prod.fst)
      .next (c.2.elim (c.1.restFailed x) (c.1.restPassed x index)) := by
  unfold execRestoreBufferDone
  rw [hq]
  refine (if_neg (by rw [hl, hen, hbuf, hmem]; decide)).trans ?_
  dsimp only
  generalize State.restCheck _ x _ _ = c
  obtain ⟨t, _ | p⟩ := c <;> rfl

/-! ### The control register (R284, R285, R302) -/

theorem State.accepted_rpt (s : State) (off : Nat) (b : BusWrite) : (s.accepted off b).rpt = s.rpt := by
  rw [s.accepted_frame]

/-- A tile of a Report Card that begins: its generator is seeded, its means are 1 (R284, R285). -/
def State.rptBegin (s : State) (n : Nat) : State :=
  let seed := s.reg Reg.rptSeed ^^^ word n
  s.setRptTile n { s.rptTile n with
    gen := if seed = 0 then 1 else seed, mean := [0x8000, 0x8000, 0x8000], blend := none,
    foldSum := [0, 0, 0], foldCnt := [0, 0, 0], codes := [], resid := [], sampled := [] }

/-- What a stored RPT_CTRL does: EN that rises begins every tile, CLEAR with EN = 0 begins a clearing. -/
def State.rptCtrlEffect (was : Bool) (v : Word) (t : State) : State :=
  if was = false ∧ t.flag Reg.rptCtrl 0 = true then (List.range 16).foldl State.rptBegin t
  else if v.getLsbD 31 = true ∧ t.flag Reg.rptCtrl 0 = false then { t with rpt := { t.rpt with clearing := true } }
  else t

/-- A restore or a clearing runs. -/
theorem rptBusy_iff (s : State) :
    (s.rpt.restore.isSome || !s.rpt.restQueue.isEmpty || s.rpt.clearing) = true
      ↔ (s.rpt.restore ≠ none ∨ s.rpt.restQueue ≠ []) ∨ s.rpt.clearing = true := by
  rw [Bool.or_eq_true, Bool.or_eq_true, Option.isSome_iff_ne_none, Bool.not_eq_true', List.isEmpty_eq_false_iff]

theorem State.rptCtrlWrite_eq (s : State) (v : Word) :
    s.rptCtrlWrite v =
      let w := if (s.rpt.restore.isSome || !s.rpt.restQueue.isEmpty || s.rpt.clearing) && !s.flag Reg.rptCtrl 0 then
        v &&& 0xFFFFFFFE else v
      State.rptCtrlEffect (s.flag Reg.rptCtrl 0) w (s.store Reg.rptCtrl w) := by
  unfold State.rptCtrlWrite State.rptCtrlEffect
  simp only [Bool.and_eq_true, Bool.not_eq_true']
  rfl

theorem execRptClear_eq (s : State) (b : BusWrite) (hb : s.busOk Reg.rptCtrl b = true) :
    execRptClear b s =
      let w := if (s.rpt.restore.isSome || !s.rpt.restQueue.isEmpty || s.rpt.clearing) && !s.flag Reg.rptCtrl 0 then
        b.value &&& 0xFFFFFFFE else b.value
      .next (State.rptCtrlEffect (s.flag Reg.rptCtrl 0) w ((s.accepted Reg.rptCtrl b).store Reg.rptCtrl w)) := by
  unfold execRptClear
  rw [State.busWrite_ok hb, State.rptCtrlWrite_eq, State.accepted_rpt, State.accepted_flag]

/-- Settles O49, command by command from the equations above. -/
theorem reportCardCheckpoints : Obligations.ReportCardCheckpoints := by
  unfold Obligations.ReportCardCheckpoints
  refine ⟨fun s hl => ⟨⟨fun hen ht => ?_, fun h => ?_⟩, fun c x xs hc hq => ?_, execCheckpointDone_idle s,
      ⟨fun hc hp => ?_, fun hc hp => ?_, fun hc => ?_⟩,
      fun x xs hq hen hbuf hmem => execRestoreBufferDone_of_cons s hl hq hen hbuf hmem, execRestoreBufferDone_idle s⟩,
    State.ckptStart_eq, execCkptNow_eq, fun s b hb => ⟨fun h => ?_, fun h => ?_⟩⟩
  · exact (execCheckpoint_eq s hl).trans (if_pos ⟨hen, ht⟩)
  · refine (execCheckpoint_eq s hl).trans (if_neg ?_)
    rintro ⟨hen, ht⟩
    exact h.elim (ne_false_of_eq_true hen) (Nat.not_lt.2 ht)
  · have hexec := execCheckpointDone_of_running s hl hc hq
    exact ⟨fun h => hexec.trans (if_pos h), fun h => hexec.trans (if_neg h)⟩
  · exact (execStressClearDone_eq s hl).trans ((if_pos hc).trans (if_pos hp))
  · exact (execStressClearDone_eq s hl).trans ((if_pos hc).trans (if_neg (ne_true_of_eq_false hp)))
  · exact (execStressClearDone_eq s hl).trans (if_neg (ne_true_of_eq_false hc))
  · obtain ⟨hbusy, hwas⟩ := h
    refine (execRptClear_eq s b hb).trans ?_
    rw [if_pos (by rw [(rptBusy_iff s).2 hbusy, hwas]; rfl)]
    rfl
  · refine (execRptClear_eq s b hb).trans ?_
    rw [if_neg]
    · rfl
    · rw [Bool.and_eq_true, rptBusy_iff, Bool.not_eq_true']
      exact fun ⟨hbusy, hwas⟩ => h.elim (fun h => h hbusy) fun h => absurd (hwas.symm.trans h) nofun

end Sys2Proof.Machine

/-! The calibration engine: mirror measurements, records and base maps (13 R292, R293, R297 to R300). -/
namespace Sys2Proof.Machine

open Sys2Proof.Safety

/-! ### Mirror measurements (R292) -/

theorem execTrimMeasurement_of_none (trim : BitVec 24) (s : State) (h : s.cal.mirror = none) :
    execTrimMeasurement trim s = .next s := by
  unfold execTrimMeasurement
  rw [h]

theorem execTrimMeasurement_of_early (trim : BitVec 24) (s : State) {n t : Nat} (h : s.cal.mirror = some (n, t))
    (ht : s.now < t + 64000) : execTrimMeasurement trim s = .next s := by
  unfold execTrimMeasurement
  rw [h]
  refine if_neg ?_
  rw [Bool.and_eq_true, decide_eq_true_iff]
  exact fun x => Nat.not_le.2 ht x.2

/-- A measurement that ends: out of limit it sets an event, else it becomes the tile's drift (R292). -/
theorem execTrimMeasurement_of_due (trim : BitVec 24) (s : State) {n t : Nat} (hl : s.live 25 = true)
    (h : s.cal.mirror = some (n, t)) (ht : t + 64000 ≤ s.now) :
    execTrimMeasurement trim s =
      let z : State := { s with cal := { s.cal with mirror := none } }
      let v : Int := trim.toNat
      let p : Rat := z.trimPoint n
      let d : Rat := if p = 0 then 1 else v / p
      .next (State.refSense (if 100 * (v - 0x400000).natAbs > 2 * 0x400000 then z.event 174 else
        State.bump { z with cal := { z.cal with drift := SMap.put (fun _ => 1) z.cal.drift n d } } (Reg.calCnt 0)) n) := by
  unfold execTrimMeasurement
  rw [h]
  refine (if_pos (by rw [hl, Bool.true_and, decide_eq_true_iff]; exact ht)).trans ?_
  simp only [Int.cast_eq_zero]

/-! ### Records (R300) -/

theorem execRecordWrite_idle (s : State) (h : s.cal.recQueue = [] ∨ s.cal.recDue = []) : execRecordWrite s = .next s := by
  unfold execRecordWrite
  split
  · rfl
  · next hq =>
    have hdue := h.resolve_left (by rw [hq]; nofun)
    refine if_neg ?_
    rw [hdue, List.isEmpty_nil, Bool.not_true, Bool.and_false, Bool.false_and]
    decide

theorem execRecordWrite_of_due (s : State) (hl : s.live 25 = true) {x : Nat} {xs : List Nat} {kind : Bool} {due : List Bool}
    (hq : s.cal.recQueue = x :: xs) (hd : s.cal.recDue = kind :: due) (hm : s.memReady 20 (winAddr x) 9384 = true) :
    execRecordWrite s =
      let gen := (s.reg Reg.calRecGen + 1).toNat
      let content := leBytes 4 0x52434647 ++ leBytes 4 1 ++ leBytes 4 gen ++ List.replicate 20 0
        ++ shake256 s.recordBody 32 ++ s.recordBody
      let z : State := { s with cal := { s.cal with recQueue := xs, recDue := due } }
      .next (((z.setReg Reg.calRecGen (word gen)).returnFilled 20 x 0 content).event 177) := by
  unfold execRecordWrite
  rw [hq]
  dsimp only
  rw [if_pos (by rw [hl, hd, hm]; rfl), hd]
  rfl

/-! ### Base maps (R298) -/

theorem execBaseLoadDone_of_none (n : Fin 16) (s : State) (h : s.cal.running.find? (fun p => p.1 == n.val) = none) :
    execBaseLoadDone n s = .next s := by
  unfold execBaseLoadDone
  dsimp only
  rw [h]

/-- The end of a base load: the buffer goes back, the load is counted, the blend restarts. -/
def State.baseEnd (w : State) (n x : Nat) (running : SMap Nat) : State :=
  ((((State.returnBuffer { w with cal := { w.cal with running := running, queued := SMap.del w.cal.queued n } } 20 x 0).bump
    (Reg.calCnt 1)).blendStart n).event 176)

/-- What the end of a base load leaves running: the load queued behind it, if there is one. -/
theorem baseEnd_cases {o : Out} (w : State) (n x : Nat)
    (h : o = .next (w.baseEnd n x ((w.cal.queued.find? fun p => p.1 == n).elim (SMap.del w.cal.running n)
      fun p => SMap.ins w.cal.running n p.2))) :
    (w.cal.queued.find? (fun p => p.1 == n) = none → o = .next (w.baseEnd n x (SMap.del w.cal.running n)))
      ∧ ∀ y, w.cal.queued.find? (fun p => p.1 == n) = some (n, y) →
        o = .next (w.baseEnd n x (SMap.ins w.cal.running n y)) :=
  ⟨fun hq => by rw [h, hq, Option.elim_none], fun y hq => by rw [h, hq, Option.elim_some]⟩

/-- A running load ends, and the load queued behind it starts (R298). -/
theorem execBaseLoadDone_of_running (n : Fin 16) (s : State) (hl : s.live 25 = true) {k x : Nat}
    (h : s.cal.running.find? (fun p => p.1 == n.val) = some (k, x))
    (hbuf : s.memReady 20 (winAddr x) (s.bufLen x) = true) (hmem : s.memReady 20 0x1C00000000 64 = true) :
    let z := (s.baseHeader x).1
    let row := (s.baseHeader x).2.1
    let r := z.devRead 20 (winAddr x + 128) ((s.baseHeader x).2.2 * 230400)
    let w := (r.1.devWrite 20 (baseResAddr n.val (230400 * row)) r.2.1).1
    (w.cal.queued.find? (fun p => p.1 == n.val) = none →
        execBaseLoadDone n s = .next (w.baseEnd n.val x (SMap.del w.cal.running n.val)))
      ∧ ∀ y, w.cal.queued.find? (fun p => p.1 == n.val) = some (n.val, y) →
        execBaseLoadDone n s = .next (w.baseEnd n.val x (SMap.ins w.cal.running n.val y)) := by
  refine baseEnd_cases _ _ _ ?_
  unfold execBaseLoadDone
  dsimp only
  rw [h]
  refine (if_neg (by rw [hl, hbuf, hmem]; decide)).trans ?_
  unfold State.baseEnd
  obtain ⟨z, row, rows⟩ := s.baseHeader x
  dsimp only
  generalize z.devRead 20 _ _ = r
  generalize (r.1.devWrite 20 _ _).1 = w
  cases w.cal.queued.find? fun p => p.1 == n.val <;> rfl

/-! ### CAL_RUN and the load registers (R297 to R300) -/

theorem State.calRunWrite_eq (z : State) (v : Word) : z.calRunWrite v = { z with cal := { z.cal with
    elecReq := if v.getLsbD 0 = true ∧ z.cal.elec = none ∧ z.cal.elecReq = none then some z.now else z.cal.elecReq
    sweepReq := if v.getLsbD 1 = true ∧ z.cal.sweep = none ∧ z.cal.sweepReq = none then some z.now else z.cal.sweepReq
    recDue := if v.getLsbD 2 = true ∧ true ∉ z.cal.recDue then z.cal.recDue ++ [true] else z.cal.recDue } } := by
  unfold State.calRunWrite State.recordDue
  simp only [Bool.and_eq_true, Bool.not_eq_true', Option.isNone_iff_eq_none, List.contains_eq_mem, decide_eq_false_iff_not,
    and_assoc]
  split_ifs <;> rfl

theorem busWrite_calRun (s : State) (b : BusWrite) (hb : s.busOk Reg.calRun b = true) :
    (.next (s.busWrite Reg.calRun b State.calRunWrite) : Out) =
      let z := s.accepted Reg.calRun b
      .next { z with cal := { z.cal with
        elecReq := if b.value.getLsbD 0 = true ∧ z.cal.elec = none ∧ z.cal.elecReq = none then some z.now else z.cal.elecReq
        sweepReq := if b.value.getLsbD 1 = true ∧ z.cal.sweep = none ∧ z.cal.sweepReq = none then some z.now
          else z.cal.sweepReq
        recDue := if b.value.getLsbD 2 = true ∧ true ∉ z.cal.recDue then z.cal.recDue ++ [true] else z.cal.recDue } } := by
  rw [State.busWrite_ok hb, State.calRunWrite_eq]

theorem execCalRecLoad_eq (s : State) (b : BusWrite) (hb : s.busOk Reg.calRecLoad b = true) :
    execCalRecLoad b s = .next ((s.accepted Reg.calRecLoad b).post .calRecLoad (b.value.toNat &&& 0x3FFFFFC0)) := by
  unfold execCalRecLoad
  rw [State.busWrite_ok hb]
  rfl

theorem execCalBaseLoad_eq (s : State) (b : BusWrite) (hb : s.busOk Reg.calBaseLoad b = true) :
    execCalBaseLoad b s = .next ((s.accepted Reg.calBaseLoad b).post (.calBase (b.value.toNat % 16))
      (b.value.toNat &&& 0x3FFFFFC0)) := by
  unfold execCalBaseLoad
  rw [State.busWrite_ok hb]
  rfl

/-- Settles O48, command by command from the equations above. -/
theorem calibrationEngine : Obligations.CalibrationEngine := by
  unfold Obligations.CalibrationEngine
  refine ⟨fun s hl => ⟨fun trim n t hm => ⟨fun ht hout => ?_, fun ht hin => ?_, execTrimMeasurement_of_early trim s hm⟩,
      fun trim => execTrimMeasurement_of_none trim s, fun x xs hq kind due hd hm => execRecordWrite_of_due s hl hq hd hm,
      execRecordWrite_idle s, fun n k x h hbuf hmem => execBaseLoadDone_of_running n s hl h hbuf hmem,
      fun n => execBaseLoadDone_of_none n s⟩,
    fun s b hb c hc => ?_, execCalRecLoad_eq, execCalBaseLoad_eq⟩
  · refine (execTrimMeasurement_of_due trim s hl hm ht).trans ?_
    exact congrArg (fun z => Host.Outcome.next (State.refSense z n)) (if_pos hout)
  · refine (execTrimMeasurement_of_due trim s hl hm ht).trans ?_
    exact congrArg (fun z => Host.Outcome.next (State.refSense z n)) (if_neg (Nat.not_lt.2 hin))
  · rcases hc with rfl | rfl | rfl <;> exact busWrite_calRun s b hb

end Sys2Proof.Machine

/-! The blitter: operations, bursts, synchronisations and commits (17 R368 to R381). -/
namespace Sys2Proof.Machine

open Sys2Proof.Safety

theorem bltBlock_eq : bltBlock = 29 := by decide

/-! ### Operations (R370, R375, R377) -/

theorem State.bltOpWrite_eq (s : State) (v : Word) :
    s.bltOpWrite v =
      let z := s.store Reg.bltOp v
      let u := if v.getLsbD 30 = true then z.bltAbort else z
      if v.getLsbD 31 = false then u
      else if u.blt.op = none then u.bltStart u.bltStaged
      else { u with cyc := { u.cyc with bltGo := some (u.cyc.bltGo.getD u.bltStaged) } } := by
  unfold State.bltOpWrite
  simp only [Bool.not_eq_true', Option.isNone_iff_eq_none]

theorem busWrite_bltOp (s : State) (b : BusWrite) (hb : s.busOk Reg.bltOp b = true) :
    (.next (s.busWrite Reg.bltOp b State.bltOpWrite) : Out) =
      let z := (s.accepted Reg.bltOp b).store Reg.bltOp b.value
      let u := if b.value.getLsbD 30 = true then z.bltAbort else z
      .next (if b.value.getLsbD 31 = false then u
        else if u.blt.op = none then u.bltStart u.bltStaged
        else { u with cyc := { u.cyc with bltGo := some (u.cyc.bltGo.getD u.bltStaged) } }) := by
  rw [State.busWrite_ok hb, State.bltOpWrite_eq]

/-- Mailbox 2 holds a result that has not been acknowledged. -/
theorem bltWaits_iff (s : State) :
    s.bltWaits = true ↔ s.flag (Reg.hstMbox0w 2) 31 = true ∨ s.mboxStalled 2 = true := Bool.or_eq_true _ _ ▸ Iff.rfl

theorem bltWaits_false_iff (s : State) :
    s.bltWaits = false ↔ s.flag (Reg.hstMbox0w 2) 31 = false ∧ s.mboxStalled 2 = false := Bool.or_eq_false_iff

theorem bltRefuses_iff (s : State) (o : BltOp) :
    (o.bad && !s.bltWaits) = true ↔ o.bad = true ∧ s.flag (Reg.hstMbox0w 2) 31 = false ∧ s.mboxStalled 2 = false := by
  rw [Bool.and_eq_true, Bool.not_eq_true', bltWaits_false_iff]

theorem State.bltAbort_of_none (s : State) (h : s.blt.op = none) : s.bltAbort = s := by
  unfold State.bltAbort
  rw [h]

theorem State.bltAbort_of_some (s : State) {o : BltOp} (h : s.blt.op = some o) :
    s.bltAbort = if o.goAt = s.now then s else
      match s.cyc.bltGo with
      | some g => State.bltStart { s.bltOpEnd o 7 with cyc := { (s.bltOpEnd o 7).cyc with bltGo := none } } g
      | none => s.bltOpEnd o 7 := by
  unfold State.bltAbort
  rw [h] <;> rfl

/-! ### Bursts (R372, R373, R381) -/

/-- BLT_PACE lets a burst run now (R373). -/
def State.BurstPaced (s : State) : Prop := ∀ t, s.blt.lastBurst = some t → t + 2 * s.fld Reg.bltPace 9 0 ≤ s.now

theorem burstPaced_iff (s : State) :
    (match s.blt.lastBurst with
      | some t => decide (t + 2 * s.fld Reg.bltPace 9 0 ≤ s.now)
      | none => true) = true ↔ s.BurstPaced := by
  unfold State.BurstPaced
  cases s.blt.lastBurst with
  | none => exact ⟨fun _ => nofun, fun _ => rfl⟩
  | some t => exact decide_eq_true_iff.trans ⟨fun h _ ht => Option.some.inj ht ▸ h, fun h => h t rfl⟩

theorem execBlitBurst_of_unpaced (s : State) (h : ¬ s.BurstPaced) : execBlitBurst s = .next s :=
  if_neg fun x => h ((burstPaced_iff s).1 ((Bool.and_eq_true _ _).mp x).2)

/-- A paced burst, by the running job and the operation. -/
theorem execBlitBurst_of_paced (s : State) (hl : s.live 29 = true) (h : s.BurstPaced) :
    execBlitBurst s = match s.blt.job, s.blt.op with
      | some 4, some o => if s.burstReady o o.bursts then .next (s.opBurst o) else .next s
      | some p, _ =>
        match (s.bltCommit p).bind (·.sync) with
        | some o => if s.burstReady o o.bursts then .next (s.syncBurst p) else .next s
        | none => .next s
      | none, some o =>
        if s.bltWaits then .next s
        else if o.bad then .next (s.bltOpEnd o 8)
        else if s.blt.syncs.isEmpty && o.gateOpen && s.burstReady o o.bursts then .next (s.opBurst o)
        else .next s
      | none, none => .next s :=
  if_pos (by rw [bltBlock_eq, hl, Bool.true_and]; exact (burstPaced_iff s).2 h)

theorem execBlitBurst_of_operation (s : State) (hl : s.live 29 = true) (h : s.BurstPaced) {o : BltOp}
    (hj : s.blt.job = some 4) (ho : s.blt.op = some o) :
    execBlitBurst s = .next (if s.burstReady o o.bursts = true then s.opBurst o else s) := by
  rw [execBlitBurst_of_paced s hl h, hj, ho, next_ite] <;> rfl

theorem execBlitBurst_of_sync (s : State) (hl : s.live 29 = true) (h : s.BurstPaced) {p : Nat} {c : BltCommit} {o : BltOp}
    (hj : s.blt.job = some p) (hp : p ≠ 4) (hc : s.bltCommit p = some c) (ho : c.sync = some o) :
    execBlitBurst s = .next (if s.burstReady o o.bursts = true then s.syncBurst p else s) := by
  have hsync : (s.bltCommit p).bind (·.sync) = some o := by rw [hc, Option.bind_some, ho]
  rw [execBlitBurst_of_paced s hl h, hj, next_ite]
  split
  · next heq _ => exact absurd (Option.some.inj heq) hp
  · next heq _ =>
    cases heq
    rw [hsync]
  · next heq _ => exact absurd heq nofun
  · next heq _ => exact absurd heq nofun

theorem execBlitBurst_of_boundary (s : State) (hl : s.live 29 = true) (h : s.BurstPaced) {o : BltOp}
    (hj : s.blt.job = none) (ho : s.blt.op = some o) :
    execBlitBurst s = if s.bltWaits then .next s
      else if o.bad then .next (s.bltOpEnd o 8)
      else if s.blt.syncs.isEmpty && o.gateOpen && s.burstReady o o.bursts then .next (s.opBurst o)
      else .next s := by
  rw [execBlitBurst_of_paced s hl h, hj, ho]

theorem execBlitBurst_of_nothing (s : State) (hl : s.live 29 = true) (h : s.BurstPaced) (hj : s.blt.job = none)
    (ho : s.blt.op = none) : execBlitBurst s = .next s := by
  rw [execBlitBurst_of_paced s hl h, hj, ho]

/-- The operation's first burst may run at this job boundary. -/
theorem boundaryFree_iff (s : State) (o : BltOp) :
    (s.blt.syncs.isEmpty && o.gateOpen && s.burstReady o o.bursts) = true
      ↔ (s.blt.syncs = [] ∧ o.gateOpen = true) ∧ s.burstReady o o.bursts = true := by
  rw [Bool.and_eq_true, Bool.and_eq_true, List.isEmpty_iff]

theorem execSynchronisation_of_ready (s : State) (hl : s.live 29 = true) {p : Nat} {rest : List Nat}
    (hj : s.blt.job = none) (hq : s.blt.syncs = p :: rest) :
    execSynchronisation s = .next { s with blt := { s.blt with job := some p } } := by
  unfold execSynchronisation
  rw [hj, hq]
  exact if_pos (by rw [bltBlock_eq]; exact hl)

theorem execSynchronisation_idle (s : State) (h : s.blt.job ≠ none ∨ s.blt.syncs = []) :
    execSynchronisation s = .next s := by
  unfold execSynchronisation
  split
  · next hj hq => exact absurd h (not_or.2 ⟨not_not.2 hj, by rw [hq]; nofun⟩)
  · rfl

theorem State.opBurst_eq (s : State) (o : BltOp) :
    s.opBurst o =
      let r := State.runBurst { s with blt := { s.blt with job := some 4 } } o o.bursts
      let o' := { o with bursts := o.bursts + 1 }
      if r.2 = false then r.1.bltOpEnd o 6
      else if burstsTotal o ≤ o.bursts + 1 then r.1.bltOpEnd o' 0
      else { r.1 with blt := { r.1.blt with op := some o' } } := by
  unfold State.opBurst
  simp only [Bool.not_eq_true']
  rfl

theorem State.syncBurst_eq (s : State) {p : Nat} {c : BltCommit} {o : BltOp} (hc : s.bltCommit p = some c)
    (ho : c.sync = some o) (hf : o.fmt ≠ 3) :
    s.syncBurst p =
      let r := s.runBurst o o.bursts
      if r.2 = false then r.1.bltCommitEnd p true
      else if burstsTotal o ≤ o.bursts + 1 then r.1.bltCommitEnd p false
      else { r.1 with blt := { r.1.blt with
        running := SMap.ins r.1.blt.running p { c with sync := some { o with bursts := o.bursts + 1 } } } } := by
  unfold State.syncBurst
  rw [hc]
  dsimp only
  rw [ho]
  dsimp only
  rw [if_neg hf]
  simp only [Bool.not_eq_true']

/-! ### Commits and planes (R368, R379) -/

/-- The staged rectangle lies in the plane. -/
def BltRect.Ok (r : BltRect) : Prop := (r.x0 ≤ r.x1 ∧ r.x1 ≤ 3071) ∧ r.y0 ≤ r.y1 ∧ r.y1 ≤ 1727

theorem BltRect.not_ok_iff (r : BltRect) :
    (decide (r.x1 < r.x0) || decide (3071 < r.x1) || decide (r.y1 < r.y0) || decide (1727 < r.y1)) = true ↔ ¬ r.Ok := by
  unfold BltRect.Ok
  simp only [Bool.or_eq_true, decide_eq_true_eq]
  omega

/-- The staged rectangle of a commit. -/
def State.commitRect (s : State) : BltRect :=
  ⟨s.fld Reg.bltCommitX 11 0, s.fld Reg.bltCommitY 10 0, s.fld Reg.bltCommitX 27 16, s.fld Reg.bltCommitY 26 16⟩

theorem execBltCommitGo_eq (s : State) (b : BusWrite) (hb : s.busOk Reg.bltCommit b = true) :
    execBltCommitGo b s = .next ((s.accepted Reg.bltCommit b).bltCommitWrite b.value) := by
  unfold execBltCommitGo
  rw [State.busWrite_ok hb]

theorem State.bltCommitWrite_of_clear (s : State) (v : Word) (hv : v.getLsbD 31 = false) :
    s.bltCommitWrite v = s.store Reg.bltCommit v :=
  if_pos (by rw [hv]; rfl)

/-- A commit that is asked for, of plane p: refused, started, or queued in place of one queued before (R379). -/
theorem State.bltCommitWrite_of_set (s : State) (v : Word) (hv : v.getLsbD 31 = true) :
    let z := s.store Reg.bltCommit v
    let p := v.toNat % 4
    let q : State := { z with blt := { z.blt with queued := SMap.ins z.blt.queued p z.commitRect } }
    (¬ z.commitRect.Ok → s.bltCommitWrite v = z.setFlag Reg.bltCommitStatus (4 + p))
      ∧ (z.commitRect.Ok → s.bltCommitWrite v =
        if (z.bltCommit p).isNone then
          { z with blt := { z.blt with running := SMap.ins z.blt.running p ⟨z.commitRect, z.now, none⟩ } }
        else if (z.bltQueued p).isSome then ((q.setFlag Reg.bltCommitStatus p).bump (Reg.bltCnt 3)).event 45 else q) := by
  have hp : bits v.toNat 1 0 = v.toNat % 4 := by simp [bits]
  have hset : ¬ (!v.getLsbD 31) = true := by rw [hv]; decide
  unfold State.bltCommitWrite
  dsimp only
  rw [if_neg hset, hp]
  exact ⟨fun h => if_pos ((BltRect.not_ok_iff _).2 h), fun h => if_neg fun x => (BltRect.not_ok_iff _).1 x h⟩

theorem execBltPlaneArm_eq (s : State) (b : BusWrite) (hb : s.busOk Reg.bltPlaneArm b = true) :
    execBltPlaneArm b s =
      let z := s.accepted Reg.bltPlaneArm b
      .next (if b.value.getLsbD 31 = true then
        { z.noteArm 1 z.blt.armed with blt := { z.blt with armed := true } } else z) := by
  unfold execBltPlaneArm
  rw [State.busWrite_ok hb]
  rfl

/-- Settles O54, command by command from the equations above. -/
theorem blitterOperationsAndCommits : Obligations.BlitterOperationsAndCommits := by
  unfold Obligations.BlitterOperationsAndCommits
  refine ⟨fun s b hb c hc => ?_, fun z o => ⟨fun h => if_pos ((bltRefuses_iff z o).2 h),
      fun h => if_neg fun x => h ((bltRefuses_iff z o).1 x), z.bltAbort_of_none,
      fun ho hgo => (z.bltAbort_of_some ho).trans (if_pos hgo), fun ho hgo => ⟨fun hg => ?_, fun g hg => ?_⟩⟩,
    fun s hl => ⟨execBlitBurst_of_unpaced s, fun hp => ⟨fun o => execBlitBurst_of_operation s hl hp,
        fun p c o => execBlitBurst_of_sync s hl hp, fun o hj ho => ?_, execBlitBurst_of_nothing s hl hp⟩,
      fun p rest => execSynchronisation_of_ready s hl, execSynchronisation_idle s⟩,
    fun s o => ⟨fun h => (s.opBurst_eq o).trans (if_pos h), fun h ht => ?_, fun h ht => ?_⟩,
    fun s p c o hc ho hf => ⟨fun h => (s.syncBurst_eq hc ho hf).trans (if_pos h), fun h ht => ?_, fun h ht => ?_⟩,
    fun s b hb => ?_, execBltPlaneArm_eq⟩
  · have hexec : exec c s = .next (s.busWrite Reg.bltOp b State.bltOpWrite) := by rcases hc with rfl | rfl <;> rfl
    rw [hexec, busWrite_bltOp s b hb]
    exact ⟨fun hv => congrArg _ (if_pos hv),
      fun hv ho => congrArg _ ((if_neg (ne_false_of_eq_true hv)).trans (if_pos ho)),
      fun hv ho => congrArg _ ((if_neg (ne_false_of_eq_true hv)).trans (if_neg ho))⟩
  · rw [z.bltAbort_of_some ho, if_neg hgo, hg]
  · rw [z.bltAbort_of_some ho, if_neg hgo, hg]
  · have hexec := execBlitBurst_of_boundary s hl hp hj ho
    refine ⟨fun hw => hexec.trans (if_pos ((bltWaits_iff s).2 hw)), fun hw hb => hexec.trans ?_,
      fun hw hb hf => hexec.trans ?_, fun hw hb hf => hexec.trans ?_⟩
    · rw [if_neg (fun x => hw ((bltWaits_iff s).1 x)), if_pos hb]
    · rw [if_neg (fun x => hw ((bltWaits_iff s).1 x)), if_neg (ne_true_of_eq_false hb), if_pos ((boundaryFree_iff s o).2 hf)]
    · rw [if_neg (fun x => hw ((bltWaits_iff s).1 x)), if_neg (ne_true_of_eq_false hb),
        if_neg fun x => hf ((boundaryFree_iff s o).1 x)]
  · exact (s.opBurst_eq o).trans ((if_neg (ne_false_of_eq_true h)).trans (if_pos ht))
  · exact (s.opBurst_eq o).trans ((if_neg (ne_false_of_eq_true h)).trans (if_neg (Nat.not_le.2 ht)))
  · exact (s.syncBurst_eq hc ho hf).trans ((if_neg (ne_false_of_eq_true h)).trans (if_pos ht))
  · exact (s.syncBurst_eq hc ho hf).trans ((if_neg (ne_false_of_eq_true h)).trans (if_neg (Nat.not_le.2 ht)))
  · have hexec := execBltCommitGo_eq s b hb
    have hset (hv : b.value.getLsbD 31 = true) := (s.accepted Reg.bltCommit b).bltCommitWrite_of_set b.value hv
    refine ⟨fun hv => hexec.trans (congrArg _ (State.bltCommitWrite_of_clear _ _ hv)),
      fun hv hno => hexec.trans (congrArg _ ((hset hv).1 hno)),
      fun hv hok hc => hexec.trans (congrArg _ (((hset hv).2 hok).trans (if_pos ?_))),
      fun hv hok hc hq => hexec.trans (congrArg _ (((hset hv).2 hok).trans ((if_neg ?_).trans (if_neg ?_)))),
      fun hv hok hc hq => hexec.trans (congrArg _ (((hset hv).2 hok).trans ((if_neg ?_).trans (if_pos ?_))))⟩
    · exact Option.isNone_iff_eq_none.2 hc
    · exact fun x => hc (Option.isNone_iff_eq_none.1 x)
    · exact fun x => Option.isSome_iff_ne_none.1 x hq
    · exact fun x => hc (Option.isNone_iff_eq_none.1 x)
    · exact Option.isSome_iff_ne_none.2 hq

end Sys2Proof.Machine

/-! Images, the frame program, extends, reports and keys (20 R415 to R427). -/
namespace Sys2Proof.Machine

open Sys2Proof.Safety

/-! ### Verification (R415 to R421) -/

theorem execImageVerification_of_none (s : State) (h : s.sec.complete = []) : execImageVerification s = .next s := by
  unfold execImageVerification
  dsimp only
  rw [h]

/-- The ROM runs, awaiting firmware. -/
def State.romAwaits (s : State) : Bool := s.flag Reg.secStatus 30 && !s.flag Reg.secStatus 31

/-- The end of an image that could not be read, or is too short, with free fields (R426). -/
def State.imageFreeDigest (s : State) : List Byte :=
  leBytes 4 (Config.freeWord s.draws 2).toNat ++ leBytes 4 (Config.freeWord s.draws 3).toNat
    ++ leBytes 4 (Config.freeWord s.draws 4).toNat

/-- The state without the image that has been taken. -/
def State.imageTaken (s : State) (rest : List ImageSrc) : State := { s with sec := { s.sec with complete := rest } }

/-- The Registrar can take the next image: it runs, or the ROM awaits firmware, and nothing holds it back (R419, R420). -/
def State.ImageReady (s : State) (a room : Nat) : Prop :=
  ((s.registrarRuns = true ∨ (s.up 36 = true ∧ s.flag Reg.secStatus 30 = true ∧ s.flag Reg.secStatus 31 = false))
    ∧ s.mboxStalled 0 = false) ∧ s.memReady 0 a room = true

theorem romAwaits_iff (s : State) :
    s.romAwaits = true ↔ s.flag Reg.secStatus 30 = true ∧ s.flag Reg.secStatus 31 = false := by
  unfold State.romAwaits
  rw [Bool.and_eq_true, Bool.not_eq_true']

theorem not_imageReady_iff (s : State) (a room : Nat) :
    (!(s.registrarRuns || (s.up 36 && s.romAwaits)) || s.mboxStalled 0 || !s.memReady 0 a room) = true
      ↔ ¬ s.ImageReady a room := by
  unfold State.ImageReady
  rw [← romAwaits_iff, ← Bool.and_eq_true (s.up 36), ← Bool.or_eq_true, not_and_or, not_and_or, Bool.or_eq_true,
    Bool.or_eq_true, Bool.not_eq_true', Bool.not_eq_true', Bool.not_eq_true, Bool.not_eq_false, Bool.not_eq_true]

theorem execImageVerification_of_not_ready (s : State) {src : ImageSrc} {rest : List ImageSrc}
    (hq : s.sec.complete = src :: rest) (h : ¬ s.ImageReady (s.imagePlace src).1 (s.imagePlace src).2) :
    execImageVerification s = .next s := by
  unfold execImageVerification
  dsimp only
  rw [hq]
  exact if_pos ((not_imageReady_iff s _ _).2 h)

/-- What becomes of the image that the Registrar takes: its header is read, then the whole of it, then it is checked. -/
theorem execImageVerification_of_ready (s : State) {src : ImageSrc} {rest : List ImageSrc}
    (hq : s.sec.complete = src :: rest) (h : s.ImageReady (s.imagePlace src).1 (s.imagePlace src).2)
    {rom : Bool} (hrom : s.romAwaits = rom) :
    let a := (s.imagePlace src).1
    let room := (s.imagePlace src).2
    let head := s.devRead 0 a (min 128 room)
    let h := imageHead head.2.1
    let free (i : Nat) : Nat := (Config.freeWord s.draws i).toNat
    let all := head.1.devRead 0 a (2948 + h.len)
    let c := all.1.imageCheck all.2.1 rom
    let decodes := h.comp = true ∧ (c.1 = 0 ∨ c.1 = 6)
    let z := if decodes then (all.1.imageTaken rest).registrarDecode all.2.1 else all.1.imageTaken rest
    execImageVerification s =
      if head.2.2 = false then
        .next ((head.1.imageTaken rest).drawn.imageEnd src (free 0) (free 1 % 65536) 9 s.imageFreeDigest)
      else if room < 2948 + h.len then
        .next ((head.1.imageTaken rest).drawn.imageEnd src (if room < 128 then free 0 else h.type)
          (if room < 128 then free 1 % 65536 else h.svn) 1 s.imageFreeDigest)
      else if all.2.2 = false then .next ((all.1.imageTaken rest).drawn.imageEnd src h.type h.svn 9 s.imageFreeDigest)
      else if decodes ∧ (s.live 28 = false ∨ s.flag (Reg.hstMbox0w 1) 31 = true) then .next s
      else .next (if c.1 ≠ 0 then z.imageEnd src h.type h.svn c.1 (imageDigest all.2.1)
        else if rom = true then (z.firmwareStart all.2.1 c.2).imageEnd src 0 h.svn 0 (imageDigest all.2.1)
        else z.imageVerified src all.2.1 c.2) := by
  subst hrom
  intro a room head hd free all c decodes z
  have hdecodes : (hd.comp && (decide (c.1 = 0) || decide (c.1 = 6))) = true ↔ decodes := by
    rw [Bool.and_eq_true, Bool.or_eq_true, decide_eq_true_iff, decide_eq_true_iff]
  have hz : (if (hd.comp && (decide (c.1 = 0) || decide (c.1 = 6))) = true then
      (all.1.imageTaken rest).registrarDecode all.2.1 else all.1.imageTaken rest) = z := if_congr hdecodes rfl rfl
  have hbusy : ((hd.comp && (decide (c.1 = 0) || decide (c.1 = 6))) && (!s.live 28 || s.flag (Reg.hstMbox0w 1) 31)) = true
      ↔ decodes ∧ (s.live 28 = false ∨ s.flag (Reg.hstMbox0w 1) 31 = true) := by
    rw [Bool.and_eq_true, hdecodes, Bool.or_eq_true, Bool.not_eq_true']
  rw [next_ite, next_ite, ← hz]
  unfold execImageVerification
  dsimp only
  rw [hq]
  refine (if_neg fun x => (not_imageReady_iff s _ _).1 x h).trans ?_
  refine if_congr (Eq.to_iff (Bool.not_eq_true' _)) rfl (if_congr Iff.rfl rfl ?_)
  refine if_congr (Eq.to_iff (Bool.not_eq_true' _)) rfl (if_congr hbusy rfl ?_)
  exact if_congr bne_iff_ne rfl rfl

/-! ### The checks (R415) -/

section
variable {s : State} {bs : List Byte} {rom : Bool}

/-- The first check: the format, and the binding to this device. -/
def State.ImageWellFormed (s : State) (bs : List Byte) (rom : Bool) : Prop :=
  s.imageFormat bs rom = true ∧ ((imageHead bs).bound = true → (imageHead bs).serial = s.serial)

/-- The digest of the root key an image names. -/
def State.imageRoot (s : State) (bs : List Byte) : List Byte :=
  (List.range 32).map fun i => BitVec.ofNat 8 (s.optByte ((if (imageHead bs).root = 0 then 32 else 64) + i))

/-- Whether an image's signature verifies. -/
def imageSigned (bs : List Byte) : Bool :=
  xmssVerify (slice bs 64 64) (bs.take (128 + (imageHead bs).len)) (slice bs (128 + (imageHead bs).len) 2820)

/-- The outcome of a well-formed image: the later checks in order. -/
def State.imageLaterChecks (s : State) (bs : List Byte) : Nat × List Byte :=
  let h := imageHead bs
  let e := satDecode ((bs.drop 128).take h.len) h.rawLen
  if s.rootUsable h = false then (2, [])
  else if shake256 (slice bs 64 64) 32 ≠ s.imageRoot bs then (3, [])
  else if h.svn < s.minSvn then (4, [])
  else if imageSigned bs = false then (5, [])
  else if h.comp = true then
    if e.err.isNone = true ∧ e.out.length = h.rawLen then (0, e.out) else (6, [])
  else (0, (bs.drop 128).take h.len)

theorem State.imageCheck_of_wellFormed (h : s.ImageWellFormed bs rom) : s.imageCheck bs rom = s.imageLaterChecks bs := by
  obtain ⟨hformat, hbound⟩ := h
  have hbind : ¬ ((imageHead bs).bound && (imageHead bs).serial != s.serial) = true := by
    rw [Bool.and_eq_true, bne_iff_ne]
    exact fun x => x.2 (hbound x.1)
  rw [s.imageCheck_eq bs rom _ rfl _ _ rfl rfl, if_neg (by rw [hformat]; decide), if_neg hbind]
  unfold State.imageLaterChecks imageSigned State.imageRoot
  simp only [Bool.not_eq_true', bne_iff_ne, Bool.and_eq_true, beq_iff_eq]

theorem State.imageCheck_of_malformed (h : ¬ s.ImageWellFormed bs rom) : s.imageCheck bs rom = (1, []) := by
  rw [s.imageCheck_eq bs rom _ rfl _ _ rfl rfl]
  by_cases hformat : s.imageFormat bs rom = true
  · rw [if_neg (by rw [hformat]; decide)]
    refine if_pos ?_
    rw [Bool.and_eq_true, bne_iff_ne, ← Classical.not_imp]
    exact fun x => h ⟨hformat, x⟩
  · exact if_pos (by rw [Bool.not_eq_true']; exact Bool.eq_false_of_not_eq_true hformat)

/-- An image that passes takes effect with its payload, decompressed where it is compressed. -/
theorem State.imageLaterChecks_payload (h : (s.imageLaterChecks bs).1 = 0) :
    ((imageHead bs).comp = false → (s.imageLaterChecks bs).2 = (bs.drop 128).take (imageHead bs).len)
      ∧ ((imageHead bs).comp = true →
        (s.imageLaterChecks bs).2 = (satDecode ((bs.drop 128).take (imageHead bs).len) (imageHead bs).rawLen).out
          ∧ (s.imageLaterChecks bs).2.length = (imageHead bs).rawLen) := by
  unfold State.imageLaterChecks at h ⊢
  dsimp only at h ⊢
  generalize satDecode _ _ = e at h ⊢
  split_ifs at h ⊢ with h1 h2 h3 h4 hc he
  · exact ⟨fun hf => absurd (hc.symm.trans hf) nofun, fun _ => ⟨rfl, he.2⟩⟩
  · exact ⟨fun _ => rfl, fun ht => absurd ht hc⟩

end

/-! ### Effects (R417, R421, R422) -/

/-- A pending image that another replaces ends with status 8. -/
def State.imageReplaced (n : State) (o : Option PendImage) : State :=
  o.elim n fun q => n.imageEnd q.src q.type q.svn 8 q.digest

theorem State.imageVerified_eq (s : State) (src : ImageSrc) (bs payload : List Byte) :
    let h := imageHead bs
    let d := imageDigest bs
    let n := s.bump (Reg.secCnt 0)
    let k := n.imageReplaced n.sec.kernel
    let p := n.imageReplaced n.sec.program
    s.imageVerified src bs payload =
      if h.type = 1 then { k with sec := { k.sec with kernel := some ⟨src, h.type, h.dest, payload, h.svn, d⟩ } }
      else if h.type = 2 then { p with sec := { p.sec with program := some ⟨src, h.type, h.dest, payload, h.svn, d⟩ } }
      else if h.type = 3 then
        if (n.devWrite 0 h.dest payload).2 = true then (n.devWrite 0 h.dest payload).1.imageLoaded src 3 h.svn d
        else (n.devWrite 0 h.dest payload).1.imageEnd src 3 h.svn 9 d
      else if n.isReturn = true then (n.setFlag Reg.secStatus 29).imageLoaded src 4 h.svn d
      else n.imageEnd src 4 h.svn 1 d := by
  have hreplace (n : State) (o : Option PendImage) :
      (match o with
        | some q => n.imageEnd q.src q.type q.svn 8 q.digest
        | none => n) = n.imageReplaced o := by cases o <;> rfl
  intro h d n k p
  let pend : PendImage := ⟨src, h.type, h.dest, payload, h.svn, d⟩
  refine if_congr Iff.rfl ?_ (if_congr Iff.rfl ?_ rfl)
  · exact congrArg (fun k : State => { k with sec := { k.sec with kernel := some pend } }) (hreplace n n.sec.kernel)
  · exact congrArg (fun p : State => { p with sec := { p.sec with program := some pend } }) (hreplace n n.sec.program)

theorem execFrameProgramApply_of_none (s : State) (h : s.sec.program = none) : execFrameProgramApply s = .next s := by
  unfold execFrameProgramApply
  rw [h]

/-- The pending frame program can be applied now (R422). -/
def State.ProgramDue (s : State) : Prop :=
  (((s.registrarRuns = true ∧ s.mboxStalled 0 = false) ∧ s.up 18 = true) ∧ s.sec.kernel = none)
    ∧ (s.inFrame = true ∧ 432 ≤ s.seq.slot ∧ s.seq.slot < 446)
    ∧ (s.seq.st = .inFlip ∨ s.seq.st = .stopped ∨ s.seq.st = .halted)

theorem not_programDue_iff (s : State) :
    (!s.registrarRuns || s.mboxStalled 0 || !s.up 18 || s.sec.kernel.isSome
      || !(s.inFrame && decide (432 ≤ s.seq.slot) && decide (s.seq.slot < 446))
      || !(s.seq.st == .inFlip || s.seq.st == .stopped || s.seq.st == .halted)) = true ↔ ¬ s.ProgramDue := by
  simp only [State.ProgramDue, Bool.or_eq_true, Bool.not_eq_true', Bool.and_eq_true, decide_eq_true_eq, beq_iff_eq,
    not_and_or, ← Bool.not_eq_true, not_not, Option.isSome_iff_ne_none, ne_eq, or_assoc, and_assoc, not_or]

theorem execFrameProgramApply_of_some (s : State) {p : PendImage} (h : s.sec.program = some p) :
    let z : State := { s.noteSram 4 (p.dest / 8) ((p.dest + p.code.length + 7) / 8) with
      sec := { s.sec with program := none }
      seq := { s.seq with
        prog := storeCode s.seq.prog 0 p.dest p.code
        bad := s.seq.bad.filter fun w => w < p.dest / 8 || (p.dest + p.code.length + 7) / 8 ≤ w } }
    (s.ProgramDue → execFrameProgramApply s = .next (z.imageLoaded p.src 2 p.svn p.digest))
      ∧ (¬ s.ProgramDue → execFrameProgramApply s = .next s) := by
  unfold execFrameProgramApply
  rw [h]
  exact ⟨fun hd => if_neg fun x => (not_programDue_iff s).1 x hd, fun hd => if_pos ((not_programDue_iff s).2 hd)⟩

/-! ### Reports (R424, R425) -/

theorem execMeasurementReport_of_none (cache : List Byte) (s : State) (h : s.sec.reports = []) :
    execMeasurementReport cache s = .next s := by
  unfold execMeasurementReport
  rw [h]

/-- A report that is signed with a leaf. -/
def State.reportSigned (t : State) (cache : List Byte) (x leaf : Nat) : State :=
  let msg := t.reportMessage leaf
  let sig := xmssSign (attPart 0x53) (attPart 0x50) (attPart 0x55) attRoot (xSplit 1024 cache) leaf msg
  State.secResult (((t.returnFilled 0 x 0 (msg ++ sig)).bump (Reg.secCnt 3)).event 15) 0 2 0 x leaf (shake256 msg 32)

theorem execMeasurementReport_of_cons (cache : List Byte) (s : State) {x : Nat} {xs : List Nat}
    (h : s.sec.reports = x :: xs) :
    execMeasurementReport cache s =
      let z : State := { s with sec := { s.sec with reports := xs } }
      let t := z.takeLeaf (xSplit 1024 cache)
      if !s.registrarRuns || s.mboxStalled 0 || !s.memReady 0 (winAddr x) 3200 then .next s
      else if z.isReturn || z.isDead || decide (z.bufLen x < 3148) then .next (z.reportFail x 10)
      else .next (t.2.1.elim (t.1.reportFail x t.2.2) fun leaf => t.1.reportSigned cache x leaf) := by
  unfold execMeasurementReport State.reportSigned
  rw [h]
  dsimp only
  generalize State.takeLeaf _ _ = t
  obtain ⟨t, _ | leaf, status⟩ := t <;> rfl

/-- The Registrar can take the next report. -/
theorem reportStalls_iff (s : State) (x : Nat) :
    (!s.registrarRuns || s.mboxStalled 0 || !s.memReady 0 (winAddr x) 3200) = true
      ↔ ¬ ((s.registrarRuns = true ∧ s.mboxStalled 0 = false) ∧ s.memReady 0 (winAddr x) 3200 = true) := by
  rw [Bool.or_eq_true, Bool.or_eq_true, Bool.not_eq_true', Bool.not_eq_true', not_and_or, not_and_or, Bool.not_eq_true,
    Bool.not_eq_false, Bool.not_eq_true]

theorem reportRefused_iff (z : State) (x : Nat) :
    (z.isReturn || z.isDead || decide (z.bufLen x < 3148)) = true
      ↔ (z.isReturn = true ∨ z.isDead = true) ∨ z.bufLen x < 3148 := by
  rw [Bool.or_eq_true, Bool.or_eq_true, decide_eq_true_iff]

theorem State.takeLeaf_of_left (s : State) (cache : List (List Byte)) {n e : Nat} (h : s.sec.leaf = some (n, e))
    (hlt : n < e) :
    s.takeLeaf cache = (State.setReg { s with sec := { s.sec with leaf := some (n + 1, e) } } Reg.secLeaf
      (word (2 ^ 31 + (n + 1) % 2 ^ 20)), some n, 0) := by
  unfold State.takeLeaf
  rw [h]
  dsimp only
  rw [if_pos hlt]

/-- The first block of leaves that no report has used (R424). -/
def State.freeBlock (s : State) : Option Nat :=
  (List.range 1024).find? fun k => !(s.optByte (128 + k / 8)).testBit (k % 8)

/-- A new block of leaves: programmed as used, its first leaf taken (R424). -/
def State.blockTaken (s : State) (k : Nat) : State :=
  let z := s.otpProgram (128 + k / 8) (k % 8)
  let w : State := { z with sec := { z.sec with treeChecked := true, leaf := some (1024 * k + 1, 1024 * k + 1024) } }
  State.setReg (if w.blocksFree ≤ 16 then w.event 14 else w) Reg.secLeaf (word (2 ^ 31 + (1024 * k + 1) % 2 ^ 20))

section
variable {s : State} {cache : List (List Byte)} (hl : ∀ n e, s.sec.leaf = some (n, e) → e ≤ n)
include hl

theorem State.takeLeaf_of_bad (hb : s.sec.treeBad = true) : s.takeLeaf cache = (s, none, 12) :=
  (State.takeLeaf_new hl _ rfl).trans (if_pos hb)

theorem State.takeLeaf_of_exhausted (hb : s.sec.treeBad = false) (hf : s.freeBlock = none) :
    s.takeLeaf cache = (s, none, 11) :=
  (State.takeLeaf_new hl _ hf).trans (if_neg (ne_true_of_eq_false hb))

theorem State.takeLeaf_of_block (hb : s.sec.treeBad = false) {k : Nat} (hf : s.freeBlock = some k) :
    s.takeLeaf cache = if s.sec.treeChecked = true ∨ xCacheRoot (attPart 0x55) cache = attRoot then
        (s.blockTaken k, some (1024 * k), 0)
      else ({ s with sec := { s.sec with treeBad := true } }, none, 12) := by
  have hbad : (!s.sec.treeChecked && xCacheRoot (attPart 0x55) cache != attRoot) = true
      ↔ ¬ (s.sec.treeChecked = true ∨ xCacheRoot (attPart 0x55) cache = attRoot) := by
    rw [Bool.and_eq_true, Bool.not_eq_true', bne_iff_ne, not_or, Bool.not_eq_true]
  refine (State.takeLeaf_new hl _ hf).trans ((if_neg (ne_true_of_eq_false hb)).trans ?_)
  by_cases hgood : s.sec.treeChecked = true ∨ xCacheRoot (attPart 0x55) cache = attRoot
  · rw [if_pos hgood]
    exact if_neg fun x => hbad.1 x hgood
  · rw [if_neg hgood]
    exact if_pos (hbad.2 hgood)

end

/-! ### Extends and keys (R423, R427) -/

/-- The bytes of eight registers. -/
def State.eightWords (s : State) (r : Nat → Nat) : List Byte :=
  ((List.range 8).map fun i => leBytes 4 (s.reg (r i)).toNat).flatten

theorem execSecExtendGo_eq (s : State) (b : BusWrite) (hb : s.busOk Reg.secExtend b = true) :
    execSecExtendGo b s = .next (if b.value.getLsbD 0 = true then
      (s.accepted Reg.secExtend b).extend 5 ((s.accepted Reg.secExtend b).eightWords Reg.secExtendData)
      else s.accepted Reg.secExtend b) := by
  unfold execSecExtendGo
  rw [State.busWrite_ok hb]
  rfl

theorem execAsmkeyCommit_eq (s : State) (b : BusWrite) (hb : s.busOk Reg.secAsmkeyCtrl b = true) :
    let z := s.accepted Reg.secAsmkeyCtrl b
    let w := z.store Reg.secAsmkeyCtrl b.value
    let key : BitVec 256 := BitVec.ofNat 256 (leNat (w.eightWords Reg.secAsmkeyData))
    let slot := w.fld Reg.secAsmkeyCtrl 0 0
    let u : State := { w with cyc := { w.cyc with keys := some (w.cyc.keys.getD (w.sec.key0, w.sec.key1)) } }
    let k : State := if slot = 0 then { u with sec := { u.sec with key0 := some key } }
      else { u with sec := { u.sec with key1 := some key } }
    execAsmkeyCommit b s = .next (if b.master.val ≠ 0 ∧ b.master.val ≠ 16 then z
      else if b.value.getLsbD 31 = false then w
      else (k.setFlag Reg.secAsmkeyCtrl (8 + slot)).clrRegs (Reg.secAsmkeyData 0) 8) := by
  intro z w key slot u k
  unfold execAsmkeyCommit
  rw [State.busWrite_ok hb]
  refine congrArg _ (if_congr ?_ rfl (if_congr (Eq.to_iff (Bool.not_eq_true' _)) rfl rfl))
  rw [Bool.and_eq_true, bne_iff_ne, bne_iff_ne]

/-- Settles O60, command by command from the equations above. -/
theorem imagesReportsAndKeys : Obligations.ImagesReportsAndKeys := by
  unfold Obligations.ImagesReportsAndKeys
  refine ⟨fun s => ⟨execImageVerification_of_none s, fun src rest hq => ?_⟩, fun s bs rom => ?_,
    fun s src bs payload => ?_, fun s => ⟨execFrameProgramApply_of_none s, fun p => execFrameProgramApply_of_some s⟩,
    fun s m x => rfl, fun s cache => ⟨execMeasurementReport_of_none cache s, fun x xs hq => ?_⟩,
    fun s cache n e => s.takeLeaf_of_left cache, fun s cache hl => ⟨State.takeLeaf_of_bad hl,
      State.takeLeaf_of_exhausted hl, fun k hb hf => State.takeLeaf_of_block hl hb hf⟩,
    fun s b => ⟨execSecExtendGo_eq s b, execAsmkeyCommit_eq s b⟩⟩
  · intro rom a room ready head h free open_ done all c decodes z busy
    have hrom : s.romAwaits = if rom then true else false := by
      by_cases hr : rom
      · rw [if_pos hr, (romAwaits_iff s).2 hr]
      · rw [if_neg hr]
        exact Bool.eq_false_of_not_eq_true fun x => hr ((romAwaits_iff s).1 x)
    have hexec (hready : ready) := execImageVerification_of_ready s hq hready hrom
    refine ⟨fun hno => execImageVerification_of_not_ready s hq hno, fun hr h1 => (hexec hr).trans (if_pos h1),
      fun hr h1 h2 => (hexec hr).trans ?_, fun hr h1 h2 => ⟨fun h3 => (hexec hr).trans ?_,
        fun h3 h4 => (hexec hr).trans ?_, fun h3 h4 => (hexec hr).trans ?_⟩⟩
    · exact (if_neg (ne_false_of_eq_true h1)).trans (if_pos h2)
    · exact (if_neg (ne_false_of_eq_true h1)).trans ((if_neg (Nat.not_lt.2 h2)).trans (if_pos h3))
    · refine (if_neg (ne_false_of_eq_true h1)).trans ((if_neg (Nat.not_lt.2 h2)).trans ?_)
      exact (if_neg (ne_false_of_eq_true h3)).trans (if_pos h4)
    · refine (if_neg (ne_false_of_eq_true h1)).trans ((if_neg (Nat.not_lt.2 h2)).trans ?_)
      refine (if_neg (ne_false_of_eq_true h3)).trans ((if_neg h4).trans (congrArg _ (if_congr Iff.rfl rfl ?_)))
      exact if_congr (by rw [ite_eq_left_iff, Bool.false_eq_true, imp_false, not_not]) rfl rfl
  · -- the checks, in their order
    have hlater (hf : s.ImageWellFormed bs rom) : s.imageCheck bs rom = s.imageLaterChecks bs :=
      State.imageCheck_of_wellFormed hf
    have hpass (h0 : (s.imageCheck bs rom).1 = 0) : s.ImageWellFormed bs rom := by
      by_contra hno
      rw [State.imageCheck_of_malformed hno] at h0
      exact absurd h0 Nat.one_ne_zero
    refine ⟨fun hf => congrArg Prod.fst (State.imageCheck_of_malformed hf),
      fun hf h2 => congrArg Prod.fst ((hlater hf).trans (if_pos h2)),
      fun hf h2 h3 => congrArg Prod.fst ((hlater hf).trans ((if_neg (ne_false_of_eq_true h2)).trans (if_pos h3))),
      fun hf h2 h3 h4 => congrArg Prod.fst ((hlater hf).trans (c := (4, [])) ?_),
      fun hf h2 h3 h4 h5 => congrArg Prod.fst ((hlater hf).trans (c := (5, [])) ?_),
      fun ⟨h0, hcomp⟩ => ?_, fun ⟨h0, hcomp⟩ => ?_⟩
    · exact (if_neg (ne_false_of_eq_true h2)).trans ((if_neg (not_not.2 h3)).trans (if_pos h4))
    · refine (if_neg (ne_false_of_eq_true h2)).trans ((if_neg (not_not.2 h3)).trans ?_)
      exact (if_neg (Nat.not_lt.2 h4)).trans (if_pos h5)
    · have hc := hlater (hpass h0)
      exact (congrArg Prod.snd hc).trans ((State.imageLaterChecks_payload (hc ▸ h0)).1 hcomp)
    · have hc := hlater (hpass h0)
      obtain ⟨hout, hlen⟩ := (State.imageLaterChecks_payload (hc ▸ h0)).2 hcomp
      exact ⟨(congrArg Prod.snd hc).trans hout, (congrArg (fun c => c.2.length) hc).trans hlen⟩
  · -- what a verified image does, by its type
    intro h d n ended
    have hexec := s.imageVerified_eq src bs payload
    refine ⟨fun h1 => hexec.trans ?_, fun h2 => hexec.trans ?_, fun h3 => hexec.trans ?_, fun h4 => hexec.trans ?_⟩
    · refine (if_pos h1).trans ?_
      rw [show (imageHead bs).type = 1 from h1]
      rfl
    · refine (if_neg (by rw [h2]; decide)).trans ((if_pos h2).trans ?_)
      rw [show (imageHead bs).type = 2 from h2]
      rfl
    · refine (if_neg (by rw [h3]; decide)).trans ((if_neg (by rw [h3]; decide)).trans (if_pos h3))
    · refine (if_neg (by rw [h4]; decide)).trans ((if_neg (by rw [h4]; decide)).trans ?_)
      exact if_neg (by rw [h4]; decide)
  · have hexec := execMeasurementReport_of_cons cache s hq
    refine ⟨fun h => hexec.trans (if_pos ((reportStalls_iff s x).2 h)), fun h hr => hexec.trans ?_,
      fun h hr => hexec.trans ?_⟩
    · exact (if_neg fun y => (reportStalls_iff s x).1 y h).trans (if_pos ((reportRefused_iff _ x).2 hr))
    · exact (if_neg fun y => (reportStalls_iff s x).1 y h).trans (if_neg fun y => hr ((reportRefused_iff _ x).1 y))

end Sys2Proof.Machine
